-- ==== Sys2Proof/Word.lean ====
section
/-! DEFINITION. The word and byte types of the Gritia 7160 (R10, R137, R196). -/
namespace Sys2Proof

/-- A 64-bit word: a register-store word, a system register, a virtual address. -/
abbrev Word := BitVec 64

/-- One byte of memory. -/
abbrev Byte := BitVec 8

/-- An instruction parcel (R196). -/
abbrev Parcel := BitVec 32

/-- A finite map as plain data: keys strictly rising, no entry equal to the value an unlisted key has. -/
abbrev SMap (α : Type) := List (Nat × α)

end Sys2Proof
end

