-- ==== Sys2Proof/Config.lean ====
section
/-! DEFINITION. What the manual leaves open, as constants without a body: nothing can evaluate them, so a statement holds for every
value of them. The first argument is usually the model's step counter, so that each use has a fresh value. -/
namespace Sys2Proof

/-- Cycles that step n takes beyond the first (figures for time do not bind: R3, R48, R216). Log entry 3 (DESIGN CHOICE). -/
opaque Config.moreCycles : Nat → Nat

/-- Which of several due happenings comes next at step n (R145, R287, R348 fix no order between agents). Log entry 3 (DESIGN CHOICE). -/
opaque Config.pick : Nat → Nat

/-- Which of the values that the TLBs or the walk cache hold a translation uses at step n for address a; past the last, it reads the
entry afresh (R29). Log entry 5 (DESIGN CHOICE). -/
opaque Config.useHeld : Nat → Nat → Nat

/-- Whether the fetch at step n sees what stored bytes held before the last full fence (R89). Log entry 15 (DESIGN CHOICE). -/
opaque Config.staleFetch : Nat → Bool

/-- Which of the two bracketing values VRSQ, VEXP2 or VLOG2 returns: function 0 to 2, width of the format, input bits (R274). Log entry 6 (DESIGN CHOICE). -/
opaque Config.bracketUpper : Nat → Nat → Nat → Bool

/-- Cycles from acceptance to the promised cycle of an ACOPY accepted at step n (R257). Log entry 7 (DESIGN CHOICE). -/
opaque Config.promise : Nat → Nat

/-- The i-th byte, at step n, of data the manual calls unpredictable (R131) or that a unit outside the module answers (R34). Log entry 8 (DESIGN CHOICE). -/
opaque Config.openByte : Nat → Nat → Byte

/-- The worst-case switch time SAVEMIN for a shape of W by H (R402). Log entry 9 (DESIGN CHOICE). -/
opaque Config.saveMin : Nat → Nat → Nat

/-- Whether the k-th record the trace ring would take at step n is dropped under load (R421). Log entry 10 (DESIGN CHOICE). -/
opaque Config.traceDrop : Nat → Bool

/-- Whether the caches evict at step n beyond what the victim order asks: a fetch of another hart of the die (R62). Log entry 11 (DESIGN CHOICE). -/
opaque Config.otherHarts : Nat → Nat

end Sys2Proof
end

