-- ==== Sys2Proof/Syntax.lean ====
section
/-! DEFINITION. The instructions and agent events of spec/opcode_table.json, one constructor per row (R209 to R212, and the events
of the table), with the operand shapes of the instruction chapters. -/
namespace Sys2Proof

/-- The 4-bit TYPE field (R204). -/
inductive Ty where
  | i8 | i16 | i32 | i64 | n8 | n16 | n32 | n64 | f16 | b16 | f32 | f64 | e4m3 | e5m2 | e2m1 | l6
  deriving DecidableEq, Repr

/-- An operand name (R138): relocated, special, or one of the nine reserved ones, 2,032 to 2,039 and 2,046, which no legal
instruction holds. -/
inductive Name where
  | w (n : Fin 2032)
  | bad (k : Fin 9)
  | lq0 | lq1 | sq0 | sq1 | nxt | prv | zero
  deriving DecidableEq, Repr

/-- A word source with its empty-word mode (R201): `trap` is mode 1. -/
structure Src where
  name : Name
  trap : Bool := false
  deriving DecidableEq, Repr

/-- A vector source with its mode (R141, R201). -/
structure VSrc where
  v : Fin 64
  trap : Bool := false
  deriving DecidableEq, Repr

/-- A run of relocated words starting at a name, with its mode: a record (R310), a descriptor (R256, R288). -/
structure Run where
  first : Name
  trap : Bool := false
  deriving DecidableEq, Repr

/-- An immediate in one of the three fields of R202. -/
inductive Imm where
  | i13 (v : BitVec 13)
  | i32 (v : BitVec 32)
  | i64 (v : BitVec 64)
  deriving DecidableEq, Repr

/-- The second operand of a two-source instruction: a word or an immediate (R215). -/
inductive Opnd where
  | word (s : Src)
  | imm (v : Imm)
  deriving DecidableEq, Repr

/-- The guard (R199): predicate and negation. -/
structure Guard where
  p : Fin 16 := 0
  neg : Bool := false
  deriving DecidableEq, Repr

/-- The scope of a synchronising instruction (R100, R205): a shorthand (`self` is 0 here and encodes as 1), the word named by C,
or the SCOPEX extension. -/
inductive Scope where
  | short (k : Fin 5)
  | word (c : Src)
  | ext (v : BitVec 64)
  deriving DecidableEq, Repr

/-- The offset of a memory operand (R239). -/
inductive Off where
  | short (v : BitVec 13)
  | long (v : BitVec 32)
  deriving DecidableEq, Repr

/-- Two-source scalar integer (R217, forms r and i). -/
structure Alu where
  t : Ty
  d : Name
  a : Src
  b : Opnd
  deriving DecidableEq, Repr

/-- One-source scalar integer (R217, form u). -/
structure Un where
  t : Ty
  d : Name
  a : Src
  deriving DecidableEq, Repr

/-- SEL (R217, form s). -/
structure SelArgs where
  t : Ty
  d : Name
  a : Src
  b : Src
  p : Fin 16
  deriving DecidableEq, Repr

/-- MOV (R217): a word or an immediate. -/
structure MovArgs where
  t : Ty
  d : Name
  v : Opnd
  deriving DecidableEq, Repr

/-- LEA (R222). -/
inductive LeaArgs where
  | idx (t : Ty) (d : Name) (a b : Src)
  | rel (d : Name) (v : Imm)
  deriving DecidableEq, Repr

/-- CMP (R223). -/
structure CmpArgs where
  t : Ty
  p : Fin 16
  a : Src
  b : Opnd
  deriving DecidableEq, Repr

/-- PAND, POR, PXOR (R224). -/
structure PBin where
  d : Fin 16
  a : Fin 16
  b : Fin 16
  deriving DecidableEq, Repr

/-- PNOT, PMOV (R224). -/
structure PUn where
  d : Fin 16
  a : Fin 16
  deriving DecidableEq, Repr

/-- The target of CALL (R226). -/
inductive Target where
  | rel (v : Imm)
  | reg (a : Src)
  deriving DecidableEq, Repr

/-- CALL (R225). -/
structure CallArgs where
  d : Name
  t : Target
  deriving DecidableEq, Repr

/-- LOOP (R225). -/
structure LoopArgs where
  d : Name
  off : Imm
  deriving DecidableEq, Repr

/-- The three lengths (R196). -/
inductive Len where
  | l64 | l96 | l128
  deriving DecidableEq, Repr

/-- WLD and WST (R229): word, index base, signed index offset. -/
structure WIdx where
  d : Name
  a : Name
  off : BitVec 13
  deriving DecidableEq, Repr

/-- The count of WSCRUB and WDRAIN (R236). -/
inductive Count where
  | word (s : Src)
  | imm (v : BitVec 13)
  deriving DecidableEq, Repr

/-- WSCRUB and WDRAIN (R229). -/
structure WRange where
  a : Src
  c : Count
  deriving DecidableEq, Repr

/-- WPUSH (R229). -/
structure WPushArgs where
  a : Name
  cls : Fin 4
  deriving DecidableEq, Repr

/-- A plain load or store (R239, R242). -/
structure Mem where
  t : Ty
  nud : Fin 16
  d : Name
  a : Name
  off : Off
  deriving DecidableEq, Repr

/-- An acquire load or a release store (R242, R243). -/
structure MemSync where
  t : Ty
  nud : Fin 16
  d : Name
  a : Name
  off : Off
  sc : Scope
  deriving DecidableEq, Repr

/-- LDV, STV (R244). -/
structure VMem where
  t : Ty
  nud : Fin 16
  v : Fin 64
  a : Name
  off : Off
  deriving DecidableEq, Repr

/-- LDV.acq, STV.rel (R244). -/
structure VMemSync where
  t : Ty
  nud : Fin 16
  v : Fin 64
  a : Name
  off : Off
  sc : Scope
  deriving DecidableEq, Repr

/-- LDVS, STVS (R245): base, stride word, lane mask word of the 96-bit form. -/
structure VStride where
  t : Ty
  nud : Fin 16
  v : Fin 64
  a : Src
  b : Src
  m : Option Src
  deriving DecidableEq, Repr

/-- LDVX, STVX (R245): base, index vector, lane mask word. -/
structure VIndex where
  t : Ty
  nud : Fin 16
  v : Fin 64
  a : Src
  b : VSrc
  m : Option Src
  deriving DecidableEq, Repr

/-- LDP (R246): window k, offset and the index word of the 96-bit form. -/
structure LdpArgs where
  t : Ty
  nud : Fin 16
  d : Name
  k : Fin 8
  off : BitVec 13
  c : Option Src
  deriving DecidableEq, Repr

/-- PREF (R247). -/
structure PrefArgs where
  nud : Fin 16
  a : Name
  off : Off
  deriving DecidableEq, Repr

/-- FLUSH (R247). -/
structure FlushArgs where
  a : Name
  off : Off
  deriving DecidableEq, Repr

/-- The ORD field of AMO (R205). -/
inductive Ord4 where
  | none | acq | rel | ar
  deriving DecidableEq, Repr

/-- AMO (R251). -/
structure Amo where
  t : Ty
  nud : Fin 16
  ord : Ord4
  d : Name
  a : Src
  b : Src
  sc : Scope
  deriving DecidableEq, Repr

/-- BARINIT (R254). -/
structure BarInit where
  d : Name
  a : Src
  b : Src
  sc : Scope
  deriving DecidableEq, Repr

/-- BARARR and BARWAIT (R254). -/
structure BarDA where
  d : Name
  a : Src
  sc : Scope
  deriving DecidableEq, Repr

/-- BARBYTES (R254). -/
structure BarAB where
  a : Src
  b : Src
  sc : Scope
  deriving DecidableEq, Repr

/-- WAITLN (R248). -/
structure WaitArgs where
  t : Ty
  d : Name
  a : Name
  off : Off
  deriving DecidableEq, Repr

/-- ACOPY (R256): token and descriptor. -/
structure AcopyArgs where
  nud : Fin 16
  tok : Name
  a : Run
  sc : Scope
  deriving DecidableEq, Repr

/-- GATHER and SCATTER (R258): `wide` is the 8-byte index format. -/
structure GatherArgs where
  wide : Bool
  nud : Fin 16
  tok : Name
  a : Run
  b : VSrc
  sc : Scope
  deriving DecidableEq, Repr

/-- The operands of a one-source vector instruction, vector or scalar form (R268). -/
inductive VOp1 where
  | vec (d : Fin 64) (a : VSrc)
  | scl (d : Name) (a : Src)
  deriving DecidableEq, Repr

/-- The operands of a two-source vector instruction (R268). -/
inductive VOp2 where
  | vec (d : Fin 64) (a b : VSrc)
  | scl (d : Name) (a b : Src)
  deriving DecidableEq, Repr

/-- The operands of a three-source vector instruction (R268). -/
inductive VOp3 where
  | vec (d : Fin 64) (a b c : VSrc)
  | scl (d : Name) (a b c : Src)
  deriving DecidableEq, Repr

/-- A vector instruction with one source (R270). -/
structure Vec1 where
  t : Ty
  rm : Fin 8
  o : VOp1
  deriving DecidableEq, Repr

/-- A vector instruction with two sources (R270). -/
structure Vec2 where
  t : Ty
  rm : Fin 8
  o : VOp2
  deriving DecidableEq, Repr

/-- A vector instruction with three sources (R270). -/
structure Vec3 where
  t : Ty
  rm : Fin 8
  o : VOp3
  deriving DecidableEq, Repr

/-- VCMP (R276): the destination is a word in both forms. -/
inductive VCmpArgs where
  | vec (t : Ty) (d : Name) (a b : VSrc)
  | scl (t : Ty) (d : Name) (a b : Src)
  deriving DecidableEq, Repr

/-- VSEL (R277). -/
inductive VSelArgs where
  | vec (t : Ty) (d : Fin 64) (a b : VSrc) (c : Src)
  | scl (t : Ty) (d : Name) (a b c : Src)
  deriving DecidableEq, Repr

/-- VMASK (R277). -/
inductive VMaskArgs where
  | vec (t : Ty) (d : Name) (a : VSrc)
  | scl (t : Ty) (d : Name) (a : Src)
  deriving DecidableEq, Repr

/-- VPACK and VUNPACK (R280). -/
structure VPackArgs where
  t : Ty
  d : Fin 64
  a : VSrc
  pos : Fin 8
  deriving DecidableEq, Repr

/-- VCVT (R279): target, source, rounding mode, operands, and H of the vector form. -/
inductive VCvtArgs where
  | vec (t s : Ty) (rm : Fin 8) (d : Fin 64) (a : VSrc) (hi : Bool)
  | scl (t s : Ty) (rm : Fin 8) (d : Name) (a : Src)
  deriving DecidableEq, Repr

/-- VREDADD, VREDMAX, VREDMIN (R281). -/
structure VRedArgs where
  t : Ty
  rm : Fin 8
  d : Name
  a : VSrc
  deriving DecidableEq, Repr

/-- VSCAN (R282). -/
structure VScanArgs where
  t : Ty
  rm : Fin 8
  d : Fin 64
  a : VSrc
  b : Src
  deriving DecidableEq, Repr

/-- VPERM (R283). -/
structure VPermArgs where
  t : Ty
  d : Fin 64
  a : VSrc
  b : VSrc
  deriving DecidableEq, Repr

/-- VBCAST (R283). -/
structure VBcastArgs where
  t : Ty
  d : Fin 64
  a : Src
  deriving DecidableEq, Repr

/-- VSHUF (R284). -/
structure VShufArgs where
  t : Ty
  d : Fin 64
  a : VSrc
  b : VSrc
  c : Src
  deriving DecidableEq, Repr

/-- VLDS (R285). -/
structure VLdsArgs where
  t : Ty
  d : Name
  a : VSrc
  b : Src
  deriving DecidableEq, Repr

/-- VINS (R285). -/
structure VInsArgs where
  t : Ty
  d : Fin 64
  a : Src
  b : Src
  deriving DecidableEq, Repr

/-- The MATX extension (R203). -/
structure Matx where
  klim : BitVec 8
  kcount : BitVec 12
  rowmask : BitVec 32
  deriving DecidableEq, Repr

/-- MMA and MMAS (R292). -/
structure MmaArgs where
  rm : Fin 8
  nud : Fin 16
  tile : Fin 4
  tok : Name
  a : Run
  x : Option Matx
  deriving DecidableEq, Repr

/-- MMA.STEP (R378). -/
structure MmaStepArgs where
  rm : Fin 8
  nud : Fin 16
  tile : Fin 4
  tok : Name
  a : Run
  deriving DecidableEq, Repr

/-- MROT (R297). -/
structure MrotArgs where
  rm : Fin 8
  tile : Fin 4
  tok : Name
  a : Run
  deriving DecidableEq, Repr

/-- MLDA, MLDB (R296), DSSSTEP (R380) and the memory kinds of DSSCUT (R381). -/
structure TokArgs where
  nud : Fin 16
  tok : Name
  a : Run
  deriving DecidableEq, Repr

/-- MLD, MLDT (R299). -/
structure MldArgs where
  nud : Fin 16
  tile : Fin 4
  tok : Name
  a : Run
  deriving DecidableEq, Repr

/-- MST (R300). -/
structure MstArgs where
  t : Ty
  rm : Fin 8
  nud : Fin 16
  tile : Fin 4
  tok : Name
  a : Run
  deriving DecidableEq, Repr

/-- MRD (R302). -/
structure MrdArgs where
  d : Name
  sel : BitVec 13
  deriving DecidableEq, Repr

/-- MSAVE (R303), DSSBIND (R377). -/
structure TokPlain where
  tok : Name
  a : Run
  deriving DecidableEq, Repr

/-- DSSCUT kind 0 (R381). -/
structure CutRead where
  d : Name
  a : Run
  deriving DecidableEq, Repr

/-- SEND, VSEND, DEFER (R311, R360). -/
structure SendArgs where
  a : Src
  r : Run
  sc : Scope
  deriving DecidableEq, Repr

/-- The rectangle send (R313). -/
structure SendRect where
  core0 : BitVec 13
  core1 : BitVec 13
  r : Run
  sc : Fin 5
  deriving DecidableEq, Repr

/-- SPAWN (R311). -/
structure SpawnArgs where
  r : Run
  sc : Scope
  deriving DecidableEq, Repr

/-- EVADD, EVSET, LAUNCH (R311). -/
structure EvArgs where
  d : Name
  a : Src
  b : Src
  sc : Scope
  deriving DecidableEq, Repr

/-- PARK (R311). -/
structure ParkArgs where
  a : Name
  n : BitVec 13
  sc : Scope
  deriving DecidableEq, Repr

/-- SREAD, SWRITE, NETTX, NETRX (R311). -/
structure IoArgs where
  nud : Fin 16
  tok : Name
  a : Run
  sc : Scope
  deriving DecidableEq, Repr

/-- DOMAIN (R360), TLBI (R329). -/
structure TwoSrc where
  a : Src
  b : Src
  deriving DecidableEq, Repr

/-- MFS (R329). -/
structure MfsArgs where
  d : Name
  reg : BitVec 13
  deriving DecidableEq, Repr

/-- MTS (R329). -/
structure MtsArgs where
  reg : BitVec 13
  a : Name
  deriving DecidableEq, Repr

/-- CENSUS (R329). -/
structure CensusArgs where
  d : Name
  a : Name
  deriving DecidableEq, Repr

/-! ### Plain data that events carry -/

/-- A task record: eight words (R154). -/
structure Rec where
  w0 : Word := 0
  w1 : Word := 0
  w2 : Word := 0
  w3 : Word := 0
  w4 : Word := 0
  w5 : Word := 0
  w6 : Word := 0
  w7 : Word := 0
  deriving DecidableEq, Repr

/-- The launch context a record carries (R312): every dispatch of the launch loads it (R158). -/
structure LaunchCtx where
  lnid : Word := 0
  asid : Word := 0
  cbase : Word := 0
  seed : Word := 0
  rm : Nat := 0
  pwb : List Word := []
  pwl : List Word := []
  deriving DecidableEq, Repr

/-- A key of virtual time (R354). -/
structure Key where
  t : Word
  k : Word
  deriving DecidableEq, Repr

/-- A record on its way to this core (R160, R312): the scope it was sent at, the key of an optimistic message, the sender. -/
structure Delivery where
  r : Rec
  ctx : LaunchCtx
  scope : Word := 0
  key : Option Key := none
  sender : Nat := 0
  deriving DecidableEq, Repr

/-- A write or read of memory by the host, or by another device, as bytes at a physical address (R122, R436). -/
structure ExtAccess where
  pa : Nat
  len : Nat
  bytes : List Byte
  write : Bool
  deriving DecidableEq, Repr

/-- An access of a hart of another device (R121, R436): its core, and whether it is synchronising. -/
structure HartAccess extends ExtAccess where
  core : Nat
  sync : Bool
  deriving DecidableEq, Repr

/-- A write of a KICK register by a core of the partition (R126, R261): its number and the value. -/
structure KickBy where
  core : Nat
  v : Word
  deriving DecidableEq, Repr

/-- A failed flit (R136): how many times it has failed, and the die that the link leads to, as device * 1024 + die. -/
structure CrcFail where
  count : Nat
  die : Nat
  deriving DecidableEq, Repr

/-- How an MROT's buffer is marked (R297): the sender's rectangle, and the number of that MROT since its queue last loaded a buffer. -/
structure RotTag where
  rect : Word
  m : Nat
  deriving DecidableEq, Repr

/-- What an I/O device answers to a request (R325 to R327): the part outside the module. -/
structure IoAnswer where
  done : Nat
  info : Word
  status : Nat
  data : List Byte
  deriving DecidableEq, Repr

/-- Where a stored bit changes (R133): in memory or in one of the caches, or in a local store. -/
inductive ErrAt where
  | memory | msc | l2 | rdc | l1 | store
  deriving DecidableEq, Repr

/-- One instruction of the core or one event of another agent: one constructor per row of spec/opcode_table.json. The docstring of a
row that is no encoding names the agent and the rule. -/
inductive Instr where
  | add (g : Guard) (x : Alu) | sub (g : Guard) (x : Alu) | mul (g : Guard) (x : Alu) | mulh (g : Guard) (x : Alu)
  | div (g : Guard) (x : Alu) | rem (g : Guard) (x : Alu) | min (g : Guard) (x : Alu) | max (g : Guard) (x : Alu)
  | abs (g : Guard) (x : Un)
  | and (g : Guard) (x : Alu) | or (g : Guard) (x : Alu) | xor (g : Guard) (x : Alu) | andn (g : Guard) (x : Alu)
  | shl (g : Guard) (x : Alu) | shr (g : Guard) (x : Alu) | sra (g : Guard) (x : Alu) | rot (g : Guard) (x : Alu)
  | clz (g : Guard) (x : Un) | ctz (g : Guard) (x : Un) | popc (g : Guard) (x : Un) | brev (g : Guard) (x : Un)
  | bswap (g : Guard) (x : Un)
  | ext (g : Guard) (x : Alu) | ins (g : Guard) (x : Alu)
  | sel (g : Guard) (x : SelArgs) | mov (g : Guard) (x : MovArgs) | lea (g : Guard) (x : LeaArgs)
  | cmpEq (g : Guard) (x : CmpArgs) | cmpNe (g : Guard) (x : CmpArgs) | cmpLt (g : Guard) (x : CmpArgs)
  | cmpLe (g : Guard) (x : CmpArgs) | cmpGt (g : Guard) (x : CmpArgs) | cmpGe (g : Guard) (x : CmpArgs)
  | cmpUn (g : Guard) (x : CmpArgs)
  | pand (g : Guard) (x : PBin) | por (g : Guard) (x : PBin) | pxor (g : Guard) (x : PBin)
  | pnot (g : Guard) (x : PUn) | pmov (g : Guard) (x : PUn)
  | br (g : Guard) (off : Imm) | jmp (g : Guard) (a : Src) | call (g : Guard) (x : CallArgs) | ret (g : Guard) (a : Src)
  | loop (g : Guard) (x : LoopArgs) | nop (l : Len) | brk (g : Guard) (v : BitVec 13)
  | setwin (g : Guard) (a : Src) | rdwin (g : Guard) (d : Name) | swctx (g : Guard) (a : Src)
  | wld (g : Guard) (x : WIdx) | wst (g : Guard) (x : WIdx) | wpush (g : Guard) (x : WPushArgs)
  | wscrub (g : Guard) (x : WRange) | wdrain (g : Guard) (x : WRange)
  | setutw (g : Guard) (a : Src) | wret (g : Guard)
  | ld (g : Guard) (x : Mem) | ldAcq (g : Guard) (x : MemSync) | st (g : Guard) (x : Mem) | stRel (g : Guard) (x : MemSync)
  | ldv (g : Guard) (x : VMem) | ldvAcq (g : Guard) (x : VMemSync) | stv (g : Guard) (x : VMem) | stvRel (g : Guard) (x : VMemSync)
  | ldvs (g : Guard) (x : VStride) | stvs (g : Guard) (x : VStride) | ldvx (g : Guard) (x : VIndex) | stvx (g : Guard) (x : VIndex)
  | ldp (g : Guard) (x : LdpArgs)
  | pref (g : Guard) (x : PrefArgs) | prefL2 (g : Guard) (x : PrefArgs) | prefMsc (g : Guard) (x : PrefArgs)
  | flush (g : Guard) (x : FlushArgs) | flushMem (g : Guard) (x : FlushArgs)
  | amoAdd (g : Guard) (x : Amo) | amoAnd (g : Guard) (x : Amo) | amoOr (g : Guard) (x : Amo) | amoXor (g : Guard) (x : Amo)
  | amoMin (g : Guard) (x : Amo) | amoMax (g : Guard) (x : Amo) | amoSwap (g : Guard) (x : Amo) | amoCas (g : Guard) (x : Amo)
  | fenceAcq (g : Guard) (sc : Scope) | fenceRel (g : Guard) (sc : Scope) | fenceFull (g : Guard) (sc : Scope)
  | barinit (g : Guard) (x : BarInit) | bararr (g : Guard) (x : BarDA) | barwait (g : Guard) (x : BarDA)
  | barbytes (g : Guard) (x : BarAB)
  | waitln (g : Guard) (x : WaitArgs) | sleep (g : Guard) (a : Name) | sleepProm (g : Guard) (a : Name)
  | acopy (g : Guard) (x : AcopyArgs) | gather (g : Guard) (x : GatherArgs) | scatter (g : Guard) (x : GatherArgs)
  | vadd (g : Guard) (x : Vec2) | vsub (g : Guard) (x : Vec2) | vmul (g : Guard) (x : Vec2)
  | vfma (g : Guard) (x : Vec3) | vfms (g : Guard) (x : Vec3) | vdiv (g : Guard) (x : Vec2)
  | vmin (g : Guard) (x : Vec2) | vmax (g : Guard) (x : Vec2) | vabs (g : Guard) (x : Vec1) | vneg (g : Guard) (x : Vec1)
  | vsqrt (g : Guard) (x : Vec1) | vrsq (g : Guard) (x : Vec1) | vexp2 (g : Guard) (x : Vec1) | vlog2 (g : Guard) (x : Vec1)
  | vladd (g : Guard) (x : Vec2)
  | vcmpEq (g : Guard) (x : VCmpArgs) | vcmpNe (g : Guard) (x : VCmpArgs) | vcmpLt (g : Guard) (x : VCmpArgs)
  | vcmpLe (g : Guard) (x : VCmpArgs) | vcmpGt (g : Guard) (x : VCmpArgs) | vcmpGe (g : Guard) (x : VCmpArgs)
  | vcmpUn (g : Guard) (x : VCmpArgs)
  | vsel (g : Guard) (x : VSelArgs) | vmask (g : Guard) (x : VMaskArgs) | vpopc (g : Guard) (x : Vec1)
  | vand (g : Guard) (x : Vec2) | vor (g : Guard) (x : Vec2) | vxor (g : Guard) (x : Vec2)
  | vshl (g : Guard) (x : Vec2) | vshr (g : Guard) (x : Vec2) | vsra (g : Guard) (x : Vec2)
  | vpack (g : Guard) (x : VPackArgs) | vunpack (g : Guard) (x : VPackArgs)
  | vcvt (g : Guard) (x : VCvtArgs) | vcvtSat (g : Guard) (x : VCvtArgs) | vcvtOvf (g : Guard) (x : VCvtArgs)
  | vredadd (g : Guard) (x : VRedArgs) | vredmax (g : Guard) (x : VRedArgs) | vredmin (g : Guard) (x : VRedArgs)
  | vscan (g : Guard) (x : VScanArgs) | vperm (g : Guard) (x : VPermArgs) | vbcast (g : Guard) (x : VBcastArgs)
  | vshuf (g : Guard) (x : VShufArgs) | vmov (g : Guard) (x : Vec1) | vlds (g : Guard) (x : VLdsArgs)
  | vins (g : Guard) (x : VInsArgs)
  | mmaF (g : Guard) (x : MmaArgs) | mmaI (g : Guard) (x : MmaArgs) | mmaSat (g : Guard) (x : MmaArgs)
  | mmaStep (g : Guard) (x : MmaStepArgs)
  | mmas24F (g : Guard) (x : MmaArgs) | mmas24I (g : Guard) (x : MmaArgs) | mmas24Sat (g : Guard) (x : MmaArgs)
  | mmas48F (g : Guard) (x : MmaArgs) | mmas48I (g : Guard) (x : MmaArgs) | mmas48Sat (g : Guard) (x : MmaArgs)
  | mrotF (g : Guard) (x : MrotArgs) | mrotI (g : Guard) (x : MrotArgs) | mrotSat (g : Guard) (x : MrotArgs)
  | mlda (g : Guard) (x : TokArgs) | mldb (g : Guard) (x : TokArgs) | mzero (g : Guard) (tile : Fin 4)
  | mld (g : Guard) (x : MldArgs) | mldt (g : Guard) (x : MldArgs) | mthr (g : Guard) (a : Src) | mrd (g : Guard) (x : MrdArgs)
  | msave (g : Guard) (x : TokPlain) | msaveRst (g : Guard) (x : TokPlain) | mst (g : Guard) (x : MstArgs)
  | dssbind (g : Guard) (x : TokPlain) | dssstep (g : Guard) (x : TokArgs)
  | dsscutRead (g : Guard) (x : CutRead) | dsscutImpose (g : Guard) (x : TokArgs) | dsscutUnimpose (g : Guard) (a : Run)
  | dsscutStoreImage (g : Guard) (x : TokArgs) | dsscutLoadImage (g : Guard) (x : TokArgs)
  | send (g : Guard) (x : SendArgs) | sendRect (g : Guard) (x : SendRect) | spawn (g : Guard) (x : SpawnArgs)
  | spawnev (g : Guard) (x : SendArgs) | evadd (g : Guard) (x : EvArgs) | evset (g : Guard) (x : EvArgs)
  | park (g : Guard) (x : ParkArgs) | tend (g : Guard) | launch (g : Guard) (x : EvArgs) | yield (g : Guard) (n : BitVec 13)
  | sread (g : Guard) (x : IoArgs) | swrite (g : Guard) (x : IoArgs) | nettx (g : Guard) (x : IoArgs) | netrx (g : Guard) (x : IoArgs)
  | domain (g : Guard) (x : TwoSrc) | domexit (g : Guard) | vsend (g : Guard) (x : SendArgs)
  | vtnow (g : Guard) (d : Name) | gvtrd (g : Guard) (d : Name) | safe (g : Guard) | defer (g : Guard) (x : SendArgs)
  | trap (g : Guard) (v : BitVec 13) | rett (g : Guard) | mfs (g : Guard) (x : MfsArgs) | mts (g : Guard) (x : MtsArgs)
  | tlbiPage (g : Guard) (x : TwoSrc)
  /-- The TLBI whose control word has KIND 1 (R332): the same words as `tlbiPage`, told apart by the value of word(B). -/
  | tlbiAsid (g : Guard) (x : TwoSrc)
  /-- The TLBI whose control word has KIND 2 (R332). -/
  | tlbiPartition (g : Guard) (x : TwoSrc)
  | idle (g : Guard) | halt (g : Guard)
  | censusStore (g : Guard) (x : CensusArgs) | censusCompare (g : Guard) (x : CensusArgs) | censusClear (g : Guard) (x : CensusArgs)
  /-- MTS to register 0x059 (R395). -/
  | suspend (g : Guard) (a : Name)
  /-- MTS to register 0x03B (R47). -/
  | plsync (g : Guard) (a : Name)
  /-- MTS to register 0x026 (R52). -/
  | lsfa (g : Guard) (a : Name)
  /-- A page walk completes for this core: address, kind of access (0 read, 1 write, 2 execute, 3 atomic) (R27, R28). -/
  | pageWalk (va : Word) (kind : Nat)
  /-- The k-th outstanding binding lands (R145). -/
  | bindingLand (k : Nat)
  /-- The ageing sweep visits the k-th cache line held (R61). -/
  | ageingSweep (k : Nat)
  /-- A policing interval ends (R66). -/
  | policingIntervalEnd
  /-- The gather engines serve the lanes of the oldest gather or scatter not yet served (R71). -/
  | gatherEngineServe
  /-- The token of the oldest served gather or scatter fills (R72). -/
  | gatherTokenFill
  /-- The copy engine accepts the oldest ACOPY not yet accepted (R257). -/
  | acopyAccept
  /-- The oldest accepted ACOPY completes or faults (R257). -/
  | acopyComplete
  /-- A release store to the KICK register of channel k of cluster c (R261). -/
  | kick (c k : Nat) (v : KickBy)
  /-- Channel k of cluster c fetches and performs one transfer record (R261). -/
  | transferRecord (c k : Nat)
  /-- The matrix arbiter gives this core's queue one grant (R304). -/
  | matrixGrant
  /-- The running matrix or sequencer command fills its token (R289). -/
  | matrixTokenFill
  /-- An MROT's buffers have not arrived in time (R297). -/
  | rotlate
  /-- CYC reaches the promise of the SLEEP.prom the core waits in (R250). -/
  | promise
  /-- CYC reaches the target of the SLEEP the core waits in (R250). -/
  | sleepWake
  /-- The line the k-th parked WAITLN or BARWAIT watches has been written (R248). -/
  | waitlnLineWritten (k : Nat)
  /-- The spin time of a waiting WAITLN or BARWAIT is over (R248). -/
  | waitlnSpinTimeout
  /-- The 65,536 cycles of the k-th parked WAITLN or BARWAIT are over (R248). -/
  | waitlnParkTimeout (k : Nat)
  /-- REMAIN is 0 at an instruction boundary (R162). -/
  | budget
  /-- A ring wait has lasted 65,536 cycles with the neighbour idle (R166). -/
  | ringlockIdle
  /-- A record arrives at this core (R160, R312). -/
  | recordDelivery (x : Delivery)
  /-- A record held at a full overflow ring is offered again (R160). -/
  | overflowReoffer
  /-- The free core takes the next record and dispatches it (R158, R348). -/
  | dispatch
  /-- The dispatched handler's footprint is placed and pinned (R161). -/
  | footprintFetch
  /-- A yielded task becomes dispatchable after 4,096 idle cycles (R321). -/
  | yieldHoldExpiry
  /-- A thief begins another round of steals (R347). -/
  | stealRoundWait
  /-- The queue engine starts the head launch of queue q (R340). -/
  | launchStart (q : Nat)
  /-- A positive optimistic record arrives (R364). -/
  | optimisticArrival (x : Delivery)
  /-- An anti-message arrives, naming its positive's key (R364). -/
  | antiMessageArrival (k : Key)
  /-- The core reports its least key in play (R365). -/
  | gvtReport
  /-- The reduced key is broadcast and installed (R365, R366). -/
  | gvtInstall (k : Key)
  /-- The I/O engine accepts the oldest request (R324). -/
  | ioAccept
  /-- A storage request has had no completion for 2^32 cycles (R326). -/
  | ioTimeout (seq : Nat)
  /-- A pull fails or times out (R411). -/
  | pullFailed (page : Nat)
  /-- The oldest entry waiting for room in the event ring is tried again (R409). -/
  | eventRingOverrunWait
  /-- An encoding that no instruction is assigned, or that breaks a rule of its form: DETAIL and parcel 0 (R206, R208). -/
  | unassignedEncoding (detail : Nat) (parcel : Parcel)
  /-- A fetch that fails: cause code and TINFO (R207 step 1). -/
  | fetchFault (cause : Nat) (info : Word)
  /-- A die's full region table evicts an entry of this core's region (R85, R119). -/
  | regionTableEviction
  /-- A host access that conflicts with this core's live region, waiting at the home (R123). -/
  | hostBoundary (x : ExtAccess)
  /-- A write of CFG of channel k of cluster c (R259). -/
  | cfg (c k : Nat) (v : Word)
  /-- A write of STAT of channel k of cluster c (R261). -/
  | haltResume (c k : Nat) (v : Word)
  /-- A release store to FREE of channel k of cluster c (R130). -/
  | free (c k : Nat) (v : Word)
  /-- A rotated operand buffer arrives: A or B, its bytes, and how it is marked (R297). -/
  | mrotBufferArrival (isA : Bool) (bytes : List Byte) (tag : RotTag)
  /-- A doorbell write of LQTAIL of queue q (R338). -/
  | lqtail (q : Nat) (v : Word)
  /-- A write of this core's PREEMPT register (R394). -/
  | preempt (v : Word)
  /-- A write of STEALSEED (R347). -/
  | stealseed (v : Word)
  /-- The I/O engine completes request `seq` with what the device answered (R131, R325). -/
  | ioComplete (seq : Nat) (x : IoAnswer)
  /-- A frame arrives for queue q: its bytes, and whether its FCS is bad and delivered (R327). -/
  | frameReceived (q : Nat) (bytes : List Byte) (fcsBad : Bool)
  /-- A release store to COLLKICK (R437). -/
  | collkick (v : Word)
  /-- The collective engine serves one record with the other devices' data, in ascending device number, and the status the fabric
  gives it: 0, or 2 for an unreachable device, or 1 where the members' records differ (R437). -/
  | collectiveRecord (data : List (Nat × List Byte)) (fabric : Nat)
  /-- A host write to device memory (R122). -/
  | hostWrite (x : ExtAccess)
  /-- A host read of device memory (R122, R442). -/
  | hostRead (x : ExtAccess)
  /-- A host access through BAR0: offset, size, write, value (R433). -/
  | hostBar0Access (off size : Nat) (write : Bool) (v : Word)
  /-- A memory access from another device (R436). -/
  | fabricAccess (dev : Nat) (x : HartAccess)
  /-- A mesh flit arrives with bad parity; `again` tells whether its resend failed too, `mine` whether this core's traffic was in it (R136). -/
  | meshFlitParity (again mine : Bool)
  /-- A flit of a link fails its CRC; `reads` are the bindings of this core whose
  loads, or whose commands' reads, are in flight over it, and `write` is the address of a write of its hart in flight over it that is no
  write-back (R136). -/
  | linkCrcFail (f : CrcFail) (reads : List Nat) (write : Option Word)
  /-- A dirty sector of this partition cannot be written back (R135). -/
  | writebackLost (pa : Nat)
  /-- An entry is posted to the event ring of the running virtual device (R409). -/
  | eventPost (kind : Nat) (info more : Word)
  /-- An access to an absent page begins to pull it (R410). -/
  | pagePull (page : Nat)
  /-- A parity error becomes pending at this core: DETAIL and physical word (R398). -/
  | machine (detail phys : Nat)
  /-- A write of VDCTL of virtual device v (R404, R406). -/
  | vdctl (v : Nat) (x : Word)
  /-- The running virtual device's quantum ends (R407). -/
  | quantumEnd
  /-- A slice has not drained in time (R407). -/
  | sliceLate
  /-- A write of HALTCTL (R422). -/
  | go (v : Word)
  /-- A write of ERRCNT (R397). -/
  | errcnt (v : Word)
  /-- A write of the unit register at a local address that has no behaviour of its own (R330, R337, R402, R404). -/
  | registerWrite (addr : Nat) (v : Word)
  /-- One boot step of R439; `ok` tells whether the images' signatures hold, `dev` the device number the fabric gives. -/
  | boot (ok : Bool) (dev : Nat)
  /-- A die reaches 105 degrees (R441). -/
  | thermalThrottle
  /-- A die reaches 115 degrees (R441). -/
  | thermalHalt
  /-- The controller moves the module to a power state 0 to 3 (R440). -/
  | powerState (m : Fin 4)
  /-- A stored bit changes of itself: local or physical address of a byte of the unit, whether the check corrects it, where it lies (R133, R135). -/
  | softError (addr : Nat) (corrected : Bool) (place : ErrAt)
  /-- A pulled page arrives with its bytes (R410). -/
  | pageArrival (page : Nat) (bytes : List (Nat × Byte))
  deriving DecidableEq, Repr

end Sys2Proof
end

