-- ==== Sys2Proof/Machine/Bits.lean ====
section
/-! DEFINITION. Bit fields, extension and the type tables of R174 to R176, R204 and R267. -/
namespace Sys2Proof

/-- Bits [hi:lo] of a word as a number. -/
def bits (x : Word) (hi lo : Nat) : Nat := (x.toNat >>> lo) % 2 ^ (hi + 1 - lo)

/-- Bit i of a word. -/
def bit (x : Word) (i : Nat) : Bool := x.getLsbD i

/-- Bits [hi:lo] of x replaced by the low bits of v. -/
def setBits (x : Word) (hi lo v : Nat) : Word :=
  let m := (2 ^ (hi + 1 - lo) - 1) <<< lo
  BitVec.ofNat 64 ((x.toNat &&& (2 ^ 64 - 1 - m)) ||| ((v <<< lo) &&& m))

/-- A field of a value placed at bit lo. -/
def fld (v lo : Nat) : Nat := v <<< lo

/-- A number as a word. -/
def wd (n : Nat) : Word := BitVec.ofNat 64 n

/-- Zero-extension of the low w bits (R214). -/
def zext (x : Word) (w : Nat) : Nat := x.toNat % 2 ^ w

/-- Sign of the low w bits as an integer (R214): `sext`. -/
def sextI (n w : Nat) : Int :=
  let m := n % 2 ^ w
  if w ≠ 0 ∧ 2 ^ (w - 1) ≤ m then (m : Int) - 2 ^ w else m

/-- An integer as a number modulo 2^w. -/
def modI (x : Int) (w : Nat) : Nat := (x % (2 ^ w : Int)).toNat

/-- An integer as a word, modulo 2^64. -/
def wdI (x : Int) : Word := wd (modI x 64)

/-- Number of bits a type names (R174, R176, R179). -/
def Ty.width : Ty → Nat
  | .i8 => 8 | .i16 => 16 | .i32 => 32 | .i64 => 64
  | .n8 => 8 | .n16 => 16 | .n32 => 32 | .n64 => 64
  | .f16 => 16 | .b16 => 16 | .f32 => 32 | .f64 => 64
  | .e4m3 => 8 | .e5m2 => 8 | .e2m1 => 4 | .l6 => 6

/-- The code of a type in the TYPE field (R204). -/
def Ty.code : Ty → Nat
  | .i8 => 0 | .i16 => 1 | .i32 => 2 | .i64 => 3 | .n8 => 4 | .n16 => 5 | .n32 => 6 | .n64 => 7
  | .f16 => 8 | .b16 => 9 | .f32 => 10 | .f64 => 11 | .e4m3 => 12 | .e5m2 => 13 | .e2m1 => 14 | .l6 => 15

/-- The type of a code. -/
def Ty.ofCode (n : Nat) : Ty :=
  match n % 16 with
  | 0 => .i8 | 1 => .i16 | 2 => .i32 | 3 => .i64 | 4 => .n8 | 5 => .n16 | 6 => .n32 | 7 => .n64
  | 8 => .f16 | 9 => .b16 | 10 => .f32 | 11 => .f64 | 12 => .e4m3 | 13 => .e5m2 | 14 => .e2m1 | _ => .l6

/-- The .I types (R174). -/
def Ty.signed (t : Ty) : Bool := t.code < 4

/-- The integer types 0x0 to 0x7. -/
def Ty.isInt (t : Ty) : Bool := t.code < 8

/-- The types 0x8 to 0xB: Float of R270. -/
def Ty.isFloat (t : Ty) : Bool := 8 ≤ t.code && t.code < 12

/-- Bytes of one element in memory for LD, ST, LDV and MST (R242, R244). -/
def Ty.bytes (t : Ty) : Nat := (t.width + 7) / 8

/-- Lanes of a vector (R267). -/
def Ty.lanes (t : Ty) : Nat := if t.width = 64 then 32 else 64

/-- How a narrow result fills its word (R175, R221). Log entry 25 (DEDUCED). -/
def Ty.extend (t : Ty) (n : Nat) : Word :=
  if t.signed then wdI (sextI n t.width) else wd (n % 2 ^ t.width)

/-- How an element fills its lane (R267), as a number of the lane's width. Log entry 25 (DEDUCED). -/
def Ty.lane (t : Ty) (n : Nat) : Nat :=
  if t.width = 64 then n % 2 ^ 64 else if t.signed then modI (sextI n t.width) 32 else n % 2 ^ t.width

/-- The value of an immediate, sign-extended (R202). -/
def Imm.val : Imm → Int
  | .i13 v => v.toInt
  | .i32 v => v.toInt
  | .i64 v => v.toInt

/-- The value of a memory offset (R239). -/
def Off.val : Off → Int
  | .short v => v.toInt
  | .long v => v.toInt

/-- The number of a name (R138). -/
def Name.num : Name → Nat
  | .w n => n.val
  | .bad k => if k.val = 8 then 2046 else 2032 + k.val
  | .lq0 => 2040 | .lq1 => 2041 | .sq0 => 2042 | .sq1 => 2043 | .nxt => 2044 | .prv => 2045 | .zero => 2047

/-- Whether a name is a queue (R92). -/
def Name.isQueue : Name → Bool
  | .lq0 | .lq1 | .sq0 | .sq1 => true
  | _ => false

/-- Whether a name is a ring port (R97). -/
def Name.isRing : Name → Bool
  | .nxt | .prv => true
  | _ => false

end Sys2Proof
end

