-- ==== Sys2Proof/Machine/Num.lean ====
section
/-! DEFINITION. Number formats, rounding and conversions (R174 to R180, R188, R191 to R194), and the exact arithmetic of R271 to R275. A
finite value is a sign and an exact dyadic magnitude m * 2^e; every operation computes exactly, or to a dyadic that rounds as the exact
result does, and rounds once. -/
namespace Sys2Proof

/-- The flags of FPCTL[5:0] (R189): SAT, NX, UF, OF, DZ, NV. -/
abbrev FpFlags := BitVec 6

def fNV : FpFlags := 0x01
def fDZ : FpFlags := 0x02
def fOF : FpFlags := 0x04
def fUF : FpFlags := 0x08
def fNX : FpFlags := 0x10
def fSAT : FpFlags := 0x20

/-- A value of a number format (R176, R179): NaN with whether it is signalling, infinity, or plus or minus m * 2^e. -/
inductive Num where
  | nan (sig : Bool)
  | inf (neg : Bool)
  | fin (neg : Bool) (m : Nat) (e : Int)
  deriving DecidableEq, Repr

/-- The three forms of a conversion (R194). -/
inductive CvtForm where
  | plain | sat | ovf
  deriving DecidableEq, Repr

/-- A binary format (R176): fraction bits, bias, the magnitude code of the largest finite value, and of the canonical NaN (R177). -/
structure Fmt where
  fbits : Nat
  bias : Nat
  maxCode : Nat
  nan : Nat
  deriving DecidableEq, Repr

/-- The binary formats of R176. -/
def Ty.fmt : Ty → Fmt
  | .f64 => ⟨52, 1023, 0x7FEFFFFFFFFFFFFF, 0x7FF8000000000000⟩
  | .f32 => ⟨23, 127, 0x7F7FFFFF, 0x7FC00000⟩
  | .f16 => ⟨10, 15, 0x7BFF, 0x7E00⟩
  | .b16 => ⟨7, 127, 0x7F7F, 0x7FC0⟩
  | .e5m2 => ⟨2, 15, 0x7B, 0x7E⟩
  | .e4m3 => ⟨3, 7, 0x7E, 0x7F⟩
  | .e2m1 => ⟨1, 1, 7, 0⟩
  | _ => ⟨0, 0, 0, 0⟩

/-- The canonical NaN of a floating type or L6 (R177). -/
def Ty.canonNan (t : Ty) : Nat := if t = .l6 then 0x20 else t.fmt.nan

/-- The sign bit of a floating type. -/
def Ty.signBit (t : Ty) (neg : Bool) : Nat := if neg then 2 ^ (t.width - 1) else 0

/-- The table T of R179. -/
def l6T (j : Nat) : Nat :=
  match j % 4 with
  | 0 => 32768 | 1 => 38968 | 2 => 46341 | _ => 55109

/-- The magnitude of L6 step L: T[L mod 4] * 2^(floor(L/4) - 15) (R179, R180), as m and e. -/
def l6Mag (l : Int) : Nat × Int := (l6T (l % 4).toNat, l / 4 - 15)

/-- The value of an element of a floating type or L6, read from its low bits (R175, R176, R179). -/
def Ty.decode (t : Ty) (x : Nat) : Num :=
  let neg := x / 2 ^ (t.width - 1) % 2 = 1
  let mag := x % 2 ^ (t.width - 1)
  match t with
  | .l6 =>
    if mag = 0 then (if neg then .nan false else .fin false 0 0)
    else let v := l6Mag ((mag : Int) - 16); .fin neg v.1 v.2
  | _ =>
    if t.isInt then
      let v : Int := if t.signed then sextI x t.width else ((x % 2 ^ t.width : Nat) : Int)
      .fin (v < 0) v.natAbs 0
    else
      let f := t.fmt
      if f.maxCode < mag ∧ t ≠ .e2m1 then
        if t ≠ .e4m3 ∧ mag = f.maxCode + 1 then .inf neg
        else .nan (t.isFloat && mag / 2 ^ (f.fbits - 1) % 2 = 0)
      else
        let e := mag / 2 ^ f.fbits
        let fr := mag % 2 ^ f.fbits
        if e = 0 then .fin neg fr (1 - (f.bias : Int) - f.fbits)
        else .fin neg (2 ^ f.fbits + fr) ((e : Int) - f.bias - f.fbits)

/-- The infinity of an IEEE type or E5M2. -/
def Ty.infinity (t : Ty) (neg : Bool) : Nat := t.signBit neg + t.fmt.maxCode + 1

/-- Where a magnitude lies between consecutive encodings: the code of the one below or equal, and the fraction num / den of the way to
the next. -/
structure Cut where
  code : Nat
  num : Nat
  den : Nat
  deriving DecidableEq, Repr

/-- floor(m * 2^e) with the fraction left. -/
def cutInt (m : Nat) (e : Int) : Cut :=
  if 0 ≤ e then ⟨m * 2 ^ e.toNat, 0, 1⟩ else let d := 2 ^ (-e).toNat; ⟨m / d, m % d, d⟩

/-- floor(log2(m * 2^e)) of a non-zero magnitude. -/
def log2e (m : Nat) (e : Int) : Int := (Nat.log2 m : Int) + e

/-- The cut of a magnitude at the exponent `big` of its encodings. -/
def Fmt.cutAt (f : Fmt) (big : Int) (m : Nat) (e : Int) : Cut :=
  let c := cutInt m (e - (big - f.fbits))
  { c with code := c.code + (big + f.bias - 1).toNat * 2 ^ f.fbits }

/-- The cut of a non-zero magnitude in a binary format whose exponents continue without end above (R176, R193). -/
def Fmt.cut (f : Fmt) (m : Nat) (e : Int) : Cut := f.cutAt (max (log2e m e) (1 - (f.bias : Int))) m e

/-- a / b as a comparison of m1 * 2^e1 and m2 * 2^e2: whether the first is at most the second. -/
def magLe (m1 : Nat) (e1 : Int) (m2 : Nat) (e2 : Int) : Bool :=
  let e := min e1 e2
  m1 * 2 ^ (e1 - e).toNat ≤ m2 * 2 ^ (e2 - e).toNat

/-- The greatest L6 step whose magnitude is at most a non-zero one, the codes continuing both ways (R179, R275). -/
def l6Step (m : Nat) (e : Int) : Int :=
  let q := 4 * log2e m e
  let le (j : Int) : Bool := magLe (l6Mag (q + j)).1 (l6Mag (q + j)).2 m e
  if le 3 then q + 3 else if le 2 then q + 2 else if le 1 then q + 1 else q

/-- The fraction of the way from magnitude a to magnitude b at which x lies. -/
def fraction (a b x : Nat × Int) : Nat × Nat :=
  let e := min a.2 (min b.2 x.2)
  let s (v : Nat × Int) : Nat := v.1 * 2 ^ (v.2 - e).toNat
  (s x - s a, s b - s a)

/-- The cut of a magnitude among L6 steps, as a code that may lie outside 1 to 31. -/
def l6CutAt (l : Int) (m : Nat) (e : Int) : Nat × Nat := fraction (l6Mag l) (l6Mag (l + 1)) (m, e)

/-- Whether rounding goes away from zero (R188, R193): mode 0 to 5, sign, parity of the code below, the fraction, 24 random bits. -/
def roundsUp (rm : Nat) (neg odd : Bool) (num den rand : Nat) : Bool :=
  match rm with
  | 0 => den < 2 * num || (den = 2 * num && odd)
  | 1 => false
  | 2 => num ≠ 0 && !neg
  | 3 => num ≠ 0 && neg
  | 4 => num ≠ 0 && den ≤ 2 * num
  | _ => rand < num * 2 ^ 24 / den

/-- The code a cut rounds to. -/
def Cut.round (c : Cut) (rm : Nat) (neg : Bool) (rand : Nat) : Nat :=
  if roundsUp rm neg (c.code % 2 = 1) c.num c.den rand then c.code + 1 else c.code

/-- The overflow result of R194 for a rounded magnitude above the largest finite value. -/
def Ty.overflow (t : Ty) (form : CvtForm) (rm : Nat) (neg : Bool) : Nat × FpFlags :=
  let big := t.signBit neg + t.fmt.maxCode
  let ieee := if rm = 1 || (rm = 2 && neg) || (rm = 3 && !neg) then big else t.infinity neg
  match t with
  | .e4m3 => if form = .ovf then (0x7F, fOF ||| fNX) else (big, fSAT ||| fOF ||| fNX)
  | .e2m1 => (big, fSAT ||| fOF ||| fNX)
  | .e5m2 => if form = .sat then (big, fSAT ||| fOF ||| fNX) else (ieee, fOF ||| fNX)
  | .l6 => if form = .ovf then (0x20, fOF ||| fNX) else (t.signBit neg + 31, fSAT ||| fOF ||| fNX)
  | _ => (ieee, fOF ||| fNX)

/-- Rounding of a non-zero magnitude to a binary format (R188, R189, R193, R194): tininess after rounding as though the exponents
continued below. -/
def Ty.roundBin (t : Ty) (form : CvtForm) (rm : Nat) (rand : Nat) (neg : Bool) (m : Nat) (e : Int) : Nat × FpFlags :=
  let f := t.fmt
  let c := f.cut m e
  let r := c.round rm neg rand
  if f.maxCode < r then t.overflow form rm neg
  else
    let inexact := c.num ≠ 0
    let big := log2e m e
    let low : Int := 1 - f.bias
    let tiny := big < low && !(big = low - 1 && (cutInt m (e - (big - f.fbits))).round rm neg rand = 2 ^ (f.fbits + 1))
    (t.signBit neg + r, (if inexact then fNX else 0) ||| (if inexact && tiny then fUF else 0))

/-- Rounding of a non-zero magnitude to L6 (R194, R275). -/
def roundL6 (form : CvtForm) (rm : Nat) (rand : Nat) (neg : Bool) (m : Nat) (e : Int) : Nat × FpFlags :=
  let l := l6Step m e
  let code := l + 16
  let fr := l6CutAt l m e
  if code < 1 then
    let fr0 := fraction (0, 0) (l6Mag (-15)) (m, e)
    let r := if roundsUp rm neg false fr0.1 fr0.2 rand then 1 else 0
    let cont := if roundsUp rm neg (code % 2 = 1) fr.1 fr.2 rand then code + 1 else code
    ((if r = 0 then 0 else Ty.l6.signBit neg + r), fNX ||| (if cont < 1 then fUF else 0))
  else
    let c : Cut := ⟨code.toNat, fr.1, fr.2⟩
    let r := c.round rm neg rand
    if 31 < r then Ty.l6.overflow form rm neg
    else (Ty.l6.signBit neg + r, if fr.1 ≠ 0 then fNX else 0)

/-- Rounding to an integer type and clipping (R194). -/
def Ty.roundInt (t : Ty) (rm : Nat) (rand : Nat) (neg : Bool) (m : Nat) (e : Int) : Nat × FpFlags :=
  let c := cutInt m e
  let r := c.round rm neg rand
  let v : Int := if neg then -(r : Int) else r
  let lo : Int := if t.signed then -(2 ^ (t.width - 1)) else 0
  let hi : Int := if t.signed then 2 ^ (t.width - 1) - 1 else 2 ^ t.width - 1
  if v < lo then (modI lo t.width, fNV)
  else if hi < v then (modI hi t.width, fNV)
  else (modI v t.width, if c.num ≠ 0 then fNX else 0)

/-- Rounding of a finite value, zero among them, to any type (R188, R194). Log entry 25 (DEDUCED). -/
def Ty.round (t : Ty) (form : CvtForm) (rm : Nat) (rand : Nat) (neg : Bool) (m : Nat) (e : Int) : Nat × FpFlags :=
  if m = 0 then ((if t.isInt || t = .l6 then 0 else t.signBit neg), 0)
  else if t.isInt then t.roundInt rm rand neg m e
  else if t = .l6 then roundL6 form rm rand neg m e
  else t.roundBin form rm rand neg m e

/-- Conversion of an infinity (R194). -/
def Ty.ofInf (t : Ty) (form : CvtForm) (neg : Bool) : Nat × FpFlags :=
  let big := t.signBit neg + t.fmt.maxCode
  match t with
  | .e5m2 => if form = .sat then (big, fSAT) else (t.infinity neg, 0)
  | .e4m3 => if form = .ovf then (0x7F, 0) else (big, fSAT)
  | .e2m1 => (big, fSAT)
  | .l6 => if form = .ovf then (0x20, 0) else (t.signBit neg + 31, fSAT)
  | _ =>
    if t.isInt then
      (modI (if neg then (if t.signed then -(2 ^ (t.width - 1)) else 0)
        else (if t.signed then 2 ^ (t.width - 1) - 1 else 2 ^ t.width - 1)) t.width, fNV)
    else (t.infinity neg, 0)

/-- Conversion of a NaN (R194). -/
def Ty.ofNan (t : Ty) (sig : Bool) : Nat × FpFlags :=
  if t.isInt || t = .e2m1 then (0, fNV) else (t.canonNan, if sig then fNV else 0)

/-- Conversion of any value (R194). -/
def Ty.convert (t : Ty) (form : CvtForm) (rm rand : Nat) : Num → Nat × FpFlags
  | .nan sig => t.ofNan sig
  | .inf neg => t.ofInf form neg
  | .fin neg m e => t.round form rm rand neg m e

/-! ### Stochastic rounding (R193) -/

/-- What a rounding instruction draws from: the mode of R188 after DYN, LNID, SEED and the site ((pc - CBASE) / 4). -/
structure Rnd where
  rm : Nat
  lnid : Word
  seed : Word
  site : Nat
  deriving DecidableEq, Repr

/-- One Philox round on (x0, x1, x2, x3) and (k0, k1). -/
def philoxRound (x : Nat × Nat × Nat × Nat) (k0 k1 : Nat) : Nat × Nat × Nat × Nat :=
  let p0 := 0xD2511F53 * x.1
  let p1 := 0xCD9E8D57 * x.2.2.1
  (p1 / 2 ^ 32 ^^^ x.2.1 ^^^ k0, p1 % 2 ^ 32, p0 / 2 ^ 32 ^^^ x.2.2.2 ^^^ k1, p0 % 2 ^ 32)

/-- n Philox rounds, the key advancing between them. -/
def philox : Nat → Nat × Nat × Nat × Nat → Nat → Nat → Nat × Nat × Nat × Nat
  | 0, x, _, _ => x
  | n + 1, x, k0, k1 => philox n (philoxRound x k0 k1) ((k0 + 0x9E3779B9) % 2 ^ 32) ((k1 + 0xBB67AE85) % 2 ^ 32)

/-- The 24 random bits of element e. -/
def Rnd.draw (r : Rnd) (e : Nat) : Nat :=
  if r.rm ≠ 5 then 0
  else
    let x := philox 10 (e / 4 % 2 ^ 32, bits r.lnid 31 0, bits r.lnid 63 32, r.site % 2 ^ 32) (bits r.seed 31 0) (bits r.seed 63 32)
    (match e % 4 with
      | 0 => x.1 | 1 => x.2.1 | 2 => x.2.2.1 | _ => x.2.2.2) / 256

/-! ### Arithmetic (R271 to R275) -/

/-- A signed dyadic as a pair of an integer and an exponent. -/
def sInt (neg : Bool) (m : Nat) : Int := if neg then -(m : Int) else m

/-- The exact sum of two finite values, rounded (R188): an exact zero of opposite signs is +0, and -0 under RDN. -/
def Ty.sum (t : Ty) (r : Rnd) (e : Nat) (na : Bool) (ma : Nat) (ea : Int) (nb : Bool) (mb : Nat) (eb : Int) : Nat × FpFlags :=
  let ex := min ea eb
  let s := sInt na ma * 2 ^ (ea - ex).toNat + sInt nb mb * 2 ^ (eb - ex).toNat
  if s = 0 then t.round .plain r.rm 0 (if ma = 0 && mb = 0 && na = nb then na else r.rm = 3) 0 0
  else t.round .plain r.rm (r.draw e) (s < 0) s.natAbs ex

/-- NV where an operand is a signalling NaN. -/
def sigFlag (l : List Num) : FpFlags := if l.contains (.nan true) then fNV else 0

def Num.isNan : Num → Bool
  | .nan _ => true
  | _ => false

def Num.isZero : Num → Bool
  | .fin _ m _ => m = 0
  | _ => false

def Num.isInf : Num → Bool
  | .inf _ => true
  | _ => false

def Num.neg : Num → Num
  | .nan s => .nan s
  | .inf n => .inf (!n)
  | .fin n m e => .fin (!n) m e

def Num.sign : Num → Bool
  | .nan _ => false
  | .inf n => n
  | .fin n _ _ => n

/-- x + y (R271). Log entry 25 (DEDUCED). -/
def Ty.fadd (t : Ty) (r : Rnd) (e : Nat) (x y : Num) : Nat × FpFlags :=
  match x, y with
  | .nan _, _ | _, .nan _ => (t.canonNan, sigFlag [x, y])
  | .inf a, .inf b => if a = b then (t.infinity a, 0) else (t.canonNan, fNV)
  | .inf a, _ => (t.infinity a, 0)
  | _, .inf b => (t.infinity b, 0)
  | .fin na ma ea, .fin nb mb eb => t.sum r e na ma ea nb mb eb

/-- x * y + z, rounded once (R271). -/
def Ty.ffma (t : Ty) (r : Rnd) (e : Nat) (x y z : Num) : Nat × FpFlags :=
  if (x.isInf && y.isZero) || (x.isZero && y.isInf) then (t.canonNan, fNV)
  else if x.isNan || y.isNan || z.isNan then (t.canonNan, sigFlag [x, y, z])
  else
    let p := x.sign != y.sign
    match x, y, z with
    | .fin _ ma ea, .fin _ mb eb, .fin nc mc ec => t.sum r e p (ma * mb) (ea + eb) nc mc ec
    | .fin _ _ _, .fin _ _ _, _ => (t.infinity z.sign, 0)
    | _, _, .inf c => if c = p then (t.infinity p, 0) else (t.canonNan, fNV)
    | _, _, _ => (t.infinity p, 0)

/-- x * y (R271). -/
def Ty.fmul (t : Ty) (r : Rnd) (e : Nat) (x y : Num) : Nat × FpFlags :=
  if x.isNan || y.isNan then (t.canonNan, sigFlag [x, y])
  else if (x.isInf && y.isZero) || (x.isZero && y.isInf) then (t.canonNan, fNV)
  else
    let p := x.sign != y.sign
    match x, y with
    | .fin _ ma ea, .fin _ mb eb => t.round .plain r.rm (r.draw e) p (ma * mb) (ea + eb)
    | _, _ => (t.infinity p, 0)

/-- A magnitude whose exact value lies above m * 2^e by less than one unit of m, where inexact. -/
def jam (m : Nat) (e : Int) (inexact : Bool) : Nat × Int := if inexact then (2 * m + 1, e - 1) else (m, e)

/-- x / y (R273). -/
def Ty.fdiv (t : Ty) (r : Rnd) (e : Nat) (x y : Num) : Nat × FpFlags :=
  let p := x.sign != y.sign
  match x, y with
  | .nan _, _ | _, .nan _ => (t.canonNan, sigFlag [x, y])
  | .inf _, .inf _ => (t.canonNan, fNV)
  | .inf _, _ => (t.infinity p, 0)
  | _, .inf _ => (t.signBit p, 0)
  | .fin _ ma ea, .fin _ mb eb =>
    if mb = 0 then (if ma = 0 then (t.canonNan, fNV) else (t.infinity p, fDZ))
    else
      let q := jam (ma * 2 ^ 160 / mb) (ea - eb - 160) (ma * 2 ^ 160 % mb ≠ 0)
      t.round .plain r.rm (r.draw e) p q.1 q.2

/-- floor(sqrt n) by bits from the top: `k` bits still to try. -/
def isqrtFrom (n : Nat) : Nat → Nat → Nat
  | 0, r => r
  | k + 1, r => let c := r + 2 ^ k; isqrtFrom n k (if c * c ≤ n then c else r)

/-- floor(sqrt n). -/
def isqrt (n : Nat) : Nat := isqrtFrom n (Nat.log2 n / 2 + 1) 0

/-- The square root of m * 2^e to 128 places below an even exponent, jammed. -/
def sqrtMag (m : Nat) (e : Int) : Nat × Int :=
  let odd := e % 2 = 1
  let n := (if odd then 2 * m else m) * 2 ^ 256
  let ex := (if odd then e - 1 else e) / 2 - 128
  let q := isqrt n
  jam q ex (q * q ≠ n)

/-- The square root (R273). -/
def Ty.fsqrt (t : Ty) (r : Rnd) (e : Nat) (x : Num) : Nat × FpFlags :=
  match x with
  | .nan s => (t.canonNan, if s then fNV else 0)
  | .inf neg => if neg then (t.canonNan, fNV) else (t.infinity false, 0)
  | .fin neg m ex =>
    if m = 0 then (t.signBit neg, 0)
    else if neg then (t.canonNan, fNV)
    else let q := sqrtMag m ex; t.round .plain r.rm (r.draw e) false q.1 q.2

/-- The order of two values that are not NaN, -0 equal to +0 (R223): -1, 0 or 1. -/
def Num.cmp : Num → Num → Int
  | .inf a, .inf b => if a = b then 0 else if a then -1 else 1
  | .inf a, _ => if a then -1 else 1
  | _, .inf b => if b then 1 else -1
  | .fin na ma ea, .fin nb mb eb =>
    let ex := min ea eb
    (sInt na ma * 2 ^ (ea - ex).toNat - sInt nb mb * 2 ^ (eb - ex).toNat).sign
  | _, _ => 0

/-- The lesser (or greater) of two elements, unchanged, -0 below +0 (R272). -/
def Ty.fminmax (t : Ty) (max : Bool) (a b : Nat) : Nat × FpFlags :=
  let x := t.decode a
  let y := t.decode b
  if x.isNan || y.isNan then (t.canonNan, sigFlag [x, y])
  else
    let c := if x.cmp y = 0 && x.sign != y.sign then (if x.sign then -1 else 1) else x.cmp y
    let pickA := if max then 0 ≤ c else c ≤ 0
    ((if pickA then a else b) % 2 ^ t.width, 0)

/-- The seven comparisons (R223, R276). -/
inductive Cc where
  | eq | ne | lt | le | gt | ge | un
  deriving DecidableEq, Repr

def Cc.holds (c : Cc) (o : Int) : Bool :=
  match c with
  | .eq => o = 0 | .ne => o ≠ 0 | .lt => o < 0 | .le => o ≤ 0 | .gt => 0 < o | .ge => 0 ≤ o | .un => false

/-- A comparison of two elements of a type (R223). -/
def Ty.compare (t : Ty) (c : Cc) (a b : Nat) : Bool × FpFlags :=
  let x := t.decode a
  let y := t.decode b
  if x.isNan || y.isNan then (c = .ne || c = .un, sigFlag [x, y]) else (c.holds (x.cmp y), 0)

/-! ### The bracketed functions (R274) -/

/-- ln 2 times 2^256, rounded down. -/
def ln2 : Nat := 80260960185991308862233904206310070533990667611589946606122867505419956976171

/-- The sum of a Taylor series of e^x times 2^256, x times 2^256 given: `k` terms from term i on, whose value is t. -/
def expTerms (x : Nat) : Nat → Nat → Nat → Nat
  | 0, _, _ => 0
  | k + 1, i, t => t + expTerms x k (i + 1) (t * x / 2 ^ 256 / (i + 1))

/-- 2^f times 2^256 for f times 2^256 given, f below 1, to about 250 places. -/
def exp2Frac (f : Nat) : Nat := expTerms (f * ln2 / 2 ^ 256) 64 0 (2 ^ 256)

/-- k binary places of log2 of x / 2^256, x in 2^256 to 2^257: by repeated squaring. -/
def log2Digits : Nat → Nat → Nat → Nat
  | 0, _, acc => acc
  | k + 1, x, acc =>
    let y := x * x / 2 ^ 256
    if 2 ^ 257 ≤ y then log2Digits k (y / 2) (2 * acc + 1) else log2Digits k y (2 * acc)

/-- 1 / sqrt of m * 2^e: exact where m * 2^e is an even power of two, else jammed. -/
def rsqMag (m : Nat) (e : Int) : Nat × Int :=
  let odd := e % 2 = 1
  let n := if odd then 2 * m else m
  let ex := (if odd then e - 1 else e) / 2
  let p := 256 + Nat.log2 n
  let q := isqrt (2 ^ (2 * p) / n)
  jam q (-ex - p) (q * q * n ≠ 2 ^ (2 * p))

/-- log2 of a positive m * 2^e: its sign and magnitude. -/
def log2Mag (m : Nat) (e : Int) : Bool × Nat × Int :=
  let k := Nat.log2 m
  let n := (k : Int) + e
  if m = 2 ^ k then (n < 0, n.natAbs, 0)
  else
    let v := n * 2 ^ 200 + (log2Digits 200 (m * 2 ^ 256 / 2 ^ k) 0 : Nat)
    let j := if 0 ≤ v then jam v.natAbs (-200) true else jam (v.natAbs - 1) (-200) true
    (v < 0, j.1, j.2)

/-- 2^x for plus or minus m * 2^e: its magnitude, and whether it is exact. -/
def exp2Mag (neg : Bool) (m : Nat) (e : Int) : Nat × Int × Bool :=
  if 12 ≤ log2e m e then (3, (if neg then -4097 else 4096), false)
  else
    let v := sInt neg m * 2 ^ (e + 256).toNat / 2 ^ (-(e + 256)).toNat
    let n := v / 2 ^ 256
    let f := (v % 2 ^ 256).toNat
    let whole := f = 0 && cutInt m e = ⟨n.natAbs, 0, (cutInt m e).den⟩
    if whole then (1, n, true) else let j := jam (exp2Frac f / 2 ^ 16) (n - 240) true; (j.1, j.2, false)

/-- The rounding of an inexact result of R274: under the mode for F16 and B16; one of the two bracketing values for F32 and F64, which
one a free value of function, width and input. Log entry 6 (DESIGN CHOICE). -/
def Ty.bracket (t : Ty) (r : Rnd) (e fn input : Nat) (neg : Bool) (m : Nat) (ex : Int) : Nat × FpFlags :=
  if t.width = 16 then t.round .plain r.rm (r.draw e) neg m ex
  else
    let up := Config.bracketUpper fn t.width (input % 2 ^ t.width)
    let x := t.round .plain (if up then 2 else 3) 0 neg m ex
    (x.1, x.2 ||| fNX)

/-- VRSQ (R274). Log entry 6 (DESIGN CHOICE). -/
def Ty.frsq (t : Ty) (r : Rnd) (e a : Nat) : Nat × FpFlags :=
  match t.decode a with
  | .nan s => (t.canonNan, if s then fNV else 0)
  | .inf neg => if neg then (t.canonNan, fNV) else (0, 0)
  | .fin neg m ex =>
    if m = 0 then (t.infinity neg, fDZ)
    else if neg then (t.canonNan, fNV)
    else
      let q := rsqMag m ex
      if 2 ^ Nat.log2 q.1 = q.1 then t.round .plain r.rm 0 false q.1 q.2 else t.bracket r e 0 a false q.1 q.2

/-- VEXP2 (R274). Log entry 6 (DESIGN CHOICE). -/
def Ty.fexp2 (t : Ty) (r : Rnd) (e a : Nat) : Nat × FpFlags :=
  match t.decode a with
  | .nan s => (t.canonNan, if s then fNV else 0)
  | .inf neg => if neg then (0, 0) else (t.infinity false, 0)
  | .fin neg m ex =>
    let q := exp2Mag neg m ex
    let near := t.round .plain 4 0 false q.1 q.2.1
    let top := t.fmt.cut q.1 q.2.1
    if q.2.2 && near.2 = 0 then near
    else if t.width = 16 then t.round .plain r.rm (r.draw e) false q.1 q.2.1
    else if t.fmt.maxCode < top.code || (top.code = t.fmt.maxCode && top.num ≠ 0) then (t.infinity false, fOF ||| fNX)
    else if near.1 = 0 then (0, fUF ||| fNX)
    else t.bracket r e 1 a false q.1 q.2.1

/-- VLOG2 (R274). Log entry 6 (DESIGN CHOICE). -/
def Ty.flog2 (t : Ty) (r : Rnd) (e a : Nat) : Nat × FpFlags :=
  match t.decode a with
  | .nan s => (t.canonNan, if s then fNV else 0)
  | .inf neg => if neg then (t.canonNan, fNV) else (t.infinity false, 0)
  | .fin neg m ex =>
    if m = 0 then (t.infinity true, fDZ)
    else if neg then (t.canonNan, fNV)
    else
      let q := log2Mag m ex
      if q.2.2 = 0 then t.round .plain r.rm 0 q.1 q.2.1 0 else t.bracket r e 2 a q.1 q.2.1 q.2.2

/-- VLADD (R275): a sum above the largest magnitude saturates whatever the mode. Log entry 25 (DEDUCED). -/
def l6Add (r : Rnd) (e a b : Nat) : Nat × FpFlags :=
  match Ty.l6.decode a, Ty.l6.decode b with
  | .fin na ma ea, .fin nb mb eb =>
    let ex := min ea eb
    let s := sInt na ma * 2 ^ (ea - ex).toNat + sInt nb mb * 2 ^ (eb - ex).toNat
    if magLe s.natAbs ex 55109 (-12) then Ty.l6.sum r e na ma ea nb mb eb
    else (Ty.l6.signBit (s < 0) + 31, fSAT ||| fOF ||| fNX)
  | _, _ => (0x20, 0)

/-- The product of two L6 elements by their codes (R180). -/
def l6Product (a b : Nat) : Num :=
  let c1 := a % 32
  let c2 := b % 32
  let s1 := a / 32 % 2 = 1
  let s2 := b / 32 % 2 = 1
  if (s1 && c1 = 0) || (s2 && c2 = 0) then .nan false
  else if c1 = 0 || c2 = 0 then .fin false 0 0
  else let v := l6Mag ((c1 : Int) + c2 - 32); .fin (s1 != s2) v.1 v.2

end Sys2Proof
end

