-- ==== Sys2Proof/Machine/Forms.lean ====
section
/-! DEFINITION. The legality of names and forms: steps 8 and 9 of R207 for an instruction read from its fields, and the field limits of
events. -/
namespace Sys2Proof

/-- The details of ILLEGAL (R206). -/
inductive Ill where
  | length | fetchBound | opcode | resv | name | perm | form | quse | qover | qunder | qlive | badScope | badHd | frMode
  deriving DecidableEq, Repr

/-- The code of a detail (R206). -/
def Ill.code : Ill → Nat
  | .length => 1 | .fetchBound => 2 | .opcode => 3 | .resv => 4 | .name => 5 | .perm => 6 | .form => 7
  | .quse => 8 | .qover => 9 | .qunder => 10 | .qlive => 11 | .badScope => 12 | .badHd => 13 | .frMode => 14

/-- What a word field may name (R92, R200, R256, R288, R310): `ex` fields of execute-half instructions, the data fields of LD and ST,
other word fields, fields and runs that take relocated names only, and tokens. -/
inductive Role where
  | exSrc | exDst | exBoth | ldDst | stSrc | plain | reloc | token
  deriving DecidableEq, Repr

/-- The detail a name raises in a role, if any (R92, R138, R200). Log entry 20 (DEDUCED). -/
def Role.check : Role → Name → Option Ill
  | _, .w _ => none
  | _, .bad _ => some .name
  | .token, _ => some .name
  | .reloc, .zero => some .name
  | _, .zero => none
  | .exSrc, .nxt | .exSrc, .prv | .exDst, .nxt | .exDst, .prv | .exBoth, .nxt | .exBoth, .prv => none
  | _, .nxt | _, .prv => some .name
  | .exSrc, .lq0 | .exSrc, .lq1 | .ldDst, .lq0 | .ldDst, .lq1 => none
  | .exDst, .sq0 | .exDst, .sq1 | .stSrc, .sq0 | .stSrc, .sq1 => none
  | _, _ => some .quse

/-- The first problem of a list of named fields in the order A, B, C, D, then a queue named twice (R92, R207 step 8).
Log entry 20 (DEDUCED). -/
def namesProblem (l : List (Role × Name)) : Option Ill :=
  match l.findSome? (fun p => p.1.check p.2) with
  | some e => some e
  | none =>
    let q := (l.map Prod.snd).filter Name.isQueue
    if q.eraseDups.length = q.length then none else some .quse

/-- The word a scope names, in its role. Log entry 20 (DEDUCED). -/
def Scope.names (r : Role) : Scope → List (Role × Name)
  | .word c => [(r, c.name)]
  | _ => []

/-- The word of a second operand. -/
def Opnd.names (r : Role) : Opnd → List (Role × Name)
  | .word s => [(r, s.name)]
  | .imm _ => []

/-- The word of an optional third operand. -/
def optNames (r : Role) : Option Src → List (Role × Name)
  | some s => [(r, s.name)]
  | none => []

def Alu.names (x : Alu) (d : Role := .exDst) : List (Role × Name) :=
  (.exSrc, x.a.name) :: x.b.names .exSrc ++ [(d, x.d)]

def Un.names (x : Un) : List (Role × Name) := [(.exSrc, x.a.name), (.exDst, x.d)]

def CmpArgs.names (x : CmpArgs) : List (Role × Name) := (.exSrc, x.a.name) :: x.b.names .exSrc

def WRange.names (x : WRange) : List (Role × Name) :=
  (.plain, x.a.name) :: match x.c with
    | .word s => [(.plain, s.name)]
    | .imm _ => []

def Amo.names (x : Amo) : List (Role × Name) :=
  [(.plain, x.a.name), (.plain, x.b.name)] ++ x.sc.names .plain ++ [(.plain, x.d)]

def VOp1.names : VOp1 → List (Role × Name)
  | .vec _ _ => []
  | .scl d a => [(.exSrc, a.name), (.exDst, d)]

def VOp2.names : VOp2 → List (Role × Name)
  | .vec _ _ _ => []
  | .scl d a b => [(.exSrc, a.name), (.exSrc, b.name), (.exDst, d)]

def VOp3.names : VOp3 → List (Role × Name)
  | .vec _ _ _ _ => []
  | .scl d a b c => [(.exSrc, a.name), (.exSrc, b.name), (.exSrc, c.name), (.exDst, d)]

def VCmpArgs.names : VCmpArgs → List (Role × Name)
  | .vec _ d _ _ => [(.plain, d)]
  | .scl _ d a b => [(.exSrc, a.name), (.exSrc, b.name), (.exDst, d)]

def VSelArgs.names : VSelArgs → List (Role × Name)
  | .vec _ _ _ _ c => [(.plain, c.name)]
  | .scl _ d a b c => [(.exSrc, a.name), (.exSrc, b.name), (.exSrc, c.name), (.exDst, d)]

def VMaskArgs.names : VMaskArgs → List (Role × Name)
  | .vec _ d _ => [(.plain, d)]
  | .scl _ d a => [(.exSrc, a.name), (.exDst, d)]

def VCvtArgs.names : VCvtArgs → List (Role × Name)
  | .vec _ _ _ _ _ _ => []
  | .scl _ _ _ d a => [(.exSrc, a.name), (.exDst, d)]

def EvArgs.names (x : EvArgs) : List (Role × Name) :=
  [(.plain, x.a.name), (.plain, x.b.name)] ++ x.sc.names .plain ++ [(.plain, x.d)]

def SendArgs.names (x : SendArgs) : List (Role × Name) := [(.plain, x.a.name), (.reloc, x.r.first)] ++ x.sc.names .plain

/-- The word fields of an instruction in the order A, B, C, D, each with what it may name (R92, R200, R229, R239, R268, R310).
Log entry 20 (DEDUCED). -/
def Instr.names : Instr → List (Role × Name)
  | .add _ x | .sub _ x | .mul _ x | .mulh _ x | .div _ x | .rem _ x | .min _ x | .max _ x => x.names
  | .and _ x | .or _ x | .xor _ x | .andn _ x | .shl _ x | .shr _ x | .sra _ x | .rot _ x | .ext _ x => x.names
  | .ins _ x => x.names .exBoth
  | .abs _ x | .clz _ x | .ctz _ x | .popc _ x | .brev _ x | .bswap _ x => x.names
  | .sel _ x => [(.exSrc, x.a.name), (.exSrc, x.b.name), (.exDst, x.d)]
  | .mov _ x => x.v.names .exSrc ++ [(.exDst, x.d)]
  | .lea _ (.idx _ d a b) => [(.exSrc, a.name), (.exSrc, b.name), (.exDst, d)]
  | .lea _ (.rel d _) => [(.exDst, d)]
  | .cmpEq _ x | .cmpNe _ x | .cmpLt _ x | .cmpLe _ x | .cmpGt _ x | .cmpGe _ x | .cmpUn _ x => x.names
  | .jmp _ a | .ret _ a | .setwin _ a | .swctx _ a | .setutw _ a => [(.plain, a.name)]
  | .call _ ⟨d, .rel _⟩ => [(.plain, d)]
  | .call _ ⟨d, .reg a⟩ => [(.plain, a.name), (.plain, d)]
  | .loop _ x => [(.plain, x.d)]
  | .rdwin _ d => [(.plain, d)]
  | .wld _ x | .wst _ x => [(.plain, x.a), (.plain, x.d)]
  | .wpush _ x => [(.plain, x.a)]
  | .wscrub _ x | .wdrain _ x => x.names
  | .ld _ x => [(.plain, x.a), (.ldDst, x.d)]
  | .st _ x => [(.plain, x.a), (.stSrc, x.d)]
  | .ldAcq _ x => (.plain, x.a) :: x.sc.names .plain ++ [(.ldDst, x.d)]
  | .stRel _ x => (.plain, x.a) :: x.sc.names .plain ++ [(.stSrc, x.d)]
  | .ldv _ x | .stv _ x => [(.plain, x.a)]
  | .ldvAcq _ x | .stvRel _ x => (.plain, x.a) :: x.sc.names .plain
  | .ldvs _ x | .stvs _ x => [(.plain, x.a.name), (.plain, x.b.name)] ++ optNames .plain x.m
  | .ldvx _ x | .stvx _ x => (.plain, x.a.name) :: optNames .plain x.m
  | .ldp _ x => optNames .plain x.c ++ [(.ldDst, x.d)]
  | .pref _ x | .prefL2 _ x | .prefMsc _ x => [(.plain, x.a)]
  | .flush _ x | .flushMem _ x => [(.plain, x.a)]
  | .amoAdd _ x | .amoAnd _ x | .amoOr _ x | .amoXor _ x | .amoMin _ x | .amoMax _ x | .amoSwap _ x | .amoCas _ x => x.names
  | .fenceAcq _ sc | .fenceRel _ sc | .fenceFull _ sc => sc.names .plain
  | .barinit _ x => [(.plain, x.a.name), (.plain, x.b.name)] ++ x.sc.names .plain ++ [(.plain, x.d)]
  | .bararr _ x | .barwait _ x => (.plain, x.a.name) :: x.sc.names .plain ++ [(.plain, x.d)]
  | .barbytes _ x => [(.plain, x.a.name), (.plain, x.b.name)] ++ x.sc.names .plain
  | .waitln _ x => [(.plain, x.a), (.plain, x.d)]
  | .sleep _ a | .sleepProm _ a => [(.plain, a)]
  | .acopy _ x => (.reloc, x.a.first) :: x.sc.names .plain ++ [(.token, x.tok)]
  | .gather _ x | .scatter _ x => (.reloc, x.a.first) :: x.sc.names .plain ++ [(.token, x.tok)]
  | .vadd _ x | .vsub _ x | .vmul _ x | .vdiv _ x | .vmin _ x | .vmax _ x | .vladd _ x => x.o.names
  | .vand _ x | .vor _ x | .vxor _ x | .vshl _ x | .vshr _ x | .vsra _ x => x.o.names
  | .vfma _ x | .vfms _ x => x.o.names
  | .vabs _ x | .vneg _ x | .vsqrt _ x | .vrsq _ x | .vexp2 _ x | .vlog2 _ x | .vpopc _ x | .vmov _ x => x.o.names
  | .vcmpEq _ x | .vcmpNe _ x | .vcmpLt _ x | .vcmpLe _ x | .vcmpGt _ x | .vcmpGe _ x | .vcmpUn _ x => x.names
  | .vsel _ x => x.names
  | .vmask _ x => x.names
  | .vcvt _ x | .vcvtSat _ x | .vcvtOvf _ x => x.names
  | .vredadd _ x | .vredmax _ x | .vredmin _ x => [(.plain, x.d)]
  | .vscan _ x => [(.plain, x.b.name)]
  | .vbcast _ x => [(.plain, x.a.name)]
  | .vshuf _ x => [(.plain, x.c.name)]
  | .vlds _ x => [(.plain, x.b.name), (.plain, x.d)]
  | .vins _ x => [(.plain, x.a.name), (.plain, x.b.name)]
  | .mthr _ a => [(.plain, a.name)]
  | .mrd _ x => [(.plain, x.d)]
  | .mmaF _ x | .mmaI _ x | .mmaSat _ x | .mmas24F _ x | .mmas24I _ x | .mmas24Sat _ x => [(.reloc, x.a.first), (.token, x.tok)]
  | .mmas48F _ x | .mmas48I _ x | .mmas48Sat _ x => [(.reloc, x.a.first), (.token, x.tok)]
  | .mmaStep _ x => [(.reloc, x.a.first), (.token, x.tok)]
  | .mrotF _ x | .mrotI _ x | .mrotSat _ x => [(.reloc, x.a.first), (.token, x.tok)]
  | .mlda _ x | .mldb _ x => [(.reloc, x.a.first), (.token, x.tok)]
  | .dssstep _ x => [(.plain, x.a.first), (.token, x.tok)]
  | .dsscutImpose _ x | .dsscutStoreImage _ x | .dsscutLoadImage _ x => [(.reloc, x.a.first), (.token, x.tok)]
  | .mld _ x | .mldt _ x => [(.reloc, x.a.first), (.token, x.tok)]
  | .mst _ x => [(.reloc, x.a.first), (.token, x.tok)]
  | .msave _ x | .msaveRst _ x => [(.plain, x.a.first), (.token, x.tok)]
  | .dssbind _ x => [(.reloc, x.a.first), (.token, x.tok)]
  | .dsscutRead _ x => [(.plain, x.a.first), (.plain, x.d)]
  | .dsscutUnimpose _ a => [(.plain, a.first)]
  | .send _ x | .spawnev _ x | .vsend _ x | .defer _ x => x.names
  | .sendRect _ x => [(.reloc, x.r.first)]
  | .spawn _ x => (.reloc, x.r.first) :: x.sc.names .plain
  | .evadd _ x | .evset _ x | .launch _ x => x.names
  | .park _ x => (.plain, x.a) :: x.sc.names .plain
  | .sread _ x | .swrite _ x | .nettx _ x | .netrx _ x => (.reloc, x.a.first) :: x.sc.names .plain ++ [(.reloc, x.tok)]
  | .domain _ x => [(.plain, x.a.name), (.plain, x.b.name)]
  | .vtnow _ d | .gvtrd _ d => [(.plain, d)]
  | .mfs _ x => [(.plain, x.d)]
  | .mts _ x => [(.plain, x.a)]
  | .suspend _ a | .plsync _ a | .lsfa _ a => [(.plain, a)]
  | .tlbiPage _ x | .tlbiAsid _ x | .tlbiPartition _ x => [(.plain, x.a.name), (.plain, x.b.name)]
  | .censusStore _ x | .censusCompare _ x | .censusClear _ x => [(.plain, x.a), (.plain, x.d)]
  | _ => []

/-- The problem of step 8 of R207. -/
def Instr.nameProblem (i : Instr) : Option Ill := namesProblem i.names

/-- RM of an instruction and type that rounds, or does not (R268). -/
def rmOk (rounds : Bool) (rm : Fin 8) : Bool := if rounds then rm ≠ 6 else rm = 0

/-- Types of LDVS and its kin (R245). -/
def Ty.isLaneMem (t : Ty) : Bool := t.code % 4 = 2 && t.code < 12 || t.code % 4 = 3 && t.code < 12

/-- The narrow types of VPACK with the number of positions (R280). -/
def Ty.packs : Ty → Nat
  | .i8 | .n8 | .e4m3 | .e5m2 => 4
  | .i16 | .n16 | .f16 | .b16 => 2
  | .l6 => 5
  | .e2m1 => 8
  | _ => 0

/-- The output types of MST that round (R300). -/
def Ty.mstRounds : Ty → Bool
  | .f16 | .b16 | .e4m3 | .e5m2 | .e2m1 | .l6 => true
  | _ => false

/-- Rounding of a VCVT pair: not between integer types (R279). -/
def cvtRounds (t s : Ty) : Bool := !(t.isInt && s.isInt)

def VCvtArgs.t : VCvtArgs → Ty
  | .vec t _ _ _ _ _ => t
  | .scl t _ _ _ _ => t

/-- Types, mode and H of a VCVT (R279). -/
def VCvtArgs.ok : VCvtArgs → Bool
  | .vec t s rm _ _ hi => t ≠ s && rmOk (cvtRounds t s) rm && (!hi || (t.lanes ≠ s.lanes))
  | .scl t s rm _ _ => t ≠ s && rmOk (cvtRounds t s) rm

def VCmpArgs.t : VCmpArgs → Ty
  | .vec t _ _ _ => t
  | .scl t _ _ _ => t

/-- The register numbers of R331. -/
def sysRegNumbers : List Nat :=
  [0, 1, 2, 3, 4, 5, 8, 9, 10, 11, 12, 13, 14, 15, 16, 17, 18, 19, 20, 24, 25, 26, 27, 28, 29, 30, 32, 33, 34, 35, 36, 37, 38, 39,
   40, 41, 42, 43, 48, 49, 50, 56, 57, 58, 59, 64, 65, 66, 67, 68, 69, 70, 71, 72, 73, 74, 75, 76, 77, 78, 79, 80, 81, 82, 88, 89,
   96, 97, 98, 99, 100]

/-- The problem of step 9 of R207 that the fields' values decide: a TYPE, RM, immediate or kind the instruction does not accept.
Log entry 21 (DEDUCED). -/
def Instr.formOk : Instr → Bool
  | .add _ x | .sub _ x | .mul _ x | .mulh _ x | .div _ x | .rem _ x | .min _ x | .max _ x => x.t.isInt
  | .and _ x | .or _ x | .xor _ x | .andn _ x | .shl _ x | .shr _ x | .sra _ x | .rot _ x => x.t.isInt
  | .ext _ x | .ins _ x => x.t = .i64 || x.t = .n64
  | .abs _ x | .clz _ x | .ctz _ x | .popc _ x | .brev _ x => x.t.isInt
  | .bswap _ x => x.t.isInt && x.t.width ≠ 8
  | .lea _ (.idx t _ _ _) => t ≠ .e2m1 && t ≠ .l6
  | .cmpEq _ x | .cmpNe _ x | .cmpLt _ x | .cmpLe _ x | .cmpGt _ x | .cmpGe _ x => x.t.code < 12
  | .cmpUn _ x => x.t.isFloat
  | .wscrub _ ⟨_, .imm v⟩ | .wdrain _ ⟨_, .imm v⟩ => 0 ≤ v.toInt
  | .ld _ x | .st _ x => x.t.code < 14
  | .ldAcq _ x | .stRel _ x => x.t.code < 14
  | .ldvs _ x | .stvs _ x => x.t.isLaneMem
  | .ldvx _ x | .stvx _ x => x.t.isLaneMem
  | .ldp _ x => x.t.code < 14
  | .amoAdd _ x | .amoAnd _ x | .amoOr _ x | .amoXor _ x | .amoMin _ x | .amoMax _ x | .amoSwap _ x | .amoCas _ x => x.t.isInt
  | .waitln _ x => x.t.isInt
  | .vadd _ x | .vsub _ x | .vmul _ x => x.t.code < 12 && rmOk x.t.isFloat x.rm
  | .vfma _ x | .vfms _ x => x.t.code < 12 && rmOk x.t.isFloat x.rm
  | .vdiv _ x => x.t.isFloat && rmOk true x.rm
  | .vmin _ x | .vmax _ x => x.t.code < 12 && rmOk false x.rm
  | .vabs _ x | .vneg _ x => x.t.code < 12 && rmOk false x.rm
  | .vsqrt _ x | .vrsq _ x | .vexp2 _ x | .vlog2 _ x => x.t.isFloat && rmOk true x.rm
  | .vladd _ x => x.t = .l6 && rmOk true x.rm
  | .vcmpEq _ x | .vcmpNe _ x | .vcmpLt _ x | .vcmpLe _ x | .vcmpGt _ x | .vcmpGe _ x => x.t.code < 12
  | .vcmpUn _ x => x.t.isFloat
  | .vpopc _ x => x.t.isInt && rmOk false x.rm
  | .vmov _ x => rmOk false x.rm
  | .vand _ x | .vor _ x | .vxor _ x | .vshl _ x | .vshr _ x | .vsra _ x => x.t.isInt && rmOk false x.rm
  | .vpack _ x | .vunpack _ x => x.pos.val < x.t.packs
  | .vcvt _ x => x.ok
  | .vcvtSat _ x => x.ok && x.t = .e5m2
  | .vcvtOvf _ x => x.ok && (x.t = .e4m3 || x.t = .e5m2 || x.t = .l6)
  | .vredadd _ x => x.t.code < 12 && rmOk x.t.isFloat x.rm
  | .vredmax _ x | .vredmin _ x => x.t.code < 12 && rmOk false x.rm
  | .vscan _ x => x.t.code < 12 && rmOk x.t.isFloat x.rm
  | .mmaF _ x | .mmas24F _ x | .mmas48F _ x => rmOk true x.rm
  | .mmaI _ x | .mmaSat _ x | .mmas24I _ x | .mmas24Sat _ x | .mmas48I _ x | .mmas48Sat _ x => rmOk false x.rm
  | .mmaStep _ x => rmOk true x.rm
  | .mrotF _ x => rmOk true x.rm
  | .mrotI _ x | .mrotSat _ x => rmOk false x.rm
  | .mrd _ x => x.sel.toNat ≤ 4 || (32 ≤ x.sel.toNat && x.sel.toNat ≤ 63)
  | .mst _ x => rmOk x.t.mstRounds x.rm
  | .mfs _ x => x.reg.toNat ∈ sysRegNumbers
  | .mts _ x => x.reg.toNat ∈ sysRegNumbers
  | _ => true

/-- An immediate form reads A in mode 0 when the immediate is the 13-bit one, since MA is part of the field (R202).
Log entry 21 (DEDUCED). -/
def modeFits (a : Src) : Opnd → Bool
  | .imm (.i13 _) => !a.trap
  | _ => true

/-- A scope word or SCOPEX takes the place of the 32-bit offset (R239). -/
def Scope.fits : Scope → Off → Bool
  | .short _, _ => true
  | _, .short _ => true
  | _, .long _ => false

/-- Values of the operand shapes that no encoding carries, and the limits of an event's fields. The rows TLBI_ASID and TLBI_PARTITION
share the words of TLBI_PAGE, and MTS to the three registers with rows of their own is those rows. Log entry 21 (DEDUCED). -/
def Instr.canon : Instr → Bool
  | .add _ x | .sub _ x | .mul _ x | .mulh _ x | .div _ x | .rem _ x | .min _ x | .max _ x => modeFits x.a x.b
  | .and _ x | .or _ x | .xor _ x | .andn _ x | .shl _ x | .shr _ x | .sra _ x | .rot _ x => modeFits x.a x.b
  | .ext _ x | .ins _ x => modeFits x.a x.b
  | .cmpEq _ x | .cmpNe _ x | .cmpLt _ x | .cmpLe _ x | .cmpGt _ x | .cmpGe _ x | .cmpUn _ x => modeFits x.a x.b
  | .wscrub _ ⟨a, .imm _⟩ | .wdrain _ ⟨a, .imm _⟩ => !a.trap
  | .dsscutRead _ x => !x.a.trap
  | .dsscutImpose _ x | .dsscutStoreImage _ x | .dsscutLoadImage _ x => !x.a.trap
  | .dsscutUnimpose _ a => !a.trap
  | .mst _ x => x.t ≠ .n64
  | .ldAcq _ x | .stRel _ x => x.sc.fits x.off
  | .ldvAcq _ x | .stvRel _ x => x.sc.fits x.off
  | .mts _ x => x.reg.toNat ≠ 0x059 && x.reg.toNat ≠ 0x03B && x.reg.toNat ≠ 0x026
  | .kick c k _ | .transferRecord c k | .cfg c k _ | .haltResume c k _ | .free c k _ => c < 640 && k < 16
  | .pageWalk _ k => k < 4
  | .lqtail q _ | .launchStart q => q < 16
  | .frameReceived q _ _ => q < 64
  | .collectiveRecord _ f => f < 3
  | .vdctl v _ => v < 256
  | .machine d p => d < 16 && p < 8192
  | .unassignedEncoding d _ => 1 ≤ d && d < 8
  | .fetchFault c _ => c = 8 || c = 9
  | _ => true

/-- A guard of p0 is never negated (R199). -/
def Guard.ok (g : Guard) : Bool := g.p ≠ 0 || !g.neg

end Sys2Proof
end

