-- ==== Sys2Proof/WellFormed.lean ====
section
/-! DEFINITION. Well-formed instructions: what R199, R200, R207 steps 7 to 9 and the operand shapes allow. -/
namespace Sys2Proof

/-- The guard of an instruction; none for NOP, which has no guard of its own, and for the events of other agents. -/
def Instr.guard? : Instr → Option Guard
  | .add g _ | .sub g _ | .mul g _ | .mulh g _ | .div g _ | .rem g _ | .min g _ | .max g _ | .abs g _
  | .and g _ | .or g _ | .xor g _ | .andn g _ | .shl g _ | .shr g _ | .sra g _ | .rot g _ | .clz g _
  | .ctz g _ | .popc g _ | .brev g _ | .bswap g _ | .ext g _ | .ins g _ | .sel g _ | .mov g _ | .lea g _
  | .cmpEq g _ | .cmpNe g _ | .cmpLt g _ | .cmpLe g _ | .cmpGt g _ | .cmpGe g _ | .cmpUn g _ | .pand g _
  | .por g _ | .pxor g _ | .pnot g _ | .pmov g _ | .br g _ | .jmp g _ | .call g _ | .ret g _ | .loop g _
  | .brk g _ | .setwin g _ | .rdwin g _ | .swctx g _ | .wld g _ | .wst g _ | .wpush g _ | .wscrub g _
  | .wdrain g _ | .setutw g _ | .wret g | .ld g _ | .ldAcq g _ | .st g _ | .stRel g _ | .ldv g _
  | .ldvAcq g _ | .stv g _ | .stvRel g _ | .ldvs g _ | .stvs g _ | .ldvx g _ | .stvx g _ | .ldp g _
  | .pref g _ | .prefL2 g _ | .prefMsc g _ | .flush g _ | .flushMem g _ | .amoAdd g _ | .amoAnd g _
  | .amoOr g _ | .amoXor g _ | .amoMin g _ | .amoMax g _ | .amoSwap g _ | .amoCas g _ | .fenceAcq g _
  | .fenceRel g _ | .fenceFull g _ | .barinit g _ | .bararr g _ | .barwait g _ | .barbytes g _
  | .waitln g _ | .sleep g _ | .sleepProm g _ | .acopy g _ | .gather g _ | .scatter g _ | .vadd g _
  | .vsub g _ | .vmul g _ | .vfma g _ | .vfms g _ | .vdiv g _ | .vmin g _ | .vmax g _ | .vabs g _
  | .vneg g _ | .vsqrt g _ | .vrsq g _ | .vexp2 g _ | .vlog2 g _ | .vladd g _ | .vcmpEq g _ | .vcmpNe g _
  | .vcmpLt g _ | .vcmpLe g _ | .vcmpGt g _ | .vcmpGe g _ | .vcmpUn g _ | .vsel g _ | .vmask g _
  | .vpopc g _ | .vand g _ | .vor g _ | .vxor g _ | .vshl g _ | .vshr g _ | .vsra g _ | .vpack g _
  | .vunpack g _ | .vcvt g _ | .vcvtSat g _ | .vcvtOvf g _ | .vredadd g _ | .vredmax g _ | .vredmin g _
  | .vscan g _ | .vperm g _ | .vbcast g _ | .vshuf g _ | .vmov g _ | .vlds g _ | .vins g _ | .mmaF g _
  | .mmaI g _ | .mmaSat g _ | .mmaStep g _ | .mmas24F g _ | .mmas24I g _ | .mmas24Sat g _ | .mmas48F g _
  | .mmas48I g _ | .mmas48Sat g _ | .mrotF g _ | .mrotI g _ | .mrotSat g _ | .mlda g _ | .mldb g _
  | .mzero g _ | .mld g _ | .mldt g _ | .mthr g _ | .mrd g _ | .msave g _ | .msaveRst g _ | .mst g _
  | .dssbind g _ | .dssstep g _ | .dsscutRead g _ | .dsscutImpose g _ | .dsscutUnimpose g _
  | .dsscutStoreImage g _ | .dsscutLoadImage g _ | .send g _ | .sendRect g _ | .spawn g _ | .spawnev g _
  | .evadd g _ | .evset g _ | .park g _ | .tend g | .launch g _ | .yield g _ | .sread g _ | .swrite g _
  | .nettx g _ | .netrx g _ | .domain g _ | .domexit g | .vsend g _ | .vtnow g _ | .gvtrd g _ | .safe g
  | .defer g _ | .trap g _ | .rett g | .mfs g _ | .mts g _ | .tlbiPage g _ | .tlbiAsid g _
  | .tlbiPartition g _ | .idle g | .halt g | .censusStore g _ | .censusCompare g _ | .censusClear g _
  | .suspend g _ | .plsync g _ | .lsfa g _ => some g
  | .nop _ => none
  | .regionTableEviction | .hostBoundary _ | .pageWalk _ _ | .bindingLand _ | .ageingSweep _
  | .policingIntervalEnd | .gatherEngineServe | .gatherTokenFill | .acopyAccept | .acopyComplete
  | .kick _ _ _ | .transferRecord _ _ | .cfg _ _ _ | .haltResume _ _ _ | .free _ _ _ | .matrixGrant
  | .matrixTokenFill | .mrotBufferArrival _ _ _ | .rotlate | .promise | .sleepWake | .waitlnLineWritten _
  | .waitlnSpinTimeout | .waitlnParkTimeout _ | .budget | .ringlockIdle | .recordDelivery _
  | .overflowReoffer | .dispatch | .footprintFetch | .yieldHoldExpiry | .stealRoundWait | .lqtail _ _
  | .launchStart _ | .preempt _ | .stealseed _ | .optimisticArrival _ | .antiMessageArrival _ | .gvtReport
  | .gvtInstall _ | .ioAccept | .ioComplete _ _ | .ioTimeout _ | .frameReceived _ _ _ | .collkick _
  | .collectiveRecord _ _ | .hostWrite _ | .hostRead _ | .hostBar0Access _ _ _ _ | .fabricAccess _ _
  | .meshFlitParity _ _ | .linkCrcFail _ _ _ | .writebackLost _ | .machine _ _ | .eventPost _ _ _
  | .eventRingOverrunWait | .pagePull _ | .pullFailed _ | .vdctl _ _ | .quantumEnd | .sliceLate | .go _
  | .errcnt _ | .registerWrite _ _ | .boot _ _ | .thermalThrottle | .thermalHalt | .powerState _
  | .unassignedEncoding _ _ | .fetchFault _ _ | .softError _ _ _ | .pageArrival _ _ => none

/-- Whether a constructor is an event of an agent and no instruction word. -/
def Instr.isEvent : Instr → Bool
  | .nop _ => false
  | i => i.guard?.isNone

/-- The guard's own rule (R199). -/
def Instr.guardOk (i : Instr) : Bool :=
  match i.guard? with
  | some g => g.ok
  | none => true

/-- A well-formed instruction or event: its guard, its names, its form and the values its shape can hold. -/
def Instr.wf (i : Instr) : Bool := i.guardOk && i.nameProblem.isNone && i.formOk && i.canon

/-- The instructions an encoding names of its own: not the events, and not the two TLBI rows that share the words of TLBI_PAGE. -/
def Instr.encodable : Instr → Bool
  | .tlbiAsid _ _ | .tlbiPartition _ _ => false
  | i => !i.isEvent

end Sys2Proof
end

