-- ==== Sys2Proof/Decode.lean ====
section
/-! DEFINITION. Decoding and encoding: parcels and fetch blocks (R196, R197), the base word (R198 to R205), the opcode map (R208 to R212),
and the order of checks 3 to 9 of R207. -/
namespace Sys2Proof

/-- The fields of an instruction (R198, R202): parcels 2 and 3 are zero where the length has none. -/
structure Enc where
  l : BitVec 2 := 0
  maj : BitVec 6 := 0
  g : BitVec 4 := 0
  gn : Bool := false
  d : BitVec 11 := 0
  a : BitVec 11 := 0
  b : BitVec 11 := 0
  ma : Bool := false
  mb : Bool := false
  mn : BitVec 8 := 0
  fx : BitVec 8 := 0
  p2 : Parcel := 0
  p3 : Parcel := 0
  deriving DecidableEq, Repr

/-- Bytes of an instruction (R196). -/
def Enc.size (e : Enc) : Nat := 8 + 4 * e.l.toNat

/-- Parcel 0 (R198). -/
def Enc.parcel0 (e : Enc) : Parcel :=
  BitVec.ofNat 32 (e.l.toNat + 4 * e.maj.toNat + 256 * e.g.toNat + 4096 * e.gn.toNat + 8192 * e.d.toNat + 16777216 * (e.a.toNat % 256))

/-- Parcel 1 (R198). -/
def Enc.parcel1 (e : Enc) : Parcel :=
  BitVec.ofNat 32 (e.a.toNat / 256 + 8 * e.b.toNat + 16384 * e.ma.toNat + 32768 * e.mb.toNat + 65536 * e.mn.toNat
    + 16777216 * e.fx.toNat)

/-- The parcels of an instruction, in ascending address order (R196). -/
def Enc.pack (e : Enc) : List Parcel :=
  match e.l.toNat with
  | 0 => [e.parcel0, e.parcel1]
  | 1 => [e.parcel0, e.parcel1, e.p2]
  | _ => [e.parcel0, e.parcel1, e.p2, e.p3]

/-- The fields of four parcels; those beyond the length do not count (R198). -/
def Enc.unpack (p0 p1 p2 p3 : Parcel) : Enc :=
  let x := p0.toNat
  let y := p1.toNat
  let l := x % 4
  { l := BitVec.ofNat 2 l, maj := BitVec.ofNat 6 (x / 4), g := BitVec.ofNat 4 (x / 256), gn := x / 4096 % 2 = 1,
    d := BitVec.ofNat 11 (x / 8192), a := BitVec.ofNat 11 (x / 16777216 + 256 * (y % 8)), b := BitVec.ofNat 11 (y / 8),
    ma := y / 16384 % 2 = 1, mb := y / 32768 % 2 = 1, mn := BitVec.ofNat 8 (y / 65536), fx := BitVec.ofNat 8 (y / 16777216),
    p2 := if l = 0 then 0 else p2, p3 := if l < 2 then 0 else p3 }

/-! ### Reading fields -/

/-- The name of an operand field (R138). -/
def Name.ofBits (x : BitVec 11) : Name :=
  if h : x.toNat < 2032 then .w ⟨x.toNat, h⟩
  else match x.toNat with
    | 2040 => .lq0 | 2041 => .lq1 | 2042 => .sq0 | 2043 => .sq1 | 2044 => .nxt | 2045 => .prv | 2046 => .bad 8 | 2047 => .zero
    | n => .bad ⟨(n - 2032) % 9, Nat.mod_lt _ (by decide)⟩

/-- The field of a name (R138). -/
def Name.bits (n : Name) : BitVec 11 := BitVec.ofNat 11 n.num

/-- A field of a narrower kind (R200). -/
def Enc.low (x : BitVec 11) (k : Nat) (h : 0 < k := by decide) : Fin k := ⟨x.toNat % k, Nat.mod_lt _ h⟩

namespace Enc

def gd (e : Enc) : Guard := ⟨⟨e.g.toNat, e.g.isLt⟩, e.gn⟩
def dN (e : Enc) : Name := .ofBits e.d
def aN (e : Enc) : Name := .ofBits e.a
def bN (e : Enc) : Name := .ofBits e.b
def aS (e : Enc) : Src := ⟨e.aN, e.ma⟩
def bS (e : Enc) : Src := ⟨e.bN, e.mb⟩
def aR (e : Enc) : Run := ⟨e.aN, e.ma⟩
def bR (e : Enc) : Run := ⟨e.bN, e.mb⟩
def aV (e : Enc) : VSrc := ⟨low e.a 64, e.ma⟩
def bV (e : Enc) : VSrc := ⟨low e.b 64, e.mb⟩
def dV (e : Enc) : Fin 64 := low e.d 64
/-- The C field of parcel 2 and its mode (R202). -/
def c (e : Enc) : BitVec 11 := BitVec.ofNat 11 e.p2.toNat
def mc (e : Enc) : Bool := e.p2.toNat / 2048 % 2 = 1
def cS (e : Enc) : Src := ⟨.ofBits e.c, e.mc⟩
def cV (e : Enc) : VSrc := ⟨low e.c 64, e.mc⟩
/-- Bits [47:35] as one field (R202). -/
def i13 (e : Enc) : BitVec 13 := BitVec.ofNat 13 (e.b.toNat + 2048 * e.ma.toNat + 4096 * e.mb.toNat)
def ext (e : Enc) : BitVec 64 := BitVec.ofNat 64 (e.p2.toNat + 4294967296 * e.p3.toNat)
/-- The immediate of a TI or ZI form, by length (R202). -/
def imm (e : Enc) : Imm :=
  match e.l.toNat with
  | 0 => .i13 e.i13
  | 1 => .i32 e.p2
  | _ => .i64 e.ext
/-- FX subfields (R204). -/
def hi4 (e : Enc) : Fin 16 := ⟨e.fx.toNat / 16 % 16, Nat.mod_lt _ (by decide)⟩
def lo4 (e : Enc) : Fin 16 := ⟨e.fx.toNat % 16, Nat.mod_lt _ (by decide)⟩
def mid4 (e : Enc) : Fin 16 := ⟨e.fx.toNat / 8 % 16, Nat.mod_lt _ (by decide)⟩
def lo3 (e : Enc) : Fin 8 := ⟨e.fx.toNat % 8, Nat.mod_lt _ (by decide)⟩
def bit3 (e : Enc) : Bool := e.fx.toNat / 8 % 2 = 1
def bit7 (e : Enc) : Bool := e.fx.toNat / 128 = 1
def tyHi (e : Enc) : Ty := .ofCode (e.fx.toNat / 16)
def tyLo (e : Enc) : Ty := .ofCode e.fx.toNat
/-- MIN subfields (R205). -/
def ord (e : Enc) : Nat := e.mn.toNat / 64
def msc (e : Enc) : Nat := e.mn.toNat / 8 % 8
def op (e : Enc) : Nat := e.mn.toNat % 8

/-! Reserved fields that are not zero (R198). -/
def rD (e : Enc) : Bool := e.d ≠ 0
def rA (e : Enc) : Bool := e.a ≠ 0 || e.ma
def rB (e : Enc) : Bool := e.b ≠ 0 || e.mb
/-- Bits [95:76] of a parcel 2 that holds C (R202). -/
def rC (e : Enc) : Bool := e.p2.toNat / 4096 ≠ 0
/-- A vector, predicate, tile or window field with a bit above its own (R200). -/
def above (x : BitVec 11) (k : Nat) : Bool := k ≤ x.toNat
/-- FX formats TI and ZI (R204). -/
def rTI (e : Enc) : Bool := e.fx.toNat % 8 ≠ 0
def rZI (e : Enc) : Bool := e.fx.toNat % 8 ≠ 0 || e.fx.toNat / 16 ≠ 0
/-- Bits [45:35] and [47] of the longer immediate forms (R202). -/
def rImm (e : Enc) : Bool := e.l ≠ 0 && e.rB
/-- A reserved A beside an immediate: in the 64-bit form bit 46 belongs to the immediate (R202). Log entry 12 (DEDUCED). -/
def rAImm (e : Enc) : Bool := e.a ≠ 0 || (e.l ≠ 0 && e.ma)
/-- A beside an immediate (R202). Log entry 12 (DEDUCED). -/
def aImm (e : Enc) : Src := ⟨e.aN, e.l ≠ 0 && e.ma⟩
/-- The second operand of form r or i (R215). -/
def second (e : Enc) : Opnd := if e.bit3 then .imm e.imm else .word e.bS
/-- B as a word where IMM = 0; the bits of an immediate are no name (R202). -/
def bSrc (e : Enc) : Src := if e.bit3 then ⟨.zero, false⟩ else e.bS
/-- A beside the second operand. -/
def first (e : Enc) : Src := if e.bit3 then e.aImm else e.aS

end Enc

/-- What the fields hold before the checks: the instruction, whether a reserved field is non-zero, whether the form is refused. -/
structure Dec where
  i : Instr
  resv : Bool := false
  form : Bool := false
  deriving DecidableEq, Repr

namespace Enc

/-- A shorthand of R100 as the scope field holds it, 1 to 5. -/
def short (k : Nat) : Fin 5 := ⟨(k + 4) % 5, Nat.mod_lt _ (by decide)⟩

/-- The scope of a synchronising form whose [47:35] is no offset (R205, R310): scope and refusal. Parcel 2 has no use, and names nothing, beside
a shorthand. -/
def scope (e : Enc) (k : Nat) : Scope × Bool :=
  match e.l.toNat with
  | 0 => (.short (short k), k = 0 || 5 < k)
  | 1 => if k = 0 then (.word e.cS, false) else (.short (short k), true)
  | _ => (.ext e.ext, k ≠ 0)

/-- Bits [95:76] count where parcel 2 holds a scope word. -/
def rScope (e : Enc) (k : Nat) : Bool := e.l = 1 && k = 0 && e.rC

/-- The offset of the layout of R239 in a form without scope: offset, reserved, refusal. -/
def offset (e : Enc) : Off × Bool × Bool :=
  match e.l.toNat with
  | 0 => (.short e.i13, false, false)
  | 1 => (.long e.p2, e.i13 ≠ 0, false)
  | _ => (.short e.i13, false, true)

/-- The offset and scope of a synchronising form of the layout of R239. -/
def offScope (e : Enc) : Off × Scope × Bool × Bool :=
  let k := e.msc
  match e.l.toNat with
  | 0 => (.short e.i13, .short (short k), false, k = 0 || 5 < k)
  | 1 => if k = 0 then (.short e.i13, .word e.cS, e.rC, false) else (.long e.p2, .short (short k), e.i13 ≠ 0, 5 < k)
  | _ => (.short e.i13, .ext e.ext, false, k ≠ 0)

def alu (e : Enc) (f : Guard → Alu → Instr) : Option Dec :=
  some ⟨f e.gd ⟨e.tyHi, e.dN, e.first, e.second⟩, e.rTI || (e.bit3 && e.rImm), !e.bit3 && e.l ≠ 0⟩

def un (e : Enc) (f : Guard → Un → Instr) : Option Dec :=
  some ⟨f e.gd ⟨e.tyHi, e.dN, e.aS⟩, e.rTI || (!e.bit3 && e.rB), e.bit3 || e.l ≠ 0⟩

def cmp (e : Enc) (f : Guard → CmpArgs → Instr) : Option Dec :=
  some ⟨f e.gd ⟨e.tyHi, low e.d 16, e.first, e.second⟩, e.rTI || above e.d 16 || (e.bit3 && e.rImm), !e.bit3 && e.l ≠ 0⟩

def major01 (e : Enc) : Option Dec :=
  match e.mn.toNat with
  | 0x00 => e.alu .add | 0x01 => e.alu .sub | 0x02 => e.alu .mul | 0x03 => e.alu .mulh | 0x04 => e.alu .div | 0x05 => e.alu .rem
  | 0x06 => e.alu .min | 0x07 => e.alu .max | 0x08 => e.un .abs
  | _ => none

def major02 (e : Enc) : Option Dec :=
  match e.mn.toNat with
  | 0x00 => e.alu .and | 0x01 => e.alu .or | 0x02 => e.alu .xor | 0x03 => e.alu .andn
  | _ => none

def major03 (e : Enc) : Option Dec :=
  match e.mn.toNat with
  | 0x00 => e.alu .shl | 0x01 => e.alu .shr | 0x02 => e.alu .sra | 0x03 => e.alu .rot
  | _ => none

def major04 (e : Enc) : Option Dec :=
  match e.mn.toNat with
  | 0x00 => e.un .clz | 0x01 => e.un .ctz | 0x02 => e.un .popc | 0x03 => e.un .brev | 0x04 => e.un .bswap
  | 0x05 => e.alu .ext | 0x06 => e.alu .ins
  | _ => none

def major05 (e : Enc) : Option Dec :=
  match e.mn.toNat with
  | 0x00 => some ⟨.sel e.gd ⟨e.tyHi, e.dN, e.aS, e.bSrc, low e.c 16⟩, e.rTI || (e.l = 1 && !e.bit3 && 16 ≤ e.p2.toNat), e.bit3 || e.l ≠ 1⟩
  | 0x01 => if e.bit3 then some ⟨.mov e.gd ⟨e.tyHi, e.dN, .imm e.imm⟩, e.rTI || e.rAImm || e.rImm, false⟩
            else some ⟨.mov e.gd ⟨e.tyHi, e.dN, .word e.aS⟩, e.rTI || e.rB, e.l ≠ 0⟩
  | 0x02 => if e.bit3 then some ⟨.lea e.gd (.rel e.dN e.imm), e.rTI || e.rAImm || e.rImm, e.tyHi ≠ .i64⟩
            else some ⟨.lea e.gd (.idx e.tyHi e.dN e.aS e.bS), e.rTI, e.l ≠ 0⟩
  | _ => none

def major10 (e : Enc) : Option Dec :=
  match e.mn.toNat with
  | 0x00 => e.cmp .cmpEq | 0x01 => e.cmp .cmpNe | 0x02 => e.cmp .cmpLt | 0x03 => e.cmp .cmpLe | 0x04 => e.cmp .cmpGt
  | 0x05 => e.cmp .cmpGe | 0x06 => e.cmp .cmpUn
  | _ => none

def rPred (e : Enc) : Bool := e.fx ≠ 0 || e.ma || e.mb || above e.d 16 || above e.a 16

def pbin (e : Enc) (f : Guard → PBin → Instr) : Option Dec :=
  some ⟨f e.gd ⟨low e.d 16, low e.a 16, low e.b 16⟩, e.rPred || above e.b 16, e.l ≠ 0⟩

def pun (e : Enc) (f : Guard → PUn → Instr) : Option Dec :=
  some ⟨f e.gd ⟨low e.d 16, low e.a 16⟩, e.rPred || e.b ≠ 0, e.l ≠ 0⟩

def major11 (e : Enc) : Option Dec :=
  match e.mn.toNat with
  | 0x00 => e.pbin .pand | 0x01 => e.pbin .por | 0x02 => e.pbin .pxor | 0x03 => e.pun .pnot | 0x04 => e.pun .pmov
  | _ => none

/-- Form u of a ZI major with A a word and D reserved (R225, R229). -/
def ziA (e : Enc) (f : Guard → Src → Instr) : Option Dec :=
  some ⟨f e.gd e.aS, e.rZI || e.rD || (!e.bit3 && e.rB), e.bit3 || e.l ≠ 0⟩

/-- Form z (R215). -/
def ziZ (e : Enc) (f : Guard → Instr) : Option Dec :=
  some ⟨f e.gd, e.rZI || e.rD || e.a ≠ 0 || (!e.bit3 && (e.ma || e.rB)), e.bit3 || e.l ≠ 0⟩

/-- Refusal of form i13 (R215). -/
def no13 (e : Enc) : Bool := !e.bit3 || e.l ≠ 0

def nopLen (e : Enc) : Len :=
  match e.l.toNat with
  | 0 => .l64 | 1 => .l96 | _ => .l128

def major12 (e : Enc) : Option Dec :=
  match e.mn.toNat with
  | 0x00 => some ⟨.br e.gd e.imm, e.rZI || e.rD || e.rAImm || e.rImm, !e.bit3⟩
  | 0x01 => e.ziA .jmp
  | 0x02 => if e.bit3 then some ⟨.call e.gd ⟨e.dN, .rel e.imm⟩, e.rZI || e.rAImm || e.rImm, false⟩
            else some ⟨.call e.gd ⟨e.dN, .reg e.aS⟩, e.rZI || e.rB, e.l ≠ 0⟩
  | 0x03 => e.ziA .ret
  | 0x04 => some ⟨.loop e.gd ⟨e.dN, e.imm⟩, e.rZI || e.rAImm || e.rImm, !e.bit3⟩
  | 0x05 => some ⟨.nop e.nopLen, e.fx ≠ 0 || e.g ≠ 0 || e.gn || e.rD || e.rA || e.rB || e.p2 ≠ 0 || e.p3 ≠ 0, false⟩
  | 0x06 => some ⟨.brk e.gd e.i13, e.rZI || e.rD || e.a ≠ 0, e.no13⟩
  | _ => none

def wrange (e : Enc) (f : Guard → WRange → Instr) : Option Dec :=
  if e.bit3 then some ⟨f e.gd ⟨⟨e.aN, false⟩, .imm e.i13⟩, e.rZI || e.rD, e.l ≠ 0⟩
  else some ⟨f e.gd ⟨e.aS, .word e.bS⟩, e.rZI || e.rD, e.l ≠ 0⟩

def major18 (e : Enc) : Option Dec :=
  match e.mn.toNat with
  | 0x00 => e.ziA .setwin
  | 0x01 => some ⟨.rdwin e.gd e.dN, e.rZI || e.a ≠ 0 || (!e.bit3 && (e.ma || e.rB)), e.bit3 || e.l ≠ 0⟩
  | 0x02 => e.ziA .swctx
  | 0x03 => some ⟨.wld e.gd ⟨e.dN, e.aN, e.i13⟩, e.rZI, e.no13⟩
  | 0x04 => some ⟨.wst e.gd ⟨e.dN, e.aN, e.i13⟩, e.rZI, e.no13⟩
  | 0x05 => some ⟨.wpush e.gd ⟨e.aN, ⟨e.i13.toNat % 4, Nat.mod_lt _ (by decide)⟩⟩, e.rZI || e.rD, e.no13 || 4 ≤ e.i13.toNat⟩
  | 0x06 => e.wrange .wscrub
  | 0x07 => e.wrange .wdrain
  | 0x08 => e.ziA .setutw
  | 0x09 => e.ziZ .wret
  | _ => none

def memPlain (e : Enc) (f : Guard → Mem → Instr) : Option Dec :=
  let (off, rv, fm) := e.offset
  some ⟨f e.gd ⟨e.tyLo, e.hi4, e.dN, e.aN, off⟩, e.msc ≠ 0 || rv, fm⟩

def memSync (e : Enc) (f : Guard → MemSync → Instr) : Option Dec :=
  let (off, sc, rv, fm) := e.offScope
  some ⟨f e.gd ⟨e.tyLo, e.hi4, e.dN, e.aN, off, sc⟩, rv, fm⟩

def vmemPlain (e : Enc) (f : Guard → VMem → Instr) : Option Dec :=
  let (off, rv, fm) := e.offset
  some ⟨f e.gd ⟨e.tyLo, e.hi4, e.dV, e.aN, off⟩, e.msc ≠ 0 || rv || above e.d 64, fm⟩

def vmemSync (e : Enc) (f : Guard → VMemSync → Instr) : Option Dec :=
  let (off, sc, rv, fm) := e.offScope
  some ⟨f e.gd ⟨e.tyLo, e.hi4, e.dV, e.aN, off, sc⟩, rv || above e.d 64, fm⟩

/-- The lane mask word of the 96-bit form (R245), and LDP's index word (R246). -/
def optC (e : Enc) : Option Src := if e.l = 0 then none else some e.cS

def vstride (e : Enc) (f : Guard → VStride → Instr) : Option Dec :=
  if e.mn.toNat % 8 = 0 ∧ e.ord = 0 then
    some ⟨f e.gd ⟨e.tyLo, e.hi4, e.dV, e.aS, e.bS, e.optC⟩, e.msc ≠ 0 || above e.d 64 || (e.l = 1 && e.rC), e.l = 2⟩
  else none

def vindex (e : Enc) (f : Guard → VIndex → Instr) : Option Dec :=
  if e.mn.toNat % 8 = 0 ∧ e.ord = 0 then
    some ⟨f e.gd ⟨e.tyLo, e.hi4, e.dV, e.aS, e.bV, e.optC⟩, e.msc ≠ 0 || above e.d 64 || above e.b 64 || (e.l = 1 && e.rC), e.l = 2⟩
  else none

def major1C (e : Enc) : Option Dec :=
  match e.op, e.ord with
  | 0, 0 => e.memPlain .ld | 0, 1 => e.memSync .ldAcq
  | _, _ => none

def major1D (e : Enc) : Option Dec :=
  match e.op, e.ord with
  | 0, 0 => e.memPlain .st | 0, 2 => e.memSync .stRel
  | _, _ => none

def major1E (e : Enc) : Option Dec :=
  match e.op, e.ord with
  | 0, 0 => e.vmemPlain .ldv | 0, 1 => e.vmemSync .ldvAcq
  | _, _ => none

def major1F (e : Enc) : Option Dec :=
  match e.op, e.ord with
  | 0, 0 => e.vmemPlain .stv | 0, 2 => e.vmemSync .stvRel
  | _, _ => none

def major24 (e : Enc) : Option Dec :=
  match e.op, e.ord with
  | 0, 0 => some ⟨.ldp e.gd ⟨e.tyLo, e.hi4, e.dN, low e.a 8, e.i13, e.optC⟩, e.msc ≠ 0 || above e.a 8 || (e.l = 1 && e.rC), e.l = 2⟩
  | _, _ => none

def major25 (e : Enc) : Option Dec :=
  let (off, rv, fm) := e.offset
  let lv := e.lo4.val
  match e.op, e.ord with
  | 0, 0 =>
    let x : PrefArgs := ⟨e.hi4, e.aN, off⟩
    let i := match lv with
      | 0 => Instr.pref e.gd x | 1 => .prefL2 e.gd x | _ => .prefMsc e.gd x
    some ⟨i, e.msc ≠ 0 || rv || e.rD, fm || 2 < lv⟩
  | 1, 0 =>
    let x : FlushArgs := ⟨e.aN, off⟩
    let i := match lv with
      | 0 => Instr.flush e.gd x | _ => .flushMem e.gd x
    some ⟨i, e.msc ≠ 0 || rv || e.rD || e.hi4 ≠ 0, fm || 1 < lv⟩
  | _, _ => none

def ord4 (e : Enc) : Ord4 :=
  match e.ord with
  | 0 => .none | 1 => .acq | 2 => .rel | _ => .ar

def major28 (e : Enc) : Option Dec :=
  let (sc, fm) := e.scope e.msc
  let x : Amo := ⟨e.tyLo, e.hi4, e.ord4, e.dN, e.aS, e.bS, sc⟩
  let i := match e.op with
    | 0 => Instr.amoAdd e.gd x | 1 => .amoAnd e.gd x | 2 => .amoOr e.gd x | 3 => .amoXor e.gd x | 4 => .amoMin e.gd x
    | 5 => .amoMax e.gd x | 6 => .amoSwap e.gd x | _ => .amoCas e.gd x
  some ⟨i, e.rScope e.msc, fm⟩

def major29 (e : Enc) : Option Dec :=
  let (sc, fm) := e.scope e.msc
  let rv := e.fx ≠ 0 || e.rD || e.rA || e.rB || e.rScope e.msc
  match e.op, e.ord with
  | 0, 1 => some ⟨.fenceAcq e.gd sc, rv, fm⟩ | 0, 2 => some ⟨.fenceRel e.gd sc, rv, fm⟩ | 0, 3 => some ⟨.fenceFull e.gd sc, rv, fm⟩
  | _, _ => none

def major2A (e : Enc) : Option Dec :=
  let (sc, fm) := e.scope e.msc
  let rv := e.fx ≠ 0 || e.rScope e.msc
  match e.op, e.ord with
  | 0, 0 => some ⟨.barinit e.gd ⟨e.dN, e.aS, e.bS, sc⟩, rv, fm⟩
  | 1, 0 => some ⟨.bararr e.gd ⟨e.dN, e.aS, sc⟩, rv || e.rB, fm⟩
  | 2, 0 => some ⟨.barwait e.gd ⟨e.dN, e.aS, sc⟩, rv || e.rB, fm⟩
  | 3, 0 => some ⟨.barbytes e.gd ⟨e.aS, e.bS, sc⟩, rv || e.rD, fm⟩
  | _, _ => none

def major2C (e : Enc) : Option Dec :=
  let (sc, fm) := e.scope e.msc
  match e.op, e.ord with
  | 0, 0 => some ⟨.acopy e.gd ⟨e.hi4, e.dN, e.aR, sc⟩, e.rB || e.rScope e.msc, fm || e.lo4 ≠ 0⟩
  | _, _ => none

def major2D (e : Enc) : Option Dec :=
  let (sc, fm) := e.scope e.msc
  let x : GatherArgs := ⟨e.lo4 = 3, e.hi4, e.dN, e.aR, e.bV, sc⟩
  let rv := above e.b 64 || e.rScope e.msc
  let fm := fm || (e.lo4 ≠ 3 && e.lo4 ≠ 6)
  match e.op, e.ord with
  | 0, 0 => some ⟨.gather e.gd x, rv, fm⟩ | 1, 0 => some ⟨.scatter e.gd x, rv, fm⟩
  | _, _ => none

def major2E (e : Enc) : Option Dec :=
  match e.op, e.ord with
  | 0, 0 =>
    let (off, rv, fm) := e.offset
    some ⟨.waitln e.gd ⟨e.tyLo, e.dN, e.aN, off⟩, e.msc ≠ 0 || rv || e.hi4 ≠ 0, fm⟩
  | 1, 0 =>
    let i := if e.i13 = 1 then Instr.sleepProm e.gd e.aN else .sleep e.gd e.aN
    some ⟨i, e.msc ≠ 0 || e.fx ≠ 0 || e.rD, e.l ≠ 0 || 1 < e.i13.toNat⟩
  | _, _ => none

def o1 (e : Enc) : VOp1 := if e.bit3 then .scl e.dN e.aS else .vec e.dV e.aV
def o2 (e : Enc) : VOp2 := if e.bit3 then .scl e.dN e.aS e.bS else .vec e.dV e.aV e.bV
def o3 (e : Enc) : VOp3 := if e.bit3 then .scl e.dN e.aS e.bS e.cS else .vec e.dV e.aV e.bV e.cV
def rV2 (e : Enc) : Bool := !e.bit3 && (above e.d 64 || above e.a 64)
def rV3 (e : Enc) : Bool := e.rV2 || (!e.bit3 && above e.b 64)

def vec1 (e : Enc) (f : Guard → Vec1 → Instr) : Option Dec :=
  some ⟨f e.gd ⟨e.tyHi, e.lo3, e.o1⟩, e.rV2 || e.rB, e.l ≠ 0⟩
def vec2 (e : Enc) (f : Guard → Vec2 → Instr) : Option Dec :=
  some ⟨f e.gd ⟨e.tyHi, e.lo3, e.o2⟩, e.rV3, e.l ≠ 0⟩
def vec3 (e : Enc) (f : Guard → Vec3 → Instr) : Option Dec :=
  some ⟨f e.gd ⟨e.tyHi, e.lo3, e.o3⟩, e.rV3 || (e.l = 1 && (e.rC || (!e.bit3 && above e.c 64))), e.l ≠ 1⟩

/-- RM of a vector instruction that never rounds and carries no mode of its own here (R268). -/
def noRm (e : Enc) : Bool := e.lo3 ≠ 0
/-- No scalar form and no rounding (R270). -/
def vOnly (e : Enc) : Bool := e.noRm || e.bit3

def vcmp (e : Enc) (f : Guard → VCmpArgs → Instr) : Option Dec :=
  let x := if e.bit3 then VCmpArgs.scl e.tyHi e.dN e.aS e.bS else .vec e.tyHi e.dN e.aV e.bV
  some ⟨f e.gd x, !e.bit3 && (above e.a 64 || above e.b 64), e.l ≠ 0 || e.noRm⟩

def major30 (e : Enc) : Option Dec :=
  match e.mn.toNat with
  | 0x00 => e.vec2 .vadd | 0x01 => e.vec2 .vsub | 0x02 => e.vec2 .vmul | 0x03 => e.vec3 .vfma | 0x04 => e.vec3 .vfms
  | 0x05 => e.vec2 .vdiv | 0x06 => e.vec2 .vmin | 0x07 => e.vec2 .vmax | 0x08 => e.vec1 .vabs | 0x09 => e.vec1 .vneg
  | _ => none

def major31 (e : Enc) : Option Dec :=
  match e.mn.toNat with
  | 0x00 => e.vec1 .vsqrt | 0x01 => e.vec1 .vrsq | 0x02 => e.vec1 .vexp2 | 0x03 => e.vec1 .vlog2 | 0x04 => e.vec2 .vladd
  | _ => none

def major32 (e : Enc) : Option Dec :=
  match e.mn.toNat with
  | 0x00 => e.vcmp .vcmpEq | 0x01 => e.vcmp .vcmpNe | 0x02 => e.vcmp .vcmpLt | 0x03 => e.vcmp .vcmpLe | 0x04 => e.vcmp .vcmpGt
  | 0x05 => e.vcmp .vcmpGe | 0x06 => e.vcmp .vcmpUn
  | 0x10 =>
    let x := if e.bit3 then VSelArgs.scl e.tyHi e.dN e.aS e.bS e.cS else .vec e.tyHi e.dV e.aV e.bV e.cS
    some ⟨.vsel e.gd x, e.rV3 || (e.l = 1 && e.rC), e.l ≠ 1 || e.noRm⟩
  | 0x11 =>
    let x := if e.bit3 then VMaskArgs.scl e.tyHi e.dN e.aS else .vec e.tyHi e.dN e.aV
    some ⟨.vmask e.gd x, (!e.bit3 && above e.a 64) || e.rB, e.l ≠ 0 || e.noRm⟩
  | 0x12 => e.vec1 .vpopc
  | _ => none

def major33 (e : Enc) : Option Dec :=
  match e.mn.toNat with
  | 0x00 => e.vec2 .vand | 0x01 => e.vec2 .vor | 0x02 => e.vec2 .vxor | 0x03 => e.vec2 .vshl | 0x04 => e.vec2 .vshr
  | 0x05 => e.vec2 .vsra
  | _ => none

def vpackD (e : Enc) (f : Guard → VPackArgs → Instr) : Option Dec :=
  some ⟨f e.gd ⟨e.tyHi, e.dV, e.aV, low e.b 8⟩, above e.d 64 || above e.a 64 || above e.b 8 || e.mb, e.l ≠ 0 || e.vOnly⟩

def vcvtD (e : Enc) (f : Guard → VCvtArgs → Instr) : Option Dec :=
  let s := Ty.ofCode e.mn.toNat
  let h := e.b.toNat % 2 = 1
  let x := if e.bit3 then VCvtArgs.scl e.tyHi s e.lo3 e.dN e.aS else .vec e.tyHi s e.lo3 e.dV e.aV h
  some ⟨f e.gd x, e.rV2 || above e.b 2 || e.mb, e.l ≠ 0 || (e.bit3 && h)⟩

def major34 (e : Enc) : Option Dec :=
  match e.mn.toNat / 16, e.mn.toNat % 16 with
  | 0, 0 => e.vpackD .vpack | 0, 1 => e.vpackD .vunpack
  | 4, _ => e.vcvtD .vcvt | 5, _ => e.vcvtD .vcvtSat | 6, _ => e.vcvtD .vcvtOvf
  | _, _ => none

def vred (e : Enc) (f : Guard → VRedArgs → Instr) : Option Dec :=
  some ⟨f e.gd ⟨e.tyHi, e.lo3, e.dN, e.aV⟩, above e.a 64 || e.rB, e.l ≠ 0 || e.bit3⟩

def major35 (e : Enc) : Option Dec :=
  match e.mn.toNat with
  | 0x00 => e.vred .vredadd | 0x01 => e.vred .vredmax | 0x02 => e.vred .vredmin
  | 0x03 => some ⟨.vscan e.gd ⟨e.tyHi, e.lo3, e.dV, e.aV, e.bS⟩, above e.d 64 || above e.a 64, e.l ≠ 0 || e.bit3⟩
  | _ => none

def major36 (e : Enc) : Option Dec :=
  match e.mn.toNat with
  | 0x00 => some ⟨.vperm e.gd ⟨e.tyHi, e.dV, e.aV, e.bV⟩, above e.d 64 || above e.a 64 || above e.b 64, e.l ≠ 0 || e.vOnly⟩
  | 0x01 => some ⟨.vbcast e.gd ⟨e.tyHi, e.dV, e.aS⟩, above e.d 64 || e.rB, e.l ≠ 0 || e.vOnly⟩
  | 0x02 => some ⟨.vshuf e.gd ⟨e.tyHi, e.dV, e.aV, e.bV, e.cS⟩,
                  above e.d 64 || above e.a 64 || above e.b 64 || (e.l = 1 && e.rC), e.l ≠ 1 || e.vOnly⟩
  | 0x03 => e.vec1 .vmov
  | 0x04 => some ⟨.vlds e.gd ⟨e.tyHi, e.dN, e.aV, e.bS⟩, above e.a 64, e.l ≠ 0 || e.vOnly⟩
  | 0x05 => some ⟨.vins e.gd ⟨e.tyHi, e.dV, e.aS, e.bS⟩, above e.d 64, e.l ≠ 0 || e.vOnly⟩
  | _ => none

/-- The tile field of B (R200, R288). -/
def tile (e : Enc) : Fin 4 := low e.b 4
def rTile (e : Enc) : Bool := above e.b 4 || e.mb
def rNud (e : Enc) : Bool := e.mid4 ≠ 0

def matx (e : Enc) : Option Matx :=
  if e.l = 2 then some ⟨BitVec.ofNat 8 (e.p3.toNat / 4096), BitVec.ofNat 12 e.p3.toNat, e.p2⟩ else none

def mma (e : Enc) (f : Guard → MmaArgs → Instr) : Option Dec :=
  some ⟨f e.gd ⟨e.lo3, e.mid4, e.tile, e.dN, e.aR, e.matx⟩, e.bit7 || e.rTile || (e.l = 2 && 1048576 ≤ e.p3.toNat), e.l = 1⟩

def mrot (e : Enc) (f : Guard → MrotArgs → Instr) : Option Dec :=
  some ⟨f e.gd ⟨e.lo3, e.tile, e.dN, e.aR⟩, e.bit7 || e.rNud || e.rTile, e.l ≠ 0⟩

def major38 (e : Enc) : Option Dec :=
  match e.mn.toNat with
  | 0x00 => e.mma .mmaF | 0x01 => e.mma .mmaI | 0x02 => e.mma .mmaSat
  | 0x03 => some ⟨.mmaStep e.gd ⟨e.lo3, e.mid4, e.tile, e.dN, e.aR⟩, e.bit7 || e.rTile, e.l ≠ 0⟩
  | 0x10 => e.mma .mmas24F | 0x11 => e.mma .mmas24I | 0x12 => e.mma .mmas24Sat
  | 0x14 => e.mma .mmas48F | 0x15 => e.mma .mmas48I | 0x16 => e.mma .mmas48Sat
  | 0x20 => e.mrot .mrotF | 0x21 => e.mrot .mrotI | 0x22 => e.mrot .mrotSat
  | _ => none

def tokArgs (e : Enc) (f : Guard → TokArgs → Instr) : Option Dec :=
  some ⟨f e.gd ⟨e.mid4, e.dN, e.aR⟩, e.bit7 || e.rB, e.l ≠ 0 || e.noRm⟩

def mldD (e : Enc) (f : Guard → MldArgs → Instr) : Option Dec :=
  some ⟨f e.gd ⟨e.mid4, e.tile, e.dN, e.aR⟩, e.bit7 || e.rTile, e.l ≠ 0 || e.noRm⟩

def major39 (e : Enc) : Option Dec :=
  if e.mn.toNat / 16 = 5 then
    if e.mn.toNat % 16 = 7 then none
    else some ⟨.mst e.gd ⟨.ofCode e.mn.toNat, e.lo3, e.mid4, e.tile, e.dN, e.aR⟩, e.bit7 || e.rTile, e.l ≠ 0⟩
  else match e.mn.toNat with
  | 0x00 => e.tokArgs .mlda | 0x01 => e.tokArgs .mldb
  | 0x02 => some ⟨.mzero e.gd e.tile, e.bit7 || e.rNud || e.rD || e.rA || e.rTile, e.l ≠ 0 || e.noRm⟩
  | 0x03 => e.mldD .mld | 0x04 => e.mldD .mldt
  | 0x06 => some ⟨.mthr e.gd e.aS, e.bit7 || e.rNud || e.rD || e.rB, e.l ≠ 0 || e.noRm⟩
  | 0x07 => some ⟨.mrd e.gd ⟨e.dN, e.i13⟩, e.bit7 || e.rNud || e.a ≠ 0, e.l ≠ 0 || e.noRm⟩
  | 0x08 =>
    let i := if e.b = 1 then Instr.msaveRst e.gd ⟨e.dN, e.aR⟩ else .msave e.gd ⟨e.dN, e.aR⟩
    some ⟨i, e.bit7 || e.rNud || e.mb, e.l ≠ 0 || e.noRm || 1 < e.b.toNat⟩
  | _ => none

/-- A of DSSCUT: bit 46 belongs to the kind (R381), so it is read in mode 0 (log entry 12). -/
def aR0 (e : Enc) : Run := ⟨e.aN, false⟩

def major3A (e : Enc) : Option Dec :=
  match e.mn.toNat with
  | 0x00 => some ⟨.dssbind e.gd ⟨e.dN, e.aR⟩, e.bit7 || e.rNud || e.rB, e.l ≠ 0 || e.noRm⟩
  | 0x01 => e.tokArgs .dssstep
  | 0x02 =>
    let x : TokArgs := ⟨e.mid4, e.dN, e.aR0⟩
    let fm := e.l ≠ 0 || e.noRm
    match e.i13.toNat with
    | 0 => some ⟨.dsscutRead e.gd ⟨e.dN, e.aR0⟩, e.bit7 || e.rNud, fm⟩
    | 1 => some ⟨.dsscutImpose e.gd x, e.bit7, fm⟩
    | 2 => some ⟨.dsscutUnimpose e.gd e.aR0, e.bit7 || e.rNud || e.rD, fm⟩
    | 3 => some ⟨.dsscutStoreImage e.gd x, e.bit7, fm⟩
    | 4 => some ⟨.dsscutLoadImage e.gd x, e.bit7, fm⟩
    | _ => some ⟨.dsscutImpose e.gd x, e.bit7, true⟩
  | _ => none

/-- The SCOPE field of format TK. -/
def tsc (e : Enc) : Nat := e.fx.toNat % 8

def sendD (e : Enc) (f : Guard → SendArgs → Instr) : Option Dec :=
  let (sc, fm) := e.scope e.tsc
  some ⟨f e.gd ⟨e.aS, e.bR, sc⟩, e.bit7 || e.rNud || e.rD || e.rScope e.tsc, fm⟩

def evD (e : Enc) (f : Guard → EvArgs → Instr) : Option Dec :=
  let (sc, fm) := e.scope e.tsc
  some ⟨f e.gd ⟨e.dN, e.aS, e.bS, sc⟩, e.bit7 || e.rNud || e.rScope e.tsc, fm⟩

def ioD (e : Enc) (f : Guard → IoArgs → Instr) : Option Dec :=
  let (sc, fm) := e.scope e.tsc
  some ⟨f e.gd ⟨e.mid4, e.dN, e.aR, sc⟩, e.bit7 || e.rB || e.rScope e.tsc, fm⟩

/-- Instructions that name no scope: SCOPE is 1, 64 bits (R310, R360). -/
def noScope (e : Enc) : Bool := e.l ≠ 0 || e.tsc ≠ 1

def sendRectD (e : Enc) : Option Dec :=
  some ⟨.sendRect e.gd ⟨BitVec.ofNat 13 e.p2.toNat, BitVec.ofNat 13 (e.p2.toNat / 65536), e.bR, short e.tsc⟩,
    e.bit7 || e.rNud || e.rD || e.rA || e.p2.toNat / 8192 % 8 ≠ 0 || e.p2.toNat / 536870912 ≠ 0 || e.p3 ≠ 0, false⟩

def major3C (e : Enc) : Option Dec :=
  let rv := e.bit7 || e.rNud
  match e.mn.toNat with
  | 0x00 => if e.l = 2 ∧ 1 ≤ e.tsc ∧ e.tsc ≤ 5 then e.sendRectD else e.sendD .send
  | 0x01 =>
    let (sc, fm) := e.scope e.tsc
    some ⟨.spawn e.gd ⟨e.bR, sc⟩, rv || e.rD || e.rA || e.rScope e.tsc, fm⟩
  | 0x02 => e.sendD .spawnev
  | 0x03 => e.evD .evadd
  | 0x04 => e.evD .evset
  | 0x05 =>
    let (sc, fm) := e.scope e.tsc
    some ⟨.park e.gd ⟨e.aN, e.i13, sc⟩, rv || e.rD || e.rScope e.tsc, fm⟩
  | 0x06 => some ⟨.tend e.gd, rv || e.rD || e.rA || e.rB, e.noScope⟩
  | 0x07 => e.evD .launch
  | 0x08 => some ⟨.yield e.gd e.i13, rv || e.rD || e.a ≠ 0, e.noScope⟩
  | 0x10 => e.ioD .sread | 0x11 => e.ioD .swrite | 0x12 => e.ioD .nettx | 0x13 => e.ioD .netrx
  | 0x20 => some ⟨.domain e.gd ⟨e.aS, e.bS⟩, rv || e.rD, e.noScope⟩
  | 0x21 => some ⟨.domexit e.gd, rv || e.rD || e.rA || e.rB, e.noScope⟩
  | 0x22 => e.sendD .vsend
  | 0x23 => some ⟨.vtnow e.gd e.dN, rv || e.rA || e.rB, e.noScope⟩
  | 0x24 => some ⟨.gvtrd e.gd e.dN, rv || e.rA || e.rB, e.noScope⟩
  | 0x25 => some ⟨.safe e.gd, rv || e.rD || e.rA || e.rB, e.noScope⟩
  | 0x26 => e.sendD .defer
  | _ => none

def mtsD (e : Enc) : Instr :=
  match e.i13.toNat with
  | 0x059 => .suspend e.gd e.aN
  | 0x03B => .plsync e.gd e.aN
  | 0x026 => .lsfa e.gd e.aN
  | _ => .mts e.gd ⟨e.i13, e.aN⟩

def major3D (e : Enc) : Option Dec :=
  match e.mn.toNat with
  | 0x00 => some ⟨.trap e.gd e.i13, e.rZI || e.rD || e.a ≠ 0, e.no13⟩
  | 0x01 => e.ziZ .rett
  | 0x02 => some ⟨.mfs e.gd ⟨e.dN, e.i13⟩, e.rZI || e.a ≠ 0, e.no13⟩
  | 0x03 => some ⟨e.mtsD, e.rZI || e.rD, e.no13⟩
  | 0x04 => some ⟨.tlbiPage e.gd ⟨e.aS, e.bSrc⟩, e.rZI || e.rD, e.bit3 || e.l ≠ 0⟩
  | 0x05 => e.ziZ .idle
  | 0x06 => e.ziZ .halt
  | 0x07 =>
    let x : CensusArgs := ⟨e.dN, e.aN⟩
    let i := match e.i13.toNat with
      | 0 => Instr.censusStore e.gd x | 1 => .censusCompare e.gd x | _ => .censusClear e.gd x
    some ⟨i, e.rZI, e.no13 || 2 < e.i13.toNat⟩
  | _ => none

/-- The opcode map (R209 to R212); none is detail OPCODE (R208). -/
def major (e : Enc) : Option Dec :=
  match e.maj.toNat with
  | 0x01 => e.major01 | 0x02 => e.major02 | 0x03 => e.major03 | 0x04 => e.major04 | 0x05 => e.major05
  | 0x10 => e.major10 | 0x11 => e.major11 | 0x12 => e.major12 | 0x18 => e.major18
  | 0x1C => e.major1C | 0x1D => e.major1D | 0x1E => e.major1E | 0x1F => e.major1F
  | 0x20 => e.vstride .ldvs | 0x21 => e.vstride .stvs | 0x22 => e.vindex .ldvx | 0x23 => e.vindex .stvx
  | 0x24 => e.major24 | 0x25 => e.major25 | 0x28 => e.major28 | 0x29 => e.major29 | 0x2A => e.major2A
  | 0x2C => e.major2C | 0x2D => e.major2D | 0x2E => e.major2E
  | 0x30 => e.major30 | 0x31 => e.major31 | 0x32 => e.major32 | 0x33 => e.major33 | 0x34 => e.major34 | 0x35 => e.major35
  | 0x36 => e.major36 | 0x38 => e.major38 | 0x39 => e.major39 | 0x3A => e.major3A | 0x3C => e.major3C | 0x3D => e.major3D
  | _ => none

end Enc

/-- Steps 7 to 9 of R207 over what the fields hold. Log entry 21 (DEDUCED). -/
def Dec.check (e : Enc) (d : Dec) : Except Ill Instr :=
  if !e.gd.ok || d.resv then .error .resv
  else match d.i.nameProblem with
    | some p => .error p
    | none => if d.form || !d.i.formOk then .error .form else .ok d.i

/-- Steps 5 to 9 of R207. Log entry 21 (DEDUCED). -/
def decodeFields (e : Enc) : Except Ill Instr :=
  if e.maj = 0x3F then .error .perm
  else match e.major with
    | none => .error .opcode
    | some d => d.check e

/-- Steps 3 to 9 of R207 for four parcels read at block offset `off` (R196, R197). -/
def decodeParcels (off : Nat) (p0 p1 p2 p3 : Parcel) : Except Ill Instr :=
  let l := p0.toNat % 4
  if l = 3 then .error .length
  else if 32 < off + 8 + 4 * l then .error .fetchBound
  else decodeFields (Enc.unpack p0 p1 p2 p3)

/-- The skip parcel (R197). -/
def isSkip (off : Nat) (p0 : Parcel) : Bool := off = 28 && p0 = 3

/-- The k-th little-endian parcel of bytes; a byte that is not there counts as 0. -/
def parcelAt (bs : List Byte) (k : Nat) : Parcel :=
  let byte (j : Nat) : Nat := (bs.getD (4 * k + j) 0).toNat
  BitVec.ofNat 32 (byte 0 + 256 * byte 1 + 65536 * byte 2 + 16777216 * byte 3)

/-- The decoder: bytes at block offset `off`, to an instruction or a detail of ILLEGAL (R196, R206, R207). -/
def decode (off : Nat) (bs : List Byte) : Except Ill Instr :=
  decodeParcels off (parcelAt bs 0) (parcelAt bs 1) (parcelAt bs 2) (parcelAt bs 3)

/-- The bytes of a parcel, little-endian (R196). -/
def parcelBytes (p : Parcel) : List Byte :=
  [BitVec.ofNat 8 p.toNat, BitVec.ofNat 8 (p.toNat / 256), BitVec.ofNat 8 (p.toNat / 65536), BitVec.ofNat 8 (p.toNat / 16777216)]

/-! ### Encoding -/

/-- The fields L, p2 and p3 of a scope (R205). -/
def Scope.put (s : Scope) (e : Enc) : Enc :=
  match s with
  | .short _ => e
  | .word c => { e with l := 1, p2 := BitVec.ofNat 32 (c.name.num + 2048 * c.trap.toNat) }
  | .ext v => { e with l := 2, p2 := BitVec.ofNat 32 v.toNat, p3 := BitVec.ofNat 32 (v.toNat / 4294967296) }

/-- The scope field (R100, R205). -/
def Scope.field : Scope → Nat
  | .short k => k.val + 1
  | _ => 0

namespace Enc

/-- Bits [47:35] holding a 13-bit value. -/
def put13 (e : Enc) (v : BitVec 13) : Enc :=
  { e with b := BitVec.ofNat 11 v.toNat, ma := v.toNat / 2048 % 2 = 1, mb := v.toNat / 4096 = 1 }

def putImm (e : Enc) (v : Imm) : Enc :=
  match v with
  | .i13 v => e.put13 v
  | .i32 v => { e with l := 1, p2 := v }
  | .i64 v => { e with l := 2, p2 := BitVec.ofNat 32 v.toNat, p3 := BitVec.ofNat 32 (v.toNat / 4294967296) }

def putOff (e : Enc) (v : Off) : Enc :=
  match v with
  | .short v => e.put13 v
  | .long v => { e with l := 1, p2 := v }

/-- Log entry 12 (DEDUCED). -/
def putA (e : Enc) (s : Src) : Enc := { e with a := s.name.bits, ma := s.trap }
def putB (e : Enc) (s : Src) : Enc := { e with b := s.name.bits, mb := s.trap }
def putAR (e : Enc) (s : Run) : Enc := { e with a := s.first.bits, ma := s.trap }
def putBR (e : Enc) (s : Run) : Enc := { e with b := s.first.bits, mb := s.trap }
def putAV (e : Enc) (s : VSrc) : Enc := { e with a := BitVec.ofNat 11 s.v.val, ma := s.trap }
def putBV (e : Enc) (s : VSrc) : Enc := { e with b := BitVec.ofNat 11 s.v.val, mb := s.trap }
def putC (e : Enc) (s : Src) : Enc := { e with l := 1, p2 := BitVec.ofNat 32 (s.name.num + 2048 * s.trap.toNat) }
def putCV (e : Enc) (s : VSrc) : Enc := { e with l := 1, p2 := BitVec.ofNat 32 (s.v.val + 2048 * s.trap.toNat) }
def putOptC (e : Enc) : Option Src → Enc
  | some s => e.putC s
  | none => e

/-- An Enc of a major and minor under a guard. -/
def base (g : Guard) (maj mn fx : Nat) : Enc :=
  { maj := BitVec.ofNat 6 maj, mn := BitVec.ofNat 8 mn, fx := BitVec.ofNat 8 fx, g := BitVec.ofNat 4 g.p.val, gn := g.neg }

def ofFin {n : Nat} (k : Fin n) : BitVec 11 := BitVec.ofNat 11 k.val

/-- The second operand of form r or i, with the IMM bit. -/
def second2 (e : Enc) (t : Ty) (a : Src) : Opnd → Enc
  | .word b => { (e.putA a).putB b with fx := BitVec.ofNat 8 (t.code * 16) }
  | .imm (.i13 v) => { (e.put13 v) with a := a.name.bits, fx := BitVec.ofNat 8 (t.code * 16 + 8) }
  | .imm v => { (e.putImm v).putA a with fx := BitVec.ofNat 8 (t.code * 16 + 8) }

def ofAlu (g : Guard) (maj mn : Nat) (x : Alu) : Enc := second2 { base g maj mn 0 with d := x.d.bits } x.t x.a x.b
def ofUn (g : Guard) (maj mn : Nat) (x : Un) : Enc := putA { base g maj mn (x.t.code * 16) with d := x.d.bits } x.a
def ofCmp (g : Guard) (mn : Nat) (x : CmpArgs) : Enc := second2 { base g 0x10 mn 0 with d := ofFin x.p } x.t x.a x.b
def ofPBin (g : Guard) (mn : Nat) (x : PBin) : Enc := { base g 0x11 mn 0 with d := ofFin x.d, a := ofFin x.a, b := ofFin x.b }
def ofPUn (g : Guard) (mn : Nat) (x : PUn) : Enc := { base g 0x11 mn 0 with d := ofFin x.d, a := ofFin x.a }
def ofRange (g : Guard) (mn : Nat) (x : WRange) : Enc :=
  match x.c with
  | .word c => ((base g 0x18 mn 0).putA x.a).putB c
  | .imm v => { (base g 0x18 mn 8).put13 v with a := x.a.name.bits }
def ofMem (g : Guard) (maj : Nat) (x : Mem) : Enc :=
  { base g maj 0 (x.nud.val * 16 + x.t.code) with d := x.d.bits, a := x.a.bits }.putOff x.off
def ofMemSync (g : Guard) (maj ord : Nat) (x : MemSync) : Enc :=
  x.sc.put ({ base g maj (ord * 64 + x.sc.field * 8) (x.nud.val * 16 + x.t.code) with d := x.d.bits, a := x.a.bits }.putOff x.off)
def ofVMem (g : Guard) (maj : Nat) (x : VMem) : Enc :=
  { base g maj 0 (x.nud.val * 16 + x.t.code) with d := ofFin x.v, a := x.a.bits }.putOff x.off
def ofVMemSync (g : Guard) (maj ord : Nat) (x : VMemSync) : Enc :=
  x.sc.put ({ base g maj (ord * 64 + x.sc.field * 8) (x.nud.val * 16 + x.t.code) with d := ofFin x.v, a := x.a.bits }.putOff x.off)
def ofStride (g : Guard) (maj : Nat) (x : VStride) : Enc :=
  ((({ base g maj 0 (x.nud.val * 16 + x.t.code) with d := ofFin x.v }.putA x.a).putB x.b)).putOptC x.m
def ofIndex (g : Guard) (maj : Nat) (x : VIndex) : Enc :=
  ((({ base g maj 0 (x.nud.val * 16 + x.t.code) with d := ofFin x.v }.putA x.a).putBV x.b)).putOptC x.m
def ofPref (g : Guard) (lv : Nat) (x : PrefArgs) : Enc := { base g 0x25 0 (x.nud.val * 16 + lv) with a := x.a.bits }.putOff x.off
def ofFlush (g : Guard) (lv : Nat) (x : FlushArgs) : Enc := { base g 0x25 1 lv with a := x.a.bits }.putOff x.off
def ofOrd : Ord4 → Nat
  | .none => 0 | .acq => 1 | .rel => 2 | .ar => 3
def ofAmo (g : Guard) (op : Nat) (x : Amo) : Enc :=
  x.sc.put (({ base g 0x28 (ofOrd x.ord * 64 + x.sc.field * 8 + op) (x.nud.val * 16 + x.t.code) with d := x.d.bits }.putA x.a).putB x.b)
def ofFence (g : Guard) (ord : Nat) (sc : Scope) : Enc := sc.put (base g 0x29 (ord * 64 + sc.field * 8) 0)
def ofGather (g : Guard) (op : Nat) (x : GatherArgs) : Enc :=
  x.sc.put (({ base g 0x2D (x.sc.field * 8 + op) (x.nud.val * 16 + if x.wide then 3 else 6) with d := x.tok.bits }.putAR x.a).putBV x.b)
def ofO1 (e : Enc) : VOp1 → Enc
  | .vec d a => { e with d := ofFin d }.putAV a
  | .scl d a => { e with d := d.bits, fx := e.fx + 8 }.putA a
def ofO2 (e : Enc) : VOp2 → Enc
  | .vec d a b => ({ e with d := ofFin d }.putAV a).putBV b
  | .scl d a b => ({ e with d := d.bits, fx := e.fx + 8 }.putA a).putB b
def ofO3 (e : Enc) : VOp3 → Enc
  | .vec d a b c => (({ e with d := ofFin d }.putAV a).putBV b).putCV c
  | .scl d a b c => (({ e with d := d.bits, fx := e.fx + 8 }.putA a).putB b).putC c
def ofVec1 (g : Guard) (maj mn : Nat) (x : Vec1) : Enc := ofO1 (base g maj mn (x.t.code * 16 + x.rm.val)) x.o
def ofVec2 (g : Guard) (maj mn : Nat) (x : Vec2) : Enc := ofO2 (base g maj mn (x.t.code * 16 + x.rm.val)) x.o
def ofVec3 (g : Guard) (maj mn : Nat) (x : Vec3) : Enc := ofO3 (base g maj mn (x.t.code * 16 + x.rm.val)) x.o
def ofVCmp (g : Guard) (mn : Nat) : VCmpArgs → Enc
  | .vec t d a b => ({ base g 0x32 mn (t.code * 16) with d := d.bits }.putAV a).putBV b
  | .scl t d a b => ({ base g 0x32 mn (t.code * 16 + 8) with d := d.bits }.putA a).putB b
def ofVSel (g : Guard) : VSelArgs → Enc
  | .vec t d a b c => (({ base g 0x32 0x10 (t.code * 16) with d := ofFin d }.putAV a).putBV b).putC c
  | .scl t d a b c => (({ base g 0x32 0x10 (t.code * 16 + 8) with d := d.bits }.putA a).putB b).putC c
def ofVMask (g : Guard) : VMaskArgs → Enc
  | .vec t d a => { base g 0x32 0x11 (t.code * 16) with d := d.bits }.putAV a
  | .scl t d a => { base g 0x32 0x11 (t.code * 16 + 8) with d := d.bits }.putA a
def ofPackV (g : Guard) (mn : Nat) (x : VPackArgs) : Enc :=
  { base g 0x34 mn (x.t.code * 16) with d := ofFin x.d, b := ofFin x.pos }.putAV x.a
def ofCvt (g : Guard) (mn : Nat) : VCvtArgs → Enc
  | .vec t s rm d a hi => { base g 0x34 (mn + s.code) (t.code * 16 + rm.val) with d := ofFin d, b := BitVec.ofNat 11 hi.toNat }.putAV a
  | .scl t s rm d a => { base g 0x34 (mn + s.code) (t.code * 16 + 8 + rm.val) with d := d.bits }.putA a
def ofRed (g : Guard) (mn : Nat) (x : VRedArgs) : Enc := { base g 0x35 mn (x.t.code * 16 + x.rm.val) with d := x.d.bits }.putAV x.a
def putMatx (e : Enc) : Option Matx → Enc
  | none => e
  | some m => { e with l := 2, p2 := m.rowmask, p3 := BitVec.ofNat 32 (m.kcount.toNat + 4096 * m.klim.toNat) }
def ofMma (g : Guard) (mn : Nat) (x : MmaArgs) : Enc :=
  ({ base g 0x38 mn (x.nud.val * 8 + x.rm.val) with d := x.tok.bits, b := ofFin x.tile }.putAR x.a).putMatx x.x
def ofMrot (g : Guard) (mn : Nat) (x : MrotArgs) : Enc :=
  { base g 0x38 mn x.rm.val with d := x.tok.bits, b := ofFin x.tile }.putAR x.a
def ofTok (g : Guard) (maj mn : Nat) (x : TokArgs) : Enc := { base g maj mn (x.nud.val * 8) with d := x.tok.bits }.putAR x.a
def ofMld (g : Guard) (mn : Nat) (x : MldArgs) : Enc :=
  { base g 0x39 mn (x.nud.val * 8) with d := x.tok.bits, b := ofFin x.tile }.putAR x.a
def ofCut (g : Guard) (k : Nat) (x : TokArgs) : Enc :=
  { (base g 0x3A 2 (x.nud.val * 8)).put13 (BitVec.ofNat 13 k) with d := x.tok.bits, a := x.a.first.bits }
def ofSend (g : Guard) (mn : Nat) (x : SendArgs) : Enc := x.sc.put (((base g 0x3C mn x.sc.field).putA x.a).putBR x.r)
def ofEv (g : Guard) (mn : Nat) (x : EvArgs) : Enc :=
  x.sc.put (({ base g 0x3C mn x.sc.field with d := x.d.bits }.putA x.a).putB x.b)
def ofIo (g : Guard) (mn : Nat) (x : IoArgs) : Enc :=
  x.sc.put ({ base g 0x3C mn (x.nud.val * 8 + x.sc.field) with d := x.tok.bits }.putAR x.a)
def ofMts (g : Guard) (r : BitVec 13) (a : Name) : Enc := { (base g 0x3D 3 8).put13 r with a := a.bits }
def ofCensus (g : Guard) (k : Nat) (x : CensusArgs) : Enc :=
  { (base g 0x3D 7 8).put13 (BitVec.ofNat 13 k) with d := x.d.bits, a := x.a.bits }
def ofRel (g : Guard) (maj mn fx : Nat) (d : BitVec 11) (v : Imm) : Enc := { (base g maj mn fx).putImm v with d := d }

end Enc

/-- The fields an instruction encodes to (R198 to R212); an event has none, and answers the word of zeros, which decodes to no
instruction. -/
def fieldsOf : Instr → Enc
  | .add g x => .ofAlu g 0x01 0 x
  | .sub g x => .ofAlu g 0x01 1 x
  | .mul g x => .ofAlu g 0x01 2 x
  | .mulh g x => .ofAlu g 0x01 3 x
  | .div g x => .ofAlu g 0x01 4 x
  | .rem g x => .ofAlu g 0x01 5 x
  | .min g x => .ofAlu g 0x01 6 x
  | .max g x => .ofAlu g 0x01 7 x
  | .abs g x => .ofUn g 0x01 8 x
  | .and g x => .ofAlu g 0x02 0 x
  | .or g x => .ofAlu g 0x02 1 x
  | .xor g x => .ofAlu g 0x02 2 x
  | .andn g x => .ofAlu g 0x02 3 x
  | .shl g x => .ofAlu g 0x03 0 x
  | .shr g x => .ofAlu g 0x03 1 x
  | .sra g x => .ofAlu g 0x03 2 x
  | .rot g x => .ofAlu g 0x03 3 x
  | .clz g x => .ofUn g 0x04 0 x
  | .ctz g x => .ofUn g 0x04 1 x
  | .popc g x => .ofUn g 0x04 2 x
  | .brev g x => .ofUn g 0x04 3 x
  | .bswap g x => .ofUn g 0x04 4 x
  | .ext g x => .ofAlu g 0x04 5 x
  | .ins g x => .ofAlu g 0x04 6 x
  | .sel g x => { ((Enc.base g 0x05 0 (x.t.code * 16)).putA x.a).putB x.b with l := 1, d := x.d.bits, p2 := BitVec.ofNat 32 x.p.val }
  | .mov g ⟨t, d, .word s⟩ => Enc.putA { Enc.base g 0x05 1 (t.code * 16) with d := d.bits } s
  | .mov g ⟨t, d, .imm v⟩ => .ofRel g 0x05 1 (t.code * 16 + 8) d.bits v
  | .lea g (.idx t d s b) => (Enc.putA { Enc.base g 0x05 2 (t.code * 16) with d := d.bits } s).putB b
  | .lea g (.rel d v) => .ofRel g 0x05 2 0x38 d.bits v
  | .cmpEq g x => .ofCmp g 0 x
  | .cmpNe g x => .ofCmp g 1 x
  | .cmpLt g x => .ofCmp g 2 x
  | .cmpLe g x => .ofCmp g 3 x
  | .cmpGt g x => .ofCmp g 4 x
  | .cmpGe g x => .ofCmp g 5 x
  | .cmpUn g x => .ofCmp g 6 x
  | .pand g x => .ofPBin g 0 x
  | .por g x => .ofPBin g 1 x
  | .pxor g x => .ofPBin g 2 x
  | .pnot g x => .ofPUn g 3 x
  | .pmov g x => .ofPUn g 4 x
  | .br g v => .ofRel g 0x12 0 8 0 v
  | .jmp g s => (Enc.base g 0x12 1 0).putA s
  | .call g ⟨d, .rel v⟩ => .ofRel g 0x12 2 8 d.bits v
  | .call g ⟨d, .reg s⟩ => Enc.putA { Enc.base g 0x12 2 0 with d := d.bits } s
  | .ret g s => (Enc.base g 0x12 3 0).putA s
  | .loop g x => .ofRel g 0x12 4 8 x.d.bits x.off
  | .nop .l64 => Enc.base {} 0x12 5 0
  | .nop .l96 => { Enc.base {} 0x12 5 0 with l := 1 }
  | .nop .l128 => { Enc.base {} 0x12 5 0 with l := 2 }
  | .brk g v => (Enc.base g 0x12 6 8).put13 v
  | .setwin g s => (Enc.base g 0x18 0 0).putA s
  | .rdwin g d => { Enc.base g 0x18 1 0 with d := d.bits }
  | .swctx g s => (Enc.base g 0x18 2 0).putA s
  | .wld g x => { (Enc.base g 0x18 3 8).put13 x.off with d := x.d.bits, a := x.a.bits }
  | .wst g x => { (Enc.base g 0x18 4 8).put13 x.off with d := x.d.bits, a := x.a.bits }
  | .wpush g x => { (Enc.base g 0x18 5 8).put13 (BitVec.ofNat 13 x.cls.val) with a := x.a.bits }
  | .wscrub g x => .ofRange g 6 x
  | .wdrain g x => .ofRange g 7 x
  | .setutw g s => (Enc.base g 0x18 8 0).putA s
  | .wret g => Enc.base g 0x18 9 0
  | .ld g x => .ofMem g 0x1C x
  | .ldAcq g x => .ofMemSync g 0x1C 1 x
  | .st g x => .ofMem g 0x1D x
  | .stRel g x => .ofMemSync g 0x1D 2 x
  | .ldv g x => .ofVMem g 0x1E x
  | .ldvAcq g x => .ofVMemSync g 0x1E 1 x
  | .stv g x => .ofVMem g 0x1F x
  | .stvRel g x => .ofVMemSync g 0x1F 2 x
  | .ldvs g x => .ofStride g 0x20 x
  | .stvs g x => .ofStride g 0x21 x
  | .ldvx g x => .ofIndex g 0x22 x
  | .stvx g x => .ofIndex g 0x23 x
  | .ldp g x => Enc.putOptC { (Enc.base g 0x24 0 (x.nud.val * 16 + x.t.code)).put13 x.off with d := x.d.bits, a := Enc.ofFin x.k } x.c
  | .pref g x => .ofPref g 0 x
  | .prefL2 g x => .ofPref g 1 x
  | .prefMsc g x => .ofPref g 2 x
  | .flush g x => .ofFlush g 0 x
  | .flushMem g x => .ofFlush g 1 x
  | .amoAdd g x => .ofAmo g 0 x
  | .amoAnd g x => .ofAmo g 1 x
  | .amoOr g x => .ofAmo g 2 x
  | .amoXor g x => .ofAmo g 3 x
  | .amoMin g x => .ofAmo g 4 x
  | .amoMax g x => .ofAmo g 5 x
  | .amoSwap g x => .ofAmo g 6 x
  | .amoCas g x => .ofAmo g 7 x
  | .fenceAcq g sc => .ofFence g 1 sc
  | .fenceRel g sc => .ofFence g 2 sc
  | .fenceFull g sc => .ofFence g 3 sc
  | .barinit g x => x.sc.put ((Enc.putA { Enc.base g 0x2A (x.sc.field * 8) 0 with d := x.d.bits } x.a).putB x.b)
  | .bararr g x => x.sc.put (Enc.putA { Enc.base g 0x2A (x.sc.field * 8 + 1) 0 with d := x.d.bits } x.a)
  | .barwait g x => x.sc.put (Enc.putA { Enc.base g 0x2A (x.sc.field * 8 + 2) 0 with d := x.d.bits } x.a)
  | .barbytes g x => x.sc.put (((Enc.base g 0x2A (x.sc.field * 8 + 3) 0).putA x.a).putB x.b)
  | .waitln g x => Enc.putOff { Enc.base g 0x2E 0 x.t.code with d := x.d.bits, a := x.a.bits } x.off
  | .sleep g s => { Enc.base g 0x2E 1 0 with a := s.bits }
  | .sleepProm g s => { (Enc.base g 0x2E 1 0).put13 1 with a := s.bits }
  | .acopy g x => x.sc.put (Enc.putAR { Enc.base g 0x2C (x.sc.field * 8) (x.nud.val * 16) with d := x.tok.bits } x.a)
  | .gather g x => .ofGather g 0 x
  | .scatter g x => .ofGather g 1 x
  | .vadd g x => .ofVec2 g 0x30 0 x
  | .vsub g x => .ofVec2 g 0x30 1 x
  | .vmul g x => .ofVec2 g 0x30 2 x
  | .vfma g x => .ofVec3 g 0x30 3 x
  | .vfms g x => .ofVec3 g 0x30 4 x
  | .vdiv g x => .ofVec2 g 0x30 5 x
  | .vmin g x => .ofVec2 g 0x30 6 x
  | .vmax g x => .ofVec2 g 0x30 7 x
  | .vabs g x => .ofVec1 g 0x30 8 x
  | .vneg g x => .ofVec1 g 0x30 9 x
  | .vsqrt g x => .ofVec1 g 0x31 0 x
  | .vrsq g x => .ofVec1 g 0x31 1 x
  | .vexp2 g x => .ofVec1 g 0x31 2 x
  | .vlog2 g x => .ofVec1 g 0x31 3 x
  | .vladd g x => .ofVec2 g 0x31 4 x
  | .vcmpEq g x => .ofVCmp g 0 x
  | .vcmpNe g x => .ofVCmp g 1 x
  | .vcmpLt g x => .ofVCmp g 2 x
  | .vcmpLe g x => .ofVCmp g 3 x
  | .vcmpGt g x => .ofVCmp g 4 x
  | .vcmpGe g x => .ofVCmp g 5 x
  | .vcmpUn g x => .ofVCmp g 6 x
  | .vsel g x => .ofVSel g x
  | .vmask g x => .ofVMask g x
  | .vpopc g x => .ofVec1 g 0x32 0x12 x
  | .vand g x => .ofVec2 g 0x33 0 x
  | .vor g x => .ofVec2 g 0x33 1 x
  | .vxor g x => .ofVec2 g 0x33 2 x
  | .vshl g x => .ofVec2 g 0x33 3 x
  | .vshr g x => .ofVec2 g 0x33 4 x
  | .vsra g x => .ofVec2 g 0x33 5 x
  | .vpack g x => .ofPackV g 0 x
  | .vunpack g x => .ofPackV g 1 x
  | .vcvt g x => .ofCvt g 0x40 x
  | .vcvtSat g x => .ofCvt g 0x50 x
  | .vcvtOvf g x => .ofCvt g 0x60 x
  | .vredadd g x => .ofRed g 0 x
  | .vredmax g x => .ofRed g 1 x
  | .vredmin g x => .ofRed g 2 x
  | .vscan g x => (Enc.putAV { Enc.base g 0x35 3 (x.t.code * 16 + x.rm.val) with d := Enc.ofFin x.d } x.a).putB x.b
  | .vperm g x => (Enc.putAV { Enc.base g 0x36 0 (x.t.code * 16) with d := Enc.ofFin x.d } x.a).putBV x.b
  | .vbcast g x => Enc.putA { Enc.base g 0x36 1 (x.t.code * 16) with d := Enc.ofFin x.d } x.a
  | .vshuf g x => ((Enc.putAV { Enc.base g 0x36 2 (x.t.code * 16) with d := Enc.ofFin x.d } x.a).putBV x.b).putC x.c
  | .vmov g x => .ofVec1 g 0x36 3 x
  | .vlds g x => (Enc.putAV { Enc.base g 0x36 4 (x.t.code * 16) with d := x.d.bits } x.a).putB x.b
  | .vins g x => (Enc.putA { Enc.base g 0x36 5 (x.t.code * 16) with d := Enc.ofFin x.d } x.a).putB x.b
  | .mmaF g x => .ofMma g 0 x
  | .mmaI g x => .ofMma g 1 x
  | .mmaSat g x => .ofMma g 2 x
  | .mmaStep g x => Enc.putAR { Enc.base g 0x38 3 (x.nud.val * 8 + x.rm.val) with d := x.tok.bits, b := Enc.ofFin x.tile } x.a
  | .mmas24F g x => .ofMma g 0x10 x
  | .mmas24I g x => .ofMma g 0x11 x
  | .mmas24Sat g x => .ofMma g 0x12 x
  | .mmas48F g x => .ofMma g 0x14 x
  | .mmas48I g x => .ofMma g 0x15 x
  | .mmas48Sat g x => .ofMma g 0x16 x
  | .mrotF g x => .ofMrot g 0x20 x
  | .mrotI g x => .ofMrot g 0x21 x
  | .mrotSat g x => .ofMrot g 0x22 x
  | .mlda g x => .ofTok g 0x39 0 x
  | .mldb g x => .ofTok g 0x39 1 x
  | .mzero g t => { Enc.base g 0x39 2 0 with b := Enc.ofFin t }
  | .mld g x => .ofMld g 3 x
  | .mldt g x => .ofMld g 4 x
  | .mthr g s => (Enc.base g 0x39 6 0).putA s
  | .mrd g x => { (Enc.base g 0x39 7 0).put13 x.sel with d := x.d.bits }
  | .msave g x => Enc.putAR { Enc.base g 0x39 8 0 with d := x.tok.bits } x.a
  | .msaveRst g x => Enc.putAR { Enc.base g 0x39 8 0 with d := x.tok.bits, b := 1 } x.a
  | .mst g x => Enc.putAR { Enc.base g 0x39 (0x50 + x.t.code) (x.nud.val * 8 + x.rm.val) with d := x.tok.bits, b := Enc.ofFin x.tile } x.a
  | .dssbind g x => Enc.putAR { Enc.base g 0x3A 0 0 with d := x.tok.bits } x.a
  | .dssstep g x => .ofTok g 0x3A 1 x
  | .dsscutRead g x => { Enc.base g 0x3A 2 0 with d := x.d.bits, a := x.a.first.bits }
  | .dsscutImpose g x => .ofCut g 1 x
  | .dsscutUnimpose g r => { (Enc.base g 0x3A 2 0).put13 2 with a := r.first.bits }
  | .dsscutStoreImage g x => .ofCut g 3 x
  | .dsscutLoadImage g x => .ofCut g 4 x
  | .send g x => .ofSend g 0 x
  | .sendRect g x => { (Enc.base g 0x3C 0 (x.sc.val + 1)).putBR x.r with l := 2, p2 := BitVec.ofNat 32 (x.core0.toNat + 65536 * x.core1.toNat) }
  | .spawn g x => x.sc.put ((Enc.base g 0x3C 1 x.sc.field).putBR x.r)
  | .spawnev g x => .ofSend g 2 x
  | .evadd g x => .ofEv g 3 x
  | .evset g x => .ofEv g 4 x
  | .park g x => x.sc.put { (Enc.base g 0x3C 5 x.sc.field).put13 x.n with a := x.a.bits }
  | .tend g => Enc.base g 0x3C 6 1
  | .launch g x => .ofEv g 7 x
  | .yield g n => (Enc.base g 0x3C 8 1).put13 n
  | .sread g x => .ofIo g 0x10 x
  | .swrite g x => .ofIo g 0x11 x
  | .nettx g x => .ofIo g 0x12 x
  | .netrx g x => .ofIo g 0x13 x
  | .domain g x => ((Enc.base g 0x3C 0x20 1).putA x.a).putB x.b
  | .domexit g => Enc.base g 0x3C 0x21 1
  | .vsend g x => .ofSend g 0x22 x
  | .vtnow g d => { Enc.base g 0x3C 0x23 1 with d := d.bits }
  | .gvtrd g d => { Enc.base g 0x3C 0x24 1 with d := d.bits }
  | .safe g => Enc.base g 0x3C 0x25 1
  | .defer g x => .ofSend g 0x26 x
  | .trap g v => (Enc.base g 0x3D 0 8).put13 v
  | .rett g => Enc.base g 0x3D 1 0
  | .mfs g x => { (Enc.base g 0x3D 2 8).put13 x.reg with d := x.d.bits }
  | .mts g x => .ofMts g x.reg x.a
  | .suspend g s => .ofMts g 0x059 s
  | .plsync g s => .ofMts g 0x03B s
  | .lsfa g s => .ofMts g 0x026 s
  | .tlbiPage g x => ((Enc.base g 0x3D 4 0).putA x.a).putB x.b
  | .tlbiAsid g x => ((Enc.base g 0x3D 4 0).putA x.a).putB x.b
  | .tlbiPartition g x => ((Enc.base g 0x3D 4 0).putA x.a).putB x.b
  | .idle g => Enc.base g 0x3D 5 0
  | .halt g => Enc.base g 0x3D 6 0
  | .censusStore g x => .ofCensus g 0 x
  | .censusCompare g x => .ofCensus g 1 x
  | .censusClear g x => .ofCensus g 2 x
  | .regionTableEviction | .hostBoundary _ | .pageWalk _ _ | .bindingLand _ | .ageingSweep _
  | .policingIntervalEnd | .gatherEngineServe | .gatherTokenFill | .acopyAccept | .acopyComplete | .kick _ _ _
  | .transferRecord _ _ | .cfg _ _ _ | .haltResume _ _ _ | .free _ _ _ | .matrixGrant | .matrixTokenFill
  | .mrotBufferArrival _ _ _ | .rotlate | .promise | .sleepWake | .waitlnLineWritten _ | .waitlnSpinTimeout
  | .waitlnParkTimeout _ | .budget | .ringlockIdle | .recordDelivery _ | .overflowReoffer | .dispatch
  | .footprintFetch | .yieldHoldExpiry | .stealRoundWait | .lqtail _ _ | .launchStart _ | .preempt _
  | .stealseed _ | .optimisticArrival _ | .antiMessageArrival _ | .gvtReport | .gvtInstall _ | .ioAccept
  | .ioComplete _ _ | .ioTimeout _ | .frameReceived _ _ _ | .collkick _ | .collectiveRecord _ _ | .hostWrite _
  | .hostRead _ | .hostBar0Access _ _ _ _ | .fabricAccess _ _ | .meshFlitParity _ _ | .linkCrcFail _ _ _
  | .writebackLost _ | .machine _ _ | .eventPost _ _ _ | .eventRingOverrunWait | .pagePull _ | .pullFailed _
  | .vdctl _ _ | .quantumEnd | .sliceLate | .go _ | .errcnt _ | .registerWrite _ _ | .boot _ _ | .thermalThrottle
  | .thermalHalt | .powerState _ | .unassignedEncoding _ _ | .fetchFault _ _ | .softError _ _ _ | .pageArrival _ _ => {}

/-- The parcels of an instruction. -/
def encode (i : Instr) : List Parcel := (fieldsOf i).pack

/-- The bytes of an instruction as memory holds them (R196). -/
def encodeBytes (i : Instr) : List Byte := (encode i).flatMap parcelBytes

/-- Bytes of an instruction. -/
def Instr.size (i : Instr) : Nat := (fieldsOf i).size

/-- Parcel 0 of an instruction, as TINFO reports it (R206). -/
def Instr.parcel0 (i : Instr) : Parcel := (fieldsOf i).parcel0

/-- The instruction the decoder reads from the low bits of w, at the start of a fetch block. -/
def decodeTableWord (nbits w : Nat) : Option Instr :=
  let bs := (List.range 16).map fun k => BitVec.ofNat 8 (w % 2 ^ nbits / 256 ^ k)
  (decode 0 bs).toOption

end Sys2Proof
end

