-- ==== Sys2Proof/Machine/State.lean ====
section
/-! DEFINITION. The state of the machine: one logical core of one partition, the units that act for it, memory, and the outside world
as a list of inputs. Every field is plain data, and its default is its value at reset. Where the spec gives no reset value, the value
here is the model's (log entries 1 to 4, DESIGN CHOICE). -/
namespace Sys2Proof.Machine

/-! ### The register store and what is bound to it -/

/-- A word of the register store (R137): full, full and holding a token nobody has read (R95) with the width of its acquire,
empty, or empty and lost with the TINFO of the first read (R147). -/
inductive Cell where
  | full (v : Word)
  | token (v : Word) (width : Nat)
  | empty
  | lost (info : Word)
  deriving DecidableEq, Repr

/-- An entry of lq0, lq1, sq0 or sq1 (R92): full, in flight under a binding, or lost. -/
inductive QEntry where
  | full (v : Word)
  | flight (id : Nat)
  | lost (info : Word)
  deriving DecidableEq, Repr

/-- A binding (R145): its number, the physical words it fills (or the queue whose entry it fills), the values once they are on their
way (none for a value lost under R135, with the TINFO of its reader), and, for a command's token, the width of the acquire. -/
structure Bind where
  id : Nat
  words : List Nat := []
  queue : Option Nat := none
  vals : Option (List (Option Word)) := none
  lostInfo : Word := 0
  width : Option Nat := none
  deriving DecidableEq, Repr

/-- Bytes from a memory key on: `len` of them. -/
structure Rng where
  lo : Nat
  len : Nat
  deriving DecidableEq, Repr

/-- The masks of a region (R79, R83): bytes read and written by plain accesses, and by synchronising ones. -/
structure Masks where
  reads : List Rng := []
  writes : List Rng := []
  syncReads : List Rng := []
  syncWrites : List Rng := []
  deriving DecidableEq, Repr

/-- The region of the core (R75, R83, R84): its masks and its distinct lines. -/
structure Region where
  masks : Masks := {}
  lines : List Nat := []
  deriving DecidableEq, Repr

/-- The agents of MMXWHO (R80). -/
inductive Agent where
  | core | mu | ce | gather | systemCore | io | collective | host
  deriving DecidableEq, Repr

/-- A live region of a command or of another hart (R77, R95, R116): who, of which device and core, whether this hart issued it, its
masks, and whether the command has completed while the region of its issuer that was live then has not closed (R95, Scene 3). -/
structure Other where
  id : Nat
  agent : Agent
  device : Nat := 0
  core : Nat := 0
  own : Bool := false
  masks : Masks := {}
  done : Bool := false
  deriving DecidableEq, Repr

/-- Lines of one region in a die's region table (R83, R85): the region as `Other` names it, and n lines from one on. -/
structure TabRun where
  id : Nat
  agent : Agent
  device : Nat
  core : Nat
  own : Bool
  line : Nat
  n : Nat
  deriving DecidableEq, Repr

/-- A mailbox word, or the bytes of a completion record, filled for this hart and not read since (R95, R127): where it lies, and the
width of the acquire that its first read makes. -/
structure Mail where
  lo : Nat
  len : Nat
  width : Nat
  deriving DecidableEq, Repr

/-- What an instruction that waits is waiting on (R162, R166, R248, R250). -/
inductive WaitOn where
  | word (p : Nat)
  | binding (p : Nat)
  | queue (q : Nat)
  | ring (nxt read : Bool)
  | sleep (until_ : Word)
  | sleepProm (prom : Word) (done : Nat)
  | line (key : Nat)
  /-- the number of installed keys that a VSEND waits for (R362), the key it would send, and whether it counts as unacknowledged already -/
  | gvt (target : Nat) (k : Key) (counted : Bool)
  /-- the MSAVE, by its number, that a SUSPEND has asked for, and what comes after it (R395) -/
  | save (id : Nat)
  /-- an entry of a die's full region table (R85, R119) -/
  | table (die : Nat)
  | room
  deriving DecidableEq, Repr

/-- The wait of the core's current instruction: since which CYC, and since when a line waited on has been written. -/
structure Wait where
  on : WaitOn
  since : Nat
  hit : Bool := false
  deriving DecidableEq, Repr

/-! ### Tasks -/

/-- A pinned range of the local store (R53): offset and length, and the slot that holds it. -/
structure Pin where
  off : Nat
  len : Nat
  slot : Nat
  deriving DecidableEq, Repr

/-- A dispatched task (R157, R158): the window it was dispatched in, its class, entry, record and launch, its slot, the offset of its
footprint, the key of an optimistic record, the scope of the message that created it, whether it held GVT at dispatch (R359), the
BUDGET of its handler descriptor, the footprint ranges still to place (R161) as local-store offset, virtual address and length, whether its
PROC entry still waits for room (R359), and whether its entry has issued. -/
structure Task where
  base : Nat
  cls : Nat
  entry : Word
  record : Rec
  launch : LaunchCtx
  slot : Nat
  key : Option Key := none
  scope : Word := 0
  heldGvt : Bool := false
  budget : Nat := 0
  placing : List (Nat × Word × Nat) := []
  proc : Bool := false
  entered : Bool := true
  /-- NOZERO of its handler descriptor (R155, R158). -/
  nozero : Bool := false
  /-- A matrix save area still to read back before the resume point issues (R395). -/
  restoreArea : Option Word := none
  /-- The words of its window: its class's, or LIMIT of FRLO or FRHI (R157, R168). -/
  size : Nat := 32
  deriving DecidableEq, Repr

/-- A pool entry (R157). -/
structure PoolEntry where
  base : Nat
  owner : Nat
  deriving DecidableEq, Repr

/-- A delivered record waiting in an inbox or spilled (R160): the message, its handler's entry data, the window it was written to, and
its arrival number. -/
structure Arrived where
  d : Delivery
  window : Option PoolEntry := none
  cls : Nat := 0
  high : Bool := false
  seq : Nat := 0
  /-- The slot of the overflow ring that holds it while it is spilled (R160). -/
  slot : Nat := 0
  deriving DecidableEq, Repr

/-- What releases a parked task (R163, R248, R320, R321, R395). -/
inductive ParkedOn where
  | event (e thresh : Nat)
  | yield
  | line (key : Nat) (since : Nat)
  | timer (since : Nat)
  | suspend
  deriving DecidableEq, Repr

/-- A saved task (R163): descriptor, TCLK, REMAIN, the first n window words, TASKSTAT, the task, the matrix save area of SUSPEND, the
scope of the acquire at its resume, and whether its record lies in the overflow ring. -/
structure Parked where
  id : Nat
  desc : Word
  tclk : Nat
  remain : Nat
  words : List Cell
  stat : Word
  task : Task
  on : ParkedOn
  area : Option Word := none
  scope : Word := 0
  inRing : Bool := false
  /-- Where its record lies (R163): an offset in the local store, or the first of its slots in the overflow ring. -/
  place : Nat := 0
  /-- The line a parked WAITLN or BARWAIT watches has been written since (R248). -/
  hit : Bool := false
  deriving DecidableEq, Repr

/-- An entry of the resume queue (R164, R321): the task, whether R321 still holds it back, and the window held for it. -/
structure Resume where
  p : Parked
  hold : Bool := false
  window : Option PoolEntry := none
  /-- The dispatch order has passed it over for want of a window (R164). -/
  passed : Bool := false
  deriving DecidableEq, Repr

/-- A record in a deque (R315, R345): the record, its launch, the spawn's scope word and the spawner. -/
structure DqRec where
  r : Rec
  ctx : LaunchCtx
  scope : Word
  deriving DecidableEq, Repr

/-- A waiter of an event (R316, R318, R320): threshold, arrival number, a record to release or the number of a parked task. -/
structure Waiter where
  event : Nat
  thresh : Nat
  seq : Nat
  what : DqRec ⊕ Nat
  /-- Its node lies in the overflow area (R344). -/
  ovf : Bool := false
  deriving DecidableEq, Repr

/-- A message on its way from this core (R314): the target core and what arrives there. -/
structure Flying where
  target : Nat
  d : Delivery
  anti : Option Key := none
  deriving DecidableEq, Repr

/-- A launch of this partition that has not ended (R338 to R342, R415): queue, record address, identifier, live count, roots still to
send, ASID and mode of the launcher, and its time account. -/
structure Launch where
  lnid : Nat
  q : Nat
  pa : Nat
  ctx : LaunchCtx := {}
  started : Bool := false
  ended : Bool := false
  live : Nat := 0
  roots : List (Nat × Rec) := []
  rel : Option (Nat × Nat) := none
  user : Option Nat := none
  queued : Nat := 0
  first : Nat := 0
  parts : Nat × Nat × Nat × Nat := (0, 0, 0, 0)
  /-- Step 1 of its start is over and its roots are still to read: words 0 to 7 of its record (R340). -/
  reading : Option (List Word) := none
  /-- The CODE of its end, while the page of its record is still to be pulled (R342, R410). -/
  ending : Option Nat := none
  /-- The part of its account in which the tick under way falls, which is entered once the tick is over (R416). -/
  cur : Nat := 3
  deriving DecidableEq, Repr

/-- An entry appended by LAUNCH (R323, R338): identifier, the launcher's ASID where it ran in MODE 0, the cycle of acceptance. -/
structure Appended where
  q : Nat
  index : Nat
  lnid : Nat
  user : Option Nat
  queued : Nat
  deriving DecidableEq, Repr

/-- A launch queue's registers (R338). -/
structure LQueue where
  base : Word := 0
  cfg : Word := 1
  tail : Word := 0
  head : Nat := 0
  deriving DecidableEq, Repr

/-! ### Optimistic execution -/

/-- The domain of a core (R352): block offset, areas, counters. -/
structure Domain where
  block : Nat
  sbase : Nat
  slen : Nat
  bbase : Nat
  blen : Nat
  obase : Nat
  olen : Nat
  committed : Nat := 0
  undone : Nat := 0
  rollbacks : Nat := 0
  annihil : Nat := 0
  antisent : Nat := 0
  dropped : Nat := 0
  lnid : Nat := 0
  /-- Where the oldest entry of each log stands in its ring. -/
  bhead : Nat := 0
  ohead : Nat := 0
  deriving DecidableEq, Repr

/-- A bittern entry (R357). -/
structure Bittern where
  key : Key
  off : Nat
  old : Word
  deriving DecidableEq, Repr

/-- What an output entry records (R358). -/
inductive OutKind where
  | proc (d : Delivery)
  | send (key : Key) (dest : Nat) (field : Nat) (scope : Word)
  | defer (d : Delivery) (dest : Nat) (field : Nat) (scope : Word)
  deriving DecidableEq, Repr

/-- An output entry (R358). -/
structure Output where
  key : Key
  kind : OutKind
  deriving DecidableEq, Repr

/-! ### Matrix unit and sequencer -/

/-- The accumulation of a matrix form (R186, R292). -/
inductive Acc where
  | f | i | sat
  deriving DecidableEq, Repr

/-- The operation of a queued command (R287, R376). -/
inductive MuOp where
  | mma (acc : Acc) (group : Nat)
  | step
  | mrot (acc : Acc)
  | mlda | mldb
  | mld | mldt
  | mst (t : Ty)
  | dssbind | dssstep | cutImpose | cutStore | cutLoad
  | msave | msaveRst
  deriving DecidableEq, Repr

/-- A queued command, or an MSAVE: operation, tile, rounding mode, NUD, descriptor words, MATX, the number of its binding, the progress
it starts from and whether it is fresh (R289), the address and code base of its instruction (R193, R417), the ASID and mode of its task
(R22), LNID and SEED, THR, and its phase. -/
structure MuCmd where
  id : Nat
  op : MuOp
  tile : Nat
  rm : Nat
  nud : Nat
  desc : List Word
  x : Option Matx := none
  r0 : Nat := 0
  k0 : Nat := 0
  fresh : Bool := true
  site : Word
  cbase : Word
  asid : Nat
  sup : Bool
  mode : Nat
  lnid : Word
  seed : Word
  thr : Nat
  /-- K-steps done, once it has started. -/
  k : Nat := 0
  started : Bool := false
  /-- K-steps from K0 on that its grants so far cover, or 1 for a command without K-steps (R304, R420). -/
  granted : Nat := 0
  /-- What the unit held when the run began (R291): the tile, DROPROW, and the elements clipped. -/
  snap : SMap Nat × SMap Nat × SMap Nat := ([], [], [])
  /-- The fault found so far (R291): its row, bits [15:0] of the token, the faulting address. -/
  bad : Option (Nat × Nat × Nat) := none
  /-- The slate of an MMA.STEP (R374): the pair of row i, block k at KB * i + k. -/
  slate : List Word := []
  /-- An MMA.STEP has decided to compute its tile (R378). -/
  computing : Bool := false
  /-- The token it will fill, once it has completed or stopped. -/
  done : Option Word := none
  /-- The cycle at which an MROT sent its buffers, and its number since the queue last loaded one (R297). -/
  sent : Option Nat := none
  m : Nat := 0
  /-- An MSAVE asks it to stop (R303). -/
  stop : Bool := false
  /-- The MSAVE that SUSPEND performs (R395): it has no token; and the party that it met, as MMXWHO names it (R80). -/
  quiet : Bool := false
  met : Word := 0
  deriving DecidableEq, Repr

/-- A layer slot (R372): OWNER, the six words of the binding (R377), STEP, CUT and IMP a bit a tile. -/
structure Dss where
  bound : Bool := false
  owner : Nat := 0
  desc : List Word := []
  step : Nat := 0
  cut : Nat := 0
  imposed : Bool := false
  imp : Nat := 0
  deriving DecidableEq, Repr

/-- What a command of another queue does to a layer slot (R377, R378, R380 to R382): binds it, ends its step, decides a tile, imposes a list
or takes it away, or loads an image. -/
inductive DssOp where
  | bind (owner : Nat) (desc : List Word)
  | step
  | cut (tile : Nat) (skip : Bool)
  | impose (imp : Nat)
  | unimpose
  | load (d : Dss)
  deriving DecidableEq, Repr

/-! ### Engines -/

/-- An ACOPY (R256, R257): descriptor, NUD, scope, ASID and mode, the bytes read at acceptance or the fault met. -/
structure Acopy where
  id : Nat
  src : Word
  dst : Word
  len : Nat
  bar : Word
  nud : Nat
  scope : Word
  asid : Nat
  sup : Bool
  accepted : Bool := false
  data : List Byte := []
  fault : Option Word := none
  lnid : Nat := 0
  deriving DecidableEq, Repr

/-- A lane of a GATHER or SCATTER (R70): its address, the memory key, type and class its page gives, and the
status bits of the fault met before it was sent. -/
structure Lane where
  va : Word
  key : Nat := 0
  mt : Nat := 0
  rc : Nat := 0
  fault : Option Nat := none
  deriving DecidableEq, Repr

/-- A GATHER or SCATTER (R70 to R72): its binding, element size, offset of its packed area, lanes, and what it has found. -/
structure Gather where
  id : Nat
  scatter : Bool
  nud : Nat
  size : Nat
  off : Nat
  lanes : List Lane
  served : Bool := false
  /-- The lane to serve next. -/
  next : Nat := 0
  mask : Nat := 0
  status : Nat := 0
  lnid : Nat := 0
  /-- The width of the scope it was issued at. -/
  width : Nat := 3
  deriving DecidableEq, Repr

/-- A kick (R103, R126): the record's address, the width of this core's release if its scope reaches the engine and so pairs with it, the
core that kicked, and the launch of its task (R416). -/
structure KickOf where
  va : Word
  pair : Option Nat
  core : Nat
  lnid : Nat := 0
  deriving DecidableEq, Repr

/-- A copy channel (R259 to R262): registers, kicks queued, the record being walked, the mode of CFG's writer, and the frees counted
and the receivers of the last multicast of each buffer. -/
structure Chan where
  kick : Word := 0
  cfg : Word := 0x500000000
  badkick : Bool := false
  halt : Bool := false
  nextid : Nat := 0
  free : Word := 0
  cidaddr : Word := 0
  faultrec : Word := 0
  kicks : List KickOf := []
  walk : Word := 0
  /-- What the kick of the chain being walked paired with, and the core that kicked it. -/
  pair : Option Nat := none
  by_ : Nat := 0
  lnid : Nat := 0
  /-- The identifier and the bytes of a record that has been fetched and is not yet performed (R125, R130, R261). -/
  waiting : Option (Nat × List Byte) := none
  sup : Bool := false
  frees : SMap Nat := []
  receivers : SMap Nat := []
  completed : Nat := 0
  deriving DecidableEq, Repr

/-- A kick of the collective engine (R437): its record's address, the ASID of its hart, the width of the release it pairs with (R103), and the
launch of its task (R416). -/
structure CollKick where
  va : Word
  asid : Nat
  pair : Option Nat
  lnid : Nat := 0
  deriving DecidableEq, Repr

/-- A storage or network request (R324 to R328). -/
structure IoReq where
  id : Nat
  kind : Nat
  desc : List Word
  nud : Nat
  scope : Word
  asid : Nat
  sup : Bool
  lnid : Nat
  accepted : Bool := false
  seq : Nat := 0
  since : Nat := 0
  data : List Byte := []
  fault : Nat × Nat := (0, 0)
  deriving DecidableEq, Repr

/-! ### Memory, caches, tables -/

/-- A byte of the issuing die's RDC (R112 to R115): its value and whether it is dirty. -/
structure RdcByte where
  v : Byte
  dirty : Bool
  deriving DecidableEq, Repr

/-- The cache levels that hold replacement state (R48, R58). -/
inductive Lv where
  | l1 | l2 | rdc | msc
  deriving DecidableEq, Repr

/-- A cache line's replacement state (R58): level, set, way, line, stamp, Z, E, recency, class tag; and, but for the RDC, whose bytes are
kept with their marks, the bytes it holds and those that are dirty, as masks (R51). -/
structure Line where
  lv : Lv
  set : Nat
  way : Nat
  line : Nat
  stamp : Nat
  z : Bool
  e : Bool
  recency : Nat
  cls : Nat
  held : Nat := 0
  dirty : Nat := 0
  /-- Of an L1 line, the bytes it holds sound whose sector is lost below it (R133, R135). -/
  sound : Nat := 0
  deriving DecidableEq, Repr

/-- The policing counters of a class at a slice of a shared cache (R65, R66). -/
structure Police where
  level : Nat := 0
  kept : Nat := 0
  broken : Nat := 0
  deriving DecidableEq, Repr

/-- A cached translation (R25, R26): PARTID, ASID, the first address and size of its page, the leaf, its level, whether global. -/
structure TlbEntry where
  part : Nat
  asid : Nat
  va : Nat
  size : Nat
  leaf : Word
  level : Nat
  global : Bool
  deriving DecidableEq, Repr

/-- A non-leaf entry in a walk cache (R26): PARTID, ASID, its physical address, the first address and size of what it maps, its value. -/
structure WalkEntry where
  part : Nat
  asid : Nat
  pa : Nat
  va : Nat
  size : Nat
  entry : Word
  deriving DecidableEq, Repr

/-- A census site (R417, R418, R334). -/
structure Site where
  addr : Nat
  nan : Nat := 0
  inf : Nat := 0
  sat : Nat := 0
  uf : Nat := 0
  deriving DecidableEq, Repr

/-- A page being pulled (R410, R411): for which virtual device, since which cycle. -/
structure Pull where
  page : Nat
  vd : Nat
  since : Nat
  /-- The launches whose accesses wait for it (R416). -/
  lnids : List Nat := []
  deriving DecidableEq, Repr

/-- A virtual device's block (R404, R408, R410). -/
structure Vd where
  ctl : Word := 0x0010000000000400
  save : Word := 0
  evring : Word := 0
  pullctl : Word := 0
  deriving DecidableEq, Repr

/-- An entry of a virtual device's event ring that waits for room (R409): KIND, INFO, MORE, CYCLE. -/
structure Posting where
  vd : Nat
  kind : Nat
  info : Word
  more : Word
  cycle : Nat
  deriving DecidableEq, Repr

/-- A buffer that an MROT sends (R297): A or B, its bytes, the sender's rectangle, and the number of that MROT since its queue last loaded
a buffer. -/
structure RotBuf where
  isA : Bool
  bytes : List Byte
  rect : Word
  m : Nat
  deriving DecidableEq, Repr

/-- What the management controller, the host and the network receive (R397, R409, R122, R327, R121). -/
inductive Sent where
  | errorRecord (what : Nat) (addr : Nat)
  | msix (vector : Nat) (addr data : Word)
  | hostData (bytes : List Byte) (poisoned : Bool)
  | unsupported
  | hostWindow (off : Nat) (bytes : List Byte)
  | hostLoad (off len : Nat)
  | frame (bytes : List Byte)
  | storage (off : Nat) (bytes : List Byte) (fua : Bool)
  | record (target : Nat) (d : Delivery)
  | anti (target : Nat) (k : Key)
  | refused (dev : Nat)
  | mmx (dev : Nat)
  | fabricData (dev : Nat) (bytes : List Byte) (lost : Bool)
  | gvt (k : Key)
  | rotated (b : RotBuf)
  | storageRead (off : Nat) (len : Nat)
  /-- a member's bytes for the others of a collective's group (R437) -/
  | collective (group : List Nat) (bytes : List Byte)
  /-- what a register holds, for the hypervisor (R401) -/
  | register (loc : Nat) (v : Word)
  deriving DecidableEq, Repr

/-! ### The parts of State -/

/-- The core's registers (R331) but for the counters kept elsewhere. -/
structure Regs where
  wb : Nat := 0
  wl : Nat := 32
  cbase : Word := 0
  wflo : Word := 0
  wfhi : Word := 0x1FFF
  scbase : Word := 0
  twin : Word := 0
  utwin : Word := 0
  tsave : Word := 0
  tcause : Word := 0
  tinfo : Word := 0
  utsave : Word := 0
  utcause : Word := 0
  utinfo : Word := 0
  tdeleg : Word := 0x0000106800000000
  frmode : Word := 0
  frlo : Word := 0
  frhi : Word := 0
  tclk : Nat := 0
  tbudget : Nat := 0
  taskstat : Word := 0x2000
  lnid : Word := 0
  fpctl : Word := 0
  seed : Word := 0
  asid : Nat := 0
  partid : Nat := 0
  devnum : Nat := 0
  asidtab : Word := 0
  sroot : Word := 0
  unkdist : Nat := 14
  lsfa : Word := 0
  pka : Word := 0
  lsown : Word := 0
  ovfr : Word := 0
  wlctl : Word := 32
  mqweight : Word := 1
  impbnd : Word := 0
  hostbnd : Word := 0
  mmxwho : Word := 0
  cpquota : Word := 0x0000148421084210
  cpways : Word := 0x0000FFFFFFFFFFFF
  pwb : SMap Word := []
  pwl : SMap Word := []
  vt : Word := 0
  optwin : Word := 0xFFFFFFFFFFFFFFFF
  dbgctl : Word := 0
  pmc : SMap Word := []
  pmsel : Word := 0
  deriving DecidableEq, Repr

/-- The engine that makes an access (R125): its agent, and for a copy engine its cluster. -/
structure EngHart where
  agent : Agent
  no : Nat
  deriving DecidableEq, Repr

/-- A write on its way over a link (R136): its address, its key, what the bytes held and which of them were lost, and the engine that
made it, if not the core. -/
structure OverLink where
  va : Word
  key : Nat
  old : List Byte
  lost : List Nat := []
  hart : Option EngHart := none
  deriving DecidableEq, Repr

/-- The core's storage besides its registers. `number` is its logical core number (log entry 1). -/
structure Core where
  number : Nat := 0
  store : SMap Cell := []
  binds : List Bind := []
  nextBind : Nat := 0
  queues : SMap (List QEntry) := []
  /-- Ring FIFOs: 0 from the successor, 1 from the predecessor, 2 toward the successor, 3 toward the predecessor. -/
  rings : SMap (List Word) := []
  /-- How many of the other seven cores wait on ring ports. -/
  ringWaiters : Nat := 0
  /-- Since when each ring neighbour has had no task dispatched: successor, predecessor; none while it has one. -/
  ringIdle : Option Nat × Option Nat := (some 0, some 0)
  wait : Option Wait := none
  /-- The core's micro-TLB and its matrix unit's TLB (R26). -/
  tlb : List TlbEntry := []
  muTlb : List TlbEntry := []
  region : Region := {}
  /-- A full region table has evicted an entry of the core's region: a boundary is due at the next instruction boundary (R85). -/
  tableHit : Bool := false
  mail : List Mail := []
  /-- MACHINE reports not yet taken, oldest first (R392, R398). -/
  machine : List (Nat × Nat) := []
  idle : Bool := false
  freeSince : Nat := 0
  /-- MEMLOST owed at the next release of width system (R136): a link took a write of this hart. -/
  lostWrite : Option Word := none
  /-- Writes of this hart on their way over a link, with what the bytes held: since its last release of width system, 96 at most (R136). -/
  overLink : List OverLink := []
  deriving DecidableEq, Repr

/-- Memory: bytes by key (log entry 2), lost units, the issuing die's RDC, other harts' and commands' live regions, and the tables. -/
structure Memory where
  bytes : SMap Byte := []
  lost : List Nat := []
  /-- Sectors lost in the arrays of the memory itself beneath a sound copy in a cache at their home (R133). -/
  hbmLost : List Nat := []
  rdc : SMap RdcByte := []
  /-- Physical addresses of dirty sectors that could not be written back over a link that is down (R135, R136). -/
  unsent : List Nat := []
  /-- Sectors lost in the RDC itself (R133, R135). -/
  rdcLost : List Nat := []
  /-- The region tables, by home die (R83). -/
  tables : SMap (List TabRun) := []
  others : List Other := []
  lines : List Line := []
  police : SMap Police := []
  clock : Nat := 0
  /-- The policing interval that ended last (R65, R66). -/
  policeAt : Nat := 0
  /-- Place tables in force and as hypervisor memory holds them: cluster, lane group, bank (R45, R46). -/
  clusterTab : SMap Word := []
  laneTab : SMap Word := []
  bankTab : SMap Word := []
  clusterNew : SMap Word := []
  laneNew : SMap Word := []
  bankNew : SMap Word := []
  waysNew : Word := 0x0000FFFFFFFFFFFF
  pulls : List Pull := []
  /-- What bytes stored since the last full fence held before: a fetch may still see it (R89). -/
  stale : SMap Byte := []
  /-- Banks of other devices that let in this one's accesses, as device * 2^18 + slot * 2^8 + bank (R34, R35, R436). -/
  admitted : List Nat := []
  /-- The TLBs of the clusters and the walk caches of the dies (R26). -/
  clusterTlb : SMap (List TlbEntry) := []
  walkCache : SMap (List WalkEntry) := []
  lsownPeers : SMap Word := []
  deriving DecidableEq, Repr

/-- Tasks, inboxes, queues and events. -/
structure Sched where
  task : Option Task := none
  /-- The low handler suspended under R168, with the core's registers as they were. -/
  low : Option (Task × Regs) := none
  /-- The queues of the suspended low handler (R168). -/
  lowQueues : SMap (List QEntry) := []
  pools : SMap (List PoolEntry) := []
  inbox : List Arrived := []
  high : List Arrived := []
  domq : List Arrived := []
  /-- The dispatch order has passed over the head of the domain queue for want of a window (R355). -/
  domqPassed : Bool := false
  spilled : List Arrived := []
  held : List Arrived := []
  arrivals : Nat := 0
  slots : List Nat := []
  pins : List Pin := []
  parked : List Parked := []
  resume : List Resume := []
  nextPark : Nat := 0
  /-- The deque: its memory part, top first, and its hardware part, bottom last (R345). -/
  dqMem : List DqRec := []
  /-- Where the memory part's oldest record stands in its area. -/
  dqHead : Nat := 0
  deque : List DqRec := []
  /-- Waiters released by their events whose records wait, in their nodes, for room in the deque (R345). -/
  stuck : List Waiter := []
  /-- Wait nodes that waiters of other cores hold: by slice, and 32 for the overflow area (R344). -/
  peerNodes : SMap Nat := []
  /-- Other cores that hold a task, a record, a slot or a domain (R403). -/
  peerHolds : List Nat := []
  peerDeques : SMap (List DqRec) := []
  stealGen : Nat := 0xACE1
  /-- Until which CYC a thief waits before its next round (R347). -/
  stealWait : Option Nat := none
  flying : List Flying := []
  events : SMap Nat := []
  waiters : List Waiter := []
  waitSeq : Nat := 0
  queues : SMap LQueue := []
  appended : List Appended := []
  launches : List Launch := []
  nextLnid : Nat := 1
  /-- By PRIO, the queue from which on its round goes on (R341). -/
  rootTurns : SMap Nat := []
  evtab : Word := 0
  evovf : Word := 0
  dqovf : SMap Word := []
  preempt : SMap Word := []
  stealseed : Word := 0xACE1
  gvtctl : Word := 32
  trctl : Word := 0
  trHead : Nat := 0
  trDropped : Nat := 0
  collkick : Word := 0
  collKicks : List CollKick := []
  errUncorr : Nat := 0
  errCorr : Nat := 0
  censovf : Nat := 0
  censdiff : Word := 0
  census : List Site := []
  deriving DecidableEq, Repr

/-- Optimistic execution (R352 to R369). -/
structure Opt where
  domain : Option Domain := none
  bittern : List Bittern := []
  output : List Output := []
  gvt : Option Key := none
  /-- Whether any core of the partition other than this one is in a domain (R369). -/
  peersIn : Bool := false
  seed : Bool := true
  seq : Nat := 1
  unacked : List Key := []
  /-- The number of GVT keys installed (R362). -/
  installs : Nat := 0
  reported : Option Key := none
  /-- The least key of the other cores' reports of the interval, once every one of them has reported (R365). -/
  peerKey : Option Key := none
  /-- The interval of GVTCTL.INTV of the last report (R365). -/
  reportAt : Nat := 0
  deriving DecidableEq, Repr

/-- Matrix unit queue and sequencer slice. -/
structure Mu where
  /-- Elements of tile t at 1024 t + 32 i + j. -/
  tiles : SMap Nat := []
  /-- Bytes of the A buffer at 1024 i + 64 k + b, of the B buffer 32768 above. -/
  bufs : SMap Byte := []
  droprow : SMap Nat := []
  dropmag : Nat := 0
  thr : Nat := 0
  rowprog : Word := 0
  faultva : Nat := 0
  /-- Elements of the tile at work that a .SAT accumulation has clipped (R417). -/
  clips : SMap Nat := []
  run : Option MuCmd := none
  queue : List MuCmd := []
  /-- MSAVEs not yet performed (R303). -/
  saves : List MuCmd := []
  /-- The MSAVE of a SUSPEND (R395): its number; once it is done, bits [15:0] of the token it would have filled, its faulting address, and MMXWHO where it met a live region (R80). -/
  susp : Option (Nat × Option (Nat × Nat × Word)) := none
  /-- Buffers that have arrived for MROT (R297). -/
  arrived : List RotBuf := []
  /-- Buffers, A or B by number, that an MROT has given up waiting for, and that are discarded when they arrive (R297). -/
  late : List (Bool × Nat) := []
  /-- MROTs that have sent their buffers since the queue last loaded one (R297). -/
  rots : Nat := 0
  dss : SMap Dss := []
  /-- Slots at which a command of another queue of the cluster runs (R377, R380, R383). -/
  peerDss : List Nat := []
  /-- The clipped elements of runs that have stopped and may be resumed, by instruction address, ASID and tile (R417). -/
  kept : List (Nat × Nat × Nat × SMap Nat) := []
  deriving DecidableEq, Repr

/-- The other engines. -/
structure Eng where
  acopy : List Acopy := []
  gather : List Gather := []
  chans : SMap Chan := []
  io : List IoReq := []
  ioSeq : Nat := 1
  /-- MEMLOST that an engine owes at its next release of width system, with the address: a link took a write of its (R136). -/
  lostWrites : List (EngHart × Word) := []
  deriving DecidableEq, Repr

/-- What a switch of virtual devices saves and restores (R407): everything of the core and its units but the partition's own registers. -/
structure VdCtx where
  vd : Nat
  pc : Word
  regs : Regs
  core : Core
  sched : Sched
  opt : Opt
  mu : Mu
  eng : Eng
  localStore : SMap Byte
  lost : List Nat
  others : List Other
  clusterTab : SMap Word
  laneTab : SMap Word
  bankTab : SMap Word
  deriving DecidableEq, Repr

/-- Partition, virtual devices and module. -/
structure Sys where
  w : Nat := 0
  h : Nat := 0
  shapeNew : Word := 0
  refused : Bool := false
  strictsh : Word := 0
  halted : Bool := false
  fabadmit : SMap Word := []
  vds : SMap Vd := []
  vd : Nat := 0
  posting : List Posting := []
  draining : Option Nat := none
  /-- Contexts of virtual devices that do not run (R407), and the quanta the running one has had in its round (R405). -/
  saved : List VdCtx := []
  turns : Nat := 0
  /-- When its quantum began (R406). -/
  sliceAt : Nat := 0
  power : Fin 4 := 0
  bootStep : Nat := 0
  out : List Sent := []
  /-- The dies, as device * 1024 + die, that no link reaches from this one any more (R136). -/
  linksDown : List Nat := []
  /-- The MSI-X table, two words a vector, and the vectors that are pending (R433). -/
  msixTab : SMap Word := []
  msixPend : List Nat := []
  /-- Drained operations that GO reissues before all else, in their order (R422). -/
  reissue : List Instr := []
  deriving DecidableEq, Repr

/-- What other cores of the module do that this core can see (R1, R2; log entry 26): each happens in a step of its own. -/
inductive Peer where
  /-- a plain or synchronising access of a hart of another core, of whatever device, or of an engine that works for another core, enters
  its region (R77, R116, R121, R132) -/
  | region (agent : Agent) (device core : Nat) (read write sync : Bool) (key len : Nat)
  /-- that region closes (R118) -/
  | regionEnd (agent : Agent) (device core : Nat)
  /-- an access that stores bytes enters that region and is performed -/
  | store (agent : Agent) (device core : Nat) (sync sameDie : Bool) (key : Nat) (bytes : List Byte)
  /-- a thief that has a window for it tries the top of this core's deque (R346) -/
  | steal (thief : Nat)
  /-- the deque of another core, top first, as a thief finds it (R346) -/
  | deque (core : Nat) (recs : List DqRec)
  /-- tasks of a launch on other cores have sent or spawned `up` records and ended `down` times (R342) -/
  | live (lnid up down : Nat)
  /-- an event is updated by another core: EVADD's addend (R317) -/
  | event (e : Nat) (add : Int)
  /-- the target of an optimistic message or anti-message has entered it (R365) -/
  | acked (k : Key)
  /-- whether any other core of the partition is in a domain (R369) -/
  | domains (inDomain : Bool)
  /-- every other core has reported for the interval: the least of their keys (R365) -/
  | report (k : Key)
  /-- a command of another queue of the cluster starts at a layer slot, or ends there (R383) -/
  | dssRuns (slot : Nat) (yes : Bool)
  /-- what such a command does to the slot (R372) -/
  | dss (slot : Nat) (op : DssOp)
  /-- the receiver has refused a buffer that the MROT under way sent (R297) -/
  | rotRefused
  /-- LSOWN of another core (R38) -/
  | lsown (core : Nat) (v : Word)
  /-- a bank of another device lets this one's accesses in, or no longer (R436) -/
  | admits (bank : Nat) (yes : Bool)
  /-- a value arrives from the ring successor or predecessor (R97) -/
  | ringGive (fromNext : Bool) (v : Word)
  /-- the successor or predecessor takes the oldest value meant for it (R97) -/
  | ringTake (toNext : Bool)
  /-- since when a ring neighbour has had no task; how many of the other seven cores wait on ring ports (R166) -/
  | ringIdle (next : Bool) (since : Option Nat)
  | ringWaiters (n : Nat)
  /-- another core acknowledges a request for pre-emption (R394) -/
  | preemptAck (core : Nat)
  /-- a record for this core of a virtual device that does not run; a doorbell for it (R351) -/
  | vdRecord (vd : Nat) (d : Delivery)
  | vdDoorbell (vd q : Nat) (v : Word)
  /-- wait nodes that other cores' waiters hold, in a slice or (32) in the overflow area (R344) -/
  | nodes (slice n : Nat)
  /-- another core holds something that keeps it in the rectangle, or no longer (R403) -/
  | holds (core : Nat) (yes : Bool)
  /-- the host writes or reads a word of BAR4 (R433) -/
  | bar4 (off : Nat) (write : Bool) (v : Word)
  /-- the hypervisor reads a register (R401) -/
  | hyperRead (loc : Nat)
  deriving DecidableEq, Repr

/-- The whole state. `ticks` counts steps and `inputs` holds what the outside world does, with the tick at which each arrives: the
model's own fields (log entries 3 and 4). -/
structure State where
  pc : Word := 0
  cyc : Nat := 0
  regs : Regs := {}
  core : Core := {}
  mem : Memory := {}
  sched : Sched := {}
  opt : Opt := {}
  mu : Mu := {}
  eng : Eng := {}
  sys : Sys := {}
  ticks : Nat := 0
  inputs : List (Nat × Instr) := []
  /-- What other cores do, each with the tick from which it may happen; the oldest first (log entry 26). -/
  peers : List (Nat × Peer) := []
  /-- The input being served cannot be served yet: the step keeps it for later. -/
  retry : Bool := false
  deriving DecidableEq, Repr

/-- Faults: what stops the model. There is none: every failure the manual describes is a trap, a token or a record, which are states
that follow. -/
inductive Fault where
  deriving DecidableEq, Repr

/-- Refusals. -/
inductive Refusal where
  /-- The dispatcher answers it for an instruction that has no meaning yet. Safe: the model stops where the machine goes on. -/
  | notModelled (mnemonic : String)
  deriving DecidableEq, Repr

/-- The machine right after reset: every field at its reset value. -/
def State.reset : State := {}

end Sys2Proof.Machine
end

