-- ==== Sys2Proof/Machine/Maps.lean ====
section
/-! DEFINITION. Finite maps as sorted lists: the one form of memory, the register store, tiles and tables. -/
namespace Sys2Proof.Machine

/-- The value at a key: d where none is listed. -/
def mget {α : Type} (d : α) : SMap α → Nat → α
  | [], _ => d
  | (k, v) :: m, i => if i < k then d else if i = k then v else mget d m i

/-- A write that keeps the canonical form: keys rising, no entry equal to d. -/
def mput {α : Type} [DecidableEq α] (d : α) : SMap α → Nat → α → SMap α
  | [], i, x => if x = d then [] else [(i, x)]
  | (k, v) :: m, i, x =>
    if i < k then (if x = d then (k, v) :: m else (i, x) :: (k, v) :: m)
    else if i = k then (if x = d then m else (i, x) :: m)
    else (k, v) :: mput d m i x

/-- Writes of consecutive keys. -/
def mputs {α : Type} [DecidableEq α] (d : α) (m : SMap α) (i : Nat) : List α → SMap α
  | [] => m
  | x :: xs => mputs d (mput d m i x) (i + 1) xs

/-- The map of a list of values at the keys from i on. -/
def mof {α : Type} [DecidableEq α] (d : α) (i : Nat) : List α → SMap α
  | [] => []
  | x :: xs => if x = d then mof d (i + 1) xs else (i, x) :: mof d (i + 1) xs

/-- A function applied to every listed value. -/
def mmap {α : Type} [DecidableEq α] (d : α) (f : α → α) : SMap α → SMap α
  | [] => []
  | (k, v) :: m => if f v = d then mmap d f m else (k, f v) :: mmap d f m

/-- The values at n consecutive keys. -/
def mgets {α : Type} (d : α) (m : SMap α) (i n : Nat) : List α := (List.range n).map fun j => mget d m (i + j)

/-- The canonical form (R31 and MEMORY of the log): keys strictly rising from lo on, no entry equal to d. -/
def mwfFrom {α : Type} [DecidableEq α] (d : α) (lo : Nat) : SMap α → Bool
  | [] => true
  | (k, v) :: m => decide (lo ≤ k) && !decide (v = d) && mwfFrom d (k + 1) m

/-- The canonical form. -/
def mwf {α : Type} [DecidableEq α] (d : α) (m : SMap α) : Bool := mwfFrom d 0 m

/-- A map whose unlisted keys have no value: look up. -/
def mfind {α : Type} : SMap α → Nat → Option α
  | [], _ => none
  | (k, v) :: m, i => if i < k then none else if i = k then some v else mfind m i

/-- A map whose unlisted keys have no value: write or remove. -/
def mset {α : Type} : SMap α → Nat → Option α → SMap α
  | [], i, x => match x with
    | none => []
    | some v => [(i, v)]
  | (k, v) :: m, i, x =>
    if i < k then (match x with
      | none => (k, v) :: m
      | some y => (i, y) :: (k, v) :: m)
    else if i = k then (match x with
      | none => m
      | some y => (i, y) :: m)
    else (k, v) :: mset m i x

/-- Keys strictly rising from lo on. -/
def mrising {α : Type} (lo : Nat) : SMap α → Bool
  | [] => true
  | (k, _) :: m => decide (lo ≤ k) && mrising (k + 1) m

/-- Little-endian bytes of a number (R174, R214). -/
def toBytes (n s : Nat) : List Byte := (List.range s).map fun k => BitVec.ofNat 8 (n / 256 ^ k)

/-- The number that little-endian bytes hold: mem of R214. -/
def ofBytes : List Byte → Nat
  | [] => 0
  | b :: bs => b.toNat + 256 * ofBytes bs

/-- A 64-bit word of eight bytes. -/
def wordOf (bs : List Byte) : Word := BitVec.ofNat 64 (ofBytes bs)

end Sys2Proof.Machine
end

