-- ==== Sys2Proof/Machine/Levels.lean ====
section
/-! DEFINITION. The cache levels and memory at its homes: geometry (R48), byte masks (R51), ageing (R60, R61), policing counters (R65, R66),
writes at home (R89, R135, R248), and the RDC's write-back and self-invalidation (R113, R114). Which set serves a line is taken from its
address: the hash of R36 has no architectural effect (log entry 16). -/
namespace Sys2Proof.Machine

/-! ### Geometry -/

/-- Ways of a level (R48). -/
def Lv.ways : Lv → Nat
  | .l1 => 8
  | _ => 16

/-- Slices of a level in one cache of it, and sets in all of them (R48). Log entry 16 (DESIGN CHOICE). -/
def Lv.slices : Lv → Nat
  | .l2 => 32 | .rdc => 8 | _ => 1
/-- Log entry 16 (DESIGN CHOICE). -/
def Lv.sets : Lv → Nat
  | .l1 => 64 | .l2 => 32 * 1536 | .rdc => 8 * 2048 | .msc => 524288

/-- Which cache of a level serves a line: the core has one L1 and its die one RDC; there is a home L2 a die, and a memory-side cache for
each half of a die's 192 banks, since a memory-side die serves two of its four stacks (R1, R6, R48). Log entry 16 (DESIGN CHOICE). -/
def Lv.unit (lv : Lv) (line : Nat) : Nat :=
  match lv with
  | .l1 | .rdc => 0
  | .l2 => line / 2 ^ 38
  | .msc => line / 2 ^ 38 * 2 + line / 2 ^ 30 % 256 / 96

/-- The set of a line, by cache and index. Log entry 16 (DESIGN CHOICE). -/
def setOf (lv : Lv) (line : Nat) : Nat := lv.unit line * 2 ^ 20 + line / 128 % lv.sets

/-- The key of a class's policing counters at the slice of a set (R65). Log entry 16 (DESIGN CHOICE). -/
def policeKey (lv : Lv) (set cls : Nat) : Nat :=
  (match lv with
    | .l1 => 0 | .l2 => 1 | .rdc => 2 | .msc => 3) * 2 ^ 60 + (set / 2 ^ 20 * lv.slices + set % lv.slices) * 256 + cls % 256

/-! ### Bytes of a line -/

/-- A mask of a line's bytes: `len` of them from byte `off` on. -/
def byteMask (off len : Nat) : Nat := (2 ^ len - 1) * 2 ^ off

/-- All bytes of a line. -/
def allBytes : Nat := 2 ^ 128 - 1

/-- The bytes of a range that lie in a line. -/
def maskIn (line key n : Nat) : Nat :=
  let lo := max line key
  let hi := min (line + 128) (key + n)
  if lo < hi then byteMask (lo - line) (hi - lo) else 0

/-- The sectors that a mask touches, whole (R48). -/
def sectorsOf (m : Nat) : Nat :=
  ((List.range 4).map fun k => if m / 2 ^ (32 * k) % 2 ^ 32 = 0 then 0 else byteMask (32 * k) 32).foldl (· + ·) 0

/-- The bytes of a mask that another does not have. -/
def lacking (m have_ : Nat) : Nat := m ^^^ (m &&& have_)

/-- The lines of a range. -/
def linesOf (key n : Nat) : List Nat :=
  if n = 0 then [] else (List.range ((key + n - 1) / 128 - key / 128 + 1)).map fun j => (key / 128 + j) * 128

/-! ### Ageing and policing -/

/-- Time in units of 64 cycles (R58). -/
def State.unitTime (s : State) : Nat := s.cyc / 64 % 65536

/-- Whether a line with Z = 0 is expired, its remaining or passed units, the age of one with Z = 1 (R60). -/
def Line.ahead (l : Line) (t : Nat) : Nat := (l.stamp + 65536 - t) % 65536
def Line.age (l : Line) (t : Nat) : Nat := (t + 65536 - l.stamp) % 65536
def Line.expired (l : Line) (t : Nat) : Bool := !l.z && (l.e || 32768 ≤ l.ahead t)

/-- Where the sweep, an access or an eviction sets E (R61). -/
def Line.dueE (l : Line) (t : Nat) : Bool := !l.e && (if l.z then 16384 ≤ l.age t else 32768 ≤ l.ahead t)

/-- A line that the sweep has visited since it fell due, once d units more have passed: it visits every line within 2^13 units (R61).
Log entry 53 (DEDUCED). -/
def Line.overdue (l : Line) (t d : Nat) : Bool :=
  !l.e && (if l.z then 24576 ≤ l.age t + d
    else if l.ahead t < 32768 then l.ahead t + 8192 < d
    else 8192 < l.age t + d)

/-- A broken promise enters the counters when E is set on a line of a shared cache stamped with NUD 1 to 15 (R61, R65).
Log entry 53 (DEDUCED). -/
def breakPromise (m : SMap Police) (l : Line) : SMap Police :=
  if l.z || l.lv = .l1 then m
  else
    let k := policeKey l.lv l.set l.cls
    let p := mget {} m k
    mput {} m k { p with broken := p.broken + 1 }

/-- E is set on a line by an access, an eviction or the sweep. Log entry 53 (DEDUCED). -/
def State.countBroken (s : State) (l : Line) : State := { s with mem := { s.mem with police := breakPromise s.mem.police l } }

/-- A demand hit on a live line (R65). Log entry 53 (DEDUCED). -/
def State.countKept (s : State) (l : Line) : State :=
  if l.lv = .l1 then s
  else
    let k := policeKey l.lv l.set l.cls
    let p := mget {} s.mem.police k
    { s with mem := { s.mem with police := mput {} s.mem.police k { p with kept := p.kept + 1 } } }

/-- The sweep's visits while d units pass: every line that was due for 2^13 units has been visited by then (R61). Log entry 53 (DEDUCED). -/
def State.sweepFor (s : State) (d : Nat) : State :=
  let t := s.unitTime
  { s with mem := { s.mem with
      police := (s.mem.lines.filter fun l => l.overdue t d).foldl breakPromise s.mem.police
      lines := s.mem.lines.map fun l => if l.overdue t d then { l with e := true } else l } }

/-- A class's counters at the end of an interval (R66). Log entry 53 (DEDUCED). -/
def Police.step (p : Police) : Police :=
  let n := p.kept + p.broken
  let level := if 64 ≤ n && n < 2 * p.broken then min (p.level + 1) 3 else p.level - 1
  { level := level, kept := 0, broken := 0 }

/-- The number of the policing interval under way for a value of CPQUOTA (R64, R65). Log entry 53 (DEDUCED). -/
def State.intervalUnder (s : State) (quota : Word) : Nat := s.cyc / 2 ^ max 16 (min 24 (bits quota 44 40))
/-- Log entry 53 (DEDUCED). -/
def State.policeInterval (s : State) : Nat := s.intervalUnder s.regs.cpquota

/-! ### Memory at its homes -/

/-- The bytes at a memory key as home holds them. -/
def State.homeBytes (s : State) (key n : Nat) : List Byte := mgets 0 s.mem.bytes key n

/-- The unit of loss a key lies in, by its first key (R135). -/
def lossUnit (key : Nat) : Nat := if 2 ^ 60 ≤ key then key / 8 * 8 else key / 32 * 32

/-- The bytes in the unit of loss that begins at a key. -/
def lossSize (u : Nat) : Nat := if 2 ^ 60 ≤ u then 8 else 32

/-- Whether a byte is lost at its home. -/
def State.isLost (s : State) (key : Nat) : Bool := s.mem.lost.contains (lossUnit key)

/-- Losses that a write of n bytes at a key ends: those of the units it covers whole (R135). -/
def endLoss (lost : List Nat) (key n : Nat) : List Nat := lost.filter fun u => !(key ≤ u && u + lossSize u ≤ key + n)

/-- A unit becomes lost. -/
def addLoss (lost : List Nat) (u : Nat) : List Nat := if lost.contains u then lost else u :: lost

/-- Whether a range touches a line. -/
def touches (line key n : Nat) : Bool := key / 128 * 128 ≤ line && line < key + n

/-- Waits and parked tasks that watch a line of the range learn that it has been written at its home (R248). -/
def State.notify (s : State) (key n : Nat) : State :=
  let w := match s.core.wait with
    | some w => (match w.on with
      | .line l => if touches l key n then some { w with hit := true } else some w
      | _ => some w)
    | none => none
  { s with
    core := { s.core with wait := w }
    sched := { s.sched with parked := s.sched.parked.map fun p => match p.on with
      | .line l _ => if touches l key n then { p with hit := true } else p
      | _ => p } }

/-- Bytes arrive at their home: watchers learn of it, and a unit written whole is lost no longer (R135, R248). -/
def State.putHome (s : State) (key : Nat) (bs : List Byte) : State :=
  { s with mem := { s.mem with
      lost := endLoss s.mem.lost key bs.length
      bytes := mputs 0 s.mem.bytes key bs } }.notify key bs.length

/-- What bytes held is kept for fetches before the next full fence (R89): `old` gives it. -/
def keepStale (stale : SMap Byte) (old : Nat → Byte) (key n : Nat) : SMap Byte :=
  if key < 2 ^ 60 then
    (List.range n).foldl (fun m j => if mfind m (key + j) = none then mset m (key + j) (some (old (key + j))) else m) stale
  else stale

/-- Mailbox words that a write leaves alone: one that is overwritten acquires nothing any more (R95). -/
def keepMail (l : List Mail) (key n : Nat) : List Mail := l.filter fun m => !(m.lo < key + n && key < m.lo + m.len)

/-- Bytes written at their home by an access (R89, R95, R135, R248). -/
def State.writeHome (s : State) (key : Nat) (bs : List Byte) : State :=
  { s with
    core := { s.core with mail := keepMail s.core.mail key bs.length }
    mem := { s.mem with stale := keepStale s.mem.stale (mget 0 s.mem.bytes) key bs.length } }.putHome key bs

/-! ### Lines -/

/-- The replacement state of a line at a level, if it is held there. -/
def State.lineAt (s : State) (lv : Lv) (line : Nat) : Option Line := s.mem.lines.find? fun l => l.lv = lv && l.line = line

/-- Change a line at a level. -/
def State.updLine (s : State) (lv : Lv) (line : Nat) (f : Line → Line) : State :=
  { s with mem := { s.mem with lines := s.mem.lines.map fun l => if l.lv = lv && l.line = line then f l else l } }

/-- Remove a line's replacement state from a level. -/
def State.dropLine (s : State) (lv : Lv) (line : Nat) : State :=
  { s with mem := { s.mem with lines := s.mem.lines.filter fun l => !(l.lv = lv && l.line = line) } }

/-- Dirty sectors of a line reach the arrays of the memory, whole: their loss there is over (R133, R135). Log entry 44 (DEDUCED). -/
def State.reachHbm (s : State) (line dirty : Nat) : State :=
  { s with mem := { s.mem with hbmLost := s.mem.hbmLost.filter fun u => !(u / 128 * 128 = line && maskIn line u 32 &&& dirty ≠ 0) } }

/-- A line arrives at the memory-side cache with its dirty sectors, stamp and Z (R58): one that is not held there is not allocated, and one
that is keeps its recency and class tag, since R58 speaks of neither. Log entry 61 (DESIGN CHOICE). -/
def State.receive (s : State) (v : Line) (dirty : Nat) : State :=
  let s := if (s.lineAt .msc v.line).isNone then s.reachHbm v.line dirty else s
  s.updLine .msc v.line fun l =>
    { l with stamp := v.stamp, z := v.z || v.e, e := false, held := l.held ||| sectorsOf dirty, dirty := l.dirty ||| sectorsOf dirty }

/-- Dirty bytes of the RDC have reached a line's home: the home L2 where it holds the line, else the memory-side cache (R51, R58, R113). -/
def State.arriveHome (s : State) (line dirty : Nat) : State :=
  if (s.lineAt .l2 line).isSome then
    s.updLine .l2 line fun l => { l with held := l.held ||| sectorsOf dirty, dirty := l.dirty ||| sectorsOf dirty }
  else match s.lineAt .rdc line with
    | some v => s.receive v dirty
    | none => s

/-- The unit of loss of a key is lost below the L1 of the core, which keeps sound what it holds of it (R133, R135). Log entry 44 (DEDUCED). -/
def State.loseUnit (s : State) (key : Nat) : State :=
  let u := lossUnit key
  let s := { s with mem := { s.mem with lost := addLoss s.mem.lost u } }
  s.updLine .l1 (u / 128 * 128) fun l => { l with sound := l.sound ||| (l.held &&& maskIn l.line u (lossSize u)) }

/-- A copy of a line, of the sectors in a mask, has gone from a cache at its home: a sector lost in the arrays that no cache there holds any
more is lost (R133, R135). Log entry 44 (DEDUCED). -/
def State.uncover (s : State) (line gone : Nat) : State :=
  let held (lv : Lv) : Nat := match s.lineAt lv line with
    | some l => l.held
    | none => 0
  let bare := s.mem.hbmLost.filter fun u => u / 128 * 128 = line && maskIn line u 32 &&& gone ≠ 0
    && maskIn line u 32 &&& (held .l2 ||| held .msc) = 0
  bare.foldl State.loseUnit { s with mem := { s.mem with hbmLost := s.mem.hbmLost.filter fun u => !bare.contains u } }

/-! ### Pulled pages and full region tables -/

/-- The pull of a page for the running virtual device is under way (R410). -/
def State.pulling (s : State) (page : Nat) : Bool := s.mem.pulls.any fun p => p.page = page && p.vd = s.sys.vd

/-- The pull of a page begins unless one is under way, which accesses share (R410). -/
def State.startPull (s : State) (page : Nat) : State :=
  if s.pulling page then s else { s with mem := { s.mem with pulls := s.mem.pulls ++ [{ page := page, vd := s.sys.vd, since := s.cyc }] } }

/-- An access of a launch waits for a page, whose pull begins (R410, R416): it counts as waiting until the pull is over. Log entry 29 (DEDUCED). -/
def State.pullFor (s : State) (lnid page : Nat) : State :=
  let s := s.startPull page
  { s with mem := { s.mem with pulls := s.mem.pulls.map fun p =>
      if p.page = page && p.vd = s.sys.vd && !p.lnids.contains lnid then { p with lnids := lnid :: p.lnids } else p } }

/-- The launch of the core's task; 0 where it has none. -/
def State.taskLnid (s : State) : Nat :=
  match s.sched.task with
  | some t => t.launch.lnid.toNat
  | none => 0

/-- A mask waits for an entry of a die's full region table (R85, R119): the core whose region has had an entry there longest owes a boundary,
and the entry goes when that region closes; another core's boundary is that core's (log entry 26). Log entry 38 (DEDUCED). -/
def State.askRoom (s : State) (die : Nat) : State :=
  match (mget [] s.mem.tables die).find? fun r => r.agent = Agent.core with
  | some r => if r.own then { s with core := { s.core with tableHit := true } } else s
  | none => s

/-! ### The RDC's write-back and self-invalidation -/

/-- The bytes of a line that the RDC holds and that meet a condition, as a mask. -/
def State.rdcMask (s : State) (line : Nat) (p : RdcByte → Bool) : Nat :=
  s.mem.rdc.foldl (fun m x => if x.1 / 128 * 128 = line && p x.2 then m + 2 ^ (x.1 - line) else m) 0

/-- The dirty bytes of one sector go home: a sector written whole and not lost ends the loss there, a lost one is lost there too, since it
stays lost as it moves (R135). Log entry 51 (DEDUCED). Log entry 44 (DEDUCED). -/
def State.sendSector (s : State) (u : Nat) (ds : List (Nat × RdcByte)) : State :=
  if s.mem.rdcLost.contains u then
    let s := ds.foldl (fun s x => s.putHome x.1 [x.2.v]) s
    { s with mem := { s.mem with lost := addLoss s.mem.lost u } }
  else if ds.length = 32 then s.putHome u (ds.map fun x => x.2.v)
  else ds.foldl (fun s x => s.putHome x.1 [x.2.v]) s

/-- A physical address that a memory key has (R35, R45). -/
def State.paOf (s : State) (key : Nat) : Nat :=
  if key / 2 ^ 48 ≠ s.regs.devnum then key
  else match s.mem.bankTab.find? fun x => bit x.2 63 && bits x.2 9 8 = key / 2 ^ 38 % 4 && bits x.2 7 0 = key / 2 ^ 30 % 256 with
    | some x => key / 2 ^ 48 * 2 ^ 48 + x.1 / 192 * 2 ^ 38 + x.1 % 192 * 2 ^ 30 + key % 2 ^ 30
    | none => key

/-- The dirty bytes of a line of the RDC go to its home L2, sector by sector; those that watch the line learn of it (R113, R248). The RDC
copy is as it was; over a link that is down nothing arrives (R135, R136). Log entry 51 (DEDUCED). -/
def State.sendHome (s : State) (line : Nat) : State :=
  let ds := s.mem.rdc.filter fun x => x.1 / 128 * 128 = line && x.2.dirty
  if ds = [] then s
  else if s.sys.linksDown.contains (line / 2 ^ 38) then
    { s with mem := { s.mem with unsent := s.mem.unsent ++ ((ds.map fun x => x.1 / 32 * 32).eraseDups.map s.paOf) } }
  else
    let dirty := s.rdcMask line RdcByte.dirty
    let s := (List.range 4).foldl (fun s k =>
      let u := line + 32 * k
      match ds.filter fun x => x.1 / 32 * 32 = u with
      | [] => s
      | l => s.sendSector u l) s
    s.arriveHome line dirty

/-- Whether a line of the RDC belongs to the issuing partition (R113, R114). -/
def State.rdcMine (s : State) (line : Nat) : Bool :=
  match s.lineAt .rdc line with
  | some l => l.cls / 8 = s.regs.partid
  | none => true

/-- The lines of the issuing partition that are dirty in the RDC. -/
def State.rdcDirtyLines (s : State) : List Nat :=
  ((s.mem.rdc.filter fun x => x.2.dirty).map fun x => x.1 / 128 * 128).eraseDups.filter s.rdcMine

/-- Lines of the RDC become clean, and their L1 copies (R113). -/
def State.markClean (s : State) (lines : List Nat) : State :=
  { s with mem := { s.mem with
      rdc := s.mem.rdc.map fun x => if lines.contains (x.1 / 128 * 128) then (x.1, { x.2 with dirty := false }) else x
      lines := s.mem.lines.map fun l => if l.lv = .l1 && lines.contains l.line then { l with dirty := 0 } else l } }

/-- Write-back of the die's RDC: every dirty byte of the issuing partition goes home and stays, clean (R113). Log entry 51 (DEDUCED). -/
def State.writeBack (s : State) : State :=
  let ls := s.rdcDirtyLines
  (ls.foldl State.sendHome s).markClean ls

/-- Losses of the RDC that still have a byte there. -/
def keepRdcLost (rdc : SMap RdcByte) (lost : List Nat) : List Nat := lost.filter fun u => rdc.any fun x => x.1 / 32 * 32 = u

/-- Self-invalidation of the die's RDC: every byte of the issuing partition that is not dirty goes, and an L1 copy of such a line loses its
clean bytes (R114). Log entry 51 (DEDUCED). A line that has lost all its bytes keeps its way and its rank, since R62 and R114 do not call the
way invalid. Log entry 53 (DESIGN CHOICE). -/
def State.selfInvalidate (s : State) : State :=
  let rdc := s.mem.rdc.filter fun x => x.2.dirty || !s.rdcMine (x.1 / 128 * 128)
  { s with mem := { s.mem with
      rdc := rdc
      rdcLost := keepRdcLost rdc s.mem.rdcLost
      lines := s.mem.lines.map fun l =>
        if l.lv = .l1 && (s.lineAt .rdc l.line).isSome && s.rdcMine l.line then { l with held := l.held &&& l.dirty, sound := l.sound &&& l.dirty } else l } }

end Sys2Proof.Machine
end

