-- ==== Sys2Proof/Machine/Ops.lean ====
section
/-! DEFINITION. The named operations of the core: register store and bindings (R137 to R147), queues and rings (R92, R97), descriptors
(R142, R143), time (R56, R162), taking an exception and returning from one (R152, R153), and the frame of every instruction (R207). -/
namespace Sys2Proof.Machine

/-- What an event or instruction answers. -/
abbrev Out := Host.Outcome State Fault Refusal

/-- How an instruction ends early: a precise trap with its cause and TINFO; a trap that leaves a named side effect in a state; a wait. -/
inductive Stop where
  | trap (cause : Nat) (info : Word)
  | trapIn (s : State) (cause : Nat) (info : Word)
  | wait (on : WaitOn)
  | waitIn (s : State) (on : WaitOn)
  deriving DecidableEq, Repr

/-- A computation of an instruction that may end early. -/
abbrev Res (α : Type) := Except Stop α

/-- Where an instruction stands and how it reports itself. -/
structure Ctx where
  pc : Word
  size : Nat
  parcel : Parcel
  deriving DecidableEq, Repr

/-! ### Cause codes (R389) -/

def cILLEGAL : Nat := 0x01
def cWINDOW : Nat := 0x03
def cFENCE : Nat := 0x04
def cEMPTY : Nat := 0x05
def cALIGN : Nat := 0x06
def cPAGE : Nat := 0x08
def cPROT : Nat := 0x09
def cMMX : Nat := 0x0A
def cPARAM : Nat := 0x0B
def cPROMISE : Nat := 0x0C
def cBUDGET : Nat := 0x0D
def cRINGLOCK : Nat := 0x0E
def cBARRIER : Nat := 0x0F
def cFORMAT : Nat := 0x10
def cSPARSE : Nat := 0x11
def cOPTILL : Nat := 0x12
def cMEMLOST : Nat := 0x13
def cFPX : Nat := 0x14
def cSYSCALL : Nat := 0x15
def cBREAK : Nat := 0x16
def cSTEP : Nat := 0x17
def cPRIV : Nat := 0x18
def cMATFAULT : Nat := 0x19
def cDSS : Nat := 0x1A
def cMACHINE : Nat := 0x1F

/-- TINFO of ILLEGAL (R206). -/
def illInfo (d : Nat) (parcel : Parcel) : Word := wd (fld d 56 + parcel.toNat)

/-- TINFO of WINDOW, FENCE, EMPTY, ALIGN VECTOR, RINGLOCK and PROMISE (R149). -/
def winInfo (detail phys name : Nat) : Word := wd (fld detail 56 + fld (phys % 8192) 32 + name % 2048)

/-- TINFO of PAGE, PROT, ALIGN DATA, MMX, MEMLOST and BARRIER (R32, R80, R240, R255, R390). -/
def memInfo (kind level detail : Nat) (va : Word) : Word :=
  wd (fld kind 62 + fld level 60 + fld detail 56 + va.toNat % 2 ^ 56)

/-- TINFO of PRIV (R390). -/
def privInfo (reg : Nat) (parcel : Parcel) : Word := wd (fld (reg % 8192) 32 + parcel.toNat)

def ill {α : Type} (d : Ill) (c : Ctx) : Res α := .error (.trap cILLEGAL (illInfo d.code c.parcel))

/-- Refuse with a trap when a condition fails. -/
def need (b : Bool) (cause : Nat) (info : Word) : Res Unit := if b then .ok () else .error (.trap cause info)

/-! ### Mode, status and the window -/

/-- TASKSTAT.MODE (R159). -/
def State.mode (s : State) : Nat := bits s.regs.taskstat 13 12

/-- MODE 0 or 1: user mode of R143, R213 and R230. -/
def State.user (s : State) : Bool := s.mode < 2

/-- MODE 2. -/
def State.sup (s : State) : Bool := s.mode = 2

/-- TASKSTAT.OPT (R159). -/
def State.opt? (s : State) : Bool := bit s.regs.taskstat 9

/-- TASKSTAT.GRACE (R159). -/
def State.grace (s : State) : Bool := bit s.regs.taskstat 14

/-- FRMODE.EN (R167). -/
def State.forerunner (s : State) : Bool := bit s.regs.frmode 63

def State.setMode (s : State) (m : Nat) : State :=
  { s with regs := { s.regs with taskstat := setBits s.regs.taskstat 13 12 m } }

def State.setStat (s : State) (hi lo v : Nat) : State :=
  { s with regs := { s.regs with taskstat := setBits s.regs.taskstat hi lo v } }

/-- Install a window without a check (R139, R152). -/
def State.setWindow (s : State) (base limit : Nat) : State := { s with regs := { s.regs with wb := base, wl := limit } }

/-- The code base a context of the current mode counts from (R142, R151). -/
def State.codeBase (s : State) : Word := if s.mode = 2 then s.regs.scbase else s.regs.cbase

/-- A physical word (R137): every word is full and 0 at reset. -/
def State.cell (s : State) (p : Nat) : Cell := mget (.full 0) s.core.store p

def State.setCell (s : State) (p : Nat) (c : Cell) : State :=
  { s with core := { s.core with store := mput (.full 0) s.core.store p c } }

/-- The data bits of a word, whatever its mark: an empty word's are not defined by R137 and read 0 here where nothing waits. -/
def Cell.data : Cell → Word
  | .full v => v
  | .token v _ => v
  | .empty => 0
  | .lost _ => 0

/-- Eight bytes the manual leaves open, from the i-th on at this step. Log entry 8 (DESIGN CHOICE). -/
def State.openWord (s : State) (i : Nat := 0) : Word := wordOf ((List.range 8).map fun k => Config.openByte s.ticks (8 * i + k))

/-- Whether a word is full (R137). -/
def Cell.isFull : Cell → Bool
  | .full _ => true
  | .token _ _ => true
  | _ => false

/-- A task's window sizes (R156). -/
def classSize (c : Nat) : Nat :=
  match c % 4 with
  | 0 => 32 | 1 => 128 | 2 => 512 | _ => 1024

/-! ### Bindings (R145 to R147) -/

/-- Whether a physical word has a binding that has not landed. -/
def State.bound (s : State) (p : Nat) : Bool := s.core.binds.any fun b => b.words.contains p

/-- Whether a range of words has a binding that has not landed (R148): lost ones count as landed. -/
def State.boundIn (s : State) (lo n : Nat) : Bool := s.core.binds.any fun b => b.words.any fun p => lo ≤ p && p < lo + n

/-- Mark words empty and bind them (R145). Log entry 50 (DESIGN CHOICE). -/
def State.bind (s : State) (words : List Nat) (vals : Option (List (Option Word))) (info : Word := 0)
    (width : Option Nat := none) : State :=
  let s := words.foldl (fun s p => s.setCell p .empty) s
  let b : Bind := { id := s.core.nextBind, words := words, vals := vals, lostInfo := info, width := width }
  { s with core := { s.core with binds := s.core.binds ++ [b], nextBind := s.core.nextBind + 1 } }

/-- Values that arrive at bound words fill them (R145), or leave them empty and lost (R147). -/
def landWords (width : Option Nat) (info : Word) : List Nat → List (Option Word) → State → State
  | p :: ps, v :: vs, s =>
    let c := match v, width with
      | some x, none => Cell.full x
      | some x, some w => Cell.token x w
      | none, _ => Cell.lost info
    landWords width info ps vs (s.setCell p c)
  | _, _, s => s

def QEntry.land (id : Nat) (v : Option Word) (info : Word) : QEntry → QEntry
  | .flight j => if j = id then (match v with
      | some x => .full x
      | none => .lost info) else .flight j
  | q => q

/-- The queue named by a number 0 to 3 (lq0, lq1, sq0, sq1). -/
def State.queue (s : State) (q : Nat) : List QEntry := mget [] s.core.queues q

def State.setQueue (s : State) (q : Nat) (l : List QEntry) : State :=
  { s with core := { s.core with queues := mput [] s.core.queues q l } }

/-- Any queue count is non-zero (R93). -/
def State.queuesLive (s : State) : Bool := s.core.queues ≠ []

/-! ### Descriptors (R142, R143) -/

def descBase (d : Word) : Nat := bits d 12 0
def descLimit (d : Word) : Nat := bits d 23 13
def descRpc (d : Word) : Nat := bits d 63 32

/-- A descriptor of its fields (R142). -/
def mkDesc (base limit rpc : Nat) (trapd qheld frm : Bool) : Word :=
  wd (base % 8192 + fld (limit % 2048) 13 + fld trapd.toNat 24 + fld qheld.toNat 25 + fld frm.toNat 26 + fld (rpc % 2 ^ 32) 32)

/-- The RPC of an address under a code base (R142): offset in 4-byte units. -/
def rpcOf (pc cb : Word) : Nat := (pc - cb).toNat / 4 % 2 ^ 32

/-- The address of an RPC under a code base (R142). -/
def rpcAt (cb : Word) (rpc : Nat) : Word := cb + wd (4 * rpc)

/-- Check 1 of R143 holds for a base and limit. -/
def windowOk (base limit : Nat) : Bool := limit ≠ 0 && limit ≤ 2032 && base + limit ≤ 8192

/-- Bounds of the fence (R144). -/
def State.fenceLo (s : State) : Nat := bits s.regs.wflo 12 0
def State.fenceHi (s : State) : Nat := bits s.regs.wfhi 12 0

/-- The checks of R143 in a mode. Log entry 23 (DEDUCED). -/
def State.checkDesc (s : State) (d : Word) (user : Bool) : Res Unit := do
  let b := descBase d
  let l := descLimit d
  need (windowOk b l && bits d 31 27 = 0) cWINDOW (winInfo 2 b 0)
  need (!user || (s.fenceLo ≤ b && b + l - 1 ≤ s.fenceHi)) cFENCE (winInfo 1 b 0)

/-- The check of R230 of one absolute index, or of a range of n words from it. PHYS is the range's first word
where that lies outside, else its last word. Log entry 14 (DEDUCED). -/
def State.checkAbs (s : State) (i : Int) (n : Nat := 1) : Res Unit :=
  if n = 0 then .ok ()
  else do
    let bad := if 0 ≤ i && i ≤ 8191 then i + n - 1 else i
    need (0 ≤ i && i + n ≤ 8192) cFENCE (winInfo 2 (modI bad 13) 0)
    let lo := i.toNat
    let off := if lo < s.fenceLo || s.fenceHi < lo then lo else lo + n - 1
    need (!s.user || (s.fenceLo ≤ lo && lo + n - 1 ≤ s.fenceHi)) cFENCE (winInfo 2 off 0)

/-! ### Time and counters -/

/-- TCLK counts: a task is dispatched and its entry issued, and the core is not in TWIN (R56, R161). -/
def State.counting (s : State) : Bool :=
  s.mode ≠ 2 && !s.sys.halted && (match s.sched.task with
    | some t => t.entered
    | none => false)

/-- Performance counters that select an event advance by n (R420). Log entry 48 (DEDUCED). -/
def State.count (s : State) (code n : Nat) : State :=
  let step (m : SMap Word) (k : Nat) : SMap Word :=
    if bits s.regs.pmsel (8 * k + 7) (8 * k) = code then mput 0 m k (wd ((zext (mget 0 m k) 63 + n) % 2 ^ 63)) else m
  { s with regs := { s.regs with pmc := (List.range 4).foldl step s.regs.pmc } }

/-- A command that a task of a launch has issued is in flight in an engine (R416): of the matrix unit, the copy engine, the gather engines, the I/O
or the collective engine. -/
def State.commandsOf (s : State) (lnid : Nat) : Bool :=
  ((s.mu.run.toList ++ s.mu.queue ++ s.mu.saves).any fun c => c.lnid.toNat = lnid)
    || (s.eng.acopy.any fun c => c.lnid = lnid) || (s.eng.gather.any fun c => c.lnid = lnid) || (s.eng.io.any fun r => r.lnid = lnid)
    || (s.eng.chans.any fun x => (x.2.walk ≠ 0 && x.2.lnid = lnid) || x.2.kicks.any fun k => k.lnid = lnid)
    || (s.sched.collKicks.any fun k => k.lnid = lnid)

/-- The part of its launch's time account that a tick falls in now (R416): 0 FAULT, 1 IOWAIT, 2 EXEC, 3 QUEUE.
Log entry 26 (DESIGN CHOICE). -/
def State.partOf (s : State) (l : Launch) : Nat :=
  let mine := match s.sched.task with
    | some t => t.launch.lnid.toNat = l.lnid
    | none => false
  if (mine && s.mode = 2) || s.mem.pulls.any (fun p => p.vd = s.sys.vd && p.lnids.contains l.lnid) then 0
  else if s.eng.io.any fun r => r.accepted && r.lnid = l.lnid then 1
  else if mine || s.commandsOf l.lnid then 2
  else 3

/-- m ticks enter a launch's account. -/
def Launch.enter (l : Launch) (part m : Nat) : Launch :=
  { l with parts := match part, l.parts with
      | 0, (a, b, c, d) => (a + m, b, c, d)
      | 1, (a, b, c, d) => (a, b + m, c, d)
      | 2, (a, b, c, d) => (a, b, c + m, d)
      | _, (a, b, c, d) => (a, b, c, d + m) }

/-- m ticks begin in a part: the one under way is over and enters the account, and so does each that has ended meanwhile; the last is under
way (R416). -/
def Launch.account (l : Launch) (part m : Nat) : Launch :=
  match m with
  | 0 => l
  | k + 1 => { (l.enter l.cur 1).enter part k with cur := part }

/-- Timeouts stand still for n cycles (R422): waits are as far from their start as they were, a SLEEP from its target, and a pull from its. -/
def State.standStill (s : State) (n : Nat) : State :=
  let on : ParkedOn → ParkedOn
    | .line k t => .line k (t + n)
    | .timer t => .timer (t + n)
    | o => o
  let target : WaitOn → WaitOn
    | .sleep u => .sleep (wd (min (u.toNat + n) (2 ^ 64 - 1)))
    | o => o
  { s with
    core := { s.core with wait := s.core.wait.map fun (w : Wait) => { w with since := w.since + n, on := target w.on } }
    sched := { s.sched with parked := s.sched.parked.map fun (p : Parked) => { p with on := on p.on } }
    mem := { s.mem with pulls := s.mem.pulls.map fun (p : Pull) => { p with since := p.since + n } } }

/-- The cycles that a step takes (R3; log entry 3): it ends no later than the policing interval, whose end comes before what follows (R65,
R66). Log entry 3 (DESIGN CHOICE). -/
def State.stepCycles (s : State) : Nat :=
  let w := 2 ^ max 16 (min 24 (bits s.regs.cpquota 44 40))
  min (1 + Config.moreCycles s.ticks) (w - s.cyc % w)

/-- Time passes: one step and the cycles it takes (R3; log entry 3). TCLK and TBUDGET count the same cycles (R162); the accounts of the
live launches take the ticks that begin (R416). Log entry 3 (DESIGN CHOICE). Log entry 29 (DEDUCED). -/
def State.tick (s : State) : State :=
  let n := s.stepCycles
  let m := (s.cyc + n) / 64 - s.cyc / 64
  let s := { s with sched := { s.sched with launches := s.sched.launches.map fun (l : Launch) => l.account (s.partOf l) m } }
  let s := (if s.sys.halted then s.standStill n else s).sweepFor m
  let s := if s.sched.task.isSome then s.count 2 n else s
  let s := if s.counting then
      { s with regs := { s.regs with tclk := (s.regs.tclk + n) % 2 ^ 64, tbudget := s.regs.tbudget - n } }
    else s
  { s with ticks := s.ticks + 1, cyc := (s.cyc + n) % 2 ^ 64 }

/-- An event of another agent has happened: nothing of the core moves but time. -/
def State.done (s : State) : Out := .next s.tick

/-! ### Taking an exception and returning from one (R152, R153) -/

/-- Delegation of a cause (R150). -/
def State.delegated (s : State) (c : Nat) : Bool :=
  s.mode = 0 && bit s.regs.tdeleg c && bit s.regs.tdeleg (32 + c) && descLimit s.regs.utwin ≠ 0

/-- The context a trap saves (R142, R152). -/
def State.context (s : State) (pc : Word) : Word :=
  mkDesc s.regs.wb s.regs.wl (rpcOf pc s.codeBase) true s.queuesLive (s.mode = 3)

/-- Record an error record or message for the outside (R397). Log entry 26 (DESIGN CHOICE). -/
def State.post (s : State) (m : Sent) : State := { s with sys := { s.sys with out := s.sys.out ++ [m] } }

/-- The partition is halted (R333, R392), which ends an IDLE. Log entry 55 (DEDUCED). -/
def State.haltPartition (s : State) : State := { s with sys := { s.sys with halted := true }, core := { s.core with idle := false } }

/-- Entry into the user trap window (R150, R152). -/
def State.enterUser (s : State) (c : Nat) (info : Word) (pc : Word) : State :=
  let d := s.context pc
  let s := { s with regs := { s.regs with utsave := d, utcause := wd c, utinfo := info } }
  let s := (s.setWindow (descBase s.regs.utwin) (descLimit s.regs.utwin)).setMode 1
  { s with pc := rpcAt s.regs.cbase (descRpc s.regs.utwin) }

/-- Entry into TWIN (R152). One whose LIMIT is 0 installs nothing, reports the event and halts the partition (R392).
Log entry 55 (DEDUCED). -/
def State.enterTwin (s : State) (c : Nat) (info : Word) (pc : Word) (async : Bool) : State :=
  if descLimit s.regs.twin = 0 then
    { (s.haltPartition.post (.errorRecord c info.toNat)) with pc := pc }
  else
    let d := s.context pc
    let cause := wd (c + fld s.mode 56 + fld async.toNat 63)
    let s := { s with regs := { s.regs with tsave := d, tcause := cause, tinfo := info } }
    let s := (s.setWindow (descBase s.regs.twin) (descLimit s.regs.twin)).setMode 2
    { s with pc := rpcAt s.regs.scbase (descRpc s.regs.twin) }

/-- The instruction under way is abandoned: its wait is over (R162, R398). -/
def State.unwait (s : State) : State := { s with core := { s.core with wait := none } }

/-- An uncorrectable error reaches a consumer of the partition (R397): counted, and reported. Log entry 44 (DEDUCED). -/
def State.countLost (s : State) : State :=
  ({ s with sched := { s.sched with errUncorr := min (s.sched.errUncorr + 1) 0xFFFFFFFF } }).post (.errorRecord cMEMLOST 0)

/-- An error has been corrected (R133, R397). Log entry 44 (DEDUCED). -/
def State.countCorrected (s : State) : State :=
  ({ s with sched := { s.sched with errCorr := min (s.sched.errCorr + 1) 0xFFFFFFFF } }).post (.errorRecord 0 0)

/-- An engine's completion reports a cause (R135, R397). Log entry 44 (DEDUCED). -/
def State.countCause (s : State) (c : Nat) : State := if c = cMEMLOST then s.countLost else s

/-- Trap entry: cause, TINFO, resume point (R152). A MEMLOST is counted (R397). Log entry 55 (DEDUCED). -/
def State.takeTrap (s : State) (c : Nat) (info : Word) (pc : Word) : State :=
  let s := s.countCause c
  if s.delegated c then s.unwait.enterUser c info pc else s.unwait.enterTwin c info pc false

/-- Return to a saved context (R153, R143): window, mode, pc. QHELD 1 resumes on the core that saved it, which is this one.
Log entry 23 (DEDUCED). -/
def State.returnTo (s : State) (d : Word) (m : Nat) (cb : Word) : State :=
  { (s.setWindow (descBase d) (descLimit d)).setMode m with pc := rpcAt cb (descRpc d) }

/-! ### Synchronising (R74, R75, R110, R112 to R114) -/

/-- The core's region closes: its masks are discarded (R75, R83, R118), and with it end the regions of commands that had completed
(R95). -/
def State.closeRegion (s : State) : State :=
  { s with
    core := { s.core with region := {}, tableHit := false }
    mem := { s.mem with
      others := s.mem.others.filter fun o => !(o.own && o.done)
      tables := mmap [] (List.filter fun r => !(r.own && r.agent = .core)) s.mem.tables } }

/-- A full fence of a width for what the core's RDC and region do (R75, R112), and for fetches (R89). Log entry 15 (DESIGN CHOICE). -/
def State.fullFence (s : State) (width : Nat) : State :=
  let s := { s.closeRegion with mem := { s.closeRegion.mem with stale := [] } }
  if 3 ≤ width then s.writeBack.selfInvalidate else s

/-- An implicit region boundary (R74, R84, R85): a full fence at system scope. Log entry 38 (DEDUCED). -/
def State.boundary (s : State) : State := (s.fullFence 4).count 4 1

/-- A saturating count in bits [lo + 31 : lo]. -/
def bump (w : Word) (lo : Nat) (n : Nat := 1) : Word := setBits w (lo + 31) lo (min (bits w (lo + 31) lo + n) 0xFFFFFFFF)

/-- A write of the core, or of an engine, has failed over a link (R136): that hart's next release of width system takes MEMLOST.
Log entry 43 (DEDUCED). -/
def State.failWrite (s : State) (va : Word) (hart : Option EngHart := none) : State :=
  match hart with
  | none => { s with core := { s.core with lostWrite := match s.core.lostWrite with
      | some i => some i
      | none => some (memInfo 1 3 0 va) } }
  | some h => { s with eng := { s.eng with lostWrites := s.eng.lostWrites ++ [(h, va)] } }

/-- What a release of a width by an engine finds to report (R136): the address of a write that a link took, which is then reported; its other
writes are over. Log entry 43 (DEDUCED). -/
def State.engRelease (s : State) (h : EngHart) (width : Nat) : Option Word × State :=
  if width ≠ 4 then (none, s)
  else ((s.eng.lostWrites.find? fun x => x.1 = h).map (·.2),
    { s with
      eng := { s.eng with lostWrites := s.eng.lostWrites.filter fun x => x.1 ≠ h }
      core := { s.core with overLink := s.core.overLink.filter fun w => w.hart ≠ some h } })

/-- An acquire of a width: package and system drop the RDC's clean bytes (R75, R112). -/
def State.acquire (s : State) (width : Nat) : State :=
  let s := s.closeRegion
  if 3 ≤ width then s.selfInvalidate else s

/-- A release of a width: package and system write the RDC back (R75, R112); a write that failed over a link faults the next release of
width system (R136). -/
def State.release (s : State) (width : Nat) : Res State :=
  match if width = 4 then s.core.lostWrite else none with
  | some info => .error (.trapIn { s with core := { s.core with lostWrite := none } } cMEMLOST info)
  | none =>
    let s := { s.closeRegion with core := { s.closeRegion.core with overLink := if width = 4 then s.core.overLink.filter fun w => w.hart ≠ none else s.core.overLink } }
    .ok (if 3 ≤ width then s.writeBack else s)

/-! ### The frame of an instruction -/

/-- A MACHINE report, or BUDGET, is due at this boundary (R392). -/
def State.budgetDue (s : State) : Bool := s.user && s.regs.tbudget = 0 && s.sched.task.isSome

/-- DBGCTL.SS takes STEP at the boundary after an instruction completed in MODE 0, 1 or 3, unless an earlier cause is due, which
discards it (R392, R399). -/
def State.singleStep (s : State) (m : Nat) : State :=
  if bit s.regs.dbgctl 0 && m ≠ 2 && s.core.machine.isEmpty && !s.budgetDue then s.takeTrap cSTEP 0 s.pc else s

/-- An instruction has completed in mode m. -/
def State.retire (s : State) (m : Nat) : State :=
  ((({ s with core := { s.core with wait := none } }).count 1 1).tick).singleStep m

/-- What a stopped instruction leaves in a state t, but for the words, queue entries and tokens it has read, which are as they were in s,
and the masks and commands' regions that its core had (R81, R93). -/
def State.unread (t s : State) : State :=
  { t with
    pc := s.pc
    core := { t.core with
      store := s.core.store, binds := s.core.binds, queues := s.core.queues, rings := s.core.rings
      region := s.core.region, tableHit := s.core.tableHit, mail := s.core.mail }
    mem := { t.mem with others := s.mem.others, tables := s.mem.tables } }

/-- What a wait asks for: for an entry of a region table, a boundary of the region that has had one there longest (R85, R119); for the MSAVE of
a SUSPEND, the release of its issue (R288). -/
def State.asksFor (s : State) : WaitOn → State
  | .table die => s.askRoom die
  | .save _ => s.closeRegion
  | _ => s

/-- An instruction that waits: nothing but time, the note of its wait and what that asks for changes (R137, R162). -/
def State.waiting (s : State) (on : WaitOn) : State :=
  let w : Wait := match s.core.wait with
    | some w => if w.on = on then w else { on := on, since := s.cyc }
    | none => { on := on, since := s.cyc }
  (({ s with core := { s.core with wait := some w } }).asksFor on).tick

/-! ### Reading words -/

/-- A word that has been read; the first read of a token is its acquire (R95). -/
def State.seen (s : State) (p : Nat) : State :=
  match s.cell p with
  | .token v w => (s.setCell p (.full v)).acquire w
  | _ => s

/-- A token that fills while the core's instruction waits to read it is read then (R95). -/
def State.readOnFill (s : State) (b : Bind) : State :=
  match s.core.wait with
  | some w => (match w.on with
    | .word p => if b.words.contains p then s.seen p else s
    | _ => s)
  | none => s

/-- One binding lands: its words fill, or its queue entry, and it is gone. -/
def State.land (s : State) (b : Bind) : State :=
  let vs := b.vals.getD []
  let s := match b.queue with
    | some q =>
      let land := List.map (QEntry.land b.id (vs.headD none) b.lostInfo)
      let s := s.setQueue q (land (s.queue q))
      { s with sched := { s.sched with lowQueues := mmap [] land s.sched.lowQueues } }
    | none => landWords b.width b.lostInfo b.words vs s
  { s with core := { s.core with binds := s.core.binds.filter fun x => x.id ≠ b.id } }.readOnFill b

/-- The value of a command's token is on its way (R127): the binding of that number receives it and lands. -/
def State.fillToken (s : State) (id : Nat) (vals : List Word) : State :=
  match s.core.binds.find? fun b => b.id = id with
  | some b => s.land { b with vals := some (vals.map some) }
  | none => s

/-- Read predicate p under mode 0 (R141, R199): p0 is 1. -/
def State.readPred (s : State) (p : Fin 16) : Res (Bool × State) :=
  if p.val = 0 then .ok (true, s)
  else match s.cell s.regs.wb with
    | .lost info => .error (.trap cMEMLOST info)
    | .empty => .error (.wait (.word s.regs.wb))
    | c => .ok (bit c.data p.val, s.seen s.regs.wb)

/-- The guard (R199). -/
def State.guard (s : State) (g : Guard) : Res (Bool × State) := do
  let (b, s) ← s.readPred g.p
  .ok (b != g.neg, s)

/-- How an instruction that ran to its end leaves the core: it completed, or it ended the task's run on the core (R399). -/
inductive Ended where
  | completed (s : State)
  | left (s : State)
  deriving DecidableEq, Repr

/-- The end of an instruction as a state. -/
def finish (s : State) : Res Ended → State
  | .ok (.completed t) => t.retire s.mode
  | .ok (.left t) => (({ t with core := { t.core with wait := none } }).count 1 1).tick
  | .error (.trap c info) => (s.takeTrap c info s.pc).tick
  | .error (.trapIn t c info) => ((t.unread s).takeTrap c info s.pc).tick
  | .error (.wait on) => s.waiting on
  | .error (.waitIn t on) => (t.unread s).waiting on

/-- The context of an instruction at the core's pc. -/
def State.ctx (s : State) (i : Instr) : Ctx := { pc := s.pc, size := i.size, parcel := i.parcel0 }

/-- The state in which an instruction's body runs: pc already past it. -/
def State.past (s : State) (c : Ctx) : State := { s with pc := s.pc + wd c.size }

/-- An instruction issues: IDLE is over (R333). -/
def State.awake (s : State) : State := { s with core := { s.core with idle := false } }

/-- Steps 10 to 17 of R207 for an instruction: its privilege check, its guard, its body. -/
def runEnd (i : Instr) (g : Guard) (priv : Ctx → State → Res Unit) (body : Ctx → State → Res Ended) (s : State) : Out :=
  let s := s.awake
  let c := s.ctx i
  .next (finish s (do
    priv c s
    let (go, t) ← s.guard g
    if go then body c (t.past c) else .ok (.completed (t.past c))))

/-- No privilege check at step 10. -/
def free (_ : Ctx) (_ : State) : Res Unit := .ok ()

/-- MODE 2 only (R213). -/
def supOnly (c : Ctx) (s : State) : Res Unit := need s.sup cPRIV (privInfo 0 c.parcel)

/-- An instruction that completes. -/
def run (i : Instr) (g : Guard) (body : Ctx → State → Res State) (s : State) : Out :=
  runEnd i g free (fun c s => (body c s).map .completed) s

end Sys2Proof.Machine
end

