-- ==== Sys2Proof/Machine/Operands.lean ====
section
/-! DEFINITION. The operand forms: names, vectors, runs, predicates, queues and ring ports as sources and destinations, in the order of
steps 12 to 16 of R207 (R92, R97, R137 to R141, R146, R200, R201, R207). -/
namespace Sys2Proof.Machine

/-- One operand field of an instruction, as steps 13 to 16 see it. -/
inductive Opr where
  /-- a word source, mode 1 if the flag is set -/
  | src (n : Name) (trap : Bool)
  /-- a word destination -/
  | dst (n : Name)
  /-- a destination that is also read, in mode 0 -/
  | both (n : Name)
  | vsrc (v : Nat) (trap : Bool)
  | vdst (v : Nat)
  | vboth (v : Nat)
  /-- n consecutive words from a name -/
  | run (n : Name) (count : Nat) (trap : Bool)
  /-- n consecutive words from a name, written -/
  | runDst (n : Name) (count : Nat)
  /-- w0, read in mode 0 for predicates -/
  | preds
  deriving DecidableEq, Repr

def srcOpr (x : Src) : Opr := .src x.name x.trap
def runOpr (x : Run) (n : Nat) : Opr := if x.first = .zero then .src .zero x.trap else .run x.first n x.trap
def vsrcOpr (x : VSrc) : Opr := .vsrc x.v.val x.trap

/-- The relocated name numbers of an operand (R140, R141). -/
def Opr.names : Opr → List Nat
  | .src (.w n) _ | .dst (.w n) | .both (.w n) => [n.val]
  | .src _ _ | .dst _ | .both _ => []
  | .vsrc v _ | .vdst v | .vboth v => (List.range 32).map (32 * v + ·)
  | .run n c _ | .runDst n c => (List.range c).map (n.num + ·)
  | .preds => [0]

/-- Whether an operand is a vector name (R141). -/
def Opr.vector : Opr → Option Nat
  | .vsrc v _ | .vdst v | .vboth v => some v
  | _ => none

/-- The words an operand reads as sources, as name numbers and mode. -/
def Opr.reads : Opr → List (Nat × Bool)
  | .src (.w n) t => [(n.val, t)]
  | .both (.w n) => [(n.val, false)]
  | .vsrc v t => (List.range 32).map fun k => (32 * v + k, t)
  | .vboth v => (List.range 32).map fun k => (32 * v + k, false)
  | .run n c t => (List.range c).map fun k => (n.num + k, t)
  | .preds => [(0, false)]
  | _ => []

/-- The number of a queue name (R92). -/
def queueNo : Name → Option Nat
  | .lq0 => some 0
  | .lq1 => some 1
  | .sq0 => some 2
  | .sq1 => some 3
  | _ => none

/-- Step 13 for one field: every word below WL, then the alignment of a vector name (R140, R141). -/
def State.checkField (s : State) (o : Opr) : Res Unit := do
  match o.names.find? fun n => s.regs.wl ≤ n with
  | some n => need false cWINDOW (winInfo 1 (s.regs.wb + n) n)
  | none => .ok ()
  match o.vector with
  | some v => need ((s.regs.wb + 32 * v) % 32 = 0) cALIGN (winInfo 1 (s.regs.wb + 32 * v) (32 * v))
  | none => .ok ()

/-- Step 14 for one field: a queue named in MODE 1, 2 or 3, a push to a full queue, a pop from an empty one (R92, R168).
Log entry 22 (DEDUCED). -/
def State.checkQueue (s : State) (c : Ctx) (o : Opr) : Res Unit :=
  let use (n : Name) (pop : Bool) : Res Unit :=
    match queueNo n with
    | none => .ok ()
    | some q =>
      if s.mode ≠ 0 then ill .quse c
      else if pop then (if (s.queue q).length = 0 then ill .qunder c else .ok ())
      else if 16 ≤ (s.queue q).length then ill .qover c else .ok ()
  match o with
  | .src n _ => use n true
  | .dst n => use n false
  | _ => .ok ()

/-- What a source finds when it is examined (R207 step 16): nothing amiss, an EMPTY or MEMLOST due at once, or a wait. -/
inductive Found where
  | ok
  | stop (cause : Nat) (info : Word)
  | wait (on : WaitOn)
  deriving DecidableEq, Repr

def State.examineWord (s : State) (n : Nat) (trap : Bool) : Found :=
  let p := s.regs.wb + n
  match s.cell p with
  | .full _ => .ok
  | .token _ _ => .ok
  | .lost info => .stop cMEMLOST info
  | .empty => if trap then .stop cEMPTY (winInfo 1 p n) else .wait (.word p)

/-- A ring FIFO (R97): 0 from the successor, 1 from the predecessor, 2 toward the successor, 3 toward the predecessor. -/
def State.ring (s : State) (k : Nat) : List Word := mget [] s.core.rings k

def State.setRing (s : State) (k : Nat) (l : List Word) : State :=
  { s with core := { s.core with rings := mput [] s.core.rings k l } }

/-- A field's special source examined: the head of a queue, or the word of a ring FIFO that is left after `k0` earlier fields. -/
def State.examineSpecial (s : State) (n : Name) (trap : Bool) (k0 : Nat) : Found :=
  match n with
  | .nxt | .prv =>
    let k := if n = .nxt then 0 else 1
    if (s.ring k).length ≤ k0 then (if trap then .stop cEMPTY (winInfo 3 0 n.num) else .wait (.ring (n = .nxt) true)) else .ok
  | _ => match queueNo n with
    | none => .ok
    | some q => match (s.queue q).head? with
      | some (.full _) => .ok
      | some (.lost info) => .stop cMEMLOST info
      | _ => if trap then .stop cEMPTY (winInfo 2 0 n.num) else .wait (.queue q)

/-- What the sources of one field find, given the fields before it. Log entry 22 (DEDUCED). -/
def State.examine (s : State) (before : List Opr) (o : Opr) : List Found :=
  let earlier (n : Name) : Nat := (before.filter fun b => match b with
    | .src m _ => m = n
    | _ => false).length
  let special := match o with
    | .src n t => [s.examineSpecial n t (earlier n)]
    | .both n => [s.examineSpecial n false (earlier n)]
    | _ => []
  special ++ o.reads.map fun r => s.examineWord r.1 r.2

/-- What all the fields find, in order. Log entry 22 (DEDUCED). -/
def State.examineAll (s : State) (before : List Opr) : List Opr → List Found
  | [] => []
  | o :: l => s.examine before o ++ s.examineAll (o :: before) l

/-- Step 16: the first mode-1 empty or lost word in order, else the first wait. Log entry 22 (DEDUCED). -/
def firstFound (l : List Found) : Res Unit :=
  match l.findSome? (fun f => match f with
    | .stop c i => some (c, i)
    | _ => none) with
  | some (c, i) => .error (.trap c i)
  | none => match l.findSome? (fun f => match f with
    | .wait on => some on
    | _ => none) with
    | some on => .error (.wait on)
    | none => .ok ()

/-- All the fields' checks in the order of R207: 13 for each, 14 for each, `own` for step 15, 16 over all. -/
def State.prepare (s : State) (c : Ctx) (l : List Opr) (own : Res Unit := .ok ()) : Res Unit := do
  for o in l do s.checkField o
  for o in l do s.checkQueue c o
  own
  firstFound (s.examineAll [] l)

/-! ### Reading sources -/

/-- The physical word of a relocated name number. -/
def State.phys (s : State) (n : Nat) : Nat := s.regs.wb + n

/-- A physical word read: its value, and its token's acquire if this is its first read. Log entry 22 (DEDUCED). -/
def State.takePhys (s : State) (p : Nat) : Word × State := ((s.cell p).data, s.seen p)

/-- The data of a physical word, read in mode 0 (R233, R234, R250). -/
def State.readPhys (s : State) (p : Nat) : Res (Word × State) :=
  match s.cell p with
  | .empty => .error (.wait (.word p))
  | .lost info => .error (.trap cMEMLOST info)
  | _ => .ok (s.takePhys p)

/-- The value at the head of a queue. -/
def queueHead (l : List QEntry) : Word :=
  match l.head? with
  | some (.full v) => v
  | _ => 0

/-- word(n) of R214 as a source, once step 16 has passed: a queue or ring port pops (R92, R97). -/
def State.take (s : State) (n : Name) : Word × State :=
  match n with
  | .w k => s.takePhys (s.phys k.val)
  | .nxt => ((s.ring 0).headD 0, s.setRing 0 (s.ring 0).tail)
  | .prv => ((s.ring 1).headD 0, s.setRing 1 (s.ring 1).tail)
  | _ => match queueNo n with
    | some q => (queueHead (s.queue q), s.setQueue q (s.queue q).tail)
    | none => (0, s)

/-- Consecutive physical words read in ascending order. -/
def State.takeWords (s : State) (p : Nat) : Nat → List Word × State
  | 0 => ([], s)
  | n + 1 =>
    let (v, s) := s.takePhys p
    let (vs, s) := s.takeWords (p + 1) n
    (v :: vs, s)

/-- The n words of a run; a descriptor of one word may be zero, which reads 0 (R200, R288). -/
def State.takeRun (s : State) (r : Name) (n : Nat) : List Word × State :=
  if r = .zero then (List.replicate n 0, s) else s.takeWords (s.phys r.num) n

/-- The 32 words of a vector (R141). -/
def State.takeVec (s : State) (v : Nat) : List Word × State := s.takeWords (s.phys (32 * v)) 32

/-- The second operand: a word, or its immediate sign-extended (R202, R215). -/
def State.takeOpnd (s : State) : Opnd → Word × State
  | .word x => s.take x.name
  | .imm v => (wdI v.val, s)

/-- An optional third operand. -/
def State.takeOpt (s : State) (d : Word) : Option Src → Word × State
  | some x => s.take x.name
  | none => (d, s)

def opndOpr : Opnd → List Opr
  | .word x => [srcOpr x]
  | .imm _ => []

def optOpr : Option Src → List Opr
  | some x => [srcOpr x]
  | none => []

/-! ### Writing -/

/-- The wait of an ordinary write, or of a new binding, on a word's binding (R146). -/
def State.unbound (s : State) (p : Nat) : Res Unit := if s.bound p then .error (.wait (.binding p)) else .ok ()

def State.unboundAll (s : State) : List Nat → Res Unit
  | [] => .ok ()
  | p :: ps => do s.unbound p; s.unboundAll ps

/-- Write a physical word, which becomes full (R137, R146). -/
def State.writePhys (s : State) (p : Nat) (v : Word) : Res State := do
  s.unbound p
  .ok (s.setCell p (.full v))

/-- word(n) := v of R214: relocated, discarded, pushed to a queue or a ring port. -/
def State.write (s : State) (n : Name) (v : Word) : Res State :=
  match n with
  | .w k => s.writePhys (s.phys k.val) v
  | .nxt => if 8 ≤ (s.ring 2).length then .error (.wait (.ring true false)) else .ok (s.setRing 2 (s.ring 2 ++ [v]))
  | .prv => if 8 ≤ (s.ring 3).length then .error (.wait (.ring false false)) else .ok (s.setRing 3 (s.ring 3 ++ [v]))
  | _ => match queueNo n with
    | some q => .ok (s.setQueue q (s.queue q ++ [.full v]))
    | none => .ok s

/-- Write all 32 words of a vector at once (R269). -/
def State.writeVec (s : State) (v : Nat) (ws : List Word) : Res State := do
  s.unboundAll ((List.range 32).map fun k => s.phys (32 * v + k))
  .ok ((List.range 32).foldl (fun s k => s.setCell (s.phys (32 * v + k)) (.full (ws.getD k 0))) s)

/-- The bits of w0 that a predicate write keeps: those of an empty or lost word are open. Log entry 8 (DESIGN CHOICE). -/
def State.oldW0 (s : State) : Word := let c := s.cell (s.phys 0); if c.isFull then c.data else s.openWord

/-- Write predicate p: its own bit of w0 (R141); p0 is discarded. -/
def State.writePred (s : State) (p : Fin 16) (b : Bool) : Res State :=
  if p.val = 0 then .ok s
  else do
    s.unbound (s.phys 0)
    .ok (s.setCell (s.phys 0) (.full (setBits s.oldW0 p.val p.val b.toNat)))

/-! ### Scopes (R98 to R103) -/

/-- The scope word of a scope: a shorthand is its class (R100); a named word is read. -/
def State.takeScope (s : State) : Scope → Word × State
  | .short k => (wd (fld (k.val + 1) 32), s)
  | .word c => s.take c.name
  | .ext v => (v, s)

/-- The operand field of a scope word. -/
def scopeOpr : Scope → List Opr
  | .word c => [srcOpr c]
  | _ => []

def scClass (v : Word) : Nat := bits v 34 32
def scX0 (v : Word) : Nat := bits v 6 0
def scX1 (v : Word) : Nat := bits v 14 8
def scY0 (v : Word) : Nat := bits v 21 16
def scY1 (v : Word) : Nat := bits v 29 24

/-- The core's coordinates (R44). -/
def coreX (n : Nat) : Nat := n % 128
def coreY (n : Nat) : Nat := n / 128

/-- The logical cluster of a core (R45, R259). -/
def clusterOf (n : Nat) : Nat := coreY n / 2 * 32 + coreX n / 4

/-- The checks of R101. -/
def State.scopeOk (s : State) (v : Word) : Bool :=
  let resv := bits v 63 35 ≠ 0 || bits v 31 30 ≠ 0 || bits v 23 22 ≠ 0 || bit v 15 || bit v 7
  let rect := scX0 v ≤ scX1 v && scY0 v ≤ scY1 v && scX1 v < s.sys.w && scY1 v < s.sys.h
    && scX0 v ≤ coreX s.core.number && coreX s.core.number ≤ scX1 v && scY0 v ≤ coreY s.core.number && coreY s.core.number ≤ scY1 v
  !resv && scClass v ≤ 5 && (if scClass v = 0 then rect else scX0 v = 0 && scX1 v = 0 && scY0 v = 0 && scY1 v = 0)

/-- The physical die of a logical cluster under the table in force (R45); an entry that maps nothing counts as die 0.
Log entry 13 (DESIGN CHOICE). -/
def State.dieOf (s : State) (cluster : Nat) : Nat :=
  let e := mget 0 s.mem.clusterTab cluster
  if bit e 63 then bits e 9 8 else 0

/-- The die of the core. -/
def State.die (s : State) : Nat := s.dieOf (clusterOf s.core.number)

/-- The clusters a rectangle touches. -/
def rectClusters (v : Word) : List Nat :=
  (List.range (scY1 v / 2 + 1 - scY0 v / 2)).flatMap fun j =>
    (List.range (scX1 v / 4 + 1 - scX0 v / 4)).map fun i => (scY0 v / 2 + j) * 32 + (scX0 v / 4 + i)

/-- The width of a scope (R102): 0 self, 1 cluster, 2 die, 3 package, 4 system. -/
def State.scopeWidth (s : State) (v : Word) : Nat :=
  match scClass v with
  | 0 =>
    if scX0 v = scX1 v && scY0 v = scY1 v then 0
    else
      let cs := rectClusters v
      if cs.length ≤ 1 then 1
      else if cs.all fun c => s.dieOf c = s.dieOf (cs.headD 0) then 2 else 3
  | 1 => 0 | 2 => 1 | 3 => 2 | 4 => 3 | _ => 4

/-- Whether scope v at core `me` reaches logical core n of the partition (R99). -/
def State.reachesFrom (s : State) (me : Nat) (v : Word) (n : Nat) : Bool :=
  let inside := coreX n < s.sys.w && coreY n < s.sys.h
  match scClass v with
  | 0 => scX0 v ≤ coreX n && coreX n ≤ scX1 v && scY0 v ≤ coreY n && coreY n ≤ scY1 v
  | 1 => n = me
  | 2 => clusterOf n = clusterOf me
  | 3 => inside && s.dieOf (clusterOf n) = s.dieOf (clusterOf me)
  | _ => inside

/-- Step 12 of R207: a SCOPEX value at once; a scope word as soon as it can be read, since its value is what is checked.
Log entry 22 (DEDUCED). -/
def State.checkScope (s : State) (c : Ctx) (sc : Scope) : Res Unit :=
  match sc with
  | .short _ => .ok ()
  | .ext v => if s.scopeOk v then .ok () else ill .badScope c
  | .word x =>
    let readable := match x.name with
      | .w n => n.val < s.regs.wl && (s.cell (s.phys n.val)).isFull
      | _ => true
    if readable && !s.scopeOk (s.take x.name).1 then ill .badScope c else .ok ()

end Sys2Proof.Machine
end

