-- ==== Sys2Proof/Machine/Flags.lean ====
section
/-! DEFINITION. FPCTL: the dynamic mode, the sticky flags and FPX (R188 to R190); what a rounding instruction draws from (R191 to R193);
the integer comparisons and overflow-free arithmetic carry no flag (R218). -/
namespace Sys2Proof.Machine

/-- A rounding mode after DYN (R188). -/
def State.rmOf (s : State) (rm : Nat) : Nat := if rm = 7 then bits s.regs.fpctl 18 16 else rm

/-- The rounding of the instruction at c (R193): its site is its pc less CBASE in parcels. -/
def State.rnd (s : State) (c : Ctx) (rm : Nat) : Rnd :=
  { rm := s.rmOf rm, lnid := s.regs.lnid, seed := s.regs.seed, site := (c.pc - s.regs.cbase).toNat / 4 }

/-- The sticky flags (R189). -/
def State.flags (s : State) : FpFlags := BitVec.ofNat 6 (bits s.regs.fpctl 5 0)

/-- The trap enables (R189). -/
def State.enables (s : State) : FpFlags := BitVec.ofNat 6 (bits s.regs.fpctl 13 8)

/-- An instruction sets flags, or raises FPX when an enabled one is among them (R190). -/
def State.raise (s : State) (f : FpFlags) : Res State :=
  if f &&& s.enables ≠ 0 then .error (.trap cFPX (wd f.toNat))
  else .ok { s with regs := { s.regs with fpctl := setBits s.regs.fpctl 5 0 (s.flags ||| f).toNat } }

end Sys2Proof.Machine
end

