-- ==== Sys2Proof/Machine/Scalar.lean ====
section
/-! DEFINITION. Scalar integer, address, compare and predicate instructions (R215 to R224). -/
namespace Sys2Proof.Machine

/-! ### The operations on w-bit values (R218 to R220) -/

/-- X of R218: the low w bits, signed or unsigned by TYPE. -/
def tyVal (t : Ty) (x : Word) : Int := if t.signed then sextI x.toNat t.width else (zext x t.width : Int)

/-- The low w bits of a word, as a number. -/
def tyLow (t : Ty) (x : Word) : Nat := zext x t.width

/-- Truncating division (R219). -/
def divT (t : Ty) (x y : Int) : Int := if y = 0 then -1 else if t.signed && x = -(2 ^ (t.width - 1)) && y = -1 then x else Int.tdiv x y

/-- Remainder with the dividend's sign (R219). -/
def remT (x y : Int) : Int := if y = 0 then x else if y = -1 then 0 else Int.tmod x y

/-- Number of 1 bits among the low w (R218). -/
def popc (x : Nat) (w : Nat) : Nat := ((List.range w).filter fun i => x.testBit i).length

/-- Zero bits above the highest 1; w when there is none. -/
def clz (x : Nat) (w : Nat) : Nat := if x = 0 then w else w - 1 - Nat.log2 x

/-- Zero bits below the lowest 1; w when there is none. -/
def ctz (x : Nat) (w : Nat) : Nat := ((List.range w).takeWhile fun i => !x.testBit i).length

/-- Bits in reverse order. -/
def brev (x : Nat) (w : Nat) : Nat := (List.range w).foldl (fun r i => 2 * r + (x.testBit i).toNat) 0

/-- Bytes in reverse order. -/
def bswap (x : Nat) (w : Nat) : Nat := (List.range (w / 8)).foldl (fun r i => 256 * r + x / 256 ^ i % 256) 0

/-- Shift right with copies of bit w - 1 entering (R218). -/
def sraT (x k w : Nat) : Nat := modI (sextI x w / 2 ^ k) w

/-- Rotate right (R218). -/
def rotT (x k w : Nat) : Nat := (x / 2 ^ k + x * 2 ^ (w - k)) % 2 ^ w

/-- ABS (R218). -/
def absT (t : Ty) (x : Nat) : Nat := if t.signed then (sextI x t.width).natAbs else x % 2 ^ t.width

/-- The position, and the length shortened to the word, of a field spec (R220). -/
def fieldSpec (s : Word) : Nat × Nat := let pos := bits s 5 0; (pos, min (bits s 11 6 + 1) (64 - pos))

/-- EXT (R220). -/
def extField (t : Ty) (a s : Word) : Word :=
  let f := fieldSpec s
  let v := a.toNat / 2 ^ f.1 % 2 ^ f.2
  if t = .i64 then wdI (sextI v f.2) else wd v

/-- INS (R220). -/
def insField (d a s : Word) : Word := let f := fieldSpec s; setBits d (f.1 + f.2 - 1) f.1 (a.toNat % 2 ^ f.2)

/-- How MOV and SEL write a value under a TYPE (R221). -/
def moveAs (t : Ty) (x : Word) : Word := t.extend x.toNat

/-! ### Shared bodies -/

/-- The frame of R218 for two sources: `f` on the TYPE and the two words, its result written under R175. -/
def aluBody (f : Ty → Word → Word → Nat) (x : Alu) (c : Ctx) (s : State) : Res State := do
  s.prepare c (srcOpr x.a :: opndOpr x.b ++ [.dst x.d])
  let (a, s) := s.take x.a.name
  let (b, s) := s.takeOpnd x.b
  s.write x.d (x.t.extend (f x.t a b))

/-- The frame of R218 for one source. -/
def unBody (f : Ty → Word → Nat) (x : Un) (c : Ctx) (s : State) : Res State := do
  s.prepare c [srcOpr x.a, .dst x.d]
  let (a, s) := s.take x.a.name
  s.write x.d (x.t.extend (f x.t a))

/-- An integer result of R218 modulo 2^w. -/
def intOp (f : Int → Int → Int) (t : Ty) (a b : Word) : Nat := modI (f (tyVal t a) (tyVal t b)) t.width

/-- A bitwise result of R218. -/
def bitOp (f : Nat → Nat → Nat) (t : Ty) (a b : Word) : Nat := f (tyLow t a) (tyLow t b) % 2 ^ t.width

/-- A shift of R218: the amount is taken modulo w. -/
def shiftOp (f : Nat → Nat → Nat → Nat) (t : Ty) (a b : Word) : Nat :=
  f (tyLow t a) (tyLow t b % t.width) t.width % 2 ^ t.width

/-- Both elements of a comparison as their TYPE reads them; a flag may be set (R223). -/
def cmpBody (cc : Cc) (x : CmpArgs) (c : Ctx) (s : State) : Res State := do
  s.prepare c (srcOpr x.a :: opndOpr x.b)
  let (a, s) := s.take x.a.name
  let (b, s) := s.takeOpnd x.b
  let r := x.t.compare cc a.toNat b.toNat
  let s ← s.raise r.2
  s.writePred x.p r.1

/-- PAND and its kin (R224): all sources from one reading of w0 in mode 0, made only when one of them is not p0. -/
def predBody (d : Fin 16) (l : List (Fin 16)) (f : List Bool → Bool) (c : Ctx) (s : State) : Res State := do
  let read := l.any (· ≠ 0)
  s.prepare c (if read then [.preds] else [])
  let (w, s) := if read then s.takePhys (s.phys 0) else (0, s)
  s.writePred d (f (l.map fun p => p = 0 || bit w p.val))

/-! ### Majors 0x01 to 0x05 -/

/-- ADD: X + Y (R218). -/
def execAdd (g : Guard) (x : Alu) (s : State) : Out := run (.add g x) g (aluBody (intOp (· + ·)) x) s

/-- SUB: X - Y (R218). -/
def execSub (g : Guard) (x : Alu) (s : State) : Out := run (.sub g x) g (aluBody (intOp (· - ·)) x) s

/-- MUL: X * Y (R218). -/
def execMul (g : Guard) (x : Alu) (s : State) : Out := run (.mul g x) g (aluBody (intOp (· * ·)) x) s

/-- MULH: floor(X * Y / 2^w) (R218). -/
def execMulh (g : Guard) (x : Alu) (s : State) : Out :=
  run (.mulh g x) g (aluBody (fun t a b => modI (tyVal t a * tyVal t b / 2 ^ t.width) t.width) x) s

/-- DIV (R219). -/
def execDiv (g : Guard) (x : Alu) (s : State) : Out :=
  run (.div g x) g (aluBody (fun t a b => modI (divT t (tyVal t a) (tyVal t b)) t.width) x) s

/-- REM (R219). -/
def execRem (g : Guard) (x : Alu) (s : State) : Out := run (.rem g x) g (aluBody (intOp remT) x) s

/-- MIN (R218). -/
def execMin (g : Guard) (x : Alu) (s : State) : Out := run (.min g x) g (aluBody (intOp min) x) s

/-- MAX (R218). -/
def execMax (g : Guard) (x : Alu) (s : State) : Out := run (.max g x) g (aluBody (intOp max) x) s

/-- ABS (R218). -/
def execAbs (g : Guard) (x : Un) (s : State) : Out := run (.abs g x) g (unBody (fun t a => absT t a.toNat) x) s

/-- AND (R218). -/
def execAnd (g : Guard) (x : Alu) (s : State) : Out := run (.and g x) g (aluBody (bitOp (· &&& ·)) x) s

/-- OR (R218). -/
def execOr (g : Guard) (x : Alu) (s : State) : Out := run (.or g x) g (aluBody (bitOp (· ||| ·)) x) s

/-- XOR (R218). -/
def execXor (g : Guard) (x : Alu) (s : State) : Out := run (.xor g x) g (aluBody (bitOp (· ^^^ ·)) x) s

/-- ANDN: x & ~y (R218). -/
def execAndn (g : Guard) (x : Alu) (s : State) : Out := run (.andn g x) g (aluBody (bitOp fun a b => a ^^^ (a &&& b)) x) s

/-- SHL (R218). -/
def execShl (g : Guard) (x : Alu) (s : State) : Out := run (.shl g x) g (aluBody (shiftOp fun a k _ => a * 2 ^ k) x) s

/-- SHR (R218). -/
def execShr (g : Guard) (x : Alu) (s : State) : Out := run (.shr g x) g (aluBody (shiftOp fun a k _ => a / 2 ^ k) x) s

/-- SRA (R218). -/
def execSra (g : Guard) (x : Alu) (s : State) : Out := run (.sra g x) g (aluBody (shiftOp sraT) x) s

/-- ROT (R218). -/
def execRot (g : Guard) (x : Alu) (s : State) : Out := run (.rot g x) g (aluBody (shiftOp rotT) x) s

/-- CLZ (R218). -/
def execClz (g : Guard) (x : Un) (s : State) : Out := run (.clz g x) g (unBody (fun t a => clz (tyLow t a) t.width) x) s

/-- CTZ (R218). -/
def execCtz (g : Guard) (x : Un) (s : State) : Out := run (.ctz g x) g (unBody (fun t a => ctz (tyLow t a) t.width) x) s

/-- POPC (R218). -/
def execPopc (g : Guard) (x : Un) (s : State) : Out := run (.popc g x) g (unBody (fun t a => popc (tyLow t a) t.width) x) s

/-- BREV (R218). -/
def execBrev (g : Guard) (x : Un) (s : State) : Out := run (.brev g x) g (unBody (fun t a => brev (tyLow t a) t.width) x) s

/-- BSWAP (R218). -/
def execBswap (g : Guard) (x : Un) (s : State) : Out := run (.bswap g x) g (unBody (fun t a => bswap (tyLow t a) t.width) x) s

/-- EXT (R220). -/
def execExt (g : Guard) (x : Alu) (s : State) : Out :=
  run (.ext g x) g (aluBody (fun t a b => (extField t a b).toNat) x) s

/-- INS (R220): D is read in mode 0. -/
def execIns (g : Guard) (x : Alu) (s : State) : Out :=
  run (.ins g x) g (fun c s => do
    s.prepare c (srcOpr x.a :: opndOpr x.b ++ [.both x.d])
    let (a, s) := s.take x.a.name
    let (b, s) := s.takeOpnd x.b
    let (d, s) := s.take x.d
    s.write x.d (insField d a b)) s

/-- SEL (R221): both sources and the predicate are read. -/
def execSel (g : Guard) (x : SelArgs) (s : State) : Out :=
  run (.sel g x) g (fun c s => do
    s.prepare c ([srcOpr x.a, srcOpr x.b] ++ (if x.p = 0 then [] else [.preds]) ++ [.dst x.d])
    let (a, s) := s.take x.a.name
    let (b, s) := s.take x.b.name
    let (w, s) := if x.p = 0 then (0, s) else s.takePhys (s.phys 0)
    s.write x.d (moveAs x.t (if x.p = 0 || bit w x.p.val then a else b))) s

/-- MOV (R221). -/
def execMov (g : Guard) (x : MovArgs) (s : State) : Out :=
  run (.mov g x) g (fun c s => do
    s.prepare c (opndOpr x.v ++ [.dst x.d])
    let (v, s) := s.takeOpnd x.v
    s.write x.d (moveAs x.t v)) s

/-- LEA (R222). -/
def execLea (g : Guard) (x : LeaArgs) (s : State) : Out :=
  run (.lea g x) g (fun c s =>
    match x with
    | .idx t d a b => do
      s.prepare c [srcOpr a, srcOpr b, .dst d]
      let (p, s) := s.take a.name
      let (q, s) := s.take b.name
      s.write d (p + q * wd t.bytes)
    | .rel d v => do
      s.prepare c [.dst d]
      s.write d (c.pc + wdI v.val)) s

/-! ### Compare and predicate -/

/-- CMP.EQ (R223). -/
def execCmpEq (g : Guard) (x : CmpArgs) (s : State) : Out := run (.cmpEq g x) g (cmpBody .eq x) s

/-- CMP.NE (R223). -/
def execCmpNe (g : Guard) (x : CmpArgs) (s : State) : Out := run (.cmpNe g x) g (cmpBody .ne x) s

/-- CMP.LT (R223). -/
def execCmpLt (g : Guard) (x : CmpArgs) (s : State) : Out := run (.cmpLt g x) g (cmpBody .lt x) s

/-- CMP.LE (R223). -/
def execCmpLe (g : Guard) (x : CmpArgs) (s : State) : Out := run (.cmpLe g x) g (cmpBody .le x) s

/-- CMP.GT (R223). -/
def execCmpGt (g : Guard) (x : CmpArgs) (s : State) : Out := run (.cmpGt g x) g (cmpBody .gt x) s

/-- CMP.GE (R223). -/
def execCmpGe (g : Guard) (x : CmpArgs) (s : State) : Out := run (.cmpGe g x) g (cmpBody .ge x) s

/-- CMP.UN (R223). -/
def execCmpUn (g : Guard) (x : CmpArgs) (s : State) : Out := run (.cmpUn g x) g (cmpBody .un x) s

/-- PAND (R224). -/
def execPand (g : Guard) (x : PBin) (s : State) : Out := run (.pand g x) g (predBody x.d [x.a, x.b] fun l => l.all id) s

/-- POR (R224). -/
def execPor (g : Guard) (x : PBin) (s : State) : Out := run (.por g x) g (predBody x.d [x.a, x.b] fun l => l.any id) s

/-- PXOR (R224). -/
def execPxor (g : Guard) (x : PBin) (s : State) : Out := run (.pxor g x) g (predBody x.d [x.a, x.b] fun l => l.getD 0 false != l.getD 1 false) s

/-- PNOT (R224). -/
def execPnot (g : Guard) (x : PUn) (s : State) : Out := run (.pnot g x) g (predBody x.d [x.a] fun l => !l.getD 0 false) s

/-- PMOV (R224). -/
def execPmov (g : Guard) (x : PUn) (s : State) : Out := run (.pmov g x) g (predBody x.d [x.a] fun l => l.getD 0 false) s

end Sys2Proof.Machine
end

