-- ==== Sys2Proof/Machine/Control.lean ====
section
/-! DEFINITION. Control instructions and window instructions but WPUSH (R225 to R234, R236 to R238). -/
namespace Sys2Proof.Machine

/-- A target 4 * imm bytes from the instruction's first byte (R226). -/
def relTarget (c : Ctx) (v : Imm) : Word := c.pc + wdI (4 * v.val)

/-- A target held in a word (R226). -/
def regTarget (v : Word) : Word := v &&& ~~~3#64

/-- BR (R226). -/
def execBr (g : Guard) (off : Imm) (s : State) : Out :=
  run (.br g off) g (fun c s => .ok { s with pc := relTarget c off }) s

/-- The body of JMP and RET (R226). -/
def jumpBody (a : Src) (c : Ctx) (s : State) : Res State := do
  s.prepare c [srcOpr a]
  let (v, s) := s.take a.name
  .ok { s with pc := regTarget v }

/-- JMP (R226). -/
def execJmp (g : Guard) (a : Src) (s : State) : Out := run (.jmp g a) g (jumpBody a) s

/-- RET (R226). -/
def execRet (g : Guard) (a : Src) (s : State) : Out := run (.ret g a) g (jumpBody a) s

/-- CALL (R226): A is read before D is written. -/
def execCall (g : Guard) (x : CallArgs) (s : State) : Out :=
  run (.call g x) g (fun c s =>
    match x.t with
    | .rel v => do
      s.prepare c [.dst x.d]
      let s ← s.write x.d (c.pc + wd c.size)
      .ok { s with pc := relTarget c v }
    | .reg a => do
      s.prepare c [srcOpr a, .dst x.d]
      let (v, s) := s.take a.name
      let s ← s.write x.d (c.pc + wd c.size)
      .ok { s with pc := regTarget v }) s

/-- LOOP (R226): D is read in mode 0. -/
def execLoop (g : Guard) (x : LoopArgs) (s : State) : Out :=
  run (.loop g x) g (fun c s => do
    s.prepare c [.both x.d]
    let (v, s) := s.take x.d
    let n := v - 1
    let s ← s.write x.d n
    .ok (if n ≠ 0 then { s with pc := relTarget c x.off } else s)) s

/-- NOP (R225). -/
def execNop (l : Len) (s : State) : Out := run (.nop l) {} (fun _ s => .ok s) s

/-- BRK: BREAK at the BRK, which has no effect (R228). -/
def execBrk (g : Guard) (v : BitVec 13) (s : State) : Out :=
  run (.brk g v) g (fun _ _ => .error (.trap cBREAK (wd v.toNat))) s

/-! ### Windows -/

/-- QLIVE while any queue count is non-zero (R92). -/
def State.noQueues (s : State) (c : Ctx) : Res Unit := if s.queuesLive then ill .qlive c else .ok ()

/-- FRMODE: an instruction forerunner mode does not have (R167). -/
def State.noForerunner (s : State) (c : Ctx) : Res Unit := if s.forerunner then ill .frMode c else .ok ()

/-- Install a checked descriptor (R143). -/
def State.install (s : State) (d : Word) : Res State := do
  s.checkDesc d s.user
  .ok (s.setWindow (descBase d) (descLimit d))

/-- SETWIN (R231). -/
def execSetwin (g : Guard) (a : Src) (s : State) : Out :=
  run (.setwin g a) g (fun c s => do
    s.prepare c [srcOpr a] (s.noQueues c)
    let (d, s) := s.take a.name
    s.install d) s

/-- RDWIN (R232). -/
def execRdwin (g : Guard) (d : Name) (s : State) : Out :=
  run (.rdwin g d) g (fun c s => do
    s.prepare c [.dst d]
    s.write d (mkDesc s.regs.wb s.regs.wl (rpcOf (c.pc + 8) s.codeBase) false false (s.mode = 3))) s

/-- SWCTX: all of it, or a trap with nothing changed (R233). Log entry 32 (DEDUCED). -/
def execSwctx (g : Guard) (a : Src) (s : State) : Out :=
  run (.swctx g a) g (fun c s => do
    s.prepare c [srcOpr a] (do s.noQueues c; s.noForerunner c)
    let (w, s) := s.take a.name
    let save := bits w 12 0
    let load := bits w 28 16
    s.checkAbs save
    s.checkAbs load
    let (n, s) ← s.readPhys load
    s.checkDesc n s.user
    let s ← s.writePhys save (mkDesc s.regs.wb s.regs.wl (rpcOf (c.pc + 8) s.codeBase) false false false)
    .ok { s.setWindow (descBase n) (descLimit n) with pc := rpcAt s.codeBase (descRpc n) }) s

/-- WLD (R234). Log entry 24 (DEDUCED). -/
def execWld (g : Guard) (x : WIdx) (s : State) : Out :=
  run (.wld g x) g (fun c s => do
    s.prepare c [.src x.a false, .dst x.d]
    let (a, s) := s.take x.a
    let i := (a.toNat : Int) + x.off.toInt
    s.checkAbs i
    let (v, s) ← s.readPhys i.toNat
    s.write x.d v) s

/-- WST (R234): D is the source, in mode 0. Log entry 24 (DEDUCED). -/
def execWst (g : Guard) (x : WIdx) (s : State) : Out :=
  run (.wst g x) g (fun c s => do
    s.prepare c [.src x.a false, .src x.d false]
    let (a, s) := s.take x.a
    let (v, s) := s.take x.d
    let i := (a.toNat : Int) + x.off.toInt
    s.checkAbs i
    s.writePhys i.toNat v) s

/-- The operand field of a count, and its value (R236). -/
def countOprs : Count → List Opr
  | .word b => [srcOpr b]
  | .imm _ => []

def State.takeCount (s : State) : Count → Nat × State
  | .word b => let (v, s) := s.take b.name; (v.toNat, s)
  | .imm v => (v.toNat, s)

/-- The range of WSCRUB and WDRAIN, checked and waited for (R236). -/
def State.drainRange (s : State) (x : WRange) (c : Ctx) : Res (Nat × Nat × State) := do
  s.prepare c (srcOpr x.a :: countOprs x.c)
  let (a, s) := s.take x.a.name
  let (n, s) := s.takeCount x.c
  s.checkAbs a.toNat n
  match (List.range n).find? fun k => s.bound (a.toNat + k) with
  | some k => .error (.wait (.binding (a.toNat + k)))
  | none => .ok (a.toNat, n, s)

/-- Write 0 to n words from p on, each full. -/
def State.scrub (s : State) (p n : Nat) : State := (List.range n).foldl (fun s k => s.setCell (p + k) (.full 0)) s

/-- WSCRUB (R236). -/
def execWscrub (g : Guard) (x : WRange) (s : State) : Out :=
  run (.wscrub g x) g (fun c s => do
    let (p, n, s) ← s.drainRange x c
    .ok (s.scrub p n)) s

/-- WDRAIN (R236). -/
def execWdrain (g : Guard) (x : WRange) (s : State) : Out :=
  run (.wdrain g x) g (fun c s => do
    let (_, _, s) ← s.drainRange x c
    .ok s) s

/-- SETUTW (R237). -/
def execSetutw (g : Guard) (a : Src) (s : State) : Out :=
  run (.setutw g a) g (fun c s => do
    s.prepare c [srcOpr a]
    let (d, s) := s.take a.name
    s.checkDesc d s.user
    .ok { s with regs := { s.regs with utwin := mkDesc (descBase d) (descLimit d) (descRpc d) false false false } }) s

/-- A descriptor with QHELD belongs to the core that saved it (R153): this one holds queue entries then, and QLIVE is raised where it
holds none. -/
def State.queuesHeld (s : State) (c : Ctx) (d : Word) : Res Unit := if bit d 25 && !s.queuesLive then ill .qlive c else .ok ()

/-- WRET: PRIV unless MODE is 1 (R238, R153). Log entry 23 (DEDUCED). -/
def execWret (g : Guard) (s : State) : Out :=
  runEnd (.wret g) g (fun c s => need (s.mode = 1) cPRIV (privInfo 0 c.parcel)) (fun c s => do
    s.checkDesc s.regs.utsave true
    s.queuesHeld c s.regs.utsave
    .ok (.completed (s.returnTo s.regs.utsave 0 s.regs.cbase))) s

end Sys2Proof.Machine
end

