-- ==== Sys2Proof/Machine/Blocks.lean ====
section
/-! DEFINITION. Described blocks (R181 to R184), the block sum of the matrix unit (R185, R186), compressed blocks (R295), slates (R374), and
the output blocks of MST (R195, R300). -/
namespace Sys2Proof

/-- Groups of R182: 0 Integer, 1 FP8, 2 FP4, 3 L6, 4 Half. -/
def Ty.group : Ty → Nat
  | .i8 | .n8 => 0
  | .e4m3 | .e5m2 => 1
  | .e2m1 => 2
  | .l6 => 3
  | _ => 4

/-- The format of a code (R182). -/
def blkTy (code : Nat) : Option Ty :=
  match code with
  | 0x01 => some .i8 | 0x02 => some .n8 | 0x10 => some .e4m3 | 0x11 => some .e5m2
  | 0x12 => some .e2m1 | 0x13 => some .l6 | 0x14 => some .b16 | 0x15 => some .f16
  | _ => none

/-- The code of a format (R182). -/
def Ty.blkCode : Ty → Nat
  | .i8 => 0x01 | .n8 => 0x02 | .e4m3 => 0x10 | .e5m2 => 0x11 | .e2m1 => 0x12 | .l6 => 0x13 | .b16 => 0x14 | _ => 0x15

/-- Elements of a block (R182). -/
def Ty.blkLen (t : Ty) : Nat := 496 / t.width

/-- A described block: format, scale, element codes. -/
structure Blk where
  t : Ty
  scale : Nat
  raw : List Nat
  deriving DecidableEq, Repr

namespace Machine

/-- A block from its 64 bytes (R181): none where its code is no format's (R183, CODE). -/
def blkOf (bs : List Byte) : Option Blk :=
  (blkTy (bs.headD 0).toNat).map fun t =>
    let p := ofBytes (bs.drop 2)
    { t := t, scale := (bs.getD 1 0).toNat, raw := (List.range t.blkLen).map fun k => p / 2 ^ (t.width * k) % 2 ^ t.width }

/-- A block's bytes. -/
def blkBytes (t : Ty) (scale : Nat) (els : List Nat) : List Byte :=
  let p := (els.foldr (fun x a => x % 2 ^ t.width + 2 ^ t.width * a) 0)
  [BitVec.ofNat 8 t.blkCode, BitVec.ofNat 8 scale] ++ toBytes p 62

/-- The exact product of two values: infinity times zero is NaN (R185). -/
def numTimes (x y : Num) : Num :=
  if x.isNan || y.isNan then .nan false
  else if (x.isInf && y.isZero) || (x.isZero && y.isInf) then .nan false
  else match x, y with
    | .fin a m e, .fin b n f => .fin (a != b) (m * n) (e + f)
    | _, _ => .inf (x.sign != y.sign)

/-- val(a, k) * val(b, k) (R185; L6 by R180). -/
def elemTimes (ta tb : Ty) (x y : Nat) : Num := if ta = .l6 then l6Product x y else numTimes (ta.decode x) (tb.decode y)

/-- One product on the grid 2^g, toward zero: its multiple of 2^g. -/
def onGrid (g : Int) : Num → Int
  | .fin n m e => sInt n (if g ≤ e then m * 2 ^ (e - g).toNat else m / 2 ^ (g - e).toNat)
  | _ => 0

/-- The exponent of a non-zero product. -/
def numLog : Num → Option Int
  | .fin _ m e => if m = 0 then none else some (log2e m e)
  | _ => none

/-- The sum of a block's products (R185): none where the accumulator stays untouched. -/
def blockTotal (ps : List Num) : Option Num :=
  if ps.any Num.isNan || (ps.contains (.inf false) && ps.contains (.inf true)) then some (.nan false)
  else match ps.find? Num.isInf with
    | some p => some p
    | none => match ps.filterMap numLog with
      | [] => none
      | l :: ls =>
        let g := ls.foldl max l - 60
        let t := (ps.map (onGrid g)).foldl (· + ·) 0
        if t = 0 then none else some (.fin (t < 0) t.natAbs g)

/-- A value times 2^(scale - 127); NaN where the scale is 255 (R181, R185). -/
def scaled (x : Num) (scale : Nat) : Num :=
  if scale = 255 then .nan false
  else match x with
    | .fin n m e => .fin n m (e + scale - 127)
    | y => y

/-- Rounding to nearest even, with nothing drawn. -/
def nearest : Rnd := ⟨0, 0, 0, 0⟩

/-- A value as the FP32 nearest to it (R185, R374). -/
def toF32 : Num → Nat
  | .nan _ => Ty.f32.canonNan
  | .inf n => Ty.f32.infinity n
  | .fin n m e => (Ty.f32.round .plain 0 0 n m e).1

/-- acc_f32 of R186. -/
def accF32 (r : Rnd) (e old : Nat) (x : Nat) : Nat := (Ty.f32.fadd r e (Ty.f32.decode old) (Ty.f32.decode x)).1

/-- acc_int of R186: the sum, and whether .SAT clipped it. -/
def accInt (sat : Bool) (old : Nat) (s : Int) : Nat × Bool :=
  let t := sextI old 32 + s
  if sat && t < -(2 ^ 31) then (modI (-(2 ^ 31)) 32, true)
  else if sat && 2 ^ 31 - 1 < t then (2 ^ 31 - 1, true)
  else (modI t 32, false)

/-- The end of block_sum (R185): an accumulator after the products of one block pair under the forms .F, .I, .SAT. -/
def blockAdd (acc : Acc) (r : Rnd) (e old sa sb : Nat) (ps : List Num) : Nat × Bool :=
  match blockTotal ps with
  | none => (old, false)
  | some t =>
    match acc with
    | .f => (accF32 r e old (toF32 (scaled (scaled t sa) sb)), false)
    | .i => accInt false old (onGrid 0 t)
    | .sat => accInt true old (onGrid 0 t)

/-- Whether an element is dropped by THR, and its magnitude (R294): compared exactly; a NaN on either side drops nothing.
Log entry 35 (DEDUCED). -/
def dropped (thr : Nat) (t : Ty) (scale x : Nat) : Option (Nat × Int) :=
  match scaled (t.decode x) scale, Ty.f32.decode (thr % 2 ^ 31) with
  | .fin _ m e, .fin _ n f => if magLe n f m e then none else some (m, e)
  | .fin _ m e, .inf _ => some (m, e)
  | _, _ => none

/-! ### Compressed blocks (R295) -/

/-- A defect of a metadata block: SPARSE's DETAIL. Log entry 33 (DEDUCED). -/
def sparseDefect (g n : Nat) (fields : List Nat) : Option Nat :=
  let half := g / 2
  let one (gi : Nat) : Option Nat :=
    let fs := (fields.drop (gi * half)).take half
    let size := if 2 * n < (gi + 1) * g then 2 * n - gi * g else g
    if (fs.zip fs.tail).any fun p => p.2 ≤ p.1 then some 1
    else if fs.any fun p => size ≤ p then some 2 else none
  (List.range ((2 * n + g - 1) / g)).findSome? one

/-- The logical positions of the n stored elements, or the defect. -/
def sparsePositions (g n : Nat) (bs : List Byte) : Except Nat (List Nat) :=
  let p := if g = 4 then 2 else 3
  let x := ofBytes bs
  let fields := (List.range n).map fun e => x / 2 ^ (p * e) % 2 ^ p
  match sparseDefect g n fields with
  | some d => .error d
  | none => .ok ((List.range n).map fun e => e / (g / 2) * g + fields.getD e 0)

/-! ### Slates (R374) -/

/-- The sum of values, exact: NaN where one is, or where infinities of both signs meet. -/
def exactSum (vs : List Num) : Num :=
  if vs.any Num.isNan || (vs.contains (.inf false) && vs.contains (.inf true)) then .nan false
  else match vs.find? Num.isInf with
    | some v => v
    | none =>
      let g := (vs.map fun v => match v with
        | .fin _ _ e => e
        | _ => 0).foldl min 0
      let t := (vs.map (onGrid g)).foldl (· + ·) 0
      .fin (t < 0) t.natAbs g

def numAbs : Num → Num
  | .fin _ m e => .fin false m e
  | .inf _ => .inf false
  | v => v

/-- The pair of a block, S low and A high, over its first `live` elements. The scale is consulted where an element is not zero. -/
def slatePair (b : Blk) (live : Nat) : Word :=
  let vs := (b.raw.take live).map b.t.decode
  if vs.all Num.isZero then 0
  else
    let s := toF32 (scaled (exactSum vs) b.scale)
    let a := toF32 (scaled (exactSum (vs.map numAbs)) b.scale)
    let s := if (exactSum vs).isZero && b.scale ≠ 255 then 0 else s
    BitVec.ofNat 64 (s + a * 2 ^ 32)

/-- The exact difference of two FP32 values in units of 2^-149; none where it is not finite. -/
def f32Gap (x y : Nat) : Option Nat :=
  match Ty.f32.decode x, Ty.f32.decode y with
  | .fin a m e, .fin b n f => some (onGrid (-149) (.fin a m e) - onGrid (-149) (.fin b n f)).natAbs
  | _, _ => none

/-- Conditions 3 and 4 of R375 over pairs of a new and a reference slate: exact. -/
def slateNear (theta : Nat) (pairs : List (Word × Word)) : Bool :=
  let gaps := pairs.flatMap fun p => [f32Gap (bits p.1 31 0) (bits p.2 31 0), f32Gap (bits p.1 63 32) (bits p.2 63 32)]
  let top := (pairs.map fun p => (onGrid (-149) (Ty.f32.decode (bits p.2 63 32))).toNat).foldl max 0
  let delta := (gaps.map fun g => g.getD 0).foldl max 0
  gaps.all Option.isSome && decide (delta * 2 ^ 149 < (onGrid (-149) (Ty.f32.decode theta)).toNat * max top (2 ^ 125))

/-! ### Output of MST (R195, R300) -/

/-- Census events of an output: NAN, INF, SAT, UF (R417). -/
structure Events where
  nan : Nat := 0
  inf : Nat := 0
  sat : Nat := 0
  uf : Nat := 0
  deriving DecidableEq, Repr

def Events.plus (a b : Events) : Events := ⟨a.nan + b.nan, a.inf + b.inf, a.sat + b.sat, a.uf + b.uf⟩

/-- The events of one converted element: its source, its code and the flags of its conversion. Log entry 35 (DEDUCED). -/
def elemEvents (t : Ty) (src : Num) (code : Nat) (f : FpFlags) : Events :=
  let v := if t.isInt then src else t.decode code
  let low := if t = .l6 then code % 32 = 0 else code % 2 ^ (t.width - 1) < 2 ^ t.fmt.fbits
  { nan := if v.isNan then 1 else 0, inf := if v.isInf then 1 else 0, sat := if f &&& fSAT ≠ 0 then 1 else 0
    uf := if !t.isInt && !src.isZero && f &&& fNX ≠ 0 && low then 1 else 0 }

/-- emax of R195. -/
def Ty.emax : Ty → Int
  | .e4m3 => 8 | .e5m2 => 15 | .e2m1 => 2 | .l6 => 3 | .f16 => 15 | _ => 127

/-- An output block of values, element i of which has index e0 + i (R195). One with no finite value has the scale of a largest magnitude of 0,
which R195 does not give. Log entry 59 (DESIGN CHOICE). One with a NaN counts all its outputs as NaN. Log entry 35 (DEDUCED). -/
def mstBlock (t : Ty) (r : Rnd) (e0 : Nat) (vs : List Num) : List Byte × Events :=
  let conv (sc : Nat) : List Byte × Events :=
    let xs := (vs.zip (List.range vs.length)).map fun p =>
      let v := match p.1 with
        | .fin n m e => Num.fin n m (e - sc + 127)
        | y => y
      let x := t.convert .plain r.rm (r.draw (e0 + p.2)) v
      (x.1, elemEvents t p.1 x.1 x.2)
    (blkBytes t sc (xs.map (·.1)), (xs.map (·.2)).foldl Events.plus {})
  if t.isInt then conv 127
  else if vs.any Num.isNan then (blkBytes t 255 [], { nan := vs.length })
  else
    match vs.filterMap numLog with
    | [] => conv 127
    | l :: ls => conv (min 254 (ls.foldl max l - Ty.emax t + 127).toNat)

/-- A row of 32 tile elements as MST writes it (R300). Log entry 35 (DEDUCED). -/
def mstRow (t : Ty) (r : Rnd) (row : Nat) (els : List Nat) : List Byte × Events :=
  let f := els.map Ty.f32.decode
  let i := els.map Ty.i32.decode
  let each (s : Nat) (vs : List Num) : List Byte × Events :=
    let xs := vs.map fun v => let x := t.convert .plain 0 0 v; (x.1, elemEvents t v x.1 x.2)
    (xs.flatMap fun x => toBytes x.1 s, (xs.map (·.2)).foldl Events.plus {})
  let e0 := row * 32
  match t with
  | .f32 => (els.flatMap fun x => toBytes x 4, (els.map fun x => elemEvents .f32 (.fin false 0 0) x 0).foldl Events.plus {})
  | .f64 => each 8 f
  | .f16 | .b16 =>
    let a := mstBlock t r e0 (f.take 31)
    let b := mstBlock t r (e0 + 31) (f.drop 31)
    (a.1 ++ b.1, a.2.plus b.2)
  | .i8 | .n8 => mstBlock t r e0 i
  | .e4m3 | .e5m2 | .e2m1 | .l6 => mstBlock t r e0 f
  | _ => each t.bytes i

end Machine
end Sys2Proof
end

