-- ==== Sys2Proof/Machine/Recall.lean ====
section
/-! DEFINITION. What leaves a cache, and what bytes are seen where: the region tables (R83, R85, R116, R119), recalls and purges (R20,
R50, R111), and the issuing die's view of bytes and of losses (R50, R135, R136). -/
namespace Sys2Proof.Machine

/-- Whether a memory key is homed on a die or device other than the issuing core's (R36). -/
def State.isRemote (s : State) (key : Nat) : Bool := key / 2 ^ 48 ≠ s.regs.devnum || key / 2 ^ 38 % 2 ^ 10 ≠ s.die

/-! ### The region tables (R83, R85) -/

/-- The die whose region table holds a line's masks: its home's, and for a local store this die's (R83, R116). -/
def State.tableOf (s : State) (line : Nat) : Nat := if 2 ^ 60 ≤ line then s.regs.devnum * 2 ^ 10 + s.die else line / 2 ^ 38

/-- Whether a run belongs to a region, and holds a line. -/
def TabRun.ofRegion (r q : TabRun) : Bool := r.id = q.id && r.agent = q.agent && r.device = q.device && r.core = q.core && r.own = q.own
def TabRun.has (r : TabRun) (line : Nat) : Bool := r.line ≤ line && line < r.line + 128 * r.n

/-- A run of the core's own region. -/
def State.ownRun (s : State) (line : Nat) : TabRun := ⟨0, .core, s.regs.devnum, s.core.number, true, line, 1⟩

/-- Lines that runs hold. -/
def tableSize (t : List TabRun) : Nat := (t.map TabRun.n).foldl (· + ·) 0

/-- A run enters its die's table of 65,536 lines (R83); none where the table is full, so that it waits for an entry (R85, R119).
Log entry 38 (DEDUCED). -/
def State.enterTable (s : State) (die : Nat) (r : TabRun) : Option State :=
  let t := mget [] s.mem.tables die
  if 65536 < tableSize t + r.n then none else some { s with mem := { s.mem with tables := mput [] s.mem.tables die (t ++ [r]) } }

/-- A run enters a table unless its region has the line there. -/
def State.enterOnce (s : State) (r : TabRun) : Option State :=
  let die := s.tableOf r.line
  if (mget [] s.mem.tables die).any fun q => r.ofRegion q && q.has r.line then some s else s.enterTable die r

/-- The masks of lines of one region enter the tables of their homes; else the die whose table is full. Log entry 38 (DEDUCED). -/
def State.enterLines (s : State) (run : Nat → TabRun) : List Nat → Except Nat State
  | [] => .ok s
  | l :: ls => match s.enterOnce (run l) with
    | some s => s.enterLines run ls
    | none => .error (s.tableOf l)

/-- The masks of a line that leaves the L1 move to the table (R83); where that is full, a boundary is due instead. Log entry 38 (DEDUCED). -/
def State.moveMasks (s : State) (line : Nat) : State :=
  if s.core.region.lines.contains line then
    match s.enterOnce (s.ownRun line) with
    | some s => s
    | none => { s with core := { s.core with tableHit := true } }
  else s

/-! ### Recalls -/

/-- A line leaves the L1: its masks move, and its dirty bytes merge into the home L2's copy; a remote line's are dirty in the RDC already
(R50, R83). -/
def State.leaveL1 (s : State) (v : Line) : State :=
  let s := (s.dropLine .l1 v.line).moveMasks v.line
  if v.dirty = 0 || s.isRemote v.line then s
  else s.updLine .l2 v.line fun l => { l with held := l.held ||| sectorsOf v.dirty, dirty := l.dirty ||| sectorsOf v.dirty }

/-- The L1 copy of a line is recalled, if there is one. -/
def State.recallL1 (s : State) (line : Nat) : State :=
  match s.lineAt .l1 line with
  | some v => s.leaveL1 v
  | none => s

/-- L1 copies of a range whose home is this die are recalled (R50). -/
def State.recallRange (s : State) (key n : Nat) : State := if s.isRemote key then s else (linesOf key n).foldl State.recallL1 s

/-- The RDC's bytes of a line go, dirty ones home (R48, R50, R51). Log entry 51 (DEDUCED). -/
def State.dropRdcLine (s : State) (line : Nat) : State :=
  let s := s.sendHome line
  let rdc := s.mem.rdc.filter fun x => x.1 / 128 * 128 ≠ line
  { s with mem := { s.mem with rdc := rdc, rdcLost := keepRdcLost rdc s.mem.rdcLost } }

/-- A line's copies in the die's L1s and RDC go home and are invalidated (R20, R111, R247). -/
def State.purge (s : State) (line : Nat) : State := ((s.recallL1 line).dropRdcLine line).dropLine .rdc line

def State.purgeRange (s : State) (key n : Nat) : State := (linesOf key n).foldl State.purge s

/-! ### Bytes and losses as they are seen -/

/-- Whether the link to a key's home is down (R136). Log entry 43 (DEDUCED). -/
def State.cutOff (s : State) (key : Nat) : Bool := key < 2 ^ 60 && s.sys.linksDown.contains (key / 2 ^ 38)

/-- A byte as the issuing die sees it: the RDC's copy where it has one (R50). Log entry 51 (DEDUCED). -/
def State.viewByte (s : State) (key : Nat) : Byte :=
  match mfind s.mem.rdc key with
  | some b => b.v
  | none => mget 0 s.mem.bytes key

/-- Bytes as the issuing die sees them. -/
def State.view (s : State) (key n : Nat) : List Byte := (List.range n).map fun j => s.viewByte (key + j)

/-- The first byte of a range that is lost at its home, or that no link reaches (R135, R136). -/
def State.homeLost (s : State) (key n : Nat) : Option Nat :=
  (List.range n).find? fun j => s.isLost (key + j) || s.cutOff (key + j)

/-- The core's L1 holds a byte sound whose sector is lost below it (R133, R135). Log entry 44 (DEDUCED). -/
def State.soundInL1 (s : State) (key : Nat) : Bool :=
  match s.lineAt .l1 (key / 128 * 128) with
  | some l => l.sound.testBit (key % 128)
  | none => false

/-- The first byte of a range that is lost as the issuing die sees it (R135, R136): where the RDC has the byte, its sector is lost there; an
access through the core's L1 is served by what that holds sound. Log entry 44 (DEDUCED). -/
def State.firstLost (s : State) (key n : Nat) (l1 : Bool := false) : Option Nat :=
  (List.range n).find? fun j =>
    let k := key + j
    !(l1 && s.soundInL1 k) && (match mfind s.mem.rdc k with
      | some _ => s.mem.rdcLost.contains (lossUnit k)
      | none => s.isLost k || s.cutOff k)

end Sys2Proof.Machine
end

