-- ==== Sys2Proof/Machine/Translate.lean ====
section
/-! DEFINITION. From virtual addresses to places (R12 to R39, R410): the walk, permissions, memory types, homing, apertures, pulling. -/
namespace Sys2Proof.Machine

/-- The kind of an access (R32); `any` is that of FLUSH, which needs only V (R247), and is reported as a read. -/
inductive Kind where
  | read | write | exec | atomic | any
  deriving DecidableEq, Repr

/-- KIND of TINFO (R32). -/
def Kind.code : Kind → Nat
  | .read | .any => 0
  | .write => 1
  | .exec => 2
  | .atomic => 3

/-- Whether a kind writes. -/
def Kind.writes : Kind → Bool
  | .write | .atomic => true
  | _ => false

/-- The TLBs an agent translates through (R26): the core's micro-TLB before its cluster's, the matrix unit's before the cluster's, the TLB
of cluster n alone, or none but the walkers of die n. -/
inductive Via where
  | core | mu
  | cluster (n : Nat)
  | die (n : Nat)
  deriving DecidableEq, Repr

/-- Who translates (R22): ASID, mode, whether a device page is out of the access's reach (R19, R251, R253), through which TLBs, and the core
whose local store the own-store aperture means, if not this one (R38). -/
structure Who where
  asid : Nat
  sup : Bool
  noDev : Bool := false
  via : Via := .core
  own : Option Nat := none
  deriving DecidableEq, Repr

/-- The core itself. -/
def State.who (s : State) (noDev : Bool := false) : Who := { asid := s.regs.asid, sup := s.sup, noDev := noDev }

/-- Why a translation gives no place: a fault with its cause, DETAIL and LEVEL, or an absent page that must be pulled (R410). -/
inductive Miss where
  | fault (cause detail level : Nat)
  | absent (page : Nat)
  deriving DecidableEq, Repr

/-- What a place is. -/
inductive Where where
  | memory | store | unit | host
  deriving DecidableEq, Repr

/-- Where a byte lies: what, its key (a memory key, a local-store key, or an offset), memory type, reuse class, level of the leaf, OPR,
whether the issuing die does not home it, the core of a local store, and whether the neighbour aperture leads there. -/
structure Loc where
  what : Where
  key : Nat
  mt : Nat := 0
  rc : Nat := 0
  level : Nat := 3
  opr : Bool := false
  remote : Bool := false
  core : Nat := 0
  neighbour : Bool := false
  deriving DecidableEq, Repr

/-! ### Physical addresses and homing (R33 to R36) -/

/-- The key of a byte of core n's local store. -/
def storeKey (n off : Nat) : Nat := 2 ^ 60 + n * 2 ^ 19 + off

/-- Whether a local address lies in a memory slot (R34), and in its homed part. -/
def inSlot (loc : Nat) : Bool := loc < 2 ^ 40
/-- Log entry 13 (DESIGN CHOICE). -/
def homedPart (loc : Nat) : Bool := loc < 2 ^ 40 && loc / 2 ^ 30 % 256 < 192

/-- Whether a local address lies in the unit register space, or the host window (R34). -/
def inUnits (loc : Nat) : Bool := 0x010000000000 ≤ loc && loc < 0x010100000000
def inHost (loc : Nat) : Bool := 0x020000000000 ≤ loc && loc < 0x030000000000

/-- The entry of the bank table in force for a local address (R45). Log entry 13 (DESIGN CHOICE). -/
def State.bankEntry (s : State) (loc : Nat) : Word := mget 0 s.mem.bankTab (loc / 2 ^ 38 % 4 * 192 + loc / 2 ^ 30 % 256)

/-- The memory key of a physical address in a memory slot, if it is homed (R35, R36): own memory by die and physical bank, another
device's by its address. -/
def State.memKey (s : State) (pa : Nat) : Option Nat :=
  let dev := pa / 2 ^ 48 % 256
  let loc := pa % 2 ^ 48
  if dev = 255 || !homedPart loc then none
  else if dev ≠ s.regs.devnum then some (pa % 2 ^ 56)
  else
    let e := s.bankEntry loc
    if bit e 63 then some (dev * 2 ^ 48 + bits e 9 8 * 2 ^ 38 + bits e 7 0 * 2 ^ 30 + loc % 2 ^ 30) else none

/-- The code of a page in the pull map of the running virtual device (R410): 0 where nothing is pulled. -/
def State.pullCode (s : State) (loc : Nat) : Nat :=
  let ctl := (mget {} s.sys.vds s.sys.vd).pullctl
  if !bit ctl 63 || !inSlot loc then 0
  else
    let idx := (loc / 2 ^ 38 % 4 * 192 + loc / 2 ^ 30 % 256) * 16384 + loc % 2 ^ 30 / 65536
    match s.memKey (bits ctl 55 12 * 2 ^ 12 + idx / 4) with
    | some k => (mget 0 s.mem.bytes k).toNat / 4 ^ (idx % 4) % 4
    | none => 0

/-- The code of the page of a physical address: only this device's memory is pulled (R410). -/
def State.pageCode (s : State) (pa : Nat) : Nat := if pa / 2 ^ 48 % 256 = s.regs.devnum then s.pullCode (pa % 2 ^ 48) else 0

/-! ### The walk (R14 to R18, R23, R24) -/

/-- A leaf found: entry, its level, first address and size of its page, key of the entry. -/
structure Leaf where
  pte : Word
  level : Nat
  va : Nat
  size : Nat
  key : Nat
  deriving DecidableEq, Repr

/-- The physical address an address has under a leaf (R14). -/
def Leaf.pa (l : Leaf) (va : Word) : Nat := bits l.pte 55 16 * 2 ^ 16 / l.size * l.size + va.toNat % l.size

/-- Eight bytes at a physical address as the walkers of a die read them, with their key: those of the issuing die see what its RDC holds, so
that no older value is left once a TLBI has emptied the caches of R26 (R29); lost, or beyond a link that is down, they fault (R135, R136),
and an absent page is pulled first (R410, R411).
Log entry 5 (DESIGN CHOICE). -/
def State.readEntry (s : State) (die pa level : Nat) : Except Miss (Word × Nat) :=
  match s.memKey pa with
  | none => .error (.fault cPAGE 5 level)
  | some k =>
    let (bs, lost) := if die = s.die then (s.view k 8, s.firstLost k 8) else (s.homeBytes k 8, s.homeLost k 8)
    match s.pageCode pa with
    | 0 => if lost.isSome then .error (.fault cMEMLOST 0 3) else .ok (wordOf bs, k)
    | 1 => .error (.absent (pa % 2 ^ 48 / 65536))
    | _ => .error (.fault cMEMLOST 0 3)

/-- Whether an address lies in a memory slot of this device (R18, R24). -/
def State.ownSlot (s : State) (pa : Nat) : Bool := pa / 2 ^ 48 = s.regs.devnum && inSlot (pa % 2 ^ 48)

/-- The key of the TLB of the core's own cluster, and of the die whose walkers an agent uses (R26). -/
def State.viaCluster (s : State) : Via → Option Nat
  | .core | .mu => some (clusterOf s.core.number)
  | .cluster n => some n
  | .die _ => none
def State.viaDie (s : State) : Via → Nat
  | .core | .mu => s.die
  | .cluster n => s.dieOf n
  | .die n => n

/-- The k-th choice of a list at address a: an element, or none for the choice of doing without (R29). -/
def State.pickHeld {α : Type} (s : State) (a : Nat) (l : List α) : Option α :=
  match l with
  | [] => none
  | _ => l[Config.useHeld s.ticks a % (l.length + 1)]?

/-! Fields of an entry (R17). -/

def pteRd (e : Word) : Bool := bit e 1
def pteWr (e : Word) : Bool := bit e 2
def pteEx (e : Word) : Bool := bit e 3
def pteUs (e : Word) : Bool := bit e 4
def pteMt (e : Word) : Nat := bits e 9 8

/-- An entry that is a leaf at a level (R17). -/
def isLeaf (e : Word) (level : Nat) : Bool := level = 2 || pteRd e || pteWr e || pteEx e

/-- An entry above a leaf as the walker takes it: a value the walk cache still holds, or a fresh read, as the free choice has it
(R26, R29). The walk cache tags an entry with the first address and size of what it maps. Log entry 5 (DESIGN CHOICE). -/
def State.walkEntry (s : State) (w : Who) (pa level va size : Nat) : Except Miss (Word × Nat) :=
  match s.pickHeld pa ((mget [] s.mem.walkCache (s.viaDie w.via)).filter fun e =>
      e.part = s.regs.partid && e.asid = w.asid && e.pa = pa && e.va = va && e.size = size && !isLeaf e.entry level) with
  | some e => .ok (e.entry, (s.memKey pa).getD 0)
  | none => s.readEntry (s.viaDie w.via) pa level

/-- The top table of a half (R15, R23, R24), with what the walk cache then holds. V = 0 comes first. Log entry 39 (DEDUCED). The LEVEL of a
root entry at an unhomed address, which R32 does not give, is 3. Log entry 56 (DESIGN CHOICE). -/
def State.topTable (s : State) (w : Who) (supHalf : Bool) : Except Miss (Nat × List WalkEntry) := do
  let pa := bits s.regs.asidtab 55 19 * 2 ^ 19 + 8 * w.asid
  let e ← if supHalf then .ok s.regs.sroot else (s.walkEntry w pa 3 0 (2 ^ 55)).map (·.1)
  if !bit e 0 then .error (.fault cPAGE 4 3)
  else if bits e 63 56 ≠ 0 || bits e 16 1 ≠ 0 || !s.ownSlot (bits e 55 17 * 2 ^ 17) then .error (.fault cPAGE 3 3)
  else .ok (bits e 55 17 * 2 ^ 17, if supHalf then [] else [⟨s.regs.partid, w.asid, pa, 0, 2 ^ 55, e⟩])

/-- A malformed entry (R17, R18). Log entry 39 (DEDUCED). -/
def State.badEntry (s : State) (e : Word) (level : Nat) : Bool :=
  bits e 59 56 ≠ 0 || bits e 15 14 ≠ 0
  || (if isLeaf e level then
      pteMt e = 3 || (pteWr e && !pteRd e) || (bit e 13 && pteWr e)
      || (level = 0 && bits e 41 16 ≠ 0) || (level = 1 && bits e 28 16 ≠ 0)
      || (level = 2 && !pteRd e && !pteWr e && !pteEx e)
    else bits e 13 4 ≠ 0 || !s.ownSlot (bits e 55 16 * 2 ^ 16))

/-- First address bit of the page a leaf of a level maps (R14). -/
def pageShift (level : Nat) : Nat :=
  match level with
  | 0 => 42 | 1 => 29 | _ => 16

/-- The walk from a table of a level; `fuel` is the number of levels left. Beside the leaf, the entries above it that were read.
Log entry 39 (DEDUCED). -/
def State.walkFrom (s : State) (w : Who) (va : Word) : Nat → Nat → Nat → Except Miss (Leaf × List WalkEntry)
  | 0, _, _ => .error (.fault cPAGE 3 2)
  | fuel + 1, level, table => do
    let idx := bits va (if level = 0 then 55 else if level = 1 then 41 else 28) (pageShift level)
    let size := 2 ^ pageShift level
    let lo := va.toNat / size * size
    let pa := table + 8 * idx
    let (e, k) ← s.walkEntry w pa level lo size
    if !bit e 0 then .error (.fault cPAGE 2 level)
    else if s.badEntry e level then .error (.fault cPAGE 3 level)
    else if isLeaf e level then .ok ({ pte := e, level := level, va := lo, size := size, key := k }, [])
    else do
      let (l, es) ← s.walkFrom w va fuel (level + 1) (bits e 55 16 * 2 ^ 16)
      .ok (l, ⟨s.regs.partid, w.asid, pa, lo, size, e⟩ :: es)

/-- Whether a TLB entry serves an address (R23, R25): it bears the partition, and the ASID unless its leaf is global. -/
def State.tlbServes (s : State) (w : Who) (va : Word) (e : TlbEntry) : Bool :=
  e.part = s.regs.partid && (e.global || e.asid = w.asid) && e.va ≤ va.toNat && va.toNat < e.va + e.size

/-- The entries that an agent's TLBs hold for an address: its own TLB's, then its cluster's (R26). -/
def State.tlbHits (s : State) (w : Who) (va : Word) : List TlbEntry :=
  ((match w.via with
    | .core => s.core.tlb
    | .mu => s.core.muTlb
    | _ => []) ++ (match s.viaCluster w.via with
    | some c => mget [] s.mem.clusterTlb c
    | none => [])).filter (s.tlbServes w va)

/-- A leaf as an agent has found it: from a TLB, or by a walk with the entries read above it. -/
structure LeafFound where
  leaf : Leaf
  walked : Bool := false
  path : List WalkEntry := []
  deriving DecidableEq, Repr

/-- The leaf of an address: one that a TLB holds and that permits the access, or that of a walk, as the free choice has it (R21, R26, R29).
Log entry 5 (DESIGN CHOICE). -/
def State.leafOf (s : State) (w : Who) (k : Kind) (va : Word) : Except Miss LeafFound :=
  match s.pickHeld va.toNat ((s.tlbHits w va).filter fun e => !(k.writes && !bit e.leaf 7)) with
  | some e => .ok { leaf := { pte := e.leaf, level := e.level, va := e.va, size := e.size, key := 0 } }
  | none => do
    let (t, root) ← s.topTable w (bit va 55)
    let (l, es) ← s.walkFrom w va 3 0 t
    .ok { leaf := l, walked := true, path := root ++ es }

/-- The permission checks of R19, in order: the DETAIL of the first that fails. -/
def permFault (w : Who) (k : Kind) (e : Word) (pa : Nat) : Option Nat :=
  if k = .any then none
  else if !w.sup && !pteUs e then some 4
  else if w.sup && k = .exec && pteUs e then some 3
  else if k = .read && !pteRd e then some 1
  else if k = .write && !pteWr e then some 2
  else if k = .atomic && (!pteRd e || !pteWr e) then some 2
  else if k = .exec && (!pteEx e || pteMt e = 2) then some 3
  else if pteMt e = 2 && w.noDev then some 5
  else if pteMt e < 2 && inUnits (pa % 2 ^ 48) then some 5
  else none

/-- Where a physical address leads, for a leaf (R35); another device's bank must let this one in (R436). -/
def State.place (s : State) (pa : Nat) (l : Leaf) : Except Miss Loc :=
  let dev := pa / 2 ^ 48 % 256
  let loc := pa % 2 ^ 48
  let base : Loc := { what := .memory, key := 0, mt := pteMt l.pte, rc := bits l.pte 12 10, level := l.level, opr := bit l.pte 13 }
  if dev = s.regs.devnum && inUnits loc then .ok { base with what := .unit, key := loc }
  else if dev = s.regs.devnum && inHost loc then .ok { base with what := .host, key := loc - 0x020000000000 }
  else if dev ≠ s.regs.devnum && !s.mem.admitted.contains (pa % 2 ^ 56 / 2 ^ 30) then .error (.fault cPAGE 5 l.level)
  else match s.memKey pa with
    | some k => .ok { base with key := k, remote := s.isRemote k }
    | none => .error (.fault cPAGE 5 l.level)

/-- An address of the aperture region (R37). -/
def inAperture (va : Word) : Bool := bits va 63 42 = 0x1FFF

/-- The place of an address of the aperture region (R37 to R39). A fetch from it raises EXEC with LEVEL 3, after APERTURE and before LSOWN,
which R38 does not order; the own-store aperture of an I/O request, a collective record or a launch, of which R38 does not speak, is that of
this core. Log entry 56 (DESIGN CHOICE). -/
def State.aperture (s : State) (w : Who) (k : Kind) (va : Word) : Except Miss Loc :=
  let off := bits va 41 0
  let me := w.own.getD s.core.number
  let own : Loc := { what := .store, key := storeKey me off, core := me }
  let exec := if k = .exec then .error (.fault cPROT 3 3) else .ok ()
  if off < 2 ^ 19 then do exec; .ok own
  else
    let n := (off - 2 ^ 40) / 2 ^ 19
    if off < 2 ^ 40 || 5120 ≤ n || s.sys.w ≤ coreX n || s.sys.h ≤ coreY n then .error (.fault cPAGE 6 3)
    else do
      exec
      let o := if n = s.core.number then s.regs.lsown else mget 0 s.mem.lsownPeers n
      if bit o 16 || bits o 15 0 = w.asid then .ok { own with key := storeKey n (off % 2 ^ 19), core := n, neighbour := true } else .error (.fault cPROT 6 3)

/-- An element comes first in a cache of n; what no longer fits goes. -/
def holdFirst {α : Type} [DecidableEq α] (n : Nat) (x : α) (l : List α) : List α := (x :: l.filter (· ≠ x)).take n

/-- An entry enters an agent's own TLB, of 64 or 256 entries, and after a walk its cluster's, of 2,048 (R26). An older value of the
same page stays until it is pushed out or invalidated (R29). Log entry 5 (DESIGN CHOICE). -/
def State.holdLeaf (s : State) (w : Who) (walked : Bool) (t : TlbEntry) : State :=
  let s := match w.via with
    | .core => { s with core := { s.core with tlb := holdFirst 64 t s.core.tlb } }
    | .mu => { s with core := { s.core with muTlb := holdFirst 256 t s.core.muTlb } }
    | _ => s
  match s.viaCluster w.via with
  | some c => if walked then
      { s with mem := { s.mem with clusterTlb := mput [] s.mem.clusterTlb c (holdFirst 2048 t (mget [] s.mem.clusterTlb c)) } }
    else s
  | none => s

/-- The entries above a leaf enter the walk cache of the die, of 1,024 (R26). -/
def State.holdPath (s : State) (w : Who) (es : List WalkEntry) : State :=
  let d := s.viaDie w.via
  let l := es.foldl (fun l e => holdFirst 1024 e l) (mget [] s.mem.walkCache d)
  { s with mem := { s.mem with walkCache := mput [] s.mem.walkCache d l } }

/-- The issuing die's copies of an entry's line go home before the atomic OR of system scope that a walker performs there (R21, R50, R111,
R112): those of its own die's RDC, of its L1s alone for a walker of another die. -/
def State.entryHome (s : State) (w : Who) (key : Nat) : State :=
  if s.viaDie w.via = s.die then s.purge (key / 128 * 128) else s.recallRange key 8

/-- The walker's OR of AC, and of DT for a write, at the entry's home (R21), and what the TLBs and the walk cache then hold (R25, R26).
Log entry 5 (DESIGN CHOICE). -/
def State.noteLeaf (s : State) (w : Who) (k : Kind) (f : LeafFound) : State :=
  let l := f.leaf
  if !f.walked then s.holdLeaf w false ⟨s.regs.partid, w.asid, l.va, l.size, l.pte, l.level, bit l.pte 5⟩
  else
    let e := l.pte ||| 0x40 ||| (if k.writes then 0x80 else 0)
    let s := if e = l.pte then s else (s.entryHome w l.key).writeHome l.key (toBytes e.toNat 8)
    (s.holdPath w f.path).holdLeaf w true ⟨s.regs.partid, w.asid, l.va, l.size, e, l.level, bit e 5⟩

/-- translate of R214 for the bytes from va on within one 64 KiB page. -/
def State.translate (s : State) (w : Who) (k : Kind) (va : Word) : Except Miss (Loc × State) :=
  let top := bits va 63 55
  if top ≠ 0 && top ≠ 0x1FF then .error (.fault cPAGE 1 3)
  else if bit va 55 && !w.sup then .error (.fault cPROT 4 3)
  else if inAperture va then (s.aperture w k va).map fun l => (l, s)
  else do
    let f ← s.leafOf w k va
    let l := f.leaf
    let pa := l.pa va
    match permFault w k l.pte pa with
    | some d => .error (.fault cPROT d l.level)
    | none =>
      let p ← s.place pa l
      match p.what, s.pageCode pa with
      | .memory, 0 => .ok (p, s.noteLeaf w k f)
      | .memory, 1 => .error (.absent (pa % 2 ^ 48 / 65536))
      | .memory, _ => .error (.fault cMEMLOST 0 3)
      | _, _ => .ok (p, s.noteLeaf w k f)

/-- A piece of an access: where its first byte lies, its offset in the access, its length, its first address. -/
structure Piece where
  loc : Loc
  off : Nat
  len : Nat
  va : Word := 0
  deriving DecidableEq, Repr

/-- Translate n bytes from va, page by page (R32, R241): the pieces in address order, or the first fault with its address. `fuel` bounds
the number of pages. -/
def State.translateAll (s : State) (w : Who) (k : Kind) (va : Word) (off n : Nat) :
    Nat → Except (Miss × Word) (List Piece × State)
  | 0 => .ok ([], s)
  | fuel + 1 =>
    if n = 0 then .ok ([], s)
    else
      let a := va + wd off
      let len := min n (65536 - a.toNat % 65536)
      match s.translate w k a with
      | .error e => .error (e, a)
      | .ok (l, s) =>
        match s.translateAll w k va (off + len) (n - len) fuel with
        | .error e => .error e
        | .ok (ps, s) => .ok ({ loc := l, off := off, len := len, va := a } :: ps, s)

/-- Pages n bytes can touch. -/
def pagesOf (n : Nat) : Nat := n / 65536 + 2

end Sys2Proof.Machine
end

