-- ==== Sys2Proof/Machine/Cache.lean ====
section
/-! DEFINITION. Next-use replacement (R48 to R69) and the region tables (R83, R85): what the accesses of this core and of its engines do
to the lines they bring into the caches. Values live in memory and in the RDC's bytes; the other levels hold which bytes of a line they
have and which are dirty. -/
namespace Sys2Proof.Machine

/-! ### Stamps and victims -/

/-- Stamping by an access with a NUD (R58). Log entry 53 (DEDUCED). -/
def State.stamp (s : State) (nud cls : Nat) (l : Line) : Line :=
  let l := { l with recency := s.mem.clock, cls := cls }
  if nud = 0 then { l with z := true, e := false, stamp := s.unitTime }
  else
    let level := if l.lv = .l1 then 0 else (mget {} s.mem.police (policeKey l.lv l.set cls)).level
    let d := if nud = 15 then 2 ^ s.regs.unkdist else 2 ^ (nud + 4)
    let d := min (d * 4 ^ level) (2 ^ 20)
    { l with z := false, e := false, stamp := (s.cyc + d) / 64 % 65536 }

/-- Lexicographic order on lists of numbers. -/
def lexLt : List Nat → List Nat → Bool
  | a :: as, b :: bs => a < b || (a = b && lexLt as bs)
  | _, _ => false

/-- A line's place in the victim order but for quotas (R62): smaller goes first. Log entry 53 (DEDUCED). -/
def Line.rank (l : Line) (t : Nat) : List Nat :=
  (if l.z then [1, if l.e then 0 else 1, if l.e then 0 else 65536 - l.age t]
    else if l.expired t then [3, if l.e then 0 else 1, if l.e then 0 else l.ahead t]
    else [4, 0, 65536 - l.ahead t]) ++ [l.recency, l.way]

/-- The quota of a reuse class (R64). -/
def State.quota (s : State) (cls : Nat) : Nat := min 16 (bits s.regs.cpquota (5 * (cls % 8) + 4) (5 * (cls % 8)))

/-- Whether a line is over its class's quota in its set (R64). -/
def State.overQuota (s : State) (set : List Line) (l : Line) : Bool :=
  let mine := set.filter fun x => x.cls = l.cls
  let before := (mine.filter fun x => !x.z && lexLt (x.rank s.unitTime) (l.rank s.unitTime)).length
  !l.z && before + s.quota l.cls < mine.length

/-- The victim order with quotas (R62, R64); strict partitions have no rank 2 (R68). Log entry 53 (DEDUCED). -/
def State.victimRank (s : State) (set : List Line) (l : Line) : List Nat :=
  let r := l.rank s.unitTime
  if l.lv ≠ .l1 && !bit s.regs.cpways 63 && s.overQuota set l then 2 :: r else r

/-- The least of a list by a rank. -/
def leastBy {α : Type} (rank : α → List Nat) : List α → Option α
  | [] => none
  | x :: xs => match leastBy rank xs with
    | none => some x
    | some y => if lexLt (rank y) (rank x) then some y else some x

/-- The ways the partition may fill (R68). -/
def State.mayFill (s : State) (lv : Lv) (way : Nat) : Bool :=
  if lv = .l1 || !bit s.regs.cpways 63 then true
  else bit s.regs.cpways (way + match lv with
    | .msc => 32 | .rdc => 16 | _ => 0)

/-- Evict a line (R50, R58, R61): E and its count; the L1 copy above recalled and merged, by the home L2 of this die and by the RDC; the
dirty sectors written back with stamp and Z. -/
def State.evict (s : State) (v : Line) : State :=
  let due := v.dueE s.unitTime
  let s := if due then s.countBroken v else s
  let s := if due then s.updLine v.lv v.line fun l => { l with e := true } else s
  match v.lv with
  | .l1 => s.leaveL1 v
  | .msc => ((s.reachHbm v.line v.dirty).dropLine .msc v.line).uncover v.line v.held
  | .l2 =>
    let s := if s.isRemote v.line then s else s.recallL1 v.line
    match s.lineAt .l2 v.line with
    | some l => ((if l.dirty = 0 then s else s.receive l l.dirty).dropLine .l2 v.line).uncover v.line l.held
    | none => s
  | .rdc => ((s.recallL1 v.line).dropRdcLine v.line).dropLine .rdc v.line

/-- The bytes of a line that a level holds. -/
def State.heldAt (s : State) (l : Line) : Nat := if l.lv = .rdc then s.rdcMask l.line fun _ => true else l.held

/-- An access touches a line at a level (R58 to R65): `need` are the bytes it needs there, `put` those it leaves there dirty. A hit stamps
the line again and counts as kept where nothing is missing; a miss fills it over the victim, with the sectors needed. Answers what had to
be fetched, and whether the line was there. Log entry 53 (DEDUCED). -/
def State.touch (s : State) (lv : Lv) (line nud cls need put : Nat) (demand : Bool) : State × Nat × Bool :=
  let s := { s with mem := { s.mem with clock := s.mem.clock + 1 } }
  match s.lineAt lv line with
  | some l =>
    let fetch := sectorsOf (lacking need (s.heldAt l))
    let s := if demand && fetch = 0 && !l.z && !l.expired s.unitTime then s.countKept l else s
    let s := if l.dueE s.unitTime then s.countBroken l else s
    let n := s.stamp nud cls { l with
      held := l.held ||| fetch ||| put, dirty := l.dirty ||| put, sound := lacking l.sound fetch ||| (put &&& sectorsOf l.sound) }
    (s.updLine lv line fun _ => n, fetch, true)
  | none =>
    let fetch := sectorsOf need
    let set := s.mem.lines.filter fun l => l.lv = lv && l.set = setOf lv line
    let ways := (List.range lv.ways).filter fun w => s.mayFill lv w
    let place (s : State) (w : Nat) : State :=
      let n := s.stamp nud cls ⟨lv, setOf lv line, w, line, 0, false, false, 0, cls, fetch ||| put, put, 0⟩
      { s with mem := { s.mem with lines := n :: s.mem.lines } }
    match ways.find? fun w => set.all fun l => l.way ≠ w with
    | some w => (place s w, fetch, false)
    | none => match leastBy (s.victimRank set) (set.filter fun l => ways.contains l.way) with
      | some v => (place (s.evict v) v.way, fetch, false)
      | none => (s, fetch, false)

/-- Whether a level holds a line or has a way for it (R68). -/
def State.canHold (s : State) (lv : Lv) (line : Nat) : Bool :=
  (s.lineAt lv line).isSome || (List.range lv.ways).any (s.mayFill lv)

/-- A line at its home L2, and below it where the home lacks anything (R49). -/
def State.touchHome (s : State) (line nud cls need put : Nat) (demand : Bool) : State :=
  let (s, fetch, there) := s.touch .l2 line nud cls need (sectorsOf put) demand
  if there && fetch = 0 then s
  else (s.touch .msc line nud cls fetch (if (s.lineAt .l2 line).isSome then 0 else sectorsOf put) demand).1

/-- A line at the shared levels, from the RDC or the home L2 down (R49, R51): the RDC keeps single bytes, so a write needs none there. One
that the RDC can hold in no way is reached at its home (R68). -/
def State.touchShared (s : State) (l : Loc) (nud cls need put : Nat) (demand : Bool) : State :=
  let line := l.key / 128 * 128
  if l.remote && s.canHold .rdc line then
    let (s, fetch, there) := s.touch .rdc line nud cls need 0 demand
    if there && fetch = 0 then s else s.touchHome line nud cls fetch 0 demand
  else s.touchHome line nud cls (need ||| put) put demand

/-- The class tag of an access (R58). -/
def State.classTag (s : State) (l : Loc) : Nat := s.regs.partid * 8 + l.rc

/-- The level of the die that includes the L1's copy of a line (R50). -/
def Loc.below (l : Loc) : Lv := if l.remote then .rdc else .l2

/-- An access of the core to a cached line (R49, R58): `need` bytes read, `put` bytes written; an L1 miss is counted (R420). A line that the
level below can hold in no way has no copy in the L1 (R50, R68). -/
def State.touchCore (s : State) (l : Loc) (nud need put : Nat) (demand : Bool := true) : State :=
  let line := l.key / 128 * 128
  if (s.lineAt .l1 line).isNone && !s.canHold l.below line then (s.count 3 1).touchShared l nud (s.classTag l) need put demand
  else
    let (s, fetch, there) := s.touch .l1 line nud (s.classTag l) need put demand
    if there && fetch = 0 then s
    else (s.count 3 1).touchShared l nud (s.classTag l) (if l.remote || there then fetch else fetch ||| sectorsOf put) 0 demand

/-- CPSTAT (R67): the highest level of each class at the slices of each shared level. -/
def State.cpstat (s : State) : Word :=
  let top (lv : Nat) (rc : Nat) : Nat := s.mem.police.foldl (fun m x =>
    if x.1 / 2 ^ 60 = lv && x.1 % 256 = s.regs.partid * 8 + rc then max m x.2.level else m) 0
  let field (lv : Nat) : Nat := (List.range 8).foldl (fun a rc => a + fld (top lv rc) (2 * rc)) 0
  wd (field 1 + fld (field 2) 16 + fld (field 3) 32)

/-- What other harts of the die evicted from the RDC before this access (R62). Log entry 11 (DESIGN CHOICE). -/
def State.otherEvictions (s : State) : State :=
  if s.mem.rdc = [] then s
  else
    let k := Config.otherHarts s.ticks
    match s.mem.lines.filter fun l => l.lv = .rdc with
    | [] => s
    | l :: ls => match k with
      | 0 => s
      | j + 1 => s.evict ((l :: ls).getD (j % (ls.length + 1)) l)

end Sys2Proof.Machine
end

