-- ==== Sys2Proof/Machine/Access.lean ====
section
/-! DEFINITION. Accesses: region conflicts (R76 to R86, R116, R117), reading and writing through the RDC (R20, R50, R112 to R115), lost
units (R135), and the accesses of the core and of engines. -/
namespace Sys2Proof.Machine

/-! ### Conflicts and regions -/

/-- The least key of [key, key + len) that lies in one of the ranges. -/
def overlap (rs : List Rng) (key len : Nat) : Option Nat :=
  rs.foldl (fun m r =>
    let k := max key r.lo
    if k < key + len && k < r.lo + r.len then (match m with
      | some j => some (min j k)
      | none => some k) else m) none

/-- The bytes of a region that an access conflicts with (R77, R79): a write meets reads and writes, a read meets writes, and two
synchronising accesses never conflict. -/
def Masks.against (m : Masks) (wr sync : Bool) : List Rng :=
  m.writes ++ (if wr then m.reads else []) ++ (if sync then [] else m.syncWrites ++ (if wr then m.syncReads else []))

/-- The least key at which an access meets a region. -/
def Masks.meets (m : Masks) (wr sync : Bool) (key len : Nat) : Option Nat := overlap (m.against wr sync) key len

/-- Whether a piece takes part in conflict detection (R76, R124). -/
def Piece.tracked (p : Piece) : Bool := (p.loc.what = .memory && p.loc.mt < 2) || p.loc.what = .store

/-- The first piece, in address order, that meets one of some live regions: offset in the access and the region's party (R77, R79). Of
parties met at the same byte the one entered earliest is named, since R80 does not say which. Log entry 57 (DESIGN CHOICE). -/
def conflictIn (others : List Other) (ps : List Piece) (wr sync : Bool) : Option (Nat × Other) :=
  ps.findSome? fun p =>
    if !p.tracked then none
    else
      let hits := others.filterMap fun o => (o.masks.meets wr sync p.loc.key p.len).map fun k => (p.off + (k - p.loc.key), o)
      hits.foldl (fun m h => match m with
        | none => some h
        | some x => if h.1 < x.1 then some h else some x) none

/-- The conflict of an access of the core. Log entry 38 (DEDUCED). -/
def State.conflict (s : State) (ps : List Piece) (wr sync : Bool) : Option (Nat × Other) := conflictIn s.mem.others ps wr sync

/-- The code of an agent in MMXWHO (R80). -/
def Agent.code : Agent → Nat
  | .core => 0 | .mu => 1 | .ce => 2 | .gather => 3 | .systemCore => 4 | .io => 5 | .collective => 6 | .host => 7

/-- DETAIL of an MMX against a party (R80). -/
def Other.detail (o : Other) : Nat := if o.own then 2 else if o.agent = .core then 1 else 3

/-- MMXWHO for a party (R80). -/
def Other.who (o : Other) : Word := wd (fld 1 63 + fld o.agent.code 59 + fld (o.device % 256) 16 + o.core % 8192)

/-- The MMX of an access of kind k that meets a party at offset off (R80): MMXWHO is written, and the event counted (R420).
Log entry 38 (DEDUCED). -/
def State.mmx (s : State) (k : Kind) (va : Word) (off : Nat) (o : Other) : Stop :=
  .trapIn (({ s with regs := { s.regs with mmxwho := o.who } }).count 5 1) cMMX (memInfo k.code 3 o.detail (va + wd off))

/-- A mask grows by an access (R79, R83). -/
def Masks.add (m : Masks) (rs : List Rng) (rd wr sync : Bool) : Masks :=
  match sync with
  | false => { m with reads := if rd then m.reads ++ rs else m.reads, writes := if wr then m.writes ++ rs else m.writes }
  | true => { m with syncReads := if rd then m.syncReads ++ rs else m.syncReads
                     syncWrites := if wr then m.syncWrites ++ rs else m.syncWrites }

/-- The ranges of pieces that are tracked. -/
def trackedRngs (ps : List Piece) : List Rng := (ps.filter Piece.tracked).map fun (p : Piece) => ⟨p.loc.key, p.len⟩

/-- Whether an access's masks go to the region table at once: it allocates in no L1, or its line is forwarded to another home (R83, R116). -/
def Piece.direct (p : Piece) (noL1 : Bool) : Bool := noL1 || p.loc.what = .store || p.loc.mt ≠ 0 || p.loc.remote

/-- The lines of tracked pieces, once each. -/
def trackedLines (ps : List Piece) : List Nat := ((ps.filter Piece.tracked).flatMap fun p => linesOf p.loc.key p.len).eraseDups

/-- The access's masks enter the core's region, and the region table where they are kept there; the 513th line forces a boundary first
(R83, R84, R86); an entry of a full table is waited for (R85, R119). -/
def State.record (s : State) (ps : List Piece) (rd wr : Bool) (sync noL1 : Bool := false) : Res State :=
  let lines := trackedLines ps
  let fresh (s : State) : List Nat := lines.filter fun l => !s.core.region.lines.contains l
  let s := if 512 < s.core.region.lines.length + (fresh s).length then
      let s := s.boundary
      { s with regs := { s.regs with impbnd := bump s.regs.impbnd 0 } }
    else s
  let r := s.core.region
  let r : Region := { masks := r.masks.add (trackedRngs ps) rd wr sync, lines := r.lines ++ fresh s }
  let s := { s with core := { s.core with region := r } }
  match s.enterLines s.ownRun (trackedLines (ps.filter fun p => p.direct noL1)) with
  | .ok s => .ok s
  | .error die => .error (.wait (.table die))

/-- Several accesses in order, each with its masks (R76, R84). -/
def State.recordEach (s : State) (rd wr sync : Bool) : List (List Piece) → Res State
  | [] => .ok s
  | ps :: l => do
    let s ← s.record ps rd wr sync
    s.recordEach rd wr sync l

/-- The part of a piece in a line. -/
def Piece.inLine (p : Piece) (line : Nat) : Piece :=
  let lo := max line p.loc.key
  { p with loc := { p.loc with key := lo }, off := p.off + (lo - p.loc.key), len := min (line + 128) (p.loc.key + p.len) - lo
           va := p.va + wd (lo - p.loc.key) }

/-- The accesses that a load or store of n bytes makes: a vector's lanes are one each (R76), none of which crosses a line (R244). -/
def accessesOf (n : Nat) (ps : List Piece) : List (List Piece) :=
  if n = 256 then ps.flatMap fun p => (linesOf p.loc.key p.len).map fun l => [p.inLine l] else [ps]

/-! ### The RDC (R50, R51, R112 to R115) -/

/-- Fetch the sectors of a line that the RDC lacks of `need`, where it holds the line: home bytes merge under the bytes it has, and a
sector lost at home is lost here (R51, R135). Log entry 51 (DEDUCED). -/
def State.fetchRdc (s : State) (line need : Nat) : State :=
  if (s.lineAt .rdc line).isNone || s.cutOff line then s
  else
    let fetch := sectorsOf (lacking need (s.rdcMask line fun _ => true))
    let add (m : SMap RdcByte) (j : Nat) : SMap RdcByte :=
      if fetch.testBit j && mfind m (line + j) = none then mset m (line + j) (some ⟨mget 0 s.mem.bytes (line + j), false⟩) else m
    let lost (m : List Nat) (k : Nat) : List Nat :=
      if fetch.testBit (32 * k) && s.mem.lost.contains (line + 32 * k) then addLoss m (line + 32 * k) else m
    if fetch = 0 then s
    else { s with mem := { s.mem with rdc := (List.range 128).foldl add s.mem.rdc, rdcLost := (List.range 4).foldl lost s.mem.rdcLost } }

/-- Bytes are stored into a line that the RDC holds (R50, R51): a sector that one write covers whole is lost no longer there; one that it
covers in part is, where its home has lost it and the RDC had not all of it (R135). -/
def State.putRdc (s : State) (line key : Nat) (bs : List Byte) (dirty : Bool := true) : State :=
  let n := bs.length
  let held := s.rdcMask line fun _ => true
  let sector (m : List Nat) (k : Nat) : List Nat :=
    let u := line + 32 * k
    if key ≤ u && u + 32 ≤ key + n then m.filter (· ≠ u)
    else if maskIn line key n / 2 ^ (32 * k) % 2 ^ 32 ≠ 0 && s.mem.lost.contains u && held / 2 ^ (32 * k) % 2 ^ 32 ≠ 2 ^ 32 - 1 then addLoss m u
    else m
  { s with
    core := { s.core with mail := keepMail s.core.mail key n }
    mem := { s.mem with
      rdcLost := (List.range 4).foldl sector s.mem.rdcLost
      rdc := (List.range n).foldl (fun m j => mset m (key + j) (some (RdcByte.mk (bs.getD j 0) dirty))) s.mem.rdc
      stale := keepStale s.mem.stale s.viewByte key n } }

/-! ### Performing (R241) -/

/-- How an access reaches memory (R49): through the core's L1, from the issuing die's shared levels down, or from another die. -/
inductive Route where
  | l1 | die | far
  deriving DecidableEq, Repr

/-- Bytes of a line that the RDC serves are fetched into it (R51). -/
def State.fetchMaybe (s : State) (l : Loc) (need : Nat) : State := if l.remote then s.fetchRdc l.key need else s

/-- What an access does to the caches before it reads or writes n bytes at a key, `need` of a line read and `put` of it written: an uncached
one brings the issuing die's copies home (R20), another stamps the lines of its levels (R49, R58) and brings what it needs into the RDC,
whole sectors for a miss of the L1 (R51), and one that does not go through the L1 recalls what it writes. -/
def State.reach (s : State) (l : Loc) (n nud : Nat) (route : Route) (rd wr whole : Bool) : State :=
  let touch (s : State) (line : Nat) : State :=
    let m := maskIn line l.key n
    let l := { l with key := line }
    let need := if whole then allBytes else if rd then m else 0
    let put := if wr then m else 0
    match route with
    | .l1 =>
      let held := match s.lineAt .l1 line with
        | some x => x.held
        | none => 0
      let need' := if lacking need held = 0 then need else sectorsOf need
      s.touchCore l nud need put |>.fetchMaybe l need'
    | .die => ((if wr then s.recallL1 line else s).touchShared l nud (s.classTag l) need put true).fetchMaybe l need
    | .far => (if wr && !l.remote then s.recallL1 line else s).touchHome line nud (s.classTag l) (need ||| put) put true
  if l.mt = 0 then (linesOf l.key n).foldl touch s
  else match route with
    | .far => if l.remote then s else (linesOf l.key n).foldl State.recallL1 s
    | _ => s.purgeRange l.key n

/-- Read the bytes of a piece: the bytes, and the offset of the first lost one; `whole` fetches every missing sector of each line (R51).
Log entry 50 (DESIGN CHOICE). -/
def State.readPiece (s : State) (p : Piece) (nud : Nat) (route : Route := .l1) (whole : Bool := false) : List Byte × Option Nat × State :=
  match p.loc.what with
  | .memory =>
    let s := if p.loc.remote then s.otherEvictions else s
    let s := s.reach p.loc p.len nud route true false whole
    match route with
    | .far => (s.homeBytes p.loc.key p.len, s.homeLost p.loc.key p.len, s)
    | _ => (s.view p.loc.key p.len, s.firstLost p.loc.key p.len (route = .l1), s)
  | .store => (s.homeBytes p.loc.key p.len, s.homeLost p.loc.key p.len, s)
  | .host => ((List.range p.len).map fun j => Config.openByte s.ticks (p.off + j), none, s.post (.hostLoad p.loc.key p.len))
  | .unit => ((List.range p.len).map fun j => Config.openByte s.ticks (p.off + j), none, s)

/-- Bytes written at their home by the core, or an engine. Over a link that is down they are not written, and the hart's next release of width
system fails; what those of another die held is kept, for a link that goes down while they are on their way (R136).
Log entry 43 (DEDUCED). -/
def State.writeOver (s : State) (va : Word) (key : Nat) (bs : List Byte) (hart : Option EngHart := none) : State :=
  if s.cutOff key then s.failWrite va hart
  else if s.isRemote key then
    let lost := s.mem.lost.filter fun u => key < u + 32 && u < key + bs.length
    { s with core := { s.core with
        overLink := (OverLink.mk va key (s.homeBytes key bs.length) lost hart :: s.core.overLink).take 96 } }.writeHome key bs
  else s.writeHome key bs

/-- Write bytes to a piece: into the RDC where it holds the line, else at their home; `rmw` where the same access has read them.
Log entry 50 (DESIGN CHOICE). -/
def State.writePiece (s : State) (p : Piece) (bs : List Byte) (nud : Nat) (route : Route := .l1) (rmw : Bool := false)
    (hart : Option EngHart := none) : State :=
  match p.loc.what with
  | .memory =>
    let s := if p.loc.remote then s.otherEvictions else s
    let s := s.reach p.loc p.len nud route rmw true false
    let put (s : State) (line : Nat) : State :=
      let lo := max line p.loc.key
      let bs := (bs.drop (lo - p.loc.key)).take (line + 128 - lo)
      if p.loc.remote && p.loc.mt = 0 && route ≠ .far && (s.lineAt .rdc line).isSome then s.putRdc line lo bs
      else s.writeOver (p.va + wd (lo - p.loc.key)) lo bs hart
    (linesOf p.loc.key p.len).foldl put s
  | .store => s.writeHome p.loc.key bs
  | .host => s.post (.hostWindow p.loc.key bs)
  | .unit => s

/-- Read all pieces: bytes in address order, and the offset of the first lost byte. -/
def State.readPieces (s : State) (nud : Nat) (route : Route) (whole : Bool := false) : List Piece → List Byte × Option Nat × State
  | [] => ([], none, s)
  | p :: ps =>
    let (bs, l, s) := s.readPiece p nud route whole
    let (cs, m, s) := s.readPieces nud route whole ps
    (bs ++ cs, (match l with
      | some j => some (p.off + j)
      | none => m), s)

/-- Write all pieces, each its part of the bytes. -/
def State.writePieces (s : State) (ps : List Piece) (bs : List Byte) (nud : Nat) (route : Route := .l1) (hart : Option EngHart := none) :
    State :=
  ps.foldl (fun s p => s.writePiece p ((bs.drop p.off).take p.len) nud route false hart) s

/-! ### The core's accesses -/

/-- The stop of a translation that gives no place: a precise trap (R28, R32), or the wait for an absent page, whose pull begins (R410). -/
def State.missStop (s : State) (k : Kind) : Miss × Word → Stop
  | (.fault c d l, va) => .trap c (memInfo k.code l d va)
  | (.absent page, _) =>
    .waitIn (s.pullFor s.taskLnid page) .room

/-- An optimistic handler in MODE 0 or 1 (R356). -/
def State.optimistic (s : State) : Bool := s.opt? && s.mode < 2

/-- OPTILL of a kind with an address, or with parcel 0 (R356). -/
def optMem {α : Type} (va : Word) : Res α := .error (.trap cOPTILL (wd (fld 1 56 + va.toNat % 2 ^ 56)))
def optIll {α : Type} (d : Nat) (c : Ctx) : Res α := .error (.trap cOPTILL (wd (fld d 56 + c.parcel.toNat)))

/-- What an optimistic handler may reach (R356): its own local store through the own aperture, and pages with OPR. -/
def State.optAllows (s : State) (k : Kind) (p : Piece) : Bool :=
  match p.loc.what with
  | .store => p.loc.core = s.core.number && !p.loc.neighbour && k ≠ .atomic
  | .memory => k = .read && p.loc.mt = 0 && p.loc.opr
  | _ => false

/-- Alignment and width at a device page (R20, R259): natural alignment for a size, and for a unit register 8 bytes at a multiple of 8. -/
def State.deviceOk (k : Kind) (va : Word) (n size : Nat) (p : Piece) : Res Unit :=
  if p.loc.what = .unit then do
    need (va.toNat % 8 = 0) cALIGN (memInfo k.code 3 2 va)
    need (n = 8) cPROT (memInfo k.code p.loc.level 5 va)
  else if p.loc.what ≠ .store && p.loc.mt = 2 then need (va.toNat % size = 0) cALIGN (memInfo k.code 3 2 va)
  else .ok ()

/-- The slots of a strict partition come round (R414): the n first of every 64 slots of 64 cycles, since R414 names none.
Log entry 65 (DESIGN CHOICE). -/
def State.slotOpen (s : State) (n : Nat) : Bool := !bit s.regs.cpways 63 || s.cyc / 64 % 64 < n

/-- A piece lies in another device's memory, for which no slot of the links is open (R414). Log entry 65 (DESIGN CHOICE). -/
def State.linkClosed (s : State) (ps : List Piece) : Bool :=
  !s.slotOpen (bits s.sys.strictsh 13 8) && ps.any fun p => p.loc.what = .memory && p.loc.key / 2 ^ 48 ≠ s.regs.devnum

/-- The checks of an access of n bytes at va that come before conflicts (R241): translation, what an optimistic handler may reach, device
alignment for accesses of `size` bytes. `sync` marks a synchronising access. One that passes waits for a slot of the links (R414). -/
def State.openPieces (s : State) (w : Who) (k : Kind) (va : Word) (n size : Nat) (sync : Bool) : Res (List Piece × State) :=
  match s.translateAll w k va 0 n (pagesOf n) with
  | .error e => .error (s.missStop k e)
  | .ok (ps, t) => do
    match if s.optimistic then ps.find? fun p => sync || !s.optAllows k p else none with
    | some p => optMem (va + wd p.off)
    | none => .ok ()
    for p in ps do State.deviceOk k va n size p
    if s.linkClosed ps then .error (.wait .room) else .ok (ps, t)

/-- The conflict check of an access of kind k (R77 to R81). -/
def State.meetNone (s : State) (k : Kind) (va : Word) (ps : List Piece) (sync : Bool) (wr : Bool := k.writes) : Res Unit :=
  match s.conflict ps wr sync with
  | some (off, o) => .error (s.mmx k va off o)
  | none => .ok ()

/-- The checks of an access of n bytes at va before any byte is performed (R77, R241). -/
def State.openAccess (s : State) (w : Who) (k : Kind) (va : Word) (n : Nat) (sync : Bool) (size : Nat := n) : Res (List Piece × State) := do
  let (ps, t) ← s.openPieces w k va n size sync
  t.meetNone k va ps sync
  .ok (ps, t)

/-- Whether a mailbox word lies among pieces. -/
def Mail.within (m : Mail) (ps : List Piece) : Bool := ps.any fun p => m.lo < p.loc.key + p.len && p.loc.key < m.lo + m.len

/-- The width of the acquire that a read of pieces makes, where it is the first of a mailbox word that has filled (R95). -/
def State.mailHit (s : State) (ps : List Piece) : Option Nat := ((s.core.mail.filter fun m => m.within ps).map (·.width)).max?

/-- The mailbox words among pieces have been read, or are overwritten: their first read acquires nothing any more (R95). -/
def State.dropMail (s : State) (ps : List Piece) : State :=
  { s with core := { s.core with mail := s.core.mail.filter fun m => !m.within ps } }

/-- The acquire that a synchronising access makes where it was the first read of a mailbox word among pieces (R95). -/
def State.mailAfter (s : State) (ps : List Piece) (mail : Option Nat) : State :=
  match mail with
  | some width => (s.dropMail ps).acquire width
  | none => s

/-- The conflict check of a plain read of n bytes at va, and its masks; one that first reads a mailbox word is an acquire (R77, R95). -/
def State.readMeets (s : State) (va : Word) (n : Nat) (ps : List Piece) : Res State :=
  match s.mailHit ps with
  | some width => do
    let s := (s.dropMail ps).acquire width
    s.meetNone .read va ps true
    s.record ps true false true
  | none => do
    s.meetNone .read va ps false
    s.recordEach true false false (accessesOf n ps)

/-- The conflict check of a plain access that writes, and its masks. -/
def State.writeMeets (s : State) (k : Kind) (va : Word) (n : Nat) (ps : List Piece) : Res State := do
  s.meetNone k va ps false
  (s.dropMail ps).recordEach (k ≠ .write) true false (accessesOf n ps)

/-- The three steps of R77 for a plain access that passes: its masks are recorded. Log entry 50 (DESIGN CHOICE). -/
def State.plainAccess (s : State) (w : Who) (k : Kind) (va : Word) (n : Nat) (size : Nat := n) : Res (List Piece × State) := do
  let (ps, s) ← s.openPieces w k va n size false
  let s ← if k.writes then s.writeMeets k va n ps else s.readMeets va n ps
  .ok (ps, s)

/-- An address below its natural alignment: ALIGN, DATA (R240). -/
def aligned (k : Kind) (va : Word) (n : Nat) : Res Unit := need (va.toNat % n = 0) cALIGN (memInfo k.code 3 2 va)

/-- TINFO of a value lost on its way to a register: KIND read, LEVEL 3, the address of its first lost byte (R147, R390). -/
def lostInfo (k : Kind) (va : Word) (off : Nat) : Word := memInfo k.code 3 0 (va + wd off)

/-! ### Engine accesses (R96, R125, R132) -/

/-- The partition's system cores, I/O and collective engines lie on another die than the core. Log entry 5 (DESIGN CHOICE). -/
def State.unitsFar (s : State) : Bool := s.die ≠ 0

/-- An acquire of system scope by one of them empties the RDC of its own die (R112, R114, R125). Log entry 5 (DESIGN CHOICE). -/
def State.unitAcquire (s : State) : State := if s.unitsFar then s else s.selfInvalidate

/-- A release of package or system width by one of them writes that RDC back. Log entry 5 (DESIGN CHOICE). -/
def State.unitRelease (s : State) : State := if s.unitsFar then s else s.writeBack

/-- A live region of a command that the core has issued. -/
def State.addOther (s : State) (o : Other) : State := { s with mem := { s.mem with others := s.mem.others ++ [o] } }

/-- The region of a command of an agent: the core's own, or a channel's record, whoever kicked it. -/
def Other.isCmd (o : Other) (agent : Agent) (id : Nat) : Bool := (o.own || 2 ^ 40 ≤ id) && o.agent = agent && o.id = id

/-- The run a command's masks have in the region tables. -/
def State.cmdRun (s : State) (agent : Agent) (id : Nat) (line n : Nat) : TabRun :=
  ⟨id, agent, s.regs.devnum, s.core.number, true, line, n⟩

/-- A command of the core completes: its entries leave the tables, and its region ends for all but its issuer, whose live region still
meets it until it closes (R95, R96 and Scene 3). Log entry 38 (DEDUCED). -/
def State.endCommand (s : State) (agent : Agent) (id : Nat) : State :=
  { s with mem := { s.mem with
      others := s.mem.others.map fun o => if o.isCmd agent id then { o with done := true } else o
      tables := mmap [] (List.filter fun q => !(s.cmdRun agent id 0 0).ofRegion q) s.mem.tables } }

/-- What stops an engine's access: cause, DETAIL, LEVEL and the faulting address; or an absent page, or what is no page: an entry of a full
region table (`noPage` and its die), or a slot of the links (`noSlot`), for which it waits. -/
inductive EngFault where
  | fault (cause detail level : Nat) (va : Word)
  | absent (page : Nat)
  deriving DecidableEq, Repr

/-- No page: from it on, the dies for an entry of whose region table an engine waits (R85). -/
def noPage : Nat := 2 ^ 64

/-- A slot of the links, for which an engine waits (R414). -/
def noSlot : Nat := noPage + 2 ^ 40

/-- Lines of an access that a command's masks do not hold yet. -/
def Other.newLines (o : Other) (ps : List Piece) : List Nat :=
  let rs := o.masks.reads ++ o.masks.writes
  (trackedLines ps).filter fun l => !(rs.any fun r => touches l r.lo r.len)

/-- A command's region grows by the bytes of an access, and its lines enter the region tables (R83, R85). Log entry 38 (DEDUCED). -/
def State.growOther (s : State) (agent : Agent) (id : Nat) (ps : List Piece) (rd wr : Bool) (sync : Bool := false) : Except EngFault State :=
  match s.mem.others.find? fun o => o.isCmd agent id with
  | none => .ok s
  | some o =>
    match s.enterLines (fun l => s.cmdRun agent id l 1) (o.newLines ps) with
    | .error die => .error (.absent (noPage + die))
    | .ok s =>
      let grow (o : Other) : Other := if o.isCmd agent id then { o with masks := o.masks.add (trackedRngs ps) rd wr sync } else o
      .ok { s with mem := { s.mem with others := s.mem.others.map grow } }

/-- The cluster of a copy engine, by the identity its accesses are checked under: a channel's, or the core's own for an ACOPY. -/
def State.engCluster (s : State) (id : Nat) : Nat := if 2 ^ 40 ≤ id then (id - 2 ^ 40) / 16 else clusterOf s.core.number

/-- Whether a live region belongs to the same engine, which is one hart: its regions never conflict (R77, R125). Log entry 38 (DEDUCED). -/
def State.sameEngine (s : State) (agent : Agent) (id : Nat) (o : Other) : Bool :=
  (o.own || 2 ^ 40 ≤ o.id) && o.agent = agent && (agent ≠ .ce || s.engCluster o.id = s.engCluster id)

/-- The live region of the core as a party (R80). Log entry 38 (DEDUCED). -/
def State.asParty (s : State) : Other :=
  { id := 0, agent := .core, device := s.regs.devnum, core := s.core.number, masks := s.core.region.masks }

/-- The first byte at which an engine's access meets a live region, but those of its own engine, and that region's party (R96, R132). Where the
core's region and another command's are met at the same byte the core's is reported, since R96 does not say which.
Log entry 38 (DEDUCED). Log entry 57 (DESIGN CHOICE). -/
def State.engineParty (s : State) (agent : Agent) (id : Nat) (ps : List Piece) (wr sync : Bool) : Option (Nat × Other) :=
  conflictIn (s.asParty :: s.mem.others.filter fun o => !o.done && !s.sameEngine agent id o) ps wr sync

/-- The check of an engine's access (R96, R132): DETAIL 1 where the earlier access was a hart's, 3 where another command's.
Log entry 38 (DEDUCED). Log entry 57 (DESIGN CHOICE). -/
def State.engineCheck (s : State) (agent : Agent) (id : Nat) (ps : List Piece) (wr sync : Bool) (va : Word) : Except EngFault Unit :=
  match s.engineParty agent id ps wr sync with
  | some (j, o) => .error (.fault cMMX (if o.agent = .core then 1 else 3) 3 (va + wd j))
  | none => .ok ()

/-- The pieces of an engine's access (R22): at a device page one of more than 8 bytes faults (R19), and one below its alignment (R20). -/
def State.enginePieces (s : State) (w : Who) (k : Kind) (va : Word) (n : Nat) : Except EngFault (List Piece × State) :=
  match s.translateAll { w with noDev := w.noDev || 8 < n } k va 0 n (pagesOf n) with
  | .error (.fault c d l, a) => .error (.fault c d l a)
  | .error (.absent p, _) => .error (.absent p)
  | .ok (ps, t) =>
    if ps.any fun p => p.loc.what ≠ .store && p.loc.mt = 2 && va.toNat % n ≠ 0 then .error (.fault cALIGN 2 3 va)
    else if s.linkClosed ps then .error (.absent noSlot)
    else .ok (ps, t)

/-- The engine that makes an access under an identity (R125). -/
def State.engHart (s : State) (agent : Agent) (id : Nat) : EngHart := ⟨agent, if agent = .ce then s.engCluster id else 0⟩

/-- The checks of an engine's access, and the growth of its region; `sync` marks an acquire or a release store (R79). -/
def State.engineOpen (s : State) (agent : Agent) (id : Nat) (w : Who) (k : Kind) (va : Word) (n : Nat) (sync : Bool := false) :
    Except EngFault (List Piece × State) := do
  let (ps, s) ← s.enginePieces w k va n
  s.engineCheck agent id ps k.writes sync va
  let s ← s.growOther agent id ps (k ≠ .write) k.writes sync
  .ok (ps, s)

/-- The route of an engine: its own die's shared levels, or another die's (R49). -/
def engRoute (far : Bool) : Route := if far then .far else .die

/-- An engine reads n bytes (R49): never through an L1. The copy engine and the matrix unit fetch whole lines (R51). -/
def State.engineRead (s : State) (agent : Agent) (id : Nat) (w : Who) (va : Word) (n nud : Nat) (far sync : Bool := false) :
    Except EngFault (List Byte × State) := do
  let (ps, s) ← s.engineOpen agent id w .read va n sync
  let (bs, l, s) := s.readPieces nud (engRoute far) (agent = .ce || agent = .mu) ps
  match l with
  | some j => .error (.fault cMEMLOST 0 3 (va + wd j))
  | none => .ok (bs, s)

/-- An engine writes bytes. -/
def State.engineWrite (s : State) (agent : Agent) (id : Nat) (w : Who) (va : Word) (bs : List Byte) (nud : Nat)
    (far sync : Bool := false) : Except EngFault State := do
  let (ps, s) ← s.engineOpen agent id w .write va bs.length sync
  .ok (s.writePieces ps bs nud (engRoute far) (s.engHart agent id))

/-- MMXWHO for the party that such an access meets (R80). -/
def State.partyWho (s : State) (agent : Agent) (id : Nat) (w : Who) (k : Kind) (va : Word) (n : Nat) : Word :=
  match s.enginePieces w k va n with
  | .ok (ps, t) => ((t.engineParty agent id ps k.writes false).map fun x => x.2.who).getD 0
  | .error _ => 0

/-- An MMX that the core takes for an access of its matrix unit (R80, R395): MMXWHO is written, and the event counted (R420). -/
def State.noteMmx (s : State) (cause : Nat) (who : Word) : State :=
  if cause = cMMX then ({ s with regs := { s.regs with mmxwho := who } }).count 5 1 else s

/-- A word that an engine has released for this hart lies at va (R95, R127): its first read acquires at a width. -/
def State.addMail (s : State) (w : Who) (va : Word) (n width : Nat) : State :=
  match s.enginePieces w .write va n with
  | .ok (p :: _, _) => { s with core := { s.core with mail := ⟨p.loc.key, n, width⟩ :: s.core.mail } }
  | _ => s

/-- A page begins to be pulled (R410), or an entry of a region table is asked for (R85); a slot of the links is only waited for (R414).
Log entry 39 (DEDUCED). -/
def State.beginPull (s : State) (page : Nat) (lnid : Nat := 0) : State :=
  if noPage ≤ page then s.askRoom (page - noPage)
  else if lnid = 0 then s.startPull page
  else s.pullFor lnid page

end Sys2Proof.Machine
end

