-- ==== Sys2Proof/Machine/Launch.lean ====
section
/-! DEFINITION. What the units of the partition keep in memory and for launches: physical memory, event rings (R408, R409), the trace ring
(R421), records in flight (R312 to R314), live counts and the end of a launch (R342, R415, R416), deques (R345), events and their waiters
(R316 to R318, R343, R344). -/
namespace Sys2Proof

/-- The words of a task record. -/
def Rec.words (r : Rec) : List Word := [r.w0, r.w1, r.w2, r.w3, r.w4, r.w5, r.w6, r.w7]

end Sys2Proof

namespace Sys2Proof.Machine

/-! ### Physical memory -/

/-- The bytes of a word, little-endian. -/
def wordBytes (w : Word) : List Byte := toBytes w.toNat 8

/-- Bytes at a physical address as the module's units read them; open bytes where nothing is homed, and where a byte is lost or beyond a link
that is down (R135, R136), and in a page whose pull has failed (R411). Log entry 8 (DESIGN CHOICE). -/
def State.readPhysMem (s : State) (pa n : Nat) : List Byte :=
  match s.memKey pa with
  | some k => if 2 ≤ s.pageCode pa then (List.range n).map (Config.openByte s.ticks)
    else if (s.homeLost k n).isNone then s.homeBytes k n
    else (List.range n).map fun j => if (s.homeLost (k + j) 1).isSome then Config.openByte s.ticks j else mget 0 s.mem.bytes (k + j)
  | none => (List.range n).map (Config.openByte s.ticks)

/-- A word at a physical address. -/
def State.physWord (s : State) (pa : Nat) : Word := wordOf (s.readPhysMem pa 8)

/-- Bytes written at a physical address; nothing where nothing is homed, beyond a link that is down (R136), or in a page
whose pull has failed (R411). -/
def State.writePhysMem (s : State) (pa : Nat) (bs : List Byte) : State :=
  match s.memKey pa with
  | some k => if s.cutOff k || 2 ≤ s.pageCode pa then s else s.writeHome k bs
  | none => s

/-- The page of a physical address, where it must be pulled before a unit reads or writes there (R410). -/
def State.absentAt (s : State) (pa : Nat) : Option Nat := if s.pageCode pa = 1 then some (pa % 2 ^ 48 / 65536) else none

/-- A unit's access finds its page absent: the pull begins (R410). -/
def State.pullAt (s : State) (pa : Nat) : State :=
  match s.absentAt pa with
  | some page => s.startPull page
  | none => s

/-! ### Event rings (R408, R409) -/

/-- EVRING of the running virtual device. -/
def State.evring (s : State) : Word := (mget {} s.sys.vds s.sys.vd).evring

/-- Entries of a ring of 2^(LOGN + k). Log entry 10 (DESIGN CHOICE). -/
def ringSize (w : Word) (k : Nat) : Nat := 2 ^ (bits w 63 60 + k)

/-- Physical address [55:12] of a register that names an area. Log entry 10 (DESIGN CHOICE). -/
def areaBase (w : Word) : Nat := bits w 55 12 * 2 ^ 12

/-- The physical address of the entry that the next one posted takes. -/
def State.ringEntry (s : State) : Nat :=
  let b := areaBase s.evring
  b + 64 + 32 * ((s.physWord b).toNat % ringSize s.evring 6)

/-- Whether the event ring has room, its pages being present (R409, R410). -/
def State.ringRoom (s : State) : Bool :=
  let b := areaBase s.evring
  (s.absentAt b).isNone && (s.absentAt s.ringEntry).isNone && (s.physWord b - s.physWord (b + 8)).toNat ≠ ringSize s.evring 6

/-- Word k of the MSI-X table: a vector has its address and its data with the control word, whose bit 0 masks it at reset (R433).
Log entry 62 (PRESUMED). -/
def State.msixWord (s : State) (k : Nat) : Word := mget (if k % 2 = 1 then wd (2 ^ 32) else 0) s.sys.msixTab k

/-- A vector is signalled (R409, R433): its message leaves, or it is pending while it is masked. Log entry 62 (PRESUMED). -/
def State.signal (s : State) (v : Nat) : State :=
  if bit (s.msixWord (2 * v + 1)) 32 then { s with sys := { s.sys with msixPend := addLoss s.sys.msixPend v } }
  else s.post (.msix v (s.msixWord (2 * v)) (wd (bits (s.msixWord (2 * v + 1)) 31 0)))

/-- An entry enters the ring (R409): entry, TAIL, NOTIFY, MSI-X. -/
def State.postEntry (s : State) (p : Posting) : State :=
  let b := areaBase s.evring
  let tail := s.physWord b
  let bytes := wordBytes (wd (fld p.kind 56)) ++ wordBytes p.info ++ wordBytes p.more ++ wordBytes (wd p.cycle)
  let s := s.writePhysMem s.ringEntry bytes
  let s := s.writePhysMem b (wordBytes (tail + 1))
  let armed := bit (s.physWord (b + 16)) 0
  let s := s.writePhysMem (b + 16) (wordBytes 0)
  if armed then s.signal (bits s.evring 10 0) else s

/-- A waiting entry is counted in OVERRUN once (R409). -/
def State.countOverrun (s : State) : State :=
  let a := areaBase s.evring + 24
  s.writePhysMem a (wordBytes (s.physWord a + 1))

/-- Post an entry (R409): nothing while EN = 0; it waits behind earlier ones of its ring, while the ring is full, and for the ring's pages
(R410). -/
def State.postEvent (s : State) (kind : Nat) (info more : Word) : State :=
  if !bit s.evring 11 then s
  else
    let p : Posting := { vd := s.sys.vd, kind := kind, info := info, more := more, cycle := s.cyc }
    if (s.sys.posting.all fun x => x.vd ≠ s.sys.vd) && s.ringRoom then s.postEntry p
    else
      let b := areaBase s.evring
      let s := if (s.absentAt b).isSome then s.pullAt b else s.countOverrun.pullAt s.ringEntry
      { s with sys := { s.sys with posting := s.sys.posting ++ [p] } }

/-! ### The trace ring (R421) -/

/-- A trace record: kind 1 dispatch, 2 end. The ring's first 32 bytes hold the count of dropped records. A record
whose page is still to be pulled is dropped too.
Log entry 10 (DESIGN CHOICE). -/
def State.trace (s : State) (kind : Nat) (lnid : Word) : State :=
  let c := s.sched.trctl
  if !bit c 59 then s
  else
    let b := areaBase c
    let a := b + 32 + 32 * (s.sched.trHead % ringSize c 8)
    if Config.traceDrop s.ticks || (s.absentAt b).isSome || (s.absentAt a).isSome then
      let n := s.sched.trDropped + 1
      let s := if (s.absentAt b).isSome then s else s.writePhysMem b (wordBytes (wd n))
      { s with sched := { s.sched with trDropped := n } }
    else
      let bytes := wordBytes (wd s.cyc) ++ wordBytes (wd s.core.number) ++ wordBytes lnid ++ wordBytes (wd kind)
      let s := s.writePhysMem a bytes
      { s with sched := { s.sched with trHead := s.sched.trHead + 1 } }

/-! ### Records that leave a core (R312 to R314) -/

/-- The package scope word (R100). -/
def packageScope : Word := wd (fld 4 32)

/-- The number that stands for no core (R80). -/
def noCore : Nat := 0x1FFF

/-- A record leaves for a core: for this one it is in flight, for another it has left (R312). Log entry 26 (DESIGN CHOICE). -/
def State.sendRecord (s : State) (target : Nat) (d : Delivery) : State :=
  if target = s.core.number then
    { s with sched := { s.sched with flying := s.sched.flying ++ [{ target := target, d := d }] } }
  else s.post (.record target d)

/-- An anti-message leaves (R363). Log entry 26 (DESIGN CHOICE). -/
def State.sendAnti (s : State) (target : Nat) (k : Key) (d : Delivery) : State :=
  if target = s.core.number then
    { s with sched := { s.sched with flying := s.sched.flying ++ [{ target := target, d := d, anti := some k }] } }
  else s.post (.anti target k)

/-- The core has 16 sends in flight (R314). -/
def State.sendsFull (s : State) : Bool :=
  16 ≤ (s.sched.flying.filter fun f => f.d.sender = s.core.number).length

/-! ### Launches (R339, R342, R415) -/

/-- The launch of an identifier changes. -/
def State.updLaunch (s : State) (lnid : Nat) (f : Launch → Launch) : State :=
  { s with sched := { s.sched with launches := s.sched.launches.map fun l => if l.lnid = lnid then f l else l } }

/-- Words 27 to 31 of a launch record (R415, R416). Log entry 29 (DEDUCED). -/
def State.accountWords (s : State) (l : Launch) : List Word :=
  let hostsys := s.physWord (l.pa + 26 * 8)
  let start := if hostsys = 0 then l.queued else hostsys.toNat
  let w := s.cyc / 64 - start / 64
  let (f, io, ex, _) := l.parts
  let part (n : Nat) : Nat := if 2 ^ 32 ≤ w then 2 ^ 32 - 1 else n % 2 ^ 32
  [wd l.queued, wd l.first, wd s.cyc, wd (fld (part f) 32 + part io), wd (fld (part ex) 32 + part (w - (f + io + ex)))]

/-- A launch ends with a CODE (R342): the release, the account, word 25, the completion event; first its record's page is pulled, if it is
absent (R410). Log entry 29 (DEDUCED). -/
def State.launchEnd (s : State) (l : Launch) (code : Nat) : State :=
  if (s.absentAt (l.pa + 25 * 8)).isSome then
    (s.updLaunch l.lnid fun l => { l with ending := some code, reading := none, live := 0, roots := [] }).pullAt (l.pa + 25 * 8)
  else
  let s := s.unitRelease
  let s := s.writePhysMem (l.pa + 27 * 8) ((s.accountWords l).flatMap wordBytes)
  let w25 := wd (fld 1 63 + fld (code % 128) 56)
  let s := s.writePhysMem (l.pa + 25 * 8) (wordBytes w25)
  (s.updLaunch l.lnid fun l => { l with ended := true, ending := none, reading := none, live := 0, roots := [] }).postEvent 1 (wd l.lnid) w25

/-- The live count of a launch rises (R342). -/
def State.liveUp (s : State) (lnid : Word) (n : Nat) : State := s.updLaunch lnid.toNat fun l => { l with live := l.live + n }

/-- The live count falls; at 0 the launch ends with CODE 0 (R342). Log entry 29 (DEDUCED). -/
def State.liveDown (s : State) (lnid : Word) : State :=
  match s.sched.launches.find? fun l => l.lnid = lnid.toNat && l.started && !l.ended && l.ending.isNone with
  | none => s
  | some l =>
    if l.live ≤ 1 && l.roots.isEmpty then s.launchEnd l 0
    else s.updLaunch l.lnid fun l => { l with live := l.live - 1 }

/-- The launch context of the running task, as records carry it (R312). -/
def State.launchCtx (s : State) : LaunchCtx :=
  match s.sched.task with
  | some t => t.launch
  | none => {}

/-! ### The park area and the overflow ring (R160, R163) -/

/-- Bytes of a saved record of n words (R163), and the 64-byte slots of the overflow ring it takes. -/
def savedBytes (n : Nat) : Nat := 32 + 8 * n
def savedSlots (n : Nat) : Nat := (savedBytes n + 63) / 64

/-- Everything saved: parked tasks and those in the resume queue. -/
def State.savedTasks (s : State) : List Parked := s.sched.parked ++ s.sched.resume.map (·.p)

/-- The lowest place from lo on, below hi, where n units fit beside runs in use. Log entry 28 (DESIGN CHOICE). -/
def freeRun (used : List (Nat × Nat)) (lo hi n : Nat) : Option Nat :=
  let fits (o : Nat) : Bool := lo ≤ o && o + n ≤ hi && used.all fun r => r.1 + r.2 ≤ o || o + n ≤ r.1
  ((lo :: used.map fun r => r.1 + r.2).filter fits).min?

/-- Slots of the overflow ring in use: one for a spilled record, a run for a saved task. -/
def State.slotsUsed (s : State) : List (Nat × Nat) :=
  (s.sched.spilled.map fun a => (a.slot, 1)) ++ (s.savedTasks.filter (·.inRing)).map fun p => (p.place, savedSlots p.words.length)

/-- Slots the overflow ring holds. -/
def State.ovfrCap (s : State) : Nat := ringSize s.regs.ovfr 6

/-- The physical address of a slot of the overflow ring. -/
def State.slotPlace (s : State) (slot : Nat) : Nat := areaBase s.regs.ovfr + 64 * slot

/-- The lowest free run of n slots of the overflow ring whose page is present (R160, R410). -/
def State.ringRun (s : State) (n : Nat) : Option Nat :=
  (freeRun s.slotsUsed 0 s.ovfrCap n).filter fun k => (s.absentAt (s.slotPlace k)).isNone && (s.absentAt (s.slotPlace (k + n) - 1)).isNone

/-- The pages of that run begin to be pulled (R410). -/
def State.pullRing (s : State) (n : Nat) : State :=
  match freeRun s.slotsUsed 0 s.ovfrCap n with
  | some k => (s.pullAt (s.slotPlace k)).pullAt (s.slotPlace (k + n) - 1)
  | none => s

/-- The slot that a spilled record takes. -/
def State.ringSlot (s : State) : Option Nat := s.ringRun 1

/-- Words at a slot of the overflow ring in memory (R160). Log entry 28 (DESIGN CHOICE). -/
def State.writeRing (s : State) (slot : Nat) (ws : List Word) : State :=
  s.writePhysMem (s.slotPlace slot) (ws.flatMap wordBytes)

/-- A record that found no window or inbox entry: appended to the overflow ring, or held in the fabric while the ring is full (R160) or its
page is still to be pulled (R410).
Log entry 28 (DESIGN CHOICE). -/
def State.spill (s : State) (a : Arrived) : State :=
  match s.ringSlot with
  | some k =>
    let s := s.writeRing k a.d.r.words
    { s with sched := { s.sched with spilled := s.sched.spilled ++ [{ a with slot := k }] } }
  | none =>
    let s := s.pullRing 1
    { s with sched := { s.sched with held := s.sched.held ++ [a] } }

/-! ### The deque (R345) -/

/-- A record has reached the core's inbox, resume queue or deque, or the core has dispatched: a thief's wait ends (R347). -/
def State.stirred (s : State) : State := { s with sched := { s.sched with stealWait := none } }

/-- Records the memory part may hold. -/
def State.dqCap (s : State) : Nat := ringSize (mget 0 s.sched.dqovf s.core.number) 6

/-- The physical address of the i-th record of the memory part. Log entry 28 (DESIGN CHOICE). -/
def State.dqPlace (s : State) (i : Nat) : Nat :=
  areaBase (mget 0 s.sched.dqovf s.core.number) + 64 * ((s.sched.dqHead + i) % s.dqCap)

/-- Records written at their places in the overflow area, from the i-th of the memory part on. Log entry 28 (DESIGN CHOICE). -/
def State.writeDeque (s : State) (i : Nat) : List DqRec → State
  | [] => s
  | r :: rs => (s.writePhysMem (s.dqPlace i) (r.r.words.flatMap wordBytes)).writeDeque (i + 1) rs

/-- Where a push would write to memory, if it would: the places of the 32 records that it moves there. -/
def State.pushPlaces (s : State) : List Nat :=
  if s.sched.deque.length < 64 then [] else (List.range 32).map fun i => s.dqPlace (s.sched.dqMem.length + i)

/-- The pages that a push would write to begin to be pulled (R410). -/
def State.pullDeque (s : State) : State := s.pushPlaces.foldl State.pullAt s

/-- Push at the bottom; none while there is no room, or a page of the memory part is still to be pulled (R410). Log entry 28 (DESIGN CHOICE). Log entry 30 (DEDUCED). -/
def State.pushDeque (s : State) (r : DqRec) : Option State :=
  let s := s.stirred
  let q := s.sched
  if q.deque.length < 64 then some { s with sched := { q with deque := q.deque ++ [r] } }
  else if q.dqMem.length + 32 ≤ s.dqCap && s.pushPlaces.all fun a => (s.absentAt a).isNone then
    let s := s.writeDeque q.dqMem.length (q.deque.take 32)
    some { s with sched := { s.sched with dqMem := q.dqMem ++ q.deque.take 32, deque := q.deque.drop 32 ++ [r] } }
  else none

/-- A waiter whose record SPAWNEV has released is pushed; one that waits for room keeps its node, behind earlier ones. -/
def State.releaseRec (s : State) (w : Waiter) (r : DqRec) : State :=
  match if s.sched.stuck.isEmpty then s.pushDeque r else none with
  | some t => t
  | none =>
    let s := s.pullDeque
    { s with sched := { s.sched with stuck := s.sched.stuck ++ [w] } }

/-- Released records that wait for room enter while there is any. -/
def State.drainStuck (s : State) : List Waiter → State
  | [] => { s with sched := { s.sched with stuck := [] } }
  | w :: ws => match w.what with
    | .inr _ => s.drainStuck ws
    | .inl r => match s.pushDeque r with
      | some t => t.drainStuck ws
      | none =>
        let s := s.pullDeque
        { s with sched := { s.sched with stuck := w :: ws } }

/-- Pop from the bottom: up to 32 of the youngest records of the memory part come back first where the hardware part is empty. -/
def State.popDeque (s : State) : Option (DqRec × State) :=
  let q := s.sched
  let n := q.dqMem.length - 32
  let q := if q.deque.isEmpty then { q with deque := q.dqMem.drop n, dqMem := q.dqMem.take n } else q
  match q.deque.getLast? with
  | none => none
  | some r =>
    let s := { s with sched := { q with deque := q.deque.dropLast } }
    some (r, s.drainStuck q.stuck)

/-- The record at the top of the deque. -/
def State.dqTop (s : State) : Option DqRec :=
  match s.sched.dqMem with
  | r :: _ => some r
  | [] => s.sched.deque.head?

/-- The top record is taken by a thief (R346). -/
def State.takeTop (s : State) : State :=
  let q := s.sched
  let q := match q.dqMem with
    | _ :: rs => { q with dqMem := rs, dqHead := (q.dqHead + 1) % s.dqCap }
    | [] => { q with deque := q.deque.tail }
  { s with sched := q }.drainStuck q.stuck

/-! ### Events (R316 to R320, R343, R344) -/

/-- The physical address of an event's entry (R343). -/
def State.eventEntry (s : State) (e : Nat) : Nat := bits s.sched.evtab 55 20 * 2 ^ 20 + 16 * e

/-- COUNT of an event: word 0 of its entry (R343); where the table lies in no bank, the model's own record of it. -/
def State.eventCount (s : State) (e : Nat) : Nat :=
  match s.memKey (s.eventEntry e) with
  | some _ => ofBytes (s.readPhysMem (s.eventEntry e) 4)
  | none => mget 0 s.sched.events e

/-- An instruction that uses an event waits while the page of its entry is still to be pulled (R410). -/
def State.eventHere (s : State) (e : Nat) : Res Unit :=
  match s.absentAt (s.eventEntry e) with
  | some page => .error (.waitIn (s.startPull page) .room)
  | none => .ok ()

/-- The slice whose nodes an event's waiters take: that of its entry's line. Log entry 16 (DESIGN CHOICE). -/
def State.eventSlice (s : State) (e : Nat) : Nat := s.eventEntry e / 128 % 32

/-- Where a new waiter's node lies: in its slice, in the overflow area, or nowhere (R344), beside those of other cores' waiters.
Log entry 28 (DESIGN CHOICE). -/
def State.waiterNode (s : State) (e : Nat) : Option Bool :=
  let nodes := s.sched.waiters ++ s.sched.stuck
  let peers (k : Nat) : Nat := mget 0 s.sched.peerNodes k
  let inSlice := (nodes.filter fun w => !w.ovf && s.eventSlice w.event = s.eventSlice e).length + peers (s.eventSlice e)
  let inOvf := (nodes.filter fun w => w.ovf).length + peers 32
  if inSlice < 512 then some false else if inOvf < ringSize s.sched.evovf 8 then some true else none

/-- A parked task enters the resume queue (R320, R248). -/
def State.releaseParked (s : State) (id : Nat) : State :=
  match s.sched.parked.find? fun p => p.id = id with
  | none => s
  | some p => { s.stirred with sched := { s.stirred.sched with
      parked := s.sched.parked.filter fun q => q.id ≠ id
      resume := s.sched.resume ++ [{ p := p }] } }

/-- A waiter is released (R318, R320). -/
def State.releaseWaiter (s : State) (w : Waiter) : State :=
  match w.what with
  | .inl r => s.releaseRec w r
  | .inr id => s.releaseParked id

/-- Insert a waiter in the order of R317. -/
def insertWaiter (w : Waiter) : List Waiter → List Waiter
  | [] => [w]
  | x :: xs => if lexLt [w.thresh, w.seq] [x.thresh, x.seq] then w :: x :: xs else x :: insertWaiter w xs

/-- One update of an event at its home (R317). -/
def State.updateEvent (s : State) (e count : Nat) : State :=
  let s := match s.memKey (s.eventEntry e) with
    | some _ => s.writePhysMem (s.eventEntry e) (toBytes count 4)
    | none => { s with sched := { s.sched with events := mput 0 s.sched.events e count } }
  let due := s.sched.waiters.filter fun w => w.event = e && w.thresh ≤ count
  let s := { s with sched := { s.sched with waiters := s.sched.waiters.filter fun w => !(w.event = e && w.thresh ≤ count) } }
  (due.foldl (fun l w => insertWaiter w l) []).foldl State.releaseWaiter s

/-- A waiter enters an event's list, or is released at once (R318, R320). -/
def State.addWaiter (s : State) (e thresh : Nat) (ovf : Bool) (what : DqRec ⊕ Nat) : State :=
  let w : Waiter := { event := e, thresh := thresh, seq := s.sched.waitSeq, what := what, ovf := ovf }
  if thresh ≤ s.eventCount e then s.releaseWaiter w
  else { s with sched := { s.sched with waiters := s.sched.waiters ++ [w], waitSeq := s.sched.waitSeq + 1 } }

end Sys2Proof.Machine
end

