-- ==== Sys2Proof/Machine/Domain.lean ====
section
/-! DEFINITION. Optimistic execution (R352 to R367): keys, the domain's block, the two logs, rollback, harvest, the installed key. -/
namespace Sys2Proof

/-- Precedes, by t, then SRC, then SEQ: word 1 holds them in that order. -/
def Key.lt (a b : Key) : Bool := a.t < b.t || (a.t = b.t && a.k < b.k)

/-- The lesser of two keys. -/
def Key.min (a b : Key) : Key := if b.lt a then b else a

end Sys2Proof

namespace Sys2Proof.Machine

/-! ### Keys (R354) -/

/-- The infinite key. -/
def infKey : Key := ⟨0xFFFFFFFFFFFFFFFF, 0xFFFFFFFFFFFFFFFF⟩

/-- The key a sender gives with a sequence number. -/
def sendKey (t : Word) (src seq : Nat) : Key := ⟨t, wd (fld (src % 8192) 48 + seq % 2 ^ 48)⟩

/-- The installed key, as GVTRD and GVT read it. -/
def State.gvtKey (s : State) : Key := s.opt.gvt.getD infKey

/-- The key of the running optimistic handler. -/
def State.handlerKey (s : State) : Option Key :=
  match s.sched.task with
  | some t => if s.opt? then t.key else none
  | none => none

/-- The running handler holds GVT (R359). -/
def State.holdsGvt (s : State) : Bool := s.handlerKey.isSome && s.handlerKey = s.opt.gvt

/-! ### The domain block (R352) -/

/-- The domain changes. -/
def State.updDomain (s : State) (f : Domain → Domain) : State :=
  { s with opt := { s.opt with domain := s.opt.domain.map f } }

/-- A counter that stops at all ones. -/
def upTo32 (n : Nat) : Nat := min n 0xFFFFFFFF

/-- Words 3 to 6 are written to the block. Log entry 28 (DESIGN CHOICE). -/
def State.writeBlock (s : State) : State :=
  match s.opt.domain with
  | none => s
  | some d =>
    let w3 := wd (fld (upTo32 d.committed) 32 + upTo32 d.undone)
    let w4 := wd (fld (upTo32 d.rollbacks) 32 + upTo32 d.annihil)
    let w5 := wd (fld (upTo32 d.antisent) 32 + upTo32 d.dropped)
    let w6 := wd (fld (32 * s.opt.bittern.length) 32 + 128 * s.opt.output.length)
    s.writeHome (storeKey s.core.number (d.block + 24)) ([w3, w4, w5, w6].flatMap wordBytes)

/-! ### The logs (R357 to R359) -/

/-- The aligned 8-byte words of domain state that n bytes at a local-store offset touch. Log entry 28 (DESIGN CHOICE). -/
def Domain.words (d : Domain) (off n : Nat) : List Nat :=
  if n = 0 then []
  else ((List.range ((off + n - 1) / 8 - off / 8 + 1)).map fun j => (off / 8 + j) * 8).filter fun o =>
    d.sbase ≤ o && o < d.sbase + d.slen

/-- An entry's image is written at its place in a ring of local store. Log entry 28 (DESIGN CHOICE). -/
def State.logImage (s : State) (base len head size i : Nat) (ws : List Word) : State :=
  s.writeHome (storeKey s.core.number (base + (head + size * i) % len)) (ws.flatMap wordBytes)

/-- One bittern entry. -/
def State.appendBittern (s : State) (d : Domain) (k : Key) (off : Nat) : State :=
  let old := wordOf (s.homeBytes (storeKey s.core.number off) 8)
  let i := s.opt.bittern.length
  let s := s.logImage d.bbase d.blen d.bhead 32 i [k.t, k.k, wd off, old]
  { s with opt := { s.opt with bittern := s.opt.bittern ++ [{ key := k, off := off, old := old }] } }

/-- Insert into an ascending list without repeats. -/
def insertUp (n : Nat) : List Nat → List Nat
  | [] => [n]
  | m :: ms => if n < m then n :: m :: ms else if n = m then m :: ms else m :: insertUp n ms

/-- The words of domain state that the pieces of a store touch in the own local store, once each, ascending. -/
def State.domainWords (s : State) (d : Domain) (ps : List Piece) : List Nat :=
  let own := ps.filter fun p => p.loc.what = .store && p.loc.core = s.core.number
  (own.flatMap fun p => d.words (p.loc.key % 2 ^ 19) p.len).foldl (fun l o => insertUp o l) []

/-- What the stores of one instruction do first, when an optimistic handler makes them (R357, R359): one bittern entry a word, or the wait
for their room. -/
def State.logPieces (s : State) (ps : List Piece) : Res State :=
  match if s.optimistic && !s.holdsGvt then s.opt.domain else none, s.handlerKey with
  | some d, some k =>
    let ws := s.domainWords d ps
    if ws.isEmpty then .ok s
    else if d.blen < 32 * (s.opt.bittern.length + ws.length) then .error (.wait .room)
    else .ok (ws.foldl (fun s o => s.appendBittern d k o) s)
  | _, _ => .ok s

/-- The sixteen words of an output entry (R358). Log entry 28 (DESIGN CHOICE). -/
def Output.image (o : Output) : List Word :=
  let zeros (n : Nat) : List Word := List.replicate n 0
  match o.kind with
  | .proc d => [o.key.t, o.key.k, 0, 0, 0, 0, 0, 0] ++ d.r.words
  | .send k dest field sc =>
    [o.key.t, o.key.k, wd (fld 1 62 + fld field 56 + dest % 8192), k.t, k.k, if field = 0 then sc else 0, 0, 0] ++ zeros 8
  | .defer d dest field sc =>
    [o.key.t, o.key.k, wd (fld 2 62 + fld field 56 + dest % 8192), 0, 0, if field = 0 then sc else 0, 0, 0] ++ d.r.words

/-- Append an output entry; none where it finds too little room. -/
def State.appendOutput (s : State) (d : Domain) (o : Output) : Option State :=
  let i := s.opt.output.length
  if d.olen < 128 * (i + 1) then none
  else
    let s := s.logImage d.obase d.olen d.ohead 128 i o.image
    some { s with opt := { s.opt with output := s.opt.output ++ [o] } }

/-! ### The domain queue (R355) -/

/-- The key of an arrived optimistic record. -/
def Arrived.okey (a : Arrived) : Key := a.d.key.getD infKey

/-- Insert in key order. -/
def insertKey (a : Arrived) : List Arrived → List Arrived
  | [] => [a]
  | x :: xs => if a.okey.lt x.okey then a :: x :: xs else x :: insertKey a xs

/-- The key's record is entered, in the queue or the overflow ring: its send is acknowledged (R364, R365). -/
def State.acked (s : State) (k : Key) : State := { s with opt := { s.opt with unacked := s.opt.unacked.erase k } }

/-- A record enters the domain queue: 128 entries, then it spills; one that a full ring holds in the fabric is not entered (R355, R160). -/
def State.enterDomq (s : State) (a : Arrived) : State :=
  if s.sched.domq.length < 128 then { s with sched := { s.sched with domq := insertKey a s.sched.domq } }.acked a.okey
  else if s.ringSlot.isSome then (s.spill a).acked a.okey
  else s.spill a

/-- Some PROC entry, or the dispatched handler, follows a key (R364). -/
def State.straggles (s : State) (k : Key) : Bool :=
  s.opt.domain.isSome && (s.opt.output.any (fun o => k.lt o.key && (match o.kind with
    | .proc _ => true
    | _ => false)) ||
  (match s.handlerKey with
    | some key => k.lt key
    | none => false))

/-- Spilled optimistic records enter as entries free, but for a straggler, which rolls back first (R364). Log entry 31 (DEDUCED). -/
def State.refillDomq (s : State) : State :=
  let room := 128 - s.sched.domq.length
  let opt := (s.sched.spilled.filter fun a => a.d.key.isSome && !s.straggles a.okey).take room
  let seqs := opt.map (·.seq)
  { s with sched := { s.sched with
      domq := opt.foldl (fun q a => insertKey a q) s.sched.domq
      spilled := s.sched.spilled.filter fun a => !(a.d.key.isSome && seqs.contains a.seq) } }

/-! ### Harvest and installation (R365, R366, R369) -/

/-- The heads of both logs go while their key precedes G; deferred records are sent. Log entry 31 (DEDUCED). -/
def State.harvest (s : State) (g : Key) : State :=
  match s.opt.domain with
  | none => s
  | some d =>
    let b := s.opt.bittern.takeWhile fun e => e.key.lt g
    let o := s.opt.output.takeWhile fun e => e.key.lt g
    let procs := (o.filter fun e => match e.kind with
      | .proc _ => true
      | _ => false).length
    let s := { s with opt := { s.opt with bittern := s.opt.bittern.drop b.length, output := s.opt.output.drop o.length } }
    let s := s.updDomain fun d' => { d' with
      bhead := (d.bhead + 32 * b.length) % d.blen
      ohead := (d.ohead + 128 * o.length) % d.olen
      committed := d.committed + procs }
    let s := o.foldl (fun s e => match e.kind with
      | .defer x dest _ sc => ((if 3 ≤ s.scopeWidth sc then s.writeBack else s).liveUp x.ctx.lnid 1).sendRecord dest x
      | _ => s) s
    s.writeBlock

/-- A VSEND that has waited for the key installed now passes its check, and its send counts as unacknowledged from this moment (R362); one
whose key precedes the installed key finds so when it goes on. -/
def State.passVsend (s : State) : State :=
  match s.core.wait with
  | some w => (match w.on with
    | .gvt n k false =>
      if n ≤ s.opt.installs && !k.lt s.gvtKey then { s with core := { s.core with wait := some { w with on := .gvt n k true } } } else s
    | _ => s)
  | none => s

/-- A key is installed (R365, R369): it never decreases, and in the seed state only a finite key counts. -/
def State.installKey (s : State) (k : Key) : State :=
  let s := { s with opt := { s.opt with reported := none, peerKey := none } }
  if s.opt.seed && k = infKey then s
  else
    let g := if s.opt.gvt.isSome && k.lt s.gvtKey then s.gvtKey else k
    ({ s with opt := { s.opt with gvt := some g, seed := false, installs := s.opt.installs + 1 } }).passVsend.harvest g

/-- The key of a waiting VSEND that counts as unacknowledged (R362). -/
def State.waitingKey (s : State) : Option Key :=
  match s.core.wait with
  | some w => (match w.on with
    | .gvt _ k true => some k
    | _ => none)
  | none => none

/-- The least key the core has in play (R365): a suspended optimistic handler's stands as a dispatched one's, and
the keys of records that are held do not wait for their entry. Log entry 31 (DEDUCED). -/
def State.leastKey (s : State) : Key :=
  let queued := (s.sched.domq ++ (s.sched.spilled ++ s.sched.held).filter fun a => a.d.key.isSome).map Arrived.okey
  let own := s.handlerKey.toList ++ (s.savedTasks.filter fun p => bit p.stat 9).filterMap fun p => p.task.key
  (queued ++ own ++ s.waitingKey.toList ++ s.opt.unacked).foldl Key.min infKey

/-- The seed state returns when no core is in a domain (R369). Log entry 31 (DEDUCED). Log entry 52 (DESIGN CHOICE). -/
def State.reseed (s : State) : State :=
  if s.opt.domain.isNone && !s.opt.peersIn then { s with opt := { s.opt with seed := true, gvt := none, reported := none, peerKey := none } } else s

end Sys2Proof.Machine
end

