-- ==== Sys2Proof/Machine/Atomic.lean ====
section
/-! DEFINITION. Atomics (R106, R111, R251), fences (R110, R252), barrier records (R253 to R255), and the binding of a destination
(R145, R146). -/
namespace Sys2Proof.Machine

/-! ### Binding destinations -/

/-- Values on their way from memory: 96 at once, and a further operation waits (R2, R87, R145, R349). -/
def State.memOps (s : State) : Nat := (s.core.binds.filter fun b => b.vals.isSome).length
def State.memOpRoom (s : State) : Res Unit := if 96 ≤ s.memOps then .error (.wait .room) else .ok ()

/-- A destination bound at issue to a value on its way, or lost (R145 to R147): a word, a queue's tail, or discarded. -/
def State.bindDst (s : State) (d : Name) (v : Option Word) (info : Word) : Res State :=
  match d with
  | .w k => do
    s.unbound (s.phys k.val)
    s.memOpRoom
    .ok (s.bind [s.phys k.val] (some [v]) info)
  | _ => match queueNo d with
    | some q => do
      s.memOpRoom
      let b : Bind := { id := s.core.nextBind, queue := some q, vals := some [v], lostInfo := info }
      let s := s.setQueue q (s.queue q ++ [.flight b.id])
      .ok { s with core := { s.core with binds := s.core.binds ++ [b], nextBind := s.core.nextBind + 1 } }
    | none => .ok s

/-! ### The place of an atomic (R111) -/

/-- The way of an atomic of a width to its place; `away` is that of an engine of another die, whose RDC is not this one. -/
def atomicRoute (l : Loc) (width : Nat) (away : Bool) : Route :=
  if away || (l.mt = 0 && 3 ≤ width) then .far else if width = 0 && l.mt = 0 then .l1 else .die

/-- Copies of an atomic's line in the issuing die's caches that go home first (R20, R111, R112). -/
def State.atomicPurge (s : State) (p : Piece) (width : Nat) (away : Bool) : State :=
  if p.loc.what = .memory && !away && (p.loc.mt ≠ 0 || 3 ≤ width) then s.purgeRange p.loc.key p.len else s

/-- The bytes an atomic of a width finds at its place, and the first lost one. -/
def State.atomicSee (s : State) (p : Piece) (width : Nat) (away : Bool := false) : List Byte × Option Nat :=
  let s := s.atomicPurge p width away
  match p.loc.what with
  | .memory =>
    if p.loc.mt ≠ 0 || 3 ≤ width || away then (s.homeBytes p.loc.key p.len, s.homeLost p.loc.key p.len)
    else (s.view p.loc.key p.len, s.firstLost p.loc.key p.len (width = 0))
  | _ => let (bs, l, _) := s.readPiece p 0; (bs, l)

/-- An atomic of a width performed at its place, where every level on the way stamps the line (R49, R58, R241): it reads the bytes, and writes
new ones where there are any. -/
def State.atomicDo (s : State) (p : Piece) (new : Option (List Byte)) (width nud : Nat) (away : Bool := false)
    (hart : Option EngHart := none) : State :=
  let s := s.atomicPurge p width away
  match new with
  | some bs => s.writePiece p bs nud (atomicRoute p.loc width away) true hart
  | none => (s.readPiece p nud (atomicRoute p.loc width away)).2.2

/-- The write of a release store of a width (R105, R112): one of width package or system reaches the line's home at once, and the RDC's copy
stays, clean. -/
def State.releaseWrite (s : State) (p : Piece) (bs : List Byte) (width nud : Nat) : State :=
  let s := s.writePiece p bs nud
  if p.loc.what = .memory && 3 ≤ width then
    let ls := linesOf p.loc.key p.len
    (ls.foldl State.sendHome s).markClean ls
  else s

/-- The release, or the plain region boundary, that an atomic of an order makes before it is performed (R75, R107). -/
def State.atomicBefore (s : State) (rel : Bool) (width : Nat) : Res State :=
  if rel then s.release width else .ok s.closeRegion

/-- The acquire it makes after. -/
def State.atomicAfter (s : State) (acq : Bool) (width : Nat) : State := if acq then s.acquire width else s

/-! ### AMO (R251) -/

/-- Old value, operand, expected value: the value an operation writes, if any. -/
abbrev AmoFn := Ty → Nat → Nat → Nat → Option Nat

/-- A two-operand operation modulo 2^w. -/
def amoOp (f : Ty → Nat → Nat → Nat) : AmoFn := fun t old y _ => some (f t old y % 2 ^ t.width)

/-- MIN or MAX by value. -/
def amoPick (isMax : Bool) : AmoFn := fun t old y _ =>
  let a := tyPick t old
  let b := tyPick t y
  some (if (if isMax then b ≤ a else a ≤ b) then old else y)
where
  /-- An element as its TYPE reads it. -/
  tyPick (t : Ty) (x : Nat) : Int := if t.signed then sextI x t.width else (x % 2 ^ t.width : Nat)

/-- The order of an AMO has a release point, an acquire point. -/
def Ord4.isRel : Ord4 → Bool
  | .rel | .ar => true
  | _ => false
def Ord4.isAcq : Ord4 → Bool
  | .acq | .ar => true
  | _ => false

/-- A lost byte where an atomic reads: MEMLOST, precisely. -/
def noLoss (k : Kind) (va : Word) (l : Option Nat) : Res Unit :=
  match l with
  | some j => .error (.trap cMEMLOST (lostInfo k va j))
  | none => .ok ()

/-- The body of AMO: `cas` reads D as the expected value. Its masks are those of the region it opens (R79, R83). -/
def amoBody (f : AmoFn) (cas : Bool) (x : Amo) (c : Ctx) (s : State) : Res State := do
  s.checkScope c x.sc
  s.prepare c ([srcOpr x.a, srcOpr x.b] ++ scopeOpr x.sc ++ [if cas then .both x.d else .dst x.d])
  let (va, s) := s.take x.a.name
  let (y, s) := s.take x.b.name
  let (v, s) := s.takeScope x.sc
  let (e, s) := if cas then s.take x.d else (0, s)
  let n := x.t.bytes
  aligned .atomic va n
  let (ps, s) ← s.openPieces (s.who true) .atomic va n n true
  let width := s.scopeWidth v
  match ps with
  | [] => .ok s
  | p :: _ => do
    let (bs, lost) := s.atomicSee p width
    let old := ofBytes bs
    let new := f x.t old (zext y x.t.width) (zext e x.t.width)
    s.meetNone .atomic va ps true new.isSome
    noLoss .atomic va lost
    let mail := s.mailHit ps
    let s ← s.atomicBefore (Ord4.isRel x.ord) width
    let s := s.atomicDo p (new.map fun m => toBytes m n) width x.nud.val
    let s := (s.atomicAfter (Ord4.isAcq x.ord) width).mailAfter ps mail
    let s ← s.record ps true new.isSome true (width ≠ 0)
    s.bindDst x.d (some (x.t.extend old)) 0

/-- AMO.ADD (R251). -/
def execAmoAdd (g : Guard) (x : Amo) (s : State) : Out := run (.amoAdd g x) g (amoBody (amoOp fun _ a b => a + b) false x) s

/-- AMO.AND (R251). -/
def execAmoAnd (g : Guard) (x : Amo) (s : State) : Out := run (.amoAnd g x) g (amoBody (amoOp fun _ a b => a &&& b) false x) s

/-- AMO.OR (R251). -/
def execAmoOr (g : Guard) (x : Amo) (s : State) : Out := run (.amoOr g x) g (amoBody (amoOp fun _ a b => a ||| b) false x) s

/-- AMO.XOR (R251). -/
def execAmoXor (g : Guard) (x : Amo) (s : State) : Out := run (.amoXor g x) g (amoBody (amoOp fun _ a b => a ^^^ b) false x) s

/-- AMO.MIN (R251). -/
def execAmoMin (g : Guard) (x : Amo) (s : State) : Out := run (.amoMin g x) g (amoBody (amoPick false) false x) s

/-- AMO.MAX (R251). -/
def execAmoMax (g : Guard) (x : Amo) (s : State) : Out := run (.amoMax g x) g (amoBody (amoPick true) false x) s

/-- AMO.SWAP (R251). -/
def execAmoSwap (g : Guard) (x : Amo) (s : State) : Out := run (.amoSwap g x) g (amoBody (amoOp fun _ _ b => b) false x) s

/-- AMO.CAS (R251): D is the expected value; a comparison that fails writes nothing. -/
def execAmoCas (g : Guard) (x : Amo) (s : State) : Out :=
  run (.amoCas g x) g (amoBody (fun _ old y e => if old = e then some y else none) true x) s

/-! ### FENCE (R252) -/

/-- A fence's operands: its scope's width. Log entry 51 (DEDUCED). -/
def State.fenceWidth (s : State) (sc : Scope) (c : Ctx) : Res (Nat × State) := do
  s.checkScope c sc
  s.prepare c (scopeOpr sc)
  let (v, s) := s.takeScope sc
  .ok (s.scopeWidth v, s)

/-- FENCE.acq (R110, R112). -/
def execFenceAcq (g : Guard) (sc : Scope) (s : State) : Out :=
  run (.fenceAcq g sc) g (fun c s => do
    let (w, s) ← s.fenceWidth sc c
    .ok (s.acquire w)) s

/-- FENCE.rel (R110, R112). -/
def execFenceRel (g : Guard) (sc : Scope) (s : State) : Out :=
  run (.fenceRel g sc) g (fun c s => do
    let (w, s) ← s.fenceWidth sc c
    s.release w) s

/-- FENCE.full (R110, R112). -/
def execFenceFull (g : Guard) (sc : Scope) (s : State) : Out :=
  run (.fenceFull g sc) g (fun c s => do
    let (w, s) ← s.fenceWidth sc c
    let s ← s.release w
    .ok (s.fullFence w)) s

/-! ### Barrier records (R253, R254) -/

/-- A barrier record. -/
structure BarRec where
  v : Bool
  flt : Bool
  phase : Nat
  parties : Nat
  arrived : Nat
  bytes : Nat
  bytes0 : Nat
  deriving DecidableEq, Repr

/-- A record from its 32 bytes; one whose reserved bits are not zero acts as V = 0. -/
def barOf (bs : List Byte) : BarRec :=
  let w0 := wordOf bs
  let w1 := wordOf (bs.drop 8)
  let w2 := wordOf (bs.drop 16)
  let w3 := wordOf (bs.drop 24)
  let resv := bits w0 61 48 ≠ 0 || bits w0 31 29 ≠ 0 || bits w0 15 13 ≠ 0 || bits w1 63 48 ≠ 0 || bits w2 63 48 ≠ 0 || w3 ≠ 0
  { v := bit w0 63 && !resv, flt := bit w0 62, phase := bits w0 47 32, parties := bits w0 28 16, arrived := bits w0 12 0
    bytes := bits w1 47 0, bytes0 := bits w2 47 0 }

/-- The bytes of a record. -/
def barBytes (r : BarRec) : List Byte :=
  wordBytes (wd (fld r.v.toNat 63 + fld r.flt.toNat 62 + fld r.phase 32 + fld r.parties 16 + r.arrived))
    ++ wordBytes (wd r.bytes) ++ wordBytes (wd r.bytes0) ++ wordBytes 0

/-- complete (R254). -/
def barComplete (r : BarRec) : BarRec :=
  if r.arrived = r.parties && r.bytes = 0 then { r with phase := (r.phase + 1) % 65536, arrived := 0, bytes := r.bytes0 } else r

/-- BARBYTES on a record that has V = 1. -/
def barCredit (r : BarRec) (n : Nat) : BarRec :=
  if r.flt then r else if r.bytes < n then { r with flt := true } else barComplete { r with bytes := r.bytes - n }

/-- TINFO of BARRIER (R255). -/
def barInfo (detail : Nat) (va : Word) : Word := memInfo 3 3 detail va

def barStop {α : Type} (detail : Nat) (va : Word) : Res α := .error (.trap cBARRIER (barInfo detail va))

/-- The record at an address, opened as one atomic of a width (R254) that writes it or not: the record, its place, the state. -/
def State.openBar (s : State) (va : Word) (width : Nat) (wr : Bool := true) : Res (BarRec × Piece × State) := do
  aligned .atomic va 32
  let (ps, s) ← s.openPieces (s.who true) .atomic va 32 32 true
  s.meetNone .atomic va ps true wr
  let p := ps.headD { loc := { what := .host, key := 0 }, off := 0, len := 32 }
  let (bs, lost) := s.atomicSee p width
  noLoss .atomic va lost
  .ok (barOf bs, p, s)

/-- The record written at its place; those that watch it learn of it (R254). -/
def State.putBar (s : State) (p : Piece) (r : BarRec) (width : Nat) (away : Bool := false) (hart : Option EngHart := none) : State :=
  (s.atomicDo p (some (barBytes r)) width 0 away hart).notify p.loc.key 32

/-- The record written by an instruction that is a release: its masks are those of the region it opens (R79, R83). -/
def State.endBar (s : State) (p : Piece) (r : BarRec) (width : Nat) : Res State := do
  let mail := s.mailHit [p]
  let s ← s.release width
  ((s.putBar p r width).mailAfter [p] mail).record [p] true true true (width ≠ 0)

/-- BARINIT (R254). -/
def execBarinit (g : Guard) (x : BarInit) (s : State) : Out :=
  run (.barinit g x) g (fun c s => do
    s.checkScope c x.sc
    s.prepare c ([srcOpr x.a, srcOpr x.b] ++ scopeOpr x.sc ++ [.src x.d false])
    let (va, s) := s.take x.a.name
    let (p, s) := s.take x.b.name
    let (v, s) := s.takeScope x.sc
    let width := s.scopeWidth v
    let (b, s) := s.take x.d
    let (r, pc, s) ← s.openBar va width
    if r.v && !r.flt && r.arrived ≠ 0 then barStop 2 va
    else if p = 0 || 5120 < p.toNat || 2 ^ 48 ≤ b.toNat then barStop 4 va
    else s.endBar pc { v := true, flt := false, phase := if r.v then r.phase else 0, parties := p.toNat, arrived := 0
                       bytes := b.toNat, bytes0 := b.toNat } width) s

/-- BARARR (R254): the FLT write of an arrival too many stands. -/
def execBararr (g : Guard) (x : BarDA) (s : State) : Out :=
  run (.bararr g x) g (fun c s0 => do
    s0.checkScope c x.sc
    s0.prepare c ([srcOpr x.a] ++ scopeOpr x.sc ++ [.dst x.d])
    let (va, s) := s0.take x.a.name
    let (v, s) := s.takeScope x.sc
    let width := s.scopeWidth v
    let (r, p, s) ← s.openBar va width
    if !r.v then barStop 3 va
    else if r.flt then barStop 1 va
    else if r.arrived = r.parties then .error (.trapIn (s.putBar p { r with flt := true } width) cBARRIER (barInfo 1 va))
    else do
      let s ← s.endBar p (barComplete { r with arrived := r.arrived + 1 }) width
      s.bindDst x.d (some (wd r.phase)) 0) s

/-- BARBYTES (R254). -/
def execBarbytes (g : Guard) (x : BarAB) (s : State) : Out :=
  run (.barbytes g x) g (fun c s => do
    s.checkScope c x.sc
    s.prepare c ([srcOpr x.a, srcOpr x.b] ++ scopeOpr x.sc)
    let (va, s) := s.take x.a.name
    let (n, s) := s.take x.b.name
    let (v, s) := s.takeScope x.sc
    let width := s.scopeWidth v
    let (r, p, s) ← s.openBar va width
    if !r.v then barStop 3 va
    else s.endBar p (barCredit r n.toNat) width) s

/-! ### An engine's credit (R255 to R257, R261) -/

/-- An engine's atomic on n bytes: the checks of R132 against every live region but the synchronising ones and its own; nothing is added to
its region. -/
def State.engineAtomic (s : State) (agent : Agent) (id : Nat) (w : Who) (va : Word) (n : Nat) : Except EngFault (List Piece × State) := do
  let (ps, s) ← s.enginePieces { w with noDev := true } .atomic va n
  s.engineCheck agent id ps true true va
  .ok (ps, s)

/-- BARBYTES of n bytes by an engine at its completion, as its release; an engine has no L1. -/
def State.engineCredit (s : State) (agent : Agent) (id : Nat) (w : Who) (va : Word) (n width : Nat) (away : Bool := false) :
    Except EngFault State := do
  let (ps, s) ← s.engineAtomic agent id w va 32
  let p := ps.headD { loc := { what := .host, key := 0 }, off := 0, len := 32 }
  let (bs, lost) := s.atomicSee p (max 1 width) away
  match lost with
  | some j => .error (.fault cMEMLOST 0 3 (va + wd j))
  | none =>
    let r := barOf bs
    if !r.v then .error (.fault cBARRIER 3 3 va)
    else .ok (s.putBar p (barCredit r n) (max 1 width) away (s.engHart agent id))

end Sys2Proof.Machine
end

