-- ==== Sys2Proof/Machine/Copy.lean ====
section
/-! DEFINITION. ACOPY, GATHER and SCATTER (R70 to R73, R256 to R258), the copy channels (R126 to R130, R259 to R262), and the events of
their engines. -/
namespace Sys2Proof.Machine

/-- Not for an optimistic handler (R310, R356). -/
def State.noOpt (s : State) (c : Ctx) : Res Unit := if s.optimistic then optIll 0 c else .ok ()

/-! ### Engine faults as status bits (R72, R257) -/

/-- CAUSE, DETAIL, KIND, LEVEL and FAULT of a token or record. Log entry 40 (DEDUCED). -/
def faultBits (cause detail kind level : Nat) : Nat := fld cause 24 + fld detail 20 + fld kind 18 + fld level 16 + fld 1 6

/-- An engine's access sorted out: an absent page to wait for, else what it gave or the status and address of its fault. -/
def tryEng {α : Type} (r : Except EngFault α) (kind : Nat) : Except Nat (Except (Nat × Word) α) :=
  match r with
  | .ok a => .ok (.ok a)
  | .error (.fault c d l va) => .ok (.error (faultBits c d kind l, va))
  | .error (.absent page) => .error page

/-- An event whose access may find an absent page: its pull begins and the event stays due (R410). Log entry 39 (DEDUCED). -/
def State.orPull (s : State) (r : Except Nat State) (lnid : Nat := 0) : State :=
  match r with
  | .ok t => t
  | .error page => s.beginPull page lnid

/-! ### ACOPY (R256, R257) -/

/-- ACOPY (R256). -/
def execAcopy (g : Guard) (x : AcopyArgs) (s : State) : Out :=
  run (.acopy g x) g (fun c s => do
    s.checkScope c x.sc
    s.prepare c ([runOpr x.a 4] ++ scopeOpr x.sc ++ [.runDst x.tok 2]) (s.noOpt c)
    let (ws, s) := s.takeRun x.a.first 4
    let (v, s) := s.takeScope x.sc
    let len := (ws.getD 2 0).toNat
    let bar := ws.getD 3 0
    if 2 ^ 24 < len then ill .form c
    else do
      need (bar.toNat % 32 = 0) cALIGN (memInfo 3 3 2 bar)
      let t := s.phys x.tok.num
      s.unboundAll [t, t + 1]
      if 32 ≤ s.eng.acopy.length then .error (.wait .room)
      else do
        let width := s.scopeWidth v
        let s ← s.release width
        let a : Acopy := {
          id := s.core.nextBind, src := ws.getD 0 0, dst := ws.getD 1 0, len := len, bar := bar, nud := x.nud.val
          scope := v, asid := s.regs.asid, sup := s.sup, lnid := s.launchCtx.lnid.toNat }
        let s := (s.bind [t] none).bind [t + 1] none 0 (some width)
        .ok { s with eng := { s.eng with acopy := s.eng.acopy ++ [a] } }) s

/-- Who a command of the matrix unit or the copy engine translates as (R19, R22, R26): no device page is within its reach.
Log entry 5 (DESIGN CHOICE). -/
def engineWho (asid : Nat) (sup : Bool) (via : Via) : Who := { asid := asid, sup := sup, noDev := true, via := via }

/-- Who a system core, I/O engine or collective engine translates as (R22). Those of the partition lie on die 0, whose walkers they use, since no
rule places them or names a TLB of theirs. Log entry 5 (DESIGN CHOICE). -/
def unitWho (asid : Nat) (sup : Bool) : Who := { asid := asid, sup := sup, via := .die 0 }

/-- Whether a scope of the core's reaches those engines (R103). -/
def State.reachesUnits (s : State) (v : Word) : Bool := scClass v = 3 && !s.unitsFar || 4 ≤ scClass v

/-- What a release by an engine of a width finds (R136): the status it reports where a link took a write of its. Log entry 43 (DEDUCED). -/
def State.linkStatus (s : State) (agent : Agent) (id width st : Nat) : Nat × State :=
  let (lost, s) := s.engRelease (s.engHart agent id) width
  (if st = 0 && lost.isSome then faultBits cMEMLOST 0 1 3 else st, s)

/-- Bytes an engine writes: how many leading ones are written, the status, the state. -/
def State.engPut (s : State) (id : Nat) (w : Who) (dst : Word) (bs : List Byte) (nud : Nat) (far : Bool := false) :
    Except Nat (Nat × Nat × State) := do
  match ← tryEng (s.engineWrite .ce id w dst bs nud far) 1 with
  | .ok t => .ok (bs.length, 0, t)
  | .error (st, va) =>
    let n := (va - dst).toNat
    match ← tryEng (s.engineWrite .ce id w dst (bs.take n) nud far) 1 with
    | .ok t => .ok (n, st, t)
    | .error _ => .ok (0, st, s)

/-- The credit of a completed copy (R255): its status, and the state. -/
def State.engBar (s : State) (id : Nat) (w : Who) (bar : Word) (n width : Nat) (far : Bool := false) : Except Nat (Nat × State) := do
  if bar = 0 then .ok (0, s)
  else match ← tryEng (s.engineCredit .ce id w bar n width far) 2 with
    | .ok t => .ok (0, t)
    | .error (st, _) => .ok (st, s)

/-- An ACOPY changes. -/
def State.updAcopy (s : State) (a : Acopy) : State :=
  { s with eng := { s.eng with acopy := s.eng.acopy.map fun x => if x.id = a.id then a else x } }

/-- The copy's bytes are written, its barrier credited, and T + 1 filled as the engine's release (R127, R257). Log entry 40 (DEDUCED). -/
def State.finishAcopy (s : State) (a : Acopy) : Except Nat State := do
  let w := engineWho a.asid a.sup (.cluster (clusterOf s.core.number))
  let width := s.scopeWidth a.scope
  let (n, st, s) ← match a.fault with
    | some st => .ok (0, st.toNat, s)
    | none => s.engPut a.id w a.dst a.data a.nud
  let s := if 3 ≤ width then s.writeBack else s
  let (st, s) := s.linkStatus .ce a.id width st
  let (st, s) ← if st = 0 then s.engBar a.id w a.bar a.len width else .ok (st, s)
  let s := ((s.endCommand .ce a.id).fillToken (a.id + 1) [wd (fld n 39 + st)]).countCause (st / 2 ^ 24 % 256)
  .ok { s with eng := { s.eng with acopy := s.eng.acopy.filter fun x => x.id ≠ a.id } }

/-- Acceptance (R125, R257): the acquire of system scope, the promise, the whole source read. A copy of no bytes completes at once.
Log entry 7 (DESIGN CHOICE). Log entry 40 (DEDUCED). -/
def State.acceptAcopy (s : State) (a : Acopy) : Except Nat State := do
  let w := engineWho a.asid a.sup (.cluster (clusterOf s.core.number))
  let s := s.selfInvalidate.addOther { id := a.id, agent := .ce, device := s.regs.devnum, core := s.core.number, own := true }
  if a.len = 0 then (s.fillToken a.id [wd s.cyc]).finishAcopy a
  else
    let prom := wd (min (2 ^ 64 - 1) (s.cyc % 2 ^ 64 + Config.promise s.ticks))
    match ← tryEng (s.engineRead .ce a.id w a.src a.len a.nud) 0 with
    | .ok (bs, t) => .ok ((t.fillToken a.id [prom]).updAcopy { a with accepted := true, data := bs })
    | .error (st, _) => .ok ((s.fillToken a.id [prom]).updAcopy { a with accepted := true, fault := some (wd st) })

/-- The copy engine accepts the oldest ACOPY not yet accepted (R257). -/
def execAcopyAccept (s : State) : Out :=
  match s.eng.acopy.find? fun a => !a.accepted with
  | some a => (s.orPull (s.acceptAcopy a) a.lnid).done
  | none => s.done

/-- The oldest accepted ACOPY completes or faults (R257). -/
def execAcopyComplete (s : State) : Out :=
  match s.eng.acopy.find? fun a => a.accepted with
  | some a => (s.orPull (s.finishAcopy a) a.lnid).done
  | none => s.done

/-! ### GATHER and SCATTER (R70 to R73, R258) -/

/-- The control word's form (R258). -/
def gatherForm (ctl : Word) (wide : Bool) (v : Nat) : Bool :=
  let m := bits ctl 14 8
  let size := 2 ^ bits ctl 2 0
  let off := bits ctl 50 32
  bits ctl 63 51 = 0 && bits ctl 31 15 = 0 && bits ctl 7 3 = 0 && 1 ≤ m && m ≤ 64 && off % size = 0
    && off + m * size ≤ 2 ^ 19 && !(wide && 32 < m && v = 63)

/-- Lane i's index among the words of the index vectors (R70). -/
def laneIndex (wide : Bool) (ws : List Word) (i : Nat) : Int :=
  if wide then sextI (ws.getD i 0).toNat 64 else (bits (ws.getD (i / 2) 0) (32 * (i % 2) + 31) (32 * (i % 2)) : Nat)

/-- A lane formed and translated at issue (R70). One whose leaf of memory type 00 or 01 names the host window, of which R19 says nothing,
faults with PROT DEVTYPE and the leaf's LEVEL. Log entry 56 (DESIGN CHOICE). -/
def State.formLane (s : State) (k : Kind) (size : Nat) (va : Word) : Except Miss (Lane × State) :=
  let kind := if k = .write then 1 else 0
  let bad (c d l : Nat) : Except Miss (Lane × State) := .ok ({ va := va, fault := some (faultBits c d kind l) }, s)
  if inAperture va then bad cPROT 5 3
  else match s.translate (s.who true) k va with
    | .error (.fault c d l) => bad c d l
    | .error (.absent p) => .error (.absent p)
    | .ok (l, t) =>
      if va.toNat % size ≠ 0 then bad cALIGN 0 3
      else if l.what ≠ .memory then bad cPROT 5 l.level
      else .ok ({ va := va, key := l.key, mt := l.mt, rc := l.rc }, t)

/-- The lanes in ascending order. -/
def State.formLanes (s : State) (k : Kind) (size : Nat) : List Word → Res (List Lane × State)
  | [] => .ok ([], s)
  | va :: l => match s.formLane k size va with
    | .error m => .error (s.missStop k (m, va))
    | .ok (x, s) => do
      let (xs, s) ← s.formLanes k size l
      .ok (x :: xs, s)

/-- The body of GATHER and SCATTER. -/
def gatherBody (scatter : Bool) (x : GatherArgs) (c : Ctx) (s : State) : Res State := do
  s.checkScope c x.sc
  s.prepare c ([runOpr x.a 2, vsrcOpr x.b] ++ scopeOpr x.sc ++ [.runDst x.tok 2]) (s.noOpt c)
  let (ws, s) := s.takeRun x.a.first 2
  let base := ws.getD 0 0
  let ctl := ws.getD 1 0
  let (ix, s) := s.takeVec x.b.v.val
  let (v, s) := s.takeScope x.sc
  if !gatherForm ctl x.wide x.b.v.val then ill .form c
  else do
    let m := bits ctl 14 8
    let size : Nat := 2 ^ bits ctl 2 0
    let more := x.wide && 32 < m
    let second : Opr := .vsrc (x.b.v.val + 1) x.b.trap
    if more then do s.checkField second; firstFound (s.examine [] second) else .ok ()
    let (iy, s) := if more then s.takeVec (x.b.v.val + 1) else ([], s)
    let t := s.phys x.tok.num
    s.unboundAll [t, t + 1]
    let width := max 3 (s.scopeWidth v)
    let s ← s.release width
    let vas := (List.range m).map fun i => base + wdI (laneIndex x.wide (ix ++ iy) i * (size : Nat))
    let (lanes, s) ← s.formLanes (if scatter then .write else .read) size vas
    let g : Gather := {
      id := s.core.nextBind, scatter := scatter, nud := x.nud.val, size := size, off := bits ctl 50 32, lanes := lanes
      lnid := s.launchCtx.lnid.toNat, width := width }
    let s := s.bind [t, t + 1] none 0 (some width)
    .ok { s with eng := { s.eng with gather := s.eng.gather ++ [g] } }

/-- GATHER (R258). -/
def execGather (g : Guard) (x : GatherArgs) (s : State) : Out := run (.gather g x) g (gatherBody false x) s

/-- SCATTER (R258). -/
def execScatter (g : Guard) (x : GatherArgs) (s : State) : Out := run (.scatter g x) g (gatherBody true x) s

/-- A lane of a gather command, and its place in the packed area, as pieces. -/
def State.lanePieces (s : State) (g : Gather) (i : Nat) (l : Lane) : Piece × Piece :=
  ({ loc := { what := .memory, key := l.key, mt := l.mt, rc := l.rc, remote := s.isRemote l.key }, off := 0, len := g.size },
   { loc := { what := .store, key := storeKey s.core.number (g.off + i * g.size), core := s.core.number }, off := 0, len := g.size })

/-- A lane performed at its home L2 (R71 to R73, R132): never through the RDC or an L1. -/
def State.serveLane (s : State) (g : Gather) (i : Nat) (l : Lane) : Except EngFault State := do
  let (m, p) := s.lanePieces g i l
  s.engineCheck .gather g.id [p] (!g.scatter) false l.va
  s.engineCheck .gather g.id [m] g.scatter false l.va
  let (src, dst) := if g.scatter then (p, m) else (m, p)
  let s ← s.growOther .gather g.id [src] true false
  let s ← s.growOther .gather g.id [dst] false true
  let s := if l.mt ≠ 0 then s.purgeRange l.key g.size else s.reach m.loc g.size g.nud .far (!g.scatter) g.scatter false
  match s.homeLost src.loc.key g.size with
  | some _ => .error (.fault cMEMLOST 0 3 l.va)
  | none => .ok (s.writeOver l.va dst.loc.key (s.homeBytes src.loc.key g.size) (some (s.engHart .gather g.id)))

/-- A lane's part in the done mask and the status. Log entry 40 (DEDUCED). -/
def Gather.note (g : Gather) (i : Nat) (f : Option Nat) : Gather :=
  match f with
  | none => { g with mask := g.mask ||| 2 ^ i }
  | some st => if g.status = 0 then { g with status := st + i } else g

/-- The lanes served in ascending order; one that finds no entry of a region table waits, and those after it (R85). -/
def State.serveLanes (s : State) (g : Gather) (i : Nat) : List Lane → Gather × State
  | [] => ({ g with served := true }, s)
  | l :: ls =>
    match l.fault with
    | some st => s.serveLanes (g.note i (some st)) (i + 1) ls
    | none => match s.serveLane g i l with
      | .ok t => t.serveLanes (g.note i none) (i + 1) ls
      | .error (.fault c d lv _) => s.serveLanes (g.note i (some (faultBits c d (if g.scatter then 1 else 0) lv))) (i + 1) ls
      | .error (.absent page) => ({ g with next := i }, s.beginPull page)

/-- The gather engines serve the oldest command not yet served (R71). -/
def execGatherEngineServe (s : State) : Out :=
  match s.eng.gather.find? fun g => !g.served with
  | none => s.done
  | some g =>
    let s := if g.next = 0 then
        s.addOther { id := g.id, agent := .gather, device := s.regs.devnum, core := s.core.number, own := true }
      else s
    let (h, s) := s.serveLanes g g.next (g.lanes.drop g.next)
    ({ s with eng := { s.eng with gather := s.eng.gather.map fun (x : Gather) => if x.id = g.id then h else x } }).done

/-- The status word of a token (R72): KIND names the command where no lane has faulted too. -/
def Gather.statusWord (g : Gather) : Word := wd (if g.status = 0 then fld g.scatter.toNat 18 else g.status)

/-- Both words of the token fill (R72). -/
def execGatherTokenFill (s : State) : Out :=
  match s.eng.gather.find? fun g => g.served with
  | none => s.done
  | some g =>
    let (st, s) := s.linkStatus .gather g.id g.width g.status
    let g := { g with status := st }
    let s := ((s.endCommand .gather g.id).fillToken g.id [wd g.mask, g.statusWord]).countCause (g.status / 2 ^ 24 % 256)
    ({ s with eng := { s.eng with gather := s.eng.gather.filter fun x => x.id ≠ g.id } }).done

/-! ### Copy channels (R259 to R262) -/

/-- The number of channel k of cluster c. -/
def chanNo (c k : Nat) : Nat := c * 16 + k

def State.chan (s : State) (n : Nat) : Chan := mget {} s.eng.chans n

def State.setChan (s : State) (n : Nat) (ch : Chan) : State := { s with eng := { s.eng with chans := mput {} s.eng.chans n ch } }

/-- EN, the scope word of CFG.SCOPE, ASID (R259). -/
def Chan.en (ch : Chan) : Bool := bit ch.cfg 63
def Chan.scope (ch : Chan) : Word := let k := bits ch.cfg 34 32; wd (fld (if 1 ≤ k && k ≤ 5 then k else 5) 32)
def Chan.who (ch : Chan) (n : Nat) : Who := { engineWho (bits ch.cfg 31 16) ch.sup (.cluster (n / 16)) with own := some ch.by_ }

/-- STAT (R259). -/
def Chan.stat (ch : Chan) : Word :=
  wd (fld (if ch.walk = 0 then 0 else 1) 63 + fld ch.halt.toNat 62 + fld ch.badkick.toNat 61 + fld ch.kicks.length 48 + ch.nextid % 2 ^ 48)

/-- The eight cores of a cluster (R2). -/
def clusterCores (c : Nat) : List Nat :=
  (List.range 2).flatMap fun j => (List.range 4).map fun i => (c / 32 * 2 + j) * 128 + c % 32 * 4 + i

/-- Whether a scope of this core's reaches the copy engine of a cluster (R103). -/
def State.reachesEngine (s : State) (v : Word) (c : Nat) : Bool := (clusterCores c).all fun n => s.reachesFrom s.core.number v n

/-- What a kick at a scope pairs with (R103, R126): the width of its release, if it reaches the engine; nothing for another hart's kick. -/
def State.kickPair (s : State) (n : Nat) (scope : Option Word) : Option Nat :=
  match scope with
  | some v => if s.reachesEngine v (n / 16) then some (s.scopeWidth v) else none
  | none => none

/-- A kick by a core (R126, R259, R261): none where the queue is full, so that the store waits. A disabled channel serves it as an empty chain.
Log entry 40 (DEDUCED). -/
def State.kickChan (s : State) (n : Nat) (v : Word) (scope : Option Word) (core : Nat) : Option State :=
  let ch := s.chan n
  if v.toNat % 64 ≠ 0 then some (s.setChan n { ch with kick := v, badkick := true })
  else if 8 ≤ ch.kicks.length then none
  else some (s.setChan n { ch with kick := v, kicks := if ch.en then ch.kicks ++ [⟨v, s.kickPair n scope, core, if core = s.core.number then s.taskLnid else 0⟩] else ch.kicks })

/-- A write of CFG by this core (R259): EN = 0 stops the channel after a record it has fetched, and EN = 1 after it forgets what the buffers
have still out, since the first multicast into each does not wait (R262). Log entry 40 (DEDUCED). -/
def State.cfgChan (s : State) (n : Nat) (v : Word) : State :=
  let ch := s.chan n
  let cfg := wd (fld (bit v 63).toNat 63 + fld (bits v 34 32) 32 + fld (s.regs.asid % 65536) 16)
  if ch.walk ≠ 0 && bit v 63 then s
  else if !bit v 63 then s.setChan n { ch with cfg := cfg, sup := s.sup, walk := if ch.waiting.isSome then ch.walk else 0, kicks := [] }
  else if ch.en then s.setChan n { ch with cfg := cfg, sup := s.sup }
  else s.setChan n { ch with cfg := cfg, sup := s.sup, nextid := 1, completed := 0, frees := [], receivers := [] }

/-- A write of STAT (R259, R261). -/
def State.statChan (s : State) (n : Nat) (v : Word) : State :=
  let ch := s.chan n
  let ch := if bit v 61 then { ch with badkick := false } else ch
  s.setChan n (if bit v 62 && ch.halt then { ch with halt := false, walk := if ch.en then ch.faultrec else 0 } else ch)

/-- A free store (R130). -/
def State.freeChan (s : State) (n : Nat) (v : Word) : State :=
  let ch := s.chan n
  let b := bits v 3 0
  let k := mget 0 ch.frees b
  s.setChan n { ch with free := v, frees := if k < mget 0 ch.receivers b then mput 0 ch.frees b (k + 1) else ch.frees }

/-- An event of the outside that cannot be served yet comes again. -/
def State.again (s : State) : State := { s with retry := true }

/-- An event of the outside whose access may find an absent page. Log entry 39 (DEDUCED). -/
def State.orAgain (s : State) (r : Except Nat State) (lnid : Nat := 0) : State :=
  match r with
  | .ok t => t
  | .error page => (s.beginPull page lnid).again

/-- A release store of another core to a KICK register arrives (R261). -/
def execKick (c k : Nat) (x : KickBy) (s : State) : Out :=
  match s.kickChan (chanNo c k) x.v none x.core with
  | some t => t.done
  | none => s.again.done

/-- CFG is written (R259). -/
def execCfg (c k : Nat) (v : Word) (s : State) : Out := (s.cfgChan (chanNo c k) v).done

/-- STAT is written (R261). -/
def execHaltResume (c k : Nat) (v : Word) (s : State) : Out := (s.statChan (chanNo c k) v).done

/-- FREE is written (R130). -/
def execFree (c k : Nat) (v : Word) (s : State) : Out := (s.freeChan (chanNo c k) v).done

/-! #### A transfer record -/

/-- A transfer record's words (R260). -/
structure XRec where
  next : Word
  src : Word
  dst : Word
  w3 : Word
  rect : Word
  bar : Word
  w7 : Word
  deriving DecidableEq, Repr

def xrecOf (bs : List Byte) : XRec :=
  let w (k : Nat) : Word := wordOf ((bs.drop (8 * k)).take 8)
  ⟨w 0, w 1, w 2, w 3, w 4, w 5, w 7⟩

def XRec.multi (r : XRec) : Bool := bits r.w3 63 62 = 1
def XRec.nud (r : XRec) : Nat := bits r.w3 61 58
def XRec.len (r : XRec) : Nat := bits r.w3 31 0
def XRec.buf (r : XRec) : Nat := bits r.dst 59 56
def XRec.arrival (r : XRec) : Nat := bits r.dst 50 32
def XRec.off (r : XRec) : Nat := bits r.dst 18 0

/-- The form of a record (R260, R261). A misaligned arrival word, a buffer that runs beyond the local store and a copy's RECT that is not zero
break R260's layout, and fail it too, since R261 names no other outcome. Log entry 60 (DESIGN CHOICE). -/
def XRec.formOk (r : XRec) : Bool :=
  bits r.w3 63 62 ≤ 1 && bits r.w3 57 32 = 0 && r.next.toNat % 64 = 0
    && (if r.multi then bits r.dst 63 60 = 0 && bits r.dst 55 51 = 0 && bits r.dst 31 19 = 0 && r.arrival % 8 = 0 && r.off + r.len ≤ 2 ^ 19
        else r.rect = 0)

/-- RECT of a multicast passes R101 but for the issuing core it has none of; R260 asks for a RECT word, so that one of another CLASS does not
pass. Log entry 60 (DESIGN CHOICE). -/
def State.rectOk (s : State) (v : Word) : Bool :=
  bits v 63 30 = 0 && bits v 23 22 = 0 && !bit v 15 && !bit v 7
    && scX0 v ≤ scX1 v && scY0 v ≤ scY1 v && scX1 v < s.sys.w && scY1 v < s.sys.h

/-- The cores of a rectangle in ascending number. -/
def rectCores (v : Word) : List Nat :=
  (List.range (scY1 v + 1 - scY0 v)).flatMap fun j => (List.range (scX1 v + 1 - scX0 v)).map fun i => (scY0 v + j) * 128 + scX0 v + i

/-- The identity under which a channel's accesses are checked. -/
def chanId (n : Nat) : Nat := 2 ^ 40 + n

/-- The status of the conflict that a channel's write to a core's local store meets (R132). -/
def State.storeMeets (s : State) (n c off len : Nat) (sync : Bool) : Option Nat :=
  match s.engineCheck .ce (chanId n) [{ loc := { what := .store, key := storeKey c off, core := c }, off := 0, len := len }] true sync (wd off) with
  | .error (.fault e d l _) => some (faultBits e d 1 l)
  | _ => none

/-- A word of this core's local store that a channel has released: its first read acquires at the release's scope (R95, R107, R127). -/
def State.mailAt (s : State) (key c : Nat) (ch : Chan) : State :=
  if c = s.core.number then { s with core := { s.core with mail := ⟨key, 8, s.scopeWidth ch.scope⟩ :: s.core.mail } } else s

/-- The arrival words stored one by one, up to one that meets a live region: its status, or 0 (R130, R132, R262). -/
def State.arrivals (s : State) (n : Nat) (r : XRec) (id : Nat) : List Nat → Nat × State
  | [] => (0, s)
  | c :: cs => match s.storeMeets n c r.arrival 8 true with
    | some st => (st, s)
    | none => ((s.writeHome (storeKey c r.arrival) (wordBytes (wd id))).mailAt (storeKey c r.arrival) c (s.chan n)).arrivals n r id cs

/-- A multicast's writes (R130, R262): the buffers, whose free counts start again, then, after a release, the arrival words; bytes written to
every receiver, and the status of a conflict. -/
def State.multicast (s : State) (n : Nat) (r : XRec) (id : Nat) (bs : List Byte) (release : State → State) : Nat × Nat × State :=
  let cores := rectCores r.rect
  match cores.findSome? fun c => s.storeMeets n c r.off r.len false with
  | some st => (0, st, s)
  | none =>
    let ch := s.chan n
    let s := s.setChan n { ch with frees := mput 0 ch.frees r.buf 0, receivers := mset ch.receivers r.buf (some cores.length) }
    let s := release (cores.foldl (fun s c => s.writeHome (storeKey c r.off) bs) s)
    let (st, s) := s.arrivals n r id cores
    (r.len, st, s)

/-- A record whose buffer has not come back (R130). -/
def Chan.bufferBusy (ch : Chan) (r : XRec) : Bool :=
  r.multi && (match mfind ch.receivers r.buf with
    | some k => mget 0 ch.frees r.buf ≠ k
    | none => false)

/-- The status of a record that its checks refuse (R261), or 0. KIND and LEVEL of FORM and BADSCOPE, which R261 does not give, are 0.
Log entry 60 (DESIGN CHOICE). -/
def State.refusedRecord (s : State) (r : XRec) : Nat :=
  if !r.formOk then faultBits cILLEGAL 7 0 0
  else if r.multi && !s.rectOk r.rect then faultBits cILLEGAL 12 0 0
  else if r.bar.toNat % 32 ≠ 0 then faultBits cALIGN 2 2 3
  else 0

/-- Perform a record of identifier id (R261, R262): bytes done, status, state. -/
def State.perform (s : State) (n : Nat) (r : XRec) (id : Nat) (far : Bool) (release : State → State) : Except Nat (Nat × Nat × State) := do
  let ch := s.chan n
  let w := ch.who n
  let width := s.scopeWidth ch.scope
  if s.refusedRecord r ≠ 0 then .ok (0, s.refusedRecord r, s)
  else match ← tryEng (s.engineRead .ce (chanId n) w r.src r.len r.nud far) 0 with
    | .error (st, _) => .ok (0, st, s)
    | .ok (bs, t) => do
      let (k, st, t) ← if r.multi then .ok (t.multicast n r id bs release) else t.engPut (chanId n) w r.dst bs r.nud far
      if st ≠ 0 then .ok (k, st, t)
      else do
        let (st, t) := (release t).linkStatus .ce (chanId n) width 0
        let (st, t) ← if st = 0 then t.engBar (chanId n) w r.bar r.len width far else .ok (st, t)
        .ok (k, st, t)

/-- The channel's engine lies on another die, whose RDC is not this one. Log entry 40 (DEDUCED). -/
def State.farCluster (s : State) (c : Nat) : Bool := s.dieOf c ≠ s.die

/-- The channel stops at a record that faulted, or that it cannot fetch, number or complete, for which the spec gives no other report (R261).
Log entry 60 (DESIGN CHOICE). -/
def Chan.stopAt (ch : Chan) (a : Word) : Chan := { ch with halt := true, faultrec := a, walk := 0, waiting := none }

/-- A word that a channel has released for the hart whose kick it paired with (R95, R127). -/
def State.chanMail (s : State) (n : Nat) (va : Word) : State :=
  match (s.chan n).pair with
  | some width => s.addMail ((s.chan n).who n) va 8 width
  | none => s

/-- The region of a channel's record begins at its fetch, and ends when it is over (R125): a command of this core's where that kicked the
chain. -/
def State.openChan (s : State) (n : Nat) : State :=
  let by_ := (s.chan n).by_
  s.addOther { id := chanId n, agent := .ce, device := s.regs.devnum, core := by_, own := by_ = s.core.number }
def State.closeChan (s : State) (n : Nat) : State :=
  { s with mem := { s.mem with
      others := s.mem.others.filter fun o => !o.isCmd .ce (chanId n)
      tables := mmap [] (List.filter fun q => !(s.cmdRun .ce (chanId n) 0 0).ofRegion q) s.mem.tables } }

/-- The completed-ID word (R128): a release store, which a kicking hart's first read acquires (R95); whether a live region was met. It is not
stored where it cannot be reached. Log entry 40 (DEDUCED). -/
def State.storeCid (s : State) (n : Nat) (far : Bool) (id : Nat) : Except Nat (Bool × State) := do
  let ch := s.chan n
  let w := ch.who n
  match ← tryEng (s.engineWrite .ce (chanId n) w ch.cidaddr (wordBytes (wd id)) 15 far true) 1 with
  | .ok t => .ok (false, t.chanMail n ch.cidaddr)
  | .error (st, _) => .ok (st / 2 ^ 24 % 256 = cMMX, s)

/-- A numbered record is performed and completed (R261): word 7, the completed-ID word, the next record. Where word 7 cannot be stored, or a
release store of its completion meets a live region, the channel halts at the record, since that is where software looks; R132 names no
other report. Log entry 60 (DESIGN CHOICE). -/
def State.finishRecord (s : State) (n : Nat) (a : Word) (r : XRec) (id : Nat) (far : Bool) : Except Nat State := do
  let ch := s.chan n
  let release (s : State) : State := if 3 ≤ s.scopeWidth ch.scope && !far then s.writeBack else s
  let (k, st, s) ← s.perform n r id far release
  let s := (release s).countCause (st / 2 ^ 24 % 256)
  let (bad, s) ← match ← tryEng (s.engineWrite .ce (chanId n) (ch.who n) (a + 56) (wordBytes (wd (fld k 32 + st))) 15 far true) 1 with
    | .ok t => .ok (false, t.chanMail n (a + 56))
    | .error _ => .ok (true, s)
  let (met, s) ← s.storeCid n far id
  let s := (release s).closeChan n
  let ch := { s.chan n with completed := id, waiting := none }
  .ok (s.setChan n (if st ≠ 0 || bad || met then ch.stopAt a else { ch with walk := if ch.en then r.next else 0 }))

/-- Fetch the record the channel walks (R125, R261): an acquire, which opens its region; it is numbered. One on another die does not pass this
RDC. Log entry 40 (DEDUCED). One that cannot be fetched or numbered halts it. Log entry 60 (DESIGN CHOICE). -/
def State.fetchRecord (s : State) (n : Nat) (a : Word) (far : Bool) : Except Nat State := do
  let ch := s.chan n
  let s := (if far then s else s.selfInvalidate).openChan n
  match ← tryEng (s.engineRead .ce (chanId n) (ch.who n) a 64 15 far true) 0 with
  | .error (st, _) => .ok (((s.countCause (st / 2 ^ 24 % 256)).closeChan n).setChan n (ch.stopAt a))
  | .ok (bs, s) =>
    if !bit (xrecOf bs).w7 0 then .ok ((s.closeChan n).setChan n { ch with walk := 0 })
    else
      let id := ch.nextid % 2 ^ 48
      match ← tryEng (s.engineWrite .ce (chanId n) (ch.who n) (a + 48) (wordBytes (wd id)) 15 far) 1 with
      | .error (st, _) => .ok (((s.countCause (st / 2 ^ 24 % 256)).closeChan n).setChan n (ch.stopAt a))
      | .ok s => .ok (s.setChan n { ch with nextid := (ch.nextid + 1) % 2 ^ 48, waiting := some (id, bs) })

/-- The channel's next step on its chain (R130, R261): the fetch of a record, or its performance once its buffer is back.
Log entry 40 (DEDUCED). Log entry 60 (DESIGN CHOICE). -/
def State.oneRecord (s : State) (c n : Nat) (a : Word) : Except Nat State :=
  let ch := s.chan n
  match ch.waiting with
  | some (id, bs) =>
    let r := xrecOf bs
    if s.refusedRecord r = 0 && ch.bufferBusy r then .ok s else s.finishRecord n a r id (s.farCluster c)
  | none => s.fetchRecord n a (s.farCluster c)

/-- Channel k of cluster c fetches a record, or performs the one it has fetched (R261); the next queued kick starts where no chain is walked. A record is fetched,
performed and completed before the next, although R261 allows up to 8 in progress. Log entry 60 (DESIGN CHOICE). -/
def execTransferRecord (c k : Nat) (s : State) : Out :=
  let n := chanNo c k
  let ch := s.chan n
  if !(ch.en || ch.waiting.isSome) || ch.halt then s.done
  else
    let ch := match ch.kicks with
      | x :: ks => if ch.walk = 0 then { ch with walk := x.va, pair := x.pair, by_ := x.core, lnid := x.lnid, kicks := ks } else ch
      | [] => ch
    let s := s.setChan n ch
    if ch.walk = 0 then s.done else (s.orPull (s.oneRecord c n ch.walk) ch.lnid).done

/-- A channel register as a load reads it (R259). -/
def Chan.reg (ch : Chan) (off : Nat) : Word :=
  match off with
  | 0x00 => ch.kick
  | 0x08 => ch.cfg
  | 0x10 => ch.stat
  | 0x18 => ch.free
  | 0x20 => ch.cidaddr
  | 0x28 => ch.faultrec
  | _ => 0

end Sys2Proof.Machine
end

