-- ==== Sys2Proof/Machine/Sched.lean ====
section
/-! DEFINITION. Tasks: handler descriptors (R155), pools and windows (R156, R157, R164), delivery (R160), dispatch (R158, R159, R161, R348),
leaving the core (R163, R165), forerunner mode (R168), stealing (R346, R347), rollback (R363, R364). -/
namespace Sys2Proof.Machine

/-! ### Handler descriptors (R155) -/

/-- A footprint range: payload word of its address, payload word of its length or 7, LEN. -/
structure Range where
  aw : Nat
  lw : Nat
  len : Nat
  deriving DecidableEq, Repr

/-- A handler descriptor. -/
structure Head where
  cls : Nat := 0
  high : Bool := false
  optimistic : Bool := false
  nozero : Bool := false
  budget : Nat := 0
  ranges : List Range := []
  deriving DecidableEq, Repr

/-- What reading a descriptor finds. -/
inductive HeadRead where
  | ok (h : Head)
  | fault (cause : Nat) (info : Word)
  | absent (page : Nat)
  deriving DecidableEq, Repr

/-- The entry of a record's word 0, a canonical address (R12, R154). -/
def entryOf (w0 : Word) : Word := wdI (sextI (bits w0 55 2 * 4) 56)

/-- BADHD (R206). -/
def badHead : HeadRead := .fault cILLEGAL (illInfo Ill.badHd.code 0)

/-- A range from its 32 bits: none where malformed; a range not present where V is 0. -/
def rangeOf (x : Nat) : Option (Option Range) :=
  let r : Range := ⟨x % 8, x / 16 % 8, x / 256 % 4096⟩
  if x / 2 ^ 20 % 4096 ≠ 0 || x / 128 % 2 = 1 || r.lw = 6 || 6 ≤ r.aw then none
  else if x / 8 % 2 = 0 then some none
  else if r.lw = 7 && r.len = 0 then none
  else some (some r)

/-- The descriptor's two words read. -/
def headOf (d0 d1 : Word) : HeadRead :=
  if bits d0 63 40 ≠ 0 || bits d0 7 5 ≠ 0 then badHead
  else match rangeOf (bits d1 31 0), rangeOf (bits d1 63 32) with
    | some a, some b =>
      let budget := bits d0 39 8
      .ok { cls := bits d0 1 0, high := bit d0 4, optimistic := bit d0 3, nozero := bit d0 2
            budget := if budget = 0 then 2 ^ 32 - 1 else budget, ranges := a.toList ++ b.toList }
    | _, _ => badHead

/-- Bytes read with execute permission, as a fetch reads them: past the caches where their page is uncached (R20). -/
def State.readExec (s : State) (w : Who) (va : Word) (n : Nat) : Except (Miss × Word) (List Byte × State) :=
  match s.translateAll w .exec va 0 n (pagesOf n) with
  | .error e => .error e
  | .ok (ps, t) =>
    let t := ps.foldl (fun t p => if p.loc.what = .memory && p.loc.mt = 1 then t.purgeRange p.loc.key p.len else t) t
    let lost := ps.findSome? fun p => (t.firstLost p.loc.key p.len).map fun j => p.off + j
    match lost with
    | some j => .error (.fault cMEMLOST 0 3, va + wd j)
    | none => .ok (ps.flatMap fun p => if p.loc.what = .memory then t.view p.loc.key p.len
        else (List.range p.len).map (Config.openByte t.ticks), t)

/-- Read a record's handler descriptor under its launch, in user mode. -/
def State.readHead (s : State) (ctx : LaunchCtx) (w0 : Word) : HeadRead :=
  let e := entryOf w0
  if 2 ^ 34 - 4 < (e - ctx.cbase).toNat then badHead
  else match s.readExec { asid := ctx.asid.toNat, sup := false } (e - 16) 16 with
    | .error (.fault c d l, va) => .fault c (memInfo 2 l d va)
    | .error (.absent p, _) => .absent p
    | .ok (bs, _) => headOf (wordOf bs) (wordOf (bs.drop 8))

/-- What such a read leaves: AC of the leaf it walked to, and the caches (R20, R21). -/
def State.execSeen (s : State) (w : Who) (va : Word) (n : Nat) : State :=
  match s.readExec w va n with
  | .ok (_, t) => t
  | .error _ => s

/-- What the read of a record's handler descriptor leaves. -/
def State.headSeen (s : State) (ctx : LaunchCtx) (w0 : Word) : State :=
  let e := entryOf w0
  if 2 ^ 34 - 4 < (e - ctx.cbase).toNat then s else s.execSeen { asid := ctx.asid.toNat, sup := false } (e - 16) 16

/-- The class and inbox a record goes to: class 0 where its descriptor cannot be used (R312). -/
def HeadRead.head : HeadRead → Head
  | .ok h => h
  | _ => {}

/-! ### Pools and windows (R157, R164) -/

/-- The pool of a class, most recent first. -/
def State.pool (s : State) (c : Nat) : List PoolEntry := mget [] s.sched.pools (c % 4)

def State.setPool (s : State) (c : Nat) (l : List PoolEntry) : State :=
  { s with sched := { s.sched with pools := mput [] s.sched.pools (c % 4) l } }

/-- Pop a window. -/
def State.popWindow (s : State) (c : Nat) : Option (PoolEntry × State) :=
  match s.pool c with
  | [] => none
  | e :: es => some (e, s.setPool c es)

/-- The pool of a class is full (R157). -/
def State.poolFull (s : State) (c : Nat) : Bool := 256 ≤ (s.pool c).length

end Sys2Proof.Machine

namespace Sys2Proof

/-- The six payload words of a record (R154). -/
def Rec.payload (r : Rec) : List Word := [r.w2, r.w3, r.w4, r.w5, r.w6, r.w7]

end Sys2Proof

namespace Sys2Proof.Machine

/-- Words from p on set. -/
def State.setCells (s : State) (p : Nat) : List Cell → State
  | [] => s
  | c :: cs => (s.setCell p c).setCells (p + 1) cs

/-- Steps 3 and 4 of R158: w0, the payload, zeros. -/
def State.fillWindow (s : State) (r : Rec) (base cls : Nat) (zero : Bool) : State :=
  let s := s.setCell base (.full 0)
  let s := s.setCells (base + 2) (r.payload.map .full)
  if zero then s.setCells (base + 8) (List.replicate (classSize cls - 8) (.full 0)) else s

/-- Whether a window must be zeroed for a task (R158 step 4). -/
def mustZero (h : Head) (e : PoolEntry) (asid : Word) : Bool := !(h.nozero && e.owner = asid.toNat)

/-! ### Inboxes and spilled records (R160) -/

/-- Insert in key order, ties by arrival. -/
def insertInbox (a : Arrived) : List Arrived → List Arrived
  | [] => [a]
  | x :: xs => if lexLt [a.d.r.w1.toNat, a.seq] [x.d.r.w1.toNat, x.seq] then a :: x :: xs else x :: insertInbox a xs

def State.enterInbox (s : State) (a : Arrived) : State :=
  let s := s.stirred
  { s with sched := if a.high then { s.sched with high := s.sched.high ++ [a] } else { s.sched with inbox := insertInbox a s.sched.inbox } }

/-- An inbox has an entry free. -/
def State.inboxRoom (s : State) (high : Bool) : Bool := (if high then s.sched.high else s.sched.inbox).length < 128

/-- The domain queue's head, passed over for want of a window, waits for one of a class (R355). -/
def State.domqWants (s : State) (c : Nat) : Bool :=
  s.opt.domain.isSome && s.sched.domqPassed && (match s.sched.domq with
    | a :: _ => a.cls = c
    | [] => false)

/-- Pop a window for native delivery: the domain queue's passed-over head comes first (R355). -/
def State.popSpare (s : State) (c : Nat) : Option (PoolEntry × State) :=
  if s.domqWants c && (s.pool c).length ≤ 1 then none else s.popWindow c

/-- A record takes a window and enters its inbox. -/
def State.letIn (s : State) (a : Arrived) (h : Head) (e : PoolEntry) : State :=
  let s := s.fillWindow a.d.r e.base a.cls (mustZero h e a.d.ctx.asid)
  s.enterInbox { a with window := some e }

/-- Records held in the fabric gain one. -/
def State.hold (s : State) (a : Arrived) : State := { s with sched := { s.sched with held := s.sched.held ++ [a] } }

/-- Delivery of a record to this core (R160, R312): earlier records of its class, or of its sender, that still wait go first (R314). -/
def State.deliver (s : State) (d : Delivery) : State :=
  let hr := s.readHead d.ctx d.r.w0
  let h := hr.head
  let a : Arrived := { d := d, cls := h.cls, high := h.high, seq := s.sched.arrivals }
  let s := s.headSeen d.ctx d.r.w0
  let s := { s with sched := { s.sched with arrivals := s.sched.arrivals + 1 } }
  match hr with
  | .absent page => (s.startPull page).hold a
  | _ =>
    let waits := s.sched.spilled.any fun x => x.d.key.isNone && (x.cls = a.cls || x.d.sender = d.sender)
    if s.sched.held.any (fun x => x.d.sender = d.sender) then s.hold a
    else if waits || !s.inboxRoom a.high then s.spill a
    else if s.forerunner then s.enterInbox a
    else match s.popSpare a.cls with
      | some (e, s) => s.letIn a h e
      | none => s.spill a

/-- Spilled records are delivered, oldest first, while there are windows and inbox entries for them; `blocked` are the earlier ones that still
wait, behind which those of their class and of their sender stay (R160, R314). -/
def State.unspill (s : State) (blocked : List Arrived) : List Arrived → List Arrived × State
  | [] => ([], s)
  | a :: as =>
    let keep (s : State) (blocked : List Arrived) : List Arrived × State := let (l, t) := s.unspill blocked as; (a :: l, t)
    if a.d.key.isSome then keep s blocked
    else if (blocked.any fun x => x.cls = a.cls || x.d.sender = a.d.sender) || !s.inboxRoom a.high then keep s (a :: blocked)
    else if s.forerunner then (s.enterInbox a).unspill blocked as
    else match s.popSpare a.cls with
      | some (e, t) => (t.letIn a (t.readHead a.d.ctx a.d.r.w0).head e).unspill blocked as
      | none => keep s (a :: blocked)

/-- Spilled records take what has become free. -/
def State.settle (s : State) : State :=
  let (l, t) := s.unspill [] s.sched.spilled
  ({ t with sched := { t.sched with spilled := l } }).refillDomq

/-- The oldest passed-over resume entry of a class takes a window; none where there is none (R164). -/
def giveResume (c : Nat) (e : PoolEntry) : List Resume → Option (List Resume)
  | [] => none
  | r :: rs =>
    if r.passed && r.window.isNone && r.p.task.cls = c then some ({ r with window := some e } :: rs)
    else (giveResume c e rs).map (r :: ·)

/-- A window returns (R157, R164, R355): to a passed-over resume entry, else to the pool, from which spilled records take what the domain
queue leaves. -/
def State.returnWindow (s : State) (c base owner : Nat) : State :=
  let e : PoolEntry := ⟨base, owner⟩
  match giveResume c e s.sched.resume with
  | some l => { s with sched := { s.sched with resume := l } }
  | none => (s.setPool c (e :: s.pool c)).settle

/-! ### Footprints (R52, R53, R161) -/

/-- Start and end of an area register's range in the local store, in bytes. -/
def areaOf (r : Word) : Nat × Nat := (4096 * bits r 7 0, 4096 * (bits r 7 0 + bits r 23 16))

def up128 (n : Nat) : Nat := (n + 127) / 128 * 128

/-- The ranges of a record under its descriptor: virtual address and length. -/
def Head.spans (h : Head) (r : Rec) : List (Word × Nat) :=
  h.ranges.map fun g => (r.payload.getD g.aw 0, if g.lw = 7 then 128 * g.len else zext (r.payload.getD g.lw 0) 20)

/-- Total length of ranges laid one after another at 128-byte boundaries. -/
def spanTotal (l : List (Word × Nat)) : Nat := l.foldl (fun a x => a + up128 x.2) 0

/-- The lowest free offset of the footprint area at which n bytes fit. -/
def State.freeOffset (s : State) (n : Nat) : Option Nat :=
  let (lo, hi) := areaOf s.regs.lsfa
  let cands := lo :: s.sched.pins.map fun p => max lo (up128 (p.off + p.len))
  let fits (o : Nat) : Bool := o + n ≤ hi && s.sched.pins.all fun p => p.off + p.len ≤ o || o + n ≤ p.off
  if lo = hi then none else (cands.filter fits).min?

/-- The placings of ranges from an offset on. -/
def placings : Nat → List (Word × Nat) → List (Nat × Word × Nat)
  | _, [] => []
  | o, (va, n) :: l => (o, va, n) :: placings (o + up128 n) l

/-- The lowest slot number that no live task holds (R158). -/
def freeSlot (held : List Nat) : Nat → Nat → Nat
  | 0, n => n
  | fuel + 1, n => if held.contains n then freeSlot held fuel (n + 1) else n

/-! ### Dispatch (R158, R159) -/

/-- The registers of a task at its dispatch or resume, and VT. -/
def State.loadLaunch (s : State) (c : LaunchCtx) (vt : Word) : State :=
  { s with regs := { s.regs with
      asid := c.asid.toNat % 65536
      cbase := c.cbase
      lnid := c.lnid
      seed := c.seed
      fpctl := wd (fld (c.rm % 8) 16)
      pwb := (List.range 8).foldl (fun m k => mput 0 m k (c.pwb.getD k 0)) []
      pwl := (List.range 8).foldl (fun m k => mput 0 m k (c.pwl.getD k 0)) []
      lsown := setBits s.regs.lsown 15 0 c.asid.toNat
      vt := vt } }

/-- VT of a task (R353): the time of an optimistic handler's message, 0 in any other task. -/
def vtOf (opt : Bool) : Option Key → Word
  | some k => if opt then k.t else 0
  | none => 0

/-- The PROC entry of an optimistic handler (R358, R359): written, not needed because it holds GVT, or waiting for room. -/
def State.enterProc (s : State) (d : Delivery) : State × Bool × Bool :=
  match d.key, s.opt.domain with
  | some k, some dom =>
    if s.opt.gvt = some k then (s, true, false)
    else match s.appendOutput dom ⟨k, .proc d⟩ with
      | some t => (t, false, false)
      | none => (s, false, true)
  | _, _ => (s, false, false)

/-- A core that dispatches or resumes leaves its waits, and acquires (R74, R163). -/
def State.afresh (s : State) (scope : Word) : State :=
  let s := { s.stirred with core := { s.stirred.core with wait := none } }
  s.acquire (s.scopeWidth scope)

/-- Parcel 0 of the instruction at an address, as a task of a launch fetches it; 0 where it cannot. -/
def State.parcelOf (s : State) (ctx : LaunchCtx) (va : Word) : Nat :=
  match s.readExec { asid := ctx.asid.toNat, sup := false } va 4 with
  | .ok (bs, _) => ofBytes bs
  | .error _ => 0

/-- Every other yielded task may be dispatched now (R321). -/
def State.unhold (s : State) : State :=
  { s with sched := { s.sched with resume := s.sched.resume.map fun r => { r with hold := false } } }

/-- Dispatch of a record in a window (R158): class, limit, mode, whether native delivery filled the window, whether to zero it. Its start ends
what a fetch may see stale (R89). Where the descriptor cannot be used TBUDGET is loaded with 0, since R155 and R162 name no value: BUDGET
is due once the task is back in MODE 0. Log entry 63 (DESIGN CHOICE). -/
def State.startTask (s : State) (d : Delivery) (e : PoolEntry) (cls limit mode : Nat) (filled : Bool) (noZero : Bool := false) : State :=
  let hr := s.readHead d.ctx d.r.w0
  let h := hr.head
  let mismatch := d.key.isSome != h.optimistic
  let fault := match hr with
    | .ok _ => if mismatch then some (cOPTILL, wd (fld 5 56 + s.parcelOf d.ctx (entryOf d.r.w0))) else none
    | .fault c i => some (c, i)
    | .absent _ => none
  let opt := d.key.isSome && h.optimistic
  let s := s.headSeen d.ctx d.r.w0
  let s := if mismatch then s.execSeen { asid := d.ctx.asid.toNat, sup := false } (entryOf d.r.w0) 4 else s
  let s := if filled then s else s.fillWindow d.r e.base cls (!noZero && mustZero h e d.ctx.asid)
  let slot := freeSlot s.sched.slots 65536 0
  let spans := if fault.isSome then [] else h.spans d.r
  let off := if spans.isEmpty then none else s.freeOffset (spanTotal spans)
  let s := s.setCell (e.base + 1) (.full (wd (fld (slot % 65536) 32 + (off.getD 0xFFFFFFFF))))
  let s := s.loadLaunch d.ctx (vtOf opt d.key)
  let nofp := !spans.isEmpty && off.isNone
  let s := { s with regs := { s.regs with
    taskstat := wd (fld nofp.toNat 15 + fld mode 12 + fld cls 10 + fld opt.toNat 9)
    tbudget := h.budget
    tclk := 0 } }
  let place := match off with
    | some o => placings o spans
    | none => []
  let s := { s with sched := { s.sched with
    slots := s.sched.slots ++ [slot]
    pins := s.sched.pins ++ place.map fun (x : Nat × Word × Nat) => ({ off := x.1, len := up128 x.2.2, slot := slot } : Pin) } }
  let (s, held, waits) := if opt then s.enterProc d else (s, false, false)
  let t : Task := {
    base := e.base, cls := cls, entry := entryOf d.r.w0, record := d.r, launch := d.ctx, slot := slot, key := d.key, scope := d.scope
    heldGvt := held, budget := h.budget, placing := place, proc := waits, entered := place.isEmpty && !waits, nozero := h.nozero
    size := limit }
  let s := { (s.setWindow e.base limit) with
    pc := entryOf d.r.w0, sched := { s.sched with task := some t }, mem := { s.mem with stale := [] } }
  let s := (s.afresh d.scope).unhold.trace 1 d.ctx.lnid
  let s := s.updLaunch d.ctx.lnid.toNat fun l => if l.first = 0 then { l with first := s.cyc } else l
  match fault with
  | some (c, i) => s.takeTrap c i s.pc
  | none => s

/-- Dispatch of a saved task into a window (R163): its words, registers and resume point. -/
def State.resumeTask (s : State) (p : Parked) (e : PoolEntry) : State :=
  let t := p.task
  let zero := !(t.nozero && e.owner = t.launch.asid.toNat)
  let s := s.setCells e.base p.words
  let n := p.words.length
  let s := if zero then s.setCells (e.base + n) (List.replicate (classSize t.cls - n) (.full 0)) else s
  let s := s.loadLaunch t.launch (vtOf (bit p.stat 9) t.key)
  let s := { s with regs := { s.regs with taskstat := p.stat, tclk := p.tclk, tbudget := p.remain } }
  let t := { t with base := e.base, restoreArea := p.area, entered := p.area.isNone, size := classSize t.cls }
  let s := { (s.setWindow e.base (classSize t.cls)) with
    pc := rpcAt (if bits p.stat 13 12 = 2 then s.regs.scbase else s.regs.cbase) (descRpc p.desc)
    sched := { s.sched with task := some t } }
  (s.afresh p.scope).unhold.trace 1 t.launch.lnid

/-! ### Leaving the core -/

/-- PREEMPT of this core (R394). -/
def State.preemptReg (s : State) : Word := mget 0 s.sched.preempt s.core.number

/-- The free core acknowledges a request (R394). -/
def State.ackPreempt (s : State) : State :=
  if s.sched.task.isNone && s.sched.low.isNone && bit s.preemptReg 0 then
    { s with sched := { s.sched with preempt := mput 0 s.sched.preempt s.core.number (s.preemptReg ||| wd (2 ^ 63)) } }
  else s

/-- The core has no task any more. -/
def State.leave (s : State) : State :=
  ({ s with sched := { s.sched with task := none }, core := { s.core with wait := none, freeSince := s.cyc } }).ackPreempt

/-- A slot and its pins go (R165). -/
def State.freeSlotOf (s : State) (slot : Nat) : State :=
  { s with sched := { s.sched with
      slots := s.sched.slots.filter fun n => n ≠ slot
      pins := s.sched.pins.filter fun p => p.slot ≠ slot } }

/-- Lost words of a range of a task that ends are discarded (R148): what they hold then is open. Log entry 8 (DESIGN CHOICE). -/
def State.discardLost (s : State) (base : Nat) : Nat → State
  | 0 => s
  | n + 1 =>
    let s := s.discardLost base n
    match s.cell (base + n) with
    | .lost _ => s.setCell (base + n) (.full (s.openWord n))
    | _ => s

/-- Steps 3 to 6 of R165. -/
def State.endTask (s : State) (t : Task) : State :=
  let opt := s.opt?
  let s := ((s.discardLost t.base t.size).freeSlotOf t.slot).trace 2 t.launch.lnid
  let s := s.leave
  let s := if s.forerunner then s else s.returnWindow t.cls t.base (t.launch.asid.toNat % 65536)
  if opt then s else s.liveDown t.launch.lnid

/-- Every word of the current window and of the task's window has no binding (R148). -/
def State.windowDrained (s : State) (t : Task) : Res Unit :=
  let ps := (List.range s.regs.wl).map (s.regs.wb + ·) ++ (List.range t.size).map (t.base + ·)
  s.unboundAll ps

/-- Where a saved record of n words goes (R163): whether into the overflow ring, and its place in the park area or the ring; none where
neither has room, or a page of the ring is still to be pulled (R410). Log entry 28 (DESIGN CHOICE). -/
def State.parkPlace (s : State) (n : Nat) : Option (Bool × Nat) :=
  let (lo, hi) := areaOf s.regs.pka
  let used := (s.savedTasks.filter fun p => !p.inRing).map fun p => (p.place, savedBytes p.words.length)
  match if lo = hi then none else freeRun used lo hi (savedBytes n) with
  | some o => some (false, o)
  | none => (s.ringRun (savedSlots n)).map fun k => (true, k)

/-- Whether a saved record of n words has room, and whether it goes to the overflow ring (R163). -/
def State.parkRoom (s : State) (n : Nat) : Option Bool := (s.parkPlace n).map (·.1)

/-- The wait for that room (R163), in which the ring's pages are pulled (R410). -/
def State.needPark (s : State) (n : Nat) : Res Bool :=
  match s.parkRoom n with
  | some inRing => .ok inRing
  | none => .error (.waitIn (s.pullRing (savedSlots n)) .room)

/-- Save the task (R163) with its first n words from a base: what a resume needs. Log entry 28 (DESIGN CHOICE). -/
def State.saveTask (s : State) (t : Task) (base n : Nat) (desc : Word) (on : ParkedOn) (scope : Word) (inRing : Bool) : Parked :=
  { id := s.sched.nextPark, desc := desc, tclk := s.regs.tclk, remain := s.regs.tbudget
    words := (List.range n).map fun k => s.cell (base + k)
    stat := s.regs.taskstat, task := t, on := on, scope := scope, inRing := inRing
    place := match s.parkPlace n with
      | some (_, o) => o
      | none => 0 }

/-- The words of a saved record in the order of R163: descriptor, TCLK, event and slot, REMAIN, the window's words.
Log entry 28 (DESIGN CHOICE). -/
def Parked.image (p : Parked) : List Word :=
  let event := match p.on with
    | .event e _ => e
    | _ => 0
  [p.desc, wd p.tclk, wd (fld p.task.slot 32 + event), wd p.remain] ++ p.words.map Cell.data

/-- A saved record is written where it lies (R163). Log entry 28 (DESIGN CHOICE). -/
def State.keepRecord (s : State) (p : Parked) : State :=
  if p.inRing then s.writeRing p.place p.image
  else s.writeHome (storeKey s.core.number p.place) (p.image.flatMap wordBytes)

/-- The task leaves the core saved, and its window returns. -/
def State.parkTask (s : State) (t : Task) (p : Parked) : State :=
  let s := s.keepRecord p
  let s := { s with sched := { s.sched with
    nextPark := s.sched.nextPark + 1
    parked := match p.on with
      | .yield => s.sched.parked
      | .suspend => s.sched.parked
      | _ => s.sched.parked ++ [p]
    resume := match p.on with
      | .yield => s.sched.resume ++ [({ p := p, hold := true } : Resume)]
      | .suspend => s.sched.resume ++ [({ p := p, hold := true } : Resume)]
      | _ => s.sched.resume } }
  s.leave.returnWindow t.cls t.base (t.launch.asid.toNat % 65536)

/-! ### Forerunner mode (R167, R168) -/

/-- FRLO or FRHI as a window. -/
def frWindow (d : Word) : PoolEntry := ⟨descBase d, 0⟩

/-- The low handler is suspended: its resume point goes to FRLO with FRM; its queues stay with it. -/
def State.suspendLow (s : State) (t : Task) : State :=
  let d := setBits s.regs.frlo 63 32 (rpcOf s.pc s.regs.cbase)
  let s := { s with regs := { s.regs with frlo := setBits d 26 26 1 } }
  { s with
    sched := { s.sched with task := none, low := some (t, s.regs), lowQueues := s.core.queues }
    core := { s.core with wait := none, queues := [] } }

/-- The low handler continues. -/
def State.resumeLow (s : State) (t : Task) (r : Regs) : State :=
  let g := s.regs
  let s := { s with regs := { g with
    cbase := r.cbase, asid := r.asid, lnid := r.lnid, fpctl := r.fpctl, seed := r.seed, pwb := r.pwb, pwl := r.pwl, vt := r.vt
    tclk := r.tclk, tbudget := r.tbudget, taskstat := r.taskstat, lsown := setBits g.lsown 15 0 r.asid } }
  { (s.setWindow (descBase g.frlo) (descLimit g.frlo)) with
    pc := rpcAt r.cbase (descRpc g.frlo)
    sched := { s.sched with task := some t, low := none, lowQueues := [] }
    core := { s.core with queues := s.sched.lowQueues } }

/-- A high record may take FRHI now, unless the core holds back its dispatches (R394). A low handler that stands in its trap handler, in MODE
1, is suspended only once it is back in MODE 0, since R168 does not say which. Log entry 58 (DESIGN CHOICE). -/
def State.highDue (s : State) : Bool :=
  s.forerunner && !bit s.preemptReg 0 && !s.sched.high.isEmpty && (match s.sched.task with
    | none => true
    | some _ => s.mode = 0 && s.sched.low.isNone)

/-! ### The dispatch order (R348, R355) -/

/-- The head of the domain queue may be dispatched now (R355, R366). -/
def State.domqHead (s : State) : Option Arrived :=
  if s.opt.domain.isNone then none
  else match s.sched.domq with
    | [] => none
    | a :: _ =>
      let top := min (s.gvtKey.t.toNat + s.regs.optwin.toNat) (2 ^ 64 - 1)
      if a.okey.t.toNat ≤ top then some a else none

/-- A resume entry that may be dispatched now. -/
def State.resumable (s : State) (r : Resume) : Bool := !r.hold && (r.window.isSome || !(s.pool r.p.task.cls).isEmpty)

/-- The handler descriptor of a deque record, and the class it gives. -/
def State.dqHandler (s : State) (r : DqRec) : HeadRead := s.readHead r.ctx r.r.w0
def State.classOf (s : State) (r : DqRec) : Nat := (s.dqHandler r).head.cls

/-- The page of that descriptor, where it must be pulled first (R410). -/
def HeadRead.page : HeadRead → Option Nat
  | .absent page => some page
  | _ => none

/-- The bottom of the deque. -/
def State.dqBottom (s : State) : Option DqRec := match s.sched.deque.getLast? with
  | some r => some r
  | none => s.sched.dqMem.getLast?

/-- What the core would dispatch from its own sources. -/
inductive Work where
  | high (a : Arrived)
  | resume (r : Resume)
  | domain (a : Arrived)
  | normal (a : Arrived)
  | own (r : DqRec)
  | low (t : Task) (r : Regs)
  deriving DecidableEq, Repr

/-- The normal inbox, then the deque (R348 steps 3 and 4), whose record is not passed over before its class is known (R410). -/
def State.laterWork (s : State) : Option Work :=
  match s.sched.inbox, s.dqBottom with
  | a :: _, _ => some (.normal a)
  | [], some r => if (s.dqHandler r).page.isNone && (s.pool (s.classOf r)).isEmpty then none else some (.own r)
  | [], none => none

/-- The first of the core's own sources that offers a record (R348, R355; R168 in forerunner mode). Log entry 27 (DEDUCED). -/
def State.work (s : State) : Option Work :=
  match s.sched.high with
  | a :: _ => some (.high a)
  | [] =>
    if s.forerunner then
      match s.sched.low, s.sched.inbox with
      | some (t, r), _ => some (.low t r)
      | none, a :: _ => some (.normal a)
      | none, [] => none
    else match s.sched.resume.find? s.resumable with
      | some r => some (.resume r)
      | none =>
        match s.domqHead with
        | some a => if !(s.pool a.cls).isEmpty then some (.domain a) else s.laterWork
        | none => s.laterWork

/-- The dispatch order passes over the resume entries it meets whose pool is empty (R164): those before the entry it takes, all of them
where it takes none, and none where a high record comes first; and over the domain queue's head (R355). -/
def State.markPassed (s : State) (w : Option Work) : State :=
  let pass (r : Resume) : Resume := if !r.hold && r.window.isNone && (s.pool r.p.task.cls).isEmpty then { r with passed := true } else r
  let all := s.sched.resume.map pass
  match w with
  | some (.high _) => s
  | some (.resume r) =>
    let before := s.sched.resume.takeWhile fun x => x.p.id ≠ r.p.id
    { s with sched := { s.sched with resume := before.map pass ++ s.sched.resume.drop before.length } }
  | _ => { s with sched := { s.sched with
      resume := all
      domqPassed := match s.domqHead with
        | some a => (s.pool a.cls).isEmpty
        | none => s.sched.domqPassed } }

/-- A spawned record as a delivery to its own core. -/
def DqRec.delivery (r : DqRec) (n : Nat) : Delivery := { r := r.r, ctx := r.ctx, scope := r.scope, sender := n }

/-- Dispatch of work from the core's own sources. In forerunner mode CLASS of TASKSTAT is 0, since the windows FRLO and FRHI have no class
and R159 names none for them. Log entry 58 (DESIGN CHOICE). -/
def State.dispatchWork (s : State) : Work → State
  | .high a =>
    let s := { s with sched := { s.sched with high := s.sched.high.filter fun x => x.seq ≠ a.seq } }
    if s.forerunner then (s.startTask a.d (frWindow s.regs.frhi) 0 (descLimit s.regs.frhi) 3 false true).settle
    else (s.startTask a.d (a.window.getD ⟨0, 0⟩) a.cls (classSize a.cls) 0 true).settle
  | .normal a =>
    let s := { s with sched := { s.sched with inbox := s.sched.inbox.filter fun x => x.seq ≠ a.seq } }
    if s.forerunner then (s.startTask a.d (frWindow s.regs.frlo) 0 (descLimit s.regs.frlo) 0 false true).settle
    else (s.startTask a.d (a.window.getD ⟨0, 0⟩) a.cls (classSize a.cls) 0 true).settle
  | .resume r =>
    let s := { s with sched := { s.sched with resume := s.sched.resume.filter fun x => x.p.id ≠ r.p.id } }
    match r.window with
    | some e => s.resumeTask r.p e
    | none => match s.popWindow r.p.task.cls with
      | some (e, s) => s.resumeTask r.p e
      | none => s
  | .domain a =>
    let s := { s with sched := { s.sched with domq := s.sched.domq.filter fun x => x.seq ≠ a.seq, domqPassed := false } }
    match s.popWindow a.cls with
    | some (e, s) => (s.startTask a.d e a.cls (classSize a.cls) 0 false).refillDomq
    | none => s
  | .own _ =>
    match s.popDeque with
    | some (r, s) =>
      let c := s.classOf r
      match s.popWindow c with
      | some (e, s) => s.startTask (r.delivery s.core.number) e c (classSize c) 0 false
      | none => s
    | none => s
  | .low t r => s.resumeLow t r

/-! ### Stealing (R346, R347) -/

/-- Positions of a cluster's ring, and the k-th core after one (R2). -/
def ringPos (n : Nat) : Nat := let x := coreX n % 4; if coreY n % 2 = 0 then x else 7 - x
def ringCore (n k : Nat) : Nat :=
  let p := (ringPos n + k) % 8
  let x := coreX n / 4 * 4 + (if p < 4 then p else 7 - p)
  let y := coreY n / 2 * 2 + p / 4
  y * 128 + x

/-- The generator's step. Log entry 30 (DEDUCED). -/
def stealStep (g : Nat) : Nat := (g / 2) ^^^ (if g % 2 = 1 then 0xB400 else 0)

/-- The partition's cores on this core's die, in ascending number, without itself. -/
def State.dieCores (s : State) : List Nat :=
  ((List.range s.sys.h).flatMap fun y => (List.range s.sys.w).map fun x => y * 128 + x).filter fun n =>
    n ≠ s.core.number && s.dieOf (clusterOf n) = s.die

/-- Try a victim: its top record, if this core lies in the record's scope and has a window for it. While the page of its descriptor is pulled
the try waits, and the round is begun again (R410). Log entry 30 (DEDUCED). -/
def State.stealFrom (s : State) (v : Nat) : Option State :=
  match mget [] s.sched.peerDeques v with
  | [] => none
  | r :: rs =>
    if !s.reachesFrom v r.scope s.core.number then none
    else
      let c := s.classOf r
      match (s.dqHandler r).page, s.popWindow c with
      | some page, _ => some (s.startPull page)
      | none, none => none
      | none, some (e, s) =>
        let s := { s with sched := { s.sched with peerDeques := mput [] s.sched.peerDeques v rs } }
        some ((s.count 7 1).startTask (r.delivery v) e c (classSize c) 0 false)

/-- Eight picks at die scope. Log entry 30 (DEDUCED). -/
def State.stealPicks (s : State) (l : List Nat) : Nat → Option State × State
  | 0 => (none, s)
  | k + 1 =>
    let g := stealStep s.sched.stealGen
    let s := { s with sched := { s.sched with stealGen := g } }
    match if l.isEmpty then none else s.stealFrom (l.getD (g % l.length) 0) with
    | some t => (some t, t)
    | none => s.stealPicks l k

/-- A round of steals: dispatched, or 256 cycles to wait. Log entry 30 (DEDUCED). -/
def State.stealRound (s : State) : State :=
  let near := ((List.range 7).map fun k => ringCore s.core.number (k + 1)).filter fun n => coreX n < s.sys.w && coreY n < s.sys.h
  match near.findSome? s.stealFrom with
  | some t => t
  | none =>
    let (r, t) := s.stealPicks s.dieCores 8
    match r with
    | some u => u
    | none => { t with sched := { t.sched with stealWait := some (t.cyc + 256) } }

/-! ### Rollback (R363, R364) -/

/-- The dispatched optimistic handler's key. -/
def State.runningKey (s : State) : Option Key := s.handlerKey

/-- A key is in range of a rollback. -/
def inRange (k key : Key) (dropping : Bool) : Bool := k.lt key || (dropping && key = k)

/-- Discard the queue entries (R322, R363). -/
def State.dropQueues (s : State) : State := { s with core := { s.core with queues := [] } }

/-- The dispatched handler is abandoned: its window returns, its pins and slot go. Log entry 31 (DEDUCED). -/
def State.abandon (s : State) (t : Task) : State :=
  let s := (s.freeSlotOf t.slot).dropQueues
  s.leave.returnWindow t.cls t.base (t.launch.asid.toNat % 65536)

/-- A record returns to the domain queue; while the page of its handler descriptor, which gives its class, is pulled, it is held (R410). -/
def State.requeue (s : State) (d : Delivery) : State :=
  let hr := s.readHead d.ctx d.r.w0
  let s := s.headSeen d.ctx d.r.w0
  let a : Arrived := { d := d, cls := hr.head.cls, seq := s.sched.arrivals }
  let s := { s with sched := { s.sched with arrivals := s.sched.arrivals + 1 } }
  match hr with
  | .absent page => (s.startPull page).hold a
  | _ => { s with sched := { s.sched with domq := insertKey a s.sched.domq } }

/-- A message or anti-message that leaves is unacknowledged until its target has entered it (R364, R365). -/
def State.unack (s : State) (k : Key) : State := { s with opt := { s.opt with unacked := s.opt.unacked ++ [k] } }

/-- An undone output entry (R363). Log entry 31 (DEDUCED). -/
def State.undoOutput (s : State) (k : Key) (dropping : Bool) (o : Output) : State :=
  match o.kind with
  | .send key dest _ _ =>
    let s := (s.updDomain fun d => { d with antisent := d.antisent + 1 }).unack key
    s.sendAnti dest key { r := {}, ctx := {}, key := some key, sender := s.core.number }
  | .defer _ _ _ _ => s
  | .proc d =>
    let s := s.updDomain fun x => { x with undone := x.undone + 1 }
    if dropping && o.key = k then s else s.requeue d

/-- Suspended optimistic handlers in range leave the resume queue, with their windows, pins and slots: their records return by their PROC
entries (R363, R367). Log entry 31 (DEDUCED). -/
def State.abandonSaved (s : State) (k : Key) (dropping : Bool) : State :=
  let hit (r : Resume) : Bool := bit r.p.stat 9 && (match r.p.task.key with
    | some key => inRange k key dropping
    | none => false)
  let out := s.sched.resume.filter hit
  let s := { s with sched := { s.sched with resume := s.sched.resume.filter fun r => !hit r } }
  out.foldl (fun s r =>
    let s := s.freeSlotOf r.p.task.slot
    match r.window with
    | some e => s.returnWindow r.p.task.cls e.base e.owner
    | none => s) s

/-- rollback(K, dropping). Log entry 31 (DEDUCED). -/
def State.rollback (s : State) (k : Key) (dropping : Bool) : State :=
  let s := s.abandonSaved k dropping
  let s := match s.sched.task, s.handlerKey with
    | some t, some key =>
      if inRange k key dropping then
        let s := s.abandon t
        if t.proc && !(dropping && key = k) then s.requeue { r := t.record, ctx := t.launch, scope := t.scope, key := t.key } else s
      else s
    | _, _ => s
  let bit := s.opt.bittern.filter fun e => inRange k e.key dropping
  let out := s.opt.output.filter fun e => inRange k e.key dropping
  let s := bit.reverse.foldl (fun s e => s.writeHome (storeKey s.core.number e.off) (wordBytes e.old)) s
  let s := { s with opt := { s.opt with
    bittern := s.opt.bittern.filter fun e => !inRange k e.key dropping
    output := s.opt.output.filter fun e => !inRange k e.key dropping } }
  let s := out.reverse.foldl (fun s o => s.undoOutput k dropping o) s
  s.updDomain fun d => { d with rollbacks := d.rollbacks + 1 }

/-- A rollback of K would have to wait: the handler in range sits in TWIN (R363, R368). Log entry 31 (DEDUCED). -/
def State.rollbackWaits (s : State) (k : Key) (dropping : Bool) : Bool :=
  s.mode = 2 && (match s.handlerKey with
    | some key => inRange k key dropping
    | none => false)

/-- The domain queue or the overflow ring has room for a record (R355, R160). -/
def State.domqRoom (s : State) : Bool := s.sched.domq.length < 128 || s.ringSlot.isSome

/-- A positive record reaches the core (R364): it is entered, after the rollback of a straggler. One that the fabric holds has not reached it
yet: behind an earlier one of its sender (R314), for want of room (R160), or while the page of its handler descriptor is pulled (R410).
Log entry 31 (DEDUCED). -/
def State.optEnter (s : State) (d : Delivery) : State :=
  let k := d.key.getD infKey
  let hr := s.readHead d.ctx d.r.w0
  let s := s.headSeen d.ctx d.r.w0
  let a : Arrived := { d := d, cls := hr.head.cls, seq := s.sched.arrivals }
  let s := { s with sched := { s.sched with arrivals := s.sched.arrivals + 1 } }
  match hr with
  | .absent page => (s.startPull page).hold a
  | _ =>
    if s.sched.held.any (fun x => x.d.sender = d.sender) then s.hold a
    else if !s.domqRoom then (s.pullRing 1).hold a
    else (if s.straggles k then s.rollback k false else s).enterDomq a

/-- The spilled straggler for which the domain queue has room, and that no handler in TWIN keeps waiting (R363, R364). -/
def State.lateEntry (s : State) : Option Arrived :=
  if 128 ≤ s.sched.domq.length then none
  else s.sched.spilled.find? fun a => a.d.key.isSome && s.straggles a.okey && !s.rollbackWaits a.okey false

/-- A spilled straggler enters: rollback, then the queue (R364). -/
def State.enterLate (s : State) (a : Arrived) : State :=
  let s := { s with sched := { s.sched with spilled := s.sched.spilled.filter fun x => x.seq ≠ a.seq } }.rollback a.okey false
  { s with sched := { s.sched with domq := insertKey a s.sched.domq } }

/-- An anti-message is applied (R364). A positive that the fabric still holds is met there, and both are acknowledged.
Log entry 31 (DEDUCED). -/
def State.antiEnter (s : State) (k : Key) : State :=
  let here (a : Arrived) : Bool := a.d.key = some k
  let s' := s.updDomain fun d => { d with annihil := d.annihil + 1 }
  let t := if s.sched.held.any here then { s' with sched := { s'.sched with held := s'.sched.held.filter fun a => !here a } }.acked k
    else if (s.sched.domq ++ s.sched.spilled).any here then
      { s' with sched := { s'.sched with
          domq := s'.sched.domq.filter fun a => !here a
          spilled := s'.sched.spilled.filter fun a => !here a } }
    else (s.rollback k true).updDomain fun d => { d with annihil := d.annihil + 1 }
  t.refillDomq.acked k

end Sys2Proof.Machine
end

