-- ==== Sys2Proof/Machine/Units.lean ====
section
/-! DEFINITION. The unit register space (R34): the scheduler block (R337, R338, R343 to R347, R353, R394, R397, R418, R419, R421, R437), the
partition control block (R402, R414, R422, R436), the virtual devices' blocks (R404, R408, R410), the copy channels, and the events that
write these registers. -/
namespace Sys2Proof.Machine

/-! ### Layout masks -/

/-- A word whose bits outside the listed fields read 0. -/
def keep (v : Word) (fs : List (Nat × Nat)) : Word := wd ((fs.map fun (f : Nat × Nat) => fld (bits v f.1 f.2) f.2).foldl (· + ·) 0)

/-- LOGN and BASE of an area register (R338, R344, R345, R421). -/
def areaMask : List (Nat × Nat) := [(63, 60), (55, 12)]

/-! ### Scheduler block -/

def State.lq (s : State) (q : Nat) : LQueue := mget {} s.sched.queues q

def State.setLq (s : State) (q : Nat) (x : LQueue) : State := { s with sched := { s.sched with queues := mput {} s.sched.queues q x } }

/-- Entries of a launch queue's ring (R338). -/
def LQueue.size (x : LQueue) : Nat := ringSize x.base 4

/-- A launch of the queue has started and not ended. -/
def State.queueRuns (s : State) (q : Nat) : Bool := s.sched.launches.any fun l => l.q = q && l.started && !l.ended

/-- Entries from HEAD to an index, modulo 2^32. -/
def ahead32 (tail head : Nat) : Nat := (tail + 2 ^ 32 - head) % 2 ^ 32

/-- A doorbell (R338): a TAIL too far ahead is ignored. Log entry 18 (DEDUCED). -/
def State.doorbell (s : State) (q : Nat) (v : Word) : State :=
  let x := s.lq q
  if x.size < ahead32 (bits v 31 0) x.head then s else s.setLq q { x with tail := v }

/-- PREEMPT of core n written (R394): another core acknowledges in its own time. Log entry 26 (DESIGN CHOICE). -/
def State.writePreempt (s : State) (n : Nat) (v : Word) : State :=
  let old := mget 0 s.sched.preempt n
  let new := if !bit v 0 then 0 else wd (fld (bit old 63).toNat 63 + 1)
  let s := { s with sched := { s.sched with preempt := mput 0 s.sched.preempt n new } }
  if n = s.core.number then s.ackPreempt else s

/-- STEALSEED written (R347). -/
def State.writeStealseed (s : State) (v : Word) : State :=
  let g := bits v 15 0 ^^^ (s.core.number % 65536)
  { s with sched := { s.sched with stealseed := keep v [(15, 0)], stealGen := if g = 0 then 1 else g } }

/-- ERRCNT written (R397). -/
def State.writeErrcnt (s : State) (v : Word) : State :=
  { s with sched := { s.sched with errUncorr := bits v 63 32, errCorr := bits v 31 0 } }

/-- COLLKICK written (R437), by a release of this core at a scope if there is one: the kick waits for the engine, with the ASID of its hart and
what it pairs with (R103, R126). Log entry 42 (DEDUCED). -/
def State.writeCollkick (s : State) (v : Word) (scope : Option Word := none) : State :=
  let pair := match scope with
    | some w => if s.reachesUnits w then some (s.scopeWidth w) else none
    | none => none
  { s with sched := { s.sched with collkick := v, collKicks := s.sched.collKicks ++ [⟨v, s.regs.asid, pair, s.taskLnid⟩] } }

/-- A register of the scheduler block as a load reads it. Log entry 18 (DEDUCED). -/
def State.schedRead (s : State) (o : Nat) : Word :=
  if o < 0x400 then
    let q := o / 0x40
    let x := s.lq q
    match o % 0x40 with
    | 0x00 => x.base
    | 0x08 => x.cfg
    | 0x10 => x.tail
    | 0x18 => wd (fld (s.queueRuns q).toNat 63 + x.head)
    | _ => 0
  else if 0x1000 ≤ o && o < 0x1000 + 8 * 5120 then mget 0 s.sched.dqovf ((o - 0x1000) / 8)
  else if 0xB000 ≤ o && o < 0xB000 + 8 * 5120 then mget 0 s.sched.preempt ((o - 0xB000) / 8)
  else match o with
    | 0x400 => s.sched.evtab
    | 0x408 => s.sched.evovf
    | 0x410 => s.sched.stealseed
    | 0x418 => s.sched.gvtctl
    | 0x420 => wd (fld s.sched.errUncorr 32 + s.sched.errCorr)
    | 0x428 => wd s.sched.censovf
    | 0x430 => s.sched.censdiff
    | 0x440 => s.sched.trctl
    | 0x450 => s.sched.collkick
    | _ => 0

/-- A store to a register of the scheduler block, by a release at a scope if there is one: a kick of a launch queue or of the collective
engine starts it at any scope, and pairs with it where the scope reaches it (R103, R126). Log entry 18 (DEDUCED). -/
def State.schedWrite (s : State) (o : Nat) (v : Word) (scope : Option Word := none) : State :=
  if o < 0x400 then
    let q := o / 0x40
    let x := s.lq q
    match o % 0x40 with
    | 0x00 => s.setLq q { x with base := keep v areaMask }
    | 0x08 => s.setLq q { x with cfg := keep v [(63, 63), (9, 8), (3, 0)] }
    | 0x10 => s.doorbell q v
    | _ => s
  else if 0x1000 ≤ o && o < 0x1000 + 8 * 5120 then
    { s with sched := { s.sched with dqovf := mput 0 s.sched.dqovf ((o - 0x1000) / 8) (keep v areaMask) } }
  else if 0xB000 ≤ o && o < 0xB000 + 8 * 5120 then s.writePreempt ((o - 0xB000) / 8) v
  else match o with
    | 0x400 => { s with sched := { s.sched with evtab := keep v [(55, 20)] } }
    | 0x408 => { s with sched := { s.sched with evovf := keep v areaMask } }
    | 0x410 => s.writeStealseed v
    | 0x418 => { s with sched := { s.sched with gvtctl := keep v [(63, 63), (15, 0)] } }
    | 0x420 => s.writeErrcnt v
    | 0x428 => { s with sched := { s.sched with censovf := bits v 31 0 } }
    | 0x430 => if bit v 63 then { s with sched := { s.sched with censdiff := setBits s.sched.censdiff 63 63 0 } } else s
    | 0x440 => { s with sched := { s.sched with trctl := keep v [(63, 60), (59, 59), (55, 12)] } }
    | 0x450 => s.writeCollkick v scope
    | _ => s

/-! ### The unit space as the core's loads and stores reach it -/

/-- First local address of the partition's scheduler block. -/
def State.schedBase (s : State) : Nat := 0x010080000000 + s.regs.partid % 16 * 0x20000

/-- The channel and offset of a local address, if it lies in a channel's registers. Log entry 18 (DEDUCED). -/
def chanAt (loc : Nat) : Option (Nat × Nat) :=
  let o := loc - 0x010000000000
  if loc < 0x010000000000 || 640 * 0x10000 ≤ o || 0x1000 ≤ o % 0x10000 then none
  else some (chanNo (o / 0x10000) (o % 0x10000 / 0x100), o % 0x100)

/-- A kick register (R126): KICK and FREE of a channel, LQTAIL, COLLKICK. -/
def State.isKick (s : State) (loc : Nat) : Bool :=
  match chanAt loc with
  | some (_, o) => o = 0 || o = 0x18
  | none =>
    let o := loc - s.schedBase
    s.schedBase ≤ loc && o < 0x20000 && ((o < 0x400 && o % 0x40 = 0x10) || o = 0x450)

/-- A unit register loaded. What no register of the partition answers reads 0: the hypervisor's blocks are out of its reach (R401).
Log entry 18 (DEDUCED). -/
def State.unitRead (s : State) (loc : Nat) : Word :=
  match chanAt loc with
  | some (n, o) => (s.chan n).reg o
  | none => if s.schedBase ≤ loc && loc < s.schedBase + 0x20000 then s.schedRead (loc - s.schedBase) else 0

/-- A unit register stored to, by a release at a scope if there is one; none where the store waits. Log entry 18 (DEDUCED). -/
def State.unitWrite (s : State) (loc : Nat) (v : Word) (scope : Option Word := none) : Option State :=
  match chanAt loc with
  | some (n, o) => match o with
    | 0x00 => s.kickChan n v scope s.core.number
    | 0x08 => some (s.cfgChan n v)
    | 0x10 => some (s.statChan n v)
    | 0x18 => some (s.freeChan n v)
    | 0x20 => some (s.setChan n { s.chan n with cidaddr := v })
    | _ => some s
  | none => some (if s.schedBase ≤ loc && loc < s.schedBase + 0x20000 then s.schedWrite (loc - s.schedBase) v scope else s)

/-! ### The hypervisor's registers (R401) -/

/-- PSHAPE as it reads (R402). -/
def State.pshape (s : State) : Word := wd (fld s.sys.refused.toNat 63 + bits s.sys.shapeNew 15 0)

/-- SAVEMIN for the shape in force (R402). Log entry 9 (DESIGN CHOICE). -/
def State.saveMin (s : State) : Nat := Config.saveMin s.sys.w s.sys.h % 2 ^ 32

/-- The quantum in force of a control word, in cycles (R406). -/
def State.quantum (s : State) (ctl : Word) : Nat := max (bits ctl 31 0 * 1024) s.saveMin

/-- The quantum of a control word is below SAVEMIN (R406): that of the partition it names, of which this state holds only its own, so that
RAISED of another's device keeps its value. Log entry 9 (DESIGN CHOICE). -/
def State.raised (s : State) (ctl : Word) : Bool :=
  if bits ctl 59 56 = s.regs.partid then bits ctl 31 0 * 1024 < s.saveMin else bit ctl 61

/-- RAISED evaluated. -/
def State.setRaised (s : State) (ctl : Word) : Word := setBits ctl 61 61 (s.raised ctl).toNat

/-- VDCTL of virtual device v written (R404, R406). -/
def State.writeVdctl (s : State) (v : Nat) (x : Word) : State :=
  let d := mget {} s.sys.vds v
  let q := bits x 31 0
  let badq := if q = 0 then 1 else if bit x 62 then 0 else bits d.ctl 62 62
  let late := if bit x 60 then 0 else bits d.ctl 60 60
  let ctl := wd (fld (bits x 63 63) 63 + fld badq 62 + fld (bits d.ctl 61 61) 61 + fld late 60 + fld (bits x 59 56) 56 + fld (bits x 55 52) 52
    + (if q = 0 then bits d.ctl 31 0 else q))
  { s with sys := { s.sys with vds := mput {} s.sys.vds v { d with ctl := s.setRaised ctl } } }

/-- An operation at its place in the order of issue. -/
def insertOp (x : Nat × Instr) : List (Nat × Instr) → List (Nat × Instr)
  | [] => [x]
  | y :: l => if x.1 < y.1 then x :: y :: l else y :: insertOp x l

/-- The operations of the engines that are under way, which a halt drains into the holding buffers (R333, R422), in the order in which they
were issued: a chain's record comes last, since nothing orders it among them. Log entry 55 (DEDUCED). -/
def State.inFlight (s : State) : List Instr :=
  let acopies := (s.eng.acopy.filter fun a => a.accepted).map fun (a : Acopy) => (a.id, Instr.acopyComplete)
  let gathers := (s.eng.gather.filter fun g => g.served || 0 < g.next).map fun (g : Gather) =>
    (g.id, if g.served then Instr.gatherTokenFill else Instr.gatherEngineServe)
  let mus := (s.mu.run.toList.filter fun c => c.started).map fun (c : MuCmd) =>
    (c.id, if c.done.isSome then Instr.matrixTokenFill else Instr.matrixGrant)
  ((acopies ++ gathers ++ mus).foldr insertOp []).map (·.2)
    ++ (s.eng.chans.filter fun x => x.2.waiting.isSome).map fun x => Instr.transferRecord (x.1 / 16) (x.1 % 16)

/-- HALTCTL written (R422). -/
def State.writeHaltctl (s : State) (v : Word) : State :=
  if bit v 0 && s.sys.halted then { s with sys := { s.sys with halted := false, reissue := s.inFlight } } else s

/-- A register of the partition control block as the hypervisor reads it (R402, R414, R422, R436): HALTED once a halt has drained the
partition, which it has at once (log entry 55). -/
def State.partRead (s : State) (o : Nat) : Word :=
  if o = 0x00 then s.pshape
  else if o = 0x08 then wd s.saveMin
  else if o = 0x10 then s.sys.strictsh
  else if o = 0x20 then wd (fld s.sys.halted.toNat 63)
  else if 0x40 ≤ o && o < 0x60 && o % 8 = 0 then mget 0 s.sys.fabadmit ((o - 0x40) / 8)
  else 0

/-- A register of a virtual device's block as the hypervisor reads it (R404, R408, R410). -/
def State.vdRead (s : State) (v o : Nat) : Word :=
  let d := mget {} s.sys.vds v
  match o with
  | 0x00 => d.ctl
  | 0x08 => d.save
  | 0x10 => d.evring
  | 0x18 => d.pullctl
  | _ => 0

/-- A store by the hypervisor to the partition control block. Log entry 54 (DEDUCED). -/
def State.partWrite (s : State) (o : Nat) (v : Word) : State :=
  if o = 0x00 then { s with sys := { s.sys with shapeNew := keep v [(15, 0)] } }
  else if o = 0x10 then { s with sys := { s.sys with strictsh := keep v [(13, 8), (5, 0)] } }
  else if o = 0x20 then s.writeHaltctl v
  else if 0x40 ≤ o && o < 0x60 && o % 8 = 0 then { s with sys := { s.sys with fabadmit := mput 0 s.sys.fabadmit ((o - 0x40) / 8) v } }
  else s

/-- A store by the hypervisor to a virtual device's block. -/
def State.vdWrite (s : State) (v o : Nat) (x : Word) : State :=
  let d := mget {} s.sys.vds v
  let put (d : Vd) : State := { s with sys := { s.sys with vds := mput {} s.sys.vds v d } }
  match o with
  | 0x00 => s.writeVdctl v x
  | 0x08 => put { d with save := keep x [(55, 16)] }
  | 0x10 => put { d with evring := keep x [(63, 60), (55, 0)] }
  | 0x18 => put { d with pullctl := keep x [(63, 63), (55, 12), (7, 0)] }
  | _ => s

/-- Nothing of the partition that R47 waits for is under way. Log entry 19 (DESIGN CHOICE). -/
def State.placeQuiet (s : State) : Bool :=
  s.sched.task.isNone && s.sched.low.isNone && s.mu.run.isNone && s.mu.queue.isEmpty && s.mu.saves.isEmpty
    && s.eng.acopy.isEmpty && s.eng.gather.isEmpty && s.eng.chans.all fun x => x.2.walk = 0 && x.2.kicks.isEmpty

/-- This core holds something that keeps it in the rectangle (R403). Log entry 54 (DEDUCED). -/
def State.coreHolds (s : State) : Bool :=
  let q := s.sched
  !(q.parked.isEmpty && q.resume.isEmpty && q.inbox.isEmpty && q.high.isEmpty && q.domq.isEmpty && q.spilled.isEmpty && q.held.isEmpty
    && q.deque.isEmpty && q.dqMem.isEmpty && q.slots.isEmpty) || s.opt.domain.isSome

/-- Another core outside a rectangle holds something that keeps it in the partition (R403). Log entry 54 (DEDUCED). -/
def State.peerHolds (s : State) (w h : Nat) : Bool :=
  let out (n : Nat) : Bool := !(n % 128 < w && n / 128 < h)
  s.sched.peerHolds.any out || s.sched.peerDeques.any fun x => out x.1 && !x.2.isEmpty

/-- PSHAPE takes effect, or is refused (R402, R403). Log entry 54 (DEDUCED). -/
def State.reshape (s : State) : State :=
  let w := bits s.sys.shapeNew 7 0
  let h := bits s.sys.shapeNew 15 8
  let legal := w % 4 = 0 && 4 ≤ w && w ≤ 128 && h % 2 = 0 && 2 ≤ h && h ≤ 40
  let inside := s.core.number % 128 < w && s.core.number / 128 < h
  if !legal || (!inside && s.coreHolds) || s.peerHolds w h then { s with sys := { s.sys with refused := true } }
  else { s with sys := { s.sys with refused := false, w := w, h := h } }

/-- A PLSYNC write completes (R47, R69, R403, R406): tables, way masks, shape, and RAISED under the new shape.
Log entry 19 (DESIGN CHOICE). Log entry 54 (DEDUCED). -/
def State.placeSync (s : State) : State :=
  let s := { s with
    regs := { s.regs with cpways := s.mem.waysNew }
    mem := { s.mem with clusterTab := s.mem.clusterNew, laneTab := s.mem.laneNew, bankTab := s.mem.bankNew } }
  let out := s.mem.lines.filter fun l => !s.mayFill l.lv l.way
  let s := (out.foldl State.evict s).reshape
  let again (m : SMap Vd) (v : Nat) : SMap Vd := let d := mget {} m v; mput {} m v { d with ctl := s.setRaised d.ctl }
  { s with sys := { s.sys with vds := (List.range 256).foldl again s.sys.vds } }

/-- The entries of the place tables in hypervisor memory, which the model addresses from 2^48 on: cluster, lane-group and bank table at
2^48 + t * 2^16 (R45, R46); CPWAYS, which the hypervisor writes, at 2^48 + 3 * 2^16 (R68, R69), and PLSYNC as another hart of the
partition writes it at 2^48 + 4 * 2^16 (R47). The tables and CPWAYS take effect at PLSYNC. Log entry 19 (DESIGN CHOICE). -/
def State.tableWrite (s : State) (o : Nat) (v : Word) : State :=
  let e := keep v [(63, 63), (9, 0)]
  let i := o % 2 ^ 16
  match o / 2 ^ 16 with
  | 0 => { s with mem := { s.mem with clusterNew := mput 0 s.mem.clusterNew i e } }
  | 1 => { s with mem := { s.mem with laneNew := mput 0 s.mem.laneNew i e } }
  | 2 => { s with mem := { s.mem with bankNew := mput 0 s.mem.bankNew i e } }
  | 3 => { s with mem := { s.mem with waysNew := keep v [(63, 63), (47, 0)] } }
  | 4 => if !bit v 0 then s else if s.placeQuiet then s.placeSync else s.again
  | _ => s

/-- A load by the hypervisor from a register (R401). -/
def State.hyperLoad (s : State) (loc : Nat) : Word :=
  let p := 0x0100C0000000 + s.regs.partid % 16 * 0x1000
  if p ≤ loc && loc < p + 0x1000 then s.partRead (loc - p)
  else if 0x0100C1000000 ≤ loc && loc < 0x0100C1000000 + 256 * 0x100 then
    s.vdRead ((loc - 0x0100C1000000) / 0x100) ((loc - 0x0100C1000000) % 0x100)
  else s.unitRead loc

/-- A store by the hypervisor to a register or table entry. Log entry 19 (DESIGN CHOICE). -/
def State.hyperWrite (s : State) (loc : Nat) (v : Word) : State :=
  let p := 0x0100C0000000 + s.regs.partid % 16 * 0x1000
  if 2 ^ 48 ≤ loc then s.tableWrite (loc - 2 ^ 48) v
  else if p ≤ loc && loc < p + 0x1000 then s.partWrite (loc - p) v
  else if 0x0100C1000000 ≤ loc && loc < 0x0100C1000000 + 256 * 0x100 then
    s.vdWrite ((loc - 0x0100C1000000) / 0x100) ((loc - 0x0100C1000000) % 0x100) v
  else match s.unitWrite loc v with
    | some t => t
    | none => s.again

/-! ### The events that write registers -/

/-- A doorbell of queue q (R338). -/
def execLqtail (q : Nat) (v : Word) (s : State) : Out := (s.doorbell q v).done

/-- PREEMPT of this core is written (R394). -/
def execPreempt (v : Word) (s : State) : Out := (s.writePreempt s.core.number v).done

/-- STEALSEED is written (R347). -/
def execStealseed (v : Word) (s : State) : Out := (s.writeStealseed v).done

/-- ERRCNT is written (R397). -/
def execErrcnt (v : Word) (s : State) : Out := (s.writeErrcnt v).done

/-- COLLKICK is written (R437). -/
def execCollkick (v : Word) (s : State) : Out := (s.writeCollkick v).done

/-- VDCTL of virtual device v is written (R404, R406). -/
def execVdctl (v : Nat) (x : Word) (s : State) : Out := (s.writeVdctl v x).done

/-- HALTCTL is written (R422). -/
def execGo (v : Word) (s : State) : Out := (s.writeHaltctl v).done

/-- A register is written (R330): one of the unit space, or an entry of a place table. Log entry 19 (DESIGN CHOICE). -/
def execRegisterWrite (addr : Nat) (v : Word) (s : State) : Out := (s.hyperWrite addr v).done

end Sys2Proof.Machine
end

