-- ==== Sys2Proof/Machine/Task.lean ====
section
/-! DEFINITION. WPUSH (R235) and the instructions of major 0x3C: messages, spawns, events, parking and ending (R310 to R323), storage and
network requests at issue (R324), and virtual time (R352 to R362). -/
namespace Sys2Proof.Machine

/-! ### The frame of major 0x3C (R310, R360) -/

/-- FORM in MODE 1 and MODE 2. -/
def taskMode (c : Ctx) (s : State) : Res Unit := if s.mode = 1 || s.mode = 2 then ill .form c else .ok ()

/-- FORM in MODE 1, for TEND. -/
def tendMode (c : Ctx) (s : State) : Res Unit := if s.mode = 1 then ill .form c else .ok ()

/-- The same, and FORM where an operand that the encoding holds is out of range, which a guard never hides (R207, step 9). -/
def taskForm (ok : Bool) (c : Ctx) (s : State) : Res Unit := if ok then taskMode c s else ill .form c

/-- FRMODE in forerunner mode (R167). -/
def State.notForerunner (s : State) (c : Ctx) : Res Unit := if s.forerunner then ill .frMode c else .ok ()

/-- QLIVE (R92). -/
def State.queuesEmpty (s : State) (c : Ctx) : Res Unit := if s.queuesLive then ill .qlive c else .ok ()

/-- An instruction of the frame that completes. -/
def runTask (i : Instr) (g : Guard) (body : Ctx → State → Res State) (s : State) : Out :=
  runEnd i g taskMode (fun c s => (body c s).map .completed) s

/-- The same, with operands that the encoding alone may forbid. -/
def runForm (i : Instr) (g : Guard) (ok : Bool) (body : Ctx → State → Res State) (s : State) : Out :=
  runEnd i g (taskForm ok) (fun c s => (body c s).map .completed) s

/-- FORM unless a condition holds. -/
def form (b : Bool) (c : Ctx) : Res Unit := if b then .ok () else ill .form c

/-- A record of eight words. -/
def recOf (ws : List Word) : Rec :=
  let w (k : Nat) : Word := ws.getD k 0
  ⟨w 0, w 1, w 2, w 3, w 4, w 5, w 6, w 7⟩

/-- Word 0 of a record meets R154, ANTI and OPT ignored. -/
def wordZeroOk (w : Word) : Bool := bits w 63 59 = 0 && !bit w 56 && bits w 1 0 = 0

/-- The record as it is delivered: ANTI and OPT as 0 (R154). -/
def plainRec (ws : List Word) : Rec := let r := recOf ws; { r with w0 := setBits r.w0 58 57 0 }

/-- The record of an optimistic message as it is delivered: OPT as 1 (R361). -/
def optRec (ws : List Word) : Rec := let r := recOf ws; { r with w0 := setBits r.w0 58 57 1 }

/-- A core word names a core of the rectangle (R312). -/
def State.coreOk (s : State) (n : Word) : Bool := bits n 63 13 = 0 && coreX n.toNat < s.sys.w && coreY n.toNat < s.sys.h

/-- A message as the running task sends it (R312). -/
def State.message (s : State) (r : Rec) (scope : Word) : Delivery :=
  { r := r, ctx := s.launchCtx, scope := scope, sender := s.core.number }

/-- The wait of R314. -/
def State.sendRoom (s : State) : Res Unit := if s.sendsFull then .error (.wait .room) else .ok ()

/-! ### WPUSH -/

/-- WPUSH (R157, R164, R235). Log entry 32 (DEDUCED). -/
def execWpush (g : Guard) (x : WPushArgs) (s : State) : Out :=
  run (.wpush g x) g (fun c s => do
    s.prepare c [.src x.a false] (s.notForerunner c)
    let (b, s) := s.take x.a
    let size := classSize x.cls.val
    need (b.toNat % 32 = 0 && b.toNat + size ≤ 8192) cWINDOW (winInfo 2 b.toNat 0)
    s.checkAbs b.toNat size
    need (!s.poolFull x.cls.val) cWINDOW (winInfo 3 b.toNat 0)
    .ok (s.returnWindow x.cls.val b.toNat s.regs.asid)) s

/-! ### Sending and spawning (R312 to R315, R318) -/

/-- The operands of SEND and its kin: first word, record, scope. -/
def State.takeSend (s : State) (x : SendArgs) : Word × List Word × Word × State :=
  let (n, s) := s.take x.a.name
  let (ws, s) := s.takeRun x.r.first 8
  let (v, s) := s.takeScope x.sc
  (n, ws, v, s)

/-- The operand fields of SEND and its kin. -/
def sendOprs (x : SendArgs) : List Opr := [srcOpr x.a, runOpr x.r 8] ++ scopeOpr x.sc

/-- A SEND performed (R312, R342). -/
def State.sendNow (s : State) (n : Nat) (d : Delivery) : Res State := do
  s.sendRoom
  let s ← s.release (s.scopeWidth d.scope)
  .ok ((s.liveUp d.ctx.lnid 1).sendRecord n d)

/-- SEND (R312). -/
def execSend (g : Guard) (x : SendArgs) (s : State) : Out :=
  runTask (.send g x) g (fun c s => do
    s.checkScope c x.sc
    s.prepare c (sendOprs x) (s.noOpt c)
    let (n, ws, v, s) := s.takeSend x
    form (s.coreOk n && wordZeroOk (ws.getD 0 0)) c
    s.sendNow n.toNat (s.message (plainRec ws) v)) s

/-- The corners of a rectangle send are in order (R313). -/
def cornersOk (x : SendRect) : Bool :=
  coreX x.core0.toNat ≤ coreX x.core1.toNat && coreY x.core0.toNat ≤ coreY x.core1.toNat

/-- The rectangle send (R313): one release, then a copy to each core in ascending number. -/
def execSendRect (g : Guard) (x : SendRect) (s : State) : Out :=
  runForm (.sendRect g x) g (cornersOk x) (fun c s => do
    s.prepare c [runOpr x.r 8] (s.noOpt c)
    let (ws, s) := s.takeRun x.r.first 8
    let (v, s) := s.takeScope (.short x.sc)
    let n0 := x.core0.toNat
    let n1 := x.core1.toNat
    form (s.coreOk (wd n0) && s.coreOk (wd n1) && wordZeroOk (ws.getD 0 0)) c
    s.sendRoom
    let s ← s.release (s.scopeWidth v)
    let d := s.message (plainRec ws) v
    let cores := (List.range (coreY n1 + 1 - coreY n0)).flatMap fun j =>
      (List.range (coreX n1 + 1 - coreX n0)).map fun i => (coreY n0 + j) * 128 + coreX n0 + i
    .ok (cores.foldl (fun s n => s.sendRecord n d) (s.liveUp d.ctx.lnid cores.length))) s

/-- A spawned record (R315). -/
def State.spawned (s : State) (ws : List Word) (scope : Word) : DqRec := { r := plainRec ws, ctx := s.launchCtx, scope := scope }

/-- SPAWN (R315, R345). Log entry 30 (DEDUCED). -/
def execSpawn (g : Guard) (x : SpawnArgs) (s : State) : Out :=
  runTask (.spawn g x) g (fun c s => do
    s.checkScope c x.sc
    s.prepare c (runOpr x.r 8 :: scopeOpr x.sc) (do s.noOpt c; s.notForerunner c)
    let (ws, s) := s.takeRun x.r.first 8
    let (v, s) := s.takeScope x.sc
    form (wordZeroOk (ws.getD 0 0)) c
    let r := s.spawned ws v
    let s ← s.release (s.scopeWidth v)
    match s.pushDeque r with
    | some t => .ok (t.liveUp r.ctx.lnid 1)
    | none => .error (.waitIn s.pullDeque .room)) s

/-- An event word's form (R316). -/
def eventOk (v : Word) : Bool := bits v 31 16 = 0

/-- SPAWNEV (R318, R344). -/
def execSpawnev (g : Guard) (x : SendArgs) (s : State) : Out :=
  runTask (.spawnev g x) g (fun c s => do
    s.checkScope c x.sc
    s.prepare c (sendOprs x) (do s.noOpt c; s.notForerunner c)
    let (e, ws, v, s) := s.takeSend x
    form (eventOk e && wordZeroOk (ws.getD 0 0)) c
    s.sendRoom
    s.eventHere (bits e 15 0)
    match s.waiterNode (bits e 15 0) with
    | none => .error (.wait .room)
    | some ovf => do
      let r := s.spawned ws v
      let s ← s.release (s.scopeWidth v)
      .ok ((s.liveUp r.ctx.lnid 1).addWaiter (bits e 15 0) (bits e 63 32) ovf (.inl r))) s

/-! ### Events (R317) -/

/-- The body of EVADD and EVSET: the new count from the old one and word(B). -/
def eventBody (f : Nat → Word → Nat) (x : EvArgs) (c : Ctx) (s : State) : Res State := do
  s.checkScope c x.sc
  s.prepare c ([srcOpr x.a, srcOpr x.b] ++ scopeOpr x.sc ++ [.dst x.d]) (s.noOpt c)
  let (e, s) := s.take x.a.name
  let (y, s) := s.take x.b.name
  let (v, s) := s.takeScope x.sc
  form (eventOk e) c
  let n := bits e 15 0
  s.eventHere n
  let old := s.eventCount n
  let s ← s.release (s.scopeWidth v)
  let s ← s.bindDst x.d (some (wd old)) 0
  .ok (s.updateEvent n (f old y))

/-- The count after EVADD. -/
def eventAdd (old : Nat) (y : Word) : Nat := ((max 0 (min ((old : Int) + sextI y.toNat 32) (2 ^ 32 - 1))) : Int).toNat

/-- EVADD (R317). -/
def execEvadd (g : Guard) (x : EvArgs) (s : State) : Out := runTask (.evadd g x) g (eventBody eventAdd x) s

/-- EVSET (R317). -/
def execEvset (g : Guard) (x : EvArgs) (s : State) : Out := runTask (.evset g x) g (eventBody (fun _ y => zext y 32) x) s

/-! ### Parking, yielding and ending (R157, R163, R165, R320 to R322) -/

/-- The bound of n of PARK and YIELD. -/
def State.keepOk (s : State) (t : Task) (n : BitVec 13) : Bool := n.toInt ≤ (min s.regs.wl (classSize t.cls) : Nat)

/-- The pool that the task's window returns to has room (R157). -/
def State.poolRoom (s : State) (t : Task) : Res Unit := need (!s.poolFull t.cls) cWINDOW (winInfo 3 t.base 0)

/-- The resume descriptor of a task that leaves before the next instruction (R142, R163). -/
def State.resumeDesc (s : State) : Word := mkDesc s.regs.wb s.regs.wl (rpcOf s.pc s.codeBase) false false false

/-- The waits that come before a task is saved (R148, R163): where its record goes. -/
def State.mayLeave (s : State) (t : Task) (n : Nat) : Res Bool := do
  s.windowDrained t
  s.needPark n

/-- PARK (R320): if the event has reached its threshold the task is released at once. -/
def execPark (g : Guard) (x : ParkArgs) (s : State) : Out :=
  runEnd (.park g x) g (taskForm (0 ≤ x.n.toInt)) (fun c s => do
    s.checkScope c x.sc
    s.prepare c (.src x.a false :: scopeOpr x.sc) (do s.queuesEmpty c; s.noOpt c; s.notForerunner c)
    let (e, s) := s.take x.a
    let (v, s) := s.takeScope x.sc
    match s.sched.task with
    | none => ill .form c
    | some t => do
      form (s.keepOk t x.n && eventOk e) c
      s.poolRoom t
      let n := x.n.toNat
      let inRing ← s.mayLeave t n
      s.eventHere (bits e 15 0)
      match s.waiterNode (bits e 15 0) with
      | none => .error (.wait .room)
      | some ovf => do
        let s ← s.release (s.scopeWidth v)
        let p := s.saveTask t s.regs.wb n s.resumeDesc (.event (bits e 15 0) (bits e 63 32)) v inRing
        .ok (.left ((s.parkTask t p).addWaiter (bits e 15 0) (bits e 63 32) ovf (.inr p.id)))) s

/-- YIELD (R321), at self scope. -/
def execYield (g : Guard) (n : BitVec 13) (s : State) : Out :=
  runEnd (.yield g n) g (taskForm (0 ≤ n.toInt)) (fun c s => do
    s.prepare c [] (do s.queuesEmpty c; s.noOpt c; s.notForerunner c)
    match s.sched.task with
    | none => ill .form c
    | some t => do
      form (s.keepOk t n) c
      s.poolRoom t
      let inRing ← s.mayLeave t n.toNat
      let s ← s.release 0
      .ok (.left (s.parkTask t (s.saveTask t s.regs.wb n.toNat s.resumeDesc .yield (wd (fld 1 32)) inRing)))) s

/-- A supervisor TEND of an optimistic handler rolls it back and drops its message (R359, R363). -/
def State.dropHandler (s : State) (t : Task) : State :=
  match s.handlerKey with
  | some k => ((s.trace 2 t.launch.lnid).rollback k true).updDomain fun d => { d with dropped := d.dropped + 1 }
  | none => s.endTask t

/-- The windows whose bindings a TEND waits for: the task's, and the current one or, in MODE 2, that of TSAVE (R148, R322).
Log entry 32 (DEDUCED). -/
def State.tendDrained (s : State) (t : Task) : Res Unit :=
  let w := if s.sup then (descBase s.regs.tsave, descLimit s.regs.tsave) else (s.regs.wb, s.regs.wl)
  s.unboundAll (((List.range w.2).map (w.1 + ·)) ++ (List.range t.size).map (t.base + ·))

/-- TEND (R165, R322). Log entry 32 (DEDUCED). -/
def execTend (g : Guard) (s : State) : Out :=
  runEnd (.tend g) g tendMode (fun c s => do
    if s.sup then .ok () else s.queuesEmpty c
    match s.sched.task with
    | none => .ok (.left s)
    | some t => do
      s.tendDrained t
      if s.forerunner then .ok () else s.poolRoom t
      let s ← s.release 0
      if s.sup then .ok (.left (if s.opt? then s.dropQueues.dropHandler t else s.dropQueues.endTask t))
      else
        let s := if s.opt? && t.heldGvt then s.updDomain fun d => { d with committed := d.committed + 1 } else s
        .ok (.left (s.endTask t))) s

/-! ### LAUNCH (R323, R338) -/

/-- The physical address that a virtual address maps to, where it maps to memory that a launch record may lie in; the aperture region is
not translated (R32, R323). -/
def State.recordPa (s : State) (va : Word) : Res (Nat × State) :=
  if inAperture va then .error (.trap cPROT (memInfo 0 3 5 va))
  else match s.translate s.who .read va with
  | .error m => .error (s.missStop .read (m, va))
  | .ok (l, t) => do
    need (l.what = .memory && l.mt ≠ 2) cPROT (memInfo 0 l.level 5 va)
    match s.leafOf s.who .read va with
    | .error m => .error (s.missStop .read (m, va))
    | .ok f => .ok (f.leaf.pa va, t)

/-- LAUNCH: it appends an entry, and D fills with the launch's identifier. While the page of the entry's place is pulled, it waits (R410). -/
def execLaunch (g : Guard) (x : EvArgs) (s : State) : Out :=
  runTask (.launch g x) g (fun c s => do
    s.checkScope c x.sc
    s.prepare c ([srcOpr x.a, srcOpr x.b] ++ scopeOpr x.sc ++ [.dst x.d]) (s.noOpt c)
    let (qw, s) := s.take x.a.name
    let (va, s) := s.take x.b.name
    let (v, s) := s.takeScope x.sc
    form (bits qw 63 4 = 0) c
    aligned .read va 64
    let (pa, s) ← s.recordPa va
    s.sendRoom
    let q := qw.toNat
    let lq := s.lq q
    let tail := bits lq.tail 31 0
    let entry := areaBase lq.base + 8 * (tail % lq.size)
    if lq.size ≤ ahead32 tail lq.head || (s.absentAt entry).isSome then .error (.waitIn (s.pullAt entry) .room)
    else do
      let s ← s.release (s.scopeWidth v)
      let lnid := s.sched.nextLnid
      let s := s.writePhysMem entry (wordBytes (wd pa))
      let s := s.setLq q { lq with tail := setBits lq.tail 31 0 ((tail + 1) % 2 ^ 32) }
      let a : Appended := { q := q, index := tail, lnid := lnid, user := if s.mode = 0 then some s.regs.asid else none, queued := s.cyc }
      let s := { s with sched := { s.sched with nextLnid := lnid + 1, appended := s.sched.appended ++ [a] } }
      s.bindDst x.d (some (wd lnid)) 0) s

/-! ### Storage and network requests at issue (R324) -/

/-- The kinds of a request: 0 SREAD, 1 SWRITE, 2 NETTX, 3 NETRX; and the form of its descriptor. -/
def ioForm (kind : Nat) (len off : Word) : Bool :=
  let n := bits len 31 0
  if kind < 2 then bits len 63 33 = 0 && (kind = 1 || !bit len 32) && n % 512 = 0 && 512 ≤ n && n ≤ 2 ^ 24 && off.toNat % 512 = 0
  else bits len 63 32 = 0 && (if kind = 2 then 60 else 64) ≤ n && n ≤ 9216 && bits off 63 6 = 0

/-- The body of SREAD, SWRITE, NETTX and NETRX. -/
def ioBody (kind : Nat) (x : IoArgs) (c : Ctx) (s : State) : Res State := do
  s.checkScope c x.sc
  s.prepare c ([runOpr x.a 4] ++ scopeOpr x.sc ++ [.dst x.tok]) (s.noOpt c)
  let (ws, s) := s.takeRun x.a.first 4
  let (v, s) := s.takeScope x.sc
  form (ioForm kind (ws.getD 1 0) (ws.getD 2 0)) c
  aligned .write (ws.getD 3 0) 32
  let t := s.phys x.tok.num
  s.unbound t
  if 64 ≤ s.eng.io.length then .error (.wait .room)
  else do
    let s ← s.release (s.scopeWidth v)
    let r : IoReq := {
      id := s.core.nextBind, kind := kind, desc := ws, nud := x.nud.val, scope := v, asid := s.regs.asid, sup := s.sup
      lnid := s.launchCtx.lnid.toNat }
    let s := s.bind [t] none
    .ok { s with eng := { s.eng with io := s.eng.io ++ [r] } }

/-- SREAD (R324). -/
def execSread (g : Guard) (x : IoArgs) (s : State) : Out := runTask (.sread g x) g (ioBody 0 x) s

/-- SWRITE (R324). -/
def execSwrite (g : Guard) (x : IoArgs) (s : State) : Out := runTask (.swrite g x) g (ioBody 1 x) s

/-- NETTX (R324). -/
def execNettx (g : Guard) (x : IoArgs) (s : State) : Out := runTask (.nettx g x) g (ioBody 2 x) s

/-- NETRX (R324). -/
def execNetrx (g : Guard) (x : IoArgs) (s : State) : Out := runTask (.netrx g x) g (ioBody 3 x) s

/-! ### Virtual time (R352, R360 to R362) -/

/-- Two ranges of local store overlap; an empty one overlaps nothing. -/
def overlaps (a b : Nat × Nat) : Bool := max a.1 b.1 < min a.2 b.2

/-- No two of a list of ranges overlap. -/
def apart : List (Nat × Nat) → Bool
  | [] => true
  | x :: xs => (xs.all fun y => !overlaps x y) && apart xs

/-- A domain of the words of a block, if they meet R352 and R361. -/
def State.domainOf (s : State) (o : Nat) (w0 w1 w2 : Word) : Option Domain :=
  let d : Domain := {
    block := o, sbase := bits w0 18 0, slen := bits w0 51 32, bbase := bits w1 18 0, blen := bits w1 51 32
    obase := bits w2 18 0, olen := bits w2 51 32 }
  let resv (w : Word) : Bool := bits w 63 52 = 0 && bits w 31 19 = 0
  let unit (b l k : Nat) : Bool := b % k = 0 && l % k = 0 && k ≤ l && b + l ≤ 2 ^ 19
  let areas := [(d.sbase, d.sbase + d.slen), (d.bbase, d.bbase + d.blen), (d.obase, d.obase + d.olen), (o, o + 64)]
  let kept := [areaOf s.regs.lsfa, areaOf s.regs.pka]
  if resv w0 && resv w1 && resv w2 && unit d.sbase d.slen 8 && unit d.bbase d.blen 32 && unit d.obase d.olen 128
      && apart areas && areas.all (fun a => kept.all fun k => !overlaps a k) then some d else none

/-- DOMAIN (R361). Log entry 31 (DEDUCED). -/
def execDomain (g : Guard) (x : TwoSrc) (s : State) : Out :=
  runTask (.domain g x) g (fun c s => do
    s.prepare c [srcOpr x.a, srcOpr x.b] (do s.notForerunner c; s.noOpt c)
    let (o, s) := s.take x.a.name
    let (win, s) := s.take x.b.name
    if s.opt.domain.isSome then optIll 4 c
    else do
      form (bits o 63 19 = 0 && o.toNat % 64 = 0) c
      let w (k : Nat) : Word := wordOf (s.homeBytes (storeKey s.core.number (o.toNat + 8 * k)) 8)
      match s.domainOf o.toNat (w 0) (w 1) (w 2) with
      | none => ill .form c
      | some d =>
        let lnid := s.launchCtx.lnid
        let s := { s with
          regs := { s.regs with optwin := win }
          opt := { s.opt with domain := some { d with lnid := lnid.toNat }, bittern := [], output := [] } }
        .ok (s.writeBlock.liveUp lnid 1)) s

/-- The core may leave its domain (R361). -/
def State.domainQuiet (s : State) : Bool :=
  s.sched.domq.isEmpty && s.sched.spilled.all (fun a => a.d.key.isNone) && s.opt.unacked.isEmpty && s.opt.bittern.isEmpty
    && s.opt.output.isEmpty

/-- DOMEXIT (R361). -/
def execDomexit (g : Guard) (s : State) : Out :=
  runTask (.domexit g) g (fun c s => do
    s.prepare c [] (do s.notForerunner c; s.noOpt c)
    match s.opt.domain with
    | none => optIll 4 c
    | some d =>
      if !s.domainQuiet then .error (.wait .room)
      else
        let s := s.writeBlock
        let s := { s with opt := { s.opt with domain := none } }
        .ok ((s.liveDown (wd d.lnid)).reseed)) s

/-- The scope field an output entry records (R358). -/
def Scope.field : Scope → Nat
  | .short k => k.val + 1
  | _ => 0

/-- The wait of R362 and R369 that a VSEND makes where it is not optimistic: the number of installed keys it waits for, that of the interval under
way when it issued, and whether its send counts as unacknowledged already, as it does from its issue in the seed state.
Log entry 31 (DEDUCED). -/
def State.gvtTarget (s : State) : Option (Nat × Bool) :=
  let fresh := if s.opt.seed then (0, true) else (s.opt.installs + 1 + (if s.opt.reported.isSome then 1 else 0), false)
  if s.opt? then none
  else match s.core.wait with
    | some w => (match w.on with
      | .gvt n _ counted => some (n, counted)
      | _ => some fresh)
    | none => some fresh

/-- What a VSEND with that target waits on, whatever it waits for. -/
def vsendOn (target : Option (Nat × Bool)) (k : Key) : WaitOn :=
  match target with
  | some (n, counted) => .gvt n k counted
  | none => .room

/-- The key that a VSEND waits for is installed (R362). Log entry 31 (DEDUCED). -/
def State.awaitGvt (s : State) (target : Option (Nat × Bool)) (k : Key) : Res Unit :=
  match target with
  | some (n, false) => if n ≤ s.opt.installs then .ok () else .error (.wait (.gvt n k false))
  | _ => .ok ()

/-- A record with a key leaves, unacknowledged until its target has entered it (R365). -/
def State.sendKeyed (s : State) (n : Nat) (d : Delivery) (k : Key) : State :=
  { s with opt := { s.opt with unacked := s.opt.unacked ++ [k] } }.sendRecord n { d with key := some k }

/-- The log entry of a VSEND or DEFER of an optimistic handler (R358, R359). -/
def State.logOutput (s : State) (k : Key) (o : OutKind) : Res State :=
  match s.opt.domain with
  | none => .ok s
  | some dom => match s.appendOutput dom ⟨k, o⟩ with
    | some t => .ok t
    | none => .error (.wait .room)

/-- The checks a VSEND makes of its key (R361, R362): one that counts as unacknowledged has passed its own. Log entry 31 (DEDUCED). -/
def State.vsendKey (s : State) (k : Key) (target : Option (Nat × Bool)) (c : Ctx) : Res Unit :=
  match s.handlerKey with
  | some hk => if Key.lt hk k then .ok () else optIll 2 c
  | none => match target with
    | some (_, false) => if Key.lt k s.gvtKey then optIll 3 c else .ok ()
    | _ => .ok ()

/-- The log entry of an optimistic handler's VSEND (R359, R361). -/
def State.logVsend (s : State) (k : Key) (n : Nat) (field : Nat) (scope : Word) : Res State :=
  match s.handlerKey with
  | some hk => if s.holdsGvt then .ok s else s.logOutput hk (.send k n field scope)
  | none => .ok s

/-- VSEND (R361, R362): whatever it waits for, and whatever its release meets (R136), comes before its entry in the log (R389).
Log entry 31 (DEDUCED). -/
def execVsend (g : Guard) (x : SendArgs) (s : State) : Out :=
  runTask (.vsend g x) g (fun c s => do
    s.checkScope c x.sc
    s.prepare c (sendOprs x) (s.notForerunner c)
    let (n, ws, v, s) := s.takeSend x
    let k := sendKey (ws.getD 1 0) s.core.number s.opt.seq
    let target := s.gvtTarget
    s.awaitGvt target k
    form (s.coreOk n && wordZeroOk (ws.getD 0 0)) c
    s.vsendKey k target c
    if s.sendsFull then .error (.wait (vsendOn target k)) else .ok ()
    let _ ← s.logVsend k n.toNat (Scope.field x.sc) v
    let s ← s.release (s.scopeWidth v)
    let s ← s.logVsend k n.toNat (Scope.field x.sc) v
    let s := { s with opt := { s.opt with seq := (s.opt.seq + 1) % 2 ^ 48 } }
    .ok (s.sendKeyed n.toNat (s.message (optRec ws) v) k)) s

/-- DEFER (R361): logged, or sent once every earlier entry has been harvested, or sent. -/
def execDefer (g : Guard) (x : SendArgs) (s : State) : Out :=
  runTask (.defer g x) g (fun c s => do
    s.checkScope c x.sc
    s.prepare c (sendOprs x) (s.notForerunner c)
    let (n, ws, v, s) := s.takeSend x
    form (s.coreOk n && wordZeroOk (ws.getD 0 0)) c
    let d := s.message (plainRec ws) v
    match s.handlerKey with
    | some hk =>
      if !s.holdsGvt then s.logOutput hk (.defer d n.toNat (Scope.field x.sc) v)
      else if s.opt.output.any fun o => Key.lt o.key hk then .error (.wait .room)
      else s.sendNow n.toNat d
    | none => s.sendNow n.toNat d) s

/-- Two words written together. -/
def State.writePair (s : State) (d : Name) (a b : Word) : Res State := do
  s.unboundAll [s.phys d.num, s.phys d.num + 1]
  let s ← s.writePhys (s.phys d.num) a
  s.writePhys (s.phys d.num + 1) b

/-- VTNOW (R361): 0 and 0 outside an optimistic handler. -/
def execVtnow (g : Guard) (d : Name) (s : State) : Out :=
  run (.vtnow g d) g (fun c s => do
    s.prepare c [.runDst d 2]
    match s.handlerKey with
    | some k => s.writePair d k.t k.k
    | none => s.writePair d 0 0) s

/-- GVTRD (R361). -/
def execGvtrd (g : Guard) (d : Name) (s : State) : Out :=
  run (.gvtrd g d) g (fun c s => do
    s.prepare c [.runDst d 2]
    s.writePair d s.gvtKey.t s.gvtKey.k) s

/-- SAFE (R361): an optimistic handler waits until it holds GVT. -/
def execSafe (g : Guard) (s : State) : Out :=
  runTask (.safe g) g (fun c s => do
    s.prepare c [] (s.notForerunner c)
    if s.opt? && !s.holdsGvt then .error (.wait .room) else .ok s) s

end Sys2Proof.Machine
end

