-- ==== Sys2Proof/Machine/Matrix.lean ====
section
/-! DEFINITION. The matrix unit's commands (R287 to R303): their issue, the immediate instructions, the grants of the arbiter, and the
events of the unit. The sequencer's commands, which enter the same queue, stand in Sequencer.lean. -/
namespace Sys2Proof.Machine

/-! ### Tokens and the unit's accesses (R289, R291) -/

/-- A token (R289): RESUME, KDONE, ROW, and bits [15:0]. Log entry 34 (DEDUCED). -/
def muToken (resume : Bool) (kdone row low : Nat) : Word :=
  wd (fld resume.toNat 63 + fld (kdone % 4096) 44 + fld (row % 64) 38 + low % 65536)

/-- Bits [15:0] of a token that reports a fault: LEVEL for PAGE and PROT only. Log entry 34 (DEDUCED). -/
def muFault (kind cause detail level : Nat) : Nat :=
  fld (if cause = cPAGE || cause = cPROT then level else 0) 14 + fld kind 12 + fld detail 8 + cause

/-- What stops the unit at an access: an absent page to wait for, or a fault as bits of the token with its address. -/
inductive MuStop where
  | absent (page : Nat)
  | bad (low va : Nat)
  deriving DecidableEq, Repr

/-- An engine's access as the unit reports it. -/
def muTry {α : Type} (kind : Nat) : Except EngFault α → Except MuStop α
  | .ok a => .ok a
  | .error (.fault c d l va) => .error (.bad (muFault kind c d l) (va.toNat % 2 ^ 56))
  | .error (.absent p) => .error (.absent p)

/-- A command's identity, through the matrix unit's TLB: for its stores too, since R26 names that TLB for the load pipes alone and no other for
them. Log entry 5 (DESIGN CHOICE). -/
def MuCmd.who (c : MuCmd) : Who := engineWho c.asid c.sup .mu

/-- The unit reads or writes memory for a command. -/
def State.muRead (s : State) (c : MuCmd) (kind : Nat) (va : Word) (n : Nat) : Except MuStop (List Byte × State) :=
  muTry kind (s.engineRead .mu c.id c.who va n c.nud)
def State.muWrite (s : State) (c : MuCmd) (va : Word) (bs : List Byte) : Except MuStop State :=
  muTry 3 (s.engineWrite .mu c.id c.who va bs c.nud)

/-! ### Issue (R287, R288, R290) -/

/-- The command of an instruction: what every kind of it notes. -/
def State.muCmd (s : State) (c : Ctx) (op : MuOp) (tile rm nud : Nat) (desc : List Word) : MuCmd :=
  { id := s.core.nextBind, op := op, tile := tile, rm := s.rmOf rm, nud := nud, desc := desc, site := c.pc, cbase := s.regs.cbase
    asid := s.regs.asid, sup := s.sup, mode := s.mode, lnid := s.regs.lnid, seed := s.regs.seed, thr := s.mu.thr }

/-- The progress a command starts from (R289). -/
def MuCmd.from (c : MuCmd) (old : Word) : MuCmd :=
  if bit old 63 then { c with r0 := bits old 43 38, k0 := bits old 55 44, fresh := false } else c

/-- A row's address is aligned: base, then base plus stride (R290). -/
def rowAligned (k : Kind) (base : Word) (stride n : Nat) : Res Unit := do
  aligned k base n
  need (stride % n = 0) cALIGN (memInfo k.code 3 2 (base + wd stride))

/-- Reserved bits are zero (R290). -/
def resvOk (b : Bool) (c : Ctx) : Res Unit := if b then .ok () else ill .resv c

/-- The operands of a command with a token: its old value and its n descriptor words, checked. -/
def State.muOperands (s : State) (c : Ctx) (tok : Name) (a : Run) (n : Nat) (check : List Word → Res Unit) (own : Res Unit := .ok ()) :
    Res (Word × List Word × State) := do
  s.prepare c [runOpr a n, .both tok] (do own; s.noOpt c)
  let (ws, s) := s.takeRun a.first n
  let (old, s) := s.take tok
  check ws
  .ok (old, ws, s)

/-- A queued command (R287, R288): it waits for a place, releases at cluster scope, binds T and enters the queue. -/
def State.enqueue (s : State) (tok : Name) (cmd : State → MuCmd) : Res State := do
  let t := s.phys tok.num
  s.unbound t
  if 2 ≤ s.mu.queue.length then .error (.wait .room)
  else do
    let s ← s.release 1
    let m := cmd s
    let s := s.bind [t] none 0 (some 1)
    .ok { s with mu := { s.mu with queue := s.mu.queue ++ [m] } }

/-- The body of a queued command whose token may resume it. -/
def queuedBody (op : MuOp) (tile rm nud : Nat) (tok : Name) (a : Run) (n : Nat) (x : Option Matx)
    (check : Ctx → State → List Word → Res Unit) (c : Ctx) (s : State) : Res State := do
  let (old, ws, s) ← s.muOperands c tok a n (check c s)
  s.enqueue tok fun s => { (s.muCmd c op tile rm nud ws).from old with x := x }

/-- The unit has no command: what the immediate instructions wait for. -/
def State.muIdle (s : State) : Bool := s.mu.run.isNone && s.mu.queue.isEmpty && s.mu.saves.isEmpty

def State.awaitMu (s : State) : Res Unit := if s.muIdle then .ok () else .error (.wait .room)

/-! ### Descriptors (R293, R296, R297, R299, R300) -/

/-- KLIM, KCOUNT and ROWMASK (R293, R203). -/
structure KCtl where
  klim : Nat
  kcount : Nat
  rows : Nat
  deriving DecidableEq, Repr

def kctlOf (w : Word) : KCtl := ⟨bits w 31 24, bits w 11 0, bits w 63 32⟩

/-- MMA and MMAS: words A to A + 3, and A + 4, A + 5 of MMAS. Log entry 33 (DEDUCED). -/
def mmaCheck (sparse : Bool) (c : Ctx) (_ : State) (ws : List Word) : Res Unit := do
  let w (k : Nat) : Word := ws.getD k 0
  resvOk (bits (w 3) 23 12 = 0 && (!sparse || bits (w 5) 63 32 = 0)) c
  form (bits (w 3) 31 24 ≤ 124) c
  rowAligned .read (w 0) (bits (w 2) 31 0) 64
  rowAligned .read (w 1) (bits (w 2) 63 32) 64
  if sparse then rowAligned .read (w 4) (bits (w 5) 31 0) 64 else .ok ()

/-- The rectangle of an MROT (R297). -/
def State.rotScopeOk (s : State) (v : Word) : Bool :=
  s.scopeOk v && (scClass v = 2 || (scClass v = 0 && scX0 v % 4 = 0 && scX1 v % 4 = 3 && scY0 v % 2 = 0 && scY1 v % 2 = 1))

/-- MROT: a scope word and a control word. Log entry 33 (DEDUCED). -/
def mrotCheck (c : Ctx) (s : State) (ws : List Word) : Res Unit := do
  let w := ws.getD 1 0
  if s.rotScopeOk (ws.getD 0 0) then .ok () else ill .badScope c
  resvOk (bits w 23 12 = 0) c
  form (bits w 31 24 ≤ 124 && bits w 11 0 ≤ 16) c

/-- MLDA and MLDB. Log entry 33 (DEDUCED). -/
def bufCheck (c : Ctx) (_ : State) (ws : List Word) : Res Unit := do
  resvOk (bits (ws.getD 1 0) 63 36 = 0) c
  rowAligned .read (ws.getD 0 0) (bits (ws.getD 1 0) 31 0) 64

/-- MLD, MLDT and MST: base and stride. Log entry 33 (DEDUCED). -/
def tileCheck (k : Kind) (n : Nat) (c : Ctx) (_ : State) (ws : List Word) : Res Unit := do
  resvOk (bits (ws.getD 1 0) 63 32 = 0) c
  rowAligned k (ws.getD 0 0) (bits (ws.getD 1 0) 31 0) n

/-- Alignment of MST's base and stride (R300). -/
def Ty.mstAlign (t : Ty) : Nat :=
  match t with
  | .f32 => 4
  | .f64 => 8
  | .f16 | .b16 | .i8 | .n8 | .e4m3 | .e5m2 | .e2m1 | .l6 => 64
  | _ => t.bytes

/-! ### MMA, MMAS, MROT -/

/-- FORM where MATX, which the encoding holds, names a KLIM above 124 (R203, R207 step 9). -/
def matxForm (x : MmaArgs) (c : Ctx) (_ : State) : Res Unit := form (x.x.all fun m => m.klim.toNat ≤ 124) c

/-- MMA or MMAS. -/
def runMma (i : Instr) (g : Guard) (x : MmaArgs) (body : Ctx → State → Res State) (s : State) : Out :=
  runEnd i g (matxForm x) (fun c s => (body c s).map .completed) s

def mmaBody (acc : Acc) (x : MmaArgs) : Ctx → State → Res State :=
  queuedBody (.mma acc 0) x.tile.val x.rm.val x.nud.val x.tok x.a 4 x.x (mmaCheck false)

def mmasBody (acc : Acc) (g : Nat) (x : MmaArgs) : Ctx → State → Res State :=
  queuedBody (.mma acc g) x.tile.val x.rm.val x.nud.val x.tok x.a 6 x.x (mmaCheck true)

def mrotBody (acc : Acc) (x : MrotArgs) : Ctx → State → Res State :=
  queuedBody (.mrot acc) x.tile.val x.rm.val 0 x.tok x.a 2 none mrotCheck

/-- MMA.F (R292). -/
def execMmaF (g : Guard) (x : MmaArgs) (s : State) : Out := runMma (.mmaF g x) g x (mmaBody .f x) s

/-- MMA.I (R292). -/
def execMmaI (g : Guard) (x : MmaArgs) (s : State) : Out := runMma (.mmaI g x) g x (mmaBody .i x) s

/-- MMA.SAT (R292). -/
def execMmaSat (g : Guard) (x : MmaArgs) (s : State) : Out := runMma (.mmaSat g x) g x (mmaBody .sat x) s

/-- MMAS.24.F (R292, R295). -/
def execMmas24F (g : Guard) (x : MmaArgs) (s : State) : Out := runMma (.mmas24F g x) g x (mmasBody .f 4 x) s

/-- MMAS.24.I (R292, R295). -/
def execMmas24I (g : Guard) (x : MmaArgs) (s : State) : Out := runMma (.mmas24I g x) g x (mmasBody .i 4 x) s

/-- MMAS.24.SAT (R292, R295). -/
def execMmas24Sat (g : Guard) (x : MmaArgs) (s : State) : Out := runMma (.mmas24Sat g x) g x (mmasBody .sat 4 x) s

/-- MMAS.48.F (R292, R295). -/
def execMmas48F (g : Guard) (x : MmaArgs) (s : State) : Out := runMma (.mmas48F g x) g x (mmasBody .f 8 x) s

/-- MMAS.48.I (R292, R295). -/
def execMmas48I (g : Guard) (x : MmaArgs) (s : State) : Out := runMma (.mmas48I g x) g x (mmasBody .i 8 x) s

/-- MMAS.48.SAT (R292, R295). -/
def execMmas48Sat (g : Guard) (x : MmaArgs) (s : State) : Out := runMma (.mmas48Sat g x) g x (mmasBody .sat 8 x) s

/-- MROT.F (R297). -/
def execMrotF (g : Guard) (x : MrotArgs) (s : State) : Out := run (.mrotF g x) g (mrotBody .f x) s

/-- MROT.I (R297). -/
def execMrotI (g : Guard) (x : MrotArgs) (s : State) : Out := run (.mrotI g x) g (mrotBody .i x) s

/-- MROT.SAT (R297). -/
def execMrotSat (g : Guard) (x : MrotArgs) (s : State) : Out := run (.mrotSat g x) g (mrotBody .sat x) s

/-! ### Buffers and tiles -/

/-- MLDA (R296). -/
def execMlda (g : Guard) (x : TokArgs) (s : State) : Out :=
  run (.mlda g x) g (queuedBody .mlda 0 0 x.nud.val x.tok x.a 2 none bufCheck) s

/-- MLDB (R296). -/
def execMldb (g : Guard) (x : TokArgs) (s : State) : Out :=
  run (.mldb g x) g (queuedBody .mldb 0 0 x.nud.val x.tok x.a 2 none bufCheck) s

/-- MLD (R299). -/
def execMld (g : Guard) (x : MldArgs) (s : State) : Out :=
  run (.mld g x) g (queuedBody .mld x.tile.val 0 x.nud.val x.tok x.a 2 none (tileCheck .read 4)) s

/-- MLDT (R299). -/
def execMldt (g : Guard) (x : MldArgs) (s : State) : Out :=
  run (.mldt g x) g (queuedBody .mldt x.tile.val 0 x.nud.val x.tok x.a 2 none (tileCheck .read 4)) s

/-- MST (R300). -/
def execMst (g : Guard) (x : MstArgs) (s : State) : Out :=
  run (.mst g x) g (queuedBody (.mst x.t) x.tile.val x.rm.val x.nud.val x.tok x.a 2 none (tileCheck .write (Ty.mstAlign x.t))) s

/-- The 1,024 elements of a tile. -/
def State.tile (s : State) (t : Nat) : List Nat := mgets 0 s.mu.tiles (1024 * t) 1024

/-- Elements of a tile from element i on. -/
def State.setTile (s : State) (t i : Nat) (els : List Nat) : State :=
  { s with mu := { s.mu with tiles := mputs 0 s.mu.tiles (1024 * t + i) els } }

/-- MZERO (R298). -/
def execMzero (g : Guard) (tile : Fin 4) (s : State) : Out :=
  run (.mzero g tile) g (fun c s => do
    s.noOpt c
    s.awaitMu
    .ok (s.setTile tile.val 0 (List.replicate 1024 0))) s

/-! ### Threshold and state -/

/-- MTHR (R301). -/
def execMthr (g : Guard) (a : Src) (s : State) : Out :=
  run (.mthr g a) g (fun c s => do
    s.prepare c [srcOpr a] (s.noOpt c)
    let (v, s) := s.take a.name
    s.awaitMu
    .ok { s with mu := { s.mu with thr := bits v 31 0, dropmag := 0 } }) s

/-- What MRD reads (R302). -/
def State.muReg (s : State) (sel : Nat) : Word :=
  match sel with
  | 0 => s.mu.rowprog
  | 1 => wd s.mu.dropmag
  | 2 => wd s.mu.thr
  | 3 => wd s.mu.faultva
  | 4 => s.regs.mqweight
  | _ => wd (mget 0 s.mu.droprow (sel - 32))

/-- MRD (R302). -/
def execMrd (g : Guard) (x : MrdArgs) (s : State) : Out :=
  run (.mrd g x) g (fun c s => do
    s.prepare c [.dst x.d] (s.noOpt c)
    s.awaitMu
    s.write x.d (s.muReg x.sel.toNat)) s

/-! ### MSAVE (R303) -/

/-- MSAVE and MSAVE.rst themselves. -/
def MuOp.isSave : MuOp → Bool
  | .msave | .msaveRst => true
  | _ => false

/-- Every command of the queue that has been issued is asked to stop. -/
def State.askStop (s : State) : State :=
  { s with mu := { s.mu with
      run := s.mu.run.map fun (c : MuCmd) => if c.op.isSave then c else { c with stop := true }
      queue := s.mu.queue.map fun (c : MuCmd) => { c with stop := true } } }

/-- MSAVE: it stands beside the queue. -/
def execMsave (g : Guard) (x : TokPlain) (s : State) : Out :=
  run (.msave g x) g (fun c s => do
    let (_, ws, s) ← s.muOperands c x.tok x.a 1 fun ws => aligned .write (ws.getD 0 0) 256
    let t := s.phys x.tok.num
    s.unbound t
    let s ← s.release 1
    let m := s.muCmd c .msave 0 0 15 ws
    let s := (s.bind [t] none 0 (some 1)).askStop
    .ok { s with mu := { s.mu with saves := s.mu.saves ++ [m] } }) s

/-- MSAVE.rst: it waits until the queue is empty. -/
def execMsaveRst (g : Guard) (x : TokPlain) (s : State) : Out :=
  run (.msaveRst g x) g (fun c s => do
    let (_, ws, s) ← s.muOperands c x.tok x.a 1 fun ws => aligned .read (ws.getD 0 0) 256
    let t := s.phys x.tok.num
    s.unbound t
    s.awaitMu
    let s ← s.release 1
    let m := s.muCmd c .msaveRst 0 0 15 ws
    let s := s.bind [t] none 0 (some 1)
    .ok { s with mu := { s.mu with run := some m } }) s

/-- The size of the area. -/
def muAreaSize : Nat := 0x14100

/-- The area's bytes. -/
def State.muImage (s : State) : List Byte :=
  (mgets 0 s.mu.tiles 0 4096).flatMap (fun x => toBytes x 4) ++ mgets 0 s.mu.bufs 0 65536
    ++ (mgets 0 s.mu.droprow 0 32).flatMap (fun x => toBytes x 4) ++ toBytes s.mu.dropmag 4 ++ toBytes s.mu.thr 4
    ++ List.replicate 0x78 0

/-- 32-bit elements of bytes. -/
def words32 : Nat → List Byte → List Nat
  | 0, _ => []
  | n + 1, bs => ofBytes (bs.take 4) :: words32 n (bs.drop 4)

/-- The area read back. -/
def State.muRestore (s : State) (bs : List Byte) : State :=
  { s with mu := { s.mu with
      tiles := mof 0 0 (words32 4096 bs)
      bufs := mof 0 0 ((bs.drop 0x4000).take 0x10000)
      droprow := mof 0 0 (words32 32 (bs.drop 0x14000))
      dropmag := ofBytes ((bs.drop 0x14080).take 4)
      thr := ofBytes ((bs.drop 0x14084).take 4) } }

/-! ### The K-steps of R294 -/

/-- What a run of K-steps does: accumulation, N:M group (0 for dense blocks), whether its blocks come from the buffers, KLIM and so on. -/
structure KRun where
  acc : Acc
  g : Nat := 0
  bufs : Bool := false
  ctl : KCtl
  deriving DecidableEq, Repr

/-- The run of a command. -/
def MuCmd.kRun (c : MuCmd) : KRun :=
  let ctl (k : Nat) : KCtl := match c.x with
    | some m => ⟨m.klim.toNat, m.kcount.toNat, m.rowmask.toNat⟩
    | none => kctlOf (c.desc.getD k 0)
  match c.op with
  | .mma acc g => { acc := acc, g := g, ctl := ctl 3 }
  | .mrot acc => { acc := acc, bufs := true, ctl := ctl 1 }
  | _ => { acc := .f, ctl := ctl 3 }

/-- A logical element is within KLIM at K-step k (R294). -/
def KRun.keeps (p : KRun) (k pos : Nat) : Bool := !(k + 1 = p.ctl.kcount && p.ctl.klim ≠ 0 && p.ctl.klim ≤ pos)

/-- The rows a command works on, below its fault where it has found one (R291). -/
def MuCmd.rows (c : MuCmd) (p : KRun) : List Nat :=
  let top := match c.bad with
    | some (row, _, _) => row
    | none => 32
  (List.range 32).filter fun i => c.r0 ≤ i && i < top && p.ctl.rows / 2 ^ i % 2 = 1

/-- The 64 bytes of block k of row or column i: kind 0 A, 1 B, 2 metadata; and its address. -/
def State.block (s : State) (c : MuCmd) (p : KRun) (kind i k : Nat) : Except MuStop (List Byte × Nat × State) :=
  if p.bufs then .ok (mgets 0 s.mu.bufs ((if kind = 1 then 32768 else 0) + 1024 * i + 64 * k) 64, 0, s)
  else do
    let d (n : Nat) : Word := c.desc.getD n 0
    let (base, stride) := match kind with
      | 0 => (d 0, bits (d 2) 31 0)
      | 1 => (d 1, bits (d 2) 63 32)
      | _ => (d 4, bits (d 5) 31 0)
    let va := base + wd (i * stride + 64 * k)
    let (bs, s) ← s.muRead c kind va 64
    .ok (bs, va.toNat % 2 ^ 56, s)

/-- FORMAT of a kind of block (R183). -/
def badFormat {α : Type} (kind detail va : Nat) : Except MuStop α := .error (.bad (muFault kind cFORMAT detail 0) va)

/-- CODE (R183). -/
def codeOk (kind va : Nat) (bs : List Byte) : Except MuStop Blk :=
  match blkOf bs with
  | some b => .ok b
  | none => badFormat kind 1 va

/-- ISCALE (R183). -/
def scaleOk (kind va : Nat) (b : Blk) (live : Bool) : Except MuStop Unit :=
  if b.t.isInt && live && b.scale ≠ 0x7F then badFormat kind 2 va else .ok ()

/-- A B block of column j, and its CODE; the rest is checked against the row that it meets. -/
def State.bBlock (s : State) (c : MuCmd) (p : KRun) (j kb : Nat) : Except MuStop ((Blk × Nat) × State) := do
  let (bs, va, s) ← s.block c p 1 j kb
  let b ← codeOk 1 va bs
  .ok ((b, va), s)

/-- B blocks of a K-step in order, by column and block number, and the fault that ended the reading. -/
structure BBlocks where
  bs : List (Blk × Nat) := []
  bad : Option (Nat × Nat) := none
  deriving DecidableEq, Repr

/-- B blocks read in order, up to the first that faults. -/
def State.bBlocks (s : State) (c : MuCmd) (p : KRun) : List (Nat × Nat) → Except MuStop (BBlocks × State)
  | [] => .ok ({}, s)
  | (j, kb) :: l =>
    match s.bBlock c p j kb with
    | .error (.absent q) => .error (.absent q)
    | .error (.bad low va) => .ok ({ bad := some (low, va) }, s)
    | .ok (b, s) => do
      let (r, s) ← s.bBlocks c p l
      .ok ({ r with bs := b :: r.bs }, s)

/-- The B blocks of K-step k: one a column, or two for MMAS (R295). -/
def KRun.bList (p : KRun) (k : Nat) : List (Nat × Nat) :=
  if p.g = 0 then (List.range 32).map fun j => (j, k) else (List.range 32).flatMap fun j => [(j, 2 * k), (j, 2 * k + 1)]

/-- A row's A block at a K-step: the block, its address, the elements in use as code and logical position, the magnitudes that THR
drops, and the logical positions of its stored elements. -/
structure ARow where
  b : Blk
  va : Nat
  live : List (Nat × Nat)
  drops : List (Nat × Int)
  chosen : List Nat
  deriving DecidableEq, Repr

/-- The elements of an A block at their positions (R294). -/
def arow (c : MuCmd) (p : KRun) (k va : Nat) (b : Blk) (pos : List Nat) : ARow :=
  let els := (b.raw.zip pos).filter fun x => p.keeps k x.2
  { b := b, va := va
    live := els.filter fun x => (dropped c.thr b.t b.scale x.1).isNone
    drops := els.filterMap fun x => dropped c.thr b.t b.scale x.1
    chosen := pos }

/-- Read a row's A block, and its metadata under MMAS (R295). Metadata that faults gives no positions, so only THR masks the block then. -/
def State.rowA (s : State) (c : MuCmd) (p : KRun) (k i : Nat) : Except MuStop (ARow × State) := do
  let (bs, va, s) ← s.block c p 0 i k
  let b ← codeOk 0 va bs
  let n := b.t.blkLen
  if p.g = 0 then do
    let r := arow c p k va b (List.range n)
    scaleOk 0 va b (!r.live.isEmpty)
    .ok (r, s)
  else
    let md : Except MuStop (List Nat × State) := do
      let (ms, mva, s) ← s.block c p 2 i k
      match sparsePositions p.g n ms with
      | .ok pos => .ok (pos, s)
      | .error d => .error (.bad (muFault 2 cSPARSE d 0) mva)
    match md with
    | .error (.absent q) => .error (.absent q)
    | .error (.bad low mva) => do
      scaleOk 0 va b (!(arow c p k va b (List.replicate n 0)).live.isEmpty)
      .error (.bad low mva)
    | .ok (pos, s) => do
      let r := arow c p k va b pos
      scaleOk 0 va b (!r.live.isEmpty)
      .ok (r, s)

/-- The checks of a pair (R183, R295): ISCALE of the B block, whose elements stand at logical positions from h * n on for an A block of n
elements; then GROUP and ACCUM. Log entry 33 (DEDUCED). -/
def pairOk (p : KRun) (k h : Nat) (a : ARow) (b : Blk × Nat) : Except MuStop Unit := do
  scaleOk 1 b.2 b.1 (p.keeps k (h * a.b.t.blkLen))
  if b.1.t.group ≠ a.b.t.group then badFormat 1 3 b.2
  else if a.b.t.isInt != (p.acc ≠ .f) then badFormat 0 4 a.va
  else .ok ()

/-- The pairs of a row in order; under MMAS each half is checked whole before the next, its B block's CODE with it, since R295 orders the
halves and R183 the checks of each. Log entry 33 (DEDUCED). -/
def pairsOk (p : KRun) (k : Nat) (a : ARow) : Nat → List (Blk × Nat) → Except MuStop Unit
  | _, [] => .ok ()
  | i, b :: l => do
    pairOk p k (if p.g = 0 then 0 else i % 2) a b
    pairsOk p k a (i + 1) l

/-- What a matrix command draws from (R193). -/
def MuCmd.rnd (c : MuCmd) : Rnd := { rm := c.rm, lnid := c.lnid, seed := c.seed, site := (c.site - c.cbase).toNat / 4 }

/-- One accumulator after its row and column at K-step k: under MMAS the positions that no stored element has hold zero (R295). -/
def accStep (c : MuCmd) (p : KRun) (k i : Nat) (a : ARow) (bs : List (Blk × Nat)) (j old : Nat) : Nat × Bool :=
  let n := a.b.t.blkLen
  let e := k * 1024 + 32 * i + j
  let half (h : Nat) (x : Nat × Bool) (b : Blk) : Nat × Bool :=
    let ps := a.live.filterMap fun y =>
      if h * n ≤ y.2 && y.2 < (h + 1) * n then some (elemTimes a.b.t b.t y.1 (b.raw.getD (y.2 - h * n) 0)) else none
    let zs := (List.range n).filterMap fun q =>
      if p.g ≠ 0 && p.keeps k (h * n + q) && !a.chosen.contains (h * n + q) then some (elemTimes a.b.t b.t 0 (b.raw.getD q 0)) else none
    let r := blockAdd p.acc c.rnd e x.1 a.b.scale b.scale (ps ++ zs)
    (r.1, x.2 || r.2)
  let b (h : Nat) : Blk := (bs.getD h (a.b, 0)).1
  if p.g = 0 then half 0 (old, false) (b j) else half 1 (half 0 (old, false) (b (2 * j))) (b (2 * j + 1))

/-- DROPROW after the dropped elements of a row (R294). Log entry 35 (DEDUCED). -/
def dropAdd (old : Nat) (drops : List (Nat × Int)) : Nat :=
  drops.foldl (fun x d => (Ty.f32.fadd nearest 0 (Ty.f32.decode x) (.fin false d.1 d.2)).1) old

/-- Row i at K-step k: its blocks read and checked, its 32 accumulators and DROPROW updated. -/
def State.rowStep (s : State) (c : MuCmd) (p : KRun) (k i : Nat) (cols : Option BBlocks) : Except MuStop (BBlocks × State) := do
  let (a, s) ← s.rowA c p k i
  let (cs, s) ← match cols with
    | some x => .ok (x, s)
    | none => s.bBlocks c p (p.bList k)
  pairsOk p k a 0 cs.bs
  match cs.bad with
  | some (low, va) => .error (.bad low va)
  | none =>
    let olds := mgets 0 s.mu.tiles (1024 * c.tile + 32 * i) 32
    let news := (olds.zip (List.range 32)).map fun x => accStep c p k i a cs.bs x.2 x.1
    let s := s.setTile c.tile (32 * i) (news.map (·.1))
    let clips := ((news.zip (List.range 32)).filter fun x => x.1.2).foldl (fun m x => mput 0 m (32 * i + x.2) 1) s.mu.clips
    let drop := dropAdd (mget 0 s.mu.droprow i) a.drops
    .ok (cs, { s with mu := { s.mu with clips := clips, droprow := mput 0 s.mu.droprow i drop } })

/-- The rows of a K-step in ascending order, up to the first that faults. -/
def State.kRows (s : State) (c : MuCmd) (p : KRun) (k : Nat) (cols : Option BBlocks) :
    List Nat → Except Nat (State × Option (Nat × Nat × Nat))
  | [] => .ok (s, none)
  | i :: is =>
    match s.rowStep c p k i cols with
    | .ok (cs, t) => t.kRows c p k (some cs) is
    | .error (.absent q) => .error q
    | .error (.bad low va) => .ok (s, some (i, low, va))

/-- The run has no K-step left (R294, R291). -/
def MuCmd.over (c : MuCmd) (p : KRun) : Bool := decide (p.ctl.kcount ≤ c.k) || (c.rows p).isEmpty

/-- One K-step for every active row; none where it waits for a page. A fault found leaves the rows below it to complete. -/
def State.kStep (s : State) (c : MuCmd) (p : KRun) : Except Nat (State × MuCmd) :=
  match s.kRows c p c.k none (c.rows p) with
  | .error page => .error page
  | .ok (t, none) => .ok (t, { c with k := c.k + 1 })
  | .ok (t, some b) => .ok (t, { c with k := c.k + 1, bad := some b })

/-! ### Starting, stopping and completing -/

def State.setRun (s : State) (c : MuCmd) : State := { s with mu := { s.mu with run := some c } }

/-- The running command has a token to fill. Log entry 34 (DEDUCED). -/
def State.muDone (s : State) (c : MuCmd) (tok : Word) : State := s.setRun { c with done := some tok }

/-- A fresh run sets DROPROW to +0 (R294). -/
def State.freshRows (s : State) : State := { s with mu := { s.mu with droprow := [], clips := [] } }

/-- The address of a command's instruction. -/
def MuCmd.addr (c : MuCmd) : Nat := c.site.toNat % 2 ^ 56

/-- Whether a command works on the rows of a tile by K-steps. -/
def MuOp.multiplies : MuOp → Bool
  | .mma _ _ | .mrot _ => true
  | _ => false

/-- The clipped elements of a run that has stopped are kept for its resumption, whatever the unit does meanwhile; a run that has ended has
none (R417). Log entry 35 (DEDUCED). -/
def State.keepClips (s : State) (c : MuCmd) (resume : Bool) : State :=
  if !c.started || !c.op.multiplies then s
  else
    let rest := s.mu.kept.filter fun x => !(x.1 = c.addr && x.2.1 = c.asid && x.2.2.1 = c.tile)
    { s with mu := { s.mu with kept := if resume then rest ++ [(c.addr, c.asid, c.tile, s.mu.clips)] else rest } }

/-- A resumed run goes on with the clipped elements that it had (R417). Log entry 35 (DEDUCED). -/
def State.takeClips (s : State) (c : MuCmd) : State :=
  match s.mu.kept.find? fun x => x.1 = c.addr && x.2.1 = c.asid && x.2.2.1 = c.tile with
  | some x => { s with mu := { s.mu with clips := x.2.2.2 } }
  | none => { s with mu := { s.mu with clips := [] } }

/-- The region of a command opens, with the acquire of its engine (R95, R125). Log entry 34 (DEDUCED). -/
def State.muOpen (s : State) (c : MuCmd) : State :=
  s.selfInvalidate.addOther { id := c.id, agent := .mu, device := s.regs.devnum, core := s.core.number, own := true }

/-- Entries of a map from key i on as they stand in another. -/
def keepBelow {α : Type} [DecidableEq α] (d : α) (new old : SMap α) (lo hi : Nat) : SMap α :=
  mputs d new lo (mgets d old lo (hi - lo))

/-- Rows from `row` on hold again what they held when the run began (R291). -/
def State.undoRows (s : State) (c : MuCmd) (row : Nat) : State :=
  let (t, d, x) := c.snap
  { s with mu := { s.mu with
      tiles := keepBelow 0 s.mu.tiles t (1024 * c.tile + 32 * row) (1024 * c.tile + 1024)
      droprow := keepBelow 0 s.mu.droprow d row 32
      clips := keepBelow 0 s.mu.clips x (32 * row) 1024 } }

/-- The run stops at the fault it has found. -/
def State.muFaulted (s : State) (c : MuCmd) (row low : Nat) : State :=
  (s.undoRows c row).muDone c (muToken true c.k0 row low)

/-- DROPMAG at completion (R294). Log entry 35 (DEDUCED). -/
def State.foldDrops (s : State) : State :=
  let add (x y : Nat) : Nat := (Ty.f32.fadd nearest 0 (Ty.f32.decode x) (Ty.f32.decode y)).1
  { s with mu := { s.mu with dropmag := (mgets 0 s.mu.droprow 0 32).foldl add s.mu.dropmag } }

/-- Events at a site (R417, R418). Log entry 35 (DEDUCED). -/
def State.census (s : State) (addr : Nat) (e : Events) : State :=
  let total := e.nan + e.inf + e.sat + e.uf
  let sites := s.sched.census
  let up (x : Site) : Site :=
    { x with nan := upTo32 (x.nan + e.nan), inf := upTo32 (x.inf + e.inf), sat := upTo32 (x.sat + e.sat), uf := upTo32 (x.uf + e.uf) }
  if total = 0 then s
  else if sites.any fun x => x.addr = addr then
    { s with sched := { s.sched with census := sites.map fun (x : Site) => if x.addr = addr then up x else x } }
  else if sites.length < 4096 then
    let (a, b) := (sites.filter fun x => x.addr < addr, sites.filter fun x => addr < x.addr)
    { s with sched := { s.sched with census := a ++ [up { addr := addr }] ++ b } }
  else { s with sched := { s.sched with censovf := upTo32 (s.sched.censovf + total) } }

/-- The events of a completed multiplication (R417). Log entry 35 (DEDUCED). -/
def State.mmaCensus (s : State) (c : MuCmd) (acc : Acc) : State :=
  let els := if acc = .f then (s.tile c.tile).map Ty.f32.decode else []
  s.census c.addr { nan := (els.filter Num.isNan).length, inf := (els.filter Num.isInf).length, sat := s.mu.clips.length }

/-- One K-step of a grant to an MMA or an MMAS, or the end of a run that has none left: a stop is tested between the last K-step and the end
(R294, R304). Log entry 49 (DESIGN CHOICE). -/
def State.grantMma (s : State) (c : MuCmd) (finish : State → MuCmd → State) : State :=
  let p := c.kRun
  if c.over p then (match c.bad with
    | some (row, low, _) => s.muFaulted c row low
    | none => finish s c)
  else match s.kStep c p with
    | .error page => (s.beginPull page c.lnid.toNat).setRun c
    | .ok (t, c) => t.setRun c

/-- The token of a completed command (R289). Log entry 34 (DEDUCED). -/
def doneToken (k : Nat) : Word := muToken false k 32 0

/-! ### MROT's exchange (R297) -/

/-- Columns and rows of the grid of clusters of an MROT's scope word. -/
def rotGrid (v : Word) : Nat × Nat :=
  if scClass v = 0 then ((scX1 v + 1 - scX0 v) / 4, (scY1 v + 1 - scY0 v) / 2) else (1, 1)

def MuCmd.rect (c : MuCmd) : Word := c.desc.getD 0 0

/-- A buffer's bytes: A or B. -/
def State.buffer (s : State) (isA : Bool) : List Byte := mgets 0 s.mu.bufs (if isA then 0 else 32768) 32768

def State.setBuffer (s : State) (isA : Bool) (bs : List Byte) : State :=
  { s with mu := { s.mu with bufs := mputs 0 s.mu.bufs (if isA then 0 else 32768) (bs.take 32768) } }

/-- The arrived buffer of a kind and number, and the others. Log entry 36 (DEDUCED). -/
def takeArrived (isA : Bool) (m : Nat) : List RotBuf → Option (RotBuf × List RotBuf)
  | [] => none
  | x :: xs =>
    if x.isA = isA && x.m = m then some (x, xs)
    else (takeArrived isA m xs).map fun r => (r.1, x :: r.2)

/-- MATFAULT of an MROT whose products are complete. Log entry 34 (DEDUCED). -/
def matToken (k detail : Nat) : Word := muToken false k 32 (muFault 0 cMATFAULT detail 0)

/-- A buffer that has arrived is taken, or discarded. -/
def State.dropArrived (s : State) (isA : Bool) (m : Nat) : State :=
  match takeArrived isA m s.mu.arrived with
  | some r => { s with mu := { s.mu with arrived := r.2 } }
  | none => s

/-- An MROT gives up a buffer that it awaits: one that has arrived is discarded, another when it arrives (R297). Log entry 36 (DEDUCED). -/
def State.giveUp (s : State) (c : MuCmd) (isA : Bool) : State :=
  let (cw, ch) := rotGrid c.rect
  if (if isA then cw else ch) = 1 then s
  else if (takeArrived isA c.m s.mu.arrived).isSome then s.dropArrived isA c.m
  else { s with mu := { s.mu with late := s.mu.late ++ [(isA, c.m)] } }

/-- MATFAULT ends an MROT that has sent its buffers: it takes none. Log entry 36 (DEDUCED). -/
def State.rotFails (s : State) (c : MuCmd) (detail : Nat) : State :=
  ((s.giveUp c true).giveUp c false).muDone c (matToken c.kRun.ctl.kcount detail)

/-- An MROT that has sent its buffers: refused, complete, when its events are counted (R417), or still waiting. Log entry 36 (DEDUCED). -/
def State.rotSettle (s : State) (c : MuCmd) : State :=
  let (cw, ch) := rotGrid c.rect
  let p := c.kRun
  let a := if cw = 1 then none else (takeArrived true c.m s.mu.arrived).map (·.1)
  let b := if ch = 1 then none else (takeArrived false c.m s.mu.arrived).map (·.1)
  let wrong (x : Option RotBuf) : Bool := x.any fun r => r.rect ≠ c.rect
  if wrong a || wrong b then s.rotFails c 2
  else if (cw = 1 || a.isSome) && (ch = 1 || b.isSome) then
    let s := match a with
      | some r => (s.dropArrived true c.m).setBuffer true r.bytes
      | none => s
    let s := match b with
      | some r => (s.dropArrived false c.m).setBuffer false r.bytes
      | none => s
    (s.mmaCensus c p.acc).muDone c (doneToken p.ctl.kcount)
  else s.setRun c

/-- A buffer that the MROT under way has sent is refused at its other end (R297). Log entry 36 (DEDUCED). -/
def State.rotRefused (s : State) : State :=
  match s.mu.run with
  | some c => if c.sent.isSome && c.done.isNone then s.rotFails c 2 else s
  | none => s

/-- Step 2 of R297: the buffers leave, with the number of this MROT since the queue last loaded one; those of a grid one cluster wide or high
stay. Log entry 36 (DEDUCED). -/
def State.rotSend (s : State) (c : MuCmd) : State :=
  let (cw, ch) := rotGrid c.rect
  let m := s.mu.rots + 1
  let s := { s with mu := { s.mu with rots := m } }
  let s := if cw = 1 then s else s.post (.rotated ⟨true, s.buffer true, c.rect, m⟩)
  let s := if ch = 1 then s else s.post (.rotated ⟨false, s.buffer false, c.rect, m⟩)
  s.rotSettle { c with sent := some s.cyc, m := m }

/-- The K-steps of one row of an MROT: `n` of them from k on. -/
def State.rotRow (s : State) (c : MuCmd) (p : KRun) (i k : Nat) : Nat → Except MuStop State
  | 0 => .ok s
  | n + 1 => do
    let (_, s) ← s.rowStep c p k i none
    s.rotRow c p i (k + 1) n

/-- A grant to an MROT: step 1 of R297 row by row, as it stops (R303); after the last row DROPMAG, and the buffers leave (R294).
Log entry 49 (DESIGN CHOICE). -/
def State.grantRot (s : State) (c : MuCmd) : State :=
  let p := c.kRun
  match c.rows p with
  | [] => s.foldDrops.rotSend c
  | i :: _ => match s.rotRow c p i c.k0 (p.ctl.kcount - c.k0) with
    | .error (.absent q) => (s.beginPull q c.lnid.toNat).setRun c
    | .error (.bad low va) => s.muFaulted { c with bad := some (i, low, va) } i low
    | .ok t =>
      let c := { c with r0 := i + 1 }
      if (c.rows p).isEmpty then t.foldDrops.rotSend c else t.setRun c

/-! ### Rows of the other commands -/

/-- One row of a grant to a command of rows, and its end: a fault ends the command at that row (R291, R303).
Log entry 49 (DESIGN CHOICE). -/
def State.grantRows (s : State) (c : MuCmd) (f : Nat → State → Except MuStop State) (finish : State → State := id) : State :=
  if 32 ≤ c.r0 then (finish s).muDone c (doneToken 0)
  else match f c.r0 s with
    | .error (.absent q) => (s.beginPull q c.lnid.toNat).setRun c
    | .error (.bad low va) => s.muDone { c with bad := some (c.r0, low, va) } (muToken true c.k0 c.r0 low)
    | .ok t =>
      let c := { c with r0 := c.r0 + 1 }
      if c.r0 = 32 then (finish t).muDone c (doneToken 0) else t.setRun c

/-- One row of a buffer (R296). -/
def State.bufRow (s : State) (c : MuCmd) (isA : Bool) (i : Nat) : Except MuStop State := do
  let w := c.desc.getD 1 0
  let n := 64 * (bits w 35 32 + 1)
  let (bs, s) ← s.muRead c (if isA then 0 else 1) (c.desc.getD 0 0 + wd (i * bits w 31 0)) n
  .ok { s with mu := { s.mu with bufs := mputs 0 s.mu.bufs ((if isA then 0 else 32768) + 1024 * i) bs } }

/-- Elements of row i of MLDT, read one by one. -/
def State.readColumn (s : State) (c : MuCmd) (base : Word) (stride i j : Nat) : Nat → Except MuStop (List Nat × State)
  | 0 => .ok ([], s)
  | n + 1 => do
    let (bs, s) ← s.muRead c 0 (base + wd (j * stride + 4 * i)) 4
    let (xs, s) ← s.readColumn c base stride i (j + 1) n
    .ok (ofBytes bs :: xs, s)

/-- One row of a tile read (R299). -/
def State.tileRow (s : State) (c : MuCmd) (trans : Bool) (i : Nat) : Except MuStop State := do
  let base := c.desc.getD 0 0
  let stride := bits (c.desc.getD 1 0) 31 0
  let (xs, s) ← if trans then s.readColumn c base stride i 0 32
    else (s.muRead c 0 (base + wd (i * stride)) 128).map fun r => (words32 32 r.1, r.2)
  .ok (s.setTile c.tile (32 * i) xs)

/-- The row of MST, and its events. -/
def State.mstRowAt (s : State) (c : MuCmd) (t : Ty) (i : Nat) : List Byte × Events :=
  mstRow t c.rnd i (mgets 0 s.mu.tiles (1024 * c.tile + 32 * i) 32)

def State.outRow (s : State) (c : MuCmd) (t : Ty) (i : Nat) : Except MuStop State :=
  s.muWrite c (c.desc.getD 0 0 + wd (i * bits (c.desc.getD 1 0) 31 0)) (s.mstRowAt c t i).1

/-- The events of a completed MST, whichever rows its last run wrote (R417). Log entry 35 (DEDUCED). -/
def State.mstCensus (s : State) (c : MuCmd) (t : Ty) : State :=
  s.census c.addr ((List.range 32).foldl (fun e i => e.plus (s.mstRowAt c t i).2) {})

/-- MSAVE and MSAVE.rst as one grant. Log entry 37 (DEDUCED). -/
def State.grantSave (s : State) (c : MuCmd) : State :=
  let area := c.desc.getD 0 0
  match s.muWrite c area s.muImage with
  | .ok t => t.muDone c (doneToken 0)
  | .error (.absent q) => (s.beginPull q c.lnid.toNat).setRun c
  | .error (.bad low va) =>
    s.muDone { c with bad := some (0, low, va), met := s.partyWho .mu c.id c.who .write area muAreaSize } (muToken false 0 0 low)

/-- Log entry 37 (DEDUCED). -/
def State.grantRestore (s : State) (c : MuCmd) : State :=
  match s.muRead c 0 (c.desc.getD 0 0) muAreaSize with
  | .ok (bs, t) => (t.muRestore bs).muDone c (doneToken 0)
  | .error (.absent q) => (s.beginPull q c.lnid.toNat).setRun c
  | .error (.bad low va) => s.muDone { c with bad := some (0, low, va) } (muToken false 0 0 low)

/-! ### Events of the queue (R287, R297, R303, R304) -/

/-- A command of the sequencer. -/
def MuOp.isDss : MuOp → Bool
  | .dssbind | .dssstep | .cutImpose | .cutStore | .cutLoad => true
  | _ => false

/-- A command that an MSAVE asks to stop can stop now (R291, R303). -/
def MuCmd.mayStop (c : MuCmd) : Bool := c.stop && (!c.started || (c.bad.isNone && !c.op.isDss && c.sent.isNone))

/-- The token of a stopped command (R303): an MROT stops between rows, an MMA between K-steps. -/
def MuCmd.stopToken (c : MuCmd) : Word :=
  match c.op with
  | .mma _ _ => muToken true (if c.started then c.k else c.k0) c.r0 0xFF
  | .step => muToken false 0 0 0xFF
  | o => if o.isDss then muToken false 0 0 0xFF else muToken true c.k0 c.r0 0xFF

/-- The next command takes the unit: one that is asked to stop, then an MSAVE, then the oldest. -/
def State.nextCommand (s : State) : Option (MuCmd × State) :=
  let save : Option (MuCmd × State) := match s.mu.saves with
    | m :: ms => some (m, { s with mu := { s.mu with saves := ms } })
    | [] => none
  match s.mu.queue with
  | [] => save
  | c :: cs =>
    if !c.stop && save.isSome then save
    else some (c, { s with mu := { s.mu with queue := cs } })

/-- A load of a buffer starts the count of MROTs again (R297): buffers that the old count gave up are not of the new one, nor are those that
came for MROTs of the old count beyond its last; one whose number the old count has passed comes from a queue that has begun the new count.
Log entry 36 (DEDUCED). -/
def State.restartRots (s : State) : State :=
  if s.mu.rots = 0 then s
  else { s with mu := { s.mu with rots := 0, late := [], arrived := s.mu.arrived.filter fun x => x.m ≤ s.mu.rots } }

/-- A run begins: region, fresh rows or the clipped elements it had, what it may have to restore. Log entry 36 (DEDUCED). -/
def State.muBegin (s : State) (c : MuCmd) : State × MuCmd :=
  let s := s.muOpen c
  let s := if c.op.multiplies then (if c.fresh then s.freshRows else s.takeClips c) else s
  let s := if c.op = .mlda || c.op = .mldb then s.restartRots else s
  (s, { c with started := true, k := c.k0, snap := (s.mu.tiles, s.mu.droprow, s.mu.clips) })

/-- The token fills, ROWPROG with it, FAULTVA where the token reports a fault that has an address, and the command is over (R127, R289,
R291); what a SUSPEND's MSAVE meets is counted by the trap that reports it (R397). -/
def State.muFill (s : State) (c : MuCmd) (tok : Word) : State :=
  let s := ({ s.endCommand .mu c.id with mu := { s.mu with run := none } }).keepClips c (bit tok 63)
  if c.quiet then
    let va := match c.bad with
      | some (_, _, va) => va
      | none => 0
    { s with mu := { s.mu with susp := some (c.id, some (bits tok 15 0, va, c.met)) } }
  else
    let va := match c.op, c.bad with
      | .mrot _, _ => s.mu.faultva
      | _, some (_, _, va) => va
      | _, none => s.mu.faultva
    (({ s with mu := { s.mu with rowprog := tok, faultva := va } }).countCause (bits tok 7 0)).fillToken c.id [tok]

/-- The running matrix or sequencer command fills its token (R289). -/
def execMatrixTokenFill (s : State) : Out :=
  match s.mu.run with
  | some c => match c.done with
    | some tok => (s.muFill c tok).done
    | none => s.done
  | none => s.done

/-- A rotated buffer arrives (R297): an awaited one, one for a later MROT, or one that is discarded. Log entry 36 (DEDUCED). -/
def execMrotBufferArrival (isA : Bool) (bytes : List Byte) (tag : RotTag) (s : State) : Out :=
  if s.mu.late.contains (isA, tag.m) then ({ s with mu := { s.mu with late := s.mu.late.erase (isA, tag.m) } }).done
  else
    let s := { s with mu := { s.mu with arrived := s.mu.arrived ++ [RotBuf.mk isA bytes tag.rect tag.m] } }
    match s.mu.run with
    | some c => (if c.sent.isSome && c.done.isNone then s.rotSettle c else s).done
    | none => s.done

/-- The buffers have not arrived in time (R297): the products and the old buffers stay. Log entry 36 (DEDUCED). -/
def execRotlate (s : State) : Out :=
  match s.mu.run with
  | some c => (if c.sent.isSome && c.done.isNone then s.rotFails c 1 else s).done
  | none => s.done

end Sys2Proof.Machine
end

