-- ==== Sys2Proof/Machine/Sequencer.lean ====
section
/-! DEFINITION. The denoising step sequencer (R372 to R384): its instructions, MMA.STEP, and the grants of the arbiter to every queued
command (R304). -/
namespace Sys2Proof.Machine

/-! ### Layer slots (R372, R377) -/

def State.dss (s : State) (n : Nat) : Dss := mget {} s.mu.dss n

def State.setDss (s : State) (n : Nat) (d : Dss) : State := { s with mu := { s.mu with dss := mput {} s.mu.dss n d } }

def Dss.word (d : Dss) (k : Nat) : Word := d.desc.getD k 0
def Dss.kb (d : Dss) : Nat := bits (d.word 1) 37 32 + 1
def Dss.tiles (d : Dss) : Nat := bits (d.word 3) 11 0 + 1
def Dss.period (d : Dss) : Nat := bits (d.word 3) 47 32
def Dss.cutn (d : Dss) : Nat := bits (d.word 3) 31 16
def Dss.theta (d : Dss) : Nat := bits (d.word 4) 31 0

/-- A bit of a list set or cleared. -/
def putBit (x i : Nat) (b : Bool) : Nat := if x / 2 ^ i % 2 = 1 then (if b then x else x - 2 ^ i) else (if b then x + 2 ^ i else x)

/-- What a command of another queue does to a slot (R377, R378, R380 to R382). -/
def Dss.apply (d : Dss) : DssOp → Dss
  | .bind owner desc =>
    { d with bound := true, owner := owner, desc := desc, step := bits (desc.getD 5 0) 31 0, cut := 0, imposed := false }
  | .step => { d with step := (d.step + 1) % 2 ^ 32, cut := 0, imposed := false }
  | .cut tile skip => { d with cut := putBit d.cut tile skip }
  | .impose imp => { d with imposed := true, imp := imp % 2 ^ d.tiles }
  | .unimpose => { d with imposed := false }
  | .load n => n

/-- The slot a command names (R377, R378, R380, R381). -/
def MuCmd.slot (c : MuCmd) : Nat :=
  match c.op with
  | .dssbind => bits (c.desc.getD 3 0) 51 48
  | .step => bits (c.desc.getD 4 0) 3 0
  | _ => bits (c.desc.getD 0 0) 3 0

/-- The token of a failed slot check (R376). -/
def dssToken (detail : Nat) : Word := muToken false 0 0 (fld detail 8 + cDSS)

/-! ### Issue (R376) -/

/-- The body of a queued command that always starts from its beginning. -/
def freshBody (op : MuOp) (tile rm nud : Nat) (tok : Name) (a : Run) (n : Nat) (check : Ctx → List Word → Res Unit)
    (own : Ctx → State → Res Unit) (c : Ctx) (s : State) : Res State := do
  let (_, ws, s) ← s.muOperands c tok a n (check c) (own c s)
  s.enqueue tok fun s => s.muCmd c op tile rm nud ws

/-- DSSBIND's descriptor (R377). Log entry 33 (DEDUCED). -/
def bindCheck (c : Ctx) (ws : List Word) : Res Unit := do
  let w (k : Nat) : Word := ws.getD k 0
  resvOk (bits (w 1) 63 38 = 0 && bits (w 3) 63 52 = 0 && bits (w 3) 15 12 = 0 && bits (w 4) 63 32 = 0 && bits (w 5) 63 32 = 0) c
  let theta := bits (w 4) 31 0
  let finite := match Ty.f32.decode theta with
    | .fin _ _ _ => true
    | _ => false
  form (bits (w 3) 31 16 ≠ 0 && 0x1040 + 256 * (bits (w 1) 37 32 + 1) ≤ bits (w 1) 31 0 && theta < 2 ^ 31 && finite) c
  rowAligned .read (w 0) (bits (w 1) 31 0) 64
  aligned .write (w 2) 64

/-- The word that names a slot. Log entry 33 (DEDUCED). -/
def slotCheck (c : Ctx) (ws : List Word) : Res Unit := resvOk (bits (ws.getD 0 0) 63 4 = 0) c

/-- A slot and an address. -/
def slotAddr (k : Kind) (c : Ctx) (ws : List Word) : Res Unit := do
  slotCheck c ws
  aligned k (ws.getD 1 0) 64

/-- MMA.STEP's descriptor (R378). Log entry 33 (DEDUCED). -/
def stepCheck (c : Ctx) (s : State) (ws : List Word) : Res Unit := do
  let w := ws.getD 4 0
  resvOk (bits w 63 28 = 0 && bits w 15 4 = 0) c
  mmaCheck false c s ws

def noOwn (_ : Ctx) (_ : State) : Res Unit := .ok ()

/-- Kinds 3 and 4 of DSSCUT belong to MODE 2 (R381). -/
def cutPriv (c : Ctx) (s : State) : Res Unit := need s.sup cPRIV (privInfo 0 c.parcel)

/-- DSSBIND (R377). -/
def execDssbind (g : Guard) (x : TokPlain) (s : State) : Out :=
  run (.dssbind g x) g (freshBody .dssbind 0 0 15 x.tok x.a 6 bindCheck noOwn) s

/-- DSSSTEP (R380). -/
def execDssstep (g : Guard) (x : TokArgs) (s : State) : Out :=
  run (.dssstep g x) g (freshBody .dssstep 0 0 x.nud.val x.tok x.a 1 slotCheck noOwn) s

/-- MMA.STEP (R378). -/
def execMmaStep (g : Guard) (x : MmaStepArgs) (s : State) : Out :=
  run (.mmaStep g x) g (fun c s => freshBody .step x.tile.val x.rm.val x.nud.val x.tok x.a 5 (fun c ws => stepCheck c s ws) noOwn c s) s

/-- DSSCUT kind 1 (R381). -/
def execDsscutImpose (g : Guard) (x : TokArgs) (s : State) : Out :=
  run (.dsscutImpose g x) g (freshBody .cutImpose 0 0 x.nud.val x.tok x.a 2 (slotAddr .read) noOwn) s

/-- DSSCUT kind 3 (R381, R382). -/
def execDsscutStoreImage (g : Guard) (x : TokArgs) (s : State) : Out :=
  run (.dsscutStoreImage g x) g (freshBody .cutStore 0 0 x.nud.val x.tok x.a 2 (slotAddr .write) cutPriv) s

/-- DSSCUT kind 4 (R381, R382). -/
def execDsscutLoadImage (g : Guard) (x : TokArgs) (s : State) : Out :=
  run (.dsscutLoadImage g x) g (freshBody .cutLoad 0 0 x.nud.val x.tok x.a 2 slotCheck cutPriv) s

/-- Whether the core sees a slot as its own (R381). -/
def State.ownsSlot (s : State) (d : Dss) : Bool := d.bound && !(s.mode = 0 && d.owner ≠ s.regs.asid)

/-- The number of set bits among the first n. -/
def countBits (x n : Nat) : Nat := ((List.range n).filter fun i => x / 2 ^ i % 2 = 1).length

/-- DSSCUT kind 0 (R381). -/
def execDsscutRead (g : Guard) (x : CutRead) (s : State) : Out :=
  run (.dsscutRead g x) g (fun c s => do
    s.prepare c [runOpr x.a 1, .dst x.d] (s.noOpt c)
    let (ws, s) := s.takeRun x.a.first 1
    slotCheck c ws
    s.awaitMu
    let d := s.dss (ws.getD 0 0).toNat
    s.write x.d (if s.ownsSlot d then wd (fld d.step 32 + countBits d.cut 4096) else wd (2 ^ 64 - 1))) s

/-- DSSCUT kind 2 (R381). -/
def execDsscutUnimpose (g : Guard) (a : Run) (s : State) : Out :=
  run (.dsscutUnimpose g a) g (fun c s => do
    s.prepare c [runOpr a 1] (s.noOpt c)
    let (ws, s) := s.takeRun a.first 1
    slotCheck c ws
    s.awaitMu
    let n := (ws.getD 0 0).toNat
    let d := s.dss n
    .ok (if s.ownsSlot d then s.setDss n (d.apply .unimpose) else s)) s

/-! ### The commands run (R377, R380 to R382) -/

/-- The slot check of a command that needs a bound slot of its task (R376). -/
def MuCmd.slotFault (c : MuCmd) (d : Dss) : Option Nat :=
  if !d.bound then some 1 else if c.mode = 0 && c.asid ≠ d.owner then some 2 else none

/-- A command of one access that failed: its fault, with nothing else changed. -/
def State.dssBad (s : State) (c : MuCmd) : MuStop → State
  | .absent q => (s.beginPull q c.lnid.toNat).setRun c
  | .bad low va => s.muDone { c with bad := some (0, low, va) } (muToken false 0 0 low)

/-- DSSBIND runs (R377). -/
def State.runBind (s : State) (c : MuCmd) : State :=
  let n := c.slot
  let d := s.dss n
  if d.bound && d.owner ≠ c.asid && c.mode ≠ 2 then s.muDone c (dssToken 2)
  else
    (s.setDss n (d.apply (.bind c.asid c.desc))).muDone c (doneToken 0)

/-- DSSSTEP runs (R380). -/
def State.runStep (s : State) (c : MuCmd) : State :=
  let n := c.slot
  let d := s.dss n
  match c.slotFault d with
  | some e => s.muDone c (dssToken e)
  | none =>
    let size := (d.tiles + 511) / 512 * 64
    match s.muWrite c (d.word 2 + wd (d.step % d.cutn * size)) (toBytes (d.cut % 2 ^ d.tiles) size) with
    | .ok t => (t.setDss n (d.apply .step)).muDone c (doneToken 0)
    | .error e => s.dssBad c e

/-- DSSCUT kind 1 runs (R381). -/
def State.runImpose (s : State) (c : MuCmd) : State :=
  let n := c.slot
  let d := s.dss n
  match c.slotFault d with
  | some e => s.muDone c (dssToken e)
  | none => match s.muRead c 0 (c.desc.getD 1 0) ((d.tiles + 7) / 8) with
    | .ok (bs, t) => (t.setDss n (d.apply (.impose (ofBytes bs)))).muDone c (doneToken 0)
    | .error e => s.dssBad c e

/-- The image of slot n (R382). -/
def Dss.image (d : Dss) (n : Nat) : List Byte :=
  [d.word 0, d.word 1, d.word 2, setBits (d.word 3) 51 48 n, d.word 4, wd d.step,
    wd (fld d.bound.toNat 63 + fld d.imposed.toNat 32 + d.owner), 0].flatMap wordBytes ++ toBytes d.cut 512 ++ toBytes d.imp 512

/-- A slot from its image. -/
def dssOf (bs : List Byte) : Dss :=
  let w (k : Nat) : Word := wordOf ((bs.drop (8 * k)).take 8)
  let d : Dss := { bound := bit (w 6) 63, owner := bits (w 6) 15 0, desc := (List.range 6).map w, step := bits (w 5) 31 0
                   imposed := bit (w 6) 32 }
  { d with cut := ofBytes ((bs.drop 64).take 512) % 2 ^ d.tiles, imp := ofBytes ((bs.drop 576).take 512) % 2 ^ d.tiles }

/-- DSSCUT kind 3 runs (R381, R382). -/
def State.runStore (s : State) (c : MuCmd) : State :=
  match s.muWrite c (c.desc.getD 1 0) ((s.dss c.slot).image c.slot) with
  | .ok t => t.muDone c (doneToken 0)
  | .error e => s.dssBad c e

/-- DSSCUT kind 4 runs (R381, R382). -/
def State.runLoad (s : State) (c : MuCmd) : State :=
  match s.muRead c 0 (c.desc.getD 1 0) 1088 with
  | .ok (bs, t) => (t.setDss c.slot (dssOf bs)).muDone c (doneToken 0)
  | .error e => s.dssBad c e

/-! ### MMA.STEP runs (R378, R379) -/

/-- TILE of an MMA.STEP, and its record. -/
def MuCmd.tileNo (c : MuCmd) : Nat := bits (c.desc.getD 4 0) 27 16
def MuCmd.record (c : MuCmd) (d : Dss) : Word := d.word 0 + wd (c.tileNo * bits (d.word 1) 31 0)

/-- The slate of row i from K-step k on. -/
def State.slateRow (s : State) (c : MuCmd) (p : KRun) (i k : Nat) : Nat → Except MuStop (List Word × State)
  | 0 => .ok ([], s)
  | n + 1 => do
    let (bs, va, s) ← s.block c p 0 i k
    let b ← codeOk 0 va bs
    scaleOk 0 va b (p.keeps k 0)
    let live := if k + 1 = p.ctl.kcount && p.ctl.klim ≠ 0 then min p.ctl.klim b.t.blkLen else b.t.blkLen
    let (ws, s) ← s.slateRow c p i (k + 1) n
    .ok (slatePair b live :: ws, s)

/-- The slate of rows from i on: zero pairs for rows that are not active; a fault keeps its row. -/
def State.slateRows (s : State) (c : MuCmd) (p : KRun) (kb i : Nat) : Nat → Except Nat (Except (Nat × Nat × Nat) (List Word × State))
  | 0 => .ok (.ok ([], s))
  | n + 1 =>
    let row := if (c.rows p).contains i then s.slateRow c p i 0 kb else .ok (List.replicate kb 0, s)
    match row with
    | .error (.absent q) => .error q
    | .error (.bad low va) => .ok (.error (i, low, va))
    | .ok (ws, s) =>
      match s.slateRows c p kb (i + 1) n with
      | .ok (.ok (l, s)) => .ok (.ok (ws ++ l, s))
      | r => r

/-- The reference slate of the active rows, beside the new one. -/
def State.slatePairs (s : State) (c : MuCmd) (rec : Word) (kb : Nat) (slate : List Word) :
    List Nat → Except MuStop (List (Word × Word) × State)
  | [] => .ok ([], s)
  | i :: is => do
    let (bs, s) ← s.muRead c 0 (rec + wd (0x1040 + 8 * i * kb)) (8 * kb)
    let mine := (List.range kb).map fun k => (slate.getD (i * kb + k) 0, wordOf ((bs.drop (8 * k)).take 8))
    let (l, s) ← s.slatePairs c rec kb slate is
    .ok (mine ++ l, s)

/-- What the slate phase decides. -/
inductive Decision where
  | skip (tile : List Nat)
  | compute
  | noReel
  deriving DecidableEq, Repr

/-- The header, the reference, and the decision (R375, R378). -/
def State.stepDecide (s : State) (c : MuCmd) (d : Dss) (slate : List Word) : Except MuStop (Decision × State) := do
  let p := c.kRun
  let rec_ := c.record d
  let (hb, s) ← s.muRead c 0 (rec_ + 0x1000) 8
  let h := wordOf hb
  let (pairs, s) ← s.slatePairs c rec_ d.kb slate (c.rows p)
  let expired := d.period ≠ 0 && decide (d.period ≤ (d.step + 2 ^ 32 - bits h 31 0) % 2 ^ 32)
  let near := bit h 63 && !(c.rows p).isEmpty && !expired && slateNear d.theta pairs
  let skip := if d.imposed then d.imp / 2 ^ c.tileNo % 2 = 1 else near
  if !skip then .ok (.compute, s)
  else if !bit h 63 then .ok (.noReel, s)
  else do
    let (bs, s) ← s.muRead c 0 rec_ 4096
    .ok (.skip (words32 1024 bs), s)

/-- CUT[TILE] (R378). -/
def State.setCut (s : State) (c : MuCmd) (b : Bool) : State :=
  let d := s.dss c.slot
  s.setDss c.slot (d.apply (.cut c.tileNo b))

/-- The slate phase of an MMA.STEP (R378). -/
def State.stepSlate (s : State) (c : MuCmd) : State :=
  let d := s.dss c.slot
  let p := c.kRun
  let fault := match c.slotFault d with
    | some e => some e
    | none => if d.tiles ≤ c.tileNo then some 3 else if p.ctl.kcount ≠ d.kb then some 5 else none
  match fault with
  | some e => s.muDone c (dssToken e)
  | none =>
    match s.slateRows c p d.kb 0 32 with
    | .error q => (s.beginPull q c.lnid.toNat).setRun c
    | .ok (.error (row, low, va)) => s.muDone { c with bad := some (row, low, va) } (muToken false 0 row low)
    | .ok (.ok (slate, t)) =>
      match t.stepDecide c d slate with
      | .error e => s.dssBad c e
      | .ok (.noReel, _) => s.muDone c (dssToken 4)
      | .ok (.skip els, t) => ((t.setTile c.tile 0 els).setCut c true).muDone c (doneToken d.kb)
      | .ok (.compute, t) =>
        ((t.setTile c.tile 0 (List.replicate 1024 0)).freshRows).setRun { c with computing := true, slate := slate }

/-- The commit (R379): every byte checked before any is written. -/
def State.stepCommit (s : State) (c : MuCmd) : State :=
  let d := s.dss c.slot
  let header := wd (fld 1 63 + d.step % 2 ^ 32)
  let bytes := (s.tile c.tile).flatMap (fun x => toBytes x 4) ++ wordBytes header ++ List.replicate 0x38 0 ++ c.slate.flatMap wordBytes
  match s.muWrite c (c.record d) bytes with
  | .ok t => ((t.foldDrops.mmaCensus c .f).setCut c false).muDone c (doneToken d.kb)
  | .error e => s.dssBad c e

/-- A grant to an MMA.STEP: its slate phase, one K-step, or the commit, before which a stop is tested (R294, R379). -/
def State.grantStep (s : State) (c : MuCmd) : State :=
  let p := c.kRun
  if !c.computing then s.stepSlate c
  else if c.over p then (match c.bad with
    | some (row, low, _) => s.muDone c (muToken false 0 row low)
    | none => s.stepCommit c)
  else match s.kStep c p with
    | .error page => (s.beginPull page c.lnid.toNat).setRun c
    | .ok (t, c) => t.setRun c

/-! ### The arbiter's grants (R304) -/

/-- The running command proceeds under a grant, by one K-step or row or as a whole. Log entry 49 (DESIGN CHOICE). -/
def State.muGrant (s : State) (c : MuCmd) : State :=
  match c.op with
  | .mma acc _ => s.grantMma c fun s c => (s.foldDrops.mmaCensus c acc).muDone c (doneToken c.kRun.ctl.kcount)
  | .mrot _ => s.grantRot c
  | .step => s.grantStep c
  | .mlda => s.grantRows c fun i s => s.bufRow c true i
  | .mldb => s.grantRows c fun i s => s.bufRow c false i
  | .mld => s.grantRows c fun i s => s.tileRow c false i
  | .mldt => s.grantRows c fun i s => s.tileRow c true i
  | .mst t => s.grantRows c (fun i s => s.outRow c t i) fun s => s.mstCensus c t
  | .msave => s.grantSave c
  | .msaveRst => s.grantRestore c
  | .dssbind => s.runBind c
  | .dssstep => s.runStep c
  | .cutImpose => s.runImpose c
  | .cutStore => s.runStore c
  | .cutLoad => s.runLoad c

/-- A command that R304 lists works under a grant, which is counted once, whatever it waits for: every 16 K-steps, or with the command. What
R304 does not list is not counted: MSAVE, which enters no queue, MSAVE.rst, and the commands of a layer slot but for MMA.STEP.
Log entry 49 (DESIGN CHOICE). -/
def State.noteGrant (s : State) (c : MuCmd) : State × MuCmd :=
  let steps := match c.op with
    | .mma _ _ | .step => true
    | _ => false
  if c.op.isSave || c.op.isDss then (s, c)
  else if c.granted = 0 then (s.count 6 1, { c with granted := if steps then 16 else 1 })
  else if steps && c.granted ≤ c.k - c.k0 && !c.over c.kRun then (s.count 6 1, { c with granted := c.granted + 16 })
  else (s, c)

/-- A command of a layer slot. -/
def MuOp.usesSlot (o : MuOp) : Bool := o.isDss || o = .step

/-- The command of this queue that is running at a slot, which commands of other queues wait for (R377, R380, R383). -/
def State.slotBusy (s : State) (slot : Nat) : Bool := s.mu.run.any fun c => c.started && c.op.usesSlot && c.slot = slot

/-- A command of a slot waits before it starts while another queue's runs there (R383). -/
def State.slotTaken (s : State) (c : MuCmd) : Bool := !c.started && c.op.usesSlot && s.mu.peerDss.contains c.slot

/-- A command stops, waits, or begins and proceeds; its grants are counted (R420). -/
def State.grantTo (s : State) (c : MuCmd) : State :=
  if c.done.isSome then s
  else if c.mayStop then s.muDone c c.stopToken
  else if c.sent.isSome || s.slotTaken c then s.setRun c
  else
    let (s, c) := if c.started then (s, c) else s.muBegin c
    let (s, c) := s.noteGrant c
    s.muGrant c

/-- A grant for this core's queue: the arbiter of the cluster gives it in some round (R304). Log entry 49 (DESIGN CHOICE). -/
def State.grant (s : State) : State :=
  match s.mu.run with
  | some c => s.grantTo c
  | none => match s.nextCommand with
    | some (c, t) => t.grantTo c
    | none => s

/-- The matrix arbiter gives this core's queue one grant (R304). Log entry 49 (DESIGN CHOICE). -/
def execMatrixGrant (s : State) : Out := s.grant.done

end Sys2Proof.Machine
end

