-- ==== Sys2Proof/Machine/System.lean ====
section
/-! DEFINITION. Major 0x3D (R329 to R334): TRAP, RETT, the system registers (R330, R331), TLBI, IDLE, HALT, CENSUS, SUSPEND (R395), and the
writes of PLSYNC (R47) and LSFA (R52). -/
namespace Sys2Proof.Machine

/-! ### TRAP and RETT -/

/-- TRAP: SYSCALL, with the next instruction as the resume point (R329). -/
def execTrap (g : Guard) (v : BitVec 13) (s : State) : Out :=
  runEnd (.trap g v) g free (fun c s => do
    s.noOpt c
    .ok (.left (s.takeTrap cSYSCALL (wd v.toNat) s.pc))) s

/-- RETT (R153): back to TSAVE in TCAUSE.PMODE, after the checks of R143 where that is user mode. Log entry 23 (DEDUCED). -/
def execRett (g : Guard) (s : State) : Out :=
  runEnd (.rett g) g supOnly (fun c s => do
    let d := s.regs.tsave
    let m := bits s.regs.tcause 57 56
    if m < 2 then s.checkDesc d true else .ok ()
    s.queuesHeld c d
    .ok (.completed (s.returnTo d m (if m = 2 then s.regs.scbase else s.regs.cbase)))) s

/-! ### System registers (R330, R331) -/

/-- Registers that user code may not read. -/
def supReads : List Nat := [0x05, 0x0A, 0x0B, 0x0C, 0x23, 0x24, 0x28, 0x29, 0x32, 0x38, 0x39, 0x3A, 0x58]

/-- Registers that nobody reads: PLSYNC and SUSPEND. -/
def noReads : List Nat := [0x3B, 0x59]

/-- Registers that user code may write, in part or whole. -/
def userWrites : List Nat := [0x0D, 0x10, 0x1B, 0x1D, 0x1E]

/-- Whether a number names a register. -/
def regKnown (r : Nat) : Bool :=
  r ≤ 0x05 || (0x08 ≤ r && r ≤ 0x14) || (0x18 ≤ r && r ≤ 0x1E) || (0x20 ≤ r && r ≤ 0x2B) || (0x30 ≤ r && r ≤ 0x32)
    || (0x38 ≤ r && r ≤ 0x3B) || (0x40 ≤ r && r ≤ 0x52) || r = 0x58 || r = 0x59 || (0x60 ≤ r && r ≤ 0x64)

/-- QCOUNT (R93). -/
def State.qcount (s : State) : Word :=
  wd ((s.queue 0).length + fld (s.queue 1).length 5 + fld (s.queue 2).length 10 + fld (s.queue 3).length 15)

/-- A performance counter (R420): UNAVAIL where its code is not counted. Log entry 48 (DEDUCED). -/
def State.readPmc (s : State) (k : Nat) : Word :=
  wd (zext (mget 0 s.regs.pmc k) 63 + fld (7 < bits s.regs.pmsel (8 * k + 7) (8 * k) : Bool).toNat 63)

/-- A system register as MFS reads it. -/
def State.sysReg (s : State) (r : Nat) : Word :=
  let g := s.regs
  match r with
  | 0x00 => wd g.wb | 0x01 => wd g.wl | 0x02 => g.cbase | 0x03 => g.wflo | 0x04 => g.wfhi | 0x05 => g.scbase
  | 0x08 => g.twin | 0x09 => g.utwin | 0x0A => g.tsave | 0x0B => g.tcause | 0x0C => g.tinfo
  | 0x0D => g.utsave | 0x0E => g.utcause | 0x0F => g.utinfo | 0x10 => g.tdeleg | 0x11 => s.qcount
  | 0x12 => g.frmode | 0x13 => g.frlo | 0x14 => g.frhi
  | 0x18 => wd s.cyc | 0x19 => wd g.tclk | 0x1A => wd g.tbudget | 0x1B => g.taskstat | 0x1C => g.lnid
  | 0x1D => g.fpctl | 0x1E => g.seed
  | 0x20 => wd g.asid | 0x21 => wd g.partid | 0x22 => wd g.devnum | 0x23 => g.asidtab | 0x24 => g.sroot | 0x25 => wd g.unkdist
  | 0x26 => g.lsfa | 0x27 => g.pka | 0x28 => g.lsown | 0x29 => g.ovfr | 0x2A => g.wlctl | 0x2B => g.mqweight
  | 0x30 => g.impbnd | 0x31 => g.hostbnd | 0x32 => g.mmxwho
  | 0x38 => g.cpquota | 0x39 => s.mem.waysNew | 0x3A => s.cpstat
  | 0x50 => g.vt | 0x51 => s.gvtKey.t | 0x52 => g.optwin | 0x58 => g.dbgctl
  | 0x60 => s.readPmc 0 | 0x61 => s.readPmc 1 | 0x62 => s.readPmc 2 | 0x63 => s.readPmc 3 | 0x64 => g.pmsel
  | _ => if r < 0x48 then mget 0 g.pwb (r - 0x40) else mget 0 g.pwl (r - 0x48)

/-- The delegable bits of a half of TDELEG (R150): WINDOW, EMPTY, ALIGN, PROMISE, BUDGET. -/
def delegable : Nat := 0x3068

/-- FPCTL written (R189): modes 6 and 7 leave RM unchanged. -/
def fpctlOf (old v : Word) : Word :=
  let rm := if 5 < bits v 18 16 then bits old 18 16 else bits v 18 16
  (v &&& 0x3F3F) ||| wd (fld rm 16)

/-- PARAMOOB clears where a 1 is written (R42). -/
def clearOob (old v : Word) : Word := if bit v 8 then setBits old 8 8 0 else old

/-- A user write of a register it may write. -/
def State.userMts (s : State) (r : Nat) (v : Word) : State :=
  let g := s.regs
  match r with
  | 0x0D => { s with regs := { g with utsave := v } }
  | 0x10 => { s with regs := { g with tdeleg := setBits g.tdeleg 31 0 (bits v 31 0 &&& delegable) } }
  | 0x1B => { s with regs := { g with taskstat := clearOob g.taskstat v } }
  | 0x1D => { s with regs := { g with fpctl := fpctlOf g.fpctl v } }
  | _ => { s with regs := { g with seed := v } }

/-- An area of the local store fits, and keeps clear of another (R52, R163). -/
def areaOk (v other : Word) : Bool :=
  let a := areaOf v
  let b := areaOf other
  a.2 ≤ 4096 * 128 && (a.1 = a.2 || b.1 = b.2 || a.2 ≤ b.1 || b.2 ≤ a.1)

/-- The fields of LSFA and PKA. -/
def lsArea (v : Word) : Word := keep v [(23, 16), (7, 0)]

/-- A supervisor write of WB or WL (R139): check 1 of R143 holds for the pair. -/
def State.setBaseLimit (s : State) (b l bad : Nat) : Res State :=
  if windowOk b l then .ok (s.setWindow b l) else .error (.trap cWINDOW (winInfo 2 bad 0))

/-- A supervisor write. Registers that are read-only in every mode keep their value, and so do the reserved bits of a register that is
written: those of SROOT read 0 whatever is written, so that BADPTE of R24 never comes from them (R10, R23, R330). Log entry 24 (DEDUCED). -/
def State.supMts (s : State) (r : Nat) (v : Word) : State :=
  let g := s.regs
  let put (g : Regs) : State := { s with regs := g }
  match r with
  | 0x02 => put { g with cbase := keep v [(63, 16)] }
  | 0x03 => put { g with wflo := keep v [(12, 0)] }
  | 0x04 => put { g with wfhi := keep v [(12, 0)] }
  | 0x05 => put { g with scbase := keep v [(63, 16)] }
  | 0x08 => put { g with twin := v }
  | 0x09 => put { g with utwin := v }
  | 0x0A => put { g with tsave := v }
  | 0x0B => put { g with tcause := v }
  | 0x0C => put { g with tinfo := v }
  | 0x0D => put { g with utsave := v }
  | 0x0E => put { g with utcause := v }
  | 0x0F => put { g with utinfo := v }
  | 0x10 => put { g with tdeleg := v &&& wd (fld delegable 32 + delegable) }
  | 0x12 => put { g with frmode := keep v [(63, 63)] }
  | 0x13 => put { g with frlo := v }
  | 0x14 => put { g with frhi := v }
  | 0x1A => put { g with tbudget := bits v 31 0 }
  | 0x1B => put { g with taskstat := setBits (clearOob g.taskstat v) 14 14 (bits v 14 14) }
  | 0x1D => put { g with fpctl := fpctlOf g.fpctl v }
  | 0x1E => put { g with seed := v }
  | 0x20 => put { g with asid := bits v 15 0 }
  | 0x23 => put { g with asidtab := keep v [(55, 19)] }
  | 0x24 => put { g with sroot := keep v [(55, 17), (0, 0)] }
  | 0x25 => put { g with unkdist := max 5 (min 18 (bits v 4 0)) }
  | 0x27 => if areaOk v g.lsfa then put { g with pka := lsArea v } else s
  | 0x28 => put { g with lsown := keep v [(16, 0)] }
  | 0x29 => put { g with ovfr := keep v areaMask }
  | 0x2A => put { g with wlctl := keep v [(15, 0)] }
  | 0x2B => put { g with mqweight := keep v [(3, 0)] }
  | 0x30 => put { g with impbnd := v }
  | 0x31 => put { g with hostbnd := keep v [(31, 0)] }
  | 0x38 => let v := keep v [(44, 0)]; { s with regs := { g with cpquota := v }, mem := { s.mem with policeAt := s.intervalUnder v } }
  | 0x39 => { s with mem := { s.mem with waysNew := keep v [(63, 63), (47, 0)] } }
  | 0x52 => put { g with optwin := v }
  | 0x58 => put { g with dbgctl := keep v [(0, 0)] }
  | 0x64 => put { g with pmsel := keep v [(31, 0)] }
  | _ =>
    if 0x40 ≤ r && r < 0x48 then put { g with pwb := mput 0 g.pwb (r - 0x40) v }
    else if 0x48 ≤ r && r < 0x50 then put { g with pwl := mput 0 g.pwl (r - 0x48) (keep v [(63, 63), (39, 0)]) }
    else if 0x60 ≤ r && r < 0x64 then put { g with pmc := mput 0 g.pmc (r - 0x60) (keep v [(62, 0)]) }
    else s

/-- MTS in the mode of the core. -/
def State.mts (s : State) (r : Nat) (v : Word) : Res State :=
  if !s.sup then .ok (s.userMts r v)
  else match r with
    | 0x00 => s.setBaseLimit (bits v 12 0) s.regs.wl (bits v 12 0)
    | 0x01 => s.setBaseLimit s.regs.wb (bits v 10 0) s.regs.wb
    | _ => .ok (s.supMts r v)

/-- The privilege of a register access (R330). -/
def regPriv (b : Bool) (r : Nat) (c : Ctx) : Res Unit := need b cPRIV (privInfo r c.parcel)

/-- MFS (R330). -/
def execMfs (g : Guard) (x : MfsArgs) (s : State) : Out :=
  let r := x.reg.toNat
  run (.mfs g x) g (fun c s => do
    s.prepare c [.dst x.d] (do
      form (regKnown r) c
      regPriv (!noReads.contains r && (s.sup || !supReads.contains r)) r c)
    s.write x.d (s.sysReg r)) s

/-- What an MTS checks at step 15: FORM, what an optimistic handler may write (R356), the privilege (R330). -/
def State.mtsChecks (s : State) (r : Nat) (c : Ctx) : Res Unit := do
  form (regKnown r) c
  if r = 0x1D || r = 0x1E then .ok () else s.noOpt c
  regPriv (s.sup || userWrites.contains r) r c

/-- MTS (R330). -/
def execMts (g : Guard) (x : MtsArgs) (s : State) : Out :=
  run (.mts g x) g (fun c s => do
    s.prepare c [.src x.a false] (s.mtsChecks x.reg.toNat c)
    let (v, s) := s.take x.a
    s.mts x.reg.toNat v) s

/-- MTS to LSFA (R52): it waits while a pinned footprint lies outside the new area. -/
def execLsfa (g : Guard) (a : Name) (s : State) : Out :=
  run (.lsfa g a) g (fun c s => do
    s.prepare c [.src a false] (s.mtsChecks 0x26 c)
    let (v, s) := s.take a
    let (lo, hi) := areaOf v
    if !areaOk v s.regs.pka then .ok s
    else if s.sched.pins.any fun p => p.off < lo || hi < p.off + p.len then .error (.wait .room)
    else .ok { s with regs := { s.regs with lsfa := lsArea v } }) s

/-- MTS to PLSYNC (R47). Log entry 26 (DESIGN CHOICE). Log entry 54 (DEDUCED). -/
def execPlsync (g : Guard) (a : Name) (s : State) : Out :=
  run (.plsync g a) g (fun c s => do
    s.prepare c [.src a false] (s.mtsChecks 0x3B c)
    let (v, s) := s.take a
    if !bit v 0 then .ok s
    else if s.placeQuiet then .ok s.placeSync
    else .error (.wait .room)) s

/-! ### TLBI (R332) -/

/-- The entries a control word keeps. -/
def tlbKeeps (va ctl : Word) (part : Nat) (e : TlbEntry) : Bool :=
  let asid := bits ctl 31 16
  e.part ≠ part || (match bits ctl 1 0 with
    | 0 => !(e.va ≤ va.toNat && va.toNat < e.va + e.size && (e.global || e.asid = asid))
    | 1 => e.global || e.asid ≠ asid
    | _ => false)

/-- The walk-cache entries a control word keeps: one on the path of the address goes whatever its ASID, since a global leaf may lie below it. -/
def walkKeeps (va ctl : Word) (part : Nat) (e : WalkEntry) : Bool :=
  e.part ≠ part || (match bits ctl 1 0 with
    | 0 => !(e.va ≤ va.toNat && va.toNat < e.va + e.size)
    | 1 => e.asid ≠ bits ctl 31 16
    | _ => false)

/-- TLBI, once its control word has passed: every TLB and walk cache of the device lets go of what the word names. -/
def State.dropHeld (s : State) (va ctl : Word) : State :=
  let tlb (l : List TlbEntry) : List TlbEntry := l.filter (tlbKeeps va ctl s.regs.partid)
  { s with
    core := { s.core with tlb := tlb s.core.tlb, muTlb := tlb s.core.muTlb }
    mem := { s.mem with
      clusterTlb := mmap [] tlb s.mem.clusterTlb
      walkCache := mmap [] (List.filter (walkKeeps va ctl s.regs.partid)) s.mem.walkCache } }

/-- The body of TLBI, whatever KIND its control word holds. Log entry 68 (DESIGN CHOICE). -/
def tlbiBody (x : TwoSrc) (c : Ctx) (s : State) : Res Ended := do
  s.prepare c [srcOpr x.a, srcOpr x.b]
  let (va, s) := s.take x.a.name
  let (ctl, s) := s.take x.b.name
  form (bits ctl 63 32 = 0 && bits ctl 15 2 = 0 && bits ctl 1 0 ≠ 3) c
  .ok (.completed (s.dropHeld va ctl))

/-- TLBI, KIND 0. -/
def execTlbiPage (g : Guard) (x : TwoSrc) (s : State) : Out := runEnd (.tlbiPage g x) g supOnly (tlbiBody x) s

/-- TLBI, KIND 1. -/
def execTlbiAsid (g : Guard) (x : TwoSrc) (s : State) : Out := runEnd (.tlbiAsid g x) g supOnly (tlbiBody x) s

/-- TLBI, KIND 2. -/
def execTlbiPartition (g : Guard) (x : TwoSrc) (s : State) : Out := runEnd (.tlbiPartition g x) g supOnly (tlbiBody x) s

/-! ### IDLE and HALT (R333) -/

/-- IDLE: issue stops until the core has work of its own; it then continues at the next instruction. -/
def execIdle (g : Guard) (s : State) : Out :=
  runEnd (.idle g) g supOnly (fun c s => do
    s.prepare c []
    .ok (.completed { s with core := { s.core with idle := true } })) s

/-- HALT: the partition freezes, after this instruction. -/
def execHalt (g : Guard) (s : State) : Out :=
  runEnd (.halt g) g supOnly (fun c s => do
    s.prepare c []
    .ok (.completed s.haltPartition)) s

/-! ### CENSUS (R334, R418) -/

/-- Words of a site's entry, and of an unused one. -/
def Site.words (x : Site) : List Word :=
  [wd x.addr, wd (fld x.inf 32 + x.nan), wd (fld x.uf 32 + x.sat), 0]

/-- The census as its area shows it. -/
def State.censusImage (s : State) : List Byte :=
  (s.sched.census.take 4096).flatMap (fun x => x.words.flatMap wordBytes) ++ List.replicate (32 * (4096 - s.sched.census.length)) 0

/-- The sites of an area. -/
def sitesOf : Nat → List Byte → List Site
  | 0, _ => []
  | n + 1, bs =>
    let w (k : Nat) : Word := wordOf ((bs.drop (8 * k)).take 8)
    let rest := sitesOf n (bs.drop 32)
    if w 0 = 0 then rest
    else { addr := bits (w 0) 55 0, inf := bits (w 1) 63 32, nan := bits (w 1) 31 0, uf := bits (w 2) 63 32, sat := bits (w 2) 31 0 } :: rest

/-- The lowest site that differs between two censuses. -/
def lowestDiff (a b : List Site) : Option Nat :=
  (((a.filter fun x => !b.contains x) ++ (b.filter fun x => !a.contains x)).map (·.addr)).min?

/-- Pieces of 64 bytes that an area is reached in. -/
def censusChunks : List Nat := (List.range 2048).map (64 * ·)

/-- Every piece can be reached: the checks come before any byte is performed (R241). -/
def State.censusCheck (s : State) (k : Kind) (va : Word) : List Nat → Res Unit
  | [] => .ok ()
  | o :: os => match s.openAccess (s.who true) k (va + wd o) 64 false with
    | .error e => .error e
    | .ok _ => s.censusCheck k va os

/-- The area written. -/
def State.censusWrite (s : State) (va : Word) (bs : List Byte) : List Nat → Res State
  | [] => .ok s
  | o :: os => do
    let (ps, s) ← s.plainAccess (s.who true) .write (va + wd o) 64
    (s.writePieces ps ((bs.drop o).take 64) 15).censusWrite va bs os

/-- The area read: a lost byte is reported as a load reports it. -/
def State.censusRead (s : State) (va : Word) : List Nat → Res (List Byte × State)
  | [] => .ok ([], s)
  | o :: os => do
    let (ps, s) ← s.plainAccess (s.who true) .read (va + wd o) 64
    let (bs, l, s) := s.readPieces 15 .l1 false ps
    match l with
    | some j => .error (.trap cMEMLOST (lostInfo .read (va + wd o) j))
    | none => do
      let (cs, s) ← s.censusRead va os
      .ok (bs ++ cs, s)

/-- The operands of CENSUS: word(A), aligned for its access, which a device page is out of reach of (R19). -/
def State.censusArea (s : State) (x : CensusArgs) (k : Kind) (c : Ctx) : Res (Word × State) := do
  s.prepare c [.src x.a false, .dst x.d] (s.noOpt c)
  let (va, s) := s.take x.a
  aligned k va 64
  .ok (va, s)

/-- CENSUS kind 0. -/
def execCensusStore (g : Guard) (x : CensusArgs) (s : State) : Out :=
  run (.censusStore g x) g (fun c s => do
    let (va, s) ← s.censusArea x .write c
    s.censusCheck .write va censusChunks
    let n := s.sched.census.length
    let s ← s.write x.d (wd n)
    s.censusWrite va s.censusImage censusChunks) s

/-- CENSUS kind 1: the site found is recorded in CENSDIFF unless one stands there (R418). -/
def execCensusCompare (g : Guard) (x : CensusArgs) (s : State) : Out :=
  run (.censusCompare g x) g (fun c s => do
    let (va, s) ← s.censusArea x .read c
    s.censusCheck .read va censusChunks
    let (bs, s) ← s.censusRead va censusChunks
    match lowestDiff s.sched.census (sitesOf 4096 bs) with
    | none => s.write x.d (wd (2 ^ 64 - 1))
    | some a =>
      let s := if bit s.sched.censdiff 63 then s else { s with sched := { s.sched with censdiff := wd (fld 1 63 + a) } }
      s.write x.d (wd a)) s

/-- CENSUS kind 2. -/
def execCensusClear (g : Guard) (x : CensusArgs) (s : State) : Out :=
  run (.censusClear g x) g (fun c s => do
    let (_, s) ← s.censusArea x .read c
    { s with sched := { s.sched with census := [], censovf := 0 } }.write x.d 0) s

/-! ### SUSPEND (R395) -/

/-- The MSAVE of a SUSPEND: asked for, awaited, done with its number, or failed with a trap of its cause, which reports a write (R32) and, where
it is MMX, the party met (R80). Its issue is a release of the cluster's width (R288), which the wait for it performs.
Log entry 32 (DEDUCED). Log entry 37 (DEDUCED). -/
def State.suspendSave (s : State) (c : Ctx) (t : Task) (v : Word) (n : Nat) : Res (Nat × State) := do
  let under := match s.core.wait, s.mu.susp with
    | some w, some (id, r) => if w.on = .save id then some (id, r) else none
    | _, _ => none
  match under with
  | none =>
    let _ ← s.needPark n
    let m := { s.muCmd c .msave 0 0 15 [keep v [(63, 16)]] with asid := t.launch.asid.toNat % 65536, quiet := true }
    let s := { s with core := { s.core with nextBind := s.core.nextBind + 1 } }.askStop
    .error (.waitIn { s with mu := { s.mu with saves := s.mu.saves ++ [m], susp := some (m.id, none) } } (.save m.id))
  | some (id, none) => .error (.wait (.save id))
  | some (id, some (low, va, who)) =>
    if low % 256 = 0 then .ok (id, s)
    else
      let cause := low % 256
      let level := if cause = cPAGE || cause = cPROT then low / 2 ^ 14 % 4 else 3
      .error (.trapIn ({ s with mu := { s.mu with susp := none } }.noteMmx cause who) cause (memInfo 1 level (low / 2 ^ 8 % 16) (wd va)))

/-- A wait that comes after the MSAVE of a SUSPEND keeps the MSAVE's number, so that the SUSPEND goes on from it (R395). -/
def afterSave {α : Type} (id : Option Nat) : Res α → Res α
  | .error (.wait on) => .error (.wait ((id.map WaitOn.save).getD on))
  | .error (.waitIn s on) => .error (.waitIn s ((id.map WaitOn.save).getD on))
  | r => r

/-- MTS to SUSPEND: its wait for room comes before all it saves (R163). In forerunner mode, of which R167 and R395 say nothing here, the task is
saved all the same and goes to the resume queue, its window to the pool of class 0; neither is served again until EN is 0.
Log entry 64 (DESIGN CHOICE). Log entry 32 (DEDUCED). Log entry 37 (DEDUCED). -/
def execSuspend (g : Guard) (a : Name) (s : State) : Out :=
  runEnd (.suspend g a) g free (fun c s => do
    s.prepare c [.src a false] (s.mtsChecks 0x59 c)
    let (v, s) := s.take a
    let d := s.regs.tsave
    let n := bits v 10 0
    match s.sched.task with
    | none => ill .form c
    | some t => do
      form (bits s.regs.tcause 57 56 = 0 && bit d 24) c
      if bit d 25 then ill .qlive c else .ok ()
      form (bits v 14 11 = 0 && n ≤ descLimit d && n ≤ classSize t.cls) c
      s.poolRoom t
      let (saved, s) ← if bit v 15 then (s.suspendSave c t v n).map fun r => (some r.1, r.2) else .ok (none, s)
      afterSave saved (s.unboundAll (((List.range (descLimit d)).map (descBase d + ·)) ++ (List.range t.size).map (t.base + ·)))
      let inRing ← afterSave saved (s.needPark n)
      do
        let s ← s.release 0
        let p := s.saveTask t (descBase d) n (mkDesc 0 0 (descRpc d) false false false) .suspend (wd (fld 1 32)) inRing
        let p := { p with
          remain := t.budget
          stat := setBits p.stat 14 12 0
          area := if bit v 15 then some (keep v [(63, 16)]) else none }
        let s := { s with mu := { s.mu with susp := none } }
        .ok (.left (s.parkTask t p))) s

end Sys2Proof.Machine
end

