-- ==== Sys2Proof/Machine/SchedEvents.lean ====
section
/-! DEFINITION. The events of the core, its caches and the scheduler: walks, landings, sweeps, budget, ring locks, machine reports and failed
fetches (R27, R61, R66, R85, R145, R162, R166, R206 to R208, R398); delivery, dispatch, footprints and steals (R158 to R161, R321, R347,
R348); the launch queue engine (R338 to R341); optimistic messages and GVT (R364 to R366). -/
namespace Sys2Proof.Machine

/-! ### Walks, landings, sweeps -/

/-- The kind of access an event names: 0 read, 1 write, 2 execute, 3 atomic. -/
def kindOf (n : Nat) : Kind :=
  match n with
  | 0 => .read | 1 => .write | 2 => .exec | _ => .atomic

/-- A walk completes (R27, R28): it installs its translation, or installs nothing where it faults; each requester takes its fault at its own
access. -/
def execPageWalk (va : Word) (kind : Nat) (s : State) : Out :=
  match s.translate s.who (kindOf kind) va with
  | .ok (_, t) => t.done
  | .error (.absent page) => (s.beginPull page).done
  | .error _ => s.done

/-- Bindings whose values are on their way. Log entry 50 (DESIGN CHOICE). -/
def State.landing (s : State) : List Bind := s.core.binds.filter fun b => b.vals.isSome

/-- The k-th binding whose values are on their way lands (R145, R147). Log entry 50 (DESIGN CHOICE). -/
def execBindingLand (k : Nat) (s : State) : Out :=
  match s.landing[k]? with
  | some b => (s.land b).done
  | none => s.done

/-- The sweep visits the k-th line held (R61). Log entry 53 (DEDUCED). -/
def execAgeingSweep (k : Nat) (s : State) : Out :=
  match s.mem.lines[k]? with
  | some l =>
    if l.dueE s.unitTime then
      let s := s.countBroken l
      ({ s with mem := { s.mem with lines := s.mem.lines.set k { l with e := true } } }).done
    else s.done
  | none => s.done

/-- The policing interval is over at every slice (R66): the one under way then has counted nothing yet. -/
def execPolicingIntervalEnd (s : State) : Out :=
  let police := if s.policeInterval = s.mem.policeAt then s.mem.police else s.mem.police.foldl (fun m x => mput {} m x.1 x.2.step) s.mem.police
  ({ s with mem := { s.mem with police := police, policeAt := s.policeInterval } }).done

/-! ### What the core takes at a boundary -/

/-- BUDGET (R162, R390): the waiting instruction is abandoned; delegated once, with a grace of 4,096 cycles. -/
def State.takeBudget (s : State) : State :=
  let info := wd (fld s.core.wait.isSome.toNat 1 + s.grace.toNat)
  let s := { s.unwait with core := { s.unwait.core with idle := false } }
  if s.delegated cBUDGET && !s.grace then
    let s := { s with regs := { s.regs with tbudget := 4096 } }
    (s.setStat 14 14 1).enterUser cBUDGET info s.pc
  else s.enterTwin cBUDGET info s.pc false

/-- BUDGET is raised at an instruction boundary. -/
def execBudget (s : State) : Out := (if s.budgetDue then s.takeBudget else s).done

/-- The RINGLOCK that is due at a ring wait (R166): its DETAIL and the port. Log entry 52 (DESIGN CHOICE). -/
def State.ringlock (s : State) : Option (Nat × Name) :=
  match s.core.wait with
  | some w => match w.on with
    | .ring nxt _ =>
      let port : Name := if nxt then .nxt else .prv
      let idle := if nxt then s.core.ringIdle.1 else s.core.ringIdle.2
      if 7 ≤ s.core.ringWaiters then some (1, port)
      else match idle with
        | some since => if max w.since since + 65536 ≤ s.cyc then some (2, port) else none
        | none => none
    | _ => none
  | none => none

/-- RINGLOCK at the waiting instruction. -/
def execRinglockIdle (s : State) : Out :=
  match s.ringlock with
  | some (d, port) => (s.takeTrap cRINGLOCK (winInfo d 0 port.num) s.pc).done
  | none => s.done

/-- TINFO of MACHINE (R390). Log entry 39 (DEDUCED). -/
def machineInfo (d phys : Nat) : Word := wd (fld (d % 16) 56 + fld (if d = 1 then phys % 8192 else 0) 32)

/-- MACHINE can be taken: a task is on the core, and the partition runs. -/
def State.machineDue (s : State) : Bool := !s.core.machine.isEmpty && s.sched.task.isSome && !s.sys.halted

/-- The oldest pending MACHINE report is taken (R392, R398). Log entry 39 (DEDUCED). -/
def State.takeMachine (s : State) : State :=
  match if s.machineDue then s.core.machine else [] with
  | (d, phys) :: l =>
    { s with core := { s.core with machine := l, wait := none, idle := false } }.enterTwin cMACHINE (machineInfo d phys) s.pc true
  | [] => s

/-- A MACHINE report arrives (R398): it becomes pending behind earlier ones, and the oldest is taken at once where a task is on the core.
Log entry 39 (DEDUCED). -/
def execMachine (d phys : Nat) (s : State) : Out :=
  ({ s with core := { s.core with machine := s.core.machine ++ [(d, phys)] } }).takeMachine.done

/-- An encoding that is no instruction, or breaks a rule of its form (R206 to R208): ILLEGAL, precisely. -/
def execUnassignedEncoding (detail : Nat) (parcel : Parcel) (s : State) : Out :=
  (s.awake.takeTrap cILLEGAL (illInfo detail parcel) s.pc).done

/-- A fetch that fails (R207 step 1). -/
def execFetchFault (cause : Nat) (info : Word) (s : State) : Out := (s.awake.takeTrap cause info s.pc).done

/-- A full region table has evicted an entry of the core's region (R85, R119): a boundary, counted in TABLE. Log entry 38 (DEDUCED). -/
def execRegionTableEviction (s : State) : Out :=
  if s.core.region = {} then ({ s with core := { s.core with tableHit := false } }).done
  else
    let s := s.boundary
    ({ s with regs := { s.regs with impbnd := bump s.regs.impbnd 32 } }).done

/-! ### Delivery and dispatch -/

/-- The first message in flight that passes a test leaves the list. -/
def dropFlying (p : Flying → Bool) : List Flying → List Flying
  | [] => []
  | f :: fs => if p f then fs else f :: dropFlying p fs

def State.landed (s : State) (p : Flying → Bool) : State :=
  { s with sched := { s.sched with flying := dropFlying p s.sched.flying } }

/-- A record arrives (R160, R312). -/
def execRecordDelivery (x : Delivery) (s : State) : Out :=
  ((s.landed fun f => f.anti.isNone && f.d = x).deliver x).done

/-- A held record is offered again (R160, R364): a keyed one whose rollback has to wait stays held. -/
def State.reoffer (s : State) (a : Arrived) : State :=
  match a.d.key with
  | none => s.deliver a.d
  | some k => if s.rollbackWaits k false then { s with sched := { s.sched with held := s.sched.held ++ [a] } } else s.optEnter a.d

/-- Records held at a full overflow ring are offered again, in order, and a spilled straggler enters first (R160, R364). -/
def execOverflowReoffer (s : State) : Out :=
  match s.lateEntry with
  | some a => (s.enterLate a).done
  | none => (s.sched.held.foldl State.reoffer { s with sched := { s.sched with held := [] } }).done

/-- The record of some work, whose handler descriptor its dispatch reads. -/
def Work.delivery? (n : Nat) : Work → Option Delivery
  | .high a | .domain a | .normal a => some a.d
  | .own r => some (r.delivery n)
  | .resume _ | .low _ _ => none

/-- The free core takes work: an absent page of its handler descriptor is pulled first (R410). -/
def State.takeWork (s : State) (w : Work) : State :=
  match w.delivery? s.core.number with
  | some d => match s.readHead d.ctx d.r.w0 with
    | .absent page => s.beginPull page
    | _ => s.dispatchWork w
  | none => s.dispatchWork w

/-- MSAVE.rst at the resume of a suspended task (R395): a fault is a precise trap at the resume point, and the read is tried again after
it. Log entry 37 (DEDUCED). -/
def State.restoreMu (s : State) (t : Task) (area : Word) : State :=
  if !s.muIdle then s
  else
    let who := engineWho s.regs.asid false .mu
    match s.engineRead .mu s.core.nextBind who area muAreaSize 15 with
    | .ok (bs, u) =>
      let u := u.muRestore bs
      { u with sched := { u.sched with task := some { t with restoreArea := none, entered := true } } }
    | .error (.absent page) => s.beginPull page t.launch.lnid.toNat
    | .error (.fault c d l va) =>
      (s.noteMmx c (s.partyWho .mu s.core.nextBind who .read area muAreaSize)).takeTrap c (memInfo 0 l d va) s.pc

/-- The dispatcher acts (R158, R168, R348, R395): the free core takes its first work, or steals; a waiting high record suspends the low
handler; a resumed task gets its matrix state back. Under a request for pre-emption nothing is dispatched, but a suspended low handler, which
is still the core's task, continues (R394). Log entry 27 (DEDUCED). -/
def execDispatch (s : State) : Out :=
  match s.sched.task with
  | some t =>
    match t.restoreArea with
    | some area => (s.restoreMu t area).done
    | none => match if s.highDue then s.sched.high.head? else none with
      | some a => ((s.suspendLow t).takeWork (.high a)).done
      | none => s.done
  | none =>
    if bit s.preemptReg 0 then (match s.sched.low with
      | some (t, r) => s.resumeLow t r
      | none => s.ackPreempt).done
    else
      let w := s.work
      let s := s.markPassed w
      match w with
      | some w => (s.takeWork w).done
      | none => (if s.forerunner then s else s.stealRound).done

/-- One range of a footprint is read by the cluster's copy engine, placed and pinned (R53, R161): reads of the task's first region (R54). A byte
of an optimistic handler's range that lies in no OPR page is out of reach (R356). -/
def State.placeRange (s : State) (off : Nat) (va : Word) (n : Nat) : Res State := do
  let w := engineWho s.regs.asid false (.cluster (clusterOf s.core.number))
  let (ps, s) ← s.openPieces w .read va n n false
  match if s.optimistic then ps.find? fun p => p.loc.what = .store else none with
  | some p => optMem (va + wd p.off)
  | none => .ok ()
  s.meetNone .read va ps false
  let s ← s.record ps true false false true
  let (bs, l, s) := s.readPieces 15 .die true ps
  match l with
  | some j => .error (.trap cMEMLOST (lostInfo .read va j))
  | none => .ok (s.writeHome (storeKey s.core.number off) bs)

/-- The task's state of entry changes. -/
def State.setTask (s : State) (t : Task) : State :=
  { s with sched := { s.sched with task := some { t with entered := t.placing.isEmpty && !t.proc && t.restoreArea.isNone } } }

/-- The next part of a footprint, or another try of a PROC entry that found no room (R161, R359). -/
def execFootprintFetch (s : State) : Out :=
  match s.sched.task with
  | none => s.done
  | some t =>
    match t.placing with
    | (off, va, n) :: rest =>
      (match s.placeRange off va n with
        | .ok u => u.setTask { t with placing := rest }
        | .error (.trap c i) => s.takeTrap c i s.pc
        | .error (.trapIn u c i) => u.takeTrap c i s.pc
        | .error (.wait _) => s
        | .error (.waitIn u _) => u).done
    | [] =>
      if t.proc then
        let (u, held, waits) := s.enterProc { r := t.record, ctx := t.launch, scope := t.scope, key := t.key }
        (u.setTask { t with proc := waits, heldGvt := held }).done
      else s.done

/-- 4,096 cycles without other work: yielded tasks may be dispatched (R321). -/
def State.holdOver (s : State) : Bool :=
  s.sched.task.isNone && s.work.isNone && (s.sched.resume.any fun r => r.hold) && s.core.freeSince + 4096 ≤ s.cyc

def execYieldHoldExpiry (s : State) : Out := (if s.holdOver then s.unhold else s).done

/-- A thief's wait of 256 cycles is over (R347); a record of its own ends it when it arrives. -/
def State.stealReady (s : State) : Bool := s.sched.stealWait.any fun t => t ≤ s.cyc

def execStealRoundWait (s : State) : Out :=
  (if s.stealReady then { s with sched := { s.sched with stealWait := none } } else s).done

/-! ### The launch queue engine (R338 to R341) -/

/-- The entry a queue's engine reads next: the physical address of its launch record. -/
def State.queueEntry (s : State) (q : Nat) : Nat :=
  let x := s.lq q
  bits (s.physWord (areaBase x.base + 8 * (x.head % x.size))) 55 6 * 64

/-- Words of a launch record. Log entry 29 (DEDUCED). -/
def State.launchWord (s : State) (pa k : Nat) : Word := s.physWord (pa + 8 * k)

/-- The launch before the head of a queue. -/
def State.lastLaunch (s : State) (q : Nat) : Option Launch := (s.sched.launches.filter fun l => l.q = q).getLast?

/-- A queue has an entry that its engine would start. -/
def State.queued (s : State) (q : Nat) : Bool := let x := s.lq q; bit x.cfg 63 && ahead32 (bits x.tail 31 0) x.head ≠ 0

/-- What the engine reads or writes in memory before it may start a queue's head entry: the entry, then the record, and the release event of
the launch before it. -/
def State.launchPlaces (s : State) (q : Nat) : List Nat :=
  let x := s.lq q
  let e := areaBase x.base + 8 * (x.head % x.size)
  let event := match s.lastLaunch q with
    | some l => if l.ended then [] else l.rel.toList.map fun r => s.eventEntry r.1
    | none => []
  if !s.queued q then []
  else if (s.absentAt e).isSome then [e]
  else [s.queueEntry q, s.queueEntry q + 255] ++ event

/-- The first of those places whose page is still to be pulled (R410). -/
def State.launchPull (s : State) (q : Nat) : Option Nat := (s.launchPlaces q).find? fun pa => (s.absentAt pa).isSome

/-- A queue's head entry may start (R340). -/
def State.startable (s : State) (q : Nat) : Bool :=
  s.queued q && (s.launchPull q).isNone
    && (match s.lastLaunch q with
      | none => true
      | some l => l.ended || (bit (s.launchWord (s.queueEntry q) 0) 63 && (match l.rel with
        | some (e, th) => th ≤ s.eventCount e
        | none => false)))

/-- PRIO and WEIGHT of a queue. -/
def State.prio (s : State) (q : Nat) : Nat := bits (s.lq q).cfg 9 8
def State.weight (s : State) (q : Nat) : Nat := max 1 (bits (s.lq q).cfg 3 0)

/-- The oldest started launch of a queue that still has roots to send. -/
def State.rootLaunch (s : State) (q : Nat) : Option Launch :=
  s.sched.launches.find? fun l => l.q = q && l.started && !l.ended && !l.roots.isEmpty

/-- The queue whose turn it is (R341): the highest PRIO, then the next queue in ascending order of the rounds of that PRIO. -/
def State.rootQueue (s : State) : Option Nat :=
  let qs := (List.range 16).filter fun q => (s.rootLaunch q).isSome
  let top := qs.foldl (fun m q => max m (s.prio q)) 0
  let qs := qs.filter fun q => s.prio q = top
  match qs.find? fun q => mget 0 s.sched.rootTurns top ≤ q with
  | some q => some q
  | none => qs.head?

/-- Up to WEIGHT roots of a launch leave, each as a SEND at package scope that carries the launch (R340). -/
def State.sendRoots (s : State) (l : Launch) : State :=
  let n := s.weight l.q
  let s := s.updLaunch l.lnid fun l => { l with roots := l.roots.drop n }
  let s := { s with sched := { s.sched with rootTurns := mput 0 s.sched.rootTurns (s.prio l.q) (l.q + 1) } }
  (l.roots.take n).foldl (fun s x => s.sendRecord x.1 { r := x.2, ctx := l.ctx, scope := packageScope, sender := noCore }) s

/-- The launch of a record and its form (R339, R340): malformed where a reserved bit is set. Log entry 29 (DEDUCED). -/
def launchForm (w : Nat → Word) (user : Option Nat) : Bool :=
  bits (w 0) 61 44 = 0 && bits (w 0) 31 0 = 0 && bits (w 1) 63 32 = 0 && bits (w 2) 15 0 = 0
    && bits (w 3) 63 19 = 0 && bits (w 3) 18 16 < 6 && (w 5).toNat % 64 = 0 && (w 6).toNat % 2 = 0 && bits (w 7) 15 0 = 0
    && bits (w 7) 63 48 + bits (w 7) 47 32 ≤ 65536 && (List.range 8).all (fun k => bits (w (16 + k)) 62 40 = 0)
    && (match user with
      | some a => bits (w 3) 15 0 = a
      | none => true)

/-- Log entry 29 (DEDUCED). -/
def launchCtxOf (lnid : Nat) (w : Nat → Word) : LaunchCtx :=
  { lnid := wd lnid, asid := wd (bits (w 3) 15 0), cbase := w 2, seed := w 4, rm := bits (w 3) 18 16
    pwb := (List.range 8).map fun k => w (8 + k), pwl := (List.range 8).map fun k => w (16 + k) }

/-- The records of n roots in their bytes. -/
def rootRecs : Nat → List Byte → List Rec
  | 0, _ => []
  | n + 1, bs => plainRec ((List.range 8).map fun k => wordOf ((bs.drop (8 * k)).take 8)) :: rootRecs n (bs.drop 64)

/-- Every root's word 0 meets R154. -/
def rootsForm : Nat → List Byte → Bool
  | 0, _ => true
  | n + 1, bs => wordZeroOk (wordOf (bs.take 8)) && rootsForm n (bs.drop 64)

/-- The cores the roots go to: those named, or the rectangle's cores in turn. -/
def State.rootCores (s : State) (n : Nat) (named : Option (List Byte)) : List Nat :=
  match named with
  | some bs => (List.range n).map fun i => ofBytes ((bs.drop (2 * i)).take 2)
  | none => (List.range n).map fun i =>
    let j := i % (s.sys.w * s.sys.h)
    j / s.sys.w * 128 + j % s.sys.w

/-- The cores a launch names (R339): none where RCORES is 0. A read that faults gives its cause. -/
def State.readCores (s : State) (who : Who) (va : Word) (n : Nat) : Except Nat (Except Nat (Option (List Byte) × State)) := do
  if va = 0 then .ok (.ok (none, s))
  else match ← tryEng (s.engineRead .systemCore 0 who va (2 * n) 15 s.unitsFar) 0 with
    | .error (st, _) => .ok (.error (st / 2 ^ 24 % 256))
    | .ok (cs, s) => .ok (.ok (some cs, s))

/-- Roots read and checked (R340 step 2): a read that faults gives its cause, a check that fails 0. Log entry 29 (DEDUCED). -/
def State.readRoots (s : State) (w : Nat → Word) : Except Nat (Except Nat (List (Nat × Rec) × State)) := do
  let n := bits (w 0) 43 32 + 1
  let who := unitWho (bits (w 3) 15 0) false
  match ← tryEng (s.engineRead .systemCore 0 who (w 5) (64 * n) 15 s.unitsFar) 0 with
  | .error (st, _) => .ok (.error (st / 2 ^ 24 % 256))
  | .ok (bs, s) => match ← s.readCores who (w 6) n with
    | .error c => .ok (.error c)
    | .ok (named, s) =>
      let cores := s.rootCores n named
      if rootsForm n bs && cores.all (fun c => s.coreOk (wd c)) then .ok (.ok (cores.zip (rootRecs n bs), s)) else .ok (.error 0)

/-- Step 1 of a start (R340): the engine acquires (R112, R126), LNID and HEAD are written, and the record is checked. Log entry 29 (DEDUCED). -/
def State.beginLaunch (s : State) (q : Nat) : State :=
  let s := s.unitAcquire
  let x := s.lq q
  let pa := s.queueEntry q
  let w (k : Nat) : Word := s.launchWord pa k
  let known := s.sched.appended.find? fun a => a.q = q && a.index = x.head
  let lnid := (known.map (·.lnid)).getD s.sched.nextLnid
  let user := (known.map (·.user)).getD none
  let l : Launch := {
    lnid := lnid, q := q, pa := pa, ctx := launchCtxOf lnid w, started := true, user := user
    rel := if bit (w 0) 62 then some (bits (w 7) 31 16, bits (w 1) 31 0) else none
    queued := (known.map (·.queued)).getD s.cyc, reading := some ((List.range 8).map w) }
  let ok := launchForm w user
  let s := s.writePhysMem (pa + 24 * 8) (wordBytes (wd lnid))
  let s := s.setLq q { x with head := (x.head + 1) % 2 ^ 32 }
  let s := { s with sched := { s.sched with
    nextLnid := if known.isSome then s.sched.nextLnid else s.sched.nextLnid + 1
    appended := s.sched.appended.filter fun a => !(a.q = q && a.index = x.head)
    launches := (s.sched.launches.filter fun y => !(y.q = q && y.ended)) ++ [l] } }
  if ok then s else s.launchEnd l 1

/-- The first created event whose entry lies in a page still to be pulled (R410). -/
def State.eventPull (s : State) (first n : Nat) : Option Nat := (List.range n).findSome? fun i => s.absentAt (s.eventEntry (first + i))

/-- Steps 2 to 4 of a start, up to the first root that leaves (R340): none of it happens before the pages it needs are there (R410).
Log entry 29 (DEDUCED). -/
def State.readLaunch (s : State) (l : Launch) (ws : List Word) : Except Nat State := do
  let w (k : Nat) : Word := ws.getD k 0
  match ← s.readRoots w with
  | .error c => .ok ((s.countCause c).launchEnd l 2)
  | .ok (roots, s) =>
    let first := bits (w 7) 63 48
    let n := bits (w 7) 47 32
    match s.eventPull first n with
    | some page => .error page
    | none =>
      let s := (List.range n).foldl (fun s i => s.updateEvent (first + i) 0) s.unitRelease
      .ok (s.updLaunch l.lnid fun l => { l with live := roots.length, roots := roots, reading := none })

/-- A launch of a queue whose end waits for the page of its record (R342, R410), or whose roots are still to be read (R340). -/
def State.endingLaunch (s : State) (q : Nat) : Option Launch :=
  s.sched.launches.find? fun l => l.q = q && !l.ended && l.ending.isSome
def State.readingLaunch (s : State) (q : Nat) : Option Launch :=
  s.sched.launches.find? fun l => l.q = q && !l.ended && l.reading.isSome

/-- The engine serves queue q: a launch's end, roots whose turn it is, the roots of a launch to read, a page to pull, or the head launch. -/
def execLaunchStart (q : Nat) (s : State) : Out :=
  (match s.endingLaunch q with
  | some l => s.launchEnd l (l.ending.getD 0)
  | none => match if s.rootQueue = some q then s.rootLaunch q else none with
    | some l => s.sendRoots l
    | none => match s.readingLaunch q with
      | some l => s.orPull (s.readLaunch l (l.reading.getD [])) l.lnid
      | none => match s.launchPull q with
        | some pa => s.pullAt pa
        | none => if s.startable q then s.beginLaunch q else s).done

/-! ### Optimistic messages and GVT (R364 to R366) -/

/-- A positive record arrives (R364). -/
def execOptimisticArrival (x : Delivery) (s : State) : Out :=
  ((s.landed fun f => f.anti.isNone && f.d = x).optEnter x).done

/-- An anti-message arrives (R364). -/
def execAntiMessageArrival (k : Key) (s : State) : Out := ((s.landed fun f => f.anti = some k).antiEnter k).done

/-- The reporting interval under way (R353). -/
def State.gvtInterval (s : State) : Nat := s.cyc / (64 * max 1 (bits s.sched.gvtctl 15 0))

/-- The core reports its least key in play (R365). -/
def execGvtReport (s : State) : Out :=
  let k := s.leastKey
  ({ s.post (.gvt k) with opt := { s.opt with reported := some k, reportAt := s.gvtInterval } }).done

/-- The reduced key is broadcast and installed (R365, R366): no key is before this core has reported, and none lies above its report. -/
def execGvtInstall (k : Key) (s : State) : Out :=
  (match s.opt.reported with
  | some own => s.installKey (Key.min k own)
  | none => s.again).done

end Sys2Proof.Machine
end

