-- ==== Sys2Proof/Machine/Io.lean ====
section
/-! DEFINITION. The I/O engine (R131, R324 to R328) and the collective engine (R437). What a storage device, a port or another device
answers comes with the events. -/
namespace Sys2Proof.Machine

/-! ### Requests -/

def IoReq.len (r : IoReq) : Nat := bits (r.desc.getD 1 0) 31 0
def IoReq.buf (r : IoReq) : Word := r.desc.getD 0 0
def IoReq.crec (r : IoReq) : Word := r.desc.getD 3 0
def IoReq.port (r : IoReq) : Nat := bits (r.desc.getD 2 0) 5 0
def IoReq.who (r : IoReq) : Who := unitWho r.asid r.sup

/-- STATUS and CAUSE of an access of a request that failed (R325, R328). Log entry 41 (DEDUCED). -/
def ioStatus (cause : Nat) : Nat × Nat :=
  if cause = cMMX then (7, 0) else if cause = cMEMLOST then (6, 0) else (5, cause)

/-- The request is over. -/
def State.dropIo (s : State) (r : IoReq) : State :=
  { s.endCommand .io r.id with eng := { s.eng with io := s.eng.io.filter fun x => x.id ≠ r.id } }

/-- The completion record's bytes. -/
def IoReq.record (r : IoReq) (done info cyc st cause : Nat) : List Byte :=
  [wd done, wd info, wd cyc, wd (fld 1 63 + fld (st % 128) 56 + fld (cause % 256) 48 + r.seq % 2 ^ 48)].flatMap wordBytes

/-- The record is written, its last word as a release store at the request's scope, whose first read by the issuing hart acquires it (R95,
R131); a write that a link took is MEMLOST then (R136). One that meets another live region is written with STATUS 7 and with the bytes that
were transferred (R325, R328); one that cannot be reached any more is not written. Log entry 41 (DEDUCED). -/
def State.ioFinish (s : State) (r : IoReq) (done info st cause : Nat) : Except Nat State := do
  let width := s.scopeWidth r.scope
  let (lost, s) := s.engRelease (s.engHart .io r.id) width
  let st := if st = 0 && lost.isSome then 6 else st
  let release (s : State) : State := if 3 ≤ width then s.unitRelease else s
  let mail (s : State) : State := s.addMail r.who (r.crec + 24) 8 width
  let bs := r.record done info s.cyc st cause
  let put : Except EngFault State := do
    let s ← s.engineWrite .io r.id r.who r.crec (bs.take 24) 15 s.unitsFar
    (release s).engineWrite .io r.id r.who (r.crec + 24) (bs.drop 24) 15 s.unitsFar true
  let s ← match put with
    | .ok t => .ok (mail t)
    | .error (.absent p) => .error p
    | .error (.fault c _ _ _) =>
      if c ≠ cMMX then .ok s
      else match s.enginePieces r.who .write r.crec 32 with
        | .ok (ps, t) =>
          .ok (mail ((release t).writePieces ps (r.record done info s.cyc 7 0) 15 (engRoute s.unitsFar) (s.engHart .io r.id)))
        | .error _ => .ok s
  .ok (((release s).dropIo r).countCause (if st = 6 then cMEMLOST else 0))

/-- A request changes. -/
def State.updIo (s : State) (r : IoReq) : State :=
  { s with eng := { s.eng with io := s.eng.io.map fun x => if x.id = r.id then r else x } }

/-- SWRITE and NETTX read BUF and hand it over; SREAD asks its device for what it wants (R326); NETRX waits for what comes.
Log entry 41 (DEDUCED). -/
def State.ioStart (s : State) (r : IoReq) : Except Nat State := do
  let off := (r.desc.getD 2 0).toNat
  if r.kind = 1 || r.kind = 2 then
    match s.engineRead .io r.id r.who r.buf r.len r.nud s.unitsFar with
    | .ok (bs, t) =>
      let m : Sent := if r.kind = 1 then .storage off bs (bit (r.desc.getD 1 0) 32) else .frame bs
      .ok ((t.updIo r).post m)
    | .error (.absent p) => .error p
    | .error (.fault c _ _ _) => s.ioFinish r 0 0 (ioStatus c).1 (ioStatus c).2
  else .ok (if r.kind = 0 then (s.updIo r).post (.storageRead off r.len) else s.updIo r)

/-- Acceptance (R324): CREC is translated for writing as cached memory, T fills, the engine's acquire of system scope. -/
def State.ioTake (s : State) (r : IoReq) : Except Nat State := do
  let refuse (c d : Nat) : State := (s.fillToken r.id [wd (fld c 56 + fld d 52)]).dropIo r
  match s.enginePieces r.who .write r.crec 32 with
  | .error (.absent p) => .error p
  | .error (.fault c d _ _) => .ok (refuse c d)
  | .ok (ps, s) =>
    if ps.any fun p => p.loc.what ≠ .memory || p.loc.mt ≠ 0 then .ok (refuse cPROT 5)
    else
      let r := { r with accepted := true, seq := s.eng.ioSeq % 2 ^ 48, since := s.cyc }
      let s := s.unitAcquire.addOther { id := r.id, agent := .io, device := s.regs.devnum, core := s.core.number, own := true }
      let s := { s with eng := { s.eng with ioSeq := s.eng.ioSeq + 1 } }
      (s.fillToken r.id [wd r.seq]).ioStart r

/-- The I/O engine accepts the oldest request (R324). -/
def execIoAccept (s : State) : Out :=
  match s.eng.io.find? fun r => !r.accepted with
  | some r => (s.orPull (s.ioTake r) r.lnid).done
  | none => s.done

/-- The accepted request of a number. -/
def State.ioOf (s : State) (seq : Nat) : Option IoReq := s.eng.io.find? fun r => r.accepted && r.seq = seq

/-- Open bytes in what can be written of n bytes of a request's range from byte off on; the first argument bounds its pages. -/
def State.spoilFrom (s : State) (r : IoReq) : Nat → Nat → Nat → State
  | 0, _, _ => s
  | fuel + 1, off, n =>
    if n = 0 then s
    else
      let va := r.buf + wd off
      let len := min n (65536 - va.toNat % 65536)
      let s := match s.enginePieces r.who .write va len with
        | .ok (ps, t) =>
          t.writePieces ps ((List.range len).map fun j => Config.openByte s.ticks (off + j)) 15 (engRoute s.unitsFar) (s.engHart .io r.id)
        | .error _ => s
      s.spoilFrom r fuel (off + len) (n - len)

/-- A failed SREAD or NETRX leaves the bytes of its target range open (R131). Log entry 8 (DESIGN CHOICE). -/
def State.ioSpoil (s : State) (r : IoReq) : State := if r.kind = 0 || r.kind = 3 then s.spoilFrom r (pagesOf r.len) 0 r.len else s

/-- Bytes that arrive for a request are written to BUF, and the request completes (R131, R325). Log entry 41 (DEDUCED). -/
def State.ioFill (s : State) (r : IoReq) (bs : List Byte) (info st : Nat) : Except Nat State :=
  match s.engineWrite .io r.id r.who r.buf bs r.nud s.unitsFar with
  | .ok t => t.ioFinish r bs.length info st 0
  | .error (.absent p) => .error p
  | .error (.fault c _ _ _) => (s.ioSpoil r).ioFinish r 0 info (ioStatus c).1 (ioStatus c).2

/-- The device's answer (R325, R326): SREAD's data, or a failure. Log entry 41 (DEDUCED). -/
def State.ioAnswered (s : State) (r : IoReq) (x : IoAnswer) : Except Nat State :=
  let info := if r.kind < 2 then bits x.info 15 0 else 0
  if x.status ≠ 0 then (s.ioSpoil r).ioFinish r (if x.status = 2 then 0 else min x.done r.len) info x.status 0
  else if r.kind = 0 then s.ioFill r ((List.range r.len).map fun j => x.data.getD j 0) info 0
  else s.ioFinish r r.len info 0 0

/-- The I/O engine completes a request (R131). -/
def execIoComplete (seq : Nat) (x : IoAnswer) (s : State) : Out :=
  match s.ioOf seq with
  | some r => (s.orAgain (s.ioAnswered r x) r.lnid).done
  | none => s.done

/-- A storage request has waited 2^32 cycles (R326). -/
def IoReq.late (r : IoReq) (cyc : Nat) : Bool := r.accepted && r.kind < 2 && r.since + 2 ^ 32 ≤ cyc

/-- It completes with STATUS 3. -/
def execIoTimeout (seq : Nat) (s : State) : Out :=
  match s.ioOf seq with
  | some r =>
    if r.late s.cyc then (s.orPull ((s.ioSpoil r).ioFinish r 0 0 3 0) r.lnid).done else s.done
  | none => s.done

/-- A frame fills the next buffer posted on its queue (R327); where none is posted it is dropped. Log entry 41 (DEDUCED). -/
def execFrameReceived (q : Nat) (bytes : List Byte) (fcsBad : Bool) (s : State) : Out :=
  match s.eng.io.find? fun r => r.accepted && r.kind = 3 && r.port = q with
  | some r =>
    let info := bytes.length % 65536 + fld fcsBad.toNat 16
    (s.orAgain (s.ioFill r (bytes.take r.len) info (if r.len < bytes.length then 8 else 0)) r.lnid).done
  | none => s.done

/-! ### The collective engine (R437) -/

/-- How a record ends early. -/
inductive CollStop where
  | status (n : Nat)
  | absent (page : Nat)
  deriving DecidableEq, Repr

/-- An access of the engine: what it gives, or the status of its fault. -/
def collTry {α : Type} : Except EngFault α → Except CollStop α
  | .ok a => .ok a
  | .error (.absent p) => .error (.absent p)
  | .error (.fault c _ _ _) => .error (.status (if c = cMEMLOST then 3 else if c = cMMX then 4 else 5))

/-- The type of a record's elements. -/
def collTy (w0 : Word) : Ty := Ty.ofCode (bits w0 59 56)

/-- A record's form. Log entry 42 (DEDUCED). -/
def collForm (w : Nat → Word) : Bool :=
  let t := bits (w 0) 59 56
  bits (w 0) 63 60 < 2 && (t = 2 || t = 9 || t = 10) && bits (w 0) 55 0 = 0 && w 6 = 0
    && 1 ≤ bits (w 3) 63 48 && bits (w 3) 63 48 ≤ 255 && bits (w 3) 31 0 % ((collTy (w 0)).width / 8) = 0

/-- Device numbers that rise. Log entry 42 (DEDUCED). -/
def rising : List Nat → Bool
  | a :: b :: l => a < b && rising (b :: l)
  | _ => true

/-- Numbers of n bytes each. -/
def chunks (n : Nat) : Nat → List Byte → List Nat
  | 0, _ => []
  | k + 1, bs => ofBytes (bs.take n) :: chunks n k (bs.drop n)

/-- The sum of two elements: RNE, or modulo 2^32. -/
def collAdd (t : Ty) (x y : Nat) : Nat :=
  if t = .i32 then (x + y) % 2 ^ 32 else (t.fadd nearest 0 (t.decode x) (t.decode y)).1

/-- The result: the devices' bytes added element by element from the lowest device on, or one after another. -/
def collResult (w0 : Word) (len : Nat) (l : List (List Byte)) : List Byte :=
  if bits w0 63 60 = 1 then l.flatMap fun bs => (List.range len).map fun j => bs.getD j 0
  else
    let t := collTy w0
    let n := t.width / 8
    let els := l.map (chunks n (len / n))
    let sum := els.tail.foldl (fun a b => a.zipWith (collAdd t) b) (els.headD [])
    sum.flatMap fun x => toBytes x n

/-- The bytes of each device of the group, in order: this one's from its buffer, the others' as they came. Log entry 42 (DEDUCED). -/
def collGather (me : Nat) (own : List Byte) (data : List (Nat × List Byte)) : List Nat → Option (List (List Byte))
  | [] => some []
  | d :: ds => do
    let bs ← if d = me then some own else (data.find? fun x => x.1 = d).map (·.2)
    let rest ← collGather me own data ds
    some (bs :: rest)

/-- A record's checks, its group, and this device's bytes (R437). Log entry 42 (DEDUCED). -/
def State.collRead (s : State) (who : Who) (w : Nat → Word) (fabric : Nat) : Except CollStop ((List Nat × List Byte) × State) := do
  let need (b : Bool) (st : Nat) : Except CollStop Unit := if b then .ok () else .error (.status st)
  need (collForm w) 1
  let n := bits (w 3) 63 48
  let (gs, s) ← collTry (s.engineRead .collective 0 who (w 4) (2 * n) 15 s.unitsFar)
  let group := chunks 2 n gs
  need (rising group && group.contains s.regs.devnum) 1
  need (fabric ≠ 1) 1
  need (fabric ≠ 2) 2
  let (own, s) ← collTry (s.engineRead .collective 0 who (w 1) (bits (w 3) 31 0) 15 s.unitsFar)
  .ok ((group, own), s)

/-- The result written, a write that a link took found (R136), and the barrier credited. Log entry 42 (DEDUCED). -/
def State.collWrite (s : State) (who : Who) (w : Nat → Word) (group : List Nat) (own : List Byte) (data : List (Nat × List Byte)) :
    Except CollStop State :=
  match collGather s.regs.devnum own data group with
  | none => .error (.status 2)
  | some l => do
    let out := collResult (w 0) (bits (w 3) 31 0) l
    let s ← collTry (s.engineWrite .collective 0 who (w 2) out 15 s.unitsFar)
    let (lost, s) := s.engRelease (s.engHart .collective 0) 4
    if lost.isSome then .error (.status 3)
    else if w 5 = 0 then .ok s
    else collTry (s.engineCredit .collective 0 who (w 5) out.length 4 s.unitsFar)

/-- A record fetched, by an acquire, and served: its status. This device's bytes leave for the other members whatever becomes of its own result.
Log entry 42 (DEDUCED). -/
def State.collRecord (s : State) (who : Who) (va : Word) (data : List (Nat × List Byte)) (fabric : Nat) : Except Nat (Nat × State) :=
  match collTry (s.engineRead .collective 0 who va 64 15 s.unitsFar true) with
  | .error (.absent p) => .error p
  | .error (.status n) => .ok (n, s)
  | .ok (bs, s) =>
    let w (k : Nat) : Word := wordOf ((bs.drop (8 * k)).take 8)
    match s.collRead who w fabric with
    | .error (.absent p) => .error p
    | .error (.status n) => .ok (n, s)
    | .ok ((group, own), s) =>
      let s := s.post (.collective group own)
      match s.collWrite who w group own data with
      | .ok t => .ok (0, t)
      | .error (.status n) => .ok (n, s)
      | .error (.absent p) => .error p

/-- The completion store, a release at system scope that a kicking hart's first read acquires where it pairs with its kick (R95, R127); one that
meets a live region is made with STATUS 4 (R132), and one that cannot be reached is not made. Log entry 42 (DEDUCED). -/
def State.collFinish (s : State) (who : Who) (k : CollKick) (st : Nat) : Except Nat State :=
  let s := s.unitRelease.countCause (if st = 3 then cMEMLOST else 0)
  let word (st : Nat) : List Byte := wordBytes (wd (fld 1 63 + st))
  let settled (s : State) : State :=
    let s := match k.pair with
      | some width => s.addMail who (k.va + 56) 8 width
      | none => s
    s.unitRelease
  match s.engineWrite .collective 0 who (k.va + 56) (word st) 15 s.unitsFar true with
  | .ok t => .ok (settled t)
  | .error (.absent p) => .error p
  | .error (.fault c _ _ _) => match if c = cMMX then s.enginePieces who .write (k.va + 56) 8 else .ok ([], s) with
    | .ok ([], _) => .ok s
    | .ok (ps, t) => .ok (settled (t.writePieces ps (word 4) 15 (engRoute s.unitsFar) (s.engHart .collective 0)))
    | .error _ => .ok s

/-- One record served (R437), a region from its fetch to its completion store (R125). One that is misaligned has no effect. Log entry 42 (DEDUCED). -/
def State.serveCollective (s : State) (k : CollKick) (data : List (Nat × List Byte)) (fabric : Nat) : Except Nat State := do
  let who := unitWho k.asid true
  if k.va.toNat % 64 ≠ 0 then .ok s
  else
    let s := s.unitAcquire.addOther { id := 0, agent := .collective, device := s.regs.devnum, core := s.core.number, own := true }
    let (st, s) ← s.collRecord who k.va data fabric
    let s ← s.collFinish who k st
    .ok (s.endCommand .collective 0)

/-- The collective engine serves the oldest kick. -/
def execCollectiveRecord (data : List (Nat × List Byte)) (fabric : Nat) (s : State) : Out :=
  match s.sched.collKicks with
  | [] => s.done
  | k :: rest =>
    match s.serveCollective k data fabric with
    | .ok t => ({ t with sched := { t.sched with collKicks := rest } }).done
    | .error page => (s.beginPull page k.lnid).again.done

end Sys2Proof.Machine
end

