-- ==== Sys2Proof/Machine/Module.lean ====
section
/-! DEFINITION. The host and other devices (R121 to R123, R433, R436, R442), errors (R133, R135, R136), event rings and pulled pages (R409
to R411), time slices (R405 to R407), and boot, power and temperature (R439 to R441). -/
namespace Sys2Proof.Machine

/-! ### Accesses from outside -/

/-- The memory key of a local address of this device, if it is homed. -/
def State.localKey (s : State) (pa : Nat) : Option Nat := s.memKey (s.regs.devnum * 2 ^ 48 + pa % 2 ^ 48)

/-- A host access, which is synchronising, meets the core's live region (R122, R123), or another core's. -/
def State.meetsRegion (s : State) (key : Nat) (x : ExtAccess) : Bool :=
  (s.core.region.masks.meets x.write true key x.len).isSome
def State.meetsPeer (s : State) (key : Nat) (x : ExtAccess) : Bool :=
  s.mem.others.any fun o => !o.own && o.agent = .core && (o.masks.meets x.write true key x.len).isSome

/-- The boundary that a waiting host access forces, counted in HOSTBND (R123). -/
def State.forceBoundary (s : State) : State :=
  let s := s.boundary
  { s with regs := { s.regs with hostbnd := bump s.regs.hostbnd 0 } }

/-- Bytes read at home, those of lost units open; whether any is lost. Log entry 8 (DESIGN CHOICE). -/
def State.outsideRead (s : State) (key n : Nat) : List Byte × Bool :=
  ((List.range n).map fun j => if s.isLost (key + j) then Config.openByte s.ticks j else mget 0 s.mem.bytes (key + j),
    (List.range n).any fun j => s.isLost (key + j))

/-- Bytes written at home; a write names exactly its length. -/
def outsideBytes (x : ExtAccess) : List Byte := (List.range x.len).map fun j => x.bytes.getD j 0

/-- A write from outside at its home (R50, R121, R122). -/
def State.outsideWrite (s : State) (key : Nat) (x : ExtAccess) : State := (s.recallRange key x.len).writeHome key (outsideBytes x)

/-- A host access of device memory (R122, R433, R442): at the home, past every cache; an absent page is pulled first, and a failed one
reads poisoned. It waits for the boundary of another core whose live region it meets, which that core makes (R123; log entry 26).
Log entry 43 (DEDUCED). -/
def State.hostAccess (s : State) (x : ExtAccess) : State :=
  match if x.pa < 2 ^ 40 then s.localKey x.pa else none with
  | none => if x.write then s else s.post .unsupported
  | some key =>
    match s.pullCode x.pa with
    | 1 => (s.beginPull (x.pa / 65536)).again
    | 0 =>
      let s := if s.meetsRegion key x then s.forceBoundary else s
      if s.meetsPeer key x then s.again
      else if x.write then s.outsideWrite key x
      else
        let (bs, lost) := s.outsideRead key x.len
        (if lost then s.countLost else s).post (.hostData bs lost)
    | _ => if x.write then s else s.countLost.post (.hostData ((List.range x.len).map (Config.openByte s.ticks)) true)

/-- A host write (R122). -/
def execHostWrite (x : ExtAccess) (s : State) : Out := (s.hostAccess { x with write := true }).done

/-- A host read (R122, R442). -/
def execHostRead (x : ExtAccess) (s : State) : Out := (s.hostAccess { x with write := false }).done

/-- A host access that waits on a live region: the boundary, then the access (R123). -/
def execHostBoundary (x : ExtAccess) (s : State) : Out := (s.hostAccess x).done

/-- A host access through BAR0 (R433): the launch queues' registers of the partition. What another partition's registers hold is no part of
this state, and reads as open bytes. Log entry 8 (DESIGN CHOICE). Log entry 43 (DEDUCED). -/
def execHostBar0Access (off size : Nat) (write : Bool) (v : Word) (s : State) : Out :=
  if size ≠ 8 || off % 8 ≠ 0 then
    ((if write then s else s.post .unsupported).post (.errorRecord 1 off)).done
  else
    let p := off / 0x10000 % 16
    let o := off % 0x10000
    let answer (w : Word) : State := s.post (.hostData (wordBytes w) false)
    if 0x400 ≤ o then (if write then s else answer 0).done
    else if p ≠ s.regs.partid then (if write then s else answer s.openWord).done
    else (if write then s.schedWrite o v else answer (s.schedRead o)).done

/-! ### Virtual devices that do not run -/

/-- What belongs to the running virtual device. Log entry 45 (DEDUCED). -/
def State.vdCtx (s : State) : VdCtx :=
  let lo := storeKey s.core.number 0
  let mine (k : Nat) : Bool := lo ≤ k && k < lo + 2 ^ 19
  { vd := s.sys.vd, pc := s.pc, regs := s.regs, core := s.core, sched := s.sched, opt := s.opt, mu := s.mu, eng := s.eng
    localStore := s.mem.bytes.filter fun x => mine x.1
    lost := s.mem.lost.filter mine
    others := s.mem.others.filter (·.own)
    clusterTab := s.mem.clusterTab, laneTab := s.mem.laneTab, bankTab := s.mem.bankTab }

/-- The context of a virtual device that does not run: saved, or as at reset where it has not run yet. Log entry 45 (DEDUCED). -/
def State.ctxOf (s : State) (v : Nat) : VdCtx :=
  match s.sys.saved.find? fun c => c.vd = v with
  | some c => c
  | none => { State.reset.vdCtx with vd := v, core := { number := s.core.number } }

/-- The machine as the units see it that serve a virtual device: one that does not run has its own registers, scheduler and place table.
Log entry 45 (DEDUCED). -/
def State.asVd (s : State) (v : Nat) : State :=
  if v = s.sys.vd then s
  else
    let c := s.ctxOf v
    { s with
      regs := { c.regs with partid := s.regs.partid, devnum := s.regs.devnum }
      sched := c.sched
      mem := { s.mem with bankTab := c.bankTab }
      sys := { s.sys with vd := v } }

/-- What the units do for a virtual device, running or not. Log entry 45 (DEDUCED). -/
def State.inVd (s : State) (v : Nat) (f : State → State) : State :=
  let t := f (s.asVd v)
  if v = s.sys.vd then t
  else
    { s with
      mem := { t.mem with bankTab := s.mem.bankTab }
      sys := { t.sys with vd := s.sys.vd, saved := { s.ctxOf v with sched := t.sched } :: s.sys.saved.filter fun x => x.vd ≠ v } }

/-! ### Accesses of other devices -/

/-- FABADMIT holds a device (R436). Log entry 52 (DESIGN CHOICE). -/
def State.admits (s : State) (dev : Nat) : Bool := dev < 255 && bit (mget 0 s.sys.fabadmit (dev / 64)) (dev % 64)

/-- A hart that is not this core's, nor of an engine that works for it: its agent, its device, and its core or the one that issued its
command (R80). -/
structure Party where
  agent : Agent
  device : Nat
  core : Nat
  deriving DecidableEq, Repr

/-- The region of such a hart. -/
def Other.isOf (o : Other) (h : Party) : Bool := !o.own && o.agent = h.agent && o.device = h.device && o.core = h.core

/-- An access of another hart meets a live region that is not its own (R77, R117). -/
def State.peerMeets (s : State) (h : Party) (wr sync : Bool) (key len : Nat) : Bool :=
  (s.core.region.masks.meets wr sync key len).isSome
    || s.mem.others.any fun o => !o.done && !o.isOf h && (o.masks.meets wr sync key len).isSome

/-- The masks of an access of another hart enter its live region and the region table of its home (R83, R116); else the die whose table is
full (R85). -/
def State.noteRegion (s : State) (h : Party) (rd wr sync : Bool) (key len : Nat) : Except Nat State :=
  let rs : List Rng := [⟨key, len⟩]
  let opened (s : State) : State :=
    if s.mem.others.any fun o => o.isOf h then s else s.addOther { id := 0, agent := h.agent, device := h.device, core := h.core }
  let grow (o : Other) : Other := if o.isOf h then { o with masks := o.masks.add rs rd wr sync } else o
  (s.enterLines (fun l => ⟨0, h.agent, h.device, h.core, false, l, 1⟩) (linesOf key len)).map fun s =>
    let s := opened s
    { s with mem := { s.mem with others := s.mem.others.map grow } }

/-- A memory access from a core of another device (R436): refused, or performed as a hart's access, whose MMX falls to it and whose masks
enter its region here (R116, R117, R121); a strict partition's is served in its slots of the links (R414). Log entry 38 (DEDUCED).
Log entry 43 (DEDUCED). -/
def execFabricAccess (dev : Nat) (x : HartAccess) (s : State) : Out :=
  match if s.admits dev then s.localKey x.pa else none with
  | none => (s.post (.refused dev)).done
  | some key =>
    if !s.slotOpen (bits s.sys.strictsh 13 8) then s.again.done
    else match s.pullCode (x.pa % 2 ^ 48) with
    | 1 => (s.beginPull (x.pa % 2 ^ 48 / 65536)).again.done
    | 0 =>
      if s.peerMeets ⟨.core, dev, x.core⟩ x.write x.sync key x.len then (s.post (.mmx dev)).done
      else match s.noteRegion ⟨.core, dev, x.core⟩ (!x.write) x.write x.sync key x.len with
        | .error die => (s.askRoom die).again.done
        | .ok s =>
          if x.write then (s.outsideWrite key x.toExtAccess).done
          else
            let (bs, lost) := s.outsideRead key x.len
            (s.post (.fabricData dev bs lost)).done
    | _ => (s.post (.fabricData dev [] true)).done

/-! ### Errors (R133, R135, R136) -/

/-- A mesh flit's parity is bad (R136): resent, or MACHINE MESH at every core whose traffic it carried. Log entry 26 (DESIGN CHOICE). -/
def execMeshFlitParity (again mine : Bool) (s : State) : Out :=
  if !again then s.countCorrected.done
  else if mine = true then execMachine 3 0 s.countLost
  else s.done

/-- Reads of some bindings are lost on their way: loads, and the source reads of copies not yet written. Log entry 43 (DEDUCED). -/
def State.loseReads (s : State) (ids : List Nat) : State :=
  let lose (b : Bind) : Bind := if ids.contains b.id then { b with vals := b.vals.map fun l => l.map fun _ => none } else b
  let fail (a : Acopy) : Acopy :=
    if ids.contains a.id && a.accepted && a.fault.isNone then { a with fault := some (wd (faultBits cMEMLOST 0 0 3)) } else a
  { s with core := { s.core with binds := s.core.binds.map lose }, eng := { s.eng with acopy := s.eng.acopy.map fail } }

/-- A write on its way over a link that has gone down is not performed, and fails its hart (R136). Log entry 43 (DEDUCED). -/
def State.loseWrite (s : State) (va : Word) : State :=
  match s.core.overLink.find? fun w => w.va = va with
  | some w => ({ s with mem := { s.mem with bytes := mputs 0 s.mem.bytes w.key w.old, lost := w.lost.foldl addLoss s.mem.lost } }).failWrite va w.hart
  | none => s.failWrite va

/-- A flit on a link fails its CRC (R136): repeated, or, after eight retries, the link is down, and what is in
flight over it fails, as does every later access. Log entry 43 (DEDUCED). -/
def execLinkCrcFail (f : CrcFail) (reads : List Nat) (write : Option Word) (s : State) : Out :=
  if f.count ≤ 8 then s.countCorrected.done
  else
    let s := { s with sys := { s.sys with linksDown := addLoss s.sys.linksDown f.die } }
    let s := (s.loseReads reads).post (.errorRecord 2 f.count)
    match write with
    | some va => (s.loseWrite va).done
    | none => s.done

/-- The bytes that the RDC holds of a sector go. -/
def State.dropSector (s : State) (u : Nat) : State :=
  { s with mem := { s.mem with
      rdc := s.mem.rdc.filter fun x => x.1 / 32 * 32 ≠ u
      rdcLost := s.mem.rdcLost.filter (· ≠ u) } }

/-- The partition stops (R135, R407): halted as by HALT, with an entry of KIND 0x03. Log entry 44 (DEDUCED). -/
def State.fatal (s : State) : State := s.haltPartition.postEvent 3 0 0

/-- A dirty sector cannot be written back (R135): its bytes are lost, and the partition is stopped. Log entry 44 (DEDUCED). -/
def execWritebackLost (pa : Nat) (s : State) : Out :=
  let s := { s with mem := { s.mem with unsent := s.mem.unsent.filter (· ≠ pa) } }
  match s.memKey pa with
  | none => s.done
  | some key => (((s.dropSector (key / 32 * 32)).loseUnit key).countLost.fatal).done

/-- A level holds the sector of a key: some of it, some of it dirty. -/
def State.sectorAt (s : State) (lv : Lv) (key : Nat) : Option Bool :=
  let m := maskIn (key / 128 * 128) (key / 32 * 32) 32
  match s.lineAt lv (key / 128 * 128) with
  | some l =>
    let held := s.heldAt l &&& m
    let dirty := if lv = .rdc then s.rdcMask l.line RdcByte.dirty &&& m else l.dirty &&& m
    if held = 0 then none else some (dirty ≠ 0)
  | none => none

/-- An uncorrectable error in a sector of a cache (R133): a clean one is fetched again from the level below; a dirty one is lost at that level
(R135), the L1's over a line of the RDC with the bytes there, while what the L1 holds above a loss stays sound. Log entry 44 (DEDUCED). -/
def State.sectorError (s : State) (lv : Lv) (key : Nat) : State :=
  let line := key / 128 * 128
  let m := maskIn line (key / 32 * 32) 32
  let inRdc := lv = .rdc || (lv = .l1 && s.isRemote key)
  match s.sectorAt lv key with
  | none => s
  | some true =>
    let t := if inRdc then { s with mem := { s.mem with rdcLost := addLoss s.mem.rdcLost (lossUnit key) } }
      else { s with mem := { s.mem with lost := addLoss s.mem.lost (lossUnit key) } }
    t.updLine .l1 line fun l => { l with sound := if lv = .l1 then lacking l.sound m else l.sound ||| (l.held &&& m) }
  | some false =>
    if lv = .rdc then s.dropSector (key / 32 * 32)
    else
      let t := s.updLine lv line fun l => { l with held := lacking l.held m, sound := lacking l.sound m }
      if lv = .l1 then t else t.uncover line m

/-- A stored bit changes of itself (R133): corrected, or not. A sector of memory is lost; while a cache at its home holds a copy, its
consumers get that. Log entry 44 (DEDUCED). -/
def execSoftError (addr : Nat) (corrected : Bool) (place : ErrAt) (s : State) : Out :=
  if corrected then s.countCorrected.done
  else match place with
    | .store => (s.loseUnit (storeKey s.core.number (addr % 2 ^ 19))).done
    | _ => match s.memKey addr with
      | none => s.done
      | some key => (match place with
        | .l1 => s.sectorError .l1 key
        | .l2 => s.sectorError .l2 key
        | .rdc => s.sectorError .rdc key
        | .msc => s.sectorError .msc key
        | _ => if (s.sectorAt .l2 key).isSome || (s.sectorAt .msc key).isSome then
            { s with mem := { s.mem with hbmLost := addLoss s.mem.hbmLost (lossUnit key) } }
          else s.loseUnit key).done

/-! ### Event rings and pulled pages (R409 to R411) -/

/-- An entry is posted (R409). -/
def execEventPost (kind : Nat) (info more : Word) (s : State) : Out := (s.postEvent kind info more).done

/-- The first waiting entry whose ring has room now. -/
def State.postable (s : State) : Option Posting := s.sys.posting.find? fun p => (s.asVd p.vd).ringRoom

/-- A page that a virtual device's ring lacks for its next entry and that is not being pulled yet (R410). -/
def State.ringPull (s : State) : Option Nat :=
  [areaBase s.evring, s.ringEntry].findSome? fun a => (s.absentAt a).filter fun page => !s.pulling page

/-- The first waiting entry whose ring lacks such a page. -/
def State.postPull (s : State) : Option Posting := s.sys.posting.find? fun p => (s.asVd p.vd).ringPull.isSome

/-- A waiting entry is tried again, each ring's oldest first (R409), or the page it waits for is pulled (R410). -/
def execEventRingOverrunWait (s : State) : Out :=
  (match s.postable with
  | some p => ({ s with sys := { s.sys with posting := s.sys.posting.erase p } }).inVd p.vd fun s => s.postEntry p
  | none => match s.postPull with
    | some p => s.inVd p.vd fun s => match s.ringPull with
      | some page => s.startPull page
      | none => s
    | none => s).done

/-- A page's code in the pull map is set (R410). -/
def State.setPullCode (s : State) (page code : Nat) : State :=
  let ctl := (mget {} s.sys.vds s.sys.vd).pullctl
  let loc := page * 65536
  let idx := (loc / 2 ^ 38 % 4 * 192 + loc / 2 ^ 30 % 256) * 16384 + loc % 2 ^ 30 / 65536
  match s.memKey (bits ctl 55 12 * 2 ^ 12 + idx / 4) with
  | some k =>
    let old := (mget 0 s.mem.bytes k).toNat
    let sh := 4 ^ (idx % 4)
    s.writeHome k [BitVec.ofNat 8 (old - old / sh % 4 * sh + code % 4 * sh)]
  | none => s

/-- The oldest pull of a page, for whatever virtual device. -/
def State.pullOf (s : State) (page : Nat) : Option Pull := s.mem.pulls.find? fun p => p.page = page

/-- The pull of a page for the running virtual device is over. Log entry 46 (DESIGN CHOICE). -/
def State.endPull (s : State) (page : Nat) : State :=
  { s with mem := { s.mem with pulls := s.mem.pulls.filter fun p => !(p.page = page && p.vd = s.sys.vd) } }

/-- An access to an absent page begins to pull it (R410). -/
def execPagePull (page : Nat) (s : State) : Out := (if s.pullCode (page * 65536) = 1 then s.beginPull page else s).done

/-- A page's bytes replace what stood there; unlisted ones read 0. Log entry 46 (DESIGN CHOICE). -/
def State.installPage (s : State) (key : Nat) (bytes : List (Nat × Byte)) : State :=
  let cleared := s.mem.bytes.filter fun x => x.1 < key || key + 65536 ≤ x.1
  let new := bytes.foldl (fun m x => mput 0 m (key + x.1 % 65536) x.2) cleared
  ({ s with mem := { s.mem with
    bytes := new
    lost := s.mem.lost.filter fun u => u < key || key + 65536 ≤ u
    hbmLost := s.mem.hbmLost.filter fun u => u < key || key + 65536 ≤ u } }).notify key 65536

/-- A pulled page arrives (R410): written, present, and its waiters go on. Log entry 46 (DESIGN CHOICE). -/
def execPageArrival (page : Nat) (bytes : List (Nat × Byte)) (s : State) : Out :=
  match s.pullOf page with
  | none => s.done
  | some p => (s.inVd p.vd fun s => match s.localKey (page * 65536) with
    | some key => ((s.installPage key bytes).setPullCode page 0).endPull page
    | none => s.endPull page).done

/-- The device from which a virtual device's pages are pulled (R410). -/
def State.pullSrc (s : State) (v : Nat) : Nat := bits (mget {} s.sys.vds v).pullctl 7 0

/-- A pull that cannot succeed any more (R411): 2^28 cycles have passed, or a link to its source is down. -/
def State.pullDead (s : State) (p : Pull) : Bool :=
  p.since + 2 ^ 28 ≤ s.cyc || s.sys.linksDown.any fun d => d / 1024 ≠ s.regs.devnum && d / 1024 = s.pullSrc p.vd

/-- A pull fails (R411): the page's code becomes 10, and one entry of KIND 0x02 is posted. Log entry 46 (DESIGN CHOICE). -/
def execPullFailed (page : Nat) (s : State) : Out :=
  match s.pullOf page with
  | none => s.done
  | some p => (s.inVd p.vd fun s => ((s.setPullCode page 2).endPull page).postEvent 2 (wd (page * 65536)) (wd (s.pullSrc p.vd))).done

/-! ### Time slices (R405 to R407) -/

/-- A context has something to run (R405). -/
def hasWork (q : Sched) : Bool :=
  q.launches.any (fun l => !l.ended) || !q.parked.isEmpty || !q.resume.isEmpty || !q.inbox.isEmpty || !q.high.isEmpty || !q.domq.isEmpty
    || !q.spilled.isEmpty || !q.held.isEmpty || q.queues.any fun x => bits x.2.tail 31 0 ≠ x.2.head

/-- Virtual device v is runnable on this partition. Log entry 45 (DEDUCED). -/
def State.runnable (s : State) (v : Nat) : Bool :=
  let ctl := (mget {} s.sys.vds v).ctl
  bit ctl 63 && bits ctl 59 56 = s.regs.partid
    && (if v = s.sys.vd then hasWork s.sched else match s.sys.saved.find? fun c => c.vd = v with
      | some c => hasWork c.sched
      | none => false)

/-- WEIGHT of a virtual device. -/
def State.vdWeight (s : State) (v : Nat) : Nat := bits (mget {} s.sys.vds v).ctl 55 52

/-- The virtual devices that are served now (R405), in ascending order: the runnable ones, those of weight 0 only where no other is runnable.
Log entry 45 (DEDUCED). -/
def State.served (s : State) : List Nat :=
  let all := (s.sys.vds.map (·.1)).filter s.runnable
  let heavy := all.filter fun v => s.vdWeight v ≠ 0
  if heavy.isEmpty then all else heavy

/-- The next virtual device to run (R405): this one again while its quanta last; then the next in ascending order. Log entry 45 (DEDUCED). -/
def State.nextVd (s : State) : Nat :=
  let l := s.served
  if l.contains s.sys.vd && s.sys.turns + 1 < s.vdWeight s.sys.vd then s.sys.vd
  else match l.find? fun v => s.sys.vd < v with
    | some v => v
    | none => l.headD s.sys.vd

/-- The slice of the running virtual device is over (R405, R406): another one is to be served, and its quantum has passed, or it is no longer
one that is served itself. Log entry 45 (DEDUCED). -/
def State.sliceOver (s : State) : Bool :=
  let l := s.served
  (l.any fun v => v ≠ s.sys.vd)
    && (!l.contains s.sys.vd || s.sys.sliceAt + s.quantum (mget {} s.sys.vds s.sys.vd).ctl ≤ s.cyc)

/-- Every line of the partition is written back and invalidated (R407 step 3). The partition's translations go with them, since their tags do
not name the virtual device (R25). Log entry 45 (DEDUCED). -/
def State.flushAll (s : State) : State :=
  let s := s.writeBack.dropHeld 0 2
  let s := s.mem.lines.foldl State.evict s
  { s with mem := { s.mem with rdc := [], rdcLost := [], lines := [] } }

/-- A saved context is loaded (R407 step 4); requests for pre-emption are cleared. Log entry 45 (DEDUCED). -/
def State.loadVd (s : State) (c : VdCtx) : State :=
  let lo := storeKey s.core.number 0
  let mine (k : Nat) : Bool := lo ≤ k && k < lo + 2 ^ 19
  let bytes := c.localStore.foldl (fun m x => mput 0 m x.1 x.2) (s.mem.bytes.filter fun x => !mine x.1)
  { s with
    pc := c.pc
    regs := { c.regs with partid := s.regs.partid, devnum := s.regs.devnum, cpquota := s.regs.cpquota, cpways := s.regs.cpways }
    core := { c.core with tlb := [], muTlb := [] }
    sched := { c.sched with preempt := [] }
    opt := c.opt, mu := c.mu, eng := c.eng
    mem := { s.mem with
      bytes := bytes
      lost := (s.mem.lost.filter fun u => !mine u) ++ c.lost
      others := (s.mem.others.filter fun o => !o.own) ++ c.others
      tables := mmap [] (List.filter fun r => !r.own) s.mem.tables
      clusterTab := c.clusterTab, laneTab := c.laneTab, bankTab := c.bankTab }
    sys := { s.sys with vd := c.vd, turns := 0, sliceAt := s.cyc, draining := none, saved := s.sys.saved.filter fun x => x.vd ≠ c.vd } }

/-- The cores of the partition: its rectangle's (R44), and this one. -/
def State.cores (s : State) : List Nat :=
  s.core.number :: ((List.range (s.sys.w * s.sys.h)).map fun j => j / s.sys.w * 128 + j % s.sys.w).filter (· ≠ s.core.number)

/-- Every core holds still under a request (R394, R407). -/
def State.allAcked (s : State) : Bool := s.cores.all fun n => bit (mget 0 s.sched.preempt n) 63

/-- The virtual device can be saved: every core holds still, the matrix queue is empty, and nothing is under way that the installation of the
next one's tables waits for (R47, R407); or the partition is halted, and all is held where it stands (R422). Log entry 45 (DEDUCED). -/
def State.drained (s : State) : Bool := s.sys.halted || (s.allAcked && s.muIdle && s.placeQuiet)

/-- Every core is asked to hold still (R407 step 1); each of the others acknowledges in its own time (log entry 26). -/
def State.askAll (s : State) : State :=
  let s := s.cores.foldl (fun s n => s.writePreempt n 1) s
  { s with sys := { s.sys with draining := some s.cyc } }

/-- The switch (R407 steps 2 to 4). Log entry 45 (DEDUCED). -/
def State.switchVd (s : State) : State :=
  match s.sys.saved.find? fun c => c.vd = s.nextVd with
  | some c =>
    let s := s.flushAll
    let old := s.vdCtx
    let t := s.loadVd c
    { t with sys := { t.sys with saved := t.sys.saved ++ [old] } }.settle
  | none => { s with
      sched := { s.sched with preempt := [] }
      sys := { s.sys with draining := none, sliceAt := s.cyc } }

/-- A quantum ends (R405 to R407): another quantum for the same device where R405 gives it one; else the drain begins, and once the cores hold
still the switch is made. A halted partition may be switched at any time (R422). Log entry 45 (DEDUCED). -/
def execQuantumEnd (s : State) : Out :=
  match s.sys.draining with
  | none =>
    if !s.sys.halted && !s.sliceOver then s.done
    else if s.nextVd = s.sys.vd then
      ({ s with sys := { s.sys with sliceAt := s.cyc, turns := if s.sys.turns + 1 < s.vdWeight s.sys.vd then s.sys.turns + 1 else 0 } }).done
    else s.askAll.done
  | some _ => (if s.drained then s.switchVd else s.askStop).done

/-- Step 2 has not begun 2^26 cycles after the request (R407): some core does not hold still. Log entry 45 (DEDUCED). -/
def State.drainLate (s : State) : Bool :=
  match s.sys.draining with
  | some t => t + 2 ^ 26 ≤ s.cyc && !s.allAcked
  | none => false

/-- LATE in the outgoing device, and the partition halts. Log entry 45 (DEDUCED). -/
def execSliceLate (s : State) : Out :=
  if !s.drainLate then s.done
  else
    let d := mget {} s.sys.vds s.sys.vd
    let s := { s with sys := { s.sys with
      vds := mput {} s.sys.vds s.sys.vd { d with ctl := setBits d.ctl 60 60 1 }
      draining := none } }
    s.fatal.done

/-! ### Boot, power, temperature (R439 to R441) -/

/-- One step of boot (R439): an image whose signature fails is not run, and the module stays in recovery; step 4 sets DEVNUM.
Log entry 47 (DEDUCED). -/
def execBoot (ok : Bool) (dev : Nat) (s : State) : Out :=
  let next (s : State) : State := { s with sys := { s.sys with bootStep := s.sys.bootStep + 1 } }
  match s.sys.bootStep with
  | 0 => (next s).done
  | 1 => (if ok then next s else s).done
  | 2 => (next s).done
  | 3 => (next { s with regs := { s.regs with devnum := dev % 256 } }).done
  | 4 => (next s).done
  | _ => s.done

/-- 105 degrees on a die: M1 (R441). Log entry 47 (DEDUCED). -/
def execThermalThrottle (s : State) : Out := ({ s with sys := { s.sys with power := 1 } }).done

/-- 115 degrees on a die: every partition halts, and an error record is posted (R441). Log entry 44 (DEDUCED). Log entry 47 (DEDUCED). -/
def execThermalHalt (s : State) : Out := (s.haltPartition.post (.errorRecord 3 0)).done

/-- What the scheduler keeps in memory (R163, R316, R344, R345). -/
def Sched.forget (q : Sched) : Sched :=
  { q with dqMem := [], spilled := [], parked := [], resume := [], events := [], waiters := [], stuck := [] }

/-- The memory contents are lost (R440), those of virtual devices that do not run with them; the module boots again. Log entry 47 (DEDUCED). -/
def State.powerOff (s : State) : State :=
  { s with
    mem := { s.mem with bytes := [], rdc := [], rdcLost := [], unsent := [], lost := [], hbmLost := [], stale := [], lines := [] }
    sched := s.sched.forget
    sys := { s.sys with
      bootStep := 0, reissue := []
      saved := s.sys.saved.map fun (c : VdCtx) => { c with localStore := [], lost := [], sched := c.sched.forget } } }

/-- The controller moves the module between its states (R440). Log entry 47 (DEDUCED). -/
def execPowerState (m : Fin 4) (s : State) : Out :=
  let s := { s with sys := { s.sys with power := m } }
  (if m = 3 then s.powerOff else s).done

end Sys2Proof.Machine
end

