-- ==== Sys2Proof/Machine/Fetch.lean ====
section
/-! DEFINITION. Fetching an instruction (R89, R196, R197, R207 steps 1 to 9). -/
namespace Sys2Proof.Machine

/-- A byte as a fetch sees it: what memory holds, or, until the next full fence, what it held before (R89).
Log entry 15 (DESIGN CHOICE). -/
def State.fetchByte (s : State) (key : Nat) : Byte :=
  match mfind s.mem.stale key with
  | some b => if Config.staleFetch s.ticks then b else s.viewByte key
  | none => s.viewByte key

/-- The bytes of the fetch block from an address on, sixteen at most. A block lies in one page and one sector (R197); one of an uncached page
is fetched past the caches (R20), and one of another device's memory in a slot of the links (R414). -/
def State.fetchBytes (s : State) (pc : Word) : Except (Miss × Word) (List Byte × State) :=
  let n := min 16 (32 - pc.toNat % 32)
  match s.translateAll s.who .exec pc 0 n (pagesOf n) with
  | .error e => .error e
  | .ok (ps, t) =>
    let t := ps.foldl (fun t p => if p.loc.what = .memory && p.loc.mt = 1 then t.purgeRange p.loc.key p.len else t) t
    if t.linkClosed ps then .error (.absent noSlot, pc)
    else match ps.findSome? fun p => t.firstLost p.loc.key p.len with
    | some _ => .error (.fault cMEMLOST 0 3, pc)
    | none => .ok (ps.flatMap fun p => (List.range p.len).map fun j =>
        if p.loc.what = .memory then t.fetchByte (p.loc.key + j) else Config.openByte t.ticks j, t)

/-- A TLBI is told apart by the KIND of its control word (R332). -/
def State.refine (s : State) (i : Instr) : Instr :=
  match i with
  | .tlbiPage g x => match bits (s.take x.b.name).1 1 0 with
    | 1 => .tlbiAsid g x
    | 2 => .tlbiPartition g x
    | _ => i
  | _ => i

/-- What the core issues: an instruction or the trap of its fetch or encoding, in the state after the fetch; or an absent page. -/
inductive Issue where
  | run (i : Instr) (s : State)
  | pull (page : Nat)
  deriving DecidableEq, Repr

/-- Bytes fetched become what issues (R206 to R208). -/
def State.issueBytes (s : State) (bs : List Byte) : Issue :=
  match decode (s.pc.toNat % 32) bs with
  | .ok i => .run (s.refine i) s
  | .error e => .run (.unassignedEncoding e.code (parcelAt bs 0)) s

/-- A fetch that gives no bytes. -/
def State.issueMiss (s : State) : Miss × Word → Issue
  | (.fault c d l, va) => .run (.fetchFault c (memInfo 2 l d va)) s
  | (.absent page, _) => .pull page

/-- What issues at the pc; the skip parcel is passed over (R197). -/
def State.issue (s : State) : Issue :=
  match s.fetchBytes s.pc with
  | .error e => s.issueMiss e
  | .ok (bs, t) =>
    if isSkip (s.pc.toNat % 32) (parcelAt bs 0) then
      let t := { t with pc := s.pc + 4 }
      match t.fetchBytes t.pc with
      | .error e => t.issueMiss e
      | .ok (cs, u) => u.issueBytes cs
    else t.issueBytes bs

end Sys2Proof.Machine
end

