-- ==== Sys2Proof/Machine/Memory.lean ====
section
/-! DEFINITION. Loads and stores (R242 to R245), LDP (R41, R246), PREF and FLUSH (R247), WAITLN and SLEEP (R248, R250), BARWAIT (R254),
and the events of their waits. -/
namespace Sys2Proof.Machine

/-! ### What a load reads and a store writes -/

/-- The bytes of pieces as a load of the core reads them: a unit register answers for itself (R259, R337). -/
def State.loadBytes (s : State) (ps : List Piece) (nud : Nat) : List Byte × Option Nat × State :=
  match ps with
  | [p] => if p.loc.what = .unit then (wordBytes (s.unitRead p.loc.key), none, s) else s.readPieces nud .l1 false ps
  | _ => s.readPieces nud .l1 false ps

/-- The kick registers among the pieces of a store (R126). Log entry 15 (DESIGN CHOICE). -/
def State.kicked (s : State) (ps : List Piece) : Option Piece := ps.find? fun p => p.loc.what = .unit && s.isKick p.loc.key

/-- The bytes of a store written: by a release at a scope (R105, R112, R126), or by a plain store. -/
def State.storeBytes (s : State) (ps : List Piece) (bs : List Byte) (nud : Nat) (scope : Option Word) : Res State :=
  match ps with
  | [] => .ok s
  | p :: ps' =>
    if p.loc.what = .unit then (match s.unitWrite p.loc.key (wordOf bs) scope with
      | some t => .ok t
      | none => .error (.wait .room))
    else match scope with
      | none => .ok (s.writePieces ps bs nud)
      | some v => .ok ((p :: ps').foldl (fun s p => s.releaseWrite p ((bs.drop p.off).take p.len) (s.scopeWidth v) nud) s)

/-- The access of a load of n bytes: acquire at a scope, or plain. A wide acquire drops what the RDC holds clean before it reads (R112), and
its masks are those of the region it opens (R79, R83). -/
def State.loadAccess (s : State) (w : Who) (va : Word) (n : Nat) (acq : Option Word) : Res (List Piece × State) :=
  match acq with
  | none => s.plainAccess w .read va n
  | some v => do
    let (ps, s) ← s.openAccess w .read va n true
    let width := max (s.scopeWidth v) ((s.mailHit ps).getD 0)
    let s ← ((s.dropMail ps).acquire width).record ps true false true
    .ok (ps, s)

/-- The access of a store of n bytes: kick registers take 8-byte release stores only (R126), an optimistic handler's stores are logged
(R357), a release comes before its write (R75), whose masks are those of the region it opens (R79, R83). -/
def State.storeAccess (s : State) (w : Who) (va : Word) (n : Nat) (rel : Option Word) : Res (List Piece × State) := do
  let (ps, s) ← match rel with
    | none => s.plainAccess w .write va n
    | some _ => s.openAccess w .write va n true
  match if rel.isNone then s.kicked ps else none with
  | some p => need false cPROT (memInfo 1 p.loc.level 5 va)
  | none => .ok ()
  let s ← s.logPieces ps
  match rel with
  | none => .ok (ps, s)
  | some v => do
    let s ← s.release (s.scopeWidth v)
    let s ← (s.dropMail ps).record ps false true true
    .ok (ps, s)

/-- The scope of a synchronising form: its checks, operand and scope word. -/
def syncOpr : Option Scope → List Opr
  | some sc => scopeOpr sc
  | none => []

def State.syncCheck (s : State) (c : Ctx) : Option Scope → Res Unit
  | some sc => s.checkScope c sc
  | none => .ok ()

def State.takeSync (s : State) : Option Scope → Option Word × State
  | some sc => let (v, s) := s.takeScope sc; (some v, s)
  | none => (none, s)

/-! ### LD and ST (R242, R243) -/

/-- A loaded value bound to its destination: extended to the word, or lost (R145, R147, R175). -/
def State.landLoad (s : State) (d : Name) (t : Ty) (bs : List Byte) (lost : Option Nat) (va : Word) : Res State :=
  match lost with
  | none => s.bindDst d (some (t.extend (ofBytes bs))) (lostInfo .read va 0)
  | some j => s.bindDst d none (lostInfo .read va j)

/-- The body of LD. -/
def ldBody (t : Ty) (nud : Fin 16) (d a : Name) (off : Off) (acq : Option Scope) (c : Ctx) (s : State) : Res State := do
  s.syncCheck c acq
  s.prepare c ([.src a false] ++ syncOpr acq ++ [.dst d])
  let (b, s) := s.take a
  let (w, s) := s.takeSync acq
  let va := b + wdI off.val
  let n := t.bytes
  if w.isSome then aligned .read va n else .ok ()
  let (ps, s) ← s.loadAccess s.who va n w
  let (bs, lost, s) := s.loadBytes ps nud.val
  s.landLoad d t bs lost va

/-- LD (R242). -/
def execLd (g : Guard) (x : Mem) (s : State) : Out := run (.ld g x) g (ldBody x.t x.nud x.d x.a x.off none) s

/-- LD.acq (R242, R243). -/
def execLdAcq (g : Guard) (x : MemSync) (s : State) : Out := run (.ldAcq g x) g (ldBody x.t x.nud x.d x.a x.off (some x.sc)) s

/-- The body of ST: D is a source in mode 0. -/
def stBody (t : Ty) (nud : Fin 16) (d a : Name) (off : Off) (rel : Option Scope) (c : Ctx) (s : State) : Res State := do
  s.syncCheck c rel
  s.prepare c ([.src a false] ++ syncOpr rel ++ [.src d false])
  let (b, s) := s.take a
  let (w, s) := s.takeSync rel
  let (v, s) := s.take d
  let va := b + wdI off.val
  let n := t.bytes
  if w.isSome then aligned .write va n else .ok ()
  let (ps, s) ← s.storeAccess s.who va n w
  s.storeBytes ps (toBytes v.toNat n) nud.val w

/-- ST (R242). -/
def execSt (g : Guard) (x : Mem) (s : State) : Out := run (.st g x) g (stBody x.t x.nud x.d x.a x.off none) s

/-- ST.rel (R242, R243). -/
def execStRel (g : Guard) (x : MemSync) (s : State) : Out := run (.stRel g x) g (stBody x.t x.nud x.d x.a x.off (some x.sc)) s

/-! ### LDV and STV (R244) -/

/-- The physical words of a vector. -/
def State.vecWords (s : State) (v : Nat) : List Nat := (List.range 32).map fun k => s.phys (32 * v + k)

/-- The 32 words of 256 bytes; a word with a lost byte is lost. -/
def vecVals (bs : List Byte) (lost : Nat → Bool) : List (Option Word) :=
  (List.range 32).map fun k => if (List.range 8).any fun j => lost (8 * k + j) then none else some (wordOf ((bs.drop (8 * k)).take 8))

/-- Which bytes of an access are lost. -/
def State.lostBytes (s : State) (ps : List Piece) : List Nat :=
  ps.flatMap fun p => ((List.range p.len).filter fun j => (s.firstLost (p.loc.key + j) 1 true).isSome).map (p.off + ·)

/-- Bind the words of a vector (R145). -/
def State.bindVec (s : State) (v : Nat) (vals : List (Option Word)) (info : Word) : Res State := do
  s.unboundAll (s.vecWords v)
  s.memOpRoom
  .ok (s.bind (s.vecWords v) (some vals) info)

/-- The alignment of LDV and STV. -/
def vecAlign (t : Ty) (w : Option Word) : Nat := if w.isSome then 256 else t.bytes

/-- The body of LDV. -/
def ldvBody (t : Ty) (nud : Fin 16) (v : Fin 64) (a : Name) (off : Off) (acq : Option Scope) (c : Ctx) (s : State) : Res State := do
  s.syncCheck c acq
  s.prepare c ([.src a false] ++ syncOpr acq ++ [.vdst v.val])
  let (b, s) := s.take a
  let (w, s) := s.takeSync acq
  let va := b + wdI off.val
  aligned .read va (vecAlign t w)
  let (ps, s) ← s.loadAccess (s.who true) va 256 w
  let (bs, lost, s) := s.readPieces nud.val .l1 false ps
  let ls := s.lostBytes ps
  match lost with
  | none => s.bindVec v.val (vecVals bs fun _ => false) (lostInfo .read va 0)
  | some j => s.bindVec v.val (vecVals bs fun i => ls.contains i) (lostInfo .read va j)

/-- LDV (R244). -/
def execLdv (g : Guard) (x : VMem) (s : State) : Out := run (.ldv g x) g (ldvBody x.t x.nud x.v x.a x.off none) s

/-- LDV.acq (R244). -/
def execLdvAcq (g : Guard) (x : VMemSync) (s : State) : Out := run (.ldvAcq g x) g (ldvBody x.t x.nud x.v x.a x.off (some x.sc)) s

/-- The body of STV: vD is read in mode 0. -/
def stvBody (t : Ty) (nud : Fin 16) (v : Fin 64) (a : Name) (off : Off) (rel : Option Scope) (c : Ctx) (s : State) : Res State := do
  s.syncCheck c rel
  s.prepare c ([.src a false] ++ syncOpr rel ++ [.vsrc v.val false])
  let (b, s) := s.take a
  let (w, s) := s.takeSync rel
  let (ws, s) := s.takeVec v.val
  let va := b + wdI off.val
  aligned .write va (vecAlign t w)
  let (ps, s) ← s.storeAccess (s.who true) va 256 w
  s.storeBytes ps (ws.flatMap wordBytes) nud.val w

/-- STV (R244). -/
def execStv (g : Guard) (x : VMem) (s : State) : Out := run (.stv g x) g (stvBody x.t x.nud x.v x.a x.off none) s

/-- STV.rel (R244). -/
def execStvRel (g : Guard) (x : VMemSync) (s : State) : Out := run (.stvRel g x) g (stvBody x.t x.nud x.v x.a x.off (some x.sc)) s

/-! ### Lane by lane (R245) -/

/-- The active lanes with their addresses, in ascending order. -/
def activeLanes (e : Nat) (m : Option Word) (va : Nat → Word) : List (Nat × Word) :=
  ((List.range (256 / e)).filter fun i => match m with
    | some w => bit w i
    | none => true).map fun i => (i, va i)

/-- The alignment and translation of every lane (R245): each lane's element, address and pieces. -/
def State.openLanes (s : State) (k : Kind) (e : Nat) : List (Nat × Word) → Res (List (Nat × Word × List Piece) × State)
  | [] => .ok ([], s)
  | (i, va) :: l => do
    aligned k va e
    let (ps, s) ← s.openPieces (s.who true) k va e e false
    let (r, s) ← s.openLanes k e l
    .ok ((i, va, ps) :: r, s)

/-- The pieces of all lanes. -/
def allPieces (l : List (Nat × Word × List Piece)) : List Piece := l.flatMap fun (x : Nat × Word × List Piece) => x.2.2

/-- The conflict check of every lane, before any is performed. -/
def State.meetLanes (s : State) (k : Kind) (sync : Bool) : List (Nat × Word × List Piece) → Res Unit
  | [] => .ok ()
  | (_, va, ps) :: l => do
    s.meetNone k va ps sync
    s.meetLanes k sync l

/-- The conflict checks of the lanes of a load or a store, and their masks, an access a lane (R76, R84); a load that first reads a mailbox word is an acquire (R95). -/
def State.lanesMeet (s : State) (k : Kind) (l : List (Nat × Word × List Piece)) : Res State :=
  let ps := allPieces l
  match if k.writes then none else s.mailHit ps with
  | some width => do
    let s := (s.dropMail ps).acquire width
    s.meetLanes k true l
    s.record ps true false true
  | none => do
    s.meetLanes k false l
    (if k.writes then s.dropMail ps else s).recordEach (!k.writes) k.writes false (l.map fun x => x.2.2)

/-- The lanes of a load read: byte positions of the vector with their values, the lost positions, the address of the first lost byte. -/
def State.readLanes (s : State) (e nud : Nat) : List (Nat × Word × List Piece) → List (Nat × Byte) × List Nat × Option Word × State
  | [] => ([], [], none, s)
  | (i, va, ps) :: l =>
    let (bs, lost, s) := s.readPieces nud .l1 false ps
    let (xs, ls, first, s) := s.readLanes e nud l
    let mine := (List.range e).map fun j => (e * i + j, bs.getD j 0)
    match lost with
    | some j => (mine ++ xs, (List.range e).map (e * i + ·) ++ ls, some (va + wd j), s)
    | none => (mine ++ xs, ls, first, s)

/-- The bytes a vector's words hold before the load: those of an empty or lost word are open. Log entry 8 (DESIGN CHOICE). -/
def State.oldBytes (s : State) (v : Nat) : List Byte :=
  (List.range 32).flatMap fun k =>
    let c := s.cell (s.phys (32 * v + k))
    wordBytes (if c.isFull then c.data else s.openWord k)

/-- A byte list with positions replaced. -/
def patch (bs : List Byte) (l : List (Nat × Byte)) : List Byte :=
  l.foldl (fun (b : List Byte) (x : Nat × Byte) => b.set x.1 x.2) bs

/-- The lanes of a load performed and bound. -/
def State.loadLanes (s : State) (t : Ty) (nud v : Nat) (lanes : List (Nat × Word)) : Res State := do
  let e := t.bytes
  let (l, s) ← s.openLanes .read e lanes
  let s ← s.lanesMeet .read l
  let old := s.oldBytes v
  let (xs, ls, first, s) := s.readLanes e nud l
  let vals := vecVals (patch old xs) fun i => ls.contains i
  match first with
  | none => s.bindVec v vals (memInfo 0 3 0 ((lanes.headD (0, 0)).2))
  | some a => s.bindVec v vals (memInfo 0 3 0 a)

/-- The lanes of a store performed in ascending order. -/
def State.storeLanes (s : State) (t : Ty) (nud : Nat) (ws : List Word) (lanes : List (Nat × Word)) : Res State := do
  let e := t.bytes
  let (l, s) ← s.openLanes .write e lanes
  let s ← s.lanesMeet .write l
  let bs := ws.flatMap wordBytes
  let s ← s.logPieces (allPieces l)
  .ok (l.foldl (fun s (x : Nat × Word × List Piece) => s.writePieces x.2.2 ((bs.drop (e * x.1)).take e) nud) s)

/-- The optional lane mask. -/
def State.takeMask (s : State) : Option Src → Option Word × State
  | some x => let (v, s) := s.take x.name; (some v, s)
  | none => (none, s)

/-- The addresses of LDVS and STVS. -/
def strideVa (b st : Word) (i : Nat) : Word := b + wd i * st

/-- The addresses of LDVX and STVX. -/
def indexVa (t : Ty) (b : Word) (ix : List Word) (i : Nat) : Word :=
  let e := t.bytes
  let v : Int := if e = 8 then sextI (ix.getD i 0).toNat 64 else sextI (bits (ix.getD (i / 2) 0) (32 * (i % 2) + 31) (32 * (i % 2))) 32
  b + wdI (v * (e : Int))

/-- LDVS (R245). -/
def execLdvs (g : Guard) (x : VStride) (s : State) : Out :=
  run (.ldvs g x) g (fun c s => do
    s.prepare c ([srcOpr x.a, srcOpr x.b] ++ optOpr x.m ++ [.vdst x.v.val])
    let (b, s) := s.take x.a.name
    let (st, s) := s.take x.b.name
    let (m, s) := s.takeMask x.m
    s.loadLanes x.t x.nud.val x.v.val (activeLanes x.t.bytes m (strideVa b st))) s

/-- STVS (R245): vD is read in mode 0. -/
def execStvs (g : Guard) (x : VStride) (s : State) : Out :=
  run (.stvs g x) g (fun c s => do
    s.prepare c ([srcOpr x.a, srcOpr x.b] ++ optOpr x.m ++ [.vsrc x.v.val false])
    let (b, s) := s.take x.a.name
    let (st, s) := s.take x.b.name
    let (m, s) := s.takeMask x.m
    let (ws, s) := s.takeVec x.v.val
    s.storeLanes x.t x.nud.val ws (activeLanes x.t.bytes m (strideVa b st))) s

/-- LDVX (R245): the indices are read before vD is marked empty. -/
def execLdvx (g : Guard) (x : VIndex) (s : State) : Out :=
  run (.ldvx g x) g (fun c s => do
    s.prepare c ([srcOpr x.a, vsrcOpr x.b] ++ optOpr x.m ++ [.vdst x.v.val])
    let (b, s) := s.take x.a.name
    let (ix, s) := s.takeVec x.b.v.val
    let (m, s) := s.takeMask x.m
    s.loadLanes x.t x.nud.val x.v.val (activeLanes x.t.bytes m (indexVa x.t b ix))) s

/-- STVX (R245). -/
def execStvx (g : Guard) (x : VIndex) (s : State) : Out :=
  run (.stvx g x) g (fun c s => do
    s.prepare c ([srcOpr x.a, vsrcOpr x.b] ++ optOpr x.m ++ [.vsrc x.v.val false])
    let (b, s) := s.take x.a.name
    let (ix, s) := s.takeVec x.b.v.val
    let (m, s) := s.takeMask x.m
    let (ws, s) := s.takeVec x.v.val
    s.storeLanes x.t x.nud.val ws (activeLanes x.t.bytes m (indexVa x.t b ix))) s

/-! ### LDP (R41, R246) -/

/-- LDP: bytes beyond the window read 0 and are never translated. -/
def execLdp (g : Guard) (x : LdpArgs) (s : State) : Out :=
  run (.ldp g x) g (fun c s => do
    s.prepare c (optOpr x.c ++ [.dst x.d])
    let (b, s) := s.takeOpt 0 x.c
    let off := b + wdI x.off.toInt
    let base := mget 0 s.regs.pwb x.k.val
    let lim := mget 0 s.regs.pwl x.k.val
    let n := x.t.bytes
    need (bit lim 63) cPARAM (wd x.k.val)
    need (off.toNat % n = 0) cALIGN (memInfo 0 3 2 (base + off))
    let inside := min n (bits lim 39 0 - off.toNat)
    let (bs, lost, s) ← if inside = 0 then .ok (([], none, s) : List Byte × Option Nat × State) else do
      let (ps, s) ← s.plainAccess s.who .read (base + off) inside n
      .ok (s.loadBytes ps x.nud.val)
    let s := if inside < n then s.setStat 8 8 1 else s
    s.landLoad x.d x.t bs lost (base + off)) s

/-! ### PREF and FLUSH (R247) -/

/-- A prefetch of the line of va: dropped on any failure and on memory that is not cached; every missing sector is fetched. At an absent page,
of which R247 and R410 do not speak, the pull begins and the prefetch is dropped. Log entry 66 (DESIGN CHOICE). -/
def State.prefetch (s : State) (va : Word) (touch : State → Loc → State) : State :=
  match s.translate s.who .read va with
  | .error (.absent page) => s.beginPull page
  | .error _ => s
  | .ok (l, s) =>
    if l.what = .memory && l.mt = 0 then touch s l else s

/-- The body of PREF. -/
def prefBody (x : PrefArgs) (touch : State → Loc → State) (c : Ctx) (s : State) : Res State := do
  s.prepare c [.src x.a false]
  let (b, s) := s.take x.a
  .ok (s.prefetch (b + wdI x.off.val) touch)

/-- Every byte that the RDC lacks of a remote line that it holds is fetched (R51). -/
def State.fetchWhole (s : State) (l : Loc) : State := if l.remote then s.fetchRdc (l.key / 128 * 128) allBytes else s

/-- PREF into one level (R247). -/
def State.prefetchAt (s : State) (l : Loc) (lv : Lv) (nud : Nat) : State :=
  (s.touch lv (l.key / 128 * 128) nud (s.classTag l) allBytes 0 false).1

/-- PREF into the L1 and the levels between (R247). -/
def execPref (g : Guard) (x : PrefArgs) (s : State) : Out :=
  run (.pref g x) g (prefBody x fun s l => (s.touchCore l x.nud.val allBytes 0 false).fetchWhole l) s

/-- PREF.l2: into the home L2 or the RDC (R247). -/
def execPrefL2 (g : Guard) (x : PrefArgs) (s : State) : Out :=
  run (.prefL2 g x) g (prefBody x fun s l => (s.prefetchAt l l.below x.nud.val).fetchWhole l) s

/-- PREF.msc: into the line's MSC (R247). -/
def execPrefMsc (g : Guard) (x : PrefArgs) (s : State) : Out :=
  run (.prefMsc g x) g (prefBody x fun s l => s.prefetchAt l .msc x.nud.val) s

/-- FLUSH of the line of va: only V = 1 is needed. -/
def State.flushLine (s : State) (va : Word) (mem : Bool) : Res State :=
  if s.optimistic then optMem va
  else match s.translate s.who .any va with
    | .error m => .error (s.missStop .any (m, va))
    | .ok (l, s) =>
      if l.what ≠ .memory then .ok s
      else
        let line := l.key / 128 * 128
        let s := s.purge line
        .ok (if mem then (s.updLine .l2 line fun l => { l with dirty := 0 }).updLine .msc line fun l => { l with dirty := 0 } else s)

/-- The body of FLUSH. -/
def flushBody (x : FlushArgs) (mem : Bool) (c : Ctx) (s : State) : Res State := do
  s.prepare c [.src x.a false]
  let (b, s) := s.take x.a
  s.flushLine (b + wdI x.off.val) mem

/-- FLUSH (R247). -/
def execFlush (g : Guard) (x : FlushArgs) (s : State) : Out := run (.flush g x) g (flushBody x false) s

/-- FLUSH.mem (R247). -/
def execFlushMem (g : Guard) (x : FlushArgs) (s : State) : Out := run (.flushMem g x) g (flushBody x true) s

/-! ### WAITLN (R248) -/

/-- The dirty bytes of the die's RDC for a line are written home; the copies stay, clean. -/
def State.cleanLine (s : State) (line : Nat) : State := (s.sendHome line).markClean [line]

/-- Cycles a WAITLN or BARWAIT spins before it parks (R249). -/
def State.spin (s : State) : Nat := 64 * bits s.regs.wlctl 15 0

/-- The wait on a line that began, if the core is in one. -/
def State.lineWait (s : State) (key : Nat) : Option Wait :=
  match s.core.wait with
  | some w => if w.on = .line key then some w else none
  | none => none

/-- Wait on a line from now, or on, its last write seen. -/
def State.waitLine {α : Type} (s : State) (key : Nat) : Res α :=
  let since := match s.lineWait key with
    | some w => w.since
    | none => s.cyc
  .error (.waitIn { s with core := { s.core with wait := some { on := .line key, since := since } } } (.line key))

/-- What WAITLN finds at a place, and the first lost byte: the bytes at their home, which the dirty bytes of the die's RDC reach first; what
answers through the host window is open. Log entry 8 (DESIGN CHOICE). -/
def State.probe (s : State) (l : Loc) (n : Nat) : List Byte × Option Nat × State :=
  match l.what with
  | .memory => let s := s.cleanLine (l.key / 128 * 128); (s.homeBytes l.key n, s.homeLost l.key n, s)
  | .store => (s.homeBytes l.key n, s.homeLost l.key n, s)
  | _ => s.readPiece { loc := l, off := 0, len := n } 0

/-- The line that a WAITLN watches: one of the host window is none of memory. -/
def Loc.watched (l : Loc) : Nat := if l.what = .host then 2 ^ 61 + l.key / 128 * 128 else l.key / 128 * 128

/-- WAITLN: it probes when it begins, when the line has been written, and when its spin time is over. -/
def execWaitln (g : Guard) (x : WaitArgs) (s : State) : Out :=
  run (.waitln g x) g (fun c s => do
    s.prepare c [.src x.a false, .src x.d false]
    let (b, s) := s.take x.a
    let (v, s) := s.take x.d
    let va := b + wdI x.off.val
    let n := x.t.bytes
    if s.optimistic then optMem va else .ok ()
    aligned .read va n
    match s.translate (s.who true) .read va with
    | .error m => .error (s.missStop .read (m, va))
    | .ok (l, s) =>
      match s.lineWait l.watched with
      | some ⟨_, _, false⟩ => .error (.wait (.line l.watched))
      | _ => match s.probe l n with
        | (_, some j, _) => .error (.trap cMEMLOST (lostInfo .read va j))
        | (bs, none, s) => if ofBytes bs ≠ zext v (8 * n) then .ok s else s.waitLine l.watched) s

/-- BARWAIT (R254): it passes as an acquire that reads the record, as an atomic does at its place (R111, R112). -/
def execBarwait (g : Guard) (x : BarDA) (s : State) : Out :=
  run (.barwait g x) g (fun c s0 => do
    s0.checkScope c x.sc
    s0.prepare c ([srcOpr x.a] ++ scopeOpr x.sc ++ [.src x.d false])
    let (va, s) := s0.take x.a.name
    let (v, s) := s.takeScope x.sc
    let (d, s) := s.take x.d
    let width := s.scopeWidth v
    let (r, p, s) ← s.openBar va width false
    if !r.v then barStop 3 va
    else if r.flt then barStop 1 va
    else if r.phase = bits d 15 0 then s.waitLine (p.loc.key / 128 * 128)
    else (((s.atomicDo p none width 0).dropMail [p]).acquire (max width ((s.mailHit [p]).getD 0))).record [p] true false true (width ≠ 0)) s

/-- The core's wait on a line, if its spin time is over and the line has not been written since it last looked (R248). -/
def State.spun (s : State) : Option (Nat × Wait) :=
  match s.core.wait with
  | some w => match w.on with
    | .line key => if w.since + s.spin ≤ s.cyc && !w.hit then some (key, w) else none
    | _ => none
  | none => none

/-- Whether a waiting WAITLN or BARWAIT may park its task (R163, R167, R248). Log entry 32 (DEDUCED). -/
def State.mayPark (s : State) (t : Task) : Bool :=
  s.mode = 0 && !s.queuesLive && !s.forerunner && s.regs.wl ≤ classSize t.cls && !s.poolFull t.cls
    && (match s.windowDrained t with
      | .ok _ => true
      | .error _ => false)

/-- The task parks at self scope, saving its window (R248). The watch table of 16 entries is counted by the tasks that wait parked in it: a
wait that spins learns of writes whatever the table holds. Log entry 67 (DESIGN CHOICE). -/
def State.parkLine (s : State) (t : Task) (key : Nat) (inRing : Bool) : State :=
  let watched := (s.sched.parked.filter fun p => match p.on with
    | .line _ _ => true
    | _ => false).length
  let s := s.closeRegion
  let desc := mkDesc s.regs.wb s.regs.wl (rpcOf s.pc s.codeBase) false false false
  let p := s.saveTask t s.regs.wb s.regs.wl desc (if watched < 16 then .line key s.cyc else .timer s.cyc) (wd (fld 1 32)) inRing
  s.parkTask t p

/-- The spin time of a waiting WAITLN or BARWAIT is over: the task parks, or the instruction looks again (R248). -/
def execWaitlnSpinTimeout (s : State) : Out :=
  match s.spun, s.sched.task with
  | some (key, w), some t =>
    match if s.mayPark t then s.parkRoom s.regs.wl else none with
    | some inRing => (s.parkLine t key inRing).done
    | none => ({ s with core := { s.core with wait := some { w with hit := true } } }).done
  | _, _ => s.done

/-- The k-th parked WAITLN or BARWAIT. -/
def State.parkedLine (s : State) (k : Nat) : Option Parked :=
  (s.sched.parked.filter fun p => match p.on with
    | .line _ _ => true
    | .timer _ => true
    | _ => false)[k]?

/-- The line a parked task watches has been written: it resumes (R248). -/
def execWaitlnLineWritten (k : Nat) (s : State) : Out :=
  match s.parkedLine k with
  | some p => (if p.hit then s.releaseParked p.id else s).done
  | none => s.done

/-- When a parked WAITLN or BARWAIT gives up waiting (R248). -/
def Parked.timedOut (p : Parked) (cyc : Nat) : Bool :=
  match p.on with
  | .line _ since => since + 65536 ≤ cyc
  | .timer since => since + 65536 ≤ cyc
  | _ => false

/-- The 65,536 cycles of a parked task are over: it resumes (R248). -/
def execWaitlnParkTimeout (k : Nat) (s : State) : Out :=
  match s.parkedLine k with
  | some p => (if p.timedOut s.cyc then s.releaseParked p.id else s).done
  | none => s.done

/-! ### SLEEP (R129, R250) -/

/-- SLEEP: until CYC reaches word(A). -/
def execSleep (g : Guard) (a : Name) (s : State) : Out :=
  run (.sleep g a) g (fun c s => do
    s.prepare c [.src a false]
    let (v, s) := s.take a
    if v.toNat ≤ s.cyc then .ok s else .error (.wait (.sleep v))) s

/-- SLEEP.prom: until the completion word fills, or the promise is missed. -/
def execSleepProm (g : Guard) (a : Name) (s : State) : Out :=
  run (.sleepProm g a) g (fun c s => do
    s.checkField (.run a 2 false)
    s.noOpt c
    let p := s.phys a.num
    let (t, s) ← s.readPhys p
    match s.cell (p + 1) with
    | .empty =>
      if t.toNat ≤ s.cyc then .error (.trap cPROMISE (winInfo 1 p a.num)) else .error (.wait (.sleepProm t (p + 1)))
    | _ => do
      let (_, s) ← s.readPhys (p + 1)
      .ok s) s

/-- A wait of the core ends where it is due, so that its instruction looks again. -/
def State.wake (s : State) (due : WaitOn → Bool) : State :=
  match s.core.wait with
  | some w => if due w.on then { s with core := { s.core with wait := none } } else s
  | none => s

/-- CYC reaches the target of the SLEEP the core waits in (R250). -/
def execSleepWake (s : State) : Out :=
  (s.wake fun o => match o with
    | .sleep u => u.toNat ≤ s.cyc
    | _ => false).done

/-- The promise of the SLEEP.prom that the core waits in is missed: CYC has reached it, and the completion word is still empty (R129, R250):
where that word lies. -/
def State.missed (s : State) : Option Nat :=
  match s.core.wait with
  | some w => match w.on with
    | .sleepProm u p => if u.toNat ≤ s.cyc && s.cell p = .empty then some p else none
    | _ => none
  | none => none

/-- CYC reaches the promise of the SLEEP.prom the core waits in, and the transfer has not completed: PROMISE is taken, before the transfer can
complete (R129, R250). -/
def execPromise (s : State) : Out :=
  match s.missed with
  | some p => (s.takeTrap cPROMISE (winInfo 1 (p - 1) (p - 1 - s.regs.wb)) s.pc).done
  | none => s.done

end Sys2Proof.Machine
end

