-- ==== Sys2Proof/Machine/Agenda.lean ====
section
/-! DEFINITION. What happens next (log entry 3): a due event of the outside, or of another core; what the core takes at a boundary (R392); an
event of a unit that is due, or the core's next instruction. Where several are due, a free value picks. -/
namespace Sys2Proof.Machine

/-- What a step does. -/
inductive Act where
  /-- an event of the outside, and those that stay for later -/
  | input (i : Instr) (rest : List (Nat × Instr))
  /-- an event of the core's own or of a unit -/
  | event (i : Instr)
  /-- what another core does, and what stays for later -/
  | peer (p : Peer) (rest : List (Nat × Peer))
  /-- a drained operation is reissued, and those after it -/
  | reissue (i : Instr) (rest : List Instr)
  /-- a sector that no link carries home any more is lost -/
  | lost (pa : Nat)
  /-- the oldest pending MACHINE report is taken -/
  | report
  /-- the instruction at the pc -/
  | instr
  /-- time passes -/
  | nothing
  deriving DecidableEq, Repr

/-! ### Events of the outside -/

/-- An arrival that a rollback holds back (R363, R368). Log entry 4 (DESIGN CHOICE). -/
def State.heldBack (s : State) : Instr → Bool
  | .optimisticArrival x => s.rollbackWaits (x.key.getD infKey) false
  | .antiMessageArrival k => s.rollbackWaits k true
  | _ => false

/-- While the module is off, it learns of nothing but the controller's order to leave M3 (R440). Log entry 47 (DEDUCED). -/
def State.deaf (s : State) : Instr → Bool
  | .powerState _ => false
  | _ => s.sys.power = 3

/-- The stream in whose order an event happens: optimistic messages (R364), what the host sends (R122), the requests of another device (R120,
R435), the frames of a queue (R327). Log entry 4 (DESIGN CHOICE). -/
def stream : Instr → Option Nat
  | .optimisticArrival _ | .antiMessageArrival _ => some 257
  | .hostWrite _ | .hostRead _ | .hostBoundary _ | .hostBar0Access _ _ _ _ => some 256
  | .fabricAccess dev _ => some dev
  | .frameReceived q _ _ => some (258 + q)
  | _ => none

/-- Whether later events of its stream stay behind it: a host read is overtaken (R122). Log entry 4 (DESIGN CHOICE). -/
def ordered : Instr → Bool
  | .hostRead _ => false
  | .hostBoundary x => x.write
  | .hostBar0Access _ _ write _ => write
  | _ => true

/-- The first event that is due, none before an earlier one of its stream; `behind` are the streams met before. Log entry 4 (DESIGN CHOICE). -/
def State.dueInput (s : State) (behind : List Nat) : List (Nat × Instr) → Option (Instr × List (Nat × Instr))
  | [] => none
  | (t, i) :: l =>
    let wait := s.heldBack i || s.deaf i || (match stream i with
      | some k => behind.contains k
      | none => false)
    if t ≤ s.ticks && !wait then some (i, l)
    else
      let behind := if ordered i then (stream i).toList ++ behind else behind
      (s.dueInput behind l).map fun x => (x.1, (t, i) :: x.2)

/-- An event that could not be served yet is kept, and those of its stream behind it. Log entry 4 (DESIGN CHOICE). -/
def keepInput (i : Instr) : Out → Out
  | .next t => .next (if t.retry then { t with retry := false, inputs := (t.ticks + 8, i) :: t.inputs } else t)
  | o => o

/-- The first thing another core does that is due. Log entry 26 (DESIGN CHOICE). Log entry 4 (DESIGN CHOICE). -/
def State.duePeer (s : State) : List (Nat × Peer) → Option (Peer × List (Nat × Peer))
  | [] => none
  | (t, p) :: l => if t ≤ s.ticks then some (p, l) else (s.duePeer l).map fun x => (x.1, (t, p) :: x.2)

/-! ### What the core takes before its next instruction -/

/-- The module is on and has booted (R439, R440), and the partition runs. Log entry 27 (DEDUCED). Log entry 47 (DEDUCED). -/
def State.live (s : State) : Bool := !s.sys.halted && s.sys.power ≠ 3 && 5 ≤ s.sys.bootStep

/-- The task's entry or resume point may issue. Log entry 27 (DEDUCED). -/
def State.entered (s : State) : Bool :=
  match s.sched.task with
  | some t => t.entered || s.mode = 2
  | none => false

/-- What goes before anything else of the core and its units: operations that GO reissues (R422), a write-back that a link has lost (R135), a
boundary that a full region table owes (R85, R119), MACHINE (R392), a missed promise (R129). Log entry 53 (DEDUCED). -/
def State.firstAct (s : State) : Option Act :=
  match s.sys.reissue, s.mem.unsent with
  | i :: rest, _ => some (.reissue i rest)
  | [], pa :: _ => some (.lost pa)
  | [], [] =>
    if s.core.tableHit then some (.event .regionTableEviction)
    else if s.machineDue then some .report
    else if s.missed.isSome then some (.event .promise)
    else none

/-- BUDGET (R392); a high record of forerunner mode (R168). Log entry 27 (DEDUCED). -/
def State.boundaryEvent (s : State) : Option Instr :=
  if s.budgetDue && s.entered then some .budget
  else if s.highDue && s.sched.task.isSome then some .dispatch
  else none

/-- The core issues instructions. Log entry 27 (DEDUCED). -/
def State.issues (s : State) : Bool := s.entered && (!s.core.idle || s.work.isSome)

/-! ### Events of the units -/

/-- An event, if its condition holds. -/
def onlyIf (b : Bool) (i : Instr) : List Instr := if b then [i] else []

/-- The positions of a list's elements that meet a condition. -/
def positions {α : Type} (l : List α) (p : α → Bool) : List Nat :=
  (List.range l.length).filter fun k => match l[k]? with
    | some x => p x
    | none => false

/-- The message at the head of those in flight. -/
def State.flyingEvent (s : State) : List Instr :=
  match s.sched.flying with
  | [] => []
  | f :: _ =>
    let i : Instr := match f.anti with
      | some k => .antiMessageArrival k
      | none => if f.d.key.isSome then .optimisticArrival f.d else .recordDelivery f.d
    onlyIf (!s.heldBack i) i

/-- The dispatcher has something to do (R348, R394, R395). -/
def State.dispatches (s : State) : Bool :=
  match s.sched.task with
  | some t => t.restoreArea.isSome && s.mode ≠ 2 && s.muIdle
  | none => if bit s.preemptReg 0 then s.sched.low.isSome else s.work.isSome || (s.sched.stealWait.isNone && !s.forerunner)

/-- A footprint, or a PROC entry, is still to be placed (R161, R359). -/
def State.footprintDue (s : State) : Bool :=
  match s.sched.task with
  | some t => s.mode ≠ 2 && (!t.placing.isEmpty || t.proc)
  | none => false

/-- The unit has a command it can work on (R304). Log entry 49 (DESIGN CHOICE). -/
def State.grantDue (s : State) : Bool :=
  match s.mu.run with
  | some c => c.done.isNone && c.sent.isNone
  | none => (s.nextCommand).isSome

/-- A finished command's token; an MROT that has waited 2^24 cycles (R289, R297). Log entry 49 (DESIGN CHOICE). -/
def State.muEvents (s : State) : List Instr :=
  match s.mu.run with
  | some c =>
    onlyIf c.done.isSome .matrixTokenFill ++ onlyIf (c.done.isNone && (match c.sent with
      | some t => t + 2 ^ 24 ≤ s.cyc
      | none => false)) .rotlate
  | none => []

/-- A sleeping core's target or promise is reached (R250). -/
def State.sleepEvents (s : State) : List Instr :=
  match s.core.wait with
  | some w => (match w.on with
    | .sleep u => onlyIf (u.toNat ≤ s.cyc) .sleepWake
    | _ => [])
  | none => []

/-- Parked WAITLN and BARWAIT tasks whose line has been written, or whose time is over (R248). -/
def State.lineEvents (s : State) : List Instr :=
  let l := s.sched.parked.filter fun p => match p.on with
    | .line _ _ => true
    | .timer _ => true
    | _ => false
  (positions l fun (p : Parked) => p.hit).map .waitlnLineWritten
    ++ (positions l fun (p : Parked) => p.timedOut s.cyc).map .waitlnParkTimeout

/-- Channels with a chain to walk (R261). -/
def State.channelEvents (s : State) : List Instr :=
  (s.eng.chans.filter fun x => x.2.waiting.isSome || (x.2.en && !x.2.halt && (x.2.walk ≠ 0 || !x.2.kicks.isEmpty))).map fun x => .transferRecord (x.1 / 16) (x.1 % 16)

/-- Queues whose engine has something to do (R340 to R342): roots, a launch to read or to end, a page to pull, or a head launch. -/
def State.launchEvents (s : State) : List Instr :=
  let turn := s.rootQueue
  ((List.range 16).filter fun q => turn = some q || (s.readingLaunch q).isSome || (s.endingLaunch q).isSome || (s.launchPull q).isSome
    || s.startable q).map .launchStart

/-- A report is due at every interval, once the key of the last one is installed (R365). -/
def State.reportDue (s : State) : Bool := s.opt.reported.isNone && s.opt.reportAt ≠ s.gvtInterval

/-- The reduction, once every core of the partition has reported (R365); in system-GVT mode it runs over the fabric too.
Log entry 31 (DEDUCED). -/
def State.installEvent (s : State) : List Instr :=
  match s.opt.reported, s.opt.peerKey with
  | some own, some k => onlyIf (!bit s.sched.gvtctl 63) (.gvtInstall (Key.min k own))
  | _, _ => []

/-- The slice controller has something to do (R405, R407): a slice is over, or, once every core holds still, commands are still to stop or the
switch is due. -/
def State.sliceDue (s : State) : Bool :=
  if s.sys.draining.isNone then s.sliceOver
  else s.allAcked && (s.drained || (s.mu.run.toList ++ s.mu.queue).any fun c => !c.stop && !c.op.isSave)

/-- Everything of the units that is due; a strict partition's lanes are served in its slots of the gather engines (R414).
Log entry 3 (DESIGN CHOICE). -/
def State.offers (s : State) : List Instr :=
  (List.range s.landing.length).map .bindingLand
    ++ (positions s.mem.lines fun (l : Line) => l.dueE s.unitTime).map .ageingSweep
    ++ onlyIf ((s.eng.gather.any fun g => !g.served) && s.slotOpen (bits s.sys.strictsh 5 0)) .gatherEngineServe
    ++ onlyIf (s.eng.gather.any fun g => g.served) .gatherTokenFill
    ++ onlyIf (s.eng.acopy.any fun a => !a.accepted) .acopyAccept
    ++ onlyIf (s.eng.acopy.any fun a => a.accepted) .acopyComplete
    ++ s.channelEvents
    ++ onlyIf s.grantDue .matrixGrant
    ++ s.muEvents
    ++ s.sleepEvents
    ++ onlyIf s.spun.isSome .waitlnSpinTimeout
    ++ s.lineEvents
    ++ onlyIf s.ringlock.isSome .ringlockIdle
    ++ s.flyingEvent
    ++ onlyIf (!s.sched.held.isEmpty || s.lateEntry.isSome) .overflowReoffer
    ++ onlyIf s.dispatches .dispatch
    ++ onlyIf s.footprintDue .footprintFetch
    ++ onlyIf s.holdOver .yieldHoldExpiry
    ++ onlyIf s.stealReady .stealRoundWait
    ++ s.launchEvents
    ++ onlyIf s.reportDue .gvtReport
    ++ s.installEvent
    ++ onlyIf (s.eng.io.any fun r => !r.accepted) .ioAccept
    ++ (s.eng.io.filter fun r => r.late s.cyc).map (fun (r : IoReq) => .ioTimeout r.seq)
    ++ onlyIf (s.postable.isSome || s.postPull.isSome) .eventRingOverrunWait
    ++ (s.mem.pulls.filter s.pullDead).map (fun (p : Pull) => .pullFailed p.page)
    ++ onlyIf s.sliceDue .quantumEnd
    ++ onlyIf s.drainLate .sliceLate

/-- One of what is due: an event by its place, the instruction after them all. Log entry 3 (DESIGN CHOICE). -/
def choose (n : Nat) (l : List Instr) (issues : Bool) : Act :=
  match l with
  | [] => if issues then .instr else .nothing
  | i :: is => match (i :: is)[n % (is.length + (if issues then 2 else 1))]? with
    | some e => .event e
    | none => .instr

/-- What the next step does: the end of a policing interval comes before all that follows it (R65, R66). Log entry 3 (DESIGN CHOICE). -/
def State.nextAct (s : State) : Act :=
  if s.policeInterval ≠ s.mem.policeAt then .event .policingIntervalEnd
  else match s.dueInput [] s.inputs with
  | some (i, rest) => .input i rest
  | none => match if s.sys.power = 3 then none else s.duePeer s.peers with
    | some (p, rest) => .peer p rest
    | none =>
      if !s.live then .nothing
      else match s.firstAct with
        | some a => a
        | none => match s.boundaryEvent with
          | some i => .event i
          | none => choose (Config.pick s.ticks) s.offers s.issues

end Sys2Proof.Machine
end

