-- ==== Sys2Proof/Machine/Vector.lean ====
section
/-! DEFINITION. Vector instructions, vector and scalar forms (R267 to R285), in the frame of R269: every source read in full, every lane
computed, flags or FPX, then all destination words at once. -/
namespace Sys2Proof

/-- A source field that the vector form reads as a vector and the scalar form as a word. -/
inductive VIn where
  | v (x : VSrc)
  | w (x : Src)
  deriving DecidableEq, Repr

/-- A destination field of the same kind. -/
inductive VDst where
  | v (d : Fin 64)
  | w (d : Name)
  deriving DecidableEq, Repr

def VOp1.ins : VOp1 → List VIn
  | .vec _ a => [.v a]
  | .scl _ a => [.w a]
def VOp1.dst : VOp1 → VDst
  | .vec d _ => .v d
  | .scl d _ => .w d
def VOp2.ins : VOp2 → List VIn
  | .vec _ a b => [.v a, .v b]
  | .scl _ a b => [.w a, .w b]
def VOp2.dst : VOp2 → VDst
  | .vec d _ _ => .v d
  | .scl d _ _ => .w d
def VOp3.ins : VOp3 → List VIn
  | .vec _ a b c => [.v a, .v b, .v c]
  | .scl _ a b c => [.w a, .w b, .w c]
def VOp3.dst : VOp3 → VDst
  | .vec d _ _ _ => .v d
  | .scl d _ _ _ => .w d

end Sys2Proof

namespace Sys2Proof.Machine

/-! ### Lanes (R267) -/

/-- The lanes of 32 words, each with all its bits. -/
def lanesOf (t : Ty) (ws : List Word) : List Nat :=
  if t.width = 64 then ws.map BitVec.toNat else ws.flatMap fun w => [bits w 31 0, bits w 63 32]

/-- The words of lanes. -/
def wordsOf (t : Ty) (ls : List Nat) : List Word :=
  if t.width = 64 then ls.map wd else (List.range 32).map fun k => wd (ls.getD (2 * k) 0 % 2 ^ 32 + ls.getD (2 * k + 1) 0 * 2 ^ 32)

/-- The elements of 32 words. -/
def elemsOf (t : Ty) (ws : List Word) : List Nat := (lanesOf t ws).map fun x => x % 2 ^ t.width

/-! ### The frame (R268, R269) -/

def inOpr : VIn → Opr
  | .v x => vsrcOpr x
  | .w x => srcOpr x

def dstOpr : VDst → Opr
  | .v d => .vdst d.val
  | .w d => .dst d

/-- Lanes of an operation. -/
def lanesAt (t : Ty) : VDst → Nat
  | .v _ => t.lanes
  | .w _ => 1

/-- The elements of a source. -/
def State.takeIn (s : State) (t : Ty) : VIn → List Nat × State
  | .v x => let (ws, s) := s.takeVec x.v.val; (elemsOf t ws, s)
  | .w x => let (w, s) := s.take x.name; ([tyLow t w], s)

/-- The elements of every source, in order. -/
def State.takeIns (s : State) (t : Ty) : List VIn → List (List Nat) × State
  | [] => ([], s)
  | x :: xs =>
    let (e, s) := s.takeIn t x
    let (es, s) := s.takeIns t xs
    (e :: es, s)

/-- Write results: lanes under R267, or one word under R175 and R221. -/
def State.putEls (s : State) (t : Ty) (d : VDst) (els : List Nat) : Res State :=
  match d with
  | .v d => s.writeVec d.val (wordsOf t (els.map t.lane))
  | .w d => s.write d (t.extend (els.headD 0))

/-- The OR of the flags of lanes. -/
def flagsOf (l : List (Nat × FpFlags)) : FpFlags := l.foldl (fun a x => a ||| x.2) 0

/-- Lane by lane: `f` takes the rounding, the lane's index and its elements. -/
def laneBody (t : Ty) (rm : Nat) (ins : List VIn) (d : VDst) (f : Rnd → Nat → List Nat → Nat × FpFlags)
    (c : Ctx) (s : State) : Res State := do
  s.prepare c (ins.map inOpr ++ [dstOpr d])
  let (cols, s) := s.takeIns t ins
  let res := (List.range (lanesAt t d)).map fun i => f (s.rnd c rm) i (cols.map fun l => l.getD i 0)
  let s ← s.raise (flagsOf res)
  s.putEls t d (res.map (·.1))

def lane1 (x : Vec1) (f : Rnd → Nat → Nat → Nat × FpFlags) : Ctx → State → Res State :=
  laneBody x.t x.rm.val x.o.ins x.o.dst fun r i l => f r i (l.getD 0 0)
def lane2 (x : Vec2) (f : Rnd → Nat → Nat → Nat → Nat × FpFlags) : Ctx → State → Res State :=
  laneBody x.t x.rm.val x.o.ins x.o.dst fun r i l => f r i (l.getD 0 0) (l.getD 1 0)
def lane3 (x : Vec3) (f : Rnd → Nat → Nat → Nat → Nat → Nat × FpFlags) : Ctx → State → Res State :=
  laneBody x.t x.rm.val x.o.ins x.o.dst fun r i l => f r i (l.getD 0 0) (l.getD 1 0) (l.getD 2 0)

/-! ### Element operations (R271, R272, R278) -/

/-- An element of an integer TYPE as its value (R218). -/
def elVal (t : Ty) (x : Nat) : Int := tyVal t (wd x)

/-- An integer result modulo 2^w, with no flag. -/
def intEl (t : Ty) (x : Int) : Nat × FpFlags := (modI x t.width, 0)

/-- Floating and integer arithmetic by TYPE. -/
def addEl (t : Ty) (r : Rnd) (e a b : Nat) : Nat × FpFlags :=
  if t.isInt then intEl t (elVal t a + elVal t b) else t.fadd r e (t.decode a) (t.decode b)
def subEl (t : Ty) (r : Rnd) (e a b : Nat) : Nat × FpFlags :=
  if t.isInt then intEl t (elVal t a - elVal t b) else t.fadd r e (t.decode a) (t.decode b).neg
def mulEl (t : Ty) (r : Rnd) (e a b : Nat) : Nat × FpFlags :=
  if t.isInt then intEl t (elVal t a * elVal t b) else t.fmul r e (t.decode a) (t.decode b)
def fmaEl (t : Ty) (r : Rnd) (e a b c : Nat) : Nat × FpFlags :=
  if t.isInt then intEl t (elVal t a * elVal t b + elVal t c) else t.ffma r e (t.decode a) (t.decode b) (t.decode c)
def fmsEl (t : Ty) (r : Rnd) (e a b c : Nat) : Nat × FpFlags :=
  if t.isInt then intEl t (elVal t a * elVal t b - elVal t c) else t.ffma r e (t.decode a) (t.decode b) (t.decode c).neg

/-- VMIN and VMAX of two elements (R272). -/
def minmaxEl (t : Ty) (isMax : Bool) (a b : Nat) : Nat × FpFlags :=
  if t.isInt then intEl t (if isMax then max (elVal t a) (elVal t b) else min (elVal t a) (elVal t b)) else t.fminmax isMax a b

/-- VABS and VNEG (R271): sign operations on floating types. -/
def absEl (t : Ty) (a : Nat) : Nat × FpFlags := if t.isInt then (absT t a, 0) else (a % 2 ^ (t.width - 1), 0)
def negEl (t : Ty) (a : Nat) : Nat × FpFlags :=
  if t.isInt then intEl t (-(elVal t a)) else (a ^^^ 2 ^ (t.width - 1), 0)

/-- A row of R218 on elements (R278). -/
def viaWords (t : Ty) (f : Ty → Word → Word → Nat) (a b : Nat) : Nat × FpFlags := (f t (wd a) (wd b), 0)

/-! ### Majors 0x30 and 0x31 -/

/-- VADD (R271). -/
def execVadd (g : Guard) (x : Vec2) (s : State) : Out := run (.vadd g x) g (lane2 x (addEl x.t)) s

/-- VSUB (R271). -/
def execVsub (g : Guard) (x : Vec2) (s : State) : Out := run (.vsub g x) g (lane2 x (subEl x.t)) s

/-- VMUL (R271). -/
def execVmul (g : Guard) (x : Vec2) (s : State) : Out := run (.vmul g x) g (lane2 x (mulEl x.t)) s

/-- VFMA (R271). -/
def execVfma (g : Guard) (x : Vec3) (s : State) : Out := run (.vfma g x) g (lane3 x (fmaEl x.t)) s

/-- VFMS (R271). -/
def execVfms (g : Guard) (x : Vec3) (s : State) : Out := run (.vfms g x) g (lane3 x (fmsEl x.t)) s

/-- VDIV (R273). -/
def execVdiv (g : Guard) (x : Vec2) (s : State) : Out :=
  run (.vdiv g x) g (lane2 x fun r e a b => x.t.fdiv r e (x.t.decode a) (x.t.decode b)) s

/-- VMIN (R272). -/
def execVmin (g : Guard) (x : Vec2) (s : State) : Out := run (.vmin g x) g (lane2 x fun _ _ a b => minmaxEl x.t false a b) s

/-- VMAX (R272). -/
def execVmax (g : Guard) (x : Vec2) (s : State) : Out := run (.vmax g x) g (lane2 x fun _ _ a b => minmaxEl x.t true a b) s

/-- VABS (R271). -/
def execVabs (g : Guard) (x : Vec1) (s : State) : Out := run (.vabs g x) g (lane1 x fun _ _ a => absEl x.t a) s

/-- VNEG (R271). -/
def execVneg (g : Guard) (x : Vec1) (s : State) : Out := run (.vneg g x) g (lane1 x fun _ _ a => negEl x.t a) s

/-- VSQRT (R273). -/
def execVsqrt (g : Guard) (x : Vec1) (s : State) : Out := run (.vsqrt g x) g (lane1 x fun r e a => x.t.fsqrt r e (x.t.decode a)) s

/-- VRSQ (R274). -/
def execVrsq (g : Guard) (x : Vec1) (s : State) : Out := run (.vrsq g x) g (lane1 x x.t.frsq) s

/-- VEXP2 (R274). -/
def execVexp2 (g : Guard) (x : Vec1) (s : State) : Out := run (.vexp2 g x) g (lane1 x x.t.fexp2) s

/-- VLOG2 (R274). -/
def execVlog2 (g : Guard) (x : Vec1) (s : State) : Out := run (.vlog2 g x) g (lane1 x x.t.flog2) s

/-- VLADD (R275). -/
def execVladd (g : Guard) (x : Vec2) (s : State) : Out := run (.vladd g x) g (lane2 x l6Add) s

/-! ### Compares, selection, masks (R276, R277) -/

/-- The sum of 2^i over the lanes that hold. -/
def maskOf (l : List Bool) : Word := wd (l.foldr (fun b a => b.toNat + 2 * a) 0)

/-- A comparison of lanes into a word. -/
def vcmpBody (cc : Cc) (x : VCmpArgs) (c : Ctx) (s : State) : Res State := do
  let (t, d, ins) := match x with
    | .vec t d a b => (t, d, [VIn.v a, .v b])
    | .scl t d a b => (t, d, [VIn.w a, .w b])
  s.prepare c (ins.map inOpr ++ [.dst d])
  let (cols, s) := s.takeIns t ins
  let res := (List.zip (cols.getD 0 []) (cols.getD 1 [])).map fun p => t.compare cc p.1 p.2
  let s ← s.raise (res.foldl (fun a y => a ||| y.2) 0)
  s.write d (maskOf (res.map (·.1)))

/-- VCMP.EQ (R276). -/
def execVcmpEq (g : Guard) (x : VCmpArgs) (s : State) : Out := run (.vcmpEq g x) g (vcmpBody .eq x) s

/-- VCMP.NE (R276). -/
def execVcmpNe (g : Guard) (x : VCmpArgs) (s : State) : Out := run (.vcmpNe g x) g (vcmpBody .ne x) s

/-- VCMP.LT (R276). -/
def execVcmpLt (g : Guard) (x : VCmpArgs) (s : State) : Out := run (.vcmpLt g x) g (vcmpBody .lt x) s

/-- VCMP.LE (R276). -/
def execVcmpLe (g : Guard) (x : VCmpArgs) (s : State) : Out := run (.vcmpLe g x) g (vcmpBody .le x) s

/-- VCMP.GT (R276). -/
def execVcmpGt (g : Guard) (x : VCmpArgs) (s : State) : Out := run (.vcmpGt g x) g (vcmpBody .gt x) s

/-- VCMP.GE (R276). -/
def execVcmpGe (g : Guard) (x : VCmpArgs) (s : State) : Out := run (.vcmpGe g x) g (vcmpBody .ge x) s

/-- VCMP.UN (R276). -/
def execVcmpUn (g : Guard) (x : VCmpArgs) (s : State) : Out := run (.vcmpUn g x) g (vcmpBody .un x) s

/-- VSEL (R277): bit i of word(C) takes lane i from A. Log entry 25 (DEDUCED). -/
def execVsel (g : Guard) (x : VSelArgs) (s : State) : Out :=
  run (.vsel g x) g (fun c s => do
    let (t, d, ins, m) := match x with
      | .vec t d a b m => (t, VDst.v d, [VIn.v a, .v b], m)
      | .scl t d a b m => (t, VDst.w d, [VIn.w a, .w b], m)
    s.prepare c (ins.map inOpr ++ [srcOpr m, dstOpr d])
    let (cols, s) := s.takeIns t ins
    let (k, s) := s.take m.name
    s.putEls t d ((List.range (lanesAt t d)).map fun i => (cols.getD (if bit k i then 0 else 1) []).getD i 0)) s

/-- VMASK (R277). -/
def execVmask (g : Guard) (x : VMaskArgs) (s : State) : Out :=
  run (.vmask g x) g (fun c s => do
    let (t, d, i) := match x with
      | .vec t d a => (t, d, VIn.v a)
      | .scl t d a => (t, d, VIn.w a)
    s.prepare c [inOpr i, .dst d]
    let (l, s) := s.takeIn t i
    s.write d (maskOf (l.map fun e => e ≠ 0))) s

/-- VPOPC (R277). -/
def execVpopc (g : Guard) (x : Vec1) (s : State) : Out := run (.vpopc g x) g (lane1 x fun _ _ a => (popc a x.t.width, 0)) s

/-! ### Logic and shifts (R278) -/

/-- VAND (R278). -/
def execVand (g : Guard) (x : Vec2) (s : State) : Out := run (.vand g x) g (lane2 x fun _ _ => viaWords x.t (bitOp (· &&& ·))) s

/-- VOR (R278). -/
def execVor (g : Guard) (x : Vec2) (s : State) : Out := run (.vor g x) g (lane2 x fun _ _ => viaWords x.t (bitOp (· ||| ·))) s

/-- VXOR (R278). -/
def execVxor (g : Guard) (x : Vec2) (s : State) : Out := run (.vxor g x) g (lane2 x fun _ _ => viaWords x.t (bitOp (· ^^^ ·))) s

/-- VSHL (R278). -/
def execVshl (g : Guard) (x : Vec2) (s : State) : Out :=
  run (.vshl g x) g (lane2 x fun _ _ => viaWords x.t (shiftOp fun a k _ => a * 2 ^ k)) s

/-- VSHR (R278). -/
def execVshr (g : Guard) (x : Vec2) (s : State) : Out :=
  run (.vshr g x) g (lane2 x fun _ _ => viaWords x.t (shiftOp fun a k _ => a / 2 ^ k)) s

/-- VSRA (R278). -/
def execVsra (g : Guard) (x : Vec2) (s : State) : Out := run (.vsra g x) g (lane2 x fun _ _ => viaWords x.t (shiftOp sraT)) s

/-! ### Conversions and packing (R279, R280) -/

/-- Which source lane converts to which destination lane (R279). -/
def cvtPairs (t src : Ty) (hi : Bool) : List (Nat × Nat) :=
  if t.lanes = src.lanes then (List.range t.lanes).map fun i => (i, i)
  else (List.range 32).map fun j => if src.lanes = 32 then (j, j + 32 * hi.toNat) else (j + 32 * hi.toNat, j)

/-- The vector form of VCVT. -/
def cvtVector (form : CvtForm) (t src : Ty) (rm : Nat) (d : Fin 64) (a : VSrc) (hi : Bool) (c : Ctx) (s : State) : Res State := do
  let keeps := src.lanes < t.lanes
  s.prepare c [vsrcOpr a, if keeps then .vboth d.val else .vdst d.val]
  let (ws, s) := s.takeVec a.v.val
  let (old, s) := if keeps then s.takeVec d.val else ([], s)
  let els := elemsOf src ws
  let r := s.rnd c rm
  let res := (cvtPairs t src hi).map fun p => (p.2, t.convert form r.rm (r.draw p.2) (src.decode (els.getD p.1 0)))
  let s ← s.raise (flagsOf (res.map (·.2)))
  let base := if keeps then lanesOf t old else List.replicate t.lanes 0
  s.writeVec d.val (wordsOf t (res.foldl (fun l y => l.set y.1 (t.lane y.2.1)) base))

/-- VCVT in its three forms (R279, R194). -/
def cvtBody (form : CvtForm) (x : VCvtArgs) (c : Ctx) (s : State) : Res State :=
  match x with
  | .vec t src rm d a hi => cvtVector form t src rm.val d a hi c s
  | .scl t src rm d a => do
    s.prepare c [srcOpr a, .dst d]
    let (w, s) := s.take a.name
    let r := s.rnd c rm.val
    let v := t.convert form r.rm (r.draw 0) (src.decode (tyLow src w))
    let s ← s.raise v.2
    s.write d (t.extend v.1)

/-- VCVT (R279). -/
def execVcvt (g : Guard) (x : VCvtArgs) (s : State) : Out := run (.vcvt g x) g (cvtBody .plain x) s

/-- VCVT.sat (R279). -/
def execVcvtSat (g : Guard) (x : VCvtArgs) (s : State) : Out := run (.vcvtSat g x) g (cvtBody .sat x) s

/-- VCVT.ovf (R279). -/
def execVcvtOvf (g : Guard) (x : VCvtArgs) (s : State) : Out := run (.vcvtOvf g x) g (cvtBody .ovf x) s

/-- A vector as a string of 2,048 bits (R280). -/
def bitString (ws : List Word) : Nat := ws.foldr (fun w a => w.toNat + 2 ^ 64 * a) 0

/-- Words from a string of bits. -/
def stringWords (n : Nat) : List Word := (List.range 32).map fun k => wd (n / 2 ^ (64 * k))

/-- Elements concatenated, element 0 lowest. -/
def packEls (w : Nat) (l : List Nat) : Nat := l.foldr (fun e a => e % 2 ^ w + 2 ^ w * a) 0

/-- VPACK (R280): D is read for the bits it keeps. -/
def execVpack (g : Guard) (x : VPackArgs) (s : State) : Out :=
  run (.vpack g x) g (fun c s => do
    s.prepare c [vsrcOpr x.a, .vboth x.d.val]
    let (ws, s) := s.takeVec x.a.v.val
    let (old, s) := s.takeVec x.d.val
    let o := bitString old
    let n := 64 * x.t.width
    let lo := n * x.pos.val
    s.writeVec x.d.val (stringWords (o % 2 ^ lo + (packEls x.t.width (elemsOf x.t ws) + o / 2 ^ (lo + n) * 2 ^ n) * 2 ^ lo))) s

/-- VUNPACK (R280). -/
def execVunpack (g : Guard) (x : VPackArgs) (s : State) : Out :=
  run (.vunpack g x) g (fun c s => do
    s.prepare c [vsrcOpr x.a, .vdst x.d.val]
    let (ws, s) := s.takeVec x.a.v.val
    let o := bitString ws / 2 ^ (64 * x.t.width * x.pos.val)
    s.putEls x.t (.v x.d) ((List.range 64).map fun i => o / 2 ^ (x.t.width * i) % 2 ^ x.t.width)) s

/-! ### Reductions and scans (R281, R282) -/

/-- The tree of R281 over 2^k lanes from lo on: the addition that joins at mid draws with element index mid. -/
def redTree (t : Ty) (r : Rnd) (l : List Nat) : Nat → Nat → Nat × FpFlags
  | 0, lo => (l.getD lo 0, 0)
  | k + 1, lo =>
    let mid := lo + 2 ^ k
    let x := redTree t r l k lo
    let y := redTree t r l k mid
    let z := addEl t r mid x.1 y.1
    (z.1, x.2 ||| y.2 ||| z.2)

/-- A fold of VMIN or VMAX over lanes (R281). -/
def foldLanes (t : Ty) (isMax : Bool) : List Nat → Nat × FpFlags
  | [] => (0, 0)
  | a :: l => l.foldl (fun m b => let z := minmaxEl t isMax m.1 b; (z.1, m.2 ||| z.2)) (a, 0)

/-- A reduction: `f` on the elements gives one element and flags. -/
def redBody (x : VRedArgs) (f : Rnd → List Nat → Nat × FpFlags) (c : Ctx) (s : State) : Res State := do
  s.prepare c [vsrcOpr x.a, .dst x.d]
  let (ws, s) := s.takeVec x.a.v.val
  let v := f (s.rnd c x.rm.val) (elemsOf x.t ws)
  let s ← s.raise v.2
  s.write x.d (x.t.extend v.1)

/-- VREDADD (R281). -/
def execVredadd (g : Guard) (x : VRedArgs) (s : State) : Out :=
  run (.vredadd g x) g (redBody x fun r l => redTree x.t r l (Nat.log2 x.t.lanes) 0) s

/-- VREDMAX (R281). -/
def execVredmax (g : Guard) (x : VRedArgs) (s : State) : Out := run (.vredmax g x) g (redBody x fun _ l => foldLanes x.t true l) s

/-- VREDMIN (R281). -/
def execVredmin (g : Guard) (x : VRedArgs) (s : State) : Out := run (.vredmin g x) g (redBody x fun _ l => foldLanes x.t false l) s

/-- The prefix sums of R282 from lane i on, and their flags. -/
def scanFrom (t : Ty) (r : Rnd) : Nat → Nat → List Nat → List Nat × FpFlags
  | _, _, [] => ([], 0)
  | i, acc, a :: l =>
    let z := addEl t r i acc a
    let rest := scanFrom t r (i + 1) z.1 l
    (z.1 :: rest.1, z.2 ||| rest.2)

/-- VSCAN (R282). -/
def execVscan (g : Guard) (x : VScanArgs) (s : State) : Out :=
  run (.vscan g x) g (fun c s => do
    s.prepare c [vsrcOpr x.a, srcOpr x.b, .vdst x.d.val]
    let (ws, s) := s.takeVec x.a.v.val
    let (w, s) := s.take x.b.name
    let v := scanFrom x.t (s.rnd c x.rm.val) 0 (tyLow x.t w) (elemsOf x.t ws)
    let s ← s.raise v.2
    s.putEls x.t (.v x.d) v.1) s

/-! ### Permutes and single lanes (R283 to R285) -/

/-- VPERM (R283). Log entry 25 (DEDUCED). -/
def execVperm (g : Guard) (x : VPermArgs) (s : State) : Out :=
  run (.vperm g x) g (fun c s => do
    s.prepare c [vsrcOpr x.a, vsrcOpr x.b, .vdst x.d.val]
    let (ws, s) := s.takeVec x.a.v.val
    let (is, s) := s.takeVec x.b.v.val
    let els := elemsOf x.t ws
    s.putEls x.t (.v x.d) ((lanesOf x.t is).map fun i => els.getD (i % 2 ^ 32 % x.t.lanes) 0)) s

/-- VBCAST (R283). -/
def execVbcast (g : Guard) (x : VBcastArgs) (s : State) : Out :=
  run (.vbcast g x) g (fun c s => do
    s.prepare c [srcOpr x.a, .vdst x.d.val]
    let (w, s) := s.take x.a.name
    s.putEls x.t (.v x.d) (List.replicate x.t.lanes (tyLow x.t w))) s

/-- Lane i of VSHUF (R284): kind, K, the lanes of A and B. -/
def shufEl (n kind k : Nat) (a b : List Nat) (i : Nat) : Nat :=
  let h := n / 2
  match kind % 4 with
  | 0 => if i + k % n < n then a.getD (i + k % n) 0 else b.getD (i + k % n - n) 0
  | 1 => if i % 2 = 0 then a.getD (i / 2) 0 else b.getD ((i - 1) / 2) 0
  | 2 => if i % 2 = 0 then a.getD (h + i / 2) 0 else b.getD (h + (i - 1) / 2) 0
  | _ => if i < h then a.getD (2 * i + k % 2) 0 else b.getD (2 * (i - h) + k % 2) 0

/-- VSHUF (R284). -/
def execVshuf (g : Guard) (x : VShufArgs) (s : State) : Out :=
  run (.vshuf g x) g (fun c s => do
    s.prepare c [vsrcOpr x.a, vsrcOpr x.b, srcOpr x.c, .vdst x.d.val]
    let (as, s) := s.takeVec x.a.v.val
    let (bs, s) := s.takeVec x.b.v.val
    let (w, s) := s.take x.c.name
    s.putEls x.t (.v x.d)
      ((List.range x.t.lanes).map (shufEl x.t.lanes (bits w 7 6) (bits w 5 0) (elemsOf x.t as) (elemsOf x.t bs)))) s

/-- VMOV (R283): the vector form copies the words, the scalar form acts as MOV. Log entry 25 (DEDUCED). -/
def execVmov (g : Guard) (x : Vec1) (s : State) : Out :=
  run (.vmov g x) g (fun c s =>
    match x.o with
    | .vec d a => do
      s.prepare c [vsrcOpr a, .vdst d.val]
      let (ws, s) := s.takeVec a.v.val
      s.writeVec d.val ws
    | .scl d a => do
      s.prepare c [srcOpr a, .dst d]
      let (w, s) := s.take a.name
      s.write d (moveAs x.t w)) s

/-- VLDS (R285). -/
def execVlds (g : Guard) (x : VLdsArgs) (s : State) : Out :=
  run (.vlds g x) g (fun c s => do
    s.prepare c [vsrcOpr x.a, srcOpr x.b, .dst x.d]
    let (ws, s) := s.takeVec x.a.v.val
    let (i, s) := s.take x.b.name
    s.write x.d (x.t.extend ((elemsOf x.t ws).getD (i.toNat % x.t.lanes) 0))) s

/-- VINS (R285): every other lane keeps its bits. -/
def execVins (g : Guard) (x : VInsArgs) (s : State) : Out :=
  run (.vins g x) g (fun c s => do
    s.prepare c [srcOpr x.a, srcOpr x.b, .vboth x.d.val]
    let (w, s) := s.take x.a.name
    let (i, s) := s.take x.b.name
    let (old, s) := s.takeVec x.d.val
    s.writeVec x.d.val (wordsOf x.t ((lanesOf x.t old).set (i.toNat % x.t.lanes) (x.t.lane (tyLow x.t w))))) s

end Sys2Proof.Machine
end

