-- ==== Sys2Proof/Machine/Dispatch.lean ====
section
/-! DEFINITION. One arm for every instruction and event of the opcode table. -/
namespace Sys2Proof.Machine

/-- What an instruction or event does to a state. -/
def exec (i : Instr) (s : State) : Host.Outcome State Fault Refusal :=
  match i with
  | .add g x => Sys2Proof.Machine.execAdd g x s
  | .sub g x => Sys2Proof.Machine.execSub g x s
  | .mul g x => Sys2Proof.Machine.execMul g x s
  | .mulh g x => Sys2Proof.Machine.execMulh g x s
  | .div g x => Sys2Proof.Machine.execDiv g x s
  | .rem g x => Sys2Proof.Machine.execRem g x s
  | .min g x => Sys2Proof.Machine.execMin g x s
  | .max g x => Sys2Proof.Machine.execMax g x s
  | .abs g x => Sys2Proof.Machine.execAbs g x s
  | .and g x => Sys2Proof.Machine.execAnd g x s
  | .or g x => Sys2Proof.Machine.execOr g x s
  | .xor g x => Sys2Proof.Machine.execXor g x s
  | .andn g x => Sys2Proof.Machine.execAndn g x s
  | .shl g x => Sys2Proof.Machine.execShl g x s
  | .shr g x => Sys2Proof.Machine.execShr g x s
  | .sra g x => Sys2Proof.Machine.execSra g x s
  | .rot g x => Sys2Proof.Machine.execRot g x s
  | .clz g x => Sys2Proof.Machine.execClz g x s
  | .ctz g x => Sys2Proof.Machine.execCtz g x s
  | .popc g x => Sys2Proof.Machine.execPopc g x s
  | .brev g x => Sys2Proof.Machine.execBrev g x s
  | .bswap g x => Sys2Proof.Machine.execBswap g x s
  | .ext g x => Sys2Proof.Machine.execExt g x s
  | .ins g x => Sys2Proof.Machine.execIns g x s
  | .sel g x => Sys2Proof.Machine.execSel g x s
  | .mov g x => Sys2Proof.Machine.execMov g x s
  | .lea g x => Sys2Proof.Machine.execLea g x s
  | .cmpEq g x => Sys2Proof.Machine.execCmpEq g x s
  | .cmpNe g x => Sys2Proof.Machine.execCmpNe g x s
  | .cmpLt g x => Sys2Proof.Machine.execCmpLt g x s
  | .cmpLe g x => Sys2Proof.Machine.execCmpLe g x s
  | .cmpGt g x => Sys2Proof.Machine.execCmpGt g x s
  | .cmpGe g x => Sys2Proof.Machine.execCmpGe g x s
  | .cmpUn g x => Sys2Proof.Machine.execCmpUn g x s
  | .pand g x => Sys2Proof.Machine.execPand g x s
  | .por g x => Sys2Proof.Machine.execPor g x s
  | .pxor g x => Sys2Proof.Machine.execPxor g x s
  | .pnot g x => Sys2Proof.Machine.execPnot g x s
  | .pmov g x => Sys2Proof.Machine.execPmov g x s
  | .br g off => Sys2Proof.Machine.execBr g off s
  | .jmp g a => Sys2Proof.Machine.execJmp g a s
  | .call g x => Sys2Proof.Machine.execCall g x s
  | .ret g a => Sys2Proof.Machine.execRet g a s
  | .loop g x => Sys2Proof.Machine.execLoop g x s
  | .nop l => Sys2Proof.Machine.execNop l s
  | .brk g v => Sys2Proof.Machine.execBrk g v s
  | .setwin g a => Sys2Proof.Machine.execSetwin g a s
  | .rdwin g d => Sys2Proof.Machine.execRdwin g d s
  | .swctx g a => Sys2Proof.Machine.execSwctx g a s
  | .wld g x => Sys2Proof.Machine.execWld g x s
  | .wst g x => Sys2Proof.Machine.execWst g x s
  | .wpush g x => Sys2Proof.Machine.execWpush g x s
  | .wscrub g x => Sys2Proof.Machine.execWscrub g x s
  | .wdrain g x => Sys2Proof.Machine.execWdrain g x s
  | .setutw g a => Sys2Proof.Machine.execSetutw g a s
  | .wret g => Sys2Proof.Machine.execWret g s
  | .ld g x => Sys2Proof.Machine.execLd g x s
  | .ldAcq g x => Sys2Proof.Machine.execLdAcq g x s
  | .st g x => Sys2Proof.Machine.execSt g x s
  | .stRel g x => Sys2Proof.Machine.execStRel g x s
  | .ldv g x => Sys2Proof.Machine.execLdv g x s
  | .ldvAcq g x => Sys2Proof.Machine.execLdvAcq g x s
  | .stv g x => Sys2Proof.Machine.execStv g x s
  | .stvRel g x => Sys2Proof.Machine.execStvRel g x s
  | .ldvs g x => Sys2Proof.Machine.execLdvs g x s
  | .stvs g x => Sys2Proof.Machine.execStvs g x s
  | .ldvx g x => Sys2Proof.Machine.execLdvx g x s
  | .stvx g x => Sys2Proof.Machine.execStvx g x s
  | .ldp g x => Sys2Proof.Machine.execLdp g x s
  | .pref g x => Sys2Proof.Machine.execPref g x s
  | .prefL2 g x => Sys2Proof.Machine.execPrefL2 g x s
  | .prefMsc g x => Sys2Proof.Machine.execPrefMsc g x s
  | .flush g x => Sys2Proof.Machine.execFlush g x s
  | .flushMem g x => Sys2Proof.Machine.execFlushMem g x s
  | .amoAdd g x => Sys2Proof.Machine.execAmoAdd g x s
  | .amoAnd g x => Sys2Proof.Machine.execAmoAnd g x s
  | .amoOr g x => Sys2Proof.Machine.execAmoOr g x s
  | .amoXor g x => Sys2Proof.Machine.execAmoXor g x s
  | .amoMin g x => Sys2Proof.Machine.execAmoMin g x s
  | .amoMax g x => Sys2Proof.Machine.execAmoMax g x s
  | .amoSwap g x => Sys2Proof.Machine.execAmoSwap g x s
  | .amoCas g x => Sys2Proof.Machine.execAmoCas g x s
  | .fenceAcq g sc => Sys2Proof.Machine.execFenceAcq g sc s
  | .fenceRel g sc => Sys2Proof.Machine.execFenceRel g sc s
  | .fenceFull g sc => Sys2Proof.Machine.execFenceFull g sc s
  | .barinit g x => Sys2Proof.Machine.execBarinit g x s
  | .bararr g x => Sys2Proof.Machine.execBararr g x s
  | .barwait g x => Sys2Proof.Machine.execBarwait g x s
  | .barbytes g x => Sys2Proof.Machine.execBarbytes g x s
  | .waitln g x => Sys2Proof.Machine.execWaitln g x s
  | .sleep g a => Sys2Proof.Machine.execSleep g a s
  | .sleepProm g a => Sys2Proof.Machine.execSleepProm g a s
  | .acopy g x => Sys2Proof.Machine.execAcopy g x s
  | .gather g x => Sys2Proof.Machine.execGather g x s
  | .scatter g x => Sys2Proof.Machine.execScatter g x s
  | .vadd g x => Sys2Proof.Machine.execVadd g x s
  | .vsub g x => Sys2Proof.Machine.execVsub g x s
  | .vmul g x => Sys2Proof.Machine.execVmul g x s
  | .vfma g x => Sys2Proof.Machine.execVfma g x s
  | .vfms g x => Sys2Proof.Machine.execVfms g x s
  | .vdiv g x => Sys2Proof.Machine.execVdiv g x s
  | .vmin g x => Sys2Proof.Machine.execVmin g x s
  | .vmax g x => Sys2Proof.Machine.execVmax g x s
  | .vabs g x => Sys2Proof.Machine.execVabs g x s
  | .vneg g x => Sys2Proof.Machine.execVneg g x s
  | .vsqrt g x => Sys2Proof.Machine.execVsqrt g x s
  | .vrsq g x => Sys2Proof.Machine.execVrsq g x s
  | .vexp2 g x => Sys2Proof.Machine.execVexp2 g x s
  | .vlog2 g x => Sys2Proof.Machine.execVlog2 g x s
  | .vladd g x => Sys2Proof.Machine.execVladd g x s
  | .vcmpEq g x => Sys2Proof.Machine.execVcmpEq g x s
  | .vcmpNe g x => Sys2Proof.Machine.execVcmpNe g x s
  | .vcmpLt g x => Sys2Proof.Machine.execVcmpLt g x s
  | .vcmpLe g x => Sys2Proof.Machine.execVcmpLe g x s
  | .vcmpGt g x => Sys2Proof.Machine.execVcmpGt g x s
  | .vcmpGe g x => Sys2Proof.Machine.execVcmpGe g x s
  | .vcmpUn g x => Sys2Proof.Machine.execVcmpUn g x s
  | .vsel g x => Sys2Proof.Machine.execVsel g x s
  | .vmask g x => Sys2Proof.Machine.execVmask g x s
  | .vpopc g x => Sys2Proof.Machine.execVpopc g x s
  | .vand g x => Sys2Proof.Machine.execVand g x s
  | .vor g x => Sys2Proof.Machine.execVor g x s
  | .vxor g x => Sys2Proof.Machine.execVxor g x s
  | .vshl g x => Sys2Proof.Machine.execVshl g x s
  | .vshr g x => Sys2Proof.Machine.execVshr g x s
  | .vsra g x => Sys2Proof.Machine.execVsra g x s
  | .vpack g x => Sys2Proof.Machine.execVpack g x s
  | .vunpack g x => Sys2Proof.Machine.execVunpack g x s
  | .vcvt g x => Sys2Proof.Machine.execVcvt g x s
  | .vcvtSat g x => Sys2Proof.Machine.execVcvtSat g x s
  | .vcvtOvf g x => Sys2Proof.Machine.execVcvtOvf g x s
  | .vredadd g x => Sys2Proof.Machine.execVredadd g x s
  | .vredmax g x => Sys2Proof.Machine.execVredmax g x s
  | .vredmin g x => Sys2Proof.Machine.execVredmin g x s
  | .vscan g x => Sys2Proof.Machine.execVscan g x s
  | .vperm g x => Sys2Proof.Machine.execVperm g x s
  | .vbcast g x => Sys2Proof.Machine.execVbcast g x s
  | .vshuf g x => Sys2Proof.Machine.execVshuf g x s
  | .vmov g x => Sys2Proof.Machine.execVmov g x s
  | .vlds g x => Sys2Proof.Machine.execVlds g x s
  | .vins g x => Sys2Proof.Machine.execVins g x s
  | .mmaF g x => Sys2Proof.Machine.execMmaF g x s
  | .mmaI g x => Sys2Proof.Machine.execMmaI g x s
  | .mmaSat g x => Sys2Proof.Machine.execMmaSat g x s
  | .mmaStep g x => Sys2Proof.Machine.execMmaStep g x s
  | .mmas24F g x => Sys2Proof.Machine.execMmas24F g x s
  | .mmas24I g x => Sys2Proof.Machine.execMmas24I g x s
  | .mmas24Sat g x => Sys2Proof.Machine.execMmas24Sat g x s
  | .mmas48F g x => Sys2Proof.Machine.execMmas48F g x s
  | .mmas48I g x => Sys2Proof.Machine.execMmas48I g x s
  | .mmas48Sat g x => Sys2Proof.Machine.execMmas48Sat g x s
  | .mrotF g x => Sys2Proof.Machine.execMrotF g x s
  | .mrotI g x => Sys2Proof.Machine.execMrotI g x s
  | .mrotSat g x => Sys2Proof.Machine.execMrotSat g x s
  | .mlda g x => Sys2Proof.Machine.execMlda g x s
  | .mldb g x => Sys2Proof.Machine.execMldb g x s
  | .mzero g tile => Sys2Proof.Machine.execMzero g tile s
  | .mld g x => Sys2Proof.Machine.execMld g x s
  | .mldt g x => Sys2Proof.Machine.execMldt g x s
  | .mthr g a => Sys2Proof.Machine.execMthr g a s
  | .mrd g x => Sys2Proof.Machine.execMrd g x s
  | .msave g x => Sys2Proof.Machine.execMsave g x s
  | .msaveRst g x => Sys2Proof.Machine.execMsaveRst g x s
  | .mst g x => Sys2Proof.Machine.execMst g x s
  | .dssbind g x => Sys2Proof.Machine.execDssbind g x s
  | .dssstep g x => Sys2Proof.Machine.execDssstep g x s
  | .dsscutRead g x => Sys2Proof.Machine.execDsscutRead g x s
  | .dsscutImpose g x => Sys2Proof.Machine.execDsscutImpose g x s
  | .dsscutUnimpose g a => Sys2Proof.Machine.execDsscutUnimpose g a s
  | .dsscutStoreImage g x => Sys2Proof.Machine.execDsscutStoreImage g x s
  | .dsscutLoadImage g x => Sys2Proof.Machine.execDsscutLoadImage g x s
  | .send g x => Sys2Proof.Machine.execSend g x s
  | .sendRect g x => Sys2Proof.Machine.execSendRect g x s
  | .spawn g x => Sys2Proof.Machine.execSpawn g x s
  | .spawnev g x => Sys2Proof.Machine.execSpawnev g x s
  | .evadd g x => Sys2Proof.Machine.execEvadd g x s
  | .evset g x => Sys2Proof.Machine.execEvset g x s
  | .park g x => Sys2Proof.Machine.execPark g x s
  | .tend g => Sys2Proof.Machine.execTend g s
  | .launch g x => Sys2Proof.Machine.execLaunch g x s
  | .yield g n => Sys2Proof.Machine.execYield g n s
  | .sread g x => Sys2Proof.Machine.execSread g x s
  | .swrite g x => Sys2Proof.Machine.execSwrite g x s
  | .nettx g x => Sys2Proof.Machine.execNettx g x s
  | .netrx g x => Sys2Proof.Machine.execNetrx g x s
  | .domain g x => Sys2Proof.Machine.execDomain g x s
  | .domexit g => Sys2Proof.Machine.execDomexit g s
  | .vsend g x => Sys2Proof.Machine.execVsend g x s
  | .vtnow g d => Sys2Proof.Machine.execVtnow g d s
  | .gvtrd g d => Sys2Proof.Machine.execGvtrd g d s
  | .safe g => Sys2Proof.Machine.execSafe g s
  | .defer g x => Sys2Proof.Machine.execDefer g x s
  | .trap g v => Sys2Proof.Machine.execTrap g v s
  | .rett g => Sys2Proof.Machine.execRett g s
  | .mfs g x => Sys2Proof.Machine.execMfs g x s
  | .mts g x => Sys2Proof.Machine.execMts g x s
  | .tlbiPage g x => Sys2Proof.Machine.execTlbiPage g x s
  | .tlbiAsid g x => Sys2Proof.Machine.execTlbiAsid g x s
  | .tlbiPartition g x => Sys2Proof.Machine.execTlbiPartition g x s
  | .idle g => Sys2Proof.Machine.execIdle g s
  | .halt g => Sys2Proof.Machine.execHalt g s
  | .censusStore g x => Sys2Proof.Machine.execCensusStore g x s
  | .censusCompare g x => Sys2Proof.Machine.execCensusCompare g x s
  | .censusClear g x => Sys2Proof.Machine.execCensusClear g x s
  | .suspend g a => Sys2Proof.Machine.execSuspend g a s
  | .plsync g a => Sys2Proof.Machine.execPlsync g a s
  | .lsfa g a => Sys2Proof.Machine.execLsfa g a s
  | .pageWalk va kind => Sys2Proof.Machine.execPageWalk va kind s
  | .bindingLand k => Sys2Proof.Machine.execBindingLand k s
  | .ageingSweep k => Sys2Proof.Machine.execAgeingSweep k s
  | .policingIntervalEnd => Sys2Proof.Machine.execPolicingIntervalEnd s
  | .gatherEngineServe => Sys2Proof.Machine.execGatherEngineServe s
  | .gatherTokenFill => Sys2Proof.Machine.execGatherTokenFill s
  | .acopyAccept => Sys2Proof.Machine.execAcopyAccept s
  | .acopyComplete => Sys2Proof.Machine.execAcopyComplete s
  | .kick c k v => Sys2Proof.Machine.execKick c k v s
  | .transferRecord c k => Sys2Proof.Machine.execTransferRecord c k s
  | .matrixGrant => Sys2Proof.Machine.execMatrixGrant s
  | .matrixTokenFill => Sys2Proof.Machine.execMatrixTokenFill s
  | .rotlate => Sys2Proof.Machine.execRotlate s
  | .promise => Sys2Proof.Machine.execPromise s
  | .sleepWake => Sys2Proof.Machine.execSleepWake s
  | .waitlnLineWritten k => Sys2Proof.Machine.execWaitlnLineWritten k s
  | .waitlnSpinTimeout => Sys2Proof.Machine.execWaitlnSpinTimeout s
  | .waitlnParkTimeout k => Sys2Proof.Machine.execWaitlnParkTimeout k s
  | .budget => Sys2Proof.Machine.execBudget s
  | .ringlockIdle => Sys2Proof.Machine.execRinglockIdle s
  | .recordDelivery x => Sys2Proof.Machine.execRecordDelivery x s
  | .overflowReoffer => Sys2Proof.Machine.execOverflowReoffer s
  | .dispatch => Sys2Proof.Machine.execDispatch s
  | .footprintFetch => Sys2Proof.Machine.execFootprintFetch s
  | .yieldHoldExpiry => Sys2Proof.Machine.execYieldHoldExpiry s
  | .stealRoundWait => Sys2Proof.Machine.execStealRoundWait s
  | .launchStart q => Sys2Proof.Machine.execLaunchStart q s
  | .optimisticArrival x => Sys2Proof.Machine.execOptimisticArrival x s
  | .antiMessageArrival k => Sys2Proof.Machine.execAntiMessageArrival k s
  | .gvtReport => Sys2Proof.Machine.execGvtReport s
  | .gvtInstall k => Sys2Proof.Machine.execGvtInstall k s
  | .ioAccept => Sys2Proof.Machine.execIoAccept s
  | .ioTimeout seq => Sys2Proof.Machine.execIoTimeout seq s
  | .machine detail phys => Sys2Proof.Machine.execMachine detail phys s
  | .eventRingOverrunWait => Sys2Proof.Machine.execEventRingOverrunWait s
  | .unassignedEncoding detail parcel => Sys2Proof.Machine.execUnassignedEncoding detail parcel s
  | .fetchFault cause info => Sys2Proof.Machine.execFetchFault cause info s
  | .regionTableEviction => Sys2Proof.Machine.execRegionTableEviction s
  | .hostBoundary x => Sys2Proof.Machine.execHostBoundary x s
  | .cfg c k v => Sys2Proof.Machine.execCfg c k v s
  | .haltResume c k v => Sys2Proof.Machine.execHaltResume c k v s
  | .free c k v => Sys2Proof.Machine.execFree c k v s
  | .mrotBufferArrival isA bytes tag => Sys2Proof.Machine.execMrotBufferArrival isA bytes tag s
  | .lqtail q v => Sys2Proof.Machine.execLqtail q v s
  | .preempt v => Sys2Proof.Machine.execPreempt v s
  | .stealseed v => Sys2Proof.Machine.execStealseed v s
  | .ioComplete seq x => Sys2Proof.Machine.execIoComplete seq x s
  | .frameReceived q bytes fcsBad => Sys2Proof.Machine.execFrameReceived q bytes fcsBad s
  | .collkick v => Sys2Proof.Machine.execCollkick v s
  | .collectiveRecord data fabric => Sys2Proof.Machine.execCollectiveRecord data fabric s
  | .hostWrite x => Sys2Proof.Machine.execHostWrite x s
  | .hostRead x => Sys2Proof.Machine.execHostRead x s
  | .hostBar0Access off size write v => Sys2Proof.Machine.execHostBar0Access off size write v s
  | .fabricAccess dev x => Sys2Proof.Machine.execFabricAccess dev x s
  | .meshFlitParity again mine => Sys2Proof.Machine.execMeshFlitParity again mine s
  | .linkCrcFail f reads write => Sys2Proof.Machine.execLinkCrcFail f reads write s
  | .writebackLost pa => Sys2Proof.Machine.execWritebackLost pa s
  | .eventPost kind info more => Sys2Proof.Machine.execEventPost kind info more s
  | .pagePull page => Sys2Proof.Machine.execPagePull page s
  | .pullFailed page => Sys2Proof.Machine.execPullFailed page s
  | .vdctl v x => Sys2Proof.Machine.execVdctl v x s
  | .quantumEnd => Sys2Proof.Machine.execQuantumEnd s
  | .sliceLate => Sys2Proof.Machine.execSliceLate s
  | .go v => Sys2Proof.Machine.execGo v s
  | .errcnt v => Sys2Proof.Machine.execErrcnt v s
  | .registerWrite addr v => Sys2Proof.Machine.execRegisterWrite addr v s
  | .boot ok dev => Sys2Proof.Machine.execBoot ok dev s
  | .thermalThrottle => Sys2Proof.Machine.execThermalThrottle s
  | .thermalHalt => Sys2Proof.Machine.execThermalHalt s
  | .powerState m => Sys2Proof.Machine.execPowerState m s
  | .softError addr corrected place => Sys2Proof.Machine.execSoftError addr corrected place s
  | .pageArrival page bytes => Sys2Proof.Machine.execPageArrival page bytes s

end Sys2Proof.Machine
end

