-- ==== Sys2Proof/Machine/Peers.lean ====
section
/-! DEFINITION. What the other cores of the module do that this core can see (log entry 26): regions and stores (R77, R116 to R118), deques
and steals (R345, R346), live counts (R342), events (R317), wait nodes (R344), optimistic messages, reports and domains (R365, R369), layer
slots (R372, R383), matrix buffers (R297), registers of other cores and devices (R38, R394, R436), ring ports (R97, R166), what keeps a core
in the rectangle (R403), accesses of the host to BAR4 (R433) and of the hypervisor to registers (R401), and what reaches a virtual device
that does not run (R351). -/
namespace Sys2Proof.Machine

/-- What another core does comes again at the next step. -/
def State.peerAgain (s : State) (p : Peer) : State := { s with peers := (s.ticks + 1, p) :: s.peers }

/-- An access p of another hart enters its region and is performed (R77, R116): one that meets a live region is that hart's MMX, and has no
effect here (R81, R117); one that finds a region table full waits (R85). Log entry 38 (DEDUCED). -/
def State.peerAccess (s : State) (p : Peer) (h : Party) (rd wr sync : Bool) (key len : Nat) (perform : State → State) : State :=
  if s.peerMeets h wr sync key len then s
  else match s.noteRegion h rd wr sync key len with
    | .ok s => perform s
    | .error die => (s.askRoom die).peerAgain p

/-- The region of another hart closes: every home lets go of its masks (R118). -/
def State.peerClose (s : State) (h : Party) : State :=
  { s with mem := { s.mem with
      others := s.mem.others.filter fun o => !o.isOf h
      tables := mmap [] (List.filter fun r => !(!r.own && r.agent = h.agent && r.device = h.device && r.core = h.core)) s.mem.tables } }

/-- Bytes that another hart stores (R49, R50): a hart of this die stores into the die's RDC where that holds a remote line, every other at their
home. Log entry 26 (DESIGN CHOICE). -/
def State.peerStore (s : State) (sameDie : Bool) (key : Nat) (bs : List Byte) : State :=
  (linesOf key bs.length).foldl (fun s line =>
    let lo := max line key
    let part := (bs.drop (lo - key)).take (line + 128 - lo)
    if sameDie && s.isRemote line && (s.lineAt .rdc line).isSome then ((s.recallL1 line).putRdc line lo part).notify lo part.length
    else (s.recallRange lo part.length).writeHome lo part) s

/-- A thief takes the top record of this core's deque (R346): refused where it lies outside the scope of the spawn; that it has a window for
the record is the thief's part. -/
def State.giveTop (s : State) (thief : Nat) : State :=
  match s.dqTop with
  | some r => if s.reachesFrom s.core.number r.scope thief then s.takeTop else s
  | none => s

/-- The live count of a launch falls n times (R342). -/
def State.liveDowns (s : State) (lnid : Nat) : Nat → State
  | 0 => s
  | n + 1 => (s.liveDown (wd lnid)).liveDowns lnid n

/-- An event after an update by EVADD of another core (R317). -/
def eventSum (old : Nat) (add : Int) : Nat := ((max 0 (min ((old : Int) + add) (2 ^ 32 - 1))) : Int).toNat

/-- A ring FIFO changes (R97): 0 holds what came from the successor, 1 from the predecessor, 2 and 3 what is meant for them. -/
def State.updRing (s : State) (k : Nat) (f : List Word → List Word) : State :=
  { s with core := { s.core with rings := mput [] s.core.rings k (f (mget [] s.core.rings k)) } }

/-- An event is updated by EVADD of another core (R317), once the page of its entry is there (R410). -/
def State.peerAdds (s : State) (e : Nat) (add : Int) : State :=
  match s.absentAt (s.eventEntry e) with
  | some page => (s.startPull page).peerAgain (.event e add)
  | none => s.updateEvent e (eventSum (s.eventCount e) add)

/-- A command of another queue starts at a layer slot or ends there: one of the slot's commands runs at a time (R383).
Log entry 26 (DESIGN CHOICE). -/
def State.peerRuns (s : State) (slot : Nat) (yes : Bool) : State :=
  if !yes then { s with mu := { s.mu with peerDss := s.mu.peerDss.filter (· ≠ slot) } }
  else if s.slotBusy slot || s.mu.peerDss.contains slot then s.peerAgain (.dssRuns slot yes)
  else { s with mu := { s.mu with peerDss := slot :: s.mu.peerDss } }

/-- A word of BAR4 as it reads (R433): the MSI-X table, and from 0x8000 on the pending bits. Log entry 62 (PRESUMED). -/
def State.barRead (s : State) (off : Nat) : Word :=
  if off < 0x8000 then s.msixWord (off / 8)
  else if off < 0x8100 then wd (((s.sys.msixPend.filter fun v => v / 64 = (off - 0x8000) / 8).map fun v => 2 ^ (v % 64)).foldl (· + ·) 0)
  else 0

/-- A word of the MSI-X table is written (R433); a vector that is pending and no longer masked is signalled then. Log entry 62 (PRESUMED). -/
def State.barWrite (s : State) (off : Nat) (v : Word) : State :=
  if 0x8000 ≤ off then s
  else
    let k := off / 8
    let w := if k % 2 = 1 then keep v [(32, 0)] else keep v [(63, 2)]
    let s := { s with sys := { s.sys with msixTab := mput (if k % 2 = 1 then wd (2 ^ 32) else 0) s.sys.msixTab k w } }
    if s.sys.msixPend.contains (k / 2) && !bit (s.msixWord (k / 2 * 2 + 1)) 32 then
      { s with sys := { s.sys with msixPend := s.sys.msixPend.filter (· ≠ k / 2) } }.signal (k / 2)
    else s

/-- A record joins the overflow ring (R160). -/
def State.joinRing (s : State) (d : Delivery) : State :=
  let h := (s.readHead d.ctx d.r.w0).head
  { s with sched := { s.sched with arrivals := s.sched.arrivals + 1 } }.spill
    { d := d, cls := h.cls, high := h.high, seq := s.sched.arrivals }

/-- What another core does happens (log entry 26). Log entry 26 (DESIGN CHOICE). -/
def State.meetPeer (s : State) : Peer → State
  | .region a dev core rd wr sync key len => s.peerAccess (.region a dev core rd wr sync key len) ⟨a, dev, core⟩ rd wr sync key len id
  | .regionEnd a dev core => s.peerClose ⟨a, dev, core⟩
  | .store a dev core sync sameDie key bytes =>
    s.peerAccess (.store a dev core sync sameDie key bytes) ⟨a, dev, core⟩ false true sync key bytes.length fun s => s.peerStore sameDie key bytes
  | .steal thief => s.giveTop thief
  | .deque core recs => { s with sched := { s.sched with peerDeques := mput [] s.sched.peerDeques core recs } }
  | .live lnid up down => (s.liveUp (wd lnid) up).liveDowns lnid down
  | .event e add => s.peerAdds e add
  | .acked k => s.acked k
  | .domains yes => { s with opt := { s.opt with peersIn := yes } }.reseed
  | .report k => match s.opt.peerKey with
    | some _ => s.peerAgain (.report k)
    | none => { s with opt := { s.opt with peerKey := some k } }
  | .dssRuns slot yes => s.peerRuns slot yes
  | .dss slot op => if s.slotBusy slot then s.peerAgain (.dss slot op) else s.setDss slot ((mget {} s.mu.dss slot).apply op)
  | .rotRefused => s.rotRefused
  | .lsown core v => { s with mem := { s.mem with lsownPeers := mput 0 s.mem.lsownPeers core v } }
  | .admits bank yes => { s with mem := { s.mem with
      admitted := if yes then addLoss s.mem.admitted bank else s.mem.admitted.filter (· ≠ bank) } }
  | .ringGive fromNext v => s.updRing (if fromNext then 0 else 1) (· ++ [v])
  | .ringTake toNext => s.updRing (if toNext then 2 else 3) List.tail
  | .ringIdle next since => { s with core := { s.core with
      ringIdle := if next then (since, s.core.ringIdle.2) else (s.core.ringIdle.1, since) } }
  | .ringWaiters n => { s with core := { s.core with ringWaiters := n } }
  | .preemptAck n =>
    let v := mget 0 s.sched.preempt n
    if bit v 0 && n ≠ s.core.number then { s with sched := { s.sched with preempt := mput 0 s.sched.preempt n (v ||| wd (2 ^ 63)) } } else s
  | .nodes slice n => { s with sched := { s.sched with peerNodes := mput 0 s.sched.peerNodes slice n } }
  | .holds core yes => { s with sched := { s.sched with
      peerHolds := if yes then addLoss s.sched.peerHolds core else s.sched.peerHolds.filter (· ≠ core) } }
  | .bar4 off write v => if write then s.barWrite off v else s.post (.hostData (wordBytes (s.barRead off)) false)
  | .hyperRead loc => s.post (.register loc (s.hyperLoad loc))
  | .vdRecord v d => if v = s.sys.vd then s.deliver d else s.inVd v fun s => s.joinRing d
  | .vdDoorbell v q w => if v = s.sys.vd then s.doorbell q w else s.inVd v fun s => s.doorbell q w

end Sys2Proof.Machine
end

