-- ==== Sys2Proof/Machine/Slot.lean ====
section
/-! DEFINITION. How an instruction is placed where the next step fetches it (log entry 17): a machine that has booted, whose partition has been built and whose
core has a task dispatched, in the supervisor's mode, with one page of code. -/
namespace Sys2Proof.Machine

/-- Where the instruction lies: its virtual and its physical address. Log entry 17 (DESIGN CHOICE). -/
def slotVa : Word := 0xFF80000000020000
/-- Log entry 17 (DESIGN CHOICE). -/
def slotPa : Nat := 0x20000

/-- The top table, and the index in it of the page that maps the slot. Log entry 17 (DESIGN CHOICE). -/
def slotTable : Nat := 0x40000
def slotIndex : Nat := bits slotVa 55 42

/-- A leaf of 4 TiB at physical address 0: valid, readable, executable, accessed. Log entry 17 (DESIGN CHOICE). -/
def slotLeaf : Nat := 0x4B

/-- The bytes of an instruction's low bits, sixteen of them. -/
def wordBytes16 (nbits w : Nat) : List Byte := (List.range 16).map fun k => BitVec.ofNat 8 (w % 2 ^ nbits / 256 ^ k)

/-- A task of no footprint that has entered. Log entry 17 (DESIGN CHOICE). -/
def slotTask : Task := { base := 0, cls := 0, entry := slotVa, record := {}, launch := {}, slot := 0 }

/-- Everything the fetch of one instruction needs: pc, code base, root, bank 0 on die 0, the page's entry, the bytes, the task.
Log entry 17 (DESIGN CHOICE). -/
def State.placeWord (s : State) (nbits w : Nat) : State :=
  let bytes := mputs 0 (mputs 0 s.mem.bytes slotPa (wordBytes16 nbits w)) (slotTable + 8 * slotIndex) (toBytes slotLeaf 8)
  { s with
    pc := slotVa
    regs := { s.regs with sroot := wd (slotTable + 1), scbase := 0xFF80000000000000 }
    mem := { s.mem with
      bytes := bytes, bankTab := mput 0 s.mem.bankTab 0 (wd (2 ^ 63)), lost := [], rdc := [], rdcLost := [], unsent := [], stale := []
      clusterTlb := [], walkCache := [], policeAt := s.policeInterval }
    core := { s.core with wait := none, idle := false, machine := [], binds := [], tlb := [], muTlb := [], tableHit := false }
    sched := { s.sched with task := some slotTask, flying := [], held := [], lowQueues := [] }
    sys := { s.sys with halted := false, power := 0, bootStep := 5, reissue := [] }
    inputs := []
    peers := [] }

end Sys2Proof.Machine
end

