-- ==== Sys2Proof/Machine/Step.lean ====
section
/-! DEFINITION. One step of the machine, and the placement of an instruction where the next step fetches it. -/
namespace Sys2Proof.Machine

/-- One step: an event of the outside, of another core or of a unit, the instruction at the pc, or time. -/
def step (s : State) : Host.Outcome State Fault Refusal :=
  match s.nextAct with
  | .input i rest => keepInput i (exec i { s with inputs := rest })
  | .event i => exec i s
  | .peer p rest => ({ s with peers := rest }.meetPeer p).done
  | .reissue i rest => exec i { s with sys := { s.sys with reissue := rest } }
  | .lost pa => execWritebackLost pa s
  | .report => s.takeMachine.done
  | .instr => match s.issue with
    | .run i t => exec i t
    | .pull page => .next ((s.beginPull page s.taskLnid).waiting .room)
  | .nothing => .next s.tick

/-- The state in which the very next step runs the instruction of `nbits` bits w. Log entry 17 (DESIGN CHOICE). -/
def State.withFetchWord (s : State) (nbits w : Nat) : State := s.placeWord nbits w

end Sys2Proof.Machine
end

