-- ==== Sys2Proof/Laws/Maps.lean ====
section
/-! SUPPORT. Finite maps: read after write, writes elsewhere, and the canonical form, which every write keeps. -/
set_option Elab.async false
namespace Sys2Proof.Machine

variable {α : Type}

theorem mwfFrom_mono [DecidableEq α] {d : α} {lo lo' : Nat} (h : lo' ≤ lo) : ∀ {m : SMap α}, mwfFrom d lo m = true → mwfFrom d lo' m = true
  | [], _ => rfl
  | (k, v) :: m, hm => by
    simp only [mwfFrom, Bool.and_eq_true, decide_eq_true_eq] at hm ⊢
    exact ⟨⟨Nat.le_trans h hm.1.1, hm.1.2⟩, hm.2⟩

theorem mput_wfFrom [DecidableEq α] (d : α) (i : Nat) (x : α) : ∀ (m : SMap α) (lo : Nat), lo ≤ i → mwfFrom d lo m = true → mwfFrom d lo (mput d m i x) = true
  | [], lo, hi, _ => by
    simp only [mput]; split
    · rfl
    · simp [mwfFrom, *]
  | (k, v) :: m, lo, hi, hm => by
    have hm' := hm
    simp only [mwfFrom, Bool.and_eq_true, decide_eq_true_eq, Bool.not_eq_true', decide_eq_false_iff_not] at hm'
    obtain ⟨⟨h1, h2⟩, h3⟩ := hm'
    simp only [mput]
    split
    · rename_i hik
      split
      · exact hm
      · rename_i hx
        simp only [mwfFrom, Bool.and_eq_true, decide_eq_true_eq, Bool.not_eq_true', decide_eq_false_iff_not]
        exact ⟨⟨hi, hx⟩, ⟨hik, h2⟩, h3⟩
    · split
      · rename_i e
        split
        · exact mwfFrom_mono (by omega) h3
        · rename_i _ hx
          simp only [mwfFrom, Bool.and_eq_true, decide_eq_true_eq, Bool.not_eq_true', decide_eq_false_iff_not]
          subst e
          exact ⟨⟨hi, hx⟩, h3⟩
      · simp only [mwfFrom, Bool.and_eq_true, decide_eq_true_eq, Bool.not_eq_true', decide_eq_false_iff_not]
        exact ⟨⟨h1, h2⟩, mput_wfFrom d i x m (k + 1) (by omega) h3⟩

/-- One write keeps the canonical form. -/
theorem mput_wf [DecidableEq α] {d : α} {m : SMap α} (i : Nat) (x : α) (h : mwf d m = true) : mwf d (mput d m i x) = true :=
  mput_wfFrom d i x m 0 (Nat.zero_le i) h

/-- Writes of consecutive keys keep it. -/
theorem mputs_wf [DecidableEq α] {d : α} : ∀ (xs : List α) (m : SMap α) (i : Nat), mwf d m = true → mwf d (mputs d m i xs) = true
  | [], _, _, h => h
  | x :: xs, m, i, h => mputs_wf xs (mput d m i x) (i + 1) (mput_wf i x h)

/-- A fold of writes keeps it. -/
theorem foldl_mput_wf [DecidableEq α] {β : Type} {d : α} (k : β → Nat) (f : β → α) : ∀ (l : List β) (m : SMap α), mwf d m = true →
    mwf d (l.foldl (fun m x => mput d m (k x) (f x)) m) = true
  | [], _, h => h
  | x :: l, m, h => foldl_mput_wf k f l (mput d m (k x) (f x)) (mput_wf _ _ h)

theorem mget_below [DecidableEq α] {d : α} : ∀ {m : SMap α} {lo i : Nat}, mwfFrom d lo m = true → i < lo → mget d m i = d
  | [], _, _, _, _ => rfl
  | (k, v) :: m, lo, i, h, hi => by
    simp only [mwfFrom, Bool.and_eq_true, decide_eq_true_eq] at h
    have : i < k := by omega
    simp [mget, this]

theorem mget_mput_from [DecidableEq α] (d : α) (i : Nat) (x : α) : ∀ (m : SMap α) (lo : Nat), mwfFrom d lo m = true → mget d (mput d m i x) i = x
  | [], _, _ => by
    simp only [mput]; split
    · simp [mget, *]
    · simp [mget]
  | (k, v) :: m, lo, h => by
    have h' := h
    simp only [mwfFrom, Bool.and_eq_true, decide_eq_true_eq] at h
    simp only [mput]
    split
    · rename_i hik
      split
      · simp [mget, *]
      · simp [mget]
    · rename_i hik
      split
      · rename_i e
        split
        · rename_i hx
          rw [mget_below h.2 (by omega), hx]
        · simp [mget]
      · rename_i e
        simp only [mget, hik, e, if_false]
        exact mget_mput_from d i x m (k + 1) h.2

/-- A read after a write to the same key gives the value written. -/
theorem mget_mput_same [DecidableEq α] {d : α} {m : SMap α} (i : Nat) (x : α) (h : mwf d m = true) : mget d (mput d m i x) i = x :=
  mget_mput_from d i x m 0 h

theorem mget_mput_from_ne [DecidableEq α] (d : α) (i j : Nat) (hij : j ≠ i) (x : α) : ∀ (m : SMap α) (lo : Nat), mwfFrom d lo m = true →
    mget d (mput d m i x) j = mget d m j
  | [], _, _ => by
    simp only [mput]; split
    · rfl
    · simp [mget, hij]
  | (k, v) :: m, lo, h => by
    simp only [mwfFrom, Bool.and_eq_true, decide_eq_true_eq] at h
    simp only [mput]
    split
    · rename_i hik
      split
      · rfl
      · simp only [mget, hij, if_false]
        split
        · split
          · rfl
          · omega
        · rfl
    · rename_i hik
      split
      · rename_i e
        subst e
        split
        · simp only [mget, hij, if_false]
          split
          · exact mget_below h.2 (by omega)
          · rfl
        · simp only [mget, hij, if_false]
      · simp only [mget]
        rw [mget_mput_from_ne d i j hij x m (k + 1) h.2]

/-- A write leaves every other key alone. -/
theorem mget_mput_other [DecidableEq α] {d : α} {m : SMap α} (i j : Nat) (x : α) (h : mwf d m = true) (hij : j ≠ i) :
    mget d (mput d m i x) j = mget d m j := mget_mput_from_ne d i j hij x m 0 h

/-- What a read of a key gives after writes of consecutive keys. -/
theorem mget_mputs [DecidableEq α] {d : α} : ∀ (xs : List α) (m : SMap α) (i j : Nat), mwf d m = true →
    mget d (mputs d m i xs) j = if i ≤ j ∧ j < i + xs.length then xs.getD (j - i) d else mget d m j
  | [], m, i, j, h => by
    have : ¬ (i ≤ j ∧ j < i + ([] : List α).length) := by simp only [List.length_nil]; omega
    rw [if_neg this]; rfl
  | x :: xs, m, i, j, h => by
    rw [mputs, mget_mputs xs _ (i + 1) j (mput_wf i x h)]
    simp only [List.length_cons]
    by_cases e : j = i
    · subst e
      have a : ¬ (j + 1 ≤ j ∧ j < j + 1 + xs.length) := by omega
      have b : j ≤ j ∧ j < j + (xs.length + 1) := by omega
      rw [if_neg a, if_pos b, mget_mput_same j x h, Nat.sub_self]; rfl
    · by_cases c : i + 1 ≤ j ∧ j < i + 1 + xs.length
      · have b : i ≤ j ∧ j < i + (xs.length + 1) := by omega
        rw [if_pos c, if_pos b, show j - i = (j - (i + 1)) + 1 by omega]; rfl
      · have b : ¬ (i ≤ j ∧ j < i + (xs.length + 1)) := by omega
        rw [if_neg c, if_neg b, mget_mput_other i j x h e]

/-- Removing entries keeps the canonical form. -/
theorem filter_wfFrom [DecidableEq α] {d : α} (p : Nat × α → Bool) : ∀ (m : SMap α) (lo : Nat), mwfFrom d lo m = true → mwfFrom d lo (m.filter p) = true
  | [], _, _ => rfl
  | (k, v) :: m, lo, h => by
    simp only [mwfFrom, Bool.and_eq_true, decide_eq_true_eq] at h
    simp only [List.filter]
    split
    · simp only [mwfFrom, Bool.and_eq_true, decide_eq_true_eq]
      exact ⟨h.1, filter_wfFrom p m (k + 1) h.2⟩
    · exact mwfFrom_mono (by omega) (filter_wfFrom p m (k + 1) h.2)

theorem filter_wf [DecidableEq α] {d : α} {m : SMap α} (p : Nat × α → Bool) (h : mwf d m = true) : mwf d (m.filter p) = true :=
  filter_wfFrom p m 0 h

end Sys2Proof.Machine
end

