-- ==== Sys2Proof/Laws/State.lean ====
section
/-! SUPPORT. What each update of the state leaves alone: one lemma per field, true by definition. -/
set_option Elab.async false
namespace Sys2Proof.Machine

@[simp] theorem State.setMode_pc (s : State) (m : Nat) : (s.setMode m).pc = s.pc := rfl
@[simp] theorem State.setMode_cyc (s : State) (m : Nat) : (s.setMode m).cyc = s.cyc := rfl
@[simp] theorem State.setMode_core (s : State) (m : Nat) : (s.setMode m).core = s.core := rfl
@[simp] theorem State.setMode_mem (s : State) (m : Nat) : (s.setMode m).mem = s.mem := rfl
@[simp] theorem State.setMode_sched (s : State) (m : Nat) : (s.setMode m).sched = s.sched := rfl
@[simp] theorem State.setMode_opt (s : State) (m : Nat) : (s.setMode m).opt = s.opt := rfl
@[simp] theorem State.setMode_mu (s : State) (m : Nat) : (s.setMode m).mu = s.mu := rfl
@[simp] theorem State.setMode_eng (s : State) (m : Nat) : (s.setMode m).eng = s.eng := rfl
@[simp] theorem State.setMode_sys (s : State) (m : Nat) : (s.setMode m).sys = s.sys := rfl
@[simp] theorem State.setMode_ticks (s : State) (m : Nat) : (s.setMode m).ticks = s.ticks := rfl
@[simp] theorem State.setMode_inputs (s : State) (m : Nat) : (s.setMode m).inputs = s.inputs := rfl
@[simp] theorem State.setMode_peers (s : State) (m : Nat) : (s.setMode m).peers = s.peers := rfl
@[simp] theorem State.setMode_retry (s : State) (m : Nat) : (s.setMode m).retry = s.retry := rfl
@[simp] theorem State.setMode_regs_wb (s : State) (m : Nat) : (s.setMode m).regs.wb = s.regs.wb := rfl
@[simp] theorem State.setMode_regs_wl (s : State) (m : Nat) : (s.setMode m).regs.wl = s.regs.wl := rfl
@[simp] theorem State.setMode_regs_cbase (s : State) (m : Nat) : (s.setMode m).regs.cbase = s.regs.cbase := rfl
@[simp] theorem State.setMode_regs_wflo (s : State) (m : Nat) : (s.setMode m).regs.wflo = s.regs.wflo := rfl
@[simp] theorem State.setMode_regs_wfhi (s : State) (m : Nat) : (s.setMode m).regs.wfhi = s.regs.wfhi := rfl
@[simp] theorem State.setMode_regs_scbase (s : State) (m : Nat) : (s.setMode m).regs.scbase = s.regs.scbase := rfl
@[simp] theorem State.setMode_regs_twin (s : State) (m : Nat) : (s.setMode m).regs.twin = s.regs.twin := rfl
@[simp] theorem State.setMode_regs_utwin (s : State) (m : Nat) : (s.setMode m).regs.utwin = s.regs.utwin := rfl
@[simp] theorem State.setMode_regs_tsave (s : State) (m : Nat) : (s.setMode m).regs.tsave = s.regs.tsave := rfl
@[simp] theorem State.setMode_regs_tcause (s : State) (m : Nat) : (s.setMode m).regs.tcause = s.regs.tcause := rfl
@[simp] theorem State.setMode_regs_tinfo (s : State) (m : Nat) : (s.setMode m).regs.tinfo = s.regs.tinfo := rfl
@[simp] theorem State.setMode_regs_utsave (s : State) (m : Nat) : (s.setMode m).regs.utsave = s.regs.utsave := rfl
@[simp] theorem State.setMode_regs_utcause (s : State) (m : Nat) : (s.setMode m).regs.utcause = s.regs.utcause := rfl
@[simp] theorem State.setMode_regs_utinfo (s : State) (m : Nat) : (s.setMode m).regs.utinfo = s.regs.utinfo := rfl
@[simp] theorem State.setMode_regs_tdeleg (s : State) (m : Nat) : (s.setMode m).regs.tdeleg = s.regs.tdeleg := rfl
@[simp] theorem State.setMode_regs_frmode (s : State) (m : Nat) : (s.setMode m).regs.frmode = s.regs.frmode := rfl
@[simp] theorem State.setMode_regs_frlo (s : State) (m : Nat) : (s.setMode m).regs.frlo = s.regs.frlo := rfl
@[simp] theorem State.setMode_regs_frhi (s : State) (m : Nat) : (s.setMode m).regs.frhi = s.regs.frhi := rfl
@[simp] theorem State.setMode_regs_tclk (s : State) (m : Nat) : (s.setMode m).regs.tclk = s.regs.tclk := rfl
@[simp] theorem State.setMode_regs_tbudget (s : State) (m : Nat) : (s.setMode m).regs.tbudget = s.regs.tbudget := rfl
@[simp] theorem State.setMode_regs_lnid (s : State) (m : Nat) : (s.setMode m).regs.lnid = s.regs.lnid := rfl
@[simp] theorem State.setMode_regs_fpctl (s : State) (m : Nat) : (s.setMode m).regs.fpctl = s.regs.fpctl := rfl
@[simp] theorem State.setMode_regs_seed (s : State) (m : Nat) : (s.setMode m).regs.seed = s.regs.seed := rfl
@[simp] theorem State.setMode_regs_asid (s : State) (m : Nat) : (s.setMode m).regs.asid = s.regs.asid := rfl
@[simp] theorem State.setMode_regs_partid (s : State) (m : Nat) : (s.setMode m).regs.partid = s.regs.partid := rfl
@[simp] theorem State.setMode_regs_devnum (s : State) (m : Nat) : (s.setMode m).regs.devnum = s.regs.devnum := rfl
@[simp] theorem State.setMode_regs_asidtab (s : State) (m : Nat) : (s.setMode m).regs.asidtab = s.regs.asidtab := rfl
@[simp] theorem State.setMode_regs_sroot (s : State) (m : Nat) : (s.setMode m).regs.sroot = s.regs.sroot := rfl
@[simp] theorem State.setMode_regs_unkdist (s : State) (m : Nat) : (s.setMode m).regs.unkdist = s.regs.unkdist := rfl
@[simp] theorem State.setMode_regs_lsfa (s : State) (m : Nat) : (s.setMode m).regs.lsfa = s.regs.lsfa := rfl
@[simp] theorem State.setMode_regs_pka (s : State) (m : Nat) : (s.setMode m).regs.pka = s.regs.pka := rfl
@[simp] theorem State.setMode_regs_lsown (s : State) (m : Nat) : (s.setMode m).regs.lsown = s.regs.lsown := rfl
@[simp] theorem State.setMode_regs_ovfr (s : State) (m : Nat) : (s.setMode m).regs.ovfr = s.regs.ovfr := rfl
@[simp] theorem State.setMode_regs_wlctl (s : State) (m : Nat) : (s.setMode m).regs.wlctl = s.regs.wlctl := rfl
@[simp] theorem State.setMode_regs_mqweight (s : State) (m : Nat) : (s.setMode m).regs.mqweight = s.regs.mqweight := rfl
@[simp] theorem State.setMode_regs_impbnd (s : State) (m : Nat) : (s.setMode m).regs.impbnd = s.regs.impbnd := rfl
@[simp] theorem State.setMode_regs_hostbnd (s : State) (m : Nat) : (s.setMode m).regs.hostbnd = s.regs.hostbnd := rfl
@[simp] theorem State.setMode_regs_mmxwho (s : State) (m : Nat) : (s.setMode m).regs.mmxwho = s.regs.mmxwho := rfl
@[simp] theorem State.setMode_regs_cpquota (s : State) (m : Nat) : (s.setMode m).regs.cpquota = s.regs.cpquota := rfl
@[simp] theorem State.setMode_regs_cpways (s : State) (m : Nat) : (s.setMode m).regs.cpways = s.regs.cpways := rfl
@[simp] theorem State.setMode_regs_pwb (s : State) (m : Nat) : (s.setMode m).regs.pwb = s.regs.pwb := rfl
@[simp] theorem State.setMode_regs_pwl (s : State) (m : Nat) : (s.setMode m).regs.pwl = s.regs.pwl := rfl
@[simp] theorem State.setMode_regs_vt (s : State) (m : Nat) : (s.setMode m).regs.vt = s.regs.vt := rfl
@[simp] theorem State.setMode_regs_optwin (s : State) (m : Nat) : (s.setMode m).regs.optwin = s.regs.optwin := rfl
@[simp] theorem State.setMode_regs_dbgctl (s : State) (m : Nat) : (s.setMode m).regs.dbgctl = s.regs.dbgctl := rfl
@[simp] theorem State.setMode_regs_pmc (s : State) (m : Nat) : (s.setMode m).regs.pmc = s.regs.pmc := rfl
@[simp] theorem State.setMode_regs_pmsel (s : State) (m : Nat) : (s.setMode m).regs.pmsel = s.regs.pmsel := rfl
@[simp] theorem State.setStat_pc (s : State) (hi lo v : Nat) : (s.setStat hi lo v).pc = s.pc := rfl
@[simp] theorem State.setStat_cyc (s : State) (hi lo v : Nat) : (s.setStat hi lo v).cyc = s.cyc := rfl
@[simp] theorem State.setStat_core (s : State) (hi lo v : Nat) : (s.setStat hi lo v).core = s.core := rfl
@[simp] theorem State.setStat_mem (s : State) (hi lo v : Nat) : (s.setStat hi lo v).mem = s.mem := rfl
@[simp] theorem State.setStat_sched (s : State) (hi lo v : Nat) : (s.setStat hi lo v).sched = s.sched := rfl
@[simp] theorem State.setStat_opt (s : State) (hi lo v : Nat) : (s.setStat hi lo v).opt = s.opt := rfl
@[simp] theorem State.setStat_mu (s : State) (hi lo v : Nat) : (s.setStat hi lo v).mu = s.mu := rfl
@[simp] theorem State.setStat_eng (s : State) (hi lo v : Nat) : (s.setStat hi lo v).eng = s.eng := rfl
@[simp] theorem State.setStat_sys (s : State) (hi lo v : Nat) : (s.setStat hi lo v).sys = s.sys := rfl
@[simp] theorem State.setStat_ticks (s : State) (hi lo v : Nat) : (s.setStat hi lo v).ticks = s.ticks := rfl
@[simp] theorem State.setStat_inputs (s : State) (hi lo v : Nat) : (s.setStat hi lo v).inputs = s.inputs := rfl
@[simp] theorem State.setStat_peers (s : State) (hi lo v : Nat) : (s.setStat hi lo v).peers = s.peers := rfl
@[simp] theorem State.setStat_retry (s : State) (hi lo v : Nat) : (s.setStat hi lo v).retry = s.retry := rfl
@[simp] theorem State.setStat_regs_wb (s : State) (hi lo v : Nat) : (s.setStat hi lo v).regs.wb = s.regs.wb := rfl
@[simp] theorem State.setStat_regs_wl (s : State) (hi lo v : Nat) : (s.setStat hi lo v).regs.wl = s.regs.wl := rfl
@[simp] theorem State.setStat_regs_cbase (s : State) (hi lo v : Nat) : (s.setStat hi lo v).regs.cbase = s.regs.cbase := rfl
@[simp] theorem State.setStat_regs_wflo (s : State) (hi lo v : Nat) : (s.setStat hi lo v).regs.wflo = s.regs.wflo := rfl
@[simp] theorem State.setStat_regs_wfhi (s : State) (hi lo v : Nat) : (s.setStat hi lo v).regs.wfhi = s.regs.wfhi := rfl
@[simp] theorem State.setStat_regs_scbase (s : State) (hi lo v : Nat) : (s.setStat hi lo v).regs.scbase = s.regs.scbase := rfl
@[simp] theorem State.setStat_regs_twin (s : State) (hi lo v : Nat) : (s.setStat hi lo v).regs.twin = s.regs.twin := rfl
@[simp] theorem State.setStat_regs_utwin (s : State) (hi lo v : Nat) : (s.setStat hi lo v).regs.utwin = s.regs.utwin := rfl
@[simp] theorem State.setStat_regs_tsave (s : State) (hi lo v : Nat) : (s.setStat hi lo v).regs.tsave = s.regs.tsave := rfl
@[simp] theorem State.setStat_regs_tcause (s : State) (hi lo v : Nat) : (s.setStat hi lo v).regs.tcause = s.regs.tcause := rfl
@[simp] theorem State.setStat_regs_tinfo (s : State) (hi lo v : Nat) : (s.setStat hi lo v).regs.tinfo = s.regs.tinfo := rfl
@[simp] theorem State.setStat_regs_utsave (s : State) (hi lo v : Nat) : (s.setStat hi lo v).regs.utsave = s.regs.utsave := rfl
@[simp] theorem State.setStat_regs_utcause (s : State) (hi lo v : Nat) : (s.setStat hi lo v).regs.utcause = s.regs.utcause := rfl
@[simp] theorem State.setStat_regs_utinfo (s : State) (hi lo v : Nat) : (s.setStat hi lo v).regs.utinfo = s.regs.utinfo := rfl
@[simp] theorem State.setStat_regs_tdeleg (s : State) (hi lo v : Nat) : (s.setStat hi lo v).regs.tdeleg = s.regs.tdeleg := rfl
@[simp] theorem State.setStat_regs_frmode (s : State) (hi lo v : Nat) : (s.setStat hi lo v).regs.frmode = s.regs.frmode := rfl
@[simp] theorem State.setStat_regs_frlo (s : State) (hi lo v : Nat) : (s.setStat hi lo v).regs.frlo = s.regs.frlo := rfl
@[simp] theorem State.setStat_regs_frhi (s : State) (hi lo v : Nat) : (s.setStat hi lo v).regs.frhi = s.regs.frhi := rfl
@[simp] theorem State.setStat_regs_tclk (s : State) (hi lo v : Nat) : (s.setStat hi lo v).regs.tclk = s.regs.tclk := rfl
@[simp] theorem State.setStat_regs_tbudget (s : State) (hi lo v : Nat) : (s.setStat hi lo v).regs.tbudget = s.regs.tbudget := rfl
@[simp] theorem State.setStat_regs_lnid (s : State) (hi lo v : Nat) : (s.setStat hi lo v).regs.lnid = s.regs.lnid := rfl
@[simp] theorem State.setStat_regs_fpctl (s : State) (hi lo v : Nat) : (s.setStat hi lo v).regs.fpctl = s.regs.fpctl := rfl
@[simp] theorem State.setStat_regs_seed (s : State) (hi lo v : Nat) : (s.setStat hi lo v).regs.seed = s.regs.seed := rfl
@[simp] theorem State.setStat_regs_asid (s : State) (hi lo v : Nat) : (s.setStat hi lo v).regs.asid = s.regs.asid := rfl
@[simp] theorem State.setStat_regs_partid (s : State) (hi lo v : Nat) : (s.setStat hi lo v).regs.partid = s.regs.partid := rfl
@[simp] theorem State.setStat_regs_devnum (s : State) (hi lo v : Nat) : (s.setStat hi lo v).regs.devnum = s.regs.devnum := rfl
@[simp] theorem State.setStat_regs_asidtab (s : State) (hi lo v : Nat) : (s.setStat hi lo v).regs.asidtab = s.regs.asidtab := rfl
@[simp] theorem State.setStat_regs_sroot (s : State) (hi lo v : Nat) : (s.setStat hi lo v).regs.sroot = s.regs.sroot := rfl
@[simp] theorem State.setStat_regs_unkdist (s : State) (hi lo v : Nat) : (s.setStat hi lo v).regs.unkdist = s.regs.unkdist := rfl
@[simp] theorem State.setStat_regs_lsfa (s : State) (hi lo v : Nat) : (s.setStat hi lo v).regs.lsfa = s.regs.lsfa := rfl
@[simp] theorem State.setStat_regs_pka (s : State) (hi lo v : Nat) : (s.setStat hi lo v).regs.pka = s.regs.pka := rfl
@[simp] theorem State.setStat_regs_lsown (s : State) (hi lo v : Nat) : (s.setStat hi lo v).regs.lsown = s.regs.lsown := rfl
@[simp] theorem State.setStat_regs_ovfr (s : State) (hi lo v : Nat) : (s.setStat hi lo v).regs.ovfr = s.regs.ovfr := rfl
@[simp] theorem State.setStat_regs_wlctl (s : State) (hi lo v : Nat) : (s.setStat hi lo v).regs.wlctl = s.regs.wlctl := rfl
@[simp] theorem State.setStat_regs_mqweight (s : State) (hi lo v : Nat) : (s.setStat hi lo v).regs.mqweight = s.regs.mqweight := rfl
@[simp] theorem State.setStat_regs_impbnd (s : State) (hi lo v : Nat) : (s.setStat hi lo v).regs.impbnd = s.regs.impbnd := rfl
@[simp] theorem State.setStat_regs_hostbnd (s : State) (hi lo v : Nat) : (s.setStat hi lo v).regs.hostbnd = s.regs.hostbnd := rfl
@[simp] theorem State.setStat_regs_mmxwho (s : State) (hi lo v : Nat) : (s.setStat hi lo v).regs.mmxwho = s.regs.mmxwho := rfl
@[simp] theorem State.setStat_regs_cpquota (s : State) (hi lo v : Nat) : (s.setStat hi lo v).regs.cpquota = s.regs.cpquota := rfl
@[simp] theorem State.setStat_regs_cpways (s : State) (hi lo v : Nat) : (s.setStat hi lo v).regs.cpways = s.regs.cpways := rfl
@[simp] theorem State.setStat_regs_pwb (s : State) (hi lo v : Nat) : (s.setStat hi lo v).regs.pwb = s.regs.pwb := rfl
@[simp] theorem State.setStat_regs_pwl (s : State) (hi lo v : Nat) : (s.setStat hi lo v).regs.pwl = s.regs.pwl := rfl
@[simp] theorem State.setStat_regs_vt (s : State) (hi lo v : Nat) : (s.setStat hi lo v).regs.vt = s.regs.vt := rfl
@[simp] theorem State.setStat_regs_optwin (s : State) (hi lo v : Nat) : (s.setStat hi lo v).regs.optwin = s.regs.optwin := rfl
@[simp] theorem State.setStat_regs_dbgctl (s : State) (hi lo v : Nat) : (s.setStat hi lo v).regs.dbgctl = s.regs.dbgctl := rfl
@[simp] theorem State.setStat_regs_pmc (s : State) (hi lo v : Nat) : (s.setStat hi lo v).regs.pmc = s.regs.pmc := rfl
@[simp] theorem State.setStat_regs_pmsel (s : State) (hi lo v : Nat) : (s.setStat hi lo v).regs.pmsel = s.regs.pmsel := rfl
@[simp] theorem State.setWindow_pc (s : State) (b l : Nat) : (s.setWindow b l).pc = s.pc := rfl
@[simp] theorem State.setWindow_cyc (s : State) (b l : Nat) : (s.setWindow b l).cyc = s.cyc := rfl
@[simp] theorem State.setWindow_core (s : State) (b l : Nat) : (s.setWindow b l).core = s.core := rfl
@[simp] theorem State.setWindow_mem (s : State) (b l : Nat) : (s.setWindow b l).mem = s.mem := rfl
@[simp] theorem State.setWindow_sched (s : State) (b l : Nat) : (s.setWindow b l).sched = s.sched := rfl
@[simp] theorem State.setWindow_opt (s : State) (b l : Nat) : (s.setWindow b l).opt = s.opt := rfl
@[simp] theorem State.setWindow_mu (s : State) (b l : Nat) : (s.setWindow b l).mu = s.mu := rfl
@[simp] theorem State.setWindow_eng (s : State) (b l : Nat) : (s.setWindow b l).eng = s.eng := rfl
@[simp] theorem State.setWindow_sys (s : State) (b l : Nat) : (s.setWindow b l).sys = s.sys := rfl
@[simp] theorem State.setWindow_ticks (s : State) (b l : Nat) : (s.setWindow b l).ticks = s.ticks := rfl
@[simp] theorem State.setWindow_inputs (s : State) (b l : Nat) : (s.setWindow b l).inputs = s.inputs := rfl
@[simp] theorem State.setWindow_peers (s : State) (b l : Nat) : (s.setWindow b l).peers = s.peers := rfl
@[simp] theorem State.setWindow_retry (s : State) (b l : Nat) : (s.setWindow b l).retry = s.retry := rfl
@[simp] theorem State.setWindow_regs_cbase (s : State) (b l : Nat) : (s.setWindow b l).regs.cbase = s.regs.cbase := rfl
@[simp] theorem State.setWindow_regs_wflo (s : State) (b l : Nat) : (s.setWindow b l).regs.wflo = s.regs.wflo := rfl
@[simp] theorem State.setWindow_regs_wfhi (s : State) (b l : Nat) : (s.setWindow b l).regs.wfhi = s.regs.wfhi := rfl
@[simp] theorem State.setWindow_regs_scbase (s : State) (b l : Nat) : (s.setWindow b l).regs.scbase = s.regs.scbase := rfl
@[simp] theorem State.setWindow_regs_twin (s : State) (b l : Nat) : (s.setWindow b l).regs.twin = s.regs.twin := rfl
@[simp] theorem State.setWindow_regs_utwin (s : State) (b l : Nat) : (s.setWindow b l).regs.utwin = s.regs.utwin := rfl
@[simp] theorem State.setWindow_regs_tsave (s : State) (b l : Nat) : (s.setWindow b l).regs.tsave = s.regs.tsave := rfl
@[simp] theorem State.setWindow_regs_tcause (s : State) (b l : Nat) : (s.setWindow b l).regs.tcause = s.regs.tcause := rfl
@[simp] theorem State.setWindow_regs_tinfo (s : State) (b l : Nat) : (s.setWindow b l).regs.tinfo = s.regs.tinfo := rfl
@[simp] theorem State.setWindow_regs_utsave (s : State) (b l : Nat) : (s.setWindow b l).regs.utsave = s.regs.utsave := rfl
@[simp] theorem State.setWindow_regs_utcause (s : State) (b l : Nat) : (s.setWindow b l).regs.utcause = s.regs.utcause := rfl
@[simp] theorem State.setWindow_regs_utinfo (s : State) (b l : Nat) : (s.setWindow b l).regs.utinfo = s.regs.utinfo := rfl
@[simp] theorem State.setWindow_regs_tdeleg (s : State) (b l : Nat) : (s.setWindow b l).regs.tdeleg = s.regs.tdeleg := rfl
@[simp] theorem State.setWindow_regs_frmode (s : State) (b l : Nat) : (s.setWindow b l).regs.frmode = s.regs.frmode := rfl
@[simp] theorem State.setWindow_regs_frlo (s : State) (b l : Nat) : (s.setWindow b l).regs.frlo = s.regs.frlo := rfl
@[simp] theorem State.setWindow_regs_frhi (s : State) (b l : Nat) : (s.setWindow b l).regs.frhi = s.regs.frhi := rfl
@[simp] theorem State.setWindow_regs_tclk (s : State) (b l : Nat) : (s.setWindow b l).regs.tclk = s.regs.tclk := rfl
@[simp] theorem State.setWindow_regs_tbudget (s : State) (b l : Nat) : (s.setWindow b l).regs.tbudget = s.regs.tbudget := rfl
@[simp] theorem State.setWindow_regs_taskstat (s : State) (b l : Nat) : (s.setWindow b l).regs.taskstat = s.regs.taskstat := rfl
@[simp] theorem State.setWindow_regs_lnid (s : State) (b l : Nat) : (s.setWindow b l).regs.lnid = s.regs.lnid := rfl
@[simp] theorem State.setWindow_regs_fpctl (s : State) (b l : Nat) : (s.setWindow b l).regs.fpctl = s.regs.fpctl := rfl
@[simp] theorem State.setWindow_regs_seed (s : State) (b l : Nat) : (s.setWindow b l).regs.seed = s.regs.seed := rfl
@[simp] theorem State.setWindow_regs_asid (s : State) (b l : Nat) : (s.setWindow b l).regs.asid = s.regs.asid := rfl
@[simp] theorem State.setWindow_regs_partid (s : State) (b l : Nat) : (s.setWindow b l).regs.partid = s.regs.partid := rfl
@[simp] theorem State.setWindow_regs_devnum (s : State) (b l : Nat) : (s.setWindow b l).regs.devnum = s.regs.devnum := rfl
@[simp] theorem State.setWindow_regs_asidtab (s : State) (b l : Nat) : (s.setWindow b l).regs.asidtab = s.regs.asidtab := rfl
@[simp] theorem State.setWindow_regs_sroot (s : State) (b l : Nat) : (s.setWindow b l).regs.sroot = s.regs.sroot := rfl
@[simp] theorem State.setWindow_regs_unkdist (s : State) (b l : Nat) : (s.setWindow b l).regs.unkdist = s.regs.unkdist := rfl
@[simp] theorem State.setWindow_regs_lsfa (s : State) (b l : Nat) : (s.setWindow b l).regs.lsfa = s.regs.lsfa := rfl
@[simp] theorem State.setWindow_regs_pka (s : State) (b l : Nat) : (s.setWindow b l).regs.pka = s.regs.pka := rfl
@[simp] theorem State.setWindow_regs_lsown (s : State) (b l : Nat) : (s.setWindow b l).regs.lsown = s.regs.lsown := rfl
@[simp] theorem State.setWindow_regs_ovfr (s : State) (b l : Nat) : (s.setWindow b l).regs.ovfr = s.regs.ovfr := rfl
@[simp] theorem State.setWindow_regs_wlctl (s : State) (b l : Nat) : (s.setWindow b l).regs.wlctl = s.regs.wlctl := rfl
@[simp] theorem State.setWindow_regs_mqweight (s : State) (b l : Nat) : (s.setWindow b l).regs.mqweight = s.regs.mqweight := rfl
@[simp] theorem State.setWindow_regs_impbnd (s : State) (b l : Nat) : (s.setWindow b l).regs.impbnd = s.regs.impbnd := rfl
@[simp] theorem State.setWindow_regs_hostbnd (s : State) (b l : Nat) : (s.setWindow b l).regs.hostbnd = s.regs.hostbnd := rfl
@[simp] theorem State.setWindow_regs_mmxwho (s : State) (b l : Nat) : (s.setWindow b l).regs.mmxwho = s.regs.mmxwho := rfl
@[simp] theorem State.setWindow_regs_cpquota (s : State) (b l : Nat) : (s.setWindow b l).regs.cpquota = s.regs.cpquota := rfl
@[simp] theorem State.setWindow_regs_cpways (s : State) (b l : Nat) : (s.setWindow b l).regs.cpways = s.regs.cpways := rfl
@[simp] theorem State.setWindow_regs_pwb (s : State) (b l : Nat) : (s.setWindow b l).regs.pwb = s.regs.pwb := rfl
@[simp] theorem State.setWindow_regs_pwl (s : State) (b l : Nat) : (s.setWindow b l).regs.pwl = s.regs.pwl := rfl
@[simp] theorem State.setWindow_regs_vt (s : State) (b l : Nat) : (s.setWindow b l).regs.vt = s.regs.vt := rfl
@[simp] theorem State.setWindow_regs_optwin (s : State) (b l : Nat) : (s.setWindow b l).regs.optwin = s.regs.optwin := rfl
@[simp] theorem State.setWindow_regs_dbgctl (s : State) (b l : Nat) : (s.setWindow b l).regs.dbgctl = s.regs.dbgctl := rfl
@[simp] theorem State.setWindow_regs_pmc (s : State) (b l : Nat) : (s.setWindow b l).regs.pmc = s.regs.pmc := rfl
@[simp] theorem State.setWindow_regs_pmsel (s : State) (b l : Nat) : (s.setWindow b l).regs.pmsel = s.regs.pmsel := rfl
@[simp] theorem State.setCell_pc (s : State) (p : Nat) (c : Cell) : (s.setCell p c).pc = s.pc := rfl
@[simp] theorem State.setCell_cyc (s : State) (p : Nat) (c : Cell) : (s.setCell p c).cyc = s.cyc := rfl
@[simp] theorem State.setCell_regs (s : State) (p : Nat) (c : Cell) : (s.setCell p c).regs = s.regs := rfl
@[simp] theorem State.setCell_mem (s : State) (p : Nat) (c : Cell) : (s.setCell p c).mem = s.mem := rfl
@[simp] theorem State.setCell_sched (s : State) (p : Nat) (c : Cell) : (s.setCell p c).sched = s.sched := rfl
@[simp] theorem State.setCell_opt (s : State) (p : Nat) (c : Cell) : (s.setCell p c).opt = s.opt := rfl
@[simp] theorem State.setCell_mu (s : State) (p : Nat) (c : Cell) : (s.setCell p c).mu = s.mu := rfl
@[simp] theorem State.setCell_eng (s : State) (p : Nat) (c : Cell) : (s.setCell p c).eng = s.eng := rfl
@[simp] theorem State.setCell_sys (s : State) (p : Nat) (c : Cell) : (s.setCell p c).sys = s.sys := rfl
@[simp] theorem State.setCell_ticks (s : State) (p : Nat) (c : Cell) : (s.setCell p c).ticks = s.ticks := rfl
@[simp] theorem State.setCell_inputs (s : State) (p : Nat) (c : Cell) : (s.setCell p c).inputs = s.inputs := rfl
@[simp] theorem State.setCell_peers (s : State) (p : Nat) (c : Cell) : (s.setCell p c).peers = s.peers := rfl
@[simp] theorem State.setCell_retry (s : State) (p : Nat) (c : Cell) : (s.setCell p c).retry = s.retry := rfl
@[simp] theorem State.setCell_core_number (s : State) (p : Nat) (c : Cell) : (s.setCell p c).core.number = s.core.number := rfl
@[simp] theorem State.setCell_core_binds (s : State) (p : Nat) (c : Cell) : (s.setCell p c).core.binds = s.core.binds := rfl
@[simp] theorem State.setCell_core_nextBind (s : State) (p : Nat) (c : Cell) : (s.setCell p c).core.nextBind = s.core.nextBind := rfl
@[simp] theorem State.setCell_core_queues (s : State) (p : Nat) (c : Cell) : (s.setCell p c).core.queues = s.core.queues := rfl
@[simp] theorem State.setCell_core_rings (s : State) (p : Nat) (c : Cell) : (s.setCell p c).core.rings = s.core.rings := rfl
@[simp] theorem State.setCell_core_ringWaiters (s : State) (p : Nat) (c : Cell) : (s.setCell p c).core.ringWaiters = s.core.ringWaiters := rfl
@[simp] theorem State.setCell_core_ringIdle (s : State) (p : Nat) (c : Cell) : (s.setCell p c).core.ringIdle = s.core.ringIdle := rfl
@[simp] theorem State.setCell_core_wait (s : State) (p : Nat) (c : Cell) : (s.setCell p c).core.wait = s.core.wait := rfl
@[simp] theorem State.setCell_core_tlb (s : State) (p : Nat) (c : Cell) : (s.setCell p c).core.tlb = s.core.tlb := rfl
@[simp] theorem State.setCell_core_muTlb (s : State) (p : Nat) (c : Cell) : (s.setCell p c).core.muTlb = s.core.muTlb := rfl
@[simp] theorem State.setCell_core_region (s : State) (p : Nat) (c : Cell) : (s.setCell p c).core.region = s.core.region := rfl
@[simp] theorem State.setCell_core_tableHit (s : State) (p : Nat) (c : Cell) : (s.setCell p c).core.tableHit = s.core.tableHit := rfl
@[simp] theorem State.setCell_core_mail (s : State) (p : Nat) (c : Cell) : (s.setCell p c).core.mail = s.core.mail := rfl
@[simp] theorem State.setCell_core_machine (s : State) (p : Nat) (c : Cell) : (s.setCell p c).core.machine = s.core.machine := rfl
@[simp] theorem State.setCell_core_idle (s : State) (p : Nat) (c : Cell) : (s.setCell p c).core.idle = s.core.idle := rfl
@[simp] theorem State.setCell_core_freeSince (s : State) (p : Nat) (c : Cell) : (s.setCell p c).core.freeSince = s.core.freeSince := rfl
@[simp] theorem State.setCell_core_lostWrite (s : State) (p : Nat) (c : Cell) : (s.setCell p c).core.lostWrite = s.core.lostWrite := rfl
@[simp] theorem State.setCell_core_overLink (s : State) (p : Nat) (c : Cell) : (s.setCell p c).core.overLink = s.core.overLink := rfl
@[simp] theorem State.setQueue_pc (s : State) (q : Nat) (l : List QEntry) : (s.setQueue q l).pc = s.pc := rfl
@[simp] theorem State.setQueue_cyc (s : State) (q : Nat) (l : List QEntry) : (s.setQueue q l).cyc = s.cyc := rfl
@[simp] theorem State.setQueue_regs (s : State) (q : Nat) (l : List QEntry) : (s.setQueue q l).regs = s.regs := rfl
@[simp] theorem State.setQueue_mem (s : State) (q : Nat) (l : List QEntry) : (s.setQueue q l).mem = s.mem := rfl
@[simp] theorem State.setQueue_sched (s : State) (q : Nat) (l : List QEntry) : (s.setQueue q l).sched = s.sched := rfl
@[simp] theorem State.setQueue_opt (s : State) (q : Nat) (l : List QEntry) : (s.setQueue q l).opt = s.opt := rfl
@[simp] theorem State.setQueue_mu (s : State) (q : Nat) (l : List QEntry) : (s.setQueue q l).mu = s.mu := rfl
@[simp] theorem State.setQueue_eng (s : State) (q : Nat) (l : List QEntry) : (s.setQueue q l).eng = s.eng := rfl
@[simp] theorem State.setQueue_sys (s : State) (q : Nat) (l : List QEntry) : (s.setQueue q l).sys = s.sys := rfl
@[simp] theorem State.setQueue_ticks (s : State) (q : Nat) (l : List QEntry) : (s.setQueue q l).ticks = s.ticks := rfl
@[simp] theorem State.setQueue_inputs (s : State) (q : Nat) (l : List QEntry) : (s.setQueue q l).inputs = s.inputs := rfl
@[simp] theorem State.setQueue_peers (s : State) (q : Nat) (l : List QEntry) : (s.setQueue q l).peers = s.peers := rfl
@[simp] theorem State.setQueue_retry (s : State) (q : Nat) (l : List QEntry) : (s.setQueue q l).retry = s.retry := rfl
@[simp] theorem State.setQueue_core_number (s : State) (q : Nat) (l : List QEntry) : (s.setQueue q l).core.number = s.core.number := rfl
@[simp] theorem State.setQueue_core_store (s : State) (q : Nat) (l : List QEntry) : (s.setQueue q l).core.store = s.core.store := rfl
@[simp] theorem State.setQueue_core_binds (s : State) (q : Nat) (l : List QEntry) : (s.setQueue q l).core.binds = s.core.binds := rfl
@[simp] theorem State.setQueue_core_nextBind (s : State) (q : Nat) (l : List QEntry) : (s.setQueue q l).core.nextBind = s.core.nextBind := rfl
@[simp] theorem State.setQueue_core_rings (s : State) (q : Nat) (l : List QEntry) : (s.setQueue q l).core.rings = s.core.rings := rfl
@[simp] theorem State.setQueue_core_ringWaiters (s : State) (q : Nat) (l : List QEntry) : (s.setQueue q l).core.ringWaiters = s.core.ringWaiters := rfl
@[simp] theorem State.setQueue_core_ringIdle (s : State) (q : Nat) (l : List QEntry) : (s.setQueue q l).core.ringIdle = s.core.ringIdle := rfl
@[simp] theorem State.setQueue_core_wait (s : State) (q : Nat) (l : List QEntry) : (s.setQueue q l).core.wait = s.core.wait := rfl
@[simp] theorem State.setQueue_core_tlb (s : State) (q : Nat) (l : List QEntry) : (s.setQueue q l).core.tlb = s.core.tlb := rfl
@[simp] theorem State.setQueue_core_muTlb (s : State) (q : Nat) (l : List QEntry) : (s.setQueue q l).core.muTlb = s.core.muTlb := rfl
@[simp] theorem State.setQueue_core_region (s : State) (q : Nat) (l : List QEntry) : (s.setQueue q l).core.region = s.core.region := rfl
@[simp] theorem State.setQueue_core_tableHit (s : State) (q : Nat) (l : List QEntry) : (s.setQueue q l).core.tableHit = s.core.tableHit := rfl
@[simp] theorem State.setQueue_core_mail (s : State) (q : Nat) (l : List QEntry) : (s.setQueue q l).core.mail = s.core.mail := rfl
@[simp] theorem State.setQueue_core_machine (s : State) (q : Nat) (l : List QEntry) : (s.setQueue q l).core.machine = s.core.machine := rfl
@[simp] theorem State.setQueue_core_idle (s : State) (q : Nat) (l : List QEntry) : (s.setQueue q l).core.idle = s.core.idle := rfl
@[simp] theorem State.setQueue_core_freeSince (s : State) (q : Nat) (l : List QEntry) : (s.setQueue q l).core.freeSince = s.core.freeSince := rfl
@[simp] theorem State.setQueue_core_lostWrite (s : State) (q : Nat) (l : List QEntry) : (s.setQueue q l).core.lostWrite = s.core.lostWrite := rfl
@[simp] theorem State.setQueue_core_overLink (s : State) (q : Nat) (l : List QEntry) : (s.setQueue q l).core.overLink = s.core.overLink := rfl
@[simp] theorem State.setRing_pc (s : State) (k : Nat) (l : List Word) : (s.setRing k l).pc = s.pc := rfl
@[simp] theorem State.setRing_cyc (s : State) (k : Nat) (l : List Word) : (s.setRing k l).cyc = s.cyc := rfl
@[simp] theorem State.setRing_regs (s : State) (k : Nat) (l : List Word) : (s.setRing k l).regs = s.regs := rfl
@[simp] theorem State.setRing_mem (s : State) (k : Nat) (l : List Word) : (s.setRing k l).mem = s.mem := rfl
@[simp] theorem State.setRing_sched (s : State) (k : Nat) (l : List Word) : (s.setRing k l).sched = s.sched := rfl
@[simp] theorem State.setRing_opt (s : State) (k : Nat) (l : List Word) : (s.setRing k l).opt = s.opt := rfl
@[simp] theorem State.setRing_mu (s : State) (k : Nat) (l : List Word) : (s.setRing k l).mu = s.mu := rfl
@[simp] theorem State.setRing_eng (s : State) (k : Nat) (l : List Word) : (s.setRing k l).eng = s.eng := rfl
@[simp] theorem State.setRing_sys (s : State) (k : Nat) (l : List Word) : (s.setRing k l).sys = s.sys := rfl
@[simp] theorem State.setRing_ticks (s : State) (k : Nat) (l : List Word) : (s.setRing k l).ticks = s.ticks := rfl
@[simp] theorem State.setRing_inputs (s : State) (k : Nat) (l : List Word) : (s.setRing k l).inputs = s.inputs := rfl
@[simp] theorem State.setRing_peers (s : State) (k : Nat) (l : List Word) : (s.setRing k l).peers = s.peers := rfl
@[simp] theorem State.setRing_retry (s : State) (k : Nat) (l : List Word) : (s.setRing k l).retry = s.retry := rfl
@[simp] theorem State.setRing_core_number (s : State) (k : Nat) (l : List Word) : (s.setRing k l).core.number = s.core.number := rfl
@[simp] theorem State.setRing_core_store (s : State) (k : Nat) (l : List Word) : (s.setRing k l).core.store = s.core.store := rfl
@[simp] theorem State.setRing_core_binds (s : State) (k : Nat) (l : List Word) : (s.setRing k l).core.binds = s.core.binds := rfl
@[simp] theorem State.setRing_core_nextBind (s : State) (k : Nat) (l : List Word) : (s.setRing k l).core.nextBind = s.core.nextBind := rfl
@[simp] theorem State.setRing_core_queues (s : State) (k : Nat) (l : List Word) : (s.setRing k l).core.queues = s.core.queues := rfl
@[simp] theorem State.setRing_core_ringWaiters (s : State) (k : Nat) (l : List Word) : (s.setRing k l).core.ringWaiters = s.core.ringWaiters := rfl
@[simp] theorem State.setRing_core_ringIdle (s : State) (k : Nat) (l : List Word) : (s.setRing k l).core.ringIdle = s.core.ringIdle := rfl
@[simp] theorem State.setRing_core_wait (s : State) (k : Nat) (l : List Word) : (s.setRing k l).core.wait = s.core.wait := rfl
@[simp] theorem State.setRing_core_tlb (s : State) (k : Nat) (l : List Word) : (s.setRing k l).core.tlb = s.core.tlb := rfl
@[simp] theorem State.setRing_core_muTlb (s : State) (k : Nat) (l : List Word) : (s.setRing k l).core.muTlb = s.core.muTlb := rfl
@[simp] theorem State.setRing_core_region (s : State) (k : Nat) (l : List Word) : (s.setRing k l).core.region = s.core.region := rfl
@[simp] theorem State.setRing_core_tableHit (s : State) (k : Nat) (l : List Word) : (s.setRing k l).core.tableHit = s.core.tableHit := rfl
@[simp] theorem State.setRing_core_mail (s : State) (k : Nat) (l : List Word) : (s.setRing k l).core.mail = s.core.mail := rfl
@[simp] theorem State.setRing_core_machine (s : State) (k : Nat) (l : List Word) : (s.setRing k l).core.machine = s.core.machine := rfl
@[simp] theorem State.setRing_core_idle (s : State) (k : Nat) (l : List Word) : (s.setRing k l).core.idle = s.core.idle := rfl
@[simp] theorem State.setRing_core_freeSince (s : State) (k : Nat) (l : List Word) : (s.setRing k l).core.freeSince = s.core.freeSince := rfl
@[simp] theorem State.setRing_core_lostWrite (s : State) (k : Nat) (l : List Word) : (s.setRing k l).core.lostWrite = s.core.lostWrite := rfl
@[simp] theorem State.setRing_core_overLink (s : State) (k : Nat) (l : List Word) : (s.setRing k l).core.overLink = s.core.overLink := rfl
@[simp] theorem State.count_pc (s : State) (c n : Nat) : (s.count c n).pc = s.pc := rfl
@[simp] theorem State.count_cyc (s : State) (c n : Nat) : (s.count c n).cyc = s.cyc := rfl
@[simp] theorem State.count_core (s : State) (c n : Nat) : (s.count c n).core = s.core := rfl
@[simp] theorem State.count_mem (s : State) (c n : Nat) : (s.count c n).mem = s.mem := rfl
@[simp] theorem State.count_sched (s : State) (c n : Nat) : (s.count c n).sched = s.sched := rfl
@[simp] theorem State.count_opt (s : State) (c n : Nat) : (s.count c n).opt = s.opt := rfl
@[simp] theorem State.count_mu (s : State) (c n : Nat) : (s.count c n).mu = s.mu := rfl
@[simp] theorem State.count_eng (s : State) (c n : Nat) : (s.count c n).eng = s.eng := rfl
@[simp] theorem State.count_sys (s : State) (c n : Nat) : (s.count c n).sys = s.sys := rfl
@[simp] theorem State.count_ticks (s : State) (c n : Nat) : (s.count c n).ticks = s.ticks := rfl
@[simp] theorem State.count_inputs (s : State) (c n : Nat) : (s.count c n).inputs = s.inputs := rfl
@[simp] theorem State.count_peers (s : State) (c n : Nat) : (s.count c n).peers = s.peers := rfl
@[simp] theorem State.count_retry (s : State) (c n : Nat) : (s.count c n).retry = s.retry := rfl
@[simp] theorem State.count_regs_wb (s : State) (c n : Nat) : (s.count c n).regs.wb = s.regs.wb := rfl
@[simp] theorem State.count_regs_wl (s : State) (c n : Nat) : (s.count c n).regs.wl = s.regs.wl := rfl
@[simp] theorem State.count_regs_cbase (s : State) (c n : Nat) : (s.count c n).regs.cbase = s.regs.cbase := rfl
@[simp] theorem State.count_regs_wflo (s : State) (c n : Nat) : (s.count c n).regs.wflo = s.regs.wflo := rfl
@[simp] theorem State.count_regs_wfhi (s : State) (c n : Nat) : (s.count c n).regs.wfhi = s.regs.wfhi := rfl
@[simp] theorem State.count_regs_scbase (s : State) (c n : Nat) : (s.count c n).regs.scbase = s.regs.scbase := rfl
@[simp] theorem State.count_regs_twin (s : State) (c n : Nat) : (s.count c n).regs.twin = s.regs.twin := rfl
@[simp] theorem State.count_regs_utwin (s : State) (c n : Nat) : (s.count c n).regs.utwin = s.regs.utwin := rfl
@[simp] theorem State.count_regs_tsave (s : State) (c n : Nat) : (s.count c n).regs.tsave = s.regs.tsave := rfl
@[simp] theorem State.count_regs_tcause (s : State) (c n : Nat) : (s.count c n).regs.tcause = s.regs.tcause := rfl
@[simp] theorem State.count_regs_tinfo (s : State) (c n : Nat) : (s.count c n).regs.tinfo = s.regs.tinfo := rfl
@[simp] theorem State.count_regs_utsave (s : State) (c n : Nat) : (s.count c n).regs.utsave = s.regs.utsave := rfl
@[simp] theorem State.count_regs_utcause (s : State) (c n : Nat) : (s.count c n).regs.utcause = s.regs.utcause := rfl
@[simp] theorem State.count_regs_utinfo (s : State) (c n : Nat) : (s.count c n).regs.utinfo = s.regs.utinfo := rfl
@[simp] theorem State.count_regs_tdeleg (s : State) (c n : Nat) : (s.count c n).regs.tdeleg = s.regs.tdeleg := rfl
@[simp] theorem State.count_regs_frmode (s : State) (c n : Nat) : (s.count c n).regs.frmode = s.regs.frmode := rfl
@[simp] theorem State.count_regs_frlo (s : State) (c n : Nat) : (s.count c n).regs.frlo = s.regs.frlo := rfl
@[simp] theorem State.count_regs_frhi (s : State) (c n : Nat) : (s.count c n).regs.frhi = s.regs.frhi := rfl
@[simp] theorem State.count_regs_tclk (s : State) (c n : Nat) : (s.count c n).regs.tclk = s.regs.tclk := rfl
@[simp] theorem State.count_regs_tbudget (s : State) (c n : Nat) : (s.count c n).regs.tbudget = s.regs.tbudget := rfl
@[simp] theorem State.count_regs_taskstat (s : State) (c n : Nat) : (s.count c n).regs.taskstat = s.regs.taskstat := rfl
@[simp] theorem State.count_regs_lnid (s : State) (c n : Nat) : (s.count c n).regs.lnid = s.regs.lnid := rfl
@[simp] theorem State.count_regs_fpctl (s : State) (c n : Nat) : (s.count c n).regs.fpctl = s.regs.fpctl := rfl
@[simp] theorem State.count_regs_seed (s : State) (c n : Nat) : (s.count c n).regs.seed = s.regs.seed := rfl
@[simp] theorem State.count_regs_asid (s : State) (c n : Nat) : (s.count c n).regs.asid = s.regs.asid := rfl
@[simp] theorem State.count_regs_partid (s : State) (c n : Nat) : (s.count c n).regs.partid = s.regs.partid := rfl
@[simp] theorem State.count_regs_devnum (s : State) (c n : Nat) : (s.count c n).regs.devnum = s.regs.devnum := rfl
@[simp] theorem State.count_regs_asidtab (s : State) (c n : Nat) : (s.count c n).regs.asidtab = s.regs.asidtab := rfl
@[simp] theorem State.count_regs_sroot (s : State) (c n : Nat) : (s.count c n).regs.sroot = s.regs.sroot := rfl
@[simp] theorem State.count_regs_unkdist (s : State) (c n : Nat) : (s.count c n).regs.unkdist = s.regs.unkdist := rfl
@[simp] theorem State.count_regs_lsfa (s : State) (c n : Nat) : (s.count c n).regs.lsfa = s.regs.lsfa := rfl
@[simp] theorem State.count_regs_pka (s : State) (c n : Nat) : (s.count c n).regs.pka = s.regs.pka := rfl
@[simp] theorem State.count_regs_lsown (s : State) (c n : Nat) : (s.count c n).regs.lsown = s.regs.lsown := rfl
@[simp] theorem State.count_regs_ovfr (s : State) (c n : Nat) : (s.count c n).regs.ovfr = s.regs.ovfr := rfl
@[simp] theorem State.count_regs_wlctl (s : State) (c n : Nat) : (s.count c n).regs.wlctl = s.regs.wlctl := rfl
@[simp] theorem State.count_regs_mqweight (s : State) (c n : Nat) : (s.count c n).regs.mqweight = s.regs.mqweight := rfl
@[simp] theorem State.count_regs_impbnd (s : State) (c n : Nat) : (s.count c n).regs.impbnd = s.regs.impbnd := rfl
@[simp] theorem State.count_regs_hostbnd (s : State) (c n : Nat) : (s.count c n).regs.hostbnd = s.regs.hostbnd := rfl
@[simp] theorem State.count_regs_mmxwho (s : State) (c n : Nat) : (s.count c n).regs.mmxwho = s.regs.mmxwho := rfl
@[simp] theorem State.count_regs_cpquota (s : State) (c n : Nat) : (s.count c n).regs.cpquota = s.regs.cpquota := rfl
@[simp] theorem State.count_regs_cpways (s : State) (c n : Nat) : (s.count c n).regs.cpways = s.regs.cpways := rfl
@[simp] theorem State.count_regs_pwb (s : State) (c n : Nat) : (s.count c n).regs.pwb = s.regs.pwb := rfl
@[simp] theorem State.count_regs_pwl (s : State) (c n : Nat) : (s.count c n).regs.pwl = s.regs.pwl := rfl
@[simp] theorem State.count_regs_vt (s : State) (c n : Nat) : (s.count c n).regs.vt = s.regs.vt := rfl
@[simp] theorem State.count_regs_optwin (s : State) (c n : Nat) : (s.count c n).regs.optwin = s.regs.optwin := rfl
@[simp] theorem State.count_regs_dbgctl (s : State) (c n : Nat) : (s.count c n).regs.dbgctl = s.regs.dbgctl := rfl
@[simp] theorem State.count_regs_pmsel (s : State) (c n : Nat) : (s.count c n).regs.pmsel = s.regs.pmsel := rfl
@[simp] theorem State.post_pc (s : State) (m : Sent) : (s.post m).pc = s.pc := rfl
@[simp] theorem State.post_cyc (s : State) (m : Sent) : (s.post m).cyc = s.cyc := rfl
@[simp] theorem State.post_regs (s : State) (m : Sent) : (s.post m).regs = s.regs := rfl
@[simp] theorem State.post_core (s : State) (m : Sent) : (s.post m).core = s.core := rfl
@[simp] theorem State.post_mem (s : State) (m : Sent) : (s.post m).mem = s.mem := rfl
@[simp] theorem State.post_sched (s : State) (m : Sent) : (s.post m).sched = s.sched := rfl
@[simp] theorem State.post_opt (s : State) (m : Sent) : (s.post m).opt = s.opt := rfl
@[simp] theorem State.post_mu (s : State) (m : Sent) : (s.post m).mu = s.mu := rfl
@[simp] theorem State.post_eng (s : State) (m : Sent) : (s.post m).eng = s.eng := rfl
@[simp] theorem State.post_ticks (s : State) (m : Sent) : (s.post m).ticks = s.ticks := rfl
@[simp] theorem State.post_inputs (s : State) (m : Sent) : (s.post m).inputs = s.inputs := rfl
@[simp] theorem State.post_peers (s : State) (m : Sent) : (s.post m).peers = s.peers := rfl
@[simp] theorem State.post_retry (s : State) (m : Sent) : (s.post m).retry = s.retry := rfl
@[simp] theorem State.haltPartition_pc (s : State) : (s.haltPartition).pc = s.pc := rfl
@[simp] theorem State.haltPartition_cyc (s : State) : (s.haltPartition).cyc = s.cyc := rfl
@[simp] theorem State.haltPartition_regs (s : State) : (s.haltPartition).regs = s.regs := rfl
@[simp] theorem State.haltPartition_mem (s : State) : (s.haltPartition).mem = s.mem := rfl
@[simp] theorem State.haltPartition_sched (s : State) : (s.haltPartition).sched = s.sched := rfl
@[simp] theorem State.haltPartition_opt (s : State) : (s.haltPartition).opt = s.opt := rfl
@[simp] theorem State.haltPartition_mu (s : State) : (s.haltPartition).mu = s.mu := rfl
@[simp] theorem State.haltPartition_eng (s : State) : (s.haltPartition).eng = s.eng := rfl
@[simp] theorem State.haltPartition_ticks (s : State) : (s.haltPartition).ticks = s.ticks := rfl
@[simp] theorem State.haltPartition_inputs (s : State) : (s.haltPartition).inputs = s.inputs := rfl
@[simp] theorem State.haltPartition_peers (s : State) : (s.haltPartition).peers = s.peers := rfl
@[simp] theorem State.haltPartition_retry (s : State) : (s.haltPartition).retry = s.retry := rfl
@[simp] theorem State.haltPartition_core_number (s : State) : (s.haltPartition).core.number = s.core.number := rfl
@[simp] theorem State.haltPartition_core_store (s : State) : (s.haltPartition).core.store = s.core.store := rfl
@[simp] theorem State.haltPartition_core_binds (s : State) : (s.haltPartition).core.binds = s.core.binds := rfl
@[simp] theorem State.haltPartition_core_nextBind (s : State) : (s.haltPartition).core.nextBind = s.core.nextBind := rfl
@[simp] theorem State.haltPartition_core_queues (s : State) : (s.haltPartition).core.queues = s.core.queues := rfl
@[simp] theorem State.haltPartition_core_rings (s : State) : (s.haltPartition).core.rings = s.core.rings := rfl
@[simp] theorem State.haltPartition_core_ringWaiters (s : State) : (s.haltPartition).core.ringWaiters = s.core.ringWaiters := rfl
@[simp] theorem State.haltPartition_core_ringIdle (s : State) : (s.haltPartition).core.ringIdle = s.core.ringIdle := rfl
@[simp] theorem State.haltPartition_core_wait (s : State) : (s.haltPartition).core.wait = s.core.wait := rfl
@[simp] theorem State.haltPartition_core_tlb (s : State) : (s.haltPartition).core.tlb = s.core.tlb := rfl
@[simp] theorem State.haltPartition_core_muTlb (s : State) : (s.haltPartition).core.muTlb = s.core.muTlb := rfl
@[simp] theorem State.haltPartition_core_region (s : State) : (s.haltPartition).core.region = s.core.region := rfl
@[simp] theorem State.haltPartition_core_tableHit (s : State) : (s.haltPartition).core.tableHit = s.core.tableHit := rfl
@[simp] theorem State.haltPartition_core_mail (s : State) : (s.haltPartition).core.mail = s.core.mail := rfl
@[simp] theorem State.haltPartition_core_machine (s : State) : (s.haltPartition).core.machine = s.core.machine := rfl
@[simp] theorem State.haltPartition_core_freeSince (s : State) : (s.haltPartition).core.freeSince = s.core.freeSince := rfl
@[simp] theorem State.haltPartition_core_lostWrite (s : State) : (s.haltPartition).core.lostWrite = s.core.lostWrite := rfl
@[simp] theorem State.haltPartition_core_overLink (s : State) : (s.haltPartition).core.overLink = s.core.overLink := rfl
@[simp] theorem State.unwait_pc (s : State) : (s.unwait).pc = s.pc := rfl
@[simp] theorem State.unwait_cyc (s : State) : (s.unwait).cyc = s.cyc := rfl
@[simp] theorem State.unwait_regs (s : State) : (s.unwait).regs = s.regs := rfl
@[simp] theorem State.unwait_mem (s : State) : (s.unwait).mem = s.mem := rfl
@[simp] theorem State.unwait_sched (s : State) : (s.unwait).sched = s.sched := rfl
@[simp] theorem State.unwait_opt (s : State) : (s.unwait).opt = s.opt := rfl
@[simp] theorem State.unwait_mu (s : State) : (s.unwait).mu = s.mu := rfl
@[simp] theorem State.unwait_eng (s : State) : (s.unwait).eng = s.eng := rfl
@[simp] theorem State.unwait_sys (s : State) : (s.unwait).sys = s.sys := rfl
@[simp] theorem State.unwait_ticks (s : State) : (s.unwait).ticks = s.ticks := rfl
@[simp] theorem State.unwait_inputs (s : State) : (s.unwait).inputs = s.inputs := rfl
@[simp] theorem State.unwait_peers (s : State) : (s.unwait).peers = s.peers := rfl
@[simp] theorem State.unwait_retry (s : State) : (s.unwait).retry = s.retry := rfl
@[simp] theorem State.unwait_core_number (s : State) : (s.unwait).core.number = s.core.number := rfl
@[simp] theorem State.unwait_core_store (s : State) : (s.unwait).core.store = s.core.store := rfl
@[simp] theorem State.unwait_core_binds (s : State) : (s.unwait).core.binds = s.core.binds := rfl
@[simp] theorem State.unwait_core_nextBind (s : State) : (s.unwait).core.nextBind = s.core.nextBind := rfl
@[simp] theorem State.unwait_core_queues (s : State) : (s.unwait).core.queues = s.core.queues := rfl
@[simp] theorem State.unwait_core_rings (s : State) : (s.unwait).core.rings = s.core.rings := rfl
@[simp] theorem State.unwait_core_ringWaiters (s : State) : (s.unwait).core.ringWaiters = s.core.ringWaiters := rfl
@[simp] theorem State.unwait_core_ringIdle (s : State) : (s.unwait).core.ringIdle = s.core.ringIdle := rfl
@[simp] theorem State.unwait_core_tlb (s : State) : (s.unwait).core.tlb = s.core.tlb := rfl
@[simp] theorem State.unwait_core_muTlb (s : State) : (s.unwait).core.muTlb = s.core.muTlb := rfl
@[simp] theorem State.unwait_core_region (s : State) : (s.unwait).core.region = s.core.region := rfl
@[simp] theorem State.unwait_core_tableHit (s : State) : (s.unwait).core.tableHit = s.core.tableHit := rfl
@[simp] theorem State.unwait_core_mail (s : State) : (s.unwait).core.mail = s.core.mail := rfl
@[simp] theorem State.unwait_core_machine (s : State) : (s.unwait).core.machine = s.core.machine := rfl
@[simp] theorem State.unwait_core_idle (s : State) : (s.unwait).core.idle = s.core.idle := rfl
@[simp] theorem State.unwait_core_freeSince (s : State) : (s.unwait).core.freeSince = s.core.freeSince := rfl
@[simp] theorem State.unwait_core_lostWrite (s : State) : (s.unwait).core.lostWrite = s.core.lostWrite := rfl
@[simp] theorem State.unwait_core_overLink (s : State) : (s.unwait).core.overLink = s.core.overLink := rfl
@[simp] theorem State.awake_pc (s : State) : (s.awake).pc = s.pc := rfl
@[simp] theorem State.awake_cyc (s : State) : (s.awake).cyc = s.cyc := rfl
@[simp] theorem State.awake_regs (s : State) : (s.awake).regs = s.regs := rfl
@[simp] theorem State.awake_mem (s : State) : (s.awake).mem = s.mem := rfl
@[simp] theorem State.awake_sched (s : State) : (s.awake).sched = s.sched := rfl
@[simp] theorem State.awake_opt (s : State) : (s.awake).opt = s.opt := rfl
@[simp] theorem State.awake_mu (s : State) : (s.awake).mu = s.mu := rfl
@[simp] theorem State.awake_eng (s : State) : (s.awake).eng = s.eng := rfl
@[simp] theorem State.awake_sys (s : State) : (s.awake).sys = s.sys := rfl
@[simp] theorem State.awake_ticks (s : State) : (s.awake).ticks = s.ticks := rfl
@[simp] theorem State.awake_inputs (s : State) : (s.awake).inputs = s.inputs := rfl
@[simp] theorem State.awake_peers (s : State) : (s.awake).peers = s.peers := rfl
@[simp] theorem State.awake_retry (s : State) : (s.awake).retry = s.retry := rfl
@[simp] theorem State.awake_core_number (s : State) : (s.awake).core.number = s.core.number := rfl
@[simp] theorem State.awake_core_store (s : State) : (s.awake).core.store = s.core.store := rfl
@[simp] theorem State.awake_core_binds (s : State) : (s.awake).core.binds = s.core.binds := rfl
@[simp] theorem State.awake_core_nextBind (s : State) : (s.awake).core.nextBind = s.core.nextBind := rfl
@[simp] theorem State.awake_core_queues (s : State) : (s.awake).core.queues = s.core.queues := rfl
@[simp] theorem State.awake_core_rings (s : State) : (s.awake).core.rings = s.core.rings := rfl
@[simp] theorem State.awake_core_ringWaiters (s : State) : (s.awake).core.ringWaiters = s.core.ringWaiters := rfl
@[simp] theorem State.awake_core_ringIdle (s : State) : (s.awake).core.ringIdle = s.core.ringIdle := rfl
@[simp] theorem State.awake_core_wait (s : State) : (s.awake).core.wait = s.core.wait := rfl
@[simp] theorem State.awake_core_tlb (s : State) : (s.awake).core.tlb = s.core.tlb := rfl
@[simp] theorem State.awake_core_muTlb (s : State) : (s.awake).core.muTlb = s.core.muTlb := rfl
@[simp] theorem State.awake_core_region (s : State) : (s.awake).core.region = s.core.region := rfl
@[simp] theorem State.awake_core_tableHit (s : State) : (s.awake).core.tableHit = s.core.tableHit := rfl
@[simp] theorem State.awake_core_mail (s : State) : (s.awake).core.mail = s.core.mail := rfl
@[simp] theorem State.awake_core_machine (s : State) : (s.awake).core.machine = s.core.machine := rfl
@[simp] theorem State.awake_core_freeSince (s : State) : (s.awake).core.freeSince = s.core.freeSince := rfl
@[simp] theorem State.awake_core_lostWrite (s : State) : (s.awake).core.lostWrite = s.core.lostWrite := rfl
@[simp] theorem State.awake_core_overLink (s : State) : (s.awake).core.overLink = s.core.overLink := rfl
@[simp] theorem State.past_cyc (s : State) (c : Ctx) : (s.past c).cyc = s.cyc := rfl
@[simp] theorem State.past_regs (s : State) (c : Ctx) : (s.past c).regs = s.regs := rfl
@[simp] theorem State.past_core (s : State) (c : Ctx) : (s.past c).core = s.core := rfl
@[simp] theorem State.past_mem (s : State) (c : Ctx) : (s.past c).mem = s.mem := rfl
@[simp] theorem State.past_sched (s : State) (c : Ctx) : (s.past c).sched = s.sched := rfl
@[simp] theorem State.past_opt (s : State) (c : Ctx) : (s.past c).opt = s.opt := rfl
@[simp] theorem State.past_mu (s : State) (c : Ctx) : (s.past c).mu = s.mu := rfl
@[simp] theorem State.past_eng (s : State) (c : Ctx) : (s.past c).eng = s.eng := rfl
@[simp] theorem State.past_sys (s : State) (c : Ctx) : (s.past c).sys = s.sys := rfl
@[simp] theorem State.past_ticks (s : State) (c : Ctx) : (s.past c).ticks = s.ticks := rfl
@[simp] theorem State.past_inputs (s : State) (c : Ctx) : (s.past c).inputs = s.inputs := rfl
@[simp] theorem State.past_peers (s : State) (c : Ctx) : (s.past c).peers = s.peers := rfl
@[simp] theorem State.past_retry (s : State) (c : Ctx) : (s.past c).retry = s.retry := rfl
@[simp] theorem State.closeRegion_pc (s : State) : (s.closeRegion).pc = s.pc := rfl
@[simp] theorem State.closeRegion_cyc (s : State) : (s.closeRegion).cyc = s.cyc := rfl
@[simp] theorem State.closeRegion_regs (s : State) : (s.closeRegion).regs = s.regs := rfl
@[simp] theorem State.closeRegion_sched (s : State) : (s.closeRegion).sched = s.sched := rfl
@[simp] theorem State.closeRegion_opt (s : State) : (s.closeRegion).opt = s.opt := rfl
@[simp] theorem State.closeRegion_mu (s : State) : (s.closeRegion).mu = s.mu := rfl
@[simp] theorem State.closeRegion_eng (s : State) : (s.closeRegion).eng = s.eng := rfl
@[simp] theorem State.closeRegion_sys (s : State) : (s.closeRegion).sys = s.sys := rfl
@[simp] theorem State.closeRegion_ticks (s : State) : (s.closeRegion).ticks = s.ticks := rfl
@[simp] theorem State.closeRegion_inputs (s : State) : (s.closeRegion).inputs = s.inputs := rfl
@[simp] theorem State.closeRegion_peers (s : State) : (s.closeRegion).peers = s.peers := rfl
@[simp] theorem State.closeRegion_retry (s : State) : (s.closeRegion).retry = s.retry := rfl
@[simp] theorem State.closeRegion_core_number (s : State) : (s.closeRegion).core.number = s.core.number := rfl
@[simp] theorem State.closeRegion_core_store (s : State) : (s.closeRegion).core.store = s.core.store := rfl
@[simp] theorem State.closeRegion_core_binds (s : State) : (s.closeRegion).core.binds = s.core.binds := rfl
@[simp] theorem State.closeRegion_core_nextBind (s : State) : (s.closeRegion).core.nextBind = s.core.nextBind := rfl
@[simp] theorem State.closeRegion_core_queues (s : State) : (s.closeRegion).core.queues = s.core.queues := rfl
@[simp] theorem State.closeRegion_core_rings (s : State) : (s.closeRegion).core.rings = s.core.rings := rfl
@[simp] theorem State.closeRegion_core_ringWaiters (s : State) : (s.closeRegion).core.ringWaiters = s.core.ringWaiters := rfl
@[simp] theorem State.closeRegion_core_ringIdle (s : State) : (s.closeRegion).core.ringIdle = s.core.ringIdle := rfl
@[simp] theorem State.closeRegion_core_wait (s : State) : (s.closeRegion).core.wait = s.core.wait := rfl
@[simp] theorem State.closeRegion_core_tlb (s : State) : (s.closeRegion).core.tlb = s.core.tlb := rfl
@[simp] theorem State.closeRegion_core_muTlb (s : State) : (s.closeRegion).core.muTlb = s.core.muTlb := rfl
@[simp] theorem State.closeRegion_core_mail (s : State) : (s.closeRegion).core.mail = s.core.mail := rfl
@[simp] theorem State.closeRegion_core_machine (s : State) : (s.closeRegion).core.machine = s.core.machine := rfl
@[simp] theorem State.closeRegion_core_idle (s : State) : (s.closeRegion).core.idle = s.core.idle := rfl
@[simp] theorem State.closeRegion_core_freeSince (s : State) : (s.closeRegion).core.freeSince = s.core.freeSince := rfl
@[simp] theorem State.closeRegion_core_lostWrite (s : State) : (s.closeRegion).core.lostWrite = s.core.lostWrite := rfl
@[simp] theorem State.closeRegion_core_overLink (s : State) : (s.closeRegion).core.overLink = s.core.overLink := rfl
@[simp] theorem State.selfInvalidate_pc (s : State) : (s.selfInvalidate).pc = s.pc := rfl
@[simp] theorem State.selfInvalidate_cyc (s : State) : (s.selfInvalidate).cyc = s.cyc := rfl
@[simp] theorem State.selfInvalidate_regs (s : State) : (s.selfInvalidate).regs = s.regs := rfl
@[simp] theorem State.selfInvalidate_core (s : State) : (s.selfInvalidate).core = s.core := rfl
@[simp] theorem State.selfInvalidate_sched (s : State) : (s.selfInvalidate).sched = s.sched := rfl
@[simp] theorem State.selfInvalidate_opt (s : State) : (s.selfInvalidate).opt = s.opt := rfl
@[simp] theorem State.selfInvalidate_mu (s : State) : (s.selfInvalidate).mu = s.mu := rfl
@[simp] theorem State.selfInvalidate_eng (s : State) : (s.selfInvalidate).eng = s.eng := rfl
@[simp] theorem State.selfInvalidate_sys (s : State) : (s.selfInvalidate).sys = s.sys := rfl
@[simp] theorem State.selfInvalidate_ticks (s : State) : (s.selfInvalidate).ticks = s.ticks := rfl
@[simp] theorem State.selfInvalidate_inputs (s : State) : (s.selfInvalidate).inputs = s.inputs := rfl
@[simp] theorem State.selfInvalidate_peers (s : State) : (s.selfInvalidate).peers = s.peers := rfl
@[simp] theorem State.selfInvalidate_retry (s : State) : (s.selfInvalidate).retry = s.retry := rfl
@[simp] theorem State.selfInvalidate_mem_bytes (s : State) : (s.selfInvalidate).mem.bytes = s.mem.bytes := rfl
@[simp] theorem State.selfInvalidate_mem_lost (s : State) : (s.selfInvalidate).mem.lost = s.mem.lost := rfl
@[simp] theorem State.selfInvalidate_mem_hbmLost (s : State) : (s.selfInvalidate).mem.hbmLost = s.mem.hbmLost := rfl
@[simp] theorem State.selfInvalidate_mem_unsent (s : State) : (s.selfInvalidate).mem.unsent = s.mem.unsent := rfl
@[simp] theorem State.selfInvalidate_mem_tables (s : State) : (s.selfInvalidate).mem.tables = s.mem.tables := rfl
@[simp] theorem State.selfInvalidate_mem_others (s : State) : (s.selfInvalidate).mem.others = s.mem.others := rfl
@[simp] theorem State.selfInvalidate_mem_police (s : State) : (s.selfInvalidate).mem.police = s.mem.police := rfl
@[simp] theorem State.selfInvalidate_mem_clock (s : State) : (s.selfInvalidate).mem.clock = s.mem.clock := rfl
@[simp] theorem State.selfInvalidate_mem_policeAt (s : State) : (s.selfInvalidate).mem.policeAt = s.mem.policeAt := rfl
@[simp] theorem State.selfInvalidate_mem_clusterTab (s : State) : (s.selfInvalidate).mem.clusterTab = s.mem.clusterTab := rfl
@[simp] theorem State.selfInvalidate_mem_laneTab (s : State) : (s.selfInvalidate).mem.laneTab = s.mem.laneTab := rfl
@[simp] theorem State.selfInvalidate_mem_bankTab (s : State) : (s.selfInvalidate).mem.bankTab = s.mem.bankTab := rfl
@[simp] theorem State.selfInvalidate_mem_clusterNew (s : State) : (s.selfInvalidate).mem.clusterNew = s.mem.clusterNew := rfl
@[simp] theorem State.selfInvalidate_mem_laneNew (s : State) : (s.selfInvalidate).mem.laneNew = s.mem.laneNew := rfl
@[simp] theorem State.selfInvalidate_mem_bankNew (s : State) : (s.selfInvalidate).mem.bankNew = s.mem.bankNew := rfl
@[simp] theorem State.selfInvalidate_mem_waysNew (s : State) : (s.selfInvalidate).mem.waysNew = s.mem.waysNew := rfl
@[simp] theorem State.selfInvalidate_mem_pulls (s : State) : (s.selfInvalidate).mem.pulls = s.mem.pulls := rfl
@[simp] theorem State.selfInvalidate_mem_stale (s : State) : (s.selfInvalidate).mem.stale = s.mem.stale := rfl
@[simp] theorem State.selfInvalidate_mem_admitted (s : State) : (s.selfInvalidate).mem.admitted = s.mem.admitted := rfl
@[simp] theorem State.selfInvalidate_mem_clusterTlb (s : State) : (s.selfInvalidate).mem.clusterTlb = s.mem.clusterTlb := rfl
@[simp] theorem State.selfInvalidate_mem_walkCache (s : State) : (s.selfInvalidate).mem.walkCache = s.mem.walkCache := rfl
@[simp] theorem State.selfInvalidate_mem_lsownPeers (s : State) : (s.selfInvalidate).mem.lsownPeers = s.mem.lsownPeers := rfl
@[simp] theorem State.setWindow_wb (s : State) (b l : Nat) : (s.setWindow b l).regs.wb = b := rfl
@[simp] theorem State.setWindow_wl (s : State) (b l : Nat) : (s.setWindow b l).regs.wl = l := rfl
@[simp] theorem State.unwait_wait (s : State) : s.unwait.core.wait = none := rfl
@[simp] theorem State.awake_idle (s : State) : s.awake.core.idle = false := rfl
@[simp] theorem State.closeRegion_region (s : State) : s.closeRegion.core.region = {} := rfl
@[simp] theorem State.past_pc (s : State) (c : Ctx) : (s.past c).pc = s.pc + wd c.size := rfl

/-- A fold keeps what each of its steps keeps. -/
theorem foldl_keeps {α β γ : Type} (f : β → α → β) (p : β → γ) (h : ∀ b a, p (f b a) = p b) (l : List α) (b : β) :
    p (l.foldl f b) = p b := by
  induction l generalizing b with
  | nil => rfl
  | cons a l ih => exact (ih (f b a)).trans (h b a)

/-- What the write-back of the RDC keeps: whatever bytes arriving at their home, the marks of losses, there and in the arrays below, and of lines, the list of sectors that no
link carries, and the marks of the RDC's bytes leave alone. -/
theorem State.writeBack_keeps {γ : Type} (p : State → γ) (hp : ∀ s key bs, p (s.putHome key bs) = p s)
    (hlost : ∀ s l m, p { s with mem := { s.mem with lost := l, hbmLost := m } } = p s)
    (hlines : ∀ s l, p { s with mem := { s.mem with lines := l } } = p s)
    (hunsent : ∀ s l, p { s with mem := { s.mem with unsent := l } } = p s)
    (hrdc : ∀ s l, p { s with mem := { s.mem with rdc := l } } = p s) (s : State) : p s.writeBack = p s := by
  have sector : ∀ s u ds, p (State.sendSector s u ds) = p s := fun s u ds => by
    unfold State.sendSector
    split
    · exact (hlost _ _ _).trans (foldl_keeps _ p (fun s x => hp s _ _) ds s)
    · split
      · exact hp _ _ _
      · exact foldl_keeps _ p (fun s x => hp s _ _) ds s
  have receive : ∀ s v d, p (State.receive s v d) = p s := fun s v d => by
    unfold State.receive
    refine (hlines _ _).trans ?_
    split
    · exact hlost s s.mem.lost _
    · rfl
  have arrive : ∀ s line d, p (State.arriveHome s line d) = p s := fun s line d => by
    unfold State.arriveHome
    split
    · exact hlines _ _
    · split
      · exact receive _ _ _
      · rfl
  have send : ∀ s line, p (State.sendHome s line) = p s := fun s line => by
    unfold State.sendHome
    dsimp only
    split
    · rfl
    · split
      · exact hunsent _ _
      · refine (arrive _ _ _).trans (foldl_keeps _ p (fun s k => ?_) _ s)
        split
        · rfl
        · exact sector _ _ _
  have clean : ∀ s l, p (State.markClean s l) = p s := fun s l => by
    unfold State.markClean
    let rdc := s.mem.rdc.map fun x => if l.contains (x.1 / 128 * 128) then (x.1, RdcByte.mk x.2.v false) else x
    exact (hlines { s with mem := { s.mem with rdc := rdc } } _).trans (hrdc s rdc)
  exact (clean _ _).trans (foldl_keeps _ p send _ s)

@[simp] theorem State.writeBack_pc (s : State) : s.writeBack.pc = s.pc :=
  State.writeBack_keeps (fun t => t.pc) (fun _ _ _ => rfl) (fun _ _ _ => rfl) (fun _ _ => rfl) (fun _ _ => rfl) (fun _ _ => rfl) s
@[simp] theorem State.writeBack_cyc (s : State) : s.writeBack.cyc = s.cyc :=
  State.writeBack_keeps (fun t => t.cyc) (fun _ _ _ => rfl) (fun _ _ _ => rfl) (fun _ _ => rfl) (fun _ _ => rfl) (fun _ _ => rfl) s
@[simp] theorem State.writeBack_regs (s : State) : s.writeBack.regs = s.regs :=
  State.writeBack_keeps (fun t => t.regs) (fun _ _ _ => rfl) (fun _ _ _ => rfl) (fun _ _ => rfl) (fun _ _ => rfl) (fun _ _ => rfl) s
@[simp] theorem State.writeBack_opt (s : State) : s.writeBack.opt = s.opt :=
  State.writeBack_keeps (fun t => t.opt) (fun _ _ _ => rfl) (fun _ _ _ => rfl) (fun _ _ => rfl) (fun _ _ => rfl) (fun _ _ => rfl) s
@[simp] theorem State.writeBack_mu (s : State) : s.writeBack.mu = s.mu :=
  State.writeBack_keeps (fun t => t.mu) (fun _ _ _ => rfl) (fun _ _ _ => rfl) (fun _ _ => rfl) (fun _ _ => rfl) (fun _ _ => rfl) s
@[simp] theorem State.writeBack_eng (s : State) : s.writeBack.eng = s.eng :=
  State.writeBack_keeps (fun t => t.eng) (fun _ _ _ => rfl) (fun _ _ _ => rfl) (fun _ _ => rfl) (fun _ _ => rfl) (fun _ _ => rfl) s
@[simp] theorem State.writeBack_sys (s : State) : s.writeBack.sys = s.sys :=
  State.writeBack_keeps (fun t => t.sys) (fun _ _ _ => rfl) (fun _ _ _ => rfl) (fun _ _ => rfl) (fun _ _ => rfl) (fun _ _ => rfl) s
@[simp] theorem State.writeBack_ticks (s : State) : s.writeBack.ticks = s.ticks :=
  State.writeBack_keeps (fun t => t.ticks) (fun _ _ _ => rfl) (fun _ _ _ => rfl) (fun _ _ => rfl) (fun _ _ => rfl) (fun _ _ => rfl) s
@[simp] theorem State.writeBack_inputs (s : State) : s.writeBack.inputs = s.inputs :=
  State.writeBack_keeps (fun t => t.inputs) (fun _ _ _ => rfl) (fun _ _ _ => rfl) (fun _ _ => rfl) (fun _ _ => rfl) (fun _ _ => rfl) s
@[simp] theorem State.writeBack_peers (s : State) : s.writeBack.peers = s.peers :=
  State.writeBack_keeps (fun t => t.peers) (fun _ _ _ => rfl) (fun _ _ _ => rfl) (fun _ _ => rfl) (fun _ _ => rfl) (fun _ _ => rfl) s
@[simp] theorem State.writeBack_retry (s : State) : s.writeBack.retry = s.retry :=
  State.writeBack_keeps (fun t => t.retry) (fun _ _ _ => rfl) (fun _ _ _ => rfl) (fun _ _ => rfl) (fun _ _ => rfl) (fun _ _ => rfl) s
@[simp] theorem State.writeBack_core_number (s : State) : s.writeBack.core.number = s.core.number :=
  State.writeBack_keeps (fun t => t.core.number) (fun _ _ _ => rfl) (fun _ _ _ => rfl) (fun _ _ => rfl) (fun _ _ => rfl) (fun _ _ => rfl) s
@[simp] theorem State.writeBack_core_store (s : State) : s.writeBack.core.store = s.core.store :=
  State.writeBack_keeps (fun t => t.core.store) (fun _ _ _ => rfl) (fun _ _ _ => rfl) (fun _ _ => rfl) (fun _ _ => rfl) (fun _ _ => rfl) s
@[simp] theorem State.writeBack_core_binds (s : State) : s.writeBack.core.binds = s.core.binds :=
  State.writeBack_keeps (fun t => t.core.binds) (fun _ _ _ => rfl) (fun _ _ _ => rfl) (fun _ _ => rfl) (fun _ _ => rfl) (fun _ _ => rfl) s
@[simp] theorem State.writeBack_core_nextBind (s : State) : s.writeBack.core.nextBind = s.core.nextBind :=
  State.writeBack_keeps (fun t => t.core.nextBind) (fun _ _ _ => rfl) (fun _ _ _ => rfl) (fun _ _ => rfl) (fun _ _ => rfl) (fun _ _ => rfl) s
@[simp] theorem State.writeBack_core_queues (s : State) : s.writeBack.core.queues = s.core.queues :=
  State.writeBack_keeps (fun t => t.core.queues) (fun _ _ _ => rfl) (fun _ _ _ => rfl) (fun _ _ => rfl) (fun _ _ => rfl) (fun _ _ => rfl) s
@[simp] theorem State.writeBack_core_rings (s : State) : s.writeBack.core.rings = s.core.rings :=
  State.writeBack_keeps (fun t => t.core.rings) (fun _ _ _ => rfl) (fun _ _ _ => rfl) (fun _ _ => rfl) (fun _ _ => rfl) (fun _ _ => rfl) s
@[simp] theorem State.writeBack_core_ringWaiters (s : State) : s.writeBack.core.ringWaiters = s.core.ringWaiters :=
  State.writeBack_keeps (fun t => t.core.ringWaiters) (fun _ _ _ => rfl) (fun _ _ _ => rfl) (fun _ _ => rfl) (fun _ _ => rfl) (fun _ _ => rfl) s
@[simp] theorem State.writeBack_core_ringIdle (s : State) : s.writeBack.core.ringIdle = s.core.ringIdle :=
  State.writeBack_keeps (fun t => t.core.ringIdle) (fun _ _ _ => rfl) (fun _ _ _ => rfl) (fun _ _ => rfl) (fun _ _ => rfl) (fun _ _ => rfl) s
@[simp] theorem State.writeBack_core_tlb (s : State) : s.writeBack.core.tlb = s.core.tlb :=
  State.writeBack_keeps (fun t => t.core.tlb) (fun _ _ _ => rfl) (fun _ _ _ => rfl) (fun _ _ => rfl) (fun _ _ => rfl) (fun _ _ => rfl) s
@[simp] theorem State.writeBack_core_muTlb (s : State) : s.writeBack.core.muTlb = s.core.muTlb :=
  State.writeBack_keeps (fun t => t.core.muTlb) (fun _ _ _ => rfl) (fun _ _ _ => rfl) (fun _ _ => rfl) (fun _ _ => rfl) (fun _ _ => rfl) s
@[simp] theorem State.writeBack_core_region (s : State) : s.writeBack.core.region = s.core.region :=
  State.writeBack_keeps (fun t => t.core.region) (fun _ _ _ => rfl) (fun _ _ _ => rfl) (fun _ _ => rfl) (fun _ _ => rfl) (fun _ _ => rfl) s
@[simp] theorem State.writeBack_core_tableHit (s : State) : s.writeBack.core.tableHit = s.core.tableHit :=
  State.writeBack_keeps (fun t => t.core.tableHit) (fun _ _ _ => rfl) (fun _ _ _ => rfl) (fun _ _ => rfl) (fun _ _ => rfl) (fun _ _ => rfl) s
@[simp] theorem State.writeBack_core_mail (s : State) : s.writeBack.core.mail = s.core.mail :=
  State.writeBack_keeps (fun t => t.core.mail) (fun _ _ _ => rfl) (fun _ _ _ => rfl) (fun _ _ => rfl) (fun _ _ => rfl) (fun _ _ => rfl) s
@[simp] theorem State.writeBack_core_machine (s : State) : s.writeBack.core.machine = s.core.machine :=
  State.writeBack_keeps (fun t => t.core.machine) (fun _ _ _ => rfl) (fun _ _ _ => rfl) (fun _ _ => rfl) (fun _ _ => rfl) (fun _ _ => rfl) s
@[simp] theorem State.writeBack_core_idle (s : State) : s.writeBack.core.idle = s.core.idle :=
  State.writeBack_keeps (fun t => t.core.idle) (fun _ _ _ => rfl) (fun _ _ _ => rfl) (fun _ _ => rfl) (fun _ _ => rfl) (fun _ _ => rfl) s
@[simp] theorem State.writeBack_core_freeSince (s : State) : s.writeBack.core.freeSince = s.core.freeSince :=
  State.writeBack_keeps (fun t => t.core.freeSince) (fun _ _ _ => rfl) (fun _ _ _ => rfl) (fun _ _ => rfl) (fun _ _ => rfl) (fun _ _ => rfl) s
@[simp] theorem State.writeBack_core_lostWrite (s : State) : s.writeBack.core.lostWrite = s.core.lostWrite :=
  State.writeBack_keeps (fun t => t.core.lostWrite) (fun _ _ _ => rfl) (fun _ _ _ => rfl) (fun _ _ => rfl) (fun _ _ => rfl) (fun _ _ => rfl) s
@[simp] theorem State.writeBack_core_overLink (s : State) : s.writeBack.core.overLink = s.core.overLink :=
  State.writeBack_keeps (fun t => t.core.overLink) (fun _ _ _ => rfl) (fun _ _ _ => rfl) (fun _ _ => rfl) (fun _ _ => rfl) (fun _ _ => rfl) s
@[simp] theorem State.writeBack_sched_task (s : State) : s.writeBack.sched.task = s.sched.task :=
  State.writeBack_keeps (fun t => t.sched.task) (fun _ _ _ => rfl) (fun _ _ _ => rfl) (fun _ _ => rfl) (fun _ _ => rfl) (fun _ _ => rfl) s
@[simp] theorem State.writeBack_sched_low (s : State) : s.writeBack.sched.low = s.sched.low :=
  State.writeBack_keeps (fun t => t.sched.low) (fun _ _ _ => rfl) (fun _ _ _ => rfl) (fun _ _ => rfl) (fun _ _ => rfl) (fun _ _ => rfl) s
@[simp] theorem State.writeBack_sched_lowQueues (s : State) : s.writeBack.sched.lowQueues = s.sched.lowQueues :=
  State.writeBack_keeps (fun t => t.sched.lowQueues) (fun _ _ _ => rfl) (fun _ _ _ => rfl) (fun _ _ => rfl) (fun _ _ => rfl) (fun _ _ => rfl) s
@[simp] theorem State.writeBack_sched_pools (s : State) : s.writeBack.sched.pools = s.sched.pools :=
  State.writeBack_keeps (fun t => t.sched.pools) (fun _ _ _ => rfl) (fun _ _ _ => rfl) (fun _ _ => rfl) (fun _ _ => rfl) (fun _ _ => rfl) s
@[simp] theorem State.writeBack_sched_inbox (s : State) : s.writeBack.sched.inbox = s.sched.inbox :=
  State.writeBack_keeps (fun t => t.sched.inbox) (fun _ _ _ => rfl) (fun _ _ _ => rfl) (fun _ _ => rfl) (fun _ _ => rfl) (fun _ _ => rfl) s
@[simp] theorem State.writeBack_sched_high (s : State) : s.writeBack.sched.high = s.sched.high :=
  State.writeBack_keeps (fun t => t.sched.high) (fun _ _ _ => rfl) (fun _ _ _ => rfl) (fun _ _ => rfl) (fun _ _ => rfl) (fun _ _ => rfl) s
@[simp] theorem State.writeBack_sched_domq (s : State) : s.writeBack.sched.domq = s.sched.domq :=
  State.writeBack_keeps (fun t => t.sched.domq) (fun _ _ _ => rfl) (fun _ _ _ => rfl) (fun _ _ => rfl) (fun _ _ => rfl) (fun _ _ => rfl) s
@[simp] theorem State.writeBack_sched_domqPassed (s : State) : s.writeBack.sched.domqPassed = s.sched.domqPassed :=
  State.writeBack_keeps (fun t => t.sched.domqPassed) (fun _ _ _ => rfl) (fun _ _ _ => rfl) (fun _ _ => rfl) (fun _ _ => rfl) (fun _ _ => rfl) s
@[simp] theorem State.writeBack_sched_spilled (s : State) : s.writeBack.sched.spilled = s.sched.spilled :=
  State.writeBack_keeps (fun t => t.sched.spilled) (fun _ _ _ => rfl) (fun _ _ _ => rfl) (fun _ _ => rfl) (fun _ _ => rfl) (fun _ _ => rfl) s
@[simp] theorem State.writeBack_sched_held (s : State) : s.writeBack.sched.held = s.sched.held :=
  State.writeBack_keeps (fun t => t.sched.held) (fun _ _ _ => rfl) (fun _ _ _ => rfl) (fun _ _ => rfl) (fun _ _ => rfl) (fun _ _ => rfl) s
@[simp] theorem State.writeBack_sched_arrivals (s : State) : s.writeBack.sched.arrivals = s.sched.arrivals :=
  State.writeBack_keeps (fun t => t.sched.arrivals) (fun _ _ _ => rfl) (fun _ _ _ => rfl) (fun _ _ => rfl) (fun _ _ => rfl) (fun _ _ => rfl) s
@[simp] theorem State.writeBack_sched_slots (s : State) : s.writeBack.sched.slots = s.sched.slots :=
  State.writeBack_keeps (fun t => t.sched.slots) (fun _ _ _ => rfl) (fun _ _ _ => rfl) (fun _ _ => rfl) (fun _ _ => rfl) (fun _ _ => rfl) s
@[simp] theorem State.writeBack_sched_pins (s : State) : s.writeBack.sched.pins = s.sched.pins :=
  State.writeBack_keeps (fun t => t.sched.pins) (fun _ _ _ => rfl) (fun _ _ _ => rfl) (fun _ _ => rfl) (fun _ _ => rfl) (fun _ _ => rfl) s
@[simp] theorem State.writeBack_sched_resume (s : State) : s.writeBack.sched.resume = s.sched.resume :=
  State.writeBack_keeps (fun t => t.sched.resume) (fun _ _ _ => rfl) (fun _ _ _ => rfl) (fun _ _ => rfl) (fun _ _ => rfl) (fun _ _ => rfl) s
@[simp] theorem State.writeBack_sched_nextPark (s : State) : s.writeBack.sched.nextPark = s.sched.nextPark :=
  State.writeBack_keeps (fun t => t.sched.nextPark) (fun _ _ _ => rfl) (fun _ _ _ => rfl) (fun _ _ => rfl) (fun _ _ => rfl) (fun _ _ => rfl) s
@[simp] theorem State.writeBack_sched_dqMem (s : State) : s.writeBack.sched.dqMem = s.sched.dqMem :=
  State.writeBack_keeps (fun t => t.sched.dqMem) (fun _ _ _ => rfl) (fun _ _ _ => rfl) (fun _ _ => rfl) (fun _ _ => rfl) (fun _ _ => rfl) s
@[simp] theorem State.writeBack_sched_dqHead (s : State) : s.writeBack.sched.dqHead = s.sched.dqHead :=
  State.writeBack_keeps (fun t => t.sched.dqHead) (fun _ _ _ => rfl) (fun _ _ _ => rfl) (fun _ _ => rfl) (fun _ _ => rfl) (fun _ _ => rfl) s
@[simp] theorem State.writeBack_sched_deque (s : State) : s.writeBack.sched.deque = s.sched.deque :=
  State.writeBack_keeps (fun t => t.sched.deque) (fun _ _ _ => rfl) (fun _ _ _ => rfl) (fun _ _ => rfl) (fun _ _ => rfl) (fun _ _ => rfl) s
@[simp] theorem State.writeBack_sched_stuck (s : State) : s.writeBack.sched.stuck = s.sched.stuck :=
  State.writeBack_keeps (fun t => t.sched.stuck) (fun _ _ _ => rfl) (fun _ _ _ => rfl) (fun _ _ => rfl) (fun _ _ => rfl) (fun _ _ => rfl) s
@[simp] theorem State.writeBack_sched_peerNodes (s : State) : s.writeBack.sched.peerNodes = s.sched.peerNodes :=
  State.writeBack_keeps (fun t => t.sched.peerNodes) (fun _ _ _ => rfl) (fun _ _ _ => rfl) (fun _ _ => rfl) (fun _ _ => rfl) (fun _ _ => rfl) s
@[simp] theorem State.writeBack_sched_peerHolds (s : State) : s.writeBack.sched.peerHolds = s.sched.peerHolds :=
  State.writeBack_keeps (fun t => t.sched.peerHolds) (fun _ _ _ => rfl) (fun _ _ _ => rfl) (fun _ _ => rfl) (fun _ _ => rfl) (fun _ _ => rfl) s
@[simp] theorem State.writeBack_sched_peerDeques (s : State) : s.writeBack.sched.peerDeques = s.sched.peerDeques :=
  State.writeBack_keeps (fun t => t.sched.peerDeques) (fun _ _ _ => rfl) (fun _ _ _ => rfl) (fun _ _ => rfl) (fun _ _ => rfl) (fun _ _ => rfl) s
@[simp] theorem State.writeBack_sched_stealGen (s : State) : s.writeBack.sched.stealGen = s.sched.stealGen :=
  State.writeBack_keeps (fun t => t.sched.stealGen) (fun _ _ _ => rfl) (fun _ _ _ => rfl) (fun _ _ => rfl) (fun _ _ => rfl) (fun _ _ => rfl) s
@[simp] theorem State.writeBack_sched_stealWait (s : State) : s.writeBack.sched.stealWait = s.sched.stealWait :=
  State.writeBack_keeps (fun t => t.sched.stealWait) (fun _ _ _ => rfl) (fun _ _ _ => rfl) (fun _ _ => rfl) (fun _ _ => rfl) (fun _ _ => rfl) s
@[simp] theorem State.writeBack_sched_flying (s : State) : s.writeBack.sched.flying = s.sched.flying :=
  State.writeBack_keeps (fun t => t.sched.flying) (fun _ _ _ => rfl) (fun _ _ _ => rfl) (fun _ _ => rfl) (fun _ _ => rfl) (fun _ _ => rfl) s
@[simp] theorem State.writeBack_sched_events (s : State) : s.writeBack.sched.events = s.sched.events :=
  State.writeBack_keeps (fun t => t.sched.events) (fun _ _ _ => rfl) (fun _ _ _ => rfl) (fun _ _ => rfl) (fun _ _ => rfl) (fun _ _ => rfl) s
@[simp] theorem State.writeBack_sched_waiters (s : State) : s.writeBack.sched.waiters = s.sched.waiters :=
  State.writeBack_keeps (fun t => t.sched.waiters) (fun _ _ _ => rfl) (fun _ _ _ => rfl) (fun _ _ => rfl) (fun _ _ => rfl) (fun _ _ => rfl) s
@[simp] theorem State.writeBack_sched_waitSeq (s : State) : s.writeBack.sched.waitSeq = s.sched.waitSeq :=
  State.writeBack_keeps (fun t => t.sched.waitSeq) (fun _ _ _ => rfl) (fun _ _ _ => rfl) (fun _ _ => rfl) (fun _ _ => rfl) (fun _ _ => rfl) s
@[simp] theorem State.writeBack_sched_queues (s : State) : s.writeBack.sched.queues = s.sched.queues :=
  State.writeBack_keeps (fun t => t.sched.queues) (fun _ _ _ => rfl) (fun _ _ _ => rfl) (fun _ _ => rfl) (fun _ _ => rfl) (fun _ _ => rfl) s
@[simp] theorem State.writeBack_sched_appended (s : State) : s.writeBack.sched.appended = s.sched.appended :=
  State.writeBack_keeps (fun t => t.sched.appended) (fun _ _ _ => rfl) (fun _ _ _ => rfl) (fun _ _ => rfl) (fun _ _ => rfl) (fun _ _ => rfl) s
@[simp] theorem State.writeBack_sched_launches (s : State) : s.writeBack.sched.launches = s.sched.launches :=
  State.writeBack_keeps (fun t => t.sched.launches) (fun _ _ _ => rfl) (fun _ _ _ => rfl) (fun _ _ => rfl) (fun _ _ => rfl) (fun _ _ => rfl) s
@[simp] theorem State.writeBack_sched_nextLnid (s : State) : s.writeBack.sched.nextLnid = s.sched.nextLnid :=
  State.writeBack_keeps (fun t => t.sched.nextLnid) (fun _ _ _ => rfl) (fun _ _ _ => rfl) (fun _ _ => rfl) (fun _ _ => rfl) (fun _ _ => rfl) s
@[simp] theorem State.writeBack_sched_rootTurns (s : State) : s.writeBack.sched.rootTurns = s.sched.rootTurns :=
  State.writeBack_keeps (fun t => t.sched.rootTurns) (fun _ _ _ => rfl) (fun _ _ _ => rfl) (fun _ _ => rfl) (fun _ _ => rfl) (fun _ _ => rfl) s
@[simp] theorem State.writeBack_sched_evtab (s : State) : s.writeBack.sched.evtab = s.sched.evtab :=
  State.writeBack_keeps (fun t => t.sched.evtab) (fun _ _ _ => rfl) (fun _ _ _ => rfl) (fun _ _ => rfl) (fun _ _ => rfl) (fun _ _ => rfl) s
@[simp] theorem State.writeBack_sched_evovf (s : State) : s.writeBack.sched.evovf = s.sched.evovf :=
  State.writeBack_keeps (fun t => t.sched.evovf) (fun _ _ _ => rfl) (fun _ _ _ => rfl) (fun _ _ => rfl) (fun _ _ => rfl) (fun _ _ => rfl) s
@[simp] theorem State.writeBack_sched_dqovf (s : State) : s.writeBack.sched.dqovf = s.sched.dqovf :=
  State.writeBack_keeps (fun t => t.sched.dqovf) (fun _ _ _ => rfl) (fun _ _ _ => rfl) (fun _ _ => rfl) (fun _ _ => rfl) (fun _ _ => rfl) s
@[simp] theorem State.writeBack_sched_preempt (s : State) : s.writeBack.sched.preempt = s.sched.preempt :=
  State.writeBack_keeps (fun t => t.sched.preempt) (fun _ _ _ => rfl) (fun _ _ _ => rfl) (fun _ _ => rfl) (fun _ _ => rfl) (fun _ _ => rfl) s
@[simp] theorem State.writeBack_sched_stealseed (s : State) : s.writeBack.sched.stealseed = s.sched.stealseed :=
  State.writeBack_keeps (fun t => t.sched.stealseed) (fun _ _ _ => rfl) (fun _ _ _ => rfl) (fun _ _ => rfl) (fun _ _ => rfl) (fun _ _ => rfl) s
@[simp] theorem State.writeBack_sched_gvtctl (s : State) : s.writeBack.sched.gvtctl = s.sched.gvtctl :=
  State.writeBack_keeps (fun t => t.sched.gvtctl) (fun _ _ _ => rfl) (fun _ _ _ => rfl) (fun _ _ => rfl) (fun _ _ => rfl) (fun _ _ => rfl) s
@[simp] theorem State.writeBack_sched_trctl (s : State) : s.writeBack.sched.trctl = s.sched.trctl :=
  State.writeBack_keeps (fun t => t.sched.trctl) (fun _ _ _ => rfl) (fun _ _ _ => rfl) (fun _ _ => rfl) (fun _ _ => rfl) (fun _ _ => rfl) s
@[simp] theorem State.writeBack_sched_trHead (s : State) : s.writeBack.sched.trHead = s.sched.trHead :=
  State.writeBack_keeps (fun t => t.sched.trHead) (fun _ _ _ => rfl) (fun _ _ _ => rfl) (fun _ _ => rfl) (fun _ _ => rfl) (fun _ _ => rfl) s
@[simp] theorem State.writeBack_sched_trDropped (s : State) : s.writeBack.sched.trDropped = s.sched.trDropped :=
  State.writeBack_keeps (fun t => t.sched.trDropped) (fun _ _ _ => rfl) (fun _ _ _ => rfl) (fun _ _ => rfl) (fun _ _ => rfl) (fun _ _ => rfl) s
@[simp] theorem State.writeBack_sched_collkick (s : State) : s.writeBack.sched.collkick = s.sched.collkick :=
  State.writeBack_keeps (fun t => t.sched.collkick) (fun _ _ _ => rfl) (fun _ _ _ => rfl) (fun _ _ => rfl) (fun _ _ => rfl) (fun _ _ => rfl) s
@[simp] theorem State.writeBack_sched_collKicks (s : State) : s.writeBack.sched.collKicks = s.sched.collKicks :=
  State.writeBack_keeps (fun t => t.sched.collKicks) (fun _ _ _ => rfl) (fun _ _ _ => rfl) (fun _ _ => rfl) (fun _ _ => rfl) (fun _ _ => rfl) s
@[simp] theorem State.writeBack_sched_errUncorr (s : State) : s.writeBack.sched.errUncorr = s.sched.errUncorr :=
  State.writeBack_keeps (fun t => t.sched.errUncorr) (fun _ _ _ => rfl) (fun _ _ _ => rfl) (fun _ _ => rfl) (fun _ _ => rfl) (fun _ _ => rfl) s
@[simp] theorem State.writeBack_sched_errCorr (s : State) : s.writeBack.sched.errCorr = s.sched.errCorr :=
  State.writeBack_keeps (fun t => t.sched.errCorr) (fun _ _ _ => rfl) (fun _ _ _ => rfl) (fun _ _ => rfl) (fun _ _ => rfl) (fun _ _ => rfl) s
@[simp] theorem State.writeBack_sched_censovf (s : State) : s.writeBack.sched.censovf = s.sched.censovf :=
  State.writeBack_keeps (fun t => t.sched.censovf) (fun _ _ _ => rfl) (fun _ _ _ => rfl) (fun _ _ => rfl) (fun _ _ => rfl) (fun _ _ => rfl) s
@[simp] theorem State.writeBack_sched_censdiff (s : State) : s.writeBack.sched.censdiff = s.sched.censdiff :=
  State.writeBack_keeps (fun t => t.sched.censdiff) (fun _ _ _ => rfl) (fun _ _ _ => rfl) (fun _ _ => rfl) (fun _ _ => rfl) (fun _ _ => rfl) s
@[simp] theorem State.writeBack_sched_census (s : State) : s.writeBack.sched.census = s.sched.census :=
  State.writeBack_keeps (fun t => t.sched.census) (fun _ _ _ => rfl) (fun _ _ _ => rfl) (fun _ _ => rfl) (fun _ _ => rfl) (fun _ _ => rfl) s
@[simp] theorem State.writeBack_mem_rdcLost (s : State) : s.writeBack.mem.rdcLost = s.mem.rdcLost :=
  State.writeBack_keeps (fun t => t.mem.rdcLost) (fun _ _ _ => rfl) (fun _ _ _ => rfl) (fun _ _ => rfl) (fun _ _ => rfl) (fun _ _ => rfl) s
@[simp] theorem State.writeBack_mem_tables (s : State) : s.writeBack.mem.tables = s.mem.tables :=
  State.writeBack_keeps (fun t => t.mem.tables) (fun _ _ _ => rfl) (fun _ _ _ => rfl) (fun _ _ => rfl) (fun _ _ => rfl) (fun _ _ => rfl) s
@[simp] theorem State.writeBack_mem_others (s : State) : s.writeBack.mem.others = s.mem.others :=
  State.writeBack_keeps (fun t => t.mem.others) (fun _ _ _ => rfl) (fun _ _ _ => rfl) (fun _ _ => rfl) (fun _ _ => rfl) (fun _ _ => rfl) s
@[simp] theorem State.writeBack_mem_police (s : State) : s.writeBack.mem.police = s.mem.police :=
  State.writeBack_keeps (fun t => t.mem.police) (fun _ _ _ => rfl) (fun _ _ _ => rfl) (fun _ _ => rfl) (fun _ _ => rfl) (fun _ _ => rfl) s
@[simp] theorem State.writeBack_mem_clock (s : State) : s.writeBack.mem.clock = s.mem.clock :=
  State.writeBack_keeps (fun t => t.mem.clock) (fun _ _ _ => rfl) (fun _ _ _ => rfl) (fun _ _ => rfl) (fun _ _ => rfl) (fun _ _ => rfl) s
@[simp] theorem State.writeBack_mem_policeAt (s : State) : s.writeBack.mem.policeAt = s.mem.policeAt :=
  State.writeBack_keeps (fun t => t.mem.policeAt) (fun _ _ _ => rfl) (fun _ _ _ => rfl) (fun _ _ => rfl) (fun _ _ => rfl) (fun _ _ => rfl) s
@[simp] theorem State.writeBack_mem_clusterTab (s : State) : s.writeBack.mem.clusterTab = s.mem.clusterTab :=
  State.writeBack_keeps (fun t => t.mem.clusterTab) (fun _ _ _ => rfl) (fun _ _ _ => rfl) (fun _ _ => rfl) (fun _ _ => rfl) (fun _ _ => rfl) s
@[simp] theorem State.writeBack_mem_laneTab (s : State) : s.writeBack.mem.laneTab = s.mem.laneTab :=
  State.writeBack_keeps (fun t => t.mem.laneTab) (fun _ _ _ => rfl) (fun _ _ _ => rfl) (fun _ _ => rfl) (fun _ _ => rfl) (fun _ _ => rfl) s
@[simp] theorem State.writeBack_mem_bankTab (s : State) : s.writeBack.mem.bankTab = s.mem.bankTab :=
  State.writeBack_keeps (fun t => t.mem.bankTab) (fun _ _ _ => rfl) (fun _ _ _ => rfl) (fun _ _ => rfl) (fun _ _ => rfl) (fun _ _ => rfl) s
@[simp] theorem State.writeBack_mem_clusterNew (s : State) : s.writeBack.mem.clusterNew = s.mem.clusterNew :=
  State.writeBack_keeps (fun t => t.mem.clusterNew) (fun _ _ _ => rfl) (fun _ _ _ => rfl) (fun _ _ => rfl) (fun _ _ => rfl) (fun _ _ => rfl) s
@[simp] theorem State.writeBack_mem_laneNew (s : State) : s.writeBack.mem.laneNew = s.mem.laneNew :=
  State.writeBack_keeps (fun t => t.mem.laneNew) (fun _ _ _ => rfl) (fun _ _ _ => rfl) (fun _ _ => rfl) (fun _ _ => rfl) (fun _ _ => rfl) s
@[simp] theorem State.writeBack_mem_bankNew (s : State) : s.writeBack.mem.bankNew = s.mem.bankNew :=
  State.writeBack_keeps (fun t => t.mem.bankNew) (fun _ _ _ => rfl) (fun _ _ _ => rfl) (fun _ _ => rfl) (fun _ _ => rfl) (fun _ _ => rfl) s
@[simp] theorem State.writeBack_mem_waysNew (s : State) : s.writeBack.mem.waysNew = s.mem.waysNew :=
  State.writeBack_keeps (fun t => t.mem.waysNew) (fun _ _ _ => rfl) (fun _ _ _ => rfl) (fun _ _ => rfl) (fun _ _ => rfl) (fun _ _ => rfl) s
@[simp] theorem State.writeBack_mem_pulls (s : State) : s.writeBack.mem.pulls = s.mem.pulls :=
  State.writeBack_keeps (fun t => t.mem.pulls) (fun _ _ _ => rfl) (fun _ _ _ => rfl) (fun _ _ => rfl) (fun _ _ => rfl) (fun _ _ => rfl) s
@[simp] theorem State.writeBack_mem_stale (s : State) : s.writeBack.mem.stale = s.mem.stale :=
  State.writeBack_keeps (fun t => t.mem.stale) (fun _ _ _ => rfl) (fun _ _ _ => rfl) (fun _ _ => rfl) (fun _ _ => rfl) (fun _ _ => rfl) s
@[simp] theorem State.writeBack_mem_admitted (s : State) : s.writeBack.mem.admitted = s.mem.admitted :=
  State.writeBack_keeps (fun t => t.mem.admitted) (fun _ _ _ => rfl) (fun _ _ _ => rfl) (fun _ _ => rfl) (fun _ _ => rfl) (fun _ _ => rfl) s
@[simp] theorem State.writeBack_mem_clusterTlb (s : State) : s.writeBack.mem.clusterTlb = s.mem.clusterTlb :=
  State.writeBack_keeps (fun t => t.mem.clusterTlb) (fun _ _ _ => rfl) (fun _ _ _ => rfl) (fun _ _ => rfl) (fun _ _ => rfl) (fun _ _ => rfl) s
@[simp] theorem State.writeBack_mem_walkCache (s : State) : s.writeBack.mem.walkCache = s.mem.walkCache :=
  State.writeBack_keeps (fun t => t.mem.walkCache) (fun _ _ _ => rfl) (fun _ _ _ => rfl) (fun _ _ => rfl) (fun _ _ => rfl) (fun _ _ => rfl) s
@[simp] theorem State.writeBack_mem_lsownPeers (s : State) : s.writeBack.mem.lsownPeers = s.mem.lsownPeers :=
  State.writeBack_keeps (fun t => t.mem.lsownPeers) (fun _ _ _ => rfl) (fun _ _ _ => rfl) (fun _ _ => rfl) (fun _ _ => rfl) (fun _ _ => rfl) s
@[simp] theorem State.closeRegion_others (s : State) : s.closeRegion.mem.others = s.mem.others.filter fun o => !(o.own && o.done) := rfl
@[simp] theorem State.closeRegion_mem_bytes (s : State) : s.closeRegion.mem.bytes = s.mem.bytes := rfl
@[simp] theorem State.closeRegion_mem_lost (s : State) : s.closeRegion.mem.lost = s.mem.lost := rfl
@[simp] theorem State.closeRegion_mem_hbmLost (s : State) : s.closeRegion.mem.hbmLost = s.mem.hbmLost := rfl
@[simp] theorem State.closeRegion_mem_rdc (s : State) : s.closeRegion.mem.rdc = s.mem.rdc := rfl
@[simp] theorem State.closeRegion_mem_unsent (s : State) : s.closeRegion.mem.unsent = s.mem.unsent := rfl
@[simp] theorem State.closeRegion_mem_rdcLost (s : State) : s.closeRegion.mem.rdcLost = s.mem.rdcLost := rfl
@[simp] theorem State.closeRegion_mem_lines (s : State) : s.closeRegion.mem.lines = s.mem.lines := rfl
@[simp] theorem State.closeRegion_mem_police (s : State) : s.closeRegion.mem.police = s.mem.police := rfl
@[simp] theorem State.closeRegion_mem_clock (s : State) : s.closeRegion.mem.clock = s.mem.clock := rfl
@[simp] theorem State.closeRegion_mem_policeAt (s : State) : s.closeRegion.mem.policeAt = s.mem.policeAt := rfl
@[simp] theorem State.closeRegion_mem_clusterTab (s : State) : s.closeRegion.mem.clusterTab = s.mem.clusterTab := rfl
@[simp] theorem State.closeRegion_mem_laneTab (s : State) : s.closeRegion.mem.laneTab = s.mem.laneTab := rfl
@[simp] theorem State.closeRegion_mem_bankTab (s : State) : s.closeRegion.mem.bankTab = s.mem.bankTab := rfl
@[simp] theorem State.closeRegion_mem_clusterNew (s : State) : s.closeRegion.mem.clusterNew = s.mem.clusterNew := rfl
@[simp] theorem State.closeRegion_mem_laneNew (s : State) : s.closeRegion.mem.laneNew = s.mem.laneNew := rfl
@[simp] theorem State.closeRegion_mem_bankNew (s : State) : s.closeRegion.mem.bankNew = s.mem.bankNew := rfl
@[simp] theorem State.closeRegion_mem_waysNew (s : State) : s.closeRegion.mem.waysNew = s.mem.waysNew := rfl
@[simp] theorem State.closeRegion_mem_pulls (s : State) : s.closeRegion.mem.pulls = s.mem.pulls := rfl
@[simp] theorem State.closeRegion_mem_stale (s : State) : s.closeRegion.mem.stale = s.mem.stale := rfl
@[simp] theorem State.closeRegion_mem_admitted (s : State) : s.closeRegion.mem.admitted = s.mem.admitted := rfl
@[simp] theorem State.closeRegion_mem_clusterTlb (s : State) : s.closeRegion.mem.clusterTlb = s.mem.clusterTlb := rfl
@[simp] theorem State.closeRegion_mem_walkCache (s : State) : s.closeRegion.mem.walkCache = s.mem.walkCache := rfl
@[simp] theorem State.closeRegion_mem_lsownPeers (s : State) : s.closeRegion.mem.lsownPeers = s.mem.lsownPeers := rfl

end Sys2Proof.Machine
end

