-- ==== Sys2Proof/Safety.lean ====
section
/-! DEFINITION. What the statements speak of: the canonical form of memory, when an instruction's operands are ready, what writing a
destination does, and what an instruction that only works on registers leaves alone. -/
namespace Sys2Proof.Machine

/-! ### Memory -/

/-- The canonical form of memory: addresses strictly rising, no byte listed that an unlisted address reads as (log entry 2). -/
def Memory.wf (m : Memory) : Bool := mwf 0 m.bytes

/-- The state's memory has its canonical form. -/
def State.MemOk (s : State) : Prop := s.mem.wf = true

/-- One byte as home memory holds it: the model's read of one byte. -/
def State.byte (s : State) (key : Nat) : Byte := mget 0 s.mem.bytes key

/-! ### An instruction's operands -/

/-- Instruction i issues in s: its guard reads as true, and its body runs in u, the pc already past it (R199, R207). -/
def Enters (s : State) (i : Instr) (g : Guard) (u : State) : Prop :=
  ∃ t, s.awake.guard g = .ok (true, t) ∧ u = t.past (s.ctx i)

/-- The guard reads as false: u is the state past the instruction (R199). -/
def Skips (s : State) (i : Instr) (g : Guard) (u : State) : Prop :=
  ∃ t, s.awake.guard g = .ok (false, t) ∧ u = t.past (s.ctx i)

/-- Steps 13 to 16 of R207 pass for the operands of instruction i. -/
def State.ready (s : State) (c : Ctx) (l : List Opr) (own : Res Unit := .ok ()) : Prop := s.prepare c l own = .ok ()

/-- A destination takes a write now: no binding on its word (R146), room in the ring port's FIFO (R97). -/
def State.accepts (s : State) : Name → Prop
  | .w k => s.bound (s.phys k.val) = false
  | .nxt => (s.ring 2).length < 8
  | .prv => (s.ring 3).length < 8
  | _ => True

/-- word(n) := v (R214): the word becomes full; a queue or ring port is pushed; z discards, and so does every other name. -/
def State.put (s : State) (n : Name) (v : Word) : State :=
  match n with
  | .w k => s.setCell (s.phys k.val) (.full v)
  | .nxt => s.setRing 2 (s.ring 2 ++ [v])
  | .prv => s.setRing 3 (s.ring 3 ++ [v])
  | .sq0 => s.setQueue 2 (s.queue 2 ++ [.full v])
  | .sq1 => s.setQueue 3 (s.queue 3 ++ [.full v])
  | .lq0 => s.setQueue 0 (s.queue 0 ++ [.full v])
  | .lq1 => s.setQueue 1 (s.queue 1 ++ [.full v])
  | _ => s

/-- A vector takes a write now. -/
def State.acceptsVec (s : State) (v : Nat) : Prop := ∀ k, k < 32 → s.bound (s.phys (32 * v + k)) = false

/-- The 32 words of a vector written. -/
def State.putVec (s : State) (v : Nat) (ws : List Word) : State :=
  (List.range 32).foldl (fun s k => s.setCell (s.phys (32 * v + k)) (.full (ws.getD k 0))) s

/-- A predicate takes a write now: p0 always. -/
def State.acceptsPred (s : State) (p : Fin 16) : Prop := p.val = 0 ∨ s.bound (s.phys 0) = false

/-- Predicate p written (R141): its own bit of w0, and nothing for p0. -/
def State.putPred (s : State) (p : Fin 16) (b : Bool) : State :=
  if p.val = 0 then s else s.setCell (s.phys 0) (.full (setBits s.oldW0 p.val p.val b.toNat))

/-- Instruction i runs to its end in s and leaves w, whose pc is past it or where it branched. -/
def Completes (s : State) (i : Instr) (w : State) : Prop := exec i s = .next (w.retire s.mode)

/-- Instruction i raises a cause: the trap is taken with the pc at it, and nothing else has changed but time. -/
def Raises (s : State) (i : Instr) (c : Nat) (info : Word) : Prop := exec i s = .next ((s.awake.takeTrap c info s.pc).tick)

/-! ### What stays -/

/-- What an instruction that works on words, predicates, queues and ring ports leaves alone, whatever its outcome: home memory, lost
units, the dirty bytes of the RDC, the tables, the matrix unit, the engines, the optimistic state, events, inboxes, deques and pools. -/
structure Kept (s t : State) : Prop where
  bytes : t.mem.bytes = s.mem.bytes
  lost : t.mem.lost = s.mem.lost
  dirty : t.mem.rdc.filter (fun x => x.2.dirty) = s.mem.rdc.filter (fun x => x.2.dirty)
  tables : t.mem.clusterTab = s.mem.clusterTab ∧ t.mem.laneTab = s.mem.laneTab ∧ t.mem.bankTab = s.mem.bankTab
  mu : t.mu = s.mu
  eng : t.eng = s.eng
  opt : t.opt = s.opt
  events : t.sched.events = s.sched.events ∧ t.sched.waiters = s.sched.waiters
  inbox : t.sched.inbox = s.sched.inbox ∧ t.sched.high = s.sched.high ∧ t.sched.domq = s.sched.domq
  deque : t.sched.deque = s.sched.deque ∧ t.sched.dqMem = s.sched.dqMem
  pools : t.sched.pools = s.sched.pools ∧ t.sched.slots = s.sched.slots
  inputs : t.inputs = s.inputs

/-- The registers that only an instruction of their own writes: code bases, fence, trap windows, delegation, address space, parameter
windows, scheduling and observation controls. -/
def Regs.settled (r : Regs) : List Word :=
  [r.cbase, r.wflo, r.wfhi, r.scbase, r.twin, r.utwin, r.tdeleg, r.frmode, r.frlo, r.frhi, r.lnid, r.seed, r.asidtab, r.sroot, r.lsfa,
   r.pka, r.lsown, r.ovfr, r.wlctl, r.mqweight, r.cpquota, r.cpways, r.vt, r.optwin, r.dbgctl, r.pmsel]

end Sys2Proof.Machine
end

