-- ==== Sys2Proof/Laws/Memory.lean ====
section
/-! SUPPORT. Memory: every operation on it keeps its canonical form; a write at home stores the bytes it is given and no other. -/
set_option Elab.async false
namespace Sys2Proof.Machine

theorem reset_memOk : State.reset.MemOk := rfl

/-- Memory's canonical form is that of its bytes alone. -/
theorem MemOk.of_bytes {s t : State} (h : s.MemOk) (e : t.mem.bytes = s.mem.bytes) : t.MemOk := by
  unfold State.MemOk Memory.wf at *
  rw [e]; exact h

/-- A fold keeps the canonical form where each of its steps does. -/
theorem foldl_memOk {β : Type} {f : State → β → State} (hf : ∀ s b, s.MemOk → (f s b).MemOk) :
    ∀ (l : List β) (s : State), s.MemOk → (l.foldl f s).MemOk
  | [], _, h => h
  | b :: l, s, h => foldl_memOk hf l (f s b) (hf s b h)

/-! ### Writes at home -/

theorem putHome_memOk {s : State} (key : Nat) (bs : List Byte) (h : s.MemOk) : (s.putHome key bs).MemOk := mputs_wf bs _ key h

theorem writeHome_bytes (s : State) (key : Nat) (bs : List Byte) : (s.writeHome key bs).mem.bytes = mputs 0 s.mem.bytes key bs := rfl

theorem writeHome_memOk {s : State} (key : Nat) (bs : List Byte) (h : s.MemOk) : (s.writeHome key bs).MemOk := mputs_wf bs _ key h

/-- A write at home: the bytes stored read back, and every other byte as before. -/
theorem writeHome_byte {s : State} (key : Nat) (bs : List Byte) (j : Nat) (h : s.MemOk) :
    (s.writeHome key bs).byte j = if key ≤ j ∧ j < key + bs.length then bs.getD (j - key) 0 else s.byte j := by
  show mget 0 (s.writeHome key bs).mem.bytes j = _
  rw [writeHome_bytes]
  exact mget_mputs bs _ key j h

/-! ### The RDC's write-back and self-invalidation, fences -/

theorem sendSector_memOk {s : State} (u : Nat) (ds : List (Nat × RdcByte)) (h : s.MemOk) : (s.sendSector u ds).MemOk := by
  unfold State.sendSector
  have each : (ds.foldl (fun s x => s.putHome x.1 [x.2.v]) s).MemOk := foldl_memOk (fun s x h => putHome_memOk (s := s) _ _ h) ds s h
  split
  · exact MemOk.of_bytes each rfl
  · split
    · exact putHome_memOk _ _ h
    · exact each

theorem updLine_memOk {s : State} (lv : Lv) (line : Nat) (f : Line → Line) (h : s.MemOk) : (s.updLine lv line f).MemOk := h

theorem reachHbm_memOk {s : State} (line d : Nat) (h : s.MemOk) : (s.reachHbm line d).MemOk := h

theorem loseUnit_memOk {s : State} (key : Nat) (h : s.MemOk) : (s.loseUnit key).MemOk := h

theorem uncover_memOk {s : State} (line gone : Nat) (h : s.MemOk) : (s.uncover line gone).MemOk :=
  foldl_memOk (fun s u h => loseUnit_memOk (s := s) u h) _ _ h

theorem receive_memOk {s : State} (v : Line) (d : Nat) (h : s.MemOk) : (s.receive v d).MemOk := by
  unfold State.receive
  refine updLine_memOk _ _ _ ?_
  split
  · exact reachHbm_memOk _ _ h
  · exact h

theorem arriveHome_memOk {s : State} (line d : Nat) (h : s.MemOk) : (s.arriveHome line d).MemOk := by
  unfold State.arriveHome
  split
  · exact updLine_memOk _ _ _ h
  · split
    · exact receive_memOk _ _ h
    · exact h

theorem sendHome_memOk {s : State} (line : Nat) (h : s.MemOk) : (s.sendHome line).MemOk := by
  unfold State.sendHome
  dsimp only
  split
  · exact h
  · split
    · exact h
    · refine arriveHome_memOk _ _ (foldl_memOk ?_ _ s h)
      intro s k h
      split
      · exact h
      · exact sendSector_memOk _ _ h

theorem markClean_memOk {s : State} (l : List Nat) (h : s.MemOk) : (s.markClean l).MemOk := h

theorem writeBack_memOk {s : State} (h : s.MemOk) : s.writeBack.MemOk :=
  markClean_memOk _ (foldl_memOk (fun _ b h => sendHome_memOk b h) _ s h)

theorem selfInvalidate_memOk {s : State} (h : s.MemOk) : s.selfInvalidate.MemOk := h

theorem closeRegion_memOk {s : State} (h : s.MemOk) : s.closeRegion.MemOk := h

theorem acquire_memOk {s : State} (w : Nat) (h : s.MemOk) : (s.acquire w).MemOk := by
  unfold State.acquire
  split <;> exact h

theorem release_memOk {s t : State} {w : Nat} (h : s.MemOk) (e : s.release w = .ok t) : t.MemOk := by
  unfold State.release at e
  split at e
  · cases e
  · cases e
    split
    · exact writeBack_memOk h
    · exact h

theorem fullFence_memOk {s : State} (w : Nat) (h : s.MemOk) : (s.fullFence w).MemOk := by
  unfold State.fullFence
  dsimp only
  split
  · exact writeBack_memOk (s := { s.closeRegion with mem := { s.closeRegion.mem with stale := [] } }) h
  · exact h

theorem count_memOk {s : State} (c n : Nat) (h : s.MemOk) : (s.count c n).MemOk := h

theorem boundary_memOk {s : State} (h : s.MemOk) : s.boundary.MemOk := fullFence_memOk 4 h

/-! ### The region tables -/

theorem enterTable_bytes {s t : State} {die : Nat} {r : TabRun} (e : s.enterTable die r = some t) : t.mem.bytes = s.mem.bytes := by
  unfold State.enterTable at e
  dsimp only at e
  split at e
  · cases e
  · cases e; rfl

theorem enterOnce_bytes {s t : State} {r : TabRun} (e : s.enterOnce r = some t) : t.mem.bytes = s.mem.bytes := by
  unfold State.enterOnce at e
  dsimp only at e
  split at e
  · cases e; rfl
  · exact enterTable_bytes e

theorem enterLines_bytes {run : Nat → TabRun} : ∀ {l : List Nat} {s t : State}, s.enterLines run l = .ok t → t.mem.bytes = s.mem.bytes
  | [], _, _, e => by cases e; rfl
  | a :: l, s, t, e => by
    unfold State.enterLines at e
    split at e
    · next u hu => exact (enterLines_bytes e).trans (enterOnce_bytes hu)
    · cases e

theorem moveMasks_memOk {s : State} (line : Nat) (h : s.MemOk) : (s.moveMasks line).MemOk := by
  unfold State.moveMasks
  split
  · split
    · next e => exact MemOk.of_bytes h (enterOnce_bytes e)
    · exact h
  · exact h

/-! ### The caches -/

theorem dropLine_memOk {s : State} (lv : Lv) (line : Nat) (h : s.MemOk) : (s.dropLine lv line).MemOk := h

theorem leaveL1_memOk {s : State} (v : Line) (h : s.MemOk) : (s.leaveL1 v).MemOk := by
  unfold State.leaveL1
  dsimp only
  split
  · exact moveMasks_memOk _ (dropLine_memOk _ _ h)
  · exact updLine_memOk _ _ _ (moveMasks_memOk _ (dropLine_memOk _ _ h))

theorem recallL1_memOk {s : State} (line : Nat) (h : s.MemOk) : (s.recallL1 line).MemOk := by
  unfold State.recallL1
  split
  · exact leaveL1_memOk _ h
  · exact h

theorem dropRdcLine_memOk {s : State} (line : Nat) (h : s.MemOk) : (s.dropRdcLine line).MemOk := sendHome_memOk line h

theorem countBroken_memOk {s : State} (v : Line) (h : s.MemOk) : (s.countBroken v).MemOk := h

theorem countKept_memOk {s : State} (v : Line) (h : s.MemOk) : (s.countKept v).MemOk := by
  unfold State.countKept
  split <;> exact h

theorem evict_memOk {s : State} (v : Line) (h : s.MemOk) : (s.evict v).MemOk := by
  unfold State.evict
  dsimp only
  generalize hu : (if v.dueE s.unitTime then State.updLine _ v.lv v.line _ else _) = u
  have h : u.MemOk := by
    subst hu
    split <;> exact h
  split
  · exact leaveL1_memOk _ h
  · exact uncover_memOk _ _ (dropLine_memOk _ _ (reachHbm_memOk _ _ h))
  · generalize hw : (if u.isRemote v.line then u else u.recallL1 v.line) = w
    have h : w.MemOk := by
      subst hw
      split
      · exact h
      · exact recallL1_memOk _ h
    split
    · refine uncover_memOk _ _ (dropLine_memOk _ _ ?_)
      split
      · exact h
      · exact receive_memOk _ _ h
    · exact h
  · exact dropRdcLine_memOk _ (recallL1_memOk _ h)

theorem touch_memOk {s : State} (lv : Lv) (line nud cls rd put : Nat) (demand : Bool) (h : s.MemOk) :
    (s.touch lv line nud cls rd put demand).1.MemOk := by
  have h0 : State.MemOk { s with mem := { s.mem with clock := s.mem.clock + 1 } } := h
  unfold State.touch
  dsimp only
  split
  · refine updLine_memOk _ _ _ ?_
    generalize hu : (if demand && _ && _ && _ then State.countKept _ _ else _) = u
    have h : u.MemOk := by
      subst hu
      split
      · exact countKept_memOk _ h0
      · exact h0
    split
    · exact countBroken_memOk _ h
    · exact h
  · split
    · exact h0
    · split
      · exact evict_memOk _ h0
      · exact h0

theorem touchHome_memOk {s : State} (line nud cls rd put : Nat) (demand : Bool) (h : s.MemOk) :
    (s.touchHome line nud cls rd put demand).MemOk := by
  unfold State.touchHome
  dsimp only
  split
  · exact touch_memOk _ _ _ _ _ _ _ h
  · exact touch_memOk _ _ _ _ _ _ _ (touch_memOk _ _ _ _ _ _ _ h)

theorem touchShared_memOk {s : State} (l : Loc) (nud cls rd put : Nat) (demand : Bool) (h : s.MemOk) :
    (s.touchShared l nud cls rd put demand).MemOk := by
  unfold State.touchShared
  dsimp only
  split
  · split
    · exact touch_memOk _ _ _ _ _ _ _ h
    · exact touchHome_memOk _ _ _ _ _ _ (touch_memOk _ _ _ _ _ _ _ h)
  · exact touchHome_memOk _ _ _ _ _ _ h

theorem touchCore_memOk {s : State} (l : Loc) (nud rd put : Nat) (demand : Bool) (h : s.MemOk) :
    (s.touchCore l nud rd put demand).MemOk := by
  unfold State.touchCore
  dsimp only
  split
  · exact touchShared_memOk _ _ _ _ _ _ (count_memOk _ _ h)
  · split
    · exact touch_memOk _ _ _ _ _ _ _ h
    · exact touchShared_memOk _ _ _ _ _ _ (count_memOk _ _ (touch_memOk _ _ _ _ _ _ _ h))

theorem otherEvictions_memOk {s : State} (h : s.MemOk) : s.otherEvictions.MemOk := by
  unfold State.otherEvictions
  split
  · exact h
  · dsimp only
    split
    · exact h
    · split
      · exact h
      · exact evict_memOk _ h

theorem purge_memOk {s : State} (line : Nat) (h : s.MemOk) : (s.purge line).MemOk := dropRdcLine_memOk line (recallL1_memOk line h)

theorem purgeRange_memOk {s : State} (key n : Nat) (h : s.MemOk) : (s.purgeRange key n).MemOk :=
  foldl_memOk (fun s b h => purge_memOk (s := s) b h) _ s h

theorem fetchRdc_memOk {s : State} (line m : Nat) (h : s.MemOk) : (s.fetchRdc line m).MemOk := by
  unfold State.fetchRdc
  dsimp only
  split
  · exact h
  · split <;> exact h

theorem putRdc_memOk {s : State} (line key : Nat) (bs : List Byte) (b : Bool) (h : s.MemOk) : (s.putRdc line key bs b).MemOk := h

/-! ### Accesses -/

theorem post_memOk {s : State} (m : Sent) (h : s.MemOk) : (s.post m).MemOk := h

theorem failWrite_memOk {s : State} (va : Word) (x : Option EngHart) (h : s.MemOk) : (s.failWrite va x).MemOk := by
  cases x <;> exact h

theorem writeOver_memOk {s : State} (va : Word) (key : Nat) (bs : List Byte) (x : Option EngHart) (h : s.MemOk) :
    (s.writeOver va key bs x).MemOk := by
  unfold State.writeOver
  split
  · exact failWrite_memOk _ _ h
  · split <;> exact writeHome_memOk _ _ h

theorem fetchMaybe_memOk {s : State} (l : Loc) (need : Nat) (h : s.MemOk) : (s.fetchMaybe l need).MemOk := by
  unfold State.fetchMaybe
  split
  · exact fetchRdc_memOk _ _ h
  · exact h

theorem recallMaybe_memOk {s : State} (b : Bool) (line : Nat) (h : s.MemOk) : (if b then s.recallL1 line else s).MemOk := by
  split
  · exact recallL1_memOk _ h
  · exact h

theorem reach_memOk {s : State} (l : Loc) (n nud : Nat) (r : Route) (rd wr whole : Bool) (h : s.MemOk) :
    (s.reach l n nud r rd wr whole).MemOk := by
  unfold State.reach
  dsimp only
  split
  · refine foldl_memOk ?_ _ s h
    intro s line h
    cases r
    · exact fetchMaybe_memOk _ _ (touchCore_memOk _ _ _ _ _ h)
    · exact fetchMaybe_memOk _ _ (touchShared_memOk _ _ _ _ _ _ (recallMaybe_memOk _ _ h))
    · exact touchHome_memOk _ _ _ _ _ _ (recallMaybe_memOk _ _ h)
  · cases r
    · exact purgeRange_memOk _ _ h
    · exact purgeRange_memOk _ _ h
    · dsimp only
      split
      · exact h
      · exact foldl_memOk (fun s b h => recallL1_memOk (s := s) b h) _ s h

theorem otherMaybe_memOk {s : State} (b : Bool) (h : s.MemOk) : (if b then s.otherEvictions else s).MemOk := by
  split
  · exact otherEvictions_memOk h
  · exact h

theorem readPiece_memOk {s : State} (p : Piece) (nud : Nat) (r : Route) (whole : Bool) (h : s.MemOk) :
    (s.readPiece p nud r whole).2.2.MemOk := by
  have h1 := reach_memOk p.loc p.len nud r true false whole (otherMaybe_memOk p.loc.remote h)
  unfold State.readPiece
  split
  · dsimp only
    generalize State.reach _ _ _ _ _ _ _ _ = u at *
    cases r <;> exact h1
  · exact h
  · exact post_memOk _ h
  · exact h

theorem writePiece_memOk {s : State} (p : Piece) (bs : List Byte) (nud : Nat) (r : Route) (rmw : Bool) (x : Option EngHart) (h : s.MemOk) :
    (s.writePiece p bs nud r rmw x).MemOk := by
  have h1 := reach_memOk p.loc p.len nud r rmw true false (otherMaybe_memOk p.loc.remote h)
  unfold State.writePiece
  split
  · dsimp only
    generalize State.reach _ _ _ _ _ _ _ _ = u at *
    refine foldl_memOk ?_ _ _ h1
    intro s line h
    split
    · exact putRdc_memOk _ _ _ _ h
    · exact writeOver_memOk _ _ _ _ h
  · exact writeHome_memOk _ _ h
  · exact h
  · exact h

theorem readPieces_memOk {nud : Nat} {r : Route} {whole : Bool} :
    ∀ {ps : List Piece} {s : State}, s.MemOk → (s.readPieces nud r whole ps).2.2.MemOk
  | [], _, h => h
  | p :: ps, s, h => by
    have := readPieces_memOk (ps := ps) (nud := nud) (r := r) (whole := whole) (readPiece_memOk p nud r whole h)
    unfold State.readPieces
    exact this

theorem writePieces_memOk {s : State} (ps : List Piece) (bs : List Byte) (nud : Nat) (r : Route) (x : Option EngHart) (h : s.MemOk) :
    (s.writePieces ps bs nud r x).MemOk :=
  foldl_memOk (fun s (p : Piece) h => writePiece_memOk (s := s) p _ nud r false x h) ps s h

/-- The masks of an access enter the core's region and the region tables: home bytes change only by the write-back of a boundary. -/
theorem record_memOk {s t : State} {ps : List Piece} {rd wr sync noL1 : Bool} (h : s.MemOk)
    (e : s.record ps rd wr sync noL1 = .ok t) : t.MemOk := by
  unfold State.record at e
  dsimp only at e
  generalize hu : (if 512 < _ then _ else s : State) = u at e
  have h : u.MemOk := by
    subst hu
    split
    · exact boundary_memOk h
    · exact h
  split at e
  · next heq =>
    cases e
    exact MemOk.of_bytes (s := u) h ((enterLines_bytes heq).trans rfl)
  · cases e

theorem recordEach_memOk {rd wr sync : Bool} :
    ∀ {l : List (List Piece)} {s t : State}, s.MemOk → s.recordEach rd wr sync l = .ok t → t.MemOk
  | [], _, _, h, e => by cases e; exact h
  | ps :: l, s, t, h, e => by
    unfold State.recordEach at e
    cases hr : s.record ps rd wr sync with
    | error x => rw [hr] at e; cases e
    | ok u => rw [hr] at e; exact recordEach_memOk (record_memOk h hr) e

/-! ### Walks -/

theorem holdLeaf_memOk {s : State} (w : Who) (b : Bool) (e : TlbEntry) (h : s.MemOk) : (s.holdLeaf w b e).MemOk := by
  unfold State.holdLeaf
  obtain ⟨asid, sup, noDev, via⟩ := w
  cases via <;> cases b <;> exact h

theorem holdPath_memOk {s : State} (w : Who) (l : List WalkEntry) (h : s.MemOk) : (s.holdPath w l).MemOk := h

theorem entryHome_memOk {s : State} (w : Who) (key : Nat) (h : s.MemOk) : (s.entryHome w key).MemOk := by
  unfold State.entryHome
  split
  · exact purge_memOk _ h
  · unfold State.recallRange
    split
    · exact h
    · exact foldl_memOk (fun s b h => recallL1_memOk (s := s) b h) _ s h

theorem noteLeaf_memOk {s : State} (w : Who) (k : Kind) (f : LeafFound) (h : s.MemOk) : (s.noteLeaf w k f).MemOk := by
  unfold State.noteLeaf
  dsimp only
  split
  · exact holdLeaf_memOk _ _ _ h
  · refine holdLeaf_memOk _ _ _ (holdPath_memOk _ _ ?_)
    generalize f.leaf.pte ||| 0x40 ||| _ = e
    by_cases he : e = f.leaf.pte
    · rw [if_pos he]; exact h
    · rw [if_neg he]; exact writeHome_memOk _ _ (entryHome_memOk w _ h)

end Sys2Proof.Machine
end

