-- ==== Sys2Proof/Laws/Run.lean ====
section
/-! SUPPORT. The frame of every instruction (R207): what it answers when its guard is false, when its body completes, traps or waits; and
what the operand operations do when they are accepted. -/
set_option Elab.async false
namespace Sys2Proof.Machine

/-! ### The frame -/

theorem runEnd_eq (i : Instr) (g : Guard) (priv : Ctx → State → Res Unit) (body : Ctx → State → Res Ended) (s : State) :
    runEnd i g priv body s = .next (finish s.awake (do
      priv (s.ctx i) s.awake
      let (go, t) ← s.awake.guard g
      if go then body (s.ctx i) (t.past (s.ctx i)) else .ok (.completed (t.past (s.ctx i))))) := rfl

/-- Every instruction answers a next state. -/
theorem runEnd_next (i : Instr) (g : Guard) (priv : Ctx → State → Res Unit) (body : Ctx → State → Res Ended) (s : State) :
    ∃ t, runEnd i g priv body s = .next t := ⟨_, rfl⟩

theorem run_next (i : Instr) (g : Guard) (body : Ctx → State → Res State) (s : State) : ∃ t, run i g body s = .next t := ⟨_, rfl⟩

/-- A body that completes. -/
theorem runEnd_completed {i : Instr} {g : Guard} {priv : Ctx → State → Res Unit} {body : Ctx → State → Res Ended} {s u w : State}
    (hp : priv (s.ctx i) s.awake = .ok ()) (he : Enters s i g u) (hb : body (s.ctx i) u = .ok (.completed w)) :
    runEnd i g priv body s = .next (w.retire s.mode) := by
  obtain ⟨t, ht, rfl⟩ := he
  rw [runEnd_eq, hp, ht]
  show Host.Outcome.next (finish s.awake (body (s.ctx i) (t.past (s.ctx i)))) = _
  rw [hb]; rfl

/-- A body that ends the task's run on the core. -/
theorem runEnd_left {i : Instr} {g : Guard} {priv : Ctx → State → Res Unit} {body : Ctx → State → Res Ended} {s u w : State}
    (hp : priv (s.ctx i) s.awake = .ok ()) (he : Enters s i g u) (hb : body (s.ctx i) u = .ok (.left w)) :
    runEnd i g priv body s = .next ((w.unwait.count 1 1).tick) := by
  obtain ⟨t, ht, rfl⟩ := he
  rw [runEnd_eq, hp, ht]
  show Host.Outcome.next (finish s.awake (body (s.ctx i) (t.past (s.ctx i)))) = _
  rw [hb]; rfl

/-- A body that raises a cause. -/
theorem runEnd_trap {i : Instr} {g : Guard} {priv : Ctx → State → Res Unit} {body : Ctx → State → Res Ended} {s u : State} {c : Nat}
    {info : Word} (hp : priv (s.ctx i) s.awake = .ok ()) (he : Enters s i g u) (hb : body (s.ctx i) u = .error (.trap c info)) :
    runEnd i g priv body s = .next ((s.awake.takeTrap c info s.pc).tick) := by
  obtain ⟨t, ht, rfl⟩ := he
  rw [runEnd_eq, hp, ht]
  show Host.Outcome.next (finish s.awake (body (s.ctx i) (t.past (s.ctx i)))) = _
  rw [hb]; rfl

/-- The privilege check fails first. -/
theorem runEnd_priv {i : Instr} {g : Guard} {priv : Ctx → State → Res Unit} {body : Ctx → State → Res Ended} {s : State} {c : Nat}
    {info : Word} (hp : priv (s.ctx i) s.awake = .error (.trap c info)) :
    runEnd i g priv body s = .next ((s.awake.takeTrap c info s.pc).tick) := by
  rw [runEnd_eq, hp]; rfl

/-- A false guard: the instruction only moves the pc past itself (R199). -/
theorem runEnd_skips {i : Instr} {g : Guard} {priv : Ctx → State → Res Unit} {body : Ctx → State → Res Ended} {s u : State}
    (hp : priv (s.ctx i) s.awake = .ok ()) (he : Skips s i g u) : runEnd i g priv body s = .next (u.retire s.mode) := by
  obtain ⟨t, ht, rfl⟩ := he
  rw [runEnd_eq, hp, ht]; rfl

theorem free_ok (c : Ctx) (s : State) : free c s = .ok () := rfl

theorem run_eq (i : Instr) (g : Guard) (body : Ctx → State → Res State) (s : State) :
    run i g body s = runEnd i g free (fun c s => (body c s).map .completed) s := rfl

theorem run_completed {i : Instr} {g : Guard} {body : Ctx → State → Res State} {s u w : State} (he : Enters s i g u)
    (hb : body (s.ctx i) u = .ok w) : run i g body s = .next (w.retire s.mode) := by
  rw [run_eq]
  refine runEnd_completed (free_ok _ _) he ?_
  simp only [hb]; rfl

theorem run_trap {i : Instr} {g : Guard} {body : Ctx → State → Res State} {s u : State} {c : Nat} {info : Word} (he : Enters s i g u)
    (hb : body (s.ctx i) u = .error (.trap c info)) : run i g body s = .next ((s.awake.takeTrap c info s.pc).tick) := by
  rw [run_eq]
  refine runEnd_trap (free_ok _ _) he ?_
  simp only [hb]; rfl

theorem run_skips {i : Instr} {g : Guard} {body : Ctx → State → Res State} {s u : State} (he : Skips s i g u) :
    run i g body s = .next (u.retire s.mode) := by
  rw [run_eq]
  exact runEnd_skips (free_ok _ _) he

/-! ### Operands -/

/-- A sequence that succeeds succeeds at each step. -/
theorem bind_ok {α β : Type} {r : Res α} {f : α → Res β} {b : β} (h : (r >>= f) = .ok b) : ∃ a, r = .ok a ∧ f a = .ok b := by
  cases r with
  | error e => exact absurd h (by intro h; cases h)
  | ok a => exact ⟨a, rfl, h⟩

theorem write_w {s : State} {k : Fin 2032} {v : Word} (h : s.bound (s.phys k.val) = false) : s.write (.w k) v = .ok (s.put (.w k) v) := by
  show s.writePhys _ _ = _
  unfold State.writePhys State.unbound
  rw [h]
  rfl

theorem write_nxt {s : State} {v : Word} (h : (s.ring 2).length < 8) : s.write .nxt v = .ok (s.put .nxt v) := by
  show (if 8 ≤ (s.ring 2).length then _ else _) = _
  rw [if_neg (by omega)]
  rfl

theorem write_prv {s : State} {v : Word} (h : (s.ring 3).length < 8) : s.write .prv v = .ok (s.put .prv v) := by
  show (if 8 ≤ (s.ring 3).length then _ else _) = _
  rw [if_neg (by omega)]
  rfl

/-- A write that its destination accepts. -/
theorem write_put {s : State} {n : Name} {v : Word} (h : s.accepts n) : s.write n v = .ok (s.put n v) := by
  cases n with
  | w k => exact write_w h
  | nxt => exact write_nxt h
  | prv => exact write_prv h
  | bad k => rfl
  | lq0 => rfl
  | lq1 => rfl
  | sq0 => rfl
  | sq1 => rfl
  | zero => rfl

theorem unboundAll_ok {s : State} : ∀ {l : List Nat}, (∀ p ∈ l, s.bound p = false) → s.unboundAll l = .ok ()
  | [], _ => rfl
  | p :: ps, h => by
    have h0 : s.bound p = false := h p List.mem_cons_self
    simp only [State.unboundAll, State.unbound, h0]
    exact unboundAll_ok (fun q hq => h q (List.mem_cons_of_mem p hq))

theorem writeVec_put {s : State} {v : Nat} {ws : List Word} (h : s.acceptsVec v) : s.writeVec v ws = .ok (s.putVec v ws) := by
  have : s.unboundAll ((List.range 32).map fun k => s.phys (32 * v + k)) = .ok () := by
    apply unboundAll_ok
    intro p hp
    obtain ⟨k, hk, rfl⟩ := List.mem_map.mp hp
    exact h k (List.mem_range.mp hk)
  simp only [State.writeVec, this]; rfl

theorem writePred_put {s : State} {p : Fin 16} {b : Bool} (h : s.acceptsPred p) : s.writePred p b = .ok (s.putPred p b) := by
  unfold State.writePred State.putPred
  by_cases hp : p.val = 0
  · simp [hp]
  · have h := h.resolve_left hp
    simp only [hp, if_false, State.unbound, h]; rfl

end Sys2Proof.Machine
end

