-- ==== Sys2Proof/Certificates/Slice0/Obligations.lean ====
section
/-! DEFINITION. The statements for the provers, each from the numbered rules of the spec that its docstring names. -/
set_option Elab.async false
open Sys2Proof Sys2Proof.Machine

/-! ### Scalar integer, compare and predicate instructions -/

/-- Two-source integer instructions with the value each gives (R218 to R220): X and Y are `tyVal`, the low w bits of the sources. -/
def aluValues : List ((Guard → Alu → Instr) × (Ty → Word → Word → Nat)) :=
  [ (.add, fun _ a b => (a + b).toNat),
    (.sub, fun _ a b => (a - b).toNat),
    (.mul, fun _ a b => (a * b).toNat),
    (.mulh, fun t a b => modI (tyVal t a * tyVal t b / 2 ^ t.width) 64),
    (.div, fun t a b => if tyVal t b = 0 then 2 ^ t.width - 1 else modI ((tyVal t a).tdiv (tyVal t b)) 64),
    (.rem, fun t a b => if tyVal t b = 0 then a.toNat else modI ((tyVal t a).tmod (tyVal t b)) 64),
    (.min, fun t a b => if tyVal t a ≤ tyVal t b then a.toNat else b.toNat),
    (.max, fun t a b => if tyVal t a ≤ tyVal t b then b.toNat else a.toNat),
    (.and, fun _ a b => (a &&& b).toNat),
    (.or, fun _ a b => (a ||| b).toNat),
    (.xor, fun _ a b => (a ^^^ b).toNat),
    (.andn, fun _ a b => (a &&& ~~~b).toNat),
    (.shl, fun t a b => (a <<< (b.toNat % t.width)).toNat),
    (.shr, fun t a b => zext a t.width / 2 ^ (b.toNat % t.width)),
    (.sra, fun t a b => modI (sextI a.toNat t.width / 2 ^ (b.toNat % t.width)) 64),
    (.rot, fun t a b => zext a t.width / 2 ^ (b.toNat % t.width) + zext a t.width * 2 ^ (t.width - b.toNat % t.width)),
    (.ext, fun t a b =>
      let v := a.toNat / 2 ^ bits b 5 0 % 2 ^ min (bits b 11 6 + 1) (64 - bits b 5 0)
      if t = .i64 then modI (sextI v (min (bits b 11 6 + 1) (64 - bits b 5 0))) 64 else v) ]

/-- R218 to R220: a two-source integer instruction whose guard is true, whose operands are ready and whose destination accepts a write
completes: the destination holds its value at the TYPE's width, extended to the word. -/
def Obligations.IntegerResults : Prop :=
  ∀ p ∈ aluValues, ∀ (g : Guard) (x : Alu) (s u v w : State) (a b : Word), x.t.isInt = true →
    Enters s (p.1 g x) g u → u.ready (s.ctx (p.1 g x)) (srcOpr x.a :: opndOpr x.b ++ [.dst x.d]) →
    u.take x.a.name = (a, v) → v.takeOpnd x.b = (b, w) → w.accepts x.d →
    Completes s (p.1 g x) (w.put x.d (x.t.extend (p.2 x.t a b)))

/-- One-source integer instructions with what R218 asks of the result r: of x, the low w bits of the source, and its value X. -/
def unaryRules : List ((Guard → Un → Instr) × (Ty → Word → Nat → Prop)) :=
  [ (.abs, fun t a r => (r : Int) = if 0 ≤ tyVal t a then tyVal t a else - tyVal t a),
    (.clz, fun t a r => r ≤ t.width ∧ zext a t.width < 2 ^ (t.width - r) ∧ (r < t.width → 2 ^ (t.width - r - 1) ≤ zext a t.width)),
    (.ctz, fun t a r => r ≤ t.width ∧ (∀ i, i < r → bit a i = false) ∧ (r < t.width → bit a r = true)),
    (.popc, fun t a r => r = ((List.range t.width).filter fun i => bit a i).length),
    (.brev, fun t a r => r < 2 ^ t.width ∧ ∀ i, i < t.width → r.testBit i = bit a (t.width - 1 - i)),
    (.bswap, fun t a r => r < 2 ^ t.width ∧ ∀ i, i < t.width / 8 → r / 256 ^ i % 256 = a.toNat / 256 ^ (t.width / 8 - 1 - i) % 256) ]

/-- R218: a one-source integer instruction writes the result its rule asks for, extended to the word. -/
def Obligations.UnaryResults : Prop :=
  ∀ p ∈ unaryRules, ∀ (g : Guard) (x : Un) (s u v : State) (a : Word), x.t.isInt = true →
    Enters s (p.1 g x) g u → u.ready (s.ctx (p.1 g x)) [srcOpr x.a, .dst x.d] → u.take x.a.name = (a, v) → v.accepts x.d →
    ∃ r, p.2 x.t a r ∧ Completes s (p.1 g x) (v.put x.d (x.t.extend r))

/-- R221, R222: SEL, MOV and both forms of LEA, whose result is an address that nothing translates; TYPEs 0xE and 0xF have no form. -/
def Obligations.MoveAndAddressResults : Prop :=
  (∀ (g : Guard) (x : SelArgs) (s u v w y : State) (a b p0 : Word),
    Enters s (.sel g x) g u →
    u.ready (s.ctx (.sel g x)) ([srcOpr x.a, srcOpr x.b] ++ (if x.p = 0 then [] else [.preds]) ++ [.dst x.d]) →
    u.take x.a.name = (a, v) → v.take x.b.name = (b, w) → (if x.p = 0 then (p0, y) = (1, w) else (p0, y) = w.takePhys (w.phys 0)) →
    y.accepts x.d → Completes s (.sel g x) (y.put x.d (x.t.extend (if bit p0 x.p.val then a else b).toNat)))
  ∧ (∀ (g : Guard) (x : MovArgs) (s u v : State) (a : Word),
    Enters s (.mov g x) g u → u.ready (s.ctx (.mov g x)) (opndOpr x.v ++ [.dst x.d]) → u.takeOpnd x.v = (a, v) → v.accepts x.d →
    Completes s (.mov g x) (v.put x.d (x.t.extend a.toNat)))
  ∧ (∀ (g : Guard) (t : Ty) (d : Name) (x y : Src) (s u v w : State) (a b : Word),
    Enters s (.lea g (.idx t d x y)) g u → u.ready (s.ctx (.lea g (.idx t d x y))) [srcOpr x, srcOpr y, .dst d] →
    u.take x.name = (a, v) → v.take y.name = (b, w) → w.accepts d →
    Completes s (.lea g (.idx t d x y)) (w.put d (a + b * wd t.bytes)))
  ∧ (∀ (g : Guard) (d : Name) (o : Imm) (s u : State),
    Enters s (.lea g (.rel d o)) g u → u.ready (s.ctx (.lea g (.rel d o))) [.dst d] → u.accepts d →
    Completes s (.lea g (.rel d o)) (u.put d (s.pc + wdI o.val)))
  ∧ (∀ (g : Guard) (d : Name) (x y : Src), (Instr.lea g (.idx .e2m1 d x y)).formOk = false ∧ (Instr.lea g (.idx .l6 d x y)).formOk = false)

/-- The comparisons of CMP but UN, on integers. -/
def intCompares : List ((Guard → CmpArgs → Instr) × (Int → Int → Bool)) :=
  [(.cmpEq, fun x y => x = y), (.cmpNe, fun x y => x ≠ y), (.cmpLt, fun x y => x < y), (.cmpLe, fun x y => x ≤ y),
   (.cmpGt, fun x y => y < x), (.cmpGe, fun x y => y ≤ x)]

/-- The comparisons of CMP on floating values: what they give when an operand is a NaN, and else by the order of the two (R223). -/
def floatCompares : List ((Guard → CmpArgs → Instr) × Bool × (Int → Bool)) :=
  [(.cmpEq, false, fun o => o = 0), (.cmpNe, true, fun o => o ≠ 0), (.cmpLt, false, fun o => o < 0), (.cmpLe, false, fun o => o ≤ 0),
   (.cmpGt, false, fun o => 0 < o), (.cmpGe, false, fun o => 0 ≤ o), (.cmpUn, true, fun _ => false)]

/-- R223: CMP writes its predicate by the order of X and Y of R218 for an integer TYPE, and by IEEE 754 order for .F16, .B16, .F32 and
.F64; a signalling NaN raises NV, which sets the flag or takes FPX (R190). -/
def compareResults : Prop :=
  (∀ p ∈ intCompares, ∀ (g : Guard) (x : CmpArgs) (s u v w : State) (a b : Word), x.t.isInt = true →
    Enters s (p.1 g x) g u → u.ready (s.ctx (p.1 g x)) (srcOpr x.a :: opndOpr x.b) →
    u.take x.a.name = (a, v) → v.takeOpnd x.b = (b, w) → w.acceptsPred x.p →
    Completes s (p.1 g x) (w.putPred x.p (p.2 (tyVal x.t a) (tyVal x.t b))))
  ∧ (∀ p ∈ floatCompares, ∀ (g : Guard) (x : CmpArgs) (s u v w y : State) (a b : Word), x.t.isFloat = true →
    Enters s (p.1 g x) g u → u.ready (s.ctx (p.1 g x)) (srcOpr x.a :: opndOpr x.b) →
    u.take x.a.name = (a, v) → v.takeOpnd x.b = (b, w) →
    w.raise (if x.t.decode a.toNat = .nan true ∨ x.t.decode b.toNat = .nan true then fNV else 0) = .ok y → y.acceptsPred x.p →
    Completes s (p.1 g x) (y.putPred x.p (if (x.t.decode a.toNat).isNan || (x.t.decode b.toNat).isNan then p.2.1
      else p.2.2 ((x.t.decode a.toNat).cmp (x.t.decode b.toNat)))))

/-- A predicate as an instruction reads it: p0 is 1, another its bit of w0 (R141). -/
def predValue (w0 : Word) (p : Fin 16) : Bool := p = 0 || bit w0 p.val

/-- R224: the predicate instructions, on one reading of w0. -/
def predicateResults : Prop :=
  (∀ p ∈ [((Instr.pand : Guard → PBin → Instr), (· && ·)), (.por, (· || ·)), (.pxor, xor)],
    ∀ (g : Guard) (x : PBin) (s u v : State) (w0 : Word), Enters s (p.1 g x) g u →
    u.ready (s.ctx (p.1 g x)) (if x.a = 0 ∧ x.b = 0 then [] else [.preds]) →
    (if x.a = 0 ∧ x.b = 0 then v = u else u.takePhys (u.phys 0) = (w0, v)) → v.acceptsPred x.d →
    Completes s (p.1 g x) (v.putPred x.d (p.2 (predValue w0 x.a) (predValue w0 x.b))))
  ∧ (∀ p ∈ [((Instr.pnot : Guard → PUn → Instr), not), (.pmov, id)],
    ∀ (g : Guard) (x : PUn) (s u v : State) (w0 : Word), Enters s (p.1 g x) g u →
    u.ready (s.ctx (p.1 g x)) (if x.a = 0 then [] else [.preds]) →
    (if x.a = 0 then v = u else u.takePhys (u.phys 0) = (w0, v)) → v.acceptsPred x.d →
    Completes s (p.1 g x) (v.putPred x.d (p.2 (predValue w0 x.a))))

/-- R223, R224: the compares, and the predicate instructions. -/
def Obligations.ComparesAndPredicates : Prop := compareResults ∧ predicateResults

/-! ### Control -/

/-- R226: BR, JMP, RET, CALL, LOOP and NOP: where the program continues and what they write. -/
def Obligations.ControlTransfers : Prop :=
  (∀ (g : Guard) (o : Imm) (s u : State), Enters s (.br g o) g u → Completes s (.br g o) { u with pc := s.pc + wdI (4 * o.val) })
  ∧ (∀ i ∈ [(Instr.jmp : Guard → Src → Instr), .ret], ∀ (g : Guard) (x : Src) (s u v : State) (a : Word),
    Enters s (i g x) g u → u.ready (s.ctx (i g x)) [srcOpr x] → u.take x.name = (a, v) →
    Completes s (i g x) { v with pc := a &&& ~~~3#64 })
  ∧ (∀ (g : Guard) (d : Name) (o : Imm) (s u : State), Enters s (.call g ⟨d, .rel o⟩) g u →
    u.ready (s.ctx (.call g ⟨d, .rel o⟩)) [.dst d] → u.accepts d →
    Completes s (.call g ⟨d, .rel o⟩)
      { u.put d (s.pc + wd (Instr.call g ⟨d, .rel o⟩).size) with pc := s.pc + wdI (4 * o.val) })
  ∧ (∀ (g : Guard) (d : Name) (x : Src) (s u v : State) (a : Word), Enters s (.call g ⟨d, .reg x⟩) g u →
    u.ready (s.ctx (.call g ⟨d, .reg x⟩)) [srcOpr x, .dst d] → u.take x.name = (a, v) → v.accepts d →
    Completes s (.call g ⟨d, .reg x⟩) { v.put d (s.pc + wd (Instr.call g ⟨d, .reg x⟩).size) with pc := a &&& ~~~3#64 })
  ∧ (∀ (g : Guard) (x : LoopArgs) (s u v : State) (a : Word), Enters s (.loop g x) g u →
    u.ready (s.ctx (.loop g x)) [.both x.d] → u.take x.d = (a, v) → v.accepts x.d →
    Completes s (.loop g x) { v.put x.d (a - 1) with
      pc := if a = 1 then (v.put x.d (a - 1)).pc else s.pc + wdI (4 * x.off.val) })
  ∧ (∀ (l : Len) (s : State), Completes s (.nop l) { s.awake with pc := s.pc + wd (Instr.nop l).size })

/-- R228, R329: BRK takes BREAK with the pc at itself and no other effect; TRAP takes SYSCALL with the next instruction as the resume
point; both put the 13-bit immediate into TINFO. -/
def Obligations.BreakAndSyscall : Prop :=
  (∀ (g : Guard) (k : BitVec 13) (s u : State), Enters s (.brk g k) g u → Raises s (.brk g k) cBREAK (wd k.toNat))
  ∧ (∀ (g : Guard) (k : BitVec 13) (s u : State), Enters s (.trap g k) g u → (u.opt? = true → 2 ≤ u.mode) →
    exec (.trap g k) s = .next (((u.takeTrap cSYSCALL (wd k.toNat) u.pc).unwait.count 1 1).tick))

/-- The window a descriptor names passes the checks of R143: LIMIT 1 to 2,032, BASE + LIMIT at most 8,192, the reserved bits zero, and
in user mode the fence holds it. -/
def fitsWindow (s : State) (d : Word) : Prop :=
  1 ≤ descLimit d ∧ descLimit d ≤ 2032 ∧ descBase d + descLimit d ≤ 8192 ∧ bits d 31 27 = 0
    ∧ (s.mode < 2 → bits s.regs.wflo 12 0 ≤ descBase d ∧ descBase d + descLimit d - 1 ≤ bits s.regs.wfhi 12 0)

/-- An absolute index passes the checks of R230: below 8,192, and in user mode inside the fence. -/
def absFits (s : State) (i : Int) : Prop :=
  0 ≤ i ∧ i < 8192 ∧ (s.mode < 2 → (bits s.regs.wflo 12 0 : Int) ≤ i ∧ i ≤ bits s.regs.wfhi 12 0)

/-- R230 to R234, R237: the window instructions. -/
def windowInstructions : Prop :=
  (∀ (g : Guard) (x : Src) (s u v : State) (d : Word), Enters s (.setwin g x) g u →
    u.ready (s.ctx (.setwin g x)) [srcOpr x] → u.queuesLive = false → u.take x.name = (d, v) → fitsWindow v d →
    Completes s (.setwin g x) (v.setWindow (descBase d) (descLimit d)))
  ∧ (∀ (g : Guard) (n : Name) (s u : State), Enters s (.rdwin g n) g u → u.ready (s.ctx (.rdwin g n)) [.dst n] → u.accepts n →
    Completes s (.rdwin g n) (u.put n (mkDesc u.regs.wb u.regs.wl (rpcOf (s.pc + 8) u.codeBase) false false (u.mode = 3))))
  ∧ (∀ (g : Guard) (x : Src) (s u v y z : State) (w n : Word), Enters s (.swctx g x) g u →
    u.ready (s.ctx (.swctx g x)) [srcOpr x] → u.queuesLive = false → bit u.regs.frmode 63 = false → u.take x.name = (w, v) →
    absFits v (bits w 12 0) → absFits v (bits w 28 16) → v.readPhys (bits w 28 16) = .ok (n, y) → fitsWindow y n →
    y.bound (bits w 12 0) = false →
    z = y.setCell (bits w 12 0) (.full (mkDesc y.regs.wb y.regs.wl (rpcOf (s.pc + 8) y.codeBase) false false false)) →
    Completes s (.swctx g x) { z.setWindow (descBase n) (descLimit n) with pc := z.codeBase + wd (4 * descRpc n) })
  ∧ (∀ (g : Guard) (x : WIdx) (s u v w : State) (a b : Word), Enters s (.wld g x) g u →
    u.ready (s.ctx (.wld g x)) [.src x.a false, .dst x.d] → u.take x.a = (a, v) → absFits v (a.toNat + x.off.toInt) →
    v.readPhys ((a.toNat : Int) + x.off.toInt).toNat = .ok (b, w) → w.accepts x.d → Completes s (.wld g x) (w.put x.d b))
  ∧ (∀ (g : Guard) (x : WIdx) (s u v w : State) (a b : Word), Enters s (.wst g x) g u →
    u.ready (s.ctx (.wst g x)) [.src x.a false, .src x.d false] → u.take x.a = (a, v) → v.take x.d = (b, w) →
    absFits w (a.toNat + x.off.toInt) → w.bound ((a.toNat : Int) + x.off.toInt).toNat = false →
    Completes s (.wst g x) (w.setCell ((a.toNat : Int) + x.off.toInt).toNat (.full b)))
  ∧ (∀ (g : Guard) (x : Src) (s u v : State) (d : Word), Enters s (.setutw g x) g u →
    u.ready (s.ctx (.setutw g x)) [srcOpr x] → u.take x.name = (d, v) → fitsWindow v d →
    Completes s (.setutw g x)
      { v with regs := { v.regs with utwin := mkDesc (descBase d) (descLimit d) (descRpc d) false false false } })

/-- R236, R235: WSCRUB writes 0 to every word of its range, WDRAIN only waits for the bindings in it, WPUSH returns a window to the pool
of its class. -/
def windowRanges : Prop :=
  (∀ (g : Guard) (x : WRange) (s u v w : State) (a : Word) (n : Nat), Enters s (.wscrub g x) g u →
    u.ready (s.ctx (.wscrub g x)) (srcOpr x.a :: countOprs x.c) → u.take x.a.name = (a, v) → v.takeCount x.c = (n, w) →
    a.toNat + n ≤ 8192 → (∀ k, k < n → absFits w ((a.toNat + k : Nat) : Int)) →
    (∀ k, k < n → w.bound (a.toNat + k) = false) →
    Completes s (.wscrub g x) ((List.range n).foldl (fun y k => y.setCell (a.toNat + k) (.full 0)) w))
  ∧ (∀ (g : Guard) (x : WRange) (s u v w : State) (a : Word) (n : Nat), Enters s (.wdrain g x) g u →
    u.ready (s.ctx (.wdrain g x)) (srcOpr x.a :: countOprs x.c) → u.take x.a.name = (a, v) → v.takeCount x.c = (n, w) →
    a.toNat + n ≤ 8192 → (∀ k, k < n → absFits w ((a.toNat + k : Nat) : Int)) →
    (∀ k, k < n → w.bound (a.toNat + k) = false) →
    Completes s (.wdrain g x) w)
  ∧ (∀ (g : Guard) (x : WPushArgs) (s u v : State) (b : Word), Enters s (.wpush g x) g u →
    u.ready (s.ctx (.wpush g x)) [.src x.a false] → bit u.regs.frmode 63 = false → u.take x.a = (b, v) →
    32 ∣ b.toNat → b.toNat + classSize x.cls.val ≤ 8192 →
    (v.mode < 2 → bits v.regs.wflo 12 0 ≤ b.toNat ∧ b.toNat + classSize x.cls.val - 1 ≤ bits v.regs.wfhi 12 0) →
    v.poolFull x.cls.val = false → Completes s (.wpush g x) (v.returnWindow x.cls.val b.toNat v.regs.asid))

/-- A descriptor whose QHELD is set belongs to a core that holds queue entries (R153). -/
def heldHere (s : State) (d : Word) : Prop := bit d 25 = true → s.queuesLive = true

/-- R143 for a descriptor returned to in a mode. -/
def fitsWindowAs (s : State) (d : Word) (user : Bool) : Prop :=
  1 ≤ descLimit d ∧ descLimit d ≤ 2032 ∧ descBase d + descLimit d ≤ 8192 ∧ bits d 31 27 = 0
    ∧ (user = true → bits s.regs.wflo 12 0 ≤ descBase d ∧ descBase d + descLimit d - 1 ≤ bits s.regs.wfhi 12 0)

/-- R143 for RETT, which installs a descriptor only when it returns to user mode. -/
def fitsReturn (s : State) : Prop := bits s.regs.tcause 57 56 < 2 → fitsWindowAs s s.regs.tsave true

/-- R153, R238: RETT returns to TSAVE in the mode TCAUSE.PMODE holds, WRET to UTSAVE in MODE 0: the saved window, that mode, and the pc
at CODE BASE + 4 * RPC. -/
def returnsComplete : Prop :=
  (∀ (g : Guard) (s u : State), s.mode = 2 → Enters s (.rett g) g u →
    fitsReturn u → heldHere u u.regs.tsave →
    Completes s (.rett g) { u with
      pc := (if bits u.regs.tcause 57 56 = 2 then u.regs.scbase else u.regs.cbase) + wd (4 * bits u.regs.tsave 63 32)
      regs := { u.regs with
        wb := bits u.regs.tsave 12 0
        wl := bits u.regs.tsave 23 13
        taskstat := setBits u.regs.taskstat 13 12 (bits u.regs.tcause 57 56) } })
  ∧ (∀ (g : Guard) (s u : State), s.mode = 1 → Enters s (.wret g) g u →
    fitsWindowAs u u.regs.utsave true → heldHere u u.regs.utsave →
    Completes s (.wret g) { u with
      pc := u.regs.cbase + wd (4 * bits u.regs.utsave 63 32)
      regs := { u.regs with
        wb := bits u.regs.utsave 12 0
        wl := bits u.regs.utsave 23 13
        taskstat := setBits u.regs.taskstat 13 12 0 } })

/-- The system registers that MFS reads in every mode, with what each holds (R331). -/
def userReads : List (Nat × (State → Word)) :=
  [ (0x00, fun s => wd s.regs.wb), (0x01, fun s => wd s.regs.wl), (0x02, fun s => s.regs.cbase), (0x03, fun s => s.regs.wflo),
    (0x04, fun s => s.regs.wfhi), (0x08, fun s => s.regs.twin), (0x09, fun s => s.regs.utwin), (0x0D, fun s => s.regs.utsave),
    (0x0E, fun s => s.regs.utcause), (0x0F, fun s => s.regs.utinfo), (0x10, fun s => s.regs.tdeleg), (0x11, fun s => s.qcount),
    (0x12, fun s => s.regs.frmode), (0x13, fun s => s.regs.frlo), (0x14, fun s => s.regs.frhi), (0x18, fun s => wd s.cyc),
    (0x19, fun s => wd s.regs.tclk), (0x1A, fun s => wd s.regs.tbudget), (0x1B, fun s => s.regs.taskstat), (0x1C, fun s => s.regs.lnid),
    (0x1D, fun s => s.regs.fpctl), (0x1E, fun s => s.regs.seed), (0x20, fun s => wd s.regs.asid), (0x21, fun s => wd s.regs.partid),
    (0x22, fun s => wd s.regs.devnum), (0x25, fun s => wd s.regs.unkdist), (0x26, fun s => s.regs.lsfa), (0x27, fun s => s.regs.pka),
    (0x2A, fun s => s.regs.wlctl), (0x2B, fun s => s.regs.mqweight), (0x30, fun s => s.regs.impbnd),
    (0x31, fun s => s.regs.hostbnd), (0x40, fun s => mget 0 s.regs.pwb 0), (0x47, fun s => mget 0 s.regs.pwb 7),
    (0x48, fun s => mget 0 s.regs.pwl 0), (0x4F, fun s => mget 0 s.regs.pwl 7), (0x50, fun s => s.regs.vt),
    (0x51, fun s => s.gvtKey.t), (0x52, fun s => s.regs.optwin), (0x60, fun s => s.readPmc 0), (0x61, fun s => s.readPmc 1),
    (0x62, fun s => s.readPmc 2), (0x63, fun s => s.readPmc 3), (0x64, fun s => s.regs.pmsel) ]

/-- The system registers that MFS reads in MODE 2 only (R331). -/
def supervisorReads : List (Nat × (State → Word)) :=
  [ (0x05, fun s => s.regs.scbase), (0x0A, fun s => s.regs.tsave), (0x0B, fun s => s.regs.tcause), (0x0C, fun s => s.regs.tinfo),
    (0x23, fun s => s.regs.asidtab), (0x24, fun s => s.regs.sroot), (0x28, fun s => s.regs.lsown), (0x29, fun s => s.regs.ovfr), (0x32, fun s => s.regs.mmxwho),
    (0x38, fun s => s.regs.cpquota), (0x39, fun s => s.mem.waysNew), (0x3A, fun s => s.cpstat), (0x58, fun s => s.regs.dbgctl) ]

/-- R330, R331: MFS writes the register's value to D: those of the first list in every mode, those of the second in MODE 2, and outside
it they raise PRIV. -/
def systemReads : Prop :=
  (∀ p ∈ userReads, ∀ (g : Guard) (x : MfsArgs) (s u : State), x.reg.toNat = p.1 → Enters s (.mfs g x) g u →
    u.ready (s.ctx (.mfs g x)) [.dst x.d] → u.accepts x.d → Completes s (.mfs g x) (u.put x.d (p.2 u)))
  ∧ (∀ p ∈ supervisorReads, ∀ (g : Guard) (x : MfsArgs) (s u : State), x.reg.toNat = p.1 → Enters s (.mfs g x) g u →
    u.ready (s.ctx (.mfs g x)) [.dst x.d] →
    (u.mode = 2 → u.accepts x.d → Completes s (.mfs g x) (u.put x.d (p.2 u)))
    ∧ (u.mode ≠ 2 → Raises s (.mfs g x) cPRIV (privInfo p.1 (Instr.mfs g x).parcel0)))
  ∧ (∀ k < 8, ∀ (g : Guard) (x : MfsArgs) (s u : State), Enters s (.mfs g x) g u → u.ready (s.ctx (.mfs g x)) [.dst x.d] → u.accepts x.d →
    (x.reg.toNat = 0x40 + k → Completes s (.mfs g x) (u.put x.d (mget 0 u.regs.pwb k)))
    ∧ (x.reg.toNat = 0x48 + k → Completes s (.mfs g x) (u.put x.d (mget 0 u.regs.pwl k))))

/-- What a supervisor's MTS makes of the registers (R331): number, and the registers after it; `keep` holds the bits named and clears the
others. -/
def supervisorWrites : List (Nat × (Regs → Word → Regs)) :=
  [ (0x02, fun r v => { r with cbase := keep v [(63, 16)] }), (0x03, fun r v => { r with wflo := keep v [(12, 0)] }),
    (0x04, fun r v => { r with wfhi := keep v [(12, 0)] }), (0x05, fun r v => { r with scbase := keep v [(63, 16)] }),
    (0x08, fun r v => { r with twin := v }), (0x09, fun r v => { r with utwin := v }), (0x0A, fun r v => { r with tsave := v }),
    (0x0B, fun r v => { r with tcause := v }), (0x0C, fun r v => { r with tinfo := v }), (0x0D, fun r v => { r with utsave := v }),
    (0x0E, fun r v => { r with utcause := v }), (0x0F, fun r v => { r with utinfo := v }),
    (0x10, fun r v => { r with tdeleg := v &&& 0x0000306800003068 }), (0x12, fun r v => { r with frmode := keep v [(63, 63)] }),
    (0x13, fun r v => { r with frlo := v }), (0x14, fun r v => { r with frhi := v }),
    (0x1A, fun r v => { r with tbudget := bits v 31 0 }), (0x1E, fun r v => { r with seed := v }),
    (0x20, fun r v => { r with asid := bits v 15 0 }), (0x23, fun r v => { r with asidtab := keep v [(55, 19)] }),
    (0x24, fun r v => { r with sroot := keep v [(55, 17), (0, 0)] }), (0x25, fun r v => { r with unkdist := max 5 (min 18 (bits v 4 0)) }),
    (0x28, fun r v => { r with lsown := keep v [(16, 0)] }), (0x2A, fun r v => { r with wlctl := keep v [(15, 0)] }),
    (0x2B, fun r v => { r with mqweight := keep v [(3, 0)] }), (0x30, fun r v => { r with impbnd := v }),
    (0x31, fun r v => { r with hostbnd := keep v [(31, 0)] }),
    (0x40, fun r v => { r with pwb := mput 0 r.pwb 0 v }), (0x47, fun r v => { r with pwb := mput 0 r.pwb 7 v }),
    (0x48, fun r v => { r with pwl := mput 0 r.pwl 0 (keep v [(63, 63), (39, 0)]) }),
    (0x4F, fun r v => { r with pwl := mput 0 r.pwl 7 (keep v [(63, 63), (39, 0)]) }),
    (0x52, fun r v => { r with optwin := v }), (0x58, fun r v => { r with dbgctl := keep v [(0, 0)] }),
    (0x60, fun r v => { r with pmc := mput 0 r.pmc 0 (keep v [(62, 0)]) }), (0x64, fun r v => { r with pmsel := keep v [(31, 0)] }) ]

/-- What user code's MTS makes of the registers it may write (R189, R150, R42, R331). -/
def userRegWrites : List (Nat × (Regs → Word → Regs)) :=
  [ (0x0D, fun r v => { r with utsave := v }),
    (0x10, fun r v => { r with tdeleg := setBits r.tdeleg 31 0 (bits v 31 0 &&& 0x3068) }),
    (0x1B, fun r v => { r with taskstat := if bit v 8 then setBits r.taskstat 8 8 0 else r.taskstat }),
    (0x1D, fun r v => { r with fpctl := (v &&& 0x3F3F) ||| wd (fld (if bits v 18 16 ≤ 5 then bits v 18 16 else bits r.fpctl 18 16) 16) }),
    (0x1E, fun r v => { r with seed := v }) ]

/-- The registers that no MTS writes in any mode (R331). -/
def readOnly : List Nat := [0x11, 0x18, 0x19, 0x1C, 0x21, 0x22, 0x32, 0x3A, 0x50, 0x51]

/-- R330, R331: MTS writes the register as its row says: in MODE 2 the rows of the first list, the parameter windows and the counters, outside it
the rows of the second list; every other register then raises PRIV. PKA takes an area that fits and keeps clear of LSFA (R163), WB and WL
the pair that passes check 1 of R143 (R139). CPQUOTA takes [44:0] and starts counting policing intervals of its own length (R66), CPWAYS takes
its value for the next PLSYNC. -/
def systemWrites : Prop :=
  (∀ p ∈ supervisorWrites, ∀ (g : Guard) (x : MtsArgs) (s u v : State) (a : Word), x.reg.toNat = p.1 → Enters s (.mts g x) g u →
    u.mode = 2 → u.ready (s.ctx (.mts g x)) [.src x.a false] → u.take x.a = (a, v) →
    Completes s (.mts g x) { v with regs := p.2 v.regs a })
  ∧ (∀ p ∈ userRegWrites, ∀ (g : Guard) (x : MtsArgs) (s u v : State) (a : Word), x.reg.toNat = p.1 → Enters s (.mts g x) g u →
    u.mode ≠ 2 → (u.opt? = true → 2 ≤ u.mode ∨ p.1 = 0x1D ∨ p.1 = 0x1E) → u.ready (s.ctx (.mts g x)) [.src x.a false] →
    u.take x.a = (a, v) → Completes s (.mts g x) { v with regs := p.2 v.regs a })
  ∧ (∀ (g : Guard) (x : MtsArgs) (s u : State), regKnown x.reg.toNat = true → Enters s (.mts g x) g u → u.mode ≠ 2 → u.opt? = false →
    (∀ q ∈ userRegWrites, q.1 ≠ x.reg.toNat) → u.ready (s.ctx (.mts g x)) [.src x.a false] →
    Raises s (.mts g x) cPRIV (privInfo x.reg.toNat (Instr.mts g x).parcel0))
  ∧ (∀ (g : Guard) (x : MtsArgs) (s u v : State) (a : Word), Enters s (.mts g x) g u → u.mode = 2 →
    u.ready (s.ctx (.mts g x)) [.src x.a false] → u.take x.a = (a, v) →
    (x.reg.toNat = 0x38 → Completes s (.mts g x) { v with
      regs := { v.regs with cpquota := keep a [(44, 0)] }
      mem := { v.mem with policeAt := v.cyc / 2 ^ max 16 (min 24 (bits a 44 40)) } })
    ∧ (x.reg.toNat = 0x39 → Completes s (.mts g x) { v with mem := { v.mem with waysNew := keep a [(63, 63), (47, 0)] } })
    ∧ (x.reg.toNat = 0x1B → Completes s (.mts g x) { v with regs := { v.regs with
      taskstat := setBits (if bit a 8 then setBits v.regs.taskstat 8 8 0 else v.regs.taskstat) 14 14 (bits a 14 14) } })
    ∧ (x.reg.toNat = 0x1D → Completes s (.mts g x) { v with regs := { v.regs with
      fpctl := (a &&& 0x3F3F) ||| wd (fld (if bits a 18 16 ≤ 5 then bits a 18 16 else bits v.regs.fpctl 18 16) 16) } })
    ∧ (x.reg.toNat = 0x27 → Completes s (.mts g x)
      (if areaOk a v.regs.lsfa then { v with regs := { v.regs with pka := keep a [(23, 16), (7, 0)] } } else v))
    ∧ (x.reg.toNat = 0x29 → Completes s (.mts g x) { v with regs := { v.regs with ovfr := keep a [(63, 60), (55, 12)] } })
    ∧ (∀ k < 8, x.reg.toNat = 0x40 + k → Completes s (.mts g x) { v with regs := { v.regs with pwb := mput 0 v.regs.pwb k a } })
    ∧ (∀ k < 8, x.reg.toNat = 0x48 + k → Completes s (.mts g x)
      { v with regs := { v.regs with pwl := mput 0 v.regs.pwl k (keep a [(63, 63), (39, 0)]) } })
    ∧ (∀ k < 4, x.reg.toNat = 0x60 + k → Completes s (.mts g x)
      { v with regs := { v.regs with pmc := mput 0 v.regs.pmc k (keep a [(62, 0)]) } })
    ∧ (x.reg.toNat = 0 → 1 ≤ v.regs.wl → v.regs.wl ≤ 2032 → bits a 12 0 + v.regs.wl ≤ 8192 →
      Completes s (.mts g x) (v.setWindow (bits a 12 0) v.regs.wl))
    ∧ (x.reg.toNat = 0 → 8192 < bits a 12 0 + v.regs.wl → Raises s (.mts g x) cWINDOW (winInfo 2 (bits a 12 0) 0))
    ∧ (x.reg.toNat = 1 → 1 ≤ bits a 10 0 → bits a 10 0 ≤ 2032 → v.regs.wb + bits a 10 0 ≤ 8192 →
      Completes s (.mts g x) (v.setWindow v.regs.wb (bits a 10 0)))
    ∧ (x.reg.toNat = 1 → bits a 10 0 = 0 ∨ 2032 < bits a 10 0 ∨ 8192 < v.regs.wb + bits a 10 0 →
      Raises s (.mts g x) cWINDOW (winInfo 2 v.regs.wb 0))
    ∧ (x.reg.toNat ∈ readOnly → Completes s (.mts g x) v))

/-- R230 to R237: the window instructions and those on ranges of words. -/
def Obligations.WindowInstructions : Prop := windowInstructions ∧ windowRanges

/-- R330, R331: MFS and MTS. The model's choices, and no rules of the spec: FRMODE and the other forerunner registers are written freely, reserved
bits read 0, and a register that is read-only in every mode keeps its value (log entry 24); CPWAYS reads as it was last written, before
PLSYNC too (log entry 19). -/
def Obligations.SystemRegisters : Prop := systemReads ∧ systemWrites

/-- R332: which entry of a TLB a TLBI of KIND k invalidates. -/
def tlbDrops (k : Nat) (va ctl : Word) (part : Nat) (e : TlbEntry) : Prop :=
  e.part = part ∧ match k with
    | 0 => e.va ≤ va.toNat ∧ va.toNat < e.va + e.size ∧ (e.global = true ∨ e.asid = bits ctl 31 16)
    | 1 => e.global = false ∧ e.asid = bits ctl 31 16
    | _ => True

/-- R332: which entry of a walk cache goes with them: one on the path of the address, of the ASID, or of the partition. -/
def walkDrops (k : Nat) (va ctl : Word) (part : Nat) (e : WalkEntry) : Prop :=
  e.part = part ∧ match k with
    | 0 => e.va ≤ va.toNat ∧ va.toNat < e.va + e.size
    | 1 => e.asid = bits ctl 31 16
    | _ => True

/-- Two tables hold the same entries under the same numbers, but for those that meet a condition. -/
def leftOf {α : Type} (drops : α → Prop) (m n : SMap (List α)) : Prop :=
  ∀ c e, (∃ l, (c, l) ∈ n ∧ e ∈ l) ↔ (∃ l, (c, l) ∈ m ∧ e ∈ l) ∧ ¬ drops e

/-- R332: each TLBI completes in MODE 2 and leaves, in the core's and the matrix unit's TLB, in every cluster's TLB and in every die's walk
cache, exactly the entries it does not name, and all else as it was; a control word with KIND 3 raises FORM, one with a reserved bit too by the
model's choice (log entry 68), and outside MODE 2 it raises PRIV. -/
def Obligations.TranslationInvalidation : Prop :=
  ∀ p ∈ [((Instr.tlbiPage : Guard → TwoSrc → Instr), 0), (.tlbiAsid, 1), (.tlbiPartition, 2)], ∀ (g : Guard) (x : TwoSrc) (s : State),
    (s.mode ≠ 2 → Raises s (p.1 g x) cPRIV (privInfo 0 (p.1 g x).parcel0))
    ∧ (s.mode = 2 → ∀ (u v w : State) (va ctl : Word), Enters s (p.1 g x) g u →
      u.ready (s.ctx (p.1 g x)) [srcOpr x.a, srcOpr x.b] → u.take x.a.name = (va, v) → v.take x.b.name = (ctl, w) →
      bits ctl 63 32 = 0 → bits ctl 15 2 = 0 → bits ctl 1 0 = p.2 →
      ∃ tlb mu clusters walks, (∀ e, e ∈ tlb ↔ e ∈ w.core.tlb ∧ ¬ tlbDrops p.2 va ctl w.regs.partid e)
        ∧ (∀ e, e ∈ mu ↔ e ∈ w.core.muTlb ∧ ¬ tlbDrops p.2 va ctl w.regs.partid e)
        ∧ leftOf (tlbDrops p.2 va ctl w.regs.partid) w.mem.clusterTlb clusters
        ∧ leftOf (walkDrops p.2 va ctl w.regs.partid) w.mem.walkCache walks
        ∧ Completes s (p.1 g x) { w with
            core := { w.core with tlb := tlb, muTlb := mu }, mem := { w.mem with clusterTlb := clusters, walkCache := walks } })
    ∧ (s.mode = 2 → ∀ (u v w : State) (va ctl : Word), Enters s (p.1 g x) g u →
      u.ready (s.ctx (p.1 g x)) [srcOpr x.a, srcOpr x.b] → u.take x.a.name = (va, v) → v.take x.b.name = (ctl, w) →
      bits ctl 63 32 ≠ 0 ∨ bits ctl 15 2 ≠ 0 ∨ bits ctl 1 0 = 3 →
      Raises s (p.1 g x) cILLEGAL (illInfo Ill.form.code (p.1 g x).parcel0))

/-- R333: IDLE stops issue on the core and HALT freezes the partition, both after themselves; outside MODE 2 they raise PRIV. -/
def idleAndHalt : Prop :=
  (∀ (g : Guard) (s u : State), s.mode = 2 → Enters s (.idle g) g u →
    Completes s (.idle g) { u with core := { u.core with idle := true } })
  ∧ (∀ (g : Guard) (s u : State), s.mode = 2 → Enters s (.halt g) g u →
    Completes s (.halt g) { u with sys := { u.sys with halted := true }, core := { u.core with idle := false } })
  ∧ (∀ i ∈ [Instr.idle, Instr.halt], ∀ (g : Guard) (s : State), s.mode ≠ 2 → Raises s (i g) cPRIV (privInfo 0 (i g).parcel0))

/-- R52, R47: MTS to LSFA sets the footprint area where it fits and keeps clear of the park area, and leaves it as it was where it does
not fit; MTS to PLSYNC with bit 0 set puts the tables in force once nothing of the partition is under way. -/
def areaAndPlaceWrites : Prop :=
  (∀ (g : Guard) (a : Name) (s u v : State) (x : Word), Enters s (.lsfa g a) g u → u.mode = 2 →
    u.ready (s.ctx (.lsfa g a)) [.src a false] → u.take a = (x, v) → 128 < bits x 7 0 + bits x 23 16 → Completes s (.lsfa g a) v)
  ∧ (∀ (g : Guard) (a : Name) (s u v : State) (x : Word), Enters s (.lsfa g a) g u → u.mode = 2 →
    u.ready (s.ctx (.lsfa g a)) [.src a false] → u.take a = (x, v) → areaOk x v.regs.pka = true →
    (∀ p ∈ v.sched.pins, 4096 * bits x 7 0 ≤ p.off ∧ p.off + p.len ≤ 4096 * (bits x 7 0 + bits x 23 16)) →
    Completes s (.lsfa g a) { v with regs := { v.regs with lsfa := keep x [(23, 16), (7, 0)] } })
  ∧ (∀ (g : Guard) (a : Name) (s u v : State) (x : Word), Enters s (.plsync g a) g u → u.mode = 2 →
    u.ready (s.ctx (.plsync g a)) [.src a false] → u.take a = (x, v) → bit x 0 = false → Completes s (.plsync g a) v)
  ∧ (∀ (g : Guard) (a : Name) (s u v : State) (x : Word), Enters s (.plsync g a) g u → u.mode = 2 →
    u.ready (s.ctx (.plsync g a)) [.src a false] → u.take a = (x, v) → bit x 0 = true → v.placeQuiet = true →
    ∃ w, Completes s (.plsync g a) w ∧ w.mem.clusterTab = v.mem.clusterNew ∧ w.mem.laneTab = v.mem.laneNew
      ∧ w.mem.bankTab = v.mem.bankNew ∧ w.regs.cpways = v.mem.waysNew)

/-- The census area at va can be accessed: 64 bytes at a time, none of which stops. -/
def censusReach (s : State) (k : Kind) (va : Word) : Prop := s.censusCheck k va censusChunks = .ok ()

/-- R334: CENSUS of kind 0 stores the sites and gives their number, kind 1 gives the lowest site that differs from the area's and records
it in CENSDIFF unless one stands there, kind 2 clears every site. -/
def censusInstructions : Prop :=
  (∀ (g : Guard) (x : CensusArgs) (s u v w : State) (va : Word), Enters s (.censusStore g x) g u → (u.opt? = true → 2 ≤ u.mode) →
    u.ready (s.ctx (.censusStore g x)) [.src x.a false, .dst x.d] → u.take x.a = (va, v) → 64 ∣ va.toNat → censusReach v .write va →
    v.accepts x.d → (v.put x.d (wd v.sched.census.length)).censusWrite va v.censusImage censusChunks = .ok w →
    Completes s (.censusStore g x) w)
  ∧ (∀ (g : Guard) (x : CensusArgs) (s u v w : State) (va : Word) (bs : List Byte), Enters s (.censusCompare g x) g u →
    (u.opt? = true → 2 ≤ u.mode) → u.ready (s.ctx (.censusCompare g x)) [.src x.a false, .dst x.d] → u.take x.a = (va, v) →
    64 ∣ va.toNat → censusReach v .read va → v.censusRead va censusChunks = .ok (bs, w) → w.accepts x.d →
    (lowestDiff w.sched.census (sitesOf 4096 bs) = none → Completes s (.censusCompare g x) (w.put x.d 0xFFFFFFFFFFFFFFFF))
    ∧ (∀ a, lowestDiff w.sched.census (sitesOf 4096 bs) = some a → Completes s (.censusCompare g x)
      (({ w with sched := { w.sched with
          censdiff := if bit w.sched.censdiff 63 then w.sched.censdiff else wd (2 ^ 63 + a) } }).put x.d (wd a))))
  ∧ (∀ (g : Guard) (x : CensusArgs) (s u v : State) (va : Word), Enters s (.censusClear g x) g u → (u.opt? = true → 2 ≤ u.mode) →
    u.ready (s.ctx (.censusClear g x)) [.src x.a false, .dst x.d] → u.take x.a = (va, v) → 64 ∣ va.toNat → v.accepts x.d →
    Completes s (.censusClear g x) (({ v with sched := { v.sched with census := [], censovf := 0 } }).put x.d 0))
  ∧ (∀ i ∈ [(Instr.censusStore : Guard → CensusArgs → Instr), .censusCompare, .censusClear], ∀ (g : Guard) (x : CensusArgs) (s u v : State)
    (va : Word), Enters s (i g x) g u → (u.opt? = true → 2 ≤ u.mode) → u.ready (s.ctx (i g x)) [.src x.a false, .dst x.d] →
    u.take x.a = (va, v) → ¬ 64 ∣ va.toNat → ∃ info, Raises s (i g x) cALIGN info)

/-- The task as SUSPEND saves it (R395): TSAVE's resume point, N words of TSAVE's window, its handler's BUDGET as REMAIN, MODE and GRACE
clear, no event and no matrix save area. -/
def suspendedTask (s : State) (t : Task) (n : Nat) (inRing : Bool) (place : Nat) : Parked :=
  { id := s.sched.nextPark, desc := mkDesc 0 0 (descRpc s.regs.tsave) false false false, tclk := s.regs.tclk, remain := t.budget
    words := (List.range n).map fun k => s.cell (descBase s.regs.tsave + k)
    stat := setBits s.regs.taskstat 14 12 0, task := t, on := .suspend, scope := wd (fld 1 32), inRing := inRing, place := place }

/-- R395: MTS to SUSPEND without MU takes the trapped task off the core, returns its window and enters it at the tail of the resume
queue; outside MODE 2 it raises PRIV. Its release at self scope is log entry 37's, and the place the record takes log entry 28's. -/
def suspendsTask : Prop :=
  (∀ (g : Guard) (a : Name) (s u v w : State) (x : Word) (t : Task) (inRing : Bool) (place : Nat), Enters s (.suspend g a) g u → u.mode = 2 →
    u.ready (s.ctx (.suspend g a)) [.src a false] → u.take a = (x, v) → v.sched.task = some t → bits v.regs.tcause 57 56 = 0 →
    bit v.regs.tsave 24 = true → bit v.regs.tsave 25 = false → bits x 14 11 = 0 → bit x 15 = false →
    bits x 10 0 ≤ descLimit v.regs.tsave → bits x 10 0 ≤ classSize t.cls → v.poolFull t.cls = false →
    (∀ k, k < descLimit v.regs.tsave → v.bound (descBase v.regs.tsave + k) = false) →
    (∀ k, k < t.size → v.bound (t.base + k) = false) → v.parkRoom (bits x 10 0) = some inRing → v.release 0 = .ok w →
    w.parkPlace (bits x 10 0) = some (inRing, place) →
    exec (.suspend g a) s = .next (((({ w with mu := { w.mu with susp := none } } : State).parkTask t
      (suspendedTask w t (bits x 10 0) inRing place)).unwait.count 1 1).tick))
  ∧ (∀ (g : Guard) (a : Name) (s u : State), Enters s (.suspend g a) g u → u.mode ≠ 2 → u.opt? = false →
    u.ready (s.ctx (.suspend g a)) [.src a false] → Raises s (.suspend g a) cPRIV (privInfo 0x59 (Instr.suspend g a).parcel0))

/-- R333, R395: IDLE, HALT and SUSPEND. SUSPEND's release at self scope and the place of its record are the model's choices (log entries 37
and 28). -/
def Obligations.IdleHaltAndSuspend : Prop := idleAndHalt ∧ suspendsTask

/-- R47, R52, R334: LSFA, PLSYNC and CENSUS. What PLSYNC waits for is judged of this core alone, which is the model's choice (log entry 19 and,
for what other cores of the partition have under way, log entry 54). -/
def Obligations.AreasPlacesAndCensus : Prop := areaAndPlaceWrites ∧ censusInstructions

/-! ### Tasks -/

/-- R310: the instructions of major 0x3C run in MODE 0 and MODE 3. -/
def taskModes (s : State) : Prop := s.mode ≠ 1 ∧ s.mode ≠ 2

/-- Not inside an optimistic handler (R356). -/
def plainHandler (s : State) : Prop := s.opt? = true → 2 ≤ s.mode

/-- A core word names a core of the partition's rectangle, and word 0 of the record is well formed (R154, R312). -/
def sendable (s : State) (n : Word) (ws : List Word) : Prop :=
  bits n 63 13 = 0 ∧ n.toNat % 128 < s.sys.w ∧ n.toNat / 128 < s.sys.h ∧ bits (ws.getD 0 0) 63 59 = 0 ∧ bit (ws.getD 0 0) 56 = false
    ∧ bits (ws.getD 0 0) 1 0 = 0

/-- The record as it is delivered: ANTI and OPT of word 0 are 0 (R154). -/
def asDelivered (ws : List Word) : Rec :=
  ⟨setBits (ws.getD 0 0) 58 57 0, ws.getD 1 0, ws.getD 2 0, ws.getD 3 0, ws.getD 4 0, ws.getD 5 0, ws.getD 6 0, ws.getD 7 0⟩

/-- The record of an optimistic message: OPT of word 0 is 1, ANTI 0 (R361). -/
def asOptimistic (ws : List Word) : Rec := { asDelivered ws with w0 := setBits (ws.getD 0 0) 58 57 1 }

/-- R312, R313, R314: SEND counts the launch's live task and sends one record; a rectangle send performs one release and sends to every core
of the rectangle in ascending number. -/
def messageSends : Prop :=
  (∀ (g : Guard) (x : SendArgs) (s u v w : State) (n sc : Word) (ws : List Word), taskModes s → Enters s (.send g x) g u → plainHandler u →
    u.checkScope (s.ctx (.send g x)) x.sc = .ok () →
    u.ready (s.ctx (.send g x)) ([srcOpr x.a, runOpr x.r 8] ++ scopeOpr x.sc) → u.takeSend x = (n, ws, sc, v) → sendable v n ws →
    v.sendsFull = false → v.release (v.scopeWidth sc) = .ok w →
    Completes s (.send g x) ((w.liveUp v.launchCtx.lnid 1).sendRecord n.toNat
      { r := asDelivered ws, ctx := v.launchCtx, scope := sc, sender := v.core.number }))
  ∧ (∀ (g : Guard) (x : SendRect) (s u v w : State) (ws : List Word) (sc : Word), taskModes s → Enters s (.sendRect g x) g u → plainHandler u →
    u.ready (s.ctx (.sendRect g x)) [runOpr x.r 8] → u.takeRun x.r.first 8 = (ws, v) → sc = wd (fld (x.sc.val + 1) 32) →
    coreX x.core0.toNat ≤ coreX x.core1.toNat → coreY x.core0.toNat ≤ coreY x.core1.toNat → sendable v (wd x.core0.toNat) ws →
    sendable v (wd x.core1.toNat) ws → v.sendsFull = false → v.release (v.scopeWidth sc) = .ok w →
    ∃ l : List Nat, l.Pairwise (· < ·) ∧ (∀ n, n ∈ l ↔ coreX x.core0.toNat ≤ coreX n ∧ coreX n ≤ coreX x.core1.toNat
        ∧ coreY x.core0.toNat ≤ coreY n ∧ coreY n ≤ coreY x.core1.toNat)
      ∧ Completes s (.sendRect g x) (l.foldl (fun y n => y.sendRecord n
        { r := asDelivered ws, ctx := v.launchCtx, scope := sc, sender := v.core.number }) (w.liveUp v.launchCtx.lnid l.length)))

/-- R315, R318: SPAWN pushes a record on the bottom of the core's deque; SPAWNEV hands it to the event's list, or releases it at once where
the count has reached the threshold. -/
def spawnsRecords : Prop :=
  (∀ (g : Guard) (x : SpawnArgs) (s u v w y z : State) (ws : List Word) (sc : Word), taskModes s → Enters s (.spawn g x) g u →
    plainHandler u → bit u.regs.frmode 63 = false → u.checkScope (s.ctx (.spawn g x)) x.sc = .ok () →
    u.ready (s.ctx (.spawn g x)) (runOpr x.r 8 :: scopeOpr x.sc) → u.takeRun x.r.first 8 = (ws, v) → v.takeScope x.sc = (sc, w) →
    wordZeroOk (ws.getD 0 0) = true → w.release (w.scopeWidth sc) = .ok y →
    y.pushDeque { r := asDelivered ws, ctx := w.launchCtx, scope := sc } = some z →
    Completes s (.spawn g x) (z.liveUp w.launchCtx.lnid 1))
  ∧ (∀ (g : Guard) (x : SendArgs) (s u v w : State) (e sc : Word) (ws : List Word) (ovf : Bool), taskModes s →
    Enters s (.spawnev g x) g u → plainHandler u → bit u.regs.frmode 63 = false → u.checkScope (s.ctx (.spawnev g x)) x.sc = .ok () →
    u.ready (s.ctx (.spawnev g x)) ([srcOpr x.a, runOpr x.r 8] ++ scopeOpr x.sc) → u.takeSend x = (e, ws, sc, v) →
    bits e 31 16 = 0 → wordZeroOk (ws.getD 0 0) = true → v.sendsFull = false → v.absentAt (v.eventEntry (bits e 15 0)) = none →
    v.waiterNode (bits e 15 0) = some ovf → v.release (v.scopeWidth sc) = .ok w →
    Completes s (.spawnev g x) ((w.liveUp v.launchCtx.lnid 1).addWaiter (bits e 15 0) (bits e 63 32) ovf
      (.inl { r := asDelivered ws, ctx := v.launchCtx, scope := sc })))

/-- R317: EVADD adds the low 32 bits of word(B), signed, and the sum stays between 0 and 2^32 - 1; EVSET sets the count to them; D is bound
to the old count. -/
def eventUpdates : Prop :=
  ∀ p ∈ [((Instr.evadd : Guard → EvArgs → Instr),
      fun (old : Nat) (y : Word) => (max 0 (min ((old : Int) + sextI y.toNat 32) 4294967295)).toNat), (.evset, fun _ y => y.toNat % 2 ^ 32)],
    ∀ (g : Guard) (x : EvArgs) (s u v w y z r : State) (e b sc : Word), taskModes s → Enters s (p.1 g x) g u → plainHandler u →
    u.checkScope (s.ctx (p.1 g x)) x.sc = .ok () →
    u.ready (s.ctx (p.1 g x)) ([srcOpr x.a, srcOpr x.b] ++ scopeOpr x.sc ++ [.dst x.d]) →
    u.take x.a.name = (e, v) → v.take x.b.name = (b, w) → w.takeScope x.sc = (sc, y) → bits e 31 16 = 0 →
    y.absentAt (y.eventEntry (bits e 15 0)) = none → y.release (y.scopeWidth sc) = .ok z → z.bindDst x.d (some (wd (y.eventCount (bits e 15 0)))) 0 = .ok r →
    Completes s (p.1 g x) (r.updateEvent (bits e 15 0) (p.2 (y.eventCount (bits e 15 0)) b))

/-- No word of the current window and of the task's window has a binding (R148). -/
def drainedWindows (s : State) (t : Task) : Prop :=
  (∀ k, k < s.regs.wl → s.bound (s.regs.wb + k) = false) ∧ (∀ k, k < t.size → s.bound (t.base + k) = false)

/-- The page of an event's entry is present (R343, R410). -/
def eventPresent (s : State) (e : Nat) : Prop := s.absentAt (s.eventEntry e) = none

/-- The task saved by PARK and YIELD (R163): its resume descriptor, TCLK, REMAIN, TASKSTAT and its first n words. -/
def savedTask (s : State) (t : Task) (n : Nat) (on : ParkedOn) (scope : Word) (inRing : Bool) (place : Nat) : Parked :=
  { id := s.sched.nextPark, desc := mkDesc s.regs.wb s.regs.wl (rpcOf s.pc s.codeBase) false false false
    tclk := s.regs.tclk, remain := s.regs.tbudget, words := (List.range n).map fun k => s.cell (s.regs.wb + k)
    stat := s.regs.taskstat, task := t, on := on, scope := scope, inRing := inRing, place := place }

/-- R320, R321: PARK and YIELD save the task and return its window: PARK on the event's list, released at once where the count has reached
the threshold, YIELD in the resume queue. -/
def parkAndYield : Prop :=
  (∀ (g : Guard) (x : ParkArgs) (s u v w y : State) (e sc : Word) (t : Task) (inRing ovf : Bool) (place : Nat), taskModes s → Enters s (.park g x) g u →
    u.queuesLive = false → plainHandler u → bit u.regs.frmode 63 = false → u.checkScope (s.ctx (.park g x)) x.sc = .ok () →
    u.ready (s.ctx (.park g x)) (.src x.a false :: scopeOpr x.sc) → u.take x.a = (e, v) → v.takeScope x.sc = (sc, w) →
    w.sched.task = some t → x.n.toNat < 4096 → x.n.toNat ≤ w.regs.wl → x.n.toNat ≤ classSize t.cls → bits e 31 16 = 0 →
    w.poolFull t.cls = false → drainedWindows w t → w.parkRoom x.n.toNat = some inRing → eventPresent w (bits e 15 0) →
    w.waiterNode (bits e 15 0) = some ovf →
    w.release (w.scopeWidth sc) = .ok y → y.parkPlace x.n.toNat = some (inRing, place) →
    exec (.park g x) s = .next ((((y.parkTask t (savedTask y t x.n.toNat (.event (bits e 15 0) (bits e 63 32)) sc inRing place)).addWaiter
      (bits e 15 0) (bits e 63 32) ovf (.inr y.sched.nextPark)).unwait.count 1 1).tick))
  ∧ (∀ (g : Guard) (n : BitVec 13) (s u y : State) (t : Task) (inRing : Bool) (place : Nat), taskModes s → Enters s (.yield g n) g u →
    u.queuesLive = false → plainHandler u → bit u.regs.frmode 63 = false → u.sched.task = some t → n.toNat < 4096 →
    n.toNat ≤ u.regs.wl → n.toNat ≤ classSize t.cls → u.poolFull t.cls = false → drainedWindows u t →
    u.parkRoom n.toNat = some inRing → u.release 0 = .ok y → y.parkPlace n.toNat = some (inRing, place) →
    exec (.yield g n) s = .next (((y.parkTask t (savedTask y t n.toNat .yield (wd (fld 1 32)) inRing place)).unwait.count 1 1).tick))

/-- R165, R322: TEND in MODE 0 ends the task: trace, core free, window returned, live count down. -/
def taskEnds : Prop :=
  (∀ (g : Guard) (s u y : State) (t : Task), s.mode = 0 → Enters s (.tend g) g u → u.mode = 0 → u.queuesLive = false →
    u.sched.task = some t → drainedWindows u t → (u.forerunner = true ∨ u.poolFull t.cls = false) → u.release 0 = .ok y →
    (y.opt? = false ∨ t.heldGvt = false) →
    exec (.tend g) s = .next (((y.endTask t).unwait.count 1 1).tick))
  ∧ (∀ (s : State) (t : Task), s.opt? = false → (s.endTask t).sched.task = none
    ∧ (∀ n ∈ (s.endTask t).sched.slots, n ≠ t.slot) ∧ (∀ p ∈ (s.endTask t).sched.pins, p.slot ≠ t.slot))

/-- R323, R338: LAUNCH writes the record's address into the queue's next entry, advances LQTAIL and binds D to the new identifier. -/
def launchAppends : Prop :=
  ∀ (g : Guard) (x : EvArgs) (s u v w y z r t : State) (q va sc : Word) (pa : Nat), taskModes s → Enters s (.launch g x) g u →
    plainHandler u → u.checkScope (s.ctx (.launch g x)) x.sc = .ok () →
    u.ready (s.ctx (.launch g x)) ([srcOpr x.a, srcOpr x.b] ++ scopeOpr x.sc ++ [.dst x.d]) →
    u.take x.a.name = (q, v) → v.take x.b.name = (va, w) → w.takeScope x.sc = (sc, y) → q.toNat < 16 → 64 ∣ va.toNat →
    y.recordPa va = .ok (pa, z) → z.sendsFull = false →
    z.absentAt (areaBase (z.lq q.toNat).base + 8 * (bits (z.lq q.toNat).tail 31 0 % (z.lq q.toNat).size)) = none →
    ahead32 (bits (z.lq q.toNat).tail 31 0) (z.lq q.toNat).head < (z.lq q.toNat).size →
    z.release (z.scopeWidth sc) = .ok r →
    (let lq := z.lq q.toNat
     let tail := bits lq.tail 31 0
     let b := (r.writePhysMem (areaBase lq.base + 8 * (tail % lq.size)) (wordBytes (wd pa))).setLq q.toNat
       { lq with tail := setBits lq.tail 31 0 ((tail + 1) % 2 ^ 32) }
     let a : Appended := { q := q.toNat, index := tail, lnid := r.sched.nextLnid
                           user := if b.mode = 0 then some b.regs.asid else none, queued := b.cyc }
     ({ b with sched := { b.sched with nextLnid := r.sched.nextLnid + 1, appended := b.sched.appended ++ [a] } }).bindDst x.d
       (some (wd r.sched.nextLnid)) 0) = .ok t →
    Completes s (.launch g x) t

/-- The lengths and offsets R324 admits in a descriptor, by request: 0 SREAD, 1 SWRITE, 2 NETTX, 3 NETRX. -/
def ioDescriptor (kind : Nat) (len off : Word) : Prop :=
  if kind < 2 then bits len 63 33 = 0 ∧ (kind = 0 → bit len 32 = false) ∧ 512 ∣ bits len 31 0 ∧ 512 ≤ bits len 31 0
      ∧ bits len 31 0 ≤ 2 ^ 24 ∧ 512 ∣ off.toNat
    else bits len 63 32 = 0 ∧ (if kind = 2 then 60 else 64) ≤ bits len 31 0 ∧ bits len 31 0 ≤ 9216 ∧ bits off 63 6 = 0

/-- R324: SREAD, SWRITE, NETTX and NETRX bind their token and hand a request to the I/O engine. -/
def ioRequests : Prop :=
  ∀ p ∈ [((Instr.sread : Guard → IoArgs → Instr), 0), (.swrite, 1), (.nettx, 2), (.netrx, 3)],
    ∀ (g : Guard) (x : IoArgs) (s u v w y : State) (ws : List Word) (sc : Word), taskModes s → Enters s (p.1 g x) g u → plainHandler u →
    u.checkScope (s.ctx (p.1 g x)) x.sc = .ok () →
    u.ready (s.ctx (p.1 g x)) ([runOpr x.a 4] ++ scopeOpr x.sc ++ [.dst x.tok]) → u.takeRun x.a.first 4 = (ws, v) →
    v.takeScope x.sc = (sc, w) → ioDescriptor p.2 (ws.getD 1 0) (ws.getD 2 0) → 32 ∣ (ws.getD 3 0).toNat →
    w.bound (w.phys x.tok.num) = false → w.eng.io.length < 64 → w.release (w.scopeWidth sc) = .ok y →
    Completes s (p.1 g x) { y.bind [w.phys x.tok.num] none with
      eng := { y.eng with io := y.eng.io ++ [{ id := y.core.nextBind, kind := p.2, desc := ws, nud := x.nud.val, scope := sc
                                               asid := y.regs.asid, sup := y.mode = 2, lnid := y.launchCtx.lnid.toNat }] } }

/-- R354, R361: VTNOW gives the running optimistic handler's key and 0 outside one, GVTRD the last GVT, SAFE passes for a handler that
holds GVT and outside an optimistic one. -/
def virtualTimeReads : Prop :=
  (∀ (g : Guard) (d : Name) (s u w : State), Enters s (.vtnow g d) g u → u.ready (s.ctx (.vtnow g d)) [.runDst d 2] →
    u.bound (u.phys d.num) = false → u.bound (u.phys d.num + 1) = false →
    w = (u.setCell (u.phys d.num) (.full (u.handlerKey.getD ⟨0, 0⟩).t)).setCell (u.phys d.num + 1) (.full (u.handlerKey.getD ⟨0, 0⟩).k) →
    Completes s (.vtnow g d) w)
  ∧ (∀ (g : Guard) (d : Name) (s u w : State), Enters s (.gvtrd g d) g u → u.ready (s.ctx (.gvtrd g d)) [.runDst d 2] →
    u.bound (u.phys d.num) = false → u.bound (u.phys d.num + 1) = false →
    w = (u.setCell (u.phys d.num) (.full u.gvtKey.t)).setCell (u.phys d.num + 1) (.full u.gvtKey.k) → Completes s (.gvtrd g d) w)
  ∧ (∀ (g : Guard) (s u : State), taskModes s → Enters s (.safe g) g u → bit u.regs.frmode 63 = false →
    (u.opt? = true → u.holdsGvt = true) → Completes s (.safe g) u)

/-- R361, R362: DOMAIN enters the domain its block describes, DOMEXIT leaves a quiet one, VSEND outside an optimistic handler sends a record
with its key, once its wait for the key of the interval under way is over, DEFER sends at once outside an optimistic handler. -/
def domainsAndKeyedSends : Prop :=
  (∀ (g : Guard) (x : TwoSrc) (s u v w : State) (o win : Word) (d : Domain), taskModes s → Enters s (.domain g x) g u →
    bit u.regs.frmode 63 = false → plainHandler u → u.ready (s.ctx (.domain g x)) [srcOpr x.a, srcOpr x.b] →
    u.take x.a.name = (o, v) → v.take x.b.name = (win, w) → w.opt.domain = none → bits o 63 19 = 0 → 64 ∣ o.toNat →
    w.domainOf o.toNat (wordOf (w.homeBytes (storeKey w.core.number o.toNat) 8))
      (wordOf (w.homeBytes (storeKey w.core.number (o.toNat + 8)) 8))
      (wordOf (w.homeBytes (storeKey w.core.number (o.toNat + 16)) 8)) = some d →
    Completes s (.domain g x) (({ w with
      regs := { w.regs with optwin := win }
      opt := { w.opt with domain := some { d with lnid := w.launchCtx.lnid.toNat }, bittern := [], output := [] } } : State).writeBlock.liveUp
        w.launchCtx.lnid 1))
  ∧ (∀ (g : Guard) (s u : State) (d : Domain), taskModes s → Enters s (.domexit g) g u → bit u.regs.frmode 63 = false → plainHandler u →
    u.opt.domain = some d → u.domainQuiet = true →
    Completes s (.domexit g) (({ u.writeBlock with opt := { u.writeBlock.opt with domain := none } } : State).liveDown (wd d.lnid)).reseed)
  ∧ (∀ (g : Guard) (x : SendArgs) (s u v w : State) (n sc : Word) (ws : List Word) (k : Key) (m : Nat) (counted : Bool), taskModes s →
    Enters s (.vsend g x) g u →
    v.opt? = false → bit u.regs.frmode 63 = false → u.checkScope (s.ctx (.vsend g x)) x.sc = .ok () →
    u.ready (s.ctx (.vsend g x)) ([srcOpr x.a, runOpr x.r 8] ++ scopeOpr x.sc) → u.takeSend x = (n, ws, sc, v) → sendable v n ws →
    k = sendKey (ws.getD 1 0) v.core.number v.opt.seq → v.gvtTarget = some (m, counted) →
    (counted = true ∨ (m ≤ v.opt.installs ∧ k.lt v.gvtKey = false)) → v.sendsFull = false → v.release (v.scopeWidth sc) = .ok w →
    Completes s (.vsend g x) (({ w with opt := { w.opt with seq := (w.opt.seq + 1) % 2 ^ 48 } } : State).sendKeyed n.toNat
      { r := asOptimistic ws, ctx := w.launchCtx, scope := sc, sender := w.core.number } k))
  ∧ (∀ (g : Guard) (x : SendArgs) (s u v w : State) (n sc : Word) (ws : List Word), taskModes s → Enters s (.defer g x) g u →
    v.handlerKey = none → bit u.regs.frmode 63 = false → u.checkScope (s.ctx (.defer g x)) x.sc = .ok () →
    u.ready (s.ctx (.defer g x)) ([srcOpr x.a, runOpr x.r 8] ++ scopeOpr x.sc) → u.takeSend x = (n, ws, sc, v) → sendable v n ws →
    v.sendsFull = false → v.release (v.scopeWidth sc) = .ok w →
    Completes s (.defer g x) ((w.liveUp v.launchCtx.lnid 1).sendRecord n.toNat
      { r := asDelivered ws, ctx := v.launchCtx, scope := sc, sender := v.core.number }))

/-- R312 to R318: SEND in both forms, SPAWN, SPAWNEV, EVADD and EVSET. -/
def Obligations.SendsSpawnsAndEvents : Prop := messageSends ∧ spawnsRecords ∧ eventUpdates

/-- R165, R320 to R322: PARK, YIELD and TEND. -/
def Obligations.TasksLeaveTheCore : Prop := parkAndYield ∧ taskEnds

/-- R323, R324, R338: LAUNCH, SREAD, SWRITE, NETTX and NETRX. -/
def Obligations.LaunchesAndIoRequests : Prop := launchAppends ∧ ioRequests

/-- R354, R361, R362: the virtual-time instructions. -/
def Obligations.VirtualTimeInstructions : Prop := virtualTimeReads ∧ domainsAndKeyedSends

/-! ### Memory -/

/-- The effective address of a memory operand (R239). -/
def effective (b : Word) (o : Off) : Word := b + wdI o.val

/-- The acquire of a load of a scope (R75, R95): it acquires at its scope's width, or at that of a mailbox word it reads first, and its masks
are those of the region it opens (R79). -/
def acquired (s : State) (ps : List Piece) (sc : Word) : Res State :=
  ((s.dropMail ps).acquire (max (s.scopeWidth sc) ((s.mailHit ps).getD 0))).record ps true false true

/-- R242, R243, R145: a load whose access passes binds D to the bytes at its address, little-endian and extended by its TYPE; an acquire
load is aligned and acquires at its scope. -/
def Obligations.ScalarLoads : Prop :=
  (∀ (g : Guard) (x : Mem) (s u v w y z : State) (b : Word) (ps : List Piece) (bs : List Byte), Enters s (.ld g x) g u →
    u.ready (s.ctx (.ld g x)) [.src x.a false, .dst x.d] → u.take x.a = (b, v) →
    v.plainAccess v.who .read (effective b x.off) x.t.bytes = .ok (ps, w) → w.loadBytes ps x.nud.val = (bs, none, y) →
    y.bindDst x.d (some (x.t.extend (ofBytes bs))) (lostInfo .read (effective b x.off) 0) = .ok z → Completes s (.ld g x) z)
  ∧ (∀ (g : Guard) (x : MemSync) (s u v v' w r y z : State) (b sc : Word) (ps : List Piece) (bs : List Byte), Enters s (.ldAcq g x) g u →
    u.checkScope (s.ctx (.ldAcq g x)) x.sc = .ok () → u.ready (s.ctx (.ldAcq g x)) ([.src x.a false] ++ scopeOpr x.sc ++ [.dst x.d]) →
    u.take x.a = (b, v) → v.takeScope x.sc = (sc, v') → x.t.bytes ∣ (effective b x.off).toNat →
    v'.openAccess v'.who .read (effective b x.off) x.t.bytes true = .ok (ps, w) →
    acquired w ps sc = .ok r → r.loadBytes ps x.nud.val = (bs, none, y) →
    y.bindDst x.d (some (x.t.extend (ofBytes bs))) (lostInfo .read (effective b x.off) 0) = .ok z → Completes s (.ldAcq g x) z)
  ∧ (∀ (g : Guard) (x : LdpArgs) (s u v w y z : State) (b off : Word) (n : Nat) (ps : List Piece) (bs : List Byte),
    Enters s (.ldp g x) g u → u.ready (s.ctx (.ldp g x)) (optOpr x.c ++ [.dst x.d]) → u.takeOpt 0 x.c = (b, v) →
    off = b + wdI x.off.toInt → bit (mget 0 v.regs.pwl x.k.val) 63 = true → x.t.bytes ∣ off.toNat →
    n = min x.t.bytes (bits (mget 0 v.regs.pwl x.k.val) 39 0 - off.toNat) → 0 < n →
    v.plainAccess v.who .read (mget 0 v.regs.pwb x.k.val + off) n x.t.bytes = .ok (ps, w) → w.loadBytes ps x.nud.val = (bs, none, y) →
    (if n < x.t.bytes then { y with regs := { y.regs with taskstat := setBits y.regs.taskstat 8 8 1 } } else y).bindDst x.d
      (some (x.t.extend (ofBytes bs))) (lostInfo .read (mget 0 v.regs.pwb x.k.val + off) 0) = .ok z →
    Completes s (.ldp g x) z)
  ∧ (∀ (g : Guard) (x : LdpArgs) (s u v z : State) (b off : Word), Enters s (.ldp g x) g u →
    u.ready (s.ctx (.ldp g x)) (optOpr x.c ++ [.dst x.d]) → u.takeOpt 0 x.c = (b, v) → off = b + wdI x.off.toInt →
    bit (mget 0 v.regs.pwl x.k.val) 63 = true → x.t.bytes ∣ off.toNat → bits (mget 0 v.regs.pwl x.k.val) 39 0 ≤ off.toNat →
    ({ v with regs := { v.regs with taskstat := setBits v.regs.taskstat 8 8 1 } } : State).bindDst x.d (some 0)
      (lostInfo .read (mget 0 v.regs.pwb x.k.val + off) 0) = .ok z →
    Completes s (.ldp g x) z)

/-- R244, R145: LDV binds the 32 words of vD to the 256 bytes at its address, once fewer than 96 operations are outstanding; LDV.acq is aligned to 256 and acquires at its scope. -/
def vectorLoads : Prop :=
  (∀ (g : Guard) (x : VMem) (s u v w y : State) (b : Word) (ps : List Piece) (bs : List Byte), Enters s (.ldv g x) g u →
    u.ready (s.ctx (.ldv g x)) [.src x.a false, .vdst x.v.val] → u.take x.a = (b, v) → x.t.bytes ∣ (effective b x.off).toNat →
    v.plainAccess (v.who true) .read (effective b x.off) 256 = .ok (ps, w) → w.readPieces x.nud.val .l1 false ps = (bs, none, y) →
    y.acceptsVec x.v.val → y.memOps < 96 →
    Completes s (.ldv g x) (y.bind ((List.range 32).map fun k => y.phys (32 * x.v.val + k))
      (some ((List.range 32).map fun k => some (wordOf ((bs.drop (8 * k)).take 8)))) (lostInfo .read (effective b x.off) 0)))
  ∧ (∀ (g : Guard) (x : VMemSync) (s u v v' w r y : State) (b sc : Word) (ps : List Piece) (bs : List Byte), Enters s (.ldvAcq g x) g u →
    u.checkScope (s.ctx (.ldvAcq g x)) x.sc = .ok () →
    u.ready (s.ctx (.ldvAcq g x)) ([.src x.a false] ++ scopeOpr x.sc ++ [.vdst x.v.val]) →
    u.take x.a = (b, v) → v.takeScope x.sc = (sc, v') → 256 ∣ (effective b x.off).toNat →
    v'.openAccess (v'.who true) .read (effective b x.off) 256 true = .ok (ps, w) →
    acquired w ps sc = .ok r → r.readPieces x.nud.val .l1 false ps = (bs, none, y) → y.acceptsVec x.v.val → y.memOps < 96 →
    Completes s (.ldvAcq g x) (y.bind ((List.range 32).map fun k => y.phys (32 * x.v.val + k))
      (some ((List.range 32).map fun k => some (wordOf ((bs.drop (8 * k)).take 8)))) (lostInfo .read (effective b x.off) 0)))

/-- No piece of an access is a unit register or the host window. -/
def inMemory (ps : List Piece) : Prop := ps ≠ [] ∧ ∀ p ∈ ps, p.loc.what = .memory ∨ p.loc.what = .store

/-- A release store's bytes: written at its scope's place (R105, R112). -/
def releasedBytes (s : State) (ps : List Piece) (bs : List Byte) (sc : Word) (nud : Nat) : State :=
  ps.foldl (fun s p => s.releaseWrite p ((bs.drop p.off).take p.len) (s.scopeWidth sc) nud) s

/-- R242, R243, R244: a store whose access passes writes the low bytes of its word, or the 256 bytes of its vector, at its address; a
release store is aligned and performs its release first. -/
def Obligations.Stores : Prop :=
  (∀ (g : Guard) (x : Mem) (s u v v' w y : State) (b a : Word) (ps : List Piece), Enters s (.st g x) g u →
    u.ready (s.ctx (.st g x)) [.src x.a false, .src x.d false] → u.take x.a = (b, v) → v.take x.d = (a, v') →
    v'.plainAccess v'.who .write (effective b x.off) x.t.bytes = .ok (ps, w) → inMemory ps → w.logPieces ps = .ok y →
    Completes s (.st g x) (y.writePieces ps (toBytes a.toNat x.t.bytes) x.nud.val))
  ∧ (∀ (g : Guard) (x : MemSync) (s u v v' v'' w y z r : State) (b a sc : Word) (ps : List Piece), Enters s (.stRel g x) g u →
    u.checkScope (s.ctx (.stRel g x)) x.sc = .ok () →
    u.ready (s.ctx (.stRel g x)) ([.src x.a false] ++ scopeOpr x.sc ++ [.src x.d false]) → u.take x.a = (b, v) →
    v.takeScope x.sc = (sc, v') → v'.take x.d = (a, v'') → x.t.bytes ∣ (effective b x.off).toNat →
    v''.openAccess v''.who .write (effective b x.off) x.t.bytes true = .ok (ps, w) → inMemory ps → w.logPieces ps = .ok y →
    y.release (y.scopeWidth sc) = .ok z → (z.dropMail ps).record ps false true true = .ok r →
    Completes s (.stRel g x) (releasedBytes r ps (toBytes a.toNat x.t.bytes) sc x.nud.val))
  ∧ (∀ (g : Guard) (x : VMem) (s u v v' w y : State) (b : Word) (ws : List Word) (ps : List Piece), Enters s (.stv g x) g u →
    u.ready (s.ctx (.stv g x)) [.src x.a false, .vsrc x.v.val false] → u.take x.a = (b, v) → v.takeVec x.v.val = (ws, v') →
    x.t.bytes ∣ (effective b x.off).toNat → v'.plainAccess (v'.who true) .write (effective b x.off) 256 = .ok (ps, w) → inMemory ps →
    w.logPieces ps = .ok y → Completes s (.stv g x) (y.writePieces ps (ws.flatMap wordBytes) x.nud.val))
  ∧ (∀ (g : Guard) (x : VMemSync) (s u v v' v'' w y z r : State) (b sc : Word) (ws : List Word) (ps : List Piece), Enters s (.stvRel g x) g u →
    u.checkScope (s.ctx (.stvRel g x)) x.sc = .ok () →
    u.ready (s.ctx (.stvRel g x)) ([.src x.a false] ++ scopeOpr x.sc ++ [.vsrc x.v.val false]) → u.take x.a = (b, v) →
    v.takeScope x.sc = (sc, v') → v'.takeVec x.v.val = (ws, v'') → 256 ∣ (effective b x.off).toNat →
    v''.openAccess (v''.who true) .write (effective b x.off) 256 true = .ok (ps, w) → inMemory ps → w.logPieces ps = .ok y →
    y.release (y.scopeWidth sc) = .ok z → (z.dropMail ps).record ps false true true = .ok r →
    Completes s (.stvRel g x) (releasedBytes r ps (ws.flatMap wordBytes) sc x.nud.val))

/-- The active lanes of LDVS and its kin (R245): those whose bit of the mask is 1, or all, in ascending order, with their addresses. -/
def activeSet (t : Ty) (m : Option Word) (va : Nat → Word) : List (Nat × Word) :=
  ((List.range (256 / t.bytes)).filter fun i => match m with
    | some w => bit w i
    | none => true).map fun i => (i, va i)

/-- Lane i's address of LDVX and STVX: the base plus its signed index times the element size (R245). -/
def indexedVa (t : Ty) (b : Word) (ix : List Word) (i : Nat) : Word :=
  b + wdI ((if t.bytes = 8 then sextI (ix.getD i 0).toNat 64 else sextI (bits (ix.getD (i / 2) 0) (32 * (i % 2) + 31) (32 * (i % 2))) 32)
    * (t.bytes : Int))

/-- R245: the strided and indexed loads and stores perform their active lanes, lane i at the base plus i strides or the base plus its
index in elements. -/
def laneAccesses : Prop :=
  (∀ (g : Guard) (x : VStride) (s u v v' w y : State) (b st : Word) (m : Option Word), Enters s (.ldvs g x) g u →
    u.ready (s.ctx (.ldvs g x)) ([srcOpr x.a, srcOpr x.b] ++ optOpr x.m ++ [.vdst x.v.val]) → u.take x.a.name = (b, v) →
    v.take x.b.name = (st, v') → v'.takeMask x.m = (m, w) →
    w.loadLanes x.t x.nud.val x.v.val (activeSet x.t m fun i => b + wd i * st) = .ok y → Completes s (.ldvs g x) y)
  ∧ (∀ (g : Guard) (x : VStride) (s u v v' v'' w y : State) (b st : Word) (m : Option Word) (ws : List Word), Enters s (.stvs g x) g u →
    u.ready (s.ctx (.stvs g x)) ([srcOpr x.a, srcOpr x.b] ++ optOpr x.m ++ [.vsrc x.v.val false]) → u.take x.a.name = (b, v) →
    v.take x.b.name = (st, v') → v'.takeMask x.m = (m, v'') → v''.takeVec x.v.val = (ws, w) →
    w.storeLanes x.t x.nud.val ws (activeSet x.t m fun i => b + wd i * st) = .ok y → Completes s (.stvs g x) y)
  ∧ (∀ (g : Guard) (x : VIndex) (s u v v' w y : State) (b : Word) (ix : List Word) (m : Option Word), Enters s (.ldvx g x) g u →
    u.ready (s.ctx (.ldvx g x)) ([srcOpr x.a, vsrcOpr x.b] ++ optOpr x.m ++ [.vdst x.v.val]) → u.take x.a.name = (b, v) →
    v.takeVec x.b.v.val = (ix, v') → v'.takeMask x.m = (m, w) →
    w.loadLanes x.t x.nud.val x.v.val (activeSet x.t m (indexedVa x.t b ix)) = .ok y → Completes s (.ldvx g x) y)
  ∧ (∀ (g : Guard) (x : VIndex) (s u v v' v'' w y : State) (b : Word) (ix : List Word) (m : Option Word) (ws : List Word),
    Enters s (.stvx g x) g u → u.ready (s.ctx (.stvx g x)) ([srcOpr x.a, vsrcOpr x.b] ++ optOpr x.m ++ [.vsrc x.v.val false]) →
    u.take x.a.name = (b, v) → v.takeVec x.b.v.val = (ix, v') → v'.takeMask x.m = (m, v'') → v''.takeVec x.v.val = (ws, w) →
    w.storeLanes x.t x.nud.val ws (activeSet x.t m (indexedVa x.t b ix)) = .ok y → Completes s (.stvx g x) y)

/-- What each PREF does to the line of a cached place (R51, R247): into the L1 and the levels between, into the home L2 or the RDC, into
the memory-side cache. -/
def prefetches : List ((Guard → PrefArgs → Instr) × (State → Loc → Nat → State)) :=
  [ (.pref, fun s l nud => (s.touchCore l nud allBytes 0 false).fetchWhole l),
    (.prefL2, fun s l nud => (s.touch l.below (l.key / 128 * 128) nud (s.classTag l) allBytes 0 false).1.fetchWhole l),
    (.prefMsc, fun s l nud => (s.touch .msc (l.key / 128 * 128) nud (s.classTag l) allBytes 0 false).1) ]

/-- R247: PREF completes on every address: it brings the line of cached memory to its level, and is dropped with no trap where the address
has no translation for a read, or another memory type. FLUSH completes where the translation is valid: the line of its address has gone from
the die's L1s and RDC; after FLUSH.mem its copies in the home L2 and the memory-side cache are clean too. -/
def prefetchAndFlush : Prop :=
  (∀ p ∈ prefetches, ∀ (g : Guard) (x : PrefArgs) (s u v : State) (b : Word),
    Enters s (p.1 g x) g u → u.ready (s.ctx (p.1 g x)) [.src x.a false] → u.take x.a = (b, v) →
    (∀ c d l, v.translate v.who .read (effective b x.off) = .error (.fault c d l) → Completes s (p.1 g x) v)
    ∧ (∀ n, v.translate v.who .read (effective b x.off) = .error (.absent n) → Completes s (p.1 g x) (v.beginPull n))
    ∧ (∀ l w, v.translate v.who .read (effective b x.off) = .ok (l, w) → l.what ≠ .memory ∨ l.mt ≠ 0 → Completes s (p.1 g x) w)
    ∧ (∀ l w, v.translate v.who .read (effective b x.off) = .ok (l, w) → l.what = .memory → l.mt = 0 →
      Completes s (p.1 g x) (p.2 w l x.nud.val)))
  ∧ (∀ (g : Guard) (x : FlushArgs) (s u v w : State) (b : Word) (l : Loc), Enters s (.flush g x) g u →
    u.ready (s.ctx (.flush g x)) [.src x.a false] → u.take x.a = (b, v) → v.optimistic = false →
    v.translate v.who .any (effective b x.off) = .ok (l, w) →
    Completes s (.flush g x) (if l.what = .memory then w.purge (l.key / 128 * 128) else w))
  ∧ (∀ (s : State) (line : Nat), (s.purge line).lineAt .l1 line = none ∧ (s.purge line).lineAt .rdc line = none
    ∧ ∀ b ∈ (s.purge line).mem.rdc, b.1 / 128 * 128 ≠ line)
  ∧ (∀ (g : Guard) (x : FlushArgs) (s u v w : State) (b : Word) (l : Loc), Enters s (.flushMem g x) g u →
    u.ready (s.ctx (.flushMem g x)) [.src x.a false] → u.take x.a = (b, v) → v.optimistic = false →
    v.translate v.who .any (effective b x.off) = .ok (l, w) →
    ∃ y, Completes s (.flushMem g x) y ∧ (l.what ≠ .memory → y = w) ∧ (l.what = .memory →
      (∃ lines, y = { w.purge (l.key / 128 * 128) with mem := { (w.purge (l.key / 128 * 128)).mem with lines := lines } })
      ∧ ∀ k ∈ y.mem.lines, k.line = l.key / 128 * 128 → k.dirty = 0))

/-- The value each AMO writes from the old value, the operand and the expected one, all of w bits; none where CAS fails (R251). -/
def amoValues : List ((Guard → Amo → Instr) × (Ty → Nat → Nat → Nat → Option Nat)) :=
  [ (.amoAdd, fun t o y _ => some ((o + y) % 2 ^ t.width)), (.amoAnd, fun t o y _ => some ((o &&& y) % 2 ^ t.width)),
    (.amoOr, fun t o y _ => some ((o ||| y) % 2 ^ t.width)), (.amoXor, fun t o y _ => some ((o ^^^ y) % 2 ^ t.width)),
    (.amoMin, fun t o y _ => some (if tyVal t (wd o) ≤ tyVal t (wd y) then o else y)),
    (.amoMax, fun t o y _ => some (if tyVal t (wd o) < tyVal t (wd y) then y else o)),
    (.amoSwap, fun t _ y _ => some (y % 2 ^ t.width)), (.amoCas, fun _ o y e => if o = e then some y else none) ]

/-- R251, R111: an AMO whose access passes reads its element at its scope's place, writes the operation's value there, performs the release
of its order before and the acquire after, with that of a mailbox word it reads first (R95), leaves its masks in the region it opens, and
binds D to the old value. A CAS whose comparison
fails is checked as a read and writes nothing. -/
def Obligations.AtomicOperations : Prop :=
  ∀ p ∈ amoValues, ∀ (g : Guard) (x : Amo) (s u v v' v'' w y z r t : State) (va o sc e : Word) (cas : Bool) (q : Piece) (ps : List Piece)
    (bs : List Byte) (new : Option Nat), (cas = true ↔ p.1 g x = .amoCas g x) → Enters s (p.1 g x) g u → u.checkScope (s.ctx (p.1 g x)) x.sc = .ok () →
    u.ready (s.ctx (p.1 g x)) ([srcOpr x.a, srcOpr x.b] ++ scopeOpr x.sc ++ [if cas then .both x.d else .dst x.d]) →
    u.take x.a.name = (va, v) → v.take x.b.name = (o, v') → v'.takeScope x.sc = (sc, v'') →
    (if cas then v''.take x.d = (e, w) else (e = 0 ∧ w = v'')) → x.t.isInt = true → x.t.bytes ∣ va.toNat →
    w.openPieces (w.who true) .atomic va x.t.bytes x.t.bytes true = .ok (q :: ps, y) → y.atomicSee q (y.scopeWidth sc) = (bs, none) →
    bs.length = x.t.bytes → new = p.2 x.t (ofBytes bs) (zext o x.t.width) (zext e x.t.width) →
    y.conflict (q :: ps) new.isSome true = none →
    y.atomicBefore (decide (x.ord = Ord4.rel ∨ x.ord = Ord4.ar)) (y.scopeWidth sc) = .ok z →
    (((z.atomicDo q (new.map fun n => toBytes n x.t.bytes) (y.scopeWidth sc) x.nud.val).atomicAfter
      (decide (x.ord = Ord4.acq ∨ x.ord = Ord4.ar)) (y.scopeWidth sc)).mailAfter (q :: ps) (y.mailHit (q :: ps))).record (q :: ps) true
      new.isSome true (decide (y.scopeWidth sc ≠ 0)) = .ok r →
    r.bindDst x.d (some (x.t.extend (ofBytes bs))) 0 = .ok t → Completes s (p.1 g x) t

/-- No byte of the issuing partition is dirty in the RDC. -/
def rdcClean (s : State) : Prop := ∀ b ∈ s.mem.rdc, s.rdcMine (b.1 / 128 * 128) = true → b.2.dirty = false

/-- Every byte of the issuing partition in the RDC is dirty. -/
def rdcDirty (s : State) : Prop := ∀ b ∈ s.mem.rdc, s.rdcMine (b.1 / 128 * 128) = true → b.2.dirty = true

/-- R110, R112, R252: each FENCE closes the region. At package width and above FENCE.acq drops what the partition has clean in the RDC,
FENCE.rel leaves nothing of it dirty there, FENCE.full leaves nothing of it there; FENCE.full ends what a fetch may see stale (R89). -/
def fences : Prop :=
  ∀ (g : Guard) (sc : Scope) (s u v : State) (x : Word),
    (Enters s (.fenceAcq g sc) g u → u.checkScope (s.ctx (.fenceAcq g sc)) sc = .ok () → u.ready (s.ctx (.fenceAcq g sc)) (scopeOpr sc) →
      u.takeScope sc = (x, v) →
      Completes s (.fenceAcq g sc) (v.acquire (v.scopeWidth x)) ∧ (v.acquire (v.scopeWidth x)).core.region = {}
        ∧ (3 ≤ v.scopeWidth x → rdcDirty (v.acquire (v.scopeWidth x))))
    ∧ (Enters s (.fenceRel g sc) g u → u.checkScope (s.ctx (.fenceRel g sc)) sc = .ok () → u.ready (s.ctx (.fenceRel g sc)) (scopeOpr sc) →
      u.takeScope sc = (x, v) → (v.scopeWidth x = 4 → v.core.lostWrite = none) →
      ∃ w, v.release (v.scopeWidth x) = .ok w ∧ Completes s (.fenceRel g sc) w ∧ w.core.region = {} ∧ (3 ≤ v.scopeWidth x → rdcClean w))
    ∧ (Enters s (.fenceFull g sc) g u → u.checkScope (s.ctx (.fenceFull g sc)) sc = .ok () →
      u.ready (s.ctx (.fenceFull g sc)) (scopeOpr sc) → u.takeScope sc = (x, v) → (v.scopeWidth x = 4 → v.core.lostWrite = none) →
      ∃ w, v.release (v.scopeWidth x) = .ok w ∧ Completes s (.fenceFull g sc) (w.fullFence (v.scopeWidth x))
        ∧ (w.fullFence (v.scopeWidth x)).core.region = {} ∧ (w.fullFence (v.scopeWidth x)).mem.stale = []
        ∧ (3 ≤ v.scopeWidth x → ∀ b ∈ (w.fullFence (v.scopeWidth x)).mem.rdc,
          (w.fullFence (v.scopeWidth x)).rdcMine (b.1 / 128 * 128) = false))

/-- complete of R254: when all parties have arrived and no byte is owed, the phase advances and the counts start again. -/
def completed (r : BarRec) : BarRec :=
  if r.arrived = r.parties ∧ r.bytes = 0 then { r with phase := (r.phase + 1) % 65536, arrived := 0, bytes := r.bytes0 } else r

/-- R253, R254: what the barrier instructions do to a record: BARINIT writes a fresh one, BARARR counts an arrival and binds D to the phase,
BARBYTES takes off bytes, BARWAIT passes once the phase differs from D's. -/
def Obligations.BarrierInstructions : Prop :=
  (∀ (g : Guard) (x : BarInit) (s u v v' v'' w y z t : State) (va n sc b : Word) (r : BarRec) (p : Piece), Enters s (.barinit g x) g u →
    u.checkScope (s.ctx (.barinit g x)) x.sc = .ok () →
    u.ready (s.ctx (.barinit g x)) ([srcOpr x.a, srcOpr x.b] ++ scopeOpr x.sc ++ [.src x.d false]) → u.take x.a.name = (va, v) →
    v.take x.b.name = (n, v') → v'.takeScope x.sc = (sc, v'') → v''.take x.d = (b, w) →
    w.openBar va (v''.scopeWidth sc) = .ok (r, p, y) → (r.v = true → r.flt = false → r.arrived = 0) → 1 ≤ n.toNat → n.toNat ≤ 5120 →
    b.toNat < 2 ^ 48 → y.release (v''.scopeWidth sc) = .ok z →
    ((z.putBar p { v := true, flt := false, phase := if r.v then r.phase else 0, parties := n.toNat, arrived := 0
                   bytes := b.toNat, bytes0 := b.toNat } (v''.scopeWidth sc)).mailAfter [p] (y.mailHit [p])).record [p] true true true
      (decide (v''.scopeWidth sc ≠ 0)) = .ok t →
    Completes s (.barinit g x) t)
  ∧ (∀ (g : Guard) (x : BarDA) (s u v w y z a t : State) (va sc : Word) (r : BarRec) (p : Piece), Enters s (.bararr g x) g u →
    u.checkScope (s.ctx (.bararr g x)) x.sc = .ok () → u.ready (s.ctx (.bararr g x)) ([srcOpr x.a] ++ scopeOpr x.sc ++ [.dst x.d]) →
    u.take x.a.name = (va, v) → v.takeScope x.sc = (sc, w) → w.openBar va (w.scopeWidth sc) = .ok (r, p, y) → r.v = true →
    r.flt = false → r.arrived ≠ r.parties → y.release (w.scopeWidth sc) = .ok z →
    ((z.putBar p (completed { r with arrived := r.arrived + 1 }) (w.scopeWidth sc)).mailAfter [p] (y.mailHit [p])).record [p] true true true
      (decide (w.scopeWidth sc ≠ 0)) = .ok a →
    a.bindDst x.d (some (wd r.phase)) 0 = .ok t → Completes s (.bararr g x) t)
  ∧ (∀ (g : Guard) (x : BarAB) (s u v v' w y z t : State) (va n sc : Word) (r : BarRec) (p : Piece), Enters s (.barbytes g x) g u →
    u.checkScope (s.ctx (.barbytes g x)) x.sc = .ok () → u.ready (s.ctx (.barbytes g x)) ([srcOpr x.a, srcOpr x.b] ++ scopeOpr x.sc) →
    u.take x.a.name = (va, v) → v.take x.b.name = (n, v') → v'.takeScope x.sc = (sc, w) → w.openBar va (w.scopeWidth sc) = .ok (r, p, y) →
    r.v = true → y.release (w.scopeWidth sc) = .ok z →
    ((z.putBar p (if r.flt then r else if r.bytes < n.toNat then { r with flt := true } else completed { r with bytes := r.bytes - n.toNat })
      (w.scopeWidth sc)).mailAfter [p] (y.mailHit [p])).record [p] true true true (decide (w.scopeWidth sc ≠ 0)) = .ok t →
    Completes s (.barbytes g x) t)
  ∧ (∀ (g : Guard) (x : BarDA) (s u v v' w y t : State) (va sc d : Word) (r : BarRec) (p : Piece), Enters s (.barwait g x) g u →
    u.checkScope (s.ctx (.barwait g x)) x.sc = .ok () → u.ready (s.ctx (.barwait g x)) ([srcOpr x.a] ++ scopeOpr x.sc ++ [.src x.d false]) →
    u.take x.a.name = (va, v) → v.takeScope x.sc = (sc, v') → v'.take x.d = (d, w) → w.openBar va (w.scopeWidth sc) false = .ok (r, p, y) →
    r.v = true → r.flt = false → r.phase ≠ bits d 15 0 →
    (((y.atomicDo p none (w.scopeWidth sc) 0).dropMail [p]).acquire (max (w.scopeWidth sc) ((y.mailHit [p]).getD 0))).record [p] true false
      true (decide (w.scopeWidth sc ≠ 0)) = .ok t →
    Completes s (.barwait g x) t)

/-- R248, R250: WAITLN passes where the element at its home, which the dirty bytes of the die's RDC reach first, or what answers through the
host window, differs from its value, SLEEP once CYC has reached its target, SLEEP.prom once the completion word is full. -/
def Obligations.LineWaitsAndSleeps : Prop :=
  (∀ (g : Guard) (x : WaitArgs) (s u v v' w y : State) (b a : Word) (l : Loc) (bs : List Byte), Enters s (.waitln g x) g u →
    u.ready (s.ctx (.waitln g x)) [.src x.a false, .src x.d false] → u.take x.a = (b, v) → v.take x.d = (a, v') → v'.optimistic = false →
    x.t.bytes ∣ (effective b x.off).toNat → v'.translate (v'.who true) .read (effective b x.off) = .ok (l, w) → w.core.wait = none →
    (if l.what = .memory ∨ l.what = .store then
        y = (if l.what = .memory then w.cleanLine (l.key / 128 * 128) else w) ∧ y.homeLost l.key x.t.bytes = none
          ∧ bs = y.homeBytes l.key x.t.bytes
      else w.readPiece { loc := l, off := 0, len := x.t.bytes } 0 = (bs, none, y)) →
    ofBytes bs ≠ zext a (8 * x.t.bytes) → Completes s (.waitln g x) y)
  ∧ (∀ (g : Guard) (a : Name) (s u v : State) (x : Word), Enters s (.sleep g a) g u → u.ready (s.ctx (.sleep g a)) [.src a false] →
    u.take a = (x, v) → x.toNat ≤ v.cyc → Completes s (.sleep g a) v)
  ∧ (∀ (g : Guard) (a : Name) (s u v w : State) (x y : Word), Enters s (.sleepProm g a) g u → u.opt? = false → a.num + 1 < u.regs.wl →
    u.readPhys (u.phys a.num) = .ok (x, v) → v.readPhys (u.phys a.num + 1) = .ok (y, w) → Completes s (.sleepProm g a) w)

/-- R256, R258: ACOPY, GATHER and SCATTER bind the two words of their token and hand a command to their engine. -/
def Obligations.EngineCommands : Prop :=
  (∀ (g : Guard) (x : AcopyArgs) (s u v w y : State) (ws : List Word) (sc : Word), Enters s (.acopy g x) g u → (u.opt? = true → 2 ≤ u.mode) →
    u.checkScope (s.ctx (.acopy g x)) x.sc = .ok () → u.ready (s.ctx (.acopy g x)) ([runOpr x.a 4] ++ scopeOpr x.sc ++ [.runDst x.tok 2]) →
    u.takeRun x.a.first 4 = (ws, v) → v.takeScope x.sc = (sc, w) → (ws.getD 2 0).toNat ≤ 2 ^ 24 → 32 ∣ (ws.getD 3 0).toNat →
    w.bound (w.phys x.tok.num) = false → w.bound (w.phys x.tok.num + 1) = false → w.eng.acopy.length < 32 →
    w.release (w.scopeWidth sc) = .ok y →
    Completes s (.acopy g x) { (y.bind [w.phys x.tok.num] none).bind [w.phys x.tok.num + 1] none 0 (some (w.scopeWidth sc)) with
      eng := { y.eng with acopy := y.eng.acopy ++ [{ id := y.core.nextBind, src := ws.getD 0 0, dst := ws.getD 1 0
                                                     len := (ws.getD 2 0).toNat, bar := ws.getD 3 0, nud := x.nud.val, scope := sc
                                                     asid := y.regs.asid, sup := y.mode = 2, lnid := y.launchCtx.lnid.toNat }] } })
  ∧ (∀ p ∈ [((Instr.gather : Guard → GatherArgs → Instr), false, Kind.read), (.scatter, true, .write)],
    ∀ (g : Guard) (x : GatherArgs) (s u v v' w w' y z : State) (ws ix iy : List Word) (sc : Word) (more : Bool) (ls : List Lane),
    Enters s (p.1 g x) g u → (u.opt? = true → 2 ≤ u.mode) → u.checkScope (s.ctx (p.1 g x)) x.sc = .ok () →
    u.ready (s.ctx (p.1 g x)) ([runOpr x.a 2, vsrcOpr x.b] ++ scopeOpr x.sc ++ [.runDst x.tok 2]) →
    u.takeRun x.a.first 2 = (ws, v) → v.takeVec x.b.v.val = (ix, v') → v'.takeScope x.sc = (sc, w) →
    gatherForm (ws.getD 1 0) x.wide x.b.v.val = true → more = (x.wide && decide (32 < bits (ws.getD 1 0) 14 8)) →
    (more = true → w.checkField (.vsrc (x.b.v.val + 1) x.b.trap) = .ok ()
      ∧ firstFound (w.examine [] (.vsrc (x.b.v.val + 1) x.b.trap)) = .ok ()) →
    (if more then w.takeVec (x.b.v.val + 1) else ([], w)) = (iy, w') →
    w'.bound (w'.phys x.tok.num) = false → w'.bound (w'.phys x.tok.num + 1) = false → w'.release (max 3 (w'.scopeWidth sc)) = .ok y →
    y.formLanes p.2.2 (2 ^ bits (ws.getD 1 0) 2 0) ((List.range (bits (ws.getD 1 0) 14 8)).map fun i =>
      ws.getD 0 0 + wdI (laneIndex x.wide (ix ++ iy) i * ((2 ^ bits (ws.getD 1 0) 2 0 : Nat) : Int))) = .ok (ls, z) →
    Completes s (p.1 g x) { z.bind [w'.phys x.tok.num, w'.phys x.tok.num + 1] none 0 (some (max 3 (w'.scopeWidth sc))) with
      eng := { z.eng with gather := z.eng.gather ++ [{ id := z.core.nextBind, scatter := p.2.1, nud := x.nud.val
                                                       size := 2 ^ bits (ws.getD 1 0) 2 0, off := bits (ws.getD 1 0) 50 32, lanes := ls
                                                       lnid := z.launchCtx.lnid.toNat }] } })

/-- R244, R245: the vector loads and the strided and indexed accesses. -/
def Obligations.VectorAccesses : Prop := vectorLoads ∧ laneAccesses

/-- R110, R112, R247, R252: PREF, FLUSH and FENCE. -/
def Obligations.CachesAndFences : Prop := prefetchAndFlush ∧ fences

/-! ### Vectors -/

/-- Integer arithmetic modulo 2^w, and floating arithmetic with its flags (R271). -/
def laneArith (op : Int → Int → Int) (fl : Ty → Rnd → Nat → Sys2Proof.Num → Sys2Proof.Num → Nat × FpFlags) (t : Ty) (r : Rnd) (e a b : Nat) : Nat × FpFlags :=
  if t.isInt then (modI (op (elVal t a) (elVal t b)) t.width, 0) else fl t r e (t.decode a) (t.decode b)

/-- Lane operations of two sources with the element and the flags each gives (R271 to R275, R278). -/
def laneTable2 : List ((Guard → Vec2 → Instr) × (Ty → Rnd → Nat → Nat → Nat → Nat × FpFlags)) :=
  [ (.vadd, laneArith (· + ·) Ty.fadd), (.vsub, laneArith (· - ·) fun t r e x y => t.fadd r e x y.neg),
    (.vmul, laneArith (· * ·) Ty.fmul), (.vdiv, fun t r e a b => t.fdiv r e (t.decode a) (t.decode b)),
    (.vmin, fun t _ _ a b => if t.isInt then (if elVal t a ≤ elVal t b then a % 2 ^ t.width else b % 2 ^ t.width, 0) else t.fminmax false a b),
    (.vmax, fun t _ _ a b => if t.isInt then (if elVal t a ≤ elVal t b then b % 2 ^ t.width else a % 2 ^ t.width, 0) else t.fminmax true a b),
    (.vladd, fun _ => l6Add),
    (.vand, fun t _ _ a b => ((a &&& b) % 2 ^ t.width, 0)), (.vor, fun t _ _ a b => ((a ||| b) % 2 ^ t.width, 0)),
    (.vxor, fun t _ _ a b => ((a ^^^ b) % 2 ^ t.width, 0)),
    (.vshl, fun t _ _ a b => (a * 2 ^ (b % 2 ^ t.width % t.width) % 2 ^ t.width, 0)),
    (.vshr, fun t _ _ a b => (a % 2 ^ t.width / 2 ^ (b % 2 ^ t.width % t.width), 0)),
    (.vsra, fun t _ _ a b => (modI (sextI a t.width / 2 ^ (b % 2 ^ t.width % t.width)) t.width, 0)) ]

/-- Lane operations of one source (R271, R273, R274, R277). -/
def laneTable1 : List ((Guard → Vec1 → Instr) × (Ty → Rnd → Nat → Nat → Nat × FpFlags)) :=
  [ (.vabs, fun t _ _ a => if t.isInt then ((elVal t a).natAbs, 0) else (a % 2 ^ (t.width - 1), 0)),
    (.vneg, fun t _ _ a => if t.isInt then (modI (- elVal t a) t.width, 0) else (a ^^^ 2 ^ (t.width - 1), 0)),
    (.vsqrt, fun t r e a => t.fsqrt r e (t.decode a)), (.vrsq, fun t r e a => t.frsq r e a), (.vexp2, fun t r e a => t.fexp2 r e a),
    (.vlog2, fun t r e a => t.flog2 r e a), (.vpopc, fun t _ _ a => (((List.range t.width).filter fun i => a.testBit i).length, 0)) ]

/-- Lane operations of three sources: one rounding of the exact sum of product and addend (R271). -/
def laneTable3 : List ((Guard → Vec3 → Instr) × (Ty → Rnd → Nat → Nat → Nat → Nat → Nat × FpFlags)) :=
  [ (.vfma, fun t r e a b c => if t.isInt then (modI (elVal t a * elVal t b + elVal t c) t.width, 0)
      else t.ffma r e (t.decode a) (t.decode b) (t.decode c)),
    (.vfms, fun t r e a b c => if t.isInt then (modI (elVal t a * elVal t b - elVal t c) t.width, 0)
      else t.ffma r e (t.decode a) (t.decode b) (t.decode c).neg) ]

/-- A vector destination, or the word of the scalar form, takes a write now. -/
def takesLanes (s : State) : VDst → Prop
  | .v d => s.acceptsVec d.val
  | .w d => s.accepts d

/-- Lanes written under R267; the one lane of the scalar form under R175 and R221. -/
def putLanes (s : State) (t : Ty) (d : VDst) (els : List Nat) : State :=
  match d with
  | .v d => s.putVec d.val (wordsOf t (els.map t.lane))
  | .w d => s.put d (t.extend (els.headD 0))

/-- R267 to R269, R271 to R275, R277, R278: every source is read in full, then each lane of the vector form, or the one element of the
scalar form, is computed, the OR of the flags is raised, and the results are written. -/
def Obligations.VectorLaneResults : Prop :=
  (∀ p ∈ laneTable1, ∀ (g : Guard) (x : Vec1) (s u v y : State) (cols : List (List Nat)) (res : List (Nat × FpFlags)),
    Enters s (p.1 g x) g u → u.ready (s.ctx (p.1 g x)) (x.o.ins.map inOpr ++ [dstOpr x.o.dst]) → u.takeIns x.t x.o.ins = (cols, v) →
    res = (List.range (lanesAt x.t x.o.dst)).map (fun i => p.2 x.t (v.rnd (s.ctx (p.1 g x)) x.rm.val) i ((cols.getD 0 []).getD i 0)) →
    v.raise (flagsOf res) = .ok y → takesLanes y x.o.dst → Completes s (p.1 g x) (putLanes y x.t x.o.dst (res.map (·.1))))
  ∧ (∀ p ∈ laneTable2, ∀ (g : Guard) (x : Vec2) (s u v y : State) (cols : List (List Nat)) (res : List (Nat × FpFlags)),
    Enters s (p.1 g x) g u → u.ready (s.ctx (p.1 g x)) (x.o.ins.map inOpr ++ [dstOpr x.o.dst]) → u.takeIns x.t x.o.ins = (cols, v) →
    res = (List.range (lanesAt x.t x.o.dst)).map (fun i => p.2 x.t (v.rnd (s.ctx (p.1 g x)) x.rm.val) i ((cols.getD 0 []).getD i 0)
      ((cols.getD 1 []).getD i 0)) →
    v.raise (flagsOf res) = .ok y → takesLanes y x.o.dst → Completes s (p.1 g x) (putLanes y x.t x.o.dst (res.map (·.1))))
  ∧ (∀ p ∈ laneTable3, ∀ (g : Guard) (x : Vec3) (s u v y : State) (cols : List (List Nat)) (res : List (Nat × FpFlags)),
    Enters s (p.1 g x) g u → u.ready (s.ctx (p.1 g x)) (x.o.ins.map inOpr ++ [dstOpr x.o.dst]) → u.takeIns x.t x.o.ins = (cols, v) →
    res = (List.range (lanesAt x.t x.o.dst)).map (fun i => p.2 x.t (v.rnd (s.ctx (p.1 g x)) x.rm.val) i ((cols.getD 0 []).getD i 0)
      ((cols.getD 1 []).getD i 0) ((cols.getD 2 []).getD i 0)) →
    v.raise (flagsOf res) = .ok y → takesLanes y x.o.dst → Completes s (p.1 g x) (putLanes y x.t x.o.dst (res.map (·.1))))

/-- A comparison of two elements with what it gives on a NaN and on the order of two numbers (R223). -/
def laneCompare (nan : Bool) (ord : Int → Bool) (t : Ty) (a b : Nat) : Bool × FpFlags :=
  if t.isInt then (ord (elVal t a - elVal t b), 0)
  else if (t.decode a).isNan || (t.decode b).isNan then (nan, if t.decode a = .nan true ∨ t.decode b = .nan true then fNV else 0)
  else (ord ((t.decode a).cmp (t.decode b)), 0)

/-- The comparisons of VCMP. -/
def laneCompares : List ((Guard → VCmpArgs → Instr) × Bool × (Int → Bool)) :=
  [(.vcmpEq, false, fun o => o = 0), (.vcmpNe, true, fun o => o ≠ 0), (.vcmpLt, false, fun o => o < 0), (.vcmpLe, false, fun o => o ≤ 0),
   (.vcmpGt, false, fun o => 0 < o), (.vcmpGe, false, fun o => 0 ≤ o), (.vcmpUn, true, fun _ => false)]

/-- Type, destination and sources of a VCMP, of a VSEL, of a VMASK. -/
def vcmpParts : VCmpArgs → Ty × Name × List VIn
  | .vec t d a b => (t, d, [.v a, .v b])
  | .scl t d a b => (t, d, [.w a, .w b])
def vselParts : VSelArgs → Ty × VDst × List VIn × Src
  | .vec t d a b m => (t, .v d, [.v a, .v b], m)
  | .scl t d a b m => (t, .w d, [.w a, .w b], m)
def vmaskParts : VMaskArgs → Ty × Name × VIn
  | .vec t d a => (t, d, .v a)
  | .scl t d a => (t, d, .w a)

/-- R276, R277: VCMP and VMASK write a word whose bit i tells lane i, with 0 above the lanes; VSEL takes each lane from A or B by its bit. The bits of a lane that
VSEL copies beyond its format's width are the model's choice (log entry 25). -/
def Obligations.VectorComparesAndMasks : Prop :=
  (∀ p ∈ laneCompares, ∀ (g : Guard) (x : VCmpArgs) (t : Ty) (d : Name) (ins : List VIn) (s u v y : State) (cols : List (List Nat))
    (res : List (Bool × FpFlags)), vcmpParts x = (t, d, ins) →
    Enters s (p.1 g x) g u →
    u.ready (s.ctx (p.1 g x)) (ins.map inOpr ++ [.dst d]) → u.takeIns t ins = (cols, v) →
    res = (List.zip (cols.getD 0 []) (cols.getD 1 [])).map (fun e => laneCompare p.2.1 p.2.2 t e.1 e.2) →
    v.raise (res.foldl (fun a e => a ||| e.2) 0) = .ok y → y.accepts d →
    ∃ r : Word, (∀ i, i < 64 → bit r i = (res.map (·.1)).getD i false) ∧ Completes s (p.1 g x) (y.put d r))
  ∧ (∀ (g : Guard) (x : VMaskArgs) (t : Ty) (d : Name) (a : VIn) (s u v : State) (els : List Nat), vmaskParts x = (t, d, a) →
    Enters s (.vmask g x) g u → u.ready (s.ctx (.vmask g x)) [inOpr a, .dst d] → u.takeIn t a = (els, v) → v.accepts d →
    ∃ r : Word, (∀ i, i < 64 → bit r i = decide (els.getD i 0 ≠ 0)) ∧ Completes s (.vmask g x) (v.put d r))
  ∧ (∀ (g : Guard) (x : VSelArgs) (t : Ty) (d : VDst) (ins : List VIn) (m : Src) (s u v w : State) (cols : List (List Nat)) (k : Word),
    vselParts x = (t, d, ins, m) → Enters s (.vsel g x) g u → u.ready (s.ctx (.vsel g x)) (ins.map inOpr ++ [srcOpr m, dstOpr d]) →
    u.takeIns t ins = (cols, v) → v.take m.name = (k, w) → takesLanes w d →
    Completes s (.vsel g x) (putLanes w t d
      ((List.range (lanesAt t d)).map fun i => if bit k i then (cols.getD 0 []).getD i 0 else (cols.getD 1 []).getD i 0)))

/-- Bit b of a vector taken as a string of 2,048 bits (R280). -/
def vectorBit (ws : List Word) (b : Nat) : Bool := bit (ws.getD (b / 64) 0) (b % 64)

/-- The lane of the source, and of the destination, of the j-th element that VCVT converts (R279). -/
def cvtFrom (t src : Ty) (hi : Bool) (j : Nat) : Nat := if t.lanes < src.lanes then j + 32 * hi.toNat else j
def cvtTo (t src : Ty) (hi : Bool) (j : Nat) : Nat := if src.lanes < t.lanes then j + 32 * hi.toNat else j

/-- R279, R280, R194: VCVT rounds each element to its target and keeps the lanes it does not write; VPACK and VUNPACK copy element bits
between lanes and the 2,048-bit string. -/
def Obligations.VectorConversions : Prop :=
  (∀ p ∈ [((Instr.vcvt : Guard → VCvtArgs → Instr), CvtForm.plain), (.vcvtSat, .sat), (.vcvtOvf, .ovf)],
    (∀ (g : Guard) (t src : Ty) (rm : Fin 8) (d : Fin 64) (a : VSrc) (hi : Bool) (s u v w y : State) (ws old : List Word)
      (res : List (Nat × FpFlags)), (t.lanes = src.lanes → hi = false) →
      Enters s (p.1 g (.vec t src rm d a hi)) g u →
      u.ready (s.ctx (p.1 g (.vec t src rm d a hi))) [vsrcOpr a, if src.lanes < t.lanes then .vboth d.val else .vdst d.val] →
      u.takeVec a.v.val = (ws, v) → (if src.lanes < t.lanes then v.takeVec d.val else (old, v)) = (old, w) →
      res = (List.range (min t.lanes src.lanes)).map (fun j =>
        t.convert p.2 (w.rnd (s.ctx (p.1 g (.vec t src rm d a hi))) rm.val).rm
          ((w.rnd (s.ctx (p.1 g (.vec t src rm d a hi))) rm.val).draw (cvtTo t src hi j))
          (src.decode ((elemsOf src ws).getD (cvtFrom t src hi j) 0))) →
      w.raise (flagsOf res) = .ok y → y.acceptsVec d.val →
      ∃ ls : List Nat, ls.length = t.lanes
        ∧ (∀ j, j < min t.lanes src.lanes → ls.getD (cvtTo t src hi j) 0 = t.lane (res.getD j (0, 0)).1)
        ∧ (∀ i, i < t.lanes → (∀ j, j < min t.lanes src.lanes → cvtTo t src hi j ≠ i) → ls.getD i 0 = (lanesOf t old).getD i 0)
        ∧ Completes s (p.1 g (.vec t src rm d a hi)) (y.putVec d.val (wordsOf t ls)))
    ∧ (∀ (g : Guard) (t src : Ty) (rm : Fin 8) (d : Name) (a : Src) (s u v y : State) (w : Word) (r : Nat × FpFlags),
      Enters s (p.1 g (.scl t src rm d a)) g u → u.ready (s.ctx (p.1 g (.scl t src rm d a))) [srcOpr a, .dst d] →
      u.take a.name = (w, v) →
      r = t.convert p.2 (v.rnd (s.ctx (p.1 g (.scl t src rm d a))) rm.val).rm
        ((v.rnd (s.ctx (p.1 g (.scl t src rm d a))) rm.val).draw 0) (src.decode (zext w src.width)) →
      v.raise r.2 = .ok y → y.accepts d → Completes s (p.1 g (.scl t src rm d a)) (y.put d (t.extend r.1))))
  ∧ (∀ (g : Guard) (x : VPackArgs) (s u v w : State) (ws old : List Word), 64 * x.t.width * (x.pos.val + 1) ≤ 2048 →
    Enters s (.vpack g x) g u → u.ready (s.ctx (.vpack g x)) [vsrcOpr x.a, .vboth x.d.val] → u.takeVec x.a.v.val = (ws, v) →
    v.takeVec x.d.val = (old, w) → w.acceptsVec x.d.val →
    ∃ r : List Word, r.length = 32
      ∧ (∀ b, b < 2048 → vectorBit r b = if 64 * x.t.width * x.pos.val ≤ b ∧ b < 64 * x.t.width * (x.pos.val + 1)
          then ((elemsOf x.t ws).getD ((b - 64 * x.t.width * x.pos.val) / x.t.width) 0).testBit ((b - 64 * x.t.width * x.pos.val) % x.t.width)
          else vectorBit old b)
      ∧ Completes s (.vpack g x) (w.putVec x.d.val r))
  ∧ (∀ (g : Guard) (x : VPackArgs) (s u v : State) (ws : List Word), x.t.lanes = 64 → 64 * x.t.width * (x.pos.val + 1) ≤ 2048 →
    Enters s (.vunpack g x) g u → u.ready (s.ctx (.vunpack g x)) [vsrcOpr x.a, .vdst x.d.val] → u.takeVec x.a.v.val = (ws, v) →
    v.acceptsVec x.d.val →
    ∃ es : List Nat, es.length = 64
      ∧ (∀ i, i < 64 → es.getD i 0 < 2 ^ x.t.width
        ∧ ∀ k, k < x.t.width → (es.getD i 0).testBit k = vectorBit ws (64 * x.t.width * x.pos.val + x.t.width * i + k))
      ∧ Completes s (.vunpack g x) (v.putVec x.d.val (wordsOf x.t (es.map x.t.lane))))

/-- The fixed tree of R281 over the 2^k lanes from lo on; an addition draws with the index of its middle. -/
def redLanes (add : Nat → Nat → Nat → Nat × FpFlags) (l : List Nat) : Nat → Nat → Nat × FpFlags
  | 0, lo => (l.getD lo 0, 0)
  | k + 1, lo =>
    let x := redLanes add l k lo
    let y := redLanes add l k (lo + 2 ^ k)
    let z := add (lo + 2 ^ k) x.1 y.1
    (z.1, x.2 ||| y.2 ||| z.2)

/-- VMIN or VMAX folded over floating lanes, with the flags of every step. -/
def foldFloat (t : Ty) (isMax : Bool) : List Nat → Nat × FpFlags
  | [] => (0, 0)
  | a :: l => l.foldl (fun m b => ((t.fminmax isMax m.1 b).1, m.2 ||| (t.fminmax isMax m.1 b).2)) (a, 0)

/-- R281, R282: VREDADD sums integer lanes modulo 2^w and floating lanes in the fixed tree, VREDMAX and VREDMIN give the greatest and the
least lane, VSCAN the running sums from its carry-in. -/
def Obligations.VectorReductions : Prop :=
  (∀ (g : Guard) (x : VRedArgs) (s u v : State) (ws : List Word), x.t.isInt = true → Enters s (.vredadd g x) g u →
    u.ready (s.ctx (.vredadd g x)) [vsrcOpr x.a, .dst x.d] → u.takeVec x.a.v.val = (ws, v) → ws.length = 32 → v.accepts x.d →
    Completes s (.vredadd g x) (v.put x.d (x.t.extend (elemsOf x.t ws).sum)))
  ∧ (∀ (g : Guard) (x : VRedArgs) (s u v y : State) (ws : List Word) (r : Nat × FpFlags), x.t.isFloat = true →
    Enters s (.vredadd g x) g u → u.ready (s.ctx (.vredadd g x)) [vsrcOpr x.a, .dst x.d] → u.takeVec x.a.v.val = (ws, v) →
    r = redLanes (fun e a b => x.t.fadd (v.rnd (s.ctx (.vredadd g x)) x.rm.val) e (x.t.decode a) (x.t.decode b)) (elemsOf x.t ws)
      (if x.t.lanes = 32 then 5 else 6) 0 →
    v.raise r.2 = .ok y → y.accepts x.d → Completes s (.vredadd g x) (y.put x.d (x.t.extend r.1)))
  ∧ (∀ p ∈ [((Instr.vredmax : Guard → VRedArgs → Instr), true), (.vredmin, false)],
    (∀ (g : Guard) (x : VRedArgs) (s u v : State) (ws : List Word), x.t.isInt = true → Enters s (p.1 g x) g u →
      u.ready (s.ctx (p.1 g x)) [vsrcOpr x.a, .dst x.d] → u.takeVec x.a.v.val = (ws, v) → ws.length = 32 → v.accepts x.d →
      ∃ m ∈ elemsOf x.t ws, (∀ e ∈ elemsOf x.t ws, if p.2 then elVal x.t e ≤ elVal x.t m else elVal x.t m ≤ elVal x.t e)
        ∧ Completes s (p.1 g x) (v.put x.d (x.t.extend m)))
    ∧ (∀ (g : Guard) (x : VRedArgs) (s u v y : State) (ws : List Word), x.t.isFloat = true → Enters s (p.1 g x) g u →
      u.ready (s.ctx (p.1 g x)) [vsrcOpr x.a, .dst x.d] → u.takeVec x.a.v.val = (ws, v) →
      v.raise (foldFloat x.t p.2 (elemsOf x.t ws)).2 = .ok y → y.accepts x.d →
      Completes s (p.1 g x) (y.put x.d (x.t.extend (foldFloat x.t p.2 (elemsOf x.t ws)).1))))
  ∧ (∀ (g : Guard) (x : VScanArgs) (s u v w y : State) (ws : List Word) (c : Word) (els : List (Nat × FpFlags)),
    Enters s (.vscan g x) g u → u.ready (s.ctx (.vscan g x)) [vsrcOpr x.a, srcOpr x.b, .vdst x.d.val] → u.takeVec x.a.v.val = (ws, v) →
    ws.length = 32 → v.take x.b.name = (c, w) → els.length = x.t.lanes →
    (∀ i, i < x.t.lanes → els.getD i (0, 0) = laneArith (· + ·) Ty.fadd x.t (w.rnd (s.ctx (.vscan g x)) x.rm.val) i
      (if i = 0 then zext c x.t.width else (els.getD (i - 1) (0, 0)).1) ((elemsOf x.t ws).getD i 0)) →
    w.raise (flagsOf els) = .ok y → y.acceptsVec x.d.val →
    Completes s (.vscan g x) (y.putVec x.d.val (wordsOf x.t (els.map fun e => x.t.lane e.1))))

/-- R283 to R285: the permutes copy element bits: VPERM by index, VBCAST everywhere, VSHUF by its kind, VMOV all words, VLDS one lane out,
VINS one lane in. -/
def Obligations.VectorPermutes : Prop :=
  (∀ (g : Guard) (x : VPermArgs) (s u v w : State) (ws ix : List Word), Enters s (.vperm g x) g u →
    u.ready (s.ctx (.vperm g x)) [vsrcOpr x.a, vsrcOpr x.b, .vdst x.d.val] → u.takeVec x.a.v.val = (ws, v) →
    v.takeVec x.b.v.val = (ix, w) → w.acceptsVec x.d.val →
    Completes s (.vperm g x) (w.putVec x.d.val (wordsOf x.t ((lanesOf x.t ix).map fun i =>
      x.t.lane ((elemsOf x.t ws).getD (i % 2 ^ 32 % x.t.lanes) 0)))))
  ∧ (∀ (g : Guard) (x : VBcastArgs) (s u v : State) (a : Word), Enters s (.vbcast g x) g u →
    u.ready (s.ctx (.vbcast g x)) [srcOpr x.a, .vdst x.d.val] → u.take x.a.name = (a, v) → v.acceptsVec x.d.val →
    Completes s (.vbcast g x) (v.putVec x.d.val (wordsOf x.t (List.replicate x.t.lanes (x.t.lane (zext a x.t.width))))))
  ∧ (∀ (g : Guard) (x : VShufArgs) (s u v w y : State) (wa wb : List Word) (c : Word) (ls : List Nat), Enters s (.vshuf g x) g u →
    u.ready (s.ctx (.vshuf g x)) [vsrcOpr x.a, vsrcOpr x.b, srcOpr x.c, .vdst x.d.val] → u.takeVec x.a.v.val = (wa, v) →
    v.takeVec x.b.v.val = (wb, w) → w.take x.c.name = (c, y) → y.acceptsVec x.d.val → ls.length = x.t.lanes →
    (∀ i, i < x.t.lanes →
      let a := fun j => (elemsOf x.t wa).getD j 0
      let b := fun j => (elemsOf x.t wb).getD j 0
      let n := x.t.lanes
      let k := bits c 5 0
      ls.getD i 0 = if bits c 7 6 = 0 then (if i + k % n < n then a (i + k % n) else b (i + k % n - n))
        else if bits c 7 6 = 1 then (if i % 2 = 0 then a (i / 2) else b ((i - 1) / 2))
        else if bits c 7 6 = 2 then (if i % 2 = 0 then a (n / 2 + i / 2) else b (n / 2 + (i - 1) / 2))
        else if i < n / 2 then a (2 * i + k % 2) else b (2 * (i - n / 2) + k % 2)) →
    Completes s (.vshuf g x) (y.putVec x.d.val (wordsOf x.t (ls.map x.t.lane))))
  ∧ (∀ (g : Guard) (t : Ty) (rm : Fin 8) (d : Fin 64) (a : VSrc) (s u v : State) (ws : List Word),
    Enters s (.vmov g ⟨t, rm, .vec d a⟩) g u → u.ready (s.ctx (.vmov g ⟨t, rm, .vec d a⟩)) [vsrcOpr a, .vdst d.val] →
    u.takeVec a.v.val = (ws, v) → v.acceptsVec d.val → Completes s (.vmov g ⟨t, rm, .vec d a⟩) (v.putVec d.val ws))
  ∧ (∀ (g : Guard) (t : Ty) (rm : Fin 8) (d : Name) (a : Src) (s u v : State) (w : Word),
    Enters s (.vmov g ⟨t, rm, .scl d a⟩) g u → u.ready (s.ctx (.vmov g ⟨t, rm, .scl d a⟩)) [srcOpr a, .dst d] →
    u.take a.name = (w, v) → v.accepts d → Completes s (.vmov g ⟨t, rm, .scl d a⟩) (v.put d (t.extend w.toNat)))
  ∧ (∀ (g : Guard) (x : VLdsArgs) (s u v w : State) (ws : List Word) (i : Word), Enters s (.vlds g x) g u →
    u.ready (s.ctx (.vlds g x)) [vsrcOpr x.a, srcOpr x.b, .dst x.d] → u.takeVec x.a.v.val = (ws, v) → v.take x.b.name = (i, w) →
    w.accepts x.d → Completes s (.vlds g x) (w.put x.d (x.t.extend ((elemsOf x.t ws).getD (i.toNat % x.t.lanes) 0))))
  ∧ (∀ (g : Guard) (x : VInsArgs) (s u v w y : State) (a i : Word) (old : List Word) (ls : List Nat), Enters s (.vins g x) g u →
    u.ready (s.ctx (.vins g x)) [srcOpr x.a, srcOpr x.b, .vboth x.d.val] → u.take x.a.name = (a, v) → v.take x.b.name = (i, w) →
    w.takeVec x.d.val = (old, y) → y.acceptsVec x.d.val → ls.length = (lanesOf x.t old).length →
    (∀ j, ls.getD j 0 = if j = i.toNat % x.t.lanes ∧ j < (lanesOf x.t old).length then x.t.lane (zext a x.t.width)
      else (lanesOf x.t old).getD j 0) →
    Completes s (.vins g x) (y.putVec x.d.val (wordsOf x.t ls)))

/-! ### The matrix unit and the sequencer -/

/-- The command of an instruction at `pc`, issued in y: operation, tile, rounding mode (FPCTL's where it is 7, R292), NUD and descriptor,
with the task's address space, mode, LNID, SEED and the unit's THR at issue. -/
def commandAt (y : State) (pc : Word) (op : MuOp) (tile rm nud : Nat) (ws : List Word) : MuCmd :=
  { id := y.core.nextBind, op := op, tile := tile, rm := if rm = 7 then bits y.regs.fpctl 18 16 else rm, nud := nud, desc := ws
    site := pc, cbase := y.regs.cbase, asid := y.regs.asid, sup := y.mode = 2, mode := y.mode, lnid := y.regs.lnid, seed := y.regs.seed
    thr := y.mu.thr }

/-- The rows and K-steps a command starts from: those of its token's old value where that has RESUME, else none, afresh (R289). -/
def resumed (c : MuCmd) (old : Word) : MuCmd :=
  if bit old 63 then { c with r0 := bits old 43 38, k0 := bits old 55 44, fresh := false } else c

/-- Instruction i, with token, descriptor of n words and a condition on it, enters a command into the core's queue (R287, R288): a place is
free, the release of cluster scope is performed, T is bound, and the command stands last. -/
def Queues (i : Instr) (g : Guard) (tok : Name) (a : Run) (n : Nat) (own : State → Prop) (fits : State → List Word → Prop)
    (cmd : State → Word → List Word → Word → MuCmd) : Prop :=
  ∀ (s u v w y : State) (ws : List Word) (old : Word), Enters s i g u → plainHandler u → own u →
    u.ready (s.ctx i) [runOpr a n, .both tok] → u.takeRun a.first n = (ws, v) → v.take tok = (old, w) → fits w ws →
    w.bound (w.phys tok.num) = false → w.mu.queue.length < 2 → w.release 1 = .ok y →
    Completes s i { y.bind [w.phys tok.num] none 0 (some 1) with mu := { y.mu with queue := y.mu.queue ++ [cmd y s.pc ws old] } }

/-- A base and a stride that keep every row aligned to n (R290). -/
def rowsAligned (base : Word) (stride n : Nat) : Prop := n ∣ base.toNat ∧ n ∣ stride

/-- The descriptor of an MMA or an MMAS, and its extension (R290, R293, R203). -/
def mmaFits (sparse : Bool) (x : Option Matx) (_ : State) (ws : List Word) : Prop :=
  bits (ws.getD 3 0) 23 12 = 0 ∧ bits (ws.getD 3 0) 31 24 ≤ 124 ∧ (∀ m, x = some m → m.klim.toNat ≤ 124)
    ∧ rowsAligned (ws.getD 0 0) (bits (ws.getD 2 0) 31 0) 64 ∧ rowsAligned (ws.getD 1 0) (bits (ws.getD 2 0) 63 32) 64
    ∧ (sparse = true → bits (ws.getD 5 0) 63 32 = 0 ∧ rowsAligned (ws.getD 4 0) (bits (ws.getD 5 0) 31 0) 64)

/-- Two-word descriptors: base, and a stride below `top` (R296, R299, R300). -/
def areaFits (top n : Nat) (_ : State) (ws : List Word) : Prop :=
  bits (ws.getD 1 0) 63 top = 0 ∧ rowsAligned (ws.getD 0 0) (bits (ws.getD 1 0) 31 0) n

/-- The alignment of MST's rows (R300). -/
def outAlign (t : Ty) : Nat := if t = .f32 then 4 else if t = .f64 then 8 else if t.isInt then (if t.width = 8 then 64 else t.bytes) else 64

def anyState (_ : State) : Prop := True

/-- The MMA and MMAS forms: accumulation, and the group of the sparse ones (R292). -/
def multiplies : List ((Guard → MmaArgs → Instr) × Acc × Nat) :=
  [(.mmaF, .f, 0), (.mmaI, .i, 0), (.mmaSat, .sat, 0), (.mmas24F, .f, 4), (.mmas24I, .i, 4), (.mmas24Sat, .sat, 4),
   (.mmas48F, .f, 8), (.mmas48I, .i, 8), (.mmas48Sat, .sat, 8)]

/-- R287 to R290, R292, R296, R297, R299, R300, R376 to R381: the queued commands of the matrix unit and the sequencer. -/
def matrixCommandsIssue : Prop :=
  (∀ p ∈ multiplies, ∀ (g : Guard) (x : MmaArgs), Queues (p.1 g x) g x.tok x.a (if p.2.2 = 0 then 4 else 6) anyState
    (mmaFits (p.2.2 ≠ 0) x.x) fun y pc ws old =>
      { resumed (commandAt y pc (.mma p.2.1 p.2.2) x.tile.val x.rm.val x.nud.val ws) old with x := x.x })
  ∧ (∀ p ∈ [((Instr.mrotF : Guard → MrotArgs → Instr), Acc.f), (.mrotI, .i), (.mrotSat, .sat)], ∀ (g : Guard) (x : MrotArgs),
    Queues (p.1 g x) g x.tok x.a 2 anyState (fun w ws => w.rotScopeOk (ws.getD 0 0) = true ∧ bits (ws.getD 1 0) 23 12 = 0
        ∧ bits (ws.getD 1 0) 31 24 ≤ 124 ∧ bits (ws.getD 1 0) 11 0 ≤ 16)
      fun y pc ws old => resumed (commandAt y pc (.mrot p.2) x.tile.val x.rm.val 0 ws) old)
  ∧ (∀ p ∈ [((Instr.mlda : Guard → TokArgs → Instr), MuOp.mlda), (.mldb, .mldb)], ∀ (g : Guard) (x : TokArgs),
    Queues (p.1 g x) g x.tok x.a 2 anyState (areaFits 36 64) fun y pc ws old => resumed (commandAt y pc p.2 0 0 x.nud.val ws) old)
  ∧ (∀ p ∈ [((Instr.mld : Guard → MldArgs → Instr), MuOp.mld), (.mldt, .mldt)], ∀ (g : Guard) (x : MldArgs),
    Queues (p.1 g x) g x.tok x.a 2 anyState (areaFits 32 4)
      fun y pc ws old => resumed (commandAt y pc p.2 x.tile.val 0 x.nud.val ws) old)
  ∧ (∀ (g : Guard) (x : MstArgs), Queues (.mst g x) g x.tok x.a 2 anyState (areaFits 32 (outAlign x.t))
    fun y pc ws old => resumed (commandAt y pc (.mst x.t) x.tile.val x.rm.val x.nud.val ws) old)
  ∧ (∀ (g : Guard) (x : MmaStepArgs), Queues (.mmaStep g x) g x.tok x.a 5 anyState
    (fun w ws => bits (ws.getD 4 0) 63 28 = 0 ∧ bits (ws.getD 4 0) 15 4 = 0 ∧ mmaFits false none w ws)
    fun y pc ws _ => commandAt y pc .step x.tile.val x.rm.val x.nud.val ws)
  ∧ (∀ (g : Guard) (x : TokPlain), Queues (.dssbind g x) g x.tok x.a 6 anyState
    (fun _ ws => bits (ws.getD 1 0) 63 38 = 0 ∧ bits (ws.getD 3 0) 63 52 = 0 ∧ bits (ws.getD 3 0) 15 12 = 0 ∧ bits (ws.getD 4 0) 63 32 = 0
      ∧ bits (ws.getD 5 0) 63 32 = 0 ∧ bits (ws.getD 3 0) 31 16 ≠ 0 ∧ 4160 + 256 * (bits (ws.getD 1 0) 37 32 + 1) ≤ bits (ws.getD 1 0) 31 0
      ∧ bits (ws.getD 4 0) 31 0 < 0x7F800000 ∧ rowsAligned (ws.getD 0 0) (bits (ws.getD 1 0) 31 0) 64 ∧ 64 ∣ (ws.getD 2 0).toNat)
    fun y pc ws _ => commandAt y pc .dssbind 0 0 15 ws)
  ∧ (∀ (g : Guard) (x : TokArgs), Queues (.dssstep g x) g x.tok x.a 1 anyState (fun _ ws => bits (ws.getD 0 0) 63 4 = 0)
    fun y pc ws _ => commandAt y pc .dssstep 0 0 x.nud.val ws)
  ∧ (∀ p ∈ [((Instr.dsscutImpose : Guard → TokArgs → Instr), MuOp.cutImpose, false), (.dsscutStoreImage, .cutStore, true),
      (.dsscutLoadImage, .cutLoad, true)], ∀ (g : Guard) (x : TokArgs),
    Queues (p.1 g x) g x.tok x.a 2 (fun u => p.2.2 = true → u.mode = 2)
      (fun _ ws => bits (ws.getD 0 0) 63 4 = 0 ∧ (p.2.1 ≠ .cutLoad → 64 ∣ (ws.getD 1 0).toNat))
      fun y pc ws _ => commandAt y pc p.2.1 0 0 x.nud.val ws)

/-- The unit has nothing to do: no command runs or waits, no MSAVE stands (R287). -/
def unitIdle (s : State) : Prop := s.mu.run = none ∧ s.mu.queue = [] ∧ s.mu.saves = []

/-- What MRD reads (R302): the number of its register, and the register. -/
def matrixReads : List (Nat × (State → Word)) :=
  [(0, fun s => s.mu.rowprog), (1, fun s => wd s.mu.dropmag), (2, fun s => wd s.mu.thr), (3, fun s => wd s.mu.faultva),
   (4, fun s => s.regs.mqweight), (32, fun s => wd (mget 0 s.mu.droprow 0)), (63, fun s => wd (mget 0 s.mu.droprow 31))]

/-- A slot that DSSCUT sees as bound: bound, and in MODE 0 its owner is the task's address space (R381). -/
def seesSlot (s : State) (d : Dss) : Bool := d.bound && (s.mode ≠ 0 || d.owner = s.regs.asid)

/-- R298, R301 to R303, R381: MZERO, MTHR, MRD, MSAVE.rst and DSSCUT kinds 0 and 2 act on an idle unit; MSAVE stands beside the queue and
asks every command to stop. -/
def matrixImmediates : Prop :=
  (∀ (g : Guard) (tile : Fin 4) (s u : State), Enters s (.mzero g tile) g u → plainHandler u → unitIdle u →
    Completes s (.mzero g tile) { u with mu := { u.mu with tiles := mputs 0 u.mu.tiles (1024 * tile.val) (List.replicate 1024 0) } })
  ∧ (∀ (g : Guard) (a : Src) (s u v : State) (x : Word), Enters s (.mthr g a) g u → plainHandler u →
    u.ready (s.ctx (.mthr g a)) [srcOpr a] → u.take a.name = (x, v) → unitIdle v →
    Completes s (.mthr g a) { v with mu := { v.mu with thr := x.toNat % 2 ^ 32, dropmag := 0 } })
  ∧ (∀ p ∈ matrixReads, ∀ (g : Guard) (x : MrdArgs) (s u : State), x.sel.toNat = p.1 → Enters s (.mrd g x) g u → plainHandler u →
    u.ready (s.ctx (.mrd g x)) [.dst x.d] → unitIdle u → u.accepts x.d → Completes s (.mrd g x) (u.put x.d (p.2 u)))
  ∧ (∀ (g : Guard) (x : TokPlain) (s u v w y : State) (ws : List Word) (old : Word), Enters s (.msave g x) g u → plainHandler u →
    u.ready (s.ctx (.msave g x)) [runOpr x.a 1, .both x.tok] → u.takeRun x.a.first 1 = (ws, v) → v.take x.tok = (old, w) →
    256 ∣ (ws.getD 0 0).toNat → w.bound (w.phys x.tok.num) = false → w.release 1 = .ok y →
    Completes s (.msave g x) { y.bind [w.phys x.tok.num] none 0 (some 1) with
      mu := { y.mu with
        run := y.mu.run.map fun c => if c.op = .msave ∨ c.op = .msaveRst then c else { c with stop := true }
        queue := y.mu.queue.map fun c => { c with stop := true }
        saves := y.mu.saves ++ [commandAt y s.pc .msave 0 0 15 ws] } })
  ∧ (∀ (g : Guard) (x : TokPlain) (s u v w y : State) (ws : List Word) (old : Word), Enters s (.msaveRst g x) g u → plainHandler u →
    u.ready (s.ctx (.msaveRst g x)) [runOpr x.a 1, .both x.tok] → u.takeRun x.a.first 1 = (ws, v) → v.take x.tok = (old, w) →
    256 ∣ (ws.getD 0 0).toNat → w.bound (w.phys x.tok.num) = false → unitIdle w → w.release 1 = .ok y →
    Completes s (.msaveRst g x) { y.bind [w.phys x.tok.num] none 0 (some 1) with
      mu := { y.mu with run := some (commandAt y s.pc .msaveRst 0 0 15 ws) } })
  ∧ (∀ (g : Guard) (x : CutRead) (s u v : State) (ws : List Word) (n : Nat), Enters s (.dsscutRead g x) g u → plainHandler u →
    u.ready (s.ctx (.dsscutRead g x)) [runOpr x.a 1, .dst x.d] → u.takeRun x.a.first 1 = (ws, v) → bits (ws.getD 0 0) 63 4 = 0 →
    n = (ws.getD 0 0).toNat → unitIdle v → v.accepts x.d →
    Completes s (.dsscutRead g x) (v.put x.d (if seesSlot v (mget {} v.mu.dss n)
      then wd (fld (mget {} v.mu.dss n).step 32 + ((List.range 4096).filter fun i => (mget {} v.mu.dss n).cut / 2 ^ i % 2 = 1).length)
      else 0xFFFFFFFFFFFFFFFF)))
  ∧ (∀ (g : Guard) (a : Run) (s u v : State) (ws : List Word) (n : Nat), Enters s (.dsscutUnimpose g a) g u → plainHandler u →
    u.ready (s.ctx (.dsscutUnimpose g a)) [runOpr a 1] → u.takeRun a.first 1 = (ws, v) → bits (ws.getD 0 0) 63 4 = 0 →
    n = (ws.getD 0 0).toNat → unitIdle v →
    Completes s (.dsscutUnimpose g a) (if seesSlot v (mget {} v.mu.dss n)
      then { v with mu := { v.mu with dss := mput {} v.mu.dss n { mget {} v.mu.dss n with imposed := false } } } else v))

/-- The state in which the unit takes its next command c and has done nothing for it yet: its region is open (R95, R125). -/
def startOf (s : State) (c : MuCmd) (rest : List MuCmd) : State :=
  ((({ s with mu := { s.mu with queue := rest } }).selfInvalidate).addOther
    { id := c.id, agent := .mu, device := s.regs.devnum, core := s.core.number, own := true }).count 6 1

/-- A finished command as the unit holds it until its token fills. -/
def finishes (s : State) (c : MuCmd) (tok : Word) (t : State) : Prop :=
  ∃ d : MuCmd, d.id = c.id ∧ d.done = some tok ∧ t.mu.run = some d ∧ exec .matrixGrant s = .next t.tick

/-- The products of a dense pair of blocks at a K-step, in order (R185, R294): but for elements beyond KLIM at the last K-step and those below
THR. -/
def pairProducts (c : MuCmd) (a b : Blk) : List Sys2Proof.Num :=
  ((List.range a.t.blkLen).filter fun q =>
    !(c.k + 1 = bits (c.desc.getD 3 0) 11 0 && bits (c.desc.getD 3 0) 31 24 ≠ 0 && bits (c.desc.getD 3 0) 31 24 ≤ q)
      && (dropped c.thr a.t a.scale (a.raw.getD q 0)).isNone).map fun q => elemTimes a.t b.t (a.raw.getD q 0) (b.raw.getD q 0)

/-- R185, R287, R289, R291, R294, R297, R298 to R300, R303, R377: what a grant does with the oldest command of the queue, a K-step of an MMA, its
end and its stop, the fill of a token, and the buffers of an MROT. That a grant is one K-step or one row is the model's (log entry 49); so are
ROW, KDONE and FAULTVA where the spec names none for a token, as for ROTLATE (log entry 34), the order of checks under R183 (log entry
33), and what becomes of a buffer that is given up (log entry 36). -/
def Obligations.MatrixUnitEvents : Prop :=
  (∀ (s : State) (c : MuCmd) (rest : List MuCmd) (acc : Acc) (n : Nat), s.mu.run = none → s.mu.queue = c :: rest → s.mu.saves = [] →
    c.done = none → c.stop = false → c.sent = none → c.started = false → c.op = .mma acc n → c.fresh = true → c.k0 = 0 → c.r0 = 0 →
    c.x = none → c.bad = none → (bits (c.desc.getD 3 0) 11 0 = 0 ∨ bits (c.desc.getD 3 0) 63 32 = 0) →
    ∃ t, finishes s c (wd (fld (bits (c.desc.getD 3 0) 11 0) 44 + fld 32 38)) t ∧ t.mu.queue = rest ∧ t.mu.tiles = s.mu.tiles
      ∧ t.mem.bytes = s.mem.bytes)
  ∧ (∀ (s : State) (c : MuCmd) (rest : List MuCmd), s.mu.run = none → s.mu.queue = c :: rest → c.done = none → c.stop = true →
    c.started = false →
    ∃ t, finishes s c (if c.op = .step ∨ c.op = .dssbind ∨ c.op = .dssstep ∨ c.op = .cutImpose ∨ c.op = .cutStore ∨ c.op = .cutLoad
        then 0xFF else wd (fld 1 63 + fld (c.k0 % 4096) 44 + fld (c.r0 % 64) 38 + 0xFF)) t
      ∧ t.mu.queue = rest ∧ t.mu.tiles = s.mu.tiles ∧ t.mem = s.mem)
  ∧ (∀ (s : State) (c : MuCmd) (rest : List MuCmd), s.mu.run = none → s.mu.queue = c :: rest → s.mu.saves = [] → c.done = none →
    c.stop = false → c.sent = none → c.started = false → c.op = .dssbind → bits (c.desc.getD 3 0) 51 48 ∉ s.mu.peerDss →
    (let n := bits (c.desc.getD 3 0) 51 48
     let d := mget {} s.mu.dss n
     (d.bound = true ∧ d.owner ≠ c.asid ∧ c.mode ≠ 2 → ∃ t, finishes s c (wd (fld 2 8 + cDSS)) t ∧ t.mu.dss = s.mu.dss)
     ∧ (d.bound = false ∨ d.owner = c.asid ∨ c.mode = 2 → ∃ t, finishes s c (wd (fld 32 38)) t
       ∧ t.mu.dss = mput {} s.mu.dss n { d with
           bound := true, owner := c.asid, desc := c.desc, step := bits (c.desc.getD 5 0) 31 0, cut := 0, imposed := false })))
  ∧ (∀ (s : State) (c : MuCmd) (rest : List MuCmd) (y : State) (bs : List Byte), s.mu.run = none → s.mu.queue = c :: rest →
    s.mu.saves = [] → c.done = none → c.stop = false → c.sent = none → c.started = false → c.op = .mld → c.r0 = 31 →
    (startOf s c rest).muRead c 0 (c.desc.getD 0 0 + wd (31 * bits (c.desc.getD 1 0) 31 0)) 128 = .ok (bs, y) →
    ∃ t, finishes s c (wd (fld 32 38)) t ∧ t.mu.tiles = mputs 0 s.mu.tiles (1024 * c.tile + 992)
      ((List.range 32).map fun j => ofBytes ((bs.drop (4 * j)).take 4)))
  ∧ (∀ (s y z : State) (c : MuCmd) (i n : Nat) (acc : Acc) (ba : List Byte) (a : Blk) (bl : List (Blk × Nat)), s.mu.run = some c →
    c.op = .mma acc 0 → c.started = true → c.done = none → c.stop = false → c.sent = none → c.bad = none → c.x = none →
    n = bits (c.desc.getD 3 0) 11 0 → c.k < n → c.k - c.k0 < c.granted → i < 32 →
    (∀ r < 32, (c.r0 ≤ r ∧ bits (c.desc.getD 3 0) 63 32 / 2 ^ r % 2 = 1) ↔ r = i) →
    s.muRead c 0 (c.desc.getD 0 0 + wd (i * bits (c.desc.getD 2 0) 31 0 + 64 * c.k)) 64 = .ok (ba, y) → blkOf ba = some a →
    (a.t.isInt = true → a.scale = 0x7F) → y.bBlocks c c.kRun ((List.range 32).map fun j => (j, c.k)) = .ok (⟨bl, none⟩, z) →
    (∀ b ∈ bl, b.1.t.group = a.t.group ∧ (b.1.t.isInt = true → b.1.scale = 0x7F)) → (a.t.isInt = true ↔ acc ≠ .f) →
    ∃ (t : State) (d : MuCmd), exec .matrixGrant s = .next t.tick ∧ t.mu.run = some d ∧ d.k = c.k + 1 ∧ d.done = none
      ∧ t.mu.tiles = mputs 0 s.mu.tiles (1024 * c.tile + 32 * i) ((List.range 32).map fun j =>
        let b := (bl.getD j (a, 0)).1
        (blockAdd acc c.rnd (1024 * c.k + 32 * i + j) (mget 0 s.mu.tiles (1024 * c.tile + 32 * i + j)) a.scale b.scale
          (pairProducts c a b)).1))
  ∧ (∀ (s : State) (c : MuCmd) (acc : Acc) (g : Nat), s.mu.run = some c → c.op = .mma acc g → c.started = true → c.done = none →
    c.sent = none → c.bad = none → c.x = none → c.granted ≠ 0 →
    (c.stop = false → bits (c.desc.getD 3 0) 11 0 ≤ c.k →
      ∃ t, finishes s c (wd (fld (bits (c.desc.getD 3 0) 11 0) 44 + fld 32 38)) t ∧ t.mu.tiles = s.mu.tiles ∧ t.mem = s.mem)
    ∧ (c.stop = true → ∃ t, finishes s c (wd (fld 1 63 + fld (c.k % 4096) 44 + fld (c.r0 % 64) 38 + 0xFF)) t
      ∧ t.mu.tiles = s.mu.tiles ∧ t.mem = s.mem))
  ∧ (∀ (s y : State) (c : MuCmd) (tok : Word), s.mu.run = some c → c.done = some tok → c.quiet = false →
    bits tok 7 0 ≠ cMEMLOST → y = ({ s.endCommand .mu c.id with mu := { s.mu with run := none } }).keepClips c (bit tok 63) →
    exec .matrixTokenFill s = .next ((({ y with mu := { y.mu with
        rowprog := tok
        faultva := match c.op, c.bad with
          | .mrot _, _ => s.mu.faultva
          | _, some b => b.2.2
          | _, none => s.mu.faultva } }).fillToken c.id [tok]).tick))
  ∧ (∀ (s : State) (isA : Bool) (bytes : List Byte) (tag : RotTag),
    ((isA, tag.m) ∈ s.mu.late → exec (.mrotBufferArrival isA bytes tag) s =
      .next (({ s with mu := { s.mu with late := s.mu.late.erase (isA, tag.m) } }).tick))
    ∧ ((isA, tag.m) ∉ s.mu.late → s.mu.run = none → exec (.mrotBufferArrival isA bytes tag) s =
      .next (({ s with mu := { s.mu with arrived := s.mu.arrived ++ [RotBuf.mk isA bytes tag.rect tag.m] } }).tick)))
  ∧ (∀ (s : State) (c : MuCmd) (at_ : Nat) (a b : List Byte), s.mu.run = some c → c.sent = some at_ → c.done = none → c.x = none →
    (∃ acc, c.op = .mrot acc) → (rotGrid c.rect).1 ≠ 1 → (rotGrid c.rect).2 ≠ 1 → s.mu.late = [] → a.length = 32768 → b.length = 32768 →
    s.mu.arrived = [RotBuf.mk true a c.rect c.m] →
    ∃ (t : State) (d : MuCmd), exec (.mrotBufferArrival false b (RotTag.mk c.rect c.m)) s = .next t.tick ∧ t.mu.run = some d
      ∧ d.done = some (wd (fld (bits (c.desc.getD 1 0) 11 0) 44 + fld 32 38)) ∧ t.mu.arrived = []
      ∧ t.mu.bufs = mputs 0 (mputs 0 s.mu.bufs 0 a) 32768 b)
  ∧ (∀ (s : State) (c : MuCmd) (at_ k : Nat), s.mu.run = some c → c.sent = some at_ → c.done = none →
    k = bits (c.desc.getD 1 0) 11 0 → (∃ acc, c.op = .mrot acc) → c.x = none →
    ∃ (t : State) (d : MuCmd), exec .rotlate s = .next t.tick ∧ t.mu.run = some d ∧ d.done = some (wd (fld k 44 + fld 32 38 + fld 1 8 + cMATFAULT))
      ∧ t.mu.bufs = s.mu.bufs ∧ t.mu.tiles = s.mu.tiles
      ∧ (s.mu.arrived = [] → (rotGrid c.rect).1 ≠ 1 → (true, c.m) ∈ t.mu.late)
      ∧ (s.mu.arrived = [] → (rotGrid c.rect).2 ≠ 1 → (false, c.m) ∈ t.mu.late))

/-- R287 to R303, R376 to R381: the matrix and sequencer instructions, queued and immediate. -/
def Obligations.MatrixInstructions : Prop := matrixCommandsIssue ∧ matrixImmediates

/-! ### Events of the core -/

/-- The event e leaves t: one step of time passes with it (log entry 3). -/
def Becomes (s : State) (e : Instr) (t : State) : Prop := exec e s = .next t.tick

/-- R152: the state after entry into TWIN: TSAVE the resume descriptor with TRAPD, TCAUSE the cause, the old mode and whether it is
asynchronous, TINFO, TWIN's window, MODE 2, and the pc at SCBASE + 4 * RPC of TWIN. -/
def twinState (s : State) (c : Nat) (info : Word) (async : Bool) : State :=
  { s with
    pc := s.regs.scbase + wd (4 * bits s.regs.twin 63 32)
    regs := { s.regs with
      tsave := mkDesc s.regs.wb s.regs.wl (rpcOf s.pc s.codeBase) true s.queuesLive (s.mode = 3)
      tcause := wd (c + fld s.mode 56 + fld async.toNat 63)
      tinfo := info
      wb := bits s.regs.twin 12 0
      wl := bits s.regs.twin 23 13
      taskstat := setBits s.regs.taskstat 13 12 2 }
    core := { s.core with wait := none } }

/-- R150, R152: the state after entry into UTWIN: UTSAVE, UTCAUSE, UTINFO, UTWIN's window, MODE 1, and the pc at CBASE + 4 * RPC of UTWIN. -/
def utwinState (s : State) (c : Nat) (info : Word) : State :=
  { s with
    pc := s.regs.cbase + wd (4 * bits s.regs.utwin 63 32)
    regs := { s.regs with
      utsave := mkDesc s.regs.wb s.regs.wl (rpcOf s.pc s.codeBase) true s.queuesLive (s.mode = 3)
      utcause := wd c
      utinfo := info
      wb := bits s.regs.utwin 12 0
      wl := bits s.regs.utwin 23 13
      taskstat := setBits s.regs.taskstat 13 12 1 }
    core := { s.core with wait := none } }

/-- A cause goes to the user's handler: MODE 0, both of its bits in TDELEG, and UTWIN holds a window (R150). -/
def delegates (s : State) (c : Nat) : Prop :=
  s.mode = 0 ∧ bit s.regs.tdeleg c = true ∧ bit s.regs.tdeleg (32 + c) = true ∧ bits s.regs.utwin 23 13 ≠ 0

/-- TINFO of BUDGET (R390): whether a waiting instruction was abandoned, and GRACE. -/
def budgetInfo (s : State) : Word := wd (fld s.core.wait.isSome.toNat 1 + s.grace.toNat)

/-- R27, R85, R145, R147, R162, R166, R206 to R208, R390, R398: the events the core takes between instructions, and those of its fetch, its
TLB and its bindings. The model's choices, and no rules of the spec: which core waits out a RINGLOCK (log entry 52), the order in which
bindings land (log entry 50), that a MACHINE report stays pending while no task is on the core or the partition stands still (log entries
27 and 39), and that the eviction of an entry of an empty region has no effect (log entry 38). -/
def Obligations.CoreEvents : Prop :=
  (∀ p ∈ [(0, Kind.read), (1, .write), (2, .exec), (3, .atomic)], ∀ (s t : State) (va : Word) (l : Loc),
    (s.translate s.who p.2 va = .ok (l, t) → Becomes s (.pageWalk va p.1) t)
    ∧ (∀ c d n, s.translate s.who p.2 va = .error (.fault c d n) → Becomes s (.pageWalk va p.1) s)
    ∧ (∀ n, n < 2 ^ 64 → s.pulling n = false → s.translate s.who p.2 va = .error (.absent n) →
      Becomes s (.pageWalk va p.1) { s with mem := { s.mem with
        pulls := s.mem.pulls ++ [{ page := n, vd := s.sys.vd, since := s.cyc }] } }))
  ∧ (∀ (s : State) (k p : Nat) (b : Bind) (v : Option Word), (s.core.binds.filter fun b => b.vals.isSome)[k]? = some b → b.queue = none →
    b.words = [p] → b.vals = some [v] → b.width = none →
    Becomes s (.bindingLand k) { s.setCell p (match v with
        | some x => .full x
        | none => .lost b.lostInfo) with
      core := { (s.setCell p (match v with
        | some x => .full x
        | none => .lost b.lostInfo)).core with binds := s.core.binds.filter fun x => x.id ≠ b.id } })
  ∧ (∀ (s : State), s.mode < 2 → s.regs.tbudget = 0 → s.sched.task.isSome = true → ¬ (delegates s cBUDGET ∧ s.grace = false) →
    1 ≤ bits s.regs.twin 23 13 →
    Becomes s .budget (twinState { s with core := { s.core with idle := false } } cBUDGET (budgetInfo s) false))
  ∧ (∀ (s : State), s.regs.tbudget = 0 → s.sched.task.isSome = true → delegates s cBUDGET → s.grace = false →
    Becomes s .budget (utwinState { s with
      core := { s.core with idle := false }
      regs := { s.regs with tbudget := 4096, taskstat := setBits s.regs.taskstat 14 14 1 } } cBUDGET (budgetInfo s)))
  ∧ (∀ (s : State) (w : Wait) (nxt wr : Bool), s.core.wait = some w → w.on = .ring nxt wr →
    (7 ≤ s.core.ringWaiters → Becomes s .ringlockIdle (s.takeTrap cRINGLOCK (winInfo 1 0 (if nxt then Name.nxt else .prv).num) s.pc))
    ∧ (∀ t, s.core.ringWaiters < 7 → (if nxt then s.core.ringIdle.1 else s.core.ringIdle.2) = some t → max w.since t + 65536 ≤ s.cyc →
      Becomes s .ringlockIdle (s.takeTrap cRINGLOCK (winInfo 2 0 (if nxt then Name.nxt else .prv).num) s.pc)))
  ∧ (∀ (s : State) (d phys : Nat),
    (s.core.machine = [] → s.sched.task.isSome = true → s.sys.halted = false → 1 ≤ bits s.regs.twin 23 13 → Becomes s (.machine d phys)
      (twinState { s with core := { s.core with idle := false } } cMACHINE
        (wd (fld (d % 16) 56 + fld (if d = 1 then phys % 8192 else 0) 32)) true))
    ∧ (s.sched.task = none ∨ s.sys.halted = true →
      Becomes s (.machine d phys) { s with core := { s.core with machine := s.core.machine ++ [(d, phys)] } }))
  ∧ (∀ (s : State) (d : Nat) (parcel : Parcel), Becomes s (.unassignedEncoding d parcel)
    ({ s with core := { s.core with idle := false } }.takeTrap cILLEGAL (wd (fld d 56 + parcel.toNat)) s.pc))
  ∧ (∀ (s : State) (c : Nat) (info : Word), Becomes s (.fetchFault c info)
    ({ s with core := { s.core with idle := false } }.takeTrap c info s.pc))
  ∧ (∀ (s : State), s.core.region = {} →
    Becomes s .regionTableEviction { s with core := { s.core with tableHit := false } })
  ∧ (∀ (s : State), s.core.region ≠ {} → ∃ t, Becomes s .regionTableEviction t ∧ t.core.region = {} ∧ t.core.tableHit = false
    ∧ (∀ x ∈ t.mem.rdc, s.rdcMine (x.1 / 128 * 128) = false) ∧ t.mem.bytes = s.writeBack.mem.bytes ∧ bits t.regs.impbnd 63 32 = min (bits s.regs.impbnd 63 32 + 1) 0xFFFFFFFF
    ∧ bits t.regs.impbnd 31 0 = bits s.regs.impbnd 31 0)

/-- The parked tasks that wait on a line, or for their time, in order (R248). -/
def lineTasks (s : State) : List Parked := s.sched.parked.filter fun p => match p.on with
  | .line _ _ => true
  | .timer _ => true
  | _ => false

/-- R248, R249, R250: the ends of waits: a SLEEP whose cycle has come looks again, a WAITLN that has spun its time parks its task where it
may, and a parked one resumes when its line is written or after 65,536 cycles. -/
def Obligations.WaitEvents : Prop :=
  (∀ (s : State) (w : Wait) (u : Word), s.core.wait = some w → w.on = .sleep u → u.toNat ≤ s.cyc →
    Becomes s .sleepWake { s with core := { s.core with wait := none } })
  ∧ (∀ (s : State) (w : Wait) (u : Word) (p : Nat), s.core.wait = some w → w.on = .sleepProm u p → u.toNat ≤ s.cyc →
    Becomes s .promise { s with core := { s.core with wait := none } })
  ∧ (∀ (s : State) (w : Wait) (key : Nat) (t : Task), s.core.wait = some w → w.on = .line key → w.hit = false →
    w.since + 64 * bits s.regs.wlctl 15 0 ≤ s.cyc → s.sched.task = some t → s.mode ≠ 0 →
    Becomes s .waitlnSpinTimeout { s with core := { s.core with wait := some { w with hit := true } } })
  ∧ (∀ (s : State) (w : Wait) (key : Nat), s.core.wait = some w → w.on = .line key → w.hit = true → Becomes s .waitlnSpinTimeout s)
  ∧ (∀ (s : State) (w : Wait) (key : Nat) (t : Task) (inRing : Bool) (place : Nat), s.core.wait = some w → w.on = .line key →
    w.hit = false → w.since + 64 * bits s.regs.wlctl 15 0 ≤ s.cyc → s.sched.task = some t → s.mode = 0 → s.queuesLive = false →
    bit s.regs.frmode 63 = false → s.regs.wl ≤ classSize t.cls → s.poolFull t.cls = false → drainedWindows s t →
    s.parkPlace s.regs.wl = some (inRing, place) →
    ∃ u p, Becomes s .waitlnSpinTimeout u ∧ u.sched.task = none ∧ p ∈ u.sched.parked
      ∧ u.sched.parked.map (·.id) = s.sched.parked.map (·.id) ++ [p.id] ∧ p.task = t ∧ p.inRing = inRing ∧ p.place = place
      ∧ p.words = (List.range s.regs.wl).map (fun k => s.cell (s.regs.wb + k)) ∧ p.remain = s.regs.tbudget
      ∧ descRpc p.desc = rpcOf s.pc s.regs.cbase)
  ∧ (∀ (s : State) (k : Nat) (p : Parked), (lineTasks s)[k]? = some p →
    (p.hit = true → Becomes s (.waitlnLineWritten k) (s.releaseParked p.id))
    ∧ (∀ key t, p.on = .line key t ∨ p.on = .timer t → t + 65536 ≤ s.cyc → Becomes s (.waitlnParkTimeout k) (s.releaseParked p.id)))

/-! ### Events of the engines -/

/-- Channel k of cluster c. -/
def channel (s : State) (c k : Nat) : Chan := mget {} s.eng.chans (16 * c + k)
def withChannel (s : State) (c k : Nat) (x : Chan) : State := { s with eng := { s.eng with chans := mput {} s.eng.chans (16 * c + k) x } }

/-- The region of a channel's record, opened at its fetch and closed with its completion (R125): a command's of the core that kicked it. -/
def recordOpen (s : State) (c k : Nat) : State :=
  s.addOther { id := 2 ^ 40 + (16 * c + k), agent := .ce, device := s.regs.devnum, core := (channel s c k).by_,
               own := (channel s c k).by_ = s.core.number }
def recordClosed (s : State) (c k : Nat) : State :=
  { s with mem := { s.mem with
      others := s.mem.others.filter fun o => !o.isCmd .ce (2 ^ 40 + (16 * c + k))
      tables := mmap [] (List.filter fun q => !(s.cmdRun .ce (2 ^ 40 + (16 * c + k)) 0 0).ofRegion q) s.mem.tables } }

/-- A word that a channel has stored by a release, for the hart whose kick it paired with (R95, R127). -/
def chanMails (x : Chan) (who : Who) (va : Word) (s : State) : State :=
  match x.pair with
  | some n => s.addMail who va 8 n
  | none => s

/-- Who accesses memory for a channel of cluster c: the address space and privilege of the hart that wrote CFG (R19, R26, R259). -/
def channelWho (c : Nat) (x : Chan) : Who := { asid := bits x.cfg 31 16, sup := x.sup, noDev := true, via := .cluster c, own := some x.by_ }

/-- The release of an engine's completion at a width (R112, R127). -/
def releaseAt (width : Nat) (s : State) : State := if 3 ≤ width then s.writeBack else s

/-- A release of system width by an engine none of whose writes a link took: those that it waited for are over (R136). -/
def linkDone (s : State) (agent : Agent) (id width : Nat) : State :=
  if width = 4 then { s with core := { s.core with overLink := s.core.overLink.filter fun w => w.hart ≠ some (s.engHart agent id) } } else s

/-- R126, R128, R130, R259 to R261: the copy channels: KICK queues a chain, CFG and STAT start and clear, FREE returns a buffer, and a
record is fetched, numbered, performed and reported. That one record is fetched, performed and completed before the next, and that a disabled
channel serves a kick as an empty chain, are the model's choices (log entries 40 and 60). -/
def Obligations.ChannelEvents : Prop :=
  (∀ (s : State) (c k core : Nat) (v : Word),
    (¬ 64 ∣ v.toNat → Becomes s (.kick c k ⟨core, v⟩) (withChannel s c k { channel s c k with kick := v, badkick := true }))
    ∧ (64 ∣ v.toNat → (channel s c k).kicks.length < 8 → bit (channel s c k).cfg 63 = true →
      Becomes s (.kick c k ⟨core, v⟩) (withChannel s c k { channel s c k with
        kick := v, kicks := (channel s c k).kicks ++ [⟨v, none, core, if core = s.core.number then s.taskLnid else 0⟩] }))
    ∧ (64 ∣ v.toNat → (channel s c k).kicks.length < 8 → bit (channel s c k).cfg 63 = false →
      Becomes s (.kick c k ⟨core, v⟩) (withChannel s c k { channel s c k with kick := v }))
    ∧ (64 ∣ v.toNat → 8 ≤ (channel s c k).kicks.length → Becomes s (.kick c k ⟨core, v⟩) { s with retry := true }))
  ∧ (∀ (s : State) (c k : Nat) (v cfg : Word), cfg = wd (fld (bit v 63).toNat 63 + fld (bits v 34 32) 32 + fld (s.regs.asid % 65536) 16) →
    (bit v 63 = false → Becomes s (.cfg c k v)
      (withChannel s c k { channel s c k with
        cfg := cfg, sup := s.mode = 2, walk := if (channel s c k).waiting.isSome then (channel s c k).walk else 0, kicks := [] }))
    ∧ (bit v 63 = true → (channel s c k).walk = 0 → bit (channel s c k).cfg 63 = false → Becomes s (.cfg c k v)
      (withChannel s c k { channel s c k with
        cfg := cfg, sup := s.mode = 2, nextid := 1, completed := 0, frees := [], receivers := [] })))
  ∧ (∀ (s : State) (c k : Nat) (v : Word), bit v 62 = true → bit v 61 = false → (channel s c k).halt = true →
    Becomes s (.haltResume c k v) (withChannel s c k { channel s c k with
      halt := false, walk := if bit (channel s c k).cfg 63 then (channel s c k).faultrec else 0 }))
  ∧ (∀ (s : State) (c k : Nat) (v : Word), mget 0 (channel s c k).frees (bits v 3 0) < mget 0 (channel s c k).receivers (bits v 3 0) →
    Becomes s (.free c k v) (withChannel s c k { channel s c k with
      free := v, frees := mput 0 (channel s c k).frees (bits v 3 0) (mget 0 (channel s c k).frees (bits v 3 0) + 1) }))
  ∧ (∀ (s y z : State) (c k id e : Nat) (who : Who) (bs : List Byte) (x : Chan), x = channel s c k → k < 16 → bit x.cfg 63 = true →
    x.halt = false → x.walk ≠ 0 → x.waiting = none → s.dieOf c = s.die → who = channelWho c x → e = 2 ^ 40 + (16 * c + k) →
    (recordOpen (withChannel s c k x).selfInvalidate c k).engineRead .ce e who x.walk 64 15 false true = .ok (bs, y) →
    (bit (wordOf ((bs.drop 56).take 8)) 0 = false →
      Becomes s (.transferRecord c k) (withChannel (recordClosed y c k) c k { x with walk := 0 }))
    ∧ (bit (wordOf ((bs.drop 56).take 8)) 0 = true → id = x.nextid % 2 ^ 48 →
      y.engineWrite .ce e who (x.walk + 48) (wordBytes (wd id)) 15 = .ok z →
      Becomes s (.transferRecord c k) (withChannel z c k { x with
        nextid := (x.nextid + 1) % 2 ^ 48, waiting := some (id, bs) })))
  ∧ (∀ (s y1 y2 y3 y4 y5 : State) (c k id width e : Nat) (who : Who) (bs data : List Byte) (r : XRec) (x : Chan), x = channel s c k →
    k < 16 → x.halt = false → x.walk ≠ 0 → x.waiting = some (id, bs) → s.dieOf c = s.die → who = channelWho c x →
    e = 2 ^ 40 + (16 * c + k) → r = xrecOf bs → r.formOk = true → r.multi = false → r.bar = 0 →
    (withChannel s c k x).engineRead .ce e who r.src r.len r.nud = .ok (data, y1) → y1.engineWrite .ce e who r.dst data r.nud = .ok y2 →
    width = (if 1 ≤ bits x.cfg 34 32 ∧ bits x.cfg 34 32 ≤ 5 then bits x.cfg 34 32 - 1 else 4) →
    (∀ w ∈ y2.eng.lostWrites, w.1 ≠ y2.engHart .ce e) → y3 = releaseAt width (linkDone (releaseAt width y2) .ce e width) →
    y3.engineWrite .ce e who (x.walk + 56) (wordBytes (wd (fld data.length 32))) 15 false true = .ok y4 → channel y4 c k = x →
    (chanMails x who (x.walk + 56) y4).engineWrite .ce e who x.cidaddr (wordBytes (wd id)) 15 false true = .ok y5 → channel y5 c k = x →
    Becomes s (.transferRecord c k) (withChannel (recordClosed (releaseAt width (chanMails x who x.cidaddr y5)) c k) c k
      { x with completed := id, waiting := none, walk := if bit x.cfg 63 then r.next else 0 }))
  ∧ (∀ (s : State) (c k : Nat), k < 16 → (channel s c k).halt = true ∨ (bit (channel s c k).cfg 63 = false ∧ (channel s c k).waiting = none) →
    Becomes s (.transferRecord c k) s)

/-- An ACOPY, or a gather command, as the engine knows its party (R95). -/
def party (s : State) (agent : Agent) (id : Nat) : Other :=
  { id := id, agent := agent, device := s.regs.devnum, core := s.core.number, own := true }

/-- Who accesses memory for an ACOPY: its cluster's engine, in the address space and mode of its issuer. -/
def copyWho (s : State) (a : Acopy) : Who := { asid := a.asid, sup := a.sup, noDev := true, via := .cluster (clusterOf s.core.number) }

/-- The ACOPY itself gone. -/
def endAcopy (s : State) (id : Nat) : State := { s with eng := { s.eng with acopy := s.eng.acopy.filter fun x => x.id ≠ id } }

/-- R71 to R73, R127, R255 to R258: the copy engine accepts and completes the oldest ACOPY, and the gather engine serves and reports the
oldest command. -/
def Obligations.CopyEngineEvents : Prop :=
  (∀ (s t : State) (a : Acopy) (bs : List Byte), s.eng.acopy.find? (fun a => !a.accepted) = some a → a.len ≠ 0 →
    (s.selfInvalidate.addOther (party s .ce a.id)).engineRead .ce a.id (copyWho s a) a.src a.len a.nud = .ok (bs, t) →
    ∃ p : Word, s.cyc % 2 ^ 64 ≤ p.toNat ∧ Becomes s .acopyAccept { t.fillToken a.id [p] with
          eng := { (t.fillToken a.id [p]).eng with acopy := (t.fillToken a.id [p]).eng.acopy.map fun x =>
            if x.id = a.id then { a with accepted := true, data := bs } else x } })
  ∧ (∀ (s t : State) (a : Acopy), s.eng.acopy.find? (fun a => a.accepted) = some a → a.fault = none → a.bar = 0 →
    s.engineWrite .ce a.id (copyWho s a) a.dst a.data a.nud = .ok t → (∀ w ∈ t.eng.lostWrites, w.1 ≠ t.engHart .ce a.id) →
    Becomes s .acopyComplete (endAcopy (((linkDone (releaseAt (s.scopeWidth a.scope) t) .ce a.id (s.scopeWidth a.scope)).endCommand .ce
      a.id).fillToken (a.id + 1) [wd (fld a.data.length 39)]) a.id))
  ∧ (∀ (s : State) (a : Acopy) (st : Word), s.eng.acopy.find? (fun a => a.accepted) = some a → a.fault = some st →
    bits st 31 24 ≠ cMEMLOST → st ≠ 0 → (∀ w ∈ s.eng.lostWrites, w.1 ≠ s.engHart .ce a.id) →
    Becomes s .acopyComplete (endAcopy (((linkDone (releaseAt (s.scopeWidth a.scope) s) .ce a.id (s.scopeWidth a.scope)).endCommand .ce
      a.id).fillToken (a.id + 1) [st]) a.id))
  ∧ (∀ (s y : State) (g : Gather) (l : Lane), s.eng.gather.find? (fun g => !g.served) = some g → g.lanes = [l] → l.fault = none → g.next = 0 →
    (s.addOther (party s .gather g.id)).serveLane g 0 l = .ok y →
    Becomes s .gatherEngineServe { y with eng := { y.eng with gather := y.eng.gather.map fun x =>
      if x.id = g.id then { g with mask := g.mask ||| 1, served := true } else x } })
  ∧ (∀ (s t : State) (g : Gather) (st : Word), s.eng.gather.find? (fun g => g.served) = some g → g.status / 2 ^ 24 % 256 ≠ cMEMLOST →
    (∀ w ∈ s.eng.lostWrites, w.1 ≠ s.engHart .gather g.id) →
    st = wd (if g.status = 0 then (if g.scatter then 2 ^ 18 else 0) else g.status) →
    t = ((linkDone s .gather g.id g.width).endCommand .gather g.id).fillToken g.id [wd g.mask, st] →
    Becomes s .gatherTokenFill { t with eng := { t.eng with gather := t.eng.gather.filter fun x => x.id ≠ g.id } })

/-- The completion record of a request (R325): DONE, INFO, CYC, and V, STATUS, CAUSE and SEQ. -/
def completion (r : IoReq) (done info cyc st : Nat) : List Byte :=
  [wd done, wd info, wd cyc, wd (fld 1 63 + fld (st % 128) 56 + r.seq % 2 ^ 48)].flatMap wordBytes

/-- Who accesses memory for a request. -/
def ioWho (r : IoReq) : Who := { asid := r.asid, sup := r.sup, via := .die 0 }

/-- An acquire of system scope, and a release, by a unit of the module: the I/O engine, a system core, the collective engine. They lie on die
0, whose RDC they use (log entry 5). -/
def unitAcquired (s : State) : State := if s.die = 0 then s.selfInvalidate else s
def unitReleased (width : Nat) (s : State) : State := if 3 ≤ width ∧ s.die = 0 then s.writeBack else s

/-- The request r is over: its record written, the last word as a release of its scope that the issuing hart's first read acquires (R95,
R131), and no link has taken a write of its (R136). -/
def recorded (s t : State) (r : IoReq) (done info st : Nat) : Prop :=
  ∃ (width : Nat) (z u v : State), width = s.scopeWidth r.scope ∧ (∀ w ∈ s.eng.lostWrites, w.1 ≠ s.engHart .io r.id)
    ∧ z = linkDone s .io r.id width
    ∧ z.engineWrite .io r.id (ioWho r) (r.desc.getD 3 0) ((completion r done info s.cyc st).take 24) 15 z.unitsFar = .ok u
    ∧ (unitReleased width u).engineWrite .io r.id (ioWho r) (r.desc.getD 3 0 + 24) ((completion r done info s.cyc st).drop 24) 15
        u.unitsFar true = .ok v
    ∧ t = (let w := (unitReleased width (v.addMail (ioWho r) (r.desc.getD 3 0 + 24) 8 width)).endCommand .io r.id
           { w with eng := { w.eng with io := w.eng.io.filter fun x => x.id ≠ r.id } })

/-- R131, R324 to R327: the I/O engine accepts the oldest request, and completes one when its device answers, when it has waited 2^32 cycles,
or when a frame arrives for it. Where the I/O engine lies, the point at which it reads a buffer, and STATUS and DONE beside a fault are the
model's choices (log entries 5 and 41). -/
def Obligations.IoEvents : Prop :=
  (∀ (s y : State) (r q : IoReq) (ps : List Piece), s.eng.io.find? (fun r => !r.accepted) = some r → r.kind = 0 ∨ r.kind = 3 →
    s.enginePieces (ioWho r) .write (r.desc.getD 3 0) 32 = .ok (ps, y) →
    (∀ p ∈ ps, p.loc.what = .memory ∧ p.loc.mt = 0) → q = { r with accepted := true, seq := y.eng.ioSeq % 2 ^ 48, since := y.cyc } →
    ∃ z, Becomes s .ioAccept z ∧ z = (let w := ({ (unitAcquired y).addOther (party y .io r.id) with
          eng := { y.eng with ioSeq := y.eng.ioSeq + 1 } } : State).fillToken r.id [wd q.seq]
        let v : State := { w with eng := { w.eng with io := w.eng.io.map fun x => if x.id = r.id then q else x } }
        if r.kind = 0 then { v with sys := { v.sys with
          out := v.sys.out ++ [.storageRead (r.desc.getD 2 0).toNat (bits (r.desc.getD 1 0) 31 0)] } } else v))
  ∧ (∀ (s t y : State) (r : IoReq) (seq : Nat) (x : IoAnswer), s.eng.io.find? (fun r => r.accepted && r.seq = seq) = some r → r.kind = 0 →
    x.status = 0 → s.engineWrite .io r.id (ioWho r) (r.desc.getD 0 0)
      ((List.range (bits (r.desc.getD 1 0) 31 0)).map fun j => x.data.getD j 0) r.nud s.unitsFar = .ok y →
    recorded y t r (bits (r.desc.getD 1 0) 31 0) (bits x.info 15 0) 0 → Becomes s (.ioComplete seq x) t)
  ∧ (∀ (s t : State) (r : IoReq) (seq : Nat) (x : IoAnswer), s.eng.io.find? (fun r => r.accepted && r.seq = seq) = some r → r.kind = 1 →
    x.status = 0 → recorded s t r (bits (r.desc.getD 1 0) 31 0) (bits x.info 15 0) 0 → Becomes s (.ioComplete seq x) t)
  ∧ (∀ (s t : State) (r : IoReq) (seq : Nat) (x : IoAnswer), s.eng.io.find? (fun r => r.accepted && r.seq = seq) = some r → r.kind = 1 →
    x.status = 2 → recorded s t r 0 (bits x.info 15 0) 2 → Becomes s (.ioComplete seq x) t)
  ∧ (∀ (s t : State) (r : IoReq) (seq : Nat), s.eng.io.find? (fun r => r.accepted && r.seq = seq) = some r → r.kind = 1 →
    r.accepted = true → r.since + 2 ^ 32 ≤ s.cyc → recorded s t r 0 0 3 → Becomes s (.ioTimeout seq) t)
  ∧ (∀ (s t y : State) (r : IoReq) (q : Nat) (bytes : List Byte),
    s.eng.io.find? (fun r => r.accepted && r.kind = 3 && bits (r.desc.getD 2 0) 5 0 = q) = some r →
    bytes.length ≤ bits (r.desc.getD 1 0) 31 0 → bytes.length < 65536 →
    s.engineWrite .io r.id (ioWho r) (r.desc.getD 0 0) bytes r.nud s.unitsFar = .ok y →
    recorded y t r bytes.length bytes.length 0 → Becomes s (.frameReceived q bytes false) t)
  ∧ (∀ (s : State) (q : Nat) (bytes : List Byte) (bad : Bool),
    s.eng.io.find? (fun r => r.accepted && r.kind = 3 && bits (r.desc.getD 2 0) 5 0 = q) = none → Becomes s (.frameReceived q bytes bad) s)

/-- R125, R127, R437: COLLKICK queues a record with the address space of its hart, and the engine serves the oldest: it reads its record and
its buffer, whose bytes leave for the other members of the group, and leaves its result, or the status that says why not, in the record's
last word, by a release that the kicking hart's first read acquires where it pairs with its kick. The record's form and the place of its
checks are the model's reading (log entry 42). -/
def Obligations.CollectiveEvents : Prop :=
  (∀ (s : State) (v : Word), Becomes s (.collkick v)
    { s with sched := { s.sched with collkick := v, collKicks := s.sched.collKicks ++ [⟨v, s.regs.asid, none, s.taskLnid⟩] } })
  ∧ (∀ (s x y z u : State) (k : CollKick) (rest : List CollKick) (data : List (Nat × List Byte)) (fabric st : Nat) (bs : List Byte) (who : Who),
    s.sched.collKicks = k :: rest → 64 ∣ k.va.toNat → who = { asid := k.asid, sup := true, via := .die 0 } →
    x = (unitAcquired s).addOther (party s .collective 0) →
    x.engineRead .collective 0 who k.va 64 15 x.unitsFar true = .ok (bs, y) →
    (match y.collRead who (fun k => wordOf ((bs.drop (8 * k)).take 8)) fabric with
      | .ok ((group, own), v) =>
        (match (v.post (.collective group own)).collWrite who (fun k => wordOf ((bs.drop (8 * k)).take 8)) group own data with
          | .ok w => st = 0 ∧ z = w
          | .error (.status n) => st = n ∧ z = v.post (.collective group own)
          | .error (.absent _) => False)
      | .error (.status n) => st = n ∧ z = y
      | .error (.absent _) => False) → st ≠ 3 →
    (unitReleased 4 z).engineWrite .collective 0 who (k.va + 56) (wordBytes (wd (fld 1 63 + st))) 15 (unitReleased 4 z).unitsFar true = .ok u →
    ∃ (t : State), t = (unitReleased 4 (match k.pair with
        | some n => u.addMail who (k.va + 56) 8 n
        | none => u)).endCommand .collective 0
      ∧ Becomes s (.collectiveRecord data fabric) { t with sched := { t.sched with collKicks := rest } })
  ∧ (∀ (s : State) (w : Nat → Word) (who : Who) (fabric : Nat),
    2 ≤ bits (w 0) 63 60 ∨ bits (w 3) 63 48 = 0 ∨ w 6 ≠ 0 → s.collRead who w fabric = .error (.status 1))

/-! ### Events of the scheduler -/

/-- A delivered record as it stands in its inbox. -/
def arrived (s : State) (x : Delivery) (cls : Nat) (window : Option PoolEntry) : Arrived :=
  { d := x, cls := cls, high := false, window := window, seq := s.sched.arrivals }

/-- The core's words after a record has been delivered into a window (R158, R160): w0 is 0, words 2 to 7 the payload, and the words above
them 0, unless the handler asked for none and the window was its own ASID's. -/
def windowFilled (m : SMap Cell) (base cls : Nat) (r : Rec) (zero : Bool) : SMap Cell :=
  let m := mputs (.full 0) (mput (.full 0) m base (.full 0)) (base + 2) ([r.w2, r.w3, r.w4, r.w5, r.w6, r.w7].map .full)
  if zero then mputs (.full 0) m (base + 8) (List.replicate (classSize cls - 8) (.full 0)) else m

/-- R158, R160, R312, R321, R347, R348, R394: a record that arrives takes a window and enters the inbox, or spills; the free core takes its
first work, or acknowledges a request for pre-emption, or waits for a steal. The order of a dispatch's parts and the slot numbers are the
model's (log entries 27 and 28). -/
def Obligations.DispatchEvents : Prop :=
  (∀ (s : State) (x : Delivery) (h : Head) (e : PoolEntry) (es : List PoolEntry), s.sched.flying = [] → s.sched.held = [] →
    s.sched.spilled = [] → bit s.regs.frmode 63 = false → s.readHead x.ctx x.r.w0 = .ok h → h.high = false →
    s.sched.inbox.length < 128 → mget [] s.sched.pools (h.cls % 4) = e :: es →
    (s.opt.domain = none ∨ s.sched.domqPassed = false ∨ es ≠ []) →
    ∃ (t : State), Becomes s (.recordDelivery x) t ∧ t.sched.pools = mput [] s.sched.pools (h.cls % 4) es
      ∧ (∀ a, a ∈ t.sched.inbox ↔ a = arrived s x h.cls (some e) ∨ a ∈ s.sched.inbox)
      ∧ t.core.store = windowFilled s.core.store e.base h.cls x.r (!(h.nozero && e.owner = x.ctx.asid.toNat)))
  ∧ (∀ (s : State) (x : Delivery) (h : Head), s.sched.flying = [] → s.sched.held = [] → s.sched.spilled = [] →
    bit s.regs.frmode 63 = false → s.readHead x.ctx x.r.w0 = .ok h → h.high = false → mget [] s.sched.pools (h.cls % 4) = [] →
    (∀ k y, (s.headSeen x.ctx x.r.w0).ringSlot = some k → y = (s.headSeen x.ctx x.r.w0).writeRing k x.r.words →
      Becomes s (.recordDelivery x) { y with sched := { y.sched with
        arrivals := y.sched.arrivals + 1, spilled := [{ arrived s x h.cls none with slot := k }] } })
    ∧ (∀ y, (s.headSeen x.ctx x.r.w0).ringSlot = none → y = (s.headSeen x.ctx x.r.w0).pullRing 1 → Becomes s (.recordDelivery x)
      { y with sched := { y.sched with arrivals := y.sched.arrivals + 1, held := [arrived s x h.cls none] } }))
  ∧ (∀ (s : State) (a : Arrived), s.sched.held = [a] → s.lateEntry = none → a.d.key = none → Becomes s .overflowReoffer
    (({ s with sched := { s.sched with held := [] } } : State).deliver a.d))
  ∧ (∀ (s : State) (a : Arrived) (k : Key), s.sched.held = [a] → s.lateEntry = none → a.d.key = some k → s.mode ≠ 2 →
    Becomes s .overflowReoffer (({ s with sched := { s.sched with held := [] } } : State).optEnter a.d))
  ∧ (∀ (s v : State) (a : Arrived) (rest : List Arrived) (e : PoolEntry) (h : Head), s.sched.task = none →
    bit (mget 0 s.sched.preempt s.core.number) 0 = false → s.sched.high = [] → bit s.regs.frmode 63 = false → s.sched.resume = [] →
    s.sched.spilled = [] → s.opt.domain = none → s.sched.inbox = a :: rest → a.window = some e → a.d.key = none → a.cls < 4 →
    v = { s with sched := { s.sched with inbox := rest.filter fun b => b.seq ≠ a.seq } } → s.readHead a.d.ctx a.d.r.w0 = .ok h →
    v.readHead a.d.ctx a.d.r.w0 = .ok h → h.optimistic = false → h.spans a.d.r = [] →
    ∃ (t : State) (u : Task), Becomes s .dispatch t ∧ t.sched.task = some u ∧ u.entered = true ∧ u.record = a.d.r ∧ u.launch = a.d.ctx
      ∧ t.pc = entryOf a.d.r.w0 ∧ t.mode = 0 ∧ t.regs.wb = e.base ∧ t.regs.wl = classSize a.cls ∧ t.regs.tclk = 0
      ∧ t.regs.tbudget = h.budget ∧ t.regs.asid = a.d.ctx.asid.toNat % 65536 ∧ t.regs.cbase = a.d.ctx.cbase ∧ t.core.region = {}
      ∧ t.sched.inbox = rest.filter fun b => b.seq ≠ a.seq)
  ∧ (∀ (s : State), s.sched.task = none → s.sched.low = none → bit (mget 0 s.sched.preempt s.core.number) 0 = true →
    Becomes s .dispatch { s with sched := { s.sched with
      preempt := mput 0 s.sched.preempt s.core.number (mget 0 s.sched.preempt s.core.number ||| wd (2 ^ 63)) } })
  ∧ (∀ (s : State), s.sched.task = none → s.work = none → (s.sched.resume.any fun r => r.hold) = true → s.core.freeSince + 4096 ≤ s.cyc →
    Becomes s .yieldHoldExpiry { s with sched := { s.sched with resume := s.sched.resume.map fun r => { r with hold := false } } })
  ∧ (∀ (s : State) (t : Nat), s.sched.stealWait = some t → t ≤ s.cyc →
    Becomes s .stealRoundWait { s with sched := { s.sched with stealWait := none } })
  ∧ (∀ (s u x y v : State) (t : Task) (off : Nat) (va : Word) (n : Nat) (rest : List (Nat × Word × Nat)) (ps : List Piece) (bs : List Byte),
    s.sched.task = some t → t.placing = (off, va, n) :: rest →
    s.openPieces { asid := s.regs.asid, sup := false, noDev := true, via := .cluster (clusterOf s.core.number) } .read va n n false
      = .ok (ps, u) →
    (s.optimistic = false ∨ ∀ p ∈ ps, p.loc.what ≠ .store) → u.meetNone .read va ps false = .ok () →
    u.record ps true false false true = .ok x → x.readPieces 15 .die true ps = (bs, none, y) →
    v = y.writeHome (storeKey y.core.number off) bs →
    Becomes s .footprintFetch { v with sched := { v.sched with task := some { t with
      placing := rest, entered := rest.isEmpty && !t.proc && t.restoreArea.isNone } } })

/-- R338, R340, R347, R394, R397: the registers of the scheduler that other agents write, and the launch engine. -/
def Obligations.SchedulerRegisterEvents : Prop :=
  (∀ (s : State) (q : Nat) (v : Word) (x : LQueue), x = mget {} s.sched.queues q →
    (x.size < (bits v 31 0 + 2 ^ 32 - x.head) % 2 ^ 32 → Becomes s (.lqtail q v) s)
    ∧ ((bits v 31 0 + 2 ^ 32 - x.head) % 2 ^ 32 ≤ x.size →
      Becomes s (.lqtail q v) { s with sched := { s.sched with queues := mput {} s.sched.queues q { x with tail := v } } }))
  ∧ (∀ (s : State) (v : Word), bit v 0 = false → mwf 0 s.sched.preempt = true →
    Becomes s (.preempt v) { s with sched := { s.sched with preempt := mput 0 s.sched.preempt s.core.number 0 } })
  ∧ (∀ (s : State) (v : Word), bit v 0 = true → bit (mget 0 s.sched.preempt s.core.number) 63 = false → s.sched.task.isSome = true →
    Becomes s (.preempt v) { s with sched := { s.sched with preempt := mput 0 s.sched.preempt s.core.number 1 } })
  ∧ (∀ (s : State) (v : Word), Becomes s (.stealseed v) { s with sched := { s.sched with
      stealseed := v &&& 0xFFFF
      stealGen := if bits v 15 0 ^^^ (s.core.number % 65536) = 0 then 1 else bits v 15 0 ^^^ (s.core.number % 65536) } })
  ∧ (∀ (s : State) (v : Word), Becomes s (.errcnt v) { s with sched := { s.sched with errUncorr := bits v 63 32, errCorr := bits v 31 0 } })
  ∧ (∀ (s u : State) (q : Nat) (l : Launch) (r : Nat × Rec), s.endingLaunch q = none → s.rootQueue = some q → s.rootLaunch q = some l →
    l.roots = [r] →
    u = s.updLaunch l.lnid (fun l => { l with roots := l.roots.drop (max 1 (bits (mget {} s.sched.queues q).cfg 3 0)) }) →
    Becomes s (.launchStart q) (({ u with sched := { u.sched with
        rootTurns := mput 0 u.sched.rootTurns (bits (mget {} s.sched.queues q).cfg 9 8) (q + 1) } } : State).sendRecord r.1
        { r := r.2, ctx := l.ctx, scope := packageScope, sender := noCore }))
  ∧ (∀ (s y : State) (q : Nat) (l : Launch) (ws : List Word) (roots : List (Nat × Rec)), s.endingLaunch q = none → s.rootQueue ≠ some q →
    s.readingLaunch q = some l → l.reading = some ws → s.readRoots (fun k => ws.getD k 0) = .ok (.ok (roots, y)) →
    y.eventPull (bits (ws.getD 7 0) 63 48) (bits (ws.getD 7 0) 47 32) = none →
    Becomes s (.launchStart q) (((List.range (bits (ws.getD 7 0) 47 32)).foldl
      (fun s i => s.updateEvent (bits (ws.getD 7 0) 63 48 + i) 0) (unitReleased 4 y)).updLaunch l.lnid fun l =>
        { l with live := roots.length, roots := roots, reading := none }))
  ∧ (∀ (s : State) (q : Nat) (l : Launch) (ws : List Word), s.endingLaunch q = none → s.rootQueue ≠ some q →
    s.readingLaunch q = some l → l.reading = some ws → s.readRoots (fun k => ws.getD k 0) = .ok (.error 0) →
    Becomes s (.launchStart q) (s.launchEnd l 2))
  ∧ (∀ (s u : State) (q : Nat), s.endingLaunch q = none → s.rootQueue ≠ some q → s.readingLaunch q = none → s.startable q = true →
    u = unitAcquired s → (∀ a ∈ s.sched.appended, ¬ (a.q = q ∧ a.index = (mget {} s.sched.queues q).head)) →
    (launchForm (fun k => u.launchWord (u.queueEntry q) k) none = true →
      ∃ (t : State) (l : Launch), Becomes s (.launchStart q) t ∧ l ∈ t.sched.launches ∧ l.q = q ∧ l.lnid = s.sched.nextLnid
        ∧ l.pa = u.queueEntry q ∧ l.started = true ∧ l.reading = some ((List.range 8).map fun k => u.launchWord (u.queueEntry q) k)
        ∧ (mget {} t.sched.queues q).head = ((mget {} s.sched.queues q).head + 1) % 2 ^ 32 ∧ t.sched.nextLnid = s.sched.nextLnid + 1
        ∧ t.mem = (u.writePhysMem (u.queueEntry q + 192) (wordBytes (wd s.sched.nextLnid))).mem)
    ∧ (6 ≤ bits (u.launchWord (u.queueEntry q) 3) 18 16 →
      ∃ (v : State) (l : Launch), Becomes s (.launchStart q) (v.launchEnd l 1) ∧ l.q = q ∧ l.pa = u.queueEntry q))

/-- No record of an optimistic message waits in the fabric or in the ring. -/
def nonePending (s : State) : Prop := s.sched.flying = [] ∧ s.sched.held = [] ∧ s.sched.spilled = []

/-- R363 to R366: an optimistic message enters the domain queue, a straggler after the rollback of what follows it, an anti-message takes it out
again, and GVT is reported and installed, never lower than before. What a rollback undoes: stores by the old values of their words, and
handlers by the return of their records. The time of a report, and that held messages count in it, are the model's choices (log entries 31
and 52). -/
def Obligations.OptimisticEvents : Prop :=
  (∀ (s : State), Becomes s .gvtReport { s with
      opt := { s.opt with reported := some s.leastKey, reportAt := s.cyc / (64 * max 1 (bits s.sched.gvtctl 15 0)) }
      sys := { s.sys with out := s.sys.out ++ [.gvt s.leastKey] } })
  ∧ (∀ (s : State), s.handlerKey = none → s.sched.domq = [] → s.sched.spilled = [] → s.sched.held = [] → s.opt.unacked = [] →
    s.core.wait = none → (∀ p ∈ s.savedTasks, bit p.stat 9 = false) → s.leastKey = infKey)
  ∧ (∀ (s : State) (k : Key), k ∈ s.opt.unacked ∨ (∃ w n, s.core.wait = some w ∧ w.on = .gvt n k true) → k.lt s.leastKey = false)
  ∧ (∀ (s : State) (k own g : Key), s.opt.reported = some own → (s.opt.seed = false ∨ Key.min k own ≠ infKey) →
    (∀ w n x, s.core.wait = some w → w.on ≠ .gvt n x false) →
    g = (match s.opt.gvt with
      | some old => if (Key.min k own).lt old then old else Key.min k own
      | none => Key.min k own) →
    Becomes s (.gvtInstall k) (({ s with opt := { s.opt with
      gvt := some g, seed := false, installs := s.opt.installs + 1, reported := none, peerKey := none } } : State).harvest g))
  ∧ (∀ (s : State) (k own old x : Key) (w : Wait), s.opt.reported = some own → s.opt.gvt = some old → s.opt.seed = false →
    s.core.wait = some w → w.on = .gvt (s.opt.installs + 1) x false → x.lt old = false → x.lt (Key.min k own) = false →
    ∃ (t : State), Becomes s (.gvtInstall k) t ∧ t.core.wait = some { w with on := .gvt (s.opt.installs + 1) x true })
  ∧ (∀ (s : State) (k own : Key), s.opt.reported = some own → s.opt.seed = true → Key.min k own = infKey →
    Becomes s (.gvtInstall k) { s with opt := { s.opt with reported := none, peerKey := none } })
  ∧ (∀ (s : State) (k : Key), s.opt.reported = none → Becomes s (.gvtInstall k) { s with retry := true })
  ∧ (∀ (s u y v : State) (x : Delivery) (k : Key) (a : Arrived), s.sched.flying = [] → s.sched.held = [] → x.key = some k →
    (∀ page, s.readHead x.ctx x.r.w0 ≠ .absent page) →
    a = { d := x, cls := (s.readHead x.ctx x.r.w0).head.cls, seq := s.sched.arrivals } → u = s.headSeen x.ctx x.r.w0 →
    y = { u with sched := { u.sched with arrivals := u.sched.arrivals + 1 } } →
    (u.straggles k = false → u.sched.domq.length < 128 → Becomes s (.optimisticArrival x) { y with
      sched := { y.sched with domq := insertKey a y.sched.domq }
      opt := { y.opt with unacked := y.opt.unacked.erase k } })
    ∧ (u.straggles k = true → u.sched.domq.length < 128 → v = y.rollback k false → v.sched.domq.length < 128 →
      Becomes s (.optimisticArrival x) { v with
        sched := { v.sched with domq := insertKey a v.sched.domq }
        opt := { v.opt with unacked := v.opt.unacked.erase k } })
    ∧ (128 ≤ u.sched.domq.length → y.ringSlot = none → v = y.pullRing 1 → Becomes s (.optimisticArrival x)
      { v with sched := { v.sched with held := [a] } }))
  ∧ (∀ (s u : State) (k key : Key), s.sched.resume = [] → s.handlerKey = none → k.lt key = true →
    (∀ off old, s.opt.bittern = [{ key := key, off := off, old := old }] → s.opt.output = [] →
      u = s.writeHome (storeKey s.core.number off) (wordBytes old) →
      s.rollback k false = { u with opt := { u.opt with
        bittern := [], output := [], domain := s.opt.domain.map fun d => { d with rollbacks := d.rollbacks + 1 } } })
    ∧ (∀ d, s.opt.bittern = [] → s.opt.output = [⟨key, .proc d⟩] →
      u = ({ s with opt := { s.opt with output := [], domain := s.opt.domain.map fun d => { d with undone := d.undone + 1 } } } : State).requeue d →
      s.rollback k false = { u with opt := { u.opt with domain := u.opt.domain.map fun d => { d with rollbacks := d.rollbacks + 1 } } }))
  ∧ (∀ (s : State) (k : Key), nonePending s → (∃ a ∈ s.sched.domq, a.d.key = some k) →
    Becomes s (.antiMessageArrival k) { s with
      opt := { s.opt with
        unacked := s.opt.unacked.erase k
        domain := s.opt.domain.map fun d => { d with annihil := d.annihil + 1 } }
      sched := { s.sched with domq := s.sched.domq.filter fun a => a.d.key ≠ some k } })

/-! ### Events of the host, of other devices and of the module -/

/-- One message leaves the partition. -/
def sentOut (s : State) (m : Sent) : State := { s with sys := { s.sys with out := s.sys.out ++ [m] } }

/-- R397, R398: an error corrected, or one that could not be: the count in ERRCNT, stopping at all ones, and an error record. -/
def corrected (s : State) : State :=
  sentOut { s with sched := { s.sched with errCorr := min (s.sched.errCorr + 1) 0xFFFFFFFF } } (.errorRecord 0 0)
def uncorrected (s : State) : State :=
  sentOut { s with sched := { s.sched with errUncorr := min (s.sched.errUncorr + 1) 0xFFFFFFFF } } (.errorRecord cMEMLOST 0)

/-- An access from outside at a local address: where it lies, on a page that is present. -/
def outsideAt (s : State) (pa key : Nat) : Prop := s.memKey (s.regs.devnum * 2 ^ 48 + pa) = some key ∧ s.pullCode pa = 0

/-- A host access, which is synchronising, meets the core's live region (R122, R123). -/
def hostMeets (s : State) (x : ExtAccess) (key : Nat) : Option Nat := s.core.region.masks.meets x.write true key x.len

/-- No live region of another core of this device meets a host access. -/
def noPeerMeets (s : State) (x : ExtAccess) (key : Nat) : Prop :=
  ∀ o ∈ s.mem.others, o.own = false → o.agent = .core → o.masks.meets x.write true key x.len = none

/-- What a write from outside leaves: exactly its bytes at their home, the L1's copies above it recalled (R50, R122). -/
def outsideStore (s : State) (x : ExtAccess) (key : Nat) : State :=
  (s.recallRange key x.len).writeHome key ((List.range x.len).map fun j => x.bytes.getD j 0)

/-- R122, R123, R433, R436, R442: what the host and other devices read and write, past every cache; a live region
of this core that a host access meets is left first, one of another core is waited for, and another device's access that meets one fails. The
order in which these accesses happen, and that the host's are past every cache, are the model's reading (log entries 43 and 44); a strict partition
serves another device in its slots (log entry 65). -/
def Obligations.OutsideAccesses : Prop :=
  (∀ (s : State) (x : ExtAccess) (key : Nat), x.pa < 2 ^ 40 → x.write = true → outsideAt s x.pa key → hostMeets s x key = none → noPeerMeets s x key →
    Becomes s (.hostWrite x) (outsideStore s x key) ∧ Becomes s (.hostBoundary x) (outsideStore s x key))
  ∧ (∀ (s : State) (x : ExtAccess) (key : Nat), x.pa < 2 ^ 40 → x.write = false → outsideAt s x.pa key → hostMeets s x key = none → noPeerMeets s x key →
    (∀ j < x.len, s.isLost (key + j) = false) →
    Becomes s (.hostRead x) (sentOut s (.hostData ((List.range x.len).map fun j => s.byte (key + j)) false)))
  ∧ (∀ (s : State) (x : ExtAccess) (key : Nat), x.pa < 2 ^ 40 → x.write = false → outsideAt s x.pa key → hostMeets s x key = none → noPeerMeets s x key →
    (∃ j < x.len, s.isLost (key + j) = true) →
    ∃ bs, bs.length = x.len ∧ Becomes s (.hostRead x) (sentOut (uncorrected s) (.hostData bs true)))
  ∧ (∀ (s : State) (x : ExtAccess) (key j : Nat), x.pa < 2 ^ 40 → x.write = true → outsideAt s x.pa key → hostMeets s x key = some j →
    noPeerMeets s x key →
    ∃ (t : State), Becomes s (.hostBoundary x) (outsideStore t x key) ∧ t.core.region = {} ∧ t.mem.bytes = s.writeBack.mem.bytes
      ∧ t.regs.hostbnd = bump s.regs.hostbnd 0 ∧ ∀ y ∈ t.mem.rdc, s.rdcMine (y.1 / 128 * 128) = false)
  ∧ (∀ (s : State) (x : ExtAccess), (2 ^ 40 ≤ x.pa ∨ s.memKey (s.regs.devnum * 2 ^ 48 + x.pa % 2 ^ 48) = none) →
    Becomes s (.hostRead x) (sentOut s .unsupported))
  ∧ (∀ (s : State) (x : ExtAccess) (key : Nat), x.pa < 2 ^ 40 → outsideAt s x.pa key → hostMeets s x key = none → ¬ noPeerMeets s x key →
    Becomes s (.hostBoundary x) { s with retry := true })
  ∧ (∀ (s : State) (q : Nat) (v : Word), q < 16 → s.regs.partid < 16 →
    exec (.hostBar0Access (0x10000 * s.regs.partid + 0x40 * q + 0x10) 8 true v) s = exec (.lqtail q v) s
    ∧ Becomes s (.hostBar0Access (0x10000 * s.regs.partid + 0x40 * q + 0x10) 8 false v)
      (sentOut s (.hostData (wordBytes (mget {} s.sched.queues q).tail) false)))
  ∧ (∀ (s : State) (off size : Nat) (v : Word), size ≠ 8 → Becomes s (.hostBar0Access off size true v) (sentOut s (.errorRecord 1 off)))
  ∧ (∀ (s : State) (dev : Nat) (x : HartAccess), s.admits dev = false → Becomes s (.fabricAccess dev x) (sentOut s (.refused dev)))
  ∧ (∀ (s u : State) (dev : Nat) (x : HartAccess) (key : Nat), s.admits dev = true → x.pa < 2 ^ 48 → outsideAt s x.pa key →
    s.slotOpen (bits s.sys.strictsh 13 8) = true → s.peerMeets ⟨.core, dev, x.core⟩ x.write x.sync key x.len = false →
    s.noteRegion ⟨.core, dev, x.core⟩ (!x.write) x.write x.sync key x.len = .ok u →
    (x.write = true → Becomes s (.fabricAccess dev x) (outsideStore u x.toExtAccess key))
    ∧ (x.write = false → (∀ j < x.len, s.isLost (key + j) = false) →
      Becomes s (.fabricAccess dev x) (sentOut u (.fabricData dev ((List.range x.len).map fun j => s.byte (key + j)) false))))
  ∧ (∀ (s : State) (dev : Nat) (x : HartAccess) (key : Nat), s.admits dev = true → x.pa < 2 ^ 48 → outsideAt s x.pa key →
    s.slotOpen (bits s.sys.strictsh 13 8) = true → ((∃ j, s.core.region.masks.meets x.write x.sync key x.len = some j)
      ∨ ∃ o ∈ s.mem.others, ∃ j, o.done = false ∧ ¬ (o.own = false ∧ o.agent = .core ∧ o.device = dev ∧ o.core = x.core)
        ∧ o.masks.meets x.write x.sync key x.len = some j) →
    Becomes s (.fabricAccess dev x) (sentOut s (.mmx dev)))
  ∧ (∀ (s u : State) (h : Party) (key len j : Nat) (rd wr sync : Bool), s.noteRegion h rd wr sync key len = .ok u → rd = true ∨ wr = true →
    j < len → u.mem.bytes = s.mem.bytes
      ∧ ∃ o ∈ u.mem.others, o.own = false ∧ o.agent = h.agent ∧ o.device = h.device ∧ o.core = h.core
        ∧ o.masks.meets true false (key + j) 1 = some (key + j))

/-- The unit of loss of a memory key: 8 bytes of a local store, 32 bytes of memory (R133). -/
def unitOf (key : Nat) : Nat := if 2 ^ 60 ≤ key then key / 8 * 8 else key / 32 * 32

/-- A list that names a unit. -/
def noted (l : List Nat) (u : Nat) : List Nat := if l.contains u then l else u :: l

/-- A unit of loss is lost; what an L1 holds above it stays sound. -/
def loses (s : State) (key : Nat) : State :=
  { s with mem := { s.mem with
      lost := noted s.mem.lost (unitOf key)
      lines := s.mem.lines.map fun l => if l.lv = .l1 && l.line = unitOf key / 128 * 128 then
        { l with sound := l.sound ||| (l.held &&& maskIn l.line (unitOf key) (lossSize (unitOf key))) } else l } }

/-- What the RDC holds of a sector is gone. -/
def sectorGone (s : State) (key : Nat) : State :=
  { s with mem := { s.mem with
      rdc := s.mem.rdc.filter fun x => x.1 / 32 * 32 ≠ key / 32 * 32
      rdcLost := s.mem.rdcLost.filter fun u => u ≠ key / 32 * 32 } }

/-- R133, R135, R136, R398: errors of stored bits, of the mesh, of links, and of a sector that cannot be written back: a sector of memory is
lost, or lost once no cache at its home holds a copy; a dirty sector of a cache is lost there; a link that goes down takes the writes under
way. What the L1 holds above a loss, what a link holds, and what a fatal error stops are the model's reading (log entries 43 and 44). -/
def Obligations.ErrorEvents : Prop :=
  (∀ (s : State) (a : Nat) (b : ErrAt), Becomes s (.softError a true b) (corrected s))
  ∧ (∀ (s : State) (a : Nat), a < 2 ^ 19 → Becomes s (.softError a false .store) (loses s (storeKey s.core.number a)))
  ∧ (∀ (s : State) (a key : Nat), s.memKey a = some key →
    (s.sectorAt .l2 key = none → s.sectorAt .msc key = none → Becomes s (.softError a false .memory) (loses s key))
    ∧ (s.sectorAt .l2 key ≠ none ∨ s.sectorAt .msc key ≠ none → Becomes s (.softError a false .memory)
      { s with mem := { s.mem with hbmLost := noted s.mem.hbmLost (unitOf key) } })
    ∧ (∀ p ∈ [(Lv.l2, ErrAt.l2), (.msc, .msc)], s.sectorAt p.1 key = some true →
      ∃ t, Becomes s (.softError a false p.2) t ∧ t.mem.lost = noted s.mem.lost (unitOf key) ∧ t.mem.bytes = s.mem.bytes
        ∧ t.mem.rdc = s.mem.rdc)
    ∧ (s.sectorAt .rdc key = some true → ∃ t, Becomes s (.softError a false .rdc) t ∧ t.mem.lost = s.mem.lost ∧ unitOf key ∈ t.mem.rdcLost)
    ∧ (s.sectorAt .rdc key = some false → Becomes s (.softError a false .rdc) (sectorGone s key))
    ∧ (s.sectorAt .l1 key = none → Becomes s (.softError a false .l1) s))
  ∧ (∀ (s : State) (b : Bool), Becomes s (.meshFlitParity false b) (corrected s))
  ∧ (∀ (s : State), Becomes s (.meshFlitParity true false) s)
  ∧ (∀ (s : State), s.core.machine = [] → s.sched.task.isSome = true → s.sys.halted = false → 1 ≤ bits s.regs.twin 23 13 →
    Becomes s (.meshFlitParity true true)
      (twinState { uncorrected s with core := { s.core with idle := false } } cMACHINE (wd (fld 3 56)) true))
  ∧ (∀ (s : State) (n d : Nat) (ids : List Nat) (w : Option Word), n ≤ 8 → Becomes s (.linkCrcFail ⟨n, d⟩ ids w) (corrected s))
  ∧ (∀ (s u : State) (n d : Nat), 8 < n → d ∉ s.sys.linksDown →
    u = { s with sys := { s.sys with linksDown := d :: s.sys.linksDown, out := s.sys.out ++ [.errorRecord 2 n] } } →
    Becomes s (.linkCrcFail ⟨n, d⟩ [] none) u
    ∧ (∀ (va : Word), (∀ w ∈ s.core.overLink, w.va ≠ va) → s.core.lostWrite = none →
      Becomes s (.linkCrcFail ⟨n, d⟩ [] (some va)) { u with core := { u.core with lostWrite := some (memInfo 1 3 0 va) } })
    ∧ (∀ (w : OverLink) (ws : List OverLink) (y : State), s.core.overLink = w :: ws →
      y = { u with mem := { u.mem with bytes := mputs 0 u.mem.bytes w.key w.old, lost := w.lost.foldl noted u.mem.lost } } →
      (w.hart = none → s.core.lostWrite = none → Becomes s (.linkCrcFail ⟨n, d⟩ [] (some w.va))
        { y with core := { y.core with lostWrite := some (memInfo 1 3 0 w.va) } })
      ∧ (∀ h, w.hart = some h → Becomes s (.linkCrcFail ⟨n, d⟩ [] (some w.va))
        { y with eng := { y.eng with lostWrites := y.eng.lostWrites ++ [(h, w.va)] } })))
  ∧ (∀ (s : State) (pa key : Nat), s.memKey pa = some key → bit s.evring 11 = false → Becomes s (.writebackLost pa)
      (let t := uncorrected (loses (sectorGone { s with mem := { s.mem with unsent := s.mem.unsent.filter fun p => p ≠ pa } } key) key)
       { t with sys := { t.sys with halted := true }, core := { t.core with idle := false } }))

/-- R65, R66, R404 to R411, R422, R439 to R441: event rings and pulled pages, time slices, boot, power and temperature, the caches' sweeps, and
the end of a policing interval. The places of a register's fields, when a slice's switch has drained, what a pulled page holds, what boot and
the power states do, and the moment at which PLSYNC completes are the model's choices (log entries 19, 44, 45, 46 and 47). -/
def Obligations.ModuleEvents : Prop :=
  (∀ (s : State) (kind : Nat) (a b : Word), bit s.evring 11 = false → Becomes s (.eventPost kind a b) s)
  ∧ (∀ (s : State) (kind : Nat) (a b : Word) (p : Posting), bit s.evring 11 = true → p = ⟨s.sys.vd, kind, a, b, s.cyc⟩ →
    ((∀ x ∈ s.sys.posting, x.vd ≠ s.sys.vd) → s.ringRoom = true → Becomes s (.eventPost kind a b) (s.postEntry p))
    ∧ ((∃ x ∈ s.sys.posting, x.vd = s.sys.vd) ∨ s.ringRoom = false →
      ∃ (t : State), Becomes s (.eventPost kind a b) t ∧ t.sys.posting = s.sys.posting ++ [p]))
  ∧ (∀ (s : State) (p : Posting) (ps : List Posting), s.sys.posting = p :: ps → p.vd = s.sys.vd →
    (s.ringRoom = true → Becomes s .eventRingOverrunWait (({ s with sys := { s.sys with posting := ps } } : State).postEntry p))
    ∧ (s.ringRoom = false → ps = [] → s.absentAt (areaBase s.evring) = none → s.absentAt s.ringEntry = none →
      Becomes s .eventRingOverrunWait s))
  ∧ (∀ (s : State) (page : Nat), page < 2 ^ 64 → s.pullCode (page * 65536) = 1 → (∀ p ∈ s.mem.pulls, ¬ (p.page = page ∧ p.vd = s.sys.vd)) →
    Becomes s (.pagePull page) { s with mem := { s.mem with
      pulls := s.mem.pulls ++ [{ page := page, vd := s.sys.vd, since := s.cyc }] } })
  ∧ (∀ (s u : State) (page key : Nat) (bytes : List (Nat × Byte)) (p : Pull), s.mem.pulls.find? (fun p => p.page = page) = some p →
    p.vd = s.sys.vd → s.memKey (s.regs.devnum * 2 ^ 48 + page * 65536 % 2 ^ 48) = some key →
    u = (s.installPage key bytes).setPullCode page 0 →
    Becomes s (.pageArrival page bytes) { u with mem := { u.mem with
      pulls := u.mem.pulls.filter fun p => !(p.page = page && p.vd = s.sys.vd) } })
  ∧ (∀ (s : State) (key j n : Nat) (v : Byte), mwf 0 s.mem.bytes = true → n < 65536 →
    (s.installPage key [(n, v)]).byte j = if j = key + n then v else if key ≤ j ∧ j < key + 65536 then 0 else s.byte j)
  ∧ (∀ (s : State) (page code : Nat), mwf 0 s.mem.bytes = true → code < 4 → bit (mget {} s.sys.vds s.sys.vd).pullctl 63 = true →
    inSlot (page * 65536) = true → s.pullCode (page * 65536) ≠ 0 → (s.setPullCode page code).pullCode (page * 65536) = code)
  ∧ (∀ (s : State) (page : Nat), (∀ p ∈ s.mem.pulls, p.page ≠ page) → Becomes s (.pullFailed page) s)
  ∧ (∀ (s : State) (page : Nat) (p : Pull), s.mem.pulls.find? (fun p => p.page = page) = some p → p.vd = s.sys.vd → bit s.evring 11 = false →
    ∃ (t : State), Becomes s (.pullFailed page) t ∧ (∀ q ∈ t.mem.pulls, ¬ (q.page = page ∧ q.vd = s.sys.vd))
      ∧ t.mem.bytes = (s.setPullCode page 2).mem.bytes)
  ∧ (∀ (s : State) (v : Nat) (x ctl : Word) (d : Vd), d = mget {} s.sys.vds v → bits x 31 0 ≠ 0 →
    ctl = wd (fld (bits x 63 63) 63 + fld (if bit x 62 then 0 else bits d.ctl 62 62) 62 + fld (bits d.ctl 61 61) 61
      + fld (if bit x 60 then 0 else bits d.ctl 60 60) 60 + fld (bits x 59 56) 56 + fld (bits x 55 52) 52 + bits x 31 0) →
    Becomes s (.vdctl v x) { s with sys := { s.sys with vds := mput {} s.sys.vds v { d with ctl := s.setRaised ctl } } })
  ∧ (∀ (s : State) (v : Word),
    (bit v 0 = true → s.sys.halted = true → Becomes s (.go v) { s with sys := { s.sys with halted := false, reissue := s.inFlight } })
    ∧ (bit v 0 = false ∨ s.sys.halted = false → Becomes s (.go v) s))
  ∧ (∀ (s : State) (v : Word), s.regs.partid < 16 → Becomes s (.registerWrite (0x0100C0000000 + s.regs.partid * 0x1000) v)
    { s with sys := { s.sys with shapeNew := keep v [(15, 0)] } })
  ∧ (∀ (s : State) (i : Nat) (v : Word), i < 2 ^ 16 → Becomes s (.registerWrite (2 ^ 48 + i) v)
    { s with mem := { s.mem with clusterNew := mput 0 s.mem.clusterNew i (keep v [(63, 63), (9, 0)]) } })
  ∧ (∀ (s : State), s.sys.draining = none → s.sys.halted = true ∨ s.sliceOver = true → s.nextVd ≠ s.sys.vd →
    mwf 0 s.sched.preempt = true → ∃ (t : State), Becomes s .quantumEnd t ∧ t.sys.draining = some s.cyc ∧ t.sys.vd = s.sys.vd
      ∧ ∀ n ∈ s.cores, bit (mget 0 t.sched.preempt n) 0 = true)
  ∧ (∀ (s : State), s.sys.draining = none → s.sys.halted = true ∨ s.sliceOver = true → s.nextVd = s.sys.vd → Becomes s .quantumEnd
    { s with sys := { s.sys with sliceAt := s.cyc, turns := if s.sys.turns + 1 < s.vdWeight s.sys.vd then s.sys.turns + 1 else 0 } })
  ∧ (∀ (s : State), s.sys.draining = none → s.sys.halted = false → s.sliceOver = false → Becomes s .quantumEnd s)
  ∧ (∀ (s : State) (n : Nat), s.sys.draining = some n → s.drained = false →
    ∃ (t : State), Becomes s .quantumEnd t ∧ t.sys = s.sys ∧ ∀ c ∈ t.mu.queue, c.stop = true)
  ∧ (∀ (s : State) (n : Nat) (c : VdCtx), s.sys.draining = some n → s.drained = true → s.sys.saved.find? (fun c => c.vd = s.nextVd) = some c →
    ∃ (t : State), Becomes s .quantumEnd t ∧ t.sys.vd = c.vd ∧ t.sys.draining = none ∧ t.sys.sliceAt = s.cyc ∧ t.sys.turns = 0 ∧ t.pc = c.pc
      ∧ { t.core with store := c.core.store } = { c.core with tlb := [], muTlb := [] } ∧ t.mu = c.mu
      ∧ t.opt = c.opt ∧ t.eng = c.eng ∧ t.sched.preempt = [] ∧ t.mem.rdc = [] ∧ t.mem.lines = []
      ∧ t.sys.saved = (s.sys.saved.filter fun x => x.vd ≠ c.vd) ++ [s.flushAll.vdCtx])
  ∧ (∀ (s : State) (t : Nat), s.sys.draining = some t → t + 2 ^ 26 ≤ s.cyc →
    (∃ n ∈ s.cores, bit (mget 0 s.sched.preempt n) 63 = false) → bit s.evring 11 = false →
    Becomes s .sliceLate { s with
      sys := { s.sys with
        halted := true
        draining := none
        vds := mput {} s.sys.vds s.sys.vd { mget {} s.sys.vds s.sys.vd with ctl := setBits (mget {} s.sys.vds s.sys.vd).ctl 60 60 1 } }
      core := { s.core with idle := false } })
  ∧ (∀ (s : State) (ok : Bool) (dev : Nat),
    (s.sys.bootStep = 1 → ok = false → Becomes s (.boot ok dev) s)
    ∧ (s.sys.bootStep ≤ 4 → s.sys.bootStep ≠ 3 → s.sys.bootStep ≠ 1 ∨ ok = true →
      Becomes s (.boot ok dev) { s with sys := { s.sys with bootStep := s.sys.bootStep + 1 } })
    ∧ (s.sys.bootStep = 3 → dev < 256 → Becomes s (.boot ok dev) { s with
        regs := { s.regs with devnum := dev }, sys := { s.sys with bootStep := 4 } })
    ∧ (5 ≤ s.sys.bootStep → Becomes s (.boot ok dev) s))
  ∧ (∀ (s : State), Becomes s .thermalThrottle { s with sys := { s.sys with power := 1 } })
  ∧ (∀ (s : State), Becomes s .thermalHalt (sentOut { s with
      sys := { s.sys with halted := true }, core := { s.core with idle := false } } (.errorRecord 3 0)))
  ∧ (∀ (s : State) (m : Fin 4), m ≠ 3 → Becomes s (.powerState m) { s with sys := { s.sys with power := m } })
  ∧ (∀ (s : State), ∃ (t : State), Becomes s (.powerState 3) t ∧ t.sys.power = 3 ∧ t.sys.bootStep = 0 ∧ (∀ j, t.byte j = 0)
    ∧ t.mem.rdc = [] ∧ t.mem.lines = [] ∧ t.mem.lost = [] ∧ ∀ c ∈ t.sys.saved, c.localStore = [])
  ∧ (∀ (s : State) (k : Nat) (l : Line), s.mem.lines[k]? = some l → l.dueE s.unitTime = true →
    ∃ (t : State), Becomes s (.ageingSweep k) t ∧ t.mem.bytes = s.mem.bytes ∧ t.mem.lines[k]? = some { l with e := true })
  ∧ (∀ (s : State) (c : Nat) (p : Police), s.mem.police = [(c, p)] → s.policeInterval ≠ s.mem.policeAt →
    ∃ (t : State), Becomes s .policingIntervalEnd t ∧ t.mem.policeAt = s.policeInterval
      ∧ mget {} t.mem.police c = Police.mk
        (if 64 ≤ p.kept + p.broken ∧ p.kept + p.broken < 2 * p.broken then min (p.level + 1) 3 else p.level - 1) 0 0)

/-! ### The encoding -/

/-- R196, R198: for every well-formed instruction that an encoding names, at every place of a fetch block where it fits and whatever
follows it, the decoder reads back what the encoder wrote. -/
def Obligations.EncodingRoundTrip : Prop :=
  ∀ (i : Instr) (off : Nat) (rest : List Byte), i.wf = true → i.encodable = true → off + i.size ≤ 32 →
    decode off (encodeBytes i ++ rest) = .ok i

/-- R196, R207: what the decoder accepts is a well-formed instruction that lies in the fetch block, and the bytes are those the encoder
gives it: no two words decode to one instruction. -/
def Obligations.EveryWordHasOneMeaning : Prop :=
  ∀ (off : Nat) (bs : List Byte) (i : Instr), i.size ≤ bs.length → decode off bs = .ok i →
    i.wf = true ∧ i.encodable = true ∧ off + i.size ≤ 32 ∧ i.size = 8 + 4 * ((parcelAt bs 0).toNat % 4) ∧ encodeBytes i = bs.take i.size

/-- R196, R206 to R208: the checks of the decoder in their order: L of 3, an instruction across the block's end, opcode 0x3F, an
unassigned opcode. -/
def Obligations.DecoderRefuses : Prop :=
  (∀ (off : Nat) (bs : List Byte), (parcelAt bs 0).toNat % 4 = 3 → decode off bs = .error .length)
  ∧ (∀ (off : Nat) (bs : List Byte), (parcelAt bs 0).toNat % 4 ≠ 3 → 32 < off + 8 + 4 * ((parcelAt bs 0).toNat % 4) →
    decode off bs = .error .fetchBound)
  ∧ (∀ (off : Nat) (bs : List Byte), (parcelAt bs 0).toNat % 4 ≠ 3 → off + 8 + 4 * ((parcelAt bs 0).toNat % 4) ≤ 32 →
    (parcelAt bs 0).toNat / 4 % 64 = 0x3F → decode off bs = .error .perm)
  ∧ (∀ (off : Nat) (bs : List Byte), (parcelAt bs 0).toNat % 4 ≠ 3 → off + 8 + 4 * ((parcelAt bs 0).toNat % 4) ≤ 32 →
    (parcelAt bs 0).toNat / 4 % 64 ∈ [0x00, 0x06, 0x07, 0x08, 0x09, 0x0A, 0x0B, 0x0C, 0x0D, 0x0E, 0x0F, 0x13, 0x14, 0x15, 0x16, 0x17, 0x19, 0x1A,
      0x1B, 0x26, 0x27, 0x2B, 0x2F, 0x37, 0x3B, 0x3E] → decode off bs = .error .opcode)

/-- The spec's worked encodings, one of each family, decode to the instructions they stand for: EXT.N64 w9, w2, 8, 4; (p1) BR -6;
LD.N64.acq w12, [w3], cluster; AMO.ADD.N64.ar w10, [w2], w9, package; VFMA.F32.rne v2, v3, v1, v2; MMA.F a0, w20, w40 with a MATX;
SEND w16, w8, cluster; DSSBIND w20, w30; MFS w9, cbase. -/
def Obligations.WorkedEncodings : Prop :=
  decodeTableWord 64 0x7805064002012010 = some (.ext {} { t := .n64, d := .w 9, a := ⟨.w 2, false⟩, b := .imm (.i13 200) })
  ∧ decodeTableWord 64 0x0800FFD000000148 = some (.br { p := 1 } (.i13 (-6)))
  ∧ decodeTableWord 64 0xF750000003018070 = some (.ldAcq {} { t := .n64, nud := 15, d := .w 12, a := .w 3, off := .short 0, sc := .short 1 })
  ∧ decodeTableWord 64 0xF7E00048020140A0 = some (.amoAdd {}
      { t := .n64, nud := 15, ord := .ar, d := .w 10, a := ⟨.w 2, false⟩, b := ⟨.w 9, false⟩, sc := .short 3 })
  ∧ decodeTableWord 96 0x00000002A0030008030040C1 = some (.vfma {} { t := .f32, rm := 0, o := .vec 2 ⟨3, false⟩ ⟨1, false⟩ ⟨2, false⟩ })
  ∧ decodeTableWord 128 0x00014028FFFFFFFF7F000000140500E2 = some (.mmaF {}
      { rm := 7, nud := 15, tile := 0, tok := .w 40, a := ⟨.w 20, false⟩, x := some ⟨20, 40, 0xFFFFFFFF⟩ })
  ∧ decodeTableWord 64 0x02000040100000F0 = some (.send {} { a := ⟨.w 16, false⟩, r := ⟨.w 8, false⟩, sc := .short 1 })
  ∧ decodeTableWord 64 0x000000001403C0E8 = some (.dssbind {} { tok := .w 30, a := ⟨.w 20, false⟩ })
  ∧ decodeTableWord 64 0x08020010000120F4 = some (.mfs {} { d := .w 9, reg := 2 })

/-! ### A step -/

/-- R207: a step at which the core issues runs the instruction that the bytes at the pc decode to, in the state after its fetch; a TLBI is
told from the other two by the KIND its control word holds (R332). -/
def Obligations.StepRunsDecodedInstruction : Prop :=
  (∀ (s t : State) (bs : List Byte) (i : Instr), s.nextAct = .instr → s.fetchBytes s.pc = .ok (bs, t) →
    isSkip (s.pc.toNat % 32) (parcelAt bs 0) = false → decode (t.pc.toNat % 32) bs = .ok i → step s = exec (t.refine i) t)
  ∧ (∀ (s : State) (i : Instr), (∀ g x, i ≠ .tlbiPage g x) → s.refine i = i)
  ∧ (∀ (s : State) (g : Guard) (x : TwoSrc), s.refine (.tlbiPage g x) =
    if bits (s.take x.b.name).1 1 0 = 1 then .tlbiAsid g x else if bits (s.take x.b.name).1 1 0 = 2 then .tlbiPartition g x else .tlbiPage g x)
  ∧ (∀ (s : State), s.inputs = [] → s.peers = [] → s.sys.halted = false → s.sys.power ≠ 3 → 5 ≤ s.sys.bootStep → s.sys.reissue = [] →
    s.mem.unsent = [] → s.policeInterval = s.mem.policeAt → s.core.tableHit = false → (s.core.machine = [] ∨ s.sched.task = none) →
    s.missed = none → s.boundaryEvent = none → s.offers = [] → s.issues = true → s.nextAct = .instr)
  ∧ (∀ (s : State) (i : Instr), s.nextAct = .event i → step s = exec i s)

/-- Log entry 17: the instruction that withFetchWord places is the one the very next step after reset runs. -/
def Obligations.PlacedInstructionRuns : Prop :=
  ∀ (nbits w : Nat) (i : Instr), decodeTableWord nbits w = some i →
    ∃ (t : State), step (State.reset.withFetchWord nbits w) = exec (t.refine i) t ∧ t.regs = (State.reset.withFetchWord nbits w).regs
      ∧ t.pc = (State.reset.withFetchWord nbits w).pc ∧ t.core.store = [] ∧ t.sched = (State.reset.withFetchWord nbits w).sched

/-! ### What every step keeps -/

/-- The canonical forms and the width of the cycle counter: home memory's bytes, the PREEMPT registers, CYC of 64 bits. -/
def Canonical (s : State) : Prop := s.MemOk ∧ mwf 0 s.sched.preempt = true ∧ s.cyc < 2 ^ 64

/-- Every step keeps them, from every state that has them. -/
def Obligations.CanonicalFormsKept : Prop := ∀ (s t : State), Canonical s → step s = .next t → Canonical t

/-- The RDC's bytes stand in ascending order of their places, and each belongs to a line that the RDC holds (R48, R51). -/
def RdcForm (s : State) : Prop :=
  mrising 0 s.mem.rdc = true ∧ ∀ i b, mfind s.mem.rdc i = some b → (s.lineAt .rdc (i / 128 * 128)).isSome = true

/-- R48, R51: every step keeps the form of the RDC, from every state that has it. -/
def Obligations.RdcFormKept : Prop := ∀ (s t : State), RdcForm s → step s = .next t → RdcForm t

/-- The state after reset has all of them. -/
def resetIsCanonical : Prop := Canonical State.reset ∧ RdcForm State.reset

/-- R137, R144, R149, R150, R57, R64, R159, R249, R305, R353, R372: what the spec says reset leaves: every word full and 0, no slot bound,
MODE 2, the fence over the whole store, UTWIN 0, TDELEG's SUP 0x0000_1068, and the controls that are not 0. -/
def resetState : Prop :=
  (∀ p, p < 8192 → State.reset.cell p = .full 0) ∧ State.reset.mu.dss = [] ∧ State.reset.mode = 2 ∧ State.reset.regs.wflo = 0
  ∧ State.reset.regs.wfhi = 0x1FFF ∧ State.reset.regs.utwin = 0 ∧ State.reset.regs.tdeleg = 0x0000106800000000
  ∧ State.reset.regs.unkdist = 14 ∧ bits State.reset.regs.cpquota 44 40 = 20 ∧ bits State.reset.regs.cpquota 4 0 = 16
  ∧ State.reset.regs.wlctl = 32 ∧ State.reset.regs.mqweight = 1 ∧ State.reset.gvtKey.t = 0xFFFFFFFFFFFFFFFF
  ∧ State.reset.regs.optwin = 0xFFFFFFFFFFFFFFFF ∧ State.reset.regs.vt = 0 ∧ State.reset.sched.gvtctl = 32

/-! ### Guards, privilege and traps -/

/-- The mode in which an instruction passes the check that comes before its guard (R213, R238, R310, R399). -/
def earlyMode (m : Nat) : Instr → Prop
  | .rett _ | .tlbiPage _ _ | .tlbiAsid _ _ | .tlbiPartition _ _ | .idle _ | .halt _ => m = 2
  | .wret _ => m = 1
  | .send _ _ | .sendRect _ _ | .spawn _ _ | .spawnev _ _ | .evadd _ _ | .evset _ _ | .park _ _ | .yield _ _ | .launch _ _
  | .sread _ _ | .swrite _ _ | .nettx _ _ | .netrx _ _ | .domain _ _ | .domexit _ | .vsend _ _ | .defer _ _ | .safe _ => m ≠ 1 ∧ m ≠ 2
  | .tend _ => m ≠ 1
  | _ => True

/-- R199: the guard: G = 0 always executes, G = N by predicate pN of w0 read in mode 0, against GN; an instruction whose guard is false has
no effect but the pc past it, and raises only the traps that come before it; G = 0 with GN = 1 is refused with RESV. -/
def Obligations.GuardsDecideExecution : Prop :=
  (∀ (s : State), s.guard {} = .ok (true, s))
  ∧ (∀ (s : State) (p : Fin 16) (neg : Bool) (v : Word), p ≠ 0 → s.cell s.regs.wb = .full v →
    s.guard ⟨p, neg⟩ = .ok (bit v p.val != neg, s))
  ∧ (∀ (s : State) (p : Fin 16) (neg : Bool), p ≠ 0 → s.cell s.regs.wb = .empty → s.guard ⟨p, neg⟩ = .error (.wait (.word s.regs.wb)))
  ∧ (∀ (i : Instr) (g : Guard) (s u : State), i.guard? = some g → earlyMode s.mode i → Skips s i g u → Completes s i u)
  ∧ (∀ (e : Enc), e.maj ≠ 0x3F → e.major ≠ none → e.gd = ⟨0, true⟩ → decodeFields e = .error .resv)

/-- R213, R238, R310: outside their modes the supervisor's instructions and WRET raise PRIV, the tasks' instructions ILLEGAL with FORM,
whatever their guards hold. -/
def Obligations.EarlyModeTraps : Prop :=
  (∀ (g : Guard) (s : State), s.mode ≠ 2 → ∀ i ∈ [Instr.rett g, .idle g, .halt g], Raises s i cPRIV (privInfo 0 i.parcel0))
  ∧ (∀ (g : Guard) (x : TwoSrc) (s : State), s.mode ≠ 2 → ∀ i ∈ [Instr.tlbiPage g x, .tlbiAsid g x, .tlbiPartition g x],
    Raises s i cPRIV (privInfo 0 i.parcel0))
  ∧ (∀ (g : Guard) (s : State), s.mode ≠ 1 → Raises s (.wret g) cPRIV (privInfo 0 (Instr.wret g).parcel0))
  ∧ (∀ (i : Instr) (s : State), s.mode = 1 ∨ s.mode = 2 → ¬ earlyMode s.mode i → (∀ g, i ≠ .wret g) → (∀ g, i ≠ .rett g) →
    (∀ g, i ≠ .idle g) → (∀ g, i ≠ .halt g) → (∀ g x, i ≠ .tlbiPage g x) → (∀ g x, i ≠ .tlbiAsid g x) → (∀ g x, i ≠ .tlbiPartition g x) →
    Raises s i cILLEGAL (illInfo Ill.form.code i.parcel0))

/-- R150, R152, R392, R397: a trap's entry: into UTWIN where the cause is delegated, else into TWIN, whose LIMIT of 0 halts the partition;
a MEMLOST is counted and reported first. That a halt holds from the step of the entry on, and that each MEMLOST counts, are the model's reading (log
entries 44 and 55). -/
def Obligations.TrapEntry : Prop :=
  (∀ (s : State) (c : Nat) (info : Word), c ≠ cMEMLOST → delegates s c → s.takeTrap c info s.pc = utwinState s c info)
  ∧ (∀ (s : State) (c : Nat) (info : Word), c ≠ cMEMLOST → ¬ delegates s c → 1 ≤ bits s.regs.twin 23 13 →
    s.takeTrap c info s.pc = twinState s c info false)
  ∧ (∀ (s : State) (c : Nat) (info : Word), c ≠ cMEMLOST → ¬ delegates s c → bits s.regs.twin 23 13 = 0 →
    s.takeTrap c info s.pc = { s with
      core := { s.core with wait := none }
      sys := { s.sys with halted := true, out := s.sys.out ++ [.errorRecord c info.toNat] } })
  ∧ (∀ (s : State) (info : Word), ¬ delegates s cMEMLOST → 1 ≤ bits s.regs.twin 23 13 →
    s.takeTrap cMEMLOST info s.pc = twinState (uncorrected s) cMEMLOST info false)

/-- R152, R153, R238: RETT from TWIN's handler leads back to the instruction that trapped: its pc, its window and its mode. -/
def Obligations.TrapReturnRoundTrip : Prop :=
  ∀ (s y u : State) (c : Nat) (info : Word) (g : Guard), s.mode = 0 → c < 2 ^ 32 → s.queuesLive = false →
    1 ≤ s.regs.wl → s.regs.wl ≤ 2032 → s.regs.wb + s.regs.wl ≤ 8192 → bits s.regs.wflo 12 0 ≤ s.regs.wb →
    s.regs.wb + s.regs.wl - 1 ≤ bits s.regs.wfhi 12 0 → (s.pc - s.regs.cbase).toNat % 4 = 0 → (s.pc - s.regs.cbase).toNat < 2 ^ 34 →
    y.mode = 2 → Enters y (.rett g) g u → u.regs.tsave = (twinState s c info false).regs.tsave →
    u.regs.tcause = (twinState s c info false).regs.tcause → u.regs.cbase = s.regs.cbase → u.regs.wflo = s.regs.wflo →
    u.regs.wfhi = s.regs.wfhi →
    ∃ (t : State), Completes y (.rett g) t ∧ t.pc = s.pc ∧ t.regs.wb = s.regs.wb ∧ t.regs.wl = s.regs.wl ∧ t.mode = 0
      ∧ t.core.store = u.core.store

/-! ### Frames -/

/-- The instructions that work on words, predicates, queues, ring ports and the pc alone. -/
def wordsOnly : Instr → Bool
  | .add _ _ | .sub _ _ | .mul _ _ | .mulh _ _ | .div _ _ | .rem _ _ | .min _ _ | .max _ _ | .abs _ _ | .and _ _ | .or _ _
  | .xor _ _ | .andn _ _ | .shl _ _ | .shr _ _ | .sra _ _ | .rot _ _ | .clz _ _ | .ctz _ _ | .popc _ _ | .brev _ _ | .bswap _ _
  | .ext _ _ | .ins _ _ | .sel _ _ | .mov _ _ | .cmpEq _ _ | .cmpNe _ _ | .cmpLt _ _ | .cmpLe _ _ | .cmpGt _ _ | .cmpGe _ _
  | .cmpUn _ _ | .pand _ _ | .por _ _ | .pxor _ _ | .pnot _ _ | .pmov _ _ | .br _ _ | .jmp _ _ | .call _ _ | .ret _ _ | .loop _ _
  | .nop _ | .brk _ _ | .setwin _ _ | .rdwin _ _ | .wld _ _ | .wst _ _ | .wscrub _ _ | .wdrain _ _ | .mfs _ _
  | .vadd _ _ | .vsub _ _ | .vmul _ _ | .vfma _ _ | .vfms _ _ | .vdiv _ _ | .vmin _ _ | .vmax _ _ | .vabs _ _ | .vneg _ _
  | .vsqrt _ _ | .vrsq _ _ | .vexp2 _ _ | .vlog2 _ _ | .vladd _ _ | .vcmpEq _ _ | .vcmpNe _ _ | .vcmpLt _ _ | .vcmpLe _ _
  | .vcmpGt _ _ | .vcmpGe _ _ | .vcmpUn _ _ | .vsel _ _ | .vmask _ _ | .vpopc _ _ | .vand _ _ | .vor _ _ | .vxor _ _ | .vshl _ _
  | .vshr _ _ | .vsra _ _ | .vcvt _ _ | .vcvtSat _ _ | .vcvtOvf _ _ | .vredadd _ _ | .vredmax _ _ | .vredmin _ _ | .vscan _ _
  | .vperm _ _ | .vbcast _ _ | .vshuf _ _ | .vmov _ _ | .vins _ _ | .vlds _ _ | .vpack _ _ | .vunpack _ _ | .lea _ _ | .swctx _ _ => true
  | _ => false

/-- R42, R137, R207: whatever such an instruction does, complete, trap or wait, it leaves home memory, the RDC's dirty bytes, the tables,
the units, the optimistic state, the scheduler's queues and the registers that have an instruction of their own as they were; SETUTW, which
writes UTWIN alone of them (R237), all the others. -/
def Obligations.WordInstructionFrames : Prop :=
  (∀ (i : Instr) (s t : State), wordsOnly i = true → exec i s = .next t → Kept s t ∧ t.regs.settled = s.regs.settled)
  ∧ (∀ (g : Guard) (x : Src) (s t : State), exec (.setutw g x) s = .next t →
    Kept s t ∧ ({ t.regs with utwin := s.regs.utwin } : Regs).settled = s.regs.settled)

/-- The newest value of a byte: the RDC's where it is dirty there, else home memory's. -/
def newest (s : State) (key : Nat) : Byte :=
  match mfind s.mem.rdc key with
  | some b => if b.dirty then b.v else s.byte key
  | none => s.byte key

/-- R21, R50, R51, R58, R241: over links that are up, a read changes no byte of memory, and a write changes the bytes of its pieces and no other;
a translation changes nothing but AC and DT of the leaf entry that its walk found, at the entry's home. The form of the RDC is that of
RdcFormKept. -/
def Obligations.MemoryFrames : Prop :=
  (∀ (s t : State) (ps : List Piece) (nud : Nat) (r : Route) (whole : Bool) (bs : List Byte) (l : Option Nat), s.MemOk →
    mrising 0 s.mem.rdc = true → s.sys.linksDown = [] → s.readPieces nud r whole ps = (bs, l, t) → ∀ key, newest t key = newest s key)
  ∧ (∀ (s : State) (ps : List Piece) (bs : List Byte) (nud : Nat) (r : Route) (key : Nat), s.MemOk → mrising 0 s.mem.rdc = true →
    s.sys.linksDown = [] → (∀ p ∈ ps, p.loc.what = .memory ∨ p.loc.what = .store → p.off + p.len ≤ bs.length ∧ ¬ (p.loc.key ≤ key ∧ key < p.loc.key + p.len)) →
    newest (s.writePieces ps bs nud r) key = newest s key)
  ∧ (∀ (s : State) (p : Piece) (bs : List Byte) (nud j : Nat) (r : Route), s.MemOk → RdcForm s → s.sys.linksDown = [] →
    p.loc.what = .memory → bs.length = p.len → r ≠ .far →
    (p.loc.remote = true ∨ ∀ i, mfind s.mem.rdc i = none) → j < p.len →
    newest (s.writePiece p bs nud r) (p.loc.key + j) = bs.getD j 0)
  ∧ (∀ (s t : State) (w : Who) (k : Kind) (va : Word) (l : Loc), s.MemOk → mrising 0 s.mem.rdc = true → s.sys.linksDown = [] →
    s.translate w k va = .ok (l, t) →
    t.regs = s.regs ∧ t.core.store = s.core.store ∧ t.mu = s.mu ∧ t.opt = s.opt ∧ t.eng = s.eng ∧ (inAperture va = true → t = s)
      ∧ ∀ (f : LeafFound) (e : Word), inAperture va = false → s.leafOf w k va = .ok f →
        e = f.leaf.pte ||| 0x40 ||| (if k.writes then 0x80 else 0) →
        (f.walked = false ∨ e = f.leaf.pte → t.mem.bytes = s.mem.bytes ∧ t.mem.rdc = s.mem.rdc)
        ∧ (f.walked = true → e ≠ f.leaf.pte → ∀ j,
          (f.leaf.key ≤ j → j < f.leaf.key + 8 → t.byte j = (toBytes e.toNat 8).getD (j - f.leaf.key) 0)
          ∧ (j < f.leaf.key ∨ f.leaf.key + 8 ≤ j → newest t j = newest s j)))

/-- What the spec says reset leaves, and that the invariants of CanonicalFormsKept and RdcFormKept hold at reset. -/
def Obligations.ResetState : Prop := resetState ∧ resetIsCanonical

/-! ### Rules stated whole -/

/-- R219: DIV and REM truncate toward zero, REM takes the sign of the dividend, and the two corners give the values of the table and no
trap. -/
def Obligations.DivisionAndRemainder : Prop :=
  ∀ (g : Guard) (x : Alu) (s u v w : State) (a b : Word) (i : Guard → Alu → Instr), x.t.isInt = true → i = .div ∨ i = .rem →
    Enters s (i g x) g u → u.ready (s.ctx (i g x)) (srcOpr x.a :: opndOpr x.b ++ [.dst x.d]) → u.take x.a.name = (a, v) →
    v.takeOpnd x.b = (b, w) → w.accepts x.d →
    (tyVal x.t b = 0 → i = .div → Completes s (i g x) (w.put x.d (x.t.extend (2 ^ x.t.width - 1))))
    ∧ (tyVal x.t b = 0 → i = .rem → Completes s (i g x) (w.put x.d (x.t.extend a.toNat)))
    ∧ (tyVal x.t b ≠ 0 → tyVal x.t a = -2 ^ (x.t.width - 1) → tyVal x.t b = -1 → i = .div →
      Completes s (i g x) (w.put x.d (x.t.extend (2 ^ (x.t.width - 1)))))
    ∧ (tyVal x.t b ≠ 0 → tyVal x.t a = -2 ^ (x.t.width - 1) → tyVal x.t b = -1 → i = .rem → Completes s (i g x) (w.put x.d (x.t.extend 0)))
    ∧ (tyVal x.t b ≠ 0 → i = .div → Completes s (i g x) (w.put x.d (x.t.extend (modI ((tyVal x.t a).tdiv (tyVal x.t b)) 64))))
    ∧ (tyVal x.t b ≠ 0 → i = .rem → Completes s (i g x) (w.put x.d (x.t.extend
      (modI (tyVal x.t a - tyVal x.t b * (tyVal x.t a).tdiv (tyVal x.t b)) 64))))

/-- R220: EXT takes the field that the spec names out of word(A), extended by its TYPE, and INS puts the low bits of word(A) into that field
of word(D); a field that passes bit 63 is shortened, and bits of the spec above 11 are ignored. -/
def Obligations.FieldInstructions : Prop :=
  (∀ (g : Guard) (x : Alu) (s u v w : State) (a b : Word) (pos m : Nat), x.t = .i64 ∨ x.t = .n64 →
    Enters s (.ext g x) g u → u.ready (s.ctx (.ext g x)) (srcOpr x.a :: opndOpr x.b ++ [.dst x.d]) →
    u.take x.a.name = (a, v) → v.takeOpnd x.b = (b, w) → w.accepts x.d → pos = bits b 5 0 → m = min (bits b 11 6 + 1) (64 - pos) →
    ∃ r : Word, (∀ i, i < 64 → bit r i = if i < m then bit a (pos + i) else (x.t = .i64 && bit a (pos + m - 1)))
      ∧ Completes s (.ext g x) (w.put x.d r))
  ∧ (∀ (g : Guard) (x : Alu) (s u v w y : State) (a b d : Word) (pos m : Nat),
    Enters s (.ins g x) g u → u.ready (s.ctx (.ins g x)) (srcOpr x.a :: opndOpr x.b ++ [.both x.d]) →
    u.take x.a.name = (a, v) → v.takeOpnd x.b = (b, w) → w.take x.d = (d, y) → y.accepts x.d → pos = bits b 5 0 →
    m = min (bits b 11 6 + 1) (64 - pos) →
    ∃ r : Word, (∀ i, i < 64 → bit r i = if pos ≤ i ∧ i < pos + m then bit a (i - pos) else bit d i)
      ∧ Completes s (.ins g x) (y.put x.d r))

/-- R153: what checks a return: MODE, the descriptor's form and fence (R143), and that a descriptor with QHELD set is installed only where
queue entries are held. -/
def returnChecks : Prop :=
  (∀ (g : Guard) (s : State), s.mode ≠ 2 → Raises s (.rett g) cPRIV (privInfo 0 (Instr.rett g).parcel0))
  ∧ (∀ (g : Guard) (s : State), s.mode ≠ 1 → Raises s (.wret g) cPRIV (privInfo 0 (Instr.wret g).parcel0))
  ∧ (∀ (g : Guard) (s u : State), s.mode = 2 → Enters s (.rett g) g u →
    ¬ fitsReturn u → ∃ c info, Raises s (.rett g) c info)
  ∧ (∀ (g : Guard) (s u : State), s.mode = 1 → Enters s (.wret g) g u →
    ¬ fitsWindowAs u u.regs.utsave true → ∃ c info, Raises s (.wret g) c info)
  ∧ (∀ (g : Guard) (s u : State), s.mode = 2 → Enters s (.rett g) g u → fitsReturn u →
    ¬ heldHere u u.regs.tsave → Raises s (.rett g) cILLEGAL (illInfo Ill.qlive.code (Instr.rett g).parcel0))
  ∧ (∀ (g : Guard) (s u : State), s.mode = 1 → Enters s (.wret g) g u → fitsWindowAs u u.regs.utsave true →
    ¬ heldHere u u.regs.utsave → Raises s (.wret g) cILLEGAL (illInfo Ill.qlive.code (Instr.wret g).parcel0))

/-- R153: returns from TWIN and UTWIN. That a return to MODE 2 passes without R143's checks, and that QHELD is told from the queues of this core,
are the model's reading (log entry 23). -/
def Obligations.ReturnsFromExceptions : Prop := returnsComplete ∧ returnChecks
end

