-- ==== Sys2Proof/Laws/Bodies.lean ====
section
/-! SUPPORT. The shared operations of the meanings: what they answer when their checks pass, for the provers to cite. -/
set_option Elab.async false
namespace Sys2Proof.Machine

/-! ### When a body completes, traps or is refused by its own check -/

theorem ok_bind {α β : Type} (a : α) (f : α → Res β) : (Except.ok a >>= f) = f a := rfl

theorem completes_run {i : Instr} {g : Guard} {body : Ctx → State → Res State} {s u w : State} (he : exec i s = run i g body s)
    (h1 : Enters s i g u) (hb : body (s.ctx i) u = .ok w) : Completes s i w := by
  unfold Completes; rw [he, run_completed h1 hb]

theorem completes_runEnd {i : Instr} {g : Guard} {priv : Ctx → State → Res Unit} {body : Ctx → State → Res Ended} {s u w : State} (he : exec i s = runEnd i g priv body s)
    (hp : priv (s.ctx i) s.awake = .ok ()) (h1 : Enters s i g u) (hb : body (s.ctx i) u = .ok (.completed w)) : Completes s i w := by
  unfold Completes; rw [he, runEnd_completed hp h1 hb]

theorem raises_run {i : Instr} {g : Guard} {body : Ctx → State → Res State} {s u : State} {c : Nat} {info : Word} (he : exec i s = run i g body s)
    (h1 : Enters s i g u) (hb : body (s.ctx i) u = .error (.trap c info)) : Raises s i c info := by
  unfold Raises; rw [he, run_trap h1 hb]

theorem raises_runEnd {i : Instr} {g : Guard} {body : Ctx → State → Res Ended} {s u : State} {c : Nat} {info : Word} (he : exec i s = runEnd i g free body s)
    (h1 : Enters s i g u) (hb : body (s.ctx i) u = .error (.trap c info)) : Raises s i c info := by
  unfold Raises; rw [he, runEnd_trap (free_ok _ _) h1 hb]

theorem raises_runEnd_priv {i : Instr} {g : Guard} {priv : Ctx → State → Res Unit} {body : Ctx → State → Res Ended} {s : State} {c : Nat} {info : Word}
   (he : exec i s = runEnd i g priv body s) (hp : priv (s.ctx i) s.awake = .error (.trap c info)) : Raises s i c info := by
  unfold Raises; rw [he, runEnd_priv hp]

theorem seen_mode (s : State) (p : Nat) : (s.seen p).mode = s.mode := by
  unfold State.seen
  split
  · unfold State.acquire; split <;> rfl
  · rfl
theorem guard_mode {s t : State} {g : Guard} {b : Bool} (h : s.guard g = .ok (b, t)) : t.mode = s.mode := by
  obtain ⟨⟨a, u⟩, h1, h2⟩ := bind_ok h
  have hu : t = u := by
    have := congrArg (fun r => match r with | Except.ok (x : Bool × State) => x.2 | _ => t) h2
    exact this.symm
  subst hu
  unfold State.readPred at h1
  by_cases hp : g.p.val = 0
  · rw [if_pos hp] at h1
    rw [Except.ok.injEq, Prod.mk.injEq] at h1
    rw [← h1.2]
  · rw [if_neg hp] at h1
    cases hc : s.cell s.regs.wb <;> rw [hc] at h1 <;> first
      | (rw [Except.ok.injEq, Prod.mk.injEq] at h1; rw [← h1.2]; exact seen_mode _ _)
      | exact absurd h1 (by simp)

theorem take_mode (s : State) (n : Name) : (s.take n).2.mode = s.mode := by
  cases n <;> try rfl
  show (s.seen _).mode = _
  unfold State.seen
  split
  · unfold State.acquire; split <;> rfl
  · rfl

/-! ### Checks that pass -/

theorem prepare_nil (u : State) (c : Ctx) : u.prepare c [] = .ok () := rfl

theorem prepare_own {s : State} {c : Ctx} {l : List Opr} {own : Res Unit} (h : s.ready c l) (ho : own = .ok ()) : s.prepare c l own = .ok () := by
  subst ho; exact h

theorem prepare_err {s : State} {c : Ctx} {l : List Opr} {e : Stop} (h : s.ready c l) : s.prepare c l (.error e) = .error e := by
  unfold State.ready State.prepare at h
  unfold State.prepare
  obtain ⟨a, h1, h2⟩ := bind_ok h
  rw [h1, ok_bind]
  obtain ⟨b, h3, h4⟩ := bind_ok h2
  rw [h3, ok_bind]
  rfl

theorem need_ok {b : Bool} {c : Nat} {i : Word} (h : b = true) : need b c i = .ok () := by unfold need; rw [if_pos h]

theorem form_ok {b : Bool} {c : Ctx} (h : b = true) : form b c = .ok () := by unfold form; rw [if_pos h]

theorem resvOk_ok {b : Bool} {c : Ctx} (h : b = true) : resvOk b c = .ok () := by unfold resvOk; rw [if_pos h]

theorem noOpt_ok {s : State} {c : Ctx} (h : s.opt? = true → 2 ≤ s.mode) : s.noOpt c = .ok () := by
  unfold State.noOpt State.optimistic
  by_cases ho : s.opt? = true
  · have := h ho
    rw [ho, if_neg]; simp; omega
  · rw [if_neg]; simp [ho]

theorem noForerunner_ok {u : State} {c : Ctx} (h : bit u.regs.frmode 63 = false) : u.notForerunner c = .ok () := by
  unfold State.notForerunner State.forerunner; rw [h]; rfl

theorem queuesEmpty_ok {u : State} {c : Ctx} (h : u.queuesLive = false) : u.queuesEmpty c = .ok () := by unfold State.queuesEmpty; rw [h]; rfl

theorem sendRoom_ok {s : State} (h : s.sendsFull = false) : s.sendRoom = .ok () := by unfold State.sendRoom; rw [h]; rfl

theorem supOnly_ok {s : State} {c : Ctx} (h : s.mode = 2) : supOnly c s.awake = .ok () := by
  unfold supOnly need State.sup
  rw [if_pos]; simp; exact h

theorem supOnly_err {s : State} {c : Ctx} (h : s.mode ≠ 2) : supOnly c s.awake = .error (.trap cPRIV (privInfo 0 c.parcel)) := by
  unfold supOnly need State.sup
  rw [if_neg]; simp; exact h

theorem mtsChecks_sup {u : State} {r : Nat} {c : Ctx} (hm : u.mode = 2) (hk : regKnown r = true) : u.mtsChecks r c = .ok () := by
  unfold State.mtsChecks form regPriv need
  rw [hk, show u.sup = true by unfold State.sup; rw [hm]; rfl, noOpt_ok (by omega)]
  simp; rfl

theorem aligned_ok {k : Kind} {va : Word} {n : Nat} (h : n ∣ va.toNat) : aligned k va n = .ok () := by
  unfold aligned need; rw [if_pos]; simp; exact Nat.mod_eq_zero_of_dvd h

theorem aligned_err {k : Kind} {va : Word} {n : Nat} (h : ¬ n ∣ va.toNat) : aligned k va n = .error (.trap cALIGN (memInfo k.code 3 2 va)) := by
  unfold aligned need; rw [if_neg]; simp; intro h'; exact h (Nat.dvd_of_mod_eq_zero h')

theorem takeSync_some {u v : State} {sc : Scope} {x : Word} (h : u.takeScope sc = (x, v)) : u.takeSync (some sc) = (some x, v) := by
  show (match u.takeScope sc with | (a, b) => (some a, b)) = _
  rw [h]

theorem syncCheck_some (u : State) (c : Ctx) (sc : Scope) : u.syncCheck c (some sc) = u.checkScope c sc := rfl

/-! ### Values of a TYPE -/

theorem width_le (t : Ty) : t.width ≤ 64 := by cases t <;> decide

theorem dvd64n (t : Ty) : (2 ^ t.width : Nat) ∣ 2 ^ 64 := Nat.pow_dvd_pow 2 (width_le t)

theorem bv_mod (t : Ty) (n : Nat) : n % 2 ^ 64 % 2 ^ t.width = n % 2 ^ t.width := Nat.mod_mod_of_dvd _ (dvd64n t)

theorem extend_congr {t : Ty} {n m : Nat} (h : n % 2 ^ t.width = m % 2 ^ t.width) : t.extend n = t.extend m := by
  unfold Ty.extend sextI
  simp only [h]

theorem modI_cast (v : Int) (w : Nat) : ((modI v w : Nat) : Int) = v % ((2 ^ w : Nat) : Int) := by
  unfold modI
  rw [Int.toNat_of_nonneg (Int.emod_nonneg _ (by positivity))]
  push_cast; rfl

/-- Congruence mod 2^w of numbers, read off the integers they stand for. -/

theorem mod_of_int {n m : Nat} {w : Nat} (h : (n : Int) % ((2 ^ w : Nat) : Int) = (m : Int) % ((2 ^ w : Nat) : Int)) : n % 2 ^ w = m % 2 ^ w := by
  exact_mod_cast h

theorem modI_mod (v : Int) (t : Ty) : modI v 64 % 2 ^ t.width = modI v t.width % 2 ^ t.width := by
  apply mod_of_int
  rw [modI_cast, modI_cast, Int.emod_emod_of_dvd _ (by exact_mod_cast dvd64n t), Int.emod_emod]

theorem tyVal_mod (t : Ty) (a : Word) : tyVal t a % ((2 ^ t.width : Nat) : Int) = (a.toNat : Int) % ((2 ^ t.width : Nat) : Int) := by
  unfold tyVal sextI zext
  split
  · simp only
    split
    · push_cast
      rw [Int.sub_emod, Int.emod_self]; simp
    · push_cast; simp
  · push_cast; simp

theorem tyVal_eq (t : Ty) (a : Word) : ∃ k : Int, tyVal t a = (a.toNat : Int) + k * (2 ^ t.width : Nat) := by
  have h := tyVal_mod t a
  refine ⟨(tyVal t a - a.toNat) / ((2 ^ t.width : Nat) : Int), ?_⟩
  have := Int.ediv_mul_cancel (Int.dvd_of_emod_eq_zero (Int.emod_eq_emod_iff_emod_sub_eq_zero.mp h))
  omega

theorem tyVal_ofNat (t : Ty) (a : Word) : t.extend (modI (tyVal t a) t.width) = t.extend a.toNat :=
  extend_congr (mod_of_int (by rw [modI_cast, Int.emod_emod, tyVal_mod]))

theorem ty64 {t : Ty} (h : t.isInt = true) : t.width = 8 ∨ t.width = 16 ∨ t.width = 32 ∨ t.width = 64 := by
  cases t <;> revert h <;> decide

theorem width_dvd (t : Ty) (h : t.isInt = true) : t.width ∣ 2 ^ t.width := by
  cases t <;> revert h <;> decide

/-! ### Shared bodies -/

theorem aluBody_ok {f : Ty → Word → Word → Nat} {x : Alu} {c : Ctx} {u v w : State} {a b : Word}
    (h : u.ready c (srcOpr x.a :: opndOpr x.b ++ [.dst x.d])) (ha : u.take x.a.name = (a, v)) (hb : v.takeOpnd x.b = (b, w))
    (hd : w.accepts x.d) : aluBody f x c u = .ok (w.put x.d (x.t.extend (f x.t a b))) := by
  unfold aluBody
  rw [show u.prepare c (srcOpr x.a :: opndOpr x.b ++ [.dst x.d]) = .ok () from h]
  simp only [ha, hb]
  show w.write _ _ = _
  rw [write_put hd]

theorem unBody_ok {f : Ty → Word → Nat} {x : Un} {c : Ctx} {u v : State} {a : Word}
    (h : u.ready c [srcOpr x.a, .dst x.d]) (ha : u.take x.a.name = (a, v))
    (hd : v.accepts x.d) : unBody f x c u = .ok (v.put x.d (x.t.extend (f x.t a))) := by
  unfold unBody
  rw [show u.prepare c _ = .ok () from h]
  simp only [ha, ok_bind]
  rw [write_put hd]

theorem find_bound_none {w : State} {a n : Nat} (h : ∀ k, k < n → w.bound (a + k) = false) : (List.range n).find? (fun k => w.bound (a + k)) = none := by
  rw [List.find?_eq_none]
  intro k hk
  rw [h k (List.mem_range.mp hk)]; decide

theorem vecVals_all (bs : List Byte) : vecVals bs (fun _ => false) = (List.range 32).map fun k => some (wordOf ((bs.drop (8 * k)).take 8)) := by
  unfold vecVals
  apply List.map_congr_left
  intro k _
  rw [if_neg]; simp

theorem bindVec_ok {s : State} {v : Nat} {vals : List (Option Word)} {i : Word} (h : s.acceptsVec v) (hm : s.memOps < 96) :
    s.bindVec v vals i = .ok (s.bind ((List.range 32).map fun k => s.phys (32 * v + k)) (some vals) i) := by
  unfold State.bindVec State.vecWords
  rw [unboundAll_ok, ok_bind]
  · unfold State.memOpRoom
    rw [if_neg (by omega), ok_bind]
  · intro p hp
    obtain ⟨k, hk, rfl⟩ := List.mem_map.mp hp
    exact h k (List.mem_range.mp hk)

theorem redBody_ok {x : VRedArgs} {f : Rnd → List Nat → Nat × FpFlags} {c : Ctx} {u v y : State} {ws : List Word}
    (h2 : u.ready c [vsrcOpr x.a, .dst x.d]) (h3 : u.takeVec x.a.v.val = (ws, v)) (h4 : v.raise (f (v.rnd c x.rm.val) (elemsOf x.t ws)).2 = .ok y) (h5 : y.accepts x.d) :
    redBody x f c u = .ok (y.put x.d (x.t.extend (f (v.rnd c x.rm.val) (elemsOf x.t ws)).1)) := by
  unfold redBody
  rw [show u.prepare _ _ _ = .ok () from h2, ok_bind]
  simp only [h3, h4, ok_bind]
  exact write_put h5

/-! ### Synchronising -/

theorem isRel_eq (o : Ord4) : Ord4.isRel o = decide (o = Ord4.rel ∨ o = Ord4.ar) := by cases o <;> rfl

theorem isAcq_eq (o : Ord4) : Ord4.isAcq o = decide (o = Ord4.acq ∨ o = Ord4.ar) := by cases o <;> rfl

theorem release_keep' {s t : State} {k : Nat} (h : s.release k = .ok t) : t.regs = s.regs ∧ t.sched.pools = s.sched.pools := by
  unfold State.release at h
  split at h
  · cases h
  · cases h
    split <;> simp

theorem release_ok {s : State} {k : Nat} (h : k = 4 → s.core.lostWrite = none) :
    s.release k = .ok (
      let s := { s.closeRegion with core := { s.closeRegion.core with overLink := if k = 4 then s.core.overLink.filter fun w => w.hart ≠ none else s.core.overLink } }
      if 3 ≤ k then s.writeBack else s) := by
  unfold State.release
  by_cases hk : k = 4
  · rw [if_pos hk, h hk]
  · rw [if_neg hk]

/-! ### The scheduler -/

theorem landed_nil (s : State) (p : Flying → Bool) (h : s.sched.flying = []) : s.landed p = s := by
  unfold State.landed; rw [h]; show { s with sched := { s.sched with flying := [] } } = s
  rw [← h]

theorem setCells_store (cs : List Cell) : ∀ (s : State) (p : Nat), (s.setCells p cs).core.store = mputs (.full 0) s.core.store p cs := by
  induction cs with
  | nil => intro s p; rfl
  | cons c cs ih => intro s p; show ((s.setCell p c).setCells (p+1) cs).core.store = _; rw [ih]; rfl

theorem setCells_sched (cs : List Cell) : ∀ (s : State) (p : Nat), (s.setCells p cs).sched = s.sched := by
  induction cs with
  | nil => intro s p; rfl
  | cons c cs ih => intro s p; show ((s.setCell p c).setCells (p+1) cs).sched = _; rw [ih]; rfl

theorem mem_insertInbox (a x : Arrived) (l : List Arrived) : x ∈ insertInbox a l ↔ x = a ∨ x ∈ l := by
  induction l with
  | nil => simp [insertInbox]
  | cons y ys ih =>
    unfold insertInbox
    split
    · simp
    · simp [ih]; tauto

end Sys2Proof.Machine
end

