-- ==== Sys2Proof/Laws/Encoding.lean ====
section
/-! SUPPORT. What the encoder writes the decoder reads: the fields one by one, then the bytes. -/
set_option Elab.async false
namespace Sys2Proof.Laws

/-! ### Fields -/

theorem code_lt (t : Ty) : t.code < 16 := by cases t <;> decide

@[simp] theorem ofCode_code (t : Ty) : Ty.ofCode t.code = t := by cases t <;> rfl

theorem ofCode_mod (n : Nat) : Ty.ofCode (n % 16) = Ty.ofCode n := by simp [Ty.ofCode]

@[simp] theorem ofBits_bits (n : Name) : Name.ofBits n.bits = n := by
  cases n with
  | w k =>
    have h := k.isLt
    have : (Name.bits (.w k)).toNat = k.val := by simp [Name.bits, Name.num]; omega
    simp [Name.ofBits, this, h]
  | bad k => revert k; decide
  | _ => rfl

@[simp] theorem num_lt (n : Name) : n.num < 2048 := by
  cases n with
  | w k => have := k.isLt; simp [Name.num]; omega
  | bad k => revert k; decide
  | _ => decide

/-- FX of a type above four other bits. -/
@[simp] theorem fx_ty (t : Ty) (k : Nat) (h : k < 16) : Ty.ofCode ((t.code * 16 + k) % 256 / 16) = t := by
  have := code_lt t
  rw [show (t.code * 16 + k) % 256 / 16 = t.code by omega, ofCode_code]

@[simp] theorem fx_ty0 (t : Ty) : Ty.ofCode (t.code * 16 % 256 / 16) = t := fx_ty t 0 (by decide)

@[simp] theorem fx_lo (t : Ty) (k : Nat) : Ty.ofCode ((k * 16 + t.code) % 256) = t := by
  have := code_lt t
  rw [← ofCode_mod, show (k * 16 + t.code) % 256 % 16 = t.code by omega, ofCode_code]

@[simp] theorem join13 (v : BitVec 13) :
    BitVec.ofNat 13 (v.toNat % 2048 + 2048 * (decide (v.toNat / 2048 % 2 = 1)).toNat + 4096 * (decide (v.toNat / 4096 = 1)).toNat) = v := by
  apply BitVec.eq_of_toNat_eq
  have := v.isLt
  have a : (decide (v.toNat / 2048 % 2 = 1)).toNat = v.toNat / 2048 % 2 := by
    rcases Nat.mod_two_eq_zero_or_one (v.toNat / 2048) with h | h <;> simp [h]
  have b : (decide (v.toNat / 4096 = 1)).toNat = v.toNat / 4096 := by
    rcases (by omega : v.toNat / 4096 = 0 ∨ v.toNat / 4096 = 1) with h | h <;> simp [h]
  rw [a, b, BitVec.toNat_ofNat]; omega

@[simp] theorem join64 (v : BitVec 64) :
    BitVec.ofNat 64 (v.toNat % 4294967296 + 4294967296 * (v.toNat / 4294967296 % 4294967296)) = v := by
  apply BitVec.eq_of_toNat_eq
  have := v.isLt
  rw [BitVec.toNat_ofNat]; omega

/-! ### Bytes -/

/-- Nothing stands beyond the length of an instruction (R198). -/
structure Tidy (e : Enc) : Prop where
  len : e.l.toNat < 3
  two : e.l = 0 → e.p2 = 0
  three : e.l.toNat < 2 → e.p3 = 0

theorem toNat_bool (b : Bool) : b.toNat = 0 ∧ b = false ∨ b.toNat = 1 ∧ b = true := by cases b <;> simp

theorem unpack_pack (e : Enc) (h : Tidy e) (x y : Parcel) (hx : e.l ≠ 0 → x = e.p2) (hy : e.l.toNat = 2 → y = e.p3) :
    Enc.unpack e.parcel0 e.parcel1 x y = e := by
  obtain ⟨hl, h2, h3⟩ := h
  obtain ⟨l, maj, g, gn, d, a, b, ma, mb, mn, fx, p2, p3⟩ := e
  simp only at hl h2 h3 hx hy
  have i1 := maj.isLt; have i2 := g.isLt; have i3 := d.isLt; have i4 := a.isLt; have i5 := b.isLt
  have i6 := mn.isLt; have i7 := fx.isLt
  have x0 : Enc.parcel0 { l, maj, g, gn, d, a, b, ma, mb, mn, fx, p2, p3 } =
      BitVec.ofNat 32 (l.toNat + 4 * maj.toNat + 256 * g.toNat + 4096 * gn.toNat + 8192 * d.toNat + 16777216 * (a.toNat % 256)) := rfl
  have x1 : Enc.parcel1 { l, maj, g, gn, d, a, b, ma, mb, mn, fx, p2, p3 } =
      BitVec.ofNat 32 (a.toNat / 256 + 8 * b.toNat + 16384 * ma.toNat + 32768 * mb.toNat + 65536 * mn.toNat + 16777216 * fx.toNat) := rfl
  rw [x0, x1]
  simp only [Enc.unpack, BitVec.toNat_ofNat, Enc.mk.injEq]
  refine ⟨?_, ?_, ?_, ?_, ?_, ?_, ?_, ?_, ?_, ?_, ?_, ?_, ?_⟩
  · apply BitVec.eq_of_toNat_eq; rw [BitVec.toNat_ofNat]; have := l.isLt; rcases toNat_bool gn with ⟨h, _⟩ | ⟨h, _⟩ <;> rw [h] <;> omega
  · apply BitVec.eq_of_toNat_eq; rw [BitVec.toNat_ofNat]; rcases toNat_bool gn with ⟨h, _⟩ | ⟨h, _⟩ <;> rw [h] <;> omega
  · apply BitVec.eq_of_toNat_eq; rw [BitVec.toNat_ofNat]; rcases toNat_bool gn with ⟨h, _⟩ | ⟨h, _⟩ <;> rw [h] <;> omega
  · cases gn <;> simp <;> omega
  · apply BitVec.eq_of_toNat_eq; rw [BitVec.toNat_ofNat]; rcases toNat_bool gn with ⟨h, _⟩ | ⟨h, _⟩ <;> rw [h] <;> omega
  · apply BitVec.eq_of_toNat_eq; rw [BitVec.toNat_ofNat]; rcases toNat_bool gn with ⟨h, _⟩ | ⟨h, _⟩ <;> rcases toNat_bool ma with ⟨h', _⟩ | ⟨h', _⟩ <;> rcases toNat_bool mb with ⟨h'', _⟩ | ⟨h'', _⟩ <;> rw [h, h', h''] <;> omega
  · apply BitVec.eq_of_toNat_eq; rw [BitVec.toNat_ofNat];  rcases toNat_bool ma with ⟨h', _⟩ | ⟨h', _⟩ <;> rcases toNat_bool mb with ⟨h'', _⟩ | ⟨h'', _⟩ <;> rw [h', h''] <;> omega
  · cases ma <;> cases mb <;> simp <;> omega
  · cases ma <;> cases mb <;> simp <;> omega
  · apply BitVec.eq_of_toNat_eq; rw [BitVec.toNat_ofNat];  rcases toNat_bool ma with ⟨h', _⟩ | ⟨h', _⟩ <;> rcases toNat_bool mb with ⟨h'', _⟩ | ⟨h'', _⟩ <;> rw [h', h''] <;> omega
  · apply BitVec.eq_of_toNat_eq; rw [BitVec.toNat_ofNat];  rcases toNat_bool ma with ⟨h', _⟩ | ⟨h', _⟩ <;> rcases toNat_bool mb with ⟨h'', _⟩ | ⟨h'', _⟩ <;> rw [h', h''] <;> omega
  all_goals
    have hk : (l.toNat + 4 * maj.toNat + 256 * g.toNat + 4096 * gn.toNat + 8192 * d.toNat + 16777216 * (a.toNat % 256)) % 2 ^ 32 % 4 = l.toNat := by
      have := l.isLt; rcases toNat_bool gn with ⟨h, _⟩ | ⟨h, _⟩ <;> rw [h] <;> omega
    rw [hk]
  · split
    · rename_i h; exact (h2 (BitVec.eq_of_toNat_eq h)).symm
    · rename_i h; exact hx (fun e => h (by rw [e]; rfl))
  · split
    · rename_i h; exact (h3 h).symm
    · exact hy (by omega)

theorem parcelAt_bytes (p : Parcel) (bs : List Byte) : parcelAt (parcelBytes p ++ bs) 0 = p := by
  apply BitVec.eq_of_toNat_eq
  have := p.isLt
  simp [parcelAt, parcelBytes]; omega
theorem parcelAt_next (p : Parcel) (bs : List Byte) (k : Nat) : parcelAt (parcelBytes p ++ bs) (k + 1) = parcelAt bs k := by
  have : ∀ j, (parcelBytes p ++ bs).getD (4 * (k + 1) + j) 0 = bs.getD (4 * k + j) 0 := by
    intro j
    have : 4 * (k + 1) + j = (4 * k + j) + 4 := by omega
    rw [this]; simp [parcelBytes]
  simp only [parcelAt, this]

theorem len_parcel0 (e : Enc) : e.parcel0.toNat % 4 = e.l.toNat := by
  have := e.l.isLt
  simp only [Enc.parcel0, BitVec.toNat_ofNat]; omega

/-- Whatever bytes follow, the decoder reads the fields that were packed. -/
theorem decode_pack (e : Enc) (h : Tidy e) (off : Nat) (hoff : off + e.size ≤ 32) (rest : List Byte) :
    decode off (e.pack.flatMap parcelBytes ++ rest) = decodeFields e := by
  have hl := h.len
  have main : ∀ x y : Parcel, (e.l ≠ 0 → x = e.p2) → (e.l.toNat = 2 → y = e.p3) →
      decodeParcels off e.parcel0 e.parcel1 x y = decodeFields e := by
    intro x y hx hy
    have : ¬ (e.l.toNat = 3) := by omega
    have hs : ¬ (32 < off + 8 + 4 * e.l.toNat) := by simp only [Enc.size] at hoff; omega
    simp only [decodeParcels, len_parcel0, this, hs, if_false, unpack_pack e h x y hx hy]
  rcases (by omega : e.l.toNat = 0 ∨ e.l.toNat = 1 ∨ e.l.toNat = 2) with hk | hk | hk
  · have h0 : e.l = 0 := BitVec.eq_of_toNat_eq hk
    simp only [decode, Enc.pack, hk, List.flatMap_cons, List.flatMap_nil, List.append_nil, List.append_assoc, parcelAt_bytes, parcelAt_next]
    exact main _ _ (fun h => absurd h0 h) (by omega)
  · simp only [decode, Enc.pack, hk, List.flatMap_cons, List.flatMap_nil, List.append_nil, List.append_assoc, parcelAt_bytes, parcelAt_next]
    exact main _ _ (fun _ => rfl) (by omega)
  · simp only [decode, Enc.pack, hk, List.flatMap_cons, List.flatMap_nil, List.append_nil, List.append_assoc, parcelAt_bytes, parcelAt_next]
    exact main _ _ (fun _ => rfl) (fun _ => rfl)

/-- The checks of steps 5 to 9 pass for the fields of a well-formed instruction that the opcode map reads back. -/
theorem decodeFields_ok {i : Instr} {e : Enc} {g : Guard} (hm : e.maj ≠ 0x3F) (hd : e.major = some ⟨i, false, false⟩) (he : e.gd = g)
    (hg : g.ok = true) (h : i.wf = true) : decodeFields e = .ok i := by
  simp only [Instr.wf, Bool.and_eq_true, Option.isNone_iff_eq_none] at h
  have hm : e.maj ≠ 63#6 := hm
  simp [decodeFields, hm, hd, Dec.check, he, hg, h.1.1.2, h.1.2]

end Sys2Proof.Laws
end

