-- ==== Sys2Proof/Laws/Shapes.lean ====
section
/-! SUPPORT. For each shape of encoding: the fields its encoder writes, and that the decoder of the shape reads them back. -/
set_option Elab.async false
namespace Sys2Proof.Laws

/-- The fixed fields of an encoding: major, minor, guard, and nothing beyond its length. -/
structure Fits (e : Enc) (M N : Nat) (g : Guard) : Prop where
  maj : e.maj = BitVec.ofNat 6 M
  mn : e.mn = BitVec.ofNat 8 N
  gd : e.gd = g
  tidy : Tidy e

theorem gd_of {e : Enc} {g : Guard} (h1 : e.g = BitVec.ofNat 4 g.p.val) (h2 : e.gn = g.neg) : e.gd = g := by
  obtain ⟨⟨p, hp⟩, n⟩ := g
  simp [Enc.gd, h1, h2]; omega

theorem tidy0 {e : Enc} (h : e.l = 0) (h2 : e.p2 = 0) (h3 : e.p3 = 0) : Tidy e := ⟨by simp [h], fun _ => h2, fun _ => h3⟩
theorem tidy1 {e : Enc} (h : e.l = 1) (h3 : e.p3 = 0) : Tidy e := ⟨by simp [h], by simp [h], fun _ => h3⟩
theorem tidy2 {e : Enc} (h : e.l = 2) : Tidy e := ⟨by simp [h], by simp [h], by simp [h]⟩

theorem fits0 {e : Enc} {M N : Nat} {g : Guard} (a : e.maj = BitVec.ofNat 6 M) (b : e.mn = BitVec.ofNat 8 N)
    (h1 : e.g = BitVec.ofNat 4 g.p.val) (h2 : e.gn = g.neg) (t : Tidy e) : Fits e M N g := ⟨a, b, gd_of h1 h2, t⟩

@[simp] theorem gd_def (e : Enc) : e.gd = ⟨⟨e.g.toNat, e.g.isLt⟩, e.gn⟩ := rfl
@[simp] theorem dN_def (e : Enc) : e.dN = .ofBits e.d := rfl
@[simp] theorem aN_def (e : Enc) : e.aN = .ofBits e.a := rfl
@[simp] theorem bN_def (e : Enc) : e.bN = .ofBits e.b := rfl
@[simp] theorem aS_def (e : Enc) : e.aS = ⟨e.aN, e.ma⟩ := rfl
@[simp] theorem bS_def (e : Enc) : e.bS = ⟨e.bN, e.mb⟩ := rfl
@[simp] theorem aR_def (e : Enc) : e.aR = ⟨e.aN, e.ma⟩ := rfl
@[simp] theorem bR_def (e : Enc) : e.bR = ⟨e.bN, e.mb⟩ := rfl
@[simp] theorem aV_def (e : Enc) : e.aV = ⟨Enc.low e.a 64, e.ma⟩ := rfl
@[simp] theorem bV_def (e : Enc) : e.bV = ⟨Enc.low e.b 64, e.mb⟩ := rfl
@[simp] theorem dV_def (e : Enc) : e.dV = Enc.low e.d 64 := rfl
@[simp] theorem tyHi_def (e : Enc) : e.tyHi = .ofCode (e.fx.toNat / 16) := rfl
@[simp] theorem tyLo_def (e : Enc) : e.tyLo = .ofCode e.fx.toNat := rfl
@[simp] theorem bit3_def (e : Enc) : e.bit3 = decide (e.fx.toNat / 8 % 2 = 1) := rfl
@[simp] theorem bit7_def (e : Enc) : e.bit7 = decide (e.fx.toNat / 128 = 1) := rfl
@[simp] theorem i13_def (e : Enc) : e.i13 = BitVec.ofNat 13 (e.b.toNat + 2048 * e.ma.toNat + 4096 * e.mb.toNat) := rfl
@[simp] theorem ext_def (e : Enc) : e.ext = BitVec.ofNat 64 (e.p2.toNat + 4294967296 * e.p3.toNat) := rfl
@[simp] theorem rD_def (e : Enc) : e.rD = decide (e.d ≠ 0) := rfl
@[simp] theorem rA_def (e : Enc) : e.rA = (decide (e.a ≠ 0) || e.ma) := rfl
@[simp] theorem rB_def (e : Enc) : e.rB = (decide (e.b ≠ 0) || e.mb) := rfl
@[simp] theorem rTI_def (e : Enc) : e.rTI = decide (e.fx.toNat % 8 ≠ 0) := rfl
@[simp] theorem rZI_def (e : Enc) : e.rZI = (decide (e.fx.toNat % 8 ≠ 0) || decide (e.fx.toNat / 16 ≠ 0)) := rfl
@[simp] theorem rImm_def (e : Enc) : e.rImm = (decide (e.l ≠ 0) && e.rB) := rfl
@[simp] theorem rAImm_def (e : Enc) : e.rAImm = (decide (e.a ≠ 0) || (decide (e.l ≠ 0) && e.ma)) := rfl
@[simp] theorem over_def (x : BitVec 11) (k : Nat) : Enc.above x k = decide (k ≤ x.toNat) := rfl
@[simp] theorem no13_def (e : Enc) : e.no13 = (!e.bit3 || decide (e.l ≠ 0)) := rfl
@[simp] theorem noRm_def (e : Enc) : e.noRm = decide (e.lo3 ≠ 0) := rfl
@[simp] theorem vOnly_def (e : Enc) : e.vOnly = (e.noRm || e.bit3) := rfl
@[simp] theorem rTile_def (e : Enc) : e.rTile = (Enc.above e.b 4 || e.mb) := rfl
@[simp] theorem rNud_def (e : Enc) : e.rNud = decide (e.mid4 ≠ 0) := rfl
@[simp] theorem tile_def (e : Enc) : e.tile = Enc.low e.b 4 := rfl
@[simp] theorem base_def (g : Guard) (M N f : Nat) :
    Enc.base g M N f = { maj := BitVec.ofNat 6 M, mn := BitVec.ofNat 8 N, fx := BitVec.ofNat 8 f, g := BitVec.ofNat 4 g.p.val, gn := g.neg } := rfl
@[simp] theorem put13_def (e : Enc) (v : BitVec 13) :
    e.put13 v = { e with b := BitVec.ofNat 11 v.toNat, ma := v.toNat / 2048 % 2 = 1, mb := v.toNat / 4096 = 1 } := rfl
@[simp] theorem putA_def (e : Enc) (s : Src) : e.putA s = { e with a := s.name.bits, ma := s.trap } := rfl
@[simp] theorem putB_def (e : Enc) (s : Src) : e.putB s = { e with b := s.name.bits, mb := s.trap } := rfl
@[simp] theorem putAR_def (e : Enc) (s : Run) : e.putAR s = { e with a := s.first.bits, ma := s.trap } := rfl
@[simp] theorem putBR_def (e : Enc) (s : Run) : e.putBR s = { e with b := s.first.bits, mb := s.trap } := rfl
@[simp] theorem putAV_def (e : Enc) (s : VSrc) : e.putAV s = { e with a := BitVec.ofNat 11 s.v.val, ma := s.trap } := rfl
@[simp] theorem putBV_def (e : Enc) (s : VSrc) : e.putBV s = { e with b := BitVec.ofNat 11 s.v.val, mb := s.trap } := rfl
@[simp] theorem putC_def (e : Enc) (s : Src) : e.putC s = { e with l := 1, p2 := BitVec.ofNat 32 (s.name.num + 2048 * s.trap.toNat) } := rfl
@[simp] theorem putCV_def (e : Enc) (s : VSrc) : e.putCV s = { e with l := 1, p2 := BitVec.ofNat 32 (s.v.val + 2048 * s.trap.toNat) } := rfl

/-- A field of a narrower kind comes back. -/
@[simp] theorem low_ofNat {k : Nat} (n : Fin k) (h : 0 < k) (hk : k ≤ 2048) : Enc.low (BitVec.ofNat 11 n.val) k h = n := by
  apply Fin.ext
  have := n.isLt
  simp only [Enc.low, BitVec.toNat_ofNat]
  rw [Nat.mod_eq_of_lt (a := n.val) (by omega), Nat.mod_eq_of_lt this]

@[simp] theorem low_ofFin {k : Nat} (n : Fin k) (h : 0 < k) (hk : k ≤ 2048) : Enc.low (Enc.ofFin n) k h = n := low_ofNat n h hk

theorem ofFin_toNat {k : Nat} (n : Fin k) (hk : k ≤ 2048) : (Enc.ofFin n).toNat = n.val := by
  have := n.isLt
  simp only [Enc.ofFin, BitVec.toNat_ofNat]; omega

@[simp] theorem not_over {k j : Nat} (n : Fin k) (hk : k ≤ 2048) (h : k ≤ j) : ¬ (j ≤ (Enc.ofFin n).toNat) := by
  have := n.isLt
  rw [ofFin_toNat n hk]; omega

@[simp] theorem not_over' {k j : Nat} (n : Fin k) (hk : k ≤ 2048) (h : k ≤ j) : ¬ (j ≤ n.val % 2 ^ 11) := by
  have := n.isLt
  rw [Nat.mod_eq_of_lt (by omega)]; omega

@[simp] theorem ofFin_lt {k j : Nat} (n : Fin k) (hk : k ≤ 2048) (h : k ≤ j) : (Enc.ofFin n).toNat < j := by
  have := n.isLt
  rw [ofFin_toNat n hk]; omega

/-! ### Scalar -/

theorem fits_alu (g : Guard) (M N : Nat) (x : Alu) : Fits (Enc.ofAlu g M N x) M N g := by
  obtain ⟨t, d, a, s | v | v | v⟩ := x
  · exact fits0 rfl rfl rfl rfl (tidy0 rfl rfl rfl)
  · exact fits0 rfl rfl rfl rfl (tidy0 rfl rfl rfl)
  · exact fits0 rfl rfl rfl rfl (tidy1 rfl rfl)
  · exact fits0 rfl rfl rfl rfl (tidy2 rfl)

theorem fits_un (g : Guard) (M N : Nat) (x : Un) : Fits (Enc.ofUn g M N x) M N g := fits0 rfl rfl rfl rfl (tidy0 rfl rfl rfl)

theorem fits_cmp (g : Guard) (N : Nat) (x : CmpArgs) : Fits (Enc.ofCmp g N x) 0x10 N g := by
  obtain ⟨t, d, a, s | v | v | v⟩ := x
  · exact fits0 rfl rfl rfl rfl (tidy0 rfl rfl rfl)
  · exact fits0 rfl rfl rfl rfl (tidy0 rfl rfl rfl)
  · exact fits0 rfl rfl rfl rfl (tidy1 rfl rfl)
  · exact fits0 rfl rfl rfl rfl (tidy2 rfl)

/-- The arithmetic of FX with a type above the bit IMM. -/
theorem fx_bits (t : Ty) : t.code * 16 % 256 / 8 % 2 = 0 ∧ (t.code * 16 + 8) % 256 / 8 % 2 = 1 ∧ t.code * 16 % 8 = 0 ∧ (t.code * 16 + 8) % 8 = 0 := by
  have := code_lt t
  omega

theorem alu_of (g : Guard) (M N : Nat) (x : Alu) (f : Guard → Alu → Instr) (h : modeFits x.a x.b = true) :
    (Enc.ofAlu g M N x).alu f = some ⟨f g x, false, false⟩ := by
  obtain ⟨t, d, ⟨an, am⟩, b⟩ := x
  obtain ⟨h1, h2, h3, h4⟩ := fx_bits t
  rcases b with s | v | v | v
  · simp [Enc.ofAlu, Enc.second2, Enc.alu, Enc.first, Enc.second, h1, h3]
  · simp [modeFits] at h
    simp [Enc.ofAlu, Enc.second2, Enc.alu, Enc.first, Enc.second, Enc.imm, Enc.aImm, h2, h4, h]
  · simp [Enc.ofAlu, Enc.second2, Enc.alu, Enc.first, Enc.second, Enc.imm, Enc.aImm, Enc.putImm, h2, h4]
  · simp [Enc.ofAlu, Enc.second2, Enc.alu, Enc.first, Enc.second, Enc.imm, Enc.aImm, Enc.putImm, h2, h4]

theorem un_of (g : Guard) (M N : Nat) (x : Un) (f : Guard → Un → Instr) : (Enc.ofUn g M N x).un f = some ⟨f g x, false, false⟩ := by
  obtain ⟨h1, h2, h3, h4⟩ := fx_bits x.t
  simp [Enc.ofUn, Enc.un, h1, h3]

theorem cmp_of (g : Guard) (N : Nat) (x : CmpArgs) (f : Guard → CmpArgs → Instr) (h : modeFits x.a x.b = true) :
    (Enc.ofCmp g N x).cmp f = some ⟨f g x, false, false⟩ := by
  obtain ⟨t, d, ⟨an, am⟩, b⟩ := x
  obtain ⟨h1, h2, h3, h4⟩ := fx_bits t
  rcases b with s | v | v | v
  · simp [Enc.ofCmp, Enc.second2, Enc.cmp, Enc.first, Enc.second, h1, h3]
  · simp [modeFits] at h
    simp [Enc.ofCmp, Enc.second2, Enc.cmp, Enc.first, Enc.second, Enc.imm, Enc.aImm, h2, h4, h]
  · simp [Enc.ofCmp, Enc.second2, Enc.cmp, Enc.first, Enc.second, Enc.imm, Enc.aImm, Enc.putImm, h2, h4]
  · simp [Enc.ofCmp, Enc.second2, Enc.cmp, Enc.first, Enc.second, Enc.imm, Enc.aImm, Enc.putImm, h2, h4]

theorem fits_pbin (g : Guard) (N : Nat) (x : PBin) : Fits (Enc.ofPBin g N x) 0x11 N g := fits0 rfl rfl rfl rfl (tidy0 rfl rfl rfl)

theorem pbin_of (g : Guard) (N : Nat) (x : PBin) (f : Guard → PBin → Instr) : (Enc.ofPBin g N x).pbin f = some ⟨f g x, false, false⟩ := by
  simp [Enc.ofPBin, Enc.pbin, Enc.rPred]

theorem fits_pun (g : Guard) (N : Nat) (x : PUn) : Fits (Enc.ofPUn g N x) 0x11 N g := fits0 rfl rfl rfl rfl (tidy0 rfl rfl rfl)

theorem pun_of (g : Guard) (N : Nat) (x : PUn) (f : Guard → PUn → Instr) : (Enc.ofPUn g N x).pun f = some ⟨f g x, false, false⟩ := by
  simp [Enc.ofPUn, Enc.pun, Enc.rPred]

theorem fits_a (g : Guard) (M N : Nat) (s : Src) : Fits ((Enc.base g M N 0).putA s) M N g := fits0 rfl rfl rfl rfl (tidy0 rfl rfl rfl)

theorem ziA_of (g : Guard) (M N : Nat) (s : Src) (f : Guard → Src → Instr) :
    ((Enc.base g M N 0).putA s).ziA f = some ⟨f g s, false, false⟩ := by
  simp [Enc.ziA]

theorem fits_base (g : Guard) (M N k : Nat) : Fits (Enc.base g M N k) M N g := fits0 rfl rfl rfl rfl (tidy0 rfl rfl rfl)

theorem ziZ_of (g : Guard) (M N : Nat) (f : Guard → Instr) : (Enc.base g M N 0).ziZ f = some ⟨f g, false, false⟩ := by
  simp [Enc.ziZ]

theorem fits_rel (g : Guard) (M N k : Nat) (d : BitVec 11) (v : Imm) : Fits (Enc.ofRel g M N k d v) M N g := by
  rcases v with v | v | v
  · exact fits0 rfl rfl rfl rfl (tidy0 rfl rfl rfl)
  · exact fits0 rfl rfl rfl rfl (tidy1 rfl rfl)
  · exact fits0 rfl rfl rfl rfl (tidy2 rfl)

theorem rel_imm (g : Guard) (M N k : Nat) (d : BitVec 11) (v : Imm) : (Enc.ofRel g M N k d v).imm = v := by
  rcases v with v | v | v <;> simp [Enc.ofRel, Enc.putImm, Enc.imm]

theorem rel_fx (g : Guard) (M N k : Nat) (d : BitVec 11) (v : Imm) : (Enc.ofRel g M N k d v).fx = BitVec.ofNat 8 k := by
  rcases v with v | v | v <;> rfl

theorem rel_d (g : Guard) (M N k : Nat) (d : BitVec 11) (v : Imm) : (Enc.ofRel g M N k d v).d = d := by
  rcases v with v | v | v <;> rfl

theorem rel_rest (g : Guard) (M N k : Nat) (d : BitVec 11) (v : Imm) :
    (Enc.ofRel g M N k d v).rAImm = false ∧ (Enc.ofRel g M N k d v).rImm = false := by
  rcases v with v | v | v <;> simp [Enc.ofRel, Enc.putImm]

/-- Parcel 2 as C with its mode. -/
theorem c_name (n : Name) (t : Bool) : (BitVec.ofNat 11 ((n.num + 2048 * t.toNat) % 4294967296)) = n.bits := by
  have := num_lt n
  apply BitVec.eq_of_toNat_eq
  cases t <;> simp [Name.bits] <;> omega

theorem c_trap (n : Nat) (h : n < 2048) (t : Bool) : decide ((n + 2048 * t.toNat) % 4294967296 / 2048 % 2 = 1) = t := by
  cases t <;> simp <;> omega

theorem c_rest (n : Nat) (h : n < 2048) (t : Bool) : (n + 2048 * t.toNat) % 4294967296 / 4096 = 0 := by
  cases t <;> simp <;> omega

/-- The C field of a word that `putC` has written. -/
theorem cS_of {e : Enc} (s : Src) (h : e.p2 = BitVec.ofNat 32 (s.name.num + 2048 * s.trap.toNat)) : e.cS = s ∧ e.rC = false := by
  have := num_lt s.name
  constructor
  · simp only [Enc.cS, Enc.c, Enc.mc, h, BitVec.toNat_ofNat, Nat.reducePow, c_name, ofBits_bits, c_trap _ this]
  · simp only [Enc.rC, h, BitVec.toNat_ofNat, Nat.reducePow, c_rest _ this, ne_eq, not_true_eq_false, decide_false]

theorem cV_of {e : Enc} (s : VSrc) (h : e.p2 = BitVec.ofNat 32 (s.v.val + 2048 * s.trap.toNat)) :
    e.cV = s ∧ e.rC = false ∧ Enc.above e.c 64 = false := by
  obtain ⟨v, t⟩ := s
  have hv := v.isLt
  simp only at h
  have a : (v.val + 2048 * t.toNat) % 4294967296 % 2 ^ 11 = v.val := by cases t <;> simp <;> omega
  refine ⟨?_, ?_, ?_⟩
  · simp only [Enc.cV, Enc.c, Enc.mc, Enc.low, h, BitVec.toNat_ofNat, Nat.reducePow, c_trap _ (by omega : v.val < 2048)]
    congr 1
    apply Fin.ext
    simp only [Nat.reducePow] at a
    simp only [a]; omega
  · simp only [Enc.rC, h, BitVec.toNat_ofNat, Nat.reducePow, c_rest _ (by omega : v.val < 2048), ne_eq, not_true_eq_false, decide_false]
  · simp only [Nat.reducePow] at a
    simp only [Enc.above, Enc.c, h, BitVec.toNat_ofNat, Nat.reducePow, a]
    simp

theorem fits_range (g : Guard) (N : Nat) (x : WRange) : Fits (Enc.ofRange g N x) 0x18 N g := by
  obtain ⟨a, s | v⟩ := x <;> exact fits0 rfl rfl rfl rfl (tidy0 rfl rfl rfl)

theorem range_of (g : Guard) (N : Nat) (x : WRange) (f : Guard → WRange → Instr) (h : ∀ v, x.c = .imm v → x.a.trap = false) :
    (Enc.ofRange g N x).wrange f = some ⟨f g x, false, false⟩ := by
  obtain ⟨⟨an, at'⟩, s | v⟩ := x
  · simp [Enc.ofRange, Enc.wrange]
  · have := h v rfl
    simp only at this
    simp [Enc.ofRange, Enc.wrange, this]

/-! ### Memory -/

/-- The arithmetic of FX as two nibbles. -/
theorem fx_nib (n : Fin 16) (c : Nat) (h : c < 16) : (n.val * 16 + c) % 256 / 16 % 16 = n.val ∧ (n.val * 16 + c) % 256 % 16 = c
    ∧ (n.val * 16 + c) / 16 % 16 = n.val ∧ (n.val * 16 + c) % 16 = c := by
  have := n.isLt
  omega

theorem hi4_of {e : Enc} (n : Fin 16) (c : Nat) (hc : c < 16) (h : e.fx = BitVec.ofNat 8 (n.val * 16 + c)) : e.hi4 = n := by
  apply Fin.ext
  simp only [Enc.hi4, h, BitVec.toNat_ofNat]
  exact (fx_nib n c hc).1

theorem lo4_of {e : Enc} (n : Fin 16) (c : Nat) (hc : c < 16) (h : e.fx = BitVec.ofNat 8 (n.val * 16 + c)) : e.lo4.val = c := by
  simp only [Enc.lo4, h, BitVec.toNat_ofNat]
  exact (fx_nib n c hc).2.1

theorem tyLo_of {e : Enc} (n : Nat) (t : Ty) (h : e.fx = BitVec.ofNat 8 (n * 16 + t.code)) : e.tyLo = t := by
  simp [h]

/-- MIN of a synchronising form: ORD, SCOPE, OP. -/
theorem mn_of {e : Enc} (o k p : Nat) (ho : o < 4) (hk : k < 8) (hp : p < 8) (h : e.mn = BitVec.ofNat 8 (o * 64 + k * 8 + p)) :
    e.ord = o ∧ e.msc = k ∧ e.op = p := by
  simp only [Enc.ord, Enc.msc, Enc.op, h, BitVec.toNat_ofNat]
  omega

theorem short_of (k : Fin 5) : Enc.short (k.val + 1) = k := by
  apply Fin.ext
  have := k.isLt
  simp only [Enc.short]; omega

theorem field_lt (s : Scope) : s.field < 6 := by
  cases s with
  | short k => have := k.isLt; simp only [Scope.field]; omega
  | word c => exact Nat.zero_lt_succ 5
  | ext v => exact Nat.zero_lt_succ 5

theorem put_fx (e : Enc) (o : Off) : (e.putOff o).fx = e.fx ∧ (e.putOff o).mn = e.mn ∧ (e.putOff o).maj = e.maj ∧ (e.putOff o).g = e.g
    ∧ (e.putOff o).gn = e.gn ∧ (e.putOff o).d = e.d ∧ (e.putOff o).a = e.a := by
  cases o <;> simp [Enc.putOff]

theorem tidy_off {e : Enc} (o : Off) (h : e.l = 0) (h2 : e.p2 = 0) (h3 : e.p3 = 0) : Tidy (e.putOff o) := by
  cases o with
  | short v => exact tidy0 h h2 h3
  | long v => exact tidy1 rfl h3

theorem fits_mem (g : Guard) (M : Nat) (x : Mem) : Fits (Enc.ofMem g M x) M 0 g := by
  have p := put_fx { Enc.base g M 0 (x.nud.val * 16 + x.t.code) with d := x.d.bits, a := x.a.bits } x.off
  exact fits0 p.2.2.1 p.2.1 p.2.2.2.1 p.2.2.2.2.1 (tidy_off _ rfl rfl rfl)

theorem mem_of (g : Guard) (M : Nat) (x : Mem) (f : Guard → Mem → Instr) : (Enc.ofMem g M x).memPlain f = some ⟨f g x, false, false⟩ := by
  obtain ⟨t, n, d, a, off⟩ := x
  have hc := code_lt t
  have h1 : (Enc.ofMem g M ⟨t, n, d, a, off⟩).hi4 = n := hi4_of n t.code hc (put_fx _ _).1
  rcases off with v | v
  · simp [Enc.memPlain, h1]
    simp [Enc.ofMem, Enc.putOff, Enc.offset, Enc.msc]
  · simp [Enc.memPlain, h1]
    simp [Enc.ofMem, Enc.putOff, Enc.offset, Enc.msc]

theorem fits_vmem (g : Guard) (M : Nat) (x : VMem) : Fits (Enc.ofVMem g M x) M 0 g := by
  have p := put_fx { Enc.base g M 0 (x.nud.val * 16 + x.t.code) with d := Enc.ofFin x.v, a := x.a.bits } x.off
  exact fits0 p.2.2.1 p.2.1 p.2.2.2.1 p.2.2.2.2.1 (tidy_off _ rfl rfl rfl)

theorem vmem_of (g : Guard) (M : Nat) (x : VMem) (f : Guard → VMem → Instr) : (Enc.ofVMem g M x).vmemPlain f = some ⟨f g x, false, false⟩ := by
  obtain ⟨t, n, d, a, off⟩ := x
  have hc := code_lt t
  have h1 : (Enc.ofVMem g M ⟨t, n, d, a, off⟩).hi4 = n := hi4_of n t.code hc (put_fx _ _).1
  rcases off with v | v
  · simp [Enc.vmemPlain, h1]
    simp [Enc.ofVMem, Enc.putOff, Enc.offset, Enc.msc]
  · simp [Enc.vmemPlain, h1]
    simp [Enc.ofVMem, Enc.putOff, Enc.offset, Enc.msc]

theorem put_rest (e : Enc) (s : Scope) : (s.put e).fx = e.fx ∧ (s.put e).mn = e.mn ∧ (s.put e).maj = e.maj ∧ (s.put e).g = e.g
    ∧ (s.put e).gn = e.gn ∧ (s.put e).d = e.d ∧ (s.put e).a = e.a ∧ (s.put e).b = e.b ∧ (s.put e).ma = e.ma ∧ (s.put e).mb = e.mb := by
  cases s <;> simp [Scope.put]

theorem tidy_scope {e : Enc} (s : Scope) (h : e.l = 0) (h2 : e.p2 = 0) (h3 : e.p3 = 0) : Tidy (s.put e) := by
  cases s with
  | short v => exact tidy0 h h2 h3
  | word c => exact tidy1 rfl h3
  | ext v => exact tidy2 rfl

/-- A scope of a form whose [47:35] is no offset comes back. -/
theorem scope_of {e : Enc} (s : Scope) (h : e.l = 0) :
    (s.put e).scope s.field = (s, false) ∧ (s.put e).rScope s.field = false := by
  cases s with
  | short k =>
    have := k.isLt
    have k5 : ¬ (5 < k.val + 1) := by omega
    simp [Scope.put, Scope.field, Enc.scope, Enc.rScope, h, short_of, k5]
  | word c =>
    have k := cS_of (e := Scope.put (.word c) e) c rfl
    simp [Scope.put, Scope.field, Enc.scope, Enc.rScope]
    exact k
  | ext v =>
    simp [Scope.put, Scope.field, Enc.scope, Enc.rScope]

/-- The fields of a plain base that `putOff` and a scope complete. -/
theorem offScope_of {e : Enc} (o : Off) (s : Scope) (hs : s.fits o = true) (h : e.l = 0) (hb : e.b = 0) (ha : e.ma = false) (hmb : e.mb = false)
    (h2 : e.p2 = 0) (h3 : e.p3 = 0) (hm : e.msc = s.field) : (s.put (e.putOff o)).offScope = (o, s, false, false) ∧ Tidy (s.put (e.putOff o)) := by
  have hm' : (s.put (e.putOff o)).msc = s.field := by
    rw [← hm]; simp only [Enc.msc, (put_rest _ s).2.1, (put_fx _ o).2.1]
  rcases o with v | v
  · refine ⟨?_, tidy_scope s h h2 h3⟩
    simp only [Enc.offScope, hm']
    cases s with
    | short k =>
      have := k.isLt
      have k5 : ¬ (5 < k.val + 1) := by omega
      simp [Scope.put, Scope.field, Enc.putOff, h, short_of, k5]
    | word c =>
      have k := cS_of (e := Scope.put (.word c) (e.putOff (.short v))) c rfl
      simp [Scope.put, Scope.field, Enc.putOff]
      exact k
    | ext w => simp [Scope.put, Scope.field, Enc.putOff]
  · cases s with
    | short k =>
      have := k.isLt
      have k5 : ¬ (5 < k.val + 1) := by omega
      refine ⟨?_, tidy1 rfl h3⟩
      simp only [Enc.offScope, hm']
      simp [Scope.put, Scope.field, Enc.putOff, short_of, k5, hb, ha, hmb]
    | word c => simp [Scope.fits] at hs
    | ext w => simp [Scope.fits] at hs

theorem sync_base (g : Guard) (M o k f : Nat) (d a : BitVec 11) (hk : k < 8) :
    { Enc.base g M (o * 64 + k * 8) f with d := d, a := a }.msc = k := by
  simp [Enc.msc]; omega

theorem fits_msync (g : Guard) (M o : Nat) (x : MemSync) (h : x.sc.fits x.off = true) :
    Fits (Enc.ofMemSync g M o x) M (o * 64 + x.sc.field * 8) g := by
  have hk := field_lt x.sc
  have p := put_fx { Enc.base g M (o * 64 + x.sc.field * 8) (x.nud.val * 16 + x.t.code) with d := x.d.bits, a := x.a.bits } x.off
  have q := put_rest (Enc.putOff { Enc.base g M (o * 64 + x.sc.field * 8) (x.nud.val * 16 + x.t.code) with d := x.d.bits, a := x.a.bits } x.off) x.sc
  refine fits0 (q.2.2.1.trans p.2.2.1) (q.2.1.trans p.2.1) (q.2.2.2.1.trans p.2.2.2.1) (q.2.2.2.2.1.trans p.2.2.2.2.1) ?_
  exact (offScope_of x.off x.sc h rfl rfl rfl rfl rfl rfl (sync_base g M o _ _ _ _ (by omega))).2

theorem msync_of (g : Guard) (M o : Nat) (x : MemSync) (f : Guard → MemSync → Instr) (h : x.sc.fits x.off = true) :
    (Enc.ofMemSync g M o x).memSync f = some ⟨f g x, false, false⟩ := by
  have F := fits_msync g M o x h
  have hk := field_lt x.sc
  have p := put_fx { Enc.base g M (o * 64 + x.sc.field * 8) (x.nud.val * 16 + x.t.code) with d := x.d.bits, a := x.a.bits } x.off
  have q := put_rest (Enc.putOff { Enc.base g M (o * 64 + x.sc.field * 8) (x.nud.val * 16 + x.t.code) with d := x.d.bits, a := x.a.bits } x.off) x.sc
  have s := (offScope_of x.off x.sc h rfl rfl rfl rfl rfl rfl (sync_base g M o _ (x.nud.val * 16 + x.t.code) x.d.bits x.a.bits (by omega))).1
  have fx := q.1.trans p.1
  have hd := q.2.2.2.2.2.1.trans p.2.2.2.2.2.1
  have ha := q.2.2.2.2.2.2.1.trans p.2.2.2.2.2.2
  have e1 : (Enc.ofMemSync g M o x).dN = x.d := by rw [dN_def]; exact (congrArg Name.ofBits hd).trans (ofBits_bits _)
  have e2 : (Enc.ofMemSync g M o x).aN = x.a := by rw [aN_def]; exact (congrArg Name.ofBits ha).trans (ofBits_bits _)
  have e3 := hi4_of (e := Enc.ofMemSync g M o x) x.nud x.t.code (code_lt _) fx
  have e4 := tyLo_of (e := Enc.ofMemSync g M o x) x.nud.val x.t fx
  have e5 : (Enc.ofMemSync g M o x).offScope = (x.off, x.sc, false, false) := s
  simp only [Enc.memSync, e5, F.gd, e1, e2, e3, e4]

theorem fits_vsync (g : Guard) (M o : Nat) (x : VMemSync) (h : x.sc.fits x.off = true) :
    Fits (Enc.ofVMemSync g M o x) M (o * 64 + x.sc.field * 8) g := by
  have hk := field_lt x.sc
  have p := put_fx { Enc.base g M (o * 64 + x.sc.field * 8) (x.nud.val * 16 + x.t.code) with d := Enc.ofFin x.v, a := x.a.bits } x.off
  have q := put_rest (Enc.putOff { Enc.base g M (o * 64 + x.sc.field * 8) (x.nud.val * 16 + x.t.code) with d := Enc.ofFin x.v, a := x.a.bits } x.off) x.sc
  refine fits0 (q.2.2.1.trans p.2.2.1) (q.2.1.trans p.2.1) (q.2.2.2.1.trans p.2.2.2.1) (q.2.2.2.2.1.trans p.2.2.2.2.1) ?_
  exact (offScope_of x.off x.sc h rfl rfl rfl rfl rfl rfl (sync_base g M o _ _ _ _ (by omega))).2

theorem vsync_of (g : Guard) (M o : Nat) (x : VMemSync) (f : Guard → VMemSync → Instr) (h : x.sc.fits x.off = true) :
    (Enc.ofVMemSync g M o x).vmemSync f = some ⟨f g x, false, false⟩ := by
  have F := fits_vsync g M o x h
  have hk := field_lt x.sc
  have p := put_fx { Enc.base g M (o * 64 + x.sc.field * 8) (x.nud.val * 16 + x.t.code) with d := Enc.ofFin x.v, a := x.a.bits } x.off
  have q := put_rest (Enc.putOff { Enc.base g M (o * 64 + x.sc.field * 8) (x.nud.val * 16 + x.t.code) with d := Enc.ofFin x.v, a := x.a.bits } x.off) x.sc
  have s := (offScope_of x.off x.sc h rfl rfl rfl rfl rfl rfl (sync_base g M o _ (x.nud.val * 16 + x.t.code) (Enc.ofFin x.v) x.a.bits (by omega))).1
  have fx := q.1.trans p.1
  have hd := q.2.2.2.2.2.1.trans p.2.2.2.2.2.1
  have ha := q.2.2.2.2.2.2.1.trans p.2.2.2.2.2.2
  have e1 : (Enc.ofVMemSync g M o x).dV = x.v := by rw [dV_def]; exact (congrArg (fun y => Enc.low y 64) hd).trans (low_ofFin x.v _ (by decide))
  have e0 : Enc.above (Enc.ofVMemSync g M o x).d 64 = false := by
    rw [show (Enc.ofVMemSync g M o x).d = Enc.ofFin x.v from hd, over_def, decide_eq_false_iff_not]; exact not_over x.v (by decide) (Nat.le_refl _)
  have e2 : (Enc.ofVMemSync g M o x).aN = x.a := by rw [aN_def]; exact (congrArg Name.ofBits ha).trans (ofBits_bits _)
  have e3 := hi4_of (e := Enc.ofVMemSync g M o x) x.nud x.t.code (code_lt _) fx
  have e4 := tyLo_of (e := Enc.ofVMemSync g M o x) x.nud.val x.t fx
  have e5 : (Enc.ofVMemSync g M o x).offScope = (x.off, x.sc, false, false) := s
  simp only [Enc.vmemSync, e5, F.gd, e1, e2, e3, e4, e0, Bool.or_false]

theorem fits_optC {e : Enc} {M N : Nat} {g : Guard} (m : Option Src) (h : Fits e M N g) (h3 : e.p3 = 0) : Fits (e.putOptC m) M N g := by
  cases m with
  | none => exact h
  | some s => exact ⟨h.maj, h.mn, h.gd, tidy1 rfl h3⟩

theorem optC_of {e : Enc} (m : Option Src) (hl : e.l = 0) :
    (e.putOptC m).optC = m ∧ ((e.putOptC m).l = 1#2 → (e.putOptC m).rC = false) ∧ ¬ ((e.putOptC m).l = 2#2) := by
  cases m with
  | none => simp [Enc.putOptC, Enc.optC, hl]
  | some s =>
    have k := cS_of (e := e.putC s) s rfl
    refine ⟨?_, fun _ => k.2, by simp [Enc.putOptC]⟩
    show (if (1 : BitVec 2) = 0 then none else some (e.putC s).cS) = some s
    rw [k.1]; rfl

theorem putOptC_rest (e : Enc) (m : Option Src) : (e.putOptC m).fx = e.fx ∧ (e.putOptC m).mn = e.mn ∧ (e.putOptC m).d = e.d
    ∧ (e.putOptC m).a = e.a ∧ (e.putOptC m).b = e.b ∧ (e.putOptC m).ma = e.ma ∧ (e.putOptC m).mb = e.mb := by
  cases m <;> simp [Enc.putOptC]

theorem fits_stride (g : Guard) (M : Nat) (x : VStride) : Fits (Enc.ofStride g M x) M 0 g :=
  fits_optC x.m (fits0 rfl rfl rfl rfl (tidy0 rfl rfl rfl)) rfl

theorem stride_of (g : Guard) (M : Nat) (x : VStride) (f : Guard → VStride → Instr) :
    (Enc.ofStride g M x).vstride f = some ⟨f g x, false, false⟩ := by
  obtain ⟨t, n, v, a, b, m⟩ := x
  have F := fits_stride g M ⟨t, n, v, a, b, m⟩
  have o := optC_of (e := (({ Enc.base g M 0 (n.val * 16 + t.code) with d := Enc.ofFin v }.putA a).putB b)) m rfl
  have r := putOptC_rest (({ Enc.base g M 0 (n.val * 16 + t.code) with d := Enc.ofFin v }.putA a).putB b) m
  have e3 := hi4_of (e := Enc.ofStride g M ⟨t, n, v, a, b, m⟩) n t.code (code_lt _) r.1
  have e4 := tyLo_of (e := Enc.ofStride g M ⟨t, n, v, a, b, m⟩) n.val t r.1
  change (Enc.ofStride g M ⟨t, n, v, a, b, m⟩).optC = _ ∧ ((Enc.ofStride g M ⟨t, n, v, a, b, m⟩).l = 1#2 → (Enc.ofStride g M ⟨t, n, v, a, b, m⟩).rC = _) ∧ ¬ ((Enc.ofStride g M ⟨t, n, v, a, b, m⟩).l = 2#2) at o
  have k1 : (Enc.ofStride g M ⟨t, n, v, a, b, m⟩).d = Enc.ofFin v := r.2.2.1
  have k2 : (Enc.ofStride g M ⟨t, n, v, a, b, m⟩).a = a.name.bits := r.2.2.2.1
  have k3 : (Enc.ofStride g M ⟨t, n, v, a, b, m⟩).b = b.name.bits := r.2.2.2.2.1
  have k4 : (Enc.ofStride g M ⟨t, n, v, a, b, m⟩).ma = a.trap := r.2.2.2.2.2.1
  have k5 : (Enc.ofStride g M ⟨t, n, v, a, b, m⟩).mb = b.trap := r.2.2.2.2.2.2
  simp only [Enc.vstride, F.gd, F.mn, e3, e4, Enc.ord, Enc.msc, dV_def, aS_def, bS_def, aN_def, bN_def, k1, k2, k3, k4, k5, o.1, over_def]
  simp
  exact o.2

theorem fits_index (g : Guard) (M : Nat) (x : VIndex) : Fits (Enc.ofIndex g M x) M 0 g :=
  fits_optC x.m (fits0 rfl rfl rfl rfl (tidy0 rfl rfl rfl)) rfl

theorem index_of (g : Guard) (M : Nat) (x : VIndex) (f : Guard → VIndex → Instr) :
    (Enc.ofIndex g M x).vindex f = some ⟨f g x, false, false⟩ := by
  obtain ⟨t, n, v, a, b, m⟩ := x
  have F := fits_index g M ⟨t, n, v, a, b, m⟩
  have o := optC_of (e := (({ Enc.base g M 0 (n.val * 16 + t.code) with d := Enc.ofFin v }.putA a).putBV b)) m rfl
  have r := putOptC_rest (({ Enc.base g M 0 (n.val * 16 + t.code) with d := Enc.ofFin v }.putA a).putBV b) m
  have e3 := hi4_of (e := Enc.ofIndex g M ⟨t, n, v, a, b, m⟩) n t.code (code_lt _) r.1
  have e4 := tyLo_of (e := Enc.ofIndex g M ⟨t, n, v, a, b, m⟩) n.val t r.1
  change (Enc.ofIndex g M ⟨t, n, v, a, b, m⟩).optC = _ ∧ ((Enc.ofIndex g M ⟨t, n, v, a, b, m⟩).l = 1#2 → (Enc.ofIndex g M ⟨t, n, v, a, b, m⟩).rC = _) ∧ ¬ ((Enc.ofIndex g M ⟨t, n, v, a, b, m⟩).l = 2#2) at o
  have k1 : (Enc.ofIndex g M ⟨t, n, v, a, b, m⟩).d = Enc.ofFin v := r.2.2.1
  have k2 : (Enc.ofIndex g M ⟨t, n, v, a, b, m⟩).a = a.name.bits := r.2.2.2.1
  have k3 : (Enc.ofIndex g M ⟨t, n, v, a, b, m⟩).b = BitVec.ofNat 11 b.v.val := r.2.2.2.2.1
  have k4 : (Enc.ofIndex g M ⟨t, n, v, a, b, m⟩).ma = a.trap := r.2.2.2.2.2.1
  have k5 : (Enc.ofIndex g M ⟨t, n, v, a, b, m⟩).mb = b.trap := r.2.2.2.2.2.2
  have k6 : ¬ (64 ≤ b.v.val % 2048) := not_over' b.v (by decide) (Nat.le_refl _)
  simp only [Enc.vindex, F.gd, F.mn, e3, e4, Enc.ord, Enc.msc, dV_def, aS_def, bV_def, aN_def, k1, k2, k3, k4, k5, o.1, over_def]
  simp
  exact ⟨⟨by omega, o.2.1⟩, o.2.2⟩

/-! ### Fields that a scope, an optional word or an offset leaves alone -/

@[simp] theorem scope_maj (e : Enc) (s : Scope) : (s.put e).maj = e.maj := by cases s <;> rfl
@[simp] theorem scope_g (e : Enc) (s : Scope) : (s.put e).g = e.g := by cases s <;> rfl
@[simp] theorem scope_gn (e : Enc) (s : Scope) : (s.put e).gn = e.gn := by cases s <;> rfl
@[simp] theorem scope_d (e : Enc) (s : Scope) : (s.put e).d = e.d := by cases s <;> rfl
@[simp] theorem scope_a (e : Enc) (s : Scope) : (s.put e).a = e.a := by cases s <;> rfl
@[simp] theorem scope_b (e : Enc) (s : Scope) : (s.put e).b = e.b := by cases s <;> rfl
@[simp] theorem scope_ma (e : Enc) (s : Scope) : (s.put e).ma = e.ma := by cases s <;> rfl
@[simp] theorem scope_mb (e : Enc) (s : Scope) : (s.put e).mb = e.mb := by cases s <;> rfl
@[simp] theorem scope_mn (e : Enc) (s : Scope) : (s.put e).mn = e.mn := by cases s <;> rfl
@[simp] theorem scope_fx (e : Enc) (s : Scope) : (s.put e).fx = e.fx := by cases s <;> rfl
@[simp] theorem optC_maj (e : Enc) (m : Option Src) : (e.putOptC m).maj = e.maj := by cases m <;> rfl
@[simp] theorem optC_g (e : Enc) (m : Option Src) : (e.putOptC m).g = e.g := by cases m <;> rfl
@[simp] theorem optC_gn (e : Enc) (m : Option Src) : (e.putOptC m).gn = e.gn := by cases m <;> rfl
@[simp] theorem optC_d (e : Enc) (m : Option Src) : (e.putOptC m).d = e.d := by cases m <;> rfl
@[simp] theorem optC_a (e : Enc) (m : Option Src) : (e.putOptC m).a = e.a := by cases m <;> rfl
@[simp] theorem optC_b (e : Enc) (m : Option Src) : (e.putOptC m).b = e.b := by cases m <;> rfl
@[simp] theorem optC_ma (e : Enc) (m : Option Src) : (e.putOptC m).ma = e.ma := by cases m <;> rfl
@[simp] theorem optC_mb (e : Enc) (m : Option Src) : (e.putOptC m).mb = e.mb := by cases m <;> rfl
@[simp] theorem optC_mn (e : Enc) (m : Option Src) : (e.putOptC m).mn = e.mn := by cases m <;> rfl
@[simp] theorem optC_fx (e : Enc) (m : Option Src) : (e.putOptC m).fx = e.fx := by cases m <;> rfl
@[simp] theorem off_maj (e : Enc) (o : Off) : (e.putOff o).maj = e.maj := by cases o <;> rfl
@[simp] theorem off_g (e : Enc) (o : Off) : (e.putOff o).g = e.g := by cases o <;> rfl
@[simp] theorem off_gn (e : Enc) (o : Off) : (e.putOff o).gn = e.gn := by cases o <;> rfl
@[simp] theorem off_d (e : Enc) (o : Off) : (e.putOff o).d = e.d := by cases o <;> rfl
@[simp] theorem off_a (e : Enc) (o : Off) : (e.putOff o).a = e.a := by cases o <;> rfl
@[simp] theorem off_mn (e : Enc) (o : Off) : (e.putOff o).mn = e.mn := by cases o <;> rfl
@[simp] theorem off_fx (e : Enc) (o : Off) : (e.putOff o).fx = e.fx := by cases o <;> rfl

theorem fits_scope {e : Enc} {M N : Nat} {g : Guard} (s : Scope) (h : Fits e M N g) (hl : e.l = 0) (h2 : e.p2 = 0) (h3 : e.p3 = 0) :
    Fits (s.put e) M N g := ⟨by simp [h.maj], by simp [h.mn], by
      have := h.gd
      simp only [gd_def, scope_g, scope_gn] at this ⊢; exact this, tidy_scope s hl h2 h3⟩

theorem fits_off {e : Enc} {M N : Nat} {g : Guard} (o : Off) (h : Fits e M N g) (hl : e.l = 0) (h2 : e.p2 = 0) (h3 : e.p3 = 0) :
    Fits (e.putOff o) M N g := ⟨by simp [h.maj], by simp [h.mn], by
      have := h.gd
      simp only [gd_def, off_g, off_gn] at this ⊢; exact this, tidy_off o hl h2 h3⟩

/-- An offset comes back. -/
theorem offset_of {e : Enc} (o : Off) (h : e.l = 0) (hb : e.b = 0) (ha : e.ma = false) (hmb : e.mb = false) :
    (e.putOff o).offset = (o, false, false) := by
  cases o <;> simp [Enc.putOff, Enc.offset, h, hb, ha, hmb]

theorem gd_pair (g : Guard) : (⟨⟨(BitVec.ofNat 4 g.p.val).toNat, (BitVec.ofNat 4 g.p.val).isLt⟩, g.neg⟩ : Guard) = g := by
  obtain ⟨⟨p, hp⟩, n⟩ := g
  simp; omega

theorem fits_amo (g : Guard) (p : Nat) (x : Amo) : Fits (Enc.ofAmo g p x) 0x28 (Enc.ofOrd x.ord * 64 + x.sc.field * 8 + p) g :=
  fits_scope x.sc (fits0 rfl rfl rfl rfl (tidy0 rfl rfl rfl)) rfl rfl rfl

theorem fits_fence (g : Guard) (o : Nat) (sc : Scope) : Fits (Enc.ofFence g o sc) 0x29 (o * 64 + sc.field * 8) g :=
  fits_scope sc (fits_base g _ _ _) rfl rfl rfl

theorem fence_of (g : Guard) (o : Nat) (sc : Scope) (ho : o < 4) :
    (Enc.ofFence g o sc).op = 0 ∧ (Enc.ofFence g o sc).ord = o ∧ (Enc.ofFence g o sc).scope (Enc.ofFence g o sc).msc = (sc, false)
    ∧ (Enc.ofFence g o sc).rScope (Enc.ofFence g o sc).msc = false
    ∧ (Enc.ofFence g o sc).fx = 0 ∧ (Enc.ofFence g o sc).rD = false ∧ (Enc.ofFence g o sc).rA = false ∧ (Enc.ofFence g o sc).rB = false := by
  have hk := field_lt sc
  have m := mn_of (e := Enc.ofFence g o sc) o sc.field 0 ho (by omega) (by decide) (fits_fence g o sc).mn
  have s := scope_of (e := Enc.base g 0x29 (o * 64 + sc.field * 8) 0) sc rfl
  rw [m.1, m.2.1, m.2.2]
  refine ⟨rfl, rfl, s.1, s.2, ?_, ?_, ?_, ?_⟩ <;> simp [Enc.ofFence]

theorem ofOrd_lt (o : Ord4) : Enc.ofOrd o < 4 := by cases o <;> decide

theorem amo_of (g : Guard) (p : Nat) (x : Amo) (hp : p < 8) :
    (Enc.ofAmo g p x).op = p ∧ (Enc.ofAmo g p x).scope (Enc.ofAmo g p x).msc = (x.sc, false) ∧ (Enc.ofAmo g p x).rScope (Enc.ofAmo g p x).msc = false
    ∧ (⟨(Enc.ofAmo g p x).tyLo, (Enc.ofAmo g p x).hi4, (Enc.ofAmo g p x).ord4, (Enc.ofAmo g p x).dN, (Enc.ofAmo g p x).aS, (Enc.ofAmo g p x).bS, x.sc⟩ : Amo) = x := by
  have hk := field_lt x.sc
  have ho := ofOrd_lt x.ord
  have m := mn_of (e := Enc.ofAmo g p x) (Enc.ofOrd x.ord) x.sc.field p ho (by omega) hp (fits_amo g p x).mn
  have s := scope_of (e := (({ Enc.base g 0x28 (Enc.ofOrd x.ord * 64 + x.sc.field * 8 + p) (x.nud.val * 16 + x.t.code) with d := x.d.bits }.putA x.a).putB x.b)) x.sc rfl
  have fx : (Enc.ofAmo g p x).fx = BitVec.ofNat 8 (x.nud.val * 16 + x.t.code) := by simp [Enc.ofAmo]
  have o4 : (Enc.ofAmo g p x).ord4 = x.ord := by rw [Enc.ord4, m.1]; cases x.ord <;> rfl
  rw [m.2.1, m.2.2]
  refine ⟨rfl, s.1, s.2, ?_⟩
  rw [hi4_of _ _ (code_lt _) fx, tyLo_of _ _ fx, o4]
  simp [Enc.ofAmo]

end Sys2Proof.Laws
end

