-- ==== Sys2Proof/Laws/Shapes2.lean ====
section
/-! SUPPORT. The shapes of gathers, vectors, the matrix unit and tasks (see Shapes). -/
set_option Elab.async false
namespace Sys2Proof.Laws

/-! ### The opcode map -/

theorem major01_at {e : Enc} (h : e.maj = BitVec.ofNat 6 0x01) : e.major = e.major01 := by simp [Enc.major, h]
theorem major02_at {e : Enc} (h : e.maj = BitVec.ofNat 6 0x02) : e.major = e.major02 := by simp [Enc.major, h]
theorem major03_at {e : Enc} (h : e.maj = BitVec.ofNat 6 0x03) : e.major = e.major03 := by simp [Enc.major, h]
theorem major04_at {e : Enc} (h : e.maj = BitVec.ofNat 6 0x04) : e.major = e.major04 := by simp [Enc.major, h]
theorem major05_at {e : Enc} (h : e.maj = BitVec.ofNat 6 0x05) : e.major = e.major05 := by simp [Enc.major, h]
theorem major10_at {e : Enc} (h : e.maj = BitVec.ofNat 6 0x10) : e.major = e.major10 := by simp [Enc.major, h]
theorem major11_at {e : Enc} (h : e.maj = BitVec.ofNat 6 0x11) : e.major = e.major11 := by simp [Enc.major, h]
theorem major12_at {e : Enc} (h : e.maj = BitVec.ofNat 6 0x12) : e.major = e.major12 := by simp [Enc.major, h]
theorem major18_at {e : Enc} (h : e.maj = BitVec.ofNat 6 0x18) : e.major = e.major18 := by simp [Enc.major, h]
theorem major1C_at {e : Enc} (h : e.maj = BitVec.ofNat 6 0x1C) : e.major = e.major1C := by simp [Enc.major, h]
theorem major1D_at {e : Enc} (h : e.maj = BitVec.ofNat 6 0x1D) : e.major = e.major1D := by simp [Enc.major, h]
theorem major1E_at {e : Enc} (h : e.maj = BitVec.ofNat 6 0x1E) : e.major = e.major1E := by simp [Enc.major, h]
theorem major1F_at {e : Enc} (h : e.maj = BitVec.ofNat 6 0x1F) : e.major = e.major1F := by simp [Enc.major, h]
theorem major24_at {e : Enc} (h : e.maj = BitVec.ofNat 6 0x24) : e.major = e.major24 := by simp [Enc.major, h]
theorem major25_at {e : Enc} (h : e.maj = BitVec.ofNat 6 0x25) : e.major = e.major25 := by simp [Enc.major, h]
theorem major28_at {e : Enc} (h : e.maj = BitVec.ofNat 6 0x28) : e.major = e.major28 := by simp [Enc.major, h]
theorem major29_at {e : Enc} (h : e.maj = BitVec.ofNat 6 0x29) : e.major = e.major29 := by simp [Enc.major, h]
theorem major2A_at {e : Enc} (h : e.maj = BitVec.ofNat 6 0x2A) : e.major = e.major2A := by simp [Enc.major, h]
theorem major2C_at {e : Enc} (h : e.maj = BitVec.ofNat 6 0x2C) : e.major = e.major2C := by simp [Enc.major, h]
theorem major2D_at {e : Enc} (h : e.maj = BitVec.ofNat 6 0x2D) : e.major = e.major2D := by simp [Enc.major, h]
theorem major2E_at {e : Enc} (h : e.maj = BitVec.ofNat 6 0x2E) : e.major = e.major2E := by simp [Enc.major, h]
theorem major30_at {e : Enc} (h : e.maj = BitVec.ofNat 6 0x30) : e.major = e.major30 := by simp [Enc.major, h]
theorem major31_at {e : Enc} (h : e.maj = BitVec.ofNat 6 0x31) : e.major = e.major31 := by simp [Enc.major, h]
theorem major32_at {e : Enc} (h : e.maj = BitVec.ofNat 6 0x32) : e.major = e.major32 := by simp [Enc.major, h]
theorem major33_at {e : Enc} (h : e.maj = BitVec.ofNat 6 0x33) : e.major = e.major33 := by simp [Enc.major, h]
theorem major34_at {e : Enc} (h : e.maj = BitVec.ofNat 6 0x34) : e.major = e.major34 := by simp [Enc.major, h]
theorem major35_at {e : Enc} (h : e.maj = BitVec.ofNat 6 0x35) : e.major = e.major35 := by simp [Enc.major, h]
theorem major36_at {e : Enc} (h : e.maj = BitVec.ofNat 6 0x36) : e.major = e.major36 := by simp [Enc.major, h]
theorem major38_at {e : Enc} (h : e.maj = BitVec.ofNat 6 0x38) : e.major = e.major38 := by simp [Enc.major, h]
theorem major39_at {e : Enc} (h : e.maj = BitVec.ofNat 6 0x39) : e.major = e.major39 := by simp [Enc.major, h]
theorem major3A_at {e : Enc} (h : e.maj = BitVec.ofNat 6 0x3A) : e.major = e.major3A := by simp [Enc.major, h]
theorem major3C_at {e : Enc} (h : e.maj = BitVec.ofNat 6 0x3C) : e.major = e.major3C := by simp [Enc.major, h]
theorem major3D_at {e : Enc} (h : e.maj = BitVec.ofNat 6 0x3D) : e.major = e.major3D := by simp [Enc.major, h]

/-! ### Synchronising forms -/

theorem fits_sc (g : Guard) (M N f : Nat) (d a b : BitVec 11) (ma mb : Bool) (s : Scope) :
    Fits (s.put { Enc.base g M N f with d := d, a := a, b := b, ma := ma, mb := mb }) M N g :=
  fits_scope s (fits0 rfl rfl rfl rfl (tidy0 rfl rfl rfl)) rfl rfl rfl

/-- MIN with no ORD. -/
theorem mn_of0 {e : Enc} (k p : Nat) (hk : k < 8) (hp : p < 8) (h : e.mn = BitVec.ofNat 8 (k * 8 + p)) : e.ord = 0 ∧ e.msc = k ∧ e.op = p :=
  mn_of 0 k p (by decide) hk hp (by simpa using h)

theorem fits_gather (g : Guard) (p : Nat) (x : GatherArgs) : Fits (Enc.ofGather g p x) 0x2D (x.sc.field * 8 + p) g :=
  fits_scope x.sc (fits0 rfl rfl rfl rfl (tidy0 rfl rfl rfl)) rfl rfl rfl

theorem gather_of (g : Guard) (p : Nat) (x : GatherArgs) (hp : p < 8) :
    (Enc.ofGather g p x).op = p ∧ (Enc.ofGather g p x).ord = 0 ∧ (Enc.ofGather g p x).scope (Enc.ofGather g p x).msc = (x.sc, false)
    ∧ (Enc.ofGather g p x).rScope (Enc.ofGather g p x).msc = false
    ∧ Enc.above (Enc.ofGather g p x).b 64 = false
    ∧ (decide ((Enc.ofGather g p x).lo4 ≠ 3) && decide ((Enc.ofGather g p x).lo4 ≠ 6)) = false
    ∧ (⟨decide ((Enc.ofGather g p x).lo4 = 3), (Enc.ofGather g p x).hi4, (Enc.ofGather g p x).dN, (Enc.ofGather g p x).aR, (Enc.ofGather g p x).bV, x.sc⟩
        : GatherArgs) = x := by
  have hk := field_lt x.sc
  have m := mn_of0 (e := Enc.ofGather g p x) x.sc.field p (by omega) hp (fits_gather g p x).mn
  have s := scope_of (e := (({ Enc.base g 0x2D (x.sc.field * 8 + p) (x.nud.val * 16 + if x.wide then 3 else 6) with d := x.tok.bits }.putAR x.a).putBV x.b)) x.sc rfl
  have fx : (Enc.ofGather g p x).fx = BitVec.ofNat 8 (x.nud.val * 16 + if x.wide then 3 else 6) := by simp [Enc.ofGather]
  have c16 : (if x.wide = true then 3 else 6) < 16 := by cases x.wide <;> decide
  have l4 := lo4_of _ _ c16 fx
  have bo : ¬ (64 ≤ x.b.v.val % 2048) := not_over' x.b.v (by decide) (Nat.le_refl _)
  rw [m.1, m.2.1, m.2.2]
  refine ⟨rfl, rfl, s.1, s.2, ?_, ?_, ?_⟩
  · simp [Enc.ofGather]; omega
  · cases h : x.wide <;> simp only [h] at l4
    · have : (Enc.ofGather g p x).lo4 = 6 := Fin.ext l4
      simp [this]
    · have : (Enc.ofGather g p x).lo4 = 3 := Fin.ext l4
      simp [this]
  · rw [hi4_of _ _ c16 fx]
    have : decide ((Enc.ofGather g p x).lo4 = 3) = x.wide := by
      cases h : x.wide <;> simp only [h] at l4
      · have : (Enc.ofGather g p x).lo4 = 6 := Fin.ext l4
        simp [this]
      · have : (Enc.ofGather g p x).lo4 = 3 := Fin.ext l4
        simp [this]
    rw [this]
    simp [Enc.ofGather]

/-! ### Vectors -/

/-- FX of a type above a rounding mode, and with the scalar bit. -/
theorem fx_rm (t : Ty) (r : Fin 8) : (t.code * 16 + r.val) % 256 / 8 % 2 = 0 ∧ (t.code * 16 + r.val) % 256 % 8 = r.val
    ∧ (t.code * 16 + r.val + 8) % 256 / 8 % 2 = 1 ∧ (t.code * 16 + r.val + 8) % 256 % 8 = r.val ∧ (t.code * 16 + r.val) % 8 = r.val
    ∧ (t.code * 16 + r.val + 8) % 8 = r.val ∧ (t.code * 16 + r.val) % 256 / 16 = t.code ∧ (t.code * 16 + r.val + 8) % 256 / 16 = t.code := by
  have := code_lt t
  have := r.isLt
  omega

theorem lo3_of {e : Enc} (r : Fin 8) (h : e.fx.toNat % 8 = r.val) : e.lo3 = r := Fin.ext h

theorem fits_vec1 (g : Guard) (M N : Nat) (x : Vec1) : Fits (Enc.ofVec1 g M N x) M N g := by
  obtain ⟨t, r, _ | _⟩ := x <;> exact fits0 rfl rfl rfl rfl (tidy0 rfl rfl rfl)

theorem fits_vec2 (g : Guard) (M N : Nat) (x : Vec2) : Fits (Enc.ofVec2 g M N x) M N g := by
  obtain ⟨t, r, _ | _⟩ := x <;> exact fits0 rfl rfl rfl rfl (tidy0 rfl rfl rfl)

theorem fits_vec3 (g : Guard) (M N : Nat) (x : Vec3) : Fits (Enc.ofVec3 g M N x) M N g := by
  obtain ⟨t, r, _ | _⟩ := x <;> exact fits0 rfl rfl rfl rfl (tidy1 rfl rfl)

theorem vlow (v : Fin 64) : ¬ (64 ≤ v.val % 2048) := not_over' v (by decide) (Nat.le_refl _)

theorem vec1_of (g : Guard) (M N : Nat) (x : Vec1) (f : Guard → Vec1 → Instr) : (Enc.ofVec1 g M N x).vec1 f = some ⟨f g x, false, false⟩ := by
  obtain ⟨t, r, o⟩ := x
  obtain ⟨a1, a2, a3, a4, a5, a6, a7, a8⟩ := fx_rm t r
  cases o with
  | vec d a =>
    have := vlow a.v
    simp [Enc.ofVec1, Enc.ofO1, Enc.vec1, Enc.o1, Enc.rV2, a1, a5, a7, Enc.lo3]; omega
  | scl d a => simp [Enc.ofVec1, Enc.ofO1, Enc.vec1, Enc.o1, Enc.rV2, a3, a6, a8, Enc.lo3]

theorem vec2_of (g : Guard) (M N : Nat) (x : Vec2) (f : Guard → Vec2 → Instr) : (Enc.ofVec2 g M N x).vec2 f = some ⟨f g x, false, false⟩ := by
  obtain ⟨t, r, o⟩ := x
  obtain ⟨a1, a2, a3, a4, a5, a6, a7, a8⟩ := fx_rm t r
  cases o with
  | vec d a b =>
    have := vlow a.v
    have := vlow b.v
    simp [Enc.ofVec2, Enc.ofO2, Enc.vec2, Enc.o2, Enc.rV3, Enc.rV2, a1, a5, a7, Enc.lo3]; omega
  | scl d a b => simp [Enc.ofVec2, Enc.ofO2, Enc.vec2, Enc.o2, Enc.rV3, Enc.rV2, a3, a6, a8, Enc.lo3]

theorem vec3_of (g : Guard) (M N : Nat) (x : Vec3) (f : Guard → Vec3 → Instr) : (Enc.ofVec3 g M N x).vec3 f = some ⟨f g x, false, false⟩ := by
  obtain ⟨t, r, o⟩ := x
  obtain ⟨a1, a2, a3, a4, a5, a6, a7, a8⟩ := fx_rm t r
  cases o with
  | vec d a b c =>
    have h1 := vlow a.v
    have h2 := vlow b.v
    have k := cV_of (e := Enc.ofVec3 g M N ⟨t, r, .vec d a b c⟩) c rfl
    have l : (Enc.ofVec3 g M N ⟨t, r, .vec d a b c⟩).l = 1 := rfl
    simp only [Enc.vec3, Enc.o3, Enc.rV3, Enc.rV2, k.1, k.2.1, k.2.2, l]
    simp [Enc.ofVec3, Enc.ofO3, a1, a5, a7, Enc.lo3]; omega
  | scl d a b c =>
    have k := cS_of (e := Enc.ofVec3 g M N ⟨t, r, .scl d a b c⟩) c rfl
    have l : (Enc.ofVec3 g M N ⟨t, r, .scl d a b c⟩).l = 1 := rfl
    simp only [Enc.vec3, Enc.o3, Enc.rV3, Enc.rV2, k.1, k.2, l]
    simp [Enc.ofVec3, Enc.ofO3, a3, a6, a8, Enc.lo3]

theorem fits_vcmp (g : Guard) (N : Nat) (x : VCmpArgs) : Fits (Enc.ofVCmp g N x) 0x32 N g := by
  cases x <;> exact fits0 rfl rfl rfl rfl (tidy0 rfl rfl rfl)

theorem vcmp_of (g : Guard) (N : Nat) (x : VCmpArgs) (f : Guard → VCmpArgs → Instr) : (Enc.ofVCmp g N x).vcmp f = some ⟨f g x, false, false⟩ := by
  cases x with
  | vec t d a b =>
    obtain ⟨h1, h2, h3, h4⟩ := fx_bits t
    have := vlow a.v
    have := vlow b.v
    simp [Enc.ofVCmp, Enc.vcmp, h1, h3, Enc.lo3]; omega
  | scl t d a b =>
    obtain ⟨h1, h2, h3, h4⟩ := fx_bits t
    simp [Enc.ofVCmp, Enc.vcmp, h2, h4, Enc.lo3]

theorem fits_vsel (g : Guard) (x : VSelArgs) : Fits (Enc.ofVSel g x) 0x32 0x10 g := by
  cases x <;> exact fits0 rfl rfl rfl rfl (tidy1 rfl rfl)

theorem fits_vmask (g : Guard) (x : VMaskArgs) : Fits (Enc.ofVMask g x) 0x32 0x11 g := by
  cases x <;> exact fits0 rfl rfl rfl rfl (tidy0 rfl rfl rfl)

theorem fits_packv (g : Guard) (N : Nat) (x : VPackArgs) : Fits (Enc.ofPackV g N x) 0x34 N g := fits0 rfl rfl rfl rfl (tidy0 rfl rfl rfl)

theorem packv_of (g : Guard) (N : Nat) (x : VPackArgs) (f : Guard → VPackArgs → Instr) :
    (Enc.ofPackV g N x).vpackD f = some ⟨f g x, false, false⟩ := by
  obtain ⟨t, d, a, k⟩ := x
  obtain ⟨h1, h2, h3, h4⟩ := fx_bits t
  have := vlow a.v
  simp [Enc.ofPackV, Enc.vpackD, h1, h3, Enc.lo3]; omega

theorem fits_cvt (g : Guard) (N : Nat) (x : VCvtArgs) :
    Fits (Enc.ofCvt g N x) 0x34 (N + (match x with | .vec _ s _ _ _ _ => s | .scl _ s _ _ _ => s).code) g := by
  cases x <;> exact fits0 rfl rfl rfl rfl (tidy0 rfl rfl rfl)

theorem cvt_of (g : Guard) (k : Nat) (x : VCvtArgs) (f : Guard → VCvtArgs → Instr) :
    (Enc.ofCvt g (k * 16) x).vcvtD f = some ⟨f g x, false, false⟩ := by
  cases x with
  | vec t s r d a hi =>
    obtain ⟨a1, a2, a3, a4, a5, a6, a7, a8⟩ := fx_rm t r
    have := vlow a.v
    cases hi <;> simp [Enc.ofCvt, Enc.vcvtD, Enc.rV2, a1, a5, a7, Enc.lo3] <;> omega
  | scl t s r d a =>
    obtain ⟨a1, a2, a3, a4, a5, a6, a7, a8⟩ := fx_rm t r
    have e : t.code * 16 + 8 + r.val = t.code * 16 + r.val + 8 := by omega
    simp [Enc.ofCvt, Enc.vcvtD, Enc.rV2, e, a3, a6, a8, Enc.lo3]

theorem fits_red (g : Guard) (N : Nat) (x : VRedArgs) : Fits (Enc.ofRed g N x) 0x35 N g := fits0 rfl rfl rfl rfl (tidy0 rfl rfl rfl)

theorem red_of (g : Guard) (N : Nat) (x : VRedArgs) (f : Guard → VRedArgs → Instr) : (Enc.ofRed g N x).vred f = some ⟨f g x, false, false⟩ := by
  obtain ⟨t, r, d, a⟩ := x
  obtain ⟨a1, a2, a3, a4, a5, a6, a7, a8⟩ := fx_rm t r
  have := vlow a.v
  simp [Enc.ofRed, Enc.vred, a1, a5, a7, Enc.lo3]; omega

/-! ### The matrix unit -/

/-- FX of a NUD above a rounding mode (format MU). -/
theorem fx_mu (n : Fin 16) (r : Fin 8) : (n.val * 8 + r.val) % 256 / 8 % 16 = n.val ∧ (n.val * 8 + r.val) % 256 % 8 = r.val
    ∧ (n.val * 8 + r.val) % 256 / 128 = 0 ∧ (n.val * 8 + r.val) % 8 = r.val := by
  have := n.isLt
  have := r.isLt
  omega

theorem mid4_of {e : Enc} (n : Fin 16) (r : Fin 8) (h : e.fx = BitVec.ofNat 8 (n.val * 8 + r.val)) : e.mid4 = n ∧ e.lo3 = r ∧ e.bit7 = false := by
  obtain ⟨a, b, c, d⟩ := fx_mu n r
  refine ⟨?_, ?_, ?_⟩
  · apply Fin.ext; simp only [Enc.mid4, h, BitVec.toNat_ofNat]; exact a
  · apply Fin.ext; simp only [Enc.lo3, h, BitVec.toNat_ofNat]; exact b
  · simp only [bit7_def, h, BitVec.toNat_ofNat, decide_eq_false_iff_not]; omega

theorem mid4_of0 {e : Enc} (n : Fin 16) (h : e.fx = BitVec.ofNat 8 (n.val * 8)) : e.mid4 = n ∧ e.lo3 = 0 ∧ e.bit7 = false :=
  mid4_of n 0 h

theorem fits_mma (g : Guard) (N : Nat) (x : MmaArgs) : Fits (Enc.ofMma g N x) 0x38 N g := by
  obtain ⟨r, n, t, k, a, _ | m⟩ := x
  · exact fits0 rfl rfl rfl rfl (tidy0 rfl rfl rfl)
  · exact fits0 rfl rfl rfl rfl (tidy2 rfl)

theorem matx_of (m : Matx) : (⟨BitVec.ofNat 8 ((m.kcount.toNat + 4096 * m.klim.toNat) % 4294967296 / 4096),
    BitVec.ofNat 12 ((m.kcount.toNat + 4096 * m.klim.toNat) % 4294967296), m.rowmask⟩ : Matx) = m := by
  obtain ⟨a, b, c⟩ := m
  have := a.isLt
  have := b.isLt
  simp only [Matx.mk.injEq, and_true]
  constructor <;> (apply BitVec.eq_of_toNat_eq; rw [BitVec.toNat_ofNat]; omega)

theorem mma_of (g : Guard) (N : Nat) (x : MmaArgs) (f : Guard → MmaArgs → Instr) : (Enc.ofMma g N x).mma f = some ⟨f g x, false, false⟩ := by
  obtain ⟨r, n, t, k, a, m⟩ := x
  have fx : (Enc.ofMma g N ⟨r, n, t, k, a, m⟩).fx = BitVec.ofNat 8 (n.val * 8 + r.val) := by cases m <;> rfl
  obtain ⟨h1, h2, h3⟩ := mid4_of n r fx
  simp only [Enc.mma, h1, h2, h3]
  cases m with
  | none => simp [Enc.ofMma, Enc.putMatx, Enc.matx]
  | some m =>
    have := matx_of m
    have b1 := m.klim.isLt
    have b2 := m.kcount.isLt
    simp [Enc.ofMma, Enc.putMatx, Enc.matx, this]; omega

theorem fits_mrot (g : Guard) (N : Nat) (x : MrotArgs) : Fits (Enc.ofMrot g N x) 0x38 N g := fits0 rfl rfl rfl rfl (tidy0 rfl rfl rfl)

theorem mrot_of (g : Guard) (N : Nat) (x : MrotArgs) (f : Guard → MrotArgs → Instr) : (Enc.ofMrot g N x).mrot f = some ⟨f g x, false, false⟩ := by
  obtain ⟨r, t, k, a⟩ := x
  obtain ⟨h1, h2, h3⟩ := mid4_of (e := Enc.ofMrot g N ⟨r, t, k, a⟩) 0 r (by simp [Enc.ofMrot])
  simp only [Enc.mrot, rNud_def, h1, h2, h3]
  simp [Enc.ofMrot]

theorem fits_tok (g : Guard) (M N : Nat) (x : TokArgs) : Fits (Enc.ofTok g M N x) M N g := fits0 rfl rfl rfl rfl (tidy0 rfl rfl rfl)

theorem tok_of (g : Guard) (M N : Nat) (x : TokArgs) (f : Guard → TokArgs → Instr) : (Enc.ofTok g M N x).tokArgs f = some ⟨f g x, false, false⟩ := by
  obtain ⟨n, k, a⟩ := x
  obtain ⟨h1, h2, h3⟩ := mid4_of0 (e := Enc.ofTok g M N ⟨n, k, a⟩) n rfl
  simp only [Enc.tokArgs, noRm_def, h1, h2, h3]
  simp [Enc.ofTok]

theorem fits_mld (g : Guard) (N : Nat) (x : MldArgs) : Fits (Enc.ofMld g N x) 0x39 N g := fits0 rfl rfl rfl rfl (tidy0 rfl rfl rfl)

theorem mld_of (g : Guard) (N : Nat) (x : MldArgs) (f : Guard → MldArgs → Instr) : (Enc.ofMld g N x).mldD f = some ⟨f g x, false, false⟩ := by
  obtain ⟨n, t, k, a⟩ := x
  obtain ⟨h1, h2, h3⟩ := mid4_of0 (e := Enc.ofMld g N ⟨n, t, k, a⟩) n rfl
  simp only [Enc.mldD, noRm_def, h1, h2, h3]
  simp [Enc.ofMld]

theorem fits_cut (g : Guard) (k : Nat) (x : TokArgs) : Fits (Enc.ofCut g k x) 0x3A 2 g := fits0 rfl rfl rfl rfl (tidy0 rfl rfl rfl)

theorem cut_of (g : Guard) (k : Nat) (x : TokArgs) (hk : k < 5) (ha : x.a.trap = false) :
    (Enc.ofCut g k x).i13.toNat = k ∧ (⟨(Enc.ofCut g k x).mid4, (Enc.ofCut g k x).dN, (Enc.ofCut g k x).aR0⟩ : TokArgs) = x
    ∧ (Enc.ofCut g k x).l = 0 ∧ (Enc.ofCut g k x).noRm = false ∧ (Enc.ofCut g k x).bit7 = false := by
  obtain ⟨n, t, ⟨a, m⟩⟩ := x
  simp only at ha
  subst ha
  obtain ⟨h1, h2, h3⟩ := mid4_of0 (e := Enc.ofCut g k ⟨n, t, ⟨a, false⟩⟩) n rfl
  refine ⟨?_, ?_, rfl, ?_, h3⟩
  · rcases (by omega : k = 0 ∨ k = 1 ∨ k = 2 ∨ k = 3 ∨ k = 4) with h | h | h | h | h <;> subst h <;> rfl
  · rw [h1]; simp [Enc.ofCut, Enc.aR0]
  · simp [h2]

/-! ### Tasks -/

theorem fx_tk (n : Fin 16) (s : Scope) : (n.val * 8 + s.field) % 256 / 8 % 16 = n.val ∧ (n.val * 8 + s.field) % 256 % 8 = s.field
    ∧ (n.val * 8 + s.field) % 256 / 128 = 0 := by
  have := n.isLt
  have := field_lt s
  omega

/-- Format TK: NUD, SCOPE, and bit 7. -/
theorem tk_of {e : Enc} (n : Fin 16) (s : Scope) (h : e.fx = BitVec.ofNat 8 (n.val * 8 + s.field)) : e.mid4 = n ∧ e.tsc = s.field ∧ e.bit7 = false := by
  obtain ⟨a, b, c⟩ := fx_tk n s
  refine ⟨?_, ?_, ?_⟩
  · apply Fin.ext; simp only [Enc.mid4, h, BitVec.toNat_ofNat]; exact a
  · simp only [Enc.tsc, h, BitVec.toNat_ofNat]; exact b
  · simp only [bit7_def, h, BitVec.toNat_ofNat, decide_eq_false_iff_not]; omega

theorem fits_send (g : Guard) (N : Nat) (x : SendArgs) : Fits (Enc.ofSend g N x) 0x3C N g :=
  fits_scope x.sc (fits0 rfl rfl rfl rfl (tidy0 rfl rfl rfl)) rfl rfl rfl

theorem send_of (g : Guard) (N : Nat) (x : SendArgs) (f : Guard → SendArgs → Instr) : (Enc.ofSend g N x).sendD f = some ⟨f g x, false, false⟩ := by
  obtain ⟨h1, h2, h3⟩ := tk_of (e := Enc.ofSend g N x) 0 x.sc (by simp [Enc.ofSend])
  have s := scope_of (e := (((Enc.base g 0x3C N x.sc.field).putA x.a).putBR x.r)) x.sc rfl
  change (Enc.ofSend g N x).scope _ = _ ∧ (Enc.ofSend g N x).rScope _ = _ at s
  simp only [Enc.sendD, rNud_def, h1, h2, h3, s.1, s.2]
  simp [Enc.ofSend]

theorem fits_ev (g : Guard) (N : Nat) (x : EvArgs) : Fits (Enc.ofEv g N x) 0x3C N g :=
  fits_scope x.sc (fits0 rfl rfl rfl rfl (tidy0 rfl rfl rfl)) rfl rfl rfl

theorem ev_of (g : Guard) (N : Nat) (x : EvArgs) (f : Guard → EvArgs → Instr) : (Enc.ofEv g N x).evD f = some ⟨f g x, false, false⟩ := by
  obtain ⟨h1, h2, h3⟩ := tk_of (e := Enc.ofEv g N x) 0 x.sc (by simp [Enc.ofEv])
  have s := scope_of (e := (({ Enc.base g 0x3C N x.sc.field with d := x.d.bits }.putA x.a).putB x.b)) x.sc rfl
  change (Enc.ofEv g N x).scope _ = _ ∧ (Enc.ofEv g N x).rScope _ = _ at s
  simp only [Enc.evD, rNud_def, h1, h2, h3, s.1, s.2]
  simp [Enc.ofEv]

theorem fits_io (g : Guard) (N : Nat) (x : IoArgs) : Fits (Enc.ofIo g N x) 0x3C N g :=
  fits_scope x.sc (fits0 rfl rfl rfl rfl (tidy0 rfl rfl rfl)) rfl rfl rfl

theorem io_of (g : Guard) (N : Nat) (x : IoArgs) (f : Guard → IoArgs → Instr) : (Enc.ofIo g N x).ioD f = some ⟨f g x, false, false⟩ := by
  obtain ⟨h1, h2, h3⟩ := tk_of (e := Enc.ofIo g N x) x.nud x.sc (by simp [Enc.ofIo])
  have s := scope_of (e := ({ Enc.base g 0x3C N (x.nud.val * 8 + x.sc.field) with d := x.tok.bits }.putAR x.a)) x.sc rfl
  change (Enc.ofIo g N x).scope _ = _ ∧ (Enc.ofIo g N x).rScope _ = _ at s
  simp only [Enc.ioD, h1, h2, h3, s.1, s.2]
  simp [Enc.ofIo]

end Sys2Proof.Laws
end

