-- ==== Sys2Proof/Laws/PerInstr.lean ====
section
/-! SUPPORT. The family RoundTrip: for every instruction, the decoder reads back what the encoder wrote. One lemma per constructor. -/
set_option Elab.async false
set_option linter.unusedSimpArgs false
namespace Sys2Proof.Laws.RoundTrip

/-- At every place of a fetch block where it fits, and whatever follows, the bytes of a well-formed instruction that an encoding names decode to it. -/
def Statement (i : Instr) : Prop :=
  i.wf = true → i.encodable = true → ∀ off rest, off + i.size ≤ 32 → decode off (encodeBytes i ++ rest) = .ok i

theorem settle {i : Instr} {M N : Nat} {g : Guard} (F : Fits (fieldsOf i) M N g) (hM : M < 63) (hg : i.guard? = some g)
    (hd : (fieldsOf i).major = some ⟨i, false, false⟩) : i.wf = true → ∀ off rest, off + i.size ≤ 32 → decode off (encodeBytes i ++ rest) = .ok i := by
  intro h off rest ho
  have hm : (fieldsOf i).maj ≠ 0x3F := by
    rw [F.maj]
    intro e
    have := congrArg BitVec.toNat e
    simp at this; omega
  have gk : g.ok = true := by
    simp only [Instr.wf, Bool.and_eq_true] at h
    simpa [Instr.guardOk, hg] using h.1.1.1
  exact (decode_pack _ F.tidy off ho rest).trans (decodeFields_ok hm hd F.gd gk h)

/-- What an instruction's shape holds beyond its fields. -/
theorem canon {i : Instr} (h : i.wf = true) : i.canon = true := by
  simp only [Instr.wf, Bool.and_eq_true] at h
  exact h.2

theorem form {i : Instr} (h : i.wf = true) : i.formOk = true := by
  simp only [Instr.wf, Bool.and_eq_true] at h
  exact h.1.2

theorem add (g : Guard) (x : Alu) : Statement (.add g x) := fun h _ => by
  have F := fits_alu g 0x01 0 x
  refine settle F (by decide) rfl ?_ h
  refine (major01_at F.maj).trans ?_
  simp [fieldsOf, Enc.major01, F.mn, alu_of g 0x01 0 x .add (canon h)]

theorem sub (g : Guard) (x : Alu) : Statement (.sub g x) := fun h _ => by
  have F := fits_alu g 0x01 1 x
  refine settle F (by decide) rfl ?_ h
  refine (major01_at F.maj).trans ?_
  simp [fieldsOf, Enc.major01, F.mn, alu_of g 0x01 1 x .sub (canon h)]

theorem mul (g : Guard) (x : Alu) : Statement (.mul g x) := fun h _ => by
  have F := fits_alu g 0x01 2 x
  refine settle F (by decide) rfl ?_ h
  refine (major01_at F.maj).trans ?_
  simp [fieldsOf, Enc.major01, F.mn, alu_of g 0x01 2 x .mul (canon h)]

theorem mulh (g : Guard) (x : Alu) : Statement (.mulh g x) := fun h _ => by
  have F := fits_alu g 0x01 3 x
  refine settle F (by decide) rfl ?_ h
  refine (major01_at F.maj).trans ?_
  simp [fieldsOf, Enc.major01, F.mn, alu_of g 0x01 3 x .mulh (canon h)]

theorem div (g : Guard) (x : Alu) : Statement (.div g x) := fun h _ => by
  have F := fits_alu g 0x01 4 x
  refine settle F (by decide) rfl ?_ h
  refine (major01_at F.maj).trans ?_
  simp [fieldsOf, Enc.major01, F.mn, alu_of g 0x01 4 x .div (canon h)]

theorem rem (g : Guard) (x : Alu) : Statement (.rem g x) := fun h _ => by
  have F := fits_alu g 0x01 5 x
  refine settle F (by decide) rfl ?_ h
  refine (major01_at F.maj).trans ?_
  simp [fieldsOf, Enc.major01, F.mn, alu_of g 0x01 5 x .rem (canon h)]

theorem min (g : Guard) (x : Alu) : Statement (.min g x) := fun h _ => by
  have F := fits_alu g 0x01 6 x
  refine settle F (by decide) rfl ?_ h
  refine (major01_at F.maj).trans ?_
  simp [fieldsOf, Enc.major01, F.mn, alu_of g 0x01 6 x .min (canon h)]

theorem max (g : Guard) (x : Alu) : Statement (.max g x) := fun h _ => by
  have F := fits_alu g 0x01 7 x
  refine settle F (by decide) rfl ?_ h
  refine (major01_at F.maj).trans ?_
  simp [fieldsOf, Enc.major01, F.mn, alu_of g 0x01 7 x .max (canon h)]

theorem abs (g : Guard) (x : Un) : Statement (.abs g x) := fun h _ => by
  have F := fits_un g 0x01 8 x
  refine settle F (by decide) rfl ?_ h
  refine (major01_at F.maj).trans ?_
  simp [fieldsOf, Enc.major01, F.mn, un_of g 0x01 8 x .abs]

theorem and (g : Guard) (x : Alu) : Statement (.and g x) := fun h _ => by
  have F := fits_alu g 0x02 0 x
  refine settle F (by decide) rfl ?_ h
  refine (major02_at F.maj).trans ?_
  simp [fieldsOf, Enc.major02, F.mn, alu_of g 0x02 0 x .and (canon h)]

theorem or (g : Guard) (x : Alu) : Statement (.or g x) := fun h _ => by
  have F := fits_alu g 0x02 1 x
  refine settle F (by decide) rfl ?_ h
  refine (major02_at F.maj).trans ?_
  simp [fieldsOf, Enc.major02, F.mn, alu_of g 0x02 1 x .or (canon h)]

theorem xor (g : Guard) (x : Alu) : Statement (.xor g x) := fun h _ => by
  have F := fits_alu g 0x02 2 x
  refine settle F (by decide) rfl ?_ h
  refine (major02_at F.maj).trans ?_
  simp [fieldsOf, Enc.major02, F.mn, alu_of g 0x02 2 x .xor (canon h)]

theorem andn (g : Guard) (x : Alu) : Statement (.andn g x) := fun h _ => by
  have F := fits_alu g 0x02 3 x
  refine settle F (by decide) rfl ?_ h
  refine (major02_at F.maj).trans ?_
  simp [fieldsOf, Enc.major02, F.mn, alu_of g 0x02 3 x .andn (canon h)]

theorem shl (g : Guard) (x : Alu) : Statement (.shl g x) := fun h _ => by
  have F := fits_alu g 0x03 0 x
  refine settle F (by decide) rfl ?_ h
  refine (major03_at F.maj).trans ?_
  simp [fieldsOf, Enc.major03, F.mn, alu_of g 0x03 0 x .shl (canon h)]

theorem shr (g : Guard) (x : Alu) : Statement (.shr g x) := fun h _ => by
  have F := fits_alu g 0x03 1 x
  refine settle F (by decide) rfl ?_ h
  refine (major03_at F.maj).trans ?_
  simp [fieldsOf, Enc.major03, F.mn, alu_of g 0x03 1 x .shr (canon h)]

theorem sra (g : Guard) (x : Alu) : Statement (.sra g x) := fun h _ => by
  have F := fits_alu g 0x03 2 x
  refine settle F (by decide) rfl ?_ h
  refine (major03_at F.maj).trans ?_
  simp [fieldsOf, Enc.major03, F.mn, alu_of g 0x03 2 x .sra (canon h)]

theorem rot (g : Guard) (x : Alu) : Statement (.rot g x) := fun h _ => by
  have F := fits_alu g 0x03 3 x
  refine settle F (by decide) rfl ?_ h
  refine (major03_at F.maj).trans ?_
  simp [fieldsOf, Enc.major03, F.mn, alu_of g 0x03 3 x .rot (canon h)]

theorem clz (g : Guard) (x : Un) : Statement (.clz g x) := fun h _ => by
  have F := fits_un g 0x04 0 x
  refine settle F (by decide) rfl ?_ h
  refine (major04_at F.maj).trans ?_
  simp [fieldsOf, Enc.major04, F.mn, un_of g 0x04 0 x .clz]

theorem ctz (g : Guard) (x : Un) : Statement (.ctz g x) := fun h _ => by
  have F := fits_un g 0x04 1 x
  refine settle F (by decide) rfl ?_ h
  refine (major04_at F.maj).trans ?_
  simp [fieldsOf, Enc.major04, F.mn, un_of g 0x04 1 x .ctz]

theorem popc (g : Guard) (x : Un) : Statement (.popc g x) := fun h _ => by
  have F := fits_un g 0x04 2 x
  refine settle F (by decide) rfl ?_ h
  refine (major04_at F.maj).trans ?_
  simp [fieldsOf, Enc.major04, F.mn, un_of g 0x04 2 x .popc]

theorem brev (g : Guard) (x : Un) : Statement (.brev g x) := fun h _ => by
  have F := fits_un g 0x04 3 x
  refine settle F (by decide) rfl ?_ h
  refine (major04_at F.maj).trans ?_
  simp [fieldsOf, Enc.major04, F.mn, un_of g 0x04 3 x .brev]

theorem bswap (g : Guard) (x : Un) : Statement (.bswap g x) := fun h _ => by
  have F := fits_un g 0x04 4 x
  refine settle F (by decide) rfl ?_ h
  refine (major04_at F.maj).trans ?_
  simp [fieldsOf, Enc.major04, F.mn, un_of g 0x04 4 x .bswap]

theorem ext (g : Guard) (x : Alu) : Statement (.ext g x) := fun h _ => by
  have F := fits_alu g 0x04 5 x
  refine settle F (by decide) rfl ?_ h
  refine (major04_at F.maj).trans ?_
  simp [fieldsOf, Enc.major04, F.mn, alu_of g 0x04 5 x .ext (canon h)]

theorem ins (g : Guard) (x : Alu) : Statement (.ins g x) := fun h _ => by
  have F := fits_alu g 0x04 6 x
  refine settle F (by decide) rfl ?_ h
  refine (major04_at F.maj).trans ?_
  simp [fieldsOf, Enc.major04, F.mn, alu_of g 0x04 6 x .ins (canon h)]

theorem sel (g : Guard) (x : SelArgs) : Statement (.sel g x) := fun h _ => by
  obtain ⟨t, d, a, b, p⟩ := x
  obtain ⟨h1, h2, h3, h4⟩ := fx_bits t
  have hp := p.isLt
  refine settle (N := 0) (g := g) (M := 0x05) (fits0 rfl rfl rfl rfl (tidy1 rfl rfl)) (by decide) rfl ?_ h
  simp [fieldsOf, Enc.major, Enc.major05, Enc.c, Enc.bSrc, h1, h3, Enc.low]
  exact ⟨Fin.ext (Nat.mod_eq_of_lt hp), by omega⟩

theorem mov (g : Guard) (x : MovArgs) : Statement (.mov g x) := fun h _ => by
  obtain ⟨t, d, s | v⟩ := x
  · obtain ⟨h1, h2, h3, h4⟩ := fx_bits t
    refine settle (N := 1) (g := g) (M := 0x05) (fits0 rfl rfl rfl rfl (tidy0 rfl rfl rfl)) (by decide) rfl ?_ h
    simp [fieldsOf, Enc.major, Enc.major05, h1, h3]
  · obtain ⟨h1, h2, h3, h4⟩ := fx_bits t
    have F := fits_rel g 0x05 1 (t.code * 16 + 8) d.bits v
    refine settle F (by decide) rfl ?_ h
    obtain ⟨r1, r2⟩ := rel_rest g 0x05 1 (t.code * 16 + 8) d.bits v
    have e := rel_imm g 0x05 1 (t.code * 16 + 8) d.bits v
    simp only [fieldsOf, major05_at F.maj, Enc.major05, F.mn, F.gd, bit3_def, tyHi_def, rTI_def, rel_fx, r1, r2, e, dN_def, rel_d]
    simp [h2, h4]

theorem lea (g : Guard) (x : LeaArgs) : Statement (.lea g x) := fun h _ => by
  obtain ⟨t, d, s, b⟩ | ⟨d, v⟩ := x
  · obtain ⟨h1, h2, h3, h4⟩ := fx_bits t
    refine settle (N := 2) (g := g) (M := 0x05) (fits0 rfl rfl rfl rfl (tidy0 rfl rfl rfl)) (by decide) rfl ?_ h
    simp [fieldsOf, Enc.major, Enc.major05, h1, h3]
  · have F := fits_rel g 0x05 2 0x38 d.bits v
    refine settle F (by decide) rfl ?_ h
    obtain ⟨r1, r2⟩ := rel_rest g 0x05 2 0x38 d.bits v
    have e := rel_imm g 0x05 2 0x38 d.bits v
    simp only [fieldsOf, major05_at F.maj, Enc.major05, F.mn, F.gd, bit3_def, tyHi_def, rTI_def, rel_fx, r1, r2, e, dN_def, rel_d]
    simp [Ty.ofCode]

theorem cmpEq (g : Guard) (x : CmpArgs) : Statement (.cmpEq g x) := fun h _ => by
  have F := fits_cmp g 0 x
  refine settle F (by decide) rfl ?_ h
  refine (major10_at F.maj).trans ?_
  simp [fieldsOf, Enc.major10, F.mn, cmp_of g 0 x .cmpEq (canon h)]

theorem cmpNe (g : Guard) (x : CmpArgs) : Statement (.cmpNe g x) := fun h _ => by
  have F := fits_cmp g 1 x
  refine settle F (by decide) rfl ?_ h
  refine (major10_at F.maj).trans ?_
  simp [fieldsOf, Enc.major10, F.mn, cmp_of g 1 x .cmpNe (canon h)]

theorem cmpLt (g : Guard) (x : CmpArgs) : Statement (.cmpLt g x) := fun h _ => by
  have F := fits_cmp g 2 x
  refine settle F (by decide) rfl ?_ h
  refine (major10_at F.maj).trans ?_
  simp [fieldsOf, Enc.major10, F.mn, cmp_of g 2 x .cmpLt (canon h)]

theorem cmpLe (g : Guard) (x : CmpArgs) : Statement (.cmpLe g x) := fun h _ => by
  have F := fits_cmp g 3 x
  refine settle F (by decide) rfl ?_ h
  refine (major10_at F.maj).trans ?_
  simp [fieldsOf, Enc.major10, F.mn, cmp_of g 3 x .cmpLe (canon h)]

theorem cmpGt (g : Guard) (x : CmpArgs) : Statement (.cmpGt g x) := fun h _ => by
  have F := fits_cmp g 4 x
  refine settle F (by decide) rfl ?_ h
  refine (major10_at F.maj).trans ?_
  simp [fieldsOf, Enc.major10, F.mn, cmp_of g 4 x .cmpGt (canon h)]

theorem cmpGe (g : Guard) (x : CmpArgs) : Statement (.cmpGe g x) := fun h _ => by
  have F := fits_cmp g 5 x
  refine settle F (by decide) rfl ?_ h
  refine (major10_at F.maj).trans ?_
  simp [fieldsOf, Enc.major10, F.mn, cmp_of g 5 x .cmpGe (canon h)]

theorem cmpUn (g : Guard) (x : CmpArgs) : Statement (.cmpUn g x) := fun h _ => by
  have F := fits_cmp g 6 x
  refine settle F (by decide) rfl ?_ h
  refine (major10_at F.maj).trans ?_
  simp [fieldsOf, Enc.major10, F.mn, cmp_of g 6 x .cmpUn (canon h)]

theorem pand (g : Guard) (x : PBin) : Statement (.pand g x) := fun h _ => by
  have F := fits_pbin g 0 x
  refine settle F (by decide) rfl ?_ h
  refine (major11_at F.maj).trans ?_
  simp [fieldsOf, Enc.major11, F.mn, pbin_of g 0 x .pand]

theorem por (g : Guard) (x : PBin) : Statement (.por g x) := fun h _ => by
  have F := fits_pbin g 1 x
  refine settle F (by decide) rfl ?_ h
  refine (major11_at F.maj).trans ?_
  simp [fieldsOf, Enc.major11, F.mn, pbin_of g 1 x .por]

theorem pxor (g : Guard) (x : PBin) : Statement (.pxor g x) := fun h _ => by
  have F := fits_pbin g 2 x
  refine settle F (by decide) rfl ?_ h
  refine (major11_at F.maj).trans ?_
  simp [fieldsOf, Enc.major11, F.mn, pbin_of g 2 x .pxor]

theorem pnot (g : Guard) (x : PUn) : Statement (.pnot g x) := fun h _ => by
  have F := fits_pun g 3 x
  refine settle F (by decide) rfl ?_ h
  refine (major11_at F.maj).trans ?_
  simp [fieldsOf, Enc.major11, F.mn, pun_of g 3 x .pnot]

theorem pmov (g : Guard) (x : PUn) : Statement (.pmov g x) := fun h _ => by
  have F := fits_pun g 4 x
  refine settle F (by decide) rfl ?_ h
  refine (major11_at F.maj).trans ?_
  simp [fieldsOf, Enc.major11, F.mn, pun_of g 4 x .pmov]

theorem br (g : Guard) (off : Imm) : Statement (.br g off) := fun h _ => by
  have F := fits_rel g 0x12 0 8 0 off
  refine settle F (by decide) rfl ?_ h
  obtain ⟨r1, r2⟩ := rel_rest g 0x12 0 8 0 off
  have e := rel_imm g 0x12 0 8 0 off
  simp only [fieldsOf, major12_at F.maj, Enc.major12, F.mn, F.gd, bit3_def, rD_def, rZI_def, rel_fx, r1, r2, e, rel_d]
  simp

theorem jmp (g : Guard) (a : Src) : Statement (.jmp g a) := fun h _ => by
  have F := fits_a g 0x12 1 a
  refine settle F (by decide) rfl ?_ h
  refine (major12_at F.maj).trans ?_
  simp [fieldsOf, Enc.major12, F.mn, Enc.ziA]

theorem call (g : Guard) (x : CallArgs) : Statement (.call g x) := fun h _ => by
  obtain ⟨d, v | s⟩ := x
  · have F := fits_rel g 0x12 2 8 d.bits v
    refine settle F (by decide) rfl ?_ h
    obtain ⟨r1, r2⟩ := rel_rest g 0x12 2 8 d.bits v
    have e := rel_imm g 0x12 2 8 d.bits v
    simp only [fieldsOf, major12_at F.maj, Enc.major12, F.mn, F.gd, bit3_def, dN_def, rZI_def, rel_fx, r1, r2, e, rel_d]
    simp
  · refine settle (N := 2) (g := g) (M := 0x12) (fits0 rfl rfl rfl rfl (tidy0 rfl rfl rfl)) (by decide) rfl ?_ h
    simp [fieldsOf, Enc.major, Enc.major12]

theorem ret (g : Guard) (a : Src) : Statement (.ret g a) := fun h _ => by
  have F := fits_a g 0x12 3 a
  refine settle F (by decide) rfl ?_ h
  refine (major12_at F.maj).trans ?_
  simp [fieldsOf, Enc.major12, F.mn, Enc.ziA]

theorem loop (g : Guard) (x : LoopArgs) : Statement (.loop g x) := fun h _ => by
  obtain ⟨d, v⟩ := x
  have F := fits_rel g 0x12 4 8 d.bits v
  refine settle F (by decide) rfl ?_ h
  obtain ⟨r1, r2⟩ := rel_rest g 0x12 4 8 d.bits v
  have e := rel_imm g 0x12 4 8 d.bits v
  simp only [fieldsOf, major12_at F.maj, Enc.major12, F.mn, F.gd, bit3_def, dN_def, rZI_def, rel_fx, r1, r2, e, rel_d]
  simp

theorem nop (l : Len) : Statement (.nop l) := fun h _ off rest ho => by
  have t : Tidy (fieldsOf (.nop l)) := by
    cases l
    · exact tidy0 rfl rfl rfl
    · exact tidy1 rfl rfl
    · exact tidy2 rfl
  refine (decode_pack _ t off ho rest).trans ?_
  cases l <;> rfl

theorem brk (g : Guard) (v : BitVec 13) : Statement (.brk g v) := fun h _ => by
  refine settle (N := 6) (g := g) (M := 0x12) (fits0 rfl rfl rfl rfl (tidy0 rfl rfl rfl)) (by decide) rfl ?_ h
  simp [fieldsOf, Enc.major, Enc.major12]

theorem setwin (g : Guard) (a : Src) : Statement (.setwin g a) := fun h _ => by
  have F := fits_a g 0x18 0 a
  refine settle F (by decide) rfl ?_ h
  refine (major18_at F.maj).trans ?_
  simp [fieldsOf, Enc.major18, F.mn, Enc.ziA]

theorem rdwin (g : Guard) (d : Name) : Statement (.rdwin g d) := fun h _ => by
  refine settle (N := 1) (g := g) (M := 0x18) (fits0 rfl rfl rfl rfl (tidy0 rfl rfl rfl)) (by decide) rfl ?_ h
  simp [fieldsOf, Enc.major, Enc.major18]

theorem swctx (g : Guard) (a : Src) : Statement (.swctx g a) := fun h _ => by
  have F := fits_a g 0x18 2 a
  refine settle F (by decide) rfl ?_ h
  refine (major18_at F.maj).trans ?_
  simp [fieldsOf, Enc.major18, F.mn, Enc.ziA]

theorem wld (g : Guard) (x : WIdx) : Statement (.wld g x) := fun h _ => by
  refine settle (N := 3) (g := g) (M := 0x18) (fits0 rfl rfl rfl rfl (tidy0 rfl rfl rfl)) (by decide) rfl ?_ h
  simp [fieldsOf, Enc.major, Enc.major18]

theorem wst (g : Guard) (x : WIdx) : Statement (.wst g x) := fun h _ => by
  refine settle (N := 4) (g := g) (M := 0x18) (fits0 rfl rfl rfl rfl (tidy0 rfl rfl rfl)) (by decide) rfl ?_ h
  simp [fieldsOf, Enc.major, Enc.major18]

theorem wpush (g : Guard) (x : WPushArgs) : Statement (.wpush g x) := fun h _ => by
  refine settle (N := 5) (g := g) (M := 0x18) (fits0 rfl rfl rfl rfl (tidy0 rfl rfl rfl)) (by decide) rfl ?_ h
  obtain ⟨a, c⟩ := x
  revert c
  simp only [fieldsOf, Enc.major, Enc.major18]
  intro c
  rcases c with ⟨_ | _ | _ | _ | c, hc⟩ <;> simp
  all_goals first | rfl | omega

theorem wscrub (g : Guard) (x : WRange) : Statement (.wscrub g x) := fun h _ => by
  have F := fits_range g 6 x
  refine settle F (by decide) rfl ?_ h
  refine (major18_at F.maj).trans ?_
  simp [fieldsOf, Enc.major18, F.mn, range_of g 6 x .wscrub (by intro v hv; obtain ⟨a, c⟩ := x; simp only at hv; subst hv; simpa [Instr.canon] using canon h)]

theorem wdrain (g : Guard) (x : WRange) : Statement (.wdrain g x) := fun h _ => by
  have F := fits_range g 7 x
  refine settle F (by decide) rfl ?_ h
  refine (major18_at F.maj).trans ?_
  simp [fieldsOf, Enc.major18, F.mn, range_of g 7 x .wdrain (by intro v hv; obtain ⟨a, c⟩ := x; simp only at hv; subst hv; simpa [Instr.canon] using canon h)]

theorem setutw (g : Guard) (a : Src) : Statement (.setutw g a) := fun h _ => by
  have F := fits_a g 0x18 8 a
  refine settle F (by decide) rfl ?_ h
  refine (major18_at F.maj).trans ?_
  simp [fieldsOf, Enc.major18, F.mn, Enc.ziA]

theorem wret (g : Guard) : Statement (.wret g) := fun h _ => by
  have F := fits_base g 0x18 9 0
  refine settle F (by decide) rfl ?_ h
  refine (major18_at F.maj).trans ?_
  simp [fieldsOf, Enc.major18, F.mn, Enc.ziZ]

theorem ld (g : Guard) (x : Mem) : Statement (.ld g x) := fun h _ => by
  have F := fits_mem g 0x1C x
  refine settle F (by decide) rfl ?_ h
  refine (major1C_at F.maj).trans ?_
  simp [fieldsOf, Enc.major1C, Enc.op, Enc.ord, F.mn, mem_of g 0x1C x .ld]

theorem ldAcq (g : Guard) (x : MemSync) : Statement (.ldAcq g x) := fun h _ => by
  have hs : x.sc.fits x.off = true := canon h
  have hk := field_lt x.sc
  have F := fits_msync g 0x1C 1 x hs
  have m := mn_of (e := Enc.ofMemSync g 0x1C 1 x) 1 x.sc.field 0 (by decide) (by omega) (by decide) F.mn
  refine settle F (by decide) rfl ?_ h
  refine (major1C_at F.maj).trans ?_
  simp only [fieldsOf, Enc.major1C, m.1, m.2.2, msync_of g 0x1C 1 x .ldAcq hs]

theorem st (g : Guard) (x : Mem) : Statement (.st g x) := fun h _ => by
  have F := fits_mem g 0x1D x
  refine settle F (by decide) rfl ?_ h
  refine (major1D_at F.maj).trans ?_
  simp [fieldsOf, Enc.major1D, Enc.op, Enc.ord, F.mn, mem_of g 0x1D x .st]

theorem stRel (g : Guard) (x : MemSync) : Statement (.stRel g x) := fun h _ => by
  have hs : x.sc.fits x.off = true := canon h
  have hk := field_lt x.sc
  have F := fits_msync g 0x1D 2 x hs
  have m := mn_of (e := Enc.ofMemSync g 0x1D 2 x) 2 x.sc.field 0 (by decide) (by omega) (by decide) F.mn
  refine settle F (by decide) rfl ?_ h
  refine (major1D_at F.maj).trans ?_
  simp only [fieldsOf, Enc.major1D, m.1, m.2.2, msync_of g 0x1D 2 x .stRel hs]

theorem ldv (g : Guard) (x : VMem) : Statement (.ldv g x) := fun h _ => by
  have F := fits_vmem g 0x1E x
  refine settle F (by decide) rfl ?_ h
  refine (major1E_at F.maj).trans ?_
  simp [fieldsOf, Enc.major1E, Enc.op, Enc.ord, F.mn, vmem_of g 0x1E x .ldv]

theorem ldvAcq (g : Guard) (x : VMemSync) : Statement (.ldvAcq g x) := fun h _ => by
  have hs : x.sc.fits x.off = true := canon h
  have hk := field_lt x.sc
  have F := fits_vsync g 0x1E 1 x hs
  have m := mn_of (e := Enc.ofVMemSync g 0x1E 1 x) 1 x.sc.field 0 (by decide) (by omega) (by decide) F.mn
  refine settle F (by decide) rfl ?_ h
  refine (major1E_at F.maj).trans ?_
  simp only [fieldsOf, Enc.major1E, m.1, m.2.2, vsync_of g 0x1E 1 x .ldvAcq hs]

theorem stv (g : Guard) (x : VMem) : Statement (.stv g x) := fun h _ => by
  have F := fits_vmem g 0x1F x
  refine settle F (by decide) rfl ?_ h
  refine (major1F_at F.maj).trans ?_
  simp [fieldsOf, Enc.major1F, Enc.op, Enc.ord, F.mn, vmem_of g 0x1F x .stv]

theorem stvRel (g : Guard) (x : VMemSync) : Statement (.stvRel g x) := fun h _ => by
  have hs : x.sc.fits x.off = true := canon h
  have hk := field_lt x.sc
  have F := fits_vsync g 0x1F 2 x hs
  have m := mn_of (e := Enc.ofVMemSync g 0x1F 2 x) 2 x.sc.field 0 (by decide) (by omega) (by decide) F.mn
  refine settle F (by decide) rfl ?_ h
  refine (major1F_at F.maj).trans ?_
  simp only [fieldsOf, Enc.major1F, m.1, m.2.2, vsync_of g 0x1F 2 x .stvRel hs]

theorem ldvs (g : Guard) (x : VStride) : Statement (.ldvs g x) := fun h _ => by
  have F := fits_stride g 0x20 x
  refine settle F (by decide) rfl ?_ h
  simp [fieldsOf, Enc.major, F.maj, stride_of g 0x20 x .ldvs]

theorem stvs (g : Guard) (x : VStride) : Statement (.stvs g x) := fun h _ => by
  have F := fits_stride g 0x21 x
  refine settle F (by decide) rfl ?_ h
  simp [fieldsOf, Enc.major, F.maj, stride_of g 0x21 x .stvs]

theorem ldvx (g : Guard) (x : VIndex) : Statement (.ldvx g x) := fun h _ => by
  have F := fits_index g 0x22 x
  refine settle F (by decide) rfl ?_ h
  simp [fieldsOf, Enc.major, F.maj, index_of g 0x22 x .ldvx]

theorem stvx (g : Guard) (x : VIndex) : Statement (.stvx g x) := fun h _ => by
  have F := fits_index g 0x23 x
  refine settle F (by decide) rfl ?_ h
  simp [fieldsOf, Enc.major, F.maj, index_of g 0x23 x .stvx]

theorem ldp (g : Guard) (x : LdpArgs) : Statement (.ldp g x) := fun h _ => by
  obtain ⟨t, n, d, k, off, c⟩ := x
  have F : Fits (fieldsOf (.ldp g ⟨t, n, d, k, off, c⟩)) 0x24 0 g := fits_optC c (fits0 rfl rfl rfl rfl (tidy0 rfl rfl rfl)) rfl
  have o := optC_of (e := { (Enc.base g 0x24 0 (n.val * 16 + t.code)).put13 off with d := d.bits, a := Enc.ofFin k }) c rfl
  have e3 := hi4_of (e := fieldsOf (.ldp g ⟨t, n, d, k, off, c⟩)) n t.code (code_lt _) (by simp [fieldsOf])
  have e4 := tyLo_of (e := fieldsOf (.ldp g ⟨t, n, d, k, off, c⟩)) n.val t (by simp [fieldsOf])
  change (fieldsOf (.ldp g ⟨t, n, d, k, off, c⟩)).optC = _ ∧ ((fieldsOf (.ldp g ⟨t, n, d, k, off, c⟩)).l = 1#2 → (fieldsOf (.ldp g ⟨t, n, d, k, off, c⟩)).rC = _) ∧ ¬ ((fieldsOf (.ldp g ⟨t, n, d, k, off, c⟩)).l = 2#2) at o
  refine settle F (by decide) rfl ?_ h
  refine (major24_at F.maj).trans ?_
  simp only [Enc.major24, Enc.op, Enc.ord, Enc.msc, F.mn, F.gd, e3, e4, o.1]
  have k1 : (fieldsOf (.ldp g ⟨t, n, d, k, off, c⟩)).a = Enc.ofFin k := by simp [fieldsOf]
  have k2 : (fieldsOf (.ldp g ⟨t, n, d, k, off, c⟩)).d = d.bits := by simp [fieldsOf]
  have k3 : (fieldsOf (.ldp g ⟨t, n, d, k, off, c⟩)).i13 = off := by simp [fieldsOf]
  simp only [dN_def, k1, k2, k3]
  simp
  exact o.2

theorem pref (g : Guard) (x : PrefArgs) : Statement (.pref g x) := fun h _ => by
  have F : Fits (fieldsOf (.pref g x)) 0x25 0 g := fits_off x.off (fits0 rfl rfl rfl rfl (tidy0 rfl rfl rfl)) rfl rfl rfl
  have o : (fieldsOf (.pref g x)).offset = (x.off, false, false) := offset_of x.off rfl rfl rfl rfl
  have e3 := hi4_of (e := fieldsOf (.pref g x)) x.nud 0 (by decide) (by simp [fieldsOf, Enc.ofPref])
  have e4 := lo4_of (e := fieldsOf (.pref g x)) x.nud 0 (by decide) (by simp [fieldsOf, Enc.ofPref])
  have k1 : (fieldsOf (.pref g x)).a = x.a.bits := by simp [fieldsOf, Enc.ofPref]
  have k2 : (fieldsOf (.pref g x)).d = 0 := by simp [fieldsOf, Enc.ofPref]
  refine settle F (by decide) rfl ?_ h
  refine (major25_at F.maj).trans ?_
  simp [Enc.major25, Enc.op, Enc.ord, Enc.msc, F.mn, F.gd, e3, e4, o, k1, k2, -gd_def]

theorem prefL2 (g : Guard) (x : PrefArgs) : Statement (.prefL2 g x) := fun h _ => by
  have F : Fits (fieldsOf (.prefL2 g x)) 0x25 0 g := fits_off x.off (fits0 rfl rfl rfl rfl (tidy0 rfl rfl rfl)) rfl rfl rfl
  have o : (fieldsOf (.prefL2 g x)).offset = (x.off, false, false) := offset_of x.off rfl rfl rfl rfl
  have e3 := hi4_of (e := fieldsOf (.prefL2 g x)) x.nud 1 (by decide) (by simp [fieldsOf, Enc.ofPref])
  have e4 := lo4_of (e := fieldsOf (.prefL2 g x)) x.nud 1 (by decide) (by simp [fieldsOf, Enc.ofPref])
  have k1 : (fieldsOf (.prefL2 g x)).a = x.a.bits := by simp [fieldsOf, Enc.ofPref]
  have k2 : (fieldsOf (.prefL2 g x)).d = 0 := by simp [fieldsOf, Enc.ofPref]
  refine settle F (by decide) rfl ?_ h
  refine (major25_at F.maj).trans ?_
  simp [Enc.major25, Enc.op, Enc.ord, Enc.msc, F.mn, F.gd, e3, e4, o, k1, k2, -gd_def]

theorem prefMsc (g : Guard) (x : PrefArgs) : Statement (.prefMsc g x) := fun h _ => by
  have F : Fits (fieldsOf (.prefMsc g x)) 0x25 0 g := fits_off x.off (fits0 rfl rfl rfl rfl (tidy0 rfl rfl rfl)) rfl rfl rfl
  have o : (fieldsOf (.prefMsc g x)).offset = (x.off, false, false) := offset_of x.off rfl rfl rfl rfl
  have e3 := hi4_of (e := fieldsOf (.prefMsc g x)) x.nud 2 (by decide) (by simp [fieldsOf, Enc.ofPref])
  have e4 := lo4_of (e := fieldsOf (.prefMsc g x)) x.nud 2 (by decide) (by simp [fieldsOf, Enc.ofPref])
  have k1 : (fieldsOf (.prefMsc g x)).a = x.a.bits := by simp [fieldsOf, Enc.ofPref]
  have k2 : (fieldsOf (.prefMsc g x)).d = 0 := by simp [fieldsOf, Enc.ofPref]
  refine settle F (by decide) rfl ?_ h
  refine (major25_at F.maj).trans ?_
  simp [Enc.major25, Enc.op, Enc.ord, Enc.msc, F.mn, F.gd, e3, e4, o, k1, k2, -gd_def]

theorem flush (g : Guard) (x : FlushArgs) : Statement (.flush g x) := fun h _ => by
  have F : Fits (fieldsOf (.flush g x)) 0x25 1 g := fits_off x.off (fits0 rfl rfl rfl rfl (tidy0 rfl rfl rfl)) rfl rfl rfl
  have o : (fieldsOf (.flush g x)).offset = (x.off, false, false) := offset_of x.off rfl rfl rfl rfl
  have e3 := hi4_of (e := fieldsOf (.flush g x)) 0 0 (by decide) (by simp [fieldsOf, Enc.ofFlush])
  have e4 := lo4_of (e := fieldsOf (.flush g x)) 0 0 (by decide) (by simp [fieldsOf, Enc.ofFlush])
  have k1 : (fieldsOf (.flush g x)).a = x.a.bits := by simp [fieldsOf, Enc.ofFlush]
  have k2 : (fieldsOf (.flush g x)).d = 0 := by simp [fieldsOf, Enc.ofFlush]
  refine settle F (by decide) rfl ?_ h
  refine (major25_at F.maj).trans ?_
  simp [Enc.major25, Enc.op, Enc.ord, Enc.msc, F.mn, F.gd, e3, e4, o, k1, k2, -gd_def]

theorem flushMem (g : Guard) (x : FlushArgs) : Statement (.flushMem g x) := fun h _ => by
  have F : Fits (fieldsOf (.flushMem g x)) 0x25 1 g := fits_off x.off (fits0 rfl rfl rfl rfl (tidy0 rfl rfl rfl)) rfl rfl rfl
  have o : (fieldsOf (.flushMem g x)).offset = (x.off, false, false) := offset_of x.off rfl rfl rfl rfl
  have e3 := hi4_of (e := fieldsOf (.flushMem g x)) 0 1 (by decide) (by simp [fieldsOf, Enc.ofFlush])
  have e4 := lo4_of (e := fieldsOf (.flushMem g x)) 0 1 (by decide) (by simp [fieldsOf, Enc.ofFlush])
  have k1 : (fieldsOf (.flushMem g x)).a = x.a.bits := by simp [fieldsOf, Enc.ofFlush]
  have k2 : (fieldsOf (.flushMem g x)).d = 0 := by simp [fieldsOf, Enc.ofFlush]
  refine settle F (by decide) rfl ?_ h
  refine (major25_at F.maj).trans ?_
  simp [Enc.major25, Enc.op, Enc.ord, Enc.msc, F.mn, F.gd, e3, e4, o, k1, k2, -gd_def]

theorem amoAdd (g : Guard) (x : Amo) : Statement (.amoAdd g x) := fun h _ => by
  have F := fits_amo g 0 x
  obtain ⟨o, s, r, e⟩ := amo_of g 0 x (by decide)
  refine settle F (by decide) rfl ?_ h
  refine (major28_at F.maj).trans ?_
  simp only [fieldsOf, Enc.major28, o, s, r, e, F.gd]

theorem amoAnd (g : Guard) (x : Amo) : Statement (.amoAnd g x) := fun h _ => by
  have F := fits_amo g 1 x
  obtain ⟨o, s, r, e⟩ := amo_of g 1 x (by decide)
  refine settle F (by decide) rfl ?_ h
  refine (major28_at F.maj).trans ?_
  simp only [fieldsOf, Enc.major28, o, s, r, e, F.gd]

theorem amoOr (g : Guard) (x : Amo) : Statement (.amoOr g x) := fun h _ => by
  have F := fits_amo g 2 x
  obtain ⟨o, s, r, e⟩ := amo_of g 2 x (by decide)
  refine settle F (by decide) rfl ?_ h
  refine (major28_at F.maj).trans ?_
  simp only [fieldsOf, Enc.major28, o, s, r, e, F.gd]

theorem amoXor (g : Guard) (x : Amo) : Statement (.amoXor g x) := fun h _ => by
  have F := fits_amo g 3 x
  obtain ⟨o, s, r, e⟩ := amo_of g 3 x (by decide)
  refine settle F (by decide) rfl ?_ h
  refine (major28_at F.maj).trans ?_
  simp only [fieldsOf, Enc.major28, o, s, r, e, F.gd]

theorem amoMin (g : Guard) (x : Amo) : Statement (.amoMin g x) := fun h _ => by
  have F := fits_amo g 4 x
  obtain ⟨o, s, r, e⟩ := amo_of g 4 x (by decide)
  refine settle F (by decide) rfl ?_ h
  refine (major28_at F.maj).trans ?_
  simp only [fieldsOf, Enc.major28, o, s, r, e, F.gd]

theorem amoMax (g : Guard) (x : Amo) : Statement (.amoMax g x) := fun h _ => by
  have F := fits_amo g 5 x
  obtain ⟨o, s, r, e⟩ := amo_of g 5 x (by decide)
  refine settle F (by decide) rfl ?_ h
  refine (major28_at F.maj).trans ?_
  simp only [fieldsOf, Enc.major28, o, s, r, e, F.gd]

theorem amoSwap (g : Guard) (x : Amo) : Statement (.amoSwap g x) := fun h _ => by
  have F := fits_amo g 6 x
  obtain ⟨o, s, r, e⟩ := amo_of g 6 x (by decide)
  refine settle F (by decide) rfl ?_ h
  refine (major28_at F.maj).trans ?_
  simp only [fieldsOf, Enc.major28, o, s, r, e, F.gd]

theorem amoCas (g : Guard) (x : Amo) : Statement (.amoCas g x) := fun h _ => by
  have F := fits_amo g 7 x
  obtain ⟨o, s, r, e⟩ := amo_of g 7 x (by decide)
  refine settle F (by decide) rfl ?_ h
  refine (major28_at F.maj).trans ?_
  simp only [fieldsOf, Enc.major28, o, s, r, e, F.gd]

theorem fenceAcq (g : Guard) (sc : Scope) : Statement (.fenceAcq g sc) := fun h _ => by
  have F := fits_fence g 1 sc
  obtain ⟨o, d, s, r, e1, e2, e3, e4⟩ := fence_of g 1 sc (by decide)
  refine settle F (by decide) rfl ?_ h
  refine (major29_at F.maj).trans ?_
  simp only [fieldsOf, Enc.major29, o, d, s, r, e1, e2, e3, e4, F.gd]
  simp

theorem fenceRel (g : Guard) (sc : Scope) : Statement (.fenceRel g sc) := fun h _ => by
  have F := fits_fence g 2 sc
  obtain ⟨o, d, s, r, e1, e2, e3, e4⟩ := fence_of g 2 sc (by decide)
  refine settle F (by decide) rfl ?_ h
  refine (major29_at F.maj).trans ?_
  simp only [fieldsOf, Enc.major29, o, d, s, r, e1, e2, e3, e4, F.gd]
  simp

theorem fenceFull (g : Guard) (sc : Scope) : Statement (.fenceFull g sc) := fun h _ => by
  have F := fits_fence g 3 sc
  obtain ⟨o, d, s, r, e1, e2, e3, e4⟩ := fence_of g 3 sc (by decide)
  refine settle F (by decide) rfl ?_ h
  refine (major29_at F.maj).trans ?_
  simp only [fieldsOf, Enc.major29, o, d, s, r, e1, e2, e3, e4, F.gd]
  simp

theorem barinit (g : Guard) (x : BarInit) : Statement (.barinit g x) := fun h _ => by
  have F : Fits (fieldsOf (.barinit g x)) 0x2A (x.sc.field * 8 + 0) g := fits_scope x.sc (fits0 rfl rfl rfl rfl (tidy0 rfl rfl rfl)) rfl rfl rfl
  have hk := field_lt x.sc
  have m := mn_of0 (e := fieldsOf (.barinit g x)) x.sc.field 0 (by omega) (by decide) F.mn
  have s := scope_of (e := ((Enc.putA { Enc.base g 0x2A (x.sc.field * 8 + 0) 0 with d := x.d.bits } x.a).putB x.b)) x.sc rfl
  change (fieldsOf (.barinit g x)).scope _ = _ ∧ (fieldsOf (.barinit g x)).rScope _ = _ at s
  refine settle F (by decide) rfl ?_ h
  refine (major2A_at F.maj).trans ?_
  simp only [Enc.major2A, m.1, m.2.1, m.2.2, s.1, s.2, F.gd]
  simp [fieldsOf]

theorem bararr (g : Guard) (x : BarDA) : Statement (.bararr g x) := fun h _ => by
  have F : Fits (fieldsOf (.bararr g x)) 0x2A (x.sc.field * 8 + 1) g := fits_scope x.sc (fits0 rfl rfl rfl rfl (tidy0 rfl rfl rfl)) rfl rfl rfl
  have hk := field_lt x.sc
  have m := mn_of0 (e := fieldsOf (.bararr g x)) x.sc.field 1 (by omega) (by decide) F.mn
  have s := scope_of (e := (Enc.putA { Enc.base g 0x2A (x.sc.field * 8 + 1) 0 with d := x.d.bits } x.a)) x.sc rfl
  change (fieldsOf (.bararr g x)).scope _ = _ ∧ (fieldsOf (.bararr g x)).rScope _ = _ at s
  refine settle F (by decide) rfl ?_ h
  refine (major2A_at F.maj).trans ?_
  simp only [Enc.major2A, m.1, m.2.1, m.2.2, s.1, s.2, F.gd]
  simp [fieldsOf]

theorem barwait (g : Guard) (x : BarDA) : Statement (.barwait g x) := fun h _ => by
  have F : Fits (fieldsOf (.barwait g x)) 0x2A (x.sc.field * 8 + 2) g := fits_scope x.sc (fits0 rfl rfl rfl rfl (tidy0 rfl rfl rfl)) rfl rfl rfl
  have hk := field_lt x.sc
  have m := mn_of0 (e := fieldsOf (.barwait g x)) x.sc.field 2 (by omega) (by decide) F.mn
  have s := scope_of (e := (Enc.putA { Enc.base g 0x2A (x.sc.field * 8 + 2) 0 with d := x.d.bits } x.a)) x.sc rfl
  change (fieldsOf (.barwait g x)).scope _ = _ ∧ (fieldsOf (.barwait g x)).rScope _ = _ at s
  refine settle F (by decide) rfl ?_ h
  refine (major2A_at F.maj).trans ?_
  simp only [Enc.major2A, m.1, m.2.1, m.2.2, s.1, s.2, F.gd]
  simp [fieldsOf]

theorem barbytes (g : Guard) (x : BarAB) : Statement (.barbytes g x) := fun h _ => by
  have F : Fits (fieldsOf (.barbytes g x)) 0x2A (x.sc.field * 8 + 3) g := fits_scope x.sc (fits0 rfl rfl rfl rfl (tidy0 rfl rfl rfl)) rfl rfl rfl
  have hk := field_lt x.sc
  have m := mn_of0 (e := fieldsOf (.barbytes g x)) x.sc.field 3 (by omega) (by decide) F.mn
  have s := scope_of (e := (((Enc.base g 0x2A (x.sc.field * 8 + 3) 0).putA x.a).putB x.b)) x.sc rfl
  change (fieldsOf (.barbytes g x)).scope _ = _ ∧ (fieldsOf (.barbytes g x)).rScope _ = _ at s
  refine settle F (by decide) rfl ?_ h
  refine (major2A_at F.maj).trans ?_
  simp only [Enc.major2A, m.1, m.2.1, m.2.2, s.1, s.2, F.gd]
  simp [fieldsOf]

theorem waitln (g : Guard) (x : WaitArgs) : Statement (.waitln g x) := fun h _ => by
  have F : Fits (fieldsOf (.waitln g x)) 0x2E 0 g := fits_off x.off (fits0 rfl rfl rfl rfl (tidy0 rfl rfl rfl)) rfl rfl rfl
  have o : (fieldsOf (.waitln g x)).offset = (x.off, false, false) := offset_of x.off rfl rfl rfl rfl
  have fx : (fieldsOf (.waitln g x)).fx = BitVec.ofNat 8 ((0 : Fin 16).val * 16 + x.t.code) := by simp [fieldsOf]
  have e3 := hi4_of _ _ (code_lt _) fx
  have e4 := tyLo_of _ _ fx
  have k1 : (fieldsOf (.waitln g x)).a = x.a.bits := by simp [fieldsOf]
  have k2 : (fieldsOf (.waitln g x)).d = x.d.bits := by simp [fieldsOf]
  refine settle F (by decide) rfl ?_ h
  refine (major2E_at F.maj).trans ?_
  simp only [Enc.major2E, Enc.op, Enc.ord, Enc.msc, F.mn, F.gd, e3, e4, o, aN_def, dN_def, k1, k2]
  simp

theorem sleep (g : Guard) (a : Name) : Statement (.sleep g a) := fun h _ => by
  refine settle (N := 1) (g := g) (M := 0x2E) (fits0 rfl rfl rfl rfl (tidy0 rfl rfl rfl)) (by decide) rfl ?_ h
  simp [fieldsOf, Enc.major, Enc.major2E, Enc.op, Enc.ord, Enc.msc]

theorem sleepProm (g : Guard) (a : Name) : Statement (.sleepProm g a) := fun h _ => by
  refine settle (N := 1) (g := g) (M := 0x2E) (fits0 rfl rfl rfl rfl (tidy0 rfl rfl rfl)) (by decide) rfl ?_ h
  simp [fieldsOf, Enc.major, Enc.major2E, Enc.op, Enc.ord, Enc.msc]

theorem acopy (g : Guard) (x : AcopyArgs) : Statement (.acopy g x) := fun h _ => by
  have F : Fits (fieldsOf (.acopy g x)) 0x2C (x.sc.field * 8) g := fits_scope x.sc (fits0 rfl rfl rfl rfl (tidy0 rfl rfl rfl)) rfl rfl rfl
  have hk := field_lt x.sc
  have m := mn_of0 (e := fieldsOf (.acopy g x)) x.sc.field 0 (by omega) (by decide) F.mn
  have s := scope_of (e := (Enc.putAR { Enc.base g 0x2C (x.sc.field * 8) (x.nud.val * 16) with d := x.tok.bits } x.a)) x.sc rfl
  change (fieldsOf (.acopy g x)).scope _ = _ ∧ (fieldsOf (.acopy g x)).rScope _ = _ at s
  have fx : (fieldsOf (.acopy g x)).fx = BitVec.ofNat 8 (x.nud.val * 16 + 0) := by simp [fieldsOf]
  have e3 := hi4_of _ _ (by decide) fx
  have e4 : (fieldsOf (.acopy g x)).lo4 = 0 := Fin.ext (lo4_of _ _ (by decide) fx)
  refine settle F (by decide) rfl ?_ h
  refine (major2C_at F.maj).trans ?_
  simp only [Enc.major2C, m.1, m.2.1, m.2.2, s.1, s.2, F.gd, e3, e4]
  simp [fieldsOf]

theorem gather (g : Guard) (x : GatherArgs) : Statement (.gather g x) := fun h _ => by
  have F := fits_gather g 0 x
  obtain ⟨o, d, s, r, b, l, e⟩ := gather_of g 0 x (by decide)
  refine settle F (by decide) rfl ?_ h
  refine (major2D_at F.maj).trans ?_
  simp only [fieldsOf, Enc.major2D, o, d, s, r, b, l, e, F.gd]
  simp

theorem scatter (g : Guard) (x : GatherArgs) : Statement (.scatter g x) := fun h _ => by
  have F := fits_gather g 1 x
  obtain ⟨o, d, s, r, b, l, e⟩ := gather_of g 1 x (by decide)
  refine settle F (by decide) rfl ?_ h
  refine (major2D_at F.maj).trans ?_
  simp only [fieldsOf, Enc.major2D, o, d, s, r, b, l, e, F.gd]
  simp

theorem vadd (g : Guard) (x : Vec2) : Statement (.vadd g x) := fun h _ => by
  have F := fits_vec2 g 0x30 0 x
  refine settle F (by decide) rfl ?_ h
  refine (major30_at F.maj).trans ?_
  simp [fieldsOf, Enc.major30, F.mn, vec2_of g 0x30 0 x .vadd]

theorem vsub (g : Guard) (x : Vec2) : Statement (.vsub g x) := fun h _ => by
  have F := fits_vec2 g 0x30 1 x
  refine settle F (by decide) rfl ?_ h
  refine (major30_at F.maj).trans ?_
  simp [fieldsOf, Enc.major30, F.mn, vec2_of g 0x30 1 x .vsub]

theorem vmul (g : Guard) (x : Vec2) : Statement (.vmul g x) := fun h _ => by
  have F := fits_vec2 g 0x30 2 x
  refine settle F (by decide) rfl ?_ h
  refine (major30_at F.maj).trans ?_
  simp [fieldsOf, Enc.major30, F.mn, vec2_of g 0x30 2 x .vmul]

theorem vfma (g : Guard) (x : Vec3) : Statement (.vfma g x) := fun h _ => by
  have F := fits_vec3 g 0x30 3 x
  refine settle F (by decide) rfl ?_ h
  refine (major30_at F.maj).trans ?_
  simp [fieldsOf, Enc.major30, F.mn, vec3_of g 0x30 3 x .vfma]

theorem vfms (g : Guard) (x : Vec3) : Statement (.vfms g x) := fun h _ => by
  have F := fits_vec3 g 0x30 4 x
  refine settle F (by decide) rfl ?_ h
  refine (major30_at F.maj).trans ?_
  simp [fieldsOf, Enc.major30, F.mn, vec3_of g 0x30 4 x .vfms]

theorem vdiv (g : Guard) (x : Vec2) : Statement (.vdiv g x) := fun h _ => by
  have F := fits_vec2 g 0x30 5 x
  refine settle F (by decide) rfl ?_ h
  refine (major30_at F.maj).trans ?_
  simp [fieldsOf, Enc.major30, F.mn, vec2_of g 0x30 5 x .vdiv]

theorem vmin (g : Guard) (x : Vec2) : Statement (.vmin g x) := fun h _ => by
  have F := fits_vec2 g 0x30 6 x
  refine settle F (by decide) rfl ?_ h
  refine (major30_at F.maj).trans ?_
  simp [fieldsOf, Enc.major30, F.mn, vec2_of g 0x30 6 x .vmin]

theorem vmax (g : Guard) (x : Vec2) : Statement (.vmax g x) := fun h _ => by
  have F := fits_vec2 g 0x30 7 x
  refine settle F (by decide) rfl ?_ h
  refine (major30_at F.maj).trans ?_
  simp [fieldsOf, Enc.major30, F.mn, vec2_of g 0x30 7 x .vmax]

theorem vabs (g : Guard) (x : Vec1) : Statement (.vabs g x) := fun h _ => by
  have F := fits_vec1 g 0x30 8 x
  refine settle F (by decide) rfl ?_ h
  refine (major30_at F.maj).trans ?_
  simp [fieldsOf, Enc.major30, F.mn, vec1_of g 0x30 8 x .vabs]

theorem vneg (g : Guard) (x : Vec1) : Statement (.vneg g x) := fun h _ => by
  have F := fits_vec1 g 0x30 9 x
  refine settle F (by decide) rfl ?_ h
  refine (major30_at F.maj).trans ?_
  simp [fieldsOf, Enc.major30, F.mn, vec1_of g 0x30 9 x .vneg]

theorem vsqrt (g : Guard) (x : Vec1) : Statement (.vsqrt g x) := fun h _ => by
  have F := fits_vec1 g 0x31 0 x
  refine settle F (by decide) rfl ?_ h
  refine (major31_at F.maj).trans ?_
  simp [fieldsOf, Enc.major31, F.mn, vec1_of g 0x31 0 x .vsqrt]

theorem vrsq (g : Guard) (x : Vec1) : Statement (.vrsq g x) := fun h _ => by
  have F := fits_vec1 g 0x31 1 x
  refine settle F (by decide) rfl ?_ h
  refine (major31_at F.maj).trans ?_
  simp [fieldsOf, Enc.major31, F.mn, vec1_of g 0x31 1 x .vrsq]

theorem vexp2 (g : Guard) (x : Vec1) : Statement (.vexp2 g x) := fun h _ => by
  have F := fits_vec1 g 0x31 2 x
  refine settle F (by decide) rfl ?_ h
  refine (major31_at F.maj).trans ?_
  simp [fieldsOf, Enc.major31, F.mn, vec1_of g 0x31 2 x .vexp2]

theorem vlog2 (g : Guard) (x : Vec1) : Statement (.vlog2 g x) := fun h _ => by
  have F := fits_vec1 g 0x31 3 x
  refine settle F (by decide) rfl ?_ h
  refine (major31_at F.maj).trans ?_
  simp [fieldsOf, Enc.major31, F.mn, vec1_of g 0x31 3 x .vlog2]

theorem vladd (g : Guard) (x : Vec2) : Statement (.vladd g x) := fun h _ => by
  have F := fits_vec2 g 0x31 4 x
  refine settle F (by decide) rfl ?_ h
  refine (major31_at F.maj).trans ?_
  simp [fieldsOf, Enc.major31, F.mn, vec2_of g 0x31 4 x .vladd]

theorem vcmpEq (g : Guard) (x : VCmpArgs) : Statement (.vcmpEq g x) := fun h _ => by
  have F := fits_vcmp g 0 x
  refine settle F (by decide) rfl ?_ h
  refine (major32_at F.maj).trans ?_
  simp [fieldsOf, Enc.major32, F.mn, vcmp_of g 0 x .vcmpEq]

theorem vcmpNe (g : Guard) (x : VCmpArgs) : Statement (.vcmpNe g x) := fun h _ => by
  have F := fits_vcmp g 1 x
  refine settle F (by decide) rfl ?_ h
  refine (major32_at F.maj).trans ?_
  simp [fieldsOf, Enc.major32, F.mn, vcmp_of g 1 x .vcmpNe]

theorem vcmpLt (g : Guard) (x : VCmpArgs) : Statement (.vcmpLt g x) := fun h _ => by
  have F := fits_vcmp g 2 x
  refine settle F (by decide) rfl ?_ h
  refine (major32_at F.maj).trans ?_
  simp [fieldsOf, Enc.major32, F.mn, vcmp_of g 2 x .vcmpLt]

theorem vcmpLe (g : Guard) (x : VCmpArgs) : Statement (.vcmpLe g x) := fun h _ => by
  have F := fits_vcmp g 3 x
  refine settle F (by decide) rfl ?_ h
  refine (major32_at F.maj).trans ?_
  simp [fieldsOf, Enc.major32, F.mn, vcmp_of g 3 x .vcmpLe]

theorem vcmpGt (g : Guard) (x : VCmpArgs) : Statement (.vcmpGt g x) := fun h _ => by
  have F := fits_vcmp g 4 x
  refine settle F (by decide) rfl ?_ h
  refine (major32_at F.maj).trans ?_
  simp [fieldsOf, Enc.major32, F.mn, vcmp_of g 4 x .vcmpGt]

theorem vcmpGe (g : Guard) (x : VCmpArgs) : Statement (.vcmpGe g x) := fun h _ => by
  have F := fits_vcmp g 5 x
  refine settle F (by decide) rfl ?_ h
  refine (major32_at F.maj).trans ?_
  simp [fieldsOf, Enc.major32, F.mn, vcmp_of g 5 x .vcmpGe]

theorem vcmpUn (g : Guard) (x : VCmpArgs) : Statement (.vcmpUn g x) := fun h _ => by
  have F := fits_vcmp g 6 x
  refine settle F (by decide) rfl ?_ h
  refine (major32_at F.maj).trans ?_
  simp [fieldsOf, Enc.major32, F.mn, vcmp_of g 6 x .vcmpUn]

theorem vsel (g : Guard) (x : VSelArgs) : Statement (.vsel g x) := fun h _ => by
  have F := fits_vsel g x
  refine settle F (by decide) rfl ?_ h
  refine (major32_at F.maj).trans ?_
  cases x with
  | vec t d a b c =>
    obtain ⟨h1, h2, h3, h4⟩ := fx_bits t
    have k1 := vlow a.v
    have k2 := vlow b.v
    have k := cS_of (e := Enc.ofVSel g (.vec t d a b c)) c rfl
    have l : (Enc.ofVSel g (.vec t d a b c)).l = 1 := rfl
    simp only [fieldsOf, Enc.major32, F.mn, k.1, k.2, l, Enc.rV3, Enc.rV2]
    simp [Enc.ofVSel, h1, h3, Enc.lo3]; omega
  | scl t d a b c =>
    obtain ⟨h1, h2, h3, h4⟩ := fx_bits t
    have k := cS_of (e := Enc.ofVSel g (.scl t d a b c)) c rfl
    have l : (Enc.ofVSel g (.scl t d a b c)).l = 1 := rfl
    simp only [fieldsOf, Enc.major32, F.mn, k.1, k.2, l, Enc.rV3, Enc.rV2]
    simp [Enc.ofVSel, h2, h4, Enc.lo3]

theorem vmask (g : Guard) (x : VMaskArgs) : Statement (.vmask g x) := fun h _ => by
  have F := fits_vmask g x
  refine settle F (by decide) rfl ?_ h
  refine (major32_at F.maj).trans ?_
  cases x with
  | vec t d a =>
    obtain ⟨h1, h2, h3, h4⟩ := fx_bits t
    have k1 := vlow a.v
    simp [fieldsOf, Enc.major32, Enc.ofVMask, h1, h3, Enc.lo3]; omega
  | scl t d a =>
    obtain ⟨h1, h2, h3, h4⟩ := fx_bits t
    simp [fieldsOf, Enc.major32, Enc.ofVMask, h2, h4, Enc.lo3]

theorem vpopc (g : Guard) (x : Vec1) : Statement (.vpopc g x) := fun h _ => by
  have F := fits_vec1 g 0x32 0x12 x
  refine settle F (by decide) rfl ?_ h
  refine (major32_at F.maj).trans ?_
  simp [fieldsOf, Enc.major32, F.mn, vec1_of g 0x32 0x12 x .vpopc]

theorem vand (g : Guard) (x : Vec2) : Statement (.vand g x) := fun h _ => by
  have F := fits_vec2 g 0x33 0 x
  refine settle F (by decide) rfl ?_ h
  refine (major33_at F.maj).trans ?_
  simp [fieldsOf, Enc.major33, F.mn, vec2_of g 0x33 0 x .vand]

theorem vor (g : Guard) (x : Vec2) : Statement (.vor g x) := fun h _ => by
  have F := fits_vec2 g 0x33 1 x
  refine settle F (by decide) rfl ?_ h
  refine (major33_at F.maj).trans ?_
  simp [fieldsOf, Enc.major33, F.mn, vec2_of g 0x33 1 x .vor]

theorem vxor (g : Guard) (x : Vec2) : Statement (.vxor g x) := fun h _ => by
  have F := fits_vec2 g 0x33 2 x
  refine settle F (by decide) rfl ?_ h
  refine (major33_at F.maj).trans ?_
  simp [fieldsOf, Enc.major33, F.mn, vec2_of g 0x33 2 x .vxor]

theorem vshl (g : Guard) (x : Vec2) : Statement (.vshl g x) := fun h _ => by
  have F := fits_vec2 g 0x33 3 x
  refine settle F (by decide) rfl ?_ h
  refine (major33_at F.maj).trans ?_
  simp [fieldsOf, Enc.major33, F.mn, vec2_of g 0x33 3 x .vshl]

theorem vshr (g : Guard) (x : Vec2) : Statement (.vshr g x) := fun h _ => by
  have F := fits_vec2 g 0x33 4 x
  refine settle F (by decide) rfl ?_ h
  refine (major33_at F.maj).trans ?_
  simp [fieldsOf, Enc.major33, F.mn, vec2_of g 0x33 4 x .vshr]

theorem vsra (g : Guard) (x : Vec2) : Statement (.vsra g x) := fun h _ => by
  have F := fits_vec2 g 0x33 5 x
  refine settle F (by decide) rfl ?_ h
  refine (major33_at F.maj).trans ?_
  simp [fieldsOf, Enc.major33, F.mn, vec2_of g 0x33 5 x .vsra]

theorem vpack (g : Guard) (x : VPackArgs) : Statement (.vpack g x) := fun h _ => by
  have F := fits_packv g 0 x
  refine settle F (by decide) rfl ?_ h
  refine (major34_at F.maj).trans ?_
  simp [fieldsOf, Enc.major34, F.mn, packv_of g 0 x .vpack]

theorem vunpack (g : Guard) (x : VPackArgs) : Statement (.vunpack g x) := fun h _ => by
  have F := fits_packv g 1 x
  refine settle F (by decide) rfl ?_ h
  refine (major34_at F.maj).trans ?_
  simp [fieldsOf, Enc.major34, F.mn, packv_of g 1 x .vunpack]

theorem vcvt (g : Guard) (x : VCvtArgs) : Statement (.vcvt g x) := fun h _ => by
  have F := fits_cvt g (4 * 16) x
  have c := cvt_of g 4 x .vcvt
  have hm : (Enc.ofCvt g (4 * 16) x).mn.toNat / 16 = 4 := by
    rw [F.mn]
    cases x with
    | vec t s r d a hi => have := code_lt s; simp only [BitVec.toNat_ofNat]; omega
    | scl t s r d a => have := code_lt s; simp only [BitVec.toNat_ofNat]; omega
  refine settle F (by decide) rfl ?_ h
  refine (major34_at F.maj).trans ?_
  change (Enc.ofCvt g (4 * 16) x).major34 = _
  simp only [Enc.major34, hm]
  exact c

theorem vcvtSat (g : Guard) (x : VCvtArgs) : Statement (.vcvtSat g x) := fun h _ => by
  have F := fits_cvt g (5 * 16) x
  have c := cvt_of g 5 x .vcvtSat
  have hm : (Enc.ofCvt g (5 * 16) x).mn.toNat / 16 = 5 := by
    rw [F.mn]
    cases x with
    | vec t s r d a hi => have := code_lt s; simp only [BitVec.toNat_ofNat]; omega
    | scl t s r d a => have := code_lt s; simp only [BitVec.toNat_ofNat]; omega
  refine settle F (by decide) rfl ?_ h
  refine (major34_at F.maj).trans ?_
  change (Enc.ofCvt g (5 * 16) x).major34 = _
  simp only [Enc.major34, hm]
  exact c

theorem vcvtOvf (g : Guard) (x : VCvtArgs) : Statement (.vcvtOvf g x) := fun h _ => by
  have F := fits_cvt g (6 * 16) x
  have c := cvt_of g 6 x .vcvtOvf
  have hm : (Enc.ofCvt g (6 * 16) x).mn.toNat / 16 = 6 := by
    rw [F.mn]
    cases x with
    | vec t s r d a hi => have := code_lt s; simp only [BitVec.toNat_ofNat]; omega
    | scl t s r d a => have := code_lt s; simp only [BitVec.toNat_ofNat]; omega
  refine settle F (by decide) rfl ?_ h
  refine (major34_at F.maj).trans ?_
  change (Enc.ofCvt g (6 * 16) x).major34 = _
  simp only [Enc.major34, hm]
  exact c

theorem vredadd (g : Guard) (x : VRedArgs) : Statement (.vredadd g x) := fun h _ => by
  have F := fits_red g 0 x
  refine settle F (by decide) rfl ?_ h
  refine (major35_at F.maj).trans ?_
  simp [fieldsOf, Enc.major35, F.mn, red_of g 0 x .vredadd]

theorem vredmax (g : Guard) (x : VRedArgs) : Statement (.vredmax g x) := fun h _ => by
  have F := fits_red g 1 x
  refine settle F (by decide) rfl ?_ h
  refine (major35_at F.maj).trans ?_
  simp [fieldsOf, Enc.major35, F.mn, red_of g 1 x .vredmax]

theorem vredmin (g : Guard) (x : VRedArgs) : Statement (.vredmin g x) := fun h _ => by
  have F := fits_red g 2 x
  refine settle F (by decide) rfl ?_ h
  refine (major35_at F.maj).trans ?_
  simp [fieldsOf, Enc.major35, F.mn, red_of g 2 x .vredmin]

theorem vscan (g : Guard) (x : VScanArgs) : Statement (.vscan g x) := fun h _ => by
  obtain ⟨t, r, d, a, b⟩ := x
  obtain ⟨a1, a2, a3, a4, a5, a6, a7, a8⟩ := fx_rm t r
  have k1 := vlow a.v
  refine settle (N := 3) (g := g) (M := 0x35) (fits0 rfl rfl rfl rfl (tidy0 rfl rfl rfl)) (by decide) rfl ?_ h
  simp [fieldsOf, Enc.major, Enc.major35, a1, a5, a7, Enc.lo3]; omega

theorem vperm (g : Guard) (x : VPermArgs) : Statement (.vperm g x) := fun h _ => by
  obtain ⟨t, d, a, b⟩ := x
  obtain ⟨h1, h2, h3, h4⟩ := fx_bits t
  have k1 := vlow a.v
  have k2 := vlow b.v
  refine settle (N := 0) (g := g) (M := 0x36) (fits0 rfl rfl rfl rfl (tidy0 rfl rfl rfl)) (by decide) rfl ?_ h
  simp [fieldsOf, Enc.major, Enc.major36, h1, h3, Enc.lo3]; omega

theorem vbcast (g : Guard) (x : VBcastArgs) : Statement (.vbcast g x) := fun h _ => by
  obtain ⟨t, d, a⟩ := x
  obtain ⟨h1, h2, h3, h4⟩ := fx_bits t
  refine settle (N := 1) (g := g) (M := 0x36) (fits0 rfl rfl rfl rfl (tidy0 rfl rfl rfl)) (by decide) rfl ?_ h
  simp [fieldsOf, Enc.major, Enc.major36, h1, h3, Enc.lo3]

theorem vshuf (g : Guard) (x : VShufArgs) : Statement (.vshuf g x) := fun h _ => by
  obtain ⟨t, d, a, b, c⟩ := x
  obtain ⟨h1, h2, h3, h4⟩ := fx_bits t
  have k1 := vlow a.v
  have k2 := vlow b.v
  have F : Fits (fieldsOf (.vshuf g ⟨t, d, a, b, c⟩)) 0x36 2 g := fits0 rfl rfl rfl rfl (tidy1 rfl rfl)
  have k := cS_of (e := fieldsOf (.vshuf g ⟨t, d, a, b, c⟩)) c rfl
  have l : (fieldsOf (.vshuf g ⟨t, d, a, b, c⟩)).l = 1 := rfl
  refine settle F (by decide) rfl ?_ h
  refine (major36_at F.maj).trans ?_
  simp only [Enc.major36, F.mn, k.1, k.2, l]
  simp [fieldsOf, h1, h3, Enc.lo3]; omega

theorem vmov (g : Guard) (x : Vec1) : Statement (.vmov g x) := fun h _ => by
  have F := fits_vec1 g 0x36 3 x
  refine settle F (by decide) rfl ?_ h
  refine (major36_at F.maj).trans ?_
  simp [fieldsOf, Enc.major36, F.mn, vec1_of g 0x36 3 x .vmov]

theorem vlds (g : Guard) (x : VLdsArgs) : Statement (.vlds g x) := fun h _ => by
  obtain ⟨t, d, a, b⟩ := x
  obtain ⟨h1, h2, h3, h4⟩ := fx_bits t
  have k1 := vlow a.v
  refine settle (N := 4) (g := g) (M := 0x36) (fits0 rfl rfl rfl rfl (tidy0 rfl rfl rfl)) (by decide) rfl ?_ h
  simp [fieldsOf, Enc.major, Enc.major36, h1, h3, Enc.lo3]; omega

theorem vins (g : Guard) (x : VInsArgs) : Statement (.vins g x) := fun h _ => by
  obtain ⟨t, d, a, b⟩ := x
  obtain ⟨h1, h2, h3, h4⟩ := fx_bits t
  refine settle (N := 5) (g := g) (M := 0x36) (fits0 rfl rfl rfl rfl (tidy0 rfl rfl rfl)) (by decide) rfl ?_ h
  simp [fieldsOf, Enc.major, Enc.major36, h1, h3, Enc.lo3]

theorem mmaF (g : Guard) (x : MmaArgs) : Statement (.mmaF g x) := fun h _ => by
  have F := fits_mma g 0 x
  refine settle F (by decide) rfl ?_ h
  refine (major38_at F.maj).trans ?_
  simp [fieldsOf, Enc.major38, F.mn, mma_of g 0 x .mmaF]

theorem mmaI (g : Guard) (x : MmaArgs) : Statement (.mmaI g x) := fun h _ => by
  have F := fits_mma g 1 x
  refine settle F (by decide) rfl ?_ h
  refine (major38_at F.maj).trans ?_
  simp [fieldsOf, Enc.major38, F.mn, mma_of g 1 x .mmaI]

theorem mmaSat (g : Guard) (x : MmaArgs) : Statement (.mmaSat g x) := fun h _ => by
  have F := fits_mma g 2 x
  refine settle F (by decide) rfl ?_ h
  refine (major38_at F.maj).trans ?_
  simp [fieldsOf, Enc.major38, F.mn, mma_of g 2 x .mmaSat]

theorem mmaStep (g : Guard) (x : MmaStepArgs) : Statement (.mmaStep g x) := fun h _ => by
  have F : Fits (fieldsOf (.mmaStep g x)) 0x38 3 g := fits0 rfl rfl rfl rfl (tidy0 rfl rfl rfl)
  obtain ⟨h1, h2, h3⟩ := mid4_of (e := fieldsOf (.mmaStep g x)) x.nud x.rm rfl
  refine settle F (by decide) rfl ?_ h
  refine (major38_at F.maj).trans ?_
  simp only [Enc.major38, F.mn, h1, h2, h3, F.gd]
  simp [fieldsOf]

theorem mmas24F (g : Guard) (x : MmaArgs) : Statement (.mmas24F g x) := fun h _ => by
  have F := fits_mma g 0x10 x
  refine settle F (by decide) rfl ?_ h
  refine (major38_at F.maj).trans ?_
  simp [fieldsOf, Enc.major38, F.mn, mma_of g 0x10 x .mmas24F]

theorem mmas24I (g : Guard) (x : MmaArgs) : Statement (.mmas24I g x) := fun h _ => by
  have F := fits_mma g 0x11 x
  refine settle F (by decide) rfl ?_ h
  refine (major38_at F.maj).trans ?_
  simp [fieldsOf, Enc.major38, F.mn, mma_of g 0x11 x .mmas24I]

theorem mmas24Sat (g : Guard) (x : MmaArgs) : Statement (.mmas24Sat g x) := fun h _ => by
  have F := fits_mma g 0x12 x
  refine settle F (by decide) rfl ?_ h
  refine (major38_at F.maj).trans ?_
  simp [fieldsOf, Enc.major38, F.mn, mma_of g 0x12 x .mmas24Sat]

theorem mmas48F (g : Guard) (x : MmaArgs) : Statement (.mmas48F g x) := fun h _ => by
  have F := fits_mma g 0x14 x
  refine settle F (by decide) rfl ?_ h
  refine (major38_at F.maj).trans ?_
  simp [fieldsOf, Enc.major38, F.mn, mma_of g 0x14 x .mmas48F]

theorem mmas48I (g : Guard) (x : MmaArgs) : Statement (.mmas48I g x) := fun h _ => by
  have F := fits_mma g 0x15 x
  refine settle F (by decide) rfl ?_ h
  refine (major38_at F.maj).trans ?_
  simp [fieldsOf, Enc.major38, F.mn, mma_of g 0x15 x .mmas48I]

theorem mmas48Sat (g : Guard) (x : MmaArgs) : Statement (.mmas48Sat g x) := fun h _ => by
  have F := fits_mma g 0x16 x
  refine settle F (by decide) rfl ?_ h
  refine (major38_at F.maj).trans ?_
  simp [fieldsOf, Enc.major38, F.mn, mma_of g 0x16 x .mmas48Sat]

theorem mrotF (g : Guard) (x : MrotArgs) : Statement (.mrotF g x) := fun h _ => by
  have F := fits_mrot g 0x20 x
  refine settle F (by decide) rfl ?_ h
  refine (major38_at F.maj).trans ?_
  simp [fieldsOf, Enc.major38, F.mn, mrot_of g 0x20 x .mrotF]

theorem mrotI (g : Guard) (x : MrotArgs) : Statement (.mrotI g x) := fun h _ => by
  have F := fits_mrot g 0x21 x
  refine settle F (by decide) rfl ?_ h
  refine (major38_at F.maj).trans ?_
  simp [fieldsOf, Enc.major38, F.mn, mrot_of g 0x21 x .mrotI]

theorem mrotSat (g : Guard) (x : MrotArgs) : Statement (.mrotSat g x) := fun h _ => by
  have F := fits_mrot g 0x22 x
  refine settle F (by decide) rfl ?_ h
  refine (major38_at F.maj).trans ?_
  simp [fieldsOf, Enc.major38, F.mn, mrot_of g 0x22 x .mrotSat]

theorem mlda (g : Guard) (x : TokArgs) : Statement (.mlda g x) := fun h _ => by
  have F := fits_tok g 0x39 0 x
  refine settle F (by decide) rfl ?_ h
  refine (major39_at F.maj).trans ?_
  simp [fieldsOf, Enc.major39, F.mn, tok_of g 0x39 0 x .mlda]

theorem mldb (g : Guard) (x : TokArgs) : Statement (.mldb g x) := fun h _ => by
  have F := fits_tok g 0x39 1 x
  refine settle F (by decide) rfl ?_ h
  refine (major39_at F.maj).trans ?_
  simp [fieldsOf, Enc.major39, F.mn, tok_of g 0x39 1 x .mldb]

theorem mzero (g : Guard) (tile : Fin 4) : Statement (.mzero g tile) := fun h _ => by
  refine settle (N := 2) (g := g) (M := 0x39) (fits0 rfl rfl rfl rfl (tidy0 rfl rfl rfl)) (by decide) rfl ?_ h
  simp [fieldsOf, Enc.major, Enc.major39, Enc.mid4, Enc.lo3]

theorem mld (g : Guard) (x : MldArgs) : Statement (.mld g x) := fun h _ => by
  have F := fits_mld g 3 x
  refine settle F (by decide) rfl ?_ h
  refine (major39_at F.maj).trans ?_
  simp [fieldsOf, Enc.major39, F.mn, mld_of g 3 x .mld]

theorem mldt (g : Guard) (x : MldArgs) : Statement (.mldt g x) := fun h _ => by
  have F := fits_mld g 4 x
  refine settle F (by decide) rfl ?_ h
  refine (major39_at F.maj).trans ?_
  simp [fieldsOf, Enc.major39, F.mn, mld_of g 4 x .mldt]

theorem mthr (g : Guard) (a : Src) : Statement (.mthr g a) := fun h _ => by
  refine settle (N := 6) (g := g) (M := 0x39) (fits0 rfl rfl rfl rfl (tidy0 rfl rfl rfl)) (by decide) rfl ?_ h
  simp [fieldsOf, Enc.major, Enc.major39, Enc.mid4, Enc.lo3]

theorem mrd (g : Guard) (x : MrdArgs) : Statement (.mrd g x) := fun h _ => by
  refine settle (N := 7) (g := g) (M := 0x39) (fits0 rfl rfl rfl rfl (tidy0 rfl rfl rfl)) (by decide) rfl ?_ h
  simp [fieldsOf, Enc.major, Enc.major39, Enc.mid4, Enc.lo3]

theorem msave (g : Guard) (x : TokPlain) : Statement (.msave g x) := fun h _ => by
  refine settle (N := 8) (g := g) (M := 0x39) (fits0 rfl rfl rfl rfl (tidy0 rfl rfl rfl)) (by decide) rfl ?_ h
  simp [fieldsOf, Enc.major, Enc.major39, Enc.mid4, Enc.lo3]

theorem msaveRst (g : Guard) (x : TokPlain) : Statement (.msaveRst g x) := fun h _ => by
  refine settle (N := 8) (g := g) (M := 0x39) (fits0 rfl rfl rfl rfl (tidy0 rfl rfl rfl)) (by decide) rfl ?_ h
  simp [fieldsOf, Enc.major, Enc.major39, Enc.mid4, Enc.lo3]

theorem mst (g : Guard) (x : MstArgs) : Statement (.mst g x) := fun h _ => by
  have F : Fits (fieldsOf (.mst g x)) 0x39 (0x50 + x.t.code) g := fits0 rfl rfl rfl rfl (tidy0 rfl rfl rfl)
  obtain ⟨h1, h2, h3⟩ := mid4_of (e := fieldsOf (.mst g x)) x.nud x.rm rfl
  have hc := code_lt x.t
  have h7 : x.t.code ≠ 7 := by
    have : x.t ≠ .n64 := by simpa [Instr.canon] using canon h
    intro e; apply this
    rw [← ofCode_code x.t, e]; rfl
  have m1 : (fieldsOf (.mst g x)).mn.toNat / 16 = 5 := by rw [F.mn, BitVec.toNat_ofNat]; omega
  have m2 : ¬ ((fieldsOf (.mst g x)).mn.toNat % 16 = 7) := by rw [F.mn, BitVec.toNat_ofNat]; omega
  have m3 : Ty.ofCode (fieldsOf (.mst g x)).mn.toNat = x.t := by
    rw [← ofCode_mod, F.mn, BitVec.toNat_ofNat, show (0x50 + x.t.code) % 2 ^ 8 % 16 = x.t.code by omega, ofCode_code]
  refine settle F (by decide) rfl ?_ h
  refine (major39_at F.maj).trans ?_
  simp only [Enc.major39, m1, m2, m3, h1, h2, h3, F.gd, if_true, if_false]
  simp [fieldsOf]

theorem dssbind (g : Guard) (x : TokPlain) : Statement (.dssbind g x) := fun h _ => by
  refine settle (N := 0) (g := g) (M := 0x3A) (fits0 rfl rfl rfl rfl (tidy0 rfl rfl rfl)) (by decide) rfl ?_ h
  simp [fieldsOf, Enc.major, Enc.major3A, Enc.mid4, Enc.lo3]

theorem dssstep (g : Guard) (x : TokArgs) : Statement (.dssstep g x) := fun h _ => by
  have F := fits_tok g 0x3A 1 x
  refine settle F (by decide) rfl ?_ h
  refine (major3A_at F.maj).trans ?_
  simp [fieldsOf, Enc.major3A, F.mn, tok_of g 0x3A 1 x .dssstep]

theorem dsscutRead (g : Guard) (x : CutRead) : Statement (.dsscutRead g x) := fun h _ => by
  have ha : x.a.trap = false := by simpa [Instr.canon] using canon h
  obtain ⟨d, ⟨a, m⟩⟩ := x
  simp only at ha
  subst ha
  refine settle (N := 2) (g := g) (M := 0x3A) (fits0 rfl rfl rfl rfl (tidy0 rfl rfl rfl)) (by decide) rfl ?_ h
  simp [fieldsOf, Enc.major, Enc.major3A, Enc.mid4, Enc.lo3, Enc.aR0]

theorem dsscutImpose (g : Guard) (x : TokArgs) : Statement (.dsscutImpose g x) := fun h _ => by
  have ha : x.a.trap = false := by simpa [Instr.canon] using canon h
  have F := fits_cut g 1 x
  obtain ⟨i, e, l, r, b⟩ := cut_of g 1 x (by decide) ha
  refine settle F (by decide) rfl ?_ h
  refine (major3A_at F.maj).trans ?_
  simp only [fieldsOf, Enc.major3A, F.mn, F.gd, i, e, l, r, b]
  simp

theorem dsscutUnimpose (g : Guard) (a : Run) : Statement (.dsscutUnimpose g a) := fun h _ => by
  have ha : a.trap = false := by simpa [Instr.canon] using canon h
  obtain ⟨a, m⟩ := a
  simp only at ha
  subst ha
  refine settle (N := 2) (g := g) (M := 0x3A) (fits0 rfl rfl rfl rfl (tidy0 rfl rfl rfl)) (by decide) rfl ?_ h
  simp [fieldsOf, Enc.major, Enc.major3A, Enc.mid4, Enc.lo3, Enc.aR0]

theorem dsscutStoreImage (g : Guard) (x : TokArgs) : Statement (.dsscutStoreImage g x) := fun h _ => by
  have ha : x.a.trap = false := by simpa [Instr.canon] using canon h
  have F := fits_cut g 3 x
  obtain ⟨i, e, l, r, b⟩ := cut_of g 3 x (by decide) ha
  refine settle F (by decide) rfl ?_ h
  refine (major3A_at F.maj).trans ?_
  simp only [fieldsOf, Enc.major3A, F.mn, F.gd, i, e, l, r, b]
  simp

theorem dsscutLoadImage (g : Guard) (x : TokArgs) : Statement (.dsscutLoadImage g x) := fun h _ => by
  have ha : x.a.trap = false := by simpa [Instr.canon] using canon h
  have F := fits_cut g 4 x
  obtain ⟨i, e, l, r, b⟩ := cut_of g 4 x (by decide) ha
  refine settle F (by decide) rfl ?_ h
  refine (major3A_at F.maj).trans ?_
  simp only [fieldsOf, Enc.major3A, F.mn, F.gd, i, e, l, r, b]
  simp

theorem send (g : Guard) (x : SendArgs) : Statement (.send g x) := fun h _ => by
  have F := fits_send g 0 x
  obtain ⟨h1, h2, h3⟩ := tk_of (e := Enc.ofSend g 0 x) 0 x.sc (by simp [Enc.ofSend])
  have hn : ¬ ((Enc.ofSend g 0 x).l = 2 ∧ 1 ≤ (Enc.ofSend g 0 x).tsc ∧ (Enc.ofSend g 0 x).tsc ≤ 5) := by
    rw [h2]
    obtain ⟨a, r, sc⟩ := x
    cases sc <;> simp [Enc.ofSend, Scope.put, Scope.field]
  refine settle F (by decide) rfl ?_ h
  refine (major3C_at F.maj).trans ?_
  simp only [fieldsOf, Enc.major3C, F.mn]
  exact (if_neg hn).trans (send_of g 0 x .send)

theorem sendRect (g : Guard) (x : SendRect) : Statement (.sendRect g x) := fun h _ => by
  obtain ⟨c0, c1, r, sc⟩ := x
  have b0 := c0.isLt
  have b1 := c1.isLt
  have hk := sc.isLt
  have F : Fits (fieldsOf (.sendRect g ⟨c0, c1, r, sc⟩)) 0x3C 0 g := fits0 rfl rfl rfl rfl (tidy2 rfl)
  obtain ⟨h1, h2, h3⟩ := tk_of (e := fieldsOf (.sendRect g ⟨c0, c1, r, sc⟩)) 0 (.short sc) (by simp [fieldsOf, Scope.field])
  have p0 : BitVec.ofNat 13 ((c0.toNat + 65536 * c1.toNat) % 4294967296) = c0 := by
    apply BitVec.eq_of_toNat_eq; rw [BitVec.toNat_ofNat]; omega
  have p1 : BitVec.ofNat 13 ((c0.toNat + 65536 * c1.toNat) % 4294967296 / 65536) = c1 := by
    apply BitVec.eq_of_toNat_eq; rw [BitVec.toNat_ofNat]; omega
  have l : (fieldsOf (.sendRect g ⟨c0, c1, r, sc⟩)).l = 2 := rfl
  refine settle F (by decide) rfl ?_ h
  refine (major3C_at F.maj).trans ?_
  have hc : (fieldsOf (.sendRect g ⟨c0, c1, r, sc⟩)).l = 2 ∧ 1 ≤ (fieldsOf (.sendRect g ⟨c0, c1, r, sc⟩)).tsc ∧ (fieldsOf (.sendRect g ⟨c0, c1, r, sc⟩)).tsc ≤ 5 := by
    rw [h2]; simp only [Scope.field]; exact ⟨l, by omega, by omega⟩
  simp only [Enc.major3C, F.mn]
  refine (if_pos hc).trans ?_
  simp only [Enc.sendRectD, rNud_def, h1, h2, h3, Scope.field, short_of, F.gd]
  simp [fieldsOf, p0, p1]; omega

theorem spawn (g : Guard) (x : SpawnArgs) : Statement (.spawn g x) := fun h _ => by
  have F : Fits (fieldsOf (.spawn g x)) 0x3C 1 g := fits_scope x.sc (fits0 rfl rfl rfl rfl (tidy0 rfl rfl rfl)) rfl rfl rfl
  obtain ⟨h1, h2, h3⟩ := tk_of (e := fieldsOf (.spawn g x)) 0 x.sc (by simp [fieldsOf])
  have s := scope_of (e := ((Enc.base g 0x3C 1 x.sc.field).putBR x.r)) x.sc rfl
  change (fieldsOf (.spawn g x)).scope _ = _ ∧ (fieldsOf (.spawn g x)).rScope _ = _ at s
  refine settle F (by decide) rfl ?_ h
  refine (major3C_at F.maj).trans ?_
  simp only [Enc.major3C, F.mn, rNud_def, h1, h2, h3, s.1, s.2, F.gd]
  simp [fieldsOf]

theorem spawnev (g : Guard) (x : SendArgs) : Statement (.spawnev g x) := fun h _ => by
  have F := fits_send g 2 x
  refine settle F (by decide) rfl ?_ h
  refine (major3C_at F.maj).trans ?_
  simp [fieldsOf, Enc.major3C, F.mn, send_of g 2 x .spawnev]

theorem evadd (g : Guard) (x : EvArgs) : Statement (.evadd g x) := fun h _ => by
  have F := fits_ev g 3 x
  refine settle F (by decide) rfl ?_ h
  refine (major3C_at F.maj).trans ?_
  simp [fieldsOf, Enc.major3C, F.mn, ev_of g 3 x .evadd]

theorem evset (g : Guard) (x : EvArgs) : Statement (.evset g x) := fun h _ => by
  have F := fits_ev g 4 x
  refine settle F (by decide) rfl ?_ h
  refine (major3C_at F.maj).trans ?_
  simp [fieldsOf, Enc.major3C, F.mn, ev_of g 4 x .evset]

theorem park (g : Guard) (x : ParkArgs) : Statement (.park g x) := fun h _ => by
  have F : Fits (fieldsOf (.park g x)) 0x3C 5 g := fits_scope x.sc (fits0 rfl rfl rfl rfl (tidy0 rfl rfl rfl)) rfl rfl rfl
  obtain ⟨h1, h2, h3⟩ := tk_of (e := fieldsOf (.park g x)) 0 x.sc (by simp [fieldsOf])
  have s := scope_of (e := { (Enc.base g 0x3C 5 x.sc.field).put13 x.n with a := x.a.bits }) x.sc rfl
  change (fieldsOf (.park g x)).scope _ = _ ∧ (fieldsOf (.park g x)).rScope _ = _ at s
  refine settle F (by decide) rfl ?_ h
  refine (major3C_at F.maj).trans ?_
  simp only [Enc.major3C, F.mn, rNud_def, h1, h2, h3, s.1, s.2, F.gd]
  simp [fieldsOf]

theorem tend (g : Guard) : Statement (.tend g) := fun h _ => by
  refine settle (N := 6) (g := g) (M := 0x3C) (fits0 rfl rfl rfl rfl (tidy0 rfl rfl rfl)) (by decide) rfl ?_ h
  simp [fieldsOf, Enc.major, Enc.major3C, Enc.mid4, Enc.tsc, Enc.noScope]

theorem launch (g : Guard) (x : EvArgs) : Statement (.launch g x) := fun h _ => by
  have F := fits_ev g 7 x
  refine settle F (by decide) rfl ?_ h
  refine (major3C_at F.maj).trans ?_
  simp [fieldsOf, Enc.major3C, F.mn, ev_of g 7 x .launch]

theorem yield (g : Guard) (n : BitVec 13) : Statement (.yield g n) := fun h _ => by
  refine settle (N := 8) (g := g) (M := 0x3C) (fits0 rfl rfl rfl rfl (tidy0 rfl rfl rfl)) (by decide) rfl ?_ h
  simp [fieldsOf, Enc.major, Enc.major3C, Enc.mid4, Enc.tsc, Enc.noScope]

theorem sread (g : Guard) (x : IoArgs) : Statement (.sread g x) := fun h _ => by
  have F := fits_io g 0x10 x
  refine settle F (by decide) rfl ?_ h
  refine (major3C_at F.maj).trans ?_
  simp [fieldsOf, Enc.major3C, F.mn, io_of g 0x10 x .sread]

theorem swrite (g : Guard) (x : IoArgs) : Statement (.swrite g x) := fun h _ => by
  have F := fits_io g 0x11 x
  refine settle F (by decide) rfl ?_ h
  refine (major3C_at F.maj).trans ?_
  simp [fieldsOf, Enc.major3C, F.mn, io_of g 0x11 x .swrite]

theorem nettx (g : Guard) (x : IoArgs) : Statement (.nettx g x) := fun h _ => by
  have F := fits_io g 0x12 x
  refine settle F (by decide) rfl ?_ h
  refine (major3C_at F.maj).trans ?_
  simp [fieldsOf, Enc.major3C, F.mn, io_of g 0x12 x .nettx]

theorem netrx (g : Guard) (x : IoArgs) : Statement (.netrx g x) := fun h _ => by
  have F := fits_io g 0x13 x
  refine settle F (by decide) rfl ?_ h
  refine (major3C_at F.maj).trans ?_
  simp [fieldsOf, Enc.major3C, F.mn, io_of g 0x13 x .netrx]

theorem domain (g : Guard) (x : TwoSrc) : Statement (.domain g x) := fun h _ => by
  refine settle (N := 0x20) (g := g) (M := 0x3C) (fits0 rfl rfl rfl rfl (tidy0 rfl rfl rfl)) (by decide) rfl ?_ h
  simp [fieldsOf, Enc.major, Enc.major3C, Enc.mid4, Enc.tsc, Enc.noScope]

theorem domexit (g : Guard) : Statement (.domexit g) := fun h _ => by
  refine settle (N := 0x21) (g := g) (M := 0x3C) (fits0 rfl rfl rfl rfl (tidy0 rfl rfl rfl)) (by decide) rfl ?_ h
  simp [fieldsOf, Enc.major, Enc.major3C, Enc.mid4, Enc.tsc, Enc.noScope]

theorem vsend (g : Guard) (x : SendArgs) : Statement (.vsend g x) := fun h _ => by
  have F := fits_send g 0x22 x
  refine settle F (by decide) rfl ?_ h
  refine (major3C_at F.maj).trans ?_
  simp [fieldsOf, Enc.major3C, F.mn, send_of g 0x22 x .vsend]

theorem vtnow (g : Guard) (d : Name) : Statement (.vtnow g d) := fun h _ => by
  refine settle (N := 0x23) (g := g) (M := 0x3C) (fits0 rfl rfl rfl rfl (tidy0 rfl rfl rfl)) (by decide) rfl ?_ h
  simp [fieldsOf, Enc.major, Enc.major3C, Enc.mid4, Enc.tsc, Enc.noScope]

theorem gvtrd (g : Guard) (d : Name) : Statement (.gvtrd g d) := fun h _ => by
  refine settle (N := 0x24) (g := g) (M := 0x3C) (fits0 rfl rfl rfl rfl (tidy0 rfl rfl rfl)) (by decide) rfl ?_ h
  simp [fieldsOf, Enc.major, Enc.major3C, Enc.mid4, Enc.tsc, Enc.noScope]

theorem safe (g : Guard) : Statement (.safe g) := fun h _ => by
  refine settle (N := 0x25) (g := g) (M := 0x3C) (fits0 rfl rfl rfl rfl (tidy0 rfl rfl rfl)) (by decide) rfl ?_ h
  simp [fieldsOf, Enc.major, Enc.major3C, Enc.mid4, Enc.tsc, Enc.noScope]

theorem defer (g : Guard) (x : SendArgs) : Statement (.defer g x) := fun h _ => by
  have F := fits_send g 0x26 x
  refine settle F (by decide) rfl ?_ h
  refine (major3C_at F.maj).trans ?_
  simp [fieldsOf, Enc.major3C, F.mn, send_of g 0x26 x .defer]

theorem trap (g : Guard) (v : BitVec 13) : Statement (.trap g v) := fun h _ => by
  refine settle (N := 0) (g := g) (M := 0x3D) (fits0 rfl rfl rfl rfl (tidy0 rfl rfl rfl)) (by decide) rfl ?_ h
  simp [fieldsOf, Enc.major, Enc.major3D]

theorem rett (g : Guard) : Statement (.rett g) := fun h _ => by
  have F := fits_base g 0x3D 1 0
  refine settle F (by decide) rfl ?_ h
  refine (major3D_at F.maj).trans ?_
  simp [fieldsOf, Enc.major3D, F.mn, Enc.ziZ]

theorem mfs (g : Guard) (x : MfsArgs) : Statement (.mfs g x) := fun h _ => by
  refine settle (N := 2) (g := g) (M := 0x3D) (fits0 rfl rfl rfl rfl (tidy0 rfl rfl rfl)) (by decide) rfl ?_ h
  simp [fieldsOf, Enc.major, Enc.major3D]

theorem mts (g : Guard) (x : MtsArgs) : Statement (.mts g x) := fun h _ => by
  have hc : (x.reg.toNat ≠ 0x059 ∧ x.reg.toNat ≠ 0x03B) ∧ x.reg.toNat ≠ 0x026 := by simpa [Instr.canon] using canon h
  have F : Fits (fieldsOf (.mts g x)) 0x3D 3 g := fits0 rfl rfl rfl rfl (tidy0 rfl rfl rfl)
  have k : (fieldsOf (.mts g x)).i13 = x.reg := by simp [fieldsOf, Enc.ofMts]
  have e : (fieldsOf (.mts g x)).mtsD = .mts g x := by
    simp only [Enc.mtsD, k, F.gd]
    split
    · exact absurd (by assumption) hc.1.1
    · exact absurd (by assumption) hc.1.2
    · exact absurd (by assumption) hc.2
    · simp [fieldsOf, Enc.ofMts]
  refine settle F (by decide) rfl ?_ h
  refine (major3D_at F.maj).trans ?_
  simp only [Enc.major3D, F.mn, e]
  simp [fieldsOf, Enc.ofMts]

theorem tlbiPage (g : Guard) (x : TwoSrc) : Statement (.tlbiPage g x) := fun h _ => by
  refine settle (N := 4) (g := g) (M := 0x3D) (fits0 rfl rfl rfl rfl (tidy0 rfl rfl rfl)) (by decide) rfl ?_ h
  simp [fieldsOf, Enc.major, Enc.major3D, Enc.bSrc]

theorem tlbiAsid (g : Guard) (x : TwoSrc) : Statement (.tlbiAsid g x) := fun _ e => absurd e Bool.false_ne_true

theorem tlbiPartition (g : Guard) (x : TwoSrc) : Statement (.tlbiPartition g x) := fun _ e => absurd e Bool.false_ne_true

theorem idle (g : Guard) : Statement (.idle g) := fun h _ => by
  have F := fits_base g 0x3D 5 0
  refine settle F (by decide) rfl ?_ h
  refine (major3D_at F.maj).trans ?_
  simp [fieldsOf, Enc.major3D, F.mn, Enc.ziZ]

theorem halt (g : Guard) : Statement (.halt g) := fun h _ => by
  have F := fits_base g 0x3D 6 0
  refine settle F (by decide) rfl ?_ h
  refine (major3D_at F.maj).trans ?_
  simp [fieldsOf, Enc.major3D, F.mn, Enc.ziZ]

theorem censusStore (g : Guard) (x : CensusArgs) : Statement (.censusStore g x) := fun h _ => by
  refine settle (N := 7) (g := g) (M := 0x3D) (fits0 rfl rfl rfl rfl (tidy0 rfl rfl rfl)) (by decide) rfl ?_ h
  simp [fieldsOf, Enc.major, Enc.major3D, Enc.ofCensus]

theorem censusCompare (g : Guard) (x : CensusArgs) : Statement (.censusCompare g x) := fun h _ => by
  refine settle (N := 7) (g := g) (M := 0x3D) (fits0 rfl rfl rfl rfl (tidy0 rfl rfl rfl)) (by decide) rfl ?_ h
  simp [fieldsOf, Enc.major, Enc.major3D, Enc.ofCensus]

theorem censusClear (g : Guard) (x : CensusArgs) : Statement (.censusClear g x) := fun h _ => by
  refine settle (N := 7) (g := g) (M := 0x3D) (fits0 rfl rfl rfl rfl (tidy0 rfl rfl rfl)) (by decide) rfl ?_ h
  simp [fieldsOf, Enc.major, Enc.major3D, Enc.ofCensus]

theorem suspend (g : Guard) (a : Name) : Statement (.suspend g a) := fun h _ => by
  refine settle (N := 3) (g := g) (M := 0x3D) (fits0 rfl rfl rfl rfl (tidy0 rfl rfl rfl)) (by decide) rfl ?_ h
  simp [fieldsOf, Enc.major, Enc.major3D, Enc.ofMts, Enc.mtsD]

theorem plsync (g : Guard) (a : Name) : Statement (.plsync g a) := fun h _ => by
  refine settle (N := 3) (g := g) (M := 0x3D) (fits0 rfl rfl rfl rfl (tidy0 rfl rfl rfl)) (by decide) rfl ?_ h
  simp [fieldsOf, Enc.major, Enc.major3D, Enc.ofMts, Enc.mtsD]

theorem lsfa (g : Guard) (a : Name) : Statement (.lsfa g a) := fun h _ => by
  refine settle (N := 3) (g := g) (M := 0x3D) (fits0 rfl rfl rfl rfl (tidy0 rfl rfl rfl)) (by decide) rfl ?_ h
  simp [fieldsOf, Enc.major, Enc.major3D, Enc.ofMts, Enc.mtsD]

theorem pageWalk (va : Word) (kind : Nat) : Statement (.pageWalk va kind) := fun _ e => absurd e Bool.false_ne_true

theorem bindingLand (k : Nat) : Statement (.bindingLand k) := fun _ e => absurd e Bool.false_ne_true

theorem ageingSweep (k : Nat) : Statement (.ageingSweep k) := fun _ e => absurd e Bool.false_ne_true

theorem policingIntervalEnd : Statement (.policingIntervalEnd) := fun _ e => absurd e Bool.false_ne_true

theorem gatherEngineServe : Statement (.gatherEngineServe) := fun _ e => absurd e Bool.false_ne_true

theorem gatherTokenFill : Statement (.gatherTokenFill) := fun _ e => absurd e Bool.false_ne_true

theorem acopyAccept : Statement (.acopyAccept) := fun _ e => absurd e Bool.false_ne_true

theorem acopyComplete : Statement (.acopyComplete) := fun _ e => absurd e Bool.false_ne_true

theorem kick (c : Nat) (k : Nat) (v : KickBy) : Statement (.kick c k v) := fun _ e => absurd e Bool.false_ne_true

theorem transferRecord (c : Nat) (k : Nat) : Statement (.transferRecord c k) := fun _ e => absurd e Bool.false_ne_true

theorem matrixGrant : Statement (.matrixGrant) := fun _ e => absurd e Bool.false_ne_true

theorem matrixTokenFill : Statement (.matrixTokenFill) := fun _ e => absurd e Bool.false_ne_true

theorem rotlate : Statement (.rotlate) := fun _ e => absurd e Bool.false_ne_true

theorem promise : Statement (.promise) := fun _ e => absurd e Bool.false_ne_true

theorem sleepWake : Statement (.sleepWake) := fun _ e => absurd e Bool.false_ne_true

theorem waitlnLineWritten (k : Nat) : Statement (.waitlnLineWritten k) := fun _ e => absurd e Bool.false_ne_true

theorem waitlnSpinTimeout : Statement (.waitlnSpinTimeout) := fun _ e => absurd e Bool.false_ne_true

theorem waitlnParkTimeout (k : Nat) : Statement (.waitlnParkTimeout k) := fun _ e => absurd e Bool.false_ne_true

theorem budget : Statement (.budget) := fun _ e => absurd e Bool.false_ne_true

theorem ringlockIdle : Statement (.ringlockIdle) := fun _ e => absurd e Bool.false_ne_true

theorem recordDelivery (x : Delivery) : Statement (.recordDelivery x) := fun _ e => absurd e Bool.false_ne_true

theorem overflowReoffer : Statement (.overflowReoffer) := fun _ e => absurd e Bool.false_ne_true

theorem dispatch : Statement (.dispatch) := fun _ e => absurd e Bool.false_ne_true

theorem footprintFetch : Statement (.footprintFetch) := fun _ e => absurd e Bool.false_ne_true

theorem yieldHoldExpiry : Statement (.yieldHoldExpiry) := fun _ e => absurd e Bool.false_ne_true

theorem stealRoundWait : Statement (.stealRoundWait) := fun _ e => absurd e Bool.false_ne_true

theorem launchStart (q : Nat) : Statement (.launchStart q) := fun _ e => absurd e Bool.false_ne_true

theorem optimisticArrival (x : Delivery) : Statement (.optimisticArrival x) := fun _ e => absurd e Bool.false_ne_true

theorem antiMessageArrival (k : Key) : Statement (.antiMessageArrival k) := fun _ e => absurd e Bool.false_ne_true

theorem gvtReport : Statement (.gvtReport) := fun _ e => absurd e Bool.false_ne_true

theorem gvtInstall (k : Key) : Statement (.gvtInstall k) := fun _ e => absurd e Bool.false_ne_true

theorem ioAccept : Statement (.ioAccept) := fun _ e => absurd e Bool.false_ne_true

theorem ioTimeout (seq : Nat) : Statement (.ioTimeout seq) := fun _ e => absurd e Bool.false_ne_true

theorem machine (detail : Nat) (phys : Nat) : Statement (.machine detail phys) := fun _ e => absurd e Bool.false_ne_true

theorem eventRingOverrunWait : Statement (.eventRingOverrunWait) := fun _ e => absurd e Bool.false_ne_true

theorem unassignedEncoding (detail : Nat) (parcel : Parcel) : Statement (.unassignedEncoding detail parcel) := fun _ e => absurd e Bool.false_ne_true

theorem fetchFault (cause : Nat) (info : Word) : Statement (.fetchFault cause info) := fun _ e => absurd e Bool.false_ne_true

theorem regionTableEviction : Statement (.regionTableEviction) := fun _ e => absurd e Bool.false_ne_true

theorem hostBoundary (x : ExtAccess) : Statement (.hostBoundary x) := fun _ e => absurd e Bool.false_ne_true

theorem cfg (c : Nat) (k : Nat) (v : Word) : Statement (.cfg c k v) := fun _ e => absurd e Bool.false_ne_true

theorem haltResume (c : Nat) (k : Nat) (v : Word) : Statement (.haltResume c k v) := fun _ e => absurd e Bool.false_ne_true

theorem free (c : Nat) (k : Nat) (v : Word) : Statement (.free c k v) := fun _ e => absurd e Bool.false_ne_true

theorem mrotBufferArrival (isA : Bool) (bytes : List Byte) (tag : RotTag) : Statement (.mrotBufferArrival isA bytes tag) := fun _ e => absurd e Bool.false_ne_true

theorem lqtail (q : Nat) (v : Word) : Statement (.lqtail q v) := fun _ e => absurd e Bool.false_ne_true

theorem preempt (v : Word) : Statement (.preempt v) := fun _ e => absurd e Bool.false_ne_true

theorem stealseed (v : Word) : Statement (.stealseed v) := fun _ e => absurd e Bool.false_ne_true

theorem ioComplete (seq : Nat) (x : IoAnswer) : Statement (.ioComplete seq x) := fun _ e => absurd e Bool.false_ne_true

theorem frameReceived (q : Nat) (bytes : List Byte) (fcsBad : Bool) : Statement (.frameReceived q bytes fcsBad) := fun _ e => absurd e Bool.false_ne_true

theorem collkick (v : Word) : Statement (.collkick v) := fun _ e => absurd e Bool.false_ne_true

theorem collectiveRecord (data : List (Nat × List Byte)) (fabric : Nat) : Statement (.collectiveRecord data fabric) := fun _ e => absurd e Bool.false_ne_true

theorem hostWrite (x : ExtAccess) : Statement (.hostWrite x) := fun _ e => absurd e Bool.false_ne_true

theorem hostRead (x : ExtAccess) : Statement (.hostRead x) := fun _ e => absurd e Bool.false_ne_true

theorem hostBar0Access (off : Nat) (size : Nat) (write : Bool) (v : Word) : Statement (.hostBar0Access off size write v) := fun _ e => absurd e Bool.false_ne_true

theorem fabricAccess (dev : Nat) (x : HartAccess) : Statement (.fabricAccess dev x) := fun _ e => absurd e Bool.false_ne_true

theorem meshFlitParity (again : Bool) (mine : Bool) : Statement (.meshFlitParity again mine) := fun _ e => absurd e Bool.false_ne_true

theorem linkCrcFail (f : CrcFail) (reads : List Nat) (write : Option Word) : Statement (.linkCrcFail f reads write) := fun _ e => absurd e Bool.false_ne_true

theorem writebackLost (pa : Nat) : Statement (.writebackLost pa) := fun _ e => absurd e Bool.false_ne_true

theorem eventPost (kind : Nat) (info : Word) (more : Word) : Statement (.eventPost kind info more) := fun _ e => absurd e Bool.false_ne_true

theorem pagePull (page : Nat) : Statement (.pagePull page) := fun _ e => absurd e Bool.false_ne_true

theorem pullFailed (page : Nat) : Statement (.pullFailed page) := fun _ e => absurd e Bool.false_ne_true

theorem vdctl (v : Nat) (x : Word) : Statement (.vdctl v x) := fun _ e => absurd e Bool.false_ne_true

theorem quantumEnd : Statement (.quantumEnd) := fun _ e => absurd e Bool.false_ne_true

theorem sliceLate : Statement (.sliceLate) := fun _ e => absurd e Bool.false_ne_true

theorem go (v : Word) : Statement (.go v) := fun _ e => absurd e Bool.false_ne_true

theorem errcnt (v : Word) : Statement (.errcnt v) := fun _ e => absurd e Bool.false_ne_true

theorem registerWrite (addr : Nat) (v : Word) : Statement (.registerWrite addr v) := fun _ e => absurd e Bool.false_ne_true

theorem boot (ok : Bool) (dev : Nat) : Statement (.boot ok dev) := fun _ e => absurd e Bool.false_ne_true

theorem thermalThrottle : Statement (.thermalThrottle) := fun _ e => absurd e Bool.false_ne_true

theorem thermalHalt : Statement (.thermalHalt) := fun _ e => absurd e Bool.false_ne_true

theorem powerState (m : Fin 4) : Statement (.powerState m) := fun _ e => absurd e Bool.false_ne_true

theorem softError (addr : Nat) (corrected : Bool) (place : ErrAt) : Statement (.softError addr corrected place) := fun _ e => absurd e Bool.false_ne_true

theorem pageArrival (page : Nat) (bytes : List (Nat × Byte)) : Statement (.pageArrival page bytes) := fun _ e => absurd e Bool.false_ne_true

end Sys2Proof.Laws.RoundTrip
end

