-- ==== Sys2Proof/Tests/Slice0.lean ====
section
/-! SUPPORT. The model's own tests: every row's word decodes, ill-formed terms are refused, single steps against the spec's worked
examples, and for every statement with hypotheses a state and operands that meet them. -/
namespace Sys2Proof.Tests
set_option Elab.async false
set_option maxRecDepth 20000
set_option exponentiation.threshold 600
set_option linter.unusedVariables false
open Sys2Proof Sys2Proof.Machine

/-! ### Decoding: one word of every row, laid out from R198 and R209 to R212 -/

/-- A base word from its fields L, MAJ, MIN, FX, D, A, B, and parcel 2 (R198, R203), with its length in bits. -/
def word (l maj mn fx d a b p2 : Nat) : Nat × Nat :=
  (64 + 32 * l, l + 4 * maj + 2 ^ 13 * d + 2 ^ 24 * a + 2 ^ 35 * b + 2 ^ 48 * mn + 2 ^ 56 * fx + 2 ^ 64 * p2)

/-- The decoder reads the instruction from the word. -/
def reads (p : (Nat × Nat) × Instr) : Bool := decide (decodeTableWord p.1.1 p.1.2 = some p.2)

theorem test_decode_integer1 : [
    (word 0 0x01 0x00 0x30 9 2 3 0x0, .add {} { t := .i64, d := .w 9, a := ⟨.w 2, false⟩, b := .word ⟨.w 3, false⟩ }),
    (word 0 0x01 0x01 0x30 9 2 3 0x0, .sub {} { t := .i64, d := .w 9, a := ⟨.w 2, false⟩, b := .word ⟨.w 3, false⟩ }),
    (word 0 0x01 0x02 0x30 9 2 3 0x0, .mul {} { t := .i64, d := .w 9, a := ⟨.w 2, false⟩, b := .word ⟨.w 3, false⟩ }),
    (word 0 0x01 0x03 0x30 9 2 3 0x0, .mulh {} { t := .i64, d := .w 9, a := ⟨.w 2, false⟩, b := .word ⟨.w 3, false⟩ }),
    (word 0 0x01 0x04 0x30 9 2 3 0x0, .div {} { t := .i64, d := .w 9, a := ⟨.w 2, false⟩, b := .word ⟨.w 3, false⟩ }),
    (word 0 0x01 0x05 0x30 9 2 3 0x0, .rem {} { t := .i64, d := .w 9, a := ⟨.w 2, false⟩, b := .word ⟨.w 3, false⟩ }),
    (word 0 0x01 0x06 0x30 9 2 3 0x0, .min {} { t := .i64, d := .w 9, a := ⟨.w 2, false⟩, b := .word ⟨.w 3, false⟩ }),
    (word 0 0x01 0x07 0x30 9 2 3 0x0, .max {} { t := .i64, d := .w 9, a := ⟨.w 2, false⟩, b := .word ⟨.w 3, false⟩ }),
    (word 0 0x01 0x08 0x20 9 2 0 0x0, .abs {} { t := .i32, d := .w 9, a := ⟨.w 2, false⟩ }),
    (word 0 0x02 0x00 0x70 9 2 3 0x0, .and {} { t := .n64, d := .w 9, a := ⟨.w 2, false⟩, b := .word ⟨.w 3, false⟩ }),
    (word 0 0x02 0x01 0x70 9 2 3 0x0, .or {} { t := .n64, d := .w 9, a := ⟨.w 2, false⟩, b := .word ⟨.w 3, false⟩ }),
    (word 0 0x02 0x02 0x70 9 2 3 0x0, .xor {} { t := .n64, d := .w 9, a := ⟨.w 2, false⟩, b := .word ⟨.w 3, false⟩ }),
    (word 0 0x02 0x03 0x70 9 2 3 0x0, .andn {} { t := .n64, d := .w 9, a := ⟨.w 2, false⟩, b := .word ⟨.w 3, false⟩ }),
    (word 0 0x03 0x00 0x70 9 2 3 0x0, .shl {} { t := .n64, d := .w 9, a := ⟨.w 2, false⟩, b := .word ⟨.w 3, false⟩ }),
    (word 0 0x03 0x01 0x70 9 2 3 0x0, .shr {} { t := .n64, d := .w 9, a := ⟨.w 2, false⟩, b := .word ⟨.w 3, false⟩ }),
    (word 0 0x03 0x02 0x30 9 2 3 0x0, .sra {} { t := .i64, d := .w 9, a := ⟨.w 2, false⟩, b := .word ⟨.w 3, false⟩ }),
    (word 0 0x03 0x03 0x70 9 2 3 0x0, .rot {} { t := .n64, d := .w 9, a := ⟨.w 2, false⟩, b := .word ⟨.w 3, false⟩ }),
    (word 0 0x04 0x00 0x60 9 2 0 0x0, .clz {} { t := .n32, d := .w 9, a := ⟨.w 2, false⟩ }),
    (word 0 0x04 0x01 0x60 9 2 0 0x0, .ctz {} { t := .n32, d := .w 9, a := ⟨.w 2, false⟩ }),
    (word 0 0x04 0x02 0x60 9 2 0 0x0, .popc {} { t := .n32, d := .w 9, a := ⟨.w 2, false⟩ }),
    (word 0 0x04 0x03 0x60 9 2 0 0x0, .brev {} { t := .n32, d := .w 9, a := ⟨.w 2, false⟩ }),
    (word 0 0x04 0x04 0x60 9 2 0 0x0, .bswap {} { t := .n32, d := .w 9, a := ⟨.w 2, false⟩ })
  ].all (reads ·) = true := by decide

theorem test_decode_integer2 : [
    (word 0 0x04 0x05 0x78 9 2 200 0x0, .ext {} { t := .n64, d := .w 9, a := ⟨.w 2, false⟩, b := .imm (.i13 200) }),
    (word 0 0x04 0x06 0x78 9 2 200 0x0, .ins {} { t := .n64, d := .w 9, a := ⟨.w 2, false⟩, b := .imm (.i13 200) }),
    (word 1 0x05 0x00 0x70 9 2 3 0x4, .sel {} { t := .n64, d := .w 9, a := ⟨.w 2, false⟩, b := ⟨.w 3, false⟩, p := 4 }),
    (word 0 0x05 0x01 0x70 9 2 0 0x0, .mov {} { t := .n64, d := .w 9, v := .word ⟨.w 2, false⟩ }),
    (word 0 0x05 0x02 0x70 9 2 3 0x0, .lea {} (.idx .n64 (.w 9) ⟨.w 2, false⟩ ⟨.w 3, false⟩))
  ].all (reads ·) = true := by decide

theorem test_decode_predicate1 : [
    (word 0 0x10 0x00 0x30 1 2 3 0x0, .cmpEq {} { t := .i64, p := 1, a := ⟨.w 2, false⟩, b := .word ⟨.w 3, false⟩ }),
    (word 0 0x10 0x01 0x30 1 2 3 0x0, .cmpNe {} { t := .i64, p := 1, a := ⟨.w 2, false⟩, b := .word ⟨.w 3, false⟩ }),
    (word 0 0x10 0x02 0x30 1 2 3 0x0, .cmpLt {} { t := .i64, p := 1, a := ⟨.w 2, false⟩, b := .word ⟨.w 3, false⟩ }),
    (word 0 0x10 0x03 0x30 1 2 3 0x0, .cmpLe {} { t := .i64, p := 1, a := ⟨.w 2, false⟩, b := .word ⟨.w 3, false⟩ }),
    (word 0 0x10 0x04 0x30 1 2 3 0x0, .cmpGt {} { t := .i64, p := 1, a := ⟨.w 2, false⟩, b := .word ⟨.w 3, false⟩ }),
    (word 0 0x10 0x05 0x30 1 2 3 0x0, .cmpGe {} { t := .i64, p := 1, a := ⟨.w 2, false⟩, b := .word ⟨.w 3, false⟩ }),
    (word 0 0x10 0x06 0xA0 1 2 3 0x0, .cmpUn {} { t := .f32, p := 1, a := ⟨.w 2, false⟩, b := .word ⟨.w 3, false⟩ }),
    (word 0 0x11 0x00 0x00 1 2 3 0x0, .pand {} { d := 1, a := 2, b := 3 }),
    (word 0 0x11 0x01 0x00 1 2 3 0x0, .por {} { d := 1, a := 2, b := 3 }),
    (word 0 0x11 0x02 0x00 1 2 3 0x0, .pxor {} { d := 1, a := 2, b := 3 }),
    (word 0 0x11 0x03 0x00 1 2 0 0x0, .pnot {} { d := 1, a := 2 }),
    (word 0 0x11 0x04 0x00 1 2 0 0x0, .pmov {} { d := 1, a := 2 })
  ].all (reads ·) = true := by decide

theorem test_decode_control1 : [
    (word 0 0x12 0x00 0x08 0 0 5 0x0, .br {} (.i13 5)),
    (word 0 0x12 0x01 0x00 0 2 0 0x0, .jmp {} ⟨.w 2, false⟩),
    (word 0 0x12 0x02 0x00 9 2 0 0x0, .call {} { d := .w 9, t := .reg ⟨.w 2, false⟩ }),
    (word 0 0x12 0x03 0x00 0 2 0 0x0, .ret {} ⟨.w 2, false⟩),
    (word 0 0x12 0x04 0x08 9 0 5 0x0, .loop {} { d := .w 9, off := .i13 5 }),
    (word 0 0x12 0x05 0x00 0 0 0 0x0, .nop .l64),
    (word 0 0x12 0x06 0x08 0 0 5 0x0, .brk {} 5)
  ].all (reads ·) = true := by decide

theorem test_decode_window1 : [
    (word 0 0x18 0x00 0x00 0 2 0 0x0, .setwin {} ⟨.w 2, false⟩),
    (word 0 0x18 0x01 0x00 9 0 0 0x0, .rdwin {} (.w 9)),
    (word 0 0x18 0x02 0x00 0 2 0 0x0, .swctx {} ⟨.w 2, false⟩),
    (word 0 0x18 0x03 0x08 9 2 3 0x0, .wld {} { d := .w 9, a := .w 2, off := 3 }),
    (word 0 0x18 0x04 0x08 9 2 3 0x0, .wst {} { d := .w 9, a := .w 2, off := 3 }),
    (word 0 0x18 0x05 0x08 0 2 1 0x0, .wpush {} { a := .w 2, cls := 1 }),
    (word 0 0x18 0x06 0x00 0 2 3 0x0, .wscrub {} { a := ⟨.w 2, false⟩, c := .word ⟨.w 3, false⟩ }),
    (word 0 0x18 0x07 0x00 0 2 3 0x0, .wdrain {} { a := ⟨.w 2, false⟩, c := .word ⟨.w 3, false⟩ }),
    (word 0 0x18 0x08 0x00 0 2 0 0x0, .setutw {} ⟨.w 2, false⟩),
    (word 0 0x18 0x09 0x00 0 0 0 0x0, .wret {})
  ].all (reads ·) = true := by decide

theorem test_decode_memory1 : [
    (word 0 0x1C 0x00 0xF7 9 2 3 0x0, .ld {} { t := .n64, nud := 15, d := .w 9, a := .w 2, off := .short 3 }),
    (word 0 0x1C 0x50 0xF7 9 2 3 0x0, .ldAcq {} { t := .n64, nud := 15, d := .w 9, a := .w 2, off := .short 3, sc := .short 1 }),
    (word 0 0x1D 0x00 0xF7 9 2 3 0x0, .st {} { t := .n64, nud := 15, d := .w 9, a := .w 2, off := .short 3 }),
    (word 0 0x1D 0x90 0xF7 9 2 3 0x0, .stRel {} { t := .n64, nud := 15, d := .w 9, a := .w 2, off := .short 3, sc := .short 1 }),
    (word 0 0x1E 0x00 0xF7 9 2 3 0x0, .ldv {} { t := .n64, nud := 15, v := 9, a := .w 2, off := .short 3 }),
    (word 0 0x1E 0x50 0xF7 9 2 3 0x0, .ldvAcq {} { t := .n64, nud := 15, v := 9, a := .w 2, off := .short 3, sc := .short 1 }),
    (word 0 0x1F 0x00 0xF7 9 2 3 0x0, .stv {} { t := .n64, nud := 15, v := 9, a := .w 2, off := .short 3 }),
    (word 0 0x1F 0x90 0xF7 9 2 3 0x0, .stvRel {} { t := .n64, nud := 15, v := 9, a := .w 2, off := .short 3, sc := .short 1 }),
    (word 0 0x20 0x00 0xF7 9 2 3 0x0, .ldvs {} { t := .n64, nud := 15, v := 9, a := ⟨.w 2, false⟩, b := ⟨.w 3, false⟩, m := none }),
    (word 0 0x21 0x00 0xF7 9 2 3 0x0, .stvs {} { t := .n64, nud := 15, v := 9, a := ⟨.w 2, false⟩, b := ⟨.w 3, false⟩, m := none }),
    (word 0 0x22 0x00 0xF7 9 2 3 0x0, .ldvx {} { t := .n64, nud := 15, v := 9, a := ⟨.w 2, false⟩, b := ⟨3, false⟩, m := none }),
    (word 0 0x23 0x00 0xF7 9 2 3 0x0, .stvx {} { t := .n64, nud := 15, v := 9, a := ⟨.w 2, false⟩, b := ⟨3, false⟩, m := none }),
    (word 0 0x24 0x00 0xF7 9 1 3 0x0, .ldp {} { t := .n64, nud := 15, d := .w 9, k := 1, off := 3, c := none }),
    (word 0 0x25 0x00 0xF0 0 2 3 0x0, .pref {} { nud := 15, a := .w 2, off := .short 3 }),
    (word 0 0x25 0x00 0xF1 0 2 3 0x0, .prefL2 {} { nud := 15, a := .w 2, off := .short 3 }),
    (word 0 0x25 0x00 0xF2 0 2 3 0x0, .prefMsc {} { nud := 15, a := .w 2, off := .short 3 }),
    (word 0 0x25 0x01 0x00 0 2 3 0x0, .flush {} { a := .w 2, off := .short 3 }),
    (word 0 0x25 0x01 0x01 0 2 3 0x0, .flushMem {} { a := .w 2, off := .short 3 })
  ].all (reads ·) = true := by decide

theorem test_decode_synchronising1 : [
    (word 0 0x28 0x18 0xF3 9 2 3 0x0, .amoAdd {} { t := .i64, nud := 15, ord := .none, d := .w 9, a := ⟨.w 2, false⟩, b := ⟨.w 3, false⟩, sc := .short 2 }),
    (word 0 0x28 0xD9 0xF3 9 2 3 0x0, .amoAnd {} { t := .i64, nud := 15, ord := .ar, d := .w 9, a := ⟨.w 2, false⟩, b := ⟨.w 3, false⟩, sc := .short 2 }),
    (word 0 0x28 0x1A 0xF3 9 2 3 0x0, .amoOr {} { t := .i64, nud := 15, ord := .none, d := .w 9, a := ⟨.w 2, false⟩, b := ⟨.w 3, false⟩, sc := .short 2 }),
    (word 0 0x28 0xDB 0xF3 9 2 3 0x0, .amoXor {} { t := .i64, nud := 15, ord := .ar, d := .w 9, a := ⟨.w 2, false⟩, b := ⟨.w 3, false⟩, sc := .short 2 }),
    (word 0 0x28 0x1C 0xF3 9 2 3 0x0, .amoMin {} { t := .i64, nud := 15, ord := .none, d := .w 9, a := ⟨.w 2, false⟩, b := ⟨.w 3, false⟩, sc := .short 2 }),
    (word 0 0x28 0xDD 0xF3 9 2 3 0x0, .amoMax {} { t := .i64, nud := 15, ord := .ar, d := .w 9, a := ⟨.w 2, false⟩, b := ⟨.w 3, false⟩, sc := .short 2 }),
    (word 0 0x28 0x1E 0xF3 9 2 3 0x0, .amoSwap {} { t := .i64, nud := 15, ord := .none, d := .w 9, a := ⟨.w 2, false⟩, b := ⟨.w 3, false⟩, sc := .short 2 }),
    (word 0 0x28 0xDF 0xF3 9 2 3 0x0, .amoCas {} { t := .i64, nud := 15, ord := .ar, d := .w 9, a := ⟨.w 2, false⟩, b := ⟨.w 3, false⟩, sc := .short 2 }),
    (word 0 0x29 0x60 0x00 0 0 0 0x0, .fenceAcq {} (.short 3)),
    (word 0 0x29 0xA0 0x00 0 0 0 0x0, .fenceRel {} (.short 3)),
    (word 0 0x29 0xE0 0x00 0 0 0 0x0, .fenceFull {} (.short 3)),
    (word 0 0x2A 0x10 0x00 9 2 3 0x0, .barinit {} { d := .w 9, a := ⟨.w 2, false⟩, b := ⟨.w 3, false⟩, sc := .short 1 }),
    (word 0 0x2A 0x11 0x00 9 2 0 0x0, .bararr {} { d := .w 9, a := ⟨.w 2, false⟩, sc := .short 1 }),
    (word 0 0x2A 0x12 0x00 9 2 0 0x0, .barwait {} { d := .w 9, a := ⟨.w 2, false⟩, sc := .short 1 }),
    (word 0 0x2A 0x13 0x00 0 2 3 0x0, .barbytes {} { a := ⟨.w 2, false⟩, b := ⟨.w 3, false⟩, sc := .short 1 }),
    (word 0 0x2E 0x00 0x07 9 2 3 0x0, .waitln {} { t := .n64, d := .w 9, a := .w 2, off := .short 3 }),
    (word 0 0x2E 0x01 0x00 0 2 0 0x0, .sleep {} (.w 2)),
    (word 0 0x2E 0x01 0x00 0 2 1 0x0, .sleepProm {} (.w 2)),
    (word 0 0x2C 0x10 0xF0 9 2 0 0x0, .acopy {} { nud := 15, tok := .w 9, a := ⟨.w 2, false⟩, sc := .short 1 }),
    (word 0 0x2D 0x10 0xF6 9 2 3 0x0, .gather {} { wide := false, nud := 15, tok := .w 9, a := ⟨.w 2, false⟩, b := ⟨3, false⟩, sc := .short 1 }),
    (word 0 0x2D 0x11 0xF3 9 2 3 0x0, .scatter {} { wide := true, nud := 15, tok := .w 9, a := ⟨.w 2, false⟩, b := ⟨3, false⟩, sc := .short 1 })
  ].all (reads ·) = true := by decide

theorem test_decode_vector1 : [
    (word 0 0x30 0x00 0xA1 9 2 3 0x0, .vadd {} { t := .f32, rm := 1, o := .vec 9 ⟨2, false⟩ ⟨3, false⟩ }),
    (word 0 0x30 0x01 0xA1 9 2 3 0x0, .vsub {} { t := .f32, rm := 1, o := .vec 9 ⟨2, false⟩ ⟨3, false⟩ }),
    (word 0 0x30 0x02 0xA1 9 2 3 0x0, .vmul {} { t := .f32, rm := 1, o := .vec 9 ⟨2, false⟩ ⟨3, false⟩ }),
    (word 1 0x30 0x03 0xA7 9 2 3 0x4, .vfma {} { t := .f32, rm := 7, o := .vec 9 ⟨2, false⟩ ⟨3, false⟩ ⟨4, false⟩ }),
    (word 1 0x30 0x04 0xA7 9 2 3 0x4, .vfms {} { t := .f32, rm := 7, o := .vec 9 ⟨2, false⟩ ⟨3, false⟩ ⟨4, false⟩ }),
    (word 0 0x30 0x05 0xA2 9 2 3 0x0, .vdiv {} { t := .f32, rm := 2, o := .vec 9 ⟨2, false⟩ ⟨3, false⟩ }),
    (word 0 0x30 0x06 0xA0 9 2 3 0x0, .vmin {} { t := .f32, rm := 0, o := .vec 9 ⟨2, false⟩ ⟨3, false⟩ }),
    (word 0 0x30 0x07 0xA0 9 2 3 0x0, .vmax {} { t := .f32, rm := 0, o := .vec 9 ⟨2, false⟩ ⟨3, false⟩ }),
    (word 0 0x30 0x08 0xA0 9 2 0 0x0, .vabs {} { t := .f32, rm := 0, o := .vec 9 ⟨2, false⟩ }),
    (word 0 0x30 0x09 0xA0 9 2 0 0x0, .vneg {} { t := .f32, rm := 0, o := .vec 9 ⟨2, false⟩ }),
    (word 0 0x31 0x00 0xA7 9 2 0 0x0, .vsqrt {} { t := .f32, rm := 7, o := .vec 9 ⟨2, false⟩ }),
    (word 0 0x31 0x01 0xA7 9 2 0 0x0, .vrsq {} { t := .f32, rm := 7, o := .vec 9 ⟨2, false⟩ }),
    (word 0 0x31 0x02 0xA0 9 2 0 0x0, .vexp2 {} { t := .f32, rm := 0, o := .vec 9 ⟨2, false⟩ }),
    (word 0 0x31 0x03 0xA0 9 2 0 0x0, .vlog2 {} { t := .f32, rm := 0, o := .vec 9 ⟨2, false⟩ }),
    (word 0 0x31 0x04 0xF7 9 2 3 0x0, .vladd {} { t := .l6, rm := 7, o := .vec 9 ⟨2, false⟩ ⟨3, false⟩ }),
    (word 0 0x32 0x00 0xA0 9 2 3 0x0, .vcmpEq {} (.vec .f32 (.w 9) ⟨2, false⟩ ⟨3, false⟩)),
    (word 0 0x32 0x01 0xA0 9 2 3 0x0, .vcmpNe {} (.vec .f32 (.w 9) ⟨2, false⟩ ⟨3, false⟩)),
    (word 0 0x32 0x02 0xA0 9 2 3 0x0, .vcmpLt {} (.vec .f32 (.w 9) ⟨2, false⟩ ⟨3, false⟩)),
    (word 0 0x32 0x03 0xA0 9 2 3 0x0, .vcmpLe {} (.vec .f32 (.w 9) ⟨2, false⟩ ⟨3, false⟩)),
    (word 0 0x32 0x04 0xA0 9 2 3 0x0, .vcmpGt {} (.vec .f32 (.w 9) ⟨2, false⟩ ⟨3, false⟩)),
    (word 0 0x32 0x05 0xA0 9 2 3 0x0, .vcmpGe {} (.vec .f32 (.w 9) ⟨2, false⟩ ⟨3, false⟩)),
    (word 0 0x32 0x06 0xA0 9 2 3 0x0, .vcmpUn {} (.vec .f32 (.w 9) ⟨2, false⟩ ⟨3, false⟩))
  ].all (reads ·) = true := by decide

theorem test_decode_vector2 : [
    (word 1 0x32 0x10 0x60 9 2 3 0x4, .vsel {} (.vec .n32 9 ⟨2, false⟩ ⟨3, false⟩ ⟨.w 4, false⟩)),
    (word 0 0x32 0x11 0x60 9 2 0 0x0, .vmask {} (.vec .n32 (.w 9) ⟨2, false⟩)),
    (word 0 0x32 0x12 0x60 9 2 0 0x0, .vpopc {} { t := .n32, rm := 0, o := .vec 9 ⟨2, false⟩ }),
    (word 0 0x33 0x00 0x60 9 2 3 0x0, .vand {} { t := .n32, rm := 0, o := .vec 9 ⟨2, false⟩ ⟨3, false⟩ }),
    (word 0 0x33 0x01 0x60 9 2 3 0x0, .vor {} { t := .n32, rm := 0, o := .vec 9 ⟨2, false⟩ ⟨3, false⟩ }),
    (word 0 0x33 0x02 0x60 9 2 3 0x0, .vxor {} { t := .n32, rm := 0, o := .vec 9 ⟨2, false⟩ ⟨3, false⟩ }),
    (word 0 0x33 0x03 0x60 9 2 3 0x0, .vshl {} { t := .n32, rm := 0, o := .vec 9 ⟨2, false⟩ ⟨3, false⟩ }),
    (word 0 0x33 0x04 0x60 9 2 3 0x0, .vshr {} { t := .n32, rm := 0, o := .vec 9 ⟨2, false⟩ ⟨3, false⟩ }),
    (word 0 0x33 0x05 0x20 9 2 3 0x0, .vsra {} { t := .i32, rm := 0, o := .vec 9 ⟨2, false⟩ ⟨3, false⟩ }),
    (word 0 0x34 0x00 0x40 9 2 3 0x0, .vpack {} { t := .n8, d := 9, a := ⟨2, false⟩, pos := 3 }),
    (word 0 0x34 0x01 0x40 9 2 3 0x0, .vunpack {} { t := .n8, d := 9, a := ⟨2, false⟩, pos := 3 }),
    (word 0 0x34 0x4A 0x80 9 2 0 0x0, .vcvt {} (.vec .f16 .f32 0 9 ⟨2, false⟩ false)),
    (word 0 0x34 0x58 0xD0 9 2 0 0x0, .vcvtSat {} (.vec .e5m2 .f16 0 9 ⟨2, false⟩ false)),
    (word 0 0x34 0x6A 0xC0 9 2 0 0x0, .vcvtOvf {} (.vec .e4m3 .f32 0 9 ⟨2, false⟩ false)),
    (word 0 0x35 0x00 0xA7 9 2 0 0x0, .vredadd {} { t := .f32, rm := 7, d := .w 9, a := ⟨2, false⟩ }),
    (word 0 0x35 0x01 0xA0 9 2 0 0x0, .vredmax {} { t := .f32, rm := 0, d := .w 9, a := ⟨2, false⟩ }),
    (word 0 0x35 0x02 0xA0 9 2 0 0x0, .vredmin {} { t := .f32, rm := 0, d := .w 9, a := ⟨2, false⟩ }),
    (word 0 0x35 0x03 0x20 9 2 3 0x0, .vscan {} { t := .i32, rm := 0, d := 9, a := ⟨2, false⟩, b := ⟨.w 3, false⟩ }),
    (word 0 0x36 0x00 0x60 9 2 3 0x0, .vperm {} { t := .n32, d := 9, a := ⟨2, false⟩, b := ⟨3, false⟩ }),
    (word 0 0x36 0x01 0x60 9 2 0 0x0, .vbcast {} { t := .n32, d := 9, a := ⟨.w 2, false⟩ }),
    (word 1 0x36 0x02 0x60 9 2 3 0x4, .vshuf {} { t := .n32, d := 9, a := ⟨2, false⟩, b := ⟨3, false⟩, c := ⟨.w 4, false⟩ }),
    (word 0 0x36 0x03 0x70 9 2 0 0x0, .vmov {} { t := .n64, rm := 0, o := .vec 9 ⟨2, false⟩ })
  ].all (reads ·) = true := by decide

theorem test_decode_vector3 : [
    (word 0 0x36 0x04 0x60 9 2 3 0x0, .vlds {} { t := .n32, d := .w 9, a := ⟨2, false⟩, b := ⟨.w 3, false⟩ }),
    (word 0 0x36 0x05 0x60 9 2 3 0x0, .vins {} { t := .n32, d := 9, a := ⟨.w 2, false⟩, b := ⟨.w 3, false⟩ })
  ].all (reads ·) = true := by decide

theorem test_decode_matrix1 : [
    (word 0 0x38 0x00 0x7F 9 2 1 0x0, .mmaF {} { rm := 7, nud := 15, tile := 1, tok := .w 9, a := ⟨.w 2, false⟩, x := none }),
    (word 0 0x38 0x01 0x78 9 2 1 0x0, .mmaI {} { rm := 0, nud := 15, tile := 1, tok := .w 9, a := ⟨.w 2, false⟩, x := none }),
    (word 0 0x38 0x02 0x78 9 2 1 0x0, .mmaSat {} { rm := 0, nud := 15, tile := 1, tok := .w 9, a := ⟨.w 2, false⟩, x := none }),
    (word 0 0x38 0x03 0x7F 9 2 1 0x0, .mmaStep {} { rm := 7, nud := 15, tile := 1, tok := .w 9, a := ⟨.w 2, false⟩ }),
    (word 0 0x38 0x10 0x7F 9 2 1 0x0, .mmas24F {} { rm := 7, nud := 15, tile := 1, tok := .w 9, a := ⟨.w 2, false⟩, x := none }),
    (word 0 0x38 0x11 0x78 9 2 1 0x0, .mmas24I {} { rm := 0, nud := 15, tile := 1, tok := .w 9, a := ⟨.w 2, false⟩, x := none }),
    (word 0 0x38 0x12 0x78 9 2 1 0x0, .mmas24Sat {} { rm := 0, nud := 15, tile := 1, tok := .w 9, a := ⟨.w 2, false⟩, x := none }),
    (word 0 0x38 0x14 0x7F 9 2 1 0x0, .mmas48F {} { rm := 7, nud := 15, tile := 1, tok := .w 9, a := ⟨.w 2, false⟩, x := none }),
    (word 0 0x38 0x15 0x78 9 2 1 0x0, .mmas48I {} { rm := 0, nud := 15, tile := 1, tok := .w 9, a := ⟨.w 2, false⟩, x := none }),
    (word 0 0x38 0x16 0x78 9 2 1 0x0, .mmas48Sat {} { rm := 0, nud := 15, tile := 1, tok := .w 9, a := ⟨.w 2, false⟩, x := none }),
    (word 0 0x38 0x20 0x00 9 2 1 0x0, .mrotF {} { rm := 0, tile := 1, tok := .w 9, a := ⟨.w 2, false⟩ }),
    (word 0 0x38 0x21 0x00 9 2 1 0x0, .mrotI {} { rm := 0, tile := 1, tok := .w 9, a := ⟨.w 2, false⟩ }),
    (word 0 0x38 0x22 0x00 9 2 1 0x0, .mrotSat {} { rm := 0, tile := 1, tok := .w 9, a := ⟨.w 2, false⟩ }),
    (word 0 0x39 0x00 0x78 9 2 0 0x0, .mlda {} { nud := 15, tok := .w 9, a := ⟨.w 2, false⟩ }),
    (word 0 0x39 0x01 0x78 9 2 0 0x0, .mldb {} { nud := 15, tok := .w 9, a := ⟨.w 2, false⟩ }),
    (word 0 0x39 0x02 0x00 0 0 1 0x0, .mzero {} 1),
    (word 0 0x39 0x03 0x78 9 2 1 0x0, .mld {} { nud := 15, tile := 1, tok := .w 9, a := ⟨.w 2, false⟩ }),
    (word 0 0x39 0x04 0x78 9 2 1 0x0, .mldt {} { nud := 15, tile := 1, tok := .w 9, a := ⟨.w 2, false⟩ }),
    (word 0 0x39 0x06 0x00 0 2 0 0x0, .mthr {} ⟨.w 2, false⟩),
    (word 0 0x39 0x07 0x00 9 0 4 0x0, .mrd {} { d := .w 9, sel := 4 }),
    (word 0 0x39 0x08 0x00 9 2 0 0x0, .msave {} { tok := .w 9, a := ⟨.w 2, false⟩ }),
    (word 0 0x39 0x08 0x00 9 2 1 0x0, .msaveRst {} { tok := .w 9, a := ⟨.w 2, false⟩ })
  ].all (reads ·) = true := by decide

theorem test_decode_matrix2 : [
    (word 0 0x39 0x5A 0x78 9 2 1 0x0, .mst {} { t := .f32, rm := 0, nud := 15, tile := 1, tok := .w 9, a := ⟨.w 2, false⟩ }),
    (word 0 0x3A 0x00 0x00 9 2 0 0x0, .dssbind {} { tok := .w 9, a := ⟨.w 2, false⟩ }),
    (word 0 0x3A 0x01 0x78 9 2 0 0x0, .dssstep {} { nud := 15, tok := .w 9, a := ⟨.w 2, false⟩ }),
    (word 0 0x3A 0x02 0x00 9 2 0 0x0, .dsscutRead {} { d := .w 9, a := ⟨.w 2, false⟩ }),
    (word 0 0x3A 0x02 0x00 9 2 1 0x0, .dsscutImpose {} { nud := 0, tok := .w 9, a := ⟨.w 2, false⟩ }),
    (word 0 0x3A 0x02 0x00 0 2 2 0x0, .dsscutUnimpose {} ⟨.w 2, false⟩),
    (word 0 0x3A 0x02 0x78 9 2 3 0x0, .dsscutStoreImage {} { nud := 15, tok := .w 9, a := ⟨.w 2, false⟩ }),
    (word 0 0x3A 0x02 0x78 9 2 4 0x0, .dsscutLoadImage {} { nud := 15, tok := .w 9, a := ⟨.w 2, false⟩ })
  ].all (reads ·) = true := by decide

theorem test_decode_task1 : [
    (word 0 0x3C 0x00 0x02 0 2 3 0x0, .send {} { a := ⟨.w 2, false⟩, r := ⟨.w 3, false⟩, sc := .short 1 }),
    (word 2 0x3C 0x00 0x02 0 0 3 0x10005, .sendRect {} { core0 := 5, core1 := 1, r := ⟨.w 3, false⟩, sc := 1 }),
    (word 0 0x3C 0x01 0x01 0 0 3 0x0, .spawn {} { r := ⟨.w 3, false⟩, sc := .short 0 }),
    (word 0 0x3C 0x02 0x02 0 2 3 0x0, .spawnev {} { a := ⟨.w 2, false⟩, r := ⟨.w 3, false⟩, sc := .short 1 }),
    (word 0 0x3C 0x03 0x02 9 2 3 0x0, .evadd {} { d := .w 9, a := ⟨.w 2, false⟩, b := ⟨.w 3, false⟩, sc := .short 1 }),
    (word 0 0x3C 0x04 0x02 0 2 3 0x0, .evset {} { d := .w 0, a := ⟨.w 2, false⟩, b := ⟨.w 3, false⟩, sc := .short 1 }),
    (word 0 0x3C 0x05 0x03 0 2 3 0x0, .park {} { a := .w 2, n := 3, sc := .short 2 }),
    (word 0 0x3C 0x06 0x01 0 0 0 0x0, .tend {}),
    (word 0 0x3C 0x07 0x01 9 2 0 0x0, .launch {} { d := .w 9, a := ⟨.w 2, false⟩, b := ⟨.w 0, false⟩, sc := .short 0 }),
    (word 0 0x3C 0x08 0x01 0 0 3 0x0, .yield {} 3),
    (word 0 0x3C 0x10 0x7A 9 2 0 0x0, .sread {} { nud := 15, tok := .w 9, a := ⟨.w 2, false⟩, sc := .short 1 }),
    (word 0 0x3C 0x11 0x7A 9 2 0 0x0, .swrite {} { nud := 15, tok := .w 9, a := ⟨.w 2, false⟩, sc := .short 1 }),
    (word 0 0x3C 0x12 0x7A 9 2 0 0x0, .nettx {} { nud := 15, tok := .w 9, a := ⟨.w 2, false⟩, sc := .short 1 }),
    (word 0 0x3C 0x13 0x7A 9 2 0 0x0, .netrx {} { nud := 15, tok := .w 9, a := ⟨.w 2, false⟩, sc := .short 1 }),
    (word 0 0x3C 0x20 0x01 0 2 3 0x0, .domain {} { a := ⟨.w 2, false⟩, b := ⟨.w 3, false⟩ }),
    (word 0 0x3C 0x21 0x01 0 0 0 0x0, .domexit {}),
    (word 0 0x3C 0x22 0x02 0 2 3 0x0, .vsend {} { a := ⟨.w 2, false⟩, r := ⟨.w 3, false⟩, sc := .short 1 }),
    (word 0 0x3C 0x23 0x01 9 0 0 0x0, .vtnow {} (.w 9)),
    (word 0 0x3C 0x24 0x01 9 0 0 0x0, .gvtrd {} (.w 9)),
    (word 0 0x3C 0x25 0x01 0 0 0 0x0, .safe {}),
    (word 0 0x3C 0x26 0x04 0 2 3 0x0, .defer {} { a := ⟨.w 2, false⟩, r := ⟨.w 3, false⟩, sc := .short 3 })
  ].all (reads ·) = true := by decide

theorem test_decode_system1 : [
    (word 0 0x3D 0x00 0x08 0 0 5 0x0, .trap {} 5),
    (word 0 0x3D 0x01 0x00 0 0 0 0x0, .rett {}),
    (word 0 0x3D 0x02 0x08 9 0 2 0x0, .mfs {} { d := .w 9, reg := 2 }),
    (word 0 0x3D 0x03 0x08 0 2 2 0x0, .mts {} { reg := 2, a := .w 2 }),
    (word 0 0x3D 0x04 0x00 0 2 3 0x0, .tlbiPage {} { a := ⟨.w 2, false⟩, b := ⟨.w 3, false⟩ }),
    (word 0 0x3D 0x05 0x00 0 0 0 0x0, .idle {}),
    (word 0 0x3D 0x06 0x00 0 0 0 0x0, .halt {}),
    (word 0 0x3D 0x07 0x08 0 2 0 0x0, .censusStore {} { d := .w 0, a := .w 2 }),
    (word 0 0x3D 0x07 0x08 0 2 1 0x0, .censusCompare {} { d := .w 0, a := .w 2 }),
    (word 0 0x3D 0x07 0x08 0 2 2 0x0, .censusClear {} { d := .w 0, a := .w 2 })
  ].all (reads ·) = true := by decide

/-! ### The encodings that the spec works out -/

theorem test_worked_09 : [
    ((64, 0x2000001802012004), .add {} { t := .i32, d := .w 9, a := ⟨.w 2, false⟩, b := .word ⟨.w 3, false⟩ }),
    ((64, 0x380002000401C004), .add {} { t := .i64, d := .w 14, a := ⟨.w 4, false⟩, b := .imm (.i13 64) }),
    ((64, 0x5200000002018070), .ld {} { t := .i32, nud := 5, d := .w 12, a := .w 2, off := .short 0 }),
    ((96, 0x10108380100000001E015), .mov {} { t := .i64, d := .w 15, v := .imm (.i32 65800) })
  ].all (reads ·) = true := by decide

theorem test_worked_10 : [
    ((64, 0x380400000A002040), .cmpGt {} { t := .i64, p := 1, a := ⟨.w 10, false⟩, b := .imm (.i13 0) }),
    ((64, 0x7805064002012010), .ext {} { t := .n64, d := .w 9, a := ⟨.w 2, false⟩, b := .imm (.i13 200) })
  ].all (reads ·) = true := by decide

theorem test_worked_11 : [
    ((64, 0xF750000003018070), .ldAcq {} { t := .n64, nud := 15, d := .w 12, a := .w 3, off := .short 0, sc := .short 1 }),
    ((64, 0xF79000000301A074), .stRel {} { t := .n64, nud := 15, d := .w 13, a := .w 3, off := .short 0, sc := .short 1 }),
    ((64, 0xF7E00048020140A0), .amoAdd {} { t := .n64, nud := 15, ord := .ar, d := .w 10, a := ⟨.w 2, false⟩, b := ⟨.w 9, false⟩, sc := .short 3 }),
    ((64, 0xE00000000000A4), .fenceFull {} (.short 3)),
    ((64, 0x7000000030180B8), .waitln {} { t := .n64, d := .w 12, a := .w 3, off := .short 0 })
  ].all (reads ·) = true := by decide

theorem test_worked_13 : [
    ((64, 0xF76000400E01E070), .ldAcq {} { t := .n64, nud := 15, d := .w 15, a := .w 14, off := .short 8, sc := .short 3 }),
    ((64, 0x70000400E01E1B8), .waitln { p := 1 } { t := .n64, d := .w 15, a := .w 14, off := .short 8 }),
    ((64, 0xF7A0004013028074), .stRel {} { t := .n64, nud := 15, d := .w 20, a := .w 19, off := .short 8, sc := .short 3 })
  ].all (reads ·) = true := by decide

theorem test_worked_14 : [
    ((96, 0x2A0030008030040C1), .vfma {} { t := .f32, rm := 0, o := .vec 2 ⟨3, false⟩ ⟨1, false⟩ ⟨2, false⟩ }),
    ((64, 0xA0010000040060D8), .vbcast {} { t := .f32, d := 3, a := ⟨.w 4, false⟩ }),
    ((64, 0xF70400380600A0C4), .vladd {} { t := .l6, rm := 7, o := .vec 5 ⟨6, false⟩ ⟨7, false⟩ }),
    ((64, 0xA04B0008080080D0), .vcvt {} (.vec .f32 .f64 0 4 ⟨8, false⟩ true)),
    ((64, 0x20033FF8020060D4), .vscan {} { t := .i32, rm := 0, d := 3, a := ⟨2, false⟩, b := ⟨.zero, false⟩ }),
    ((64, 0xAF000018020120C0), .vadd {} { t := .f32, rm := 7, o := .scl (.w 9) ⟨.w 2, false⟩ ⟨.w 3, false⟩ })
  ].all (reads ·) = true := by decide

theorem test_worked_15 : [
    ((64, 0x7F000000140500E0), .mmaF {} { rm := 7, nud := 15, tile := 0, tok := .w 40, a := ⟨.w 20, false⟩, x := none }),
    ((64, 0x18010010180580E0), .mmaI {} { rm := 0, nud := 3, tile := 2, tok := .w 44, a := ⟨.w 24, false⟩, x := none }),
    ((128, 0x14028FFFFFFFF7F000000140500E2), .mmaF {} { rm := 7, nud := 15, tile := 0, tok := .w 40, a := ⟨.w 20, false⟩, x := some { klim := 20, kcount := 40, rowmask := 4294967295 } }),
    ((64, 0x20000000000E4), .mzero {} 0),
    ((64, 0x785A0000300520E4), .mst {} { t := .f32, rm := 0, nud := 15, tile := 0, tok := .w 41, a := ⟨.w 48, false⟩ })
  ].all (reads ·) = true := by decide

theorem test_worked_16 : [
    ((64, 0x40010000010040D0), .vunpack {} { t := .n8, d := 2, a := ⟨1, false⟩, pos := 0 }),
    ((64, 0x20030070020060D4), .vscan {} { t := .i32, rm := 0, d := 3, a := ⟨2, false⟩, b := ⟨.w 14, false⟩ }),
    ((64, 0x200400800301C0D8), .vlds {} { t := .i32, d := .w 14, a := ⟨3, false⟩, b := ⟨.w 16, false⟩ }),
    ((64, 0x40000160340E4), .mldt {} { nud := 0, tile := 0, tok := .w 26, a := ⟨.w 22, false⟩ }),
    ((64, 0x28520000180360E4), .mst {} { t := .i32, rm := 0, nud := 5, tile := 0, tok := .w 27, a := ⟨.w 24, false⟩ }),
    ((64, 0x120000060220A8), .barwait {} { d := .w 17, a := ⟨.w 6, false⟩, sc := .short 1 })
  ].all (reads ·) = true := by decide

theorem test_worked_17 : [
    ((64, 0x2000040100000F0), .send {} { a := ⟨.w 16, false⟩, r := ⟨.w 8, false⟩, sc := .short 1 }),
    ((64, 0x2020040090000F0), .spawnev {} { a := ⟨.w 9, false⟩, r := ⟨.w 8, false⟩, sc := .short 1 }),
    ((64, 0x20300600B0140F0), .evadd {} { d := .w 10, a := ⟨.w 11, false⟩, b := ⟨.w 12, false⟩, sc := .short 1 }),
    ((64, 0x3050060090000F0), .park {} { a := .w 9, n := 12, sc := .short 2 }),
    ((64, 0x1060000000000F0), .tend {})
  ].all (reads ·) = true := by decide

theorem test_worked_19 : [
    ((64, 0x1200050090000F0), .domain {} { a := ⟨.w 9, false⟩, b := ⟨.w 10, false⟩ }),
    ((64, 0x1210000000000F0), .domexit {}),
    ((64, 0x2220040100000F0), .vsend {} { a := ⟨.w 16, false⟩, r := ⟨.w 8, false⟩, sc := .short 1 }),
    ((64, 0x1230000000280F0), .vtnow {} (.w 20)),
    ((64, 0x12400000002C0F0), .gvtrd {} (.w 22)),
    ((64, 0x1250000000000F0), .safe {}),
    ((64, 0x4260040100000F0), .defer {} { a := ⟨.w 16, false⟩, r := ⟨.w 8, false⟩, sc := .short 3 })
  ].all (reads ·) = true := by decide

theorem test_worked_20 : [
    ((64, 0x12000680E0000F0), .domain {} { a := ⟨.w 14, false⟩, b := ⟨.w 13, false⟩ }),
    ((64, 0x1230000000240F0), .vtnow {} (.w 18)),
    ((64, 0x10000090000B8), .sleep {} (.w 9)),
    ((64, 0x4220040100000F0), .vsend {} { a := ⟨.w 16, false⟩, r := ⟨.w 8, false⟩, sc := .short 3 })
  ].all (reads ·) = true := by decide

theorem test_worked_21 : [
    ((64, 0x1403C0E8), .dssbind {} { tok := .w 30, a := ⟨.w 20, false⟩ }),
    ((64, 0x780100001A03E0E8), .dssstep {} { nud := 15, tok := .w 31, a := ⟨.w 26, false⟩ }),
    ((64, 0x78020008150180E8), .dsscutImpose {} { nud := 15, tok := .w 12, a := ⟨.w 21, false⟩ }),
    ((64, 0x7F030008140500E0), .mmaStep {} { rm := 7, nud := 15, tile := 1, tok := .w 40, a := ⟨.w 20, false⟩ })
  ].all (reads ·) = true := by decide

theorem test_worked_22 : [
    ((64, 0x7F030000140500E0), .mmaStep {} { rm := 7, nud := 15, tile := 0, tok := .w 40, a := ⟨.w 20, false⟩ }),
    ((64, 0x1100000B0220A8), .bararr {} { d := .w 17, a := ⟨.w 11, false⟩, sc := .short 1 }),
    ((64, 0x200000C0241E8), .dsscutRead { p := 1 } { d := .w 18, a := ⟨.w 12, false⟩ }),
    ((64, 0x780100000C0521E8), .dssstep { p := 1 } { nud := 15, tok := .w 41, a := ⟨.w 12, false⟩ }),
    ((64, 0x785A0000190540E4), .mst {} { t := .f32, rm := 0, nud := 15, tile := 0, tok := .w 42, a := ⟨.w 25, false⟩ })
  ].all (reads ·) = true := by decide

theorem test_worked_10b : [
    ((64, 0x800FFD000000148), .br { p := 1 } (.i13 8186)),
    ((64, 0x2000005000060), .swctx {} ⟨.w 5, false⟩)
  ].all (reads ·) = true := by decide

theorem test_worked_23 : [
    ((64, 0x8020010000120F4), .mfs {} { d := .w 9, reg := 2 })
  ].all (reads ·) = true := by decide

theorem test_worked_24 : [
    ((64, 0x80302C8090000F4), .suspend {} (.w 9))
  ].all (reads ·) = true := by decide

theorem test_worked_11b : [
    ((64, 0x301000000A0280B0), .acopy {} { nud := 3, tok := .w 20, a := ⟨.w 10, false⟩, sc := .short 1 }),
    ((64, 0x1100000402C0A8), .bararr {} { d := .w 22, a := ⟨.w 4, false⟩, sc := .short 1 })
  ].all (reads ·) = true := by decide

/-! ### States for tests and witnesses -/

/-- The first address of the core's own local store. -/
def ap : Word := 0x007FFC0000000000
/-- The supervisor of reset with a window of 128 words, some of them written. -/
def holding (l : List (Nat × Word)) : State :=
  { State.reset with regs := { State.reset.regs with wl := 128 }, core := { store := l.map fun p => (p.1, .full p.2) } }
/-- The supervisor with the local store's address in w2 and w4. -/
def sup : State := holding [(2, ap), (4, ap)]
/-- The task every user state below runs. -/
def job : Task := { base := 0, cls := 0, entry := 0, record := {}, launch := {}, slot := 0 }
/-- A user task on a partition of one core. -/
def usr : State := { sup with regs := { sup.regs with taskstat := 0, twin := 0x40000 }, sched := { task := some job }, sys := { w := 1, h := 1 } }
/-- A state with some words of its window written. -/
def withWords (s : State) (l : List (Nat × Word)) : State :=
  { s with core := { s.core with store := l.map fun p => (p.1, .full p.2) } }
/-- A state whose tables map the first 4 TiB onto one bank, for everyone and every kind of access, and some bytes of memory: ASID 0 has
its root at 0x20000, whose entry 0 is a leaf. -/
def mapped (s : State) (l : List (Nat × Byte)) : State :=
  { s with
    regs := { s.regs with sroot := 0x20001 }
    mem := { s.mem with bankTab := [(0, 0x8000000000000000)], bytes := [(0, 1), (2, 2), (0x20000, 0x1F)] ++ l } }
/-- A command of the supervisor with a descriptor of eight words. -/
def command (op : MuOp) (desc : List Word := List.replicate 8 0) : MuCmd :=
  { id := 0, op := op, tile := 0, rm := 0, nud := 15, desc := desc, site := 0, cbase := 0, asid := 0, sup := true, mode := 2, lnid := 0
    seed := 0, thr := 0 }
/-- The supervisor with commands waiting for the matrix unit. -/
def waiting (l : List MuCmd) : State := { sup with mu := { sup.mu with queue := l } }
/-- The supervisor with a command at work in it. -/
def working (c : MuCmd) : State := { sup with mu := { sup.mu with run := some c } }
/-- The core waiting since cycle 0, at a cycle. -/
def stopped (s : State) (on : WaitOn) (cyc : Nat) : State := { s with cyc := cyc, core := { s.core with wait := some ⟨on, 0, false⟩ } }
/-- A parked task. -/
def parkedOn (on : ParkedOn) (hit : Bool) : Parked :=
  { id := 0, desc := 0, tclk := 0, remain := 0, words := [], stat := 0, task := job, on := on, hit := hit }
/-- What the hypotheses of a statement `Queues` ask of an instruction can be met. -/
def CanQueue (i : Instr) (g : Guard) (tok : Name) (a : Run) (n : Nat) (own : State → Prop) (fits : State → List Word → Prop) : Prop :=
  ∃ (s u v w y : State) (ws : List Word) (old : Word), Enters s i g u ∧ plainHandler u ∧ own u
    ∧ u.ready (s.ctx i) [runOpr a n, .both tok] ∧ u.takeRun a.first n = (ws, v) ∧ v.take tok = (old, w) ∧ fits w ws
    ∧ w.bound (w.phys tok.num) = false ∧ w.mu.queue.length < 2 ∧ w.release 1 = .ok y
/-- A request of the I/O engine: 16 bytes at the local store, its record at `rec`. -/
def request (kind : Nat) (accepted : Bool) (rec : Word) : IoReq :=
  { id := 0, kind := kind, desc := [ap, 16, 0, rec], nud := 15, scope := 0, asid := 0, sup := true, lnid := 0, accepted := accepted, seq := 1 }
/-- The supervisor with such a request. -/
def asking (r : IoReq) : State := { sup with eng := { sup.eng with io := [r] } }
/-- A record whose handler descriptor stands at 0x200000. -/
def message : Delivery := { r := { w0 := 0x200010 }, ctx := {} }
/-- The supervisor with that descriptor in memory, of class 1. -/
def served (l : SMap (List PoolEntry)) : State := { mapped sup [(0x200000, 1)] with sched := { sup.sched with pools := l } }
/-- The supervisor with an event ring at 0x200000 of its virtual device, some entries waiting for room, and some bytes of memory. -/
def ringed (l : List Posting) (b : List (Nat × Byte)) : State :=
  { mapped sup b with sys := { sup.sys with vds := [(0, { evring := 0x200800 })], posting := l } }
/-- A virtual device whose page 0x20 has code 1 in its pull map, which begins at 0x300000. -/
def pulled : State :=
  { mapped sup [(0x300008, 1)] with sys := { sup.sys with vds := [(0, { pullctl := 0x8000000000300000 })] } }
/-- Two virtual devices, of which 0 runs and 1 has work saved. -/
def twoDevices : State :=
  { sup with sys := { sup.sys with vds := [(1, { ctl := 0x8010000000000400 })], saved := [{ sup.vdCtx with vd := 1, sched := { inbox := [{ d := message }] } }] } }
/-- A user task with time left, about to run the NOP at 0x200000. -/
def running : State :=
  { mapped usr [(0x200000, 0x48), (0x200006, 5)] with pc := 0x200000, sys := { usr.sys with bootStep := 5 }, regs := { (mapped usr []).regs with tbudget := 5 } }
/-- A result is a value, and what it is. -/
def isValue {ε α : Type} : Except ε α → Bool
  | .ok _ => true
  | .error _ => false
def valueOf {ε α : Type} : (r : Except ε α) → isValue r = true → α
  | .ok a, _ => a
theorem value_ok {ε α : Type} : ∀ {r : Except ε α} (h : isValue r = true), r = .ok (valueOf r h)
  | .ok _, _ => rfl
theorem pair_ok {ε α β : Type} : ∀ {r : Except ε (α × β)} (h : isValue r = true), r = .ok ((valueOf r h).1, (valueOf r h).2)
  | .ok (_, _), _ => rfl
/-- Every B block is read. -/
theorem blocks_ok : ∀ {r : Except MuStop (BBlocks × State)} (h : isValue r = true), (valueOf r h).1.bad = none →
    r = .ok (⟨(valueOf r h).1.bs, none⟩, (valueOf r h).2)
  | .ok (⟨_, _⟩, _), _, h => by cases h; rfl
/-- Roots that are read and pass their checks, and roots that fail one. -/
theorem nested_ok {ε δ α β : Type} {r : Except ε (Except δ (α × β))} (h : isValue r = true) (k : isValue (valueOf r h) = true) :
    r = .ok (.ok ((valueOf (valueOf r h) k).1, (valueOf (valueOf r h) k).2)) := by
  rcases r with _ | (_ | ⟨_, _⟩)
  · cases h
  · cases k
  · rfl
theorem nested_bad {ε α : Type} {r : Except ε (Except Nat α)} (n : Nat)
    (h : (match r with | .ok (.error m) => decide (m = n) | _ => false) = true) : r = .ok (.error n) := by
  rcases r with _ | (_ | _) <;> simp_all
/-- A step goes on, and where to. -/
def goesOn : Out → Bool
  | .next _ => true
  | _ => false
def nextOf : (o : Out) → goesOn o = true → State
  | .next s, _ => s
theorem next_ok : ∀ {o : Out} (h : goesOn o = true), o = .next (nextOf o h)
  | .next _, _ => rfl
/-- A descriptor that can be used. -/
theorem head_ok {r : HeadRead} (h : (match r with | .ok _ => true | _ => false) = true) : r = .ok r.head := by cases r <;> simp_all [HeadRead.head]
/-- A transfer record: one byte of the local store, 512 bytes on. -/
def oneByte : List Byte := [0, ap, ap + 0x200, 1, 0, 0, 0, 1].flatMap wordBytes
/-- A result that is a value, and one that is a miss. -/
theorem is_ok {α : Type} [DecidableEq α] {r : Except Miss α} {a : α} (h : (match r with | .ok b => decide (b = a) | .error _ => false) = true) :
    r = .ok a := by cases r <;> simp_all
theorem is_miss {α : Type} {r : Except Miss α} {m : Miss} (h : (match r with | .error b => decide (b = m) | .ok _ => false) = true) :
    r = .error m := by cases r <;> simp_all
theorem not_absent {r : HeadRead} (h : (match r with | .absent _ => false | _ => true) = true) : ∀ p, r ≠ .absent p := by cases r <;> simp_all
/-- The supervisor with the address of a mapped page in w2. -/
def atPage : State := withWords (mapped sup []) [(2, 0x200000)]
/-- What a read of a mapped page finds, in a state. -/
def found (s : State) (va : Word) : Loc × State :=
  match s.translate s.who .read va with
  | .ok r => r
  | .error _ => ({ what := .host, key := 0 }, s)
/-- The state in which a PREF of that page asks for it. -/
def asked : State := ((atPage.awake.past (atPage.ctx (.pref {} ⟨15, .w 2, .short 8⟩))).take (.w 2)).2

/-! ### Ill-formed terms, one for each check of WellFormed -/

/-- The operands of a two-source instruction on w9, w2 and w3. -/
def two (t : Ty) : Alu := { t := t, d := .w 9, a := ⟨.w 2, false⟩, b := .word ⟨.w 3, false⟩ }

theorem test_wf_holds : (Instr.add {} (two .i32)).wf = true ∧ (Instr.nop .l96).wf = true ∧ Instr.dispatch.wf = true := by decide

/-- R199: p0 is never negated. -/
theorem test_wf_guard : (Instr.add { p := 0, neg := true } (two .i32)).guardOk = false
    ∧ (Instr.add { p := 0, neg := true } (two .i32)).wf = false := by decide

/-- R138, R200, R92: a reserved name, a queue in a place that takes none, and one queue named twice. -/
theorem test_wf_names : (Instr.add {} { two .i32 with d := .bad 0 }).nameProblem = some .name
    ∧ (Instr.jmp {} ⟨.lq0, false⟩).nameProblem = some .quse
    ∧ (Instr.add {} { two .i32 with a := ⟨.lq0, false⟩, b := .word ⟨.lq0, false⟩ }).nameProblem = some .quse
    ∧ (Instr.add {} { two .i32 with d := .bad 0 }).wf = false := by decide

/-- R204, R219, R222, R245, R292: types and modes that a form does not take. -/
theorem test_wf_forms : (Instr.bswap {} { t := .n8, d := .w 9, a := ⟨.w 2, false⟩ }).formOk = false
    ∧ (Instr.add {} (two .f32)).formOk = false ∧ (Instr.lea {} (.idx .l6 (.w 9) ⟨.w 2, false⟩ ⟨.w 3, false⟩)).formOk = false
    ∧ (Instr.mmaI {} { rm := 1, nud := 15, tile := 0, tok := .w 40, a := ⟨.w 20, false⟩, x := none }).formOk = false
    ∧ (Instr.add {} (two .f32)).wf = false := by decide

/-- The values that a shape can hold and its encoding cannot (R202, R300). -/
theorem test_wf_canon : (Instr.mst {} { t := .n64, rm := 0, nud := 15, tile := 0, tok := .w 40, a := ⟨.w 20, false⟩ }).wf = false
    ∧ (Instr.launchStart 16).wf = false ∧ (Instr.mts {} { a := .w 9, reg := 0x059 }).wf = false := by decide

/-! ### One step each, against the spec's own examples -/

/-- The word d after one instruction of the supervisor on a window. -/
def after (i : Instr) (l : List (Nat × Word)) (d : Nat) : Option Cell :=
  match exec i (holding l) with
  | .next s => some (s.cell d)
  | _ => none

/-- R219: DIV.I8 of -128 by -1, REM.I32 of -7 by 2, DIV.N16 of 5 by 0. -/
theorem test_div : after (.div {} (two .i8)) [(2, 0x80), (3, 0xFF)] 9 = some (.full 0xFFFFFFFFFFFFFF80)
    ∧ after (.div {} (two .n16)) [(2, 5), (3, 0)] 9 = some (.full 0xFFFF) := by decide
theorem test_rem : after (.rem {} (two .i32)) [(2, 0xFFFFFFF9), (3, 2)] 9 = some (.full 0xFFFFFFFFFFFFFFFF) := by decide

/-- R218: a sum wraps at its width and is extended by its type. -/
theorem test_add_wraps : after (.add {} (two .i32)) [(2, 0x7FFFFFFF), (3, 1)] 9 = some (.full 0xFFFFFFFF80000000)
    ∧ after (.add {} (two .n32)) [(2, 0xFFFFFFFF), (3, 1)] 9 = some (.full 0) := by decide

/-- R218: the amount of a shift counts modulo its width. -/
theorem test_sra : after (.sra {} (two .i32)) [(2, 0x80000000), (3, 4)] 9 = some (.full 0xFFFFFFFFF8000000) := by decide

/-- R220: EXT of 8 bits at 4; INS of 4 bits at 8. -/
theorem test_ext : after (.ext {} { t := .i64, d := .w 9, a := ⟨.w 2, false⟩, b := .imm (.i13 452) }) [(2, 0xABCD)] 9
    = some (.full 0xFFFFFFFFFFFFFFBC) := by decide
theorem test_ins : after (.ins {} { t := .n64, d := .w 9, a := ⟨.w 2, false⟩, b := .imm (.i13 200) }) [(2, 0x5), (9, 0xFFFFFF)] 9
    = some (.full 0xFFF5FF) := by decide

/-- R226: BR goes to its own address plus 4 times its immediate. -/
theorem test_br : (match exec (.br {} (.i13 (-6))) { sup with pc := 0x1000 } with
    | .next s => some s.pc
    | _ => none) = some 0xFE8 := by decide

/-- R199: a guard that does not hold skips the instruction. -/
theorem test_guard_skips : after (.add { p := 1 } (two .i32)) [(0, 1), (2, 1), (3, 1), (9, 7)] 9 = some (.full 7) := by decide

/-! ### Number formats, against the tables of the chapter on numbers -/

/-- R179: +1.0, -1.0, +2.0, the largest and the smallest magnitude of L6. -/
theorem test_l6_values : [0x10, 0x30, 0x14, 0x1F, 0x01].map Ty.l6.decode
    = [.fin false 32768 (-15), .fin true 32768 (-15), .fin false 32768 (-14), .fin false 55109 (-12), .fin false 38968 (-19)] := by decide

/-- R180: codes 18 and 18 give exactly 2, codes 20 and 23 give 55109 * 2^-13. -/
theorem test_l6_products : l6Product 18 18 = .fin false 32768 (-14) ∧ l6Product 20 23 = .fin false 55109 (-13)
    ∧ l6Product 0x20 3 = .nan false ∧ l6Product 0 31 = .fin false 0 0 := by decide

/-- R182: the payload of an L6 block. -/
theorem test_l6_block : ((blkBytes .l6 127 [0x10, 0x30, 0x14]).drop 2).take 4 = [0x10, 0x4C, 0x01, 0x00] := by decide

/-- R186: the FP8 example: the products 4.5 and -0.5 add 4 to an accumulator of 1. -/
theorem test_block_fp8 : blockAdd .f nearest 0 0x3F800000 126 128
    (((blkOf ([0x10, 0x7E, 0x3C, 0xC0] ++ List.replicate 60 0)).getD ⟨.l6, 0, []⟩).raw.zipWith
      (elemTimes .e4m3 .e5m2) ((blkOf ([0x11, 0x80, 0x42, 0x34] ++ List.replicate 60 0)).getD ⟨.l6, 0, []⟩).raw) = (0x40A00000, false) := by decide

/-- R186: the BF16 example: 2^40, -2^40 and 3 * 2^-30 leave an accumulator of -0 as it is. -/
theorem test_block_truncates : blockAdd .f nearest 0 0x80000000 127 127 [.fin false 1 40, .fin true 1 40, .fin false 3 (-30)]
    = (0x80000000, false) := by decide

/-- R194: 2.5 to I32 under RNE gives 2 with NX; what lies beyond 448 saturates E4M3 and gives NaN in the other form. -/
theorem test_convert : Ty.i32.convert .plain 0 0 (.fin false 5 (-1)) = (2, fNX)
    ∧ Ty.e4m3.convert .plain 0 0 (.fin false 1 20) = (0x7E, fSAT ||| fOF ||| fNX)
    ∧ Ty.e4m3.convert .ovf 0 0 (.fin false 1 20) = (0x7F, fOF ||| fNX) := by decide

/-- R193: Philox4x32-10 of counter 0 under key 0, as its authors publish it. -/
theorem test_philox : philox 10 (0, 0, 0, 0) 0 0 = (0x6627E8D5, 0xE169C58D, 0xBC57AC4C, 0x9B00DBD8) := by decide

/-! ### The worked walk of the chapter on address spaces -/

/-- Memory with the tables of that walk: the root of ASID 0 at 0. -/
def walked : State :=
  { mapped sup [] with mem := { (mapped sup []).mem with
    bankTab := [(0, 0x8000000000000000), (1, 0x8000000000000001), (192, 0x8000000000000100)]
    bytes := [(0, 0x40000001), (0x40000020, 0x40020001), (0x40028D10, 0x40030001), (0x4003B3C0, 0x40012308D7)].foldl
      (fun m p => mputs 0 m p.1 (toBytes p.2 8)) [] } }

/-- R14 to R18: the leaf of 0x123456789ABC, found at level 2. -/
theorem test_walk : (match walked.leafOf { asid := 0, sup := false } .read 0x123456789ABC with
    | .ok f => some (f.leaf.pte, f.leaf.level, f.leaf.size)
    | _ => none) = some (0x40012308D7, 2, 65536) := by decide +kernel
/-- R36: the byte lies in bank 0 of die 1, 0x1239ABC in. -/
theorem test_walk_place : (match walked.translate { asid := 0, sup := false } .read 0x123456789ABC with
    | .ok (l, _) => some (l.what, l.key, l.rc, l.mt)
    | _ => none) = some (.memory, 2 ^ 38 + 0x1239ABC, 2, 0) := by decide +kernel
/-- R19: a user may load from that page and may not fetch from it (PROT with detail EXEC). -/
theorem test_walk_permits : permFault { asid := 0, sup := false } .read 0x40012308D7 0x4001239ABC = none
    ∧ permFault { asid := 0, sup := false } .exec 0x40012308D7 0x4001239ABC = some 3 := by decide

/-! ### Every clause of a statement is met

Each theorem says that the hypotheses of one clause of the statement it is named after do not exclude each other. -/

theorem wit_IntegerResults_1 : ¬ (∀ p ∈ aluValues, ∀ (g : Guard) (x : Alu) (s u v w : State) (a b : Word), x.t.isInt = true → Enters s (p.1 g x) g u → u.ready (s.ctx (p.1 g x)) (srcOpr x.a :: opndOpr x.b ++ [.dst x.d]) → u.take x.a.name = (a, v) → v.takeOpnd x.b = (b, w) → w.accepts x.d → False) :=
  fun h => h _ (.head _) {} (⟨.i64, .w 1, ⟨.w 5, false⟩, .word ⟨.w 3, false⟩⟩) sup _ _ _ _ _ rfl ⟨_, rfl, rfl⟩ rfl rfl rfl rfl

theorem wit_UnaryResults_1 : ¬ (∀ p ∈ unaryRules, ∀ (g : Guard) (x : Un) (s u v : State) (a : Word), x.t.isInt = true → Enters s (p.1 g x) g u → u.ready (s.ctx (p.1 g x)) [srcOpr x.a, .dst x.d] → u.take x.a.name = (a, v) → v.accepts x.d → False) :=
  fun h => h _ (.head _) {} (⟨.i64, .w 1, ⟨.w 5, false⟩⟩) sup _ _ _ rfl ⟨_, rfl, rfl⟩ rfl rfl rfl

theorem wit_MoveAndAddressResults_1 : ¬ (∀ (g : Guard) (x : SelArgs) (s u v w y : State) (a b p0 : Word), Enters s (.sel g x) g u → u.ready (s.ctx (.sel g x)) ([srcOpr x.a, srcOpr x.b] ++ (if x.p = 0 then [] else [.preds]) ++ [.dst x.d]) → u.take x.a.name = (a, v) → v.take x.b.name = (b, w) → (if x.p = 0 then (p0, y) = (1, w) else (p0, y) = w.takePhys (w.phys 0)) → y.accepts x.d → False) :=
  fun h => h {} (⟨.i64, .w 1, ⟨.w 5, false⟩, ⟨.w 3, false⟩, 2⟩) sup _ _ _ _ _ _ _ ⟨_, rfl, rfl⟩ rfl rfl rfl (show (_ : Word × State) = _ from rfl) rfl

theorem wit_MoveAndAddressResults_2 : ¬ (∀ (g : Guard) (x : MovArgs) (s u v : State) (a : Word), Enters s (.mov g x) g u → u.ready (s.ctx (.mov g x)) (opndOpr x.v ++ [.dst x.d]) → u.takeOpnd x.v = (a, v) → v.accepts x.d → False) :=
  fun h => h {} (⟨.i64, .w 1, .word ⟨.w 5, false⟩⟩) sup _ _ _ ⟨_, rfl, rfl⟩ rfl rfl rfl

theorem wit_MoveAndAddressResults_3 : ¬ (∀ (g : Guard) (t : Ty) (d : Name) (x y : Src) (s u v w : State) (a b : Word), Enters s (.lea g (.idx t d x y)) g u → u.ready (s.ctx (.lea g (.idx t d x y))) [srcOpr x, srcOpr y, .dst d] → u.take x.name = (a, v) → v.take y.name = (b, w) → w.accepts d → False) :=
  fun h => h {} (.i64) (.w 5) (⟨.w 5, false⟩) (⟨.w 5, false⟩) sup _ _ _ _ _ ⟨_, rfl, rfl⟩ rfl rfl rfl rfl

theorem wit_MoveAndAddressResults_4 : ¬ (∀ (g : Guard) (d : Name) (o : Imm) (s u : State), Enters s (.lea g (.rel d o)) g u → u.ready (s.ctx (.lea g (.rel d o))) [.dst d] → u.accepts d → False) :=
  fun h => h {} (.w 5) (.i13 4) sup _ ⟨_, rfl, rfl⟩ rfl rfl

theorem wit_ComparesAndPredicates_1 : ¬ (∀ p ∈ intCompares, ∀ (g : Guard) (x : CmpArgs) (s u v w : State) (a b : Word), x.t.isInt = true → Enters s (p.1 g x) g u → u.ready (s.ctx (p.1 g x)) (srcOpr x.a :: opndOpr x.b) → u.take x.a.name = (a, v) → v.takeOpnd x.b = (b, w) → w.acceptsPred x.p → False) :=
  fun h => h _ (.head _) {} (⟨.i64, 1, ⟨.w 5, false⟩, .word ⟨.w 3, false⟩⟩) sup _ _ _ _ _ rfl ⟨_, rfl, rfl⟩ rfl rfl rfl (.inr rfl)

theorem wit_ComparesAndPredicates_2 : ¬ (∀ p ∈ floatCompares, ∀ (g : Guard) (x : CmpArgs) (s u v w y : State) (a b : Word), x.t.isFloat = true → Enters s (p.1 g x) g u → u.ready (s.ctx (p.1 g x)) (srcOpr x.a :: opndOpr x.b) → u.take x.a.name = (a, v) → v.takeOpnd x.b = (b, w) → w.raise (if x.t.decode a.toNat = .nan true ∨ x.t.decode b.toNat = .nan true then fNV else 0) = .ok y → y.acceptsPred x.p → False) :=
  fun h => h _ (.head _) {} (⟨.f64, 1, ⟨.w 5, false⟩, .word ⟨.w 3, false⟩⟩) sup _ _ _ _ _ _ rfl ⟨_, rfl, rfl⟩ rfl rfl rfl rfl (.inr rfl)

theorem wit_ComparesAndPredicates_3 : ¬ (∀ p ∈ [((Instr.pand : Guard → PBin → Instr), (· && ·)), (.por, (· || ·)), (.pxor, xor)], ∀ (g : Guard) (x : PBin) (s u v : State) (w0 : Word), Enters s (p.1 g x) g u → u.ready (s.ctx (p.1 g x)) (if x.a = 0 ∧ x.b = 0 then [] else [.preds]) → (if x.a = 0 ∧ x.b = 0 then v = u else u.takePhys (u.phys 0) = (w0, v)) → v.acceptsPred x.d → False) :=
  fun h => h _ (.head _) {} (⟨1, 2, 3⟩) sup _ _ _ ⟨_, rfl, rfl⟩ rfl (show _ = (_ : Word × State) from rfl) (.inr rfl)

theorem wit_ComparesAndPredicates_4 : ¬ (∀ p ∈ [((Instr.pnot : Guard → PUn → Instr), not), (.pmov, id)], ∀ (g : Guard) (x : PUn) (s u v : State) (w0 : Word), Enters s (p.1 g x) g u → u.ready (s.ctx (p.1 g x)) (if x.a = 0 then [] else [.preds]) → (if x.a = 0 then v = u else u.takePhys (u.phys 0) = (w0, v)) → v.acceptsPred x.d → False) :=
  fun h => h _ (.head _) {} (⟨1, 2⟩) sup _ _ _ ⟨_, rfl, rfl⟩ rfl (show _ = (_ : Word × State) from rfl) (.inr rfl)

theorem wit_ControlTransfers_1 : ¬ (∀ (g : Guard) (o : Imm) (s u : State), Enters s (.br g o) g u → False) :=
  fun h => h {} (.i13 4) sup _ ⟨_, rfl, rfl⟩

theorem wit_ControlTransfers_2 : ¬ (∀ i ∈ [(Instr.jmp : Guard → Src → Instr), .ret], ∀ (g : Guard) (x : Src) (s u v : State) (a : Word), Enters s (i g x) g u → u.ready (s.ctx (i g x)) [srcOpr x] → u.take x.name = (a, v) → False) :=
  fun h => h _ (.head _) {} (⟨.w 5, false⟩) sup _ _ _ ⟨_, rfl, rfl⟩ rfl rfl

theorem wit_ControlTransfers_3 : ¬ (∀ (g : Guard) (d : Name) (o : Imm) (s u : State), Enters s (.call g ⟨d, .rel o⟩) g u → u.ready (s.ctx (.call g ⟨d, .rel o⟩)) [.dst d] → u.accepts d → False) :=
  fun h => h {} (.w 5) (.i13 4) sup _ ⟨_, rfl, rfl⟩ rfl rfl

theorem wit_ControlTransfers_4 : ¬ (∀ (g : Guard) (d : Name) (x : Src) (s u v : State) (a : Word), Enters s (.call g ⟨d, .reg x⟩) g u → u.ready (s.ctx (.call g ⟨d, .reg x⟩)) [srcOpr x, .dst d] → u.take x.name = (a, v) → v.accepts d → False) :=
  fun h => h {} (.w 5) (⟨.w 5, false⟩) sup _ _ _ ⟨_, rfl, rfl⟩ rfl rfl rfl

theorem wit_ControlTransfers_5 : ¬ (∀ (g : Guard) (x : LoopArgs) (s u v : State) (a : Word), Enters s (.loop g x) g u → u.ready (s.ctx (.loop g x)) [.both x.d] → u.take x.d = (a, v) → v.accepts x.d → False) :=
  fun h => h {} (⟨.w 5, .i13 4⟩) sup _ _ _ ⟨_, rfl, rfl⟩ rfl rfl rfl

theorem wit_BreakAndSyscall_1 : ¬ (∀ (g : Guard) (k : BitVec 13) (s u : State), Enters s (.brk g k) g u → False) :=
  fun h => h {} (3) sup _ ⟨_, rfl, rfl⟩

theorem wit_BreakAndSyscall_2 : ¬ (∀ (g : Guard) (k : BitVec 13) (s u : State), Enters s (.trap g k) g u → (u.opt? = true → 2 ≤ u.mode) → False) :=
  fun h => h {} (3) sup _ ⟨_, rfl, rfl⟩ (fun hh => absurd hh (by decide))

theorem wit_WindowInstructions_1 : ¬ (∀ (g : Guard) (x : Src) (s u v : State) (d : Word), Enters s (.setwin g x) g u → u.ready (s.ctx (.setwin g x)) [srcOpr x] → u.queuesLive = false → u.take x.name = (d, v) → fitsWindow v d → False) :=
  fun h => h {} (⟨.w 5, false⟩) ((holding [(5, mkDesc 0 32 0 false false false)])) _ _ _ ⟨_, rfl, rfl⟩ rfl rfl rfl (by unfold fitsWindow; decide)

theorem wit_WindowInstructions_2 : ¬ (∀ (g : Guard) (n : Name) (s u : State), Enters s (.rdwin g n) g u → u.ready (s.ctx (.rdwin g n)) [.dst n] → u.accepts n → False) :=
  fun h => h {} (.w 5) sup _ ⟨_, rfl, rfl⟩ rfl rfl

theorem wit_WindowInstructions_3 : ¬ (∀ (g : Guard) (x : Src) (s u v y z : State) (w n : Word), Enters s (.swctx g x) g u → u.ready (s.ctx (.swctx g x)) [srcOpr x] → u.queuesLive = false → bit u.regs.frmode 63 = false → u.take x.name = (w, v) → absFits v (bits w 12 0) → absFits v (bits w 28 16) → v.readPhys (bits w 28 16) = .ok (n, y) → fitsWindow y n → y.bound (bits w 12 0) = false → z = y.setCell (bits w 12 0) (.full (mkDesc y.regs.wb y.regs.wl (rpcOf (s.pc + 8) y.codeBase) false false false)) → False) :=
  fun h => h {} (⟨.w 5, false⟩) ((holding [(3, mkDesc 0 32 0 false false false), (5, 0x30000)])) _ _ _ _ _ _ ⟨_, rfl, rfl⟩ rfl rfl rfl rfl (by unfold absFits; decide) (by unfold absFits; decide) rfl (by unfold fitsWindow; decide) rfl rfl

theorem wit_WindowInstructions_4 : ¬ (∀ (g : Guard) (x : WIdx) (s u v w : State) (a b : Word), Enters s (.wld g x) g u → u.ready (s.ctx (.wld g x)) [.src x.a false, .dst x.d] → u.take x.a = (a, v) → absFits v (a.toNat + x.off.toInt) → v.readPhys ((a.toNat : Int) + x.off.toInt).toNat = .ok (b, w) → w.accepts x.d → False) :=
  fun h => h {} (⟨.w 1, .w 5, 3⟩) sup _ _ _ _ _ ⟨_, rfl, rfl⟩ rfl rfl (by unfold absFits; decide) rfl rfl

theorem wit_WindowInstructions_5 : ¬ (∀ (g : Guard) (x : WIdx) (s u v w : State) (a b : Word), Enters s (.wst g x) g u → u.ready (s.ctx (.wst g x)) [.src x.a false, .src x.d false] → u.take x.a = (a, v) → v.take x.d = (b, w) → absFits w (a.toNat + x.off.toInt) → w.bound ((a.toNat : Int) + x.off.toInt).toNat = false → False) :=
  fun h => h {} (⟨.w 1, .w 5, 3⟩) sup _ _ _ _ _ ⟨_, rfl, rfl⟩ rfl rfl rfl (by unfold absFits; decide) rfl

theorem wit_WindowInstructions_6 : ¬ (∀ (g : Guard) (x : Src) (s u v : State) (d : Word), Enters s (.setutw g x) g u → u.ready (s.ctx (.setutw g x)) [srcOpr x] → u.take x.name = (d, v) → fitsWindow v d → False) :=
  fun h => h {} (⟨.w 5, false⟩) ((holding [(5, mkDesc 0 32 0 false false false)])) _ _ _ ⟨_, rfl, rfl⟩ rfl rfl (by unfold fitsWindow; decide)

theorem wit_WindowInstructions_7 : ¬ (∀ (g : Guard) (x : WRange) (s u v w : State) (a : Word) (n : Nat), Enters s (.wscrub g x) g u → u.ready (s.ctx (.wscrub g x)) (srcOpr x.a :: countOprs x.c) → u.take x.a.name = (a, v) → v.takeCount x.c = (n, w) → a.toNat + n ≤ 8192 → (∀ k, k < n → absFits w ((a.toNat + k : Nat) : Int)) → (∀ k, k < n → w.bound (a.toNat + k) = false) → False) :=
  fun h => h {} (⟨⟨.w 5, false⟩, .imm 3⟩) sup _ _ _ _ _ ⟨_, rfl, rfl⟩ rfl rfl rfl (by decide +kernel) (by unfold absFits; decide) (by decide +kernel)

theorem wit_WindowInstructions_8 : ¬ (∀ (g : Guard) (x : WRange) (s u v w : State) (a : Word) (n : Nat), Enters s (.wdrain g x) g u → u.ready (s.ctx (.wdrain g x)) (srcOpr x.a :: countOprs x.c) → u.take x.a.name = (a, v) → v.takeCount x.c = (n, w) → a.toNat + n ≤ 8192 → (∀ k, k < n → absFits w ((a.toNat + k : Nat) : Int)) → (∀ k, k < n → w.bound (a.toNat + k) = false) → False) :=
  fun h => h {} (⟨⟨.w 5, false⟩, .imm 3⟩) sup _ _ _ _ _ ⟨_, rfl, rfl⟩ rfl rfl rfl (by decide +kernel) (by unfold absFits; decide) (by decide +kernel)

theorem wit_WindowInstructions_9 : ¬ (∀ (g : Guard) (x : WPushArgs) (s u v : State) (b : Word), Enters s (.wpush g x) g u → u.ready (s.ctx (.wpush g x)) [.src x.a false] → bit u.regs.frmode 63 = false → u.take x.a = (b, v) → 32 ∣ b.toNat → b.toNat + classSize x.cls.val ≤ 8192 → (v.mode < 2 → bits v.regs.wflo 12 0 ≤ b.toNat ∧ b.toNat + classSize x.cls.val - 1 ≤ bits v.regs.wfhi 12 0) → v.poolFull x.cls.val = false → False) :=
  fun h => h {} (⟨.w 5, 1⟩) sup _ _ _ ⟨_, rfl, rfl⟩ rfl rfl rfl (by decide +kernel) (by decide +kernel) (by decide +kernel) rfl

theorem wit_SystemRegisters_1 : ¬ (∀ p ∈ userReads, ∀ (g : Guard) (x : MfsArgs) (s u : State), x.reg.toNat = p.1 → Enters s (.mfs g x) g u → u.ready (s.ctx (.mfs g x)) [.dst x.d] → u.accepts x.d → False) :=
  fun h => h _ (.head _) {} (⟨.w 1, 0⟩) sup _ rfl ⟨_, rfl, rfl⟩ rfl rfl

theorem wit_SystemRegisters_2 : ¬ (∀ p ∈ supervisorReads, ∀ (g : Guard) (x : MfsArgs) (s u : State), x.reg.toNat = p.1 → Enters s (.mfs g x) g u → u.ready (s.ctx (.mfs g x)) [.dst x.d] → u.mode = 2 → u.accepts x.d → False) :=
  fun h => h _ (.head _) {} (⟨.w 1, 5⟩) sup _ rfl ⟨_, rfl, rfl⟩ rfl rfl rfl

theorem wit_SystemRegisters_3 : ¬ (∀ p ∈ supervisorReads, ∀ (g : Guard) (x : MfsArgs) (s u : State), x.reg.toNat = p.1 → Enters s (.mfs g x) g u → u.ready (s.ctx (.mfs g x)) [.dst x.d] → u.mode ≠ 2 → False) :=
  fun h => h _ (.head _) {} (⟨.w 1, 5⟩) (usr) _ rfl ⟨_, rfl, rfl⟩ rfl (by decide +kernel)

theorem wit_SystemRegisters_4 : ¬ (∀ k < 8, ∀ (g : Guard) (x : MfsArgs) (s u : State), Enters s (.mfs g x) g u → u.ready (s.ctx (.mfs g x)) [.dst x.d] → u.accepts x.d → x.reg.toNat = 0x40 + k → False) :=
  fun h => h (7) (by decide +kernel) {} (⟨.w 1, 0x47⟩) sup _ ⟨_, rfl, rfl⟩ rfl rfl rfl

theorem wit_SystemRegisters_5 : ¬ (∀ k < 8, ∀ (g : Guard) (x : MfsArgs) (s u : State), Enters s (.mfs g x) g u → u.ready (s.ctx (.mfs g x)) [.dst x.d] → u.accepts x.d → x.reg.toNat = 0x48 + k → False) :=
  fun h => h (7) (by decide +kernel) {} (⟨.w 1, 0x4F⟩) sup _ ⟨_, rfl, rfl⟩ rfl rfl rfl

theorem wit_SystemRegisters_6 : ¬ (∀ p ∈ supervisorWrites, ∀ (g : Guard) (x : MtsArgs) (s u v : State) (a : Word), x.reg.toNat = p.1 → Enters s (.mts g x) g u → u.mode = 2 → u.ready (s.ctx (.mts g x)) [.src x.a false] → u.take x.a = (a, v) → False) :=
  fun h => h _ (.head _) {} (⟨2, .w 5⟩) sup _ _ _ rfl ⟨_, rfl, rfl⟩ rfl rfl rfl

theorem wit_SystemRegisters_7 : ¬ (∀ p ∈ userRegWrites, ∀ (g : Guard) (x : MtsArgs) (s u v : State) (a : Word), x.reg.toNat = p.1 → Enters s (.mts g x) g u → u.mode ≠ 2 → (u.opt? = true → 2 ≤ u.mode ∨ p.1 = 0x1D ∨ p.1 = 0x1E) → u.ready (s.ctx (.mts g x)) [.src x.a false] → u.take x.a = (a, v) → False) :=
  fun h => h _ (.head _) {} (⟨13, .w 5⟩) (usr) _ _ _ rfl ⟨_, rfl, rfl⟩ (by decide +kernel) (by decide +kernel) rfl rfl

theorem wit_SystemRegisters_8 : ¬ (∀ (g : Guard) (x : MtsArgs) (s u : State), regKnown x.reg.toNat = true → Enters s (.mts g x) g u → u.mode ≠ 2 → u.opt? = false → (∀ q ∈ userRegWrites, q.1 ≠ x.reg.toNat) → u.ready (s.ctx (.mts g x)) [.src x.a false] → False) :=
  fun h => h {} (⟨2, .w 5⟩) (usr) _ rfl ⟨_, rfl, rfl⟩ (by decide +kernel) rfl (by decide +kernel) rfl

theorem wit_SystemRegisters_9 : ¬ (∀ (g : Guard) (x : MtsArgs) (s u v : State) (a : Word), Enters s (.mts g x) g u → u.mode = 2 → u.ready (s.ctx (.mts g x)) [.src x.a false] → u.take x.a = (a, v) → x.reg.toNat = 0x38 → False) :=
  fun h => h {} (⟨0x38, .w 5⟩) sup _ _ _ ⟨_, rfl, rfl⟩ rfl rfl rfl rfl

theorem wit_SystemRegisters_10 : ¬ (∀ (g : Guard) (x : MtsArgs) (s u v : State) (a : Word), Enters s (.mts g x) g u → u.mode = 2 → u.ready (s.ctx (.mts g x)) [.src x.a false] → u.take x.a = (a, v) → x.reg.toNat = 0x39 → False) :=
  fun h => h {} (⟨0x39, .w 5⟩) sup _ _ _ ⟨_, rfl, rfl⟩ rfl rfl rfl rfl

theorem wit_SystemRegisters_11 : ¬ (∀ (g : Guard) (x : MtsArgs) (s u v : State) (a : Word), Enters s (.mts g x) g u → u.mode = 2 → u.ready (s.ctx (.mts g x)) [.src x.a false] → u.take x.a = (a, v) → x.reg.toNat = 0x1B → False) :=
  fun h => h {} (⟨0x1B, .w 5⟩) sup _ _ _ ⟨_, rfl, rfl⟩ rfl rfl rfl rfl

theorem wit_SystemRegisters_12 : ¬ (∀ (g : Guard) (x : MtsArgs) (s u v : State) (a : Word), Enters s (.mts g x) g u → u.mode = 2 → u.ready (s.ctx (.mts g x)) [.src x.a false] → u.take x.a = (a, v) → x.reg.toNat = 0x1D → False) :=
  fun h => h {} (⟨0x1D, .w 5⟩) sup _ _ _ ⟨_, rfl, rfl⟩ rfl rfl rfl rfl

theorem wit_SystemRegisters_13 : ¬ (∀ (g : Guard) (x : MtsArgs) (s u v : State) (a : Word), Enters s (.mts g x) g u → u.mode = 2 → u.ready (s.ctx (.mts g x)) [.src x.a false] → u.take x.a = (a, v) → x.reg.toNat = 0x27 → False) :=
  fun h => h {} (⟨0x27, .w 5⟩) sup _ _ _ ⟨_, rfl, rfl⟩ rfl rfl rfl rfl

theorem wit_SystemRegisters_14 : ¬ (∀ (g : Guard) (x : MtsArgs) (s u v : State) (a : Word), Enters s (.mts g x) g u → u.mode = 2 → u.ready (s.ctx (.mts g x)) [.src x.a false] → u.take x.a = (a, v) → x.reg.toNat = 0x29 → False) :=
  fun h => h {} (⟨0x29, .w 5⟩) sup _ _ _ ⟨_, rfl, rfl⟩ rfl rfl rfl rfl

theorem wit_SystemRegisters_15 : ¬ (∀ (g : Guard) (x : MtsArgs) (s u v : State) (a : Word), Enters s (.mts g x) g u → u.mode = 2 → u.ready (s.ctx (.mts g x)) [.src x.a false] → u.take x.a = (a, v) → ∀ k < 8, x.reg.toNat = 0x40 + k → False) :=
  fun h => h {} (⟨0x47, .w 5⟩) sup _ _ _ ⟨_, rfl, rfl⟩ rfl rfl rfl (7) (by decide +kernel) rfl

theorem wit_SystemRegisters_16 : ¬ (∀ (g : Guard) (x : MtsArgs) (s u v : State) (a : Word), Enters s (.mts g x) g u → u.mode = 2 → u.ready (s.ctx (.mts g x)) [.src x.a false] → u.take x.a = (a, v) → ∀ k < 8, x.reg.toNat = 0x48 + k → False) :=
  fun h => h {} (⟨0x4F, .w 5⟩) sup _ _ _ ⟨_, rfl, rfl⟩ rfl rfl rfl (7) (by decide +kernel) rfl

theorem wit_SystemRegisters_17 : ¬ (∀ (g : Guard) (x : MtsArgs) (s u v : State) (a : Word), Enters s (.mts g x) g u → u.mode = 2 → u.ready (s.ctx (.mts g x)) [.src x.a false] → u.take x.a = (a, v) → ∀ k < 4, x.reg.toNat = 0x60 + k → False) :=
  fun h => h {} (⟨0x63, .w 5⟩) sup _ _ _ ⟨_, rfl, rfl⟩ rfl rfl rfl (3) (by decide +kernel) rfl

theorem wit_SystemRegisters_18 : ¬ (∀ (g : Guard) (x : MtsArgs) (s u v : State) (a : Word), Enters s (.mts g x) g u → u.mode = 2 → u.ready (s.ctx (.mts g x)) [.src x.a false] → u.take x.a = (a, v) → x.reg.toNat = 0 → 1 ≤ v.regs.wl → v.regs.wl ≤ 2032 → bits a 12 0 + v.regs.wl ≤ 8192 → False) :=
  fun h => h {} (⟨0, .w 5⟩) ((holding [(5, 8064)])) _ _ _ ⟨_, rfl, rfl⟩ rfl rfl rfl rfl (by decide +kernel) (by decide +kernel) (by decide +kernel)

theorem wit_SystemRegisters_19 : ¬ (∀ (g : Guard) (x : MtsArgs) (s u v : State) (a : Word), Enters s (.mts g x) g u → u.mode = 2 → u.ready (s.ctx (.mts g x)) [.src x.a false] → u.take x.a = (a, v) → x.reg.toNat = 0 → 8192 < bits a 12 0 + v.regs.wl → False) :=
  fun h => h {} (⟨0, .w 5⟩) ((holding [(5, 8065)])) _ _ _ ⟨_, rfl, rfl⟩ rfl rfl rfl rfl (by decide +kernel)

theorem wit_SystemRegisters_20 : ¬ (∀ (g : Guard) (x : MtsArgs) (s u v : State) (a : Word), Enters s (.mts g x) g u → u.mode = 2 → u.ready (s.ctx (.mts g x)) [.src x.a false] → u.take x.a = (a, v) → x.reg.toNat = 1 → 1 ≤ bits a 10 0 → bits a 10 0 ≤ 2032 → v.regs.wb + bits a 10 0 ≤ 8192 → False) :=
  fun h => h {} (⟨1, .w 5⟩) ((holding [(5, 2032)])) _ _ _ ⟨_, rfl, rfl⟩ rfl rfl rfl rfl (by decide +kernel) (by decide +kernel) (by decide +kernel)

theorem wit_SystemRegisters_21 : ¬ (∀ (g : Guard) (x : MtsArgs) (s u v : State) (a : Word), Enters s (.mts g x) g u → u.mode = 2 → u.ready (s.ctx (.mts g x)) [.src x.a false] → u.take x.a = (a, v) → x.reg.toNat = 1 → bits a 10 0 = 0 ∨ 2032 < bits a 10 0 ∨ 8192 < v.regs.wb + bits a 10 0 → False) :=
  fun h => h {} (⟨1, .w 5⟩) ((holding [(5, 2033)])) _ _ _ ⟨_, rfl, rfl⟩ rfl rfl rfl rfl (.inr (.inl (by decide)))

theorem wit_SystemRegisters_22 : ¬ (∀ (g : Guard) (x : MtsArgs) (s u v : State) (a : Word), Enters s (.mts g x) g u → u.mode = 2 → u.ready (s.ctx (.mts g x)) [.src x.a false] → u.take x.a = (a, v) → x.reg.toNat ∈ readOnly → False) :=
  fun h => h {} (⟨0x11, .w 5⟩) sup _ _ _ ⟨_, rfl, rfl⟩ rfl rfl rfl (by decide)

theorem wit_TranslationInvalidation_1 : ¬ (∀ p ∈ [((Instr.tlbiPage : Guard → TwoSrc → Instr), 0), (.tlbiAsid, 1), (.tlbiPartition, 2)], ∀ (g : Guard) (x : TwoSrc) (s : State), s.mode ≠ 2 → False) :=
  fun h => h _ (.head _) {} (⟨⟨.w 5, false⟩, ⟨.w 3, false⟩⟩) (usr) (by decide +kernel)

theorem wit_TranslationInvalidation_2 : ¬ (∀ p ∈ [((Instr.tlbiPage : Guard → TwoSrc → Instr), 0), (.tlbiAsid, 1), (.tlbiPartition, 2)], ∀ (g : Guard) (x : TwoSrc) (s : State), s.mode = 2 → ∀ (u v w : State) (va ctl : Word), Enters s (p.1 g x) g u → u.ready (s.ctx (p.1 g x)) [srcOpr x.a, srcOpr x.b] → u.take x.a.name = (va, v) → v.take x.b.name = (ctl, w) → bits ctl 63 32 = 0 → bits ctl 15 2 = 0 → bits ctl 1 0 = p.2 → False) :=
  fun h => h _ (.head _) {} (⟨⟨.w 5, false⟩, ⟨.w 3, false⟩⟩) sup rfl _ _ _ _ _ ⟨_, rfl, rfl⟩ rfl rfl rfl rfl rfl rfl

theorem wit_TranslationInvalidation_3 : ¬ (∀ p ∈ [((Instr.tlbiPage : Guard → TwoSrc → Instr), 0), (.tlbiAsid, 1), (.tlbiPartition, 2)], ∀ (g : Guard) (x : TwoSrc) (s : State), s.mode = 2 → ∀ (u v w : State) (va ctl : Word), Enters s (p.1 g x) g u → u.ready (s.ctx (p.1 g x)) [srcOpr x.a, srcOpr x.b] → u.take x.a.name = (va, v) → v.take x.b.name = (ctl, w) → bits ctl 63 32 ≠ 0 ∨ bits ctl 15 2 ≠ 0 ∨ bits ctl 1 0 = 3 → False) :=
  fun h => h _ (.head _) {} (⟨⟨.w 5, false⟩, ⟨.w 3, false⟩⟩) ((holding [(3, 3)])) rfl _ _ _ _ _ ⟨_, rfl, rfl⟩ rfl rfl rfl (by decide +kernel)

theorem wit_IdleHaltAndSuspend_1 : ¬ (∀ (g : Guard) (s u : State), s.mode = 2 → Enters s (.idle g) g u → False) :=
  fun h => h {} sup _ rfl ⟨_, rfl, rfl⟩

theorem wit_IdleHaltAndSuspend_2 : ¬ (∀ (g : Guard) (s u : State), s.mode = 2 → Enters s (.halt g) g u → False) :=
  fun h => h {} sup _ rfl ⟨_, rfl, rfl⟩

theorem wit_IdleHaltAndSuspend_3 : ¬ (∀ i ∈ [Instr.idle, Instr.halt], ∀ (g : Guard) (s : State), s.mode ≠ 2 → False) :=
  fun h => h _ (.head _) {} (usr) (by decide +kernel)

theorem wit_IdleHaltAndSuspend_4 : ¬ (∀ (g : Guard) (a : Name) (s u v w : State) (x : Word) (t : Task) (inRing : Bool) (place : Nat), Enters s (.suspend g a) g u → u.mode = 2 → u.ready (s.ctx (.suspend g a)) [.src a false] → u.take a = (x, v) → v.sched.task = some t → bits v.regs.tcause 57 56 = 0 → bit v.regs.tsave 24 = true → bit v.regs.tsave 25 = false → bits x 14 11 = 0 → bit x 15 = false → bits x 10 0 ≤ descLimit v.regs.tsave → bits x 10 0 ≤ classSize t.cls → v.poolFull t.cls = false → (∀ k, k < descLimit v.regs.tsave → v.bound (descBase v.regs.tsave + k) = false) → (∀ k, k < t.size → v.bound (t.base + k) = false) → v.parkRoom (bits x 10 0) = some inRing → v.release 0 = .ok w → w.parkPlace (bits x 10 0) = some (inRing, place) → False) :=
  fun h => h {} (.w 5) ({ usr with regs := { usr.regs with taskstat := 0x2000, tsave := mkDesc 0 32 0 true false false } }) _ _ _ _ (job) _ _ ⟨_, rfl, rfl⟩ rfl rfl rfl rfl rfl rfl rfl rfl rfl (by decide +kernel) (by decide +kernel) rfl (by decide +kernel) (by decide +kernel) rfl rfl rfl

theorem wit_IdleHaltAndSuspend_5 : ¬ (∀ (g : Guard) (a : Name) (s u : State), Enters s (.suspend g a) g u → u.mode ≠ 2 → u.opt? = false → u.ready (s.ctx (.suspend g a)) [.src a false] → False) :=
  fun h => h {} (.w 5) (usr) _ ⟨_, rfl, rfl⟩ (by decide +kernel) rfl rfl

theorem wit_AreasPlacesAndCensus_1 : ¬ (∀ (g : Guard) (a : Name) (s u v : State) (x : Word), Enters s (.lsfa g a) g u → u.mode = 2 → u.ready (s.ctx (.lsfa g a)) [.src a false] → u.take a = (x, v) → 128 < bits x 7 0 + bits x 23 16 → False) :=
  fun h => h {} (.w 5) ((holding [(5, 129)])) _ _ _ ⟨_, rfl, rfl⟩ rfl rfl rfl (by decide +kernel)

theorem wit_AreasPlacesAndCensus_2 : ¬ (∀ (g : Guard) (a : Name) (s u v : State) (x : Word), Enters s (.lsfa g a) g u → u.mode = 2 → u.ready (s.ctx (.lsfa g a)) [.src a false] → u.take a = (x, v) → areaOk x v.regs.pka = true → (∀ p ∈ v.sched.pins, 4096 * bits x 7 0 ≤ p.off ∧ p.off + p.len ≤ 4096 * (bits x 7 0 + bits x 23 16)) → False) :=
  fun h => h {} (.w 5) sup _ _ _ ⟨_, rfl, rfl⟩ rfl rfl rfl rfl (by decide +kernel)

theorem wit_AreasPlacesAndCensus_3 : ¬ (∀ (g : Guard) (a : Name) (s u v : State) (x : Word), Enters s (.plsync g a) g u → u.mode = 2 → u.ready (s.ctx (.plsync g a)) [.src a false] → u.take a = (x, v) → bit x 0 = false → False) :=
  fun h => h {} (.w 5) sup _ _ _ ⟨_, rfl, rfl⟩ rfl rfl rfl rfl

theorem wit_AreasPlacesAndCensus_4 : ¬ (∀ (g : Guard) (a : Name) (s u v : State) (x : Word), Enters s (.plsync g a) g u → u.mode = 2 → u.ready (s.ctx (.plsync g a)) [.src a false] → u.take a = (x, v) → bit x 0 = true → v.placeQuiet = true → False) :=
  fun h => h {} (.w 5) ((holding [(5, 1)])) _ _ _ ⟨_, rfl, rfl⟩ rfl rfl rfl rfl rfl

theorem wit_AreasPlacesAndCensus_8 : ¬ (∀ (g : Guard) (x : CensusArgs) (s u v : State) (va : Word), Enters s (.censusClear g x) g u → (u.opt? = true → 2 ≤ u.mode) → u.ready (s.ctx (.censusClear g x)) [.src x.a false, .dst x.d] → u.take x.a = (va, v) → 64 ∣ va.toNat → v.accepts x.d → False) :=
  fun h => h {} (⟨.w 1, .w 2⟩) sup _ _ _ ⟨_, rfl, rfl⟩ (fun hh => absurd hh (by decide)) rfl rfl (by decide +kernel) rfl

theorem wit_AreasPlacesAndCensus_9 : ¬ (∀ i ∈ [(Instr.censusStore : Guard → CensusArgs → Instr), .censusCompare, .censusClear], ∀ (g : Guard) (x : CensusArgs) (s u v : State) (va : Word), Enters s (i g x) g u → (u.opt? = true → 2 ≤ u.mode) → u.ready (s.ctx (i g x)) [.src x.a false, .dst x.d] → u.take x.a = (va, v) → ¬ 64 ∣ va.toNat → False) :=
  fun h => h _ (.head _) {} (⟨.w 1, .w 2⟩) ((holding [(2, 1)])) _ _ _ ⟨_, rfl, rfl⟩ (fun hh => absurd hh (by decide)) rfl rfl (by decide +kernel)

theorem wit_SendsSpawnsAndEvents_1 : ¬ (∀ (g : Guard) (x : SendArgs) (s u v w : State) (n sc : Word) (ws : List Word), taskModes s → Enters s (.send g x) g u → plainHandler u → u.checkScope (s.ctx (.send g x)) x.sc = .ok () → u.ready (s.ctx (.send g x)) ([srcOpr x.a, runOpr x.r 8] ++ scopeOpr x.sc) → u.takeSend x = (n, ws, sc, v) → sendable v n ws → v.sendsFull = false → v.release (v.scopeWidth sc) = .ok w → False) :=
  fun h => h {} (⟨⟨.w 5, false⟩, ⟨.w 8, false⟩, .short 1⟩) usr _ _ _ _ _ _ (by unfold taskModes; decide) ⟨_, rfl, rfl⟩ (fun hh => absurd hh (by decide)) rfl rfl rfl (by unfold sendable; decide) rfl rfl

theorem wit_SendsSpawnsAndEvents_2 : ¬ (∀ (g : Guard) (x : SendRect) (s u v w : State) (ws : List Word) (sc : Word), taskModes s → Enters s (.sendRect g x) g u → plainHandler u → u.ready (s.ctx (.sendRect g x)) [runOpr x.r 8] → u.takeRun x.r.first 8 = (ws, v) → sc = wd (fld (x.sc.val + 1) 32) → coreX x.core0.toNat ≤ coreX x.core1.toNat → coreY x.core0.toNat ≤ coreY x.core1.toNat → sendable v (wd x.core0.toNat) ws → sendable v (wd x.core1.toNat) ws → v.sendsFull = false → v.release (v.scopeWidth sc) = .ok w → False) :=
  fun h => h {} (⟨0, 0, ⟨.w 8, false⟩, 1⟩) usr _ _ _ _ _ (by unfold taskModes; decide) ⟨_, rfl, rfl⟩ (fun hh => absurd hh (by decide)) rfl rfl rfl (by decide +kernel) (by decide +kernel) (by unfold sendable; decide) (by unfold sendable; decide) rfl rfl

theorem wit_SendsSpawnsAndEvents_3 : ¬ (∀ (g : Guard) (x : SpawnArgs) (s u v w y z : State) (ws : List Word) (sc : Word), taskModes s → Enters s (.spawn g x) g u → plainHandler u → bit u.regs.frmode 63 = false → u.checkScope (s.ctx (.spawn g x)) x.sc = .ok () → u.ready (s.ctx (.spawn g x)) (runOpr x.r 8 :: scopeOpr x.sc) → u.takeRun x.r.first 8 = (ws, v) → v.takeScope x.sc = (sc, w) → wordZeroOk (ws.getD 0 0) = true → w.release (w.scopeWidth sc) = .ok y → y.pushDeque { r := asDelivered ws, ctx := w.launchCtx, scope := sc } = some z → False) :=
  fun h => h {} (⟨⟨.w 8, false⟩, .short 1⟩) usr _ _ _ _ _ _ _ (by unfold taskModes; decide) ⟨_, rfl, rfl⟩ (fun hh => absurd hh (by decide)) rfl rfl rfl rfl rfl rfl rfl rfl

theorem wit_SendsSpawnsAndEvents_4 : ¬ (∀ (g : Guard) (x : SendArgs) (s u v w : State) (e sc : Word) (ws : List Word) (ovf : Bool), taskModes s → Enters s (.spawnev g x) g u → plainHandler u → bit u.regs.frmode 63 = false → u.checkScope (s.ctx (.spawnev g x)) x.sc = .ok () → u.ready (s.ctx (.spawnev g x)) ([srcOpr x.a, runOpr x.r 8] ++ scopeOpr x.sc) → u.takeSend x = (e, ws, sc, v) → bits e 31 16 = 0 → wordZeroOk (ws.getD 0 0) = true → v.sendsFull = false → v.absentAt (v.eventEntry (bits e 15 0)) = none → v.waiterNode (bits e 15 0) = some ovf → v.release (v.scopeWidth sc) = .ok w → False) :=
  fun h => h {} (⟨⟨.w 5, false⟩, ⟨.w 8, false⟩, .short 1⟩) usr _ _ _ _ _ _ _ (by unfold taskModes; decide) ⟨_, rfl, rfl⟩ (fun hh => absurd hh (by decide)) rfl rfl rfl rfl rfl rfl rfl (by decide +kernel) rfl rfl

theorem wit_SendsSpawnsAndEvents_5 : ¬ (∀ p ∈ [((Instr.evadd : Guard → EvArgs → Instr), fun (old : Nat) (y : Word) => (max 0 (min ((old : Int) + sextI y.toNat 32) 4294967295)).toNat), (.evset, fun _ y => y.toNat % 2 ^ 32)], ∀ (g : Guard) (x : EvArgs) (s u v w y z r : State) (e b sc : Word), taskModes s → Enters s (p.1 g x) g u → plainHandler u → u.checkScope (s.ctx (p.1 g x)) x.sc = .ok () → u.ready (s.ctx (p.1 g x)) ([srcOpr x.a, srcOpr x.b] ++ scopeOpr x.sc ++ [.dst x.d]) → u.take x.a.name = (e, v) → v.take x.b.name = (b, w) → w.takeScope x.sc = (sc, y) → bits e 31 16 = 0 → y.absentAt (y.eventEntry (bits e 15 0)) = none → y.release (y.scopeWidth sc) = .ok z → z.bindDst x.d (some (wd (y.eventCount (bits e 15 0)))) 0 = .ok r → False) :=
  fun h => h _ (.head _) {} (⟨.w 1, ⟨.w 5, false⟩, ⟨.w 3, false⟩, .short 1⟩) usr _ _ _ _ _ _ _ _ _ (by unfold taskModes; decide) ⟨_, rfl, rfl⟩ (fun hh => absurd hh (by decide)) rfl rfl rfl rfl rfl rfl (by decide +kernel) rfl rfl

theorem wit_TasksLeaveTheCore_1 : ¬ (∀ (g : Guard) (x : ParkArgs) (s u v w y : State) (e sc : Word) (t : Task) (inRing ovf : Bool) (place : Nat), taskModes s → Enters s (.park g x) g u → u.queuesLive = false → plainHandler u → bit u.regs.frmode 63 = false → u.checkScope (s.ctx (.park g x)) x.sc = .ok () → u.ready (s.ctx (.park g x)) (.src x.a false :: scopeOpr x.sc) → u.take x.a = (e, v) → v.takeScope x.sc = (sc, w) → w.sched.task = some t → x.n.toNat < 4096 → x.n.toNat ≤ w.regs.wl → x.n.toNat ≤ classSize t.cls → bits e 31 16 = 0 → w.poolFull t.cls = false → drainedWindows w t → w.parkRoom x.n.toNat = some inRing → eventPresent w (bits e 15 0) → w.waiterNode (bits e 15 0) = some ovf → w.release (w.scopeWidth sc) = .ok y → y.parkPlace x.n.toNat = some (inRing, place) → False) :=
  fun h => h {} (⟨.w 5, 2, .short 1⟩) usr _ _ _ _ _ _ _ _ _ _ (by unfold taskModes; decide) ⟨_, rfl, rfl⟩ rfl (fun hh => absurd hh (by decide)) rfl rfl rfl rfl rfl rfl (by decide +kernel) (by decide +kernel) (by decide +kernel) rfl rfl (by unfold drainedWindows; decide) rfl (by unfold eventPresent; decide +kernel) rfl rfl rfl

theorem wit_TasksLeaveTheCore_2 : ¬ (∀ (g : Guard) (n : BitVec 13) (s u y : State) (t : Task) (inRing : Bool) (place : Nat), taskModes s → Enters s (.yield g n) g u → u.queuesLive = false → plainHandler u → bit u.regs.frmode 63 = false → u.sched.task = some t → n.toNat < 4096 → n.toNat ≤ u.regs.wl → n.toNat ≤ classSize t.cls → u.poolFull t.cls = false → drainedWindows u t → u.parkRoom n.toNat = some inRing → u.release 0 = .ok y → y.parkPlace n.toNat = some (inRing, place) → False) :=
  fun h => h {} (3) usr _ _ _ _ _ (by unfold taskModes; decide) ⟨_, rfl, rfl⟩ rfl (fun hh => absurd hh (by decide)) rfl rfl (by decide +kernel) (by decide +kernel) (by decide +kernel) rfl (by unfold drainedWindows; decide) rfl rfl rfl

theorem wit_TasksLeaveTheCore_3 : ¬ (∀ (g : Guard) (s u y : State) (t : Task), s.mode = 0 → Enters s (.tend g) g u → u.mode = 0 → u.queuesLive = false → u.sched.task = some t → drainedWindows u t → (u.forerunner = true ∨ u.poolFull t.cls = false) → u.release 0 = .ok y → (y.opt? = false ∨ t.heldGvt = false) → False) :=
  fun h => h {} usr _ _ _ rfl ⟨_, rfl, rfl⟩ rfl rfl rfl (by unfold drainedWindows; decide) (by decide +kernel) rfl (by decide +kernel)

theorem wit_TasksLeaveTheCore_4 : ¬ (∀ (s : State) (t : Task), s.opt? = false → ∀ n ∈ (s.endTask t).sched.slots, False) :=
  fun h => h ({ sup with sched := { sup.sched with slots := [5], pins := [⟨0, 64, 5⟩] } }) (job) rfl (5) (by decide +kernel)

theorem wit_TasksLeaveTheCore_5 : ¬ (∀ (s : State) (t : Task), s.opt? = false → ∀ p ∈ (s.endTask t).sched.pins, False) :=
  fun h => h ({ sup with sched := { sup.sched with slots := [5], pins := [⟨0, 64, 5⟩] } }) (job) rfl (⟨0, 64, 5⟩) (by decide +kernel)

theorem wit_TasksLeaveTheCore_6 : ¬ (∀ (s : State) (t : Task), s.opt? = false → False) :=
  fun h => h sup (job) rfl

theorem wit_LaunchesAndIoRequests_1 : ¬ (∀ (g : Guard) (x : EvArgs) (s u v w y z r t : State) (q va sc : Word) (pa : Nat), taskModes s → Enters s (.launch g x) g u → plainHandler u → u.checkScope (s.ctx (.launch g x)) x.sc = .ok () → u.ready (s.ctx (.launch g x)) ([srcOpr x.a, srcOpr x.b] ++ scopeOpr x.sc ++ [.dst x.d]) → u.take x.a.name = (q, v) → v.take x.b.name = (va, w) → w.takeScope x.sc = (sc, y) → q.toNat < 16 → 64 ∣ va.toNat → y.recordPa va = .ok (pa, z) → z.sendsFull = false → z.absentAt (areaBase (z.lq q.toNat).base + 8 * (bits (z.lq q.toNat).tail 31 0 % (z.lq q.toNat).size)) = none → ahead32 (bits (z.lq q.toNat).tail 31 0) (z.lq q.toNat).head < (z.lq q.toNat).size → z.release (z.scopeWidth sc) = .ok r → (let lq := z.lq q.toNat; let tail := bits lq.tail 31 0; let b := (r.writePhysMem (areaBase lq.base + 8 * (tail % lq.size)) (wordBytes (wd pa))).setLq q.toNat { lq with tail := setBits lq.tail 31 0 ((tail + 1) % 2 ^ 32) }; let a : Appended := { q := q.toNat, index := tail, lnid := r.sched.nextLnid, user := if b.mode = 0 then some b.regs.asid else none, queued := b.cyc }; ({ b with sched := { b.sched with nextLnid := r.sched.nextLnid + 1, appended := b.sched.appended ++ [a] } }).bindDst x.d (some (wd r.sched.nextLnid)) 0) = .ok t → False) :=
  fun h => h {} (⟨.w 1, ⟨.w 5, false⟩, ⟨.w 4, false⟩, .short 1⟩) ((mapped (withWords usr [(4, 0x200000)]) [])) _ _ _ _ _ _ _ _ _ _ _ (by unfold taskModes; decide) ⟨_, rfl, rfl⟩ (fun hh => absurd hh (by decide)) rfl rfl rfl rfl rfl (by decide +kernel) (by decide +kernel) (pair_ok (by decide +kernel)) (by decide +kernel) (by decide +kernel) (by decide +kernel) (value_ok (by decide +kernel)) (value_ok (by decide +kernel))

theorem wit_LaunchesAndIoRequests_2 : ¬ (∀ p ∈ [((Instr.sread : Guard → IoArgs → Instr), 0), (.swrite, 1), (.nettx, 2), (.netrx, 3)], ∀ (g : Guard) (x : IoArgs) (s u v w y : State) (ws : List Word) (sc : Word), taskModes s → Enters s (p.1 g x) g u → plainHandler u → u.checkScope (s.ctx (p.1 g x)) x.sc = .ok () → u.ready (s.ctx (p.1 g x)) ([runOpr x.a 4] ++ scopeOpr x.sc ++ [.dst x.tok]) → u.takeRun x.a.first 4 = (ws, v) → v.takeScope x.sc = (sc, w) → ioDescriptor p.2 (ws.getD 1 0) (ws.getD 2 0) → 32 ∣ (ws.getD 3 0).toNat → w.bound (w.phys x.tok.num) = false → w.eng.io.length < 64 → w.release (w.scopeWidth sc) = .ok y → False) :=
  fun h => h _ (.head _) {} (⟨15, .w 1, ⟨.w 8, false⟩, .short 1⟩) ((withWords usr [(8, ap), (9, 512)])) _ _ _ _ _ _ (by unfold taskModes; decide) ⟨_, rfl, rfl⟩ (fun hh => absurd hh (by decide)) rfl rfl rfl rfl (by unfold ioDescriptor; decide) (by decide +kernel) rfl (by decide +kernel) rfl

theorem wit_VirtualTimeInstructions_1 : ¬ (∀ (g : Guard) (d : Name) (s u w : State), Enters s (.vtnow g d) g u → u.ready (s.ctx (.vtnow g d)) [.runDst d 2] → u.bound (u.phys d.num) = false → u.bound (u.phys d.num + 1) = false → w = (u.setCell (u.phys d.num) (.full (u.handlerKey.getD ⟨0, 0⟩).t)).setCell (u.phys d.num + 1) (.full (u.handlerKey.getD ⟨0, 0⟩).k) → False) :=
  fun h => h {} (.w 5) sup _ _ ⟨_, rfl, rfl⟩ rfl rfl rfl rfl

theorem wit_VirtualTimeInstructions_2 : ¬ (∀ (g : Guard) (d : Name) (s u w : State), Enters s (.gvtrd g d) g u → u.ready (s.ctx (.gvtrd g d)) [.runDst d 2] → u.bound (u.phys d.num) = false → u.bound (u.phys d.num + 1) = false → w = (u.setCell (u.phys d.num) (.full u.gvtKey.t)).setCell (u.phys d.num + 1) (.full u.gvtKey.k) → False) :=
  fun h => h {} (.w 5) sup _ _ ⟨_, rfl, rfl⟩ rfl rfl rfl rfl

theorem wit_VirtualTimeInstructions_3 : ¬ (∀ (g : Guard) (s u : State), taskModes s → Enters s (.safe g) g u → bit u.regs.frmode 63 = false → (u.opt? = true → u.holdsGvt = true) → False) :=
  fun h => h {} usr _ (by unfold taskModes; decide) ⟨_, rfl, rfl⟩ rfl (by decide +kernel)

theorem wit_VirtualTimeInstructions_4 : ¬ (∀ (g : Guard) (x : TwoSrc) (s u v w : State) (o win : Word) (d : Domain), taskModes s → Enters s (.domain g x) g u → bit u.regs.frmode 63 = false → plainHandler u → u.ready (s.ctx (.domain g x)) [srcOpr x.a, srcOpr x.b] → u.take x.a.name = (o, v) → v.take x.b.name = (win, w) → w.opt.domain = none → bits o 63 19 = 0 → 64 ∣ o.toNat → w.domainOf o.toNat (wordOf (w.homeBytes (storeKey w.core.number o.toNat) 8)) (wordOf (w.homeBytes (storeKey w.core.number (o.toNat + 8)) 8)) (wordOf (w.homeBytes (storeKey w.core.number (o.toNat + 16)) 8)) = some d → False) :=
  fun h => h {} (⟨⟨.w 5, false⟩, ⟨.w 3, false⟩⟩) ({ usr with mem := { usr.mem with bytes := [(2 ^ 60 + 1, 0x10), (2 ^ 60 + 4, 8), (2 ^ 60 + 9, 0x20), (2 ^ 60 + 12, 32), (2 ^ 60 + 17, 0x30), (2 ^ 60 + 20, 128)] } }) _ _ _ _ _ _ (by unfold taskModes; decide) ⟨_, rfl, rfl⟩ rfl (fun hh => absurd hh (by decide)) rfl rfl rfl rfl rfl (by decide +kernel) rfl

theorem wit_VirtualTimeInstructions_5 : ¬ (∀ (g : Guard) (s u : State) (d : Domain), taskModes s → Enters s (.domexit g) g u → bit u.regs.frmode 63 = false → plainHandler u → u.opt.domain = some d → u.domainQuiet = true → False) :=
  fun h => h {} ({ usr with opt := { usr.opt with domain := some ⟨0, 0x1000, 8, 0x2000, 32, 0x3000, 128, 0, 0, 0, 0, 0, 0, 0, 0, 0⟩ } }) _ _ (by unfold taskModes; decide) ⟨_, rfl, rfl⟩ rfl (fun hh => absurd hh (by decide)) rfl rfl

theorem wit_VirtualTimeInstructions_6 : ¬ (∀ (g : Guard) (x : SendArgs) (s u v w : State) (n sc : Word) (ws : List Word) (k : Key) (m : Nat) (counted : Bool), taskModes s → Enters s (.vsend g x) g u → v.opt? = false → bit u.regs.frmode 63 = false → u.checkScope (s.ctx (.vsend g x)) x.sc = .ok () → u.ready (s.ctx (.vsend g x)) ([srcOpr x.a, runOpr x.r 8] ++ scopeOpr x.sc) → u.takeSend x = (n, ws, sc, v) → sendable v n ws → k = sendKey (ws.getD 1 0) v.core.number v.opt.seq → v.gvtTarget = some (m, counted) → (counted = true ∨ (m ≤ v.opt.installs ∧ k.lt v.gvtKey = false)) → v.sendsFull = false → v.release (v.scopeWidth sc) = .ok w → False) :=
  fun h => h {} (⟨⟨.w 5, false⟩, ⟨.w 8, false⟩, .short 1⟩) usr _ _ _ _ _ _ _ _ _ (by unfold taskModes; decide) ⟨_, rfl, rfl⟩ rfl rfl rfl rfl rfl (by unfold sendable; decide) rfl rfl (by decide +kernel) rfl rfl

theorem wit_VirtualTimeInstructions_7 : ¬ (∀ (g : Guard) (x : SendArgs) (s u v w : State) (n sc : Word) (ws : List Word), taskModes s → Enters s (.defer g x) g u → v.handlerKey = none → bit u.regs.frmode 63 = false → u.checkScope (s.ctx (.defer g x)) x.sc = .ok () → u.ready (s.ctx (.defer g x)) ([srcOpr x.a, runOpr x.r 8] ++ scopeOpr x.sc) → u.takeSend x = (n, ws, sc, v) → sendable v n ws → v.sendsFull = false → v.release (v.scopeWidth sc) = .ok w → False) :=
  fun h => h {} (⟨⟨.w 5, false⟩, ⟨.w 8, false⟩, .short 1⟩) usr _ _ _ _ _ _ (by unfold taskModes; decide) ⟨_, rfl, rfl⟩ rfl rfl rfl rfl rfl (by unfold sendable; decide) rfl rfl

theorem wit_ScalarLoads_1 : ¬ (∀ (g : Guard) (x : Mem) (s u v w y z : State) (b : Word) (ps : List Piece) (bs : List Byte), Enters s (.ld g x) g u → u.ready (s.ctx (.ld g x)) [.src x.a false, .dst x.d] → u.take x.a = (b, v) → v.plainAccess v.who .read (effective b x.off) x.t.bytes = .ok (ps, w) → w.loadBytes ps x.nud.val = (bs, none, y) → y.bindDst x.d (some (x.t.extend (ofBytes bs))) (lostInfo .read (effective b x.off) 0) = .ok z → False) :=
  fun h => h {} (⟨.i64, 15, .w 1, .w 2, .short 8⟩) sup _ _ _ _ _ _ _ _ ⟨_, rfl, rfl⟩ rfl rfl rfl rfl rfl

theorem wit_ScalarLoads_2 : ¬ (∀ (g : Guard) (x : MemSync) (s u v v' w r y z : State) (b sc : Word) (ps : List Piece) (bs : List Byte), Enters s (.ldAcq g x) g u → u.checkScope (s.ctx (.ldAcq g x)) x.sc = .ok () → u.ready (s.ctx (.ldAcq g x)) ([.src x.a false] ++ scopeOpr x.sc ++ [.dst x.d]) → u.take x.a = (b, v) → v.takeScope x.sc = (sc, v') → x.t.bytes ∣ (effective b x.off).toNat → v'.openAccess v'.who .read (effective b x.off) x.t.bytes true = .ok (ps, w) → acquired w ps sc = .ok r → r.loadBytes ps x.nud.val = (bs, none, y) → y.bindDst x.d (some (x.t.extend (ofBytes bs))) (lostInfo .read (effective b x.off) 0) = .ok z → False) :=
  fun h => h {} (⟨.i64, 15, .w 1, .w 2, .short 8, .short 1⟩) sup _ _ _ _ _ _ _ _ _ _ _ ⟨_, rfl, rfl⟩ rfl rfl rfl rfl (by decide +kernel) rfl rfl rfl rfl

theorem wit_ScalarLoads_3 : ¬ (∀ (g : Guard) (x : LdpArgs) (s u v w y z : State) (b off : Word) (n : Nat) (ps : List Piece) (bs : List Byte), Enters s (.ldp g x) g u → u.ready (s.ctx (.ldp g x)) (optOpr x.c ++ [.dst x.d]) → u.takeOpt 0 x.c = (b, v) → off = b + wdI x.off.toInt → bit (mget 0 v.regs.pwl x.k.val) 63 = true → x.t.bytes ∣ off.toNat → n = min x.t.bytes (bits (mget 0 v.regs.pwl x.k.val) 39 0 - off.toNat) → 0 < n → v.plainAccess v.who .read (mget 0 v.regs.pwb x.k.val + off) n x.t.bytes = .ok (ps, w) → w.loadBytes ps x.nud.val = (bs, none, y) → (if n < x.t.bytes then { y with regs := { y.regs with taskstat := setBits y.regs.taskstat 8 8 1 } } else y).bindDst x.d (some (x.t.extend (ofBytes bs))) (lostInfo .read (mget 0 v.regs.pwb x.k.val + off) 0) = .ok z → False) :=
  fun h => h {} (⟨.i64, 15, .w 1, 1, 0, none⟩) ({ sup with regs := { sup.regs with pwb := [(1, ap)], pwl := [(1, 0x8000000000000010)] } }) _ _ _ _ _ _ _ _ _ _ ⟨_, rfl, rfl⟩ rfl rfl rfl rfl (by decide +kernel) rfl (by decide +kernel) rfl rfl rfl

theorem wit_ScalarLoads_4 : ¬ (∀ (g : Guard) (x : LdpArgs) (s u v z : State) (b off : Word), Enters s (.ldp g x) g u → u.ready (s.ctx (.ldp g x)) (optOpr x.c ++ [.dst x.d]) → u.takeOpt 0 x.c = (b, v) → off = b + wdI x.off.toInt → bit (mget 0 v.regs.pwl x.k.val) 63 = true → x.t.bytes ∣ off.toNat → bits (mget 0 v.regs.pwl x.k.val) 39 0 ≤ off.toNat → ({ v with regs := { v.regs with taskstat := setBits v.regs.taskstat 8 8 1 } } : State).bindDst x.d (some 0) (lostInfo .read (mget 0 v.regs.pwb x.k.val + off) 0) = .ok z → False) :=
  fun h => h {} (⟨.i64, 15, .w 1, 1, 0, none⟩) ({ sup with regs := { sup.regs with pwb := [(1, ap)], pwl := [(1, 0x8000000000000000)] } }) _ _ _ _ _ ⟨_, rfl, rfl⟩ rfl rfl rfl rfl (by decide +kernel) (by decide +kernel) rfl

theorem wit_Stores_1 : ¬ (∀ (g : Guard) (x : Mem) (s u v v' w y : State) (b a : Word) (ps : List Piece), Enters s (.st g x) g u → u.ready (s.ctx (.st g x)) [.src x.a false, .src x.d false] → u.take x.a = (b, v) → v.take x.d = (a, v') → v'.plainAccess v'.who .write (effective b x.off) x.t.bytes = .ok (ps, w) → inMemory ps → w.logPieces ps = .ok y → False) :=
  fun h => h {} (⟨.i64, 15, .w 1, .w 2, .short 8⟩) sup _ _ _ _ _ _ _ _ ⟨_, rfl, rfl⟩ rfl rfl rfl rfl ⟨by decide, by decide⟩ rfl

theorem wit_Stores_2 : ¬ (∀ (g : Guard) (x : MemSync) (s u v v' v'' w y z r : State) (b a sc : Word) (ps : List Piece), Enters s (.stRel g x) g u → u.checkScope (s.ctx (.stRel g x)) x.sc = .ok () → u.ready (s.ctx (.stRel g x)) ([.src x.a false] ++ scopeOpr x.sc ++ [.src x.d false]) → u.take x.a = (b, v) → v.takeScope x.sc = (sc, v') → v'.take x.d = (a, v'') → x.t.bytes ∣ (effective b x.off).toNat → v''.openAccess v''.who .write (effective b x.off) x.t.bytes true = .ok (ps, w) → inMemory ps → w.logPieces ps = .ok y → y.release (y.scopeWidth sc) = .ok z → (z.dropMail ps).record ps false true true = .ok r → False) :=
  fun h => h {} (⟨.i64, 15, .w 1, .w 2, .short 8, .short 1⟩) sup _ _ _ _ _ _ _ _ _ _ _ _ ⟨_, rfl, rfl⟩ rfl rfl rfl rfl rfl (by decide +kernel) rfl ⟨by decide, by decide⟩ rfl rfl rfl

theorem wit_Stores_3 : ¬ (∀ (g : Guard) (x : VMem) (s u v v' w y : State) (b : Word) (ws : List Word) (ps : List Piece), Enters s (.stv g x) g u → u.ready (s.ctx (.stv g x)) [.src x.a false, .vsrc x.v.val false] → u.take x.a = (b, v) → v.takeVec x.v.val = (ws, v') → x.t.bytes ∣ (effective b x.off).toNat → v'.plainAccess (v'.who true) .write (effective b x.off) 256 = .ok (ps, w) → inMemory ps → w.logPieces ps = .ok y → False) :=
  fun h => h {} (⟨.i64, 15, 1, .w 2, .short 8⟩) sup _ _ _ _ _ _ _ _ ⟨_, rfl, rfl⟩ rfl rfl rfl (by decide +kernel) rfl ⟨by decide, by decide⟩ rfl

theorem wit_Stores_4 : ¬ (∀ (g : Guard) (x : VMemSync) (s u v v' v'' w y z r : State) (b sc : Word) (ws : List Word) (ps : List Piece), Enters s (.stvRel g x) g u → u.checkScope (s.ctx (.stvRel g x)) x.sc = .ok () → u.ready (s.ctx (.stvRel g x)) ([.src x.a false] ++ scopeOpr x.sc ++ [.vsrc x.v.val false]) → u.take x.a = (b, v) → v.takeScope x.sc = (sc, v') → v'.takeVec x.v.val = (ws, v'') → 256 ∣ (effective b x.off).toNat → v''.openAccess (v''.who true) .write (effective b x.off) 256 true = .ok (ps, w) → inMemory ps → w.logPieces ps = .ok y → y.release (y.scopeWidth sc) = .ok z → (z.dropMail ps).record ps false true true = .ok r → False) :=
  fun h => h {} (⟨.i64, 15, 1, .w 2, .short 256, .short 1⟩) sup _ _ _ _ _ _ _ _ _ _ _ _ ⟨_, rfl, rfl⟩ rfl rfl rfl rfl rfl (by decide +kernel) rfl ⟨by decide, by decide⟩ rfl rfl rfl

theorem wit_AtomicOperations_1 : ¬ (∀ p ∈ amoValues, ∀ (g : Guard) (x : Amo) (s u v v' v'' w y z r t : State) (va o sc e : Word) (cas : Bool) (q : Piece) (ps : List Piece) (bs : List Byte) (new : Option Nat), (cas = true ↔ p.1 g x = .amoCas g x) → Enters s (p.1 g x) g u → u.checkScope (s.ctx (p.1 g x)) x.sc = .ok () → u.ready (s.ctx (p.1 g x)) ([srcOpr x.a, srcOpr x.b] ++ scopeOpr x.sc ++ [if cas then .both x.d else .dst x.d]) → u.take x.a.name = (va, v) → v.take x.b.name = (o, v') → v'.takeScope x.sc = (sc, v'') → (if cas then v''.take x.d = (e, w) else (e = 0 ∧ w = v'')) → x.t.isInt = true → x.t.bytes ∣ va.toNat → w.openPieces (w.who true) .atomic va x.t.bytes x.t.bytes true = .ok (q :: ps, y) → y.atomicSee q (y.scopeWidth sc) = (bs, none) → bs.length = x.t.bytes → new = p.2 x.t (ofBytes bs) (zext o x.t.width) (zext e x.t.width) → y.conflict (q :: ps) new.isSome true = none → y.atomicBefore (decide (x.ord = Ord4.rel ∨ x.ord = Ord4.ar)) (y.scopeWidth sc) = .ok z → (((z.atomicDo q (new.map fun n => toBytes n x.t.bytes) (y.scopeWidth sc) x.nud.val).atomicAfter (decide (x.ord = Ord4.acq ∨ x.ord = Ord4.ar)) (y.scopeWidth sc)).mailAfter (q :: ps) (y.mailHit (q :: ps))).record (q :: ps) true new.isSome true (decide (y.scopeWidth sc ≠ 0)) = .ok r → r.bindDst x.d (some (x.t.extend (ofBytes bs))) 0 = .ok t → False) :=
  fun h => h _ (.head _) {} (⟨.i64, 15, .ar, .w 1, ⟨.w 2, false⟩, ⟨.w 3, false⟩, .short 1⟩) sup _ _ _ _ _ _ _ _ _ _ _ _ _ (false) _ _ _ _ ⟨nofun, nofun⟩ ⟨_, rfl, rfl⟩ rfl rfl rfl rfl rfl (show _ ∧ _ from ⟨rfl, rfl⟩) rfl (by decide +kernel) rfl rfl rfl rfl rfl rfl rfl rfl

theorem wit_BarrierInstructions_1 : ¬ (∀ (g : Guard) (x : BarInit) (s u v v' v'' w y z t : State) (va n sc b : Word) (r : BarRec) (p : Piece), Enters s (.barinit g x) g u → u.checkScope (s.ctx (.barinit g x)) x.sc = .ok () → u.ready (s.ctx (.barinit g x)) ([srcOpr x.a, srcOpr x.b] ++ scopeOpr x.sc ++ [.src x.d false]) → u.take x.a.name = (va, v) → v.take x.b.name = (n, v') → v'.takeScope x.sc = (sc, v'') → v''.take x.d = (b, w) → w.openBar va (v''.scopeWidth sc) = .ok (r, p, y) → (r.v = true → r.flt = false → r.arrived = 0) → 1 ≤ n.toNat → n.toNat ≤ 5120 → b.toNat < 2 ^ 48 → y.release (v''.scopeWidth sc) = .ok z → ((z.putBar p { v := true, flt := false, phase := if r.v then r.phase else 0, parties := n.toNat, arrived := 0, bytes := b.toNat, bytes0 := b.toNat } (v''.scopeWidth sc)).mailAfter [p] (y.mailHit [p])).record [p] true true true (decide (v''.scopeWidth sc ≠ 0)) = .ok t → False) :=
  fun h => h {} (⟨.w 1, ⟨.w 2, false⟩, ⟨.w 3, false⟩, .short 1⟩) ((holding [(2, ap), (3, 5120)])) _ _ _ _ _ _ _ _ _ _ _ _ _ _ ⟨_, rfl, rfl⟩ rfl rfl rfl rfl rfl rfl rfl (by decide +kernel) (by decide +kernel) (by decide +kernel) (by decide +kernel) rfl rfl

theorem wit_BarrierInstructions_2 : ¬ (∀ (g : Guard) (x : BarDA) (s u v w y z a t : State) (va sc : Word) (r : BarRec) (p : Piece), Enters s (.bararr g x) g u → u.checkScope (s.ctx (.bararr g x)) x.sc = .ok () → u.ready (s.ctx (.bararr g x)) ([srcOpr x.a] ++ scopeOpr x.sc ++ [.dst x.d]) → u.take x.a.name = (va, v) → v.takeScope x.sc = (sc, w) → w.openBar va (w.scopeWidth sc) = .ok (r, p, y) → r.v = true → r.flt = false → r.arrived ≠ r.parties → y.release (w.scopeWidth sc) = .ok z → ((z.putBar p (completed { r with arrived := r.arrived + 1 }) (w.scopeWidth sc)).mailAfter [p] (y.mailHit [p])).record [p] true true true (decide (w.scopeWidth sc ≠ 0)) = .ok a → a.bindDst x.d (some (wd r.phase)) 0 = .ok t → False) :=
  fun h => h {} (⟨.w 1, ⟨.w 2, false⟩, .short 1⟩) ({ holding [(2, ap), (3, 1)] with mem := { bytes := [(2 ^ 60 + 2, 2), (2 ^ 60 + 4, 1), (2 ^ 60 + 7, 0x80)] } }) _ _ _ _ _ _ _ _ _ _ _ ⟨_, rfl, rfl⟩ rfl rfl rfl rfl rfl rfl rfl (by decide +kernel) rfl rfl rfl

theorem wit_BarrierInstructions_3 : ¬ (∀ (g : Guard) (x : BarAB) (s u v v' w y z t : State) (va n sc : Word) (r : BarRec) (p : Piece), Enters s (.barbytes g x) g u → u.checkScope (s.ctx (.barbytes g x)) x.sc = .ok () → u.ready (s.ctx (.barbytes g x)) ([srcOpr x.a, srcOpr x.b] ++ scopeOpr x.sc) → u.take x.a.name = (va, v) → v.take x.b.name = (n, v') → v'.takeScope x.sc = (sc, w) → w.openBar va (w.scopeWidth sc) = .ok (r, p, y) → r.v = true → y.release (w.scopeWidth sc) = .ok z → ((z.putBar p (if r.flt then r else if r.bytes < n.toNat then { r with flt := true } else completed { r with bytes := r.bytes - n.toNat }) (w.scopeWidth sc)).mailAfter [p] (y.mailHit [p])).record [p] true true true (decide (w.scopeWidth sc ≠ 0)) = .ok t → False) :=
  fun h => h {} (⟨⟨.w 2, false⟩, ⟨.w 3, false⟩, .short 1⟩) ({ holding [(2, ap), (3, 1)] with mem := { bytes := [(2 ^ 60 + 2, 2), (2 ^ 60 + 4, 1), (2 ^ 60 + 7, 0x80)] } }) _ _ _ _ _ _ _ _ _ _ _ _ ⟨_, rfl, rfl⟩ rfl rfl rfl rfl rfl rfl rfl rfl rfl

theorem wit_BarrierInstructions_4 : ¬ (∀ (g : Guard) (x : BarDA) (s u v v' w y t : State) (va sc d : Word) (r : BarRec) (p : Piece), Enters s (.barwait g x) g u → u.checkScope (s.ctx (.barwait g x)) x.sc = .ok () → u.ready (s.ctx (.barwait g x)) ([srcOpr x.a] ++ scopeOpr x.sc ++ [.src x.d false]) → u.take x.a.name = (va, v) → v.takeScope x.sc = (sc, v') → v'.take x.d = (d, w) → w.openBar va (w.scopeWidth sc) false = .ok (r, p, y) → r.v = true → r.flt = false → r.phase ≠ bits d 15 0 → (((y.atomicDo p none (w.scopeWidth sc) 0).dropMail [p]).acquire (max (w.scopeWidth sc) ((y.mailHit [p]).getD 0))).record [p] true false true (decide (w.scopeWidth sc ≠ 0)) = .ok t → False) :=
  fun h => h {} (⟨.w 1, ⟨.w 2, false⟩, .short 1⟩) ({ holding [(2, ap), (3, 1)] with mem := { bytes := [(2 ^ 60 + 2, 2), (2 ^ 60 + 4, 1), (2 ^ 60 + 7, 0x80)] } }) _ _ _ _ _ _ _ _ _ _ _ ⟨_, rfl, rfl⟩ rfl rfl rfl rfl rfl rfl rfl rfl (by decide +kernel) rfl

theorem wit_LineWaitsAndSleeps_1 : ¬ (∀ (g : Guard) (x : WaitArgs) (s u v v' w y : State) (b a : Word) (l : Loc) (bs : List Byte), Enters s (.waitln g x) g u → u.ready (s.ctx (.waitln g x)) [.src x.a false, .src x.d false] → u.take x.a = (b, v) → v.take x.d = (a, v') → v'.optimistic = false → x.t.bytes ∣ (effective b x.off).toNat → v'.translate (v'.who true) .read (effective b x.off) = .ok (l, w) → w.core.wait = none → (if l.what = .memory ∨ l.what = .store then y = (if l.what = .memory then w.cleanLine (l.key / 128 * 128) else w) ∧ y.homeLost l.key x.t.bytes = none ∧ bs = y.homeBytes l.key x.t.bytes else w.readPiece { loc := l, off := 0, len := x.t.bytes } 0 = (bs, none, y)) → ofBytes bs ≠ zext a (8 * x.t.bytes) → False) :=
  fun h => h {} (⟨.i64, .w 1, .w 2, .short 8⟩) ((holding [(1, 1), (2, ap)])) _ _ _ _ _ _ _ _ _ ⟨_, rfl, rfl⟩ rfl rfl rfl rfl (by decide +kernel) rfl rfl (show _ ∧ _ ∧ _ from ⟨rfl, by decide +kernel, rfl⟩) (by decide +kernel)

theorem wit_LineWaitsAndSleeps_2 : ¬ (∀ (g : Guard) (a : Name) (s u v : State) (x : Word), Enters s (.sleep g a) g u → u.ready (s.ctx (.sleep g a)) [.src a false] → u.take a = (x, v) → x.toNat ≤ v.cyc → False) :=
  fun h => h {} (.w 5) sup _ _ _ ⟨_, rfl, rfl⟩ rfl rfl (by decide +kernel)

theorem wit_LineWaitsAndSleeps_3 : ¬ (∀ (g : Guard) (a : Name) (s u v w : State) (x y : Word), Enters s (.sleepProm g a) g u → u.opt? = false → a.num + 1 < u.regs.wl → u.readPhys (u.phys a.num) = .ok (x, v) → v.readPhys (u.phys a.num + 1) = .ok (y, w) → False) :=
  fun h => h {} (.w 5) sup _ _ _ _ _ ⟨_, rfl, rfl⟩ rfl (by decide +kernel) rfl rfl

theorem wit_EngineCommands_1 : ¬ (∀ (g : Guard) (x : AcopyArgs) (s u v w y : State) (ws : List Word) (sc : Word), Enters s (.acopy g x) g u → (u.opt? = true → 2 ≤ u.mode) → u.checkScope (s.ctx (.acopy g x)) x.sc = .ok () → u.ready (s.ctx (.acopy g x)) ([runOpr x.a 4] ++ scopeOpr x.sc ++ [.runDst x.tok 2]) → u.takeRun x.a.first 4 = (ws, v) → v.takeScope x.sc = (sc, w) → (ws.getD 2 0).toNat ≤ 2 ^ 24 → 32 ∣ (ws.getD 3 0).toNat → w.bound (w.phys x.tok.num) = false → w.bound (w.phys x.tok.num + 1) = false → w.eng.acopy.length < 32 → w.release (w.scopeWidth sc) = .ok y → False) :=
  fun h => h {} (⟨15, .w 6, ⟨.w 8, false⟩, .short 1⟩) sup _ _ _ _ _ _ ⟨_, rfl, rfl⟩ (fun hh => absurd hh (by decide)) rfl rfl rfl rfl (by decide +kernel) (by decide +kernel) rfl rfl (by decide +kernel) rfl

theorem wit_EngineCommands_2 : ¬ (∀ p ∈ [((Instr.gather : Guard → GatherArgs → Instr), false, Kind.read), (.scatter, true, .write)], ∀ (g : Guard) (x : GatherArgs) (s u v v' w w' y z : State) (ws ix iy : List Word) (sc : Word) (more : Bool) (ls : List Lane), Enters s (p.1 g x) g u → (u.opt? = true → 2 ≤ u.mode) → u.checkScope (s.ctx (p.1 g x)) x.sc = .ok () → u.ready (s.ctx (p.1 g x)) ([runOpr x.a 2, vsrcOpr x.b] ++ scopeOpr x.sc ++ [.runDst x.tok 2]) → u.takeRun x.a.first 2 = (ws, v) → v.takeVec x.b.v.val = (ix, v') → v'.takeScope x.sc = (sc, w) → gatherForm (ws.getD 1 0) x.wide x.b.v.val = true → more = (x.wide && decide (32 < bits (ws.getD 1 0) 14 8)) → (more = true → w.checkField (.vsrc (x.b.v.val + 1) x.b.trap) = .ok () ∧ firstFound (w.examine [] (.vsrc (x.b.v.val + 1) x.b.trap)) = .ok ()) → (if more then w.takeVec (x.b.v.val + 1) else ([], w)) = (iy, w') → w'.bound (w'.phys x.tok.num) = false → w'.bound (w'.phys x.tok.num + 1) = false → w'.release (max 3 (w'.scopeWidth sc)) = .ok y → y.formLanes p.2.2 (2 ^ bits (ws.getD 1 0) 2 0) ((List.range (bits (ws.getD 1 0) 14 8)).map fun i => ws.getD 0 0 + wdI (laneIndex x.wide (ix ++ iy) i * ((2 ^ bits (ws.getD 1 0) 2 0 : Nat) : Int))) = .ok (ls, z) → False) :=
  fun h => h _ (.head _) {} (⟨false, 15, .w 6, ⟨.w 8, false⟩, ⟨0, false⟩, .short 1⟩) ((holding [(8, ap), (9, 0x102)])) _ _ _ _ _ _ _ _ _ _ _ (false) _ ⟨_, rfl, rfl⟩ (fun hh => absurd hh (by decide)) rfl rfl rfl rfl rfl rfl (by decide +kernel) nofun rfl rfl rfl rfl rfl

theorem wit_VectorAccesses_1 : ¬ (∀ (g : Guard) (x : VMem) (s u v w y : State) (b : Word) (ps : List Piece) (bs : List Byte), Enters s (.ldv g x) g u → u.ready (s.ctx (.ldv g x)) [.src x.a false, .vdst x.v.val] → u.take x.a = (b, v) → x.t.bytes ∣ (effective b x.off).toNat → v.plainAccess (v.who true) .read (effective b x.off) 256 = .ok (ps, w) → w.readPieces x.nud.val .l1 false ps = (bs, none, y) → y.acceptsVec x.v.val → y.memOps < 96 → False) :=
  fun h => h {} (⟨.i64, 15, 1, .w 2, .short 8⟩) sup _ _ _ _ _ _ _ ⟨_, rfl, rfl⟩ rfl rfl (by decide +kernel) rfl rfl (by unfold State.acceptsVec; decide) (by decide +kernel)

theorem wit_VectorAccesses_2 : ¬ (∀ (g : Guard) (x : VMemSync) (s u v v' w r y : State) (b sc : Word) (ps : List Piece) (bs : List Byte), Enters s (.ldvAcq g x) g u → u.checkScope (s.ctx (.ldvAcq g x)) x.sc = .ok () → u.ready (s.ctx (.ldvAcq g x)) ([.src x.a false] ++ scopeOpr x.sc ++ [.vdst x.v.val]) → u.take x.a = (b, v) → v.takeScope x.sc = (sc, v') → 256 ∣ (effective b x.off).toNat → v'.openAccess (v'.who true) .read (effective b x.off) 256 true = .ok (ps, w) → acquired w ps sc = .ok r → r.readPieces x.nud.val .l1 false ps = (bs, none, y) → y.acceptsVec x.v.val → y.memOps < 96 → False) :=
  fun h => h {} (⟨.i64, 15, 1, .w 2, .short 256, .short 1⟩) sup _ _ _ _ _ _ _ _ _ _ ⟨_, rfl, rfl⟩ rfl rfl rfl rfl (by decide +kernel) rfl rfl rfl (by unfold State.acceptsVec; decide) (by decide +kernel)

theorem wit_VectorAccesses_3 : ¬ (∀ (g : Guard) (x : VStride) (s u v v' w y : State) (b st : Word) (m : Option Word), Enters s (.ldvs g x) g u → u.ready (s.ctx (.ldvs g x)) ([srcOpr x.a, srcOpr x.b] ++ optOpr x.m ++ [.vdst x.v.val]) → u.take x.a.name = (b, v) → v.take x.b.name = (st, v') → v'.takeMask x.m = (m, w) → w.loadLanes x.t x.nud.val x.v.val (activeSet x.t m fun i => b + wd i * st) = .ok y → False) :=
  fun h => h {} (⟨.i64, 15, 1, ⟨.w 2, false⟩, ⟨.w 3, false⟩, some ⟨.w 5, false⟩⟩) ((holding [(2, ap), (5, 1)])) _ _ _ _ _ _ _ _ ⟨_, rfl, rfl⟩ rfl rfl rfl rfl rfl

theorem wit_VectorAccesses_4 : ¬ (∀ (g : Guard) (x : VStride) (s u v v' v'' w y : State) (b st : Word) (m : Option Word) (ws : List Word), Enters s (.stvs g x) g u → u.ready (s.ctx (.stvs g x)) ([srcOpr x.a, srcOpr x.b] ++ optOpr x.m ++ [.vsrc x.v.val false]) → u.take x.a.name = (b, v) → v.take x.b.name = (st, v') → v'.takeMask x.m = (m, v'') → v''.takeVec x.v.val = (ws, w) → w.storeLanes x.t x.nud.val ws (activeSet x.t m fun i => b + wd i * st) = .ok y → False) :=
  fun h => h {} (⟨.i64, 15, 1, ⟨.w 2, false⟩, ⟨.w 3, false⟩, some ⟨.w 5, false⟩⟩) ((holding [(2, ap), (5, 1)])) _ _ _ _ _ _ _ _ _ _ ⟨_, rfl, rfl⟩ rfl rfl rfl rfl rfl rfl

theorem wit_VectorAccesses_5 : ¬ (∀ (g : Guard) (x : VIndex) (s u v v' w y : State) (b : Word) (ix : List Word) (m : Option Word), Enters s (.ldvx g x) g u → u.ready (s.ctx (.ldvx g x)) ([srcOpr x.a, vsrcOpr x.b] ++ optOpr x.m ++ [.vdst x.v.val]) → u.take x.a.name = (b, v) → v.takeVec x.b.v.val = (ix, v') → v'.takeMask x.m = (m, w) → w.loadLanes x.t x.nud.val x.v.val (activeSet x.t m (indexedVa x.t b ix)) = .ok y → False) :=
  fun h => h {} (⟨.i64, 15, 1, ⟨.w 2, false⟩, ⟨2, false⟩, some ⟨.w 5, false⟩⟩) ((holding [(2, ap), (5, 1)])) _ _ _ _ _ _ _ _ ⟨_, rfl, rfl⟩ rfl rfl rfl rfl rfl

theorem wit_VectorAccesses_6 : ¬ (∀ (g : Guard) (x : VIndex) (s u v v' v'' w y : State) (b : Word) (ix : List Word) (m : Option Word) (ws : List Word), Enters s (.stvx g x) g u → u.ready (s.ctx (.stvx g x)) ([srcOpr x.a, vsrcOpr x.b] ++ optOpr x.m ++ [.vsrc x.v.val false]) → u.take x.a.name = (b, v) → v.takeVec x.b.v.val = (ix, v') → v'.takeMask x.m = (m, v'') → v''.takeVec x.v.val = (ws, w) → w.storeLanes x.t x.nud.val ws (activeSet x.t m (indexedVa x.t b ix)) = .ok y → False) :=
  fun h => h {} (⟨.i64, 15, 1, ⟨.w 2, false⟩, ⟨2, false⟩, some ⟨.w 5, false⟩⟩) ((holding [(2, ap), (5, 1)])) _ _ _ _ _ _ _ _ _ _ ⟨_, rfl, rfl⟩ rfl rfl rfl rfl rfl rfl

theorem wit_CachesAndFences_1 : ¬ (∀ p ∈ prefetches, ∀ (g : Guard) (x : PrefArgs) (s u v : State) (b : Word), Enters s (p.1 g x) g u → u.ready (s.ctx (p.1 g x)) [.src x.a false] → u.take x.a = (b, v) → ∀ c d l, v.translate v.who .read (effective b x.off) = .error (.fault c d l) → False) :=
  fun h => h _ (.head _) {} (⟨15, .w 2, .short 8⟩) ((holding [(2, 0x0100000000000000)])) _ _ _ ⟨_, rfl, rfl⟩ rfl rfl _ _ _ rfl

theorem wit_CachesAndFences_2 : ¬ (∀ p ∈ prefetches, ∀ (g : Guard) (x : PrefArgs) (s u v : State) (b : Word), Enters s (p.1 g x) g u → u.ready (s.ctx (p.1 g x)) [.src x.a false] → u.take x.a = (b, v) → ∀ n, v.translate v.who .read (effective b x.off) = .error (.absent n) → False) :=
  fun h => h _ (.head _) {} (⟨15, .w 2, .short 8⟩) ((withWords pulled [(2, 0x200000)])) _ _ _ ⟨_, rfl, rfl⟩ rfl rfl (0x20) (is_miss (by decide +kernel))

theorem wit_CachesAndFences_3 : ¬ (∀ p ∈ prefetches, ∀ (g : Guard) (x : PrefArgs) (s u v : State) (b : Word), Enters s (p.1 g x) g u → u.ready (s.ctx (p.1 g x)) [.src x.a false] → u.take x.a = (b, v) → ∀ l w, v.translate v.who .read (effective b x.off) = .ok (l, w) → l.what ≠ .memory ∨ l.mt ≠ 0 → False) :=
  fun h => h _ (.head _) {} (⟨15, .w 2, .short 8⟩) sup _ _ _ ⟨_, rfl, rfl⟩ rfl rfl _ _ rfl (by decide +kernel)

theorem wit_CachesAndFences_4 : ¬ (∀ p ∈ prefetches, ∀ (g : Guard) (x : PrefArgs) (s u v : State) (b : Word), Enters s (p.1 g x) g u → u.ready (s.ctx (p.1 g x)) [.src x.a false] → u.take x.a = (b, v) → ∀ l w, v.translate v.who .read (effective b x.off) = .ok (l, w) → l.what = .memory → l.mt = 0 → False) :=
  fun h => h _ (.head _) {} (⟨15, .w 2, .short 8⟩) (atPage) _ (asked) _ ⟨_, rfl, rfl⟩ rfl rfl ((found asked 0x200008).1) ((found asked 0x200008).2) (is_ok (by decide +kernel)) (by decide +kernel) (by decide +kernel)

theorem wit_CachesAndFences_5 : ¬ (∀ (g : Guard) (x : FlushArgs) (s u v w : State) (b : Word) (l : Loc), Enters s (.flush g x) g u → u.ready (s.ctx (.flush g x)) [.src x.a false] → u.take x.a = (b, v) → v.optimistic = false → v.translate v.who .any (effective b x.off) = .ok (l, w) → False) :=
  fun h => h {} (⟨.w 2, .short 8⟩) sup _ _ _ _ _ ⟨_, rfl, rfl⟩ rfl rfl rfl rfl

theorem wit_CachesAndFences_8 : ¬ (∀ (g : Guard) (x : FlushArgs) (s u v w : State) (b : Word) (l : Loc), Enters s (.flushMem g x) g u → u.ready (s.ctx (.flushMem g x)) [.src x.a false] → u.take x.a = (b, v) → v.optimistic = false → v.translate v.who .any (effective b x.off) = .ok (l, w) → False) :=
  fun h => h {} (⟨.w 2, .short 8⟩) sup _ _ _ _ _ ⟨_, rfl, rfl⟩ rfl rfl rfl rfl

theorem wit_CachesAndFences_9 : ¬ (∀ (g : Guard) (sc : Scope) (s u v : State) (x : Word), Enters s (.fenceAcq g sc) g u → u.checkScope (s.ctx (.fenceAcq g sc)) sc = .ok () → u.ready (s.ctx (.fenceAcq g sc)) (scopeOpr sc) → u.takeScope sc = (x, v) → 3 ≤ v.scopeWidth x → False) :=
  fun h => h {} (.short 3) sup _ _ _ ⟨_, rfl, rfl⟩ rfl rfl rfl (by decide +kernel)

theorem wit_CachesAndFences_10 : ¬ (∀ (g : Guard) (sc : Scope) (s u v : State) (x : Word), Enters s (.fenceAcq g sc) g u → u.checkScope (s.ctx (.fenceAcq g sc)) sc = .ok () → u.ready (s.ctx (.fenceAcq g sc)) (scopeOpr sc) → u.takeScope sc = (x, v) → False) :=
  fun h => h {} (.short 3) sup _ _ _ ⟨_, rfl, rfl⟩ rfl rfl rfl

theorem wit_CachesAndFences_11 : ¬ (∀ (g : Guard) (sc : Scope) (s u v : State) (x : Word), Enters s (.fenceRel g sc) g u → u.checkScope (s.ctx (.fenceRel g sc)) sc = .ok () → u.ready (s.ctx (.fenceRel g sc)) (scopeOpr sc) → u.takeScope sc = (x, v) → (v.scopeWidth x = 4 → v.core.lostWrite = none) → False) :=
  fun h => h {} (.short 3) sup _ _ _ ⟨_, rfl, rfl⟩ rfl rfl rfl (by decide +kernel)

theorem wit_CachesAndFences_12 : ¬ (∀ (g : Guard) (sc : Scope) (s u v : State) (x : Word), Enters s (.fenceFull g sc) g u → u.checkScope (s.ctx (.fenceFull g sc)) sc = .ok () → u.ready (s.ctx (.fenceFull g sc)) (scopeOpr sc) → u.takeScope sc = (x, v) → (v.scopeWidth x = 4 → v.core.lostWrite = none) → False) :=
  fun h => h {} (.short 3) sup _ _ _ ⟨_, rfl, rfl⟩ rfl rfl rfl (by decide +kernel)

theorem wit_VectorLaneResults_1 : ¬ (∀ p ∈ laneTable1, ∀ (g : Guard) (x : Vec1) (s u v y : State) (cols : List (List Nat)) (res : List (Nat × FpFlags)), Enters s (p.1 g x) g u → u.ready (s.ctx (p.1 g x)) (x.o.ins.map inOpr ++ [dstOpr x.o.dst]) → u.takeIns x.t x.o.ins = (cols, v) → res = (List.range (lanesAt x.t x.o.dst)).map (fun i => p.2 x.t (v.rnd (s.ctx (p.1 g x)) x.rm.val) i ((cols.getD 0 []).getD i 0)) → v.raise (flagsOf res) = .ok y → takesLanes y x.o.dst → False) :=
  fun h => h _ (.head _) {} (⟨.i64, 0, .vec 0 ⟨1, false⟩⟩) sup _ _ _ _ _ ⟨_, rfl, rfl⟩ rfl rfl rfl rfl (by show State.acceptsVec _ _; unfold State.acceptsVec; decide)

theorem wit_VectorLaneResults_2 : ¬ (∀ p ∈ laneTable2, ∀ (g : Guard) (x : Vec2) (s u v y : State) (cols : List (List Nat)) (res : List (Nat × FpFlags)), Enters s (p.1 g x) g u → u.ready (s.ctx (p.1 g x)) (x.o.ins.map inOpr ++ [dstOpr x.o.dst]) → u.takeIns x.t x.o.ins = (cols, v) → res = (List.range (lanesAt x.t x.o.dst)).map (fun i => p.2 x.t (v.rnd (s.ctx (p.1 g x)) x.rm.val) i ((cols.getD 0 []).getD i 0) ((cols.getD 1 []).getD i 0)) → v.raise (flagsOf res) = .ok y → takesLanes y x.o.dst → False) :=
  fun h => h _ (.head _) {} (⟨.i64, 0, .vec 0 ⟨1, false⟩ ⟨2, false⟩⟩) sup _ _ _ _ _ ⟨_, rfl, rfl⟩ rfl rfl rfl rfl (by show State.acceptsVec _ _; unfold State.acceptsVec; decide)

theorem wit_VectorLaneResults_3 : ¬ (∀ p ∈ laneTable3, ∀ (g : Guard) (x : Vec3) (s u v y : State) (cols : List (List Nat)) (res : List (Nat × FpFlags)), Enters s (p.1 g x) g u → u.ready (s.ctx (p.1 g x)) (x.o.ins.map inOpr ++ [dstOpr x.o.dst]) → u.takeIns x.t x.o.ins = (cols, v) → res = (List.range (lanesAt x.t x.o.dst)).map (fun i => p.2 x.t (v.rnd (s.ctx (p.1 g x)) x.rm.val) i ((cols.getD 0 []).getD i 0) ((cols.getD 1 []).getD i 0) ((cols.getD 2 []).getD i 0)) → v.raise (flagsOf res) = .ok y → takesLanes y x.o.dst → False) :=
  fun h => h _ (.head _) {} (⟨.i64, 0, .vec 0 ⟨1, false⟩ ⟨2, false⟩ ⟨3, false⟩⟩) sup _ _ _ _ _ ⟨_, rfl, rfl⟩ rfl rfl rfl rfl (by show State.acceptsVec _ _; unfold State.acceptsVec; decide)

theorem wit_VectorComparesAndMasks_1 : ¬ (∀ p ∈ laneCompares, ∀ (g : Guard) (x : VCmpArgs) (t : Ty) (d : Name) (ins : List VIn) (s u v y : State) (cols : List (List Nat)) (res : List (Bool × FpFlags)), vcmpParts x = (t, d, ins) → Enters s (p.1 g x) g u → u.ready (s.ctx (p.1 g x)) (ins.map inOpr ++ [.dst d]) → u.takeIns t ins = (cols, v) → res = (List.zip (cols.getD 0 []) (cols.getD 1 [])).map (fun e => laneCompare p.2.1 p.2.2 t e.1 e.2) → v.raise (res.foldl (fun a e => a ||| e.2) 0) = .ok y → y.accepts d → False) :=
  fun h => h _ (.head _) {} (.vec .i64 (.w 5) ⟨1, false⟩ ⟨2, false⟩) (.i64) (.w 5) _ sup _ _ _ _ _ rfl ⟨_, rfl, rfl⟩ rfl rfl rfl rfl rfl

theorem wit_VectorComparesAndMasks_2 : ¬ (∀ (g : Guard) (x : VMaskArgs) (t : Ty) (d : Name) (a : VIn) (s u v : State) (els : List Nat), vmaskParts x = (t, d, a) → Enters s (.vmask g x) g u → u.ready (s.ctx (.vmask g x)) [inOpr a, .dst d] → u.takeIn t a = (els, v) → v.accepts d → False) :=
  fun h => h {} (.vec .i64 (.w 5) ⟨1, false⟩) (.i64) (.w 5) _ sup _ _ _ rfl ⟨_, rfl, rfl⟩ rfl rfl rfl

theorem wit_VectorComparesAndMasks_3 : ¬ (∀ (g : Guard) (x : VSelArgs) (t : Ty) (d : VDst) (ins : List VIn) (m : Src) (s u v w : State) (cols : List (List Nat)) (k : Word), vselParts x = (t, d, ins, m) → Enters s (.vsel g x) g u → u.ready (s.ctx (.vsel g x)) (ins.map inOpr ++ [srcOpr m, dstOpr d]) → u.takeIns t ins = (cols, v) → v.take m.name = (k, w) → takesLanes w d → False) :=
  fun h => h {} (.vec .i64 0 ⟨1, false⟩ ⟨2, false⟩ ⟨.w 5, false⟩) (.i64) _ _ (⟨.w 5, false⟩) sup _ _ _ _ _ rfl ⟨_, rfl, rfl⟩ rfl rfl rfl (by show State.acceptsVec _ _; unfold State.acceptsVec; decide)

theorem wit_VectorConversions_1 : ¬ (∀ p ∈ [((Instr.vcvt : Guard → VCvtArgs → Instr), CvtForm.plain), (.vcvtSat, .sat), (.vcvtOvf, .ovf)], ∀ (g : Guard) (t src : Ty) (rm : Fin 8) (d : Fin 64) (a : VSrc) (hi : Bool) (s u v w y : State) (ws old : List Word) (res : List (Nat × FpFlags)), (t.lanes = src.lanes → hi = false) → Enters s (p.1 g (.vec t src rm d a hi)) g u → u.ready (s.ctx (p.1 g (.vec t src rm d a hi))) [vsrcOpr a, if src.lanes < t.lanes then .vboth d.val else .vdst d.val] → u.takeVec a.v.val = (ws, v) → (if src.lanes < t.lanes then v.takeVec d.val else (old, v)) = (old, w) → res = (List.range (min t.lanes src.lanes)).map (fun j => t.convert p.2 (w.rnd (s.ctx (p.1 g (.vec t src rm d a hi))) rm.val).rm ((w.rnd (s.ctx (p.1 g (.vec t src rm d a hi))) rm.val).draw (cvtTo t src hi j)) (src.decode ((elemsOf src ws).getD (cvtFrom t src hi j) 0))) → w.raise (flagsOf res) = .ok y → y.acceptsVec d.val → False) :=
  fun h => h _ (.head _) {} (.f32) (.f64) (0) (1) (⟨2, false⟩) (false) sup _ _ _ _ _ _ _ (fun _ => rfl) ⟨_, rfl, rfl⟩ rfl rfl (show (_ : List Word × State) = _ from rfl) rfl rfl (by unfold State.acceptsVec; decide)

theorem wit_VectorConversions_2 : ¬ (∀ p ∈ [((Instr.vcvt : Guard → VCvtArgs → Instr), CvtForm.plain), (.vcvtSat, .sat), (.vcvtOvf, .ovf)], ∀ (g : Guard) (t src : Ty) (rm : Fin 8) (d : Name) (a : Src) (s u v y : State) (w : Word) (r : Nat × FpFlags), Enters s (p.1 g (.scl t src rm d a)) g u → u.ready (s.ctx (p.1 g (.scl t src rm d a))) [srcOpr a, .dst d] → u.take a.name = (w, v) → r = t.convert p.2 (v.rnd (s.ctx (p.1 g (.scl t src rm d a))) rm.val).rm ((v.rnd (s.ctx (p.1 g (.scl t src rm d a))) rm.val).draw 0) (src.decode (zext w src.width)) → v.raise r.2 = .ok y → y.accepts d → False) :=
  fun h => h _ (.head _) {} (.f32) (.f64) (0) (.w 5) (⟨.w 5, false⟩) sup _ _ _ _ _ ⟨_, rfl, rfl⟩ rfl rfl rfl rfl rfl

theorem wit_VectorConversions_3 : ¬ (∀ (g : Guard) (x : VPackArgs) (s u v w : State) (ws old : List Word), 64 * x.t.width * (x.pos.val + 1) ≤ 2048 → Enters s (.vpack g x) g u → u.ready (s.ctx (.vpack g x)) [vsrcOpr x.a, .vboth x.d.val] → u.takeVec x.a.v.val = (ws, v) → v.takeVec x.d.val = (old, w) → w.acceptsVec x.d.val → False) :=
  fun h => h {} (⟨.n8, 1, ⟨2, false⟩, 3⟩) sup _ _ _ _ _ (by decide +kernel) ⟨_, rfl, rfl⟩ rfl rfl rfl (by unfold State.acceptsVec; decide)

theorem wit_VectorConversions_4 : ¬ (∀ (g : Guard) (x : VPackArgs) (s u v : State) (ws : List Word), x.t.lanes = 64 → 64 * x.t.width * (x.pos.val + 1) ≤ 2048 → Enters s (.vunpack g x) g u → u.ready (s.ctx (.vunpack g x)) [vsrcOpr x.a, .vdst x.d.val] → u.takeVec x.a.v.val = (ws, v) → v.acceptsVec x.d.val → False) :=
  fun h => h {} (⟨.n8, 1, ⟨2, false⟩, 3⟩) sup _ _ _ rfl (by decide +kernel) ⟨_, rfl, rfl⟩ rfl rfl (by unfold State.acceptsVec; decide)

theorem wit_VectorReductions_1 : ¬ (∀ (g : Guard) (x : VRedArgs) (s u v : State) (ws : List Word), x.t.isInt = true → Enters s (.vredadd g x) g u → u.ready (s.ctx (.vredadd g x)) [vsrcOpr x.a, .dst x.d] → u.takeVec x.a.v.val = (ws, v) → ws.length = 32 → v.accepts x.d → False) :=
  fun h => h {} (⟨.i64, 0, .w 1, ⟨2, false⟩⟩) sup _ _ _ rfl ⟨_, rfl, rfl⟩ rfl rfl rfl rfl

theorem wit_VectorReductions_2 : ¬ (∀ (g : Guard) (x : VRedArgs) (s u v y : State) (ws : List Word) (r : Nat × FpFlags), x.t.isFloat = true → Enters s (.vredadd g x) g u → u.ready (s.ctx (.vredadd g x)) [vsrcOpr x.a, .dst x.d] → u.takeVec x.a.v.val = (ws, v) → r = redLanes (fun e a b => x.t.fadd (v.rnd (s.ctx (.vredadd g x)) x.rm.val) e (x.t.decode a) (x.t.decode b)) (elemsOf x.t ws) (if x.t.lanes = 32 then 5 else 6) 0 → v.raise r.2 = .ok y → y.accepts x.d → False) :=
  fun h => h {} (⟨.f64, 0, .w 1, ⟨2, false⟩⟩) sup _ _ _ _ _ rfl ⟨_, rfl, rfl⟩ rfl rfl rfl rfl rfl

theorem wit_VectorReductions_3 : ¬ (∀ p ∈ [((Instr.vredmax : Guard → VRedArgs → Instr), true), (.vredmin, false)], ∀ (g : Guard) (x : VRedArgs) (s u v : State) (ws : List Word), x.t.isInt = true → Enters s (p.1 g x) g u → u.ready (s.ctx (p.1 g x)) [vsrcOpr x.a, .dst x.d] → u.takeVec x.a.v.val = (ws, v) → ws.length = 32 → v.accepts x.d → False) :=
  fun h => h _ (.head _) {} (⟨.i64, 0, .w 1, ⟨2, false⟩⟩) sup _ _ _ rfl ⟨_, rfl, rfl⟩ rfl rfl rfl rfl

theorem wit_VectorReductions_4 : ¬ (∀ p ∈ [((Instr.vredmax : Guard → VRedArgs → Instr), true), (.vredmin, false)], ∀ (g : Guard) (x : VRedArgs) (s u v y : State) (ws : List Word), x.t.isFloat = true → Enters s (p.1 g x) g u → u.ready (s.ctx (p.1 g x)) [vsrcOpr x.a, .dst x.d] → u.takeVec x.a.v.val = (ws, v) → v.raise (foldFloat x.t p.2 (elemsOf x.t ws)).2 = .ok y → y.accepts x.d → False) :=
  fun h => h _ (.head _) {} (⟨.f64, 0, .w 1, ⟨2, false⟩⟩) sup _ _ _ _ rfl ⟨_, rfl, rfl⟩ rfl rfl rfl rfl

theorem wit_VectorReductions_5 : ¬ (∀ (g : Guard) (x : VScanArgs) (s u v w y : State) (ws : List Word) (c : Word) (els : List (Nat × FpFlags)), Enters s (.vscan g x) g u → u.ready (s.ctx (.vscan g x)) [vsrcOpr x.a, srcOpr x.b, .vdst x.d.val] → u.takeVec x.a.v.val = (ws, v) → ws.length = 32 → v.take x.b.name = (c, w) → els.length = x.t.lanes → (∀ i, i < x.t.lanes → els.getD i (0, 0) = laneArith (· + ·) Ty.fadd x.t (w.rnd (s.ctx (.vscan g x)) x.rm.val) i (if i = 0 then zext c x.t.width else (els.getD (i - 1) (0, 0)).1) ((elemsOf x.t ws).getD i 0)) → w.raise (flagsOf els) = .ok y → y.acceptsVec x.d.val → False) :=
  fun h => h {} (⟨.i64, 0, 1, ⟨2, false⟩, ⟨.w 5, false⟩⟩) sup _ _ _ _ _ _ (List.replicate 32 (0, 0)) ⟨_, rfl, rfl⟩ rfl rfl rfl rfl rfl (by decide +kernel) rfl (by unfold State.acceptsVec; decide)

theorem wit_VectorPermutes_1 : ¬ (∀ (g : Guard) (x : VPermArgs) (s u v w : State) (ws ix : List Word), Enters s (.vperm g x) g u → u.ready (s.ctx (.vperm g x)) [vsrcOpr x.a, vsrcOpr x.b, .vdst x.d.val] → u.takeVec x.a.v.val = (ws, v) → v.takeVec x.b.v.val = (ix, w) → w.acceptsVec x.d.val → False) :=
  fun h => h {} (⟨.i64, 1, ⟨2, false⟩, ⟨3, false⟩⟩) sup _ _ _ _ _ ⟨_, rfl, rfl⟩ rfl rfl rfl (by unfold State.acceptsVec; decide)

theorem wit_VectorPermutes_2 : ¬ (∀ (g : Guard) (x : VBcastArgs) (s u v : State) (a : Word), Enters s (.vbcast g x) g u → u.ready (s.ctx (.vbcast g x)) [srcOpr x.a, .vdst x.d.val] → u.take x.a.name = (a, v) → v.acceptsVec x.d.val → False) :=
  fun h => h {} (⟨.i64, 1, ⟨.w 5, false⟩⟩) sup _ _ _ ⟨_, rfl, rfl⟩ rfl rfl (by unfold State.acceptsVec; decide)

theorem wit_VectorPermutes_3 : ¬ (∀ (g : Guard) (x : VShufArgs) (s u v w y : State) (wa wb : List Word) (c : Word) (ls : List Nat), Enters s (.vshuf g x) g u → u.ready (s.ctx (.vshuf g x)) [vsrcOpr x.a, vsrcOpr x.b, srcOpr x.c, .vdst x.d.val] → u.takeVec x.a.v.val = (wa, v) → v.takeVec x.b.v.val = (wb, w) → w.take x.c.name = (c, y) → y.acceptsVec x.d.val → ls.length = x.t.lanes → (∀ i, i < x.t.lanes → let a := fun j => (elemsOf x.t wa).getD j 0; let b := fun j => (elemsOf x.t wb).getD j 0; let n := x.t.lanes; let k := bits c 5 0; ls.getD i 0 = if bits c 7 6 = 0 then (if i + k % n < n then a (i + k % n) else b (i + k % n - n)) else if bits c 7 6 = 1 then (if i % 2 = 0 then a (i / 2) else b ((i - 1) / 2)) else if bits c 7 6 = 2 then (if i % 2 = 0 then a (n / 2 + i / 2) else b (n / 2 + (i - 1) / 2)) else if i < n / 2 then a (2 * i + k % 2) else b (2 * (i - n / 2) + k % 2)) → False) :=
  fun h => h {} (⟨.i64, 0, ⟨1, false⟩, ⟨2, false⟩, ⟨.w 5, false⟩⟩) sup _ _ _ _ _ _ _ (List.replicate 32 0) ⟨_, rfl, rfl⟩ rfl rfl rfl rfl (by unfold State.acceptsVec; decide) rfl (by decide +kernel)

theorem wit_VectorPermutes_4 : ¬ (∀ (g : Guard) (t : Ty) (rm : Fin 8) (d : Fin 64) (a : VSrc) (s u v : State) (ws : List Word), Enters s (.vmov g ⟨t, rm, .vec d a⟩) g u → u.ready (s.ctx (.vmov g ⟨t, rm, .vec d a⟩)) [vsrcOpr a, .vdst d.val] → u.takeVec a.v.val = (ws, v) → v.acceptsVec d.val → False) :=
  fun h => h {} (.i64) (0) (1) (⟨2, false⟩) sup _ _ _ ⟨_, rfl, rfl⟩ rfl rfl (by unfold State.acceptsVec; decide)

theorem wit_VectorPermutes_5 : ¬ (∀ (g : Guard) (t : Ty) (rm : Fin 8) (d : Name) (a : Src) (s u v : State) (w : Word), Enters s (.vmov g ⟨t, rm, .scl d a⟩) g u → u.ready (s.ctx (.vmov g ⟨t, rm, .scl d a⟩)) [srcOpr a, .dst d] → u.take a.name = (w, v) → v.accepts d → False) :=
  fun h => h {} (.i64) (0) (.w 5) (⟨.w 5, false⟩) sup _ _ _ ⟨_, rfl, rfl⟩ rfl rfl rfl

theorem wit_VectorPermutes_6 : ¬ (∀ (g : Guard) (x : VLdsArgs) (s u v w : State) (ws : List Word) (i : Word), Enters s (.vlds g x) g u → u.ready (s.ctx (.vlds g x)) [vsrcOpr x.a, srcOpr x.b, .dst x.d] → u.takeVec x.a.v.val = (ws, v) → v.take x.b.name = (i, w) → w.accepts x.d → False) :=
  fun h => h {} (⟨.i64, .w 1, ⟨2, false⟩, ⟨.w 5, false⟩⟩) sup _ _ _ _ _ ⟨_, rfl, rfl⟩ rfl rfl rfl rfl

theorem wit_VectorPermutes_7 : ¬ (∀ (g : Guard) (x : VInsArgs) (s u v w y : State) (a i : Word) (old : List Word) (ls : List Nat), Enters s (.vins g x) g u → u.ready (s.ctx (.vins g x)) [srcOpr x.a, srcOpr x.b, .vboth x.d.val] → u.take x.a.name = (a, v) → v.take x.b.name = (i, w) → w.takeVec x.d.val = (old, y) → y.acceptsVec x.d.val → ls.length = (lanesOf x.t old).length → (∀ j, ls.getD j 0 = if j = i.toNat % x.t.lanes ∧ j < (lanesOf x.t old).length then x.t.lane (zext a x.t.width) else (lanesOf x.t old).getD j 0) → False) :=
  fun h => h {} (⟨.i64, 1, ⟨.w 5, false⟩, ⟨.w 3, false⟩⟩) sup _ _ _ _ _ _ _ (List.replicate 32 0) ⟨_, rfl, rfl⟩ rfl rfl rfl rfl (by unfold State.acceptsVec; decide) rfl (fun j => (Nat.lt_or_ge j 32).elim (fun hj => by revert j; decide) (fun hj => by
    rw [if_neg (fun hc => absurd hc.2 (Nat.not_lt.mpr hj)), List.getD_eq_getElem?_getD, List.getElem?_eq_none hj,
      List.getD_eq_getElem?_getD, List.getElem?_eq_none hj]))

theorem wit_MatrixUnitEvents_1 : ¬ (∀ (s : State) (c : MuCmd) (rest : List MuCmd) (acc : Acc) (n : Nat), s.mu.run = none → s.mu.queue = c :: rest → s.mu.saves = [] → c.done = none → c.stop = false → c.sent = none → c.started = false → c.op = .mma acc n → c.fresh = true → c.k0 = 0 → c.r0 = 0 → c.x = none → c.bad = none → (bits (c.desc.getD 3 0) 11 0 = 0 ∨ bits (c.desc.getD 3 0) 63 32 = 0) → False) :=
  fun h => h ((waiting [command (.mma .f 0)])) _ _ _ _ rfl rfl rfl rfl rfl rfl rfl rfl rfl rfl rfl rfl rfl (.inl rfl)

theorem wit_MatrixUnitEvents_2 : ¬ (∀ (s : State) (c : MuCmd) (rest : List MuCmd), s.mu.run = none → s.mu.queue = c :: rest → c.done = none → c.stop = true → c.started = false → False) :=
  fun h => h ((waiting [{ command .mlda with stop := true }])) _ _ rfl rfl rfl rfl rfl

theorem wit_MatrixUnitEvents_5 : ¬ (∀ (s : State) (c : MuCmd) (rest : List MuCmd) (y : State) (bs : List Byte), s.mu.run = none → s.mu.queue = c :: rest → s.mu.saves = [] → c.done = none → c.stop = false → c.sent = none → c.started = false → c.op = .mld → c.r0 = 31 → (startOf s c rest).muRead c 0 (c.desc.getD 0 0 + wd (31 * bits (c.desc.getD 1 0) 31 0)) 128 = .ok (bs, y) → False) :=
  fun h => h ((waiting [{ command .mld [ap, 128] with r0 := 31 }])) _ _ _ _ rfl rfl rfl rfl rfl rfl rfl rfl rfl rfl

theorem wit_MatrixUnitEvents_6 : ¬ (∀ (s y z : State) (c : MuCmd) (i n : Nat) (acc : Acc) (ba : List Byte) (a : Blk) (bl : List (Blk × Nat)), s.mu.run = some c → c.op = .mma acc 0 → c.started = true → c.done = none → c.stop = false → c.sent = none → c.bad = none → c.x = none → n = bits (c.desc.getD 3 0) 11 0 → c.k < n → c.k - c.k0 < c.granted → i < 32 → (∀ r < 32, (c.r0 ≤ r ∧ bits (c.desc.getD 3 0) 63 32 / 2 ^ r % 2 = 1) ↔ r = i) → s.muRead c 0 (c.desc.getD 0 0 + wd (i * bits (c.desc.getD 2 0) 31 0 + 64 * c.k)) 64 = .ok (ba, y) → blkOf ba = some a → (a.t.isInt = true → a.scale = 0x7F) → y.bBlocks c c.kRun ((List.range 32).map fun j => (j, c.k)) = .ok (⟨bl, none⟩, z) → (∀ b ∈ bl, b.1.t.group = a.t.group ∧ (b.1.t.isInt = true → b.1.scale = 0x7F)) → (a.t.isInt = true ↔ acc ≠ .f) → False) :=
  fun h => h ({ working { command (.mma .f 0) [ap, ap, 0, 0x100000001] with started := true, granted := 1 } with mem := { sup.mem with bytes := [(2 ^ 60, 0x10)] } }) _ _ _ (0) (1) (.f) _ _ _ rfl rfl rfl rfl rfl rfl rfl rfl rfl (by decide +kernel) (by decide +kernel) (by decide +kernel) (by decide +kernel) (pair_ok (by decide +kernel)) (Option.some_get (by decide +kernel)).symm (by decide +kernel) (blocks_ok (by decide +kernel) (by decide +kernel)) (by decide +kernel) (by decide +kernel)

theorem wit_MatrixUnitEvents_7 : ¬ (∀ (s : State) (c : MuCmd) (acc : Acc) (g : Nat), s.mu.run = some c → c.op = .mma acc g → c.started = true → c.done = none → c.sent = none → c.bad = none → c.x = none → c.granted ≠ 0 → c.stop = false → bits (c.desc.getD 3 0) 11 0 ≤ c.k → False) :=
  fun h => h ((working { command (.mma .f 0) with started := true, granted := 1 })) _ _ (0) rfl rfl rfl rfl rfl rfl rfl (by decide +kernel) rfl (by decide +kernel)

theorem wit_MatrixUnitEvents_8 : ¬ (∀ (s : State) (c : MuCmd) (acc : Acc) (g : Nat), s.mu.run = some c → c.op = .mma acc g → c.started = true → c.done = none → c.sent = none → c.bad = none → c.x = none → c.granted ≠ 0 → c.stop = true → False) :=
  fun h => h ((working { command (.mma .f 0) with started := true, granted := 1, stop := true })) _ _ (0) rfl rfl rfl rfl rfl rfl rfl (by decide +kernel) rfl

theorem wit_MatrixUnitEvents_9 : ¬ (∀ (s y : State) (c : MuCmd) (tok : Word), s.mu.run = some c → c.done = some tok → c.quiet = false → bits tok 7 0 ≠ cMEMLOST → y = ({ s.endCommand .mu c.id with mu := { s.mu with run := none } }).keepClips c (bit tok 63) → False) :=
  fun h => h ((working { command .mlda with done := some 0x200000000000 })) _ _ _ rfl rfl rfl (by decide +kernel) rfl

theorem wit_MatrixUnitEvents_10 : ¬ (∀ (s : State) (isA : Bool) (bytes : List Byte) (tag : RotTag), (isA, tag.m) ∈ s.mu.late → False) :=
  fun h => h ({ sup with mu := { sup.mu with late := [(true, 1)] } }) (true) ([]) (⟨0, 1⟩) (by decide +kernel)

theorem wit_MatrixUnitEvents_11 : ¬ (∀ (s : State) (isA : Bool) (bytes : List Byte) (tag : RotTag), (isA, tag.m) ∉ s.mu.late → s.mu.run = none → False) :=
  fun h => h sup (true) ([]) (⟨0, 0⟩) (by decide +kernel) rfl

theorem wit_MatrixUnitEvents_12 : ¬ (∀ (s : State) (c : MuCmd) (at_ : Nat) (a b : List Byte), s.mu.run = some c → c.sent = some at_ → c.done = none → c.x = none → (∃ acc, c.op = .mrot acc) → (rotGrid c.rect).1 ≠ 1 → (rotGrid c.rect).2 ≠ 1 → s.mu.late = [] → a.length = 32768 → b.length = 32768 → s.mu.arrived = [RotBuf.mk true a c.rect c.m] → False) :=
  fun h => h ({ working { command (.mrot .f) [0x03000700, 0] with sent := some 0 } with mu := { (working { command (.mrot .f) [0x03000700, 0] with sent := some 0 }).mu with arrived := [⟨true, List.replicate 32768 0, 0x03000700, 0⟩] } }) _ _ (List.replicate 32768 0) (List.replicate 32768 0) rfl rfl rfl rfl ⟨.f, rfl⟩ (by decide +kernel) (by decide +kernel) rfl List.length_replicate List.length_replicate rfl

theorem wit_MatrixUnitEvents_13 : ¬ (∀ (s : State) (c : MuCmd) (at_ k : Nat), s.mu.run = some c → c.sent = some at_ → c.done = none → k = bits (c.desc.getD 1 0) 11 0 → (∃ acc, c.op = .mrot acc) → c.x = none → False) :=
  fun h => h ((working { command (.mrot .f) with sent := some 0 })) _ _ (0) rfl rfl rfl rfl ⟨.f, rfl⟩ rfl

theorem wit_MatrixInstructions_10 : ¬ (∀ (g : Guard) (tile : Fin 4) (s u : State), Enters s (.mzero g tile) g u → plainHandler u → unitIdle u → False) :=
  fun h => h {} (1) sup _ ⟨_, rfl, rfl⟩ (fun hh => absurd hh (by decide)) ⟨rfl, rfl, rfl⟩

theorem wit_MatrixInstructions_11 : ¬ (∀ (g : Guard) (a : Src) (s u v : State) (x : Word), Enters s (.mthr g a) g u → plainHandler u → u.ready (s.ctx (.mthr g a)) [srcOpr a] → u.take a.name = (x, v) → unitIdle v → False) :=
  fun h => h {} (⟨.w 5, false⟩) sup _ _ _ ⟨_, rfl, rfl⟩ (fun hh => absurd hh (by decide)) rfl rfl ⟨rfl, rfl, rfl⟩

theorem wit_MatrixInstructions_12 : ¬ (∀ p ∈ matrixReads, ∀ (g : Guard) (x : MrdArgs) (s u : State), x.sel.toNat = p.1 → Enters s (.mrd g x) g u → plainHandler u → u.ready (s.ctx (.mrd g x)) [.dst x.d] → unitIdle u → u.accepts x.d → False) :=
  fun h => h _ (.head _) {} (⟨.w 1, 0⟩) sup _ rfl ⟨_, rfl, rfl⟩ (fun hh => absurd hh (by decide)) rfl ⟨rfl, rfl, rfl⟩ rfl

theorem wit_MatrixInstructions_13 : ¬ (∀ (g : Guard) (x : TokPlain) (s u v w y : State) (ws : List Word) (old : Word), Enters s (.msave g x) g u → plainHandler u → u.ready (s.ctx (.msave g x)) [runOpr x.a 1, .both x.tok] → u.takeRun x.a.first 1 = (ws, v) → v.take x.tok = (old, w) → 256 ∣ (ws.getD 0 0).toNat → w.bound (w.phys x.tok.num) = false → w.release 1 = .ok y → False) :=
  fun h => h {} (⟨.w 1, ⟨.w 6, false⟩⟩) sup _ _ _ _ _ _ ⟨_, rfl, rfl⟩ (fun hh => absurd hh (by decide)) rfl rfl rfl (by decide +kernel) rfl rfl

theorem wit_MatrixInstructions_14 : ¬ (∀ (g : Guard) (x : TokPlain) (s u v w y : State) (ws : List Word) (old : Word), Enters s (.msaveRst g x) g u → plainHandler u → u.ready (s.ctx (.msaveRst g x)) [runOpr x.a 1, .both x.tok] → u.takeRun x.a.first 1 = (ws, v) → v.take x.tok = (old, w) → 256 ∣ (ws.getD 0 0).toNat → w.bound (w.phys x.tok.num) = false → unitIdle w → w.release 1 = .ok y → False) :=
  fun h => h {} (⟨.w 1, ⟨.w 6, false⟩⟩) sup _ _ _ _ _ _ ⟨_, rfl, rfl⟩ (fun hh => absurd hh (by decide)) rfl rfl rfl (by decide +kernel) rfl ⟨rfl, rfl, rfl⟩ rfl

theorem wit_MatrixInstructions_15 : ¬ (∀ (g : Guard) (x : CutRead) (s u v : State) (ws : List Word) (n : Nat), Enters s (.dsscutRead g x) g u → plainHandler u → u.ready (s.ctx (.dsscutRead g x)) [runOpr x.a 1, .dst x.d] → u.takeRun x.a.first 1 = (ws, v) → bits (ws.getD 0 0) 63 4 = 0 → n = (ws.getD 0 0).toNat → unitIdle v → v.accepts x.d → False) :=
  fun h => h {} (⟨.w 1, ⟨.w 6, false⟩⟩) sup _ _ _ _ ⟨_, rfl, rfl⟩ (fun hh => absurd hh (by decide)) rfl rfl rfl rfl ⟨rfl, rfl, rfl⟩ rfl

theorem wit_MatrixInstructions_16 : ¬ (∀ (g : Guard) (a : Run) (s u v : State) (ws : List Word) (n : Nat), Enters s (.dsscutUnimpose g a) g u → plainHandler u → u.ready (s.ctx (.dsscutUnimpose g a)) [runOpr a 1] → u.takeRun a.first 1 = (ws, v) → bits (ws.getD 0 0) 63 4 = 0 → n = (ws.getD 0 0).toNat → unitIdle v → False) :=
  fun h => h {} (⟨.w 6, false⟩) sup _ _ _ _ ⟨_, rfl, rfl⟩ (fun hh => absurd hh (by decide)) rfl rfl rfl rfl ⟨rfl, rfl, rfl⟩

theorem wit_CoreEvents_1 : ¬ (∀ p ∈ [(0, Kind.read), (1, .write), (2, .exec), (3, .atomic)], ∀ (s t : State) (va : Word) (l : Loc), s.translate s.who p.2 va = .ok (l, t) → False) :=
  fun h => h _ (.head _) sup _ (ap) _ rfl

theorem wit_CoreEvents_2 : ¬ (∀ p ∈ [(0, Kind.read), (1, .write), (2, .exec), (3, .atomic)], ∀ (s t : State) (va : Word) (l : Loc), ∀ c d n, s.translate s.who p.2 va = .error (.fault c d n) → False) :=
  fun h => h _ (.head _) sup (sup) (0) ({ what := .memory, key := 0 }) _ _ _ rfl

theorem wit_CoreEvents_3 : ¬ (∀ p ∈ [(0, Kind.read), (1, .write), (2, .exec), (3, .atomic)], ∀ (s t : State) (va : Word) (l : Loc), ∀ n, n < 2 ^ 64 → s.pulling n = false → s.translate s.who p.2 va = .error (.absent n) → False) :=
  fun h => h _ (.head _) (pulled) (sup) (0x200000) ({ what := .memory, key := 0 }) (0x20) (by decide +kernel) (by decide) (is_miss (by decide +kernel))

theorem wit_CoreEvents_4 : ¬ (∀ (s : State) (k p : Nat) (b : Bind) (v : Option Word), (s.core.binds.filter fun b => b.vals.isSome)[k]? = some b → b.queue = none → b.words = [p] → b.vals = some [v] → b.width = none → False) :=
  fun h => h ({ sup with core := { sup.core with binds := [{ id := 0, words := [9], vals := some [some 7] }] } }) (0) _ _ _ rfl rfl rfl rfl rfl

theorem wit_CoreEvents_5 : ¬ (∀ (s : State), s.mode < 2 → s.regs.tbudget = 0 → s.sched.task.isSome = true → ¬ (delegates s cBUDGET ∧ s.grace = false) → 1 ≤ bits s.regs.twin 23 13 → False) :=
  fun h => h (usr) (by decide +kernel) rfl rfl (fun hd => absurd hd.1.2.1 (by decide)) (by decide +kernel)

theorem wit_CoreEvents_6 : ¬ (∀ (s : State), s.regs.tbudget = 0 → s.sched.task.isSome = true → delegates s cBUDGET → s.grace = false → False) :=
  fun h => h ({ usr with regs := { usr.regs with utwin := 0x40000, tdeleg := 0xFFFFFFFFFFFFFFFF } }) rfl rfl ⟨rfl, by decide, by decide, by decide⟩ rfl

theorem wit_CoreEvents_7 : ¬ (∀ (s : State) (w : Wait) (nxt wr : Bool), s.core.wait = some w → w.on = .ring nxt wr → 7 ≤ s.core.ringWaiters → False) :=
  fun h => h ({ stopped sup (.ring true true) 0 with core := { (stopped sup (.ring true true) 0).core with ringWaiters := 7 } }) _ _ _ rfl rfl (by decide +kernel)

theorem wit_CoreEvents_8 : ¬ (∀ (s : State) (w : Wait) (nxt wr : Bool), s.core.wait = some w → w.on = .ring nxt wr → ∀ t, s.core.ringWaiters < 7 → (if nxt then s.core.ringIdle.1 else s.core.ringIdle.2) = some t → max w.since t + 65536 ≤ s.cyc → False) :=
  fun h => h ((stopped sup (.ring true true) 65536)) _ _ _ rfl rfl _ (by decide +kernel) (show (_ : Option Nat) = _ from rfl) (by decide +kernel)

theorem wit_CoreEvents_9 : ¬ (∀ (s : State) (d phys : Nat), s.core.machine = [] → s.sched.task.isSome = true → s.sys.halted = false → 1 ≤ bits s.regs.twin 23 13 → False) :=
  fun h => h (usr) (0) (0) rfl rfl rfl (by decide +kernel)

theorem wit_CoreEvents_10 : ¬ (∀ (s : State) (d phys : Nat), s.sched.task = none ∨ s.sys.halted = true → False) :=
  fun h => h sup (0) (0) (by decide +kernel)

theorem wit_CoreEvents_13 : ¬ (∀ (s : State), s.core.region = {} → False) :=
  fun h => h sup rfl

theorem wit_CoreEvents_14 : ¬ (∀ (s : State), s.core.region ≠ {} → False) :=
  fun h => h ({ sup with core := { sup.core with region := { lines := [0] } } }) (by decide +kernel)

theorem wit_WaitEvents_1 : ¬ (∀ (s : State) (w : Wait) (u : Word), s.core.wait = some w → w.on = .sleep u → u.toNat ≤ s.cyc → False) :=
  fun h => h ((stopped sup (.sleep 5) 5)) _ _ rfl rfl (by decide +kernel)

theorem wit_WaitEvents_2 : ¬ (∀ (s : State) (w : Wait) (u : Word) (p : Nat), s.core.wait = some w → w.on = .sleepProm u p → u.toNat ≤ s.cyc → False) :=
  fun h => h ((stopped sup (.sleepProm 5 0) 5)) _ _ _ rfl rfl (by decide +kernel)

theorem wit_WaitEvents_3 : ¬ (∀ (s : State) (w : Wait) (key : Nat) (t : Task), s.core.wait = some w → w.on = .line key → w.hit = false → w.since + 64 * bits s.regs.wlctl 15 0 ≤ s.cyc → s.sched.task = some t → s.mode ≠ 0 → False) :=
  fun h => h ((stopped { sup with sched := { task := some job } } (.line 0) 2048)) _ _ _ rfl rfl rfl (by decide +kernel) rfl (by decide +kernel)

theorem wit_WaitEvents_4 : ¬ (∀ (s : State) (w : Wait) (key : Nat), s.core.wait = some w → w.on = .line key → w.hit = true → False) :=
  fun h => h ({ sup with core := { sup.core with wait := some ⟨.line 0, 0, true⟩ } }) _ _ rfl rfl rfl

theorem wit_WaitEvents_5 : ¬ (∀ (s : State) (w : Wait) (key : Nat) (t : Task) (inRing : Bool) (place : Nat), s.core.wait = some w → w.on = .line key → w.hit = false → w.since + 64 * bits s.regs.wlctl 15 0 ≤ s.cyc → s.sched.task = some t → s.mode = 0 → s.queuesLive = false → bit s.regs.frmode 63 = false → s.regs.wl ≤ classSize t.cls → s.poolFull t.cls = false → drainedWindows s t → s.parkPlace s.regs.wl = some (inRing, place) → False) :=
  fun h => h ((stopped { usr with regs := { usr.regs with wl := 32 } } (.line 0) 2048)) _ _ _ _ _ rfl rfl rfl (by decide +kernel) rfl rfl rfl rfl (by decide +kernel) rfl (by unfold drainedWindows; decide) rfl

theorem wit_WaitEvents_6 : ¬ (∀ (s : State) (k : Nat) (p : Parked), (lineTasks s)[k]? = some p → p.hit = true → False) :=
  fun h => h ({ sup with sched := { sup.sched with parked := [parkedOn (.line 0 0) true] } }) (0) _ rfl rfl

theorem wit_WaitEvents_7 : ¬ (∀ (s : State) (k : Nat) (p : Parked), (lineTasks s)[k]? = some p → ∀ key t, p.on = .line key t ∨ p.on = .timer t → t + 65536 ≤ s.cyc → False) :=
  fun h => h ({ sup with cyc := 65536, sched := { sup.sched with parked := [parkedOn (.timer 0) false] } }) (0) _ rfl (0) (0) (.inr rfl) (by decide +kernel)

theorem wit_ChannelEvents_1 : ¬ (∀ (s : State) (c k core : Nat) (v : Word), ¬ 64 ∣ v.toNat → False) :=
  fun h => h sup (0) (0) (0) (1) (by decide +kernel)

theorem wit_ChannelEvents_2 : ¬ (∀ (s : State) (c k core : Nat) (v : Word), 64 ∣ v.toNat → (channel s c k).kicks.length < 8 → bit (channel s c k).cfg 63 = true → False) :=
  fun h => h ({ sup with eng := { sup.eng with chans := [(0, { cfg := 0x8000000000000000 })] } }) (0) (0) (0) (64) (by decide +kernel) (by decide +kernel) rfl

theorem wit_ChannelEvents_3 : ¬ (∀ (s : State) (c k core : Nat) (v : Word), 64 ∣ v.toNat → (channel s c k).kicks.length < 8 → bit (channel s c k).cfg 63 = false → False) :=
  fun h => h sup (0) (0) (0) (64) (by decide +kernel) (by decide +kernel) rfl

theorem wit_ChannelEvents_4 : ¬ (∀ (s : State) (c k core : Nat) (v : Word), 64 ∣ v.toNat → 8 ≤ (channel s c k).kicks.length → False) :=
  fun h => h ({ sup with eng := { sup.eng with chans := [(0, { kicks := List.replicate 8 ⟨0, none, 0, 0⟩ })] } }) (0) (0) (0) (64) (by decide +kernel) (by decide +kernel)

theorem wit_ChannelEvents_5 : ¬ (∀ (s : State) (c k : Nat) (v cfg : Word), cfg = wd (fld (bit v 63).toNat 63 + fld (bits v 34 32) 32 + fld (s.regs.asid % 65536) 16) → bit v 63 = false → False) :=
  fun h => h sup (0) (0) (0) _ rfl rfl

theorem wit_ChannelEvents_6 : ¬ (∀ (s : State) (c k : Nat) (v cfg : Word), cfg = wd (fld (bit v 63).toNat 63 + fld (bits v 34 32) 32 + fld (s.regs.asid % 65536) 16) → bit v 63 = true → (channel s c k).walk = 0 → bit (channel s c k).cfg 63 = false → False) :=
  fun h => h sup (0) (0) (0x8000000000000000) _ rfl rfl (by decide +kernel) rfl

theorem wit_ChannelEvents_7 : ¬ (∀ (s : State) (c k : Nat) (v : Word), bit v 62 = true → bit v 61 = false → (channel s c k).halt = true → False) :=
  fun h => h ({ sup with eng := { sup.eng with chans := [(0, { halt := true })] } }) (0) (0) (0x4000000000000000) rfl rfl (by decide +kernel)

theorem wit_ChannelEvents_8 : ¬ (∀ (s : State) (c k : Nat) (v : Word), mget 0 (channel s c k).frees (bits v 3 0) < mget 0 (channel s c k).receivers (bits v 3 0) → False) :=
  fun h => h ({ sup with eng := { sup.eng with chans := [(0, { receivers := [(2, 1)] })] } }) (0) (0) (2) (by decide +kernel)

theorem wit_ChannelEvents_9 : ¬ (∀ (s y z : State) (c k id e : Nat) (who : Who) (bs : List Byte) (x : Chan), x = channel s c k → k < 16 → bit x.cfg 63 = true → x.halt = false → x.walk ≠ 0 → x.waiting = none → s.dieOf c = s.die → who = channelWho c x → e = 2 ^ 40 + (16 * c + k) → (recordOpen (withChannel s c k x).selfInvalidate c k).engineRead .ce e who x.walk 64 15 false true = .ok (bs, y) → bit (wordOf ((bs.drop 56).take 8)) 0 = false → False) :=
  fun h => h ({ sup with eng := { sup.eng with chans := [(0, { cfg := 0x8000000000000000, walk := ap, sup := true })] } }) _ (sup) (0) (0) (0) _ _ _ _ rfl (by decide +kernel) rfl rfl (by decide +kernel) rfl rfl rfl rfl (pair_ok (by decide +kernel)) rfl

theorem wit_ChannelEvents_10 : ¬ (∀ (s y z : State) (c k id e : Nat) (who : Who) (bs : List Byte) (x : Chan), x = channel s c k → k < 16 → bit x.cfg 63 = true → x.halt = false → x.walk ≠ 0 → x.waiting = none → s.dieOf c = s.die → who = channelWho c x → e = 2 ^ 40 + (16 * c + k) → (recordOpen (withChannel s c k x).selfInvalidate c k).engineRead .ce e who x.walk 64 15 false true = .ok (bs, y) → bit (wordOf ((bs.drop 56).take 8)) 0 = true → id = x.nextid % 2 ^ 48 → y.engineWrite .ce e who (x.walk + 48) (wordBytes (wd id)) 15 = .ok z → False) :=
  fun h => h ({ sup with mem := { sup.mem with bytes := [(2 ^ 60 + 56, 1)] }, eng := { sup.eng with chans := [(0, { cfg := 0x8000000000000000, walk := ap, sup := true })] } }) _ _ (0) (0) _ _ _ _ _ rfl (by decide +kernel) rfl rfl (by decide +kernel) rfl rfl rfl rfl (pair_ok (by decide +kernel)) rfl rfl (value_ok (by decide +kernel))

theorem wit_ChannelEvents_11 : ¬ (∀ (s y1 y2 y3 y4 y5 : State) (c k id width e : Nat) (who : Who) (bs data : List Byte) (r : XRec) (x : Chan), x = channel s c k → k < 16 → x.halt = false → x.walk ≠ 0 → x.waiting = some (id, bs) → s.dieOf c = s.die → who = channelWho c x → e = 2 ^ 40 + (16 * c + k) → r = xrecOf bs → r.formOk = true → r.multi = false → r.bar = 0 → (withChannel s c k x).engineRead .ce e who r.src r.len r.nud = .ok (data, y1) → y1.engineWrite .ce e who r.dst data r.nud = .ok y2 → width = (if 1 ≤ bits x.cfg 34 32 ∧ bits x.cfg 34 32 ≤ 5 then bits x.cfg 34 32 - 1 else 4) → (∀ w ∈ y2.eng.lostWrites, w.1 ≠ y2.engHart .ce e) → y3 = releaseAt width (linkDone (releaseAt width y2) .ce e width) → y3.engineWrite .ce e who (x.walk + 56) (wordBytes (wd (fld data.length 32))) 15 false true = .ok y4 → channel y4 c k = x → (chanMails x who (x.walk + 56) y4).engineWrite .ce e who x.cidaddr (wordBytes (wd id)) 15 false true = .ok y5 → channel y5 c k = x → False) :=
  fun h => h ({ sup with eng := { sup.eng with chans := [(0, { cfg := 0x8000000000000000, walk := ap, sup := true, cidaddr := ap, waiting := some (0, oneByte) })] } }) _ _ _ _ _ (0) (0) (0) _ _ _ (oneByte) _ _ _ rfl (by decide +kernel) rfl (by decide +kernel) rfl rfl rfl rfl rfl (by decide +kernel) (by decide +kernel) (by decide +kernel) (pair_ok (by decide +kernel)) (value_ok (by decide +kernel)) rfl (by decide +kernel) rfl (value_ok (by decide +kernel)) (by decide +kernel) (value_ok (by decide +kernel)) (by decide +kernel)

theorem wit_ChannelEvents_12 : ¬ (∀ (s : State) (c k : Nat), k < 16 → (channel s c k).halt = true ∨ (bit (channel s c k).cfg 63 = false ∧ (channel s c k).waiting = none) → False) :=
  fun h => h sup (0) (0) (by decide +kernel) (.inr ⟨rfl, rfl⟩)

theorem wit_CopyEngineEvents_1 : ¬ (∀ (s t : State) (a : Acopy) (bs : List Byte), s.eng.acopy.find? (fun a => !a.accepted) = some a → a.len ≠ 0 → (s.selfInvalidate.addOther (party s .ce a.id)).engineRead .ce a.id (copyWho s a) a.src a.len a.nud = .ok (bs, t) → False) :=
  fun h => h ({ sup with eng := { sup.eng with acopy := [{ id := 0, src := ap, dst := ap, len := 8, bar := 0, nud := 15, scope := 0, asid := 0, sup := true }] } }) _ _ _ rfl (by decide +kernel) rfl

theorem wit_CopyEngineEvents_2 : ¬ (∀ (s t : State) (a : Acopy), s.eng.acopy.find? (fun a => a.accepted) = some a → a.fault = none → a.bar = 0 → s.engineWrite .ce a.id (copyWho s a) a.dst a.data a.nud = .ok t → (∀ w ∈ t.eng.lostWrites, w.1 ≠ t.engHart .ce a.id) → False) :=
  fun h => h ({ sup with eng := { sup.eng with acopy := [{ id := 0, src := ap, dst := ap, len := 1, bar := 0, nud := 15, scope := 0, asid := 0, sup := true, accepted := true, data := [7] }] } }) _ _ rfl rfl rfl rfl (by decide +kernel)

theorem wit_CopyEngineEvents_3 : ¬ (∀ (s : State) (a : Acopy) (st : Word), s.eng.acopy.find? (fun a => a.accepted) = some a → a.fault = some st → bits st 31 24 ≠ cMEMLOST → st ≠ 0 → (∀ w ∈ s.eng.lostWrites, w.1 ≠ s.engHart .ce a.id) → False) :=
  fun h => h ({ sup with eng := { sup.eng with acopy := [{ id := 0, src := ap, dst := ap, len := 1, bar := 0, nud := 15, scope := 0, asid := 0, sup := true, accepted := true, fault := some 0x01000000 }] } }) _ (0x01000000) rfl rfl (by decide +kernel) (by decide +kernel) (by decide +kernel)

theorem wit_CopyEngineEvents_4 : ¬ (∀ (s y : State) (g : Gather) (l : Lane), s.eng.gather.find? (fun g => !g.served) = some g → g.lanes = [l] → l.fault = none → g.next = 0 → (s.addOther (party s .gather g.id)).serveLane g 0 l = .ok y → False) :=
  fun h => h ({ sup with eng := { sup.eng with gather := [{ id := 0, scatter := false, nud := 15, size := 4, off := 0, lanes := [{ va := ap, key := 2 ^ 59 }] }] } }) _ _ _ rfl rfl rfl rfl rfl

theorem wit_CopyEngineEvents_5 : ¬ (∀ (s t : State) (g : Gather) (st : Word), s.eng.gather.find? (fun g => g.served) = some g → g.status / 2 ^ 24 % 256 ≠ cMEMLOST → (∀ w ∈ s.eng.lostWrites, w.1 ≠ s.engHart .gather g.id) → st = wd (if g.status = 0 then (if g.scatter then 2 ^ 18 else 0) else g.status) → t = ((linkDone s .gather g.id g.width).endCommand .gather g.id).fillToken g.id [wd g.mask, st] → False) :=
  fun h => h ({ sup with eng := { sup.eng with gather := [{ id := 0, scatter := false, nud := 15, size := 4, off := 0, lanes := [], served := true }] } }) _ _ _ rfl (by decide +kernel) (by decide +kernel) rfl rfl

theorem wit_IoEvents_1 : ¬ (∀ (s y : State) (r q : IoReq) (ps : List Piece), s.eng.io.find? (fun r => !r.accepted) = some r → r.kind = 0 ∨ r.kind = 3 → s.enginePieces (ioWho r) .write (r.desc.getD 3 0) 32 = .ok (ps, y) → (∀ p ∈ ps, p.loc.what = .memory ∧ p.loc.mt = 0) → q = { r with accepted := true, seq := y.eng.ioSeq % 2 ^ 48, since := y.cyc } → False) :=
  fun h => h ((mapped (asking (request 0 false 0x200000)) [])) _ _ _ _ rfl (.inl rfl) (pair_ok (by decide +kernel)) (by decide +kernel) rfl

theorem wit_IoEvents_2 : ¬ (∀ (s t y : State) (r : IoReq) (seq : Nat) (x : IoAnswer), s.eng.io.find? (fun r => r.accepted && r.seq = seq) = some r → r.kind = 0 → x.status = 0 → s.engineWrite .io r.id (ioWho r) (r.desc.getD 0 0) ((List.range (bits (r.desc.getD 1 0) 31 0)).map fun j => x.data.getD j 0) r.nud s.unitsFar = .ok y → recorded y t r (bits (r.desc.getD 1 0) 31 0) (bits x.info 15 0) 0 → False) :=
  fun h => h ((asking (request 0 true ap))) _ _ _ (1) ({ done := 16, status := 0, info := 0, data := [] }) rfl rfl rfl (value_ok (by decide +kernel)) ⟨_, _, _, _, rfl, (by decide), rfl, (value_ok (by decide +kernel)), (value_ok (by decide +kernel)), rfl⟩

theorem wit_IoEvents_3 : ¬ (∀ (s t : State) (r : IoReq) (seq : Nat) (x : IoAnswer), s.eng.io.find? (fun r => r.accepted && r.seq = seq) = some r → r.kind = 1 → x.status = 0 → recorded s t r (bits (r.desc.getD 1 0) 31 0) (bits x.info 15 0) 0 → False) :=
  fun h => h ((asking (request 1 true ap))) _ _ (1) ({ done := 16, status := 0, info := 0, data := [] }) rfl rfl rfl ⟨_, _, _, _, rfl, (by decide), rfl, (value_ok (by decide +kernel)), (value_ok (by decide +kernel)), rfl⟩

theorem wit_IoEvents_4 : ¬ (∀ (s t : State) (r : IoReq) (seq : Nat) (x : IoAnswer), s.eng.io.find? (fun r => r.accepted && r.seq = seq) = some r → r.kind = 1 → x.status = 2 → recorded s t r 0 (bits x.info 15 0) 2 → False) :=
  fun h => h ((asking (request 1 true ap))) _ _ (1) ({ done := 16, status := 2, info := 0, data := [] }) rfl rfl rfl ⟨_, _, _, _, rfl, (by decide), rfl, (value_ok (by decide +kernel)), (value_ok (by decide +kernel)), rfl⟩

theorem wit_IoEvents_5 : ¬ (∀ (s t : State) (r : IoReq) (seq : Nat), s.eng.io.find? (fun r => r.accepted && r.seq = seq) = some r → r.kind = 1 → r.accepted = true → r.since + 2 ^ 32 ≤ s.cyc → recorded s t r 0 0 3 → False) :=
  fun h => h ({ asking (request 1 true ap) with cyc := 2 ^ 32 }) _ _ (1) rfl rfl rfl (by decide +kernel) ⟨_, _, _, _, rfl, (by decide), rfl, (value_ok (by decide +kernel)), (value_ok (by decide +kernel)), rfl⟩

theorem wit_IoEvents_6 : ¬ (∀ (s t y : State) (r : IoReq) (q : Nat) (bytes : List Byte), s.eng.io.find? (fun r => r.accepted && r.kind = 3 && bits (r.desc.getD 2 0) 5 0 = q) = some r → bytes.length ≤ bits (r.desc.getD 1 0) 31 0 → bytes.length < 65536 → s.engineWrite .io r.id (ioWho r) (r.desc.getD 0 0) bytes r.nud s.unitsFar = .ok y → recorded y t r bytes.length bytes.length 0 → False) :=
  fun h => h ((asking (request 3 true ap))) _ _ _ (0) ([1, 2]) rfl (by decide +kernel) (by decide +kernel) rfl ⟨_, _, _, _, rfl, (by decide), rfl, (value_ok (by decide +kernel)), (value_ok (by decide +kernel)), rfl⟩

theorem wit_IoEvents_7 : ¬ (∀ (s : State) (q : Nat) (bytes : List Byte) (bad : Bool), s.eng.io.find? (fun r => r.accepted && r.kind = 3 && bits (r.desc.getD 2 0) 5 0 = q) = none → False) :=
  fun h => h sup (0) ([]) (false) rfl

theorem wit_CollectiveEvents_2 : ¬ (∀ (s x y z u : State) (k : CollKick) (rest : List CollKick) (data : List (Nat × List Byte)) (fabric st : Nat) (bs : List Byte) (who : Who), s.sched.collKicks = k :: rest → 64 ∣ k.va.toNat → who = { asid := k.asid, sup := true, via := .die 0 } → x = (unitAcquired s).addOther (party s .collective 0) → x.engineRead .collective 0 who k.va 64 15 x.unitsFar true = .ok (bs, y) → (match y.collRead who (fun k => wordOf ((bs.drop (8 * k)).take 8)) fabric with | .ok ((group, own), v) => (match (v.post (.collective group own)).collWrite who (fun k => wordOf ((bs.drop (8 * k)).take 8)) group own data with | .ok w => st = 0 ∧ z = w | .error (.status n) => st = n ∧ z = v.post (.collective group own) | .error (.absent _) => False) | .error (.status n) => st = n ∧ z = y | .error (.absent _) => False) → st ≠ 3 → (unitReleased 4 z).engineWrite .collective 0 who (k.va + 56) (wordBytes (wd (fld 1 63 + st))) 15 (unitReleased 4 z).unitsFar true = .ok u → False) :=
  fun h => h ({ sup with sched := { sup.sched with collKicks := [⟨ap, 0, none, 0⟩] } }) _ _ _ _ (⟨ap, 0, none, 0⟩) _ ([]) (0) (1) _ _ rfl (by decide +kernel) rfl rfl (pair_ok (by decide +kernel)) (show _ ∧ _ from ⟨rfl, rfl⟩) (by decide +kernel) (value_ok (by decide +kernel))

theorem wit_CollectiveEvents_3 : ¬ (∀ (s : State) (w : Nat → Word) (who : Who) (fabric : Nat), 2 ≤ bits (w 0) 63 60 ∨ bits (w 3) 63 48 = 0 ∨ w 6 ≠ 0 → False) :=
  fun h => h sup (fun _ => 0) (sup.who) (0) (.inr (.inl rfl))

theorem wit_DispatchEvents_1 : ¬ (∀ (s : State) (x : Delivery) (h : Head) (e : PoolEntry) (es : List PoolEntry), s.sched.flying = [] → s.sched.held = [] → s.sched.spilled = [] → bit s.regs.frmode 63 = false → s.readHead x.ctx x.r.w0 = .ok h → h.high = false → s.sched.inbox.length < 128 → mget [] s.sched.pools (h.cls % 4) = e :: es → (s.opt.domain = none ∨ s.sched.domqPassed = false ∨ es ≠ []) → False) :=
  fun h => h ((served [(1, [⟨64, 0⟩])])) (message) _ (⟨64, 0⟩) ([]) rfl rfl rfl rfl (head_ok (by decide +kernel)) (by decide +kernel) (by decide +kernel) (by decide +kernel) (by decide +kernel)

theorem wit_DispatchEvents_2 : ¬ (∀ (s : State) (x : Delivery) (h : Head), s.sched.flying = [] → s.sched.held = [] → s.sched.spilled = [] → bit s.regs.frmode 63 = false → s.readHead x.ctx x.r.w0 = .ok h → h.high = false → mget [] s.sched.pools (h.cls % 4) = [] → ∀ k y, (s.headSeen x.ctx x.r.w0).ringSlot = some k → y = (s.headSeen x.ctx x.r.w0).writeRing k x.r.words → False) :=
  fun h => h ((served [])) (message) _ rfl rfl rfl rfl (head_ok (by decide +kernel)) (by decide +kernel) (by decide +kernel) (0) _ (by decide +kernel) rfl

theorem wit_DispatchEvents_3 : ¬ (∀ (s : State) (x : Delivery) (h : Head), s.sched.flying = [] → s.sched.held = [] → s.sched.spilled = [] → bit s.regs.frmode 63 = false → s.readHead x.ctx x.r.w0 = .ok h → h.high = false → mget [] s.sched.pools (h.cls % 4) = [] → ∀ y, (s.headSeen x.ctx x.r.w0).ringSlot = none → y = (s.headSeen x.ctx x.r.w0).pullRing 1 → False) :=
  fun h => h ({ served [] with sched := { (served []).sched with parked := [{ parkedOn .yield false with inRing := true, words := List.replicate 600 .empty }] } }) (message) _ rfl rfl rfl rfl (head_ok (by decide +kernel)) (by decide +kernel) (by decide +kernel) _ (by decide +kernel) rfl

theorem wit_DispatchEvents_4 : ¬ (∀ (s : State) (a : Arrived), s.sched.held = [a] → s.lateEntry = none → a.d.key = none → False) :=
  fun h => h ({ sup with sched := { sup.sched with held := [{ d := message }] } }) _ rfl rfl rfl

theorem wit_DispatchEvents_5 : ¬ (∀ (s : State) (a : Arrived) (k : Key), s.sched.held = [a] → s.lateEntry = none → a.d.key = some k → s.mode ≠ 2 → False) :=
  fun h => h ({ usr with sched := { usr.sched with held := [{ d := { message with key := some ⟨1, 0⟩ } }] } }) _ _ rfl rfl rfl (by decide +kernel)

theorem wit_DispatchEvents_6 : ¬ (∀ (s v : State) (a : Arrived) (rest : List Arrived) (e : PoolEntry) (h : Head), s.sched.task = none → bit (mget 0 s.sched.preempt s.core.number) 0 = false → s.sched.high = [] → bit s.regs.frmode 63 = false → s.sched.resume = [] → s.sched.spilled = [] → s.opt.domain = none → s.sched.inbox = a :: rest → a.window = some e → a.d.key = none → a.cls < 4 → v = { s with sched := { s.sched with inbox := rest.filter fun b => b.seq ≠ a.seq } } → s.readHead a.d.ctx a.d.r.w0 = .ok h → v.readHead a.d.ctx a.d.r.w0 = .ok h → h.optimistic = false → h.spans a.d.r = [] → False) :=
  fun h => h ({ served [] with sched := { (served []).sched with inbox := [{ d := message, window := some ⟨64, 0⟩, cls := 1 }] } }) _ _ _ _ _ rfl rfl rfl rfl rfl rfl rfl rfl rfl rfl (by decide +kernel) rfl (head_ok (by decide +kernel)) (by decide +kernel) (by decide +kernel) (by decide +kernel)

theorem wit_DispatchEvents_7 : ¬ (∀ (s : State), s.sched.task = none → s.sched.low = none → bit (mget 0 s.sched.preempt s.core.number) 0 = true → False) :=
  fun h => h ({ sup with sched := { sup.sched with preempt := [(0, 1)] } }) rfl rfl rfl

theorem wit_DispatchEvents_8 : ¬ (∀ (s : State), s.sched.task = none → s.work = none → (s.sched.resume.any fun r => r.hold) = true → s.core.freeSince + 4096 ≤ s.cyc → False) :=
  fun h => h ({ sup with cyc := 4096, sched := { sup.sched with resume := [{ p := parkedOn .yield false, hold := true }] } }) rfl rfl rfl (by decide +kernel)

theorem wit_DispatchEvents_9 : ¬ (∀ (s : State) (t : Nat), s.sched.stealWait = some t → t ≤ s.cyc → False) :=
  fun h => h ({ sup with sched := { sup.sched with stealWait := some 0 } }) _ rfl (by decide +kernel)

theorem wit_DispatchEvents_10 : ¬ (∀ (s u x y v : State) (t : Task) (off : Nat) (va : Word) (n : Nat) (rest : List (Nat × Word × Nat)) (ps : List Piece) (bs : List Byte), s.sched.task = some t → t.placing = (off, va, n) :: rest → s.openPieces { asid := s.regs.asid, sup := false, noDev := true, via := .cluster (clusterOf s.core.number) } .read va n n false = .ok (ps, u) → (s.optimistic = false ∨ ∀ p ∈ ps, p.loc.what ≠ .store) → u.meetNone .read va ps false = .ok () → u.record ps true false false true = .ok x → x.readPieces 15 .die true ps = (bs, none, y) → v = y.writeHome (storeKey y.core.number off) bs → False) :=
  fun h => h ({ sup with sched := { sup.sched with task := some { job with placing := [(0, ap, 8)] } } }) _ _ _ _ _ _ _ _ _ _ _ rfl rfl rfl (by decide +kernel) rfl rfl rfl rfl

theorem wit_SchedulerRegisterEvents_1 : ¬ (∀ (s : State) (q : Nat) (v : Word) (x : LQueue), x = mget {} s.sched.queues q → x.size < (bits v 31 0 + 2 ^ 32 - x.head) % 2 ^ 32 → False) :=
  fun h => h sup (0) (17) _ rfl (by decide +kernel)

theorem wit_SchedulerRegisterEvents_2 : ¬ (∀ (s : State) (q : Nat) (v : Word) (x : LQueue), x = mget {} s.sched.queues q → (bits v 31 0 + 2 ^ 32 - x.head) % 2 ^ 32 ≤ x.size → False) :=
  fun h => h sup (0) (16) _ rfl (by decide +kernel)

theorem wit_SchedulerRegisterEvents_3 : ¬ (∀ (s : State) (v : Word), bit v 0 = false → mwf 0 s.sched.preempt = true → False) :=
  fun h => h sup (0) rfl rfl

theorem wit_SchedulerRegisterEvents_4 : ¬ (∀ (s : State) (v : Word), bit v 0 = true → bit (mget 0 s.sched.preempt s.core.number) 63 = false → s.sched.task.isSome = true → False) :=
  fun h => h (usr) (1) rfl rfl rfl

theorem wit_SchedulerRegisterEvents_7 : ¬ (∀ (s u : State) (q : Nat) (l : Launch) (r : Nat × Rec), s.endingLaunch q = none → s.rootQueue = some q → s.rootLaunch q = some l → l.roots = [r] → u = s.updLaunch l.lnid (fun l => { l with roots := l.roots.drop (max 1 (bits (mget {} s.sched.queues q).cfg 3 0)) }) → False) :=
  fun h => h ({ sup with sched := { sup.sched with launches := [{ lnid := 1, q := 0, pa := 0, started := true, roots := [(0, {})] }] } }) _ (0) _ _ rfl rfl rfl rfl rfl

theorem wit_SchedulerRegisterEvents_8 : ¬ (∀ (s y : State) (q : Nat) (l : Launch) (ws : List Word) (roots : List (Nat × Rec)), s.endingLaunch q = none → s.rootQueue ≠ some q → s.readingLaunch q = some l → l.reading = some ws → s.readRoots (fun k => ws.getD k 0) = .ok (.ok (roots, y)) → y.eventPull (bits (ws.getD 7 0) 63 48) (bits (ws.getD 7 0) 47 32) = none → False) :=
  fun h => h ({ sup with sys := { sup.sys with w := 1, h := 1 }, sched := { sup.sched with launches := [{ lnid := 1, q := 0, pa := 0, started := true, reading := some [0, 0, 0, 0, 0, ap, 0, 0] }] } }) _ (0) ({ lnid := 1, q := 0, pa := 0, started := true, reading := some [0, 0, 0, 0, 0, ap, 0, 0] }) ([0, 0, 0, 0, 0, ap, 0, 0]) _ (by decide +kernel) (by decide +kernel) rfl rfl (nested_ok (by decide +kernel) (by decide +kernel)) (by decide +kernel)

theorem wit_SchedulerRegisterEvents_9 : ¬ (∀ (s : State) (q : Nat) (l : Launch) (ws : List Word), s.endingLaunch q = none → s.rootQueue ≠ some q → s.readingLaunch q = some l → l.reading = some ws → s.readRoots (fun k => ws.getD k 0) = .ok (.error 0) → False) :=
  fun h => h ({ sup with sys := { sup.sys with w := 1, h := 1 }, mem := { sup.mem with bytes := [(2 ^ 60 + 64, 0xFF), (2 ^ 60 + 65, 0xFF)] }, sched := { sup.sched with launches := [{ lnid := 1, q := 0, pa := 0, started := true, reading := some [0, 0, 0, 0, 0, ap, ap + 64, 0] }] } }) (0) ({ lnid := 1, q := 0, pa := 0, started := true, reading := some [0, 0, 0, 0, 0, ap, ap + 64, 0] }) ([0, 0, 0, 0, 0, ap, ap + 64, 0]) (by decide +kernel) (by decide +kernel) rfl rfl (nested_bad 0 (by decide +kernel))

theorem wit_SchedulerRegisterEvents_10 : ¬ (∀ (s u : State) (q : Nat), s.endingLaunch q = none → s.rootQueue ≠ some q → s.readingLaunch q = none → s.startable q = true → u = unitAcquired s → (∀ a ∈ s.sched.appended, ¬ (a.q = q ∧ a.index = (mget {} s.sched.queues q).head)) → launchForm (fun k => u.launchWord (u.queueEntry q) k) none = true → False) :=
  fun h => h ({ sup with mem := { sup.mem with bankTab := [(0, 0x8000000000000000)] }, sched := { sup.sched with queues := [(0, { cfg := 0x8000000000000001, tail := 1 })] } }) _ (0) (by decide +kernel) (by decide +kernel) (by decide +kernel) (by decide +kernel) rfl (by decide +kernel) (by decide +kernel)

theorem wit_SchedulerRegisterEvents_11 : ¬ (∀ (s u : State) (q : Nat), s.endingLaunch q = none → s.rootQueue ≠ some q → s.readingLaunch q = none → s.startable q = true → u = unitAcquired s → (∀ a ∈ s.sched.appended, ¬ (a.q = q ∧ a.index = (mget {} s.sched.queues q).head)) → 6 ≤ bits (u.launchWord (u.queueEntry q) 3) 18 16 → False) :=
  fun h => h ({ sup with mem := { sup.mem with bankTab := [(0, 0x8000000000000000)], bytes := [(0x1A, 6)] }, sched := { sup.sched with queues := [(0, { cfg := 0x8000000000000001, tail := 1 })] } }) _ (0) (by decide +kernel) (by decide +kernel) (by decide +kernel) (by decide +kernel) rfl (by decide +kernel) (by decide +kernel)

theorem wit_OptimisticEvents_2 : ¬ (∀ (s : State), s.handlerKey = none → s.sched.domq = [] → s.sched.spilled = [] → s.sched.held = [] → s.opt.unacked = [] → s.core.wait = none → (∀ p ∈ s.savedTasks, bit p.stat 9 = false) → False) :=
  fun h => h sup rfl rfl rfl rfl rfl rfl (by decide +kernel)

theorem wit_OptimisticEvents_3 : ¬ (∀ (s : State) (k : Key), k ∈ s.opt.unacked ∨ (∃ w n, s.core.wait = some w ∧ w.on = .gvt n k true) → False) :=
  fun h => h ({ sup with opt := { sup.opt with unacked := [⟨1, 0⟩] } }) (⟨1, 0⟩) (.inl (.head _))

theorem wit_OptimisticEvents_4 : ¬ (∀ (s : State) (k own g : Key), s.opt.reported = some own → (s.opt.seed = false ∨ Key.min k own ≠ infKey) → (∀ w n x, s.core.wait = some w → w.on ≠ .gvt n x false) → g = (match s.opt.gvt with | some old => if (Key.min k own).lt old then old else Key.min k own | none => Key.min k own) → False) :=
  fun h => h ({ sup with opt := { sup.opt with reported := some ⟨2, 0⟩ } }) (⟨1, 0⟩) (⟨2, 0⟩) _ rfl (.inr (by decide +kernel)) (fun _ _ _ hx => nomatch hx) rfl

theorem wit_OptimisticEvents_5 : ¬ (∀ (s : State) (k own old x : Key) (w : Wait), s.opt.reported = some own → s.opt.gvt = some old → s.opt.seed = false → s.core.wait = some w → w.on = .gvt (s.opt.installs + 1) x false → x.lt old = false → x.lt (Key.min k own) = false → False) :=
  fun h => h ({ sup with opt := { sup.opt with seed := false, reported := some ⟨2, 0⟩, gvt := some ⟨1, 0⟩ }, core := { sup.core with wait := some ⟨.gvt 1 ⟨9, 0⟩ false, 0, false⟩ } }) (⟨3, 0⟩) (⟨2, 0⟩) (⟨1, 0⟩) (⟨9, 0⟩) (⟨.gvt 1 ⟨9, 0⟩ false, 0, false⟩) rfl rfl rfl rfl rfl rfl rfl

theorem wit_OptimisticEvents_6 : ¬ (∀ (s : State) (k own : Key), s.opt.reported = some own → s.opt.seed = true → Key.min k own = infKey → False) :=
  fun h => h ({ sup with opt := { sup.opt with reported := some infKey, seed := true } }) (infKey) (infKey) rfl rfl rfl

theorem wit_OptimisticEvents_7 : ¬ (∀ (s : State) (k : Key), s.opt.reported = none → False) :=
  fun h => h sup (⟨0, 0⟩) rfl

theorem wit_OptimisticEvents_8 : ¬ (∀ (s u y v : State) (x : Delivery) (k : Key) (a : Arrived), s.sched.flying = [] → s.sched.held = [] → x.key = some k → (∀ page, s.readHead x.ctx x.r.w0 ≠ .absent page) → a = { d := x, cls := (s.readHead x.ctx x.r.w0).head.cls, seq := s.sched.arrivals } → u = s.headSeen x.ctx x.r.w0 → y = { u with sched := { u.sched with arrivals := u.sched.arrivals + 1 } } → u.straggles k = false → u.sched.domq.length < 128 → False) :=
  fun h => h ((mapped sup [(0x200000, 1)])) _ _ (sup) ({ message with key := some ⟨1, 0⟩ }) _ _ rfl rfl rfl (not_absent (by decide +kernel)) rfl rfl rfl (by decide +kernel) (by decide +kernel)

theorem wit_OptimisticEvents_9 : ¬ (∀ (s u y v : State) (x : Delivery) (k : Key) (a : Arrived), s.sched.flying = [] → s.sched.held = [] → x.key = some k → (∀ page, s.readHead x.ctx x.r.w0 ≠ .absent page) → a = { d := x, cls := (s.readHead x.ctx x.r.w0).head.cls, seq := s.sched.arrivals } → u = s.headSeen x.ctx x.r.w0 → y = { u with sched := { u.sched with arrivals := u.sched.arrivals + 1 } } → u.straggles k = true → u.sched.domq.length < 128 → v = y.rollback k false → v.sched.domq.length < 128 → False) :=
  fun h => h ({ mapped sup [(0x200000, 1)] with opt := { sup.opt with domain := some ⟨0, 0x1000, 8, 0x2000, 32, 0x3000, 128, 0, 0, 0, 0, 0, 0, 0, 0, 0⟩, output := [⟨⟨5, 0⟩, .proc { r := { w0 := ap + 16 }, ctx := {}, key := some ⟨1, 0⟩ }⟩] } }) _ _ (_) ({ message with key := some ⟨1, 0⟩ }) _ _ rfl rfl rfl (not_absent (by decide +kernel)) rfl rfl rfl (by decide +kernel) (by decide +kernel) rfl (by decide +kernel)

theorem wit_OptimisticEvents_10 : ¬ (∀ (s u y v : State) (x : Delivery) (k : Key) (a : Arrived), s.sched.flying = [] → s.sched.held = [] → x.key = some k → (∀ page, s.readHead x.ctx x.r.w0 ≠ .absent page) → a = { d := x, cls := (s.readHead x.ctx x.r.w0).head.cls, seq := s.sched.arrivals } → u = s.headSeen x.ctx x.r.w0 → y = { u with sched := { u.sched with arrivals := u.sched.arrivals + 1 } } → 128 ≤ u.sched.domq.length → y.ringSlot = none → v = y.pullRing 1 → False) :=
  fun h => h ({ sup with sched := { sup.sched with domq := List.replicate 128 { d := message }, parked := [{ parkedOn .yield false with inRing := true, words := List.replicate 600 .empty }] } }) _ _ (_) ({ message with key := some ⟨1, 0⟩ }) _ _ rfl rfl rfl (not_absent (by decide +kernel)) rfl rfl rfl (by decide +kernel) rfl rfl

theorem wit_OptimisticEvents_11 : ¬ (∀ (s u : State) (k key : Key), s.sched.resume = [] → s.handlerKey = none → k.lt key = true → ∀ off old, s.opt.bittern = [{ key := key, off := off, old := old }] → s.opt.output = [] → u = s.writeHome (storeKey s.core.number off) (wordBytes old) → False) :=
  fun h => h ({ sup with opt := { sup.opt with bittern := [⟨⟨2, 0⟩, 0, 7⟩] } }) _ (⟨1, 0⟩) (⟨2, 0⟩) rfl rfl rfl (0) (7) rfl rfl rfl

theorem wit_OptimisticEvents_12 : ¬ (∀ (s u : State) (k key : Key), s.sched.resume = [] → s.handlerKey = none → k.lt key = true → ∀ d, s.opt.bittern = [] → s.opt.output = [⟨key, .proc d⟩] → u = ({ s with opt := { s.opt with output := [], domain := s.opt.domain.map fun d => { d with undone := d.undone + 1 } } } : State).requeue d → False) :=
  fun h => h ({ sup with opt := { sup.opt with output := [⟨⟨2, 0⟩, .proc { message with key := some ⟨1, 0⟩ }⟩] } }) _ (⟨1, 0⟩) (⟨2, 0⟩) rfl rfl rfl ({ message with key := some ⟨1, 0⟩ }) rfl rfl rfl

theorem wit_OptimisticEvents_13 : ¬ (∀ (s : State) (k : Key), nonePending s → (∃ a ∈ s.sched.domq, a.d.key = some k) → False) :=
  fun h => h ({ sup with sched := { sup.sched with domq := [{ d := { message with key := some ⟨1, 0⟩ } }] } }) (⟨1, 0⟩) (by unfold nonePending; decide) (by decide +kernel)

theorem wit_OutsideAccesses_1 : ¬ (∀ (s : State) (x : ExtAccess) (key : Nat), x.pa < 2 ^ 40 → x.write = true → outsideAt s x.pa key → hostMeets s x key = none → noPeerMeets s x key → False) :=
  fun h => h ((mapped sup [])) (⟨0x200000, 8, [1], true⟩) (0x200000) (by decide +kernel) rfl ⟨by decide, by decide⟩ (by decide +kernel) (by unfold noPeerMeets; decide +kernel)

theorem wit_OutsideAccesses_2 : ¬ (∀ (s : State) (x : ExtAccess) (key : Nat), x.pa < 2 ^ 40 → x.write = false → outsideAt s x.pa key → hostMeets s x key = none → noPeerMeets s x key → (∀ j < x.len, s.isLost (key + j) = false) → False) :=
  fun h => h ((mapped sup [])) (⟨0x200000, 8, [], false⟩) (0x200000) (by decide +kernel) rfl ⟨by decide, by decide⟩ (by decide +kernel) (by unfold noPeerMeets; decide +kernel) (by decide +kernel)

theorem wit_OutsideAccesses_3 : ¬ (∀ (s : State) (x : ExtAccess) (key : Nat), x.pa < 2 ^ 40 → x.write = false → outsideAt s x.pa key → hostMeets s x key = none → noPeerMeets s x key → (∃ j < x.len, s.isLost (key + j) = true) → False) :=
  fun h => h ({ mapped sup [] with mem := { (mapped sup []).mem with lost := [0x200000] } }) (⟨0x200000, 8, [], false⟩) (0x200000) (by decide +kernel) rfl ⟨by decide, by decide⟩ (by decide +kernel) (by unfold noPeerMeets; decide +kernel) ⟨0, by decide, by decide +kernel⟩

theorem wit_OutsideAccesses_4 : ¬ (∀ (s : State) (x : ExtAccess) (key j : Nat), x.pa < 2 ^ 40 → x.write = true → outsideAt s x.pa key → hostMeets s x key = some j → noPeerMeets s x key → False) :=
  fun h => h ({ mapped sup [] with core := { sup.core with region := { masks := { reads := [⟨0x200000, 8⟩] } } } }) (⟨0x200000, 8, [1], true⟩) (0x200000) (0x200000) (by decide +kernel) rfl ⟨by decide, by decide⟩ (by decide +kernel) (by unfold noPeerMeets; decide +kernel)

theorem wit_OutsideAccesses_5 : ¬ (∀ (s : State) (x : ExtAccess), (2 ^ 40 ≤ x.pa ∨ s.memKey (s.regs.devnum * 2 ^ 48 + x.pa % 2 ^ 48) = none) → False) :=
  fun h => h sup (⟨2 ^ 40, 8, [], false⟩) (.inl (by decide))

theorem wit_OutsideAccesses_6 : ¬ (∀ (s : State) (x : ExtAccess) (key : Nat), x.pa < 2 ^ 40 → outsideAt s x.pa key → hostMeets s x key = none → ¬ noPeerMeets s x key → False) :=
  fun h => h ({ mapped sup [] with mem := { (mapped sup []).mem with others := [{ id := 0, agent := .core, device := 0, core := 1, own := false, masks := { writes := [⟨0x200000, 8⟩] } }] } }) (⟨0x200000, 8, [1], true⟩) (0x200000) (by decide +kernel) ⟨by decide, by decide⟩ (by decide +kernel) (by unfold noPeerMeets; decide +kernel)

theorem wit_OutsideAccesses_7 : ¬ (∀ (s : State) (q : Nat) (v : Word), q < 16 → s.regs.partid < 16 → False) :=
  fun h => h sup (0) (0) (by decide +kernel) (by decide +kernel)

theorem wit_OutsideAccesses_8 : ¬ (∀ (s : State) (off size : Nat) (v : Word), size ≠ 8 → False) :=
  fun h => h sup (0) (4) (0) (by decide +kernel)

theorem wit_OutsideAccesses_9 : ¬ (∀ (s : State) (dev : Nat) (x : HartAccess), s.admits dev = false → False) :=
  fun h => h sup (0) (⟨⟨0x200000, 8, [], false⟩, 0, false⟩) rfl

theorem wit_OutsideAccesses_10 : ¬ (∀ (s u : State) (dev : Nat) (x : HartAccess) (key : Nat), s.admits dev = true → x.pa < 2 ^ 48 → outsideAt s x.pa key → s.slotOpen (bits s.sys.strictsh 13 8) = true → s.peerMeets ⟨.core, dev, x.core⟩ x.write x.sync key x.len = false → s.noteRegion ⟨.core, dev, x.core⟩ (!x.write) x.write x.sync key x.len = .ok u → x.write = true → False) :=
  fun h => h (({ mapped sup [] with sys := { sup.sys with fabadmit := [(0, 1)] } } : State)) _ (0) (⟨⟨0x200000, 8, [1], true⟩, 0, false⟩) (0x200000) rfl (by decide +kernel) ⟨by decide, by decide⟩ rfl rfl rfl rfl

theorem wit_OutsideAccesses_11 : ¬ (∀ (s u : State) (dev : Nat) (x : HartAccess) (key : Nat), s.admits dev = true → x.pa < 2 ^ 48 → outsideAt s x.pa key → s.slotOpen (bits s.sys.strictsh 13 8) = true → s.peerMeets ⟨.core, dev, x.core⟩ x.write x.sync key x.len = false → s.noteRegion ⟨.core, dev, x.core⟩ (!x.write) x.write x.sync key x.len = .ok u → x.write = false → (∀ j < x.len, s.isLost (key + j) = false) → False) :=
  fun h => h (({ mapped sup [] with sys := { sup.sys with fabadmit := [(0, 1)] } } : State)) _ (0) (⟨⟨0x200000, 8, [], false⟩, 0, false⟩) (0x200000) rfl (by decide +kernel) ⟨by decide, by decide⟩ rfl rfl rfl rfl (by decide +kernel)

theorem wit_OutsideAccesses_12 : ¬ (∀ (s : State) (dev : Nat) (x : HartAccess) (key : Nat), s.admits dev = true → x.pa < 2 ^ 48 → outsideAt s x.pa key → s.slotOpen (bits s.sys.strictsh 13 8) = true → ((∃ j, s.core.region.masks.meets x.write x.sync key x.len = some j) ∨ ∃ o ∈ s.mem.others, ∃ j, o.done = false ∧ ¬ (o.own = false ∧ o.agent = .core ∧ o.device = dev ∧ o.core = x.core) ∧ o.masks.meets x.write x.sync key x.len = some j) → False) :=
  fun h => h ({ mapped sup [] with sys := { sup.sys with fabadmit := [(0, 1)] }, core := { sup.core with region := { masks := { writes := [⟨0x200000, 8⟩] } } } }) (0) (⟨⟨0x200000, 8, [], false⟩, 0, false⟩) (0x200000) rfl (by decide +kernel) ⟨by decide, by decide⟩ (by decide +kernel) (.inl ⟨0x200000, by decide +kernel⟩)

theorem wit_OutsideAccesses_13 : ¬ (∀ (s u : State) (h : Party) (key len j : Nat) (rd wr sync : Bool), s.noteRegion h rd wr sync key len = .ok u → rd = true ∨ wr = true → j < len → False) :=
  fun h => h sup _ (⟨.core, 0, 1⟩) (0) (8) (0) (true) (false) (false) (value_ok (by decide +kernel)) (.inl rfl) (by decide +kernel)

theorem wit_ErrorEvents_2 : ¬ (∀ (s : State) (a : Nat), a < 2 ^ 19 → False) :=
  fun h => h sup (0) (by decide +kernel)

theorem wit_ErrorEvents_3 : ¬ (∀ (s : State) (a key : Nat), s.memKey a = some key → s.sectorAt .l2 key = none → s.sectorAt .msc key = none → False) :=
  fun h => h ((mapped sup [])) (0x200000) _ rfl rfl rfl

theorem wit_ErrorEvents_4 : ¬ (∀ (s : State) (a key : Nat), s.memKey a = some key → s.sectorAt .l2 key ≠ none ∨ s.sectorAt .msc key ≠ none → False) :=
  fun h => h ({ mapped sup [] with mem := { (mapped sup []).mem with rdc := [], lines := [{ lv := .l2, set := 0, way := 0, line := 0x200000, stamp := 0, z := true, e := false, recency := 0, cls := 0, held := 1 }] } }) (0x200000) _ rfl (.inl (by decide))

theorem wit_ErrorEvents_5 : ¬ (∀ (s : State) (a key : Nat), s.memKey a = some key → ∀ p ∈ [(Lv.l2, ErrAt.l2), (.msc, .msc)], s.sectorAt p.1 key = some true → False) :=
  fun h => h ({ mapped sup [] with mem := { (mapped sup []).mem with rdc := [], lines := [{ lv := .l2, set := 0, way := 0, line := 0x200000, stamp := 0, z := true, e := false, recency := 0, cls := 0, held := 1, dirty := 1 }] } }) (0x200000) _ rfl ((.l2, .l2)) (.head _) (by decide +kernel)

theorem wit_ErrorEvents_6 : ¬ (∀ (s : State) (a key : Nat), s.memKey a = some key → s.sectorAt .rdc key = some true → False) :=
  fun h => h ({ mapped sup [] with mem := { (mapped sup []).mem with rdc := [(0x200000, ⟨0, true⟩)], lines := [{ lv := .rdc, set := 0, way := 0, line := 0x200000, stamp := 0, z := true, e := false, recency := 0, cls := 0 }] } }) (0x200000) _ rfl (by decide)

theorem wit_ErrorEvents_7 : ¬ (∀ (s : State) (a key : Nat), s.memKey a = some key → s.sectorAt .rdc key = some false → False) :=
  fun h => h ({ mapped sup [] with mem := { (mapped sup []).mem with rdc := [(0x200000, ⟨0, false⟩)], lines := [{ lv := .rdc, set := 0, way := 0, line := 0x200000, stamp := 0, z := true, e := false, recency := 0, cls := 0 }] } }) (0x200000) _ rfl (by decide)

theorem wit_ErrorEvents_8 : ¬ (∀ (s : State) (a key : Nat), s.memKey a = some key → s.sectorAt .l1 key = none → False) :=
  fun h => h ((mapped sup [])) (0x200000) _ rfl rfl

theorem wit_ErrorEvents_11 : ¬ (∀ (s : State), s.core.machine = [] → s.sched.task.isSome = true → s.sys.halted = false → 1 ≤ bits s.regs.twin 23 13 → False) :=
  fun h => h (usr) rfl rfl rfl (by decide +kernel)

theorem wit_ErrorEvents_12 : ¬ (∀ (s : State) (n d : Nat) (ids : List Nat) (w : Option Word), n ≤ 8 → False) :=
  fun h => h sup (8) (0) ([]) (none) (by decide +kernel)

theorem wit_ErrorEvents_13 : ¬ (∀ (s u : State) (n d : Nat), 8 < n → d ∉ s.sys.linksDown → u = { s with sys := { s.sys with linksDown := d :: s.sys.linksDown, out := s.sys.out ++ [.errorRecord 2 n] } } → ∀ (va : Word), (∀ w ∈ s.core.overLink, w.va ≠ va) → s.core.lostWrite = none → False) :=
  fun h => h sup _ (9) (0) (by decide +kernel) (by decide) rfl (0) (by decide) rfl

theorem wit_ErrorEvents_14 : ¬ (∀ (s u : State) (n d : Nat), 8 < n → d ∉ s.sys.linksDown → u = { s with sys := { s.sys with linksDown := d :: s.sys.linksDown, out := s.sys.out ++ [.errorRecord 2 n] } } → ∀ (w : OverLink) (ws : List OverLink) (y : State), s.core.overLink = w :: ws → y = { u with mem := { u.mem with bytes := mputs 0 u.mem.bytes w.key w.old, lost := w.lost.foldl noted u.mem.lost } } → w.hart = none → s.core.lostWrite = none → False) :=
  fun h => h ({ sup with core := { sup.core with overLink := [⟨0, 0, [], [], none⟩] } }) _ (9) (0) (by decide +kernel) (by decide) rfl _ _ _ rfl rfl rfl rfl

theorem wit_ErrorEvents_15 : ¬ (∀ (s u : State) (n d : Nat), 8 < n → d ∉ s.sys.linksDown → u = { s with sys := { s.sys with linksDown := d :: s.sys.linksDown, out := s.sys.out ++ [.errorRecord 2 n] } } → ∀ (w : OverLink) (ws : List OverLink) (y : State), s.core.overLink = w :: ws → y = { u with mem := { u.mem with bytes := mputs 0 u.mem.bytes w.key w.old, lost := w.lost.foldl noted u.mem.lost } } → ∀ h, w.hart = some h → False) :=
  fun h => h ({ sup with core := { sup.core with overLink := [⟨0, 0, [], [], some ⟨.ce, 0⟩⟩] } }) _ (9) (0) (by decide +kernel) (by decide +kernel) rfl _ _ _ rfl rfl _ rfl

theorem wit_ErrorEvents_16 : ¬ (∀ (s u : State) (n d : Nat), 8 < n → d ∉ s.sys.linksDown → u = { s with sys := { s.sys with linksDown := d :: s.sys.linksDown, out := s.sys.out ++ [.errorRecord 2 n] } } → False) :=
  fun h => h sup _ (9) (0) (by decide +kernel) (by decide) rfl

theorem wit_ErrorEvents_17 : ¬ (∀ (s : State) (pa key : Nat), s.memKey pa = some key → bit s.evring 11 = false → False) :=
  fun h => h ((mapped sup [])) (0x200000) _ rfl rfl

theorem wit_ModuleEvents_1 : ¬ (∀ (s : State) (kind : Nat) (a b : Word), bit s.evring 11 = false → False) :=
  fun h => h sup (1) (0) (0) rfl

theorem wit_ModuleEvents_2 : ¬ (∀ (s : State) (kind : Nat) (a b : Word) (p : Posting), bit s.evring 11 = true → p = ⟨s.sys.vd, kind, a, b, s.cyc⟩ → (∀ x ∈ s.sys.posting, x.vd ≠ s.sys.vd) → s.ringRoom = true → False) :=
  fun h => h ((ringed [] [])) (1) (0) (0) _ rfl rfl (by decide +kernel) rfl

theorem wit_ModuleEvents_3 : ¬ (∀ (s : State) (kind : Nat) (a b : Word) (p : Posting), bit s.evring 11 = true → p = ⟨s.sys.vd, kind, a, b, s.cyc⟩ → (∃ x ∈ s.sys.posting, x.vd = s.sys.vd) ∨ s.ringRoom = false → False) :=
  fun h => h ((ringed [⟨0, 1, 0, 0, 0⟩] [])) (1) (0) (0) _ rfl rfl (.inl (by decide +kernel))

theorem wit_ModuleEvents_4 : ¬ (∀ (s : State) (p : Posting) (ps : List Posting), s.sys.posting = p :: ps → p.vd = s.sys.vd → s.ringRoom = true → False) :=
  fun h => h ((ringed [⟨0, 1, 0, 0, 0⟩] [])) _ _ rfl rfl rfl

theorem wit_ModuleEvents_5 : ¬ (∀ (s : State) (p : Posting) (ps : List Posting), s.sys.posting = p :: ps → p.vd = s.sys.vd → s.ringRoom = false → ps = [] → s.absentAt (areaBase s.evring) = none → s.absentAt s.ringEntry = none → False) :=
  fun h => h ((ringed [⟨0, 1, 0, 0, 0⟩] [(0x200000, 64)])) _ _ rfl rfl rfl rfl (by decide +kernel) (by decide +kernel)

theorem wit_ModuleEvents_6 : ¬ (∀ (s : State) (page : Nat), page < 2 ^ 64 → s.pullCode (page * 65536) = 1 → (∀ p ∈ s.mem.pulls, ¬ (p.page = page ∧ p.vd = s.sys.vd)) → False) :=
  fun h => h (pulled) (0x20) (by decide +kernel) (by decide) (by decide +kernel)

theorem wit_ModuleEvents_7 : ¬ (∀ (s u : State) (page key : Nat) (bytes : List (Nat × Byte)) (p : Pull), s.mem.pulls.find? (fun p => p.page = page) = some p → p.vd = s.sys.vd → s.memKey (s.regs.devnum * 2 ^ 48 + page * 65536 % 2 ^ 48) = some key → u = (s.installPage key bytes).setPullCode page 0 → False) :=
  fun h => h ({ (mapped sup []) with mem := { (mapped sup []).mem with pulls := [⟨0x20, 0, 0, []⟩] } }) _ (0x20) (0x200000) ([]) _ rfl rfl (by decide +kernel) rfl

theorem wit_ModuleEvents_8 : ¬ (∀ (s : State) (key j n : Nat) (v : Byte), mwf 0 s.mem.bytes = true → n < 65536 → False) :=
  fun h => h sup (0x200000) (0) (5) (7) rfl (by decide +kernel)

theorem wit_ModuleEvents_9 : ¬ (∀ (s : State) (page code : Nat), mwf 0 s.mem.bytes = true → code < 4 → bit (mget {} s.sys.vds s.sys.vd).pullctl 63 = true → inSlot (page * 65536) = true → s.pullCode (page * 65536) ≠ 0 → False) :=
  fun h => h (pulled) (0x20) (2) rfl (by decide +kernel) rfl rfl (by decide +kernel)

theorem wit_ModuleEvents_10 : ¬ (∀ (s : State) (page : Nat), (∀ p ∈ s.mem.pulls, p.page ≠ page) → False) :=
  fun h => h sup (0x20) (by decide)

theorem wit_ModuleEvents_11 : ¬ (∀ (s : State) (page : Nat) (p : Pull), s.mem.pulls.find? (fun p => p.page = page) = some p → p.vd = s.sys.vd → bit s.evring 11 = false → False) :=
  fun h => h ({ (mapped sup []) with mem := { (mapped sup []).mem with pulls := [⟨0x20, 0, 0, []⟩] } }) (0x20) _ rfl rfl rfl

theorem wit_ModuleEvents_12 : ¬ (∀ (s : State) (v : Nat) (x ctl : Word) (d : Vd), d = mget {} s.sys.vds v → bits x 31 0 ≠ 0 → ctl = wd (fld (bits x 63 63) 63 + fld (if bit x 62 then 0 else bits d.ctl 62 62) 62 + fld (bits d.ctl 61 61) 61 + fld (if bit x 60 then 0 else bits d.ctl 60 60) 60 + fld (bits x 59 56) 56 + fld (bits x 55 52) 52 + bits x 31 0) → False) :=
  fun h => h sup (0) (1) _ (_) rfl (by decide +kernel) rfl

theorem wit_ModuleEvents_13 : ¬ (∀ (s : State) (v : Word), bit v 0 = true → s.sys.halted = true → False) :=
  fun h => h ({ sup with sys := { sup.sys with halted := true } }) (1) rfl rfl

theorem wit_ModuleEvents_14 : ¬ (∀ (s : State) (v : Word), bit v 0 = false ∨ s.sys.halted = false → False) :=
  fun h => h sup (0) (by decide +kernel)

theorem wit_ModuleEvents_15 : ¬ (∀ (s : State) (v : Word), s.regs.partid < 16 → False) :=
  fun h => h sup (0) (by decide +kernel)

theorem wit_ModuleEvents_16 : ¬ (∀ (s : State) (i : Nat) (v : Word), i < 2 ^ 16 → False) :=
  fun h => h sup (0) (0) (by decide +kernel)

theorem wit_ModuleEvents_17 : ¬ (∀ (s : State), s.sys.draining = none → s.sys.halted = true ∨ s.sliceOver = true → s.nextVd ≠ s.sys.vd → mwf 0 s.sched.preempt = true → False) :=
  fun h => h ({ twoDevices with cyc := 2 ^ 40 }) rfl (by decide +kernel) (by decide +kernel) (by decide +kernel)

theorem wit_ModuleEvents_18 : ¬ (∀ (s : State), s.sys.draining = none → s.sys.halted = true ∨ s.sliceOver = true → s.nextVd = s.sys.vd → False) :=
  fun h => h ({ sup with sys := { sup.sys with halted := true } }) rfl (.inl rfl) (by decide +kernel)

theorem wit_ModuleEvents_19 : ¬ (∀ (s : State), s.sys.draining = none → s.sys.halted = false → s.sliceOver = false → False) :=
  fun h => h sup rfl rfl rfl

theorem wit_ModuleEvents_20 : ¬ (∀ (s : State) (n : Nat), s.sys.draining = some n → s.drained = false → False) :=
  fun h => h ({ sup with sys := { sup.sys with draining := some 0 } }) (0) rfl (by decide +kernel)

theorem wit_ModuleEvents_21 : ¬ (∀ (s : State) (n : Nat) (c : VdCtx), s.sys.draining = some n → s.drained = true → s.sys.saved.find? (fun c => c.vd = s.nextVd) = some c → False) :=
  fun h => h ({ twoDevices with sched := { sup.sched with preempt := [(0, 0x8000000000000000)] }, sys := { twoDevices.sys with draining := some 0 } }) _ _ rfl rfl rfl

theorem wit_ModuleEvents_22 : ¬ (∀ (s : State) (t : Nat), s.sys.draining = some t → t + 2 ^ 26 ≤ s.cyc → (∃ n ∈ s.cores, bit (mget 0 s.sched.preempt n) 63 = false) → bit s.evring 11 = false → False) :=
  fun h => h ({ sup with cyc := 2 ^ 26, sys := { sup.sys with draining := some 0 } }) _ rfl (by decide +kernel) (by decide +kernel) rfl

theorem wit_ModuleEvents_23 : ¬ (∀ (s : State) (ok : Bool) (dev : Nat), s.sys.bootStep = 1 → ok = false → False) :=
  fun h => h ({ sup with sys := { sup.sys with bootStep := 1 } }) (false) (0) rfl rfl

theorem wit_ModuleEvents_24 : ¬ (∀ (s : State) (ok : Bool) (dev : Nat), s.sys.bootStep ≤ 4 → s.sys.bootStep ≠ 3 → s.sys.bootStep ≠ 1 ∨ ok = true → False) :=
  fun h => h sup (false) (0) (by decide +kernel) (by decide +kernel) (.inl (by decide))

theorem wit_ModuleEvents_25 : ¬ (∀ (s : State) (ok : Bool) (dev : Nat), s.sys.bootStep = 3 → dev < 256 → False) :=
  fun h => h ({ sup with sys := { sup.sys with bootStep := 3 } }) (true) (255) rfl (by decide +kernel)

theorem wit_ModuleEvents_26 : ¬ (∀ (s : State) (ok : Bool) (dev : Nat), 5 ≤ s.sys.bootStep → False) :=
  fun h => h ({ sup with sys := { sup.sys with bootStep := 5 } }) (true) (0) (by decide +kernel)

theorem wit_ModuleEvents_29 : ¬ (∀ (s : State) (m : Fin 4), m ≠ 3 → False) :=
  fun h => h sup (0) (by decide +kernel)

theorem wit_ModuleEvents_31 : ¬ (∀ (s : State) (k : Nat) (l : Line), s.mem.lines[k]? = some l → l.dueE s.unitTime = true → False) :=
  fun h => h ({ sup with mem := { sup.mem with lines := [{ lv := .l2, set := 0, way := 0, line := 0, stamp := 45536, z := true, e := false, recency := 0, cls := 0 }] } }) (0) _ rfl (by decide)

theorem wit_ModuleEvents_32 : ¬ (∀ (s : State) (c : Nat) (p : Police), s.mem.police = [(c, p)] → s.policeInterval ≠ s.mem.policeAt → False) :=
  fun h => h ({ sup with cyc := 2 ^ 24, mem := { sup.mem with police := [(0, {})] } }) (0) _ rfl (by decide +kernel)

theorem wit_EncodingRoundTrip_1 : ¬ (∀ (i : Instr) (off : Nat) (rest : List Byte), i.wf = true → i.encodable = true → off + i.size ≤ 32 → False) :=
  fun h => h (.brk {} 5) (24) ([]) rfl rfl (by decide +kernel)

theorem wit_EveryWordHasOneMeaning_1 : ¬ (∀ (off : Nat) (bs : List Byte) (i : Instr), i.size ≤ bs.length → decode off bs = .ok i → False) :=
  fun h => h (24) ([0x48, 0, 0, 0, 0, 0, 5, 0]) (.nop .l64) (by decide +kernel) rfl

theorem wit_DecoderRefuses_1 : ¬ (∀ (off : Nat) (bs : List Byte), (parcelAt bs 0).toNat % 4 = 3 → False) :=
  fun h => h (0) ([3]) (by decide +kernel)

theorem wit_DecoderRefuses_2 : ¬ (∀ (off : Nat) (bs : List Byte), (parcelAt bs 0).toNat % 4 ≠ 3 → 32 < off + 8 + 4 * ((parcelAt bs 0).toNat % 4) → False) :=
  fun h => h (28) ([0x48]) (by decide +kernel) (by decide +kernel)

theorem wit_DecoderRefuses_3 : ¬ (∀ (off : Nat) (bs : List Byte), (parcelAt bs 0).toNat % 4 ≠ 3 → off + 8 + 4 * ((parcelAt bs 0).toNat % 4) ≤ 32 → (parcelAt bs 0).toNat / 4 % 64 = 0x3F → False) :=
  fun h => h (24) ([0xFC]) (by decide +kernel) (by decide +kernel) (by decide +kernel)

theorem wit_DecoderRefuses_4 : ¬ (∀ (off : Nat) (bs : List Byte), (parcelAt bs 0).toNat % 4 ≠ 3 → off + 8 + 4 * ((parcelAt bs 0).toNat % 4) ≤ 32 → (parcelAt bs 0).toNat / 4 % 64 ∈ [0x00, 0x06, 0x07, 0x08, 0x09, 0x0A, 0x0B, 0x0C, 0x0D, 0x0E, 0x0F, 0x13, 0x14, 0x15, 0x16, 0x17, 0x19, 0x1A, 0x1B, 0x26, 0x27, 0x2B, 0x2F, 0x37, 0x3B, 0x3E] → False) :=
  fun h => h (24) ([0]) (by decide +kernel) (by decide +kernel) (by decide +kernel)

theorem wit_StepRunsDecodedInstruction_1 : ¬ (∀ (s t : State) (bs : List Byte) (i : Instr), s.nextAct = .instr → s.fetchBytes s.pc = .ok (bs, t) → isSkip (s.pc.toNat % 32) (parcelAt bs 0) = false → decode (t.pc.toNat % 32) bs = .ok i → False) :=
  fun h => h (running) _ _ (_) (by decide +kernel) (pair_ok (by decide +kernel)) (by decide +kernel) (value_ok (by decide +kernel))

theorem wit_StepRunsDecodedInstruction_2 : ¬ (∀ (s : State) (i : Instr), (∀ g x, i ≠ .tlbiPage g x) → False) :=
  fun h => h sup (.nop .l64) nofun

theorem wit_StepRunsDecodedInstruction_4 : ¬ (∀ (s : State), s.inputs = [] → s.peers = [] → s.sys.halted = false → s.sys.power ≠ 3 → 5 ≤ s.sys.bootStep → s.sys.reissue = [] → s.mem.unsent = [] → s.policeInterval = s.mem.policeAt → s.core.tableHit = false → (s.core.machine = [] ∨ s.sched.task = none) → s.missed = none → s.boundaryEvent = none → s.offers = [] → s.issues = true → False) :=
  fun h => h (running) rfl rfl rfl (by decide +kernel) (by decide +kernel) rfl rfl rfl rfl (by decide +kernel) rfl rfl rfl rfl

theorem wit_StepRunsDecodedInstruction_5 : ¬ (∀ (s : State) (i : Instr), s.nextAct = .event i → False) :=
  fun h => h ({ sup with mem := { sup.mem with policeAt := 5 } }) (.policingIntervalEnd) (by decide +kernel)

theorem wit_PlacedInstructionRuns_1 : ¬ (∀ (nbits w : Nat) (i : Instr), decodeTableWord nbits w = some i → False) :=
  fun h => h (64) (0x0005000000000048) _ rfl

theorem wit_CanonicalFormsKept_1 : ¬ (∀ (s t : State), Canonical s → step s = .next t → False) :=
  fun h => h (running) _ ⟨rfl, rfl, by decide⟩ (next_ok (by decide +kernel))

theorem wit_RdcFormKept_1 : ¬ (∀ (s t : State), RdcForm s → step s = .next t → False) :=
  fun h => h (running) _ ⟨rfl, fun _ _ hx => nomatch hx⟩ (next_ok (by decide +kernel))

theorem wit_GuardsDecideExecution_2 : ¬ (∀ (s : State) (p : Fin 16) (neg : Bool) (v : Word), p ≠ 0 → s.cell s.regs.wb = .full v → False) :=
  fun h => h sup (1) (false) _ (by decide +kernel) rfl

theorem wit_GuardsDecideExecution_3 : ¬ (∀ (s : State) (p : Fin 16) (neg : Bool), p ≠ 0 → s.cell s.regs.wb = .empty → False) :=
  fun h => h ({ sup with core := { sup.core with store := [(0, .empty)] } }) (15) (true) (by decide +kernel) rfl

theorem wit_GuardsDecideExecution_4 : ¬ (∀ (i : Instr) (g : Guard) (s u : State), i.guard? = some g → earlyMode s.mode i → Skips s i g u → False) :=
  fun h => h (.add { p := 1 } ⟨.i64, .w 1, ⟨.w 5, false⟩, .word ⟨.w 3, false⟩⟩) ({ p := 1 }) sup _ rfl trivial ⟨_, rfl, rfl⟩

theorem wit_GuardsDecideExecution_5 : ¬ (∀ (e : Enc), e.maj ≠ 0x3F → e.major ≠ none → e.gd = ⟨0, true⟩ → False) :=
  fun h => h ({ maj := 1, gn := true }) (by decide +kernel) (by decide +kernel) rfl

theorem wit_EarlyModeTraps_1 : ¬ (∀ (g : Guard) (s : State), s.mode ≠ 2 → ∀ i ∈ [Instr.rett g, .idle g, .halt g], False) :=
  fun h => h {} (usr) (by decide +kernel) _ (.head _)

theorem wit_EarlyModeTraps_2 : ¬ (∀ (g : Guard) (x : TwoSrc) (s : State), s.mode ≠ 2 → ∀ i ∈ [Instr.tlbiPage g x, .tlbiAsid g x, .tlbiPartition g x], False) :=
  fun h => h {} (⟨⟨.w 5, false⟩, ⟨.w 3, false⟩⟩) (usr) (by decide +kernel) _ (.head _)

theorem wit_EarlyModeTraps_3 : ¬ (∀ (g : Guard) (s : State), s.mode ≠ 1 → False) :=
  fun h => h {} sup (by decide +kernel)

theorem wit_EarlyModeTraps_4 : ¬ (∀ (i : Instr) (s : State), s.mode = 1 ∨ s.mode = 2 → ¬ earlyMode s.mode i → (∀ g, i ≠ .wret g) → (∀ g, i ≠ .rett g) → (∀ g, i ≠ .idle g) → (∀ g, i ≠ .halt g) → (∀ g x, i ≠ .tlbiPage g x) → (∀ g x, i ≠ .tlbiAsid g x) → (∀ g x, i ≠ .tlbiPartition g x) → False) :=
  fun h => h (.send {} ⟨⟨.w 5, false⟩, ⟨.w 8, false⟩, .short 1⟩) sup (.inr rfl) (fun hh => hh.2 rfl) nofun nofun nofun nofun nofun nofun nofun

theorem wit_TrapEntry_1 : ¬ (∀ (s : State) (c : Nat) (info : Word), c ≠ cMEMLOST → delegates s c → False) :=
  fun h => h ({ usr with regs := { usr.regs with utwin := 0x40000, tdeleg := 0xFFFFFFFFFFFFFFFF } }) (3) (0) (by decide +kernel) ⟨rfl, by decide, by decide, by decide⟩

theorem wit_TrapEntry_2 : ¬ (∀ (s : State) (c : Nat) (info : Word), c ≠ cMEMLOST → ¬ delegates s c → 1 ≤ bits s.regs.twin 23 13 → False) :=
  fun h => h (usr) (3) (0) (by decide +kernel) (fun hd => absurd hd.2.1 (by decide)) (by decide +kernel)

theorem wit_TrapEntry_3 : ¬ (∀ (s : State) (c : Nat) (info : Word), c ≠ cMEMLOST → ¬ delegates s c → bits s.regs.twin 23 13 = 0 → False) :=
  fun h => h sup (3) (0) (by decide +kernel) (fun hd => absurd hd.1 (by decide)) rfl

theorem wit_TrapEntry_4 : ¬ (∀ (s : State) (info : Word), ¬ delegates s cMEMLOST → 1 ≤ bits s.regs.twin 23 13 → False) :=
  fun h => h (usr) (0) (fun hd => absurd hd.2.1 (by decide)) (by decide +kernel)

theorem wit_TrapReturnRoundTrip_1 : ¬ (∀ (s y u : State) (c : Nat) (info : Word) (g : Guard), s.mode = 0 → c < 2 ^ 32 → s.queuesLive = false → 1 ≤ s.regs.wl → s.regs.wl ≤ 2032 → s.regs.wb + s.regs.wl ≤ 8192 → bits s.regs.wflo 12 0 ≤ s.regs.wb → s.regs.wb + s.regs.wl - 1 ≤ bits s.regs.wfhi 12 0 → (s.pc - s.regs.cbase).toNat % 4 = 0 → (s.pc - s.regs.cbase).toNat < 2 ^ 34 → y.mode = 2 → Enters y (.rett g) g u → u.regs.tsave = (twinState s c info false).regs.tsave → u.regs.tcause = (twinState s c info false).regs.tcause → u.regs.cbase = s.regs.cbase → u.regs.wflo = s.regs.wflo → u.regs.wfhi = s.regs.wfhi → False) :=
  fun h => h (usr) ((twinState usr 1 0 false)) _ (1) (0) {} rfl (by decide +kernel) rfl (by decide +kernel) (by decide +kernel) (by decide +kernel) (by decide +kernel) (by decide +kernel) (by decide +kernel) (by decide +kernel) rfl ⟨_, rfl, rfl⟩ rfl rfl rfl rfl rfl

theorem wit_WordInstructionFrames_1 : ¬ (∀ (i : Instr) (s t : State), wordsOnly i = true → exec i s = .next t → False) :=
  fun h => h (.add {} ⟨.i64, .w 1, ⟨.w 5, false⟩, .word ⟨.w 3, false⟩⟩) sup _ rfl rfl

theorem wit_WordInstructionFrames_2 : ¬ (∀ (g : Guard) (x : Src) (s t : State), exec (.setutw g x) s = .next t → False) :=
  fun h => h {} (⟨.w 5, false⟩) sup _ rfl

theorem wit_MemoryFrames_1 : ¬ (∀ (s t : State) (ps : List Piece) (nud : Nat) (r : Route) (whole : Bool) (bs : List Byte) (l : Option Nat), s.MemOk → mrising 0 s.mem.rdc = true → s.sys.linksDown = [] → s.readPieces nud r whole ps = (bs, l, t) → False) :=
  fun h => h sup _ ([⟨{ what := .store, key := 2 ^ 60 }, 0, 1, 0⟩]) (15) (.l1) (false) _ _ rfl rfl rfl rfl

theorem wit_MemoryFrames_2 : ¬ (∀ (s : State) (ps : List Piece) (bs : List Byte) (nud : Nat) (r : Route) (key : Nat), s.MemOk → mrising 0 s.mem.rdc = true → s.sys.linksDown = [] → (∀ p ∈ ps, p.loc.what = .memory ∨ p.loc.what = .store → p.off + p.len ≤ bs.length ∧ ¬ (p.loc.key ≤ key ∧ key < p.loc.key + p.len)) → False) :=
  fun h => h sup ([⟨{ what := .store, key := 2 ^ 60 }, 0, 1, 0⟩]) ([1]) (15) (.l1) (2 ^ 60 + 1) rfl rfl rfl (by decide)

theorem wit_MemoryFrames_3 : ¬ (∀ (s : State) (p : Piece) (bs : List Byte) (nud j : Nat) (r : Route), s.MemOk → RdcForm s → s.sys.linksDown = [] → p.loc.what = .memory → bs.length = p.len → r ≠ .far → (p.loc.remote = true ∨ ∀ i, mfind s.mem.rdc i = none) → j < p.len → False) :=
  fun h => h (sup) (⟨{ what := .memory, key := 5, remote := true }, 0, 1, 0⟩) ([7]) (15) (0) (.l1) rfl ⟨rfl, fun _ _ hx => nomatch hx⟩ rfl rfl rfl (by decide) (.inl rfl) (by decide +kernel)

theorem wit_MemoryFrames_4 : ¬ (∀ (s t : State) (w : Who) (k : Kind) (va : Word) (l : Loc), s.MemOk → mrising 0 s.mem.rdc = true → s.sys.linksDown = [] → s.translate w k va = .ok (l, t) → ∀ (f : LeafFound) (e : Word), inAperture va = false → s.leafOf w k va = .ok f → e = f.leaf.pte ||| 0x40 ||| (if k.writes then 0x80 else 0) → f.walked = false ∨ e = f.leaf.pte → False) :=
  fun h => h ({ mapped sup [] with mem := { (mapped sup []).mem with bytes := [(0, 1), (2, 2), (0x20000, 0x5F)] } }) _ (sup.who) (.read) (0x200000) _ rfl (by decide +kernel) rfl (pair_ok (by decide +kernel)) _ _ (by decide +kernel) (value_ok (by decide +kernel)) rfl (.inr (by decide +kernel))

theorem wit_MemoryFrames_5 : ¬ (∀ (s t : State) (w : Who) (k : Kind) (va : Word) (l : Loc), s.MemOk → mrising 0 s.mem.rdc = true → s.sys.linksDown = [] → s.translate w k va = .ok (l, t) → ∀ (f : LeafFound) (e : Word), inAperture va = false → s.leafOf w k va = .ok f → e = f.leaf.pte ||| 0x40 ||| (if k.writes then 0x80 else 0) → f.walked = true → e ≠ f.leaf.pte → ∀ j, f.leaf.key ≤ j → j < f.leaf.key + 8 → False) :=
  fun h => h ((mapped sup [])) _ (sup.who) (.read) (0x200000) _ rfl (by decide +kernel) rfl (pair_ok (by decide +kernel)) _ _ (by decide +kernel) (value_ok (by decide +kernel)) rfl (by decide +kernel) (by decide +kernel) (0x20007) (by decide +kernel) (by decide +kernel)

theorem wit_MemoryFrames_6 : ¬ (∀ (s t : State) (w : Who) (k : Kind) (va : Word) (l : Loc), s.MemOk → mrising 0 s.mem.rdc = true → s.sys.linksDown = [] → s.translate w k va = .ok (l, t) → ∀ (f : LeafFound) (e : Word), inAperture va = false → s.leafOf w k va = .ok f → e = f.leaf.pte ||| 0x40 ||| (if k.writes then 0x80 else 0) → f.walked = true → e ≠ f.leaf.pte → ∀ j, j < f.leaf.key ∨ f.leaf.key + 8 ≤ j → False) :=
  fun h => h ((mapped sup [])) _ (sup.who) (.read) (0x200000) _ rfl (by decide +kernel) rfl (pair_ok (by decide +kernel)) _ _ (by decide +kernel) (value_ok (by decide +kernel)) rfl (by decide +kernel) (by decide +kernel) (0x20008) (.inr (by decide +kernel))

theorem wit_ResetState_1 : ¬ (∀ p, p < 8192 → False) :=
  fun h => h (8191) (by decide +kernel)

theorem wit_DivisionAndRemainder_1 : ¬ (∀ (g : Guard) (x : Alu) (s u v w : State) (a b : Word) (i : Guard → Alu → Instr), x.t.isInt = true → i = .div ∨ i = .rem → Enters s (i g x) g u → u.ready (s.ctx (i g x)) (srcOpr x.a :: opndOpr x.b ++ [.dst x.d]) → u.take x.a.name = (a, v) → v.takeOpnd x.b = (b, w) → w.accepts x.d → tyVal x.t b = 0 → i = .div → False) :=
  fun h => h {} (⟨.i64, .w 1, ⟨.w 5, false⟩, .word ⟨.w 3, false⟩⟩) sup _ _ _ _ _ _ rfl (.inl rfl) ⟨_, rfl, rfl⟩ rfl rfl rfl rfl rfl rfl

theorem wit_DivisionAndRemainder_2 : ¬ (∀ (g : Guard) (x : Alu) (s u v w : State) (a b : Word) (i : Guard → Alu → Instr), x.t.isInt = true → i = .div ∨ i = .rem → Enters s (i g x) g u → u.ready (s.ctx (i g x)) (srcOpr x.a :: opndOpr x.b ++ [.dst x.d]) → u.take x.a.name = (a, v) → v.takeOpnd x.b = (b, w) → w.accepts x.d → tyVal x.t b = 0 → i = .rem → False) :=
  fun h => h {} (⟨.i64, .w 1, ⟨.w 5, false⟩, .word ⟨.w 3, false⟩⟩) sup _ _ _ _ _ _ rfl (.inr rfl) ⟨_, rfl, rfl⟩ rfl rfl rfl rfl rfl rfl

theorem wit_DivisionAndRemainder_3 : ¬ (∀ (g : Guard) (x : Alu) (s u v w : State) (a b : Word) (i : Guard → Alu → Instr), x.t.isInt = true → i = .div ∨ i = .rem → Enters s (i g x) g u → u.ready (s.ctx (i g x)) (srcOpr x.a :: opndOpr x.b ++ [.dst x.d]) → u.take x.a.name = (a, v) → v.takeOpnd x.b = (b, w) → w.accepts x.d → tyVal x.t b ≠ 0 → tyVal x.t a = -2 ^ (x.t.width - 1) → tyVal x.t b = -1 → i = .div → False) :=
  fun h => h {} (⟨.i64, .w 1, ⟨.w 5, false⟩, .word ⟨.w 3, false⟩⟩) ((holding [(3, -1), (5, 0x8000000000000000)])) _ _ _ _ _ _ rfl (.inl rfl) ⟨_, rfl, rfl⟩ rfl rfl rfl rfl (by decide +kernel) rfl rfl rfl

theorem wit_DivisionAndRemainder_4 : ¬ (∀ (g : Guard) (x : Alu) (s u v w : State) (a b : Word) (i : Guard → Alu → Instr), x.t.isInt = true → i = .div ∨ i = .rem → Enters s (i g x) g u → u.ready (s.ctx (i g x)) (srcOpr x.a :: opndOpr x.b ++ [.dst x.d]) → u.take x.a.name = (a, v) → v.takeOpnd x.b = (b, w) → w.accepts x.d → tyVal x.t b ≠ 0 → tyVal x.t a = -2 ^ (x.t.width - 1) → tyVal x.t b = -1 → i = .rem → False) :=
  fun h => h {} (⟨.i64, .w 1, ⟨.w 5, false⟩, .word ⟨.w 3, false⟩⟩) ((holding [(3, -1), (5, 0x8000000000000000)])) _ _ _ _ _ _ rfl (.inr rfl) ⟨_, rfl, rfl⟩ rfl rfl rfl rfl (by decide +kernel) rfl rfl rfl

theorem wit_DivisionAndRemainder_5 : ¬ (∀ (g : Guard) (x : Alu) (s u v w : State) (a b : Word) (i : Guard → Alu → Instr), x.t.isInt = true → i = .div ∨ i = .rem → Enters s (i g x) g u → u.ready (s.ctx (i g x)) (srcOpr x.a :: opndOpr x.b ++ [.dst x.d]) → u.take x.a.name = (a, v) → v.takeOpnd x.b = (b, w) → w.accepts x.d → tyVal x.t b ≠ 0 → i = .div → False) :=
  fun h => h {} (⟨.i64, .w 1, ⟨.w 5, false⟩, .word ⟨.w 3, false⟩⟩) ((holding [(3, 7), (5, 0x8000000000000000)])) _ _ _ _ _ _ rfl (.inl rfl) ⟨_, rfl, rfl⟩ rfl rfl rfl rfl (by decide +kernel) rfl

theorem wit_DivisionAndRemainder_6 : ¬ (∀ (g : Guard) (x : Alu) (s u v w : State) (a b : Word) (i : Guard → Alu → Instr), x.t.isInt = true → i = .div ∨ i = .rem → Enters s (i g x) g u → u.ready (s.ctx (i g x)) (srcOpr x.a :: opndOpr x.b ++ [.dst x.d]) → u.take x.a.name = (a, v) → v.takeOpnd x.b = (b, w) → w.accepts x.d → tyVal x.t b ≠ 0 → i = .rem → False) :=
  fun h => h {} (⟨.i64, .w 1, ⟨.w 5, false⟩, .word ⟨.w 3, false⟩⟩) ((holding [(3, -1), (5, 7)])) _ _ _ _ _ _ rfl (.inr rfl) ⟨_, rfl, rfl⟩ rfl rfl rfl rfl (by decide +kernel) rfl

theorem wit_FieldInstructions_1 : ¬ (∀ (g : Guard) (x : Alu) (s u v w : State) (a b : Word) (pos m : Nat), x.t = .i64 ∨ x.t = .n64 → Enters s (.ext g x) g u → u.ready (s.ctx (.ext g x)) (srcOpr x.a :: opndOpr x.b ++ [.dst x.d]) → u.take x.a.name = (a, v) → v.takeOpnd x.b = (b, w) → w.accepts x.d → pos = bits b 5 0 → m = min (bits b 11 6 + 1) (64 - pos) → False) :=
  fun h => h {} (⟨.i64, .w 1, ⟨.w 5, false⟩, .word ⟨.w 3, false⟩⟩) sup _ _ _ _ _ _ _ (by decide +kernel) ⟨_, rfl, rfl⟩ rfl rfl rfl rfl rfl rfl

theorem wit_FieldInstructions_2 : ¬ (∀ (g : Guard) (x : Alu) (s u v w y : State) (a b d : Word) (pos m : Nat), Enters s (.ins g x) g u → u.ready (s.ctx (.ins g x)) (srcOpr x.a :: opndOpr x.b ++ [.both x.d]) → u.take x.a.name = (a, v) → v.takeOpnd x.b = (b, w) → w.take x.d = (d, y) → y.accepts x.d → pos = bits b 5 0 → m = min (bits b 11 6 + 1) (64 - pos) → False) :=
  fun h => h {} (⟨.i64, .w 1, ⟨.w 5, false⟩, .word ⟨.w 3, false⟩⟩) sup _ _ _ _ _ _ _ _ _ ⟨_, rfl, rfl⟩ rfl rfl rfl rfl rfl rfl rfl

theorem wit_ReturnsFromExceptions_1 : ¬ (∀ (g : Guard) (s u : State), s.mode = 2 → Enters s (.rett g) g u → fitsReturn u → heldHere u u.regs.tsave → False) :=
  fun h => h {} ({ sup with regs := { sup.regs with tsave := mkDesc 0 32 0 false false false } }) _ rfl ⟨_, rfl, rfl⟩ (by unfold fitsReturn fitsWindowAs; decide) (fun hh => absurd hh (by decide))

theorem wit_ReturnsFromExceptions_2 : ¬ (∀ (g : Guard) (s u : State), s.mode = 1 → Enters s (.wret g) g u → fitsWindowAs u u.regs.utsave true → heldHere u u.regs.utsave → False) :=
  fun h => h {} ({ sup with regs := { sup.regs with taskstat := 0x1000, utsave := mkDesc 0 32 0 false false false } }) _ rfl ⟨_, rfl, rfl⟩ (by unfold fitsWindowAs; decide) (fun hh => absurd hh (by decide))

theorem wit_ReturnsFromExceptions_3 : ¬ (∀ (g : Guard) (s : State), s.mode ≠ 2 → False) :=
  fun h => h {} (usr) (by decide +kernel)

theorem wit_ReturnsFromExceptions_4 : ¬ (∀ (g : Guard) (s : State), s.mode ≠ 1 → False) :=
  fun h => h {} sup (by decide +kernel)

theorem wit_ReturnsFromExceptions_5 : ¬ (∀ (g : Guard) (s u : State), s.mode = 2 → Enters s (.rett g) g u → ¬ fitsReturn u → False) :=
  fun h => h {} sup _ rfl ⟨_, rfl, rfl⟩ (fun hh => absurd (hh (by decide)).1 (by decide))

theorem wit_ReturnsFromExceptions_6 : ¬ (∀ (g : Guard) (s u : State), s.mode = 1 → Enters s (.wret g) g u → ¬ fitsWindowAs u u.regs.utsave true → False) :=
  fun h => h {} ({ sup with regs := { sup.regs with taskstat := 0x1000 } }) _ rfl ⟨_, rfl, rfl⟩ (fun hh => absurd hh.1 (by decide))

theorem wit_ReturnsFromExceptions_7 : ¬ (∀ (g : Guard) (s u : State), s.mode = 2 → Enters s (.rett g) g u → fitsReturn u → ¬ heldHere u u.regs.tsave → False) :=
  fun h => h {} ({ sup with regs := { sup.regs with tsave := mkDesc 0 32 0 false true false } }) _ rfl ⟨_, rfl, rfl⟩ (by unfold fitsReturn fitsWindowAs; decide) (fun hh => absurd (hh rfl) (by decide))

theorem wit_ReturnsFromExceptions_8 : ¬ (∀ (g : Guard) (s u : State), s.mode = 1 → Enters s (.wret g) g u → fitsWindowAs u u.regs.utsave true → ¬ heldHere u u.regs.utsave → False) :=
  fun h => h {} ({ sup with regs := { sup.regs with taskstat := 0x1000, utsave := mkDesc 0 32 0 false true false } }) _ rfl ⟨_, rfl, rfl⟩ (by unfold fitsWindowAs; decide) (fun hh => absurd (hh rfl) (by decide))

/-! ### The queued commands of the matrix unit and the sequencer -/

/-- The supervisor with a descriptor in w8 to w13 and an old token in w6. -/
def armed (l : List Word) : State := holding ((6, 0) :: (List.range l.length).map fun i => (8 + i, l.getD i 0))

theorem wit_MatrixUnitEvents_3 : ¬ (∀ (s : State) (c : MuCmd) (rest : List MuCmd), s.mu.run = none → s.mu.queue = c :: rest → s.mu.saves = [] →
    c.done = none → c.stop = false → c.sent = none → c.started = false → c.op = .dssbind → bits (c.desc.getD 3 0) 51 48 ∉ s.mu.peerDss →
    (mget {} s.mu.dss (bits (c.desc.getD 3 0) 51 48)).bound = true →
    (mget {} s.mu.dss (bits (c.desc.getD 3 0) 51 48)).owner ≠ c.asid → c.mode ≠ 2 → False) :=
  fun h => h { waiting [{ command .dssbind with mode := 0 }] with mu := { (waiting [{ command .dssbind with mode := 0 }]).mu with
    dss := [(0, { bound := true, owner := 5 })] } } _ _ rfl rfl rfl rfl rfl rfl rfl rfl (by decide) (by decide) (by decide) (by decide)

theorem wit_MatrixUnitEvents_4 : ¬ (∀ (s : State) (c : MuCmd) (rest : List MuCmd), s.mu.run = none → s.mu.queue = c :: rest → s.mu.saves = [] →
    c.done = none → c.stop = false → c.sent = none → c.started = false → c.op = .dssbind → bits (c.desc.getD 3 0) 51 48 ∉ s.mu.peerDss →
    ((mget {} s.mu.dss (bits (c.desc.getD 3 0) 51 48)).bound = false ∨ (mget {} s.mu.dss (bits (c.desc.getD 3 0) 51 48)).owner = c.asid
      ∨ c.mode = 2) → False) :=
  fun h => h (waiting [command .dssbind]) _ _ rfl rfl rfl rfl rfl rfl rfl rfl (by decide) (.inl (by decide))

theorem wit_MatrixInstructions_1 :
    CanQueue (.mmaF {} { rm := 0, nud := 15, tile := 0, tok := .w 6, a := ⟨.w 8, false⟩, x := some { klim := 124, kcount := 1, rowmask := 1 } }) {} (.w 6) ⟨.w 8, false⟩ 4 anyState
      (mmaFits false (some { klim := 124, kcount := 1, rowmask := 1 })) :=
  ⟨armed [ap, ap, 64, 0x7C000001], _, _, _, _, _, _, ⟨_, rfl, rfl⟩, fun hh => absurd hh (by decide), trivial, rfl, rfl, rfl, by unfold mmaFits rowsAligned; decide, rfl, by decide, rfl⟩

theorem wit_MatrixInstructions_1b :
    CanQueue (.mmas24F {} { rm := 0, nud := 15, tile := 0, tok := .w 6, a := ⟨.w 8, false⟩, x := none }) {} (.w 6) ⟨.w 8, false⟩ 6 anyState
      (mmaFits true none) :=
  ⟨armed [ap, ap, 64, 0x7C000001, ap, 64], _, _, _, _, _, _, ⟨_, rfl, rfl⟩, fun hh => absurd hh (by decide), trivial, rfl, rfl, rfl, by unfold mmaFits rowsAligned; decide, rfl, by decide, rfl⟩

theorem wit_MatrixInstructions_2 :
    CanQueue (.mrotF {} { rm := 0, tile := 0, tok := .w 6, a := ⟨.w 8, false⟩ }) {} (.w 6) ⟨.w 8, false⟩ 2 anyState
      (fun w ws => w.rotScopeOk (ws.getD 0 0) = true ∧ bits (ws.getD 1 0) 23 12 = 0 ∧ bits (ws.getD 1 0) 31 24 ≤ 124 ∧ bits (ws.getD 1 0) 11 0 ≤ 16) :=
  ⟨armed [0x200000000, 0x7C000010], _, _, _, _, _, _, ⟨_, rfl, rfl⟩, fun hh => absurd hh (by decide), trivial, rfl, rfl, rfl, by decide, rfl, by decide, rfl⟩

theorem wit_MatrixInstructions_3 :
    CanQueue (.mlda {} { nud := 15, tok := .w 6, a := ⟨.w 8, false⟩ }) {} (.w 6) ⟨.w 8, false⟩ 2 anyState
      (areaFits 36 64) :=
  ⟨armed [ap, 64], _, _, _, _, _, _, ⟨_, rfl, rfl⟩, fun hh => absurd hh (by decide), trivial, rfl, rfl, rfl, by unfold areaFits rowsAligned; decide, rfl, by decide, rfl⟩

theorem wit_MatrixInstructions_4 :
    CanQueue (.mld {} { nud := 15, tile := 0, tok := .w 6, a := ⟨.w 8, false⟩ }) {} (.w 6) ⟨.w 8, false⟩ 2 anyState
      (areaFits 32 4) :=
  ⟨armed [ap, 0xFFFFFFFC], _, _, _, _, _, _, ⟨_, rfl, rfl⟩, fun hh => absurd hh (by decide), trivial, rfl, rfl, rfl, by unfold areaFits rowsAligned; decide, rfl, by decide, rfl⟩

theorem wit_MatrixInstructions_5 :
    CanQueue (.mst {} { t := .f32, rm := 0, nud := 15, tile := 0, tok := .w 6, a := ⟨.w 8, false⟩ }) {} (.w 6) ⟨.w 8, false⟩ 2 anyState
      (areaFits 32 (outAlign .f32)) :=
  ⟨armed [ap, 4], _, _, _, _, _, _, ⟨_, rfl, rfl⟩, fun hh => absurd hh (by decide), trivial, rfl, rfl, rfl, by unfold areaFits rowsAligned; decide, rfl, by decide, rfl⟩

theorem wit_MatrixInstructions_6 :
    CanQueue (.mmaStep {} { rm := 0, nud := 15, tile := 0, tok := .w 6, a := ⟨.w 8, false⟩ }) {} (.w 6) ⟨.w 8, false⟩ 5 anyState
      (fun w ws => bits (ws.getD 4 0) 63 28 = 0 ∧ bits (ws.getD 4 0) 15 4 = 0 ∧ mmaFits false none w ws) :=
  ⟨armed [ap, ap, 64, 1, 1], _, _, _, _, _, _, ⟨_, rfl, rfl⟩, fun hh => absurd hh (by decide), trivial, rfl, rfl, rfl, by unfold mmaFits rowsAligned; decide, rfl, by decide, rfl⟩

theorem wit_MatrixInstructions_7 :
    CanQueue (.dssbind {} { tok := .w 6, a := ⟨.w 8, false⟩ }) {} (.w 6) ⟨.w 8, false⟩ 6 anyState
      (fun _ ws => bits (ws.getD 1 0) 63 38 = 0 ∧ bits (ws.getD 3 0) 63 52 = 0 ∧ bits (ws.getD 3 0) 15 12 = 0 ∧ bits (ws.getD 4 0) 63 32 = 0
      ∧ bits (ws.getD 5 0) 63 32 = 0 ∧ bits (ws.getD 3 0) 31 16 ≠ 0 ∧ 4160 + 256 * (bits (ws.getD 1 0) 37 32 + 1) ≤ bits (ws.getD 1 0) 31 0
      ∧ bits (ws.getD 4 0) 31 0 < 0x7F800000 ∧ rowsAligned (ws.getD 0 0) (bits (ws.getD 1 0) 31 0) 64 ∧ 64 ∣ (ws.getD 2 0).toNat) :=
  ⟨armed [ap, 4416, ap, 0x10000, 0x7F7FFFFF, 0], _, _, _, _, _, _, ⟨_, rfl, rfl⟩, fun hh => absurd hh (by decide), trivial, rfl, rfl, rfl, by unfold rowsAligned; decide, rfl, by decide, rfl⟩

theorem wit_MatrixInstructions_8 :
    CanQueue (.dssstep {} { nud := 15, tok := .w 6, a := ⟨.w 8, false⟩ }) {} (.w 6) ⟨.w 8, false⟩ 1 anyState
      (fun _ ws => bits (ws.getD 0 0) 63 4 = 0) :=
  ⟨armed [15], _, _, _, _, _, _, ⟨_, rfl, rfl⟩, fun hh => absurd hh (by decide), trivial, rfl, rfl, rfl, by decide, rfl, by decide, rfl⟩

theorem wit_MatrixInstructions_9 :
    CanQueue (.dsscutStoreImage {} { nud := 15, tok := .w 6, a := ⟨.w 8, false⟩ }) {} (.w 6) ⟨.w 8, false⟩ 2 (fun u => u.mode = 2)
      (fun _ ws => bits (ws.getD 0 0) 63 4 = 0 ∧ 64 ∣ (ws.getD 1 0).toNat) :=
  ⟨armed [15, ap], _, _, _, _, _, _, ⟨_, rfl, rfl⟩, fun hh => absurd hh (by decide), rfl, rfl, rfl, rfl, by decide, rfl, by decide, rfl⟩

/-! The census area at the start of the core's own local store, reached by the supervisor: nothing stops any of its pieces. -/

/-- No region table holds more than n lines. -/
def Small (n : Nat) (m : SMap (List TabRun)) : Prop := ∀ e ∈ m, tableSize e.2 ≤ n

/-- A supervisor whom no other region and no lost byte stops. -/
def Calm (n : Nat) (s : State) : Prop :=
  s.mem.others = [] ∧ s.mem.lost = [] ∧ s.core.number = 0 ∧ s.regs.taskstat = 0x2000 ∧ s.mem.rdc = [] ∧ s.core.mail = [] ∧ Small n s.mem.tables

/-- What reading keeps beside it. -/
def Quiet (n : Nat) (s t : State) : Prop :=
  Calm n t ∧ t.mem.bytes = s.mem.bytes ∧ t.sched = s.sched ∧ t.core.binds = s.core.binds ∧ t.regs.wb = s.regs.wb

theorem Quiet.trans {n m : Nat} {s t u : State} (a : Quiet m s t) (b : Quiet n t u) : Quiet n s u :=
  ⟨b.1, b.2.1.trans a.2.1, b.2.2.1.trans a.2.2.1, b.2.2.2.1.trans a.2.2.2.1, b.2.2.2.2.trans a.2.2.2.2⟩

/-- The piece at offset o of the local store. -/
def pieceAt (o : Nat) : Piece := { loc := { what := .store, key := storeKey 0 o, core := 0 }, off := 0, len := 64, va := ap + wd o }

theorem sum_from (a : Nat) (l : List Nat) : l.foldl (· + ·) a = a + l.foldl (· + ·) 0 := by
  induction l generalizing a with
  | nil => rfl
  | cons x l ih => rw [List.foldl_cons, ih, List.foldl_cons, ih (0 + x)]; omega

theorem size_cons (r : TabRun) (l : List TabRun) : tableSize (r :: l) = r.n + tableSize l := by
  unfold tableSize
  rw [List.map_cons, List.foldl_cons, sum_from, Nat.zero_add]

theorem size_filter (f : TabRun → Bool) (l : List TabRun) : tableSize (l.filter f) ≤ tableSize l := by
  induction l with
  | nil => exact Nat.le_refl _
  | cons r l ih =>
    rw [List.filter_cons]
    split <;> simp only [size_cons] <;> omega

theorem size_append (l : List TabRun) (r : TabRun) : tableSize (l ++ [r]) = tableSize l + r.n := by
  induction l with
  | nil => rw [List.nil_append, size_cons]; show _ + 0 = 0 + _; omega
  | cons q l ih => rw [List.cons_append, size_cons, size_cons, ih]; omega

theorem Small.get {n : Nat} {m : SMap (List TabRun)} (h : Small n m) (i : Nat) : tableSize (mget [] m i) ≤ n := by
  induction m with
  | nil => exact Nat.zero_le _
  | cons x m ih =>
    unfold mget
    split
    · exact Nat.zero_le _
    · split
      · exact h x (.head _)
      · exact ih fun e he => h e (.tail _ he)

theorem Small.mput {n : Nat} {l : List TabRun} {i : Nat} (hl : tableSize l ≤ n) :
    ∀ {m : SMap (List TabRun)}, Small n m → Small n (Sys2Proof.Machine.mput [] m i l)
  | [], _ => by
    unfold Sys2Proof.Machine.mput
    split
    · exact fun e he => absurd he (by simp)
    · rintro e (_ | ⟨_, he⟩)
      · exact hl
      · cases he
  | (k, v) :: m, h => by
    have hm : Small n m := fun e he => h e (.tail _ he)
    have hx : ∀ {q : SMap (List TabRun)}, Small n q → Small n ((i, l) :: q) := by
      rintro q hq e (_ | ⟨_, he⟩)
      · exact hl
      · exact hq e he
    unfold Sys2Proof.Machine.mput
    split
    · split
      · exact h
      · exact hx h
    · split
      · split
        · exact hm
        · exact hx hm
      · rintro e (_ | ⟨_, he⟩)
        · exact h _ (.head _)
        · exact Small.mput hl hm e he

theorem Small.mmap {n : Nat} {f : List TabRun → List TabRun} (hf : ∀ l, tableSize (f l) ≤ tableSize l) :
    ∀ {m : SMap (List TabRun)}, Small n m → Small n (Sys2Proof.Machine.mmap [] f m)
  | [], _ => fun e he => absurd he (by simp [Sys2Proof.Machine.mmap])
  | (k, v) :: m, h => by
    have hm : Small n m := fun e he => h e (.tail _ he)
    unfold Sys2Proof.Machine.mmap
    split
    · exact Small.mmap hf hm
    · rintro e (_ | ⟨_, he⟩)
      · exact Nat.le_trans (hf v) (h _ (.head _))
      · exact Small.mmap hf hm e he

theorem chunk_address {o : Nat} (ho : o ∈ censusChunks) : (bits (ap + wd o) 63 55 = 0 ∧ bit (ap + wd o) 55 = false
    ∧ bits (ap + wd o) 63 42 = 0x1FFF) ∧ bits (ap + wd o) 41 0 = o ∧ o < 2 ^ 19 ∧ 64 ≤ 65536 - (ap + wd o).toNat % 65536 := by
  obtain ⟨k, hk, rfl⟩ := List.mem_map.mp ho
  have hk := List.mem_range.mp hk
  have e : (ap + wd (64 * k)).toNat = 0x007FFC0000000000 + 64 * k := by
    rw [BitVec.toNat_add, show (wd (64 * k)).toNat = 64 * k from Nat.mod_eq_of_lt (by omega)]
    exact Nat.mod_eq_of_lt (by show 0x007FFC0000000000 + _ < _; omega)
  have b : bit (ap + wd (64 * k)) 55 = false := by
    show (ap + wd (64 * k)).getLsbD 55 = false
    rw [BitVec.getLsbD, e, Nat.testBit_eq_decide_div_mod_eq]
    exact decide_eq_false (by omega)
  refine ⟨⟨?_, b, ?_⟩, ?_, by omega, by omega⟩ <;> simp only [bits, e, Nat.shiftRight_eq_div_pow] <;> omega

theorem calm_translate {n : Nat} {s : State} (h : Calm n s) (k : Kind) (hk : k ≠ .exec) {o : Nat} (ho : o ∈ censusChunks) :
    s.translateAll (s.who true) k (ap + wd o) 0 64 (pagesOf 64) = .ok ([pieceAt o], s) := by
  obtain ⟨⟨h1, h2, h3⟩, h4, h5, h6⟩ := chunk_address ho
  have a : s.aperture (s.who true) k (ap + wd o) = .ok (pieceAt o).loc := by
    unfold State.aperture
    simp only [h4, h5, if_true, hk, if_false, h.2.2.1]
    rfl
  have t : s.translate (s.who true) k (ap + wd o) = .ok ((pieceAt o).loc, s) := by
    unfold State.translate
    simp [h1, h2, inAperture, h3, a, Except.map]
  have z : ap + wd o + wd 0 = ap + wd o := BitVec.add_zero _
  show State.translateAll s (s.who true) k (ap + wd o) 0 64 2 = _
  simp only [State.translateAll, z, t, Nat.min_eq_left h6]
  rfl

theorem calm_pieces {n : Nat} {s : State} (h : Calm n s) (k : Kind) (hk : k ≠ .exec) {o : Nat} (ho : o ∈ censusChunks) :
    s.openPieces (s.who true) k (ap + wd o) 64 64 false = .ok ([pieceAt o], s) := by
  have m : s.optimistic = false := by simp [State.optimistic, State.opt?, h.2.2.2.1, bit]
  have c : s.linkClosed [pieceAt o] = false := by simp [State.linkClosed, pieceAt]
  unfold State.openPieces
  rw [calm_translate h k hk ho]
  simp only [m, c]
  rfl

theorem calm_meets {n : Nat} {s : State} (h : Calm n s) (k : Kind) (va : Word) (ps : List Piece) (wr : Bool) : s.meetNone k va ps false wr = .ok () := by
  have c : s.conflict ps wr false = none := by
    unfold State.conflict conflictIn
    rw [h.1, List.findSome?_eq_none_iff]
    intro p _
    split <;> rfl
  unfold State.meetNone
  rw [c]

theorem calm_open {n : Nat} {s : State} (h : Calm n s) (k : Kind) (hk : k ≠ .exec) {o : Nat} (ho : o ∈ censusChunks) :
    s.openAccess (s.who true) k (ap + wd o) 64 false = .ok ([pieceAt o], s) := by
  unfold State.openAccess
  rw [calm_pieces h k hk ho]
  show (do s.meetNone k (ap + wd o) [pieceAt o] false; _) = _
  rw [calm_meets h]
  rfl

theorem calm_close {n : Nat} {s : State} (h : Calm n s) : Quiet n s s.closeRegion := by
  obtain ⟨h1, h2, h3, h4, h5, h6, h7⟩ := h
  refine ⟨⟨?_, h2, h3, h4, h5, h6, Small.mmap (size_filter _) h7⟩, rfl, rfl, rfl, rfl⟩
  show s.mem.others.filter _ = []
  rw [h1]; rfl

theorem calm_boundary {n : Nat} {s : State} (h : Calm n s) : Quiet n s s.boundary := by
  obtain ⟨⟨h1, h2, h3, h4, h5, h6, h7⟩, q⟩ := calm_close h
  have wb (t : State) (ht : t.mem.rdc = []) : t.writeBack = t.markClean [] := by
    have e : t.rdcDirtyLines = [] := by unfold State.rdcDirtyLines; rw [ht]; rfl
    unfold State.writeBack
    rw [e]; rfl
  unfold State.boundary State.fullFence
  rw [if_pos (by decide)]
  refine (congrArg (fun x => Quiet n s (x.selfInvalidate.count 4 1)) (wb { s.closeRegion with mem := { s.closeRegion.mem with stale := [] } } h5)).mpr ?_
  refine ⟨⟨h1, h2, h3, h4, ?_, h6, h7⟩, q⟩
  show (s.closeRegion.mem.rdc.map _).filter _ = []
  rw [h5]; rfl

theorem calm_enter {n : Nat} {s : State} (h : Calm n s) (hn : n < 65536) (r : TabRun) (hr : r.n = 1) :
    ∃ t, s.enterOnce r = some t ∧ Quiet (n + 1) s t := by
  obtain ⟨h1, h2, h3, h4, h5, h6, h7⟩ := h
  have up : Small (n + 1) s.mem.tables := fun e he => Nat.le_succ_of_le (h7 e he)
  unfold State.enterOnce State.enterTable
  dsimp only
  split
  · exact ⟨s, rfl, ⟨h1, h2, h3, h4, h5, h6, up⟩, rfl, rfl, rfl, rfl⟩
  · have g := h7.get (s.tableOf r.line)
    rw [if_neg (by omega)]
    exact ⟨_, rfl, ⟨h1, h2, h3, h4, h5, h6, Small.mput (by rw [size_append]; omega) up⟩, rfl, rfl, rfl, rfl⟩

theorem calm_lines (run : Nat → TabRun) (hr : ∀ l, (run l).n = 1) : ∀ (l : List Nat) {n : Nat} {s : State}, Calm n s → n + l.length ≤ 65536 →
    ∃ t, s.enterLines run l = .ok t ∧ Quiet (n + l.length) s t
  | [], _, s, h, _ => ⟨s, rfl, h, rfl, rfl, rfl, rfl⟩
  | x :: l, n, s, h, hn => by
    rw [List.length_cons] at hn ⊢
    obtain ⟨t, e, q⟩ := calm_enter h (by omega) (run x) (hr x)
    obtain ⟨u, f, r⟩ := calm_lines run hr l q.1 (by omega)
    refine ⟨u, ?_, (show n + (l.length + 1) = n + 1 + l.length by omega) ▸ q.trans r⟩
    unfold State.enterLines
    rw [e]
    exact f

theorem calm_record {n : Nat} {s : State} (h : Calm n s) (ps : List Piece) (rd wr : Bool)
    (hn : n + (trackedLines (ps.filter fun p => p.direct false)).length ≤ 65536) :
    ∃ t, s.record ps rd wr = .ok t ∧ Quiet (n + (trackedLines (ps.filter fun p => p.direct false)).length) s t := by
  have key (z : State) (r : Region) (qz : Quiet n s z) : ∃ t,
      (match ({ z with core := { z.core with region := r } } : State).enterLines
          ({ z with core := { z.core with region := r } } : State).ownRun (trackedLines (ps.filter fun p => p.direct false)) with
      | .ok s => (.ok s : Res State)
      | .error die => .error (.wait (.table die))) = .ok t ∧ Quiet (n + (trackedLines (ps.filter fun p => p.direct false)).length) s t := by
    obtain ⟨t, e, q⟩ := calm_lines (State.ownRun { z with core := { z.core with region := r } }) (fun _ => rfl)
      (trackedLines (ps.filter fun p => p.direct false)) (s := { z with core := { z.core with region := r } }) qz.1 hn
    rw [e]
    exact ⟨t, rfl, qz.trans q⟩
  unfold State.record
  dsimp only
  by_cases full : 512 < s.core.region.lines.length + ((trackedLines ps).filter fun l => !s.core.region.lines.contains l).length
  · simp only [if_pos full]
    exact key { s.boundary with regs := { s.boundary.regs with impbnd := bump s.boundary.regs.impbnd 0 } } _ (calm_boundary h)
  · simp only [if_neg full]
    exact key s _ ⟨h, rfl, rfl, rfl, rfl⟩

theorem piece_lines (o : Nat) (ho : o ∈ censusChunks) : (trackedLines ([pieceAt o].filter fun p => p.direct false)).length = 1 := by
  revert o
  decide +kernel

theorem calm_each {n : Nat} {s : State} (h : Calm n s) {o : Nat} (ho : o ∈ censusChunks) (rd wr : Bool) (hn : n < 65536) :
    ∃ t, s.recordEach rd wr false (accessesOf 64 [pieceAt o]) = .ok t ∧ Quiet (n + 1) s t := by
  have l := piece_lines o ho
  obtain ⟨t, e, q⟩ := calm_record h [pieceAt o] rd wr (by omega)
  rw [l] at q
  refine ⟨t, ?_, q⟩
  show (do let s ← s.record [pieceAt o] rd wr false; _) = _
  rw [e]
  rfl

theorem calm_write {n : Nat} {s : State} (h : Calm n s) (o : Nat) (bs : List Byte) : Calm n (s.writePieces [pieceAt o] bs 15) := by
  obtain ⟨h1, h2, h3, h4, h5, h6, h7⟩ := h
  exact ⟨h1, by show s.mem.lost.filter _ = []; rw [h2]; rfl, h3, h4, h5, by show keepMail s.core.mail _ _ = []; rw [h6]; rfl, h7⟩

theorem calm_plain {n : Nat} {s : State} (h : Calm n s) (k : Kind) (hk : k = .read ∨ k = .write) {o : Nat} (ho : o ∈ censusChunks)
    (hn : n < 65536) : ∃ t, s.plainAccess (s.who true) k (ap + wd o) 64 = .ok ([pieceAt o], t) ∧ Quiet (n + 1) s t := by
  have none : s.mailHit [pieceAt o] = none := by unfold State.mailHit; rw [h.2.2.2.2.2.1]; rfl
  have drop : Calm n (s.dropMail [pieceAt o]) := by
    obtain ⟨h1, h2, h3, h4, h5, h6, h7⟩ := h
    exact ⟨h1, h2, h3, h4, h5, by show s.core.mail.filter _ = []; rw [h6]; rfl, h7⟩
  unfold State.plainAccess
  rw [calm_pieces h k (by rcases hk with rfl | rfl <;> decide) ho]
  rcases hk with rfl | rfl
  · obtain ⟨t, e, q⟩ := calm_each h ho true false hn
    refine ⟨t, ?_, q⟩
    show (do let s ← s.readMeets (ap + wd o) 64 [pieceAt o]; _) = _
    unfold State.readMeets
    rw [none]
    dsimp only
    rw [calm_meets h]
    show (do let s ← s.recordEach true false false (accessesOf 64 [pieceAt o]); _) = _
    rw [e]
    rfl
  · obtain ⟨t, e, q⟩ := calm_each drop ho false true hn
    refine ⟨t, ?_, q⟩
    show (do let s ← s.writeMeets .write (ap + wd o) 64 [pieceAt o]; _) = _
    unfold State.writeMeets
    rw [calm_meets h]
    show (do let s ← (s.dropMail [pieceAt o]).recordEach false true false (accessesOf 64 [pieceAt o]); _) = _
    rw [e]
    rfl

theorem calm_reach {n : Nat} {s : State} (h : Calm n s) (k : Kind) (hk : k ≠ .exec) :
    ∀ l : List Nat, (∀ o ∈ l, o ∈ censusChunks) → s.censusCheck k ap l = .ok ()
  | [], _ => rfl
  | o :: os, hl => by
    unfold State.censusCheck
    rw [calm_open h k hk (hl o (.head _))]
    exact calm_reach h k hk os fun x hx => hl x (.tail _ hx)

theorem calm_store (bs : List Byte) : ∀ (l : List Nat) (n : Nat) (s : State), Calm n s → n + l.length ≤ 65536 → (∀ o ∈ l, o ∈ censusChunks) →
    ∃ w, s.censusWrite ap bs l = .ok w
  | [], _, s, _, _, _ => ⟨s, rfl⟩
  | o :: os, n, s, h, hn, hl => by
    rw [List.length_cons] at hn
    obtain ⟨t, e, q⟩ := calm_plain h .write (.inr rfl) (hl o (.head _)) (by omega)
    unfold State.censusWrite
    rw [e]
    exact calm_store bs os _ _ (calm_write q.1 o _) (by omega) fun x hx => hl x (.tail _ hx)

/-- Reading it while memory lists nothing gives zeros and leaves the census as it is. -/
theorem calm_load : ∀ (l : List Nat) (n : Nat) (s : State), Calm n s → n + l.length ≤ 65536 → s.mem.bytes = [] → (∀ o ∈ l, o ∈ censusChunks) →
    ∃ w m, s.censusRead ap l = .ok (List.replicate m 0, w) ∧ ∃ k, Quiet k s w
  | [], n, s, h, _, _, _ => ⟨s, 0, rfl, n, h, rfl, rfl, rfl, rfl⟩
  | o :: os, n, s, h, hn, hb, hl => by
    rw [List.length_cons] at hn
    obtain ⟨t, e, q⟩ := calm_plain h .read (.inl rfl) (hl o (.head _)) (by omega)
    have hm : t.mem.bytes = [] := q.2.1.trans hb
    obtain ⟨w, m, f, k, r⟩ := calm_load os _ t q.1 (by omega) hm fun x hx => hl x (.tail _ hx)
    have hp : t.readPieces 15 .l1 false [pieceAt o] = (List.replicate 64 0, none, t) := by
      have b : t.homeBytes (storeKey 0 o) 64 = List.replicate 64 0 := by
        unfold State.homeBytes
        rw [hm]
        rfl
      have g : t.homeLost (storeKey 0 o) 64 = none := by
        unfold State.homeLost
        rw [List.find?_eq_none]
        intro j _
        have big : ¬ storeKey 0 o + j < 2 ^ 60 := by
          unfold storeKey
          intro hh
          exact absurd (Nat.lt_of_le_of_lt (Nat.le_trans (Nat.le_add_right _ _) (Nat.le_add_right _ _)) hh) (Nat.lt_irrefl _)
        show ¬ (t.mem.lost.contains _ || (decide (storeKey 0 o + j < 2 ^ 60) && _)) = true
        rw [q.1.2.1, decide_eq_false big]
        exact Bool.false_ne_true
      unfold State.readPieces State.readPiece
      simp only [pieceAt, b, g, State.readPieces]
      rfl
    refine ⟨w, 64 + m, ?_, k, q.trans r⟩
    unfold State.censusRead
    rw [e]
    show (match t.readPieces 15 .l1 false [pieceAt o] with
      | (bs, l, s) => (match l with
        | some j => (Except.error (.trap cMEMLOST (lostInfo .read (ap + wd o) j)) : Res (List Byte × State))
        | none => do
          let (cs, s) ← s.censusRead ap os
          .ok (bs ++ cs, s))) = _
    rw [hp]
    dsimp only
    rw [f]
    show (Except.ok (List.replicate 64 0 ++ List.replicate m 0, w) : Res (List Byte × State)) = _
    rw [List.replicate_append_replicate]

theorem sites_zero : ∀ (n m : Nat), sitesOf n (List.replicate m 0) = []
  | 0, _ => rfl
  | n + 1, m => by
    have w (k : Nat) (hk : k ≤ 8) : wordOf (List.replicate k 0) = 0 := by
      revert k; decide
    unfold sitesOf
    simp only [List.drop_replicate, List.take_replicate, w _ (Nat.min_le_left _ _), if_true]
    exact sites_zero n _

theorem wit_AreasPlacesAndCensus_5 : ¬ (∀ (g : Guard) (x : CensusArgs) (s u v w : State) (va : Word), Enters s (.censusStore g x) g u → (u.opt? = true → 2 ≤ u.mode) → u.ready (s.ctx (.censusStore g x)) [.src x.a false, .dst x.d] → u.take x.a = (va, v) → 64 ∣ va.toNat → censusReach v .write va → v.accepts x.d → (v.put x.d (wd v.sched.census.length)).censusWrite va v.censusImage censusChunks = .ok w → False) := by
  intro h
  have hc : Calm 0 ((sup.awake.past (sup.ctx (.censusStore {} ⟨.w 9, .w 2⟩))).take (.w 2)).2 := by unfold Calm Small; decide
  have hd : Calm 0 (((sup.awake.past (sup.ctx (.censusStore {} ⟨.w 9, .w 2⟩))).take (.w 2)).2.put (.w 9) (wd 0)) := by unfold Calm Small; decide
  obtain ⟨w, hw⟩ := calm_store (((sup.awake.past (sup.ctx (.censusStore {} ⟨.w 9, .w 2⟩))).take (.w 2)).2.censusImage) censusChunks 0 _ hd (by decide) fun _ h => h
  exact h {} ⟨.w 9, .w 2⟩ sup _ _ w ap ⟨_, rfl, rfl⟩ (fun hh => absurd hh (by decide)) rfl rfl (by decide)
    (calm_reach hc .write (by decide) _ fun _ h => h) rfl hw

/-- The supervisor after CENSUS has read its operand, with the sites of a census. -/
def counting (l : List Site) : State := { sup with sched := { sup.sched with census := l } }

theorem wit_AreasPlacesAndCensus_6 : ¬ (∀ (g : Guard) (x : CensusArgs) (s u v w : State) (va : Word) (bs : List Byte), Enters s (.censusCompare g x) g u → (u.opt? = true → 2 ≤ u.mode) → u.ready (s.ctx (.censusCompare g x)) [.src x.a false, .dst x.d] → u.take x.a = (va, v) → 64 ∣ va.toNat → censusReach v .read va → v.censusRead va censusChunks = .ok (bs, w) → w.accepts x.d → lowestDiff w.sched.census (sitesOf 4096 bs) = none → False) := by
  intro h
  have hc : Calm 0 (((counting []).awake.past ((counting []).ctx (.censusCompare {} ⟨.w 9, .w 2⟩))).take (.w 2)).2 := by unfold Calm Small; decide
  obtain ⟨w, m, hw, _, -, -, hs, hb, hp⟩ := calm_load censusChunks 0 _ hc (by decide) rfl fun _ h => h
  refine h {} ⟨.w 9, .w 2⟩ (counting []) _ _ w ap _ ⟨_, rfl, rfl⟩ (fun hh => absurd hh (by decide)) rfl rfl (by decide)
    (calm_reach hc .read (by decide) _ fun _ h => h) hw ?_ ?_
  · show (w.core.binds.any fun _ => _) = false
    rw [hb]
    rfl
  · rw [sites_zero, hs]
    rfl

theorem wit_AreasPlacesAndCensus_7 : ¬ (∀ (g : Guard) (x : CensusArgs) (s u v w : State) (va : Word) (bs : List Byte), Enters s (.censusCompare g x) g u → (u.opt? = true → 2 ≤ u.mode) → u.ready (s.ctx (.censusCompare g x)) [.src x.a false, .dst x.d] → u.take x.a = (va, v) → 64 ∣ va.toNat → censusReach v .read va → v.censusRead va censusChunks = .ok (bs, w) → w.accepts x.d → ∀ a, lowestDiff w.sched.census (sitesOf 4096 bs) = some a → False) := by
  intro h
  have hc : Calm 0 (((counting [{ addr := 4, nan := 1 }]).awake.past ((counting [{ addr := 4, nan := 1 }]).ctx (.censusCompare {} ⟨.w 9, .w 2⟩))).take (.w 2)).2 := by unfold Calm Small; decide
  obtain ⟨w, m, hw, _, -, -, hs, hb, hp⟩ := calm_load censusChunks 0 _ hc (by decide) rfl fun _ h => h
  refine h {} ⟨.w 9, .w 2⟩ (counting [{ addr := 4, nan := 1 }]) _ _ w ap _ ⟨_, rfl, rfl⟩ (fun hh => absurd hh (by decide)) rfl rfl (by decide)
    (calm_reach hc .read (by decide) _ fun _ h => h) hw ?_ 4 ?_
  · show (w.core.binds.any fun _ => _) = false
    rw [hb]
    rfl
  · rw [sites_zero, hs]
    rfl

end Sys2Proof.Tests
end

section
/-! PROOF. What every step keeps: an invariant is a property of home memory, the RDC, the lines of the caches, PREEMPT and CYC that the few ways in
which these change keep; every operation of the model keeps it, and so does every step. -/
namespace Sys2Proof.Machine

/-- The lines of a list hold a line of the RDC (R48, R51). -/
def rdcHas (l : List Line) (line : Nat) : Prop := (l.find? fun x => x.lv = Lv.rdc && x.line = line).isSome = true

/-- A property of the state that every step keeps: what it says of home memory's bytes, of the RDC's bytes and of the lines held, of the PREEMPT
registers, and of CYC; and why each way in which the model changes these keeps it. -/
structure Invariant where
  mem : SMap Byte → SMap RdcByte → List Line → Prop
  preempt : SMap Word → Prop
  cyc : Nat → Prop
  /-- home memory's bytes change to others of canonical form -/
  bytes {b b' : SMap Byte} {r : SMap RdcByte} {l : List Line} : (mwf 0 b = true → mwf 0 b' = true) → mem b r l → mem b' r l
  /-- the lines held change, and the RDC's stay -/
  lines {b : SMap Byte} {r : SMap RdcByte} {l l' : List Line} : (∀ line, rdcHas l line → rdcHas l' line) → mem b r l → mem b r l'
  /-- bytes of the RDC go -/
  rdcFilter {b : SMap Byte} {r : SMap RdcByte} {l : List Line} (p : Nat × RdcByte → Bool) : mem b r l → mem b (r.filter p) l
  /-- bytes of the RDC change in place -/
  rdcMap {b : SMap Byte} {r : SMap RdcByte} {l : List Line} (f : Nat × RdcByte → Nat × RdcByte) :
    (∀ x, (f x).1 = x.1) → mem b r l → mem b (r.map f) l
  /-- a byte of a line that the RDC holds is put there -/
  rdcPut {b : SMap Byte} {r : SMap RdcByte} {l : List Line} (k : Nat) (v : RdcByte) :
    rdcHas l (k / 128 * 128) → mem b r l → mem b (mset r k (some v)) l
  /-- a line of the RDC goes, with all its bytes -/
  rdcDrop {b : SMap Byte} {r : SMap RdcByte} {l : List Line} (line : Nat) : mem b (r.filter fun x => x.1 / 128 * 128 ≠ line) l →
    mem b (r.filter fun x => x.1 / 128 * 128 ≠ line) (l.filter fun x => !(x.lv = Lv.rdc && x.line = line))
  /-- every cache is emptied -/
  empty {b : SMap Byte} {r : SMap RdcByte} {l : List Line} : mem b r l → mem b [] []
  /-- a request for pre-emption is made, acknowledged or taken back -/
  preemptPut {p : SMap Word} (n : Nat) (w : Word) : preempt p → preempt (mput 0 p n w)
  /-- every request is taken back -/
  noPreempt : preempt []
  /-- time passes -/
  time (n : Nat) : cyc (n % 2 ^ 64)

/-- The state has the invariant's property. -/
def Invariant.Holds (I : Invariant) (s : State) : Prop := I.mem s.mem.bytes s.mem.rdc s.mem.lines ∧ I.preempt s.sched.preempt ∧ I.cyc s.cyc

/-- A stop of an instruction leaves the property to the state it names, if it names one. -/
def Invariant.Stops (I : Invariant) : Stop → Prop
  | .trapIn s _ _ | .waitIn s _ => I.Holds s
  | .trap _ _ | .wait _ => True

/-- An instruction that ran to its end leaves it to its state. -/
def Invariant.Leaves (I : Invariant) : Ended → Prop
  | .completed s | .left s => I.Holds s

/-- What an event or instruction answers has it. -/
def Invariant.Next (I : Invariant) (o : Out) : Prop := ∀ t, o = .next t → I.Holds t

/-- A computation that may stop: its value is such that A, what it stops with such that E. -/
def Ends {ε α : Type} (E : ε → Prop) (A : α → Prop) : Except ε α → Prop
  | .ok a => A a
  | .error e => E e

/-- The same where nothing is said of a stop. -/
abbrev Gives {ε α : Type} (A : α → Prop) (m : Except ε α) : Prop := Ends (fun _ => True) A m

/-- A check of an instruction: it answers no state. -/
abbrev Invariant.Checks {α : Type} (I : Invariant) (m : Res α) : Prop := Ends I.Stops (fun _ => True) m

section
variable {ε α β : Type} {E : ε → Prop} {A : α → Prop} {B : β → Prop} {m : Except ε α}

theorem Ends.bind {k : α → Except ε β} (h : Ends E A m) (hk : ∀ a, A a → Ends E B (k a)) : Ends E B (m >>= k) := by
  cases m with
  | ok a => exact hk a h
  | error e => exact h

theorem Ends.map {f : α → β} (h : Ends E A m) (hf : ∀ a, A a → B (f a)) : Ends E B (m.map f) := by
  cases m with
  | ok a => exact hf a h
  | error e => exact h

/-- The value of a computation that does not stop. -/
theorem Ends.ok {a : α} (h : Ends E A m) (e : m = .ok a) : A a := by
  subst e; exact h

/-- What a computation that stops stops with. -/
theorem Ends.error {e : ε} (h : Ends E A m) (he : m = .error e) : E e := by
  subst he; exact h

theorem Gives.any (m : Except ε α) : Gives (fun _ => True) m := by
  cases m <;> trivial

theorem Ends.of {a : α} (h : A a) : Ends E A (.ok a) := h

/-- A computation that stops with what E allows. -/
theorem Ends.stop {e : ε} (h : E e) : Ends E A (.error e) := h

/-- A loop of checks. -/
theorem Ends.forIn {l : List α} {g : α → Except ε PUnit} (h : ∀ a, Ends E (fun _ => True) (g a)) :
    Ends E (fun _ => True) (forIn l PUnit.unit fun a _ => do g a; pure (ForInStep.yield PUnit.unit)) := by
  induction l with
  | nil => exact trivial
  | cons a l ih =>
    rw [List.forIn_cons]
    cases e : g a with
    | ok _ => exact ih
    | error _ => exact (h a).error e

theorem Ends.ite {c : Prop} [Decidable c] {m' : Except ε α} (h : Ends E A m) (h' : Ends E A m') : Ends E A (if c then m else m') := by
  split
  · exact h
  · exact h'

end

section
variable {I : Invariant} {s t : State}

/-- The property is one of five components: a state that has those of another has the property with it. -/
theorem Invariant.Holds.frame {pc : Word} {regs : Regs} {core : Core} {m : Memory} {q : Sched} {opt : Opt} {mu : Mu} {eng : Eng} {sys : Sys}
    {ticks : Nat} {inputs : List (Nat × Instr)} {peers : List (Nat × Peer)} {retry : Bool} (h : I.Holds s)
    (e : (m.bytes, m.rdc, m.lines, q.preempt) = (s.mem.bytes, s.mem.rdc, s.mem.lines, s.sched.preempt)) :
    I.Holds ⟨pc, s.cyc, regs, core, m, q, opt, mu, eng, sys, ticks, inputs, peers, retry⟩ := by
  simp only [Prod.mk.injEq] at e
  obtain ⟨hb, hr, hl, hp⟩ := e
  unfold Invariant.Holds
  rw [hb, hr, hl, hp]
  exact h

/-- Time passes. -/
theorem Invariant.Holds.later {ticks n : Nat} (h : I.Holds s) : I.Holds { s with ticks := ticks, cyc := n % 2 ^ 64 } := ⟨h.1, h.2.1, I.time n⟩

/-- Home memory's bytes change to others of canonical form. -/
theorem Invariant.Holds.ofBytes (h : I.Holds s) (hb : mwf 0 s.mem.bytes = true → mwf 0 t.mem.bytes = true)
    (e : (t.mem.rdc, t.mem.lines, t.sched.preempt, t.cyc) = (s.mem.rdc, s.mem.lines, s.sched.preempt, s.cyc)) : I.Holds t := by
  simp only [Prod.mk.injEq] at e
  obtain ⟨hr, hl, hp, hc⟩ := e
  unfold Invariant.Holds
  rw [hr, hl, hp, hc]
  exact ⟨I.bytes hb h.1, h.2⟩

/-- The lines held change, and the RDC's stay. -/
theorem Invariant.Holds.ofLines (h : I.Holds s) (hl : ∀ line, rdcHas s.mem.lines line → rdcHas t.mem.lines line)
    (e : (t.mem.bytes, t.mem.rdc, t.sched.preempt, t.cyc) = (s.mem.bytes, s.mem.rdc, s.sched.preempt, s.cyc)) : I.Holds t := by
  simp only [Prod.mk.injEq] at e
  obtain ⟨hb, hr, hp, hc⟩ := e
  unfold Invariant.Holds
  rw [hb, hr, hp, hc]
  exact ⟨I.lines hl h.1, h.2⟩

theorem Invariant.Holds.ite {c : Prop} [Decidable c] (hs : I.Holds s) (ht : I.Holds t) : I.Holds (if c then s else t) := by
  split
  · exact hs
  · exact ht

/-- An operand that an instruction reads under a condition. -/
theorem Invariant.Holds.readIf {α : Type} {c : Prop} [Decidable c] {x : α × State} {a : α} (h : I.Holds s) (hx : I.Holds x.2) :
    I.Holds (if c then x else (a, s)).2 := by
  split
  · exact hx
  · exact h

theorem Invariant.Holds.readUnless {α : Type} {c : Prop} [Decidable c] {x : α × State} {a : α} (h : I.Holds s) (hx : I.Holds x.2) :
    I.Holds (if c then (a, s) else x).2 := by
  split
  · exact h
  · exact hx

theorem Invariant.Holds.foldl_mem {β : Type} {f : State → β → State} {l : List β} (h : I.Holds s)
    (hf : ∀ t, ∀ b ∈ l, I.Holds t → I.Holds (f t b)) : I.Holds (l.foldl f s) := by
  induction l generalizing s with
  | nil => exact h
  | cons b l ih => exact ih (hf s b (.head l) h) fun t c hc => hf t c (.tail b hc)

theorem Invariant.Holds.foldl {β : Type} {f : State → β → State} {l : List β} (h : I.Holds s) (hf : ∀ t b, I.Holds t → I.Holds (f t b)) :
    I.Holds (l.foldl f s) :=
  h.foldl_mem fun t b _ => hf t b

theorem Invariant.Next.ite {c : Prop} [Decidable c] {o o' : Out} (h : I.Next o) (h' : I.Next o') : I.Next (if c then o else o') := by
  split
  · exact h
  · exact h'

theorem Invariant.Holds.next (h : I.Holds s) : I.Next (.next s) := by
  rintro _ ⟨⟩
  exact h

end

/-! ### The lines of the RDC -/

theorem rdcHas_iff {l : List Line} {line : Nat} : rdcHas l line ↔ ∃ x ∈ l, x.lv = .rdc ∧ x.line = line := by
  simp [rdcHas]

theorem rdcHas_map {l : List Line} {line : Nat} {f : Line → Line} (hf : ∀ x, (f x).lv = x.lv ∧ (f x).line = x.line) (h : rdcHas l line) :
    rdcHas (l.map f) line := by
  obtain ⟨x, hx, hlv, hline⟩ := rdcHas_iff.1 h
  exact rdcHas_iff.2 ⟨f x, List.mem_map_of_mem hx, (hf x).1.trans hlv, (hf x).2.trans hline⟩

theorem rdcHas_cons {l : List Line} {line : Nat} (x : Line) (h : rdcHas l line) : rdcHas (x :: l) line := by
  obtain ⟨y, hy, hlv, hline⟩ := rdcHas_iff.1 h
  exact rdcHas_iff.2 ⟨y, .tail x hy, hlv, hline⟩

theorem rdcHas_filter {l : List Line} {line : Nat} {p : Line → Bool} (hp : ∀ x, x.lv = .rdc → p x = true) (h : rdcHas l line) :
    rdcHas (l.filter p) line := by
  obtain ⟨x, hx, hlv, hline⟩ := rdcHas_iff.1 h
  exact rdcHas_iff.2 ⟨x, List.mem_filter.2 ⟨hx, hp x hlv⟩, hlv, hline⟩

/-- A line changes where it stands. -/
theorem rdcHas_set {l : List Line} {line k : Nat} {x y : Line} (hk : l[k]? = some x) (hlv : y.lv = x.lv) (hline : y.line = x.line)
    (h : rdcHas l line) : rdcHas (l.set k y) line := by
  obtain ⟨z, hz, hz1, hz2⟩ := rdcHas_iff.1 h
  obtain ⟨j, hj⟩ := List.mem_iff_getElem?.1 hz
  by_cases hjk : j = k
  · subst hjk
    cases hj.symm.trans hk
    have hlt := (List.getElem?_eq_some_iff.1 hj).1
    exact rdcHas_iff.2 ⟨y, List.mem_set hlt y, hlv.trans hz1, hline.trans hz2⟩
  · refine rdcHas_iff.2 ⟨z, List.mem_iff_getElem?.2 ⟨j, ?_⟩, hz1, hz2⟩
    rw [List.getElem?_set_ne (Ne.symm hjk)]
    exact hj

/-- The lines of a range are multiples of 128. -/
theorem linesOf_dvd {key n line : Nat} (h : line ∈ linesOf key n) : line / 128 * 128 = line := by
  unfold linesOf at h
  split at h
  · cases h
  · obtain ⟨j, -, rfl⟩ := List.mem_map.1 h
    omega

section
variable {I : Invariant} {s t : State}

/-! ### Memory at its homes (R89, R135, R248) -/

theorem Invariant.Holds.countBroken {v : Line} (h : I.Holds s) : I.Holds (s.countBroken v) := h

theorem Invariant.Holds.countKept {v : Line} (h : I.Holds s) : I.Holds (s.countKept v) := h.ite h

theorem Invariant.Holds.sweepFor {d : Nat} (h : I.Holds s) : I.Holds (s.sweepFor d) := by
  refine h.ofLines (fun line => rdcHas_map fun x => ?_) rfl
  split <;> exact ⟨rfl, rfl⟩

theorem Invariant.Holds.notify {key n : Nat} (h : I.Holds s) : I.Holds (s.notify key n) := h

theorem Invariant.Holds.putHome {key : Nat} {bs : List Byte} (h : I.Holds s) : I.Holds (s.putHome key bs) :=
  h.ofBytes (mputs_wf bs _ key) rfl

theorem Invariant.Holds.writeHome {key : Nat} {bs : List Byte} (h : I.Holds s) : I.Holds (s.writeHome key bs) :=
  Invariant.Holds.putHome (h.frame (by rfl))

/-- A change to a line of a level that leaves it that line. -/
theorem Invariant.Holds.updLine {lv : Lv} {line : Nat} {f : Line → Line} (h : I.Holds s)
    (hf : ∀ x, x.lv = lv → x.line = line → (f x).lv = x.lv ∧ (f x).line = x.line := by intros; exact ⟨rfl, rfl⟩) :
    I.Holds (s.updLine lv line f) := by
  refine h.ofLines (fun line => rdcHas_map fun x => ?_) rfl
  split
  · next hx =>
    simp only [Bool.and_eq_true, decide_eq_true_eq] at hx
    exact hf x hx.1 hx.2
  · exact ⟨rfl, rfl⟩

/-- A line of another level than the RDC goes. -/
theorem Invariant.Holds.dropLine {lv : Lv} {line : Nat} (hlv : lv ≠ .rdc) (h : I.Holds s) : I.Holds (s.dropLine lv line) := by
  refine h.ofLines (fun line => rdcHas_filter fun x hx => ?_) rfl
  simp [hx, Ne.symm hlv]

theorem Invariant.Holds.reachHbm {line dirty : Nat} (h : I.Holds s) : I.Holds (s.reachHbm line dirty) := h

theorem Invariant.Holds.receive {v : Line} {dirty : Nat} (h : I.Holds s) : I.Holds (s.receive v dirty) :=
  (h.reachHbm.ite h).updLine

theorem Invariant.Holds.arriveHome {line dirty : Nat} (h : I.Holds s) : I.Holds (s.arriveHome line dirty) := by
  unfold State.arriveHome
  split
  · exact h.updLine
  · split
    · exact h.receive
    · exact h

theorem Invariant.Holds.loseUnit {key : Nat} (h : I.Holds s) : I.Holds (s.loseUnit key) :=
  Invariant.Holds.updLine (h.frame (by rfl))

theorem Invariant.Holds.uncover {line gone : Nat} (h : I.Holds s) : I.Holds (s.uncover line gone) :=
  Invariant.Holds.foldl (h.frame (by rfl)) fun _ _ ht => ht.loseUnit

/-! ### The RDC's write-back and self-invalidation (R113, R114) -/

theorem Invariant.Holds.sendSector {u : Nat} {ds : List (Nat × RdcByte)} (h : I.Holds s) : I.Holds (s.sendSector u ds) := by
  have each : I.Holds (ds.foldl (fun s x => s.putHome x.1 [x.2.v]) s) := h.foldl fun _ _ ht => ht.putHome
  unfold State.sendSector
  split
  · exact each.frame (by rfl)
  · exact h.putHome.ite each

theorem Invariant.Holds.sendHome {line : Nat} (h : I.Holds s) : I.Holds (s.sendHome line) := by
  unfold State.sendHome
  dsimp only
  split
  · exact h
  · split
    · exact h.frame (by rfl)
    · refine Invariant.Holds.arriveHome (h.foldl fun t k ht => ?_)
      split
      · exact ht
      · exact ht.sendSector

theorem Invariant.Holds.markClean {l : List Nat} (h : I.Holds s) : I.Holds (s.markClean l) := by
  refine ⟨I.lines (fun line => rdcHas_map fun x => ?_) (I.rdcMap _ (fun x => ?_) h.1), h.2⟩
  · split <;> exact ⟨rfl, rfl⟩
  · split <;> rfl

theorem Invariant.Holds.writeBack (h : I.Holds s) : I.Holds s.writeBack :=
  (h.foldl fun _ _ ht => ht.sendHome).markClean

theorem Invariant.Holds.selfInvalidate (h : I.Holds s) : I.Holds s.selfInvalidate := by
  refine ⟨I.lines (fun line => rdcHas_map fun x => ?_) (I.rdcFilter _ h.1), h.2⟩
  split <;> exact ⟨rfl, rfl⟩

/-! ### Region tables and recalls (R50, R83) -/

theorem Invariant.Holds.enterTable {die : Nat} {r : TabRun} (h : I.Holds s) (e : s.enterTable die r = some t) : I.Holds t := by
  unfold State.enterTable at e
  dsimp only at e
  split at e
  · cases e
  · cases e; exact h

theorem Invariant.Holds.enterOnce {r : TabRun} (h : I.Holds s) (e : s.enterOnce r = some t) : I.Holds t := by
  unfold State.enterOnce at e
  dsimp only at e
  split at e
  · cases e; exact h
  · exact h.enterTable e

theorem Invariant.Holds.enterLines {run : Nat → TabRun} {l : List Nat} (h : I.Holds s) : Gives I.Holds (s.enterLines run l) := by
  induction l generalizing s with
  | nil => exact h
  | cons a l ih =>
    unfold State.enterLines
    split
    · next e => exact ih (h.enterOnce e)
    · trivial

theorem Invariant.Holds.moveMasks {line : Nat} (h : I.Holds s) : I.Holds (s.moveMasks line) := by
  unfold State.moveMasks
  split
  · split
    · next e => exact h.enterOnce e
    · exact h
  · exact h

theorem Invariant.Holds.leaveL1 {v : Line} (h : I.Holds s) : I.Holds (s.leaveL1 v) := by
  have moved : I.Holds ((s.dropLine .l1 v.line).moveMasks v.line) := (h.dropLine (by decide)).moveMasks
  exact moved.ite moved.updLine

theorem Invariant.Holds.recallL1 {line : Nat} (h : I.Holds s) : I.Holds (s.recallL1 line) := by
  unfold State.recallL1
  split
  · exact h.leaveL1
  · exact h

theorem Invariant.Holds.recallRange {key n : Nat} (h : I.Holds s) : I.Holds (s.recallRange key n) :=
  h.ite (h.foldl fun _ _ ht => ht.recallL1)

theorem Invariant.Holds.dropRdcLine {line : Nat} (h : I.Holds s) : I.Holds (s.dropRdcLine line) :=
  ⟨I.rdcFilter _ h.sendHome.1, h.sendHome.2⟩

/-- A line leaves the RDC after its bytes. -/
theorem Invariant.Holds.leaveRdc {line : Nat} (h : I.Holds s) : I.Holds ((s.dropRdcLine line).dropLine .rdc line) :=
  ⟨I.rdcDrop line h.dropRdcLine.1, h.dropRdcLine.2⟩

theorem Invariant.Holds.purge {line : Nat} (h : I.Holds s) : I.Holds (s.purge line) := h.recallL1.leaveRdc

theorem Invariant.Holds.purgeRange {key n : Nat} (h : I.Holds s) : I.Holds (s.purgeRange key n) := h.foldl fun _ _ ht => ht.purge

/-! A recall from the L1 leaves the RDC's lines. -/

theorem enterTable_lines {die : Nat} {r : TabRun} (e : s.enterTable die r = some t) : t.mem.lines = s.mem.lines := by
  unfold State.enterTable at e
  dsimp only at e
  split at e
  · cases e
  · cases e; rfl

theorem enterOnce_lines {r : TabRun} (e : s.enterOnce r = some t) : t.mem.lines = s.mem.lines := by
  unfold State.enterOnce at e
  dsimp only at e
  split at e
  · cases e; rfl
  · exact enterTable_lines e

theorem moveMasks_lines {line : Nat} : (s.moveMasks line).mem.lines = s.mem.lines := by
  unfold State.moveMasks
  split
  · split
    · next e => exact enterOnce_lines e
    · rfl
  · rfl

theorem updLine_rdcHas {lv : Lv} {line line' : Nat} {f : Line → Line} (hf : ∀ x, (f x).lv = x.lv ∧ (f x).line = x.line)
    (h : rdcHas s.mem.lines line') : rdcHas (s.updLine lv line f).mem.lines line' := by
  refine rdcHas_map (fun x => ?_) h
  split
  · exact hf x
  · exact ⟨rfl, rfl⟩

theorem leaveL1_rdcHas {v : Line} {line : Nat} (h : rdcHas s.mem.lines line) : rdcHas (s.leaveL1 v).mem.lines line := by
  have moved : rdcHas ((s.dropLine .l1 v.line).moveMasks v.line).mem.lines line := by
    rw [moveMasks_lines]
    exact rdcHas_filter (fun x hx => by simp [hx]) h
  unfold State.leaveL1
  dsimp only
  split
  · exact moved
  · exact updLine_rdcHas (fun _ => ⟨rfl, rfl⟩) moved

theorem recallL1_rdcHas {line line' : Nat} (h : rdcHas s.mem.lines line') : rdcHas (s.recallL1 line).mem.lines line' := by
  unfold State.recallL1
  split
  · exact leaveL1_rdcHas h
  · exact h

/-! ### The caches (R48 to R65) -/

theorem stamp_line {nud cls : Nat} {l : Line} : (s.stamp nud cls l).lv = l.lv ∧ (s.stamp nud cls l).line = l.line := by
  unfold State.stamp
  dsimp only
  split <;> exact ⟨rfl, rfl⟩

theorem lineAt_line {lv : Lv} {line : Nat} {l : Line} (e : s.lineAt lv line = some l) : l.lv = lv ∧ l.line = line := by
  have := List.find?_some e
  simpa using this

theorem Invariant.Holds.evict {v : Line} (h : I.Holds s) : I.Holds (s.evict v) := by
  have h1 : I.Holds (if v.dueE s.unitTime then s.countBroken v else s) := h.countBroken.ite h
  have h2 := h1.updLine (lv := v.lv) (line := v.line) (f := fun l => { l with e := true })
  have h3 := Invariant.Holds.ite (c := v.dueE s.unitTime = true) h2 h1
  unfold State.evict
  dsimp only
  generalize (if v.dueE s.unitTime = true then State.updLine _ v.lv v.line _ else _) = u at h3 ⊢
  split
  · exact h3.leaveL1
  · exact (h3.reachHbm.dropLine (by decide)).uncover
  · have h4 : I.Holds (if u.isRemote v.line then u else u.recallL1 v.line) := h3.ite h3.recallL1
    split
    · exact ((h4.ite h4.receive).dropLine (by decide)).uncover
    · exact h4
  · exact h3.recallL1.leaveRdc

/-- A line is filled into a level. -/
theorem Invariant.Holds.addLine {l : Line} (h : I.Holds s) : I.Holds { s with mem := { s.mem with lines := l :: s.mem.lines } } :=
  h.ofLines (fun _ => rdcHas_cons l) rfl

theorem Invariant.Holds.touch {lv : Lv} {line nud cls need put : Nat} {demand : Bool} (h : I.Holds s) :
    I.Holds (s.touch lv line nud cls need put demand).1 := by
  have h0 : I.Holds { s with mem := { s.mem with clock := s.mem.clock + 1 } } := h
  unfold State.touch
  dsimp only
  split
  · next l e =>
    obtain ⟨hlv, hline⟩ := lineAt_line e
    refine Invariant.Holds.updLine (Invariant.Holds.ite (Invariant.Holds.countBroken ?_) ?_) fun x hx hx' => ?_
    · exact h0.countKept.ite h0
    · exact h0.countKept.ite h0
    · exact ⟨stamp_line.1.trans (hlv.trans hx.symm), stamp_line.2.trans (hline.trans hx'.symm)⟩
  · split
    · exact h0.addLine
    · split
      · exact h0.evict.addLine
      · exact h0

theorem Invariant.Holds.touchHome {line nud cls need put : Nat} {demand : Bool} (h : I.Holds s) :
    I.Holds (s.touchHome line nud cls need put demand) := by
  unfold State.touchHome
  exact h.touch.ite h.touch.touch

theorem Invariant.Holds.touchShared {l : Loc} {nud cls need put : Nat} {demand : Bool} (h : I.Holds s) :
    I.Holds (s.touchShared l nud cls need put demand) := by
  unfold State.touchShared
  exact (h.touch.ite h.touch.touchHome).ite h.touchHome

theorem Invariant.Holds.count {code n : Nat} (h : I.Holds s) : I.Holds (s.count code n) := h

theorem Invariant.Holds.touchCore {l : Loc} {nud need put : Nat} {demand : Bool} (h : I.Holds s) : I.Holds (s.touchCore l nud need put demand) := by
  unfold State.touchCore
  exact h.count.touchShared.ite (h.touch.ite h.touch.count.touchShared)

theorem Invariant.Holds.otherEvictions (h : I.Holds s) : I.Holds s.otherEvictions := by
  unfold State.otherEvictions
  split
  · exact h
  · dsimp only
    split
    · exact h
    · split
      · exact h
      · exact h.evict

/-! ### The RDC's bytes (R50, R51) -/

/-- Bytes of a line that the RDC holds are put there one by one, where a condition asks for it. -/
theorem Invariant.rdcPuts (I : Invariant) {b : SMap Byte} {l : List Line} {line : Nat} (hl : rdcHas l line)
    {f : SMap RdcByte → Nat → SMap RdcByte} {js : List Nat} (hf : ∀ j ∈ js, ∀ m, f m j = m ∨ ∃ k v, k / 128 * 128 = line ∧ f m j = mset m k (some v)) {r : SMap RdcByte}
    (h : I.mem b r l) : I.mem b (js.foldl f r) l := by
  induction js generalizing r with
  | nil => exact h
  | cons j js ih =>
    refine ih (fun i hi => hf i (.tail j hi)) ?_
    rcases hf j (.head js) r with e | ⟨k, v, hk, e⟩
    · rw [e]; exact h
    · rw [e]; exact I.rdcPut k v (hk ▸ hl) h

theorem Invariant.Holds.fetchRdc {line need : Nat} (hd : line / 128 * 128 = line) (h : I.Holds s) : I.Holds (s.fetchRdc line need) := by
  unfold State.fetchRdc
  dsimp only
  split
  · exact h
  · next hc =>
    have hl : rdcHas s.mem.lines line := by
      simp only [Bool.or_eq_true, Option.isNone_iff_eq_none, not_or] at hc
      exact Option.isSome_iff_ne_none.2 hc.1
    split
    · exact h
    · refine ⟨I.rdcPuts hl (fun j hj m => ?_) h.1, h.2⟩
      have hj := List.mem_range.1 hj
      split
      · exact .inr ⟨line + j, _, by omega, rfl⟩
      · exact .inl rfl

theorem Invariant.Holds.putRdc {line key : Nat} {bs : List Byte} {dirty : Bool} (hl : (s.lineAt .rdc line).isSome = true)
    (hk : ∀ j < bs.length, (key + j) / 128 * 128 = line) (h : I.Holds s) : I.Holds (s.putRdc line key bs dirty) :=
  ⟨I.rdcPuts hl (fun j hj _ => .inr ⟨key + j, _, hk j (List.mem_range.1 hj), rfl⟩) h.1, h.2⟩

/-- The part of some bytes that lies in a line of their range. -/
theorem part_in_line {key n line : Nat} (hl : line ∈ linesOf key n) (bs : List Byte) (d : Nat) :
    ∀ j < ((bs.drop d).take (line + 128 - max line key)).length, (max line key + j) / 128 * 128 = line := by
  intro j hj
  have := linesOf_dvd hl
  simp only [List.length_take] at hj
  omega

theorem Invariant.Holds.fetchMaybe {l : Loc} {need : Nat} (hd : l.key / 128 * 128 = l.key) (h : I.Holds s) : I.Holds (s.fetchMaybe l need) :=
  (h.fetchRdc hd).ite h

theorem Invariant.Holds.reach {l : Loc} {n nud : Nat} {r : Route} {rd wr whole : Bool} (h : I.Holds s) :
    I.Holds (s.reach l n nud r rd wr whole) := by
  unfold State.reach
  dsimp only
  split
  · refine h.foldl_mem fun t line hline ht => ?_
    have hd := linesOf_dvd hline
    cases r
    · exact ht.touchCore.fetchMaybe hd
    · exact (ht.recallL1.ite ht).touchShared.fetchMaybe hd
    · exact (ht.recallL1.ite ht).touchHome
  · cases r
    · exact h.purgeRange
    · exact h.purgeRange
    · exact h.ite (h.foldl fun _ _ ht => ht.recallL1)

/-! ### Accesses -/

theorem Invariant.Holds.post {m : Sent} (h : I.Holds s) : I.Holds (s.post m) := h

theorem Invariant.Holds.failWrite {va : Word} {x : Option EngHart} (h : I.Holds s) : I.Holds (s.failWrite va x) := by
  cases x <;> exact h

theorem Invariant.Holds.writeOver {va : Word} {key : Nat} {bs : List Byte} {x : Option EngHart} (h : I.Holds s) :
    I.Holds (s.writeOver va key bs x) := by
  unfold State.writeOver
  exact h.failWrite.ite (Invariant.Holds.ite (Invariant.Holds.writeHome (h.frame (by rfl))) h.writeHome)

theorem Invariant.Holds.readPiece {p : Piece} {nud : Nat} {r : Route} {whole : Bool} (h : I.Holds s) : I.Holds (s.readPiece p nud r whole).2.2 := by
  have reached : I.Holds ((if p.loc.remote then s.otherEvictions else s).reach p.loc p.len nud r true false whole) :=
    (h.otherEvictions.ite h).reach
  unfold State.readPiece
  split
  · dsimp only
    split
    · exact reached
    · exact reached
  · exact h
  · exact h.post
  · exact h

theorem Invariant.Holds.writePiece {p : Piece} {bs : List Byte} {nud : Nat} {r : Route} {rmw : Bool} {x : Option EngHart} (h : I.Holds s) :
    I.Holds (s.writePiece p bs nud r rmw x) := by
  unfold State.writePiece
  split
  · refine Invariant.Holds.foldl_mem (h.otherEvictions.ite h).reach fun t line hline ht => ?_
    dsimp only
    split
    · next hc =>
      simp only [Bool.and_eq_true] at hc
      exact ht.putRdc hc.2 (part_in_line hline bs _)
    · exact ht.writeOver
  · exact h.writeHome
  · exact h.post
  · exact h

theorem Invariant.Holds.readPieces {nud : Nat} {r : Route} {whole : Bool} {ps : List Piece} (h : I.Holds s) :
    I.Holds (s.readPieces nud r whole ps).2.2 := by
  induction ps generalizing s with
  | nil => exact h
  | cons p ps ih => exact ih h.readPiece

theorem Invariant.Holds.writePieces {ps : List Piece} {bs : List Byte} {nud : Nat} {r : Route} {x : Option EngHart} (h : I.Holds s) :
    I.Holds (s.writePieces ps bs nud r x) :=
  h.foldl fun _ _ ht => ht.writePiece

/-! ### Walks (R21 to R29) -/

theorem Invariant.Holds.holdLeaf {w : Who} {b : Bool} {e : TlbEntry} (h : I.Holds s) : I.Holds (s.holdLeaf w b e) := by
  have own : I.Holds (match w.via with
    | .core => { s with core := { s.core with tlb := holdFirst 64 e s.core.tlb } }
    | .mu => { s with core := { s.core with muTlb := holdFirst 256 e s.core.muTlb } }
    | _ => s) := by
    split <;> exact h
  unfold State.holdLeaf
  dsimp only
  split
  · exact Invariant.Holds.ite (own.frame (by rfl)) own
  · exact own

theorem Invariant.Holds.holdPath {w : Who} {es : List WalkEntry} (h : I.Holds s) : I.Holds (s.holdPath w es) := h

theorem Invariant.Holds.entryHome {w : Who} {key : Nat} (h : I.Holds s) : I.Holds (s.entryHome w key) := h.purge.ite h.recallRange

theorem Invariant.Holds.noteLeaf {w : Who} {k : Kind} {f : LeafFound} (h : I.Holds s) : I.Holds (s.noteLeaf w k f) := by
  unfold State.noteLeaf
  exact h.holdLeaf.ite (h.ite h.entryHome.writeHome).holdPath.holdLeaf

theorem Invariant.Holds.translate {w : Who} {k : Kind} {va : Word} (h : I.Holds s) : Gives (fun x => I.Holds x.2) (s.translate w k va) := by
  unfold State.translate
  dsimp only
  split
  · trivial
  · split
    · trivial
    · split
      · exact (Gives.any _).map fun _ _ => h
      · refine (Gives.any _).bind fun f _ => ?_
        split
        · trivial
        · refine (Gives.any _).bind fun p _ => ?_
          split
          · exact h.noteLeaf
          · trivial
          · trivial
          · exact h.noteLeaf

theorem Invariant.Holds.translateAll {w : Who} {k : Kind} {va : Word} {off n fuel : Nat} (h : I.Holds s) :
    Gives (fun x => I.Holds x.2) (s.translateAll w k va off n fuel) := by
  induction fuel generalizing s off n with
  | zero => exact h
  | succ fuel ih =>
    unfold State.translateAll
    dsimp only
    split
    · exact h
    · split
      · trivial
      · next e =>
        split
        · trivial
        · next e' => exact ((ih (h.translate.ok e)).ok e' :)

end

section
variable {I : Invariant} {s t : State}

/-! Every operation of the model keeps an `Invariant`, in the model's order: an operation on the state has `I.Holds` of its result from `I.Holds`
of its argument, one that may stop `Ends` or `Gives`, a check that answers no state `I.Checks`, an instruction or event `I.Next`. -/

/-! ### The cache levels and memory at its homes (R48 to R66, R89, R113, R114, R135) -/

theorem Invariant.Holds.startPull {page : Nat} (h : I.Holds s) : I.Holds (s.startPull page) :=
  h.ite (h.frame (by rfl))

theorem Invariant.Holds.pullFor {lnid page : Nat} (h : I.Holds s) : I.Holds (s.pullFor lnid page) :=
  h.startPull.frame (by rfl)

theorem Invariant.Holds.askRoom {die : Nat} (h : I.Holds s) : I.Holds (s.askRoom die) := by
  unfold State.askRoom
  split
  · exact (h.frame (by rfl)).ite h
  · exact h

/-! ### The named operations of the core and the frame of every instruction (R92, R97, R137 to R153, R207) -/

theorem Invariant.need (I : Invariant) {b : Bool} {cause : Nat} {info : Word} : I.Checks (need b cause info) := by
  unfold Machine.need
  split <;> exact trivial

theorem Invariant.Holds.setMode {m : Nat} (h : I.Holds s) : I.Holds (s.setMode m) :=
  h.frame (by rfl)

theorem Invariant.Holds.setStat {hi lo v : Nat} (h : I.Holds s) : I.Holds (s.setStat hi lo v) :=
  h.frame (by rfl)

theorem Invariant.Holds.setWindow {base limit : Nat} (h : I.Holds s) : I.Holds (s.setWindow base limit) :=
  h.frame (by rfl)

theorem Invariant.Holds.setCell {p : Nat} {c : Cell} (h : I.Holds s) : I.Holds (s.setCell p c) :=
  h.frame (by rfl)

theorem Invariant.Holds.bind {words : List Nat} {vals : Option (List (Option Word))} {info : Word} {width : Option Nat} (h : I.Holds s) :
    I.Holds (s.bind words vals info width) :=
  (h.foldl fun u x hu => hu.setCell).frame (by rfl)

theorem Invariant.Holds.landWords {width : Option Nat} {info : Word} {ps : List Nat} {vs : List (Option Word)} (h : I.Holds s) :
    I.Holds (landWords width info ps vs s) := by
  induction ps generalizing vs s with
  | nil => exact h
  | cons p ps ih =>
    cases vs with
    | nil => exact h
    | cons v vs => exact ih h.setCell

theorem Invariant.Holds.setQueue {q : Nat} {l : List QEntry} (h : I.Holds s) : I.Holds (s.setQueue q l) :=
  h.frame (by rfl)

theorem Invariant.checkDesc (I : Invariant) {d : Word} {user : Bool} : I.Checks (s.checkDesc d user) :=
  I.need.bind fun _ _ => I.need

theorem Invariant.checkAbs (I : Invariant) {i : Int} {n : Nat} : I.Checks (s.checkAbs i n) := by
  unfold State.checkAbs
  split
  · exact trivial
  · exact I.need.bind fun _ _ => I.need

theorem Invariant.Holds.standStill {n : Nat} (h : I.Holds s) : I.Holds (s.standStill n) :=
  h.frame (by rfl)

/-- Time passes (R3): CYC has 64 bits, and of what the property speaks of nothing else changes but the E bits of lines (R61). -/
theorem Invariant.Holds.tick (h : I.Holds s) : I.Holds s.tick := by
  unfold State.tick
  refine Invariant.Holds.later ?_
  refine Invariant.Holds.ite (.frame ?_ (by rfl)) ?_ <;> refine Invariant.Holds.ite (.count ?_) ?_ <;>
    exact ((h.frame (by rfl)).standStill.ite (h.frame (by rfl))).sweepFor

theorem Invariant.Holds.done (h : I.Holds s) : I.Next s.done :=
  h.tick.next

theorem Invariant.Holds.haltPartition (h : I.Holds s) : I.Holds s.haltPartition :=
  h.frame (by rfl)

theorem Invariant.Holds.enterUser {c : Nat} {info pc : Word} (h : I.Holds s) : I.Holds (s.enterUser c info pc) :=
  (h.frame (by rfl)).setWindow.setMode.frame (by rfl)

theorem Invariant.Holds.enterTwin {c : Nat} {info pc : Word} {async : Bool} (h : I.Holds s) : I.Holds (s.enterTwin c info pc async) :=
  (h.haltPartition.post.frame (by rfl)).ite ((h.frame (by rfl)).setWindow.setMode.frame (by rfl))

theorem Invariant.Holds.unwait (h : I.Holds s) : I.Holds s.unwait :=
  h.frame (by rfl)

theorem Invariant.Holds.countLost (h : I.Holds s) : I.Holds s.countLost :=
  (h.frame (by rfl)).post

theorem Invariant.Holds.countCorrected (h : I.Holds s) : I.Holds s.countCorrected :=
  (h.frame (by rfl)).post

theorem Invariant.Holds.countCause {c : Nat} (h : I.Holds s) : I.Holds (s.countCause c) :=
  h.countLost.ite h

theorem Invariant.Holds.takeTrap {c : Nat} {info pc : Word} (h : I.Holds s) : I.Holds (s.takeTrap c info pc) :=
  h.countCause.unwait.enterUser.ite h.countCause.unwait.enterTwin

theorem Invariant.Holds.returnTo {d : Word} {m : Nat} {cb : Word} (h : I.Holds s) : I.Holds (s.returnTo d m cb) :=
  h.setWindow.setMode.frame (by rfl)

theorem Invariant.Holds.closeRegion (h : I.Holds s) : I.Holds s.closeRegion :=
  h.frame (by rfl)

theorem Invariant.Holds.fullFence {width : Nat} (h : I.Holds s) : I.Holds (s.fullFence width) :=
  (h.closeRegion.frame (by rfl)).writeBack.selfInvalidate.ite (h.closeRegion.frame (by rfl))

theorem Invariant.Holds.boundary (h : I.Holds s) : I.Holds s.boundary :=
  h.fullFence.count

theorem Invariant.Holds.engRelease {h' : EngHart} {width : Nat} (h : I.Holds s) : I.Holds (s.engRelease h' width).2 := by
  unfold State.engRelease
  split
  · exact h
  · exact h.frame (by rfl)

theorem Invariant.Holds.acquire {width : Nat} (h : I.Holds s) : I.Holds (s.acquire width) :=
  h.closeRegion.selfInvalidate.ite h.closeRegion

theorem Invariant.Holds.release {width : Nat} (h : I.Holds s) : Ends I.Stops I.Holds (s.release width) := by
  unfold State.release
  split
  · exact Ends.stop (h.frame (by rfl))
  · exact (h.closeRegion.frame (by rfl)).writeBack.ite (h.closeRegion.frame (by rfl))

theorem Invariant.Holds.singleStep {m : Nat} (h : I.Holds s) : I.Holds (s.singleStep m) :=
  h.takeTrap.ite h

theorem Invariant.Holds.retire {m : Nat} (h : I.Holds s) : I.Holds (s.retire m) :=
  (h.frame (by rfl)).count.tick.singleStep

theorem Invariant.Holds.unread (h : I.Holds t) : I.Holds (t.unread s) := h.frame (by rfl)

theorem Invariant.Holds.asksFor {x : WaitOn} (h : I.Holds s) : I.Holds (s.asksFor x) := by
  unfold State.asksFor
  split
  · exact h.askRoom
  · exact h.closeRegion
  · exact h

theorem Invariant.Holds.waiting {on : WaitOn} (h : I.Holds s) : I.Holds (s.waiting on) :=
  (h.frame (by rfl)).asksFor.tick

theorem Invariant.Holds.seen {p : Nat} (h : I.Holds s) : I.Holds (s.seen p) := by
  unfold State.seen
  split
  · exact h.setCell.acquire
  · exact h

theorem Invariant.Holds.readOnFill {b : Bind} (h : I.Holds s) : I.Holds (s.readOnFill b) := by
  unfold State.readOnFill
  split
  · split
    · exact h.seen.ite h
    · exact h
  · exact h

theorem Invariant.Holds.land {b : Bind} (h : I.Holds s) : I.Holds (s.land b) := by
  unfold State.land
  dsimp only
  split
  · exact (h.setQueue.frame (by rfl)).readOnFill
  · exact (h.landWords.frame (by rfl)).readOnFill

theorem Invariant.Holds.fillToken {id : Nat} {vals : List Word} (h : I.Holds s) : I.Holds (s.fillToken id vals) := by
  unfold State.fillToken
  split
  · exact h.land
  · exact h

theorem Invariant.Holds.readPred {p : Fin 16} (h : I.Holds s) : Ends I.Stops (fun x => I.Holds x.2) (s.readPred p) := by
  unfold State.readPred
  refine Ends.ite h ?_
  cases s.cell s.regs.wb with
  | lost info => exact trivial
  | empty => exact trivial
  | full v => exact h.seen
  | token v w => exact h.seen

theorem Invariant.Holds.guard {g : Guard} (h : I.Holds s) : Ends I.Stops (fun x => I.Holds x.2) (s.guard g) :=
  h.readPred.bind fun _ hr => hr

theorem Invariant.Holds.finish {m : Res Ended} (h : I.Holds s) (hm : Ends I.Stops I.Leaves m) : I.Holds (finish s m) := by
  unfold Machine.finish
  split
  · exact Invariant.Holds.retire hm
  · exact (Invariant.Holds.frame hm (by rfl)).count.tick
  · exact h.takeTrap.tick
  · exact (Invariant.Holds.unread hm).takeTrap.tick
  · exact h.waiting
  · exact (Invariant.Holds.unread hm).waiting

theorem Invariant.Holds.past {c : Ctx} (h : I.Holds s) : I.Holds (s.past c) :=
  h.frame (by rfl)

theorem Invariant.Holds.awake (h : I.Holds s) : I.Holds s.awake :=
  h.frame (by rfl)

/-- An instruction keeps the property where its privilege check and its body do (R207). -/
theorem Invariant.Holds.runEnd {i : Instr} {g : Guard} {priv : Ctx → State → Res Unit} {body : Ctx → State → Res Ended} (h : I.Holds s)
    (hpriv : ∀ c u, I.Holds u → I.Checks (priv c u)) (hbody : ∀ c u, I.Holds u → Ends I.Stops I.Leaves (body c u)) :
    I.Next (runEnd i g priv body s) := by
  refine (h.awake.finish ((hpriv _ _ h.awake).bind fun _ _ => h.awake.guard.bind fun r hr => ?_)).next
  exact (hbody _ _ hr.past).ite (Ends.of (A := I.Leaves) hr.past)

theorem Invariant.free (I : Invariant) {x : Ctx} : I.Checks (free x s) :=
  trivial

theorem Invariant.supOnly (I : Invariant) {c : Ctx} : I.Checks (supOnly c s) :=
  I.need

theorem Invariant.Holds.run {i : Instr} {g : Guard} {body : Ctx → State → Res State} (h : I.Holds s)
    (hbody : ∀ c u, I.Holds u → Ends I.Stops I.Holds (body c u)) : I.Next (run i g body s) :=
  h.runEnd (fun _ _ _ => I.free) fun c u hu => (hbody c u hu).map fun _ ht => ht

/-! ### Operands (R137 to R141, R146, R200, R201, R207) -/

theorem Invariant.checkField (I : Invariant) {o : Opr} : I.Checks (s.checkField o) := by
  unfold State.checkField
  dsimp only
  split
  · refine I.need.bind fun _ _ => ?_
    split
    · exact I.need
    · exact trivial
  · refine Ends.bind (A := fun _ => True) trivial fun _ _ => ?_
    split
    · exact I.need
    · exact trivial

theorem Invariant.checkQueue (I : Invariant) {c : Ctx} {o : Opr} : I.Checks (s.checkQueue c o) := by
  unfold State.checkQueue
  dsimp only
  split
  · split
    · exact trivial
    · split
      · exact trivial
      · split
        · split <;> exact trivial
        · split <;> exact trivial
  · split
    · exact trivial
    · split
      · exact trivial
      · split
        · split <;> exact trivial
        · split <;> exact trivial
  · exact trivial

theorem Invariant.Holds.setRing {k : Nat} {l : List Word} (h : I.Holds s) : I.Holds (s.setRing k l) :=
  h.frame (by rfl)

theorem Invariant.firstFound (I : Invariant) {l : List Found} : I.Checks (firstFound l) := by
  unfold Machine.firstFound
  split
  · exact trivial
  · split <;> exact trivial

theorem Invariant.prepareOwn (I : Invariant) {c : Ctx} {l : List Opr} {own : Res Unit} (hown : I.Checks own) :
    I.Checks (s.prepare c l own) :=
  (Ends.forIn fun _ => I.checkField).bind fun _ _ => (Ends.forIn fun _ => I.checkQueue).bind fun _ _ => hown.bind fun _ _ => I.firstFound

theorem Invariant.prepare (I : Invariant) {c : Ctx} {l : List Opr} : I.Checks (s.prepare c l) := I.prepareOwn trivial

theorem Invariant.Holds.takePhys {p : Nat} (h : I.Holds s) : I.Holds (s.takePhys p).2 :=
  h.seen

theorem Invariant.Holds.readPhys {p : Nat} (h : I.Holds s) : Ends I.Stops (fun x => I.Holds x.2) (s.readPhys p) := by
  unfold State.readPhys
  split
  · exact trivial
  · exact trivial
  · exact h.takePhys

theorem Invariant.Holds.take {n : Name} (h : I.Holds s) : I.Holds (s.take n).2 := by
  cases n with
  | w k => exact h.takePhys
  | nxt | prv => exact h.setRing
  | lq0 | lq1 | sq0 | sq1 => exact h.setQueue
  | bad k | zero => exact h

theorem Invariant.Holds.takeWords {p n : Nat} (h : I.Holds s) : I.Holds (s.takeWords p n).2 := by
  induction n generalizing s p with
  | zero => exact h
  | succ n ih => exact ih h.takePhys

theorem Invariant.Holds.takeRun {r : Name} {n : Nat} (h : I.Holds s) : I.Holds (s.takeRun r n).2 :=
  h.readUnless h.takeWords

theorem Invariant.Holds.takeVec {v : Nat} (h : I.Holds s) : I.Holds (s.takeVec v).2 :=
  h.takeWords

theorem Invariant.Holds.takeOpnd {x : Opnd} (h : I.Holds s) : I.Holds (s.takeOpnd x).2 := by
  unfold State.takeOpnd
  split
  · exact h.take
  · exact h

theorem Invariant.Holds.takeOpt {d : Word} {o : Option Src} (h : I.Holds s) : I.Holds (s.takeOpt d o).2 := by
  unfold State.takeOpt
  split
  · exact h.take
  · exact h

theorem Invariant.unbound (I : Invariant) {p : Nat} : I.Checks (s.unbound p) := by
  unfold State.unbound
  split <;> exact trivial

theorem Invariant.unboundAll (I : Invariant) {l : List Nat} : I.Checks (s.unboundAll l) := by
  induction l with
  | nil => exact trivial
  | cons p ps ih => exact I.unbound.bind fun _ _ => ih

theorem Invariant.Holds.writePhys {p : Nat} {v : Word} (h : I.Holds s) : Ends I.Stops I.Holds (s.writePhys p v) :=
  I.unbound.bind fun _ _ => h.setCell

theorem Invariant.Holds.write {n : Name} {v : Word} (h : I.Holds s) : Ends I.Stops I.Holds (s.write n v) := by
  cases n with
  | w k => exact h.writePhys
  | nxt | prv => exact Ends.ite trivial (.of h.setRing)
  | lq0 | lq1 | sq0 | sq1 => exact h.setQueue
  | bad k | zero => exact h

theorem Invariant.Holds.writeVec {v : Nat} {ws : List Word} (h : I.Holds s) : Ends I.Stops I.Holds (s.writeVec v ws) :=
  I.unboundAll.bind fun _ _ => h.foldl fun _ _ hu => hu.setCell

theorem Invariant.Holds.writePred {p : Fin 16} {b : Bool} (h : I.Holds s) : Ends I.Stops I.Holds (s.writePred p b) :=
  (Ends.of h).ite (I.unbound.bind fun _ _ => h.setCell)

theorem Invariant.Holds.takeScope {x : Scope} (h : I.Holds s) : I.Holds (s.takeScope x).2 := by
  unfold State.takeScope
  split
  · exact h
  · exact h.take
  · exact h

theorem Invariant.checkScope (I : Invariant) {c : Ctx} {sc : Scope} : I.Checks (s.checkScope c sc) := by
  unfold State.checkScope
  split
  · exact trivial
  · split <;> exact trivial
  · dsimp only
    split
    · split <;> exact trivial
    · split <;> exact trivial

/-! ### The floating-point control (R188 to R190) -/

theorem Invariant.Holds.raise {f : FpFlags} (h : I.Holds s) : Ends I.Stops I.Holds (s.raise f) := by
  unfold State.raise
  split
  · exact trivial
  · exact h.frame (by rfl)

/-! ### Scalar integer, address, compare and predicate instructions (R215 to R224) -/

theorem Invariant.Holds.aluBody {f : Ty → Word → Word → Nat} {x : Alu} {c : Ctx} (h : I.Holds s) : Ends I.Stops I.Holds (aluBody f x c s) :=
  I.prepare.bind fun _ _ => h.take.takeOpnd.write

theorem Invariant.Holds.unBody {f : Ty → Word → Nat} {x : Un} {c : Ctx} (h : I.Holds s) : Ends I.Stops I.Holds (unBody f x c s) :=
  I.prepare.bind fun _ _ => h.take.write

theorem Invariant.Holds.cmpBody {cc : Cc} {x : CmpArgs} {c : Ctx} (h : I.Holds s) : Ends I.Stops I.Holds (cmpBody cc x c s) :=
  I.prepare.bind fun _ _ => h.take.takeOpnd.raise.bind fun _ hu => hu.writePred

theorem Invariant.Holds.predBody {d : Fin 16} {l : List (Fin 16)} {f : List Bool → Bool} {c : Ctx} (h : I.Holds s) :
    Ends I.Stops I.Holds (predBody d l f c s) :=
  I.prepare.bind fun _ _ => (h.readIf h.takePhys).writePred

theorem Invariant.Holds.execAdd {g : Guard} {x : Alu} (h : I.Holds s) : I.Next (execAdd g x s) :=
  h.run fun _ _ hu => hu.aluBody

theorem Invariant.Holds.execSub {g : Guard} {x : Alu} (h : I.Holds s) : I.Next (execSub g x s) :=
  h.run fun _ _ hu => hu.aluBody

theorem Invariant.Holds.execMul {g : Guard} {x : Alu} (h : I.Holds s) : I.Next (execMul g x s) :=
  h.run fun _ _ hu => hu.aluBody

theorem Invariant.Holds.execMulh {g : Guard} {x : Alu} (h : I.Holds s) : I.Next (execMulh g x s) :=
  h.run fun _ _ hu => hu.aluBody

theorem Invariant.Holds.execDiv {g : Guard} {x : Alu} (h : I.Holds s) : I.Next (execDiv g x s) :=
  h.run fun _ _ hu => hu.aluBody

theorem Invariant.Holds.execRem {g : Guard} {x : Alu} (h : I.Holds s) : I.Next (execRem g x s) :=
  h.run fun _ _ hu => hu.aluBody

theorem Invariant.Holds.execMin {g : Guard} {x : Alu} (h : I.Holds s) : I.Next (execMin g x s) :=
  h.run fun _ _ hu => hu.aluBody

theorem Invariant.Holds.execMax {g : Guard} {x : Alu} (h : I.Holds s) : I.Next (execMax g x s) :=
  h.run fun _ _ hu => hu.aluBody

theorem Invariant.Holds.execAbs {g : Guard} {x : Un} (h : I.Holds s) : I.Next (execAbs g x s) :=
  h.run fun _ _ hu => hu.unBody

theorem Invariant.Holds.execAnd {g : Guard} {x : Alu} (h : I.Holds s) : I.Next (execAnd g x s) :=
  h.run fun _ _ hu => hu.aluBody

theorem Invariant.Holds.execOr {g : Guard} {x : Alu} (h : I.Holds s) : I.Next (execOr g x s) :=
  h.run fun _ _ hu => hu.aluBody

theorem Invariant.Holds.execXor {g : Guard} {x : Alu} (h : I.Holds s) : I.Next (execXor g x s) :=
  h.run fun _ _ hu => hu.aluBody

theorem Invariant.Holds.execAndn {g : Guard} {x : Alu} (h : I.Holds s) : I.Next (execAndn g x s) :=
  h.run fun _ _ hu => hu.aluBody

theorem Invariant.Holds.execShl {g : Guard} {x : Alu} (h : I.Holds s) : I.Next (execShl g x s) :=
  h.run fun _ _ hu => hu.aluBody

theorem Invariant.Holds.execShr {g : Guard} {x : Alu} (h : I.Holds s) : I.Next (execShr g x s) :=
  h.run fun _ _ hu => hu.aluBody

theorem Invariant.Holds.execSra {g : Guard} {x : Alu} (h : I.Holds s) : I.Next (execSra g x s) :=
  h.run fun _ _ hu => hu.aluBody

theorem Invariant.Holds.execRot {g : Guard} {x : Alu} (h : I.Holds s) : I.Next (execRot g x s) :=
  h.run fun _ _ hu => hu.aluBody

theorem Invariant.Holds.execClz {g : Guard} {x : Un} (h : I.Holds s) : I.Next (execClz g x s) :=
  h.run fun _ _ hu => hu.unBody

theorem Invariant.Holds.execCtz {g : Guard} {x : Un} (h : I.Holds s) : I.Next (execCtz g x s) :=
  h.run fun _ _ hu => hu.unBody

theorem Invariant.Holds.execPopc {g : Guard} {x : Un} (h : I.Holds s) : I.Next (execPopc g x s) :=
  h.run fun _ _ hu => hu.unBody

theorem Invariant.Holds.execBrev {g : Guard} {x : Un} (h : I.Holds s) : I.Next (execBrev g x s) :=
  h.run fun _ _ hu => hu.unBody

theorem Invariant.Holds.execBswap {g : Guard} {x : Un} (h : I.Holds s) : I.Next (execBswap g x s) :=
  h.run fun _ _ hu => hu.unBody

theorem Invariant.Holds.execExt {g : Guard} {x : Alu} (h : I.Holds s) : I.Next (execExt g x s) :=
  h.run fun _ _ hu => hu.aluBody

theorem Invariant.Holds.execIns {g : Guard} {x : Alu} (h : I.Holds s) : I.Next (execIns g x s) :=
  h.run fun _ _ hu => I.prepare.bind fun _ _ => hu.take.takeOpnd.take.write

theorem Invariant.Holds.execSel {g : Guard} {x : SelArgs} (h : I.Holds s) : I.Next (execSel g x s) :=
  h.run fun _ _ hu => I.prepare.bind fun _ _ => (hu.take.take.readUnless hu.take.take.takePhys).write

theorem Invariant.Holds.execMov {g : Guard} {x : MovArgs} (h : I.Holds s) : I.Next (execMov g x s) :=
  h.run fun _ _ hu => I.prepare.bind fun _ _ => hu.takeOpnd.write

theorem Invariant.Holds.execLea {g : Guard} {x : LeaArgs} (h : I.Holds s) : I.Next (execLea g x s) := by
  unfold Machine.execLea
  refine h.run fun c u hu => ?_
  split
  · exact I.prepare.bind fun _ _ => hu.take.take.write
  · exact I.prepare.bind fun _ _ => hu.write

theorem Invariant.Holds.execCmpEq {g : Guard} {x : CmpArgs} (h : I.Holds s) : I.Next (execCmpEq g x s) :=
  h.run fun _ _ hu => hu.cmpBody

theorem Invariant.Holds.execCmpNe {g : Guard} {x : CmpArgs} (h : I.Holds s) : I.Next (execCmpNe g x s) :=
  h.run fun _ _ hu => hu.cmpBody

theorem Invariant.Holds.execCmpLt {g : Guard} {x : CmpArgs} (h : I.Holds s) : I.Next (execCmpLt g x s) :=
  h.run fun _ _ hu => hu.cmpBody

theorem Invariant.Holds.execCmpLe {g : Guard} {x : CmpArgs} (h : I.Holds s) : I.Next (execCmpLe g x s) :=
  h.run fun _ _ hu => hu.cmpBody

theorem Invariant.Holds.execCmpGt {g : Guard} {x : CmpArgs} (h : I.Holds s) : I.Next (execCmpGt g x s) :=
  h.run fun _ _ hu => hu.cmpBody

theorem Invariant.Holds.execCmpGe {g : Guard} {x : CmpArgs} (h : I.Holds s) : I.Next (execCmpGe g x s) :=
  h.run fun _ _ hu => hu.cmpBody

theorem Invariant.Holds.execCmpUn {g : Guard} {x : CmpArgs} (h : I.Holds s) : I.Next (execCmpUn g x s) :=
  h.run fun _ _ hu => hu.cmpBody

theorem Invariant.Holds.execPand {g : Guard} {x : PBin} (h : I.Holds s) : I.Next (execPand g x s) :=
  h.run fun _ _ hu => hu.predBody

theorem Invariant.Holds.execPor {g : Guard} {x : PBin} (h : I.Holds s) : I.Next (execPor g x s) :=
  h.run fun _ _ hu => hu.predBody

theorem Invariant.Holds.execPxor {g : Guard} {x : PBin} (h : I.Holds s) : I.Next (execPxor g x s) :=
  h.run fun _ _ hu => hu.predBody

theorem Invariant.Holds.execPnot {g : Guard} {x : PUn} (h : I.Holds s) : I.Next (execPnot g x s) :=
  h.run fun _ _ hu => hu.predBody

theorem Invariant.Holds.execPmov {g : Guard} {x : PUn} (h : I.Holds s) : I.Next (execPmov g x s) :=
  h.run fun _ _ hu => hu.predBody

/-! ### Control and window instructions (R225 to R238) -/

theorem Invariant.Holds.execBr {g : Guard} {off : Imm} (h : I.Holds s) : I.Next (execBr g off s) :=
  h.run fun c u hu => hu.frame (by rfl)

theorem Invariant.Holds.jumpBody {a : Src} {c : Ctx} (h : I.Holds s) : Ends I.Stops I.Holds (jumpBody a c s) :=
  I.prepare.bind fun _ _ => h.take.frame (by rfl)

theorem Invariant.Holds.execJmp {g : Guard} {a : Src} (h : I.Holds s) : I.Next (execJmp g a s) :=
  h.run fun _ _ hu => hu.jumpBody

theorem Invariant.Holds.execRet {g : Guard} {a : Src} (h : I.Holds s) : I.Next (execRet g a s) :=
  h.run fun _ _ hu => hu.jumpBody

theorem Invariant.Holds.execCall {g : Guard} {x : CallArgs} (h : I.Holds s) : I.Next (execCall g x s) := by
  unfold Machine.execCall
  refine h.run fun c u hu => ?_
  split
  · exact I.prepare.bind fun _ _ => hu.write.bind fun _ hv => hv.frame (by rfl)
  · exact I.prepare.bind fun _ _ => hu.take.write.bind fun _ hv => hv.frame (by rfl)

theorem Invariant.Holds.execLoop {g : Guard} {x : LoopArgs} (h : I.Holds s) : I.Next (execLoop g x s) :=
  h.run fun c u hu => I.prepare.bind fun _ _ => hu.take.write.bind fun _ hv => (hv.frame (by rfl)).ite hv

theorem Invariant.Holds.execNop {l : Len} (h : I.Holds s) : I.Next (execNop l s) :=
  h.run fun _ _ hu => hu

theorem Invariant.Holds.execBrk {g : Guard} {v : BitVec 13} (h : I.Holds s) : I.Next (execBrk g v s) :=
  h.run fun _ _ _ => trivial

theorem Invariant.noQueues (I : Invariant) {c : Ctx} : I.Checks (s.noQueues c) := by
  unfold State.noQueues
  split <;> exact trivial

theorem Invariant.noForerunner (I : Invariant) {c : Ctx} : I.Checks (s.noForerunner c) := by
  unfold State.noForerunner
  split <;> exact trivial

theorem Invariant.Holds.install {d : Word} (h : I.Holds s) : Ends I.Stops I.Holds (s.install d) :=
  I.checkDesc.bind fun _ _ => h.setWindow

theorem Invariant.Holds.execSetwin {g : Guard} {a : Src} (h : I.Holds s) : I.Next (execSetwin g a s) :=
  h.run fun _ _ hu => (I.prepareOwn I.noQueues).bind fun _ _ => hu.take.install

theorem Invariant.Holds.execRdwin {g : Guard} {d : Name} (h : I.Holds s) : I.Next (execRdwin g d s) :=
  h.run fun _ _ hu => I.prepare.bind fun _ _ => hu.write

/-- The two place numbers are generalized: what their checks find is not to be computed. -/
theorem Invariant.Holds.execSwctx {g : Guard} {a : Src} (h : I.Holds s) : I.Next (execSwctx g a s) := by
  refine h.run fun c u hu => ?_
  have own : I.Checks (do u.noQueues c; u.noForerunner c) := I.noQueues.bind fun _ _ => I.noForerunner
  refine Ends.bind (I.prepareOwn own) fun _ _ => ?_
  dsimp only
  generalize ((bits (u.take a.name).1 12 0 : Nat) : Int) = save
  generalize ((bits (u.take a.name).1 28 16 : Nat) : Int) = load
  refine I.checkAbs.bind fun _ _ => I.checkAbs.bind fun _ _ => hu.take.readPhys.bind fun _ hr => ?_
  exact I.checkDesc.bind fun _ _ => hr.writePhys.bind fun _ hv => hv.setWindow.frame (by rfl)

theorem Invariant.Holds.execWld {g : Guard} {x : WIdx} (h : I.Holds s) : I.Next (execWld g x s) :=
  h.run fun _ _ hu => I.prepare.bind fun _ _ => I.checkAbs.bind fun _ _ => hu.take.readPhys.bind fun _ hr => hr.write

theorem Invariant.Holds.execWst {g : Guard} {x : WIdx} (h : I.Holds s) : I.Next (execWst g x s) :=
  h.run fun _ _ hu => I.prepare.bind fun _ _ => I.checkAbs.bind fun _ _ => hu.take.take.writePhys

theorem Invariant.Holds.takeCount {x : Count} (h : I.Holds s) : I.Holds (s.takeCount x).2 := by
  unfold State.takeCount
  split
  · exact h.take
  · exact h

theorem Invariant.Holds.drainRange {x : WRange} {c : Ctx} (h : I.Holds s) : Ends I.Stops (fun x => I.Holds x.2.2) (s.drainRange x c) := by
  refine I.prepare.bind fun _ _ => I.checkAbs.bind fun _ _ => ?_
  dsimp only
  split
  · exact trivial
  · exact h.take.takeCount

theorem Invariant.Holds.scrub {p n : Nat} (h : I.Holds s) : I.Holds (s.scrub p n) :=
  h.foldl fun _ _ hu => hu.setCell

theorem Invariant.Holds.execWscrub {g : Guard} {x : WRange} (h : I.Holds s) : I.Next (execWscrub g x s) :=
  h.run fun _ _ hu => hu.drainRange.bind fun _ hr => hr.scrub

theorem Invariant.Holds.execWdrain {g : Guard} {x : WRange} (h : I.Holds s) : I.Next (execWdrain g x s) :=
  h.run fun _ _ hu => hu.drainRange.bind fun _ hr => hr

theorem Invariant.Holds.execSetutw {g : Guard} {a : Src} (h : I.Holds s) : I.Next (execSetutw g a s) :=
  h.run fun c u hu => I.prepare.bind fun _ _ => I.checkDesc.bind fun _ _ => hu.take.frame (by rfl)

theorem Invariant.queuesHeld (I : Invariant) {c : Ctx} {d : Word} : I.Checks (s.queuesHeld c d) := by
  unfold State.queuesHeld
  split <;> exact trivial

theorem Invariant.Holds.execWret {g : Guard} (h : I.Holds s) : I.Next (execWret g s) :=
  h.runEnd (fun _ _ _ => I.need) (fun _ _ hu => I.checkDesc.bind fun _ _ => I.queuesHeld.bind fun _ _ => hu.returnTo)

/-! ### Accesses of the core and of engines (R20, R50, R76 to R86, R112 to R117, R135) -/

theorem Invariant.Holds.mmx {k : Kind} {va : Word} {off : Nat} {o : Other} (h : I.Holds s) : I.Stops (s.mmx k va off o) :=
  (h.frame (by rfl)).count

theorem Invariant.Holds.record {ps : List Piece} {rd wr sync noL1 : Bool} (h : I.Holds s) : Ends I.Stops I.Holds (s.record ps rd wr sync noL1) := by
  unfold State.record
  dsimp only
  split
  · next e => exact (((h.boundary.frame (by rfl)).ite h).frame (by rfl)).enterLines.ok e
  · exact trivial

theorem Invariant.Holds.recordEach {rd wr sync : Bool} {l : List (List Piece)} (h : I.Holds s) :
    Ends I.Stops I.Holds (s.recordEach rd wr sync l) := by
  induction l generalizing s with
  | nil => exact h
  | cons ps l ih => exact h.record.bind fun _ ht => ih ht

theorem Invariant.Holds.missStop {k : Kind} {x : Miss × Word} (h : I.Holds s) : I.Stops (s.missStop k x) := by
  unfold State.missStop
  split
  · exact trivial
  · exact h.pullFor

theorem Invariant.deviceOk (I : Invariant) {k : Kind} {va : Word} {n size : Nat} {p : Piece} : I.Checks (State.deviceOk k va n size p) := by
  unfold State.deviceOk
  split
  · exact I.need.bind fun _ _ => I.need
  · split
    · exact I.need
    · exact trivial

theorem Invariant.Holds.openPieces {w : Who} {k : Kind} {va : Word} {n size : Nat} {sync : Bool} (h : I.Holds s) :
    Ends I.Stops (fun x => I.Holds x.2) (s.openPieces w k va n size sync) := by
  unfold State.openPieces
  split
  · exact Ends.stop h.missStop
  · next e =>
      dsimp only
      split
      · exact trivial
      · refine Ends.bind (A := fun _ => True) trivial fun _ _ => ?_
        refine (Ends.forIn (fun _ => I.deviceOk)).bind fun _ _ => ?_
        split
        · exact trivial
        · exact h.translateAll.ok e

theorem Invariant.Holds.meetNone {k : Kind} {va : Word} {ps : List Piece} {sync wr : Bool} (h : I.Holds s) :
    I.Checks (s.meetNone k va ps sync wr) := by
  unfold State.meetNone
  split
  · exact Ends.stop h.mmx
  · exact trivial

theorem Invariant.Holds.openAccess {w : Who} {k : Kind} {va : Word} {n : Nat} {sync : Bool} {size : Nat} (h : I.Holds s) :
    Ends I.Stops (fun x => I.Holds x.2) (s.openAccess w k va n sync size) :=
  h.openPieces.bind fun _ hr => hr.meetNone.bind fun _ _ => hr

theorem Invariant.Holds.dropMail {ps : List Piece} (h : I.Holds s) : I.Holds (s.dropMail ps) :=
  h.frame (by rfl)

theorem Invariant.Holds.mailAfter {ps : List Piece} {mail : Option Nat} (h : I.Holds s) : I.Holds (s.mailAfter ps mail) := by
  unfold State.mailAfter
  split
  · exact h.dropMail.acquire
  · exact h

theorem Invariant.Holds.readMeets {va : Word} {n : Nat} {ps : List Piece} (h : I.Holds s) : Ends I.Stops I.Holds (s.readMeets va n ps) := by
  unfold State.readMeets
  split
  · exact h.dropMail.acquire.meetNone.bind fun _ _ => h.dropMail.acquire.record
  · exact h.meetNone.bind fun _ _ => h.recordEach

theorem Invariant.Holds.writeMeets {k : Kind} {va : Word} {n : Nat} {ps : List Piece} (h : I.Holds s) :
    Ends I.Stops I.Holds (s.writeMeets k va n ps) :=
  h.meetNone.bind fun _ _ => h.dropMail.recordEach

theorem Invariant.Holds.plainAccess {w : Who} {k : Kind} {va : Word} {n size : Nat} (h : I.Holds s) :
    Ends I.Stops (fun x => I.Holds x.2) (s.plainAccess w k va n size) := by
  unfold State.plainAccess
  refine h.openPieces.bind fun _ hr => ?_
  dsimp only
  split
  · exact hr.writeMeets.bind fun _ hu => hu
  · exact hr.readMeets.bind fun _ hu => hu

theorem Invariant.aligned (I : Invariant) {k : Kind} {va : Word} {n : Nat} : I.Checks (aligned k va n) :=
  I.need

theorem Invariant.Holds.unitAcquire (h : I.Holds s) : I.Holds s.unitAcquire :=
  h.ite h.selfInvalidate

theorem Invariant.Holds.unitRelease (h : I.Holds s) : I.Holds s.unitRelease :=
  h.ite h.writeBack

theorem Invariant.Holds.addOther {o : Other} (h : I.Holds s) : I.Holds (s.addOther o) :=
  h.frame (by rfl)

theorem Invariant.Holds.endCommand {agent : Agent} {id : Nat} (h : I.Holds s) : I.Holds (s.endCommand agent id) :=
  h.frame (by rfl)

theorem Invariant.Holds.growOther {agent : Agent} {id : Nat} {ps : List Piece} {rd wr sync : Bool} (h : I.Holds s) :
    Gives I.Holds (s.growOther agent id ps rd wr sync) := by
  unfold State.growOther
  split
  · exact h
  · split
    · exact trivial
    · next e₁ => exact (h.enterLines.ok e₁).frame (by rfl)

theorem Invariant.Holds.enginePieces {w : Who} {k : Kind} {va : Word} {n : Nat} (h : I.Holds s) :
    Gives (fun x => I.Holds x.2) (s.enginePieces w k va n) := by
  unfold State.enginePieces
  split
  · exact trivial
  · exact trivial
  · next e =>
      split
      · exact trivial
      · split
        · exact trivial
        · exact h.translateAll.ok e

theorem Invariant.Holds.engineOpen {agent : Agent} {id : Nat} {w : Who} {k : Kind} {va : Word} {n : Nat} {sync : Bool} (h : I.Holds s) :
    Gives (fun x => I.Holds x.2) (s.engineOpen agent id w k va n sync) :=
  h.enginePieces.bind fun _ hr => (Gives.any _).bind fun _ _ => hr.growOther.bind fun _ hu => hu

theorem Invariant.Holds.engineRead {agent : Agent} {id n nud : Nat} {w : Who} {va : Word} {far sync : Bool} (h : I.Holds s) :
    Gives (fun x => I.Holds x.2) (s.engineRead agent id w va n nud far sync) := by
  refine h.engineOpen.bind fun r hr => ?_
  dsimp only
  split
  · exact trivial
  · exact Invariant.Holds.readPieces hr

theorem Invariant.Holds.engineWrite {agent : Agent} {id : Nat} {w : Who} {va : Word} {bs : List Byte} {nud : Nat} {far sync : Bool}
    (h : I.Holds s) :
    Gives I.Holds (s.engineWrite agent id w va bs nud far sync) :=
  h.engineOpen.bind fun _ hr => hr.writePieces

theorem Invariant.Holds.noteMmx {cause : Nat} {who : Word} (h : I.Holds s) : I.Holds (s.noteMmx cause who) :=
  (h.frame (by rfl)).count.ite h

theorem Invariant.Holds.addMail {w : Who} {va : Word} {n width : Nat} (h : I.Holds s) : I.Holds (s.addMail w va n width) := by
  unfold State.addMail
  split
  · exact h.frame (by rfl)
  · exact h

theorem Invariant.Holds.beginPull {page lnid : Nat} (h : I.Holds s) : I.Holds (s.beginPull page lnid) :=
  h.askRoom.ite (h.startPull.ite h.pullFor)

/-! ### What the units keep in memory and for launches (R312 to R318, R342 to R345, R408, R409, R421) -/

theorem Invariant.Holds.writePhysMem {pa : Nat} {bs : List Byte} (h : I.Holds s) : I.Holds (s.writePhysMem pa bs) := by
  unfold State.writePhysMem
  split
  · exact h.ite h.writeHome
  · exact h

theorem Invariant.Holds.pullAt {pa : Nat} (h : I.Holds s) : I.Holds (s.pullAt pa) := by
  unfold State.pullAt
  split
  · exact h.startPull
  · exact h

theorem Invariant.Holds.signal {v : Nat} (h : I.Holds s) : I.Holds (s.signal v) :=
  (h.frame (by rfl)).ite h.post

theorem Invariant.Holds.postEntry {p : Posting} (h : I.Holds s) : I.Holds (s.postEntry p) :=
  h.writePhysMem.writePhysMem.writePhysMem.signal.ite h.writePhysMem.writePhysMem.writePhysMem

theorem Invariant.Holds.countOverrun (h : I.Holds s) : I.Holds s.countOverrun :=
  h.writePhysMem

theorem Invariant.Holds.postEvent {kind : Nat} {info more : Word} (h : I.Holds s) : I.Holds (s.postEvent kind info more) :=
  h.ite (h.postEntry.ite ((h.pullAt.ite h.countOverrun.pullAt).frame (by rfl)))

theorem Invariant.Holds.trace {kind : Nat} {lnid : Word} (h : I.Holds s) : I.Holds (s.trace kind lnid) :=
  h.ite (((h.ite h.writePhysMem).frame (by rfl)).ite (h.writePhysMem.frame (by rfl)))

theorem Invariant.Holds.sendRecord {target : Nat} {d : Delivery} (h : I.Holds s) : I.Holds (s.sendRecord target d) :=
  (h.frame (by rfl)).ite h.post

theorem Invariant.Holds.sendAnti {target : Nat} {k : Key} {d : Delivery} (h : I.Holds s) : I.Holds (s.sendAnti target k d) :=
  (h.frame (by rfl)).ite h.post

theorem Invariant.Holds.updLaunch {lnid : Nat} {f : Launch → Launch} (h : I.Holds s) : I.Holds (s.updLaunch lnid f) :=
  h.frame (by rfl)

theorem Invariant.Holds.launchEnd {l : Launch} {code : Nat} (h : I.Holds s) : I.Holds (s.launchEnd l code) :=
  h.updLaunch.pullAt.ite h.unitRelease.writePhysMem.writePhysMem.updLaunch.postEvent

theorem Invariant.Holds.liveUp {lnid : Word} {n : Nat} (h : I.Holds s) : I.Holds (s.liveUp lnid n) :=
  h.updLaunch

theorem Invariant.Holds.liveDown {lnid : Word} (h : I.Holds s) : I.Holds (s.liveDown lnid) := by
  unfold State.liveDown
  split
  · exact h
  · exact h.launchEnd.ite h.updLaunch

theorem Invariant.Holds.pullRing {n : Nat} (h : I.Holds s) : I.Holds (s.pullRing n) := by
  unfold State.pullRing
  split
  · exact h.pullAt.pullAt
  · exact h

theorem Invariant.Holds.writeRing {slot : Nat} {ws : List Word} (h : I.Holds s) : I.Holds (s.writeRing slot ws) :=
  h.writePhysMem

theorem Invariant.Holds.spill {a : Arrived} (h : I.Holds s) : I.Holds (s.spill a) := by
  unfold State.spill
  split
  · exact h.writeRing.frame (by rfl)
  · exact h.pullRing.frame (by rfl)

theorem Invariant.Holds.stirred (h : I.Holds s) : I.Holds s.stirred :=
  h.frame (by rfl)

theorem Invariant.Holds.writeDeque {i : Nat} {l : List DqRec} (h : I.Holds s) : I.Holds (s.writeDeque i l) := by
  induction l generalizing s i with
  | nil => exact h
  | cons r rs ih => exact ih h.writePhysMem

theorem Invariant.Holds.pullDeque (h : I.Holds s) : I.Holds s.pullDeque :=
  h.foldl fun _ _ hu => hu.pullAt

theorem Invariant.Holds.pushDeque {r : DqRec} (h : I.Holds s) (e : s.pushDeque r = some t) : I.Holds t := by
  unfold State.pushDeque at e
  dsimp only at e
  split at e
  · cases e; exact h.stirred.frame (by rfl)
  · split at e
    · cases e; exact h.stirred.writeDeque.frame (by rfl)
    · cases e

theorem Invariant.Holds.releaseRec {w : Waiter} {r : DqRec} (h : I.Holds s) : I.Holds (s.releaseRec w r) := by
  unfold State.releaseRec
  split
  · next e =>
    split at e
    · exact h.pushDeque e
    · cases e
  · exact h.pullDeque.frame (by rfl)

theorem Invariant.Holds.drainStuck {l : List Waiter} (h : I.Holds s) : I.Holds (s.drainStuck l) := by
  induction l generalizing s with
  | nil => exact h.frame (by rfl)
  | cons w ws ih =>
    unfold State.drainStuck
    split
    · exact ih h
    · split
      · next e => exact ih (h.pushDeque e)
      · exact h.pullDeque.frame (by rfl)

theorem Invariant.Holds.popDeque {x : DqRec × State} (h : I.Holds s) (e : s.popDeque = some x) : I.Holds x.2 := by
  unfold State.popDeque at e
  dsimp only at e
  split at e
  · cases e
  · cases e
    refine Invariant.Holds.drainStuck (h.frame ?_)
    split <;> rfl

theorem Invariant.Holds.takeTop (h : I.Holds s) : I.Holds s.takeTop := by
  refine Invariant.Holds.drainStuck (h.frame ?_)
  split <;> rfl

/-- The kernel is not to evaluate the search for an absent page, so the function is replaced by its body before it is applied. -/
theorem Invariant.Holds.eventHere {n : Nat} (h : I.Holds s) : I.Checks (s.eventHere n) := by
  generalize hf : State.eventHere = f
  delta State.eventHere at hf
  subst hf
  dsimp only
  split
  · exact h.startPull
  · exact trivial

theorem Invariant.Holds.releaseParked {id : Nat} (h : I.Holds s) : I.Holds (s.releaseParked id) := by
  unfold State.releaseParked
  split
  · exact h
  · exact h.stirred.frame (by rfl)

theorem Invariant.Holds.releaseWaiter {w : Waiter} (h : I.Holds s) : I.Holds (s.releaseWaiter w) := by
  unfold State.releaseWaiter
  split
  · exact h.releaseRec
  · exact h.releaseParked

/-- The list of waiters changes. -/
theorem Invariant.Holds.setWaiters {l : List Waiter} (h : I.Holds s) : I.Holds { s with sched := { s.sched with waiters := l } } := h.frame (by rfl)

/-- The kernel is not to evaluate where the event's entry lies, so the function is replaced by its body before it is applied. -/
theorem Invariant.Holds.updateEvent {n count : Nat} (h : I.Holds s) : I.Holds (s.updateEvent n count) := by
  generalize hf : State.updateEvent = f
  delta State.updateEvent at hf
  subst hf
  beta_reduce
  refine Invariant.Holds.foldl (.setWaiters ?_) fun _ _ ht => ht.releaseWaiter
  split
  · exact h.writePhysMem
  · exact h.frame (by rfl)

theorem Invariant.Holds.addWaiter {n thresh : Nat} {ovf : Bool} {what : DqRec ⊕ Nat} (h : I.Holds s) : I.Holds (s.addWaiter n thresh ovf what) :=
  h.releaseWaiter.ite (h.frame (by rfl))

/-! ### Optimistic execution (R352 to R367) -/

theorem Invariant.Holds.updDomain {f : Domain → Domain} (h : I.Holds s) : I.Holds (s.updDomain f) :=
  h.frame (by rfl)

theorem Invariant.Holds.writeBlock (h : I.Holds s) : I.Holds s.writeBlock := by
  unfold State.writeBlock
  split
  · exact h
  · exact h.writeHome

theorem Invariant.Holds.logImage {base len head size i : Nat} {ws : List Word} (h : I.Holds s) : I.Holds (s.logImage base len head size i ws) :=
  h.writeHome

theorem Invariant.Holds.appendBittern {d : Domain} {k : Key} {off : Nat} (h : I.Holds s) : I.Holds (s.appendBittern d k off) :=
  h.logImage.frame (by rfl)

theorem Invariant.Holds.logPieces {ps : List Piece} (h : I.Holds s) : Ends I.Stops I.Holds (s.logPieces ps) := by
  unfold State.logPieces
  split
  · dsimp only
    split
    · exact h
    · split
      · exact trivial
      · exact h.foldl fun u _ hu => hu.appendBittern
  · exact h

theorem Invariant.Holds.appendOutput {d : Domain} {o : Output} (h : I.Holds s) (e : s.appendOutput d o = some t) : I.Holds t := by
  unfold State.appendOutput at e
  dsimp only at e
  split at e
  · cases e
  · cases e; exact h.logImage.frame (by rfl)

theorem Invariant.Holds.acked {k : Key} (h : I.Holds s) : I.Holds (s.acked k) :=
  h.frame (by rfl)

theorem Invariant.Holds.enterDomq {a : Arrived} (h : I.Holds s) : I.Holds (s.enterDomq a) :=
  (h.frame (by rfl)).acked.ite (h.spill.acked.ite h.spill)

theorem Invariant.Holds.refillDomq (h : I.Holds s) : I.Holds s.refillDomq :=
  h.frame (by rfl)

theorem Invariant.Holds.harvest {g : Key} (h : I.Holds s) : I.Holds (s.harvest g) := by
  unfold State.harvest
  split
  · exact h
  · refine Invariant.Holds.writeBlock ?_
    refine (h.frame (by rfl)).updDomain.foldl ?_
    intro u z hu
    split
    · exact (hu.writeBack.ite hu).liveUp.sendRecord
    · exact hu

theorem Invariant.Holds.passVsend (h : I.Holds s) : I.Holds s.passVsend := by
  unfold State.passVsend
  split
  · split
    · exact (h.frame (by rfl)).ite h
    · exact h
  · exact h

theorem Invariant.Holds.installKey {k : Key} (h : I.Holds s) : I.Holds (s.installKey k) :=
  (h.frame (by rfl)).ite ((h.frame (by rfl)).frame (by rfl)).passVsend.harvest

theorem Invariant.Holds.reseed (h : I.Holds s) : I.Holds s.reseed :=
  (h.frame (by rfl)).ite h

/-! ### Atomics, fences and barrier records (R106, R110, R111, R251 to R255) -/

theorem Invariant.memOpRoom (I : Invariant) : I.Checks s.memOpRoom := by
  unfold State.memOpRoom
  split <;> exact trivial

theorem Invariant.Holds.bindDst {d : Name} {v : Option Word} {info : Word} (h : I.Holds s) : Ends I.Stops I.Holds (s.bindDst d v info) := by
  unfold State.bindDst
  split
  · exact I.unbound.bind fun _ _ => I.memOpRoom.bind fun _ _ => h.bind
  · split
    · exact I.memOpRoom.bind fun _ _ => h.setQueue.frame (by rfl)
    · exact h

theorem Invariant.Holds.atomicPurge {p : Piece} {width : Nat} {away : Bool} (h : I.Holds s) : I.Holds (s.atomicPurge p width away) :=
  h.purgeRange.ite h

theorem Invariant.Holds.atomicDo {p : Piece} {new : Option (List Byte)} {width nud : Nat} {away : Bool} {hart : Option EngHart} (h : I.Holds s) :
    I.Holds (s.atomicDo p new width nud away hart) := by
  unfold State.atomicDo
  dsimp only
  split
  · exact h.atomicPurge.writePiece
  · exact h.atomicPurge.readPiece

theorem Invariant.Holds.releaseWrite {p : Piece} {bs : List Byte} {width nud : Nat} (h : I.Holds s) : I.Holds (s.releaseWrite p bs width nud) :=
  (h.writePiece.foldl fun _ _ hu => hu.sendHome).markClean.ite h.writePiece

theorem Invariant.Holds.atomicBefore {rel : Bool} {width : Nat} (h : I.Holds s) : Ends I.Stops I.Holds (s.atomicBefore rel width) :=
  h.release.ite (.of h.closeRegion)

theorem Invariant.Holds.atomicAfter {acq : Bool} {width : Nat} (h : I.Holds s) : I.Holds (s.atomicAfter acq width) :=
  h.acquire.ite h

theorem Invariant.noLoss (I : Invariant) {k : Kind} {va : Word} {l : Option Nat} : I.Checks (noLoss k va l) := by
  unfold Machine.noLoss
  split <;> exact trivial

theorem Invariant.Holds.amoBody {f : AmoFn} {cas : Bool} {x : Amo} {c : Ctx} (h : I.Holds s) : Ends I.Stops I.Holds (amoBody f cas x c s) := by
  refine I.checkScope.bind fun _ _ => I.prepare.bind fun _ _ => ?_
  dsimp only
  refine I.aligned.bind fun _ _ => ?_
  refine Ends.bind (Invariant.Holds.openPieces (h.take.take.takeScope.readIf h.take.take.takeScope.take)) fun r hr => ?_
  split
  · exact hr
  · refine hr.meetNone.bind fun _ _ => I.noLoss.bind fun _ _ => hr.atomicBefore.bind fun v hv => ?_
    exact hv.atomicDo.atomicAfter.mailAfter.record.bind fun _ hw => hw.bindDst

theorem Invariant.Holds.execAmoAdd {g : Guard} {x : Amo} (h : I.Holds s) : I.Next (execAmoAdd g x s) :=
  h.run fun _ _ hu => hu.amoBody

theorem Invariant.Holds.execAmoAnd {g : Guard} {x : Amo} (h : I.Holds s) : I.Next (execAmoAnd g x s) :=
  h.run fun _ _ hu => hu.amoBody

theorem Invariant.Holds.execAmoOr {g : Guard} {x : Amo} (h : I.Holds s) : I.Next (execAmoOr g x s) :=
  h.run fun _ _ hu => hu.amoBody

theorem Invariant.Holds.execAmoXor {g : Guard} {x : Amo} (h : I.Holds s) : I.Next (execAmoXor g x s) :=
  h.run fun _ _ hu => hu.amoBody

theorem Invariant.Holds.execAmoMin {g : Guard} {x : Amo} (h : I.Holds s) : I.Next (execAmoMin g x s) :=
  h.run fun _ _ hu => hu.amoBody

theorem Invariant.Holds.execAmoMax {g : Guard} {x : Amo} (h : I.Holds s) : I.Next (execAmoMax g x s) :=
  h.run fun _ _ hu => hu.amoBody

theorem Invariant.Holds.execAmoSwap {g : Guard} {x : Amo} (h : I.Holds s) : I.Next (execAmoSwap g x s) :=
  h.run fun _ _ hu => hu.amoBody

theorem Invariant.Holds.execAmoCas {g : Guard} {x : Amo} (h : I.Holds s) : I.Next (execAmoCas g x s) :=
  h.run fun _ _ hu => hu.amoBody

theorem Invariant.Holds.fenceWidth {sc : Scope} {c : Ctx} (h : I.Holds s) : Ends I.Stops (fun x => I.Holds x.2) (s.fenceWidth sc c) :=
  I.checkScope.bind fun _ _ => I.prepare.bind fun _ _ => h.takeScope

theorem Invariant.Holds.execFenceAcq {g : Guard} {sc : Scope} (h : I.Holds s) : I.Next (execFenceAcq g sc s) :=
  h.run fun _ _ hu => hu.fenceWidth.bind fun _ hr => hr.acquire

theorem Invariant.Holds.execFenceRel {g : Guard} {sc : Scope} (h : I.Holds s) : I.Next (execFenceRel g sc s) :=
  h.run fun _ _ hu => hu.fenceWidth.bind fun _ hr => hr.release

theorem Invariant.Holds.execFenceFull {g : Guard} {sc : Scope} (h : I.Holds s) : I.Next (execFenceFull g sc s) :=
  h.run fun _ _ hu => hu.fenceWidth.bind fun _ hr => hr.release.bind fun _ hv => hv.fullFence

theorem Invariant.Holds.openBar {va : Word} {width : Nat} {wr : Bool} (h : I.Holds s) :
    Ends I.Stops (fun x => I.Holds x.2.2) (s.openBar va width wr) :=
  I.aligned.bind fun _ _ => h.openPieces.bind fun _ hr => hr.meetNone.bind fun _ _ => I.noLoss.bind fun _ _ => hr

theorem Invariant.Holds.putBar {p : Piece} {r : BarRec} {width : Nat} {away : Bool} {hart : Option EngHart} (h : I.Holds s) :
    I.Holds (s.putBar p r width away hart) :=
  h.atomicDo.notify

theorem Invariant.Holds.endBar {p : Piece} {r : BarRec} {width : Nat} (h : I.Holds s) : Ends I.Stops I.Holds (s.endBar p r width) :=
  h.release.bind fun _ hu => hu.putBar.mailAfter.record

theorem Invariant.Holds.execBarinit {g : Guard} {x : BarInit} (h : I.Holds s) : I.Next (execBarinit g x s) := by
  refine h.run fun c u hu => I.checkScope.bind fun _ _ => I.prepare.bind fun _ _ => ?_
  refine hu.take.take.takeScope.take.openBar.bind fun r hr => ?_
  exact Ends.ite trivial (Ends.ite trivial hr.endBar)

theorem Invariant.Holds.execBararr {g : Guard} {x : BarDA} (h : I.Holds s) : I.Next (execBararr g x s) := by
  unfold Machine.execBararr
  refine h.run fun c u hu => ?_
  refine I.checkScope.bind fun _ _ => ?_
  refine I.prepare.bind fun _ _ => ?_
  refine hu.take.takeScope.openBar.bind fun _ hr => ?_
  dsimp only
  split
  · exact trivial
  · split
    · exact trivial
    · split
      · exact Ends.stop hr.putBar
      · exact hr.endBar.bind fun _ hv => hv.bindDst

theorem Invariant.Holds.execBarbytes {g : Guard} {x : BarAB} (h : I.Holds s) : I.Next (execBarbytes g x s) := by
  unfold Machine.execBarbytes
  refine h.run fun c u hu => ?_
  refine I.checkScope.bind fun _ _ => ?_
  refine I.prepare.bind fun _ _ => ?_
  refine hu.take.take.takeScope.openBar.bind fun _ hr => ?_
  dsimp only
  split
  · exact trivial
  · exact hr.endBar

theorem Invariant.Holds.engineAtomic {agent : Agent} {id : Nat} {w : Who} {va : Word} {n : Nat} (h : I.Holds s) :
    Gives (fun x => I.Holds x.2) (s.engineAtomic agent id w va n) :=
  h.enginePieces.bind fun _ hr => (Gives.any _).bind fun _ _ => hr

theorem Invariant.Holds.engineCredit {agent : Agent} {id : Nat} {w : Who} {va : Word} {n width : Nat} {away : Bool} (h : I.Holds s) :
    Gives I.Holds (s.engineCredit agent id w va n width away) := by
  unfold State.engineCredit
  refine h.engineAtomic.bind fun _ hr => ?_
  dsimp only
  split
  · exact trivial
  · split
    · exact trivial
    · exact hr.putBar

/-! ### Copies, gathers and the copy channels (R70 to R73, R126 to R130, R256 to R262) -/

theorem Invariant.noOpt (I : Invariant) {c : Ctx} : I.Checks (s.noOpt c) := by
  unfold State.noOpt
  split <;> exact trivial

theorem Invariant.Holds.orPull {r : Except Nat State} {lnid : Nat} (h : I.Holds s) (hr : Gives I.Holds r) : I.Holds (s.orPull r lnid) := by
  unfold State.orPull
  split
  · exact hr
  · exact h.beginPull

theorem Invariant.Holds.execAcopy {g : Guard} {x : AcopyArgs} (h : I.Holds s) : I.Next (execAcopy g x s) := by
  unfold Machine.execAcopy
  refine h.run fun c u hu => ?_
  refine I.checkScope.bind fun _ _ => ?_
  refine (I.prepareOwn I.noOpt).bind fun _ _ => ?_
  dsimp only
  split
  · exact trivial
  · refine I.need.bind fun _ _ => ?_
    refine I.unboundAll.bind fun _ _ => ?_
    split
    · exact trivial
    · exact hu.takeRun.takeScope.release.bind fun _ hv => hv.bind.bind.frame (by rfl)

theorem Invariant.Holds.linkStatus {agent : Agent} {id width st : Nat} (h : I.Holds s) : I.Holds (s.linkStatus agent id width st).2 :=
  h.engRelease

/-- An engine's access sorted out gives what the access gives. -/
theorem Ends.tryEng {α : Type} {A : α → Prop} {r : Except EngFault α} {kind : Nat} (h : Gives A r) : Gives (Gives A) (tryEng r kind) := by
  unfold Machine.tryEng
  split
  · exact h
  · exact trivial
  · exact trivial

theorem Invariant.Holds.engPut {id nud : Nat} {w : Who} {dst : Word} {bs : List Byte} {far : Bool} (h : I.Holds s) :
    Gives (fun x => I.Holds x.2.2) (s.engPut id w dst bs nud far) := by
  refine (Ends.tryEng h.engineWrite).bind fun r hr => ?_
  split
  · exact hr
  · refine (Ends.tryEng h.engineWrite).bind fun r' hr' => ?_
    split
    · exact hr'
    · exact h

theorem Invariant.Holds.engBar {id n width : Nat} {w : Who} {bar : Word} {far : Bool} (h : I.Holds s) :
    Gives (fun x => I.Holds x.2) (s.engBar id w bar n width far) := by
  unfold State.engBar
  split
  · exact h
  · refine (Ends.tryEng h.engineCredit).bind fun r hr => ?_
    split
    · exact hr
    · exact h

theorem Invariant.Holds.updAcopy {a : Acopy} (h : I.Holds s) : I.Holds (s.updAcopy a) :=
  h.frame (by rfl)

theorem Invariant.Holds.finishAcopy {a : Acopy} (h : I.Holds s) : Gives I.Holds (s.finishAcopy a) := by
  unfold State.finishAcopy
  extract_lets w width rest
  have kept : ∀ x : Nat × Nat × State, I.Holds x.2.2 → Gives I.Holds (rest x) := by
    rintro ⟨n, st, u⟩ hu
    have hl : I.Holds ((if 3 ≤ width then u.writeBack else u).linkStatus .ce a.id width st).2 := (hu.writeBack.ite hu).linkStatus
    unfold rest
    dsimp only
    generalize State.linkStatus _ .ce a.id width st = y at hl ⊢
    split
    · exact hl.engBar.bind fun v hv => hv.endCommand.fillToken.countCause.frame (by rfl)
    · exact hl.endCommand.fillToken.countCause.frame (by rfl)
  split
  · next st _ => exact kept (0, st.toNat, s) h
  · exact h.engPut.bind kept

theorem Invariant.Holds.acceptAcopy {a : Acopy} (h : I.Holds s) : Gives I.Holds (s.acceptAcopy a) := by
  unfold State.acceptAcopy
  dsimp only
  split
  · exact h.selfInvalidate.addOther.fillToken.finishAcopy
  · refine (Ends.tryEng h.selfInvalidate.addOther.engineRead).bind fun r hr => ?_
    split
    · exact hr.fillToken.updAcopy
    · exact h.selfInvalidate.addOther.fillToken.updAcopy

theorem Invariant.Holds.execAcopyAccept (h : I.Holds s) : I.Next (execAcopyAccept s) := by
  unfold Machine.execAcopyAccept
  split
  · exact (h.orPull h.acceptAcopy).done
  · exact h.done

theorem Invariant.Holds.execAcopyComplete (h : I.Holds s) : I.Next (execAcopyComplete s) := by
  unfold Machine.execAcopyComplete
  split
  · exact (h.orPull h.finishAcopy).done
  · exact h.done

theorem Invariant.Holds.formLane {k : Kind} {size : Nat} {va : Word} (h : I.Holds s) : Gives (fun x => I.Holds x.2) (s.formLane k size va) := by
  unfold State.formLane
  dsimp only
  split
  · exact h
  · split
    · exact h
    · exact trivial
    · next e =>
      split
      · exact h
      · split
        · exact h
        · exact h.translate.ok e

theorem Invariant.Holds.formLanes {k : Kind} {size : Nat} {l : List Word} (h : I.Holds s) :
    Ends I.Stops (fun x => I.Holds x.2) (s.formLanes k size l) := by
  induction l generalizing s with
  | nil => exact h
  | cons va l ih =>
    unfold State.formLanes
    split
    · exact h.missStop
    · next e => exact (ih (h.formLane.ok e)).bind fun _ hr => hr

theorem Invariant.Holds.gatherBody {scatter : Bool} {x : GatherArgs} {c : Ctx} (h : I.Holds s) :
    Ends I.Stops I.Holds (gatherBody scatter x c s) := by
  refine I.checkScope.bind fun _ _ => (I.prepareOwn I.noOpt).bind fun _ _ => ?_
  dsimp only
  split
  · exact trivial
  · split
    · refine I.checkField.bind fun _ _ => I.firstFound.bind fun _ _ => ?_
      have hu := h.takeRun (r := x.a.first) (n := 2) |>.takeVec (v := x.b.v) |>.takeScope (x := x.sc) |>.takeVec (v := x.b.v + 1)
      generalize (State.takeVec _ (x.b.v.val + 1)).2 = u at hu ⊢
      refine I.unboundAll.bind fun _ _ => hu.release.bind fun _ hv => hv.formLanes.bind fun _ hr => ?_
      exact hr.bind.frame (by rfl)
    · have hu := h.takeRun (r := x.a.first) (n := 2) |>.takeVec (v := x.b.v) |>.takeScope (x := x.sc)
      generalize (State.takeScope _ x.sc).2 = u at hu ⊢
      refine I.unboundAll.bind fun _ _ => hu.release.bind fun _ hv => hv.formLanes.bind fun _ hr => ?_
      exact hr.bind.frame (by rfl)

theorem Invariant.Holds.execGather {g : Guard} {x : GatherArgs} (h : I.Holds s) : I.Next (execGather g x s) :=
  h.run fun _ _ hu => hu.gatherBody

theorem Invariant.Holds.execScatter {g : Guard} {x : GatherArgs} (h : I.Holds s) : I.Next (execScatter g x s) :=
  h.run fun _ _ hu => hu.gatherBody

theorem Invariant.Holds.serveLane {g : Gather} {i : Nat} {l : Lane} (h : I.Holds s) : Gives I.Holds (s.serveLane g i l) := by
  unfold State.serveLane
  refine (Gives.any _).bind fun _ _ => ?_
  refine (Gives.any _).bind fun _ _ => ?_
  refine h.growOther.bind fun _ hu => ?_
  refine hu.growOther.bind fun _ hv => ?_
  dsimp only
  split
  · exact trivial
  · exact (hv.purgeRange.ite hv.reach).writeOver

theorem Invariant.Holds.serveLanes {g : Gather} {i : Nat} {l : List Lane} (h : I.Holds s) : I.Holds (s.serveLanes g i l).2 := by
  induction l generalizing s g i with
  | nil => exact h
  | cons x l ih =>
    unfold State.serveLanes
    split
    · exact ih h
    · split
      · next e => exact ih (h.serveLane.ok e)
      · exact ih h
      · exact h.beginPull

theorem Invariant.Holds.execGatherEngineServe (h : I.Holds s) : I.Next (execGatherEngineServe s) := by
  unfold Machine.execGatherEngineServe
  split
  · exact h.done
  · exact ((h.addOther.ite h).serveLanes.frame (by rfl)).done

theorem Invariant.Holds.execGatherTokenFill (h : I.Holds s) : I.Next (execGatherTokenFill s) := by
  unfold Machine.execGatherTokenFill
  dsimp only
  split
  · exact h.done
  · exact (h.linkStatus.endCommand.fillToken.countCause.frame (by rfl)).done

theorem Invariant.Holds.setChan {n : Nat} {ch : Chan} (h : I.Holds s) : I.Holds (s.setChan n ch) :=
  h.frame (by rfl)

theorem Invariant.Holds.kickChan {n core : Nat} {v : Word} {scope : Option Word} (h : I.Holds s) (e : s.kickChan n v scope core = some t) :
    I.Holds t := by
  unfold State.kickChan at e
  dsimp only at e
  split at e
  · cases e; exact h.setChan
  · split at e
    · cases e
    · cases e; exact h.setChan

theorem Invariant.Holds.cfgChan {n : Nat} {v : Word} (h : I.Holds s) : I.Holds (s.cfgChan n v) :=
  h.ite (h.setChan.ite (h.setChan.ite h.setChan))

theorem Invariant.Holds.statChan {n : Nat} {v : Word} (h : I.Holds s) : I.Holds (s.statChan n v) :=
  h.setChan

theorem Invariant.Holds.freeChan {n : Nat} {v : Word} (h : I.Holds s) : I.Holds (s.freeChan n v) :=
  h.setChan

theorem Invariant.Holds.again (h : I.Holds s) : I.Holds s.again :=
  h.frame (by rfl)

theorem Invariant.Holds.orAgain {r : Except Nat State} {lnid : Nat} (h : I.Holds s) (hr : Gives I.Holds r) : I.Holds (s.orAgain r lnid) := by
  unfold State.orAgain
  split
  · exact hr
  · exact h.beginPull.again

theorem Invariant.Holds.execKick {c k : Nat} {x : KickBy} (h : I.Holds s) : I.Next (execKick c k x s) := by
  unfold Machine.execKick
  split
  · next e => exact (h.kickChan e).done
  · exact h.again.done

theorem Invariant.Holds.execCfg {c k : Nat} {v : Word} (h : I.Holds s) : I.Next (execCfg c k v s) :=
  h.cfgChan.done

theorem Invariant.Holds.execHaltResume {c k : Nat} {v : Word} (h : I.Holds s) : I.Next (execHaltResume c k v s) :=
  h.statChan.done

theorem Invariant.Holds.execFree {c k : Nat} {v : Word} (h : I.Holds s) : I.Next (execFree c k v s) :=
  h.freeChan.done

theorem Invariant.Holds.mailAt {key c : Nat} {ch : Chan} (h : I.Holds s) : I.Holds (s.mailAt key c ch) :=
  (h.frame (by rfl)).ite h

theorem Invariant.Holds.arrivals {n id : Nat} {r : XRec} {l : List Nat} (h : I.Holds s) : I.Holds (s.arrivals n r id l).2 := by
  induction l generalizing s with
  | nil => exact h
  | cons c cs ih =>
    unfold State.arrivals
    split
    · exact h
    · exact ih h.writeHome.mailAt

theorem Invariant.Holds.multicast {n id : Nat} {r : XRec} {bs : List Byte} {release : State → State} (h : I.Holds s)
    (hrelease : ∀ t, I.Holds t → I.Holds (release t)) : I.Holds (s.multicast n r id bs release).2.2 := by
  unfold State.multicast
  dsimp only
  split
  · exact h
  · exact (hrelease _ (h.setChan.foldl fun _ _ ht => ht.writeHome)).arrivals

theorem Invariant.Holds.perform {n id : Nat} {r : XRec} {far : Bool} {release : State → State} (h : I.Holds s)
    (hrelease : ∀ t, I.Holds t → I.Holds (release t)) : Gives (fun x => I.Holds x.2.2) (s.perform n r id far release) := by
  unfold State.perform
  extract_lets ch w width written
  split
  · exact h
  · refine (Ends.tryEng h.engineRead).bind fun v hv => ?_
    split
    · exact h
    · next bs t =>
      have kept : ∀ x : Nat × Nat × State, I.Holds x.2.2 → Gives (fun x => I.Holds x.2.2) (written x) := by
        rintro ⟨k, st, t⟩ ht
        have hl : I.Holds ((release t).linkStatus .ce (chanId n) width 0).2 := (hrelease t ht).linkStatus
        unfold written
        dsimp only
        split
        · exact ht
        · generalize State.linkStatus _ .ce _ width 0 = y at hl ⊢
          split
          · exact hl.engBar.bind fun v hv => hv
          · exact hl
      have ht : I.Holds t := hv
      split
      · exact kept _ (ht.multicast hrelease)
      · exact ht.engPut.bind kept

theorem Invariant.Holds.chanMail {n : Nat} {va : Word} (h : I.Holds s) : I.Holds (s.chanMail n va) := by
  unfold State.chanMail
  split
  · exact h.addMail
  · exact h

theorem Invariant.Holds.openChan {n : Nat} (h : I.Holds s) : I.Holds (s.openChan n) :=
  h.addOther

theorem Invariant.Holds.closeChan {n : Nat} (h : I.Holds s) : I.Holds (s.closeChan n) :=
  h.frame (by rfl)

theorem Invariant.Holds.storeCid {n id : Nat} {far : Bool} (h : I.Holds s) : Gives (fun x => I.Holds x.2) (s.storeCid n far id) := by
  refine (Ends.tryEng h.engineWrite).bind fun r hr => ?_
  split
  · exact Invariant.Holds.chanMail hr
  · exact h

theorem Invariant.Holds.finishRecord {n id : Nat} {a : Word} {r : XRec} {far : Bool} (h : I.Holds s) :
    Gives I.Holds (s.finishRecord n a r id far) := by
  unfold State.finishRecord
  extract_lets ch release
  have hrelease : ∀ t, I.Holds t → I.Holds (release t) := fun t ht => ht.writeBack.ite ht
  refine (h.perform hrelease).bind fun x hx => ?_
  dsimp only
  refine (Ends.tryEng (hrelease _ hx).countCause.engineWrite).bind fun v hv => ?_
  split
  · exact hv.chanMail.storeCid.bind fun y hy => (hrelease _ hy).closeChan.setChan
  · exact (hrelease _ hx).countCause.storeCid.bind fun y hy => (hrelease _ hy).closeChan.setChan

theorem Invariant.Holds.fetchRecord {n : Nat} {a : Word} {far : Bool} (h : I.Holds s) : Gives I.Holds (s.fetchRecord n a far) := by
  have ho := (h.ite h.selfInvalidate : I.Holds (if far then s else s.selfInvalidate)).openChan (n := n)
  refine (Ends.tryEng ho.engineRead).bind fun v hv => ?_
  split
  · exact ho.countCause.closeChan.setChan
  · split
    · exact hv.closeChan.setChan
    · refine (Ends.tryEng hv.engineWrite).bind fun w hw => ?_
      split
      · exact hv.countCause.closeChan.setChan
      · exact hw.setChan

theorem Invariant.Holds.oneRecord {c n : Nat} {a : Word} (h : I.Holds s) : Gives I.Holds (s.oneRecord c n a) := by
  unfold State.oneRecord
  dsimp only
  split
  · exact (Ends.of h).ite h.finishRecord
  · exact h.fetchRecord

theorem Invariant.Holds.execTransferRecord {c k : Nat} (h : I.Holds s) : I.Next (execTransferRecord c k s) :=
  h.done.ite (h.setChan.done.ite (h.setChan.orPull h.setChan.oneRecord).done)

/-! ### Tasks (R155 to R168, R346 to R348, R363, R364) -/

theorem Invariant.Holds.readExec {w : Who} {va : Word} {n : Nat} (h : I.Holds s) : Gives (fun x => I.Holds x.2) (s.readExec w va n) := by
  unfold State.readExec
  split
  · exact trivial
  · next e =>
      dsimp only
      split
      · exact trivial
      · exact (h.translateAll.ok e).foldl fun v _ hv => hv.purgeRange.ite hv

theorem Invariant.Holds.execSeen {w : Who} {va : Word} {n : Nat} (h : I.Holds s) : I.Holds (s.execSeen w va n) := by
  unfold State.execSeen
  split
  · next e => exact h.readExec.ok e
  · exact h

theorem Invariant.Holds.headSeen {ctx : LaunchCtx} {w0 : Word} (h : I.Holds s) : I.Holds (s.headSeen ctx w0) :=
  h.ite h.execSeen

theorem Invariant.Holds.setPool {c : Nat} {l : List PoolEntry} (h : I.Holds s) : I.Holds (s.setPool c l) :=
  h.frame (by rfl)

theorem Invariant.Holds.popWindow {c : Nat} {x : PoolEntry × State} (h : I.Holds s) (e : s.popWindow c = some x) : I.Holds x.2 := by
  unfold State.popWindow at e
  split at e
  · cases e
  · cases e; exact h.setPool

theorem Invariant.Holds.setCells {p : Nat} {l : List Cell} (h : I.Holds s) : I.Holds (s.setCells p l) := by
  induction l generalizing s p with
  | nil => exact h
  | cons c cs ih => exact ih h.setCell

theorem Invariant.Holds.fillWindow {r : Rec} {base cls : Nat} {zero : Bool} (h : I.Holds s) : I.Holds (s.fillWindow r base cls zero) :=
  h.setCell.setCells.setCells.ite h.setCell.setCells

theorem Invariant.Holds.enterInbox {a : Arrived} (h : I.Holds s) : I.Holds (s.enterInbox a) := by
  refine h.frame ?_
  split <;> rfl

theorem Invariant.Holds.popSpare {c : Nat} {x : PoolEntry × State} (h : I.Holds s) (e : s.popSpare c = some x) : I.Holds x.2 := by
  unfold State.popSpare at e
  split at e
  · cases e
  · exact h.popWindow e

theorem Invariant.Holds.letIn {a : Arrived} {hd : Head} {pe : PoolEntry} (h : I.Holds s) : I.Holds (s.letIn a hd pe) :=
  h.fillWindow.enterInbox

theorem Invariant.Holds.hold {a : Arrived} (h : I.Holds s) : I.Holds (s.hold a) :=
  h.frame (by rfl)

theorem Invariant.Holds.deliver {d : Delivery} (h : I.Holds s) : I.Holds (s.deliver d) := by
  unfold State.deliver
  extract_lets hr hd a u _ v
  have hv : I.Holds v := h.headSeen.frame (by rfl)
  clear_value v a hr
  split
  · exact hv.startPull.hold
  · refine Invariant.Holds.ite hv.hold (Invariant.Holds.ite hv.spill (Invariant.Holds.ite hv.enterInbox ?_))
    split
    · next e => exact (hv.popSpare e).letIn
    · exact hv.spill

theorem Invariant.Holds.unspill {blocked l : List Arrived} (h : I.Holds s) : I.Holds (s.unspill blocked l).2 := by
  induction l generalizing s blocked with
  | nil => exact h
  | cons a as ih =>
    unfold State.unspill
    dsimp only
    split
    · exact ih h
    · split
      · exact ih h
      · split
        · exact ih h.enterInbox
        · split
          · next e => exact ih (h.popSpare e).letIn
          · exact ih h

theorem Invariant.Holds.settle (h : I.Holds s) : I.Holds s.settle :=
  (h.unspill.frame (by rfl)).refillDomq

theorem Invariant.Holds.returnWindow {c base owner : Nat} (h : I.Holds s) : I.Holds (s.returnWindow c base owner) := by
  unfold State.returnWindow
  dsimp only
  split
  · exact h.frame (by rfl)
  · exact h.setPool.settle

theorem Invariant.Holds.loadLaunch {c : LaunchCtx} {vt : Word} (h : I.Holds s) : I.Holds (s.loadLaunch c vt) :=
  h.frame (by rfl)

theorem Invariant.Holds.enterProc {d : Delivery} (h : I.Holds s) : I.Holds (s.enterProc d).1 := by
  unfold State.enterProc
  split
  · split
    · exact h
    · split
      · next e₂ => exact h.appendOutput e₂
      · exact h
  · exact h

theorem Invariant.Holds.afresh {scope : Word} (h : I.Holds s) : I.Holds (s.afresh scope) :=
  (h.stirred.frame (by rfl)).acquire

theorem Invariant.Holds.unhold (h : I.Holds s) : I.Holds s.unhold :=
  h.frame (by rfl)

theorem Invariant.Holds.startTask {d : Delivery} {pe : PoolEntry} {cls limit mode : Nat} {filled noZero : Bool} (h : I.Holds s) :
    I.Holds (s.startTask d pe cls limit mode filled noZero) := by
  unfold State.startTask
  extract_lets hr hd mismatch fault opt s1 s2 s3 slot spans off s4 s5 nofp _ s6 place _ s7
  have h1 : I.Holds s1 := h.headSeen
  have h2 : I.Holds s2 := h1.execSeen.ite h1
  have h3 : I.Holds s3 := h2.ite h2.fillWindow
  have h5 : I.Holds s5 := h3.setCell.loadLaunch
  have h6 : I.Holds s6 := h5.frame (by rfl)
  have h7 : I.Holds s7 := h6.frame (by rfl)
  have h8 : I.Holds (if opt then s7.enterProc d else (s7, false, false)).1 := by
    split
    · exact h7.enterProc
    · exact h7
  generalize (if opt then s7.enterProc d else (s7, false, false)) = started at h8 ⊢
  obtain ⟨s8, held, waits⟩ := started
  clear_value s7 fault
  dsimp -zeta only
  extract_lets tk _ _ _ s9 s10 s11
  have h9 : I.Holds s9 := h8.setWindow.frame (by rfl)
  have h11 : I.Holds s11 := h9.afresh.unhold.trace.updLaunch
  split
  · exact h11.takeTrap
  · exact h11

theorem Invariant.Holds.resumeTask {p : Parked} {pe : PoolEntry} (h : I.Holds s) : I.Holds (s.resumeTask p pe) :=
  (((h.setCells.setCells.ite h.setCells).loadLaunch.frame (by rfl)).setWindow.frame (by rfl)).afresh.unhold.trace

theorem Invariant.Holds.ackPreempt (h : I.Holds s) : I.Holds s.ackPreempt := by
  unfold State.ackPreempt
  split
  · exact ⟨h.1, I.preemptPut _ _ h.2.1, h.2.2⟩
  · exact h

theorem Invariant.Holds.leave (h : I.Holds s) : I.Holds s.leave :=
  (h.frame (by rfl)).ackPreempt

theorem Invariant.Holds.freeSlotOf {slot : Nat} (h : I.Holds s) : I.Holds (s.freeSlotOf slot) :=
  h.frame (by rfl)

theorem Invariant.Holds.discardLost {base n : Nat} (h : I.Holds s) : I.Holds (s.discardLost base n) := by
  induction n with
  | zero => exact h
  | succ n ih =>
    unfold State.discardLost
    dsimp only
    split
    · exact ih.setCell
    · exact ih

theorem Invariant.Holds.endTask {tk : Task} (h : I.Holds s) : I.Holds (s.endTask tk) := by
  unfold State.endTask
  dsimp only
  split
  · exact h.discardLost.freeSlotOf.trace.leave.ite h.discardLost.freeSlotOf.trace.leave.returnWindow
  · exact (h.discardLost.freeSlotOf.trace.leave.ite h.discardLost.freeSlotOf.trace.leave.returnWindow).liveDown

theorem Invariant.windowDrained (I : Invariant) {tk : Task} : I.Checks (s.windowDrained tk) :=
  I.unboundAll

theorem Invariant.Holds.needPark {n : Nat} (h : I.Holds s) : I.Checks (s.needPark n) := by
  unfold State.needPark
  split
  · exact trivial
  · exact Ends.stop h.pullRing

theorem Invariant.Holds.keepRecord {p : Parked} (h : I.Holds s) : I.Holds (s.keepRecord p) :=
  h.writeRing.ite h.writeHome

theorem Invariant.Holds.parkTask {tk : Task} {p : Parked} (h : I.Holds s) : I.Holds (s.parkTask tk p) :=
  (h.keepRecord.frame (by rfl)).leave.returnWindow

theorem Invariant.Holds.suspendLow {tk : Task} (h : I.Holds s) : I.Holds (s.suspendLow tk) :=
  (h.frame (by rfl)).frame (by rfl)

theorem Invariant.Holds.resumeLow {tk : Task} {r : Regs} (h : I.Holds s) : I.Holds (s.resumeLow tk r) :=
  (h.frame (by rfl)).setWindow.frame (by rfl)

theorem Invariant.Holds.markPassed {w : Option Work} (h : I.Holds s) : I.Holds (s.markPassed w) := by
  unfold State.markPassed
  dsimp only
  split
  · exact h
  · exact h.frame (by rfl)
  · exact h.frame (by rfl)

theorem Invariant.Holds.dispatchWork {x : Work} (h : I.Holds s) : I.Holds (s.dispatchWork x) := by
  cases x with
  | high a | normal a =>
    exact Invariant.Holds.ite (Invariant.Holds.startTask (h.frame (by rfl))).settle (Invariant.Holds.startTask (h.frame (by rfl))).settle
  | resume r =>
    unfold State.dispatchWork
    dsimp only
    split
    · exact Invariant.Holds.resumeTask (h.frame (by rfl))
    · split
      · next e => exact (Invariant.Holds.popWindow (h.frame (by rfl)) e).resumeTask
      · exact h.frame (by rfl)
  | domain a =>
    unfold State.dispatchWork
    dsimp only
    split
    · next e => exact (Invariant.Holds.popWindow (h.frame (by rfl)) e).startTask.refillDomq
    · exact h.frame (by rfl)
  | own r =>
    unfold State.dispatchWork
    dsimp only
    split
    · next e =>
      have ht := h.popDeque e
      split
      · next e₁ => exact (ht.popWindow e₁).startTask
      · exact ht
    · exact h
  | low a r => exact h.resumeLow

theorem Invariant.Holds.stealFrom {v : Nat} (h : I.Holds s) (e : s.stealFrom v = some t) : I.Holds t := by
  unfold State.stealFrom at e
  split at e
  · cases e
  · split at e
    · cases e
    · dsimp only at e
      split at e
      · cases e; exact h.startPull
      · cases e
      · next e₁ =>
        cases e
        exact (Invariant.Holds.count (Invariant.Holds.frame (h.popWindow e₁) (by rfl))).startTask

theorem Invariant.Holds.stealPicks {l : List Nat} {n : Nat} (h : I.Holds s) :
    I.Holds (s.stealPicks l n).2 ∧ ∀ u, (s.stealPicks l n).1 = some u → I.Holds u := by
  induction n generalizing s with
  | zero =>
    refine ⟨h, fun u e => ?_⟩
    unfold State.stealPicks at e
    cases e
  | succ n ih =>
    unfold State.stealPicks
    extract_lets g _ s1
    have h1 : I.Holds s1 := h.frame (by rfl)
    clear_value s1
    have picked : ∀ u, (if l.isEmpty then none else s1.stealFrom (l.getD (g % l.length) 0)) = some u → I.Holds u := by
      intro u e
      split at e
      · cases e
      · exact h1.stealFrom e
    split
    · next t e => exact ⟨picked _ e, fun u hu => Option.some.inj hu ▸ picked _ e⟩
    · exact ih h1

theorem Invariant.Holds.stealRound (h : I.Holds s) : I.Holds s.stealRound := by
  unfold State.stealRound
  dsimp only
  split
  · next e =>
    obtain ⟨v, -, e⟩ := List.exists_of_findSome?_eq_some e
    exact h.stealFrom e
  · have hp := h.stealPicks (l := s.dieCores) (n := 8)
    split
    · next e => exact hp.2 _ e
    · exact hp.1.frame (by rfl)

theorem Invariant.Holds.dropQueues (h : I.Holds s) : I.Holds s.dropQueues :=
  h.frame (by rfl)

theorem Invariant.Holds.abandon {tk : Task} (h : I.Holds s) : I.Holds (s.abandon tk) :=
  h.freeSlotOf.dropQueues.leave.returnWindow

theorem Invariant.Holds.requeue {d : Delivery} (h : I.Holds s) : I.Holds (s.requeue d) := by
  unfold State.requeue
  dsimp only
  split
  · exact (h.headSeen.frame (by rfl)).startPull.hold
  · exact h.headSeen.frame (by rfl)

theorem Invariant.Holds.unack {k : Key} (h : I.Holds s) : I.Holds (s.unack k) :=
  h.frame (by rfl)

theorem Invariant.Holds.undoOutput {k : Key} {dropping : Bool} {o : Output} (h : I.Holds s) : I.Holds (s.undoOutput k dropping o) := by
  unfold State.undoOutput
  split
  · exact h.updDomain.unack.sendAnti
  · exact h
  · exact h.updDomain.ite h.updDomain.requeue

theorem Invariant.Holds.abandonSaved {k : Key} {dropping : Bool} (h : I.Holds s) : I.Holds (s.abandonSaved k dropping) := by
  unfold State.abandonSaved
  refine (h.frame (by rfl)).foldl ?_
  intro u x hu
  dsimp only
  split
  · exact hu.freeSlotOf.returnWindow
  · exact hu.freeSlotOf

theorem Invariant.Holds.rollback {k : Key} {dropping : Bool} (h : I.Holds s) : I.Holds (s.rollback k dropping) := by
  unfold State.rollback
  extract_lets s1 s2 bits out s3 _ s4 s5
  have h1 : I.Holds s1 := h.abandonSaved
  have h2 : I.Holds s2 := by
    unfold s2
    split
    · exact (h1.abandon.requeue.ite h1.abandon).ite h1
    · exact h1
  have h3 : I.Holds s3 := h2.foldl fun _ _ ht => ht.writeHome
  have h5 : I.Holds s5 := Invariant.Holds.foldl (h3.frame (by rfl)) fun _ _ ht => ht.undoOutput
  exact h5.updDomain

theorem Invariant.Holds.optEnter {d : Delivery} (h : I.Holds s) : I.Holds (s.optEnter d) := by
  unfold State.optEnter
  extract_lets k hr u a _ v
  have hv : I.Holds v := h.headSeen.frame (by rfl)
  clear_value v a hr
  split
  · exact hv.startPull.hold
  · exact hv.hold.ite (hv.pullRing.hold.ite (hv.rollback.ite hv).enterDomq)

theorem Invariant.Holds.enterLate {a : Arrived} (h : I.Holds s) : I.Holds (s.enterLate a) :=
  (h.frame (by rfl)).rollback.frame (by rfl)

theorem Invariant.Holds.antiEnter {k : Key} (h : I.Holds s) : I.Holds (s.antiEnter k) :=
  ((h.updDomain.frame (by rfl)).acked.ite ((h.updDomain.frame (by rfl)).ite h.rollback.updDomain)).refillDomq.acked

/-! ### The unit register space (R34, R337 to R347, R402 to R437) -/

theorem Invariant.Holds.setLq {q : Nat} {x : LQueue} (h : I.Holds s) : I.Holds (s.setLq q x) :=
  h.frame (by rfl)

theorem Invariant.Holds.doorbell {q : Nat} {v : Word} (h : I.Holds s) : I.Holds (s.doorbell q v) :=
  h.ite h.setLq

theorem Invariant.Holds.writePreempt {n : Nat} {v : Word} (h : I.Holds s) : I.Holds (s.writePreempt n v) := by
  unfold State.writePreempt
  extract_lets old new _ u
  have hu : I.Holds u := ⟨h.1, I.preemptPut _ _ h.2.1, h.2.2⟩
  exact hu.ackPreempt.ite hu

theorem Invariant.Holds.writeStealseed {v : Word} (h : I.Holds s) : I.Holds (s.writeStealseed v) :=
  h.frame (by rfl)

theorem Invariant.Holds.writeErrcnt {v : Word} (h : I.Holds s) : I.Holds (s.writeErrcnt v) :=
  h.frame (by rfl)

theorem Invariant.Holds.writeCollkick {v : Word} {scope : Option Word} (h : I.Holds s) : I.Holds (s.writeCollkick v scope) :=
  h.frame (by rfl)

theorem Invariant.Holds.schedWrite {o : Nat} {v : Word} {scope : Option Word} (h : I.Holds s) : I.Holds (s.schedWrite o v scope) := by
  unfold State.schedWrite
  split
  · dsimp only
    split
    · exact h.setLq
    · exact h.setLq
    · exact h.doorbell
    · exact h
  · split
    · exact h.frame (by rfl)
    · split
      · exact h.writePreempt
      · split
        · exact h.frame (by rfl)
        · exact h.frame (by rfl)
        · exact h.writeStealseed
        · exact h.frame (by rfl)
        · exact h.writeErrcnt
        · exact h.frame (by rfl)
        · exact (h.frame (by rfl)).ite h
        · exact h.frame (by rfl)
        · exact h.writeCollkick
        · exact h

theorem Invariant.Holds.unitWrite {loc : Nat} {v : Word} {scope : Option Word} (h : I.Holds s) (e : s.unitWrite loc v scope = some t) :
    I.Holds t := by
  unfold State.unitWrite at e
  split at e
  · split at e
    · exact h.kickChan e
    · cases e; exact h.cfgChan
    · cases e; exact h.statChan
    · cases e; exact h.freeChan
    · cases e; exact h.setChan
    · cases e; exact h
  · cases e
    exact h.schedWrite.ite h

theorem Invariant.Holds.writeVdctl {v : Nat} {x : Word} (h : I.Holds s) : I.Holds (s.writeVdctl v x) :=
  h.frame (by rfl)

theorem Invariant.Holds.writeHaltctl {v : Word} (h : I.Holds s) : I.Holds (s.writeHaltctl v) :=
  (h.frame (by rfl)).ite h

theorem Invariant.Holds.partWrite {o : Nat} {v : Word} (h : I.Holds s) : I.Holds (s.partWrite o v) :=
  (h.frame (by rfl)).ite ((h.frame (by rfl)).ite (h.writeHaltctl.ite ((h.frame (by rfl)).ite h)))

theorem Invariant.Holds.vdWrite {v o : Nat} {x : Word} (h : I.Holds s) : I.Holds (s.vdWrite v o x) := by
  unfold State.vdWrite
  dsimp only
  split
  · exact h.writeVdctl
  · exact h.frame (by rfl)
  · exact h.frame (by rfl)
  · exact h.frame (by rfl)
  · exact h

theorem Invariant.Holds.reshape (h : I.Holds s) : I.Holds s.reshape :=
  (h.frame (by rfl)).ite (h.frame (by rfl))

theorem Invariant.Holds.placeSync (h : I.Holds s) : I.Holds s.placeSync :=
  ((h.frame (by rfl)).foldl fun u x hu => hu.evict).reshape.frame (by rfl)

theorem Invariant.Holds.tableWrite {o : Nat} {v : Word} (h : I.Holds s) : I.Holds (s.tableWrite o v) := by
  unfold State.tableWrite
  dsimp only
  split
  · exact h.frame (by rfl)
  · exact h.frame (by rfl)
  · exact h.frame (by rfl)
  · exact h.frame (by rfl)
  · exact h.ite (h.placeSync.ite h.again)
  · exact h

theorem Invariant.Holds.hyperWrite {loc : Nat} {v : Word} (h : I.Holds s) : I.Holds (s.hyperWrite loc v) := by
  unfold State.hyperWrite
  dsimp only
  split
  · exact h.tableWrite
  · split
    · exact h.partWrite
    · split
      · exact h.vdWrite
      · split
        · next e => exact h.unitWrite e
        · exact h.again

theorem Invariant.Holds.execLqtail {q : Nat} {v : Word} (h : I.Holds s) : I.Next (execLqtail q v s) :=
  h.doorbell.done

theorem Invariant.Holds.execPreempt {v : Word} (h : I.Holds s) : I.Next (execPreempt v s) :=
  h.writePreempt.done

theorem Invariant.Holds.execStealseed {v : Word} (h : I.Holds s) : I.Next (execStealseed v s) :=
  h.writeStealseed.done

theorem Invariant.Holds.execErrcnt {v : Word} (h : I.Holds s) : I.Next (execErrcnt v s) :=
  h.writeErrcnt.done

theorem Invariant.Holds.execCollkick {v : Word} (h : I.Holds s) : I.Next (execCollkick v s) :=
  h.writeCollkick.done

theorem Invariant.Holds.execVdctl {v : Nat} {x : Word} (h : I.Holds s) : I.Next (execVdctl v x s) :=
  h.writeVdctl.done

theorem Invariant.Holds.execGo {v : Word} (h : I.Holds s) : I.Next (execGo v s) :=
  h.writeHaltctl.done

theorem Invariant.Holds.execRegisterWrite {addr : Nat} {v : Word} (h : I.Holds s) : I.Next (execRegisterWrite addr v s) :=
  h.hyperWrite.done

/-! ### WPUSH and the instructions of major 0x3C (R235, R310 to R324, R352 to R362) -/

theorem Invariant.taskMode (I : Invariant) {c : Ctx} : I.Checks (taskMode c s) := by
  unfold Machine.taskMode
  split <;> exact trivial

theorem Invariant.tendMode (I : Invariant) {c : Ctx} : I.Checks (tendMode c s) := by
  unfold Machine.tendMode
  split <;> exact trivial

theorem Invariant.taskForm (I : Invariant) {ok : Bool} {c : Ctx} : I.Checks (taskForm ok c s) := by
  unfold Machine.taskForm
  split
  · exact I.taskMode
  · exact trivial

theorem Invariant.notForerunner (I : Invariant) {c : Ctx} : I.Checks (s.notForerunner c) := by
  unfold State.notForerunner
  split <;> exact trivial

theorem Invariant.queuesEmpty (I : Invariant) {c : Ctx} : I.Checks (s.queuesEmpty c) := by
  unfold State.queuesEmpty
  split <;> exact trivial

theorem Invariant.Holds.runTask {i : Instr} {g : Guard} {body : Ctx → State → Res State} (h : I.Holds s)
    (hbody : ∀ k t, I.Holds t → Ends I.Stops I.Holds (body k t)) :
    I.Next (runTask i g body s) :=
  h.runEnd (fun _ _ _ => I.taskMode) (fun _ _ hu => (hbody _ _ hu).map fun _ hv => hv)

theorem Invariant.Holds.runForm {i : Instr} {g : Guard} {ok : Bool} {body : Ctx → State → Res State} (h : I.Holds s)
    (hbody : ∀ k t, I.Holds t → Ends I.Stops I.Holds (body k t)) :
    I.Next (runForm i g ok body s) :=
  h.runEnd (fun _ _ _ => I.taskForm) (fun _ _ hu => (hbody _ _ hu).map fun _ hv => hv)

theorem Invariant.form (I : Invariant) {b : Bool} {c : Ctx} : I.Checks (form b c) := by
  unfold Machine.form
  split <;> exact trivial

theorem Invariant.sendRoom (I : Invariant) : I.Checks s.sendRoom := by
  unfold State.sendRoom
  split <;> exact trivial

theorem Invariant.Holds.execWpush {g : Guard} {x : WPushArgs} (h : I.Holds s) : I.Next (execWpush g x s) :=
  h.run fun _ _ hu => (I.prepareOwn I.notForerunner).bind fun _ _ => I.need.bind fun _ _ => I.checkAbs.bind fun _ _ => I.need.bind fun _ _ =>
      hu.take.returnWindow

theorem Invariant.Holds.takeSend {x : SendArgs} (h : I.Holds s) : I.Holds (s.takeSend x).2.2.2 :=
  h.take.takeRun.takeScope

theorem Invariant.Holds.sendNow {n : Nat} {d : Delivery} (h : I.Holds s) : Ends I.Stops I.Holds (s.sendNow n d) :=
  I.sendRoom.bind fun _ _ => h.release.bind fun _ hu => hu.liveUp.sendRecord

theorem Invariant.Holds.execSend {g : Guard} {x : SendArgs} (h : I.Holds s) : I.Next (execSend g x s) :=
  h.runTask (fun _ _ hu => I.checkScope.bind fun _ _ => (I.prepareOwn I.noOpt).bind fun _ _ => I.form.bind fun _ _ => hu.takeSend.sendNow)

theorem Invariant.Holds.execSendRect {g : Guard} {x : SendRect} (h : I.Holds s) : I.Next (execSendRect g x s) := by
  unfold Machine.execSendRect
  dsimp only
  exact h.runForm (fun c u hu => (I.prepareOwn I.noOpt).bind fun _ _ => I.form.bind fun _ _ => I.sendRoom.bind fun _ _ =>
      hu.takeRun.takeScope.release.bind fun _ hv => hv.liveUp.foldl fun w y hw => hw.sendRecord)

theorem Invariant.Holds.execSpawn {g : Guard} {x : SpawnArgs} (h : I.Holds s) : I.Next (execSpawn g x s) := by
  refine h.runTask fun c u hu => I.checkScope.bind fun _ _ => ?_
  refine (I.prepareOwn (I.noOpt.bind fun _ _ => I.notForerunner)).bind fun _ _ => I.form.bind fun _ _ => ?_
  refine hu.takeRun.takeScope.release.bind fun v hv => ?_
  split
  · next e => exact (hv.pushDeque e).liveUp
  · exact hv.pullDeque

theorem Invariant.Holds.execSpawnev {g : Guard} {x : SendArgs} (h : I.Holds s) : I.Next (execSpawnev g x s) := by
  refine h.runTask fun c u hu => I.checkScope.bind fun _ _ => ?_
  refine (I.prepareOwn (I.noOpt.bind fun _ _ => I.notForerunner)).bind fun _ _ => I.form.bind fun _ _ => I.sendRoom.bind fun _ _ => ?_
  refine hu.takeSend.eventHere.bind fun _ _ => ?_
  split
  · exact trivial
  · exact hu.takeSend.release.bind fun v hv => hv.liveUp.addWaiter

theorem Invariant.Holds.eventBody {f : Nat → Word → Nat} {x : EvArgs} {c : Ctx} (h : I.Holds s) : Ends I.Stops I.Holds (eventBody f x c s) :=
  I.checkScope.bind fun _ _ => (I.prepareOwn I.noOpt).bind fun _ _ => I.form.bind fun _ _ => h.take.take.takeScope.eventHere.bind fun _ _ =>
      h.take.take.takeScope.release.bind fun _ hu => hu.bindDst.bind fun _ hv => hv.updateEvent

theorem Invariant.Holds.execEvadd {g : Guard} {x : EvArgs} (h : I.Holds s) : I.Next (execEvadd g x s) :=
  h.runTask (fun _ _ hu => hu.eventBody)

theorem Invariant.Holds.execEvset {g : Guard} {x : EvArgs} (h : I.Holds s) : I.Next (execEvset g x s) :=
  h.runTask (fun _ _ hu => hu.eventBody)

theorem Invariant.poolRoom (I : Invariant) {tk : Task} : I.Checks (s.poolRoom tk) :=
  I.need

theorem Invariant.Holds.mayLeave {tk : Task} {n : Nat} (h : I.Holds s) : I.Checks (s.mayLeave tk n) :=
  I.windowDrained.bind fun _ _ => h.needPark

theorem Invariant.Holds.execPark {g : Guard} {x : ParkArgs} (h : I.Holds s) : I.Next (execPark g x s) := by
  unfold Machine.execPark
  refine h.runEnd (fun c u hu => I.taskForm) fun c u hu => ?_
  refine I.checkScope.bind fun _ _ => ?_
  refine (I.prepareOwn (I.queuesEmpty.bind fun _ _ => I.noOpt.bind fun _ _ => I.notForerunner)).bind fun _ _ => ?_
  dsimp only
  split
  · exact trivial
  · refine I.form.bind fun _ _ => ?_
    refine I.poolRoom.bind fun _ _ => ?_
    refine hu.take.takeScope.mayLeave.bind fun _ _ => ?_
    refine hu.take.takeScope.eventHere.bind fun _ _ => ?_
    split
    · exact trivial
    · exact hu.take.takeScope.release.bind fun _ hv => hv.parkTask.addWaiter

theorem Invariant.Holds.execYield {g : Guard} {n : BitVec 13} (h : I.Holds s) : I.Next (execYield g n s) := by
  unfold Machine.execYield
  refine h.runEnd (fun c u hu => I.taskForm) fun c u hu => ?_
  refine (I.prepareOwn (I.queuesEmpty.bind fun _ _ => I.noOpt.bind fun _ _ => I.notForerunner)).bind fun _ _ => ?_
  split
  · exact trivial
  · exact I.form.bind fun _ _ => I.poolRoom.bind fun _ _ => hu.mayLeave.bind fun _ _ => hu.release.bind fun _ hv => hv.parkTask

theorem Invariant.Holds.dropHandler {tk : Task} (h : I.Holds s) : I.Holds (s.dropHandler tk) := by
  unfold State.dropHandler
  split
  · exact h.trace.rollback.updDomain
  · exact h.endTask

theorem Invariant.tendDrained (I : Invariant) {tk : Task} : I.Checks (s.tendDrained tk) :=
  I.unboundAll

theorem Invariant.Holds.execTend {g : Guard} (h : I.Holds s) : I.Next (execTend g s) := by
  unfold Machine.execTend
  refine h.runEnd (fun c u hu => I.tendMode) fun c u hu => ?_
  dsimp only
  split
  · refine Ends.bind (A := fun _ => True) trivial fun _ _ => ?_
    split
    · exact hu
    · refine I.tendDrained.bind fun _ _ => ?_
      split
      · refine Ends.bind (A := fun _ => True) trivial fun _ _ => ?_
        refine hu.release.bind fun _ hv => ?_
        split
        · exact hv.dropQueues.dropHandler.ite hv.dropQueues.endTask
        · exact (hv.updDomain.ite hv).endTask
      · refine I.poolRoom.bind fun _ _ => ?_
        refine hu.release.bind fun _ hv => ?_
        split
        · exact hv.dropQueues.dropHandler.ite hv.dropQueues.endTask
        · exact (hv.updDomain.ite hv).endTask
  · refine I.queuesEmpty.bind fun _ _ => ?_
    split
    · exact hu
    · refine I.tendDrained.bind fun _ _ => ?_
      split
      · refine Ends.bind (A := fun _ => True) trivial fun _ _ => ?_
        refine hu.release.bind fun _ hv => ?_
        split
        · exact hv.dropQueues.dropHandler.ite hv.dropQueues.endTask
        · exact (hv.updDomain.ite hv).endTask
      · refine I.poolRoom.bind fun _ _ => ?_
        refine hu.release.bind fun _ hv => ?_
        split
        · exact hv.dropQueues.dropHandler.ite hv.dropQueues.endTask
        · exact (hv.updDomain.ite hv).endTask

theorem Invariant.Holds.recordPa {va : Word} (h : I.Holds s) : Ends I.Stops (fun x => I.Holds x.2) (s.recordPa va) := by
  unfold State.recordPa
  split
  · exact trivial
  · split
    · exact Ends.stop h.missStop
    · next e =>
        refine I.need.bind fun _ _ => ?_
        split
        · exact Ends.stop h.missStop
        · exact h.translate.ok e

theorem Invariant.Holds.execLaunch {g : Guard} {x : EvArgs} (h : I.Holds s) : I.Next (execLaunch g x s) := by
  refine h.runTask fun c u hu => I.checkScope.bind fun _ _ => (I.prepareOwn I.noOpt).bind fun _ _ => I.form.bind fun _ _ => ?_
  refine I.aligned.bind fun _ _ => hu.take.take.takeScope.recordPa.bind fun r hr => I.sendRoom.bind fun _ _ => ?_
  dsimp only
  refine Ends.ite (.stop hr.pullAt) (hr.release.bind fun v hv => ?_)
  exact ((hv.writePhysMem.setLq.frame (by rfl)) : I.Holds _).bindDst

theorem Invariant.Holds.ioBody {kind : Nat} {x : IoArgs} {c : Ctx} (h : I.Holds s) : Ends I.Stops I.Holds (ioBody kind x c s) := by
  refine I.checkScope.bind fun _ _ => (I.prepareOwn I.noOpt).bind fun _ _ => I.form.bind fun _ _ => I.aligned.bind fun _ _ => ?_
  refine I.unbound.bind fun _ _ => ?_
  dsimp only
  exact Ends.ite trivial (h.takeRun.takeScope.release.bind fun v hv => hv.bind.frame (by rfl))

theorem Invariant.Holds.execSread {g : Guard} {x : IoArgs} (h : I.Holds s) : I.Next (execSread g x s) :=
  h.runTask (fun _ _ hu => hu.ioBody)

theorem Invariant.Holds.execSwrite {g : Guard} {x : IoArgs} (h : I.Holds s) : I.Next (execSwrite g x s) :=
  h.runTask (fun _ _ hu => hu.ioBody)

theorem Invariant.Holds.execNettx {g : Guard} {x : IoArgs} (h : I.Holds s) : I.Next (execNettx g x s) :=
  h.runTask (fun _ _ hu => hu.ioBody)

theorem Invariant.Holds.execNetrx {g : Guard} {x : IoArgs} (h : I.Holds s) : I.Next (execNetrx g x s) :=
  h.runTask (fun _ _ hu => hu.ioBody)

theorem Invariant.Holds.execDomain {g : Guard} {x : TwoSrc} (h : I.Holds s) : I.Next (execDomain g x s) := by
  unfold Machine.execDomain
  refine h.runTask fun c u hu => ?_
  refine (I.prepareOwn (I.notForerunner.bind fun _ _ => I.noOpt)).bind fun _ _ => ?_
  dsimp only
  split
  · exact trivial
  · refine I.form.bind fun _ _ => ?_
    split
    · exact trivial
    · exact (hu.take.take.frame (by rfl)).writeBlock.liveUp

theorem Invariant.Holds.execDomexit {g : Guard} (h : I.Holds s) : I.Next (execDomexit g s) := by
  unfold Machine.execDomexit
  refine h.runTask fun c u hu => ?_
  refine (I.prepareOwn (I.notForerunner.bind fun _ _ => I.noOpt)).bind fun _ _ => ?_
  split
  · exact trivial
  · split
    · exact trivial
    · exact (hu.writeBlock.frame (by rfl)).liveDown.reseed

theorem Invariant.awaitGvt (I : Invariant) {target : Option (Nat × Bool)} {k : Key} : I.Checks (s.awaitGvt target k) := by
  unfold State.awaitGvt
  split
  · split <;> exact trivial
  · exact trivial

theorem Invariant.Holds.sendKeyed {n : Nat} {d : Delivery} {k : Key} (h : I.Holds s) : I.Holds (s.sendKeyed n d k) :=
  (h.frame (by rfl)).sendRecord

theorem Invariant.Holds.logOutput {k : Key} {o : OutKind} (h : I.Holds s) : Ends I.Stops I.Holds (s.logOutput k o) := by
  unfold State.logOutput
  split
  · exact h
  · split
    · next e₁ => exact h.appendOutput e₁
    · exact trivial

theorem Invariant.vsendKey (I : Invariant) {k : Key} {target : Option (Nat × Bool)} {c : Ctx} : I.Checks (s.vsendKey k target c) := by
  unfold State.vsendKey
  split
  · split <;> exact trivial
  · split
    · split <;> exact trivial
    · exact trivial

theorem Invariant.Holds.logVsend {k : Key} {n field : Nat} {scope : Word} (h : I.Holds s) : Ends I.Stops I.Holds (s.logVsend k n field scope) := by
  unfold State.logVsend
  split
  · exact (Ends.of h).ite h.logOutput
  · exact h

theorem Invariant.Holds.execVsend {g : Guard} {x : SendArgs} (h : I.Holds s) : I.Next (execVsend g x s) := by
  refine h.runTask fun c u hu => I.checkScope.bind fun _ _ => (I.prepareOwn I.notForerunner).bind fun _ _ => ?_
  refine I.awaitGvt.bind fun _ _ => I.form.bind fun _ _ => I.vsendKey.bind fun _ _ => ?_
  dsimp only
  refine Ends.ite trivial (hu.takeSend.logVsend.bind fun _ _ => hu.takeSend.release.bind fun v hv => hv.logVsend.bind fun w hw => ?_)
  exact Invariant.Holds.sendKeyed (hw.frame (by rfl))

theorem Invariant.Holds.execDefer {g : Guard} {x : SendArgs} (h : I.Holds s) : I.Next (execDefer g x s) := by
  refine h.runTask fun c u hu => I.checkScope.bind fun _ _ => (I.prepareOwn I.notForerunner).bind fun _ _ => I.form.bind fun _ _ => ?_
  dsimp only
  split
  · exact Ends.ite hu.takeSend.logOutput (Ends.ite trivial hu.takeSend.sendNow)
  · exact hu.takeSend.sendNow

theorem Invariant.Holds.writePair {d : Name} {a b : Word} (h : I.Holds s) : Ends I.Stops I.Holds (s.writePair d a b) :=
  I.unboundAll.bind fun _ _ => h.writePhys.bind fun _ hu => hu.writePhys

theorem Invariant.Holds.execVtnow {g : Guard} {d : Name} (h : I.Holds s) : I.Next (execVtnow g d s) := by
  unfold Machine.execVtnow
  refine h.run fun c u hu => ?_
  refine I.prepare.bind fun _ _ => ?_
  split <;> exact hu.writePair

theorem Invariant.Holds.execGvtrd {g : Guard} {d : Name} (h : I.Holds s) : I.Next (execGvtrd g d s) :=
  h.run fun _ _ hu => I.prepare.bind fun _ _ => hu.writePair

theorem Invariant.Holds.execSafe {g : Guard} (h : I.Holds s) : I.Next (execSafe g s) := by
  unfold Machine.execSafe
  refine h.runTask fun c u hu => ?_
  refine (I.prepareOwn I.notForerunner).bind fun _ _ => ?_
  split
  · exact trivial
  · exact hu

/-! ### The matrix unit (R287 to R303) -/

/-- The same as the matrix unit reports it. -/
theorem Ends.muTry {α : Type} {A : α → Prop} {r : Except EngFault α} {kind : Nat} (h : Gives A r) : Gives A (muTry kind r) := by
  unfold Machine.muTry
  split
  · exact h
  · exact trivial
  · exact trivial

theorem Invariant.Holds.muRead {c : MuCmd} {kind n : Nat} {va : Word} (h : I.Holds s) : Gives (fun x => I.Holds x.2) (s.muRead c kind va n) :=
  Ends.muTry h.engineRead

theorem Invariant.Holds.muWrite {c : MuCmd} {va : Word} {bs : List Byte} (h : I.Holds s) : Gives I.Holds (s.muWrite c va bs) :=
  Ends.muTry h.engineWrite

theorem Invariant.rowAligned (I : Invariant) {k : Kind} {base : Word} {stride n : Nat} : I.Checks (rowAligned k base stride n) :=
  I.aligned.bind fun _ _ => I.need

theorem Invariant.resvOk (I : Invariant) {b : Bool} {c : Ctx} : I.Checks (resvOk b c) := by
  unfold Machine.resvOk
  split <;> exact trivial

theorem Invariant.Holds.muOperands {c : Ctx} {tok : Name} {a : Run} {n : Nat} {check : List Word → Res Unit} {own : Res Unit} (h : I.Holds s)
    (hcheck : ∀ ws, I.Checks (check ws)) (hown : I.Checks own) :
    Ends I.Stops (fun x => I.Holds x.2.2) (s.muOperands c tok a n check own) :=
  (I.prepareOwn (hown.bind fun _ _ => I.noOpt)).bind fun _ _ => (hcheck _).bind fun _ _ => h.takeRun.take

theorem Invariant.Holds.enqueue {tok : Name} {cmd : State → MuCmd} (h : I.Holds s) : Ends I.Stops I.Holds (s.enqueue tok cmd) := by
  unfold State.enqueue
  refine I.unbound.bind fun _ _ => ?_
  split
  · exact trivial
  · exact h.release.bind fun _ hu => hu.bind.frame (by rfl)

theorem Invariant.Holds.queuedBody {op : MuOp} {tile rm nud n : Nat} {tok : Name} {a : Run} {x : Option Matx}
    {check : Ctx → State → List Word → Res Unit} {c : Ctx} (h : I.Holds s)
    (hcheck : ∀ k t ws, I.Holds t → I.Checks (check k t ws)) :
    Ends I.Stops I.Holds (queuedBody op tile rm nud tok a n x check c s) :=
  (h.muOperands (fun _ => hcheck _ _ _ h) (Ends.of trivial)).bind fun _ hr => hr.enqueue

theorem Invariant.awaitMu (I : Invariant) : I.Checks s.awaitMu := by
  unfold State.awaitMu
  split <;> exact trivial

theorem Invariant.mmaCheck (I : Invariant) {sparse : Bool} {c : Ctx} {ws : List Word} : I.Checks (mmaCheck sparse c s ws) := by
  unfold Machine.mmaCheck
  refine I.resvOk.bind fun _ _ => ?_
  refine I.form.bind fun _ _ => ?_
  refine I.rowAligned.bind fun _ _ => ?_
  refine I.rowAligned.bind fun _ _ => ?_
  split
  · exact I.rowAligned
  · exact trivial

theorem Invariant.mrotCheck (I : Invariant) {c : Ctx} {ws : List Word} : I.Checks (mrotCheck c s ws) := by
  unfold Machine.mrotCheck
  dsimp only
  split
  · exact Ends.bind (A := fun _ => True) trivial fun _ _ => I.resvOk.bind fun _ _ => I.form
  · exact trivial

theorem Invariant.bufCheck (I : Invariant) {c : Ctx} {ws : List Word} : I.Checks (bufCheck c s ws) :=
  I.resvOk.bind fun _ _ => I.rowAligned

theorem Invariant.tileCheck (I : Invariant) {k : Kind} {n : Nat} {c : Ctx} {ws : List Word} : I.Checks (tileCheck k n c s ws) :=
  I.resvOk.bind fun _ _ => I.rowAligned

theorem Invariant.matxForm (I : Invariant) {x : MmaArgs} {c : Ctx} : I.Checks (matxForm x c s) :=
  I.form

theorem Invariant.Holds.runMma {i : Instr} {g : Guard} {x : MmaArgs} {body : Ctx → State → Res State} (h : I.Holds s)
    (hbody : ∀ k t, I.Holds t → Ends I.Stops I.Holds (body k t)) :
    I.Next (runMma i g x body s) :=
  h.runEnd (fun _ _ _ => I.matxForm) (fun _ _ hu => (hbody _ _ hu).map fun _ hv => hv)

theorem Invariant.Holds.mmaBody {acc : Acc} {x : MmaArgs} {c : Ctx} (h : I.Holds s) : Ends I.Stops I.Holds (mmaBody acc x c s) :=
  h.queuedBody (fun _ _ _ _ => I.mmaCheck)

theorem Invariant.Holds.mmasBody {acc : Acc} {g : Nat} {x : MmaArgs} {c : Ctx} (h : I.Holds s) : Ends I.Stops I.Holds (mmasBody acc g x c s) :=
  h.queuedBody (fun _ _ _ _ => I.mmaCheck)

theorem Invariant.Holds.mrotBody {acc : Acc} {x : MrotArgs} {c : Ctx} (h : I.Holds s) : Ends I.Stops I.Holds (mrotBody acc x c s) :=
  h.queuedBody (fun _ _ _ _ => I.mrotCheck)

theorem Invariant.Holds.execMmaF {g : Guard} {x : MmaArgs} (h : I.Holds s) : I.Next (execMmaF g x s) :=
  h.runMma (fun _ _ hu => hu.mmaBody)

theorem Invariant.Holds.execMmaI {g : Guard} {x : MmaArgs} (h : I.Holds s) : I.Next (execMmaI g x s) :=
  h.runMma (fun _ _ hu => hu.mmaBody)

theorem Invariant.Holds.execMmaSat {g : Guard} {x : MmaArgs} (h : I.Holds s) : I.Next (execMmaSat g x s) :=
  h.runMma (fun _ _ hu => hu.mmaBody)

theorem Invariant.Holds.execMmas24F {g : Guard} {x : MmaArgs} (h : I.Holds s) : I.Next (execMmas24F g x s) :=
  h.runMma (fun _ _ hu => hu.mmasBody)

theorem Invariant.Holds.execMmas24I {g : Guard} {x : MmaArgs} (h : I.Holds s) : I.Next (execMmas24I g x s) :=
  h.runMma (fun _ _ hu => hu.mmasBody)

theorem Invariant.Holds.execMmas24Sat {g : Guard} {x : MmaArgs} (h : I.Holds s) : I.Next (execMmas24Sat g x s) :=
  h.runMma (fun _ _ hu => hu.mmasBody)

theorem Invariant.Holds.execMmas48F {g : Guard} {x : MmaArgs} (h : I.Holds s) : I.Next (execMmas48F g x s) :=
  h.runMma (fun _ _ hu => hu.mmasBody)

theorem Invariant.Holds.execMmas48I {g : Guard} {x : MmaArgs} (h : I.Holds s) : I.Next (execMmas48I g x s) :=
  h.runMma (fun _ _ hu => hu.mmasBody)

theorem Invariant.Holds.execMmas48Sat {g : Guard} {x : MmaArgs} (h : I.Holds s) : I.Next (execMmas48Sat g x s) :=
  h.runMma (fun _ _ hu => hu.mmasBody)

theorem Invariant.Holds.execMrotF {g : Guard} {x : MrotArgs} (h : I.Holds s) : I.Next (execMrotF g x s) :=
  h.run fun _ _ hu => hu.mrotBody

theorem Invariant.Holds.execMrotI {g : Guard} {x : MrotArgs} (h : I.Holds s) : I.Next (execMrotI g x s) :=
  h.run fun _ _ hu => hu.mrotBody

theorem Invariant.Holds.execMrotSat {g : Guard} {x : MrotArgs} (h : I.Holds s) : I.Next (execMrotSat g x s) :=
  h.run fun _ _ hu => hu.mrotBody

theorem Invariant.Holds.execMlda {g : Guard} {x : TokArgs} (h : I.Holds s) : I.Next (execMlda g x s) :=
  h.run fun _ _ hu => hu.queuedBody (fun _ _ _ _ => I.bufCheck)

theorem Invariant.Holds.execMldb {g : Guard} {x : TokArgs} (h : I.Holds s) : I.Next (execMldb g x s) :=
  h.run fun _ _ hu => hu.queuedBody (fun _ _ _ _ => I.bufCheck)

theorem Invariant.Holds.execMld {g : Guard} {x : MldArgs} (h : I.Holds s) : I.Next (execMld g x s) :=
  h.run fun _ _ hu => hu.queuedBody (fun _ _ _ _ => I.tileCheck)

theorem Invariant.Holds.execMldt {g : Guard} {x : MldArgs} (h : I.Holds s) : I.Next (execMldt g x s) :=
  h.run fun _ _ hu => hu.queuedBody (fun _ _ _ _ => I.tileCheck)

theorem Invariant.Holds.execMst {g : Guard} {x : MstArgs} (h : I.Holds s) : I.Next (execMst g x s) :=
  h.run fun _ _ hu => hu.queuedBody (fun _ _ _ _ => I.tileCheck)

theorem Invariant.Holds.setTile {ty i : Nat} {els : List Nat} (h : I.Holds s) : I.Holds (s.setTile ty i els) :=
  h.frame (by rfl)

theorem Invariant.Holds.execMzero {g : Guard} {tile : Fin 4} (h : I.Holds s) : I.Next (execMzero g tile s) :=
  h.run fun _ _ hu => I.noOpt.bind fun _ _ => I.awaitMu.bind fun _ _ => hu.setTile

theorem Invariant.Holds.execMthr {g : Guard} {a : Src} (h : I.Holds s) : I.Next (execMthr g a s) :=
  h.run fun c u hu => (I.prepareOwn I.noOpt).bind fun _ _ => I.awaitMu.bind fun _ _ => hu.take.frame (by rfl)

theorem Invariant.Holds.execMrd {g : Guard} {x : MrdArgs} (h : I.Holds s) : I.Next (execMrd g x s) :=
  h.run fun _ _ hu => (I.prepareOwn I.noOpt).bind fun _ _ => I.awaitMu.bind fun _ _ => hu.write

theorem Invariant.Holds.askStop (h : I.Holds s) : I.Holds s.askStop :=
  h.frame (by rfl)

theorem Invariant.Holds.execMsave {g : Guard} {x : TokPlain} (h : I.Holds s) : I.Next (execMsave g x s) :=
  h.run fun c u hu => (hu.muOperands (fun _ => I.aligned) (Ends.of trivial)).bind fun _ hr => I.unbound.bind fun _ _ => hr.release.bind fun _ hv =>
      hv.bind.askStop.frame (by rfl)

theorem Invariant.Holds.execMsaveRst {g : Guard} {x : TokPlain} (h : I.Holds s) : I.Next (execMsaveRst g x s) :=
  h.run fun c u hu => (hu.muOperands (fun _ => I.aligned) (Ends.of trivial)).bind fun _ hr => I.unbound.bind fun _ _ => I.awaitMu.bind fun _ _ =>
      hr.release.bind fun _ hv => hv.bind.frame (by rfl)

theorem Invariant.Holds.muRestore {bs : List Byte} (h : I.Holds s) : I.Holds (s.muRestore bs) :=
  h.frame (by rfl)

theorem Invariant.Holds.block {c : MuCmd} {p : KRun} {kind i k : Nat} (h : I.Holds s) : Gives (fun x => I.Holds x.2.2) (s.block c p kind i k) := by
  unfold State.block
  split
  · exact h
  · exact h.muRead.bind fun _ hr => hr

theorem Invariant.Holds.bBlock {c : MuCmd} {p : KRun} {j kb : Nat} (h : I.Holds s) : Gives (fun x => I.Holds x.2) (s.bBlock c p j kb) :=
  h.block.bind fun _ hr => (Gives.any _).bind fun _ _ => hr

theorem Invariant.Holds.bBlocks {c : MuCmd} {p : KRun} {l : List (Nat × Nat)} (h : I.Holds s) :
    Gives (fun x => I.Holds x.2) (s.bBlocks c p l) := by
  induction l generalizing s with
  | nil => exact h
  | cons x l ih =>
    unfold State.bBlocks
    split
    · exact trivial
    · exact h
    · next e => exact (ih (h.bBlock.ok e)).bind fun _ hr => hr

theorem Invariant.Holds.rowA {c : MuCmd} {p : KRun} {k i : Nat} (h : I.Holds s) : Gives (fun x => I.Holds x.2) (s.rowA c p k i) := by
  refine h.block.bind fun r hr => (Gives.any _).bind fun b _ => ?_
  dsimp only
  split
  · exact (Gives.any _).bind fun _ _ => hr
  · split
    · exact trivial
    · exact (Gives.any _).bind fun _ _ => trivial
    · next e =>
      have hm := Ends.ok (E := fun _ => True) (A := fun x : List Nat × State => I.Holds x.2) ?_ e
      · exact (Gives.any _).bind fun _ _ => hm
      · refine hr.block.bind fun v hv => ?_
        split
        · exact hv
        · exact trivial

theorem Invariant.Holds.rowStep {c : MuCmd} {p : KRun} {k i : Nat} {cols : Option BBlocks} (h : I.Holds s) :
    Gives (fun x => I.Holds x.2) (s.rowStep c p k i cols) := by
  refine h.rowA.bind ?_
  rintro ⟨a, u⟩ hu
  dsimp -zeta only
  extract_lets rest
  have kept : ∀ x : BBlocks × State, I.Holds x.2 → Gives (fun x => I.Holds x.2) (rest x) := by
    intro x hx
    refine (Gives.any _).bind fun _ _ => ?_
    split
    · exact trivial
    · exact hx.setTile.frame (by rfl)
  split
  · exact kept (_, u) hu
  · exact hu.bBlocks.bind kept

theorem Invariant.Holds.kRows {c : MuCmd} {p : KRun} {k : Nat} {cols : Option BBlocks} {l : List Nat} (h : I.Holds s) :
    Gives (fun x => I.Holds x.1) (s.kRows c p k cols l) := by
  induction l generalizing s cols with
  | nil => exact h
  | cons i is ih =>
    unfold State.kRows
    split
    · next e => exact ih (h.rowStep.ok e)
    · exact trivial
    · exact h

theorem Invariant.Holds.kStep {c : MuCmd} {p : KRun} (h : I.Holds s) : Gives (fun x => I.Holds x.1) (s.kStep c p) := by
  unfold State.kStep
  split
  · exact trivial
  · next e => exact h.kRows.ok e
  · next e => exact h.kRows.ok e

theorem Invariant.Holds.setRun {c : MuCmd} (h : I.Holds s) : I.Holds (s.setRun c) :=
  h.frame (by rfl)

theorem Invariant.Holds.muDone {c : MuCmd} {tok : Word} (h : I.Holds s) : I.Holds (s.muDone c tok) :=
  h.setRun

theorem Invariant.Holds.freshRows (h : I.Holds s) : I.Holds s.freshRows :=
  h.frame (by rfl)

theorem Invariant.Holds.keepClips {c : MuCmd} {resume : Bool} (h : I.Holds s) : I.Holds (s.keepClips c resume) :=
  h.ite (h.frame (by rfl))

theorem Invariant.Holds.takeClips {c : MuCmd} (h : I.Holds s) : I.Holds (s.takeClips c) := by
  unfold State.takeClips
  split <;> exact h.frame (by rfl)

theorem Invariant.Holds.muOpen {c : MuCmd} (h : I.Holds s) : I.Holds (s.muOpen c) :=
  h.selfInvalidate.addOther

theorem Invariant.Holds.undoRows {c : MuCmd} {row : Nat} (h : I.Holds s) : I.Holds (s.undoRows c row) :=
  h.frame (by rfl)

theorem Invariant.Holds.muFaulted {c : MuCmd} {row low : Nat} (h : I.Holds s) : I.Holds (s.muFaulted c row low) :=
  h.undoRows.muDone

theorem Invariant.Holds.foldDrops (h : I.Holds s) : I.Holds s.foldDrops :=
  h.frame (by rfl)

theorem Invariant.Holds.census {addr : Nat} {ev : Events} (h : I.Holds s) : I.Holds (s.census addr ev) :=
  h.ite ((h.frame (by rfl)).ite ((h.frame (by rfl)).ite (h.frame (by rfl))))

theorem Invariant.Holds.mmaCensus {c : MuCmd} {acc : Acc} (h : I.Holds s) : I.Holds (s.mmaCensus c acc) :=
  h.census

theorem Invariant.Holds.grantMma {c : MuCmd} {finish : State → MuCmd → State} (h : I.Holds s)
    (hfinish : ∀ t c, I.Holds t → I.Holds (finish t c)) :
    I.Holds (s.grantMma c finish) := by
  unfold State.grantMma
  dsimp only
  split
  · split
    · exact h.muFaulted
    · exact hfinish _ _ h
  · split
    · exact h.beginPull.setRun
    · next e => exact (h.kStep.ok e).setRun

theorem Invariant.Holds.setBuffer {isA : Bool} {bs : List Byte} (h : I.Holds s) : I.Holds (s.setBuffer isA bs) :=
  h.frame (by rfl)

theorem Invariant.Holds.dropArrived {isA : Bool} {m : Nat} (h : I.Holds s) : I.Holds (s.dropArrived isA m) := by
  unfold State.dropArrived
  split
  · exact h.frame (by rfl)
  · exact h

theorem Invariant.Holds.giveUp {c : MuCmd} {isA : Bool} (h : I.Holds s) : I.Holds (s.giveUp c isA) :=
  h.ite (h.dropArrived.ite (h.frame (by rfl)))

theorem Invariant.Holds.rotFails {c : MuCmd} {detail : Nat} (h : I.Holds s) : I.Holds (s.rotFails c detail) :=
  h.giveUp.giveUp.muDone

theorem Invariant.Holds.rotSettle {c : MuCmd} (h : I.Holds s) : I.Holds (s.rotSettle c) := by
  unfold State.rotSettle
  dsimp only
  generalize (if (rotGrid c.rect).1 = 1 then none else _ : Option RotBuf) = a
  generalize (if (rotGrid c.rect).2 = 1 then none else _ : Option RotBuf) = b
  refine Invariant.Holds.ite h.rotFails (Invariant.Holds.ite ?_ h.setRun)
  have ha : I.Holds (match a with
      | some r => (s.dropArrived true c.m).setBuffer true r.bytes
      | none => s) := by
    cases a with
    | some r => exact h.dropArrived.setBuffer
    | none => exact h
  cases b with
  | some r => exact ha.dropArrived.setBuffer.mmaCensus.muDone
  | none => exact ha.mmaCensus.muDone

theorem Invariant.Holds.rotRefused (h : I.Holds s) : I.Holds s.rotRefused := by
  unfold State.rotRefused
  split
  · exact h.rotFails.ite h
  · exact h

theorem Invariant.Holds.rotSend {c : MuCmd} (h : I.Holds s) : I.Holds (s.rotSend c) :=
  (((h.frame (by rfl)).ite (h.frame (by rfl)).post).ite ((h.frame (by rfl)).ite (h.frame (by rfl)).post).post).rotSettle

theorem Invariant.Holds.rotRow {c : MuCmd} {p : KRun} {i k n : Nat} (h : I.Holds s) : Gives I.Holds (s.rotRow c p i k n) := by
  induction n generalizing s k with
  | zero => exact h
  | succ n ih => exact h.rowStep.bind fun _ hr => ih hr

theorem Invariant.Holds.grantRot {c : MuCmd} (h : I.Holds s) : I.Holds (s.grantRot c) := by
  unfold State.grantRot
  dsimp only
  split
  · exact h.foldDrops.rotSend
  · split
    · exact h.beginPull.setRun
    · exact h.muFaulted
    · next e₁ => exact (h.rotRow.ok e₁).foldDrops.rotSend.ite (h.rotRow.ok e₁).setRun

theorem Invariant.Holds.grantRows {c : MuCmd} {f : Nat → State → Except MuStop State} {finish : State → State} (h : I.Holds s)
    (hf : ∀ i t, I.Holds t → Gives I.Holds (f i t)) (hfinish : ∀ t, I.Holds t → I.Holds (finish t)) :
    I.Holds (s.grantRows c f finish) := by
  unfold State.grantRows
  refine Invariant.Holds.ite (hfinish s h).muDone ?_
  split
  · exact h.beginPull.setRun
  · exact h.muDone
  · next e =>
    have ht := (hf _ _ h).ok e
    exact (hfinish _ ht).muDone.ite ht.setRun

theorem Invariant.Holds.bufRow {c : MuCmd} {isA : Bool} {i : Nat} (h : I.Holds s) : Gives I.Holds (s.bufRow c isA i) :=
  h.muRead.bind fun _ hr => hr.frame (by rfl)

theorem Invariant.Holds.readColumn {c : MuCmd} {base : Word} {stride i j n : Nat} (h : I.Holds s) :
    Gives (fun x => I.Holds x.2) (s.readColumn c base stride i j n) := by
  induction n generalizing s j with
  | zero => exact h
  | succ n ih => exact h.muRead.bind fun _ hr => (ih hr).bind fun _ hv => hv

theorem Invariant.Holds.tileRow {c : MuCmd} {trans : Bool} {i : Nat} (h : I.Holds s) : Gives I.Holds (s.tileRow c trans i) := by
  unfold State.tileRow
  dsimp only
  split
  · exact h.readColumn.bind fun _ hr => hr.setTile
  · exact Ends.bind (A := fun x : List Nat × State => I.Holds x.2) (h.muRead.map fun _ hr => hr) fun _ hr => Ends.of hr.setTile

theorem Invariant.Holds.outRow {c : MuCmd} {ty : Ty} {i : Nat} (h : I.Holds s) : Gives I.Holds (s.outRow c ty i) :=
  h.muWrite

theorem Invariant.Holds.mstCensus {c : MuCmd} {ty : Ty} (h : I.Holds s) : I.Holds (s.mstCensus c ty) :=
  h.census

/-- The kernel is not to evaluate the write of the area, so the function is replaced by its body before it is applied. -/
theorem Invariant.Holds.grantSave {c : MuCmd} (h : I.Holds s) : I.Holds (s.grantSave c) := by
  generalize hf : State.grantSave = f
  delta State.grantSave at hf
  subst hf
  beta_reduce
  dsimp only
  split
  · next e => exact (h.muWrite.ok e).muDone
  · exact h.beginPull.setRun
  · exact h.muDone

theorem Invariant.Holds.grantRestore {c : MuCmd} (h : I.Holds s) : I.Holds (s.grantRestore c) := by
  unfold State.grantRestore
  split
  · next e => exact (h.muRead.ok e).muRestore.muDone
  · exact h.beginPull.setRun
  · exact h.muDone

theorem Invariant.Holds.nextCommand {x : MuCmd × State} (h : I.Holds s) (e : s.nextCommand = some x) : I.Holds x.2 := by
  unfold State.nextCommand at e
  extract_lets _ save at e
  have hsave : ∀ y, save = some y → I.Holds y.2 := by
    intro y e
    unfold save at e
    split at e
    · cases e; exact h.frame (by rfl)
    · cases e
  split at e
  · exact hsave x e
  · split at e
    · exact hsave x e
    · cases e; exact h.frame (by rfl)

theorem Invariant.Holds.restartRots (h : I.Holds s) : I.Holds s.restartRots :=
  h.ite (h.frame (by rfl))

theorem Invariant.Holds.muBegin {c : MuCmd} (h : I.Holds s) : I.Holds (s.muBegin c).1 := by
  unfold State.muBegin
  dsimp only
  split
  · exact ((h.muOpen.freshRows.ite h.muOpen.takeClips).ite h.muOpen).restartRots
  · exact (h.muOpen.freshRows.ite h.muOpen.takeClips).ite h.muOpen

theorem Invariant.Holds.muFill {c : MuCmd} {tok : Word} (h : I.Holds s) : I.Holds (s.muFill c tok) :=
  ((h.endCommand.frame (by rfl)).keepClips.frame (by rfl)).ite ((h.endCommand.frame (by rfl)).keepClips.frame (by rfl)).countCause.fillToken

theorem Invariant.Holds.execMatrixTokenFill (h : I.Holds s) : I.Next (execMatrixTokenFill s) := by
  unfold Machine.execMatrixTokenFill
  split
  · split
    · exact h.muFill.done
    · exact h.done
  · exact h.done

theorem Invariant.Holds.execMrotBufferArrival {isA : Bool} {bytes : List Byte} {tag : RotTag} (h : I.Holds s) :
    I.Next (execMrotBufferArrival isA bytes tag s) := by
  unfold Machine.execMrotBufferArrival
  split
  · exact (h.frame (by rfl)).done
  · dsimp only
    split
    · exact ((h.frame (by rfl)).rotSettle.ite (h.frame (by rfl))).done
    · exact (h.frame (by rfl)).done

theorem Invariant.Holds.execRotlate (h : I.Holds s) : I.Next (execRotlate s) := by
  unfold Machine.execRotlate
  split
  · exact (h.rotFails.ite h).done
  · exact h.done

/-! ### The denoising step sequencer (R304, R372 to R384) -/

theorem Invariant.Holds.setDss {n : Nat} {d : Dss} (h : I.Holds s) : I.Holds (s.setDss n d) :=
  h.frame (by rfl)

theorem Invariant.Holds.freshBody {op : MuOp} {tile rm nud : Nat} {tok : Name} {a : Run} {n : Nat} {check : Ctx → List Word → Res Unit}
    {own : Ctx → State → Res Unit} {c : Ctx} (h : I.Holds s) (hcheck : ∀ k ws, I.Checks (check k ws))
    (hown : ∀ k t, I.Holds t → I.Checks (own k t)) :
    Ends I.Stops I.Holds (freshBody op tile rm nud tok a n check own c s) :=
  (h.muOperands (fun _ => hcheck _ _) (hown _ _ h)).bind fun _ hr => hr.enqueue

theorem Invariant.bindCheck (I : Invariant) {c : Ctx} {ws : List Word} : I.Checks (bindCheck c ws) :=
  I.resvOk.bind fun _ _ => I.form.bind fun _ _ => I.rowAligned.bind fun _ _ => I.aligned

theorem Invariant.slotCheck (I : Invariant) {c : Ctx} {ws : List Word} : I.Checks (slotCheck c ws) :=
  I.resvOk

theorem Invariant.slotAddr (I : Invariant) {k : Kind} {c : Ctx} {ws : List Word} : I.Checks (slotAddr k c ws) :=
  I.slotCheck.bind fun _ _ => I.aligned

theorem Invariant.stepCheck (I : Invariant) {c : Ctx} {ws : List Word} : I.Checks (stepCheck c s ws) :=
  I.resvOk.bind fun _ _ => I.mmaCheck

theorem Invariant.noOwn (I : Invariant) {x : Ctx} : I.Checks (noOwn x s) :=
  trivial

theorem Invariant.cutPriv (I : Invariant) {c : Ctx} : I.Checks (cutPriv c s) :=
  I.need

theorem Invariant.Holds.execDssbind {g : Guard} {x : TokPlain} (h : I.Holds s) : I.Next (execDssbind g x s) :=
  h.run fun _ _ hu => hu.freshBody (fun _ _ => I.bindCheck) (fun _ _ _ => I.noOwn)

theorem Invariant.Holds.execDssstep {g : Guard} {x : TokArgs} (h : I.Holds s) : I.Next (execDssstep g x s) :=
  h.run fun _ _ hu => hu.freshBody (fun _ _ => I.slotCheck) (fun _ _ _ => I.noOwn)

theorem Invariant.Holds.execMmaStep {g : Guard} {x : MmaStepArgs} (h : I.Holds s) : I.Next (execMmaStep g x s) :=
  h.run fun _ _ hu => hu.freshBody (fun _ _ => I.stepCheck) (fun _ _ _ => I.noOwn)

theorem Invariant.Holds.execDsscutImpose {g : Guard} {x : TokArgs} (h : I.Holds s) : I.Next (execDsscutImpose g x s) :=
  h.run fun _ _ hu => hu.freshBody (fun _ _ => I.slotAddr) (fun _ _ _ => I.noOwn)

theorem Invariant.Holds.execDsscutStoreImage {g : Guard} {x : TokArgs} (h : I.Holds s) : I.Next (execDsscutStoreImage g x s) :=
  h.run fun _ _ hu => hu.freshBody (fun _ _ => I.slotAddr) (fun _ _ _ => I.cutPriv)

theorem Invariant.Holds.execDsscutLoadImage {g : Guard} {x : TokArgs} (h : I.Holds s) : I.Next (execDsscutLoadImage g x s) :=
  h.run fun _ _ hu => hu.freshBody (fun _ _ => I.slotCheck) (fun _ _ _ => I.cutPriv)

theorem Invariant.Holds.execDsscutRead {g : Guard} {x : CutRead} (h : I.Holds s) : I.Next (execDsscutRead g x s) :=
  h.run fun _ _ hu => (I.prepareOwn I.noOpt).bind fun _ _ => I.slotCheck.bind fun _ _ => I.awaitMu.bind fun _ _ => hu.takeRun.write

theorem Invariant.Holds.execDsscutUnimpose {g : Guard} {a : Run} (h : I.Holds s) : I.Next (execDsscutUnimpose g a s) :=
  h.run fun _ _ hu => (I.prepareOwn I.noOpt).bind fun _ _ => I.slotCheck.bind fun _ _ => I.awaitMu.bind fun _ _ => hu.takeRun.setDss.ite hu.takeRun

theorem Invariant.Holds.dssBad {c : MuCmd} {x : MuStop} (h : I.Holds s) : I.Holds (s.dssBad c x) := by
  unfold State.dssBad
  split
  · exact h.beginPull.setRun
  · exact h.muDone

theorem Invariant.Holds.runBind {c : MuCmd} (h : I.Holds s) : I.Holds (s.runBind c) :=
  h.muDone.ite h.setDss.muDone

theorem Invariant.Holds.runStep {c : MuCmd} (h : I.Holds s) : I.Holds (s.runStep c) := by
  unfold State.runStep
  dsimp only
  split
  · exact h.muDone
  · split
    · next e₁ => exact (h.muWrite.ok e₁).setDss.muDone
    · exact h.dssBad

theorem Invariant.Holds.runImpose {c : MuCmd} (h : I.Holds s) : I.Holds (s.runImpose c) := by
  unfold State.runImpose
  dsimp only
  split
  · exact h.muDone
  · split
    · next e₁ => exact (h.muRead.ok e₁).setDss.muDone
    · exact h.dssBad

theorem Invariant.Holds.runStore {c : MuCmd} (h : I.Holds s) : I.Holds (s.runStore c) := by
  unfold State.runStore
  split
  · next e => exact (h.muWrite.ok e).muDone
  · exact h.dssBad

theorem Invariant.Holds.runLoad {c : MuCmd} (h : I.Holds s) : I.Holds (s.runLoad c) := by
  unfold State.runLoad
  split
  · next e => exact (h.muRead.ok e).setDss.muDone
  · exact h.dssBad

theorem Invariant.Holds.slateRow {c : MuCmd} {p : KRun} {i k n : Nat} (h : I.Holds s) : Gives (fun x => I.Holds x.2) (s.slateRow c p i k n) := by
  induction n generalizing s k with
  | zero => exact h
  | succ n ih => exact h.block.bind fun _ hr => (Gives.any _).bind fun _ _ => (Gives.any _).bind fun _ _ => (ih hr).bind fun _ hv => hv

theorem Invariant.Holds.slateRows {c : MuCmd} {p : KRun} {kb i n : Nat} (h : I.Holds s) :
    Gives (Gives fun x => I.Holds x.2) (s.slateRows c p kb i n) := by
  induction n generalizing s i with
  | zero => exact h
  | succ n ih =>
    unfold State.slateRows
    extract_lets row
    have hrow : Gives (fun x => I.Holds x.2) row := Ends.ite h.slateRow h
    clear_value row
    split
    · exact trivial
    · exact trivial
    · have this := ih (i := i + 1) (show I.Holds _ from hrow)
      split
      · next e =>
        have hv := Ends.ok this e
        exact hv
      · exact this

theorem Invariant.Holds.slatePairs {c : MuCmd} {rec : Word} {kb : Nat} {slate : List Word} {l : List Nat} (h : I.Holds s) :
    Gives (fun x => I.Holds x.2) (s.slatePairs c rec kb slate l) := by
  induction l generalizing s with
  | nil => exact h
  | cons i is ih => exact h.muRead.bind fun _ hr => (ih hr).bind fun _ hv => hv

theorem Invariant.Holds.stepDecide {c : MuCmd} {d : Dss} {slate : List Word} (h : I.Holds s) :
    Gives (fun x => I.Holds x.2) (s.stepDecide c d slate) := by
  refine h.muRead.bind fun r hr => hr.slatePairs.bind ?_
  rintro ⟨pairs, u⟩ hu
  dsimp -zeta only
  extract_lets expired near skip
  split
  · exact hu
  · split
    · exact hu
    · exact hu.muRead.bind fun _ hw => hw

theorem Invariant.Holds.setCut {c : MuCmd} {b : Bool} (h : I.Holds s) : I.Holds (s.setCut c b) :=
  h.setDss

theorem Invariant.Holds.stepSlate {c : MuCmd} (h : I.Holds s) : I.Holds (s.stepSlate c) := by
  unfold State.stepSlate
  extract_lets d p fault
  clear_value fault
  split
  · exact h.muDone
  · split
    · exact h.beginPull.setRun
    · exact h.muDone
    · next e =>
      have hu := h.slateRows.ok e
      split
      · exact h.dssBad
      · exact h.muDone
      · next e₁ => exact (Invariant.Holds.stepDecide hu |>.ok e₁ |> Invariant.Holds.setTile).setCut.muDone
      · next e₁ => exact (Invariant.Holds.stepDecide hu |>.ok e₁ |> Invariant.Holds.setTile).freshRows.setRun

/-- The kernel is not to evaluate the write of the record, so the function is replaced by its body before it is applied. -/
theorem Invariant.Holds.stepCommit {c : MuCmd} (h : I.Holds s) : I.Holds (s.stepCommit c) := by
  generalize hf : State.stepCommit = f
  delta State.stepCommit at hf
  subst hf
  beta_reduce
  dsimp only
  split
  · next e => exact (h.muWrite.ok e).foldDrops.mmaCensus.setCut.muDone
  · exact h.dssBad

theorem Invariant.Holds.grantStep {c : MuCmd} (h : I.Holds s) : I.Holds (s.grantStep c) := by
  unfold State.grantStep
  dsimp only
  split
  · exact h.stepSlate
  · split
    · split
      · exact h.muDone
      · exact h.stepCommit
    · split
      · exact h.beginPull.setRun
      · next e => exact (h.kStep.ok e).setRun

theorem Invariant.Holds.muGrant {c : MuCmd} (h : I.Holds s) : I.Holds (s.muGrant c) := by
  unfold State.muGrant
  split
  · exact h.grantMma fun _ _ ht => ht.foldDrops.mmaCensus.muDone
  · exact h.grantRot
  · exact h.grantStep
  · exact h.grantRows (fun _ _ ht => ht.bufRow) fun _ ht => ht
  · exact h.grantRows (fun _ _ ht => ht.bufRow) fun _ ht => ht
  · exact h.grantRows (fun _ _ ht => ht.tileRow) fun _ ht => ht
  · exact h.grantRows (fun _ _ ht => ht.tileRow) fun _ ht => ht
  · exact h.grantRows (fun _ _ ht => ht.outRow) fun _ ht => ht.mstCensus
  · exact h.grantSave
  · exact h.grantRestore
  · exact h.runBind
  · exact h.runStep
  · exact h.runImpose
  · exact h.runStore
  · exact h.runLoad

theorem Invariant.Holds.noteGrant {c : MuCmd} (h : I.Holds s) : I.Holds (s.noteGrant c).1 := by
  unfold State.noteGrant
  extract_lets steps
  clear_value steps
  split
  · exact h
  · split
    · exact h.count
    · split
      · exact h.count
      · exact h

theorem Invariant.Holds.grantTo {c : MuCmd} (h : I.Holds s) : I.Holds (s.grantTo c) := by
  have begun : I.Holds (if c.started then (s, c) else s.muBegin c).1 := by
    split
    · exact h
    · exact h.muBegin
  unfold State.grantTo
  exact h.ite (h.muDone.ite (h.setRun.ite begun.noteGrant.muGrant))

theorem Invariant.Holds.grant (h : I.Holds s) : I.Holds s.grant := by
  unfold State.grant
  split
  · exact h.grantTo
  · split
    · next e₁ => exact (h.nextCommand e₁).grantTo
    · exact h

theorem Invariant.Holds.execMatrixGrant (h : I.Holds s) : I.Next (execMatrixGrant s) :=
  h.grant.done

/-! ### Major 0x3D (R47, R52, R329 to R334, R395) -/

theorem Invariant.Holds.execTrap {g : Guard} {v : BitVec 13} (h : I.Holds s) : I.Next (execTrap g v s) :=
  h.runEnd (fun _ _ _ => I.free) (fun _ _ hu => I.noOpt.bind fun _ _ => hu.takeTrap)

theorem Invariant.Holds.execRett {g : Guard} (h : I.Holds s) : I.Next (execRett g s) := by
  unfold Machine.execRett
  refine h.runEnd (fun c u hu => I.supOnly) fun c u hu => ?_
  dsimp only
  split
  · exact I.checkDesc.bind fun _ _ => I.queuesHeld.bind fun _ _ => hu.returnTo
  · exact Ends.bind (A := fun _ => True) trivial fun _ _ => I.queuesHeld.bind fun _ _ => hu.returnTo

theorem Invariant.Holds.userMts {r : Nat} {v : Word} (h : I.Holds s) : I.Holds (s.userMts r v) := by
  unfold State.userMts
  dsimp only
  split <;> exact h.frame (by rfl)

theorem Invariant.Holds.setBaseLimit {b l bad : Nat} (h : I.Holds s) : Ends I.Stops I.Holds (s.setBaseLimit b l bad) := by
  unfold State.setBaseLimit
  split
  · exact h.setWindow
  · exact trivial

theorem Invariant.Holds.supMts {r : Nat} {v : Word} (h : I.Holds s) : I.Holds (s.supMts r v) := by
  unfold State.supMts
  dsimp only
  split
  · exact h.frame (by rfl)
  · exact h.frame (by rfl)
  · exact h.frame (by rfl)
  · exact h.frame (by rfl)
  · exact h.frame (by rfl)
  · exact h.frame (by rfl)
  · exact h.frame (by rfl)
  · exact h.frame (by rfl)
  · exact h.frame (by rfl)
  · exact h.frame (by rfl)
  · exact h.frame (by rfl)
  · exact h.frame (by rfl)
  · exact h.frame (by rfl)
  · exact h.frame (by rfl)
  · exact h.frame (by rfl)
  · exact h.frame (by rfl)
  · exact h.frame (by rfl)
  · exact h.frame (by rfl)
  · exact h.frame (by rfl)
  · exact h.frame (by rfl)
  · exact h.frame (by rfl)
  · exact h.frame (by rfl)
  · exact h.frame (by rfl)
  · exact h.frame (by rfl)
  · exact (h.frame (by rfl)).ite h
  · exact h.frame (by rfl)
  · exact h.frame (by rfl)
  · exact h.frame (by rfl)
  · exact h.frame (by rfl)
  · exact h.frame (by rfl)
  · exact h.frame (by rfl)
  · exact h.frame (by rfl)
  · exact h.frame (by rfl)
  · exact h.frame (by rfl)
  · exact h.frame (by rfl)
  · exact h.frame (by rfl)
  · exact (h.frame (by rfl)).ite ((h.frame (by rfl)).ite ((h.frame (by rfl)).ite h))

theorem Invariant.Holds.mts {r : Nat} {v : Word} (h : I.Holds s) : Ends I.Stops I.Holds (s.mts r v) := by
  unfold State.mts
  split
  · exact h.userMts
  · split
    · exact h.setBaseLimit
    · exact h.setBaseLimit
    · exact h.supMts

theorem Invariant.regPriv (I : Invariant) {b : Bool} {r : Nat} {c : Ctx} : I.Checks (regPriv b r c) :=
  I.need

theorem Invariant.Holds.execMfs {g : Guard} {x : MfsArgs} (h : I.Holds s) : I.Next (execMfs g x s) :=
  h.run fun _ _ hu => (I.prepareOwn (I.form.bind fun _ _ => I.regPriv)).bind fun _ _ => hu.write

theorem Invariant.mtsChecks (I : Invariant) {r : Nat} {c : Ctx} : I.Checks (s.mtsChecks r c) := by
  unfold State.mtsChecks
  refine I.form.bind fun _ _ => ?_
  dsimp only
  split
  · exact Ends.bind (A := fun _ => True) trivial fun _ _ => I.regPriv
  · exact I.noOpt.bind fun _ _ => I.regPriv

theorem Invariant.Holds.execMts {g : Guard} {x : MtsArgs} (h : I.Holds s) : I.Next (execMts g x s) :=
  h.run fun _ _ hu => (I.prepareOwn I.mtsChecks).bind fun _ _ => hu.take.mts

theorem Invariant.Holds.execLsfa {g : Guard} {a : Name} (h : I.Holds s) : I.Next (execLsfa g a s) := by
  unfold Machine.execLsfa
  refine h.run fun c u hu => ?_
  refine (I.prepareOwn I.mtsChecks).bind fun _ _ => ?_
  dsimp only
  split
  · exact hu.take
  · split
    · exact trivial
    · exact hu.take.frame (by rfl)

theorem Invariant.Holds.execPlsync {g : Guard} {a : Name} (h : I.Holds s) : I.Next (execPlsync g a s) := by
  unfold Machine.execPlsync
  refine h.run fun c u hu => ?_
  refine (I.prepareOwn I.mtsChecks).bind fun _ _ => ?_
  dsimp only
  split
  · exact hu.take
  · split
    · exact hu.take.placeSync
    · exact trivial

theorem Invariant.Holds.dropHeld {va ctl : Word} (h : I.Holds s) : I.Holds (s.dropHeld va ctl) :=
  h.frame (by rfl)

theorem Invariant.Holds.tlbiBody {x : TwoSrc} {c : Ctx} (h : I.Holds s) : Ends I.Stops I.Leaves (tlbiBody x c s) :=
  I.prepare.bind fun _ _ => I.form.bind fun _ _ => h.take.take.dropHeld

theorem Invariant.Holds.execTlbiPage {g : Guard} {x : TwoSrc} (h : I.Holds s) : I.Next (execTlbiPage g x s) :=
  h.runEnd (fun _ _ _ => I.supOnly) (fun _ _ hu => hu.tlbiBody)

theorem Invariant.Holds.execTlbiAsid {g : Guard} {x : TwoSrc} (h : I.Holds s) : I.Next (execTlbiAsid g x s) :=
  h.runEnd (fun _ _ _ => I.supOnly) (fun _ _ hu => hu.tlbiBody)

theorem Invariant.Holds.execTlbiPartition {g : Guard} {x : TwoSrc} (h : I.Holds s) : I.Next (execTlbiPartition g x s) :=
  h.runEnd (fun _ _ _ => I.supOnly) (fun _ _ hu => hu.tlbiBody)

theorem Invariant.Holds.execIdle {g : Guard} (h : I.Holds s) : I.Next (execIdle g s) :=
  h.runEnd (fun c u hu => I.supOnly) (fun c u hu => I.prepare.bind fun _ _ => hu.frame (by rfl))

theorem Invariant.Holds.execHalt {g : Guard} (h : I.Holds s) : I.Next (execHalt g s) :=
  h.runEnd (fun _ _ _ => I.supOnly) (fun _ _ hu => I.prepare.bind fun _ _ => hu.haltPartition)

theorem Invariant.Holds.censusCheck {k : Kind} {va : Word} {l : List Nat} (h : I.Holds s) : I.Checks (s.censusCheck k va l) := by
  induction l with
  | nil => exact trivial
  | cons o os ih =>
    unfold State.censusCheck
    split
    · next e => exact h.openAccess.error e
    · exact ih

theorem Invariant.Holds.censusWrite {va : Word} {bs : List Byte} {l : List Nat} (h : I.Holds s) : Ends I.Stops I.Holds (s.censusWrite va bs l) := by
  induction l generalizing s with
  | nil => exact h
  | cons o os ih => exact h.plainAccess.bind fun r hr => ih hr.writePieces

theorem Invariant.Holds.censusRead {va : Word} {l : List Nat} (h : I.Holds s) : Ends I.Stops (fun x => I.Holds x.2) (s.censusRead va l) := by
  induction l generalizing s with
  | nil => exact h
  | cons o os ih =>
    refine h.plainAccess.bind fun r hr => ?_
    dsimp only
    split
    · exact trivial
    · exact (ih hr.readPieces).bind fun _ hv => hv

theorem Invariant.Holds.censusArea {x : CensusArgs} {k : Kind} {c : Ctx} (h : I.Holds s) :
    Ends I.Stops (fun x => I.Holds x.2) (s.censusArea x k c) :=
  (I.prepareOwn I.noOpt).bind fun _ _ => I.aligned.bind fun _ _ => h.take

/-- The list of an area's pieces is generalized: its 2,048 elements are not to be computed. -/
theorem Invariant.Holds.execCensusStore {g : Guard} {x : CensusArgs} (h : I.Holds s) : I.Next (execCensusStore g x s) := by
  unfold Machine.execCensusStore
  generalize censusChunks = l
  exact h.run fun c u hu => hu.censusArea.bind fun _ hr => hr.censusCheck.bind fun _ _ => hr.write.bind fun _ hv => hv.censusWrite

theorem Invariant.Holds.execCensusCompare {g : Guard} {x : CensusArgs} (h : I.Holds s) : I.Next (execCensusCompare g x s) := by
  unfold Machine.execCensusCompare
  generalize censusChunks = l
  refine h.run fun c u hu => hu.censusArea.bind fun _ hr => hr.censusCheck.bind fun _ _ => hr.censusRead.bind fun _ hv => ?_
  dsimp only
  split
  · exact hv.write
  · exact (hv.ite (hv.frame (by rfl))).write

theorem Invariant.Holds.execCensusClear {g : Guard} {x : CensusArgs} (h : I.Holds s) : I.Next (execCensusClear g x s) :=
  h.run fun c u hu => hu.censusArea.bind fun _ hr => (hr.frame (by rfl)).write

theorem Invariant.Holds.suspendSave {c : Ctx} {tk : Task} {v : Word} {n : Nat} (h : I.Holds s) :
    Ends I.Stops (fun x => I.Holds x.2) (s.suspendSave c tk v n) := by
  unfold State.suspendSave
  dsimp only
  split
  · exact h.needPark.bind fun _ _ => Ends.stop ((h.frame (by rfl)).askStop.frame (by rfl))
  · exact trivial
  · split
    · exact h
    · exact Ends.stop (h.frame (by rfl)).noteMmx

theorem Invariant.afterSave (I : Invariant) {α : Type} {id : Option Nat} {x : Res α} (hx : I.Checks x) : I.Checks (afterSave id x) := by
  unfold Machine.afterSave
  split
  · exact trivial
  · exact Ends.stop hx
  · exact hx

theorem Invariant.Holds.execSuspend {g : Guard} {a : Name} (h : I.Holds s) : I.Next (execSuspend g a s) := by
  refine h.runEnd (fun _ _ _ => I.free) fun c u hu => (I.prepareOwn I.mtsChecks).bind fun _ _ => ?_
  have hw := hu.take (n := a)
  generalize u.take a = r at hw ⊢
  obtain ⟨v, w⟩ := r
  dsimp -zeta only
  extract_lets d n
  split
  · exact trivial
  · next t _ =>
    refine I.form.bind fun _ _ => ?_
    extract_lets saves rest
    have saved : ∀ x : Option Nat × State, I.Holds x.2 → Ends I.Stops I.Leaves (saves x) := by
      intro x hx
      refine (I.afterSave I.unboundAll).bind fun _ _ => (I.afterSave hx.needPark).bind fun _ _ => hx.release.bind fun z hz => ?_
      exact Invariant.Holds.parkTask (hz.frame (by rfl))
    have kept : ∀ r, Ends I.Stops I.Leaves (rest r) := by
      intro r
      refine I.form.bind fun _ _ => I.poolRoom.bind fun _ _ => ?_
      split
      · exact Ends.bind (A := fun x : Option Nat × State => I.Holds x.2) (hw.suspendSave.map fun _ hr => hr) saved
      · exact saved (none, w) hw
    split
    · exact trivial
    · exact kept ()

/-! ### Events of the core, its caches and the scheduler (R27, R66, R85, R145, R158 to R166, R338 to R341, R364 to R366) -/

theorem Invariant.Holds.execPageWalk {va : Word} {kind : Nat} (h : I.Holds s) : I.Next (execPageWalk va kind s) := by
  unfold Machine.execPageWalk
  split
  · next e => exact (h.translate.ok e).done
  · exact h.beginPull.done
  · exact h.done

theorem Invariant.Holds.execBindingLand {k : Nat} (h : I.Holds s) : I.Next (execBindingLand k s) := by
  unfold Machine.execBindingLand
  split
  · exact h.land.done
  · exact h.done

theorem Invariant.Holds.execAgeingSweep {k : Nat} (h : I.Holds s) : I.Next (execAgeingSweep k s) := by
  unfold Machine.execAgeingSweep
  split
  · next l e =>
    have swept : I.Holds { s.countBroken l with mem := { (s.countBroken l).mem with lines := s.mem.lines.set k { l with e := true } } } :=
      (h.countBroken (v := l)).ofLines (fun _ => rdcHas_set e rfl rfl) rfl
    exact swept.done.ite h.done
  · exact h.done

theorem Invariant.Holds.execPolicingIntervalEnd (h : I.Holds s) : I.Next (execPolicingIntervalEnd s) :=
  (h.frame (by rfl)).done

theorem Invariant.Holds.takeBudget (h : I.Holds s) : I.Holds s.takeBudget :=
  ((h.unwait.frame (by rfl)).frame (by rfl)).setStat.enterUser.ite (h.unwait.frame (by rfl)).enterTwin

theorem Invariant.Holds.execBudget (h : I.Holds s) : I.Next (execBudget s) :=
  (h.takeBudget.ite h).done

theorem Invariant.Holds.execRinglockIdle (h : I.Holds s) : I.Next (execRinglockIdle s) := by
  unfold Machine.execRinglockIdle
  split
  · exact h.takeTrap.done
  · exact h.done

theorem Invariant.Holds.takeMachine (h : I.Holds s) : I.Holds s.takeMachine := by
  unfold State.takeMachine
  split
  · exact (h.frame (by rfl)).enterTwin
  · exact h

theorem Invariant.Holds.execMachine {d phys : Nat} (h : I.Holds s) : I.Next (execMachine d phys s) :=
  (h.frame (by rfl)).takeMachine.done

theorem Invariant.Holds.execUnassignedEncoding {detail : Nat} {parcel : Parcel} (h : I.Holds s) : I.Next (execUnassignedEncoding detail parcel s) :=
  h.awake.takeTrap.done

theorem Invariant.Holds.execFetchFault {cause : Nat} {info : Word} (h : I.Holds s) : I.Next (execFetchFault cause info s) :=
  h.awake.takeTrap.done

theorem Invariant.Holds.execRegionTableEviction (h : I.Holds s) : I.Next (execRegionTableEviction s) :=
  (h.frame (by rfl)).done.ite (h.boundary.frame (by rfl)).done

theorem Invariant.Holds.landed {p : Flying → Bool} (h : I.Holds s) : I.Holds (s.landed p) :=
  h.frame (by rfl)

theorem Invariant.Holds.execRecordDelivery {x : Delivery} (h : I.Holds s) : I.Next (execRecordDelivery x s) :=
  h.landed.deliver.done

theorem Invariant.Holds.reoffer {a : Arrived} (h : I.Holds s) : I.Holds (s.reoffer a) := by
  unfold State.reoffer
  split
  · exact h.deliver
  · exact (h.frame (by rfl)).ite h.optEnter

theorem Invariant.Holds.execOverflowReoffer (h : I.Holds s) : I.Next (execOverflowReoffer s) := by
  unfold Machine.execOverflowReoffer
  split
  · exact h.enterLate.done
  · exact ((h.frame (by rfl)).foldl fun u y hu => hu.reoffer).done

theorem Invariant.Holds.takeWork {w : Work} (h : I.Holds s) : I.Holds (s.takeWork w) := by
  unfold State.takeWork
  split
  · split
    · exact h.beginPull
    · exact h.dispatchWork
  · exact h.dispatchWork

theorem Invariant.Holds.restoreMu {tk : Task} {area : Word} (h : I.Holds s) : I.Holds (s.restoreMu tk area) := by
  unfold State.restoreMu
  split
  · exact h
  · dsimp only
    split
    · next e => exact (h.engineRead.ok e).muRestore.frame (by rfl)
    · exact h.beginPull
    · exact h.noteMmx.takeTrap

theorem Invariant.Holds.execDispatch (h : I.Holds s) : I.Next (execDispatch s) := by
  unfold Machine.execDispatch
  split
  · split
    · exact h.restoreMu.done
    · split
      · exact h.suspendLow.takeWork.done
      · exact h.done
  · split
    · refine Invariant.Holds.done ?_
      split
      · exact h.resumeLow
      · exact h.ackPreempt
    · dsimp only
      split
      · exact h.markPassed.takeWork.done
      · exact (h.markPassed.ite h.markPassed.stealRound).done

theorem Invariant.Holds.placeRange {off : Nat} {va : Word} {n : Nat} (h : I.Holds s) : Ends I.Stops I.Holds (s.placeRange off va n) := by
  unfold State.placeRange
  refine h.openPieces.bind fun _ hr => ?_
  dsimp only
  split
  · exact trivial
  · refine Ends.bind (A := fun _ => True) trivial fun _ _ => ?_
    refine hr.meetNone.bind fun _ _ => ?_
    refine hr.record.bind fun _ hu => ?_
    split
    · exact trivial
    · exact hu.readPieces.writeHome

theorem Invariant.Holds.setTask {tk : Task} (h : I.Holds s) : I.Holds (s.setTask tk) :=
  h.frame (by rfl)

theorem Invariant.Holds.execFootprintFetch (h : I.Holds s) : I.Next (execFootprintFetch s) := by
  unfold Machine.execFootprintFetch
  split
  · exact h.done
  · split
    · refine Invariant.Holds.done ?_
      split
      · next e₂ => exact (h.placeRange.ok e₂).setTask
      · exact h.takeTrap
      · next e₂ => exact (h.placeRange.error e₂).takeTrap
      · exact h
      · next e₂ => exact h.placeRange.error e₂
    · exact h.enterProc.setTask.done.ite h.done

theorem Invariant.Holds.execYieldHoldExpiry (h : I.Holds s) : I.Next (execYieldHoldExpiry s) :=
  (h.unhold.ite h).done

theorem Invariant.Holds.execStealRoundWait (h : I.Holds s) : I.Next (execStealRoundWait s) :=
  ((h.frame (by rfl)).ite h).done

theorem Invariant.Holds.sendRoots {l : Launch} (h : I.Holds s) : I.Holds (s.sendRoots l) :=
  (h.updLaunch.frame (by rfl)).foldl fun u x hu => hu.sendRecord

theorem Invariant.Holds.readCores {who : Who} {va : Word} {n : Nat} (h : I.Holds s) :
    Gives (fun x => Gives (fun y => I.Holds y.2) x) (s.readCores who va n) := by
  unfold State.readCores
  split
  · exact h
  · refine (Ends.tryEng h.engineRead).bind fun _ hr => ?_
    split
    · exact trivial
    · exact hr

theorem Invariant.Holds.readRoots {w : Nat → Word} (h : I.Holds s) : Gives (fun x => Gives (fun y => I.Holds y.2) x) (s.readRoots w) := by
  unfold State.readRoots
  refine (Ends.tryEng h.engineRead).bind fun _ hr => ?_
  split
  · exact trivial
  · refine hr.readCores.bind fun _ hr' => ?_
    split
    · exact trivial
    · dsimp only
      split
      · exact hr'
      · exact trivial

theorem Invariant.Holds.beginLaunch {q : Nat} (h : I.Holds s) : I.Holds (s.beginLaunch q) :=
  (h.unitAcquire.writePhysMem.setLq.frame (by rfl)).ite (h.unitAcquire.writePhysMem.setLq.frame (by rfl)).launchEnd

theorem Invariant.Holds.readLaunch {l : Launch} {ws : List Word} (h : I.Holds s) : Gives I.Holds (s.readLaunch l ws) := by
  unfold State.readLaunch
  refine h.readRoots.bind fun _ hr => ?_
  split
  · exact h.countCause.launchEnd
  · dsimp only
    split
    · exact trivial
    · exact (hr.unitRelease.foldl fun v _ hv => hv.updateEvent).updLaunch

theorem Invariant.Holds.execLaunchStart {q : Nat} (h : I.Holds s) : I.Next (execLaunchStart q s) := by
  unfold Machine.execLaunchStart
  refine Invariant.Holds.done ?_
  split
  · exact h.launchEnd
  · split
    · exact h.sendRoots
    · split
      · exact h.orPull h.readLaunch
      · split
        · exact h.pullAt
        · exact h.beginLaunch.ite h

theorem Invariant.Holds.execOptimisticArrival {x : Delivery} (h : I.Holds s) : I.Next (execOptimisticArrival x s) :=
  h.landed.optEnter.done

theorem Invariant.Holds.execAntiMessageArrival {k : Key} (h : I.Holds s) : I.Next (execAntiMessageArrival k s) :=
  h.landed.antiEnter.done

theorem Invariant.Holds.execGvtReport (h : I.Holds s) : I.Next (execGvtReport s) :=
  (h.post.frame (by rfl)).done

theorem Invariant.Holds.execGvtInstall {k : Key} (h : I.Holds s) : I.Next (execGvtInstall k s) := by
  unfold Machine.execGvtInstall
  refine Invariant.Holds.done ?_
  split
  · exact h.installKey
  · exact h.again

/-! ### The I/O engine and the collective engine (R131, R324 to R328, R437) -/

theorem Invariant.Holds.dropIo {r : IoReq} (h : I.Holds s) : I.Holds (s.dropIo r) :=
  h.endCommand.frame (by rfl)

theorem Invariant.Holds.ioFinish {r : IoReq} {done info st cause : Nat} (h : I.Holds s) : Gives I.Holds (s.ioFinish r done info st cause) := by
  unfold State.ioFinish
  dsimp only
  split
  · next e =>
      exact Ends.bind (A := I.Holds) (((Ends.bind h.engRelease.engineWrite (fun v hv =>
          (hv.unitRelease.ite hv).engineWrite)).ok e).addMail) fun _ hv => (hv.unitRelease.ite hv).dropIo.countCause
  · exact trivial
  · split
    · exact Ends.bind (A := I.Holds) h.engRelease fun _ hu => (hu.unitRelease.ite hu).dropIo.countCause
    · split
      · next e₁ =>
          have hu := h.engRelease.enginePieces.ok e₁
          exact Ends.bind (A := I.Holds) (hu.unitRelease.ite hu).writePieces.addMail fun _ hv => (hv.unitRelease.ite hv).dropIo.countCause
      · exact Ends.bind (A := I.Holds) h.engRelease fun _ hu => (hu.unitRelease.ite hu).dropIo.countCause

theorem Invariant.Holds.updIo {r : IoReq} (h : I.Holds s) : I.Holds (s.updIo r) :=
  h.frame (by rfl)

theorem Invariant.Holds.ioStart {r : IoReq} (h : I.Holds s) : Gives I.Holds (s.ioStart r) := by
  unfold State.ioStart
  dsimp only
  split
  · split
    · next e₁ => exact (h.engineRead.ok e₁).updIo.post
    · exact trivial
    · exact h.ioFinish
  · exact h.updIo.post.ite h.updIo

theorem Invariant.Holds.ioTake {r : IoReq} (h : I.Holds s) : Gives I.Holds (s.ioTake r) := by
  unfold State.ioTake
  dsimp only
  split
  · exact trivial
  · exact h.fillToken.dropIo
  · next e =>
      split
      · exact h.fillToken.dropIo
      · exact ((h.enginePieces.ok e).unitAcquire.addOther.frame (by rfl)).fillToken.ioStart

theorem Invariant.Holds.execIoAccept (h : I.Holds s) : I.Next (execIoAccept s) := by
  unfold Machine.execIoAccept
  split
  · exact (h.orPull h.ioTake).done
  · exact h.done

theorem Invariant.Holds.spoilFrom {r : IoReq} {n m k : Nat} (h : I.Holds s) : I.Holds (s.spoilFrom r n m k) := by
  induction n generalizing s m k with
  | zero => exact h
  | succ n ih =>
    refine h.ite (ih ?_)
    split
    · next e => exact Invariant.Holds.writePieces (h.enginePieces.ok e)
    · exact h

theorem Invariant.Holds.ioSpoil {r : IoReq} (h : I.Holds s) : I.Holds (s.ioSpoil r) :=
  h.spoilFrom.ite h

theorem Invariant.Holds.ioFill {r : IoReq} {bs : List Byte} {info st : Nat} (h : I.Holds s) : Gives I.Holds (s.ioFill r bs info st) := by
  unfold State.ioFill
  split
  · next e => exact (h.engineWrite.ok e).ioFinish
  · exact trivial
  · exact h.ioSpoil.ioFinish

theorem Invariant.Holds.ioAnswered {r : IoReq} {x : IoAnswer} (h : I.Holds s) : Gives I.Holds (s.ioAnswered r x) :=
  h.ioSpoil.ioFinish.ite (h.ioFill.ite h.ioFinish)

theorem Invariant.Holds.execIoComplete {seq : Nat} {x : IoAnswer} (h : I.Holds s) : I.Next (execIoComplete seq x s) := by
  unfold Machine.execIoComplete
  split
  · exact (h.orAgain h.ioAnswered).done
  · exact h.done

theorem Invariant.Holds.execIoTimeout {seq : Nat} (h : I.Holds s) : I.Next (execIoTimeout seq s) := by
  unfold Machine.execIoTimeout
  split
  · exact (h.orPull h.ioSpoil.ioFinish).done.ite h.done
  · exact h.done

theorem Invariant.Holds.execFrameReceived {q : Nat} {bytes : List Byte} {fcsBad : Bool} (h : I.Holds s) :
    I.Next (execFrameReceived q bytes fcsBad s) := by
  unfold Machine.execFrameReceived
  split
  · exact (h.orAgain h.ioFill).done
  · exact h.done

/-- An engine's access as the collective engine reports it. -/
theorem Ends.collTry {α : Type} {A : α → Prop} {r : Except EngFault α} (h : Gives A r) : Gives A (collTry r) := by
  unfold Machine.collTry
  split
  · exact h
  · exact trivial
  · exact trivial

theorem Invariant.Holds.collRead {who : Who} {w : Nat → Word} {fabric : Nat} (h : I.Holds s) :
    Gives (fun x => I.Holds x.2) (s.collRead who w fabric) := by
  refine (Gives.any _).bind fun _ _ => (Ends.collTry h.engineRead).bind fun r hr => ?_
  refine (Gives.any _).bind fun _ _ => (Gives.any _).bind fun _ _ => (Gives.any _).bind fun _ _ => ?_
  exact (Ends.collTry hr.engineRead).bind fun _ hv => hv

theorem Invariant.Holds.collWrite {who : Who} {w : Nat → Word} {group : List Nat} {own : List Byte} {data : List (Nat × List Byte)}
    (h : I.Holds s) : Gives I.Holds (s.collWrite who w group own data) := by
  unfold State.collWrite
  split
  · exact trivial
  · refine (Ends.collTry h.engineWrite).bind fun r hr => ?_
    dsimp only
    split
    · exact trivial
    · split
      · exact hr.engRelease
      · exact Ends.collTry hr.engRelease.engineCredit

theorem Invariant.Holds.collRecord {who : Who} {va : Word} {data : List (Nat × List Byte)} {fabric : Nat} (h : I.Holds s) :
    Gives (fun x => I.Holds x.2) (s.collRecord who va data fabric) := by
  unfold State.collRecord
  split
  · exact trivial
  · exact h
  · next e =>
    have hu := (Ends.collTry h.engineRead).ok e
    dsimp only
    split
    · exact trivial
    · exact hu
    · next e₁ =>
      have hv := (Invariant.Holds.collRead hu).ok e₁
      split
      · next e₂ => exact (Invariant.Holds.collWrite (Invariant.Holds.post hv)).ok e₂
      · exact Invariant.Holds.post hv
      · exact trivial

theorem Invariant.Holds.collFinish {who : Who} {k : CollKick} {st : Nat} (h : I.Holds s) : Gives I.Holds (s.collFinish who k st) := by
  unfold State.collFinish
  extract_lets u word settled
  have hu : I.Holds u := h.unitRelease.countCause
  have hsettled : ∀ t, I.Holds t → I.Holds (settled t) := by
    intro t ht
    refine Invariant.Holds.unitRelease ?_
    split
    · exact ht.addMail
    · exact ht
  clear_value u settled
  split
  · next e => exact hsettled _ (hu.engineWrite.ok e)
  · exact trivial
  · split
    · exact hu
    · next e =>
      have ht := Ends.ok (E := fun _ => True) (A := fun x : List Piece × State => I.Holds x.2) (Ends.ite hu.enginePieces (.of hu)) e
      exact hsettled _ (Invariant.Holds.writePieces ht)
    · exact hu

theorem Invariant.Holds.serveCollective {k : CollKick} {data : List (Nat × List Byte)} {fabric : Nat} (h : I.Holds s) :
    Gives I.Holds (s.serveCollective k data fabric) := by
  unfold State.serveCollective
  dsimp only
  split
  · exact h
  · exact h.unitAcquire.addOther.collRecord.bind fun _ hr => hr.collFinish.bind fun _ hu => hu.endCommand

theorem Invariant.Holds.execCollectiveRecord {data : List (Nat × List Byte)} {fabric : Nat} (h : I.Holds s) :
    I.Next (execCollectiveRecord data fabric s) := by
  unfold Machine.execCollectiveRecord
  split
  · exact h.done
  · split
    · next e₁ => exact ((h.serveCollective.ok e₁).frame (by rfl)).done
    · exact h.beginPull.again.done

/-! ### The host, other devices, errors, pulled pages, time slices, boot and power (R121 to R136, R405 to R442) -/

theorem Invariant.Holds.forceBoundary (h : I.Holds s) : I.Holds s.forceBoundary :=
  h.boundary.frame (by rfl)

theorem Invariant.Holds.outsideWrite {key : Nat} {x : ExtAccess} (h : I.Holds s) : I.Holds (s.outsideWrite key x) :=
  h.recallRange.writeHome

theorem Invariant.Holds.hostAccess {x : ExtAccess} (h : I.Holds s) : I.Holds (s.hostAccess x) := by
  unfold State.hostAccess
  split
  · exact h.ite h.post
  · split
    · exact h.beginPull.again
    · dsimp only
      split
      · split
        · exact h.forceBoundary.again
        · exact h.forceBoundary.outsideWrite.ite (h.forceBoundary.countLost.ite h.forceBoundary).post
      · exact h.again.ite (h.outsideWrite.ite (h.countLost.ite h).post)
    · exact h.ite h.countLost.post

theorem Invariant.Holds.execHostWrite {x : ExtAccess} (h : I.Holds s) : I.Next (execHostWrite x s) :=
  h.hostAccess.done

theorem Invariant.Holds.execHostRead {x : ExtAccess} (h : I.Holds s) : I.Next (execHostRead x s) :=
  h.hostAccess.done

theorem Invariant.Holds.execHostBoundary {x : ExtAccess} (h : I.Holds s) : I.Next (execHostBoundary x s) :=
  h.hostAccess.done

theorem Invariant.Holds.execHostBar0Access {off size : Nat} {write : Bool} {v : Word} (h : I.Holds s) :
    I.Next (execHostBar0Access off size write v s) := by
  unfold Machine.execHostBar0Access
  split
  · exact (h.ite h.post).post.done
  · exact (h.ite h.post).done.ite ((h.ite h.post).done.ite (h.schedWrite.ite h.post).done)

/-- The same invariant without its part on PREEMPT: a virtual device that does not run has its own. -/
def Invariant.anyPreempt (I : Invariant) : Invariant :=
  { I with preempt := fun _ => True, preemptPut := fun _ _ _ => trivial, noPreempt := trivial }

theorem Invariant.Holds.asVd {v : Nat} (h : I.Holds s) : I.anyPreempt.Holds (s.asVd v) :=
  Invariant.Holds.ite (I := I.anyPreempt) ⟨h.1, trivial, h.2.2⟩ ⟨h.1, trivial, h.2.2⟩

/-- What the units do for a virtual device: of the running one's state only memory comes from it where the device does not run. -/
theorem Invariant.Holds.inVd {v : Nat} {f : State → State} (h : I.Holds s) (hf : ∀ J : Invariant, ∀ t, J.Holds t → J.Holds (f t)) :
    I.Holds (s.inVd v f) := by
  unfold State.inVd
  dsimp only
  split
  · next e =>
    have e₁ : s.asVd v = s := if_pos e
    rw [e₁]
    exact hf I s h
  · exact ⟨(hf _ _ h.asVd).1, h.2⟩

theorem Invariant.Holds.noteRegion {h' : Party} {rd wr sync : Bool} {key len : Nat} (h : I.Holds s) :
    Gives I.Holds (s.noteRegion h' rd wr sync key len) :=
  h.enterLines.map fun u hu => (hu.ite hu.addOther).frame (by rfl)

theorem Invariant.Holds.execFabricAccess {dev : Nat} {x : HartAccess} (h : I.Holds s) : I.Next (execFabricAccess dev x s) := by
  unfold Machine.execFabricAccess
  split
  · exact h.post.done
  · split
    · exact h.again.done
    · split
      · exact h.beginPull.again.done
      · split
        · exact h.post.done
        · split
          · exact h.askRoom.again.done
          · next e₂ => exact (h.noteRegion.ok e₂).outsideWrite.done.ite (h.noteRegion.ok e₂).post.done
      · exact h.post.done

theorem Invariant.Holds.execMeshFlitParity {again mine : Bool} (h : I.Holds s) : I.Next (execMeshFlitParity again mine s) :=
  h.countCorrected.done.ite (h.countLost.execMachine.ite h.done)

theorem Invariant.Holds.loseReads {ids : List Nat} (h : I.Holds s) : I.Holds (s.loseReads ids) :=
  h.frame (by rfl)

theorem Invariant.Holds.loseWrite {va : Word} (h : I.Holds s) : I.Holds (s.loseWrite va) := by
  unfold State.loseWrite
  split
  · next w _ => exact Invariant.Holds.failWrite (h.ofBytes (mputs_wf w.old _ w.key) (by rfl))
  · exact h.failWrite

theorem Invariant.Holds.execLinkCrcFail {f : CrcFail} {reads : List Nat} {write : Option Word} (h : I.Holds s) :
    I.Next (execLinkCrcFail f reads write s) := by
  unfold Machine.execLinkCrcFail
  split
  · exact h.countCorrected.done
  · dsimp only
    split
    · exact (h.frame (by rfl)).loseReads.post.loseWrite.done
    · exact (h.frame (by rfl)).loseReads.post.done

theorem Invariant.Holds.dropSector {u : Nat} (h : I.Holds s) : I.Holds (s.dropSector u) := ⟨I.rdcFilter _ h.1, h.2⟩

theorem Invariant.Holds.fatal (h : I.Holds s) : I.Holds s.fatal :=
  h.haltPartition.postEvent

theorem Invariant.Holds.execWritebackLost {pa : Nat} (h : I.Holds s) : I.Next (execWritebackLost pa s) := by
  unfold Machine.execWritebackLost
  dsimp only
  split
  · exact (h.frame (by rfl)).done
  · exact (h.frame (by rfl)).dropSector.loseUnit.countLost.fatal.done

theorem Invariant.Holds.sectorError {lv : Lv} {key : Nat} (h : I.Holds s) : I.Holds (s.sectorError lv key) := by
  unfold State.sectorError
  dsimp only
  split
  · exact h
  · exact ((h.frame (by rfl)).ite (h.frame (by rfl))).updLine
  · exact h.dropSector.ite (h.updLine.ite h.updLine.uncover)

theorem Invariant.Holds.execSoftError {addr : Nat} {corrected : Bool} {place : ErrAt} (h : I.Holds s) :
    I.Next (execSoftError addr corrected place s) := by
  unfold Machine.execSoftError
  split
  · exact h.countCorrected.done
  · split
    · exact h.loseUnit.done
    · split
      · exact h.done
      · refine Invariant.Holds.done ?_
        split
        · exact h.sectorError
        · exact h.sectorError
        · exact h.sectorError
        · exact h.sectorError
        · exact (h.frame (by rfl)).ite h.loseUnit

theorem Invariant.Holds.execEventPost {kind : Nat} {info more : Word} (h : I.Holds s) : I.Next (execEventPost kind info more s) :=
  h.postEvent.done

theorem Invariant.Holds.execEventRingOverrunWait (h : I.Holds s) : I.Next (execEventRingOverrunWait s) := by
  unfold Machine.execEventRingOverrunWait
  refine Invariant.Holds.done ?_
  split
  · exact (h.frame (by rfl)).inVd (fun z u hu => hu.postEntry)
  · split
    · refine h.inVd fun _ u hu => ?_
      split
      · exact hu.startPull
      · exact hu
    · exact h

theorem Invariant.Holds.setPullCode {page code : Nat} (h : I.Holds s) : I.Holds (s.setPullCode page code) := by
  unfold State.setPullCode
  dsimp only
  split
  · exact h.writeHome
  · exact h

theorem Invariant.Holds.endPull {page : Nat} (h : I.Holds s) : I.Holds (s.endPull page) :=
  h.frame (by rfl)

theorem Invariant.Holds.execPagePull {page : Nat} (h : I.Holds s) : I.Next (execPagePull page s) :=
  (h.beginPull.ite h).done

theorem Invariant.Holds.installPage {key : Nat} {bytes : List (Nat × Byte)} (h : I.Holds s) : I.Holds (s.installPage key bytes) :=
  Invariant.Holds.notify (h.ofBytes (fun hb => foldl_mput_wf _ _ bytes _ (filter_wf _ hb)) (by rfl))

theorem Invariant.Holds.execPageArrival {page : Nat} {bytes : List (Nat × Byte)} (h : I.Holds s) : I.Next (execPageArrival page bytes s) := by
  unfold Machine.execPageArrival
  split
  · exact h.done
  · refine Invariant.Holds.done ?_
    refine h.inVd fun z u hu => ?_
    split
    · exact hu.installPage.setPullCode.endPull
    · exact hu.endPull

theorem Invariant.Holds.execPullFailed {page : Nat} (h : I.Holds s) : I.Next (execPullFailed page s) := by
  unfold Machine.execPullFailed
  split
  · exact h.done
  · exact (h.inVd (fun z u hu => hu.setPullCode.endPull.postEvent)).done

theorem Invariant.Holds.flushAll (h : I.Holds s) : I.Holds s.flushAll := by
  have evicted : I.Holds (s.writeBack.dropHeld 0 2 |> fun t => t.mem.lines.foldl State.evict t) :=
    h.writeBack.dropHeld.foldl fun _ _ ht => ht.evict
  exact ⟨I.empty evicted.1, evicted.2⟩

theorem Invariant.Holds.loadVd {c : VdCtx} (h : I.Holds s) : I.Holds (s.loadVd c) :=
  ⟨I.bytes (fun hb => foldl_mput_wf _ _ c.localStore _ (filter_wf _ hb)) h.1, I.noPreempt, h.2.2⟩

theorem Invariant.Holds.askAll (h : I.Holds s) : I.Holds s.askAll :=
  (h.foldl fun u x hu => hu.writePreempt).frame (by rfl)

theorem Invariant.Holds.switchVd (h : I.Holds s) : I.Holds s.switchVd := by
  unfold State.switchVd
  split
  · exact Invariant.Holds.settle (h.flushAll.loadVd.frame (by rfl))
  · exact ⟨h.1, I.noPreempt, h.2.2⟩

theorem Invariant.Holds.execQuantumEnd (h : I.Holds s) : I.Next (execQuantumEnd s) := by
  unfold Machine.execQuantumEnd
  split
  · exact h.done.ite ((h.frame (by rfl)).done.ite h.askAll.done)
  · exact (h.switchVd.ite h.askStop).done

theorem Invariant.Holds.execSliceLate (h : I.Holds s) : I.Next (execSliceLate s) :=
  h.done.ite (h.frame (by rfl)).fatal.done

theorem Invariant.Holds.execBoot {ok : Bool} {dev : Nat} (h : I.Holds s) : I.Next (execBoot ok dev s) := by
  unfold Machine.execBoot
  dsimp only
  split
  · exact (h.frame (by rfl)).done
  · exact ((h.frame (by rfl)).ite h).done
  · exact (h.frame (by rfl)).done
  · exact (h.frame (by rfl)).done
  · exact (h.frame (by rfl)).done
  · exact h.done

theorem Invariant.Holds.execThermalThrottle (h : I.Holds s) : I.Next (execThermalThrottle s) :=
  (h.frame (by rfl)).done

theorem Invariant.Holds.execThermalHalt (h : I.Holds s) : I.Next (execThermalHalt s) :=
  h.haltPartition.post.done

theorem Invariant.Holds.powerOff (h : I.Holds s) : I.Holds s.powerOff := ⟨I.empty (I.bytes (fun _ => rfl) h.1), h.2⟩

theorem Invariant.Holds.execPowerState {m : Fin 4} (h : I.Holds s) : I.Next (execPowerState m s) :=
  ((h.frame (by rfl)).powerOff.ite (h.frame (by rfl))).done

/-! ### Fetching an instruction (R89, R196, R197, R207) -/

theorem Invariant.Holds.fetchBytes {pc : Word} (h : I.Holds s) : Gives (fun x => I.Holds x.2) (s.fetchBytes pc) := by
  unfold State.fetchBytes
  dsimp only
  split
  · exact trivial
  · next e =>
      split
      · exact trivial
      · split
        · exact trivial
        · exact (h.translateAll.ok e).foldl fun v _ hv => hv.purgeRange.ite hv

theorem Invariant.Holds.issueMiss {x : Miss × Word} {i : Instr} (h : I.Holds s) (e : s.issueMiss x = .run i t) : I.Holds t := by
  unfold State.issueMiss at e
  split at e <;> cases e
  exact h

theorem Invariant.Holds.issueBytes {bs : List Byte} {i : Instr} (h : I.Holds s) (e : s.issueBytes bs = .run i t) : I.Holds t := by
  unfold State.issueBytes at e
  split at e <;> cases e <;> exact h

/-- The state in which an instruction issues: a fetch changes none of what the property speaks of but by its pieces read. -/
theorem Invariant.Holds.issue {i : Instr} (h : I.Holds s) (e : s.issue = .run i t) : I.Holds t := by
  unfold State.issue at e
  split at e
  · exact h.issueMiss e
  · next u hf =>
    have hu : I.Holds u := h.fetchBytes.ok hf
    split at e
    · have hv : I.Holds { u with pc := s.pc + 4 } := hu.frame (by rfl)
      dsimp only at e
      split at e
      · exact hv.issueMiss e
      · next hf' => exact (hv.fetchBytes.ok hf').issueBytes e
    · exact hu.issueBytes e

/-! ### Loads, stores and waits on lines (R41, R242 to R254) -/

theorem Invariant.Holds.loadBytes {ps : List Piece} {nud : Nat} (h : I.Holds s) : I.Holds (s.loadBytes ps nud).2.2 := by
  unfold State.loadBytes
  split
  · split
    · exact h
    · exact h.readPieces
  · exact h.readPieces

theorem Invariant.Holds.storeBytes {ps : List Piece} {bs : List Byte} {nud : Nat} {scope : Option Word} (h : I.Holds s) :
    Ends I.Stops I.Holds (s.storeBytes ps bs nud scope) := by
  unfold State.storeBytes
  split
  · exact h
  · split
    · split
      · next e₁ => exact h.unitWrite e₁
      · exact trivial
    · split
      · exact h.writePieces
      · exact h.foldl fun u _ hu => hu.releaseWrite

theorem Invariant.Holds.loadAccess {w : Who} {va : Word} {n : Nat} {acq : Option Word} (h : I.Holds s) :
    Ends I.Stops (fun x => I.Holds x.2) (s.loadAccess w va n acq) := by
  unfold State.loadAccess
  split
  · exact h.plainAccess
  · exact h.openAccess.bind fun _ hr => hr.dropMail.acquire.record.bind fun _ hu => hu

theorem Invariant.Holds.storeAccess {w : Who} {va : Word} {n : Nat} {rel : Option Word} (h : I.Holds s) :
    Ends I.Stops (fun x => I.Holds x.2) (s.storeAccess w va n rel) := by
  unfold State.storeAccess
  dsimp only
  split
  · refine h.plainAccess.bind fun _ hr => ?_
    split
    · exact I.need.bind fun _ _ => hr.logPieces.bind fun _ hu => hu
    · exact Ends.bind (A := fun _ => True) trivial fun _ _ => hr.logPieces.bind fun _ hu => hu
  · refine h.openAccess.bind fun _ hr => ?_
    split
    · exact I.need.bind fun _ _ => hr.logPieces.bind fun _ hu => hu.release.bind fun _ hv => hv.dropMail.record.bind fun _ ht => ht
    · exact Ends.bind (A := fun _ => True) trivial fun _ _ => hr.logPieces.bind fun _ hu => hu.release.bind fun _ hv => hv.dropMail.record.bind
        fun _ ht => ht

theorem Invariant.syncCheck (I : Invariant) {c : Ctx} {o : Option Scope} : I.Checks (s.syncCheck c o) := by
  unfold State.syncCheck
  split
  · exact I.checkScope
  · exact trivial

theorem Invariant.Holds.takeSync {o : Option Scope} (h : I.Holds s) : I.Holds (s.takeSync o).2 := by
  unfold State.takeSync
  split
  · exact h.takeScope
  · exact h

theorem Invariant.Holds.landLoad {d : Name} {ty : Ty} {bs : List Byte} {lost : Option Nat} {va : Word} (h : I.Holds s) :
    Ends I.Stops I.Holds (s.landLoad d ty bs lost va) := by
  unfold State.landLoad
  split <;> exact h.bindDst

theorem Invariant.Holds.ldBody {ty : Ty} {nud : Fin 16} {d a : Name} {off : Off} {acq : Option Scope} {c : Ctx} (h : I.Holds s) :
    Ends I.Stops I.Holds (ldBody ty nud d a off acq c s) := by
  unfold Machine.ldBody
  refine I.syncCheck.bind fun _ _ => ?_
  refine I.prepare.bind fun _ _ => ?_
  dsimp only
  split
  · exact I.aligned.bind fun _ _ => h.take.takeSync.loadAccess.bind fun _ hr => hr.loadBytes.landLoad
  · exact Ends.bind (A := fun _ => True) trivial fun _ _ => h.take.takeSync.loadAccess.bind fun _ hr => hr.loadBytes.landLoad

theorem Invariant.Holds.execLd {g : Guard} {x : Mem} (h : I.Holds s) : I.Next (execLd g x s) :=
  h.run fun _ _ hu => hu.ldBody

theorem Invariant.Holds.execLdAcq {g : Guard} {x : MemSync} (h : I.Holds s) : I.Next (execLdAcq g x s) :=
  h.run fun _ _ hu => hu.ldBody

theorem Invariant.Holds.stBody {ty : Ty} {nud : Fin 16} {d a : Name} {off : Off} {rel : Option Scope} {c : Ctx} (h : I.Holds s) :
    Ends I.Stops I.Holds (stBody ty nud d a off rel c s) := by
  unfold Machine.stBody
  refine I.syncCheck.bind fun _ _ => ?_
  refine I.prepare.bind fun _ _ => ?_
  dsimp only
  split
  · exact I.aligned.bind fun _ _ => h.take.takeSync.take.storeAccess.bind fun _ hr => hr.storeBytes
  · exact Ends.bind (A := fun _ => True) trivial fun _ _ => h.take.takeSync.take.storeAccess.bind fun _ hr => hr.storeBytes

theorem Invariant.Holds.execSt {g : Guard} {x : Mem} (h : I.Holds s) : I.Next (execSt g x s) :=
  h.run fun _ _ hu => hu.stBody

theorem Invariant.Holds.execStRel {g : Guard} {x : MemSync} (h : I.Holds s) : I.Next (execStRel g x s) :=
  h.run fun _ _ hu => hu.stBody

theorem Invariant.Holds.bindVec {v : Nat} {vals : List (Option Word)} {info : Word} (h : I.Holds s) :
    Ends I.Stops I.Holds (s.bindVec v vals info) :=
  I.unboundAll.bind fun _ _ => I.memOpRoom.bind fun _ _ => h.bind

theorem Invariant.Holds.ldvBody {ty : Ty} {nud : Fin 16} {v : Fin 64} {a : Name} {off : Off} {acq : Option Scope} {c : Ctx} (h : I.Holds s) :
    Ends I.Stops I.Holds (ldvBody ty nud v a off acq c s) := by
  unfold Machine.ldvBody
  dsimp only
  refine I.syncCheck.bind fun _ _ => I.prepare.bind fun _ _ => I.aligned.bind fun _ _ => h.take.takeSync.loadAccess.bind fun _ hr => ?_
  split
  · exact hr.readPieces.bindVec
  · exact hr.readPieces.bindVec

theorem Invariant.Holds.execLdv {g : Guard} {x : VMem} (h : I.Holds s) : I.Next (execLdv g x s) :=
  h.run fun _ _ hu => hu.ldvBody

theorem Invariant.Holds.execLdvAcq {g : Guard} {x : VMemSync} (h : I.Holds s) : I.Next (execLdvAcq g x s) :=
  h.run fun _ _ hu => hu.ldvBody

theorem Invariant.Holds.stvBody {ty : Ty} {nud : Fin 16} {v : Fin 64} {a : Name} {off : Off} {rel : Option Scope} {c : Ctx} (h : I.Holds s) :
    Ends I.Stops I.Holds (stvBody ty nud v a off rel c s) := by
  unfold Machine.stvBody
  dsimp only
  exact I.syncCheck.bind fun _ _ => I.prepare.bind fun _ _ => I.aligned.bind fun _ _ => h.take.takeSync.takeVec.storeAccess.bind fun _ hr =>
      hr.storeBytes

theorem Invariant.Holds.execStv {g : Guard} {x : VMem} (h : I.Holds s) : I.Next (execStv g x s) :=
  h.run fun _ _ hu => hu.stvBody

theorem Invariant.Holds.execStvRel {g : Guard} {x : VMemSync} (h : I.Holds s) : I.Next (execStvRel g x s) :=
  h.run fun _ _ hu => hu.stvBody

theorem Invariant.Holds.openLanes {k : Kind} {n : Nat} {l : List (Nat × Word)} (h : I.Holds s) :
    Ends I.Stops (fun x => I.Holds x.2) (s.openLanes k n l) := by
  induction l generalizing s with
  | nil => exact h
  | cons x l ih => exact I.aligned.bind fun _ _ => h.openPieces.bind fun _ hr => (ih hr).bind fun _ hu => hu

theorem Invariant.Holds.meetLanes {k : Kind} {sync : Bool} {l : List (Nat × Word × List Piece)} (h : I.Holds s) :
    I.Checks (s.meetLanes k sync l) := by
  induction l with
  | nil => exact trivial
  | cons x l ih => exact h.meetNone.bind fun _ _ => ih

theorem Invariant.Holds.lanesMeet {k : Kind} {l : List (Nat × Word × List Piece)} (h : I.Holds s) : Ends I.Stops I.Holds (s.lanesMeet k l) := by
  unfold State.lanesMeet
  dsimp only
  split
  · exact h.dropMail.acquire.meetLanes.bind fun _ _ => h.dropMail.acquire.record
  · exact h.meetLanes.bind fun _ _ => (h.dropMail.ite h).recordEach

theorem Invariant.Holds.readLanes {n nud : Nat} {l : List (Nat × Word × List Piece)} (h : I.Holds s) : I.Holds (s.readLanes n nud l).2.2.2 := by
  induction l generalizing s with
  | nil => exact h
  | cons x l ih =>
    unfold State.readLanes
    dsimp only
    split
    · exact ih h.readPieces
    · exact ih h.readPieces

theorem Invariant.Holds.loadLanes {ty : Ty} {nud v : Nat} {lanes : List (Nat × Word)} (h : I.Holds s) :
    Ends I.Stops I.Holds (s.loadLanes ty nud v lanes) := by
  unfold State.loadLanes
  refine h.openLanes.bind fun _ hr => ?_
  refine hr.lanesMeet.bind fun _ hu => ?_
  dsimp only
  split <;> exact hu.readLanes.bindVec

theorem Invariant.Holds.storeLanes {ty : Ty} {nud : Nat} {ws : List Word} {lanes : List (Nat × Word)} (h : I.Holds s) :
    Ends I.Stops I.Holds (s.storeLanes ty nud ws lanes) :=
  h.openLanes.bind fun _ hr => hr.lanesMeet.bind fun _ hu => hu.logPieces.bind fun _ hv => hv.foldl fun _ _ hw => hw.writePieces

theorem Invariant.Holds.takeMask {o : Option Src} (h : I.Holds s) : I.Holds (s.takeMask o).2 := by
  unfold State.takeMask
  split
  · exact h.take
  · exact h

theorem Invariant.Holds.execLdvs {g : Guard} {x : VStride} (h : I.Holds s) : I.Next (execLdvs g x s) :=
  h.run fun _ _ hu => I.prepare.bind fun _ _ => hu.take.take.takeMask.loadLanes

theorem Invariant.Holds.execStvs {g : Guard} {x : VStride} (h : I.Holds s) : I.Next (execStvs g x s) := by
  refine h.run fun c u hu => ?_
  dsimp only
  exact I.prepare.bind fun _ _ => hu.take.take.takeMask.takeVec.storeLanes

theorem Invariant.Holds.execLdvx {g : Guard} {x : VIndex} (h : I.Holds s) : I.Next (execLdvx g x s) := by
  refine h.run fun c u hu => ?_
  dsimp only
  exact I.prepare.bind fun _ _ => hu.take.takeVec.takeMask.loadLanes

theorem Invariant.Holds.execStvx {g : Guard} {x : VIndex} (h : I.Holds s) : I.Next (execStvx g x s) := by
  refine h.run fun c u hu => ?_
  dsimp only
  exact I.prepare.bind fun _ _ => hu.take.takeVec.takeMask.takeVec.storeLanes

theorem Invariant.Holds.execLdp {g : Guard} {x : LdpArgs} (h : I.Holds s) : I.Next (execLdp g x s) := by
  refine h.run fun c u hu => I.prepare.bind fun _ _ => ?_
  have hv := hu.takeOpt (d := 0) (o := x.c)
  generalize u.takeOpt 0 x.c = r at hv ⊢
  refine I.need.bind fun _ _ => I.need.bind fun _ _ => ?_
  extract_lets inside rest
  have kept : ∀ y, I.Holds y.2.2 → Ends I.Stops I.Holds (rest y) := fun y hy => (hy.setStat.ite hy).landLoad
  split
  · exact kept ([], none, r.2) hv
  · exact hv.plainAccess.bind fun _ hr => kept _ hr.loadBytes

theorem Invariant.Holds.prefetch {va : Word} {touch : State → Loc → State} (h : I.Holds s)
    (htouch : ∀ t l, I.Holds t → I.Holds (touch t l)) :
    I.Holds (s.prefetch va touch) := by
  unfold State.prefetch
  split
  · exact h.beginPull
  · exact h
  · next e => exact (htouch _ _ (h.translate.ok e)).ite (h.translate.ok e)

theorem Invariant.Holds.prefBody {x : PrefArgs} {touch : State → Loc → State} {c : Ctx} (h : I.Holds s)
    (htouch : ∀ t l, I.Holds t → I.Holds (touch t l)) :
    Ends I.Stops I.Holds (prefBody x touch c s) :=
  I.prepare.bind fun _ _ => h.take.prefetch (fun _ _ hu => htouch _ _ hu)

theorem Invariant.Holds.fetchWhole {l : Loc} (h : I.Holds s) : I.Holds (s.fetchWhole l) :=
  (h.fetchRdc (by omega)).ite h

theorem Invariant.Holds.prefetchAt {l : Loc} {lv : Lv} {nud : Nat} (h : I.Holds s) : I.Holds (s.prefetchAt l lv nud) :=
  h.touch

theorem Invariant.Holds.execPref {g : Guard} {x : PrefArgs} (h : I.Holds s) : I.Next (execPref g x s) :=
  h.run fun _ _ hu => hu.prefBody (fun _ _ hv => hv.touchCore.fetchWhole)

theorem Invariant.Holds.execPrefL2 {g : Guard} {x : PrefArgs} (h : I.Holds s) : I.Next (execPrefL2 g x s) :=
  h.run fun _ _ hu => hu.prefBody (fun _ _ hv => hv.prefetchAt.fetchWhole)

theorem Invariant.Holds.execPrefMsc {g : Guard} {x : PrefArgs} (h : I.Holds s) : I.Next (execPrefMsc g x s) :=
  h.run fun _ _ hu => hu.prefBody (fun _ _ hv => hv.prefetchAt)

theorem Invariant.Holds.flushLine {va : Word} {mem : Bool} (h : I.Holds s) : Ends I.Stops I.Holds (s.flushLine va mem) := by
  unfold State.flushLine
  split
  · exact trivial
  · split
    · exact Ends.stop h.missStop
    · next e =>
        split
        · exact h.translate.ok e
        · exact (h.translate.ok e).purge.updLine.updLine.ite (h.translate.ok e).purge

theorem Invariant.Holds.flushBody {x : FlushArgs} {mem : Bool} {c : Ctx} (h : I.Holds s) : Ends I.Stops I.Holds (flushBody x mem c s) :=
  I.prepare.bind fun _ _ => h.take.flushLine

theorem Invariant.Holds.execFlush {g : Guard} {x : FlushArgs} (h : I.Holds s) : I.Next (execFlush g x s) :=
  h.run fun _ _ hu => hu.flushBody

theorem Invariant.Holds.execFlushMem {g : Guard} {x : FlushArgs} (h : I.Holds s) : I.Next (execFlushMem g x s) :=
  h.run fun _ _ hu => hu.flushBody

theorem Invariant.Holds.cleanLine {line : Nat} (h : I.Holds s) : I.Holds (s.cleanLine line) :=
  h.sendHome.markClean

theorem Invariant.Holds.waitLine {α : Type} {A : α → Prop} {key : Nat} (h : I.Holds s) : Ends I.Stops A (s.waitLine key) :=
  Ends.stop (h.frame (by rfl))

theorem Invariant.Holds.probe {l : Loc} {n : Nat} (h : I.Holds s) : I.Holds (s.probe l n).2.2 := by
  unfold State.probe
  split
  · exact h.cleanLine
  · exact h
  · exact h.readPiece

theorem Invariant.Holds.execWaitln {g : Guard} {x : WaitArgs} (h : I.Holds s) : I.Next (execWaitln g x s) := by
  refine h.run fun c u hu => I.prepare.bind fun _ _ => ?_
  dsimp only
  refine Ends.ite trivial (I.aligned.bind fun _ _ => ?_)
  split
  · exact Ends.stop hu.take.take.missStop
  · next e =>
    have hv := hu.take.take.translate.ok e
    split
    · exact trivial
    · split
      · exact trivial
      · next l _ _ _ bs u' ep =>
        have hw : I.Holds (bs, (none : Option Nat), u').2.2 := ep ▸ hv.probe
        exact Ends.ite hw hw.waitLine

theorem Invariant.Holds.execBarwait {g : Guard} {x : BarDA} (h : I.Holds s) : I.Next (execBarwait g x s) := by
  refine h.run fun c u hu => ?_
  refine I.checkScope.bind fun _ _ => I.prepare.bind fun _ _ => ?_
  dsimp only
  refine hu.take.takeScope.take.openBar.bind fun _ hr => ?_
  split
  · exact trivial
  · split
    · exact trivial
    · split
      · exact hr.waitLine
      · exact hr.atomicDo.dropMail.acquire.record

theorem Invariant.Holds.parkLine {tk : Task} {key : Nat} {inRing : Bool} (h : I.Holds s) : I.Holds (s.parkLine tk key inRing) :=
  h.closeRegion.parkTask

theorem Invariant.Holds.execWaitlnSpinTimeout (h : I.Holds s) : I.Next (execWaitlnSpinTimeout s) := by
  unfold Machine.execWaitlnSpinTimeout
  split
  · split
    · exact h.parkLine.done
    · exact (h.frame (by rfl)).done
  · exact h.done

theorem Invariant.Holds.execWaitlnLineWritten {k : Nat} (h : I.Holds s) : I.Next (execWaitlnLineWritten k s) := by
  unfold Machine.execWaitlnLineWritten
  split
  · exact (h.releaseParked.ite h).done
  · exact h.done

theorem Invariant.Holds.execWaitlnParkTimeout {k : Nat} (h : I.Holds s) : I.Next (execWaitlnParkTimeout k s) := by
  unfold Machine.execWaitlnParkTimeout
  split
  · exact (h.releaseParked.ite h).done
  · exact h.done

theorem Invariant.Holds.execSleep {g : Guard} {a : Name} (h : I.Holds s) : I.Next (execSleep g a s) := by
  unfold Machine.execSleep
  refine h.run fun c u hu => ?_
  refine I.prepare.bind fun _ _ => ?_
  dsimp only
  split
  · exact hu.take
  · exact trivial

theorem Invariant.Holds.execSleepProm {g : Guard} {a : Name} (h : I.Holds s) : I.Next (execSleepProm g a s) := by
  unfold Machine.execSleepProm
  refine h.run fun c u hu => ?_
  refine I.checkField.bind fun _ _ => ?_
  refine I.noOpt.bind fun _ _ => ?_
  refine hu.readPhys.bind fun _ hr => ?_
  dsimp only
  split
  · split <;> exact trivial
  · exact hr.readPhys.bind fun _ hr' => hr'

theorem Invariant.Holds.wake {due : WaitOn → Bool} (h : I.Holds s) : I.Holds (s.wake due) := by
  unfold State.wake
  split
  · exact (h.frame (by rfl)).ite h
  · exact h

theorem Invariant.Holds.execSleepWake (h : I.Holds s) : I.Next (execSleepWake s) :=
  h.wake.done

theorem Invariant.Holds.execPromise (h : I.Holds s) : I.Next (execPromise s) := by
  unfold Machine.execPromise
  split
  · exact h.takeTrap.done
  · exact h.done

/-! ### What happens next (log entry 3) -/

theorem Invariant.Next.keepInput {i : Instr} {x : Out} (h : I.Next x) : I.Next (keepInput i x) := by
  cases x with
  | next t => exact (Invariant.Holds.ite ((h t rfl).frame (by rfl)) (h t rfl)).next
  | _ => exact h

/-! ### Vector instructions (R267 to R285) -/

theorem Invariant.Holds.takeIn {ty : Ty} {x : VIn} (h : I.Holds s) : I.Holds (s.takeIn ty x).2 := by
  unfold State.takeIn
  split
  · dsimp only
    exact h.takeVec
  · exact h.take

theorem Invariant.Holds.takeIns {ty : Ty} {l : List VIn} (h : I.Holds s) : I.Holds (s.takeIns ty l).2 := by
  induction l generalizing s with
  | nil => exact h
  | cons x l ih => exact ih h.takeIn

theorem Invariant.Holds.putEls {ty : Ty} {d : VDst} {els : List Nat} (h : I.Holds s) : Ends I.Stops I.Holds (s.putEls ty d els) := by
  unfold State.putEls
  split
  · exact h.writeVec
  · exact h.write

theorem Invariant.Holds.laneBody {ty : Ty} {rm : Nat} {ins : List VIn} {d : VDst} {f : Rnd → Nat → List Nat → Nat × FpFlags} {c : Ctx}
    (h : I.Holds s) :
    Ends I.Stops I.Holds (laneBody ty rm ins d f c s) :=
  I.prepare.bind fun _ _ => h.takeIns.raise.bind fun _ hu => hu.putEls

theorem Invariant.Holds.lane1 {x : Vec1} {f : Rnd → Nat → Nat → Nat × FpFlags} {c : Ctx} (h : I.Holds s) :
    Ends I.Stops I.Holds (lane1 x f c s) :=
  h.laneBody

theorem Invariant.Holds.lane2 {x : Vec2} {f : Rnd → Nat → Nat → Nat → Nat × FpFlags} {c : Ctx} (h : I.Holds s) :
    Ends I.Stops I.Holds (lane2 x f c s) :=
  h.laneBody

theorem Invariant.Holds.lane3 {x : Vec3} {f : Rnd → Nat → Nat → Nat → Nat → Nat × FpFlags} {c : Ctx} (h : I.Holds s) :
    Ends I.Stops I.Holds (lane3 x f c s) :=
  h.laneBody

theorem Invariant.Holds.execVadd {g : Guard} {x : Vec2} (h : I.Holds s) : I.Next (execVadd g x s) :=
  h.run fun _ _ hu => hu.lane2

theorem Invariant.Holds.execVsub {g : Guard} {x : Vec2} (h : I.Holds s) : I.Next (execVsub g x s) :=
  h.run fun _ _ hu => hu.lane2

theorem Invariant.Holds.execVmul {g : Guard} {x : Vec2} (h : I.Holds s) : I.Next (execVmul g x s) :=
  h.run fun _ _ hu => hu.lane2

theorem Invariant.Holds.execVfma {g : Guard} {x : Vec3} (h : I.Holds s) : I.Next (execVfma g x s) :=
  h.run fun _ _ hu => hu.lane3

theorem Invariant.Holds.execVfms {g : Guard} {x : Vec3} (h : I.Holds s) : I.Next (execVfms g x s) :=
  h.run fun _ _ hu => hu.lane3

theorem Invariant.Holds.execVdiv {g : Guard} {x : Vec2} (h : I.Holds s) : I.Next (execVdiv g x s) :=
  h.run fun _ _ hu => hu.lane2

theorem Invariant.Holds.execVmin {g : Guard} {x : Vec2} (h : I.Holds s) : I.Next (execVmin g x s) :=
  h.run fun _ _ hu => hu.lane2

theorem Invariant.Holds.execVmax {g : Guard} {x : Vec2} (h : I.Holds s) : I.Next (execVmax g x s) :=
  h.run fun _ _ hu => hu.lane2

theorem Invariant.Holds.execVabs {g : Guard} {x : Vec1} (h : I.Holds s) : I.Next (execVabs g x s) :=
  h.run fun _ _ hu => hu.lane1

theorem Invariant.Holds.execVneg {g : Guard} {x : Vec1} (h : I.Holds s) : I.Next (execVneg g x s) :=
  h.run fun _ _ hu => hu.lane1

theorem Invariant.Holds.execVsqrt {g : Guard} {x : Vec1} (h : I.Holds s) : I.Next (execVsqrt g x s) :=
  h.run fun _ _ hu => hu.lane1

theorem Invariant.Holds.execVrsq {g : Guard} {x : Vec1} (h : I.Holds s) : I.Next (execVrsq g x s) :=
  h.run fun _ _ hu => hu.lane1

theorem Invariant.Holds.execVexp2 {g : Guard} {x : Vec1} (h : I.Holds s) : I.Next (execVexp2 g x s) :=
  h.run fun _ _ hu => hu.lane1

theorem Invariant.Holds.execVlog2 {g : Guard} {x : Vec1} (h : I.Holds s) : I.Next (execVlog2 g x s) :=
  h.run fun _ _ hu => hu.lane1

theorem Invariant.Holds.execVladd {g : Guard} {x : Vec2} (h : I.Holds s) : I.Next (execVladd g x s) :=
  h.run fun _ _ hu => hu.lane2

theorem Invariant.Holds.vcmpBody {cc : Cc} {x : VCmpArgs} {c : Ctx} (h : I.Holds s) : Ends I.Stops I.Holds (vcmpBody cc x c s) :=
  I.prepare.bind fun _ _ => h.takeIns.raise.bind fun _ hu => hu.write

theorem Invariant.Holds.execVcmpEq {g : Guard} {x : VCmpArgs} (h : I.Holds s) : I.Next (execVcmpEq g x s) :=
  h.run fun _ _ hu => hu.vcmpBody

theorem Invariant.Holds.execVcmpNe {g : Guard} {x : VCmpArgs} (h : I.Holds s) : I.Next (execVcmpNe g x s) :=
  h.run fun _ _ hu => hu.vcmpBody

theorem Invariant.Holds.execVcmpLt {g : Guard} {x : VCmpArgs} (h : I.Holds s) : I.Next (execVcmpLt g x s) :=
  h.run fun _ _ hu => hu.vcmpBody

theorem Invariant.Holds.execVcmpLe {g : Guard} {x : VCmpArgs} (h : I.Holds s) : I.Next (execVcmpLe g x s) :=
  h.run fun _ _ hu => hu.vcmpBody

theorem Invariant.Holds.execVcmpGt {g : Guard} {x : VCmpArgs} (h : I.Holds s) : I.Next (execVcmpGt g x s) :=
  h.run fun _ _ hu => hu.vcmpBody

theorem Invariant.Holds.execVcmpGe {g : Guard} {x : VCmpArgs} (h : I.Holds s) : I.Next (execVcmpGe g x s) :=
  h.run fun _ _ hu => hu.vcmpBody

theorem Invariant.Holds.execVcmpUn {g : Guard} {x : VCmpArgs} (h : I.Holds s) : I.Next (execVcmpUn g x s) :=
  h.run fun _ _ hu => hu.vcmpBody

theorem Invariant.Holds.execVsel {g : Guard} {x : VSelArgs} (h : I.Holds s) : I.Next (execVsel g x s) :=
  h.run fun _ _ hu => I.prepare.bind fun _ _ => hu.takeIns.take.putEls

theorem Invariant.Holds.execVmask {g : Guard} {x : VMaskArgs} (h : I.Holds s) : I.Next (execVmask g x s) :=
  h.run fun _ _ hu => I.prepare.bind fun _ _ => hu.takeIn.write

theorem Invariant.Holds.execVpopc {g : Guard} {x : Vec1} (h : I.Holds s) : I.Next (execVpopc g x s) :=
  h.run fun _ _ hu => hu.lane1

theorem Invariant.Holds.execVand {g : Guard} {x : Vec2} (h : I.Holds s) : I.Next (execVand g x s) :=
  h.run fun _ _ hu => hu.lane2

theorem Invariant.Holds.execVor {g : Guard} {x : Vec2} (h : I.Holds s) : I.Next (execVor g x s) :=
  h.run fun _ _ hu => hu.lane2

theorem Invariant.Holds.execVxor {g : Guard} {x : Vec2} (h : I.Holds s) : I.Next (execVxor g x s) :=
  h.run fun _ _ hu => hu.lane2

theorem Invariant.Holds.execVshl {g : Guard} {x : Vec2} (h : I.Holds s) : I.Next (execVshl g x s) :=
  h.run fun _ _ hu => hu.lane2

theorem Invariant.Holds.execVshr {g : Guard} {x : Vec2} (h : I.Holds s) : I.Next (execVshr g x s) :=
  h.run fun _ _ hu => hu.lane2

theorem Invariant.Holds.execVsra {g : Guard} {x : Vec2} (h : I.Holds s) : I.Next (execVsra g x s) :=
  h.run fun _ _ hu => hu.lane2

theorem Invariant.Holds.cvtVector {form : CvtForm} {ty src : Ty} {rm : Nat} {d : Fin 64} {a : VSrc} {hi : Bool} {c : Ctx} (h : I.Holds s) :
    Ends I.Stops I.Holds (cvtVector form ty src rm d a hi c s) := by
  unfold Machine.cvtVector
  dsimp only
  exact I.prepare.bind fun _ _ => (h.takeVec.readIf h.takeVec.takeVec).raise.bind fun _ hu => hu.writeVec

theorem Invariant.Holds.cvtBody {form : CvtForm} {x : VCvtArgs} {c : Ctx} (h : I.Holds s) : Ends I.Stops I.Holds (cvtBody form x c s) := by
  unfold Machine.cvtBody
  split
  · exact h.cvtVector
  · exact I.prepare.bind fun _ _ => h.take.raise.bind fun _ hu => hu.write

theorem Invariant.Holds.execVcvt {g : Guard} {x : VCvtArgs} (h : I.Holds s) : I.Next (execVcvt g x s) :=
  h.run fun _ _ hu => hu.cvtBody

theorem Invariant.Holds.execVcvtSat {g : Guard} {x : VCvtArgs} (h : I.Holds s) : I.Next (execVcvtSat g x s) :=
  h.run fun _ _ hu => hu.cvtBody

theorem Invariant.Holds.execVcvtOvf {g : Guard} {x : VCvtArgs} (h : I.Holds s) : I.Next (execVcvtOvf g x s) :=
  h.run fun _ _ hu => hu.cvtBody

theorem Invariant.Holds.execVpack {g : Guard} {x : VPackArgs} (h : I.Holds s) : I.Next (execVpack g x s) := by
  refine h.run fun c u hu => I.prepare.bind fun _ _ => ?_
  have hv := hu.takeVec (v := x.a.v.val)
  generalize u.takeVec x.a.v.val = r at hv ⊢
  dsimp only
  have hw := hv.takeVec (v := x.d.val)
  generalize r.2.takeVec x.d.val = r' at hw ⊢
  exact hw.writeVec

theorem Invariant.Holds.execVunpack {g : Guard} {x : VPackArgs} (h : I.Holds s) : I.Next (execVunpack g x s) := by
  refine h.run fun c u hu => I.prepare.bind fun _ _ => ?_
  have hv := hu.takeVec (v := x.a.v.val)
  generalize u.takeVec _ = r at hv ⊢
  exact hv.putEls

theorem Invariant.Holds.redBody {x : VRedArgs} {f : Rnd → List Nat → Nat × FpFlags} {c : Ctx} (h : I.Holds s) :
    Ends I.Stops I.Holds (redBody x f c s) := by
  unfold Machine.redBody
  dsimp only
  exact I.prepare.bind fun _ _ => h.takeVec.raise.bind fun _ hu => hu.write

theorem Invariant.Holds.execVredadd {g : Guard} {x : VRedArgs} (h : I.Holds s) : I.Next (execVredadd g x s) :=
  h.run fun _ _ hu => hu.redBody

theorem Invariant.Holds.execVredmax {g : Guard} {x : VRedArgs} (h : I.Holds s) : I.Next (execVredmax g x s) :=
  h.run fun _ _ hu => hu.redBody

theorem Invariant.Holds.execVredmin {g : Guard} {x : VRedArgs} (h : I.Holds s) : I.Next (execVredmin g x s) :=
  h.run fun _ _ hu => hu.redBody

theorem Invariant.Holds.execVscan {g : Guard} {x : VScanArgs} (h : I.Holds s) : I.Next (execVscan g x s) := by
  unfold Machine.execVscan
  dsimp only
  exact h.run fun c u hu => I.prepare.bind fun _ _ => hu.takeVec.take.raise.bind fun _ hv => hv.putEls

theorem Invariant.Holds.execVperm {g : Guard} {x : VPermArgs} (h : I.Holds s) : I.Next (execVperm g x s) := by
  refine h.run fun c u hu => I.prepare.bind fun _ _ => ?_
  have hv := hu.takeVec (v := x.a.v.val)
  generalize u.takeVec x.a.v.val = r at hv ⊢
  dsimp only
  have hw := hv.takeVec (v := x.b.v.val)
  generalize r.2.takeVec x.b.v.val = r' at hw ⊢
  exact hw.putEls

theorem Invariant.Holds.execVbcast {g : Guard} {x : VBcastArgs} (h : I.Holds s) : I.Next (execVbcast g x s) :=
  h.run fun _ _ hu => I.prepare.bind fun _ _ => hu.take.putEls

theorem Invariant.Holds.execVshuf {g : Guard} {x : VShufArgs} (h : I.Holds s) : I.Next (execVshuf g x s) := by
  refine h.run fun c u hu => ?_
  dsimp only
  exact I.prepare.bind fun _ _ => hu.takeVec.takeVec.take.putEls

theorem Invariant.Holds.execVmov {g : Guard} {x : Vec1} (h : I.Holds s) : I.Next (execVmov g x s) := by
  refine h.run fun c u hu => ?_
  dsimp only
  split
  · next d a _ =>
    refine I.prepare.bind fun _ _ => ?_
    have hv := hu.takeVec (v := a.v.val)
    generalize u.takeVec a.v.val = r at hv ⊢
    exact hv.writeVec
  · exact I.prepare.bind fun _ _ => hu.take.write

theorem Invariant.Holds.execVlds {g : Guard} {x : VLdsArgs} (h : I.Holds s) : I.Next (execVlds g x s) := by
  refine h.run fun c u hu => ?_
  dsimp only
  exact I.prepare.bind fun _ _ => hu.takeVec.take.write

theorem Invariant.Holds.execVins {g : Guard} {x : VInsArgs} (h : I.Holds s) : I.Next (execVins g x s) := by
  refine h.run fun c u hu => I.prepare.bind fun _ _ => ?_
  dsimp only
  have hv := hu.take (n := x.a.name) |>.take (n := x.b.name) |>.takeVec (v := x.d.val)
  generalize State.takeVec _ _ = r at hv ⊢
  exact hv.writeVec

/-! ### Every instruction and event -/

theorem Invariant.Holds.exec {i : Instr} (h : I.Holds s) : I.Next (exec i s) := by
  unfold Machine.exec
  split
  · exact h.execAdd
  · exact h.execSub
  · exact h.execMul
  · exact h.execMulh
  · exact h.execDiv
  · exact h.execRem
  · exact h.execMin
  · exact h.execMax
  · exact h.execAbs
  · exact h.execAnd
  · exact h.execOr
  · exact h.execXor
  · exact h.execAndn
  · exact h.execShl
  · exact h.execShr
  · exact h.execSra
  · exact h.execRot
  · exact h.execClz
  · exact h.execCtz
  · exact h.execPopc
  · exact h.execBrev
  · exact h.execBswap
  · exact h.execExt
  · exact h.execIns
  · exact h.execSel
  · exact h.execMov
  · exact h.execLea
  · exact h.execCmpEq
  · exact h.execCmpNe
  · exact h.execCmpLt
  · exact h.execCmpLe
  · exact h.execCmpGt
  · exact h.execCmpGe
  · exact h.execCmpUn
  · exact h.execPand
  · exact h.execPor
  · exact h.execPxor
  · exact h.execPnot
  · exact h.execPmov
  · exact h.execBr
  · exact h.execJmp
  · exact h.execCall
  · exact h.execRet
  · exact h.execLoop
  · exact h.execNop
  · exact h.execBrk
  · exact h.execSetwin
  · exact h.execRdwin
  · exact h.execSwctx
  · exact h.execWld
  · exact h.execWst
  · exact h.execWpush
  · exact h.execWscrub
  · exact h.execWdrain
  · exact h.execSetutw
  · exact h.execWret
  · exact h.execLd
  · exact h.execLdAcq
  · exact h.execSt
  · exact h.execStRel
  · exact h.execLdv
  · exact h.execLdvAcq
  · exact h.execStv
  · exact h.execStvRel
  · exact h.execLdvs
  · exact h.execStvs
  · exact h.execLdvx
  · exact h.execStvx
  · exact h.execLdp
  · exact h.execPref
  · exact h.execPrefL2
  · exact h.execPrefMsc
  · exact h.execFlush
  · exact h.execFlushMem
  · exact h.execAmoAdd
  · exact h.execAmoAnd
  · exact h.execAmoOr
  · exact h.execAmoXor
  · exact h.execAmoMin
  · exact h.execAmoMax
  · exact h.execAmoSwap
  · exact h.execAmoCas
  · exact h.execFenceAcq
  · exact h.execFenceRel
  · exact h.execFenceFull
  · exact h.execBarinit
  · exact h.execBararr
  · exact h.execBarwait
  · exact h.execBarbytes
  · exact h.execWaitln
  · exact h.execSleep
  · exact h.execSleepProm
  · exact h.execAcopy
  · exact h.execGather
  · exact h.execScatter
  · exact h.execVadd
  · exact h.execVsub
  · exact h.execVmul
  · exact h.execVfma
  · exact h.execVfms
  · exact h.execVdiv
  · exact h.execVmin
  · exact h.execVmax
  · exact h.execVabs
  · exact h.execVneg
  · exact h.execVsqrt
  · exact h.execVrsq
  · exact h.execVexp2
  · exact h.execVlog2
  · exact h.execVladd
  · exact h.execVcmpEq
  · exact h.execVcmpNe
  · exact h.execVcmpLt
  · exact h.execVcmpLe
  · exact h.execVcmpGt
  · exact h.execVcmpGe
  · exact h.execVcmpUn
  · exact h.execVsel
  · exact h.execVmask
  · exact h.execVpopc
  · exact h.execVand
  · exact h.execVor
  · exact h.execVxor
  · exact h.execVshl
  · exact h.execVshr
  · exact h.execVsra
  · exact h.execVpack
  · exact h.execVunpack
  · exact h.execVcvt
  · exact h.execVcvtSat
  · exact h.execVcvtOvf
  · exact h.execVredadd
  · exact h.execVredmax
  · exact h.execVredmin
  · exact h.execVscan
  · exact h.execVperm
  · exact h.execVbcast
  · exact h.execVshuf
  · exact h.execVmov
  · exact h.execVlds
  · exact h.execVins
  · exact h.execMmaF
  · exact h.execMmaI
  · exact h.execMmaSat
  · exact h.execMmaStep
  · exact h.execMmas24F
  · exact h.execMmas24I
  · exact h.execMmas24Sat
  · exact h.execMmas48F
  · exact h.execMmas48I
  · exact h.execMmas48Sat
  · exact h.execMrotF
  · exact h.execMrotI
  · exact h.execMrotSat
  · exact h.execMlda
  · exact h.execMldb
  · exact h.execMzero
  · exact h.execMld
  · exact h.execMldt
  · exact h.execMthr
  · exact h.execMrd
  · exact h.execMsave
  · exact h.execMsaveRst
  · exact h.execMst
  · exact h.execDssbind
  · exact h.execDssstep
  · exact h.execDsscutRead
  · exact h.execDsscutImpose
  · exact h.execDsscutUnimpose
  · exact h.execDsscutStoreImage
  · exact h.execDsscutLoadImage
  · exact h.execSend
  · exact h.execSendRect
  · exact h.execSpawn
  · exact h.execSpawnev
  · exact h.execEvadd
  · exact h.execEvset
  · exact h.execPark
  · exact h.execTend
  · exact h.execLaunch
  · exact h.execYield
  · exact h.execSread
  · exact h.execSwrite
  · exact h.execNettx
  · exact h.execNetrx
  · exact h.execDomain
  · exact h.execDomexit
  · exact h.execVsend
  · exact h.execVtnow
  · exact h.execGvtrd
  · exact h.execSafe
  · exact h.execDefer
  · exact h.execTrap
  · exact h.execRett
  · exact h.execMfs
  · exact h.execMts
  · exact h.execTlbiPage
  · exact h.execTlbiAsid
  · exact h.execTlbiPartition
  · exact h.execIdle
  · exact h.execHalt
  · exact h.execCensusStore
  · exact h.execCensusCompare
  · exact h.execCensusClear
  · exact h.execSuspend
  · exact h.execPlsync
  · exact h.execLsfa
  · exact h.execPageWalk
  · exact h.execBindingLand
  · exact h.execAgeingSweep
  · exact h.execPolicingIntervalEnd
  · exact h.execGatherEngineServe
  · exact h.execGatherTokenFill
  · exact h.execAcopyAccept
  · exact h.execAcopyComplete
  · exact h.execKick
  · exact h.execTransferRecord
  · exact h.execMatrixGrant
  · exact h.execMatrixTokenFill
  · exact h.execRotlate
  · exact h.execPromise
  · exact h.execSleepWake
  · exact h.execWaitlnLineWritten
  · exact h.execWaitlnSpinTimeout
  · exact h.execWaitlnParkTimeout
  · exact h.execBudget
  · exact h.execRinglockIdle
  · exact h.execRecordDelivery
  · exact h.execOverflowReoffer
  · exact h.execDispatch
  · exact h.execFootprintFetch
  · exact h.execYieldHoldExpiry
  · exact h.execStealRoundWait
  · exact h.execLaunchStart
  · exact h.execOptimisticArrival
  · exact h.execAntiMessageArrival
  · exact h.execGvtReport
  · exact h.execGvtInstall
  · exact h.execIoAccept
  · exact h.execIoTimeout
  · exact h.execMachine
  · exact h.execEventRingOverrunWait
  · exact h.execUnassignedEncoding
  · exact h.execFetchFault
  · exact h.execRegionTableEviction
  · exact h.execHostBoundary
  · exact h.execCfg
  · exact h.execHaltResume
  · exact h.execFree
  · exact h.execMrotBufferArrival
  · exact h.execLqtail
  · exact h.execPreempt
  · exact h.execStealseed
  · exact h.execIoComplete
  · exact h.execFrameReceived
  · exact h.execCollkick
  · exact h.execCollectiveRecord
  · exact h.execHostWrite
  · exact h.execHostRead
  · exact h.execHostBar0Access
  · exact h.execFabricAccess
  · exact h.execMeshFlitParity
  · exact h.execLinkCrcFail
  · exact h.execWritebackLost
  · exact h.execEventPost
  · exact h.execPagePull
  · exact h.execPullFailed
  · exact h.execVdctl
  · exact h.execQuantumEnd
  · exact h.execSliceLate
  · exact h.execGo
  · exact h.execErrcnt
  · exact h.execRegisterWrite
  · exact h.execBoot
  · exact h.execThermalThrottle
  · exact h.execThermalHalt
  · exact h.execPowerState
  · exact h.execSoftError
  · exact h.execPageArrival

/-! ### What the other cores of the module do (log entry 26) -/

theorem Invariant.Holds.peerAgain {p : Peer} (h : I.Holds s) : I.Holds (s.peerAgain p) :=
  h.frame (by rfl)

theorem Invariant.Holds.peerAccess {p : Peer} {party : Party} {rd wr sync : Bool} {key len : Nat} {perform : State → State}
    (h : I.Holds s) (hperform : ∀ t, I.Holds t → I.Holds (perform t)) :
    I.Holds (s.peerAccess p party rd wr sync key len perform) := by
  unfold State.peerAccess
  split
  · exact h
  · split
    · next e => exact hperform _ (h.noteRegion.ok e)
    · exact h.askRoom.peerAgain

theorem Invariant.Holds.peerClose {h' : Party} (h : I.Holds s) : I.Holds (s.peerClose h') :=
  h.frame (by rfl)

theorem Invariant.Holds.giveTop {thief : Nat} (h : I.Holds s) : I.Holds (s.giveTop thief) := by
  unfold State.giveTop
  split
  · exact h.takeTop.ite h
  · exact h

theorem Invariant.Holds.updRing {k : Nat} {f : List Word → List Word} (h : I.Holds s) : I.Holds (s.updRing k f) :=
  h.frame (by rfl)

theorem Invariant.Holds.peerRuns {slot : Nat} {yes : Bool} (h : I.Holds s) : I.Holds (s.peerRuns slot yes) :=
  (h.frame (by rfl)).ite (h.peerAgain.ite (h.frame (by rfl)))

theorem Invariant.Holds.barWrite {off : Nat} {v : Word} (h : I.Holds s) : I.Holds (s.barWrite off v) :=
  h.ite (((h.frame (by rfl)).frame (by rfl)).signal.ite (h.frame (by rfl)))

theorem Invariant.Holds.joinRing {d : Delivery} (h : I.Holds s) : I.Holds (s.joinRing d) :=
  (h.frame (by rfl)).spill

theorem Invariant.Holds.peerStore {sameDie : Bool} {key : Nat} {bs : List Byte} (h : I.Holds s) : I.Holds (s.peerStore sameDie key bs) := by
  refine h.foldl_mem fun u line hline hu => ?_
  dsimp only
  split
  · next hc =>
    simp only [Bool.and_eq_true] at hc
    exact (hu.recallL1.putRdc (recallL1_rdcHas hc.2) (part_in_line hline bs _)).notify
  · exact hu.recallRange.writeHome

theorem Invariant.Holds.liveDowns {lnid n : Nat} (h : I.Holds s) : I.Holds (s.liveDowns lnid n) := by
  induction n generalizing s with
  | zero => exact h
  | succ n ih => exact ih h.liveDown

/-- The kernel is not to evaluate where the event's entry lies, so the function is replaced by its body before it is applied. -/
theorem Invariant.Holds.peerAdds {n : Nat} {add : Int} (h : I.Holds s) : I.Holds (s.peerAdds n add) := by
  generalize hf : State.peerAdds = f
  delta State.peerAdds at hf
  subst hf
  beta_reduce
  split
  · exact h.startPull.peerAgain
  · generalize eventSum (s.eventCount n) add = count
    exact h.updateEvent

theorem Invariant.Holds.preemptAcked {n : Nat} (h : I.Holds s) : I.Holds (s.meetPeer (.preemptAck n)) :=
  Invariant.Holds.ite ⟨h.1, I.preemptPut _ _ h.2.1, h.2.2⟩ h

theorem Invariant.Holds.meetPeer {x : Peer} (h : I.Holds s) : I.Holds (s.meetPeer x) := by
  cases x with
  | region => exact h.peerAccess fun _ ht => ht
  | regionEnd => exact h.peerClose
  | store => exact h.peerAccess fun _ ht => ht.peerStore
  | steal => exact h.giveTop
  | event => exact h.peerAdds
  | acked => exact h.acked
  | live => exact h.liveUp.liveDowns
  | domains => exact (h.frame (by rfl)).reseed
  | report =>
    dsimp only [State.meetPeer]
    split
    · exact h.peerAgain
    · exact h.frame (by rfl)
  | dssRuns => exact h.peerRuns
  | dss => exact h.peerAgain.ite h.setDss
  | rotRefused => exact h.rotRefused
  | ringGive | ringTake => exact h.updRing
  | bar4 => exact h.barWrite.ite h.post
  | hyperRead => exact h.post
  | preemptAck => exact h.preemptAcked
  | vdRecord => exact h.deliver.ite (h.inVd fun _ _ ht => ht.joinRing)
  | vdDoorbell => exact h.doorbell.ite (h.inVd fun _ _ ht => ht.doorbell)
  | deque | lsown | admits | ringIdle | ringWaiters | nodes | holds => exact h.frame (by rfl)

/-- Every step keeps it. -/
theorem Invariant.Holds.step (h : I.Holds s) : I.Next (step s) := by
  unfold Machine.step
  split
  · exact Invariant.Next.keepInput (h.frame (by rfl)).exec
  · exact h.exec
  · exact (h.frame (by rfl)).meetPeer.done
  · exact (h.frame (by rfl)).exec
  · exact h.execWritebackLost
  · exact h.takeMachine.done
  · split
    · next e => exact (h.issue e).exec
    · exact h.beginPull.waiting.next
  · exact h.tick.next

end

/-- The canonical forms of home memory and of PREEMPT, and CYC below 2^64, as an invariant. -/
def canonicalInvariant : Invariant where
  mem b _ _ := mwf 0 b = true
  preempt p := mwf 0 p = true
  cyc n := n < 2 ^ 64
  bytes hb := hb
  lines _ h := h
  rdcFilter _ h := h
  rdcMap _ _ h := h
  rdcPut _ _ _ h := h
  rdcDrop _ h := h
  empty h := h
  preemptPut n w h := mput_wf n w h
  noPreempt := rfl
  time n := Nat.mod_lt _ (by decide)

theorem canonicalInvariant_holds_iff {s : State} : canonicalInvariant.Holds s ↔ Canonical s := Iff.rfl

end Sys2Proof.Machine

/-- Settles O49: the canonical forms and the bound are one `Invariant`, and every step keeps an `Invariant`. -/
theorem canonicalFormsKept : Obligations.CanonicalFormsKept := by
  unfold Obligations.CanonicalFormsKept
  intro s t hs e
  have kept := (Sys2Proof.Machine.canonicalInvariant_holds_iff.2 hs).step
  exact Sys2Proof.Machine.canonicalInvariant_holds_iff.1 (kept t e)
end

section
/-! PROOF. What accesses and walks do to the bytes of memory: the newest value of a byte is the same whatever the caches do, and a write or a walk
changes its own bytes alone. -/
namespace Sys2Proof.Machine

/-! ### Maps whose unlisted keys have no value -/

section
variable {α : Type} {m : SMap α}

/-- Rising from lo on: in ascending order, no key below lo. -/
theorem mrising_iff {lo : Nat} : mrising lo m = true ↔ m.Pairwise (·.1 < ·.1) ∧ ∀ x ∈ m, lo ≤ x.1 := by
  induction m generalizing lo with
  | nil => simp [mrising]
  | cons x m ih =>
    obtain ⟨k, v⟩ := x
    simp only [mrising, Bool.and_eq_true, decide_eq_true_eq, ih, List.pairwise_cons, List.forall_mem_cons]
    constructor
    · rintro ⟨hk, hm, hl⟩
      exact ⟨⟨hl, hm⟩, hk, fun x hx => by have := hl x hx; omega⟩
    · rintro ⟨⟨hl, hm⟩, hk, -⟩
      exact ⟨hk, hm, hl⟩

theorem mrising_filter (p : Nat × α → Bool) (h : mrising 0 m = true) : mrising 0 (m.filter p) = true := by
  obtain ⟨hm, -⟩ := mrising_iff.1 h
  exact mrising_iff.2 ⟨hm.filter p, fun _ _ => Nat.zero_le _⟩

theorem mrising_map {f : Nat × α → Nat × α} (hf : ∀ x, (f x).1 = x.1) (h : mrising 0 m = true) : mrising 0 (m.map f) = true := by
  obtain ⟨hm, -⟩ := mrising_iff.1 h
  refine mrising_iff.2 ⟨List.pairwise_map.2 (hm.imp fun hxy => ?_), fun _ _ => Nat.zero_le _⟩
  rw [hf, hf]; exact hxy

theorem mem_mset {i : Nat} {v : α} {x : Nat × α} (h : x ∈ mset m i (some v)) : x = (i, v) ∨ x ∈ m := by
  induction m with
  | nil => exact .inl (List.mem_singleton.1 h)
  | cons y m ih =>
    obtain ⟨k, w⟩ := y
    simp only [mset] at h
    split at h
    · exact List.mem_cons.1 h
    · split at h
      · exact (List.mem_cons.1 h).imp_right (.tail _)
      · rcases List.mem_cons.1 h with rfl | h
        · exact .inr (.head _)
        · exact (ih h).imp_right (.tail _)

theorem mrising_mset_from {i lo : Nat} (v : α) (hi : lo ≤ i) (h : mrising lo m = true) : mrising lo (mset m i (some v)) = true := by
  induction m generalizing lo with
  | nil => simp [mset, mrising, hi]
  | cons y m ih =>
    obtain ⟨k, w⟩ := y
    have hkm := h
    simp only [mrising, Bool.and_eq_true, decide_eq_true_eq] at hkm
    obtain ⟨hk, hm⟩ := hkm
    simp only [mset]
    split
    · next hik => simp [mrising, hi, hm]; omega
    · split
      · next e => subst e; simp [mrising, hi, hm]
      · simp only [mrising, Bool.and_eq_true, decide_eq_true_eq]
        exact ⟨hk, ih (by omega) hm⟩

theorem mrising_mset (i : Nat) (v : α) (h : mrising 0 m = true) : mrising 0 (mset m i (some v)) = true := mrising_mset_from v i.zero_le h

theorem mfind_mset_same (i : Nat) (v : α) : mfind (mset m i (some v)) i = some v := by
  induction m with
  | nil => simp [mset, mfind]
  | cons y m ih =>
    simp only [mset]
    split
    · simp [mfind]
    · split
      · simp [mfind]
      · simp [mfind, *]

theorem mfind_mset_other {i j : Nat} (v : α) (hj : j ≠ i) : mfind (mset m i (some v)) j = mfind m j := by
  induction m with
  | nil => simp [mset, mfind, hj]
  | cons y m ih =>
    simp only [mset]
    split
    · simp only [mfind, hj, if_false]
      split
      · rw [if_pos (by omega)]
      · rfl
    · split
      · next e => subst e; simp [mfind, hj]
      · simp [mfind, ih]

/-- What a rising map has at a key is the entry that lists it. -/
theorem mfind_eq_some_iff {i : Nat} {v : α} (h : mrising 0 m = true) : mfind m i = some v ↔ (i, v) ∈ m := by
  replace h := (mrising_iff.1 h).1
  induction m with
  | nil => simp [mfind]
  | cons y m ih =>
    obtain ⟨k, w⟩ := y
    obtain ⟨hk, hm⟩ := List.pairwise_cons.1 h
    simp only [mfind, List.mem_cons, Prod.mk.injEq]
    split
    · next hik =>
      refine iff_of_false (by simp) fun h => ?_
      rcases h with ⟨e, -⟩ | h
      · omega
      · have := hk _ h; omega
    · split
      · next e =>
        subst e
        have : (i, v) ∉ m := fun h => Nat.lt_irrefl i (hk (i, v) h)
        simp [this, eq_comm]
      · next e => simp [e, ih hm]

/-- Entries whose keys a condition refuses are gone, the others as they were. -/
theorem mfind_filter_key (p : Nat → Bool) {i : Nat} (h : mrising 0 m = true) :
    mfind (m.filter fun x => p x.1) i = if p i then mfind m i else none := by
  ext v
  rw [mfind_eq_some_iff (mrising_filter _ h), List.mem_filter, ← mfind_eq_some_iff h]
  by_cases hp : p i = true <;> simp [hp]

end

/-! ### Dirty bytes of the RDC go home (R113, R135) -/

theorem putHome_byte {s : State} (key : Nat) (bs : List Byte) (j : Nat) (h : s.MemOk) :
    (s.putHome key bs).byte j = if key ≤ j ∧ j < key + bs.length then bs.getD (j - key) 0 else s.byte j := mget_mputs bs _ key j h

/-- From s to t the bytes of a list arrive at their homes, and no other. -/
def SentHome (l : SMap RdcByte) (s t : State) : Prop :=
  t.MemOk ∧ (∀ x ∈ l, t.byte x.1 = x.2.v) ∧ ∀ key, (∀ x ∈ l, x.1 ≠ key) → t.byte key = s.byte key

theorem SentHome.nil {s : State} (h : s.MemOk) : SentHome [] s s := ⟨h, by simp, fun _ _ => rfl⟩

/-- One list after another, where both give a key they share the same byte. -/
theorem SentHome.trans {a b c : SMap RdcByte} {s t u : State} (hs : SentHome a s t) (ht : SentHome b t u) (hc : ∀ x, x ∈ c ↔ x ∈ a ∨ x ∈ b)
    (same : ∀ x ∈ a, ∀ y ∈ b, y.1 = x.1 → y = x) : SentHome c s u := by
  obtain ⟨-, hs1, hs2⟩ := hs
  obtain ⟨hok, ht1, ht2⟩ := ht
  refine ⟨hok, fun x hx => ?_, fun key hkey => ?_⟩
  · rcases (hc x).1 hx with hx | hx
    · by_cases hy : ∃ y ∈ b, y.1 = x.1
      · obtain ⟨y, hy, e⟩ := hy
        rw [← same x hx y hy e]
        exact ht1 y hy
      · exact (ht2 _ fun y hy' e => hy ⟨y, hy', e⟩).trans (hs1 x hx)
    · exact ht1 x hx
  · exact (ht2 key fun x hx => hkey x ((hc x).2 (.inr hx))).trans (hs2 key fun x hx => hkey x ((hc x).2 (.inl hx)))

/-- Bytes sent one at a time. -/
theorem sentHome_each {l : SMap RdcByte} {s : State} (hl : l.Pairwise (·.1 < ·.1)) (h : s.MemOk) :
    SentHome l s (l.foldl (fun s x => s.putHome x.1 [x.2.v]) s) := by
  induction l generalizing s with
  | nil => exact .nil h
  | cons x l ih =>
    obtain ⟨hx, hl⟩ := List.pairwise_cons.1 hl
    have first : SentHome [x] s (s.putHome x.1 [x.2.v]) := by
      refine ⟨putHome_memOk _ _ h, fun y hy => ?_, fun key hkey => ?_⟩
      · cases List.mem_singleton.1 hy
        rw [putHome_byte _ _ _ h, if_pos (by simp)]; simp
      · have := hkey x (.head _)
        rw [putHome_byte _ _ _ h, if_neg (by simp; omega)]
    refine first.trans (ih hl first.1) (by simp) fun y hy z hz e => ?_
    cases List.mem_singleton.1 hy
    exact absurd e (hx z hz).ne'

/-- The keys of a sector that is listed whole. -/
theorem whole_sector_keys {l : SMap RdcByte} {u : Nat} (hl : l.Pairwise (·.1 < ·.1)) (hu : ∀ x ∈ l, u ≤ x.1 ∧ x.1 < u + 32) (hn : l.length = 32) :
    l.map Prod.fst = List.range' u 32 := by
  have sorted : (l.map Prod.fst).Pairwise (· < ·) := List.pairwise_map.2 hl
  have sub : l.map Prod.fst ⊆ List.range' u 32 := fun k hk => by
    obtain ⟨x, hx, rfl⟩ := List.mem_map.1 hk
    exact List.mem_range'_1.2 (hu x hx)
  have perm := (List.subperm_of_subset (sorted.imp Nat.ne_of_lt) sub).perm_of_length_le (by simp [hn])
  exact perm.eq_of_pairwise (fun a b _ _ hab hba => absurd hab (Nat.lt_asymm hba)) sorted List.pairwise_lt_range'

/-- A sector sent whole. -/
theorem sentHome_whole {l : SMap RdcByte} {u : Nat} {s : State} (hl : l.Pairwise (·.1 < ·.1)) (hu : ∀ x ∈ l, u ≤ x.1 ∧ x.1 < u + 32) (hn : l.length = 32) (h : s.MemOk) :
    SentHome l s (s.putHome u (l.map fun x => x.2.v)) := by
  have keys := whole_sector_keys hl hu hn
  refine ⟨putHome_memOk _ _ h, fun x hx => ?_, fun key hkey => ?_⟩
  · obtain ⟨i, hi, rfl⟩ := List.mem_iff_getElem.1 hx
    have hk : l[i].1 = u + i := by
      have := List.getElem_map (f := Prod.fst) (l := l) (i := i) (h := by simpa using hi)
      simp only [keys] at this
      rw [← this]; simp
    rw [putHome_byte _ _ _ h, if_pos (by simp; omega), hk]
    simp [hi]
  · rw [putHome_byte _ _ _ h, if_neg]
    rintro ⟨h1, h2⟩
    have : key ∈ l.map Prod.fst := by
      rw [keys]; simp at h2 ⊢; omega
    obtain ⟨x, hx, e⟩ := List.mem_map.1 this
    exact hkey x hx e

theorem sentHome_sector {l : SMap RdcByte} {u : Nat} {s : State} (hl : l.Pairwise (·.1 < ·.1)) (hu : ∀ x ∈ l, u ≤ x.1 ∧ x.1 < u + 32) (h : s.MemOk) :
    SentHome l s (s.sendSector u l) := by
  unfold State.sendSector
  split
  · exact sentHome_each hl h
  · split
    · next hn => exact sentHome_whole hl hu hn h
    · exact sentHome_each hl h

theorem arriveHome_bytes (s : State) (line dirty : Nat) : (s.arriveHome line dirty).mem.bytes = s.mem.bytes := by
  have receive (v : Line) : (s.receive v dirty).mem.bytes = s.mem.bytes := by
    unfold State.receive
    dsimp only
    split <;> rfl
  unfold State.arriveHome
  split
  · rfl
  · split
    · exact receive _
    · rfl

theorem SentHome.arriveHome {l : SMap RdcByte} {s t : State} {line dirty : Nat} (h : SentHome l s t) : SentHome l s (t.arriveHome line dirty) := by
  have same (key : Nat) : (t.arriveHome line dirty).byte key = t.byte key := by
    unfold State.byte; rw [arriveHome_bytes]
  exact ⟨arriveHome_memOk _ _ h.1, fun x hx => (same _).trans (h.2.1 x hx), fun key hkey => (same _).trans (h.2.2 key hkey)⟩

/-- The bytes of a line that are dirty in the RDC. -/
def State.dirtyIn (s : State) (line : Nat) : SMap RdcByte := s.mem.rdc.filter fun x => x.1 / 128 * 128 = line && x.2.dirty

theorem mem_dirtyIn {s : State} {line : Nat} {x : Nat × RdcByte} :
    x ∈ s.dirtyIn line ↔ x ∈ s.mem.rdc ∧ x.1 / 128 * 128 = line ∧ x.2.dirty = true := by
  simp [State.dirtyIn]

/-- Sector by sector. -/
theorem SentHome.foldl {ds : SMap RdcByte} {f : State → Nat → State} {line : Nat} {s : State} (hds : ds.Pairwise (·.1 < ·.1))
    (hf : ∀ t k, t.MemOk → SentHome (ds.filter fun x => x.1 / 32 * 32 = line + 32 * k) t (f t k)) (h : s.MemOk) (ks : List Nat) :
    SentHome (ds.filter fun x => ks.any fun k => x.1 / 32 * 32 = line + 32 * k) s (ks.foldl f s) := by
  induction ks generalizing s with
  | nil => simpa using SentHome.nil h
  | cons k ks ih =>
    have first := hf s k h
    refine first.trans (ih first.1) (fun x => ?_) fun x hx y hy e => ?_
    · simp only [List.mem_filter, List.any_cons, Bool.or_eq_true, decide_eq_true_eq]
      tauto
    · have hx := (mfind_eq_some_iff (mrising_iff.2 ⟨hds, fun _ _ => Nat.zero_le _⟩)).2 (List.mem_of_mem_filter hx)
      have hy := (mfind_eq_some_iff (mrising_iff.2 ⟨hds, fun _ _ => Nat.zero_le _⟩)).2 (List.mem_of_mem_filter hy)
      rw [e, hx] at hy
      exact Prod.ext e (Option.some.inj hy).symm

/-- Over links that are up the dirty bytes of a line arrive at their homes, and no other byte changes there. -/
theorem sentHome_line {s : State} {line : Nat} (h : s.MemOk) (hr : mrising 0 s.mem.rdc = true) (hd : s.sys.linksDown = []) :
    SentHome (s.dirtyIn line) s (s.sendHome line) := by
  have sorted : (s.dirtyIn line).Pairwise (·.1 < ·.1) := (mrising_iff.1 hr).1.filter _
  have whole : ((s.dirtyIn line).filter fun x => (List.range 4).any fun k => x.1 / 32 * 32 = line + 32 * k) = s.dirtyIn line := by
    refine List.filter_eq_self.2 fun x hx => List.any_eq_true.2 ⟨x.1 % 128 / 32, List.mem_range.2 (by omega), ?_⟩
    have := (mem_dirtyIn.1 hx).2.1
    simp only [decide_eq_true_eq]; omega
  unfold State.sendHome
  dsimp only
  split
  · next e => exact (show s.dirtyIn line = [] from e) ▸ .nil h
  · rw [hd, if_neg (by simp)]
    refine SentHome.arriveHome ?_
    rw [← whole]
    refine SentHome.foldl sorted (fun t k ht => ?_) h _
    unfold State.dirtyIn
    split
    · next e => rw [e]; exact .nil ht
    · refine sentHome_sector (sorted.filter _) (fun x hx => ?_) ht
      have := (List.mem_filter.1 hx).2
      simp only [decide_eq_true_eq] at this; omega

/-- What the sending of a line leaves alone: whatever bytes arriving at their homes and the marks of losses, of lines and of what no link carries
leave alone. -/
theorem sendHome_keeps {γ : Type} (p : State → γ) (hp : ∀ s key bs, p (s.putHome key bs) = p s)
    (hm : ∀ (s : State) (lost hbm unsent : List Nat) (lines : List Line),
      p { s with mem := { s.mem with lost := lost, hbmLost := hbm, unsent := unsent, lines := lines } } = p s) (s : State) (line : Nat) :
    p (s.sendHome line) = p s := by
  have sector (s : State) (u : Nat) (ds : SMap RdcByte) : p (s.sendSector u ds) = p s := by
    have each := foldl_keeps (fun s (x : Nat × RdcByte) => s.putHome x.1 [x.2.v]) p (fun s x => hp s _ _) ds s
    unfold State.sendSector
    split
    · exact (hm _ _ _ _ _).trans each
    · split
      · exact hp _ _ _
      · exact each
  have receive (s : State) (v : Line) (d : Nat) : p (s.receive v d) = p s := by
    unfold State.receive
    dsimp only
    split
    · exact hm s _ _ _ _
    · exact hm s _ _ _ _
  have arrive (s : State) (line d : Nat) : p (s.arriveHome line d) = p s := by
    unfold State.arriveHome
    split
    · exact hm s _ _ _ _
    · split
      · exact receive _ _ _
      · rfl
  unfold State.sendHome
  dsimp only
  split
  · rfl
  · split
    · exact hm s _ _ _ _
    · refine (arrive _ _ _).trans (foldl_keeps _ p (fun s k => ?_) _ s)
      split
      · rfl
      · exact sector _ _ _

theorem sendHome_rdc (s : State) (line : Nat) : (s.sendHome line).mem.rdc = s.mem.rdc :=
  sendHome_keeps (fun t => t.mem.rdc) (fun _ _ _ => rfl) (fun _ _ _ _ _ => rfl) s line

theorem sendHome_sys (s : State) (line : Nat) : (s.sendHome line).sys = s.sys :=
  sendHome_keeps State.sys (fun _ _ _ => rfl) (fun _ _ _ _ _ => rfl) s line

/-! ### What a byte shows while caches change -/

/-- Memory has its canonical forms, the links are up, the newest value of the byte at a key is v and, where `bare` says so, the RDC does not hold
that byte. -/
def Shows (bare : Prop) (key : Nat) (v : Byte) (s : State) : Prop :=
  s.MemOk ∧ mrising 0 s.mem.rdc = true ∧ s.sys.linksDown = [] ∧ newest s key = v ∧ (bare → mfind s.mem.rdc key = none)

section
variable {bare : Prop} {key : Nat} {v : Byte} {s t : State}

/-- It is a property of the bytes at home, of the RDC's and of the links. -/
theorem Shows.congr (h : Shows bare key v s) (e : (t.mem.bytes, t.mem.rdc, t.sys.linksDown) = (s.mem.bytes, s.mem.rdc, s.sys.linksDown)) :
    Shows bare key v t := by
  simp only [Prod.mk.injEq] at e
  obtain ⟨hb, hr, hd⟩ := e
  unfold Shows State.MemOk Memory.wf newest State.byte
  rw [hb, hr, hd]
  exact h

theorem Shows.mono {bare' : Prop} (h : Shows bare key v s) (hb : bare' → bare) : Shows bare' key v s :=
  ⟨h.1, h.2.1, h.2.2.1, h.2.2.2.1, fun x => h.2.2.2.2 (hb x)⟩

theorem Shows.ite {c : Prop} [Decidable c] (hs : Shows bare key v s) (ht : Shows bare key v t) : Shows bare key v (if c then s else t) := by
  split
  · exact hs
  · exact ht

theorem Shows.foldl {β : Type} {f : State → β → State} {l : List β} (h : Shows bare key v s)
    (hf : ∀ t, ∀ b ∈ l, Shows bare key v t → Shows bare key v (f t b)) : Shows bare key v (l.foldl f s) :=
  List.foldlRecOn l f h fun t ht b hb => hf t b hb ht

/-- A byte at its home changes nothing that the RDC's dirty byte covers. -/
theorem newest_of_dirty {b : RdcByte} (hb : mfind s.mem.rdc key = some b) (hd : b.dirty = true) : newest s key = b.v := by
  simp [newest, hb, hd]

theorem newest_of_bare (hb : mfind s.mem.rdc key = none) : newest s key = s.byte key := by simp [newest, hb]

theorem newest_of_clean {b : RdcByte} (hb : mfind s.mem.rdc key = some b) (hd : b.dirty = false) : newest s key = s.byte key := by
  simp [newest, hb, hd]

/-- A line of the RDC goes: its dirty bytes stand at their homes. -/
theorem Shows.dropRdcLine {line : Nat} (h : Shows bare key v s) : Shows bare key v (s.dropRdcLine line) := by
  obtain ⟨hm, hr, hd, hv, hb⟩ := h
  obtain ⟨hok, hsent, hrest⟩ := sentHome_line (line := line) hm hr hd
  have rdc : (s.dropRdcLine line).mem.rdc = s.mem.rdc.filter fun x => (fun k => decide (k / 128 * 128 ≠ line)) x.1 := by
    show ((s.sendHome line).mem.rdc.filter _) = _
    rw [sendHome_rdc]
  have found : mfind (s.dropRdcLine line).mem.rdc key = if key / 128 * 128 = line then none else mfind s.mem.rdc key := by
    rw [rdc, mfind_filter_key (fun k => decide (k / 128 * 128 ≠ line)) hr]
    by_cases hl : key / 128 * 128 = line <;> simp [hl]
  have kept (hn : ∀ x ∈ s.dirtyIn line, x.1 ≠ key) : (s.dropRdcLine line).byte key = s.byte key := hrest key hn
  refine ⟨hok, rdc ▸ mrising_filter _ hr, (congrArg Sys.linksDown (sendHome_sys s line)).trans hd, ?_, fun x => ?_⟩
  · rw [← hv]
    by_cases hl : key / 128 * 128 = line
    · rw [if_pos hl] at found
      rw [newest_of_bare found]
      cases hk : mfind s.mem.rdc key with
      | none =>
        rw [newest_of_bare hk]
        refine kept fun x hx e => ?_
        have := (mfind_eq_some_iff hr).2 (mem_dirtyIn.1 hx).1
        rw [e, hk] at this
        cases this
      | some b =>
        have hmem := (mfind_eq_some_iff hr).1 hk
        cases hdirty : b.dirty with
        | true =>
          rw [newest_of_dirty hk hdirty]
          exact hsent (key, b) (mem_dirtyIn.2 ⟨hmem, hl, hdirty⟩)
        | false =>
          rw [newest_of_clean hk hdirty]
          refine kept fun x hx e => ?_
          obtain ⟨hx, -, hxd⟩ := mem_dirtyIn.1 hx
          have := (mfind_eq_some_iff hr).2 hx
          rw [e, hk] at this
          rw [← Option.some.inj this, hdirty] at hxd
          cases hxd
    · rw [if_neg hl] at found
      unfold newest
      rw [found, kept fun x hx e => hl (e ▸ (mem_dirtyIn.1 hx).2.1)]
  · rw [found, hb x, ite_self]

theorem Shows.updLine {lv : Lv} {line : Nat} {f : Line → Line} (h : Shows bare key v s) : Shows bare key v (s.updLine lv line f) := h

theorem Shows.dropLine {lv : Lv} {line : Nat} (h : Shows bare key v s) : Shows bare key v (s.dropLine lv line) := h

theorem Shows.reachHbm {line dirty : Nat} (h : Shows bare key v s) : Shows bare key v (s.reachHbm line dirty) := h

theorem Shows.countBroken {l : Line} (h : Shows bare key v s) : Shows bare key v (s.countBroken l) := h

theorem Shows.countKept {l : Line} (h : Shows bare key v s) : Shows bare key v (s.countKept l) := h.ite h

theorem Shows.count {code n : Nat} (h : Shows bare key v s) : Shows bare key v (s.count code n) := h

theorem Shows.post {m : Sent} (h : Shows bare key v s) : Shows bare key v (s.post m) := h

theorem Shows.receive {l : Line} {dirty : Nat} (h : Shows bare key v s) : Shows bare key v (s.receive l dirty) := (h.reachHbm.ite h).updLine

theorem Shows.loseUnit {k : Nat} (h : Shows bare key v s) : Shows bare key v (s.loseUnit k) := h

theorem Shows.uncover {line gone : Nat} (h : Shows bare key v s) : Shows bare key v (s.uncover line gone) :=
  Shows.foldl (h.congr (by rfl)) fun _ _ _ ht => ht.loseUnit

theorem enterTable_memory {die : Nat} {r : TabRun} (e : s.enterTable die r = some t) :
    t = { s with mem := { s.mem with tables := t.mem.tables } } := by
  unfold State.enterTable at e
  dsimp only at e
  split at e
  · cases e
  · cases e; rfl

theorem enterOnce_memory {r : TabRun} (e : s.enterOnce r = some t) : t = { s with mem := { s.mem with tables := t.mem.tables } } := by
  unfold State.enterOnce at e
  dsimp only at e
  split at e
  · cases e; rfl
  · exact enterTable_memory e

/-- The masks of a line move to a region table, or a boundary comes due. -/
theorem moveMasks_cases (s : State) (line : Nat) : ∃ tables hit,
    s.moveMasks line = { s with core := { s.core with tableHit := hit }, mem := { s.mem with tables := tables } } := by
  unfold State.moveMasks
  split
  · split
    · next t e => exact ⟨t.mem.tables, s.core.tableHit, enterOnce_memory e⟩
    · exact ⟨s.mem.tables, true, rfl⟩
  · exact ⟨s.mem.tables, s.core.tableHit, rfl⟩

theorem Shows.moveMasks {line : Nat} (h : Shows bare key v s) : Shows bare key v (s.moveMasks line) := by
  obtain ⟨_, _, e⟩ := moveMasks_cases s line
  rw [e]; exact h

theorem Shows.leaveL1 {l : Line} (h : Shows bare key v s) : Shows bare key v (s.leaveL1 l) := h.dropLine.moveMasks.ite h.dropLine.moveMasks.updLine

theorem Shows.recallL1 {line : Nat} (h : Shows bare key v s) : Shows bare key v (s.recallL1 line) := by
  unfold State.recallL1
  split
  · exact h.leaveL1
  · exact h

theorem Shows.recallRange {k n : Nat} (h : Shows bare key v s) : Shows bare key v (s.recallRange k n) :=
  h.ite (h.foldl fun _ _ _ ht => ht.recallL1)

theorem Shows.purge {line : Nat} (h : Shows bare key v s) : Shows bare key v (s.purge line) := h.recallL1.dropRdcLine.dropLine

theorem Shows.purgeRange {k n : Nat} (h : Shows bare key v s) : Shows bare key v (s.purgeRange k n) := h.foldl fun _ _ _ ht => ht.purge

/-! ### The caches (R48 to R65) -/

theorem Shows.evict {l : Line} (h : Shows bare key v s) : Shows bare key v (s.evict l) := by
  have h1 : Shows bare key v (if l.dueE s.unitTime then s.countBroken l else s) := h.countBroken.ite h
  have h2 := Shows.ite (c := l.dueE s.unitTime = true) (h1.updLine (lv := l.lv) (line := l.line) (f := fun l => { l with e := true })) h1
  unfold State.evict
  dsimp only
  generalize (if l.dueE s.unitTime = true then State.updLine _ l.lv l.line _ else _) = u at h2 ⊢
  split
  · exact h2.leaveL1
  · exact h2.reachHbm.dropLine.uncover
  · have h3 : Shows bare key v (if u.isRemote l.line then u else u.recallL1 l.line) := h2.ite h2.recallL1
    split
    · exact (h3.ite h3.receive).dropLine.uncover
    · exact h3
  · exact h2.recallL1.dropRdcLine.dropLine

/-- A line is filled into a level. -/
theorem Shows.addLine {l : Line} (h : Shows bare key v s) : Shows bare key v { s with mem := { s.mem with lines := l :: s.mem.lines } } := h

theorem Shows.touch {lv : Lv} {line nud cls need put : Nat} {demand : Bool} (h : Shows bare key v s) :
    Shows bare key v (s.touch lv line nud cls need put demand).1 := by
  have h0 : Shows bare key v { s with mem := { s.mem with clock := s.mem.clock + 1 } } := h
  unfold State.touch
  dsimp only
  split
  · exact ((h0.countKept.ite h0).countBroken.ite (h0.countKept.ite h0)).updLine
  · split
    · exact h0.addLine
    · split
      · exact h0.evict.addLine
      · exact h0

theorem Shows.touchHome {line nud cls need put : Nat} {demand : Bool} (h : Shows bare key v s) :
    Shows bare key v (s.touchHome line nud cls need put demand) := h.touch.ite h.touch.touch

theorem Shows.touchShared {l : Loc} {nud cls need put : Nat} {demand : Bool} (h : Shows bare key v s) :
    Shows bare key v (s.touchShared l nud cls need put demand) := (h.touch.ite h.touch.touchHome).ite h.touchHome

theorem Shows.touchCore {l : Loc} {nud need put : Nat} {demand : Bool} (h : Shows bare key v s) :
    Shows bare key v (s.touchCore l nud need put demand) := h.count.touchShared.ite (h.touch.ite h.touch.count.touchShared)

theorem Shows.otherEvictions (h : Shows bare key v s) : Shows bare key v s.otherEvictions := by
  unfold State.otherEvictions
  split
  · exact h
  · dsimp only
    split
    · exact h
    · split
      · exact h
      · exact h.evict

/-! ### The RDC's bytes (R50, R51) -/

/-- A byte enters the RDC where it held none, clean and as home holds it. -/
theorem Shows.fetchByte {m : SMap RdcByte} {i : Nat} (hb : ¬ bare) (hi : mfind m i = none)
    (h : Shows bare key v { s with mem := { s.mem with rdc := m } }) :
    Shows bare key v { s with mem := { s.mem with rdc := mset m i (some ⟨s.byte i, false⟩) } } := by
  obtain ⟨hm, hr, hd, hv, -⟩ := h
  refine ⟨hm, mrising_mset _ _ hr, hd, ?_, fun x => absurd x hb⟩
  rw [← hv]
  by_cases e : key = i
  · subst e
    rw [newest_of_bare (s := { s with mem := { s.mem with rdc := m } }) hi]
    exact newest_of_clean (mfind_mset_same _ _) rfl
  · unfold newest
    rw [mfind_mset_other _ e]
    rfl

theorem Shows.fetchRdc {line need : Nat} (hb : ¬ bare) (h : Shows bare key v s) : Shows bare key v (s.fetchRdc line need) := by
  have each (p : Nat → Bool) (js : List Nat) : Shows bare key v { s with mem := { s.mem with
      rdc := js.foldl (fun m j => if p j && mfind m (line + j) = none then mset m (line + j) (some ⟨s.byte (line + j), false⟩) else m) s.mem.rdc } } := by
    refine List.foldlRecOn (motive := fun m => Shows bare key v { s with mem := { s.mem with rdc := m } }) js _ h fun m hm j _ => ?_
    dsimp only
    split
    · next hc =>
      simp only [Bool.and_eq_true, decide_eq_true_eq] at hc
      exact hm.fetchByte hb hc.2
    · exact hm
  unfold State.fetchRdc
  dsimp only
  split
  · exact h
  · split
    · exact h
    · exact (each _ _).congr (by rfl)

/-- Another byte is put into the RDC. -/
theorem Shows.putByte {m : SMap RdcByte} {i : Nat} {b : RdcByte} (hi : key ≠ i) (h : Shows bare key v { s with mem := { s.mem with rdc := m } }) :
    Shows bare key v { s with mem := { s.mem with rdc := mset m i (some b) } } := by
  obtain ⟨hm, hr, hd, hv, hb⟩ := h
  refine ⟨hm, mrising_mset _ _ hr, hd, ?_, fun x => (mfind_mset_other _ hi).trans (hb x)⟩
  rw [← hv]
  unfold newest
  rw [mfind_mset_other _ hi]
  rfl

theorem Shows.putRdc {line k : Nat} {bs : List Byte} {dirty : Bool} (hk : ¬ (k ≤ key ∧ key < k + bs.length)) (h : Shows bare key v s) :
    Shows bare key v (s.putRdc line k bs dirty) := by
  have each : Shows bare key v { s with mem := { s.mem with
      rdc := (List.range bs.length).foldl (fun m j => mset m (k + j) (some (RdcByte.mk (bs.getD j 0) dirty))) s.mem.rdc } } :=
    List.foldlRecOn (motive := fun m => Shows bare key v { s with mem := { s.mem with rdc := m } }) _ _ h fun m hm j hj => by
      have := List.mem_range.1 hj
      exact hm.putByte (by omega)
  exact each.congr (by rfl)

theorem Shows.fetchMaybe {l : Loc} {need : Nat} (hb : bare → l.remote = false) (h : Shows bare key v s) : Shows bare key v (s.fetchMaybe l need) := by
  unfold State.fetchMaybe
  split
  · next hr => exact h.fetchRdc fun x => Bool.false_ne_true ((hb x).symm.trans hr)
  · exact h

/-! ### Accesses (R20, R49, R241) -/

theorem Shows.reach {l : Loc} {n nud : Nat} {r : Route} {rd wr whole : Bool} (hb : bare → l.remote = false) (h : Shows bare key v s) :
    Shows bare key v (s.reach l n nud r rd wr whole) := by
  unfold State.reach
  dsimp only
  split
  · refine h.foldl fun t line _ ht => ?_
    cases r
    · exact ht.touchCore.fetchMaybe hb
    · exact (ht.recallL1.ite ht).touchShared.fetchMaybe hb
    · exact (ht.recallL1.ite ht).touchHome
  · cases r
    · exact h.purgeRange
    · exact h.purgeRange
    · exact h.ite (h.foldl fun _ _ _ ht => ht.recallL1)

theorem Shows.otherMaybe {b : Bool} (h : Shows bare key v s) : Shows bare key v (if b then s.otherEvictions else s) := h.otherEvictions.ite h

theorem Shows.readPiece {p : Piece} {nud : Nat} {r : Route} {whole : Bool} (h : Shows False key v s) :
    Shows False key v (s.readPiece p nud r whole).2.2 := by
  have reached : Shows False key v ((if p.loc.remote then s.otherEvictions else s).reach p.loc p.len nud r true false whole) :=
    h.otherMaybe.reach False.elim
  unfold State.readPiece
  split
  · dsimp only
    split
    · exact reached
    · exact reached
  · exact h
  · exact h.post
  · exact h

theorem Shows.readPieces {nud : Nat} {r : Route} {whole : Bool} {ps : List Piece} (h : Shows False key v s) :
    Shows False key v (s.readPieces nud r whole ps).2.2 := by
  induction ps generalizing s with
  | nil => exact h
  | cons p ps ih => exact ih h.readPiece

/-- A write at home of other bytes. -/
theorem Shows.writeHome {k : Nat} {bs : List Byte} (hk : ¬ (k ≤ key ∧ key < k + bs.length)) (h : Shows bare key v s) :
    Shows bare key v (s.writeHome k bs) := by
  obtain ⟨hm, hr, hd, hv, hb⟩ := h
  refine ⟨writeHome_memOk k bs hm, hr, hd, ?_, hb⟩
  rw [← hv]
  unfold newest
  rw [writeHome_byte k bs key hm, if_neg hk]
  rfl

/-- Over links that are up every write arrives. -/
theorem writeOver_memory (hd : s.sys.linksDown = []) (va : Word) (k : Nat) (bs : List Byte) (x : Option EngHart) :
    ∃ links, s.writeOver va k bs x = ({ s with core := { s.core with overLink := links } } : State).writeHome k bs := by
  unfold State.writeOver
  rw [if_neg (by simp [State.cutOff, hd])]
  split
  · exact ⟨_, rfl⟩
  · exact ⟨s.core.overLink, rfl⟩

theorem Shows.writeOver {va : Word} {k : Nat} {bs : List Byte} {x : Option EngHart} (hk : ¬ (k ≤ key ∧ key < k + bs.length))
    (h : Shows bare key v s) : Shows bare key v (s.writeOver va k bs x) := by
  obtain ⟨links, e⟩ := writeOver_memory h.2.2.1 va k bs x
  rw [e]
  exact Shows.writeHome hk (h.congr (by rfl))

end

/-- The part of a piece's bytes that lies in a line: into the RDC where it holds the line, else to their homes (R50, R51). -/
def State.putLine (s : State) (p : Piece) (bs : List Byte) (r : Route) (x : Option EngHart) (line : Nat) : State :=
  let lo := max line p.loc.key
  let bs := (bs.drop (lo - p.loc.key)).take (line + 128 - lo)
  if p.loc.remote && p.loc.mt = 0 && r ≠ .far && (s.lineAt .rdc line).isSome then s.putRdc line lo bs
  else s.writeOver (p.va + wd (lo - p.loc.key)) lo bs x

/-- A write of a piece of memory, line by line. -/
theorem writePiece_memory {s : State} {p : Piece} {bs : List Byte} {nud : Nat} {r : Route} {rmw : Bool} {x : Option EngHart}
    (hp : p.loc.what = .memory) : s.writePiece p bs nud r rmw x = (linesOf p.loc.key p.len).foldl (fun s line => s.putLine p bs r x line)
      ((if p.loc.remote then s.otherEvictions else s).reach p.loc p.len nud r rmw true false) := by
  unfold State.writePiece
  rw [hp]
  rfl

section
variable {bare : Prop} {key : Nat} {v : Byte} {s t : State}

theorem Shows.putLine {p : Piece} {bs : List Byte} {r : Route} {x : Option EngHart} {line : Nat}
    (hk : ¬ (p.loc.key ≤ key ∧ key < p.loc.key + bs.length) ∨ line ∈ linesOf p.loc.key p.len ∧ key / 128 * 128 ≠ line) (h : Shows bare key v s) :
    Shows bare key v (s.putLine p bs r x line) := by
  have out : ¬ (max line p.loc.key ≤ key ∧
      key < max line p.loc.key + ((bs.drop (max line p.loc.key - p.loc.key)).take (line + 128 - max line p.loc.key)).length) := by
    rcases hk with hk | ⟨hl, hne⟩
    · simp only [List.length_take, List.length_drop]
      omega
    · rintro ⟨h1, h2⟩
      have := part_in_line hl bs (max line p.loc.key - p.loc.key) (key - max line p.loc.key) (by omega)
      rw [Nat.add_sub_cancel' h1] at this
      exact hne this
  exact (h.putRdc out).ite (h.writeOver out)

theorem Shows.writePiece {p : Piece} {bs : List Byte} {nud : Nat} {r : Route} {rmw : Bool} {x : Option EngHart} (h : Shows False key v s)
    (hk : p.loc.what = .memory ∨ p.loc.what = .store → ¬ (p.loc.key ≤ key ∧ key < p.loc.key + bs.length)) :
    Shows False key v (s.writePiece p bs nud r rmw x) := by
  cases hp : p.loc.what with
  | memory =>
    rw [writePiece_memory hp]
    exact Shows.foldl (h.otherMaybe.reach False.elim) fun t line _ ht => ht.putLine (.inl (hk (.inl hp)))
  | store =>
    unfold State.writePiece
    rw [hp]
    exact h.writeHome (hk (.inr hp))
  | host =>
    unfold State.writePiece
    rw [hp]
    exact h.post
  | unit =>
    unfold State.writePiece
    rw [hp]
    exact h

theorem Shows.writePieces {ps : List Piece} {bs : List Byte} {nud : Nat} {r : Route} {x : Option EngHart} (h : Shows False key v s)
    (hk : ∀ p ∈ ps, p.loc.what = .memory ∨ p.loc.what = .store → p.off + p.len ≤ bs.length ∧ ¬ (p.loc.key ≤ key ∧ key < p.loc.key + p.len)) :
    Shows False key v (s.writePieces ps bs nud r x) := by
  refine h.foldl fun t p hp ht => ht.writePiece fun hw => ?_
  obtain ⟨-, hout⟩ := hk p hp hw
  have : ((bs.drop p.off).take p.len).length ≤ p.len := List.length_take_le _ _
  omega

/-! ### The bytes that a write stores -/

/-- A fold that keeps P has Q at its end where the step of one element gives Q from P and the others keep it. -/
theorem foldl_reaches {β : Type} {P Q : State → Prop} {f : State → β → State} {l : List β} {a : β} (ha : a ∈ l)
    (hP : ∀ t, ∀ b ∈ l, P t → P (f t b)) (hQ : ∀ t, P t → Q (f t a)) (keep : ∀ t, ∀ b ∈ l, b ≠ a → P t → Q t → Q (f t b)) (h : P s) :
    Q (l.foldl f s) := by
  obtain ⟨before, after, rfl⟩ := List.append_of_mem ha
  have start : P (before.foldl f s) := List.foldlRecOn before f h fun t ht b hb => hP t b (List.mem_append_left _ hb) ht
  rw [List.foldl_append, List.foldl_cons]
  refine (List.foldlRecOn (motive := fun t => P t ∧ Q t) after f ⟨hP _ a ha start, hQ _ start⟩ fun t ht b hb => ?_).2
  have hb := List.mem_append_right before (List.mem_cons_of_mem a hb)
  refine ⟨hP t b hb ht.1, ?_⟩
  by_cases e : b = a
  · exact e ▸ hQ t ht.1
  · exact keep t b hb e ht.1 ht.2

theorem mem_linesOf {k n : Nat} (h1 : k ≤ key) (h2 : key < k + n) : key / 128 * 128 ∈ linesOf k n := by
  unfold linesOf
  rw [if_neg (by omega)]
  refine List.mem_map.2 ⟨key / 128 - k / 128, List.mem_range.2 (by omega), ?_⟩
  rw [Nat.add_sub_cancel' (by omega)]

/-- A line that has been purged is not in the RDC. -/
theorem Shows.purge_bare (h : Shows bare key v s) : Shows True key v (s.purge (key / 128 * 128)) := by
  obtain ⟨hm, hr, hd, hv, -⟩ := h.purge (line := key / 128 * 128)
  refine ⟨hm, hr, hd, hv, fun _ => ?_⟩
  show mfind ((((s.recallL1 _).sendHome _).mem.rdc).filter _) key = none
  rw [sendHome_rdc, mfind_filter_key (fun k => decide (k / 128 * 128 ≠ key / 128 * 128)) (h.recallL1 (line := key / 128 * 128)).2.1]
  simp

theorem Shows.purgeRange_bare {k n : Nat} (h1 : k ≤ key) (h2 : key < k + n) (h : Shows bare key v s) : Shows True key v (s.purgeRange k n) :=
  foldl_reaches (P := Shows bare key v) (mem_linesOf h1 h2) (fun _ _ _ ht => ht.purge) (fun _ ht => ht.purge_bare) (fun _ _ _ _ _ hq => hq.purge) h

/-- Before a write the RDC does not hold a byte of the piece, unless the piece is of cached memory of another die. -/
theorem Shows.reach_bare {l : Loc} {n nud : Nat} {r : Route} {rd wr whole : Bool} (hr : r ≠ .far) (h1 : l.key ≤ key) (h2 : key < l.key + n)
    (h : Shows (l.remote = false) key v s) : Shows (¬ (l.remote = true ∧ l.mt = 0)) key v (s.reach l n nud r rd wr whole) := by
  by_cases hmt : l.mt = 0
  · refine (h.reach id).mono fun hn => ?_
    simpa [hmt] using hn
  · refine Shows.mono (bare := True) ?_ fun _ => trivial
    unfold State.reach
    rw [if_neg hmt]
    cases r
    · exact h.purgeRange_bare h1 h2
    · exact h.purgeRange_bare h1 h2
    · exact absurd rfl hr

/-- The form of the RDC as an invariant of every step (R48, R51): its places rise, and each belongs to a line that it holds. -/
def rdcFormInvariant : Invariant where
  mem _ r l := mrising 0 r = true ∧ ∀ x ∈ r, rdcHas l (x.1 / 128 * 128)
  preempt _ := True
  cyc _ := True
  bytes _ h := h
  lines hl h := ⟨h.1, fun x hx => hl _ (h.2 x hx)⟩
  rdcFilter p h := ⟨mrising_filter p h.1, fun x hx => h.2 x (List.mem_of_mem_filter hx)⟩
  rdcMap f hf h := ⟨mrising_map hf h.1, fun x hx => by
    obtain ⟨y, hy, rfl⟩ := List.mem_map.1 hx
    rw [hf]
    exact h.2 y hy⟩
  rdcPut k v hk h := ⟨mrising_mset k v h.1, fun x hx => by
    rcases mem_mset hx with rfl | hx
    · exact hk
    · exact h.2 x hx⟩
  rdcDrop line h := ⟨h.1, fun x hx => by
    obtain ⟨y, hy, hlv, hline⟩ := rdcHas_iff.1 (h.2 x hx)
    have : x.1 / 128 * 128 ≠ line := by simpa using (List.mem_filter.1 hx).2
    exact rdcHas_iff.2 ⟨y, List.mem_filter.2 ⟨hy, by simp [hline, this]⟩, hlv, hline⟩⟩
  empty _ := ⟨rfl, by simp⟩
  preemptPut _ _ _ := trivial
  noPreempt := trivial
  time _ := trivial

theorem rdcFormInvariant_holds_iff : rdcFormInvariant.Holds s ↔ RdcForm s := by
  constructor
  · rintro ⟨⟨hr, hl⟩, -⟩
    exact ⟨hr, fun i b hb => hl (i, b) ((mfind_eq_some_iff hr).1 hb)⟩
  · rintro ⟨hr, hl⟩
    exact ⟨⟨hr, fun x hx => hl x.1 x.2 ((mfind_eq_some_iff hr).2 hx)⟩, trivial, trivial⟩

theorem Invariant.Holds.putLine {I : Invariant} {p : Piece} {bs : List Byte} {r : Route} {x : Option EngHart} {line : Nat}
    (hl : line ∈ linesOf p.loc.key p.len) (h : I.Holds s) : I.Holds (s.putLine p bs r x line) := by
  unfold State.putLine
  dsimp only
  split
  · next hc =>
    simp only [Bool.and_eq_true] at hc
    exact h.putRdc hc.2 (part_in_line hl bs _)
  · exact h.writeOver

theorem mfind_foldl_mset {α : Type} {m : SMap α} {f : Nat → α} {k n j : Nat} (hj : j < n) :
    mfind ((List.range n).foldl (fun m j => mset m (k + j) (some (f j))) m) (k + j) = some (f j) := by
  induction n with
  | zero => omega
  | succ n ih =>
    rw [List.range_succ, List.foldl_append, List.foldl_cons, List.foldl_nil]
    by_cases e : j = n
    · rw [e, mfind_mset_same]
    · rw [mfind_mset_other _ (by omega), ih (by omega)]

/-- A byte that a write at home stores, where the RDC does not hold it. -/
theorem Shows.writeHome_hit {k : Nat} {bs : List Byte} (h1 : k ≤ key) (h2 : key < k + bs.length) (hn : mfind s.mem.rdc key = none)
    (h : Shows bare key v s) : Shows bare key (bs.getD (key - k) 0) (s.writeHome k bs) := by
  obtain ⟨hm, hr, hd, -, hb⟩ := h
  refine ⟨writeHome_memOk k bs hm, hr, hd, ?_, hb⟩
  rw [newest_of_bare (s := s.writeHome k bs) hn, writeHome_byte k bs key hm, if_pos ⟨h1, h2⟩]

/-- A byte that is stored into the RDC. -/
theorem newest_putRdc {line k : Nat} {bs : List Byte} (h1 : k ≤ key) (h2 : key < k + bs.length) :
    newest (s.putRdc line k bs) key = bs.getD (key - k) 0 := by
  have hf : mfind (s.putRdc line k bs).mem.rdc (k + (key - k)) = some ⟨bs.getD (key - k) 0, true⟩ :=
    mfind_foldl_mset (f := fun j => RdcByte.mk (bs.getD j 0) true) (by omega)
  rw [Nat.add_sub_cancel' h1] at hf
  exact newest_of_dirty hf rfl

/-- The step of a write at the line of one of its bytes stores that byte. -/
theorem Shows.putLine_hit {p : Piece} {bs : List Byte} {r : Route} {x : Option EngHart} (hr : r ≠ .far) (h1 : p.loc.key ≤ key)
    (h2 : key < p.loc.key + p.len) (hn : bs.length = p.len) (hI : rdcFormInvariant.Holds s) (h : Shows (¬ (p.loc.remote = true ∧ p.loc.mt = 0)) key v s) :
    Shows (¬ (p.loc.remote = true ∧ p.loc.mt = 0)) key (bs.getD (key - p.loc.key) 0) (s.putLine p bs r x (key / 128 * 128)) := by
  have hI' := hI.putLine (bs := bs) (r := r) (x := x) (mem_linesOf h1 h2)
  unfold State.putLine at hI' ⊢
  dsimp only at hI' ⊢
  generalize hlo : max (key / 128 * 128) p.loc.key = lo at hI' ⊢
  generalize hpart : (bs.drop (lo - p.loc.key)).take (key / 128 * 128 + 128 - lo) = part at hI' ⊢
  have lo_le : lo ≤ key := by omega
  have lt_hi : key < lo + part.length := by
    rw [← hpart, List.length_take, List.length_drop]; omega
  have value : part.getD (key - lo) 0 = bs.getD (key - p.loc.key) 0 := by
    have : lo - p.loc.key + (key - lo) = key - p.loc.key := by omega
    rw [← hpart, List.getD_eq_getElem?_getD, List.getElem?_take_of_lt (by omega), List.getElem?_drop, this, List.getD_eq_getElem?_getD]
  split
  · next hc =>
    simp only [Bool.and_eq_true, decide_eq_true_eq] at hc
    rw [if_pos (by simpa using hc)] at hI'
    exact ⟨h.1, hI'.1.1, h.2.2.1, (newest_putRdc lo_le lt_hi).trans value, fun hb => absurd hc.1.1 hb⟩
  · next hc =>
    have bareHere : mfind s.mem.rdc key = none := by
      by_cases hb : p.loc.remote = true ∧ p.loc.mt = 0
      · refine Option.eq_none_iff_forall_ne_some.2 fun b hb' => hc ?_
        have := (rdcFormInvariant_holds_iff.1 hI).2 key b hb'
        simp [hb, hr, this]
      · exact h.2.2.2.2 hb
    obtain ⟨links, e⟩ := writeOver_memory h.2.2.1 (p.va + wd (lo - p.loc.key)) lo part x
    rw [e, ← value]
    exact Shows.writeHome_hit lo_le lt_hi bareHere (h.congr (by rfl))

/-- A write to memory stores its bytes (R51, R241). -/
theorem Shows.writePiece_hit {p : Piece} {bs : List Byte} {nud : Nat} {r : Route} {rmw : Bool} {x : Option EngHart} (hp : p.loc.what = .memory)
    (hr : r ≠ .far) (h1 : p.loc.key ≤ key) (h2 : key < p.loc.key + p.len) (hn : bs.length = p.len) (hI : rdcFormInvariant.Holds s)
    (h : Shows (p.loc.remote = false) key v s) :
    newest (s.writePiece p bs nud r rmw x) key = bs.getD (key - p.loc.key) 0 := by
  have start : Shows (p.loc.remote = false) key v (if p.loc.remote then s.otherEvictions else s) := h.otherMaybe
  have startForm : rdcFormInvariant.Holds (if p.loc.remote then s.otherEvictions else s) := hI.otherEvictions.ite hI
  rw [writePiece_memory hp]
  have done := foldl_reaches (f := fun s line => State.putLine s p bs r x line)
    (P := fun t => rdcFormInvariant.Holds t ∧ ∃ v, Shows (¬ (p.loc.remote = true ∧ p.loc.mt = 0)) key v t)
    (Q := Shows (¬ (p.loc.remote = true ∧ p.loc.mt = 0)) key (bs.getD (key - p.loc.key) 0)) (mem_linesOf h1 h2)
    (fun t line hl ⟨hI, v, ht⟩ => ⟨hI.putLine hl, by
      by_cases e : line = key / 128 * 128
      · exact ⟨_, e ▸ ht.putLine_hit hr h1 h2 hn hI⟩
      · exact ⟨v, ht.putLine (.inr ⟨hl, Ne.symm e⟩)⟩⟩)
    (fun t ⟨hI, v, ht⟩ => ht.putLine_hit hr h1 h2 hn hI)
    (fun t line hl e _ hq => hq.putLine (.inr ⟨hl, Ne.symm e⟩))
    ⟨startForm.reach (l := p.loc) (n := p.len) (nud := nud) (r := r) (rd := rmw) (wr := true) (whole := false), v, start.reach_bare hr h1 h2⟩
  exact done.2.2.2.1

/-! ### What the caches leave alone -/

/-- The registers, the register store, the other units and the place tables. -/
def State.beside (s : State) : Regs × SMap Cell × Mu × Opt × Eng × SMap Word × SMap Word × SMap Word :=
  (s.regs, s.core.store, s.mu, s.opt, s.eng, s.mem.clusterTab, s.mem.laneTab, s.mem.bankTab)

theorem leaveL1_beside (s : State) (v : Line) : (s.leaveL1 v).beside = s.beside := by
  obtain ⟨tables, hit, e⟩ := moveMasks_cases (s.dropLine .l1 v.line) v.line
  unfold State.leaveL1
  rw [e]
  dsimp only
  split <;> rfl

theorem recallL1_beside (s : State) (line : Nat) : (s.recallL1 line).beside = s.beside := by
  unfold State.recallL1
  split
  · exact leaveL1_beside _ _
  · rfl

theorem dropRdcLine_beside (s : State) (line : Nat) : (s.dropRdcLine line).beside = s.beside :=
  sendHome_keeps State.beside (fun _ _ _ => rfl) (fun _ _ _ _ _ => rfl) s line

/-! ### Walks (R21, R26) -/

theorem Shows.entryHome {w : Who} {k : Nat} (h : Shows bare key v s) : Shows bare key v (s.entryHome w k) := h.purge.ite h.recallRange

end

/-- t is s but for what the TLBs and the walk caches hold (R26). -/
def HoldsOther (s t : State) : Prop := ∃ tlb mu clusters walks,
  t = { s with core := { s.core with tlb := tlb, muTlb := mu }, mem := { s.mem with clusterTlb := clusters, walkCache := walks } }

section
variable {s t u : State} {w : Who} {k : Kind} {f : LeafFound}

theorem HoldsOther.trans (hs : HoldsOther s t) (ht : HoldsOther t u) : HoldsOther s u := by
  obtain ⟨_, _, _, _, rfl⟩ := hs
  obtain ⟨tlb, mu, clusters, walks, rfl⟩ := ht
  exact ⟨tlb, mu, clusters, walks, rfl⟩

theorem holdLeaf_holdsOther {walked : Bool} {e : TlbEntry} : HoldsOther s (s.holdLeaf w walked e) := by
  obtain ⟨asid, sup, noDev, via, own⟩ := w
  cases via <;> cases walked <;> exact ⟨_, _, _, _, rfl⟩

theorem holdPath_holdsOther {es : List WalkEntry} : HoldsOther s (s.holdPath w es) := ⟨s.core.tlb, s.core.muTlb, s.mem.clusterTlb, _, rfl⟩

/-- The leaf entry as a walk leaves it: AC set, and DT for a write (R21). -/
def LeafFound.noted (f : LeafFound) (k : Kind) : Word := f.leaf.pte ||| 0x40 ||| (if k.writes then 0x80 else 0)

/-- A leaf that a TLB held, or whose entry has its bits already, is noted without a write. -/
theorem noteLeaf_unwritten (h : f.walked = false ∨ f.noted k = f.leaf.pte) : HoldsOther s (s.noteLeaf w k f) := by
  unfold State.noteLeaf
  dsimp only
  split
  · exact holdLeaf_holdsOther
  · next hw =>
    have same : f.noted k = f.leaf.pte := h.resolve_left (by simpa using hw)
    unfold LeafFound.noted at same
    rw [if_pos same]
    exact holdPath_holdsOther.trans holdLeaf_holdsOther

/-- Another one's entry is written at its home. -/
theorem noteLeaf_written (hw : f.walked = true) (h : f.noted k ≠ f.leaf.pte) :
    HoldsOther ((s.entryHome w f.leaf.key).writeHome f.leaf.key (toBytes (f.noted k).toNat 8)) (s.noteLeaf w k f) := by
  unfold LeafFound.noted at *
  unfold State.noteLeaf
  dsimp only
  rw [hw, Bool.not_true, if_neg Bool.false_ne_true, if_neg h]
  exact holdPath_holdsOther.trans holdLeaf_holdsOther

/-- A computation that does not stop gives its value. -/
theorem Gives.self {ε α : Type} (m : Except ε α) : Gives (fun a => m = .ok a) m := by
  cases m <;> trivial

/-- What a translation that succeeds leaves: at an aperture the state as it was, elsewhere the leaf that it found noted. -/
def Translated (s : State) (w : Who) (k : Kind) (va : Word) (t : State) : Prop :=
  inAperture va = true ∧ t = s ∨ inAperture va = false ∧ ∃ f, s.leafOf w k va = .ok f ∧ t = s.noteLeaf w k f

theorem translate_translated {va : Word} : Gives (fun x => Translated s w k va x.2) (s.translate w k va) := by
  unfold State.translate
  dsimp only
  split
  · trivial
  · split
    · trivial
    · split
      · next ha => exact (Gives.any _).map fun _ _ => .inl ⟨ha, rfl⟩
      · next ha =>
        refine (Gives.self _).bind fun f hf => ?_
        have noted : Translated s w k va (s.noteLeaf w k f) := .inr ⟨by simpa using ha, f, hf, rfl⟩
        split
        · trivial
        · refine (Gives.any _).bind fun p _ => ?_
          split
          · exact noted
          · trivial
          · trivial
          · exact noted

theorem Translated.aperture {va : Word} (h : Translated s w k va t) (ha : inAperture va = true) : t = s := by
  rcases h with ⟨-, ht⟩ | ⟨ha', -⟩
  · exact ht
  · rw [ha] at ha'; cases ha'

theorem Translated.leaf {va : Word} (h : Translated s w k va t) (ha : inAperture va = false) (hf : s.leafOf w k va = .ok f) :
    t = s.noteLeaf w k f := by
  rcases h with ⟨ha', -⟩ | ⟨-, f', hf', ht⟩
  · rw [ha] at ha'; cases ha'
  · rw [hf] at hf'; cases hf'; exact ht

theorem HoldsOther.beside (h : HoldsOther s t) : t.beside = s.beside := by
  obtain ⟨_, _, _, _, rfl⟩ := h
  rfl

theorem HoldsOther.memory (h : HoldsOther s t) : t.mem.bytes = s.mem.bytes ∧ t.mem.rdc = s.mem.rdc := by
  obtain ⟨_, _, _, _, rfl⟩ := h
  exact ⟨rfl, rfl⟩

theorem Shows.other {bare : Prop} {key : Nat} {v : Byte} (h : Shows bare key v s) (ht : HoldsOther s t) : Shows bare key v t := by
  obtain ⟨_, _, _, _, rfl⟩ := ht
  exact h.congr (by rfl)

theorem entryHome_beside (s : State) (w : Who) (key : Nat) : (s.entryHome w key).beside = s.beside := by
  unfold State.entryHome State.recallRange
  split
  · exact (dropRdcLine_beside _ _).trans (recallL1_beside _ _)
  · split
    · rfl
    · exact foldl_keeps _ State.beside recallL1_beside _ s

theorem noteLeaf_beside (s : State) (w : Who) (k : Kind) (f : LeafFound) : (s.noteLeaf w k f).beside = s.beside := by
  by_cases h : f.walked = false ∨ f.noted k = f.leaf.pte
  · exact (noteLeaf_unwritten h).beside
  · rw [not_or, Bool.not_eq_false] at h
    exact (noteLeaf_written h.1 h.2).beside.trans (entryHome_beside s w f.leaf.key)

theorem Translated.beside {va : Word} (h : Translated s w k va t) : t.beside = s.beside := by
  rcases h with ⟨-, rfl⟩ | ⟨-, f, -, rfl⟩
  · rfl
  · exact noteLeaf_beside s w k f

theorem length_toBytes (n size : Nat) : (toBytes n size).length = size := by simp [toBytes]

/-- The entry stands at its home as it was noted. -/
theorem noteLeaf_entry {j : Nat} (hm : s.MemOk) (hw : f.walked = true) (h : f.noted k ≠ f.leaf.pte) (h1 : f.leaf.key ≤ j) (h2 : j < f.leaf.key + 8) :
    (s.noteLeaf w k f).byte j = (toBytes (f.noted k).toNat 8).getD (j - f.leaf.key) 0 := by
  unfold State.byte
  rw [(noteLeaf_written hw h).memory.1]
  exact (writeHome_byte _ _ j (entryHome_memOk w _ hm)).trans (if_pos ⟨h1, by rwa [length_toBytes]⟩)

/-- No other byte changes. -/
theorem Shows.noteLeaf {bare : Prop} {key : Nat} {v : Byte} (hs : Shows bare key v s) (hw : f.walked = true) (h : f.noted k ≠ f.leaf.pte)
    (hk : key < f.leaf.key ∨ f.leaf.key + 8 ≤ key) : Shows bare key v (s.noteLeaf w k f) :=
  (hs.entryHome.writeHome (by rw [length_toBytes]; omega)).other (noteLeaf_written hw h)

end

end Sys2Proof.Machine

open Sys2Proof Sys2Proof.Machine

/-- Settles O56: at each key, what a byte shows is kept by every change of the caches, since a line that leaves the RDC leaves its dirty bytes at their homes;
a write stores into the RDC only where that holds the line, and a walk writes only the entry that it found. -/
theorem memoryFrames : Obligations.MemoryFrames := by
  unfold Obligations.MemoryFrames
  refine ⟨fun s t ps nud r whole bs l hm hr hd e key => ?_, fun s ps bs nud r key hm hr hd hk => ?_, fun s p bs nud j r hm hf hd hp hn hr hb hj => ?_,
    fun s t w k va l hm hr hd e => ?_⟩
  · have read := Shows.readPieces (nud := nud) (r := r) (whole := whole) (ps := ps) (⟨hm, hr, hd, rfl, False.elim⟩ : Shows False key (newest s key) s)
    rw [e] at read
    exact read.2.2.2.1
  · exact (Shows.writePieces (⟨hm, hr, hd, rfl, False.elim⟩ : Shows False key (newest s key) s) hk).2.2.2.1
  · have bare : p.loc.remote = false → mfind s.mem.rdc (p.loc.key + j) = none := fun h => by
      rcases hb with hb | hb
      · rw [h] at hb; cases hb
      · exact hb _
    have stored := Shows.writePiece_hit (nud := nud) (rmw := false) (x := none) hp hr (Nat.le_add_right p.loc.key j) (Nat.add_lt_add_left hj _) hn
      (rdcFormInvariant_holds_iff.2 hf) ⟨hm, hf.1, hd, rfl, bare⟩
    rwa [Nat.add_sub_cancel_left] at stored
  · have translated := translate_translated.ok e
    have beside := translated.beside
    simp only [State.beside, Prod.mk.injEq] at beside
    obtain ⟨hregs, hstore, hmu, hopt, heng, -⟩ := beside
    refine ⟨hregs, hstore, hmu, hopt, heng, translated.aperture, fun f e' ha hf he => ?_⟩
    obtain rfl : t = s.noteLeaf w k f := translated.leaf ha hf
    obtain rfl : e' = f.noted k := he
    exact ⟨fun h => (noteLeaf_unwritten h).memory, fun hw h j => ⟨noteLeaf_entry hm hw h, fun hj =>
      (Shows.noteLeaf (⟨hm, hr, hd, rfl, False.elim⟩ : Shows False j (newest s j) s) hw h hj).2.2.2.1⟩⟩
end

section
/-! PROOF. The writes of LSFA and PLSYNC, and CENSUS (R47, R52, R334). -/
namespace Sys2Proof.Machine

/-! ### A change of the place tables (R47, R68, R69) -/

theorem uncover_beside (s : State) (line gone : Nat) : (s.uncover line gone).beside = s.beside :=
  foldl_keeps State.loseUnit State.beside (fun _ _ => rfl) _ _

theorem receive_beside (s : State) (v : Line) (dirty : Nat) : (s.receive v dirty).beside = s.beside := by
  unfold State.receive
  dsimp only
  split <;> rfl

/-- An eviction leaves the registers and the place tables alone. -/
theorem evict_beside (s : State) (v : Line) : (s.evict v).beside = s.beside := by
  unfold State.evict
  dsimp only
  generalize hu : (if v.dueE s.unitTime = true then State.updLine _ v.lv v.line _ else _) = u
  have first : u.beside = s.beside := by
    rw [← hu]
    split <;> rfl
  rw [← first]
  split
  · exact leaveL1_beside u v
  · exact uncover_beside _ _ _
  · generalize hw : (if u.isRemote v.line then u else u.recallL1 v.line) = w
    have second : w.beside = u.beside := by
      rw [← hw]
      split
      · rfl
      · exact recallL1_beside _ _
    rw [← second]
    split
    · refine (uncover_beside _ _ _).trans ?_
      split
      · rfl
      · exact receive_beside _ _ _
    · rfl
  · exact (dropRdcLine_beside _ _).trans (recallL1_beside _ _)

/-- PLSYNC puts the tables and way masks in force that hypervisor memory holds (R47, R69). -/
theorem placeSync_tables (s : State) : s.placeSync.mem.clusterTab = s.mem.clusterNew ∧ s.placeSync.mem.laneTab = s.mem.laneNew
    ∧ s.placeSync.mem.bankTab = s.mem.bankNew ∧ s.placeSync.regs.cpways = s.mem.waysNew := by
  let start : State := { s with
    regs := { s.regs with cpways := s.mem.waysNew }
    mem := { s.mem with clusterTab := s.mem.clusterNew, laneTab := s.mem.laneNew, bankTab := s.mem.bankNew } }
  have reshape (t : State) : t.reshape.beside = t.beside := by
    unfold State.reshape
    dsimp only
    split <;> rfl
  have kept : s.placeSync.beside = start.beside := by
    refine Eq.trans ?_ ((reshape _).trans (foldl_keeps State.evict State.beside evict_beside (start.mem.lines.filter fun l => !start.mayFill l.lv l.way) start))
    unfold State.placeSync
    dsimp only
    generalize List.foldl _ _ (List.range 256) = vds
    rfl
  simp only [State.beside, Prod.mk.injEq] at kept
  obtain ⟨hregs, -, -, -, -, hcluster, hlane, hbank⟩ := kept
  exact ⟨hcluster, hlane, hbank, congrArg Regs.cpways hregs⟩

/-! ### LSFA and PLSYNC -/

section
variable {g : Guard} {a : Name} {s u v : State} {x : Word}

theorem exec_lsfa (g : Guard) (a : Name) (s : State) : exec (.lsfa g a) s = execLsfa g a s := rfl

theorem exec_plsync (g : Guard) (a : Name) (s : State) : exec (.plsync g a) s = execPlsync g a s := rfl

/-- An area that ends beyond the local store does not fit (R52). -/
theorem areaOk_beyond {other : Word} (h : 128 < bits x 7 0 + bits x 23 16) : areaOk x other = false := by
  have : ¬ 4096 * (bits x 7 0 + bits x 23 16) ≤ 4096 * 128 := by omega
  simp only [areaOk, areaOf, this, decide_false, Bool.false_and]

theorem lsfa_beyond (he : Enters s (.lsfa g a) g u) (hm : u.mode = 2) (hr : u.ready (s.ctx (.lsfa g a)) [.src a false])
    (ht : u.take a = (x, v)) (h : 128 < bits x 7 0 + bits x 23 16) : Completes s (.lsfa g a) v := by
  refine completes_run (exec_lsfa g a s) he ?_
  dsimp only
  rw [prepare_own hr (mtsChecks_sup hm rfl), ok_bind, ht]
  dsimp only
  rw [areaOk_beyond h]
  rfl

theorem lsfa_fits (he : Enters s (.lsfa g a) g u) (hm : u.mode = 2) (hr : u.ready (s.ctx (.lsfa g a)) [.src a false])
    (ht : u.take a = (x, v)) (hok : areaOk x v.regs.pka = true)
    (hpins : ∀ p ∈ v.sched.pins, 4096 * bits x 7 0 ≤ p.off ∧ p.off + p.len ≤ 4096 * (bits x 7 0 + bits x 23 16)) :
    Completes s (.lsfa g a) { v with regs := { v.regs with lsfa := keep x [(23, 16), (7, 0)] } } := by
  have clear : (v.sched.pins.any fun p => decide (p.off < (areaOf x).1) || decide ((areaOf x).2 < p.off + p.len)) = false := by
    refine List.any_eq_false.2 fun p hp => ?_
    obtain ⟨h1, h2⟩ := hpins p hp
    rw [Bool.or_eq_true, decide_eq_true_eq, decide_eq_true_eq]
    exact not_or.2 ⟨Nat.not_lt.2 h1, Nat.not_lt.2 h2⟩
  refine completes_run (exec_lsfa g a s) he ?_
  dsimp only
  rw [prepare_own hr (mtsChecks_sup hm rfl), ok_bind, ht]
  dsimp only
  rw [hok, Bool.not_true, if_neg Bool.false_ne_true, if_neg (by rw [clear]; exact Bool.false_ne_true)]
  rfl

theorem plsync_clear (he : Enters s (.plsync g a) g u) (hm : u.mode = 2) (hr : u.ready (s.ctx (.plsync g a)) [.src a false])
    (ht : u.take a = (x, v)) (h : bit x 0 = false) : Completes s (.plsync g a) v := by
  refine completes_run (exec_plsync g a s) he ?_
  dsimp only
  rw [prepare_own hr (mtsChecks_sup hm rfl), ok_bind, ht]
  dsimp only
  rw [h]
  rfl

theorem plsync_quiet (he : Enters s (.plsync g a) g u) (hm : u.mode = 2) (hr : u.ready (s.ctx (.plsync g a)) [.src a false])
    (ht : u.take a = (x, v)) (h : bit x 0 = true) (hq : v.placeQuiet = true) : Completes s (.plsync g a) v.placeSync := by
  refine completes_run (exec_plsync g a s) he ?_
  dsimp only
  rw [prepare_own hr (mtsChecks_sup hm rfl), ok_bind, ht]
  dsimp only
  rw [h, hq]
  rfl

theorem areaAndPlaceWrites_hold : areaAndPlaceWrites :=
  ⟨fun _ _ _ _ _ _ he hm hr ht h => lsfa_beyond he hm hr ht h, fun _ _ _ _ _ _ he hm hr ht hok hpins => lsfa_fits he hm hr ht hok hpins,
    fun _ _ _ _ _ _ he hm hr ht h => plsync_clear he hm hr ht h, fun _ _ _ _ v _ he hm hr ht h hq =>
      ⟨v.placeSync, plsync_quiet he hm hr ht h hq, placeSync_tables v⟩⟩

end

/-! ### CENSUS -/

section
variable {g : Guard} {x : CensusArgs} {s u v w : State} {va : Word} {c : Ctx} {k : Kind}

/-- Writing a word leaves the scheduler's data, of which the census is part. -/
theorem put_sched (s : State) (n : Name) (v : Word) : (s.put n v).sched = s.sched := by
  cases n <;> rfl

theorem exec_censusStore (g : Guard) (x : CensusArgs) (s : State) : exec (.censusStore g x) s = execCensusStore g x s := rfl

theorem exec_censusCompare (g : Guard) (x : CensusArgs) (s : State) : exec (.censusCompare g x) s = execCensusCompare g x s := rfl

theorem exec_censusClear (g : Guard) (x : CensusArgs) (s : State) : exec (.censusClear g x) s = execCensusClear g x s := rfl

theorem censusArea_ok (ho : u.opt? = true → 2 ≤ u.mode) (hr : u.ready c [.src x.a false, .dst x.d]) (ht : u.take x.a = (va, v))
    (ha : 64 ∣ va.toNat) : u.censusArea x k c = .ok (va, v) := by
  unfold State.censusArea
  rw [prepare_own hr (noOpt_ok ho), ok_bind, ht]
  dsimp only
  rw [aligned_ok ha, ok_bind]

theorem censusArea_misaligned (ho : u.opt? = true → 2 ≤ u.mode) (hr : u.ready c [.src x.a false, .dst x.d]) (ht : u.take x.a = (va, v))
    (ha : ¬ 64 ∣ va.toNat) : u.censusArea x k c = .error (.trap cALIGN (memInfo k.code 3 2 va)) := by
  unfold State.censusArea
  rw [prepare_own hr (noOpt_ok ho), ok_bind, ht]
  dsimp only
  rw [aligned_err ha]
  rfl

theorem censusStore_completes (he : Enters s (.censusStore g x) g u) (ho : u.opt? = true → 2 ≤ u.mode)
    (hr : u.ready (s.ctx (.censusStore g x)) [.src x.a false, .dst x.d]) (ht : u.take x.a = (va, v)) (ha : 64 ∣ va.toNat)
    (hc : censusReach v .write va) (hd : v.accepts x.d)
    (hw : (v.put x.d (wd v.sched.census.length)).censusWrite va v.censusImage censusChunks = .ok w) : Completes s (.censusStore g x) w := by
  have image : (v.put x.d (wd v.sched.census.length)).censusImage = v.censusImage := by
    unfold State.censusImage
    rw [put_sched]
  refine completes_run (exec_censusStore g x s) he ?_
  dsimp only
  rw [censusArea_ok ho hr ht ha, ok_bind]
  dsimp only
  rw [show v.censusCheck .write va censusChunks = .ok () from hc, ok_bind, write_put hd, ok_bind, image, hw]

/-- How a comparison ends: with no site, or with the lowest one, which CENSDIFF keeps unless one stands there (R418). -/
def State.censusFound (s : State) (d : Name) (bs : List Byte) : Res State :=
  match lowestDiff s.sched.census (sitesOf 4096 bs) with
  | none => s.write d (wd (2 ^ 64 - 1))
  | some a => State.write (if bit s.sched.censdiff 63 then s else { s with sched := { s.sched with censdiff := wd (fld 1 63 + a) } }) d (wd a)

theorem censusCompare_completes {bs : List Byte} {t : State} (he : Enters s (.censusCompare g x) g u) (ho : u.opt? = true → 2 ≤ u.mode)
    (hr : u.ready (s.ctx (.censusCompare g x)) [.src x.a false, .dst x.d]) (ht : u.take x.a = (va, v)) (ha : 64 ∣ va.toNat)
    (hc : censusReach v .read va) (hw : v.censusRead va censusChunks = .ok (bs, w)) (hend : w.censusFound x.d bs = .ok t) :
    Completes s (.censusCompare g x) t := by
  refine completes_run (exec_censusCompare g x s) he ?_
  dsimp only
  rw [censusArea_ok ho hr ht ha, ok_bind]
  dsimp only
  rw [show v.censusCheck .read va censusChunks = .ok () from hc, ok_bind, hw, ok_bind]
  exact hend

theorem censusFound_none {bs : List Byte} {d : Name} (hd : w.accepts d) (h : lowestDiff w.sched.census (sitesOf 4096 bs) = none) :
    w.censusFound d bs = .ok (w.put d 0xFFFFFFFFFFFFFFFF) := by
  unfold State.censusFound
  rw [h]
  exact write_put hd

theorem censusFound_some {bs : List Byte} {d : Name} {a : Nat} (hd : w.accepts d) (h : lowestDiff w.sched.census (sitesOf 4096 bs) = some a) :
    w.censusFound d bs = .ok (({ w with sched := { w.sched with
      censdiff := if bit w.sched.censdiff 63 then w.sched.censdiff else wd (2 ^ 63 + a) } } : State).put d (wd a)) := by
  unfold State.censusFound
  rw [h]
  dsimp only
  split
  · exact write_put hd
  · refine write_put ?_
    cases d <;> exact hd

theorem censusClear_completes (he : Enters s (.censusClear g x) g u) (ho : u.opt? = true → 2 ≤ u.mode)
    (hr : u.ready (s.ctx (.censusClear g x)) [.src x.a false, .dst x.d]) (ht : u.take x.a = (va, v)) (ha : 64 ∣ va.toNat) (hd : v.accepts x.d) :
    Completes s (.censusClear g x) (({ v with sched := { v.sched with census := [], censovf := 0 } } : State).put x.d 0) := by
  refine completes_run (exec_censusClear g x s) he ?_
  dsimp only
  rw [censusArea_ok ho hr ht ha, ok_bind]
  refine write_put ?_
  cases hn : x.d <;> rw [hn] at hd <;> exact hd

/-- An address that is not a multiple of 64 raises ALIGN, whatever the kind (R240, R334). -/
theorem census_misaligned {i : Guard → CensusArgs → Instr} (hi : i ∈ [(Instr.censusStore : Guard → CensusArgs → Instr), .censusCompare, .censusClear])
    (he : Enters s (i g x) g u) (ho : u.opt? = true → 2 ≤ u.mode) (hr : u.ready (s.ctx (i g x)) [.src x.a false, .dst x.d])
    (ht : u.take x.a = (va, v)) (ha : ¬ 64 ∣ va.toNat) : ∃ info, Raises s (i g x) cALIGN info := by
  simp only [List.mem_cons, List.not_mem_nil, or_false] at hi
  rcases hi with rfl | rfl | rfl
  · exact ⟨_, raises_run (exec_censusStore g x s) he (by dsimp only; rw [censusArea_misaligned ho hr ht ha]; rfl)⟩
  · exact ⟨_, raises_run (exec_censusCompare g x s) he (by dsimp only; rw [censusArea_misaligned ho hr ht ha]; rfl)⟩
  · exact ⟨_, raises_run (exec_censusClear g x s) he (by dsimp only; rw [censusArea_misaligned ho hr ht ha]; rfl)⟩

theorem censusInstructions_hold : censusInstructions :=
  ⟨fun _ _ _ _ _ _ _ he ho hr ht ha hc hd hw => censusStore_completes he ho hr ht ha hc hd hw,
    fun _ _ _ _ _ _ _ _ he ho hr ht ha hc hw hd =>
      ⟨fun h => censusCompare_completes he ho hr ht ha hc hw (censusFound_none hd h),
        fun _ h => censusCompare_completes he ho hr ht ha hc hw (censusFound_some hd h)⟩,
    fun _ _ _ _ _ _ he ho hr ht ha hd => censusClear_completes he ho hr ht ha hd,
    fun _ hi _ _ _ _ _ _ he ho hr ht ha => census_misaligned hi he ho hr ht ha⟩

end

end Sys2Proof.Machine

/-- Settles O11: each form runs its body on its ready operands; what PLSYNC evicts to put the new way masks in force leaves the tables alone. -/
theorem areasPlacesAndCensus : Obligations.AreasPlacesAndCensus :=
  ⟨Sys2Proof.Machine.areaAndPlaceWrites_hold, Sys2Proof.Machine.censusInstructions_hold⟩
end

section
/-! PROOF. A landing in a register store that is not in canonical form. -/
namespace Sys2Proof.Machine

/-- Time passing leaves the register store. -/
theorem tick_store (s : State) : s.tick.core.store = s.core.store := by
  unfold State.tick
  dsimp only
  split
  · split <;> split <;> rfl
  · split <;> split <;> rfl

/-- A core whose store lists word 0 twice, as full and behind it as a token not yet read; the value 0 is on its way to that word, and an
instruction waits to read it. -/
def doubled : State := { core := {
  store := [(0, .full 1), (0, .token 5 2)], binds := [{ id := 0, words := [0], vals := some [some 0] }], wait := some { on := .word 0, since := 0 } } }

/-- The value 0 takes the first entry out, the waiting instruction finds the token behind it, and reads it (R95). -/
theorem doubled_lands : (doubled.land { id := 0, words := [0], vals := some [some 0] }).core.store = [(0, .full 5)] := by decide

theorem doubled_setCell : (doubled.setCell 0 (.full 0)).core.store = [(0, .token 5 2)] := by decide

end Sys2Proof.Machine

open Sys2Proof Sys2Proof.Machine

/-- Refutes O31: its clause on a landing binding names no canonical form of the register store. Where the store lists a word twice, writing 0 to the
word takes out the first entry alone and shows the second, which an instruction that waits on the word then reads: a token, whose reading changes it
and is an acquire (R95), so that the word does not stay as the landing wrote it. -/
theorem not_coreEvents : ¬ Obligations.CoreEvents := by
  unfold Obligations.CoreEvents
  rintro ⟨-, landing, -⟩
  have claimed := landing doubled 0 0 { id := 0, words := [0], vals := some [some 0] } (some 0) rfl rfl rfl rfl rfl
  have landed : exec (.bindingLand 0) doubled = .next (doubled.land { id := 0, words := [0], vals := some [some 0] }).tick := rfl
  have stores := congrArg (fun t => t.core.store) (Host.Outcome.next.inj (landed.symm.trans claimed))
  rw [tick_store, doubled_lands, tick_store] at stores
  exact absurd (stores.trans doubled_setCell) (by decide)
end

section
/-! PROOF. The form of the RDC is one of the invariants that every step keeps (R48, R51). -/
open Sys2Proof Sys2Proof.Machine

/-- Settles O50: the form of the RDC is an `Invariant`, of the lines held and of the RDC's bytes, and every step keeps an `Invariant`. -/
theorem rdcFormKept : Obligations.RdcFormKept := by
  unfold Obligations.RdcFormKept
  intro s t hs e
  have kept := (rdcFormInvariant_holds_iff.2 hs).step
  exact rdcFormInvariant_holds_iff.1 (kept t e)
end

section
/-! PROOF. The events of the copy engine and of the gather engines (R71 to R73, R127, R255 to R258). -/
namespace Sys2Proof.Machine

/-! ### What an engine finds at its release (R127, R136) -/

section
variable {s t : State} {agent : Agent} {id width : Nat}

/-- `ok_bind` for a computation that stops otherwise than an instruction. -/
theorem value_bind {ε α β : Type} (a : α) (f : α → Except ε β) : (Except.ok a >>= f) = f a := rfl

theorem tryEng_ok {α : Type} (a : α) (kind : Nat) : tryEng (.ok a) kind = .ok (.ok a) := rfl

theorem countCause_other {c : Nat} (h : c ≠ cMEMLOST) : s.countCause c = s := if_neg h

theorem releaseAt_eq (width : Nat) (s : State) : (if 3 ≤ width then s.writeBack else s) = releaseAt width s := rfl

/-- A release neither loses a write of an engine nor moves the engine. -/
theorem noneLost_releaseAt (h : ∀ w ∈ s.eng.lostWrites, w.1 ≠ s.engHart agent id) :
    ∀ w ∈ (releaseAt width s).eng.lostWrites, w.1 ≠ (releaseAt width s).engHart agent id := by
  unfold releaseAt
  split
  · simpa [State.engHart, State.engCluster] using h
  · exact h

/-- An engine none of whose writes a link took finds nothing to report. -/
theorem linkStatus_noneLost (st : Nat) (h : ∀ w ∈ s.eng.lostWrites, w.1 ≠ s.engHart agent id) :
    s.linkStatus agent id width st = (st, linkDone s agent id width) := by
  have found : s.eng.lostWrites.find? (fun x => x.1 = s.engHart agent id) = none := List.find?_eq_none.2 fun w hw => by simpa using h w hw
  have kept : s.eng.lostWrites.filter (fun x => x.1 ≠ s.engHart agent id) = s.eng.lostWrites :=
    List.filter_eq_self.2 fun w hw => by simpa using h w hw
  unfold State.linkStatus State.engRelease linkDone
  by_cases hw : width = 4
  · rw [if_neg (not_not.2 hw), if_pos hw, found, kept]
    simp
  · rw [if_pos hw, if_neg hw]
    simp

end

/-! ### ACOPY (R127, R257) -/

section
variable {s t : State} {a : Acopy}

theorem exec_acopyAccept (s : State) : exec .acopyAccept s = execAcopyAccept s := rfl

theorem exec_acopyComplete (s : State) : exec .acopyComplete s = execAcopyComplete s := rfl

theorem copyWho_eq (s : State) (a : Acopy) : engineWho a.asid a.sup (.cluster (clusterOf s.core.number)) = copyWho s a := rfl

theorem engPut_ok {id nud : Nat} {w : Who} {dst : Word} {bs : List Byte} (h : s.engineWrite .ce id w dst bs nud = .ok t) :
    s.engPut id w dst bs nud = .ok (bs.length, 0, t) := by
  unfold State.engPut
  rw [h, tryEng_ok]
  rfl

theorem engBar_none (s : State) (id : Nat) (w : Who) (n width : Nat) : s.engBar id w 0 n width = .ok (0, s) := rfl

/-- The promise is the cycle of acceptance and a free delay, or the last cycle there is. -/
theorem acceptAcopy_read {bs : List Byte} (hn : a.len ≠ 0)
    (hr : (s.selfInvalidate.addOther (party s .ce a.id)).engineRead .ce a.id (copyWho s a) a.src a.len a.nud = .ok (bs, t)) :
    ∃ p : Word, s.cyc % 2 ^ 64 ≤ p.toNat ∧
      s.acceptAcopy a = .ok ((t.fillToken a.id [p]).updAcopy { a with accepted := true, data := bs }) := by
  refine ⟨wd (min (2 ^ 64 - 1) (s.cyc % 2 ^ 64 + Config.promise s.ticks)), ?_, ?_⟩
  · rw [wd, BitVec.toNat_ofNat]
    omega
  · unfold State.acceptAcopy
    rw [if_neg hn]
    change (tryEng ((s.selfInvalidate.addOther (party s .ce a.id)).engineRead .ce a.id (copyWho s a) a.src a.len a.nud) 0 >>= _) = _
    rw [hr]
    rfl

theorem finishAcopy_written (hf : a.fault = none) (hb : a.bar = 0) (hw : s.engineWrite .ce a.id (copyWho s a) a.dst a.data a.nud = .ok t)
    (hl : ∀ w ∈ t.eng.lostWrites, w.1 ≠ t.engHart .ce a.id) :
    s.finishAcopy a = .ok (endAcopy (((linkDone (releaseAt (s.scopeWidth a.scope) t) .ce a.id (s.scopeWidth a.scope)).endCommand .ce
      a.id).fillToken (a.id + 1) [wd (fld a.data.length 39)]) a.id) := by
  unfold State.finishAcopy
  simp only [hf, hb, copyWho_eq, engPut_ok hw, value_bind, releaseAt_eq, linkStatus_noneLost _ (noneLost_releaseAt hl), if_true, engBar_none]
  rfl

/-- A fault at acceptance, which wrote nothing, is all that T + 1 tells. -/
theorem finishAcopy_faulted {st : Word} (hf : a.fault = some st) (hc : bits st 31 24 ≠ cMEMLOST) (h0 : st ≠ 0)
    (hl : ∀ w ∈ s.eng.lostWrites, w.1 ≠ s.engHart .ce a.id) :
    s.finishAcopy a = .ok (endAcopy (((linkDone (releaseAt (s.scopeWidth a.scope) s) .ce a.id (s.scopeWidth a.scope)).endCommand .ce
      a.id).fillToken (a.id + 1) [st]) a.id) := by
  have nonzero : st.toNat ≠ 0 := fun h => h0 (BitVec.eq_of_toNat_eq h)
  have token : wd (fld 0 39 + st.toNat) = st := by simp [wd, fld]
  have cause : st.toNat / 2 ^ 24 % 256 ≠ cMEMLOST := by simpa [bits, Nat.shiftRight_eq_div_pow] using hc
  unfold State.finishAcopy
  simp only [hf, value_bind, releaseAt_eq, linkStatus_noneLost _ (noneLost_releaseAt hl), if_neg nonzero, token, countCause_other cause]
  rfl

end

/-! ### GATHER and SCATTER (R71, R72, R258) -/

section
variable {s t : State} {g : Gather}

theorem exec_gatherEngineServe (s : State) : exec .gatherEngineServe s = execGatherEngineServe s := rfl

theorem exec_gatherTokenFill (s : State) : exec .gatherTokenFill s = execGatherTokenFill s := rfl

theorem party_eq (s : State) (agent : Agent) (id : Nat) :
    ({ id := id, agent := agent, device := s.regs.devnum, core := s.core.number, own := true } : Other) = party s agent id := rfl

/-- A command of one lane is served with it. -/
theorem serveLanes_one {l : Lane} (hl : g.lanes = [l]) (hf : l.fault = none) (hn : g.next = 0) (hs : s.serveLane g 0 l = .ok t) :
    s.serveLanes g g.next (g.lanes.drop g.next) = ({ g with mask := g.mask ||| 1, served := true }, t) := by
  have lanes : g.lanes.drop g.next = [l] := by rw [hn, hl]; rfl
  have place : 2 ^ g.next = 1 := by rw [hn]; rfl
  rw [← hn] at hs
  simp only [lanes, State.serveLanes, hf, hs, Gather.note, place]

/-- KIND names the command where no lane has faulted (R72). -/
theorem statusWord_eq (g : Gather) : g.statusWord = wd (if g.status = 0 then (if g.scatter then 2 ^ 18 else 0) else g.status) := by
  unfold Gather.statusWord
  cases g.scatter <;> rfl

end

end Sys2Proof.Machine

open Sys2Proof Sys2Proof.Machine

/-- Settles O34: each event serves the oldest command of its kind, and what it does there is one lemma for each way it ends; a release on the way
loses no write of an engine, so that the engine's link has nothing to report (R136). -/
theorem copyEngineEvents : Obligations.CopyEngineEvents := by
  unfold Obligations.CopyEngineEvents Becomes
  refine ⟨fun s t a bs ha hn hr => ?_, fun s t a ha hf hb hw hl => ?_, fun s a st ha hf hc h0 hl => ?_, fun s y g l hg hl hf hn hs => ?_,
    fun s t g st hg hc hl hst ht => ?_⟩
  · obtain ⟨p, hp, accepted⟩ := acceptAcopy_read hn hr
    refine ⟨p, hp, ?_⟩
    rw [exec_acopyAccept, execAcopyAccept, ha]
    dsimp only
    rw [accepted]
    rfl
  · rw [exec_acopyComplete, execAcopyComplete, ha]
    dsimp only
    rw [finishAcopy_written hf hb hw hl]
    rfl
  · rw [exec_acopyComplete, execAcopyComplete, ha]
    dsimp only
    rw [finishAcopy_faulted hf hc h0 hl]
    rfl
  · rw [exec_gatherEngineServe, execGatherEngineServe, hg]
    dsimp only
    rw [if_pos hn, party_eq, serveLanes_one hl hf hn hs]
    rfl
  · rw [exec_gatherTokenFill, execGatherTokenFill, hg]
    simp only [linkStatus_noneLost _ hl, countCause_other hc, statusWord_eq, ht, hst]
    rfl
end

section
/-! PROOF. PREF, FLUSH and FENCE (R110, R112, R247, R252). -/
namespace Sys2Proof.Machine

/-! ### Which lines stand at which level (R48, R58) -/

/-- Level, line and class tag of a line: what neither dirty bytes going home nor bytes being dropped change. -/
def Line.tag (l : Line) : Lv × Nat × Nat := (l.lv, l.line, l.cls)

/-- The tags of all lines, in the order in which a level looks its lines up. -/
def State.tags (s : State) : List (Lv × Nat × Nat) := s.mem.lines.map Line.tag

section
variable {s t : State} {line : Nat}

theorem mem_tags {l : Line} (h : l ∈ s.mem.lines) : l.tag ∈ s.tags := List.mem_map_of_mem h

theorem lineAt_tag (s : State) (lv : Lv) (line : Nat) :
    (s.lineAt lv line).map Line.tag = s.tags.find? fun x => x.1 = lv && x.2.1 = line := by
  unfold State.tags State.lineAt
  rw [List.find?_map]
  rfl

theorem lineAt_eq_none {lv : Lv} (h : ∀ l ∈ s.mem.lines, l.lv = lv → l.line ≠ line) : s.lineAt lv line = none :=
  List.find?_eq_none.2 fun l hl => by simpa using h l hl

/-- Whose line of the RDC it is, its tag tells (R113, R114). -/
theorem rdcMine_tag (s : State) (line : Nat) :
    s.rdcMine line = (((s.lineAt .rdc line).map Line.tag).map fun x => decide (x.2.2 / 8 = s.regs.partid)).getD true := by
  unfold State.rdcMine
  cases s.lineAt .rdc line <;> rfl

theorem rdcMine_of_tags (ht : t.tags = s.tags) (hr : t.regs = s.regs) : t.rdcMine = s.rdcMine := by
  funext line
  rw [rdcMine_tag, rdcMine_tag, lineAt_tag, lineAt_tag, ht, hr]

/-- A change of the lines that leaves each its tag. -/
theorem tags_map {f : Line → Line} (e : t.mem.lines = s.mem.lines.map f) (hf : ∀ l, (f l).tag = l.tag) : t.tags = s.tags := by
  unfold State.tags
  rw [e, List.map_map]
  exact List.map_congr_left fun l _ => hf l

theorem updLine_tags {lv : Lv} {f : Line → Line} (hf : ∀ l, (f l).tag = l.tag := by intro; rfl) : (s.updLine lv line f).tags = s.tags := by
  refine tags_map rfl fun l => ?_
  split
  · exact hf l
  · rfl

theorem receive_tags (s : State) (v : Line) (dirty : Nat) : (s.receive v dirty).tags = s.tags := by
  unfold State.receive
  refine Eq.trans updLine_tags ?_
  split <;> rfl

theorem arriveHome_tags (s : State) (line dirty : Nat) : (s.arriveHome line dirty).tags = s.tags := by
  unfold State.arriveHome
  split
  · exact updLine_tags
  · split
    · exact receive_tags _ _ _
    · rfl

theorem sendSector_tags (s : State) (u : Nat) (ds : List (Nat × RdcByte)) : (s.sendSector u ds).tags = s.tags := by
  have each := foldl_keeps (fun s (x : Nat × RdcByte) => s.putHome x.1 [x.2.v]) State.tags (fun _ _ => rfl) ds s
  unfold State.sendSector
  split
  · exact each
  · split
    · rfl
    · exact each

theorem sendHome_tags (s : State) (line : Nat) : (s.sendHome line).tags = s.tags := by
  unfold State.sendHome
  dsimp only
  split
  · rfl
  · split
    · rfl
    · refine (arriveHome_tags _ _ _).trans (foldl_keeps _ State.tags (fun t k => ?_) _ s)
      split
      · rfl
      · exact sendSector_tags _ _ _

theorem markClean_tags (s : State) (lines : List Nat) : (s.markClean lines).tags = s.tags := by
  refine tags_map rfl fun l => ?_
  split <;> rfl

theorem writeBack_tags (s : State) : s.writeBack.tags = s.tags :=
  (markClean_tags _ _).trans (foldl_keeps _ State.tags sendHome_tags _ s)

theorem selfInvalidate_tags (s : State) : s.selfInvalidate.tags = s.tags := by
  refine tags_map rfl fun l => ?_
  split <;> rfl

@[simp] theorem writeBack_rdcMine (s : State) : s.writeBack.rdcMine = s.rdcMine := rdcMine_of_tags (writeBack_tags s) (State.writeBack_regs s)

@[simp] theorem selfInvalidate_rdcMine (s : State) : s.selfInvalidate.rdcMine = s.rdcMine := rdcMine_of_tags (selfInvalidate_tags s) rfl

/-! ### A line that is purged (R20, R247) -/

theorem mem_dropLine_tags {lv : Lv} {x : Lv × Nat × Nat} (h : x ∈ (s.dropLine lv line).tags) : x ∈ s.tags ∧ (x.1 = lv → x.2.1 ≠ line) := by
  obtain ⟨l, hl, rfl⟩ := List.mem_map.1 h
  obtain ⟨hl, hne⟩ := List.mem_filter.1 hl
  exact ⟨mem_tags hl, by simpa [Line.tag, imp_iff_not_or] using hne⟩

theorem leaveL1_tags (s : State) (v : Line) : (s.leaveL1 v).tags = (s.dropLine .l1 v.line).tags := by
  have moved : ((s.dropLine .l1 v.line).moveMasks v.line).tags = (s.dropLine .l1 v.line).tags := congrArg (List.map Line.tag) moveMasks_lines
  unfold State.leaveL1
  dsimp only
  split
  · exact moved
  · exact Eq.trans updLine_tags moved

/-- The recall of a line takes it out of the L1 and brings none in. -/
theorem mem_recallL1_tags {x : Lv × Nat × Nat} (h : x ∈ (s.recallL1 line).tags) : x ∈ s.tags ∧ (x.1 = .l1 → x.2.1 ≠ line) := by
  unfold State.recallL1 at h
  split at h
  · next v e =>
    rw [leaveL1_tags, (lineAt_line e).2] at h
    exact mem_dropLine_tags h
  · next e =>
    obtain ⟨l, hl, rfl⟩ := List.mem_map.1 h
    exact ⟨mem_tags hl, by simpa [Line.tag] using List.find?_eq_none.1 e l hl⟩

/-- After a purge a line stands at most at its home. -/
theorem purge_level {l : Line} (h : l ∈ (s.purge line).mem.lines) (hl : l.line = line) : l.lv = .l2 ∨ l.lv = .msc := by
  obtain ⟨hin, hrdc⟩ := mem_dropLine_tags (mem_tags h)
  have recalled : l.tag ∈ (s.recallL1 line).tags := sendHome_tags (s.recallL1 line) line ▸ hin
  have hl1 := (mem_recallL1_tags recalled).2
  change l.lv = .rdc → l.line ≠ line at hrdc
  change l.lv = .l1 → l.line ≠ line at hl1
  cases e : l.lv with
  | l1 => exact absurd hl (hl1 e)
  | rdc => exact absurd hl (hrdc e)
  | l2 => exact .inl rfl
  | msc => exact .inr rfl

theorem purge_lineAt {lv : Lv} (h2 : lv ≠ .l2) (hm : lv ≠ .msc) : (s.purge line).lineAt lv line = none :=
  lineAt_eq_none fun _ h hlv hl => (purge_level h hl).elim (hlv ▸ h2) (hlv ▸ hm)

theorem purge_rdc {b : Nat × RdcByte} (h : b ∈ (s.purge line).mem.rdc) : b.1 / 128 * 128 ≠ line := by
  simpa using (List.mem_filter.1 h).2

/-- The copies of a line in the home L2 and the memory-side cache have no dirty bytes any more (R247). -/
def State.cleanAtHome (s : State) (line : Nat) : State :=
  (s.updLine .l2 line fun l => { l with dirty := 0 }).updLine .msc line fun l => { l with dirty := 0 }

theorem cleanAtHome_clean (h : ∀ l ∈ s.mem.lines, l.line = line → l.lv = .l2 ∨ l.lv = .msc) :
    ∀ k ∈ (s.cleanAtHome line).mem.lines, k.line = line → k.dirty = 0 := by
  intro k hk hline
  obtain ⟨l', hl', rfl⟩ := List.mem_map.1 hk
  obtain ⟨l, hl, rfl⟩ := List.mem_map.1 hl'
  by_cases e : l.line = line
  · obtain hlv | hlv := h l hl e
    · simp [e, hlv]
    · simp [e, hlv]
  · simp [e] at hline

end

/-! ### What the fences leave in the RDC (R112 to R114) -/

section
variable {s w : State} {line width : Nat}

theorem mem_rdcDirtyLines {x : Nat × RdcByte} (hx : x ∈ s.mem.rdc) (hd : x.2.dirty = true) (hm : s.rdcMine (x.1 / 128 * 128) = true) :
    x.1 / 128 * 128 ∈ s.rdcDirtyLines := by
  unfold State.rdcDirtyLines
  rw [List.mem_filter, List.mem_eraseDups]
  exact ⟨List.mem_map.2 ⟨x, List.mem_filter.2 ⟨hx, hd⟩, rfl⟩, hm⟩

theorem writeBack_rdc (s : State) : s.writeBack.mem.rdc =
    s.mem.rdc.map fun x => if s.rdcDirtyLines.contains (x.1 / 128 * 128) then (x.1, { x.2 with dirty := false }) else x :=
  congrArg (List.map _) (foldl_keeps State.sendHome (fun t => t.mem.rdc) sendHome_rdc s.rdcDirtyLines s)

/-- A byte of the partition that was dirty lies in a line that has been written back. -/
theorem writeBack_rdcClean (s : State) : rdcClean s.writeBack := by
  intro b hb hm
  rw [writeBack_rdcMine] at hm
  rw [writeBack_rdc] at hb
  obtain ⟨x, hx, rfl⟩ := List.mem_map.1 hb
  by_cases hc : s.rdcDirtyLines.contains (x.1 / 128 * 128) = true
  · rw [if_pos hc]
  · rw [if_neg hc] at hm ⊢
    exact Bool.eq_false_iff.2 fun hd => hc (List.contains_iff_mem.2 (mem_rdcDirtyLines hx hd hm))

theorem mem_selfInvalidate_rdc {b : Nat × RdcByte} :
    b ∈ s.selfInvalidate.mem.rdc ↔ b ∈ s.mem.rdc ∧ (b.2.dirty = true ∨ s.rdcMine (b.1 / 128 * 128) = false) := by
  simp [State.selfInvalidate]

theorem selfInvalidate_rdcDirty (s : State) : rdcDirty s.selfInvalidate := by
  intro b hb hm
  rw [selfInvalidate_rdcMine] at hm
  exact (mem_selfInvalidate_rdc.1 hb).2.resolve_right (by simp [hm])

/-- What is clean goes, so that nothing stays where all is clean. -/
theorem selfInvalidate_of_rdcClean (h : rdcClean s) : ∀ b ∈ s.selfInvalidate.mem.rdc, s.selfInvalidate.rdcMine (b.1 / 128 * 128) = false := by
  intro b hb
  rw [selfInvalidate_rdcMine]
  refine Bool.eq_false_iff.2 fun hm => ?_
  obtain ⟨hin, hd | hother⟩ := mem_selfInvalidate_rdc.1 hb
  · exact absurd hd (by simp [h b hin hm])
  · exact absurd hm (by simp [hother])

theorem acquire_region (s : State) (width : Nat) : (s.acquire width).core.region = {} := by
  unfold State.acquire
  split <;> rfl

theorem acquire_rdcDirty (h : 3 ≤ width) : rdcDirty (s.acquire width) := by
  unfold State.acquire
  rw [if_pos h]
  exact selfInvalidate_rdcDirty _

/-- A release that succeeds closes the region and, from package width on, has written the RDC back. -/
theorem release_closes (e : s.release width = .ok w) : w.core.region = {} ∧ (3 ≤ width → rdcClean w) := by
  unfold State.release at e
  split at e
  · cases e
  · cases e
    refine ⟨?_, fun h => ?_⟩
    · split <;> simp
    · rw [if_pos h]
      exact writeBack_rdcClean _

theorem fullFence_region (s : State) (width : Nat) : (s.fullFence width).core.region = {} := by
  unfold State.fullFence
  dsimp only
  split <;> simp

theorem fullFence_stale (s : State) (width : Nat) : (s.fullFence width).mem.stale = [] := by
  unfold State.fullFence
  dsimp only
  split <;> simp

theorem fullFence_rdc (h : 3 ≤ width) : ∀ b ∈ (s.fullFence width).mem.rdc, (s.fullFence width).rdcMine (b.1 / 128 * 128) = false := by
  unfold State.fullFence
  dsimp only
  rw [if_pos h]
  exact selfInvalidate_of_rdcClean (writeBack_rdcClean _)

end

/-! ### PREF (R247) -/

section
variable {u v w : State} {b va : Word} {touch : State → Loc → State} {l : Loc}

theorem prefBody_ok {x : PrefArgs} {c : Ctx} (hr : u.ready c [.src x.a false]) (ht : u.take x.a = (b, v)) :
    prefBody x touch c u = .ok (v.prefetch (effective b x.off) touch) := by
  unfold prefBody
  rw [prepare_own hr rfl, ok_bind, ht]
  rfl

theorem prefetch_fault {c d lv : Nat} (h : v.translate v.who .read va = .error (.fault c d lv)) : v.prefetch va touch = v := by
  unfold State.prefetch
  rw [h]

theorem prefetch_absent {n : Nat} (h : v.translate v.who .read va = .error (.absent n)) : v.prefetch va touch = v.beginPull n := by
  unfold State.prefetch
  rw [h]

theorem prefetch_found (h : v.translate v.who .read va = .ok (l, w)) :
    v.prefetch va touch = if l.what = .memory ∧ l.mt = 0 then touch w l else w := by
  unfold State.prefetch
  rw [h]
  simp

theorem exec_prefetch {p : (Guard → PrefArgs → Instr) × (State → Loc → Nat → State)} (hp : p ∈ prefetches) (g : Guard) (x : PrefArgs) (s : State) :
    exec (p.1 g x) s = run (p.1 g x) g (prefBody x fun t l => p.2 t l x.nud.val) s := by
  simp only [prefetches, List.mem_cons, List.not_mem_nil, or_false] at hp
  obtain rfl | rfl | rfl := hp
  · rfl
  · rfl
  · rfl

/-! ### FLUSH (R247) -/

theorem exec_flush (g : Guard) (x : FlushArgs) (s : State) : exec (.flush g x) s = run (.flush g x) g (flushBody x false) s := rfl

theorem exec_flushMem (g : Guard) (x : FlushArgs) (s : State) : exec (.flushMem g x) s = run (.flushMem g x) g (flushBody x true) s := rfl

theorem flushBody_found {x : FlushArgs} {c : Ctx} (mem : Bool) (hr : u.ready c [.src x.a false]) (ht : u.take x.a = (b, v))
    (ho : v.optimistic = false) (h : v.translate v.who .any (effective b x.off) = .ok (l, w)) :
    flushBody x mem c u = .ok (if l.what = .memory then
      if mem then (w.purge (l.key / 128 * 128)).cleanAtHome (l.key / 128 * 128) else w.purge (l.key / 128 * 128) else w) := by
  change v.translate v.who .any (b + wdI x.off.val) = _ at h
  unfold flushBody
  rw [prepare_own hr rfl, ok_bind, ht]
  unfold State.flushLine
  dsimp only
  rw [ho, h]
  dsimp only
  by_cases hm : l.what = .memory
  · rw [if_pos hm, if_neg Bool.false_ne_true, if_neg (not_not.2 hm)]
    rfl
  · rw [if_neg hm, if_neg Bool.false_ne_true, if_pos hm]

theorem prefetchAndFlush_hold : prefetchAndFlush := by
  refine ⟨fun p hp g x s u v b he hr ht => ?_, fun g x s u v w b l he hr ht ho h => ?_, fun s line => ?_, fun g x s u v w b l he hr ht ho h => ?_⟩
  · have runs (t : State) (e : (v.prefetch (effective b x.off) fun t l => p.2 t l x.nud.val) = t) : Completes s (p.1 g x) t :=
      completes_run (exec_prefetch hp g x s) he ((prefBody_ok hr ht).trans (congrArg Except.ok e))
    refine ⟨fun c d lv h => runs _ (prefetch_fault h), fun n h => runs _ (prefetch_absent h), fun l w h hno => runs _ ?_,
      fun l w h hm hmt => runs _ ?_⟩
    · rw [prefetch_found h, if_neg (fun hc => hno.elim (absurd hc.1) (absurd hc.2))]
    · rw [prefetch_found h, if_pos ⟨hm, hmt⟩]
  · exact completes_run (exec_flush g x s) he (flushBody_found false hr ht ho h)
  · exact ⟨purge_lineAt (by decide) (by decide), purge_lineAt (by decide) (by decide), fun _ hb => purge_rdc hb⟩
  · refine ⟨_, completes_run (exec_flushMem g x s) he (flushBody_found true hr ht ho h), fun hm => if_neg hm, fun hm => ?_⟩
    rw [if_pos hm, if_pos rfl]
    exact ⟨⟨_, rfl⟩, cleanAtHome_clean fun _ hl => purge_level hl⟩

end

/-! ### FENCE (R110, R252) -/

section
variable {g : Guard} {sc : Scope} {s u v w : State} {x : Word}

theorem fenceWidth_ok {c : Ctx} (hs : u.checkScope c sc = .ok ()) (hr : u.ready c (scopeOpr sc)) (ht : u.takeScope sc = (x, v)) :
    u.fenceWidth sc c = .ok (v.scopeWidth x, v) := by
  unfold State.fenceWidth
  rw [hs, ok_bind, prepare_own hr rfl, ok_bind, ht]

theorem exec_fenceAcq (g : Guard) (sc : Scope) (s : State) : exec (.fenceAcq g sc) s = execFenceAcq g sc s := rfl

theorem fenceAcq_completes (he : Enters s (.fenceAcq g sc) g u) (hs : u.checkScope (s.ctx (.fenceAcq g sc)) sc = .ok ())
    (hr : u.ready (s.ctx (.fenceAcq g sc)) (scopeOpr sc)) (ht : u.takeScope sc = (x, v)) :
    Completes s (.fenceAcq g sc) (v.acquire (v.scopeWidth x)) := by
  refine completes_run (exec_fenceAcq g sc s) he ?_
  rw [fenceWidth_ok hs hr ht]
  rfl

theorem exec_fenceRel (g : Guard) (sc : Scope) (s : State) : exec (.fenceRel g sc) s = execFenceRel g sc s := rfl

theorem fenceRel_completes (he : Enters s (.fenceRel g sc) g u) (hs : u.checkScope (s.ctx (.fenceRel g sc)) sc = .ok ())
    (hr : u.ready (s.ctx (.fenceRel g sc)) (scopeOpr sc)) (ht : u.takeScope sc = (x, v)) (hw : v.release (v.scopeWidth x) = .ok w) :
    Completes s (.fenceRel g sc) w := by
  refine completes_run (exec_fenceRel g sc s) he ?_
  rw [fenceWidth_ok hs hr ht, ok_bind]
  exact hw

theorem exec_fenceFull (g : Guard) (sc : Scope) (s : State) : exec (.fenceFull g sc) s = execFenceFull g sc s := rfl

theorem fenceFull_completes (he : Enters s (.fenceFull g sc) g u) (hs : u.checkScope (s.ctx (.fenceFull g sc)) sc = .ok ())
    (hr : u.ready (s.ctx (.fenceFull g sc)) (scopeOpr sc)) (ht : u.takeScope sc = (x, v)) (hw : v.release (v.scopeWidth x) = .ok w) :
    Completes s (.fenceFull g sc) (w.fullFence (v.scopeWidth x)) := by
  refine completes_run (exec_fenceFull g sc s) he ?_
  rw [fenceWidth_ok hs hr ht, ok_bind]
  dsimp only
  rw [hw, ok_bind]

theorem fences_hold : fences := by
  refine fun g sc s u v x => ⟨fun he hs hr ht => ?_, fun he hs hr ht hl => ?_, fun he hs hr ht hl => ?_⟩
  · exact ⟨fenceAcq_completes he hs hr ht, acquire_region _ _, acquire_rdcDirty⟩
  · have released := release_ok hl
    exact ⟨_, released, fenceRel_completes he hs hr ht released, release_closes released⟩
  · have released := release_ok hl
    exact ⟨_, released, fenceFull_completes he hs hr ht released, fullFence_region _ _, fullFence_stale _ _, fullFence_rdc⟩

end

end Sys2Proof.Machine

/-- Settles O23: PREF and FLUSH do what the translation of their address allows, where an absent page's pull begins (log entry 66). No tag of
the L1 or the RDC survives a purge of its line. The write-back leaves the partition's bytes in the RDC clean and self-invalidation keeps only
dirty ones, so that a full fence, which is both, leaves none. -/
theorem cachesAndFences : Obligations.CachesAndFences :=
  ⟨Sys2Proof.Machine.prefetchAndFlush_hold, Sys2Proof.Machine.fences_hold⟩
end

section
/-! PROOF. What reset leaves (R137, R144, R149, R150, R57, R64, R159, R249, R305, R353, R372). -/
open Sys2Proof Sys2Proof.Machine

/-- Settles O57: no word of the register store is listed at reset, so each reads as full and 0; the registers and the invariants are read off the
state. -/
theorem resetStateHolds : Obligations.ResetState := by
  unfold Obligations.ResetState
  constructor
  · unfold resetState
    refine ⟨fun p _ => rfl, rfl, rfl, rfl, rfl, rfl, rfl, rfl, rfl, rfl, rfl, rfl, rfl, rfl, rfl, rfl⟩
  · unfold resetIsCanonical Canonical RdcForm
    exact ⟨⟨rfl, rfl, by decide⟩, rfl, fun _ _ h => nomatch h⟩
end

section
/-! PROOF. A trap that halts the partition (R152, R392). -/
namespace Sys2Proof.Machine

/-- Entry into a TWIN of LIMIT 0 ends an IDLE (R333, R392). -/
theorem enterTwin_idle {s : State} {c : Nat} {info pc : Word} {async : Bool} (h : descLimit s.regs.twin = 0) :
    (s.enterTwin c info pc async).core.idle = false := by
  unfold State.enterTwin
  rw [if_pos h]
  rfl

/-- The supervisor at reset, whose TWIN has LIMIT 0, with the core idle. -/
def idling : State := { State.reset with core := { State.reset.core with idle := true } }

end Sys2Proof.Machine

open Sys2Proof Sys2Proof.Machine

/-- Refutes O53: its clause on a TWIN of LIMIT 0 says that of the core only the wait changes, but the halt ends an IDLE as well (R333, R392): of a core
that is idle when the trap comes, as in `idling`, the clause's state still says so. -/
theorem not_trapEntry : ¬ Obligations.TrapEntry := by
  unfold Obligations.TrapEntry
  rintro ⟨-, -, halts, -⟩
  have undelegated : ¬ delegates idling cILLEGAL := fun h => absurd h.1 (by decide)
  have claimed := halts idling cILLEGAL 0 (by decide) undelegated rfl
  have entered : idling.takeTrap cILLEGAL 0 idling.pc = idling.unwait.enterTwin cILLEGAL 0 idling.pc false := rfl
  have idle := congrArg (fun t => t.core.idle) (entered.symm.trans claimed)
  exact absurd ((enterTwin_idle rfl).symm.trans idle) (by decide)
end

section
/-! PROOF. The returns from TWIN and UTWIN (R143, R152, R153, R238). -/
namespace Sys2Proof.Machine

/-- The checks of RETT on the descriptor that it installs: those of R143, where it returns to user mode (log entry 23). -/
def State.rettCheck (u : State) : Res Unit := if bits u.regs.tcause 57 56 < 2 then u.checkDesc u.regs.tsave true else .ok ()

/-- The code base that RETT counts the saved pc from. -/
def State.rettBase (u : State) : Word := if bits u.regs.tcause 57 56 = 2 then u.regs.scbase else u.regs.cbase

section
variable {s u : State} {d : Word} {g : Guard} {c : Ctx} {user : Bool}

/-! ### The checks of R143 and of QHELD -/

theorem need_trap {b : Bool} {cause : Nat} {info : Word} (h : b = false) : need b cause info = .error (.trap cause info) := by
  subst h; rfl

theorem windowOk_iff {b l : Nat} : windowOk b l = true ↔ 1 ≤ l ∧ l ≤ 2032 ∧ b + l ≤ 8192 := by
  simp only [windowOk, Bool.and_eq_true, decide_eq_true_eq]
  omega

theorem checkDesc_eq : s.checkDesc d user = (do
    need (windowOk (descBase d) (descLimit d) && bits d 31 27 = 0) cWINDOW (winInfo 2 (descBase d) 0)
    need (!user || (s.fenceLo ≤ descBase d && descBase d + descLimit d - 1 ≤ s.fenceHi)) cFENCE (winInfo 1 (descBase d) 0)) := rfl

/-- A descriptor fits where the window and the fence do. -/
theorem fitsWindowAs_iff : fitsWindowAs s d user ↔ (windowOk (descBase d) (descLimit d) && bits d 31 27 = 0) = true
    ∧ (!user || (s.fenceLo ≤ descBase d && descBase d + descLimit d - 1 ≤ s.fenceHi)) = true := by
  unfold fitsWindowAs State.fenceLo State.fenceHi
  rw [Bool.and_eq_true, windowOk_iff]
  cases user <;> simp [and_assoc]

theorem checkDesc_ok (h : fitsWindowAs s d user) : s.checkDesc d user = .ok () := by
  obtain ⟨window, fence⟩ := fitsWindowAs_iff.1 h
  rw [checkDesc_eq, need_ok window, ok_bind, need_ok fence]

/-- A descriptor that does not fit takes WINDOW, or FENCE. -/
theorem checkDesc_trap (h : ¬ fitsWindowAs s d user) : ∃ cause info, s.checkDesc d user = .error (.trap cause info) := by
  rw [fitsWindowAs_iff, not_and_or, Bool.not_eq_true, Bool.not_eq_true] at h
  rw [checkDesc_eq]
  cases window : windowOk (descBase d) (descLimit d) && decide (bits d 31 27 = 0) with
  | false => exact ⟨_, _, rfl⟩
  | true =>
    rw [need_ok rfl, ok_bind, need_trap (h.resolve_left (by rw [window]; decide))]
    exact ⟨_, _, rfl⟩

theorem queuesHeld_ok (h : heldHere u d) : u.queuesHeld c d = .ok () := by
  unfold State.queuesHeld
  cases hd : bit d 25 with
  | false => rfl
  | true => rw [h hd]; rfl

/-- A descriptor with QHELD set where no queue entry is held. -/
theorem queuesHeld_qlive (h : ¬ heldHere u d) : u.queuesHeld c d = .error (.trap cILLEGAL (illInfo Ill.qlive.code c.parcel)) := by
  obtain ⟨held, live⟩ := Classical.not_imp.1 h
  unfold State.queuesHeld
  rw [Bool.not_eq_true] at live
  rw [held, live]
  rfl

/-! ### RETT and WRET -/

/-- The body of an instruction whose privilege check passes raises a cause. -/
theorem raises_privileged {i : Instr} {priv : Ctx → State → Res Unit} {body : Ctx → State → Res Ended} {cause : Nat} {info : Word}
    (e : exec i s = runEnd i g priv body s) (hp : priv (s.ctx i) s.awake = .ok ()) (he : Enters s i g u)
    (hb : body (s.ctx i) u = .error (.trap cause info)) : Raises s i cause info := by
  unfold Raises
  rw [e, runEnd_trap hp he hb]

theorem exec_rett (g : Guard) (s : State) : exec (.rett g) s = runEnd (.rett g) g supOnly (fun c u => do
    u.rettCheck
    u.queuesHeld c u.regs.tsave
    .ok (.completed (u.returnTo u.regs.tsave (bits u.regs.tcause 57 56) u.rettBase))) s := by
  change execRett g s = _
  unfold execRett State.rettCheck
  congr 1
  funext c u
  dsimp only
  split <;> rfl

theorem rettCheck_ok (h : fitsReturn u) : u.rettCheck = .ok () := by
  unfold State.rettCheck
  split
  · exact checkDesc_ok (h ‹_›)
  · rfl

theorem rettCheck_trap (h : ¬ fitsReturn u) : ∃ cause info, u.rettCheck = .error (.trap cause info) := by
  obtain ⟨toUser, misfit⟩ := Classical.not_imp.1 h
  unfold State.rettCheck
  rw [if_pos toUser]
  exact checkDesc_trap misfit

/-- RETT restores the saved window, the mode and the pc. -/
theorem rett_completes (hm : s.mode = 2) (he : Enters s (.rett g) g u) (hfit : fitsReturn u) (hheld : heldHere u u.regs.tsave) :
    Completes s (.rett g) (u.returnTo u.regs.tsave (bits u.regs.tcause 57 56) u.rettBase) := by
  refine completes_runEnd (exec_rett g s) (supOnly_ok hm) he ?_
  rw [rettCheck_ok hfit, ok_bind, queuesHeld_ok hheld, ok_bind]

theorem exec_wret (g : Guard) (s : State) : exec (.wret g) s =
    runEnd (.wret g) g (fun c s => need (s.mode = 1) cPRIV (privInfo 0 c.parcel)) (fun c u => do
      u.checkDesc u.regs.utsave true
      u.queuesHeld c u.regs.utsave
      .ok (.completed (u.returnTo u.regs.utsave 0 u.regs.cbase))) s := rfl

theorem wret_completes (hm : s.mode = 1) (he : Enters s (.wret g) g u) (hfit : fitsWindowAs u u.regs.utsave true)
    (hheld : heldHere u u.regs.utsave) : Completes s (.wret g) (u.returnTo u.regs.utsave 0 u.regs.cbase) := by
  refine completes_runEnd (exec_wret g s) (need_ok (by exact decide_eq_true hm)) he ?_
  rw [checkDesc_ok hfit, ok_bind, queuesHeld_ok hheld, ok_bind]

theorem returnsComplete_holds : returnsComplete :=
  ⟨fun _ _ _ hm he hfit hheld => rett_completes hm he hfit hheld, fun _ _ _ hm he hfit hheld => wret_completes hm he hfit hheld⟩

theorem returnChecks_hold : returnChecks := by
  refine ⟨fun g s hm => ?_, fun g s hm => ?_, fun g s u hm he hfit => ?_, fun g s u hm he hfit => ?_, fun g s u hm he hfit hheld => ?_,
    fun g s u hm he hfit hheld => ?_⟩
  · exact raises_runEnd_priv (exec_rett g s) (supOnly_err hm)
  · exact raises_runEnd_priv (exec_wret g s) (need_trap (decide_eq_false hm))
  · obtain ⟨cause, info, trap⟩ := rettCheck_trap hfit
    exact ⟨cause, info, raises_privileged (exec_rett g s) (supOnly_ok hm) he (by rw [trap]; rfl)⟩
  · obtain ⟨cause, info, trap⟩ := checkDesc_trap hfit
    exact ⟨cause, info, raises_privileged (exec_wret g s) (need_ok (decide_eq_true hm)) he (by rw [trap]; rfl)⟩
  · exact raises_privileged (exec_rett g s) (supOnly_ok hm) he (by rw [rettCheck_ok hfit, queuesHeld_qlive hheld]; rfl)
  · exact raises_privileged (exec_wret g s) (need_ok (decide_eq_true hm)) he (by rw [checkDesc_ok hfit, queuesHeld_qlive hheld]; rfl)

end

/-! ### The fields of a descriptor and of TCAUSE (R142, R152) -/

theorem bits_setBits {x : Word} {hi lo v : Nat} (h : hi < 64) : bits (setBits x hi lo v) hi lo = v % 2 ^ (hi + 1 - lo) := by
  have mask : (2 ^ (hi + 1 - lo) - 1) <<< lo < 2 ^ 64 := by
    refine Nat.lt_pow_two_of_testBit _ fun i hi' => ?_
    simp only [Nat.testBit_shiftLeft, Nat.testBit_two_pow_sub_one, Bool.and_eq_false_imp, decide_eq_true_eq, decide_eq_false_iff_not]
    omega
  apply Nat.eq_of_testBit_eq
  intro i
  simp only [bits, setBits, BitVec.toNat_ofNat, Nat.testBit_mod_two_pow, Nat.testBit_shiftRight, Nat.testBit_or, Nat.testBit_and,
    Nat.testBit_shiftLeft, Nat.testBit_two_pow_sub_one, Nat.sub_sub, Nat.add_comm 1, Nat.testBit_two_pow_sub_succ mask]
  by_cases inside : i < hi + 1 - lo
  · have : lo + i < 64 := by omega
    simp [inside, this]
  · simp [inside]

theorem returnTo_mode {s : State} {d cb : Word} {m : Nat} : (s.returnTo d m cb).mode = m % 4 :=
  bits_setBits (by decide)

section
variable {base limit rpc : Nat} {trapd qheld frm : Bool}

theorem bits_wd {n hi lo : Nat} (h : n < 2 ^ 64) : bits (wd n) hi lo = n / 2 ^ lo % 2 ^ (hi + 1 - lo) := by
  unfold bits wd
  rw [BitVec.toNat_ofNat, Nat.mod_eq_of_lt h, Nat.shiftRight_eq_div_pow]

/-- A descriptor as a number: its fields at their places. -/
def descNum (base limit rpc : Nat) (trapd qheld frm : Bool) : Nat :=
  base % 8192 + limit % 2048 * 2 ^ 13 + trapd.toNat * 2 ^ 24 + qheld.toNat * 2 ^ 25 + frm.toNat * 2 ^ 26 + rpc % 2 ^ 32 * 2 ^ 32

theorem mkDesc_eq : mkDesc base limit rpc trapd qheld frm = wd (descNum base limit rpc trapd qheld frm) := by
  simp only [mkDesc, descNum, fld, Nat.shiftLeft_eq]

theorem descNum_lt : descNum base limit rpc trapd qheld frm < 2 ^ 64 := by
  have ht := Bool.toNat_lt trapd
  have hq := Bool.toNat_lt qheld
  have hf := Bool.toNat_lt frm
  unfold descNum
  omega

theorem descBase_mkDesc (h : base < 8192) : descBase (mkDesc base limit rpc trapd qheld frm) = base := by
  unfold descBase
  rw [mkDesc_eq, bits_wd descNum_lt]
  unfold descNum
  omega

theorem descLimit_mkDesc (h : limit < 2048) : descLimit (mkDesc base limit rpc trapd qheld frm) = limit := by
  unfold descLimit
  rw [mkDesc_eq, bits_wd descNum_lt]
  have ht := Bool.toNat_lt trapd
  have hq := Bool.toNat_lt qheld
  have hf := Bool.toNat_lt frm
  unfold descNum
  omega

theorem descRpc_mkDesc (h : rpc < 2 ^ 32) : descRpc (mkDesc base limit rpc trapd qheld frm) = rpc := by
  unfold descRpc
  rw [mkDesc_eq, bits_wd descNum_lt]
  have ht := Bool.toNat_lt trapd
  have hq := Bool.toNat_lt qheld
  have hf := Bool.toNat_lt frm
  unfold descNum
  omega

theorem bits_mkDesc_reserved : bits (mkDesc base limit rpc trapd qheld frm) 31 27 = 0 := by
  rw [mkDesc_eq, bits_wd descNum_lt]
  have ht := Bool.toNat_lt trapd
  have hq := Bool.toNat_lt qheld
  have hf := Bool.toNat_lt frm
  unfold descNum
  omega

theorem bit_mkDesc_qheld : bit (mkDesc base limit rpc trapd qheld frm) 25 = qheld := by
  unfold bit
  rw [mkDesc_eq, wd, BitVec.getLsbD_ofNat, Nat.testBit_eq_decide_div_mod_eq]
  have ht := Bool.toNat_lt trapd
  have hf := Bool.toNat_lt frm
  cases qheld <;> simp [descNum] <;> omega

/-- The pc that a descriptor saves comes back under the code base it was counted from. -/
theorem rpcAt_rpcOf {pc cb : Word} (aligned : (pc - cb).toNat % 4 = 0) (near : (pc - cb).toNat < 2 ^ 34) : rpcAt cb (rpcOf pc cb) = pc := by
  have offset : 4 * rpcOf pc cb = (pc - cb).toNat := by
    unfold rpcOf
    omega
  unfold rpcAt
  rw [offset, wd, BitVec.ofNat_toNat, BitVec.setWidth_eq]
  exact add_sub_cancel cb pc

end

/-! ### A trap and the return from it (R152, R153) -/

section
variable {s y u : State} {c : Nat} {info : Word} {g : Guard}

/-- A trap from MODE 0 leaves PMODE 0 in TCAUSE. -/
theorem twinState_pmode (hm : s.mode = 0) (hc : c < 2 ^ 32) : bits (twinState s c info false).regs.tcause 57 56 = 0 := by
  have cause : (twinState s c info false).regs.tcause = wd c := by
    show wd (c + fld s.mode 56 + fld false.toNat 63) = wd c
    rw [hm]
    rfl
  rw [cause, bits_wd (by omega)]
  omega

/-- The window that a trap from MODE 0 saves passes the checks of its return. -/
theorem twinState_fits (hlive : s.queuesLive = false) (hl : 1 ≤ s.regs.wl) (hmax : s.regs.wl ≤ 2032) (hend : s.regs.wb + s.regs.wl ≤ 8192)
    (hlo : bits s.regs.wflo 12 0 ≤ s.regs.wb) (hhi : s.regs.wb + s.regs.wl - 1 ≤ bits s.regs.wfhi 12 0) :
    fitsWindowAs s (twinState s c info false).regs.tsave true ∧ heldHere s (twinState s c info false).regs.tsave := by
  have base : descBase (twinState s c info false).regs.tsave = s.regs.wb := descBase_mkDesc (by omega)
  have limit : descLimit (twinState s c info false).regs.tsave = s.regs.wl := descLimit_mkDesc (by omega)
  have held : bit (twinState s c info false).regs.tsave 25 = false := bit_mkDesc_qheld.trans hlive
  constructor
  · unfold fitsWindowAs
    rw [base, limit]
    exact ⟨hl, hmax, hend, bits_mkDesc_reserved, fun _ => ⟨hlo, hhi⟩⟩
  · exact fun h => absurd (held.symm.trans h) (by decide)

end

end Sys2Proof.Machine

open Sys2Proof Sys2Proof.Machine

/-- Settles O54: the descriptor that the trap saves fits, so RETT completes, and its fields are those of the window, the pc and the mode it was made
of. -/
theorem trapReturnRoundTrip : Obligations.TrapReturnRoundTrip := by
  unfold Obligations.TrapReturnRoundTrip
  intro s y u c info g hm hc hlive hl hmax hend hlo hhi haligned hnear hy he hsave hcause hcbase hwflo hwfhi
  have pmode : bits u.regs.tcause 57 56 = 0 := by rw [hcause]; exact twinState_pmode hm hc
  obtain ⟨fits, held⟩ := twinState_fits (c := c) (info := info) hlive hl hmax hend hlo hhi
  have base : u.rettBase = s.regs.cbase := by
    unfold State.rettBase
    rw [pmode, if_neg (by decide), hcbase]
  have rpc : descRpc u.regs.tsave = rpcOf s.pc s.regs.cbase := by
    have codeBase : s.codeBase = s.regs.cbase := by
      unfold State.codeBase
      rw [hm, if_neg (by decide)]
    rw [hsave, ← codeBase]
    exact descRpc_mkDesc (Nat.mod_lt _ (by decide))
  refine ⟨_, rett_completes hy he ?_ ?_, ?_, ?_, ?_, ?_, rfl⟩
  · intro _
    unfold fitsWindowAs at fits ⊢
    rw [hsave, hwflo, hwfhi]
    exact fits
  · intro h
    rw [hsave] at h
    exact absurd (hlive.symm.trans (held h)) (by decide)
  · show rpcAt u.rettBase (descRpc u.regs.tsave) = s.pc
    rw [base, rpc, rpcAt_rpcOf haligned hnear]
  · show descBase u.regs.tsave = s.regs.wb
    rw [hsave]
    exact descBase_mkDesc (by omega)
  · show descLimit u.regs.tsave = s.regs.wl
    rw [hsave]
    exact descLimit_mkDesc (by omega)
  · rw [returnTo_mode, pmode]

/-- Settles O60: each return is its privilege check, the check of its descriptor and that of QHELD, and then the installation; each check either passes
or raises its cause. -/
theorem returnsFromExceptions : Obligations.ReturnsFromExceptions :=
  ⟨returnsComplete_holds, returnChecks_hold⟩
end

section
/-! PROOF. What accesses to memory, messages and the accounts of launches leave alone. -/
namespace Sys2Proof.Machine

/-- The state but for memory and what the module's parts note of it: the caches of translations, the waits and parked tasks that watch a line, what
leaves the module, the accounts of launches, and the trace. -/
def State.aside (s : State) : State :=
  { s with
    core := { s.core with wait := none, tlb := [], muTlb := [], tableHit := false, mail := [] }
    mem := {}
    sched := { s.sched with parked := [], launches := [], trHead := 0, trDropped := 0 }
    sys := {} }

section
variable {s t : State} {w : Who} {k : Kind} {f : LeafFound}

/-! ### Accesses and translations (R20, R21, R50) -/

theorem writeBack_aside (s : State) : s.writeBack.aside = s.aside :=
  State.writeBack_keeps State.aside (fun _ _ _ => rfl) (fun _ _ _ => rfl) (fun _ _ => rfl) (fun _ _ => rfl) (fun _ _ => rfl) s

theorem leaveL1_aside (s : State) (v : Line) : (s.leaveL1 v).aside = s.aside := by
  obtain ⟨tables, hit, e⟩ := moveMasks_cases (s.dropLine .l1 v.line) v.line
  unfold State.leaveL1
  rw [e]
  dsimp only
  split <;> rfl

theorem recallL1_aside (s : State) (line : Nat) : (s.recallL1 line).aside = s.aside := by
  unfold State.recallL1
  split
  · exact leaveL1_aside s _
  · rfl

theorem purge_aside (s : State) (line : Nat) : (s.purge line).aside = s.aside :=
  (sendHome_keeps State.aside (fun _ _ _ => rfl) (fun _ _ _ _ _ => rfl) _ line).trans (recallL1_aside s line)

theorem purgeRange_aside (s : State) (key n : Nat) : (s.purgeRange key n).aside = s.aside :=
  foldl_keeps _ State.aside purge_aside _ s

theorem entryHome_aside (s : State) (w : Who) (key : Nat) : (s.entryHome w key).aside = s.aside := by
  unfold State.entryHome State.recallRange
  split
  · exact purge_aside s _
  · split
    · rfl
    · exact foldl_keeps _ State.aside recallL1_aside _ s

theorem HoldsOther.aside (h : HoldsOther s t) : t.aside = s.aside := by
  obtain ⟨_, _, _, _, rfl⟩ := h
  rfl

theorem noteLeaf_aside (s : State) (w : Who) (k : Kind) (f : LeafFound) : (s.noteLeaf w k f).aside = s.aside := by
  by_cases h : f.walked = false ∨ f.noted k = f.leaf.pte
  · exact (noteLeaf_unwritten h).aside
  · rw [not_or, Bool.not_eq_false] at h
    exact (noteLeaf_written h.1 h.2).aside.trans (entryHome_aside s w f.leaf.key)

theorem translate_aside {va : Word} : Gives (fun x => x.2.aside = s.aside) (s.translate w k va) := by
  cases e : s.translate w k va with
  | error _ => trivial
  | ok x =>
    rcases translate_translated.ok e with ⟨-, h⟩ | ⟨-, f, -, h⟩
    · exact congrArg State.aside h
    · exact (congrArg State.aside h).trans (noteLeaf_aside s w k f)

theorem translateAll_aside {va : Word} {off n fuel : Nat} : Gives (fun x => x.2.aside = s.aside) (s.translateAll w k va off n fuel) := by
  induction fuel generalizing s off n with
  | zero => exact rfl
  | succ fuel ih =>
    unfold State.translateAll
    dsimp only
    split
    · exact rfl
    · split
      · trivial
      · next e =>
        split
        · trivial
        · next e' => exact (ih.ok e').trans (translate_aside.ok e)

theorem readExec_aside {va : Word} {n : Nat} : Gives (fun x => x.2.aside = s.aside) (s.readExec w va n) := by
  unfold State.readExec
  split
  · trivial
  · next e =>
    dsimp only
    split
    · trivial
    · refine (foldl_keeps _ State.aside (fun t p => ?_) _ _).trans (translateAll_aside.ok e)
      split
      · exact purgeRange_aside t _ _
      · rfl

theorem execSeen_aside (s : State) (w : Who) (va : Word) (n : Nat) : (s.execSeen w va n).aside = s.aside := by
  unfold State.execSeen
  split
  · next e => exact readExec_aside.ok e
  · rfl

theorem headSeen_aside (s : State) (ctx : LaunchCtx) (w0 : Word) : (s.headSeen ctx w0).aside = s.aside := by
  unfold State.headSeen
  dsimp only
  split
  · rfl
  · exact execSeen_aside s _ _ _

/-! ### Physical memory, the trace and the accounts (R342, R409, R416, R421) -/

theorem writePhysMem_aside (s : State) (pa : Nat) (bs : List Byte) : (s.writePhysMem pa bs).aside = s.aside := by
  unfold State.writePhysMem
  split
  · split <;> rfl
  · rfl

theorem pullAt_aside (s : State) (pa : Nat) : (s.pullAt pa).aside = s.aside := by
  unfold State.pullAt State.startPull
  split
  · split <;> rfl
  · rfl

theorem trace_aside (s : State) (kind : Nat) (lnid : Word) : (s.trace kind lnid).aside = s.aside := by
  unfold State.trace
  dsimp only
  split
  · rfl
  · split
    · split
      · rfl
      · exact writePhysMem_aside s _ _
    · exact writePhysMem_aside s _ _

theorem signal_aside (s : State) (v : Nat) : (s.signal v).aside = s.aside := by
  unfold State.signal
  split <;> rfl

theorem postEntry_aside (s : State) (p : Posting) : (s.postEntry p).aside = s.aside := by
  have written (a b c : Nat) (x y z : List Byte) : (((s.writePhysMem a x).writePhysMem b y).writePhysMem c z).aside = s.aside :=
    (writePhysMem_aside _ c z).trans ((writePhysMem_aside _ b y).trans (writePhysMem_aside s a x))
  unfold State.postEntry
  dsimp only
  split
  · exact (signal_aside _ _).trans (written _ _ _ _ _ _)
  · exact written _ _ _ _ _ _

theorem postEvent_aside (s : State) (kind : Nat) (info more : Word) : (s.postEvent kind info more).aside = s.aside := by
  unfold State.postEvent
  dsimp only
  split
  · rfl
  · split
    · exact postEntry_aside s _
    · split
      · exact pullAt_aside s _
      · exact (pullAt_aside _ _).trans (writePhysMem_aside s _ _)

theorem unitRelease_aside (s : State) : s.unitRelease.aside = s.aside := by
  unfold State.unitRelease
  split
  · rfl
  · exact writeBack_aside s

theorem launchEnd_aside (s : State) (l : Launch) (code : Nat) : (s.launchEnd l code).aside = s.aside := by
  unfold State.launchEnd
  dsimp only
  split
  · exact pullAt_aside _ _
  · exact (postEvent_aside _ _ _ _).trans ((writePhysMem_aside _ _ _).trans ((writePhysMem_aside _ _ _).trans (unitRelease_aside s)))

theorem liveDown_aside (s : State) (lnid : Word) : (s.liveDown lnid).aside = s.aside := by
  unfold State.liveDown
  split
  · rfl
  · split
    · exact launchEnd_aside s _ _
    · rfl

/-! ### The dispatched task, its slot and its pins (R158, R165) -/

/-- The task on the core, the slots that live tasks hold, and the pins of the footprint area. -/
def State.holdings (s : State) : Option Task × List Nat × List Pin := (s.sched.task, s.sched.slots, s.sched.pins)

/-- What is aside leaves them. -/
theorem holdings_of_aside (h : t.aside = s.aside) : t.holdings = s.holdings := by
  show t.aside.holdings = s.aside.holdings
  rw [h]

theorem enterInbox_holdings (s : State) (a : Arrived) : (s.enterInbox a).holdings = s.holdings := by
  unfold State.enterInbox
  dsimp only
  split <;> rfl

theorem fillWindow_sched (s : State) (r : Rec) (base cls : Nat) (zero : Bool) : (s.fillWindow r base cls zero).sched = s.sched := by
  unfold State.fillWindow
  dsimp only
  split
  · rw [setCells_sched, setCells_sched]
    rfl
  · exact setCells_sched _ _ _

theorem letIn_holdings (s : State) (a : Arrived) (h : Head) (e : PoolEntry) : (s.letIn a h e).holdings = s.holdings := by
  unfold State.letIn
  refine (enterInbox_holdings _ _).trans ?_
  unfold State.holdings
  rw [fillWindow_sched]

theorem popSpare_holdings {c : Nat} {e : PoolEntry} (h : s.popSpare c = some (e, t)) : t.holdings = s.holdings := by
  unfold State.popSpare State.popWindow at h
  split at h
  · cases h
  · split at h
    · cases h
    · cases h
      rfl

theorem unspill_holdings (blocked l : List Arrived) (s : State) : (s.unspill blocked l).2.holdings = s.holdings := by
  induction l generalizing s blocked with
  | nil => rfl
  | cons a as ih =>
    unfold State.unspill
    dsimp only
    split
    · exact ih _ _
    · split
      · exact ih _ _
      · split
        · exact (ih _ _).trans (enterInbox_holdings s a)
        · split
          · next e => exact (ih _ _).trans ((letIn_holdings _ _ _ _).trans (popSpare_holdings e))
          · exact ih _ _

theorem returnWindow_holdings (s : State) (c base owner : Nat) : (s.returnWindow c base owner).holdings = s.holdings := by
  unfold State.returnWindow
  dsimp only
  split
  · rfl
  · exact unspill_holdings [] _ _

theorem discardLost_holdings (s : State) (base n : Nat) : (s.discardLost base n).holdings = s.holdings := by
  induction n with
  | zero => rfl
  | succ n ih =>
    unfold State.discardLost
    dsimp only
    split <;> exact ih

/-- The core's task is gone; slots and pins stay. -/
theorem leave_holdings (s : State) : s.leave.holdings = (none, s.sched.slots, s.sched.pins) := by
  unfold State.leave State.ackPreempt
  split <;> rfl

/-- A task ends (R165): the core is free, and the slot of the task and its pins are gone. -/
theorem endTask_holdings (s : State) (t : Task) :
    (s.endTask t).holdings = (none, s.sched.slots.filter fun n => n ≠ t.slot, s.sched.pins.filter fun p => p.slot ≠ t.slot) := by
  have freed : (((s.discardLost t.base t.size).freeSlotOf t.slot).trace 2 t.launch.lnid).leave.holdings
      = (none, s.sched.slots.filter fun n => n ≠ t.slot, s.sched.pins.filter fun p => p.slot ≠ t.slot) := by
    have traced := holdings_of_aside (trace_aside ((s.discardLost t.base t.size).freeSlotOf t.slot) 2 t.launch.lnid)
    have kept := discardLost_holdings s t.base t.size
    simp only [State.holdings, Prod.mk.injEq] at traced kept
    obtain ⟨-, slots, pins⟩ := traced
    obtain ⟨-, slots', pins'⟩ := kept
    rw [leave_holdings, slots, pins, ← slots', ← pins']
    rfl
  unfold State.endTask
  dsimp only
  split
  · split
    · exact freed
    · exact (returnWindow_holdings _ _ _ _).trans freed
  · refine (holdings_of_aside (liveDown_aside _ _)).trans ?_
    split
    · exact freed
    · exact (returnWindow_holdings _ _ _ _).trans freed

end

end Sys2Proof.Machine
end

section
/-! PROOF. PARK, YIELD and TEND: O13. -/
namespace Sys2Proof.Machine

theorem exec_park (g : Guard) (x : ParkArgs) (s : State) : exec (.park g x) s = execPark g x s := rfl

theorem exec_yield (g : Guard) (n : BitVec 13) (s : State) : exec (.yield g n) s = execYield g n s := rfl

theorem exec_tend (g : Guard) (s : State) : exec (.tend g) s = execTend g s := rfl

section
variable {s u : State} {t : Task} {c : Ctx} {n : BitVec 13} {inRing : Bool} {place : Nat}

/-! ### What the checks ask of a task that leaves (R148, R157, R163) -/

/-- A 13-bit operand below 4,096 is its value. -/
theorem toInt_small (h : n.toNat < 4096) : n.toInt = n.toNat := by
  rw [BitVec.toInt_eq_toNat_of_lt (by omega)]

theorem taskForm_ok {ok : Bool} (h : ok = true) (hm : taskModes s) : taskForm ok c s.awake = .ok () := by
  obtain ⟨h1, h2⟩ := hm
  have not12 : ¬ ((s.awake.mode = 1 || s.awake.mode = 2) = true) := by
    rw [Bool.or_eq_true, decide_eq_true_eq, decide_eq_true_eq]
    exact not_or.2 ⟨h1, h2⟩
  unfold taskForm taskMode
  rw [if_pos h, if_neg not12]

theorem tendMode_ok (h : s.mode = 0) : tendMode c s.awake = .ok () :=
  if_neg (by rw [show s.awake.mode = 0 from h]; exact Nat.zero_ne_one)

theorem keepOk_ok (h : n.toNat < 4096) (hw : n.toNat ≤ s.regs.wl) (hc : n.toNat ≤ classSize t.cls) : s.keepOk t n = true := by
  unfold State.keepOk
  rw [toInt_small h, decide_eq_true_eq]
  exact Int.ofNat_le.2 (le_min hw hc)

theorem poolRoom_ok (h : s.poolFull t.cls = false) : s.poolRoom t = .ok () :=
  need_ok (by rw [h]; rfl)

/-- The words of two windows, neither with a binding. -/
theorem unboundAll_windows {b n b' n' : Nat} (h : ∀ k, k < n → s.bound (b + k) = false) (h' : ∀ k, k < n' → s.bound (b' + k) = false) :
    s.unboundAll ((List.range n).map (b + ·) ++ (List.range n').map (b' + ·)) = .ok () := by
  refine unboundAll_ok fun p hp => ?_
  rcases List.mem_append.1 hp with hp | hp
  · obtain ⟨k, hk, rfl⟩ := List.mem_map.1 hp
    exact h k (List.mem_range.1 hk)
  · obtain ⟨k, hk, rfl⟩ := List.mem_map.1 hp
    exact h' k (List.mem_range.1 hk)

theorem windowDrained_ok (h : drainedWindows s t) : s.windowDrained t = .ok () :=
  unboundAll_windows h.1 h.2

theorem needPark_ok {k : Nat} (h : s.parkRoom k = some inRing) : s.needPark k = .ok inRing := by
  simp only [State.needPark, h]

theorem mayLeave_ok {k : Nat} (hd : drainedWindows s t) (h : s.parkRoom k = some inRing) : s.mayLeave t k = .ok inRing := by
  unfold State.mayLeave
  rw [windowDrained_ok hd, ok_bind, needPark_ok h]

/-- As for Invariant.Holds.eventHere, the function is replaced by its body before it is applied. -/
theorem eventHere_ok {e : Nat} (h : eventPresent s e) : s.eventHere e = .ok () := by
  unfold eventPresent at h
  generalize hf : State.eventHere = f
  delta State.eventHere at hf
  subst hf
  dsimp only
  rw [h]

/-- Outside the supervisor a TEND waits for the current window and the task's. -/
theorem tendDrained_ok (hm : s.sup = false) (h : drainedWindows s t) : s.tendDrained t = .ok () := by
  unfold State.tendDrained
  rw [hm]
  exact unboundAll_windows h.1 h.2

/-- What is saved, with the place its record has. -/
theorem saveTask_eq {k : Nat} {on : ParkedOn} {v : Word} (h : s.parkPlace k = some (inRing, place)) :
    s.saveTask t s.regs.wb k s.resumeDesc on v inRing = savedTask s t k on v inRing place := by
  unfold State.saveTask
  rw [h]
  rfl

theorem queuesOpt_ok (hq : u.queuesLive = false) (ho : plainHandler u) (hf : bit u.regs.frmode 63 = false) :
    (do u.queuesEmpty c; u.noOpt c; u.notForerunner c : Res Unit) = .ok () := by
  rw [queuesEmpty_ok hq, ok_bind, noOpt_ok ho, ok_bind, noForerunner_ok hf]

end

/-! ### The statement -/

theorem parkAndYield_holds : parkAndYield := by
  constructor
  · intro g x s u v w y e sc t inRing ovf place hm he hq ho hf hsc hr hta hts htask hn hwl hcls hev hpool hdr hroom hpage hnode hrel hplace
    refine (exec_park g x s).trans (runEnd_left (taskForm_ok (decide_eq_true ?_) hm) he ?_)
    · rw [toInt_small hn]
      exact Int.natCast_nonneg _
    · have checked : form (w.keepOk t x.n && eventOk e) (s.ctx (.park g x)) = .ok () :=
        form_ok (Bool.and_eq_true_iff.2 ⟨keepOk_ok hn hwl hcls, decide_eq_true hev⟩)
      dsimp only
      rw [hsc, ok_bind, prepare_own hr (queuesOpt_ok hq ho hf), ok_bind, hta]
      dsimp only
      rw [hts]
      dsimp only
      rw [htask]
      dsimp only
      rw [checked, ok_bind, poolRoom_ok hpool, ok_bind, mayLeave_ok hdr hroom, ok_bind, eventHere_ok hpage, ok_bind, hnode]
      dsimp only
      rw [hrel, ok_bind, saveTask_eq hplace]
      rfl
  · intro g n s u y t inRing place hm he hq ho hf htask hn hwl hcls hpool hdr hroom hrel hplace
    refine (exec_yield g n s).trans (runEnd_left (taskForm_ok (decide_eq_true ?_) hm) he ?_)
    · rw [toInt_small hn]
      exact Int.natCast_nonneg _
    · rw [prepare_own (prepare_nil u _) (queuesOpt_ok hq ho hf), ok_bind, htask]
      dsimp only
      rw [form_ok (keepOk_ok hn hwl hcls), ok_bind, poolRoom_ok hpool, ok_bind, mayLeave_ok hdr hroom, ok_bind, hrel, ok_bind,
        saveTask_eq hplace]

theorem taskEnds_holds : taskEnds := by
  constructor
  · intro g s u y t hm he hu hq htask hdr hpool hrel hopt
    have sup : u.sup = false := decide_eq_false (by rw [hu]; decide)
    have sup' : y.sup = false := by
      rw [← sup]
      unfold State.sup State.mode
      rw [(release_keep' hrel).1]
    have roomed (next : Res Ended) : (if u.forerunner then (do Except.ok (); next) else (do u.poolRoom t; next)) = next := by
      by_cases h : u.forerunner = true
      · rw [if_pos h, ok_bind]
      · rw [if_neg h, poolRoom_ok (hpool.resolve_left h), ok_bind]
    have uncounted : (y.opt? && t.heldGvt) = false := by
      rcases hopt with h | h
      · rw [h, Bool.false_and]
      · rw [h, Bool.and_false]
    refine (exec_tend g s).trans (runEnd_left (tendMode_ok hm) he ?_)
    dsimp only
    rw [sup, if_neg Bool.false_ne_true, queuesEmpty_ok hq, ok_bind, htask]
    dsimp only
    rw [tendDrained_ok sup hdr, ok_bind, roomed, hrel, ok_bind, sup', if_neg Bool.false_ne_true, uncounted,
      if_neg Bool.false_ne_true]
  · intro s t _
    obtain ⟨task, rest⟩ := Prod.mk.inj (endTask_holdings s t)
    obtain ⟨slots, pins⟩ := Prod.mk.inj rest
    rw [slots, pins]
    exact ⟨task, fun n hn => of_decide_eq_true (List.mem_filter.1 hn).2, fun p hp => of_decide_eq_true (List.mem_filter.1 hp).2⟩

end Sys2Proof.Machine

open Sys2Proof Sys2Proof.Machine

/-- Settles O13: every check that the hypotheses name passes, so the bodies run to their end, the save with the place that parkPlace gives
(log entry 28); an ended task's slot and pins go with it, and what follows, the trace, a spilled record that enters, the live count, leaves
both and the core's task alone. -/
theorem tasksLeaveTheCore : Obligations.TasksLeaveTheCore :=
  ⟨parkAndYield_holds, taskEnds_holds⟩

end

section
/-! PROOF. Delivery of a record, dispatch, yields, steals and footprints: O37. -/
namespace Sys2Proof.Machine

section
variable {s t u : State} {x : Delivery} {h : Head} {a : Arrived} {e : PoolEntry} {es : List PoolEntry}

/-! ### What a read of a handler descriptor leaves alone (R158, R312) -/

/-- A state that differs in what is aside alone, written as an update of the other. -/
theorem eq_of_aside (h : t.aside = s.aside) : ∃ wait tlb muTlb hit mail mem parked launches head dropped sys, t = { s with
    core := { s.core with wait := wait, tlb := tlb, muTlb := muTlb, tableHit := hit, mail := mail }
    mem := mem
    sched := { s.sched with parked := parked, launches := launches, trHead := head, trDropped := dropped }
    sys := sys } := by
  refine ⟨t.core.wait, t.core.tlb, t.core.muTlb, t.core.tableHit, t.core.mail, t.mem, t.sched.parked, t.sched.launches, t.sched.trHead,
    t.sched.trDropped, t.sys, ?_⟩
  obtain ⟨pc, cyc, regs, core, mem, sched, opt, mu, eng, sys, ticks, inputs, peers, retry⟩ := t
  obtain ⟨⟩ := core
  obtain ⟨⟩ := sched
  simp only [State.aside, State.mk.injEq, Core.mk.injEq, Sched.mk.injEq] at h ⊢
  simp only [h, and_self]

theorem regs_of_aside (h : t.aside = s.aside) : t.regs = s.regs := by
  show t.aside.regs = s.aside.regs
  rw [h]

/-! ### A record that arrives (R160, R312) -/

/-- The record that arrives, under its descriptor. -/
def entering (s : State) (x : Delivery) (h : Head) : Arrived := { d := x, cls := h.cls, high := h.high, seq := s.sched.arrivals }

/-- The state in which its place is sought. -/
def State.numbered (s : State) (x : Delivery) : State :=
  { s.headSeen x.ctx x.r.w0 with sched := { (s.headSeen x.ctx x.r.w0).sched with
    arrivals := (s.headSeen x.ctx x.r.w0).sched.arrivals + 1 } }

/-- Where nothing waits before it, the record takes an inbox entry and a window, or spills. -/
theorem deliver_eq (hr : s.readHead x.ctx x.r.w0 = .ok h) (hh : s.sched.held = []) (hs : s.sched.spilled = []) (hf : s.forerunner = false) :
    s.deliver x = if !(s.numbered x).inboxRoom h.high then (s.numbered x).spill (entering s x h)
      else match (s.numbered x).popSpare h.cls with
        | some (e, t) => t.letIn (entering s x h) h e
        | none => (s.numbered x).spill (entering s x h) := by
  obtain ⟨_, _, _, _, _, _, _, _, _, _, _, e⟩ := eq_of_aside (headSeen_aside s x.ctx x.r.w0)
  have held : (s.numbered x).sched.held = [] := by
    unfold State.numbered
    rw [e]
    exact hh
  have spilled : (s.numbered x).sched.spilled = [] := by
    unfold State.numbered
    rw [e]
    exact hs
  have fore : (s.numbered x).forerunner = false := by
    unfold State.numbered
    rw [e]
    exact hf
  unfold State.deliver
  rw [hr]
  show (if ((s.numbered x).sched.held.any _) = true then _ else if (((s.numbered x).sched.spilled.any _) || _) = true then _ else
    if (s.numbered x).forerunner = true then _ else _) = _
  rw [held, spilled, fore]
  rfl

/-- The pool that is left when a window is popped for a delivery. -/
theorem popSpare_cons {c : Nat} (hp : mget [] s.sched.pools (c % 4) = e :: es)
    (hd : s.opt.domain = none ∨ s.sched.domqPassed = false ∨ es ≠ []) : s.popSpare c = some (e, s.setPool c es) := by
  have unblocked : (s.domqWants c && decide ((s.pool c).length ≤ 1)) = false := by
    unfold State.domqWants State.pool
    rw [hp]
    rcases hd with hd | hd | hd
    · rw [hd]
      rfl
    · rw [hd, Bool.and_false]
      rfl
    · rw [decide_eq_false (by have := List.length_pos_iff.2 hd; rw [List.length_cons]; omega), Bool.and_false]
  unfold State.popSpare State.popWindow State.pool at *
  rw [unblocked, hp]
  rfl

theorem popSpare_nil {c : Nat} (hp : mget [] s.sched.pools (c % 4) = []) : s.popSpare c = none := by
  unfold State.popSpare State.popWindow State.pool
  rw [hp, ite_self]

theorem fillWindow_store (s : State) (r : Rec) (base cls : Nat) (zero : Bool) :
    (s.fillWindow r base cls zero).core.store = windowFilled s.core.store base cls r zero := by
  unfold State.fillWindow windowFilled
  dsimp only
  cases zero with
  | true =>
    rw [if_pos rfl, if_pos rfl, setCells_store, setCells_store]
    rfl
  | false =>
    rw [if_neg Bool.false_ne_true, if_neg Bool.false_ne_true, setCells_store]
    rfl

/-- A record that enters the normal inbox in a window. -/
theorem letIn_normal (ha : a.high = false) : (s.letIn a h e).sched.pools = s.sched.pools
    ∧ (s.letIn a h e).sched.inbox = insertInbox { a with window := some e } s.sched.inbox
    ∧ (s.letIn a h e).core.store = windowFilled s.core.store e.base a.cls a.d.r (mustZero h e a.d.ctx.asid) := by
  have entered (t : State) : t.enterInbox { a with window := some e }
      = { t.stirred with sched := { t.stirred.sched with inbox := insertInbox { a with window := some e } t.sched.inbox } } := by
    unfold State.enterInbox
    dsimp only
    rw [ha]
    rfl
  unfold State.letIn
  dsimp only
  rw [entered]
  refine ⟨?_, ?_, fillWindow_store s _ _ _ _⟩
  · show (s.fillWindow a.d.r e.base a.cls _).sched.pools = _
    rw [fillWindow_sched]
  · show insertInbox _ (s.fillWindow a.d.r e.base a.cls _).sched.inbox = _
    rw [fillWindow_sched]

/-- It takes a window of its class and enters the inbox. -/
theorem recordDelivery_enters (hfl : s.sched.flying = []) (hh : s.sched.held = []) (hs : s.sched.spilled = [])
    (hf : bit s.regs.frmode 63 = false) (hr : s.readHead x.ctx x.r.w0 = .ok h) (hi : h.high = false) (hroom : s.sched.inbox.length < 128)
    (hp : mget [] s.sched.pools (h.cls % 4) = e :: es) (hd : s.opt.domain = none ∨ s.sched.domqPassed = false ∨ es ≠ []) :
    ∃ t, Becomes s (.recordDelivery x) t ∧ t.sched.pools = mput [] s.sched.pools (h.cls % 4) es
      ∧ (∀ a, a ∈ t.sched.inbox ↔ a = arrived s x h.cls (some e) ∨ a ∈ s.sched.inbox)
      ∧ t.core.store = windowFilled s.core.store e.base h.cls x.r (!(h.nozero && e.owner = x.ctx.asid.toNat)) := by
  obtain ⟨_, _, _, _, _, _, _, _, _, _, _, seen⟩ := eq_of_aside (headSeen_aside s x.ctx x.r.w0)
  have room : (s.numbered x).inboxRoom h.high = true := by
    unfold State.inboxRoom State.numbered
    rw [hi, seen]
    exact decide_eq_true hroom
  have popped : (s.numbered x).popSpare h.cls = some (e, (s.numbered x).setPool h.cls es) := by
    apply popSpare_cons
    · unfold State.numbered
      rw [seen]
      exact hp
    · unfold State.numbered
      rw [seen]
      exact hd
  have delivered : s.deliver x = ((s.numbered x).setPool h.cls es).letIn (entering s x h) h e := by
    rw [deliver_eq hr hh hs hf, room, popped]
    rfl
  obtain ⟨pools, inbox, store⟩ := letIn_normal (s := (s.numbered x).setPool h.cls es) (a := entering s x h) (h := h) (e := e) hi
  refine ⟨s.deliver x, ?_, ?_, fun a => ?_, ?_⟩
  · show ((s.landed _).deliver x).done = _
    rw [landed_nil s _ hfl]
    rfl
  · rw [delivered, pools]
    unfold State.numbered
    rw [seen]
    rfl
  · rw [delivered, inbox, mem_insertInbox]
    unfold State.numbered entering arrived
    rw [seen, hi]
    rfl
  · rw [delivered, store]
    unfold State.numbered
    rw [seen]
    rfl

/-! ### A record that spills (R160) -/

/-- The state with another number of arrivals. -/
def State.withArrivals (s : State) (n : Nat) : State := { s with sched := { s.sched with arrivals := n } }

/-- Memory is written past the scheduler's state. -/
theorem writeRing_withArrivals (s : State) (n k : Nat) (ws : List Word) :
    (s.withArrivals n).writeRing k ws = (s.writeRing k ws).withArrivals n := by
  have place : (s.withArrivals n).memKey ((s.withArrivals n).slotPlace k) = s.memKey (s.slotPlace k) := rfl
  unfold State.writeRing State.writePhysMem
  rw [place]
  cases s.memKey (s.slotPlace k) with
  | none => rfl
  | some key =>
    dsimp only
    rw [apply_ite (State.withArrivals · n)]
    rfl

theorem pullAt_withArrivals (s : State) (n pa : Nat) : (s.withArrivals n).pullAt pa = (s.pullAt pa).withArrivals n := by
  have absent : (s.withArrivals n).absentAt pa = s.absentAt pa := rfl
  unfold State.pullAt State.startPull
  rw [absent]
  cases s.absentAt pa with
  | none => rfl
  | some page =>
    dsimp only
    rw [apply_ite (State.withArrivals · n)]
    rfl

theorem pullRing_withArrivals (s : State) (n k : Nat) : (s.withArrivals n).pullRing k = (s.pullRing k).withArrivals n := by
  have run : freeRun (s.withArrivals n).slotsUsed 0 (s.withArrivals n).ovfrCap k = freeRun s.slotsUsed 0 s.ovfrCap k := rfl
  unfold State.pullRing
  rw [run]
  cases freeRun s.slotsUsed 0 s.ovfrCap k with
  | none => rfl
  | some j =>
    dsimp only
    rw [pullAt_withArrivals, pullAt_withArrivals]
    rfl

theorem writeRing_aside (s : State) (k : Nat) (ws : List Word) : (s.writeRing k ws).aside = s.aside := writePhysMem_aside s _ _

theorem pullRing_aside (s : State) (k : Nat) : (s.pullRing k).aside = s.aside := by
  unfold State.pullRing
  split
  · exact (pullAt_aside _ _).trans (pullAt_aside s _)
  · rfl

/-- Where its pool is empty it spills, whether or not the inbox has room. -/
theorem deliver_spills (hh : s.sched.held = []) (hs : s.sched.spilled = []) (hf : s.forerunner = false)
    (hr : s.readHead x.ctx x.r.w0 = .ok h) (hp : mget [] s.sched.pools (h.cls % 4) = []) :
    s.deliver x = (s.numbered x).spill (entering s x h) := by
  have popped : (s.numbered x).popSpare h.cls = none := by
    apply popSpare_nil
    obtain ⟨_, _, _, _, _, _, _, _, _, _, _, seen⟩ := eq_of_aside (headSeen_aside s x.ctx x.r.w0)
    unfold State.numbered
    rw [seen]
    exact hp
  rw [deliver_eq hr hh hs hf, popped, ite_self]

theorem recordDelivery_spills (hfl : s.sched.flying = []) (hh : s.sched.held = []) (hs : s.sched.spilled = [])
    (hf : bit s.regs.frmode 63 = false) (hr : s.readHead x.ctx x.r.w0 = .ok h) (hi : h.high = false)
    (hp : mget [] s.sched.pools (h.cls % 4) = []) :
    (∀ k y, (s.headSeen x.ctx x.r.w0).ringSlot = some k → y = (s.headSeen x.ctx x.r.w0).writeRing k x.r.words →
      Becomes s (.recordDelivery x) { y with sched := { y.sched with
        arrivals := y.sched.arrivals + 1, spilled := [{ arrived s x h.cls none with slot := k }] } })
    ∧ (∀ y, (s.headSeen x.ctx x.r.w0).ringSlot = none → y = (s.headSeen x.ctx x.r.w0).pullRing 1 → Becomes s (.recordDelivery x)
      { y with sched := { y.sched with arrivals := y.sched.arrivals + 1, held := [arrived s x h.cls none] } }) := by
  have entered : entering s x h = arrived s x h.cls none := by
    unfold entering arrived
    rw [hi]
  have delivered : exec (.recordDelivery x) s = .next (((s.numbered x).spill (arrived s x h.cls none)).tick) := by
    show ((s.landed _).deliver x).done = _
    rw [landed_nil s _ hfl, deliver_spills hh hs hf hr hp, entered]
    rfl
  have slot : (s.numbered x).ringSlot = (s.headSeen x.ctx x.r.w0).ringSlot := rfl
  obtain ⟨_, _, _, _, _, _, _, _, _, _, _, seen⟩ := eq_of_aside (headSeen_aside s x.ctx x.r.w0)
  constructor
  · intro k y hk hy
    have written : (s.numbered x).writeRing k x.r.words = y.withArrivals ((s.headSeen x.ctx x.r.w0).sched.arrivals + 1) := by
      rw [hy]
      exact writeRing_withArrivals _ _ _ _
    obtain ⟨_, _, _, _, _, _, _, _, _, _, _, e⟩ := eq_of_aside (hy ▸ writeRing_aside (s.headSeen x.ctx x.r.w0) k x.r.words : y.aside = _)
    have spilled : y.sched.spilled = [] := by
      rw [e, seen]
      exact hs
    have arrivals : y.sched.arrivals = (s.headSeen x.ctx x.r.w0).sched.arrivals := by rw [e]
    refine delivered.trans ?_
    unfold State.spill
    rw [slot, hk]
    show Host.Outcome.next (State.tick { (s.numbered x).writeRing k x.r.words with sched := { ((s.numbered x).writeRing k x.r.words).sched with
      spilled := ((s.numbered x).writeRing k x.r.words).sched.spilled ++ _ } }) = _
    rw [written, arrivals]
    show Host.Outcome.next (State.tick { y with sched := { y.sched with arrivals := _, spilled := y.sched.spilled ++ _ } }) = _
    rw [spilled]
    rfl
  · intro y hk hy
    have pulled : (s.numbered x).pullRing 1 = y.withArrivals ((s.headSeen x.ctx x.r.w0).sched.arrivals + 1) := by
      rw [hy]
      exact pullRing_withArrivals _ _ _
    obtain ⟨_, _, _, _, _, _, _, _, _, _, _, e⟩ := eq_of_aside (hy ▸ pullRing_aside (s.headSeen x.ctx x.r.w0) 1 : y.aside = _)
    have held : y.sched.held = [] := by
      rw [e, seen]
      exact hh
    have arrivals : y.sched.arrivals = (s.headSeen x.ctx x.r.w0).sched.arrivals := by rw [e]
    refine delivered.trans ?_
    unfold State.spill
    rw [slot, hk]
    show Host.Outcome.next (State.tick { (s.numbered x).pullRing 1 with sched := { ((s.numbered x).pullRing 1).sched with
      held := ((s.numbered x).pullRing 1).sched.held ++ _ } }) = _
    rw [pulled, arrivals]
    show Host.Outcome.next (State.tick { y with sched := { y.sched with arrivals := _, held := y.sched.held ++ _ } }) = _
    rw [held]
    rfl

/-! ### A record that is offered again (R160, R364) -/

theorem reoffer_unkeyed (hh : s.sched.held = [a]) (hl : s.lateEntry = none) (hk : a.d.key = none) : Becomes s .overflowReoffer
    (({ s with sched := { s.sched with held := [] } } : State).deliver a.d) := by
  show execOverflowReoffer s = _
  unfold execOverflowReoffer
  rw [hl, hh]
  show (State.reoffer _ a).done = _
  unfold State.reoffer
  rw [hk]
  rfl

/-- Outside MODE 2 no rollback waits (R368). -/
theorem rollbackWaits_outside {k : Key} {b : Bool} (hm : s.mode ≠ 2) : s.rollbackWaits k b = false := by
  unfold State.rollbackWaits
  rw [decide_eq_false hm, Bool.false_and]

theorem reoffer_keyed {k : Key} (hh : s.sched.held = [a]) (hl : s.lateEntry = none) (hk : a.d.key = some k) (hm : s.mode ≠ 2) :
    Becomes s .overflowReoffer (({ s with sched := { s.sched with held := [] } } : State).optEnter a.d) := by
  have ready : ({ s with sched := { s.sched with held := [] } } : State).rollbackWaits k false = false := rollbackWaits_outside hm
  show execOverflowReoffer s = _
  unfold execOverflowReoffer
  rw [hl, hh]
  show (State.reoffer _ a).done = _
  unfold State.reoffer
  rw [hk]
  dsimp only
  rw [ready]
  rfl

/-! ### Dispatch (R158, R348, R394) -/

/-- What a task starts with, its registers and its place among the records. -/
def State.begun (s : State) : Word × Regs × Region × Option Task × List Arrived × List Arrived :=
  (s.pc, s.regs, s.core.region, s.sched.task, s.sched.inbox, s.sched.spilled)

theorem begun_of_aside (h : t.aside = s.aside) : t.begun = s.begun := by
  show t.aside.begun = s.aside.begun
  rw [h]

/-- With nothing spilled nothing settles. -/
theorem settle_begun (h : s.sched.spilled = []) : s.settle.begun = s.begun := by
  unfold State.settle
  rw [h]
  show (s.pc, s.regs, s.core.region, s.sched.task, s.sched.inbox, []) = _
  rw [← h]
  rfl

theorem afresh_begun (s : State) (scope : Word) :
    (s.afresh scope).begun = (s.pc, s.regs, {}, s.sched.task, s.sched.inbox, s.sched.spilled) := by
  unfold State.afresh State.acquire
  dsimp only
  split <;> rfl

/-- The task of a record without a footprint, outside virtual time. -/
def startedTask (d : Delivery) (e : PoolEntry) (cls limit : Nat) (h : Head) (slot : Nat) : Task :=
  { base := e.base, cls := cls, entry := entryOf d.r.w0, record := d.r, launch := d.ctx, slot := slot, key := d.key, scope := d.scope
    budget := h.budget, entered := true, nozero := h.nozero, size := limit }

/-- The registers it starts with. -/
def startedRegs (s : State) (d : Delivery) (e : PoolEntry) (cls limit : Nat) (h : Head) : Regs :=
  (({ s.loadLaunch d.ctx (vtOf false d.key) with regs := { (s.loadLaunch d.ctx (vtOf false d.key)).regs with
    taskstat := wd (fld 0 15 + fld 0 12 + fld cls 10 + fld 0 9), tbudget := h.budget, tclk := 0 } } : State).setWindow e.base limit).regs

/-- They are the old ones but for what the start sets. -/
theorem startedRegs_congr {d : Delivery} {cls limit : Nat} (hreg : t.regs = s.regs) : startedRegs t d e cls limit h = startedRegs s d e cls limit h := by
  unfold startedRegs State.loadLaunch State.setWindow
  dsimp only
  rw [hreg]

theorem startTask_begun {d : Delivery} {cls limit : Nat} (hr : s.readHead d.ctx d.r.w0 = .ok h) (hk : d.key = none)
    (ho : h.optimistic = false) (hs : h.spans d.r = []) : (s.startTask d e cls limit 0 true).begun
      = (entryOf d.r.w0, startedRegs s d e cls limit h, {}, some (startedTask d e cls limit h (freeSlot s.sched.slots 65536 0)),
        s.sched.inbox, s.sched.spilled) := by
  unfold State.startTask
  rw [hr]
  extract_lets found hd mismatch fault opt s1 s2 s3 slot spans off s4 s5 nofp _ s6 place _ s7
  have hmatch : mismatch = false := by
    show (d.key.isSome != h.optimistic) = false
    rw [hk, ho]
    rfl
  have hfault : fault = none := by
    show (if mismatch then _ else none) = none
    rw [hmatch]
    rfl
  have hopt : opt = false := by
    show (d.key.isSome && h.optimistic) = false
    rw [ho, Bool.and_false]
  have hspans : spans = [] := by
    show (if fault.isSome then [] else h.spans d.r) = []
    rw [hs, ite_self]
  have hoff : off = none := by
    show (if spans.isEmpty then none else _) = none
    rw [hspans]
    rfl
  have hplace : place = [] := by
    show (match off with
      | some o => placings o spans
      | none => []) = []
    rw [hoff]
  have hnofp : nofp = false := by
    show (!spans.isEmpty && off.isNone) = false
    rw [hspans]
    rfl
  have h3 : s3.aside = s.aside := by
    show s2.aside = s.aside
    show (if mismatch then _ else s1).aside = s.aside
    rw [hmatch]
    exact headSeen_aside s d.ctx d.r.w0
  have regs3 : s3.regs = s.regs := regs_of_aside h3
  have slot3 : slot = freeSlot s.sched.slots 65536 0 := by
    obtain ⟨_, _, _, _, _, _, _, _, _, _, _, e⟩ := eq_of_aside h3
    show freeSlot s3.sched.slots 65536 0 = _
    rw [e]
  have lists3 : s3.sched.inbox = s.sched.inbox ∧ s3.sched.spilled = s.sched.spilled := by
    obtain ⟨_, _, _, _, _, _, _, _, _, _, _, e⟩ := eq_of_aside h3
    rw [e]
    exact ⟨rfl, rfl⟩
  clear_value s3 fault opt nofp place off slot
  subst hfault hopt hnofp hplace slot3
  generalize hstart : (if false = true then s7.enterProc d else (s7, false, false)) = started
  obtain rfl : (s7, false, false) = started := hstart
  dsimp -zeta only
  extract_lets tk _ _ _ s9 s10 s11
  have regs9 : s9.regs = startedRegs s d e cls limit h := startedRegs_congr (t := s3) regs3
  calc s11.begun
      _ = s10.begun := rfl
      _ = (s9.afresh d.scope).unhold.begun := begun_of_aside (trace_aside _ _ _)
      _ = (s9.afresh d.scope).begun := rfl
      _ = (s9.pc, s9.regs, {}, s9.sched.task, s3.sched.inbox, s3.sched.spilled) := afresh_begun s9 d.scope
      _ = _ := by
        rw [regs9, lists3.1, lists3.2]
        rfl

/-- MODE of the registers a task starts with is 0 (R159). -/
theorem mode_of_startedRegs {d : Delivery} {cls limit : Nat} (hc : cls < 4) (hreg : t.regs = startedRegs s d e cls limit h) : t.mode = 0 := by
  have stat : t.regs.taskstat = wd (fld 0 15 + fld 0 12 + fld cls 10 + fld 0 9) := by
    rw [hreg]
    rfl
  have each : ∀ c : Fin 4, bits (wd (fld 0 15 + fld 0 12 + fld c.val 10 + fld 0 9)) 13 12 = 0 := by decide
  unfold State.mode
  rw [stat]
  exact each ⟨cls, hc⟩

/-- The free core's work is the inbox's first record where nothing goes before it. -/
theorem work_normal {rest : List Arrived} (hhigh : s.sched.high = []) (hf : s.forerunner = false) (hres : s.sched.resume = [])
    (hdom : s.opt.domain = none) (hin : s.sched.inbox = a :: rest) : s.work = some (.normal a) := by
  unfold State.work State.domqHead State.laterWork
  rw [hhigh, hf, hres, hdom, hin]
  rfl

theorem markPassed_normal (hres : s.sched.resume = []) (hdom : s.opt.domain = none) : s.markPassed (some (.normal a)) = s := by
  unfold State.markPassed State.domqHead
  rw [hres, hdom]
  show { s with sched := { s.sched with resume := [] } } = s
  rw [← hres]

theorem exec_dispatch (s : State) : exec .dispatch s = execDispatch s := rfl

theorem dispatch_free (htask : s.sched.task = none) (hpre : bit s.preemptReg 0 = false) {w : Work} (hw : s.work = some w) :
    Becomes s .dispatch ((s.markPassed (some w)).takeWork w) := by
  show execDispatch s = _
  unfold execDispatch
  rw [htask]
  dsimp only
  rw [hpre, if_neg Bool.false_ne_true, hw]
  rfl

theorem takeWork_normal {rest : List Arrived} (hin : s.sched.inbox = a :: rest) (hr : s.readHead a.d.ctx a.d.r.w0 = .ok h)
    (hwin : a.window = some e) (hf : s.forerunner = false) : s.takeWork (.normal a)
      = (({ s with sched := { s.sched with inbox := rest.filter fun b => b.seq ≠ a.seq } } : State).startTask a.d e a.cls (classSize a.cls) 0
        true).settle := by
  have gone : (s.sched.inbox.filter fun x => decide (x.seq ≠ a.seq)) = rest.filter fun b => decide (b.seq ≠ a.seq) := by
    rw [hin, List.filter_cons_of_neg (by simp)]
  unfold State.takeWork Work.delivery?
  dsimp only
  rw [hr]
  show s.dispatchWork (.normal a) = _
  unfold State.dispatchWork
  dsimp only
  rw [gone, hwin]
  exact if_neg (Bool.eq_false_iff.1 hf)

theorem dispatch_starts {v : State} {rest : List Arrived} (htask : s.sched.task = none)
    (hpre : bit (mget 0 s.sched.preempt s.core.number) 0 = false) (hhigh : s.sched.high = []) (hf : bit s.regs.frmode 63 = false)
    (hres : s.sched.resume = []) (hsp : s.sched.spilled = []) (hdom : s.opt.domain = none) (hin : s.sched.inbox = a :: rest)
    (hwin : a.window = some e) (hk : a.d.key = none) (hc : a.cls < 4)
    (hv : v = { s with sched := { s.sched with inbox := rest.filter fun b => b.seq ≠ a.seq } })
    (hr : s.readHead a.d.ctx a.d.r.w0 = .ok h) (hr' : v.readHead a.d.ctx a.d.r.w0 = .ok h) (ho : h.optimistic = false)
    (hs : h.spans a.d.r = []) :
    ∃ (t : State) (u : Task), Becomes s .dispatch t ∧ t.sched.task = some u ∧ u.entered = true ∧ u.record = a.d.r ∧ u.launch = a.d.ctx
      ∧ t.pc = entryOf a.d.r.w0 ∧ t.mode = 0 ∧ t.regs.wb = e.base ∧ t.regs.wl = classSize a.cls ∧ t.regs.tclk = 0
      ∧ t.regs.tbudget = h.budget ∧ t.regs.asid = a.d.ctx.asid.toNat % 65536 ∧ t.regs.cbase = a.d.ctx.cbase ∧ t.core.region = {}
      ∧ t.sched.inbox = rest.filter fun b => b.seq ≠ a.seq := by
  have started := startTask_begun (e := e) (cls := a.cls) (limit := classSize a.cls) hr' hk ho hs
  have unspilled : (v.startTask a.d e a.cls (classSize a.cls) 0 true).sched.spilled = [] := by
    have spilled : (v.startTask a.d e a.cls (classSize a.cls) 0 true).sched.spilled = v.sched.spilled :=
      congrArg (fun p => p.2.2.2.2.2) started
    rw [spilled, hv]
    exact hsp
  have settled := (settle_begun unspilled).trans started
  have becomes : Becomes s .dispatch (v.startTask a.d e a.cls (classSize a.cls) 0 true).settle := by
    have step := dispatch_free htask hpre (work_normal hhigh hf hres hdom hin)
    rw [markPassed_normal hres hdom, takeWork_normal hin hr hwin hf, ← hv] at step
    exact step
  generalize (v.startTask a.d e a.cls (classSize a.cls) 0 true).settle = t at settled becomes
  simp only [State.begun, Prod.mk.injEq] at settled
  obtain ⟨pc, regs, region, task, inbox, -⟩ := settled
  refine ⟨t, _, becomes, task, rfl, rfl, rfl, pc, mode_of_startedRegs hc regs, ?_, ?_, ?_, ?_, ?_, ?_, region, ?_⟩
  · rw [regs]
    rfl
  · rw [regs]
    rfl
  · rw [regs]
    rfl
  · rw [regs]
    rfl
  · rw [regs]
    rfl
  · rw [regs]
    rfl
  · rw [inbox, hv]

/-- The free core answers a request for pre-emption (R394). -/
theorem dispatch_preempted (htask : s.sched.task = none) (hlow : s.sched.low = none)
    (hpre : bit (mget 0 s.sched.preempt s.core.number) 0 = true) : Becomes s .dispatch { s with sched := { s.sched with
      preempt := mput 0 s.sched.preempt s.core.number (mget 0 s.sched.preempt s.core.number ||| wd (2 ^ 63)) } } := by
  have asked : (s.sched.task.isNone && s.sched.low.isNone && bit s.preemptReg 0) = true := by
    rw [htask, hlow, show bit s.preemptReg 0 = true from hpre]
    rfl
  have acked : s.ackPreempt = { s with sched := { s.sched with
      preempt := mput 0 s.sched.preempt s.core.number (s.preemptReg ||| wd (2 ^ 63)) } } := by
    unfold State.ackPreempt
    exact if_pos asked
  refine Eq.trans (b := s.ackPreempt.done) ?_ (congrArg State.done acked)
  rw [exec_dispatch]
  unfold execDispatch
  rw [htask]
  dsimp only
  rw [show bit s.preemptReg 0 = true from hpre, if_pos rfl, hlow]

/-! ### Yields and steals (R321, R347) -/

theorem yieldHoldExpiry_unholds (htask : s.sched.task = none) (hw : s.work = none) (hh : (s.sched.resume.any fun r => r.hold) = true)
    (ht : s.core.freeSince + 4096 ≤ s.cyc) : Becomes s .yieldHoldExpiry { s with sched := { s.sched with
      resume := s.sched.resume.map fun r => { r with hold := false } } } := by
  have due : s.holdOver = true := by
    unfold State.holdOver
    rw [htask, hw, hh, decide_eq_true ht]
    rfl
  show (if s.holdOver then s.unhold else s).done = _
  rw [due]
  rfl

theorem stealRoundWait_ends {n : Nat} (hw : s.sched.stealWait = some n) (ht : n ≤ s.cyc) :
    Becomes s .stealRoundWait { s with sched := { s.sched with stealWait := none } } := by
  have ready : s.stealReady = true := by
    unfold State.stealReady
    rw [hw]
    exact decide_eq_true ht
  show (if s.stealReady then _ else s).done = _
  rw [ready]
  rfl

/-! ### Footprints (R161) -/

/-- Checking the pieces of an access leaves the registers alone. -/
theorem openPieces_regs {w : Who} {k : Kind} {va : Word} {n size : Nat} {sync : Bool} {ps : List Piece}
    (h : s.openPieces w k va n size sync = .ok (ps, u)) : u.regs = s.regs := by
  unfold State.openPieces at h
  split at h
  · cases h
  · next e =>
    dsimp only at h
    split at h
    · cases h
    · obtain ⟨_, -, h⟩ := bind_ok h
      obtain ⟨_, -, h⟩ := bind_ok h
      split at h
      · cases h
      cases h
      exact regs_of_aside (translateAll_aside.ok e)

/-- No piece of the range stands in an optimistic handler's way (R356). -/
theorem footprint_allowed {ps : List Piece} (ho : u.optimistic = false ∨ ∀ p ∈ ps, p.loc.what ≠ .store) :
    (if u.optimistic then ps.find? fun p => p.loc.what = .store else none) = none := by
  rcases ho with ho | ho
  · rw [ho]
    rfl
  · rw [List.find?_eq_none.2 fun p hp => by rw [decide_eq_true_eq]; exact ho p hp, ite_self]

theorem footprintFetch_places {y v : State} {tk : Task} {off n : Nat} {va : Word} {rest : List (Nat × Word × Nat)} {ps : List Piece}
    {bs : List Byte} {r : State} (htask : s.sched.task = some tk) (hpl : tk.placing = (off, va, n) :: rest)
    (hopen : s.openPieces { asid := s.regs.asid, sup := false, noDev := true, via := .cluster (clusterOf s.core.number) } .read va n n false
      = .ok (ps, u)) (ho : s.optimistic = false ∨ ∀ p ∈ ps, p.loc.what ≠ .store) (hmeet : u.meetNone .read va ps false = .ok ())
    (hrec : u.record ps true false false true = .ok r) (hread : r.readPieces 15 .die true ps = (bs, none, y))
    (hv : v = y.writeHome (storeKey y.core.number off) bs) : Becomes s .footprintFetch { v with sched := { v.sched with task := some { tk with
      placing := rest, entered := rest.isEmpty && !tk.proc && tk.restoreArea.isNone } } } := by
  have same : u.optimistic = s.optimistic := by
    unfold State.optimistic State.opt? State.mode
    rw [openPieces_regs hopen]
  have placed : s.placeRange off va n = .ok v := by
    unfold State.placeRange
    dsimp only
    rw [show s.openPieces (engineWho s.regs.asid false (.cluster (clusterOf s.core.number))) .read va n n false = .ok (ps, u) from hopen,
      ok_bind]
    dsimp only
    rw [footprint_allowed (same ▸ ho)]
    dsimp only
    rw [ok_bind, hmeet, ok_bind, hrec, ok_bind, hread]
    dsimp only
    rw [hv]
  show execFootprintFetch s = _
  unfold execFootprintFetch
  rw [htask]
  dsimp only
  rw [hpl]
  dsimp only
  rw [placed]
  rfl

end

end Sys2Proof.Machine

open Sys2Proof Sys2Proof.Machine

/-- Settles O37: a record is delivered or spills by its pool (deliver_eq), a dispatch starts the inbox's first record (startTask_begun) or
answers a request, and the waits end by their times; the read of a handler descriptor changes only what is aside. -/
theorem dispatchEvents : Obligations.DispatchEvents :=
  ⟨fun _ _ _ _ _ => recordDelivery_enters, fun _ _ _ => recordDelivery_spills, fun _ _ => reoffer_unkeyed, fun _ _ _ => reoffer_keyed,
    fun _ _ _ _ _ _ => dispatch_starts, fun _ => dispatch_preempted, fun _ => yieldHoldExpiry_unholds, fun _ _ => stealRoundWait_ends,
    fun _ _ _ _ _ _ _ _ _ _ _ _ => footprintFetch_places⟩

end

section
/-! PROOF. What the instructions that work on words leave alone: O55. Their parts are followed as in the proof of what every step keeps, whose
lemmas on checks are used here; the property is that of a fixed state before. -/
namespace Sys2Proof.Machine

/-! ### The property -/

/-- What those instructions leave alone (R137), with UTWIN, or but for it. -/
def State.beyondWords (utwin : Bool) (s : State) :=
  (s.mem.bytes, s.mem.lost, s.mem.rdc.filter fun x => x.2.dirty, s.mem.clusterTab, s.mem.laneTab, s.mem.bankTab, s.mu, s.eng, s.opt,
    s.sched.events, s.sched.waiters, s.sched.inbox, s.sched.high, s.sched.domq, s.sched.deque, s.sched.dqMem, s.sched.pools, s.sched.slots,
    s.inputs, ({ s.regs with utwin := if utwin then s.regs.utwin else 0 } : Regs).settled)

/-- It is in t what it was in s. -/
def Unmoved (utwin : Bool) (s t : State) : Prop := t.beyondWords utwin = s.beyondWords utwin

/-- A stop leaves it alone in the state it names, if it names one. -/
def Unmoved.Stops (utwin : Bool) (s : State) : Stop → Prop
  | .trapIn t _ _ | .waitIn t _ => Unmoved utwin s t
  | .trap _ _ | .wait _ => True

/-- An instruction that ran to its end leaves it alone. -/
def Unmoved.Leaves (utwin : Bool) (s : State) : Ended → Prop
  | .completed t | .left t => Unmoved utwin s t

/-- The invariant that no state has: what stops with it names no state. -/
def Invariant.never : Invariant where
  mem _ _ _ := False
  preempt _ := True
  cyc _ := True
  bytes _ h := h
  lines _ h := h
  rdcFilter _ h := h
  rdcMap _ _ h := h
  rdcPut _ _ _ h := h
  rdcDrop _ h := h
  empty h := h
  preemptPut _ _ h := h
  noPreempt := trivial
  time _ := trivial

section
variable {b : Bool} {s t u : State}

/-- A state with the same such parts. -/
theorem Unmoved.frame (h : Unmoved b s t) (e : u.beyondWords b = t.beyondWords b) : Unmoved b s u := e.trans h

theorem Unmoved.ite {c : Prop} [Decidable c] (ht : Unmoved b s t) (hu : Unmoved b s u) : Unmoved b s (if c then t else u) := by
  split
  · exact ht
  · exact hu

/-- An operand that an instruction reads under a condition. -/
theorem Unmoved.readIf {α : Type} {c : Prop} [Decidable c] {x : α × State} {a : α} (h : Unmoved b s t) (hx : Unmoved b s x.2) :
    Unmoved b s (if c then x else (a, t)).2 := by
  split
  · exact hx
  · exact h

theorem Unmoved.readUnless {α : Type} {c : Prop} [Decidable c] {x : α × State} {a : α} (h : Unmoved b s t) (hx : Unmoved b s x.2) :
    Unmoved b s (if c then (a, t) else x).2 := by
  split
  · exact h
  · exact hx

/-- A check stops without a state, so it leaves everything alone. -/
theorem Ends.checked {α : Type} {m : Res α} (h : Invariant.never.Checks m) : Ends (Unmoved.Stops b s) (fun _ => True) m := by
  cases m with
  | ok a => trivial
  | error e =>
    cases e with
    | trap c i => trivial
    | wait on => trivial
    | trapIn u c i => exact absurd h fun h => h.1
    | waitIn u on => exact absurd h fun h => h.1

/-- What follows a check. -/
theorem Unmoved.after {α β : Type} {m : Res α} {k : α → Res β} {A : β → Prop} (hm : Invariant.never.Checks m)
    (hk : ∀ a, Ends (Unmoved.Stops b s) A (k a)) : Ends (Unmoved.Stops b s) A (m >>= k) :=
  hm.checked.bind fun a _ => hk a

/-! ### Words, regions, traps and the frame of every instruction (R75, R137, R152, R207) -/

theorem Unmoved.setCell {p : Nat} {c : Cell} (h : Unmoved b s t) : Unmoved b s (t.setCell p c) := h.frame (by rfl)

theorem Unmoved.setCells {α : Type} {f : State → α → State} {l : List α} (h : Unmoved b s t) (hf : ∀ u a, Unmoved b s u → Unmoved b s (f u a)) :
    Unmoved b s (l.foldl f t) := by
  induction l generalizing t with
  | nil => exact h
  | cons a l ih => exact ih (hf t a h)

/-- Self-invalidation drops clean bytes of the RDC alone (R75). -/
theorem Unmoved.selfInvalidate (h : Unmoved b s t) : Unmoved b s t.selfInvalidate := by
  have kept : (t.mem.rdc.filter fun x => x.2.dirty || !t.rdcMine (x.1 / 128 * 128)).filter (fun x => x.2.dirty)
      = t.mem.rdc.filter fun x => x.2.dirty := by
    rw [List.filter_filter]
    refine List.filter_congr fun x _ => ?_
    cases x.2.dirty <;> rfl
  refine h.frame ?_
  unfold State.beyondWords State.selfInvalidate
  dsimp only
  rw [kept]

theorem Unmoved.closeRegion (h : Unmoved b s t) : Unmoved b s t.closeRegion := h.frame (by rfl)

theorem Unmoved.acquire {width : Nat} (h : Unmoved b s t) : Unmoved b s (t.acquire width) :=
  h.closeRegion.selfInvalidate.ite h.closeRegion

theorem Unmoved.seen {p : Nat} (h : Unmoved b s t) : Unmoved b s (t.seen p) := by
  unfold State.seen
  split
  · exact h.setCell.acquire
  · exact h

theorem Unmoved.setPc {pc : Word} (h : Unmoved b s t) : Unmoved b s { t with pc := pc } := h.frame (by rfl)

theorem Unmoved.setTaskstat {v : Word} (h : Unmoved b s t) : Unmoved b s { t with regs := { t.regs with taskstat := v } } := h.frame (by rfl)

theorem Unmoved.setMode {m : Nat} (h : Unmoved b s t) : Unmoved b s (t.setMode m) := h.setTaskstat

theorem Unmoved.setWindow {base limit : Nat} (h : Unmoved b s t) : Unmoved b s (t.setWindow base limit) := h.frame (by rfl)

theorem Unmoved.noteTrap {d c i : Word} (h : Unmoved b s t) :
    Unmoved b s { t with regs := { t.regs with tsave := d, tcause := c, tinfo := i } } := h.frame (by rfl)

theorem Unmoved.noteUserTrap {d c i : Word} (h : Unmoved b s t) :
    Unmoved b s { t with regs := { t.regs with utsave := d, utcause := c, utinfo := i } } := h.frame (by rfl)

theorem Unmoved.halted {m : Sent} (h : Unmoved b s t) : Unmoved b s (t.haltPartition.post m) := h.frame (by rfl)

theorem Unmoved.enterUser {c : Nat} {info pc : Word} (h : Unmoved b s t) : Unmoved b s (t.enterUser c info pc) :=
  h.noteUserTrap.setWindow.setMode.setPc

theorem Unmoved.enterTwin {c : Nat} {info pc : Word} {async : Bool} (h : Unmoved b s t) : Unmoved b s (t.enterTwin c info pc async) :=
  h.halted.setPc.ite h.noteTrap.setWindow.setMode.setPc

theorem Unmoved.unwait (h : Unmoved b s t) : Unmoved b s t.unwait := h.frame (by rfl)

theorem Unmoved.countCause {c : Nat} (h : Unmoved b s t) : Unmoved b s (t.countCause c) := Unmoved.ite (h.frame (by rfl)) h

theorem Unmoved.takeTrap {c : Nat} {info pc : Word} (h : Unmoved b s t) : Unmoved b s (t.takeTrap c info pc) :=
  h.countCause.unwait.enterUser.ite h.countCause.unwait.enterTwin

theorem Unmoved.count {c n : Nat} (h : Unmoved b s t) : Unmoved b s (t.count c n) := h.frame (by rfl)

theorem Unmoved.standStill {n : Nat} (h : Unmoved b s t) : Unmoved b s (t.standStill n) := h.frame (by rfl)

theorem Unmoved.sweepFor {n : Nat} (h : Unmoved b s t) : Unmoved b s (t.sweepFor n) := h.frame (by rfl)

/-- Time passes (R3). -/
theorem Unmoved.tick (h : Unmoved b s t) : Unmoved b s t.tick := by
  unfold State.tick
  refine Unmoved.frame ?_ (by rfl)
  refine Unmoved.ite (.frame ?_ (by rfl)) ?_ <;> refine Unmoved.ite (.count ?_) ?_ <;>
    exact ((h.frame (by rfl)).standStill.ite (h.frame (by rfl))).sweepFor

theorem Unmoved.retire {m : Nat} (h : Unmoved b s t) : Unmoved b s (t.retire m) := by
  have ticked : Unmoved b s (({ t with core := { t.core with wait := none } }).count 1 1).tick := Unmoved.tick (h.frame (by rfl))
  exact ticked.takeTrap.ite ticked

theorem Unmoved.unread (h : Unmoved b s t) : Unmoved b s (t.unread u) := h.frame (by rfl)

theorem Unmoved.waiting {on : WaitOn} (h : Unmoved b s t) : Unmoved b s (t.waiting on) := by
  refine Unmoved.tick ?_
  unfold State.asksFor State.askRoom
  split
  · split
    · exact Unmoved.ite (h.frame (by rfl)) (h.frame (by rfl))
    · exact h.frame (by rfl)
  · exact h.frame (by rfl)
  · exact h.frame (by rfl)

theorem Unmoved.guard {g : Guard} (h : Unmoved b s t) : Ends (Unmoved.Stops b s) (fun x => Unmoved b s x.2) (t.guard g) := by
  have read : Ends (Unmoved.Stops b s) (fun x => Unmoved b s x.2) (t.readPred g.p) := by
    unfold State.readPred
    refine Ends.ite h ?_
    cases t.cell t.regs.wb with
    | lost info => exact trivial
    | empty => exact trivial
    | full v => exact h.seen
    | token v w => exact h.seen
  exact read.bind fun _ hr => hr

theorem Unmoved.finish {m : Res Ended} (h : Unmoved b s t) (hm : Ends (Unmoved.Stops b s) (Unmoved.Leaves b s) m) :
    Unmoved b s (finish t m) := by
  unfold Machine.finish
  split
  · exact Unmoved.retire hm
  · exact Unmoved.tick (Unmoved.frame hm rfl)
  · exact h.takeTrap.tick
  · exact (Unmoved.unread hm).takeTrap.tick
  · exact h.waiting
  · exact (Unmoved.unread hm).waiting

/-- An instruction leaves alone what its body leaves alone (R207). -/
theorem Unmoved.run {i : Instr} {g : Guard} {body : Ctx → State → Res State} (h : run i g body s = .next t)
    (hbody : ∀ c u, Unmoved b s u → Ends (Unmoved.Stops b s) (Unmoved b s) (body c u)) : Unmoved b s t := by
  cases h
  have awake : Unmoved b s s.awake := rfl
  refine awake.finish (awake.guard.bind fun r hr => ?_)
  have past : Unmoved b s (r.2.past (s.awake.ctx i)) := hr.frame (by rfl)
  refine Ends.ite ?_ past
  exact (hbody _ _ past).map fun _ hu => hu

/-! ### Operands (R137 to R141, R146, R188, R200, R207) -/

theorem Unmoved.readPhys {p : Nat} (h : Unmoved b s t) : Ends (Unmoved.Stops b s) (fun x => Unmoved b s x.2) (t.readPhys p) := by
  unfold State.readPhys
  split
  · exact trivial
  · exact trivial
  · exact h.seen

theorem Unmoved.take {n : Name} (h : Unmoved b s t) : Unmoved b s (t.take n).2 := by
  cases n with
  | w k => exact h.seen
  | nxt | prv => exact h.frame (by rfl)
  | lq0 | lq1 | sq0 | sq1 => exact h.frame (by rfl)
  | bad k | zero => exact h

theorem Unmoved.takeWords {p n : Nat} (h : Unmoved b s t) : Unmoved b s (t.takeWords p n).2 := by
  induction n generalizing t p with
  | zero => exact h
  | succ n ih => exact ih h.seen

theorem Unmoved.takeVec {v : Nat} (h : Unmoved b s t) : Unmoved b s (t.takeVec v).2 := h.takeWords

theorem Unmoved.takeOpnd {x : Opnd} (h : Unmoved b s t) : Unmoved b s (t.takeOpnd x).2 := by
  unfold State.takeOpnd
  split
  · exact h.take
  · exact h

theorem Unmoved.takeCount {x : Count} (h : Unmoved b s t) : Unmoved b s (t.takeCount x).2 := by
  unfold State.takeCount
  split
  · exact h.take
  · exact h

theorem Unmoved.writePhys {p : Nat} {v : Word} (h : Unmoved b s t) : Ends (Unmoved.Stops b s) (Unmoved b s) (t.writePhys p v) :=
  Unmoved.after Invariant.never.unbound fun _ => h.setCell

theorem Unmoved.write {n : Name} {v : Word} (h : Unmoved b s t) : Ends (Unmoved.Stops b s) (Unmoved b s) (t.write n v) := by
  cases n with
  | w k => exact h.writePhys
  | nxt | prv => exact Ends.ite trivial (.of (h.frame (by rfl)))
  | lq0 | lq1 | sq0 | sq1 => exact h.frame (by rfl)
  | bad k | zero => exact h

theorem Unmoved.writeVec {v : Nat} {ws : List Word} (h : Unmoved b s t) : Ends (Unmoved.Stops b s) (Unmoved b s) (t.writeVec v ws) :=
  Unmoved.after Invariant.never.unboundAll fun _ => h.setCells fun _ _ hu => hu.setCell

theorem Unmoved.writePred {p : Fin 16} {v : Bool} (h : Unmoved b s t) : Ends (Unmoved.Stops b s) (Unmoved b s) (t.writePred p v) :=
  (Ends.of h).ite (Unmoved.after Invariant.never.unbound fun _ => h.setCell)

theorem Unmoved.setFpctl {v : Word} (h : Unmoved b s t) : Unmoved b s { t with regs := { t.regs with fpctl := v } } := h.frame (by rfl)

theorem Unmoved.raise {f : FpFlags} (h : Unmoved b s t) : Ends (Unmoved.Stops b s) (Unmoved b s) (t.raise f) := by
  unfold State.raise
  split
  · exact trivial
  · exact h.setFpctl

theorem Unmoved.install {d : Word} (h : Unmoved b s t) : Ends (Unmoved.Stops b s) (Unmoved b s) (t.install d) :=
  Unmoved.after Invariant.never.checkDesc fun _ => h.setWindow

theorem Unmoved.drainRange {x : WRange} {c : Ctx} (h : Unmoved b s t) :
    Ends (Unmoved.Stops b s) (fun x => Unmoved b s x.2.2) (t.drainRange x c) := by
  unfold State.drainRange
  refine Ends.bind (Ends.checked Invariant.never.prepare) fun _ _ => ?_
  dsimp only
  refine Ends.bind (Ends.checked Invariant.never.checkAbs) fun _ _ => ?_
  split
  · exact trivial
  · exact h.take.takeCount

theorem Unmoved.takeIn {ty : Ty} {x : VIn} (h : Unmoved b s t) : Unmoved b s (t.takeIn ty x).2 := by
  unfold State.takeIn
  split
  · dsimp only
    exact h.takeVec
  · exact h.take

theorem Unmoved.takeIns {ty : Ty} {l : List VIn} (h : Unmoved b s t) : Unmoved b s (t.takeIns ty l).2 := by
  induction l generalizing t with
  | nil => exact h
  | cons x l ih => exact ih h.takeIn

theorem Unmoved.putEls {ty : Ty} {d : VDst} {els : List Nat} (h : Unmoved b s t) :
    Ends (Unmoved.Stops b s) (Unmoved b s) (t.putEls ty d els) := by
  unfold State.putEls
  split
  · exact h.writeVec
  · exact h.write

end

section
variable {b : Bool} {s t u : State} {c : Ctx}

/-! ### The bodies that several instructions share (R215 to R226, R267 to R282) -/

theorem Unmoved.aluBody {f : Ty → Word → Word → Nat} {x : Alu} (h : Unmoved b s t) :
    Ends (Unmoved.Stops b s) (Unmoved b s) (aluBody f x c t) :=
  Unmoved.after Invariant.never.prepare fun _ => h.take.takeOpnd.write

theorem Unmoved.unBody {f : Ty → Word → Nat} {x : Un} (h : Unmoved b s t) : Ends (Unmoved.Stops b s) (Unmoved b s) (unBody f x c t) :=
  Unmoved.after Invariant.never.prepare fun _ => h.take.write

theorem Unmoved.cmpBody {cc : Cc} {x : CmpArgs} (h : Unmoved b s t) : Ends (Unmoved.Stops b s) (Unmoved b s) (cmpBody cc x c t) :=
  Unmoved.after Invariant.never.prepare fun _ => h.take.takeOpnd.raise.bind fun _ hu => hu.writePred

theorem Unmoved.predBody {d : Fin 16} {l : List (Fin 16)} {f : List Bool → Bool} (h : Unmoved b s t) :
    Ends (Unmoved.Stops b s) (Unmoved b s) (predBody d l f c t) :=
  Unmoved.after Invariant.never.prepare fun _ => (h.readIf h.seen).writePred

theorem Unmoved.jumpBody {a : Src} (h : Unmoved b s t) : Ends (Unmoved.Stops b s) (Unmoved b s) (jumpBody a c t) :=
  Unmoved.after Invariant.never.prepare fun _ => h.take.setPc

theorem Unmoved.laneBody {ty : Ty} {rm : Nat} {ins : List VIn} {d : VDst} {f : Rnd → Nat → List Nat → Nat × FpFlags} (h : Unmoved b s t) :
    Ends (Unmoved.Stops b s) (Unmoved b s) (laneBody ty rm ins d f c t) :=
  Unmoved.after Invariant.never.prepare fun _ => h.takeIns.raise.bind fun _ hu => hu.putEls

theorem Unmoved.vcmpBody {cc : Cc} {x : VCmpArgs} (h : Unmoved b s t) : Ends (Unmoved.Stops b s) (Unmoved b s) (vcmpBody cc x c t) :=
  Unmoved.after Invariant.never.prepare fun _ => h.takeIns.raise.bind fun _ hu => hu.write

theorem Unmoved.cvtBody {form : CvtForm} {x : VCvtArgs} (h : Unmoved b s t) : Ends (Unmoved.Stops b s) (Unmoved b s) (cvtBody form x c t) := by
  unfold Machine.cvtBody
  split
  · unfold Machine.cvtVector
    dsimp only
    exact Unmoved.after Invariant.never.prepare fun _ => (h.takeVec.readIf h.takeVec.takeVec).raise.bind fun _ hu => hu.writeVec
  · exact Unmoved.after Invariant.never.prepare fun _ => h.take.raise.bind fun _ hu => hu.write

theorem Unmoved.redBody {x : VRedArgs} {f : Rnd → List Nat → Nat × FpFlags} (h : Unmoved b s t) :
    Ends (Unmoved.Stops b s) (Unmoved b s) (redBody x f c t) := by
  unfold Machine.redBody
  dsimp only
  exact Unmoved.after Invariant.never.prepare fun _ => h.takeVec.raise.bind fun _ hu => hu.write

/-! ### Instructions with a body of their own (R220 to R226, R230 to R236, R267 to R285) -/

theorem Unmoved.leaAt {g : Guard} {x : LeaArgs} (h : execLea g x s = .next t) : Unmoved b s t := by
  refine Unmoved.run h fun c u hu => ?_
  dsimp only
  split
  · exact Unmoved.after Invariant.never.prepare fun _ => hu.take.take.write
  · exact Unmoved.after Invariant.never.prepare fun _ => hu.write

theorem Unmoved.call {g : Guard} {x : CallArgs} (h : execCall g x s = .next t) : Unmoved b s t := by
  refine Unmoved.run h fun c u hu => ?_
  dsimp only
  split
  · exact Unmoved.after Invariant.never.prepare fun _ => hu.write.bind fun _ hv => hv.setPc
  · exact Unmoved.after Invariant.never.prepare fun _ => hu.take.write.bind fun _ hv => hv.setPc

/-- The two place numbers are generalized: what their checks find is not to be computed. -/
theorem Unmoved.swctx {g : Guard} {a : Src} (h : execSwctx g a s = .next t) : Unmoved b s t := by
  refine Unmoved.run h fun c u hu => ?_
  have own : Invariant.never.Checks (do u.noQueues c; u.noForerunner c) :=
    Invariant.never.noQueues.bind fun _ _ => Invariant.never.noForerunner
  refine Unmoved.after (Invariant.never.prepareOwn own) fun _ => ?_
  dsimp only
  generalize ((bits (u.take a.name).1 12 0 : Nat) : Int) = save
  generalize ((bits (u.take a.name).1 28 16 : Nat) : Int) = load
  refine Unmoved.after Invariant.never.checkAbs fun _ => Unmoved.after Invariant.never.checkAbs fun _ => hu.take.readPhys.bind fun _ hr => ?_
  exact Unmoved.after Invariant.never.checkDesc fun _ => hr.writePhys.bind fun _ hv => hv.setWindow.setPc

theorem Unmoved.vpack {g : Guard} {x : VPackArgs} (h : execVpack g x s = .next t) : Unmoved b s t := by
  refine Unmoved.run h fun c u hu => Unmoved.after Invariant.never.prepare fun _ => ?_
  have hv := hu.takeVec (v := x.a.v.val)
  generalize u.takeVec x.a.v.val = r at hv ⊢
  dsimp only
  have hw := hv.takeVec (v := x.d.val)
  generalize r.2.takeVec x.d.val = r' at hw ⊢
  exact hw.writeVec

theorem Unmoved.vscan {g : Guard} {x : VScanArgs} (h : execVscan g x s = .next t) : Unmoved b s t := by
  refine Unmoved.run h fun c u hu => ?_
  dsimp only
  exact Unmoved.after Invariant.never.prepare fun _ => hu.takeVec.take.raise.bind fun _ hv => hv.putEls

theorem Unmoved.vperm {g : Guard} {x : VPermArgs} (h : execVperm g x s = .next t) : Unmoved b s t := by
  refine Unmoved.run h fun c u hu => Unmoved.after Invariant.never.prepare fun _ => ?_
  have hv := hu.takeVec (v := x.a.v.val)
  generalize u.takeVec x.a.v.val = r at hv ⊢
  dsimp only
  have hw := hv.takeVec (v := x.b.v.val)
  generalize r.2.takeVec x.b.v.val = r' at hw ⊢
  exact hw.putEls

theorem Unmoved.vshuf {g : Guard} {x : VShufArgs} (h : execVshuf g x s = .next t) : Unmoved b s t := by
  refine Unmoved.run h fun c u hu => ?_
  dsimp only
  exact Unmoved.after Invariant.never.prepare fun _ => hu.takeVec.takeVec.take.putEls

theorem Unmoved.vmov {g : Guard} {x : Vec1} (h : execVmov g x s = .next t) : Unmoved b s t := by
  refine Unmoved.run h fun c u hu => ?_
  dsimp only
  split
  · next d a _ =>
    refine Unmoved.after Invariant.never.prepare fun _ => ?_
    have hv := hu.takeVec (v := a.v.val)
    generalize u.takeVec a.v.val = r at hv ⊢
    exact hv.writeVec
  · exact Unmoved.after Invariant.never.prepare fun _ => hu.take.write

theorem Unmoved.vunpack {g : Guard} {x : VPackArgs} (h : execVunpack g x s = .next t) : Unmoved b s t := by
  refine Unmoved.run h fun c u hu => Unmoved.after Invariant.never.prepare fun _ => ?_
  have hv := hu.takeVec (v := x.a.v.val)
  generalize u.takeVec _ = r at hv ⊢
  exact hv.putEls

theorem Unmoved.vins {g : Guard} {x : VInsArgs} (h : execVins g x s = .next t) : Unmoved b s t := by
  refine Unmoved.run h fun c u hu => Unmoved.after Invariant.never.prepare fun _ => ?_
  dsimp only
  have hv := hu.take (n := x.a.name) |>.take (n := x.b.name) |>.takeVec (v := x.d.val)
  generalize State.takeVec _ _ = r at hv ⊢
  exact hv.writeVec

theorem Unmoved.vlds {g : Guard} {x : VLdsArgs} (h : execVlds g x s = .next t) : Unmoved b s t := by
  refine Unmoved.run h fun c u hu => ?_
  dsimp only
  exact Unmoved.after Invariant.never.prepare fun _ => hu.takeVec.take.write

end

/-! ### Every such instruction -/

/-- Each runs one of these bodies. -/
theorem wordsOnly_unmoved {b : Bool} {i : Instr} {s t : State} (hw : wordsOnly i = true) (h : exec i s = .next t) : Unmoved b s t := by
  unfold exec at h
  cases i with
  | add _ _ | sub _ _ | mul _ _ | mulh _ _ | div _ _ | rem _ _ | min _ _ | max _ _ | and _ _ | or _ _ | xor _ _ | andn _ _ | shl _ _
  | shr _ _ | sra _ _ | rot _ _ | ext _ _ => exact Unmoved.run h fun _ _ hu => hu.aluBody
  | abs _ _ | clz _ _ | ctz _ _ | popc _ _ | brev _ _ | bswap _ _ => exact Unmoved.run h fun _ _ hu => hu.unBody
  | ins _ _ => exact Unmoved.run h fun _ _ hu => Unmoved.after Invariant.never.prepare fun _ => hu.take.takeOpnd.take.write
  | sel _ _ =>
    exact Unmoved.run h fun _ _ hu => Unmoved.after Invariant.never.prepare fun _ => (hu.take.take.readUnless hu.take.take.seen).write
  | mov _ _ => exact Unmoved.run h fun _ _ hu => Unmoved.after Invariant.never.prepare fun _ => hu.takeOpnd.write
  | lea _ _ => exact Unmoved.leaAt h
  | cmpEq _ _ | cmpNe _ _ | cmpLt _ _ | cmpLe _ _ | cmpGt _ _ | cmpGe _ _ | cmpUn _ _ => exact Unmoved.run h fun _ _ hu => hu.cmpBody
  | pand _ _ | por _ _ | pxor _ _ | pnot _ _ | pmov _ _ => exact Unmoved.run h fun _ _ hu => hu.predBody
  | br _ _ => exact Unmoved.run h fun _ _ hu => hu.setPc
  | jmp _ _ | ret _ _ => exact Unmoved.run h fun _ _ hu => hu.jumpBody
  | call _ _ => exact Unmoved.call h
  | loop _ _ =>
    exact Unmoved.run h fun _ _ hu => Unmoved.after Invariant.never.prepare fun _ => hu.take.write.bind fun _ hv => hv.setPc.ite hv
  | nop _ => exact Unmoved.run h fun _ _ hu => hu
  | brk _ _ => exact Unmoved.run h fun _ _ _ => trivial
  | setwin _ _ => exact Unmoved.run h fun _ _ hu => Unmoved.after (Invariant.never.prepareOwn Invariant.never.noQueues) fun _ => hu.take.install
  | rdwin _ _ => exact Unmoved.run h fun _ _ hu => Unmoved.after Invariant.never.prepare fun _ => hu.write
  | swctx _ _ => exact Unmoved.swctx h
  | wld _ _ =>
    exact Unmoved.run h fun _ _ hu => Unmoved.after Invariant.never.prepare fun _ => Unmoved.after Invariant.never.checkAbs fun _ =>
      hu.take.readPhys.bind fun _ hr => hr.write
  | wst _ _ =>
    exact Unmoved.run h fun _ _ hu => Unmoved.after Invariant.never.prepare fun _ => Unmoved.after Invariant.never.checkAbs fun _ =>
      hu.take.take.writePhys
  | wscrub _ _ => exact Unmoved.run h fun _ _ hu => hu.drainRange.bind fun _ hr => hr.setCells fun _ _ hv => hv.setCell
  | wdrain _ _ => exact Unmoved.run h fun _ _ hu => hu.drainRange.bind fun _ hr => hr
  | mfs _ _ =>
    exact Unmoved.run h fun _ _ hu => Unmoved.after (Invariant.never.prepareOwn (Invariant.never.form.bind fun _ _ => Invariant.never.regPriv))
      fun _ => hu.write
  | vadd _ _ | vsub _ _ | vmul _ _ | vfma _ _ | vfms _ _ | vdiv _ _ | vmin _ _ | vmax _ _ | vabs _ _ | vneg _ _ | vsqrt _ _ | vrsq _ _
  | vexp2 _ _ | vlog2 _ _ | vladd _ _ | vpopc _ _ | vand _ _ | vor _ _ | vxor _ _ | vshl _ _ | vshr _ _ | vsra _ _ =>
    exact Unmoved.run h fun _ _ hu => hu.laneBody
  | vcmpEq _ _ | vcmpNe _ _ | vcmpLt _ _ | vcmpLe _ _ | vcmpGt _ _ | vcmpGe _ _ | vcmpUn _ _ => exact Unmoved.run h fun _ _ hu => hu.vcmpBody
  | vsel _ _ => exact Unmoved.run h fun _ _ hu => Unmoved.after Invariant.never.prepare fun _ => hu.takeIns.take.putEls
  | vmask _ _ => exact Unmoved.run h fun _ _ hu => Unmoved.after Invariant.never.prepare fun _ => hu.takeIn.write
  | vcvt _ _ | vcvtSat _ _ | vcvtOvf _ _ => exact Unmoved.run h fun _ _ hu => hu.cvtBody
  | vredadd _ _ | vredmax _ _ | vredmin _ _ => exact Unmoved.run h fun _ _ hu => hu.redBody
  | vscan _ _ => exact Unmoved.vscan h
  | vperm _ _ => exact Unmoved.vperm h
  | vbcast _ _ => exact Unmoved.run h fun _ _ hu => Unmoved.after Invariant.never.prepare fun _ => hu.take.putEls
  | vshuf _ _ => exact Unmoved.vshuf h
  | vmov _ _ => exact Unmoved.vmov h
  | vins _ _ => exact Unmoved.vins h
  | vlds _ _ => exact Unmoved.vlds h
  | vpack _ _ => exact Unmoved.vpack h
  | vunpack _ _ => exact Unmoved.vunpack h
  | _ => exact absurd hw Bool.false_ne_true

section
variable {b : Bool} {s t : State}

/-! ### SETUTW (R237) and the statement -/

theorem Unmoved.setUtwin {v : Word} (h : Unmoved false s t) : Unmoved false s { t with regs := { t.regs with utwin := v } } :=
  h.frame (by rfl)

theorem setutw_unmoved {g : Guard} {x : Src} (h : execSetutw g x s = .next t) : Unmoved false s t :=
  Unmoved.run h fun _ _ hu => Unmoved.after Invariant.never.prepare fun _ => Unmoved.after Invariant.never.checkDesc fun _ => hu.take.setUtwin

theorem Unmoved.kept (h : Unmoved b s t) : Kept s t := by
  simp only [Unmoved, State.beyondWords, Prod.mk.injEq] at h
  obtain ⟨bytes, lost, dirty, cluster, lane, bank, mu, eng, opt, events, waiters, inbox, high, domq, deque, dqMem, pools, slots, inputs, -⟩ := h
  exact ⟨bytes, lost, dirty, ⟨cluster, lane, bank⟩, mu, eng, opt, ⟨events, waiters⟩, ⟨inbox, high, domq⟩, ⟨deque, dqMem⟩,
    ⟨pools, slots⟩, inputs⟩

theorem Unmoved.registers (h : Unmoved b s t) : ({ t.regs with utwin := if b then t.regs.utwin else 0 } : Regs).settled
    = ({ s.regs with utwin := if b then s.regs.utwin else 0 } : Regs).settled :=
  congrArg (fun p => p.2.2.2.2.2.2.2.2.2.2.2.2.2.2.2.2.2.2.2) h

/-- Registers that agree but for UTWIN agree with the old UTWIN in its place. -/
theorem settled_setUtwin {r r' : Regs} {v : Word} (h : ({ r with utwin := v } : Regs).settled = ({ r' with utwin := v } : Regs).settled) :
    ({ r with utwin := r'.utwin } : Regs).settled = r'.settled := by
  simp only [Regs.settled, List.cons.injEq, and_true, true_and] at h ⊢
  exact h

end

end Sys2Proof.Machine

open Sys2Proof Sys2Proof.Machine

/-- Settles O55: the body of each of these instructions reads and writes words, queue entries, ring words, flags, the window and the pc, and the
frame of an instruction adds a trap's registers, a wait, the counters and time; a token's first read is an acquire, which drops clean bytes of
the RDC alone. -/
theorem wordInstructionFrames : Obligations.WordInstructionFrames :=
  ⟨fun _ _ _ hw h =>
      have unmoved := wordsOnly_unmoved (b := true) hw h
      ⟨unmoved.kept, unmoved.registers⟩,
    fun _ _ _ _ h =>
      have unmoved := setutw_unmoved h
      ⟨unmoved.kept, settled_setUtwin unmoved.registers⟩⟩

end

section
/-! PROOF. What a read of the matrix unit does not see and leaves alone: the unit itself, and the performance counters. -/
namespace Sys2Proof.Machine

/-- t is s but for the matrix unit, which is m, and the performance counters, which are p. -/
def OtherUnit (m : Mu) (p : SMap Word) (s t : State) : Prop := t = { s with mu := m, regs := { s.regs with pmc := p } }

section
variable {m : Mu} {p : SMap Word} {w : Who} {k : Kind} {s t : State}

theorem OtherUnit.refl (s : State) : OtherUnit s.mu s.regs.pmc s s := rfl

theorem OtherUnit.ite {c c' : Prop} [Decidable c] [Decidable c'] {a b a' b' : State} (hc : c ↔ c') (ha : OtherUnit m p a a')
    (hb : OtherUnit m p b b') : OtherUnit m p (if c then a else b) (if c' then a' else b') := by
  by_cases h : c
  · rw [if_pos h, if_pos (hc.1 h)]; exact ha
  · rw [if_neg h, if_neg (mt hc.2 h)]; exact hb

theorem OtherUnit.foldl {α : Type} {f g : State → α → State} (hf : ∀ u v a, OtherUnit m p u v → OtherUnit m p (f u a) (g v a)) {l : List α}
    (h : OtherUnit m p s t) : OtherUnit m p (l.foldl f s) (l.foldl g t) := by
  induction l generalizing s t with
  | nil => exact h
  | cons a l ih => exact ih (hf s t a h)

/-! ### What they have in common -/

theorem OtherUnit.mem (h : OtherUnit m p s t) : t.mem = s.mem := by cases h; rfl
theorem OtherUnit.mu (h : OtherUnit m p s t) : t.mu = m := by cases h; rfl
theorem OtherUnit.core (h : OtherUnit m p s t) : t.core = s.core := by cases h; rfl
theorem OtherUnit.sys (h : OtherUnit m p s t) : t.sys = s.sys := by cases h; rfl
theorem OtherUnit.lineAt (h : OtherUnit m p s t) : t.lineAt = s.lineAt := by cases h; rfl
theorem OtherUnit.isRemote (h : OtherUnit m p s t) : t.isRemote = s.isRemote := by cases h; rfl

/-! ### Lines, tables and recalls (R50, R83) -/

theorem OtherUnit.setMem {x y : Memory} (h : OtherUnit m p s t) (e : y = x) : OtherUnit m p { s with mem := x } { t with mem := y } := by
  cases h; cases e; rfl

theorem OtherUnit.updLine {lv : Lv} {line : Nat} {f : Line → Line} (h : OtherUnit m p s t) :
    OtherUnit m p (s.updLine lv line f) (t.updLine lv line f) := by cases h; rfl

theorem OtherUnit.dropLine {lv : Lv} {line : Nat} (h : OtherUnit m p s t) : OtherUnit m p (s.dropLine lv line) (t.dropLine lv line) := by
  cases h; rfl

theorem OtherUnit.putHome {key : Nat} {bs : List Byte} (h : OtherUnit m p s t) : OtherUnit m p (s.putHome key bs) (t.putHome key bs) := by
  cases h; rfl

theorem OtherUnit.reachHbm {line d : Nat} (h : OtherUnit m p s t) : OtherUnit m p (s.reachHbm line d) (t.reachHbm line d) := by cases h; rfl

theorem OtherUnit.receive {v : Line} {d : Nat} (h : OtherUnit m p s t) : OtherUnit m p (s.receive v d) (t.receive v d) :=
  (ite (by rw [h.lineAt]) h.reachHbm h).updLine

theorem OtherUnit.arriveHome {line d : Nat} (h : OtherUnit m p s t) : OtherUnit m p (s.arriveHome line d) (t.arriveHome line d) := by
  unfold State.arriveHome
  rw [h.lineAt]
  refine ite .rfl h.updLine ?_
  split
  · exact h.receive
  · exact h

theorem OtherUnit.sendSector {u : Nat} {ds : List (Nat × RdcByte)} (h : OtherUnit m p s t) :
    OtherUnit m p (s.sendSector u ds) (t.sendSector u ds) := by
  have each := h.foldl (f := fun s (x : Nat × RdcByte) => s.putHome x.1 [x.2.v]) (l := ds) fun _ _ _ hu => hu.putHome
  unfold State.sendSector
  rw [h.mem]
  exact ite .rfl (each.setMem (by rw [each.mem])) (ite .rfl h.putHome each)

theorem OtherUnit.sendHome {line : Nat} (h : OtherUnit m p s t) : OtherUnit m p (s.sendHome line) (t.sendHome line) := by
  have dirty : t.rdcMask line RdcByte.dirty = s.rdcMask line RdcByte.dirty := by cases h; rfl
  unfold State.sendHome
  dsimp only
  rw [h.mem, dirty]
  refine ite .rfl h (ite (by rw [h.sys]) (by cases h; rfl) (arriveHome (h.foldl fun u v k hu => ?_)))
  split
  · exact hu
  · exact hu.sendSector

theorem OtherUnit.enterOnce {r : TabRun} (h : OtherUnit m p s t) : Option.Rel (OtherUnit m p) (s.enterOnce r) (t.enterOnce r) := by
  have table : t.tableOf r.line = s.tableOf r.line := by cases h; rfl
  unfold State.enterOnce State.enterTable
  dsimp only
  rw [h.mem, table]
  split
  · exact .some h
  · split
    · exact .none
    · exact .some (h.setMem rfl)

theorem OtherUnit.moveMasks {line : Nat} (h : OtherUnit m p s t) : OtherUnit m p (s.moveMasks line) (t.moveMasks line) := by
  have run : t.ownRun line = s.ownRun line := by cases h; rfl
  have entered := h.enterOnce (r := s.ownRun line)
  unfold State.moveMasks
  rw [run]
  refine ite (by rw [h.core]) ?_ h
  generalize s.enterOnce (s.ownRun line) = x at entered ⊢
  generalize t.enterOnce (s.ownRun line) = y at entered ⊢
  cases entered with
  | some hu => exact hu
  | none => cases h; rfl

theorem OtherUnit.leaveL1 {v : Line} (h : OtherUnit m p s t) : OtherUnit m p (s.leaveL1 v) (t.leaveL1 v) := by
  have moved := (h.dropLine (lv := .l1) (line := v.line)).moveMasks (line := v.line)
  exact ite (by rw [moved.isRemote]) moved moved.updLine

theorem OtherUnit.recallL1 {line : Nat} (h : OtherUnit m p s t) : OtherUnit m p (s.recallL1 line) (t.recallL1 line) := by
  unfold State.recallL1
  rw [h.lineAt]
  split
  · exact h.leaveL1
  · exact h

theorem OtherUnit.dropRdcLine {line : Nat} (h : OtherUnit m p s t) : OtherUnit m p (s.dropRdcLine line) (t.dropRdcLine line) := by
  have sent := h.sendHome (line := line)
  exact sent.setMem (by rw [sent.mem])

theorem OtherUnit.purge {line : Nat} (h : OtherUnit m p s t) : OtherUnit m p (s.purge line) (t.purge line) := h.recallL1.dropRdcLine.dropLine

theorem OtherUnit.entryHome {key : Nat} (h : OtherUnit m p s t) : OtherUnit m p (s.entryHome w key) (t.entryHome w key) :=
  ite (by cases h; rfl) h.purge (ite (by rw [h.isRemote]) h (h.foldl (f := State.recallL1) (g := State.recallL1) fun _ _ _ hu => hu.recallL1))

/-! ### The caches (R48 to R65) -/

theorem OtherUnit.unitTime (h : OtherUnit m p s t) : t.unitTime = s.unitTime := by cases h; rfl

theorem OtherUnit.uncover {line gone : Nat} (h : OtherUnit m p s t) : OtherUnit m p (s.uncover line gone) (t.uncover line gone) := by
  unfold State.uncover
  dsimp only
  rw [h.lineAt, h.mem]
  exact foldl (fun _ _ _ hu => by cases hu; rfl) (h.setMem rfl)

theorem OtherUnit.countBroken {v : Line} (h : OtherUnit m p s t) : OtherUnit m p (s.countBroken v) (t.countBroken v) := by cases h; rfl

theorem OtherUnit.evict {v : Line} (h : OtherUnit m p s t) : OtherUnit m p (s.evict v) (t.evict v) := by
  have noted : OtherUnit m p (if v.dueE s.unitTime then s.countBroken v else s) (if v.dueE s.unitTime then t.countBroken v else t) :=
    ite .rfl h.countBroken h
  have marked := ite (.refl (v.dueE s.unitTime = true)) (noted.updLine (lv := v.lv) (line := v.line) (f := fun l => { l with e := true })) noted
  unfold State.evict
  rw [h.unitTime]
  dsimp only
  generalize (if v.dueE s.unitTime = true then State.updLine _ v.lv v.line _ else _) = x at marked ⊢
  generalize (if v.dueE s.unitTime = true then State.updLine _ v.lv v.line _ else _) = y at marked ⊢
  cases v.lv with
  | l1 => exact marked.leaveL1
  | msc => exact marked.reachHbm.dropLine.uncover
  | rdc => exact marked.recallL1.dropRdcLine.dropLine
  | l2 =>
    have recalled := ite (c := x.isRemote v.line) (c' := y.isRemote v.line) (by rw [marked.isRemote]) marked (marked.recallL1 (line := v.line))
    dsimp only
    rw [recalled.lineAt]
    split
    · exact (ite .rfl recalled recalled.receive).dropLine.uncover
    · exact recalled

theorem OtherUnit.stamp (h : OtherUnit m p s t) : t.stamp = s.stamp := by cases h; rfl

theorem OtherUnit.countKept {v : Line} (h : OtherUnit m p s t) : OtherUnit m p (s.countKept v) (t.countKept v) :=
  ite .rfl h (h.setMem (by rw [h.mem]))

/-- An access to a level answers the same. -/
theorem OtherUnit.touch (lv : Lv) (line nud cls need put : Nat) (demand : Bool) (h : OtherUnit m p s t) :
    ∃ u v r, s.touch lv line nud cls need put demand = (u, r) ∧ t.touch lv line nud cls need put demand = (v, r) ∧ OtherUnit m p u v := by
  have clocked : OtherUnit m p { s with mem := { s.mem with clock := s.mem.clock + 1 } } { t with mem := { t.mem with clock := t.mem.clock + 1 } } :=
    h.setMem (by rw [h.mem])
  unfold State.touch
  generalize ({ s with mem := { s.mem with clock := s.mem.clock + 1 } } : State) = x at clocked ⊢
  generalize ({ t with mem := { t.mem with clock := t.mem.clock + 1 } } : State) = y at clocked ⊢
  have heldAt : y.heldAt = x.heldAt := by cases clocked; rfl
  have mayFill : y.mayFill = x.mayFill := by cases clocked; rfl
  have rank : y.victimRank = x.victimRank := by cases clocked; rfl
  dsimp only
  rw [clocked.lineAt, heldAt, clocked.unitTime, mayFill, rank]
  split
  · next l _ =>
    generalize (demand && decide (sectorsOf (lacking need (x.heldAt l)) = 0) && !l.z && !l.expired x.unitTime) = live
    have kept : OtherUnit m p (if live then x.countKept l else x) (if live then y.countKept l else y) := ite .rfl clocked.countKept clocked
    generalize (if live = true then x.countKept l else x) = x' at kept ⊢
    generalize (if live = true then y.countKept l else y) = y' at kept ⊢
    have counted : OtherUnit m p (if l.dueE x'.unitTime then x'.countBroken l else x') (if l.dueE x'.unitTime then y'.countBroken l else y') :=
      ite .rfl kept.countBroken kept
    rw [kept.unitTime, counted.stamp]
    exact ⟨_, _, _, rfl, rfl, counted.updLine⟩
  · rw [clocked.mem]
    split
    · exact ⟨_, _, _, rfl, rfl, clocked.setMem (by rw [clocked.stamp])⟩
    · split
      · exact ⟨_, _, _, rfl, rfl, clocked.evict.setMem (by rw [clocked.evict.mem, clocked.evict.stamp])⟩
      · exact ⟨_, _, _, rfl, rfl, clocked⟩

theorem OtherUnit.touchHome {line nud cls need put : Nat} {demand : Bool} (h : OtherUnit m p s t) :
    OtherUnit m p (s.touchHome line nud cls need put demand) (t.touchHome line nud cls need put demand) := by
  obtain ⟨u, v, ⟨fetch, there⟩, e, e', touched⟩ := h.touch .l2 line nud cls need (sectorsOf put) demand
  have next (n : Nat) : OtherUnit m p (u.touch .msc line nud cls fetch n demand).1 (v.touch .msc line nud cls fetch n demand).1 := by
    obtain ⟨_, _, _, e, e', hu⟩ := touched.touch .msc line nud cls fetch n demand
    rw [e, e']
    exact hu
  unfold State.touchHome
  rw [e, e']
  dsimp only
  rw [touched.lineAt]
  exact ite .rfl touched (next _)

theorem OtherUnit.touchShared {l : Loc} {nud cls need put : Nat} {demand : Bool} (h : OtherUnit m p s t) :
    OtherUnit m p (s.touchShared l nud cls need put demand) (t.touchShared l nud cls need put demand) := by
  have canHold : t.canHold = s.canHold := by cases h; rfl
  obtain ⟨u, v, ⟨fetch, there⟩, e, e', touched⟩ := h.touch .rdc (l.key / 128 * 128) nud cls need 0 demand
  unfold State.touchShared
  simp only [e, e', canHold]
  exact ite .rfl (ite .rfl touched touched.touchHome) h.touchHome

theorem OtherUnit.otherEvictions (h : OtherUnit m p s t) : OtherUnit m p s.otherEvictions t.otherEvictions := by
  have ticks : t.ticks = s.ticks := by cases h; rfl
  unfold State.otherEvictions
  dsimp only
  rw [h.mem, ticks]
  refine ite .rfl h ?_
  split
  · exact h
  · split
    · exact h
    · exact h.evict

theorem OtherUnit.fetchMaybe {l : Loc} {need : Nat} (h : OtherUnit m p s t) : OtherUnit m p (s.fetchMaybe l need) (t.fetchMaybe l need) := by
  refine ite .rfl ?_ h
  have mask : t.rdcMask = s.rdcMask := by cases h; rfl
  unfold State.fetchRdc
  rw [h.lineAt, mask, h.mem]
  exact ite (by cases h; rfl) h (ite .rfl h (h.setMem rfl))

theorem OtherUnit.reach {l : Loc} {n nud : Nat} {rd wr whole : Bool} (h : OtherUnit m p s t) :
    OtherUnit m p (s.reach l n nud .die rd wr whole) (t.reach l n nud .die rd wr whole) := by
  unfold State.reach
  refine ite .rfl (h.foldl fun u v line hu => ?_) (h.foldl (f := State.purge) (g := State.purge) fun _ _ _ hu => hu.purge)
  have tag : v.classTag = u.classTag := by cases hu; rfl
  have recalled : OtherUnit m p (if wr then u.recallL1 line else u) (if wr then v.recallL1 line else v) := ite .rfl hu.recallL1 hu
  dsimp only
  rw [tag]
  exact recalled.touchShared.fetchMaybe

/-! ### Reads (R49, R241) -/

theorem OtherUnit.view (h : OtherUnit m p s t) : t.view = s.view := by cases h; rfl
theorem OtherUnit.firstLost (h : OtherUnit m p s t) {key n : Nat} {l1 : Bool} : t.firstLost key n l1 = s.firstLost key n l1 := by cases h; rfl
theorem OtherUnit.homeBytes (h : OtherUnit m p s t) : t.homeBytes = s.homeBytes := by cases h; rfl
theorem OtherUnit.homeLost (h : OtherUnit m p s t) : t.homeLost = s.homeLost := by cases h; rfl

theorem OtherUnit.readPiece (q : Piece) (nud : Nat) (whole : Bool) (h : OtherUnit m p s t) :
    ∃ bs l u v, s.readPiece q nud .die whole = (bs, l, u) ∧ t.readPiece q nud .die whole = (bs, l, v) ∧ OtherUnit m p u v := by
  have evicted : OtherUnit m p (if q.loc.remote then s.otherEvictions else s) (if q.loc.remote then t.otherEvictions else t) :=
    ite .rfl h.otherEvictions h
  have reached := evicted.reach (l := q.loc) (n := q.len) (nud := nud) (rd := true) (wr := false) (whole := whole)
  unfold State.readPiece
  cases q.loc.what with
  | memory =>
    dsimp only
    rw [reached.view, reached.firstLost]
    exact ⟨_, _, _, _, rfl, rfl, reached⟩
  | store =>
    dsimp only
    rw [h.homeBytes, h.homeLost]
    exact ⟨_, _, _, _, rfl, rfl, h⟩
  | host | unit => cases h; exact ⟨_, _, _, _, rfl, rfl, rfl⟩

theorem OtherUnit.readPieces (ps : List Piece) (nud : Nat) (whole : Bool) (h : OtherUnit m p s t) :
    ∃ bs l u v, s.readPieces nud .die whole ps = (bs, l, u) ∧ t.readPieces nud .die whole ps = (bs, l, v) ∧ OtherUnit m p u v := by
  induction ps generalizing s t with
  | nil => exact ⟨_, _, _, _, rfl, rfl, h⟩
  | cons q ps ih =>
    obtain ⟨bs, l, u, v, e, e', hu⟩ := h.readPiece q nud whole
    obtain ⟨cs, l', u', v', f, f', hu'⟩ := ih hu
    unfold State.readPieces
    rw [e, e']
    dsimp only
    rw [f, f']
    exact ⟨_, _, _, _, rfl, rfl, hu'⟩

/-! ### Walks (R21 to R29) -/

/-- Two computations answer the same fault, or results that are related. -/
inductive Agree {ε α : Type} (r : α → α → Prop) : Except ε α → Except ε α → Prop
  | error (e : ε) : Agree r (.error e) (.error e)
  | ok {a b : α} (h : r a b) : Agree r (.ok a) (.ok b)

/-- The same value, and states that differ in the unit alone. -/
inductive OtherUnit.Same {α : Type} (m : Mu) (p : SMap Word) : α × State → α × State → Prop
  | mk (a : α) {u v : State} (h : OtherUnit m p u v) : Same m p (a, u) (a, v)

theorem OtherUnit.holdLeaf {walked : Bool} {e : TlbEntry} (h : OtherUnit m p s t) :
    OtherUnit m p (s.holdLeaf w walked e) (t.holdLeaf w walked e) := by
  obtain ⟨asid, sup, noDev, via, own⟩ := w
  cases h
  cases via <;> cases walked <;> rfl

theorem OtherUnit.holdPath {es : List WalkEntry} (h : OtherUnit m p s t) : OtherUnit m p (s.holdPath w es) (t.holdPath w es) := by
  cases h; rfl

theorem OtherUnit.writeHome {key : Nat} {bs : List Byte} (h : OtherUnit m p s t) : OtherUnit m p (s.writeHome key bs) (t.writeHome key bs) := by
  cases h; rfl

theorem OtherUnit.partid (h : OtherUnit m p s t) : t.regs.partid = s.regs.partid := by cases h; rfl

theorem OtherUnit.noteLeaf {f : LeafFound} (h : OtherUnit m p s t) : OtherUnit m p (s.noteLeaf w k f) (t.noteLeaf w k f) := by
  unfold State.noteLeaf
  have written (e : Word) : OtherUnit m p (if e = f.leaf.pte then s else (s.entryHome w f.leaf.key).writeHome f.leaf.key (toBytes e.toNat 8))
      (if e = f.leaf.pte then t else (t.entryHome w f.leaf.key).writeHome f.leaf.key (toBytes e.toNat 8)) :=
    ite .rfl h h.entryHome.writeHome
  dsimp only
  rw [h.partid, (written _).partid]
  exact ite .rfl h.holdLeaf (written _).holdPath.holdLeaf

theorem OtherUnit.pickHeld {α : Type} {a : Nat} {l : List α} (h : OtherUnit m p s t) : t.pickHeld a l = s.pickHeld a l := by cases h; rfl

theorem OtherUnit.readEntry (h : OtherUnit m p s t) : t.readEntry = s.readEntry := by
  funext die pa level
  have memKey : t.memKey = s.memKey := by cases h; rfl
  have pageCode : t.pageCode = s.pageCode := by cases h; rfl
  have die : t.die = s.die := by cases h; rfl
  unfold State.readEntry
  simp only [memKey, pageCode, die, h.view, h.firstLost, h.homeBytes, h.homeLost]

theorem OtherUnit.walkEntry (h : OtherUnit m p s t) : t.walkEntry w = s.walkEntry w := by
  funext pa level va size
  have die : t.viaDie = s.viaDie := by cases h; rfl
  have memKey : t.memKey = s.memKey := by cases h; rfl
  unfold State.walkEntry
  rw [h.pickHeld, h.readEntry, die, memKey, h.partid, h.mem]

theorem OtherUnit.topTable {b : Bool} (h : OtherUnit m p s t) : t.topTable w b = s.topTable w b := by
  unfold State.topTable
  rw [h.walkEntry]
  cases h; rfl

theorem OtherUnit.walkFrom {va : Word} {fuel level table : Nat} (h : OtherUnit m p s t) :
    t.walkFrom w va fuel level table = s.walkFrom w va fuel level table := by
  have bad : t.badEntry = s.badEntry := by cases h; rfl
  induction fuel generalizing level table with
  | zero => rfl
  | succ fuel ih =>
    unfold State.walkFrom
    simp only [h.walkEntry, bad, h.partid, ih]

theorem OtherUnit.leafOf {va : Word} (h : OtherUnit m p s t) : t.leafOf w k va = s.leafOf w k va := by
  have hits : t.tlbHits = s.tlbHits := by cases h; rfl
  unfold State.leafOf
  simp only [h.pickHeld, hits, h.topTable, h.walkFrom]

theorem OtherUnit.translate {va : Word} (h : OtherUnit m p s t) : Agree (OtherUnit.Same m p) (s.translate w k va) (t.translate w k va) := by
  have aperture : t.aperture = s.aperture := by cases h; rfl
  have place : t.place = s.place := by cases h; rfl
  have pageCode : t.pageCode = s.pageCode := by cases h; rfl
  unfold State.translate
  dsimp only
  rw [aperture, h.leafOf, place, pageCode]
  split
  · exact .error _
  split
  · exact .error _
  split
  · cases s.aperture w k va with
    | error e => exact .error e
    | ok l => exact .ok (.mk _ h)
  cases s.leafOf w k va with
  | error e => exact .error e
  | ok f =>
    dsimp only [Bind.bind, Except.bind]
    split
    · exact .error _
    cases s.place (f.leaf.pa va) f.leaf with
    | error e => exact .error e
    | ok l =>
      dsimp only
      split
      · exact .ok (.mk _ h.noteLeaf)
      · exact .error _
      · exact .error _
      · exact .ok (.mk _ h.noteLeaf)

theorem OtherUnit.translateAll {va : Word} {off n fuel : Nat} (h : OtherUnit m p s t) :
    Agree (OtherUnit.Same m p) (s.translateAll w k va off n fuel) (t.translateAll w k va off n fuel) := by
  induction fuel generalizing s t off n with
  | zero => exact .ok (.mk _ h)
  | succ fuel ih =>
    unfold State.translateAll
    dsimp only
    split
    · exact .ok (.mk _ h)
    have first := h.translate (w := w) (k := k) (va := va + wd off)
    generalize s.translate w k (va + wd off) = x at first ⊢
    generalize t.translate w k (va + wd off) = y at first ⊢
    cases first with
    | error e => exact .error _
    | @ok x y hr =>
      obtain @⟨l, u, v, hu⟩ := hr
      have rest := ih (off := off + min n (65536 - (va + wd off).toNat % 65536)) (n := n - min n (65536 - (va + wd off).toNat % 65536)) hu
      dsimp only
      generalize u.translateAll w k va _ _ fuel = x at rest ⊢
      generalize v.translateAll w k va _ _ fuel = y at rest ⊢
      cases rest with
      | error e => exact .error e
      | @ok x y hr =>
        obtain ⟨ps, hv⟩ := hr
        exact .ok (.mk _ hv)

/-! ### Reads of the unit (R96, R125) -/

theorem OtherUnit.linkClosed (h : OtherUnit m p s t) : t.linkClosed = s.linkClosed := by cases h; rfl

theorem OtherUnit.enginePieces {va : Word} {n : Nat} (h : OtherUnit m p s t) :
    Agree (OtherUnit.Same m p) (s.enginePieces w k va n) (t.enginePieces w k va n) := by
  have found := h.translateAll (w := { w with noDev := w.noDev || 8 < n }) (k := k) (va := va) (off := 0) (n := n) (fuel := pagesOf n)
  unfold State.enginePieces
  generalize s.translateAll _ k va 0 n (pagesOf n) = x at found ⊢
  generalize t.translateAll _ k va 0 n (pagesOf n) = y at found ⊢
  cases found with
  | error e =>
    obtain ⟨e, a⟩ := e
    cases e <;> exact .error _
  | @ok x y hr =>
    obtain ⟨ps, hu⟩ := hr
    dsimp only
    rw [h.linkClosed]
    split
    · exact .error _
    split
    · exact .error _
    · exact .ok (.mk _ hu)

theorem OtherUnit.enterLines {run : Nat → TabRun} {ls : List Nat} (h : OtherUnit m p s t) :
    Agree (OtherUnit m p) (s.enterLines run ls) (t.enterLines run ls) := by
  induction ls generalizing s t with
  | nil => exact .ok h
  | cons l ls ih =>
    have entered := h.enterOnce (r := run l)
    have table : t.tableOf l = s.tableOf l := by cases h; rfl
    unfold State.enterLines
    rw [table]
    generalize s.enterOnce (run l) = x at entered ⊢
    generalize t.enterOnce (run l) = y at entered ⊢
    cases entered with
    | some hu => exact ih hu
    | none => exact .error _

theorem OtherUnit.growOther {agent : Agent} {id : Nat} {ps : List Piece} {rd wr sync : Bool} (h : OtherUnit m p s t) :
    Agree (OtherUnit m p) (s.growOther agent id ps rd wr sync) (t.growOther agent id ps rd wr sync) := by
  have run : t.cmdRun = s.cmdRun := by cases h; rfl
  unfold State.growOther
  rw [h.mem, run]
  cases s.mem.others.find? fun o => o.isCmd agent id with
  | none => exact .ok h
  | some o =>
    have entered := h.enterLines (run := fun l => s.cmdRun agent id l 1) (ls := o.newLines ps)
    dsimp only
    generalize s.enterLines (fun l => s.cmdRun agent id l 1) (o.newLines ps) = x at entered ⊢
    generalize t.enterLines (fun l => s.cmdRun agent id l 1) (o.newLines ps) = y at entered ⊢
    cases entered with
    | error e => exact .error _
    | ok hu => exact .ok (hu.setMem (by rw [hu.mem]))

theorem OtherUnit.engineRead {agent : Agent} {id n nud : Nat} {va : Word} {sync : Bool} (h : OtherUnit m p s t) :
    Agree (OtherUnit.Same m p) (s.engineRead agent id w va n nud false sync) (t.engineRead agent id w va n nud false sync) := by
  have opened := h.enginePieces (w := w) (k := .read) (va := va) (n := n)
  unfold State.engineRead State.engineOpen
  generalize s.enginePieces w .read va n = x at opened ⊢
  generalize t.enginePieces w .read va n = y at opened ⊢
  cases opened with
  | error e => exact .error e
  | @ok x y hr =>
    obtain @⟨ps, u, v, hu⟩ := hr
    have check : v.engineCheck = u.engineCheck := by cases hu; rfl
    have grown := hu.growOther (agent := agent) (id := id) (ps := ps) (rd := Kind.read ≠ .write) (wr := Kind.read.writes) (sync := sync)
    dsimp only [Bind.bind, Except.bind]
    rw [check]
    cases u.engineCheck agent id ps _ sync va with
    | error e => exact .error e
    | ok _ =>
      dsimp only
      generalize u.growOther agent id ps _ _ sync = x at grown ⊢
      generalize v.growOther agent id ps _ _ sync = y at grown ⊢
      cases grown with
      | error e => exact .error e
      | ok hv =>
        obtain ⟨bs, l, u', v', e, e', hr⟩ := hv.readPieces ps nud (agent = .ce || agent = .mu)
        dsimp only [engRoute]
        rw [if_neg Bool.false_ne_true, e, e']
        cases l with
        | none => exact .ok (.mk bs hr)
        | some j => exact .error _

theorem OtherUnit.muRead {c : MuCmd} {kind n : Nat} {va : Word} (h : OtherUnit m p s t) :
    Agree (OtherUnit.Same m p) (s.muRead c kind va n) (t.muRead c kind va n) := by
  have read := h.engineRead (agent := .mu) (id := c.id) (w := c.who) (va := va) (n := n) (nud := c.nud) (sync := false)
  unfold State.muRead
  generalize s.engineRead .mu c.id c.who va n c.nud = x at read ⊢
  generalize t.engineRead .mu c.id c.who va n c.nud = y at read ⊢
  cases read with
  | error e => cases e <;> exact .error _
  | ok hr => exact .ok hr

/-- A read that succeeds in one of the states gives the same bytes in the other. -/
theorem OtherUnit.muRead_ok {c : MuCmd} {kind n : Nat} {va : Word} {bs : List Byte} {v : State} (h : OtherUnit m p s t)
    (e : t.muRead c kind va n = .ok (bs, v)) : ∃ u, s.muRead c kind va n = .ok (bs, u) ∧ OtherUnit m p u v := by
  have read := h.muRead (c := c) (kind := kind) (va := va) (n := n)
  rw [e] at read
  generalize s.muRead c kind va n = x at read ⊢
  cases read with
  | ok hr =>
    obtain ⟨_, hu⟩ := hr
    exact ⟨_, rfl, hu⟩

/-- A read leaves the unit alone. -/
theorem muRead_mu {c : MuCmd} {kind n : Nat} {va : Word} : Gives (fun x => x.2.mu = s.mu) (s.muRead c kind va n) := by
  cases e : s.muRead c kind va n with
  | error _ => trivial
  | ok r =>
    obtain ⟨u, e', hu⟩ := (OtherUnit.refl s).muRead_ok e
    exact hu.mu

theorem block_mu {c : MuCmd} {r : KRun} {kind i k : Nat} : Gives (fun x => x.2.2.mu = s.mu) (s.block c r kind i k) := by
  unfold State.block
  split
  · exact rfl
  · exact muRead_mu.bind fun _ hx => hx

theorem bBlock_mu {c : MuCmd} {r : KRun} {j kb : Nat} : Gives (fun x => x.2.mu = s.mu) (s.bBlock c r j kb) :=
  block_mu.bind fun _ hx => (Gives.any _).bind fun _ _ => hx

theorem bBlocks_mu {c : MuCmd} {r : KRun} {l : List (Nat × Nat)} : Gives (fun x => x.2.mu = s.mu) (s.bBlocks c r l) := by
  induction l generalizing s with
  | nil => exact rfl
  | cons q l ih =>
    obtain ⟨j, kb⟩ := q
    unfold State.bBlocks
    split
    · trivial
    · exact rfl
    · next e => exact ih.bind fun _ hx => hx.trans (bBlock_mu.ok e)

end
end Sys2Proof.Machine

end

section
/-! PROOF. Events of the matrix unit: O29. -/
namespace Sys2Proof.Machine
section
variable {s t : State} {c : MuCmd} {rest : List MuCmd} {tok : Word}

/-! ### Tokens (R289) -/

theorem muToken_reg {kdone row low : Nat} (hk : kdone < 4096) (hl : low < 65536) (hr : row < 64) :
    muToken false kdone row low = wd (fld kdone 44 + fld row 38 + low) := by
  unfold muToken
  rw [Nat.mod_eq_of_lt hk, Nat.mod_eq_of_lt hl, Nat.mod_eq_of_lt hr]
  simp [fld]

/-! ### The next command (R287, R303) -/

/-- The state whose queue has handed over its oldest command. -/
def State.taken (s : State) (rest : List MuCmd) : State := { s with mu := { s.mu with queue := rest } }

/-- The unit is free and c, for which nothing has been done, is its oldest command. -/
structure Oldest (s : State) (c : MuCmd) (rest : List MuCmd) : Prop where
  free : s.mu.run = none
  first : s.mu.queue = c :: rest
  undone : c.done = none
  unstarted : c.started = false

theorem Oldest.grant (h : Oldest s c rest) (hs : s.mu.saves = [] ∨ c.stop = true) : s.grant = (s.taken rest).grantTo c := by
  have next : s.nextCommand = some (c, s.taken rest) := by
    unfold State.nextCommand
    rw [h.first]
    rcases hs with e | e <;> simp [e, State.taken]
  unfold State.grant
  rw [h.free, next]

theorem muDone_mu (s : State) (c : MuCmd) (tok : Word) : (s.muDone c tok).mu = { s.mu with run := some { c with done := some tok } } := rfl
theorem setTile_tiles (s : State) (t i : Nat) (els : List Nat) : (s.setTile t i els).mu.tiles = mputs 0 s.mu.tiles (1024 * t + i) els := rfl
theorem muDone_mem (s : State) (c : MuCmd) (tok : Word) : (s.muDone c tok).mem = s.mem := rfl

theorem grant_running (hrun : s.mu.run = some c) : s.grant = s.grantTo c := by
  unfold State.grant
  rw [hrun]

theorem grantTo_stops (hd : c.done = none) (hs : c.mayStop = true) : s.grantTo c = s.muDone c c.stopToken := by
  simp [State.grantTo, hd, hs]

theorem grantTo_begins (hd : c.done = none) (hst : c.started = false) (hs : c.stop = false) (hsent : c.sent = none)
    (hslot : s.slotTaken c = false) :
    s.grantTo c = ((s.muBegin c).1.noteGrant (s.muBegin c).2).1.muGrant ((s.muBegin c).1.noteGrant (s.muBegin c).2).2 := by
  simp [State.grantTo, hd, MuCmd.mayStop, hs, hsent, hst, hslot]

theorem grantTo_goesOn (hd : c.done = none) (hst : c.started = true) (hs : c.stop = false) (hsent : c.sent = none) :
    s.grantTo c = (s.noteGrant c).1.muGrant (s.noteGrant c).2 := by
  simp [State.grantTo, hd, MuCmd.mayStop, hs, hsent, hst, State.slotTaken]

/-- A command with another count of grants. -/
def MuCmd.granting (c : MuCmd) (n : Nat) : MuCmd := { c with granted := n }

/-- Grants are counted, and nothing else changes (R420). -/
theorem noteGrant_counts (s : State) (c : MuCmd) :
    ∃ n, s.noteGrant c = (s, c.granting n) ∨ s.noteGrant c = (s.count 6 1, c.granting n) := by
  have more (q : Bool) : ∃ n, (if q then (s.count 6 1, c.granting (c.granted + 16)) else (s, c)) = (s, c.granting n)
      ∨ (if q then (s.count 6 1, c.granting (c.granted + 16)) else (s, c)) = (s.count 6 1, c.granting n) := by
    cases q
    · exact ⟨c.granted, .inl rfl⟩
    · exact ⟨_, .inr rfl⟩
  unfold State.noteGrant
  dsimp only
  split
  · exact ⟨c.granted, .inl rfl⟩
  split
  · exact ⟨_, .inr rfl⟩
  · exact more _

/-- The oldest command begins, and proceeds under its first grant. -/
theorem Oldest.begins {u : State} {d : MuCmd} (h : Oldest s c rest) (hsaves : s.mu.saves = []) (hs : c.stop = false) (hsent : c.sent = none)
    (hslot : (s.taken rest).slotTaken c = false) (hb : (s.taken rest).muBegin c = (u, d)) :
    ∃ n, s.grant = u.muGrant (d.granting n) ∨ s.grant = (u.count 6 1).muGrant (d.granting n) := by
  rw [h.grant (.inl hsaves), grantTo_begins h.undone h.unstarted hs hsent hslot, hb]
  obtain ⟨n, e | e⟩ := noteGrant_counts u d
  · exact ⟨n, .inl (by rw [e])⟩
  · exact ⟨n, .inr (by rw [e])⟩

/-- The running command has its token. -/
theorem finishes_of_grant {u : State} {d : MuCmd} (hid : d.id = c.id) (h : s.grant = u.muDone d tok) : finishes s c tok (u.muDone d tok) :=
  ⟨{ d with done := some tok }, hid, rfl, rfl, congrArg State.done h⟩

/-! ### The end of a multiplication (R294) -/

theorem kRun_mma {acc : Acc} {g : Nat} (hop : c.op = .mma acc g) (hx : c.x = none) :
    c.kRun = { acc := acc, g := g, ctl := kctlOf (c.desc.getD 3 0) } := by
  unfold MuCmd.kRun
  rw [hop, hx]

theorem kRun_mrot {acc : Acc} (hop : c.op = .mrot acc) (hx : c.x = none) :
    c.kRun = { acc := acc, bufs := true, ctl := kctlOf (c.desc.getD 1 0) } := by
  unfold MuCmd.kRun
  rw [hop, hx]

theorem census_sched (s : State) (addr : Nat) (e : Events) : ∃ q, s.census addr e = { s with sched := q } := by
  unfold State.census
  dsimp only
  split
  · exact ⟨_, rfl⟩
  split
  · exact ⟨_, rfl⟩
  split
  · exact ⟨_, rfl⟩
  · exact ⟨_, rfl⟩

theorem mmaCensus_sched (s : State) (c : MuCmd) (acc : Acc) : ∃ q, s.mmaCensus c acc = { s with sched := q } := census_sched s _ _

theorem kcount_lt (w : Word) : bits w 11 0 < 4096 := Nat.mod_lt _ (by decide)

theorem doneToken_eq {k : Nat} (h : k < 4096) : doneToken k = wd (fld k 44 + fld 32 38) := by
  unfold doneToken
  rw [muToken_reg h (by decide) (by decide), Nat.add_zero]

theorem foldDrops_dropmag (s : State) : ∃ x, s.foldDrops = { s with mu := { s.mu with dropmag := x } } := ⟨_, rfl⟩

/-- A run that is over ends: DROPMAG and the census, and the token of completion. -/
theorem muGrant_over {acc : Acc} {g : Nat} (hop : c.op = .mma acc g) (hbad : c.bad = none) (hx : c.x = none) (hover : c.over c.kRun = true) :
    s.muGrant c = (s.foldDrops.mmaCensus c acc).muDone c (wd (fld (bits (c.desc.getD 3 0) 11 0) 44 + fld 32 38)) := by
  unfold State.muGrant
  rw [hop]
  dsimp only
  unfold State.grantMma
  dsimp only
  rw [if_pos hover, hbad, kRun_mma hop hx]
  dsimp only [kctlOf]
  rw [doneToken_eq (kcount_lt _)]

/-- So the running command finishes, and tiles, queue and memory are as they were. -/
theorem finishes_over {u : State} {d : MuCmd} {acc : Acc} {g : Nat} (hg : s.grant = u.muGrant d) (hid : d.id = c.id)
    (hdesc : d.desc = c.desc) (hop : d.op = .mma acc g) (hbad : d.bad = none) (hx : d.x = none) (hover : d.over d.kRun = true) :
    ∃ t, finishes s c (wd (fld (bits (c.desc.getD 3 0) 11 0) 44 + fld 32 38)) t ∧ t.mu.queue = u.mu.queue ∧ t.mu.tiles = u.mu.tiles
      ∧ t.mem = u.mem := by
  rw [muGrant_over hop hbad hx hover, hdesc] at hg
  refine ⟨_, finishes_of_grant hid hg, ?_⟩
  obtain ⟨q, e⟩ := mmaCensus_sched u.foldDrops d acc
  obtain ⟨x, e'⟩ := foldDrops_dropmag u
  rw [e, e']
  exact ⟨rfl, rfl, rfl⟩

/-- A run is over where no K-step is left or no row is active. -/
theorem over_of {acc : Acc} {g : Nat} (hop : c.op = .mma acc g) (hx : c.x = none)
    (h : bits (c.desc.getD 3 0) 11 0 ≤ c.k ∨ bits (c.desc.getD 3 0) 63 32 = 0) : c.over c.kRun = true := by
  rw [kRun_mma hop hx]
  generalize c.desc.getD 3 0 = w at h ⊢
  rcases h with h | h <;> simp [MuCmd.over, MuCmd.rows, kctlOf, h]

/-- A run that begins, from the state in which its region has opened. -/
def MuCmd.begun (c : MuCmd) (u : State) : MuCmd := { c with started := true, k := c.k0, snap := (u.mu.tiles, u.mu.droprow, u.mu.clips) }

/-- An MMA with no K-step or no active row ends with its first grant. -/
theorem emptyMma_finishes {acc : Acc} {g : Nat} (h : Oldest s c rest) (hsaves : s.mu.saves = []) (hs : c.stop = false) (hsent : c.sent = none)
    (hop : c.op = .mma acc g) (hfresh : c.fresh = true) (hx : c.x = none) (hbad : c.bad = none)
    (hnone : bits (c.desc.getD 3 0) 11 0 = 0 ∨ bits (c.desc.getD 3 0) 63 32 = 0) :
    ∃ t, finishes s c (wd (fld (bits (c.desc.getD 3 0) 11 0) 44 + fld 32 38)) t ∧ t.mu.queue = rest ∧ t.mu.tiles = s.mu.tiles
      ∧ t.mem.bytes = s.mem.bytes := by
  have hslot : (s.taken rest).slotTaken c = false := by simp [State.slotTaken, MuOp.usesSlot, MuOp.isDss, hop]
  have hbegin : (s.taken rest).muBegin c = (((s.taken rest).muOpen c).freshRows, c.begun ((s.taken rest).muOpen c).freshRows) := by
    simp [State.muBegin, MuOp.multiplies, hop, hfresh, MuCmd.begun]
  have hover (u : State) (n : Nat) : ((c.begun u).granting n).over ((c.begun u).granting n).kRun = true :=
    over_of hop hx (hnone.imp (fun e => by rw [show ((c.begun u).granting n).desc = c.desc from rfl, e]; exact Nat.zero_le _) id)
  obtain ⟨n, e | e⟩ := h.begins hsaves hs hsent hslot hbegin
  all_goals
    obtain ⟨t, hf, hq, ht, hm⟩ := finishes_over e rfl rfl hop hbad hx (hover _ n)
    exact ⟨t, hf, hq, ht, by rw [hm]; rfl⟩

/-! ### Stops (R303) -/

theorem stopToken_unstarted (hst : c.started = false) :
    c.stopToken = if c.op = .step ∨ c.op = .dssbind ∨ c.op = .dssstep ∨ c.op = .cutImpose ∨ c.op = .cutStore ∨ c.op = .cutLoad
        then 0xFF else wd (fld 1 63 + fld (c.k0 % 4096) 44 + fld (c.r0 % 64) 38 + 0xFF) := by
  unfold MuCmd.stopToken
  cases c.op <;> simp [hst, MuOp.isDss] <;> rfl

/-- A command that is asked to stop before anything is done for it stops where it would have begun. -/
theorem stopped_finishes (h : Oldest s c rest) (hs : c.stop = true) :
    ∃ t, finishes s c (if c.op = .step ∨ c.op = .dssbind ∨ c.op = .dssstep ∨ c.op = .cutImpose ∨ c.op = .cutStore ∨ c.op = .cutLoad
        then 0xFF else wd (fld 1 63 + fld (c.k0 % 4096) 44 + fld (c.r0 % 64) 38 + 0xFF)) t
      ∧ t.mu.queue = rest ∧ t.mu.tiles = s.mu.tiles ∧ t.mem = s.mem := by
  have mayStop : c.mayStop = true := by simp [MuCmd.mayStop, hs, h.unstarted]
  rw [← stopToken_unstarted h.unstarted]
  refine ⟨(s.taken rest).muDone c c.stopToken, finishes_of_grant rfl ?_, rfl, rfl, rfl⟩
  rw [h.grant (.inr hs), grantTo_stops h.undone mayStop]

/-! ### DSSBIND (R377) -/

theorem slot_refused (d : Dss) (c : MuCmd) :
    (d.bound && d.owner ≠ c.asid && c.mode ≠ 2) = true ↔ d.bound = true ∧ d.owner ≠ c.asid ∧ c.mode ≠ 2 := by
  rw [Bool.and_eq_true, Bool.and_eq_true, decide_eq_true_iff, decide_eq_true_iff, and_assoc]

/-- DSSBIND is refused where the slot is another task's. -/
theorem finishes_refused {u : State} {d : MuCmd} (hg : s.grant = u.muGrant d) (hid : d.id = c.id) (hop : d.op = .dssbind)
    (h : (u.dss d.slot).bound = true ∧ (u.dss d.slot).owner ≠ d.asid ∧ d.mode ≠ 2) :
    ∃ t, finishes s c (wd (fld 2 8 + cDSS)) t ∧ t.mu.dss = u.mu.dss := by
  refine ⟨u.muDone d _, finishes_of_grant hid ?_, rfl⟩
  rw [hg, State.muGrant, hop]
  dsimp only
  rw [State.runBind, if_pos ((slot_refused _ _).2 h)]
  exact congrArg (u.muDone d) (by decide)

/-- Else it binds the slot. -/
theorem finishes_bound {u : State} {d : MuCmd} (hg : s.grant = u.muGrant d) (hid : d.id = c.id) (hop : d.op = .dssbind)
    (h : (u.dss d.slot).bound = false ∨ (u.dss d.slot).owner = d.asid ∨ d.mode = 2) :
    ∃ t, finishes s c (wd (fld 32 38)) t ∧ t.mu.dss = mput {} u.mu.dss d.slot { u.dss d.slot with
      bound := true, owner := d.asid, desc := d.desc, step := bits (d.desc.getD 5 0) 31 0, cut := 0, imposed := false } := by
  refine ⟨(u.setDss d.slot _).muDone d _, finishes_of_grant hid ?_, rfl⟩
  rw [hg, State.muGrant, hop]
  dsimp only
  rw [State.runBind, if_neg (mt (slot_refused _ _).1 (by simpa only [not_and_or, Bool.not_eq_true, not_not] using h))]
  exact congrArg (State.muDone _ d) (by decide)

theorem dssbind_finishes (h : Oldest s c rest) (hsaves : s.mu.saves = []) (hs : c.stop = false) (hsent : c.sent = none)
    (hop : c.op = .dssbind) (hpeer : bits (c.desc.getD 3 0) 51 48 ∉ s.mu.peerDss) :
    let n := bits (c.desc.getD 3 0) 51 48
    let d := mget {} s.mu.dss n
    (d.bound = true ∧ d.owner ≠ c.asid ∧ c.mode ≠ 2 → ∃ t, finishes s c (wd (fld 2 8 + cDSS)) t ∧ t.mu.dss = s.mu.dss)
     ∧ (d.bound = false ∨ d.owner = c.asid ∨ c.mode = 2 → ∃ t, finishes s c (wd (fld 32 38)) t
       ∧ t.mu.dss = mput {} s.mu.dss n { d with
           bound := true, owner := c.asid, desc := c.desc, step := bits (c.desc.getD 5 0) 31 0, cut := 0, imposed := false }) := by
  have slot (u : State) (k : Nat) : ((c.begun u).granting k).slot = bits (c.desc.getD 3 0) 51 48 := by
    unfold MuCmd.slot
    rw [show ((c.begun u).granting k).op = .dssbind from hop]
    rfl
  have hslot : (s.taken rest).slotTaken c = false := by
    have : c.slot ∉ s.mu.peerDss := by rw [MuCmd.slot, hop]; exact hpeer
    simp [State.slotTaken, State.taken, this]
  have hbegin : (s.taken rest).muBegin c = ((s.taken rest).muOpen c, c.begun ((s.taken rest).muOpen c)) := by
    simp [State.muBegin, MuOp.multiplies, hop, MuCmd.begun]
  obtain ⟨k, e | e⟩ := h.begins hsaves hs hsent hslot hbegin
  all_goals
    have refused := finishes_refused (c := c) e rfl hop
    have bound := finishes_bound (c := c) e rfl hop
    rw [slot] at refused bound
    exact ⟨refused, bound⟩

/-! ### The last row of an MLD (R299) -/

theorem words32_eq (n : Nat) (bs : List Byte) : words32 n bs = (List.range n).map fun j => ofBytes ((bs.drop (4 * j)).take 4) := by
  induction n generalizing bs with
  | zero => rfl
  | succ n ih =>
    rw [words32, ih, List.range_succ_eq_map, List.map_cons, List.map_map]
    simp only [List.drop_drop, Nat.mul_zero, List.drop_zero, Function.comp_def, Nat.mul_succ, Nat.add_comm]

theorem muGrant_mld (hop : c.op = .mld) : s.muGrant c = s.grantRows c fun i s => s.tileRow c false i := by
  unfold State.muGrant
  rw [hop]

theorem finishes_lastRow {u y : State} {d : MuCmd} {bs : List Byte} (hg : s.grant = u.muGrant d) (hid : d.id = c.id) (hop : d.op = .mld)
    (hr : d.r0 = 31) (hread : u.muRead d 0 (d.desc.getD 0 0 + wd (31 * bits (d.desc.getD 1 0) 31 0)) 128 = .ok (bs, y)) :
    ∃ t, finishes s c (wd (fld 32 38)) t ∧ t.mu.tiles = mputs 0 u.mu.tiles (1024 * d.tile + 992)
      ((List.range 32).map fun j => ofBytes ((bs.drop (4 * j)).take 4)) := by
  have row : u.tileRow d false 31 = .ok (y.setTile d.tile 992 (words32 32 bs)) := by
    unfold State.tileRow
    dsimp only
    rw [if_neg Bool.false_ne_true, hread]
    rfl
  have granted : u.muGrant d = (y.setTile d.tile 992 (words32 32 bs)).muDone { d with r0 := d.r0 + 1 } (wd (fld 32 38)) := by
    rw [muGrant_mld hop, State.grantRows, if_neg (by rw [hr]; decide), show u.tileRow d false d.r0 = _ from hr ▸ row,
      show doneToken 0 = wd (fld 32 38) by decide]
    exact if_pos (congrArg (· + 1) hr)
  refine ⟨_, finishes_of_grant (d := { d with r0 := d.r0 + 1 }) hid (hg.trans granted), ?_⟩
  have same : y.mu = u.mu := muRead_mu.ok hread
  rw [← words32_eq, ← same, muDone_mu]
  dsimp only
  rw [setTile_tiles]

theorem lastRow_finishes {y : State} {bs : List Byte} (h : Oldest s c rest) (hsaves : s.mu.saves = []) (hs : c.stop = false) (hsent : c.sent = none)
    (hop : c.op = .mld) (hr : c.r0 = 31)
    (hread : (startOf s c rest).muRead c 0 (c.desc.getD 0 0 + wd (31 * bits (c.desc.getD 1 0) 31 0)) 128 = .ok (bs, y)) :
    ∃ t, finishes s c (wd (fld 32 38)) t ∧ t.mu.tiles = mputs 0 s.mu.tiles (1024 * c.tile + 992)
      ((List.range 32).map fun j => ofBytes ((bs.drop (4 * j)).take 4)) := by
  have hslot : (s.taken rest).slotTaken c = false := by simp [State.slotTaken, MuOp.usesSlot, MuOp.isDss, hop]
  have hbegin : (s.taken rest).muBegin c = ((s.taken rest).muOpen c, c.begun ((s.taken rest).muOpen c)) := by
    simp [State.muBegin, MuOp.multiplies, hop, MuCmd.begun]
  obtain ⟨n, e | e⟩ := h.begins hsaves hs hsent hslot hbegin
  · have counted : OtherUnit _ _ ((s.taken rest).muOpen c) (startOf s c rest) := rfl
    obtain ⟨v, hread', -⟩ := counted.muRead_ok hread
    exact finishes_lastRow (u := (s.taken rest).muOpen c) (d := (c.begun ((s.taken rest).muOpen c)).granting n) e rfl hop hr hread'
  · exact finishes_lastRow (u := startOf s c rest) (d := (c.begun ((s.taken rest).muOpen c)).granting n) e rfl hop hr hread

/-! ### A K-step (R185, R294) -/

theorem scaleOk_ok {kind va : Nat} {b : Blk} {live : Bool} (h : b.t.isInt = true → b.scale = 0x7F) : scaleOk kind va b live = .ok () := by
  unfold scaleOk
  refine if_neg fun hc => ?_
  simp only [Bool.and_eq_true, decide_eq_true_eq] at hc
  obtain ⟨⟨hi, -⟩, hs⟩ := hc
  exact hs (h hi)

/-- The pairs of a row whose formats agree. -/
theorem pairsOk_ok {p : KRun} {k : Nat} {a : ARow} (hacc : a.b.t.isInt = true ↔ p.acc ≠ .f) {bl : List (Blk × Nat)}
    (hb : ∀ b ∈ bl, b.1.t.group = a.b.t.group ∧ (b.1.t.isInt = true → b.1.scale = 0x7F)) (i : Nat) : pairsOk p k a i bl = .ok () := by
  have sameAcc : ¬ (a.b.t.isInt != decide (p.acc ≠ .f)) = true := by
    rw [bne_iff_ne, not_not, Bool.eq_iff_iff, decide_eq_true_iff]
    exact hacc
  induction bl generalizing i with
  | nil => rfl
  | cons b bl ih =>
    obtain ⟨group, scale⟩ := hb b (.head bl)
    have pair (h : Nat) : pairOk p k h a b = .ok () := by
      unfold pairOk
      rw [scaleOk_ok scale, if_neg sameAcc]
      exact if_neg (not_not.2 group)
    unfold pairsOk
    rw [pair]
    exact ih (fun x hx => hb x (.tail b hx)) (i + 1)

theorem blkOf_raw {bs : List Byte} {a : Blk} (h : blkOf bs = some a) : ∃ f : Nat → Nat, a.raw = (List.range a.t.blkLen).map f := by
  obtain ⟨t, -, e⟩ := Option.map_eq_some_iff.1 h
  subst e
  exact ⟨_, rfl⟩

theorem map_zip_self {α β : Type} (f : α → β) (l : List α) : (l.map f).zip l = l.map fun q => (f q, q) := by
  conv_lhs => rw [← List.map_id l, List.map_map]
  exact List.zip_map' ..

/-- The products of a dense pair: the elements in use are those within KLIM that THR does not drop. -/
theorem live_products {p : KRun} {va : Nat} {a b : Blk} {f : Nat → Nat} (hraw : a.raw = (List.range a.t.blkLen).map f)
    (hctl : p.ctl = kctlOf (c.desc.getD 3 0)) :
    ((arow c p c.k va a (List.range a.t.blkLen)).live.filterMap fun y =>
      if 0 * a.t.blkLen ≤ y.2 && y.2 < (0 + 1) * a.t.blkLen
        then some (elemTimes a.t b.t y.1 (b.raw.getD (y.2 - 0 * a.t.blkLen) 0)) else none) = pairProducts c a b := by
  have code {q : Nat} (hq : q ∈ List.range a.t.blkLen) : a.raw.getD q 0 = f q := by
    rw [hraw]
    simp [List.mem_range.1 hq]
  unfold arow pairProducts
  dsimp only
  rw [show a.raw.zip (List.range a.t.blkLen) = (List.range a.t.blkLen).map fun q => (f q, q) from hraw ▸ map_zip_self f _,
    List.filter_filter, List.filter_map, List.filterMap_map]
  have kept : (List.range a.t.blkLen).filter ((fun x : Nat × Nat => (dropped c.thr a.t a.scale x.1).isNone && p.keeps c.k x.2) ∘ fun q => (f q, q))
      = (List.range a.t.blkLen).filter fun q => !(c.k + 1 = bits (c.desc.getD 3 0) 11 0 && bits (c.desc.getD 3 0) 31 24 ≠ 0
        && bits (c.desc.getD 3 0) 31 24 ≤ q) && (dropped c.thr a.t a.scale (a.raw.getD q 0)).isNone := by
    refine List.filter_congr fun q hq => ?_
    rw [code hq, Function.comp_apply, Bool.and_comm]
    unfold KRun.keeps
    rw [hctl]
    rfl
  rw [kept]
  refine List.filterMap_eq_map_iff_forall_eq_some.2 fun q hq => ?_
  have hq := (List.mem_filter.1 hq).1
  rw [code hq, Function.comp_apply]
  simp [List.mem_range.1 hq]

/-- A dense pair has no positions without an element (R295). -/
theorem noZeros_dense {p : KRun} (hg : p.g = 0) (n : Nat) (F G : Nat → Bool) (x : Nat → Sys2Proof.Num) :
    ((List.range n).filterMap fun q => if p.g ≠ 0 && F q && G q then some (x q) else none) = [] := by
  simp [hg]

/-- An accumulator after a dense K-step. -/
theorem accStep_dense {p : KRun} {va i j old : Nat} {a : Blk} {bl : List (Blk × Nat)} {f : Nat → Nat}
    (hraw : a.raw = (List.range a.t.blkLen).map f) (hctl : p.ctl = kctlOf (c.desc.getD 3 0)) (hg : p.g = 0) :
    (accStep c p c.k i (arow c p c.k va a (List.range a.t.blkLen)) bl j old).1
    = (blockAdd p.acc c.rnd (1024 * c.k + 32 * i + j) old a.scale (bl.getD j (a, 0)).1.scale (pairProducts c a (bl.getD j (a, 0)).1)).1 := by
  have products := live_products (va := va) (b := (bl.getD j (a, 0)).1) hraw hctl
  unfold accStep
  rw [if_pos hg, Nat.mul_comm 1024 c.k, ← products]
  exact congrArg (fun l => (blockAdd p.acc c.rnd _ old a.scale _ l).1)
    ((congrArg (_ ++ ·) (noZeros_dense hg _ _ _ _)).trans (List.append_nil _))

/-- Row i of a dense K-step whose blocks are read and agree: its accumulators. -/
theorem rowStep_dense {p : KRun} {y z : State} {i va : Nat} {ba : List Byte} {a : Blk} {bl : List (Blk × Nat)}
    (hblock : s.block c p 0 i c.k = .ok (ba, va, y)) (ha : blkOf ba = some a) (hscale : a.t.isInt = true → a.scale = 0x7F)
    (hcols : y.bBlocks c p ((List.range 32).map fun j => (j, c.k)) = .ok (⟨bl, none⟩, z))
    (hb : ∀ b ∈ bl, b.1.t.group = a.t.group ∧ (b.1.t.isInt = true → b.1.scale = 0x7F)) (hacc : a.t.isInt = true ↔ p.acc ≠ .f)
    (hctl : p.ctl = kctlOf (c.desc.getD 3 0)) (hg : p.g = 0) :
    ∃ t, s.rowStep c p c.k i none = .ok (⟨bl, none⟩, t)
      ∧ t.mu.tiles = mputs 0 z.mu.tiles (1024 * c.tile + 32 * i) ((List.range 32).map fun j =>
        (blockAdd p.acc c.rnd (1024 * c.k + 32 * i + j) (mget 0 z.mu.tiles (1024 * c.tile + 32 * i + j)) a.scale (bl.getD j (a, 0)).1.scale
          (pairProducts c a (bl.getD j (a, 0)).1)).1) := by
  have row : s.rowA c p c.k i = .ok (arow c p c.k va a (List.range a.t.blkLen), y) := by
    unfold State.rowA
    rw [hblock]
    dsimp only [Bind.bind, Except.bind]
    rw [show codeOk 0 va ba = .ok a by unfold codeOk; rw [ha]]
    dsimp only
    rw [if_pos hg, scaleOk_ok hscale]
  have columns : p.bList c.k = (List.range 32).map fun j => (j, c.k) := if_pos hg
  obtain ⟨f, hraw⟩ := blkOf_raw ha
  unfold State.rowStep
  rw [row]
  dsimp only [Bind.bind, Except.bind]
  rw [columns, hcols]
  dsimp only
  rw [pairsOk_ok hacc hb]
  refine ⟨_, rfl, ?_⟩
  dsimp only [State.setTile]
  refine congrArg (mputs 0 z.mu.tiles _) ?_
  unfold mgets
  rw [List.map_map, map_zip_self, List.map_map]
  exact List.map_congr_left fun j _ => accStep_dense hraw hctl hg

theorem rows_single {p : KRun} {i : Nat} (hbad : c.bad = none) (hi : i < 32)
    (h : ∀ r < 32, (c.r0 ≤ r ∧ p.ctl.rows / 2 ^ r % 2 = 1) ↔ r = i) : c.rows p = [i] := by
  unfold MuCmd.rows
  rw [hbad]
  dsimp only
  have only : (List.range 32).filter (fun r => c.r0 ≤ r && r < 32 && p.ctl.rows / 2 ^ r % 2 = 1) = (List.range 32).filter (· = i) := by
    refine List.filter_congr fun r hr => ?_
    have hr := List.mem_range.1 hr
    simp [hr, ← h r hr]
  rw [only]
  clear h only
  revert i
  decide

/-- A grant that is under way is not counted again (R420). -/
theorem noteGrant_covered {acc : Acc} {g : Nat} (hop : c.op = .mma acc g) (hg : c.granted ≠ 0)
    (h : c.k - c.k0 < c.granted ∨ c.over c.kRun = true) :
    s.noteGrant c = (s, c) := by
  unfold State.noteGrant
  rw [hop]
  dsimp only
  rw [if_neg (show ¬ ((MuOp.mma acc g).isSave || (MuOp.mma acc g).isDss) = true from Bool.false_ne_true), if_neg hg]
  refine if_neg ?_
  rcases h with h | h
  · simp [h]
  · simp [h]

theorem muGrant_mma {acc : Acc} {g : Nat} (hop : c.op = .mma acc g) :
    s.muGrant c = s.grantMma c fun s c => (s.foldDrops.mmaCensus c acc).muDone c (doneToken c.kRun.ctl.kcount) := by
  unfold State.muGrant
  rw [hop]

/-- One K-step of a dense MMA with one active row, whose blocks are read and agree. -/
theorem kStep_row {y z : State} {i n : Nat} {acc : Acc} {ba : List Byte} {a : Blk} {bl : List (Blk × Nat)} (hrun : s.mu.run = some c)
    (hop : c.op = .mma acc 0) (hst : c.started = true) (hd : c.done = none) (hs : c.stop = false) (hsent : c.sent = none)
    (hbad : c.bad = none) (hx : c.x = none) (hn : n = bits (c.desc.getD 3 0) 11 0) (hk : c.k < n) (hg : c.k - c.k0 < c.granted) (hi : i < 32)
    (hrows : ∀ r < 32, (c.r0 ≤ r ∧ bits (c.desc.getD 3 0) 63 32 / 2 ^ r % 2 = 1) ↔ r = i)
    (hread : s.muRead c 0 (c.desc.getD 0 0 + wd (i * bits (c.desc.getD 2 0) 31 0 + 64 * c.k)) 64 = .ok (ba, y)) (ha : blkOf ba = some a)
    (hscale : a.t.isInt = true → a.scale = 0x7F)
    (hcols : y.bBlocks c c.kRun ((List.range 32).map fun j => (j, c.k)) = .ok (⟨bl, none⟩, z))
    (hb : ∀ b ∈ bl, b.1.t.group = a.t.group ∧ (b.1.t.isInt = true → b.1.scale = 0x7F)) (hacc : a.t.isInt = true ↔ acc ≠ .f) :
    ∃ (t : State) (d : MuCmd), exec .matrixGrant s = .next t.tick ∧ t.mu.run = some d ∧ d.k = c.k + 1 ∧ d.done = none
      ∧ t.mu.tiles = mputs 0 s.mu.tiles (1024 * c.tile + 32 * i) ((List.range 32).map fun j =>
        let b := (bl.getD j (a, 0)).1
        (blockAdd acc c.rnd (1024 * c.k + 32 * i + j) (mget 0 s.mu.tiles (1024 * c.tile + 32 * i + j)) a.scale b.scale
          (pairProducts c a b)).1) := by
  have krun := kRun_mma hop hx
  have rows : c.rows c.kRun = [i] := rows_single hbad hi (by rw [krun]; exact hrows)
  have block : s.block c c.kRun 0 i c.k = .ok (ba, (c.desc.getD 0 0 + wd (i * bits (c.desc.getD 2 0) 31 0 + 64 * c.k)).toNat % 2 ^ 56, y) := by
    rw [krun]
    unfold State.block
    rw [if_neg Bool.false_ne_true]
    change (s.muRead c 0 (c.desc.getD 0 0 + wd (i * bits (c.desc.getD 2 0) 31 0 + 64 * c.k)) 64 >>= _) = _
    rw [hread]
    rfl
  obtain ⟨t, step, tiles⟩ := rowStep_dense block ha hscale hcols hb (by rw [krun]; exact hacc) (by rw [krun]) (by rw [krun])
  have unit : z.mu = s.mu := (bBlocks_mu.ok hcols).trans (muRead_mu.ok hread)
  have notOver : ¬ c.over c.kRun = true := by
    have left : ¬ c.kRun.ctl.kcount ≤ c.k := by
      rw [krun]
      exact Nat.not_le.2 (Nat.lt_of_lt_of_eq hk hn)
    rw [MuCmd.over, rows, decide_eq_false left]
    exact Bool.false_ne_true
  have granted : s.grant = t.setRun { c with k := c.k + 1 } := by
    rw [grant_running hrun, grantTo_goesOn hd hst hs hsent, noteGrant_covered hop (by omega) (.inl hg), muGrant_mma hop, State.grantMma]
    dsimp only
    rw [if_neg notOver, State.kStep, rows, State.kRows, step]
    rfl
  refine ⟨_, _, congrArg State.done granted, rfl, rfl, hd, ?_⟩
  rw [show (t.setRun _).mu.tiles = t.mu.tiles from rfl, tiles, unit, krun]

/-- A run that has no K-step left ends; one that is asked to stop stops between K-steps. -/
theorem mma_finishes {acc : Acc} {g : Nat} (hrun : s.mu.run = some c) (hop : c.op = .mma acc g) (hst : c.started = true) (hd : c.done = none)
    (hsent : c.sent = none) (hbad : c.bad = none) (hx : c.x = none) (hg : c.granted ≠ 0) (hs : c.stop = false)
    (hk : bits (c.desc.getD 3 0) 11 0 ≤ c.k) :
    ∃ t, finishes s c (wd (fld (bits (c.desc.getD 3 0) 11 0) 44 + fld 32 38)) t ∧ t.mu.tiles = s.mu.tiles ∧ t.mem = s.mem := by
  have ended := over_of hop hx (.inl hk)
  have granted : s.grant = s.muGrant c := by
    rw [grant_running hrun, grantTo_goesOn hd hst hs hsent, noteGrant_covered hop hg (.inr ended)]
  obtain ⟨t, hf, -, ht, hm⟩ := finishes_over granted rfl rfl hop hbad hx ended
  exact ⟨t, hf, ht, hm⟩

theorem mma_stops {acc : Acc} {g : Nat} (hrun : s.mu.run = some c) (hop : c.op = .mma acc g) (hst : c.started = true) (hd : c.done = none)
    (hsent : c.sent = none) (hbad : c.bad = none) (hs : c.stop = true) :
    ∃ t, finishes s c (wd (fld 1 63 + fld (c.k % 4096) 44 + fld (c.r0 % 64) 38 + 0xFF)) t ∧ t.mu.tiles = s.mu.tiles ∧ t.mem = s.mem := by
  have mayStop : c.mayStop = true := by simp [MuCmd.mayStop, hs, hbad, hop, MuOp.isDss, hsent]
  have token : c.stopToken = wd (fld 1 63 + fld (c.k % 4096) 44 + fld (c.r0 % 64) 38 + 0xFF) := by
    unfold MuCmd.stopToken
    rw [hop]
    dsimp only
    rw [if_pos hst]
    rfl
  refine ⟨s.muDone c c.stopToken, token ▸ finishes_of_grant rfl ?_, rfl, rfl⟩
  rw [grant_running hrun, grantTo_stops hd mayStop]

/-! ### The token fills (R289) -/

/-- FAULTVA once a command's token is filled: the address of a fault that the token reports, but for an MROT (R291). -/
def MuCmd.faultva (c : MuCmd) (old : Nat) : Nat :=
  match c.op, c.bad with
  | .mrot _, _ => old
  | _, some b => b.2.2
  | _, none => old

theorem tokenFill_fills {y : State} (hrun : s.mu.run = some c) (hd : c.done = some tok) (hquiet : c.quiet = false) (hlost : bits tok 7 0 ≠ cMEMLOST)
    (hy : y = ({ s.endCommand .mu c.id with mu := { s.mu with run := none } }).keepClips c (bit tok 63)) :
    exec .matrixTokenFill s =
      .next ((({ y with mu := { y.mu with rowprog := tok, faultva := c.faultva s.mu.faultva } }).fillToken c.id [tok]).tick) := by
  have va : y.mu.faultva = s.mu.faultva := by
    rw [hy]
    unfold State.keepClips
    split <;> rfl
  change execMatrixTokenFill s = _
  unfold execMatrixTokenFill
  rw [hrun]
  dsimp only
  rw [hd]
  dsimp only
  unfold State.muFill MuCmd.faultva
  rw [← hy]
  dsimp only
  rw [hquiet, if_neg Bool.false_ne_true, va, State.countCause, if_neg hlost]
  cases c.op <;> cases c.bad <;> rfl

/-! ### The buffers of an MROT (R297) -/

theorem arrival_late {isA : Bool} {bytes : List Byte} {tag : RotTag} (h : (isA, tag.m) ∈ s.mu.late) :
    exec (.mrotBufferArrival isA bytes tag) s = .next (({ s with mu := { s.mu with late := s.mu.late.erase (isA, tag.m) } }).tick) :=
  if_pos (List.contains_iff_mem.2 h)

/-- The state to which a buffer has come. -/
def State.withArrived (s : State) (r : RotBuf) : State := { s with mu := { s.mu with arrived := s.mu.arrived ++ [r] } }

/-- A buffer that has come, after which an MROT that awaits buffers looks again whether it has them. -/
def State.arrivedFor (s : State) (run : Option MuCmd) : State :=
  match run with
  | some c => if c.sent.isSome && c.done.isNone then s.rotSettle c else s
  | none => s

theorem arrival_wanted {isA : Bool} {bytes : List Byte} {tag : RotTag} (h : (isA, tag.m) ∉ s.mu.late) :
    exec (.mrotBufferArrival isA bytes tag) s = .next (((s.withArrived ⟨isA, bytes, tag.rect, tag.m⟩).arrivedFor s.mu.run).tick) := by
  change execMrotBufferArrival isA bytes tag s = _
  unfold execMrotBufferArrival
  rw [if_neg (mt List.contains_iff_mem.1 h)]
  unfold State.withArrived State.arrivedFor
  dsimp only
  cases s.mu.run <;> rfl

theorem arrival_kept {isA : Bool} {bytes : List Byte} {tag : RotTag} (h : (isA, tag.m) ∉ s.mu.late) (hrun : s.mu.run = none) :
    exec (.mrotBufferArrival isA bytes tag) s = .next ((s.withArrived ⟨isA, bytes, tag.rect, tag.m⟩).tick) := by
  rw [arrival_wanted h, hrun]
  rfl

theorem arrival_settles {isA : Bool} {bytes : List Byte} {tag : RotTag} {k : Nat} (h : (isA, tag.m) ∉ s.mu.late) (hrun : s.mu.run = some c)
    (hsent : c.sent = some k) (hd : c.done = none) :
    exec (.mrotBufferArrival isA bytes tag) s = .next (((s.withArrived ⟨isA, bytes, tag.rect, tag.m⟩).rotSettle c).tick) := by
  rw [arrival_wanted h, hrun, State.arrivedFor, hsent, hd]
  rfl

theorem takeArrived_head (r : RotBuf) (rs : List RotBuf) : takeArrived r.isA r.m (r :: rs) = some (r, rs) := if_pos (by simp)

theorem dropArrived_head {r : RotBuf} {rs : List RotBuf} (h : s.mu.arrived = r :: rs) :
    s.dropArrived r.isA r.m = { s with mu := { s.mu with arrived := rs } } := by
  unfold State.dropArrived
  rw [h, takeArrived_head]

/-- A buffer that has come replaces the old one. -/
def State.takeBuffer (s : State) (r : RotBuf) : State := (s.dropArrived r.isA r.m).setBuffer r.isA r.bytes

theorem takeBuffer_mu {r : RotBuf} {rs : List RotBuf} (h : s.mu.arrived = r :: rs) (hlen : r.bytes.length = 32768) :
    (s.takeBuffer r).mu = { s.mu with arrived := rs, bufs := mputs 0 s.mu.bufs (if r.isA then 0 else 32768) r.bytes } := by
  unfold State.takeBuffer State.setBuffer
  rw [dropArrived_head h, List.take_of_length_le hlen.le]

/-- Both buffers that an MROT awaits have come, of its own rectangle. -/
theorem rotSettle_both {u : State} {a b : List Byte} (hcols : (rotGrid c.rect).1 ≠ 1) (hrows : (rotGrid c.rect).2 ≠ 1)
    (h : u.mu.arrived = [⟨true, a, c.rect, c.m⟩, ⟨false, b, c.rect, c.m⟩]) :
    u.rotSettle c = (((u.takeBuffer ⟨true, a, c.rect, c.m⟩).takeBuffer ⟨false, b, c.rect, c.m⟩).mmaCensus c c.kRun.acc).muDone c
      (doneToken c.kRun.ctl.kcount) := by
  have hasA : takeArrived true c.m u.mu.arrived = some (⟨true, a, c.rect, c.m⟩, [⟨false, b, c.rect, c.m⟩]) :=
    h ▸ takeArrived_head ⟨true, a, c.rect, c.m⟩ _
  have hasB : takeArrived false c.m u.mu.arrived = some (⟨false, b, c.rect, c.m⟩, [⟨true, a, c.rect, c.m⟩]) := by
    rw [h]
    simp [takeArrived]
  unfold State.rotSettle
  dsimp only
  rw [hasA, hasB, if_neg hcols, if_neg hrows]
  dsimp only [Option.map]
  rw [if_neg (by simp), if_pos (by simp)]
  rfl

theorem mrot_doneToken {acc : Acc} (hop : c.op = .mrot acc) (hx : c.x = none) :
    doneToken c.kRun.ctl.kcount = wd (fld (bits (c.desc.getD 1 0) 11 0) 44 + fld 32 38) := by
  rw [kRun_mrot hop hx]
  exact doneToken_eq (kcount_lt _)

theorem arrivals_finish {k : Nat} {acc : Acc} {a b : List Byte} (hrun : s.mu.run = some c) (hsent : c.sent = some k) (hd : c.done = none)
    (hx : c.x = none) (hop : c.op = .mrot acc) (hcols : (rotGrid c.rect).1 ≠ 1) (hrows : (rotGrid c.rect).2 ≠ 1) (hlate : s.mu.late = [])
    (ha : a.length = 32768) (hb : b.length = 32768) (h : s.mu.arrived = [RotBuf.mk true a c.rect c.m]) :
    ∃ (t : State) (d : MuCmd), exec (.mrotBufferArrival false b (RotTag.mk c.rect c.m)) s = .next t.tick ∧ t.mu.run = some d
      ∧ d.done = some (wd (fld (bits (c.desc.getD 1 0) 11 0) 44 + fld 32 38)) ∧ t.mu.arrived = []
      ∧ t.mu.bufs = mputs 0 (mputs 0 s.mu.bufs 0 a) 32768 b := by
  have came : (s.withArrived ⟨false, b, c.rect, c.m⟩).mu.arrived = [⟨true, a, c.rect, c.m⟩, ⟨false, b, c.rect, c.m⟩] :=
    congrArg (· ++ [RotBuf.mk false b c.rect c.m]) h
  have tookA := takeBuffer_mu came ha
  have tookB := takeBuffer_mu (r := ⟨false, b, c.rect, c.m⟩) (congrArg Mu.arrived tookA) hb
  have settled := rotSettle_both hcols hrows came
  obtain ⟨q, e⟩ := mmaCensus_sched (((s.withArrived ⟨false, b, c.rect, c.m⟩).takeBuffer ⟨true, a, c.rect, c.m⟩).takeBuffer
    ⟨false, b, c.rect, c.m⟩) c c.kRun.acc
  rw [e, mrot_doneToken hop hx] at settled
  have arrives := arrival_settles (bytes := b) (tag := ⟨c.rect, c.m⟩) (isA := false) (by rw [hlate]; exact List.not_mem_nil) hrun hsent hd
  rw [settled] at arrives
  refine ⟨_, _, arrives, rfl, rfl, congrArg Mu.arrived tookB, ?_⟩
  rw [muDone_mu, tookB, tookA]
  rfl

/-! ### ROTLATE (R297) -/

/-- An MROT awaits a buffer from its row or its column of clusters (R297). -/
def MuCmd.awaits (c : MuCmd) (isA : Bool) : Prop := (if isA then (rotGrid c.rect).1 else (rotGrid c.rect).2) ≠ 1

theorem giveUp_rest (s : State) (c : MuCmd) (isA : Bool) : ∃ came late,
    s.giveUp c isA = { s with mu := { s.mu with arrived := came, late := late } } := by
  unfold State.giveUp State.dropArrived
  dsimp only
  generalize (if isA then (rotGrid c.rect).1 else (rotGrid c.rect).2) = n
  generalize takeArrived isA c.m s.mu.arrived = r
  by_cases hn : n = 1
  · exact ⟨_, _, if_pos hn⟩
  rw [if_neg hn]
  cases r with
  | none => exact ⟨_, _, rfl⟩
  | some r => exact ⟨_, _, rfl⟩

/-- Where no buffer has come, one that is awaited no more is late (R297). -/
theorem giveUp_late (isA : Bool) (h : s.mu.arrived = []) : ∃ late,
    s.giveUp c isA = { s with mu := { s.mu with late := s.mu.late ++ late } } ∧ (c.awaits isA → (isA, c.m) ∈ late) := by
  unfold State.giveUp MuCmd.awaits
  dsimp only
  by_cases hn : (if isA then (rotGrid c.rect).1 else (rotGrid c.rect).2) = 1
  · exact ⟨[], by rw [if_pos hn, List.append_nil], fun e => absurd hn e⟩
  · exact ⟨[(isA, c.m)], by rw [if_neg hn, h]; rfl, fun _ => .head _⟩

theorem matToken_eq {k : Nat} (hk : k < 4096) : matToken k 1 = wd (fld k 44 + fld 32 38 + fld 1 8 + cMATFAULT) := by
  have fault : muFault 0 cMATFAULT 1 0 = fld 1 8 + cMATFAULT := by decide
  rw [matToken, fault, muToken_reg hk (by decide) (by decide), Nat.add_assoc _ (fld 1 8)]

theorem rotlate_fails {k : Nat} (hrun : s.mu.run = some c) (hsent : c.sent = some k) (hd : c.done = none) :
    exec .rotlate s = .next (s.rotFails c 1).tick := by
  change execRotlate s = _
  unfold execRotlate
  rw [hrun]
  dsimp only
  rw [hsent, hd]
  rfl

theorem rotlate_finishes {n : Nat} {acc : Acc} (hrun : s.mu.run = some c) (hsent : c.sent = some n) (hd : c.done = none) (hx : c.x = none)
    (hop : c.op = .mrot acc) :
    ∃ (t : State) (d : MuCmd), exec .rotlate s = .next t.tick ∧ t.mu.run = some d
      ∧ d.done = some (wd (fld (bits (c.desc.getD 1 0) 11 0) 44 + fld 32 38 + fld 1 8 + cMATFAULT))
      ∧ t.mu.bufs = s.mu.bufs ∧ t.mu.tiles = s.mu.tiles
      ∧ (s.mu.arrived = [] → c.awaits true → (true, c.m) ∈ t.mu.late)
      ∧ (s.mu.arrived = [] → c.awaits false → (false, c.m) ∈ t.mu.late) := by
  have token : matToken c.kRun.ctl.kcount 1 = wd (fld (bits (c.desc.getD 1 0) 11 0) 44 + fld 32 38 + fld 1 8 + cMATFAULT) := by
    rw [kRun_mrot hop hx]
    exact matToken_eq (kcount_lt _)
  obtain ⟨came, late, first⟩ := giveUp_rest s c true
  obtain ⟨came', late', second⟩ := giveUp_rest (s.giveUp c true) c false
  have lateBoth (h : s.mu.arrived = []) : (c.awaits true → (true, c.m) ∈ ((s.giveUp c true).giveUp c false).mu.late)
      ∧ (c.awaits false → (false, c.m) ∈ ((s.giveUp c true).giveUp c false).mu.late) := by
    obtain ⟨l, el, inL⟩ := giveUp_late (c := c) true h
    have h' : (s.giveUp c true).mu.arrived = [] := by rw [el]; exact h
    obtain ⟨l', el', inL'⟩ := giveUp_late (c := c) false h'
    rw [el', el]
    exact ⟨fun e => List.mem_append_left _ (List.mem_append_right _ (inL e)), fun e => List.mem_append_right _ (inL' e)⟩
  refine ⟨_, _, rotlate_fails hrun hsent hd, rfl, congrArg some token, ?_, ?_, fun h => (lateBoth h).1, fun h => (lateBoth h).2⟩
  · rw [State.rotFails, muDone_mu, second, first]
  · rw [State.rotFails, muDone_mu, second, first]

end
end Sys2Proof.Machine

open Sys2Proof Sys2Proof.Machine

/-- Settles O29: one lemma for each event. Where the unit begins a command, the command's region opens first and a grant may be counted, and
neither is seen by what the grant reads. -/
theorem matrixUnitEvents : Obligations.MatrixUnitEvents := by
  refine ⟨?empty, ?stopped, ?bind, ?row, ?kStep, ?ends, ?fill, ?arrival, ?arrivals, ?late⟩
  case empty =>
    intro s c rest acc n hrun hq hsaves hd hs hsent hst hop hfresh _ _ hx hbad hnone
    exact emptyMma_finishes ⟨hrun, hq, hd, hst⟩ hsaves hs hsent hop hfresh hx hbad hnone
  case stopped =>
    intro s c rest hrun hq hd hs hst
    exact stopped_finishes ⟨hrun, hq, hd, hst⟩ hs
  case bind =>
    intro s c rest hrun hq hsaves hd hs hsent hst hop hpeer
    exact dssbind_finishes ⟨hrun, hq, hd, hst⟩ hsaves hs hsent hop hpeer
  case row =>
    intro s c rest y bs hrun hq hsaves hd hs hsent hst hop hr hread
    exact lastRow_finishes ⟨hrun, hq, hd, hst⟩ hsaves hs hsent hop hr hread
  case kStep =>
    intro s y z c i n acc ba a bl hrun hop hst hd hs hsent hbad hx hn hk hg hi hrows hread ha hscale hcols hb hacc
    exact kStep_row hrun hop hst hd hs hsent hbad hx hn hk hg hi hrows hread ha hscale hcols hb hacc
  case ends =>
    intro s c acc g hrun hop hst hd hsent hbad hx hg
    exact ⟨mma_finishes hrun hop hst hd hsent hbad hx hg, mma_stops hrun hop hst hd hsent hbad⟩
  case fill =>
    intro s y c tok hrun hd hquiet hlost hy
    exact tokenFill_fills hrun hd hquiet hlost hy
  case arrival =>
    intro s isA bytes tag
    exact ⟨arrival_late, arrival_kept⟩
  case arrivals =>
    intro s c k a b hrun hsent hd hx ⟨acc, hop⟩ hcols hrows hlate ha hb h
    exact arrivals_finish hrun hsent hd hx hop hcols hrows hlate ha hb h
  case late =>
    intro s c n k hrun hsent hd hk ⟨acc, hop⟩ hx
    rw [hk]
    exact rotlate_finishes hrun hsent hd hx hop

end

section
/-! PROOF. What the decoder reads is written back (R196): fields, formats of FX and MIN, and what it is for fields to be written back. -/
namespace Sys2Proof.Laws

/-! ### Fields that come back -/

theorem eq_ofNat {w n : Nat} {x : BitVec w} (h : x.toNat = n) : x = BitVec.ofNat w n := by
  subst h; simp

theorem code_ofCode (n : Nat) : (Ty.ofCode n).code = n % 16 := by
  have h : n % 16 < 16 := Nat.mod_lt _ (by decide)
  rw [← ofCode_mod]
  generalize n % 16 = k at h
  revert k
  decide

@[simp] theorem bits_ofBits (x : BitVec 11) : (Name.ofBits x).bits = x := by
  revert x; decide +kernel

theorem num_ofBits (x : BitVec 11) : (Name.ofBits x).num = x.toNat := by
  have h := congrArg BitVec.toNat (bits_ofBits x)
  rwa [Name.bits, BitVec.toNat_ofNat, Nat.mod_eq_of_lt (num_lt _)] at h

/-- A field of a narrower kind, when no bit above its own is set. -/
theorem ofFin_low {x : BitVec 11} {k : Nat} (hk : 0 < k) (h : Enc.above x k = false) : Enc.ofFin (Enc.low x k hk) = x := by
  have h : x.toNat < k := by simpa using h
  simp [Enc.ofFin, Enc.low, Nat.mod_eq_of_lt h]

theorem i13_toNat (e : Enc) : e.i13.toNat = e.b.toNat + 2048 * e.ma.toNat + 4096 * e.mb.toNat := by
  have hb := e.b.isLt
  have ha := e.ma.toNat_le
  have hm := e.mb.toNat_le
  rw [i13_def, BitVec.toNat_ofNat, Nat.mod_eq_of_lt]
  omega

/-- Bits [47:35] written as they were read. -/
theorem put13_i13 (e' e : Enc) : e'.put13 e.i13 = { e' with b := e.b, ma := e.ma, mb := e.mb } := by
  have hb := e.b.isLt
  rw [put13_def, i13_toNat]
  congr 1
  · apply BitVec.eq_of_toNat_eq
    rw [BitVec.toNat_ofNat]; omega
  · cases e.ma <;> cases e.mb <;> simp <;> omega
  · cases e.ma <;> cases e.mb <;> simp <;> omega

theorem ext_toNat (e : Enc) : e.ext.toNat = e.p2.toNat + 4294967296 * e.p3.toNat := by
  have h2 := e.p2.isLt
  have h3 := e.p3.isLt
  rw [ext_def, BitVec.toNat_ofNat, Nat.mod_eq_of_lt]
  omega

theorem ext_low (e : Enc) : BitVec.setWidth 32 e.ext = e.p2 := by
  have h2 := e.p2.isLt
  apply BitVec.eq_of_toNat_eq
  rw [BitVec.toNat_setWidth, ext_toNat]; omega

theorem ext_high (e : Enc) : BitVec.ofNat 32 (e.ext.toNat / 4294967296) = e.p3 := by
  have h2 := e.p2.isLt
  have h3 := e.p3.isLt
  apply BitVec.eq_of_toNat_eq
  rw [ext_toNat, BitVec.toNat_ofNat]; omega

/-- Parcel 2 of twelve bits: C and its mode. -/
theorem c_split {e : Enc} (h : e.rC = false) : e.c.toNat + 2048 * e.mc.toNat = e.p2.toNat := by
  have h : e.p2.toNat < 4096 := by simpa [Enc.rC] using h
  have hc : e.c.toNat = e.p2.toNat % 2048 := by simp [Enc.c]
  rcases (by omega : e.p2.toNat / 2048 = 0 ∨ e.p2.toNat / 2048 = 1) with hd | hd
  · simp [hc, Enc.mc, hd]; omega
  · simp [hc, Enc.mc, hd]; omega

theorem cS_p2 {e : Enc} (h : e.rC = false) : BitVec.ofNat 32 (e.cS.name.num + 2048 * e.cS.trap.toNat) = e.p2 := by
  rw [show e.cS.name.num + 2048 * e.cS.trap.toNat = e.p2.toNat from
    (congrArg (· + 2048 * e.mc.toNat) (num_ofBits e.c)).trans (c_split h)]
  simp

theorem cV_p2 {e : Enc} (h : e.rC = false) (hv : Enc.above e.c 64 = false) :
    BitVec.ofNat 32 (e.cV.v.val + 2048 * e.cV.trap.toNat) = e.p2 := by
  have hv : e.c.toNat < 64 := by simpa using hv
  rw [show e.cV.v.val + 2048 * e.cV.trap.toNat = e.p2.toNat from
    (congrArg (· + 2048 * e.mc.toNat) (Nat.mod_eq_of_lt hv)).trans (c_split h)]
  simp

/-! ### The formats of FX and MIN -/

/-- Formats TI and TR: a type, the scalar or immediate bit, three bits more. -/
theorem fx_type (e : Enc) : e.fx = BitVec.ofNat 8 (e.tyHi.code * 16 + 8 * e.bit3.toNat + e.lo3.val) := by
  have hx := e.fx.isLt
  apply eq_ofNat
  simp only [tyHi_def, bit3_def, code_ofCode, Enc.lo3]
  rcases Nat.mod_two_eq_zero_or_one (e.fx.toNat / 8) with h | h
  · simp [h]; omega
  · simp [h]; omega

theorem fx_nibbles (e : Enc) : e.fx = BitVec.ofNat 8 (e.hi4.val * 16 + e.lo4.val) := by
  have hx := e.fx.isLt
  apply eq_ofNat
  simp only [Enc.hi4, Enc.lo4]; omega

theorem fx_mem (e : Enc) : e.fx = BitVec.ofNat 8 (e.hi4.val * 16 + e.tyLo.code) := by
  rw [tyLo_def, code_ofCode]
  exact fx_nibbles e

/-- Formats MU and TK: bit 7 reserved, NUD, three bits more. -/
theorem fx_mid {e : Enc} (h : e.bit7 = false) : e.fx = BitVec.ofNat 8 (e.mid4.val * 8 + e.lo3.val) := by
  have hx := e.fx.isLt
  have h : ¬ e.fx.toNat / 128 = 1 := by simpa using h
  apply eq_ofNat
  simp only [Enc.mid4, Enc.lo3]; omega

theorem mn_split (e : Enc) : e.mn = BitVec.ofNat 8 (e.ord * 64 + e.msc * 8 + e.op) := by
  have hx := e.mn.isLt
  apply eq_ofNat
  simp only [Enc.ord, Enc.msc, Enc.op]; omega

theorem fx_TI {e : Enc} (h : e.rTI = false) : e.fx = BitVec.ofNat 8 (e.tyHi.code * 16 + 8 * e.bit3.toNat) := by
  have h : e.fx.toNat % 8 = 0 := by simpa using h
  have hf := fx_type e
  rwa [show e.lo3.val = 0 from h] at hf

/-- A length of a tidy encoding, with what stands beyond it. -/
theorem Tidy.lengths {e : Enc} (h : Tidy e) : e.l = 0 ∧ e.p2 = 0 ∧ e.p3 = 0 ∨ e.l = 1 ∧ e.p3 = 0 ∨ e.l = 2 := by
  have hl := h.len
  rcases (by omega : e.l.toNat = 0 ∨ e.l.toNat = 1 ∨ e.l.toNat = 2) with hk | hk | hk
  · have h0 : e.l = 0 := BitVec.eq_of_toNat_eq hk
    exact .inl ⟨h0, h.two h0, h.three (by omega)⟩
  · exact .inr (.inl ⟨BitVec.eq_of_toNat_eq hk, h.three (by omega)⟩)
  · exact .inr (.inr (BitVec.eq_of_toNat_eq hk))

/-- The fields an encoder writes are those it was read from when its fixed fields and each operand field are. -/
theorem eq_of_fields {e e' : Enc} {M N F : Nat} (hM : e.maj = BitVec.ofNat 6 M) (hN : e.mn = BitVec.ofNat 8 N) (hF : e.fx = BitVec.ofNat 8 F)
    (h : e' = { Enc.base e.gd M N F with l := e.l, d := e.d, a := e.a, b := e.b, ma := e.ma, mb := e.mb, p2 := e.p2, p3 := e.p3 }) : e' = e := by
  rw [h, base_def, ← hM, ← hN, ← hF]
  simp

/-- An instruction that the encoder writes as the fields it was read from. -/
structure Written (e : Enc) (i : Instr) : Prop where
  fields : fieldsOf i = e
  encodable : i.encodable = true
  canon : i.canon = true
  guard : i.guardOk = e.gd.ok

/-- What the fields hold before the checks is written back to them, when no reserved field and no form is wrong. -/
def Reads (e : Enc) (r : Option Dec) : Prop := ∀ d, r = some d → d.resv = false → d.form = false → Written e d.i

theorem reads_none (e : Enc) : Reads e none := fun _ h => nomatch h

theorem reads_some {e : Enc} {i : Instr} {r f : Bool} (h : r = false → f = false → Written e i) : Reads e (some ⟨i, r, f⟩) := by
  intro d hd
  cases hd
  exact h

/-- A family of instructions of one shape: how its fields are written, and which operands its shape can hold. -/
def Family {α : Type} (f : Guard → α → Instr) (enc : Guard → α → Enc) (shape : α → Prop := fun _ => True) : Prop :=
  ∀ g x, fieldsOf (f g x) = enc g x ∧ (f g x).encodable = true ∧ (f g x).guardOk = g.ok ∧ (shape x → (f g x).canon = true)

theorem Family.written {α : Type} {f : Guard → α → Instr} {enc : Guard → α → Enc} {shape : α → Prop} {e : Enc} {x : α} (h : Family f enc shape)
    (hx : shape x) (he : enc e.gd x = e) : Written e (f e.gd x) := by
  obtain ⟨h1, h2, h3, h4⟩ := h e.gd x
  exact ⟨h1.trans he, h2, h4 hx, h3⟩


end Sys2Proof.Laws
end

section
/-! PROOF. The shapes of scalar instructions, as they are read, are written back. -/
namespace Sys2Proof.Laws

/-! ### Scalar instructions -/

/-- The second operand and IMM written as they were read. -/
theorem second2_second {e : Enc} (ht : Tidy e) (hI : (e.bit3 && e.rImm) = false) (hl : (!e.bit3 && decide (e.l ≠ 0)) = false)
    (g : Guard) (M N : Nat) (d : BitVec 11) :
    { Enc.base g M N 0 with d := d }.second2 e.tyHi e.first e.second =
      { Enc.base g M N (e.tyHi.code * 16 + 8 * e.bit3.toNat) with
        d := d, l := e.l, a := e.a, b := e.b, ma := e.ma, mb := e.mb, p2 := e.p2, p3 := e.p3 } := by
  cases hb : e.bit3 with
  | false =>
    have hl : e.l = 0 := by simpa [hb, -bit3_def] using hl
    simp [Enc.first, Enc.second, hb, -bit3_def, Enc.second2, hl, ht.two, ht.three]
  | true =>
    simp [hb, -bit3_def] at hI
    rcases ht.lengths with ⟨hl, h2, h3⟩ | ⟨hl, h3⟩ | hl
    · simp [Enc.first, Enc.second, hb, -bit3_def, Enc.second2, hl, h2, h3, Enc.imm, Enc.aImm, -i13_def, -put13_def, put13_i13]
    · simp [Enc.first, Enc.second, hb, -bit3_def, Enc.second2, hl, h3, Enc.imm, Enc.aImm, Enc.putImm, hI]
    · simp [Enc.first, Enc.second, hb, -bit3_def, Enc.second2, hl, Enc.imm, Enc.aImm, Enc.putImm, hI, ext_low, ext_high, -ext_def]

theorem modeFits_second {e : Enc} (ht : Tidy e) : modeFits e.first e.second = true := by
  cases hb : e.bit3 with
  | false => simp [Enc.second, hb, -bit3_def, modeFits]
  | true =>
    rcases ht.lengths with ⟨hl, -⟩ | ⟨hl, -⟩ | hl
    · simp [Enc.first, Enc.second, hb, -bit3_def, modeFits, Enc.imm, hl, Enc.aImm]
    · simp [Enc.second, hb, -bit3_def, modeFits, Enc.imm, hl]
    · simp [Enc.second, hb, -bit3_def, modeFits, Enc.imm, hl]

/-- A relative target or immediate of any length written as it was read. -/
theorem ofRel_imm {e : Enc} (ht : Tidy e) (hA : e.rAImm = false) (hI : e.rImm = false) (g : Guard) (M N F : Nat) (d : BitVec 11) :
    Enc.ofRel g M N F d e.imm =
      { Enc.base g M N F with d := d, l := e.l, a := e.a, b := e.b, ma := e.ma, mb := e.mb, p2 := e.p2, p3 := e.p3 } := by
  simp at hA hI
  rcases ht.lengths with ⟨hl, h2, h3⟩ | ⟨hl, h3⟩ | hl
  · simp [Enc.ofRel, Enc.imm, Enc.putImm, hl, h2, h3, hA, -i13_def, -put13_def, put13_i13]
  · simp [hl] at hA hI
    simp [Enc.ofRel, Enc.imm, Enc.putImm, hl, h3, hA, hI]
  · simp [hl] at hA hI
    simp [Enc.ofRel, Enc.imm, Enc.putImm, hl, hA, hI, ext_low, ext_high, -ext_def]

theorem fx_ZI {e : Enc} (h : e.rZI = false) : e.fx = BitVec.ofNat 8 (8 * e.bit3.toNat) := by
  have h : e.fx.toNat % 8 = 0 ∧ e.fx.toNat < 16 := by simpa using h
  apply eq_ofNat
  rcases Nat.mod_two_eq_zero_or_one (e.fx.toNat / 8) with h' | h'
  · simp [h']; omega
  · simp [h']; omega

section
variable {e : Enc} {M N : Nat} (hM : e.maj = BitVec.ofNat 6 M) (hN : e.mn = BitVec.ofNat 8 N) (ht : Tidy e)
include hM hN ht

theorem alu_reads {f : Guard → Alu → Instr} (hf : Family f (Enc.ofAlu · M N ·) fun x => modeFits x.a x.b = true) : Reads e (e.alu f) := by
  refine reads_some fun hr hn => hf.written (modeFits_second ht) ?_
  obtain ⟨hT, hI⟩ := Bool.or_eq_false_iff.mp hr
  refine eq_of_fields hM hN (fx_TI hT) ((second2_second ht hI hn _ _ _ _).trans ?_)
  simp

theorem un_reads {f : Guard → Un → Instr} (hf : Family f (Enc.ofUn · M N ·)) : Reads e (e.un f) := by
  refine reads_some fun hr hn => hf.written trivial ?_
  obtain ⟨hT, hB⟩ := Bool.or_eq_false_iff.mp hr
  obtain ⟨hb, hl⟩ := Bool.or_eq_false_iff.mp hn
  have hF := fx_TI hT
  rw [hb] at hF hB
  simp at hB hl
  refine eq_of_fields hM hN hF ?_
  simp [Enc.ofUn, hl, hB, ht.two, ht.three]

theorem pbin_reads {f : Guard → PBin → Instr} (h11 : M = 0x11) (hf : Family f (Enc.ofPBin · N ·)) : Reads e (e.pbin f) := by
  subst h11
  refine reads_some fun hr hn => hf.written trivial ?_
  simp [Enc.rPred, -over_def] at hr hn
  obtain ⟨⟨⟨⟨⟨hF, ha⟩, hb⟩, hD⟩, hA⟩, hB⟩ := hr
  refine eq_of_fields (F := 0) hM hN hF ?_
  simp [Enc.ofPBin, ofFin_low, hD, hA, hB, ha, hb, hn, ht.two, ht.three, -over_def]

theorem pun_reads {f : Guard → PUn → Instr} (h11 : M = 0x11) (hf : Family f (Enc.ofPUn · N ·)) : Reads e (e.pun f) := by
  subst h11
  refine reads_some fun hr hn => hf.written trivial ?_
  simp [Enc.rPred, -over_def] at hr hn
  obtain ⟨⟨⟨⟨⟨hF, ha⟩, hb⟩, hD⟩, hA⟩, hB⟩ := hr
  refine eq_of_fields (F := 0) hM hN hF ?_
  simp [Enc.ofPUn, ofFin_low, hD, hA, hB, ha, hb, hn, ht.two, ht.three, -over_def]

theorem ziA_reads {f : Guard → Src → Instr} (hf : Family f fun g a => (Enc.base g M N 0).putA a) : Reads e (e.ziA f) := by
  refine reads_some fun hr hn => hf.written trivial ?_
  simp [-bit3_def, -rZI_def] at hr hn
  obtain ⟨⟨hZ, hD⟩, hB⟩ := hr
  have hF := fx_ZI hZ
  rw [hn.1] at hF
  refine eq_of_fields hM hN hF ?_
  simp [hD, hB hn.1, hn.2, ht.two, ht.three]

theorem ziZ_reads {f : Guard → Instr} (hf : Family (fun g (_ : Unit) => f g) fun g _ => Enc.base g M N 0) : Reads e (e.ziZ f) := by
  refine reads_some fun hr hn => hf.written (x := ()) trivial ?_
  simp [-bit3_def, -rZI_def] at hr hn
  obtain ⟨⟨⟨hZ, hD⟩, hA⟩, hB⟩ := hr
  have hF := fx_ZI hZ
  rw [hn.1] at hF
  refine eq_of_fields hM hN hF ?_
  simp [hD, hA, hB hn.1, hn.2, ht.two, ht.three]

theorem wrange_reads {f : Guard → WRange → Instr} (h18 : M = 0x18) (hf : Family f (Enc.ofRange · N ·) fun x => ∀ v, x.c = .imm v → x.a.trap = false) :
    Reads e (e.wrange f) := by
  subst h18
  unfold Enc.wrange
  split
  next hb =>
    refine reads_some fun hr hn => hf.written (fun _ _ => rfl) ?_
    simp [-bit3_def, -rZI_def] at hr hn
    have hF := fx_ZI hr.1
    rw [hb] at hF
    refine eq_of_fields hM hN hF ?_
    simp [Enc.ofRange, hr.2, hn, ht.two, ht.three, -i13_def, -put13_def, put13_i13]
  next hb =>
    refine reads_some fun hr hn => hf.written (fun _ h => nomatch h) ?_
    simp [-bit3_def, -rZI_def] at hr hn
    have hF := fx_ZI hr.1
    rw [Bool.eq_false_iff.mpr hb] at hF
    refine eq_of_fields hM hN hF ?_
    simp [Enc.ofRange, hr.2, hn, ht.two, ht.three]

end

section
variable {e : Enc} (ht : Tidy e)
include ht

theorem cmp_reads {N : Nat} (hM : e.maj = BitVec.ofNat 6 0x10) (hN : e.mn = BitVec.ofNat 8 N) {f : Guard → CmpArgs → Instr}
   (hf : Family f (Enc.ofCmp · N ·) fun x => modeFits x.a x.b = true) : Reads e (e.cmp f) := by
  refine reads_some fun hr hn => hf.written (modeFits_second ht) ?_
  simp only [Bool.or_eq_false_iff] at hr
  obtain ⟨⟨hT, hD⟩, hI⟩ := hr
  refine eq_of_fields hM hN (fx_TI hT) ((second2_second ht hI hn _ _ _ _).trans ?_)
  simp [ofFin_low, hD, -over_def]

end
end Sys2Proof.Laws
end

section
/-! PROOF. The opcodes of the scalar instructions and of the system, as they are read, are written back. -/
namespace Sys2Proof.Laws

/-- An operand field of 13 bits that holds a number. -/
theorem put13_ofNat {e : Enc} {k : Nat} (h : e.i13.toNat = k) (e' : Enc) : e'.put13 (BitVec.ofNat 13 k) = { e' with b := e.b, ma := e.ma, mb := e.mb } := by
  rw [← eq_ofNat h, put13_i13]

section
variable {e : Enc} (ht : Tidy e)
include ht

/-- Form i13 of a ZI major: the FX it needs, and its length. -/
theorem fx_i13 (hZ : e.rZI = false) (hn : e.no13 = false) : e.fx = BitVec.ofNat 8 8 ∧ e.l = 0 ∧ e.p2 = 0 ∧ e.p3 = 0 := by
  obtain ⟨hb, hl⟩ := Bool.or_eq_false_iff.mp hn
  have hb : e.bit3 = true := by simpa [-bit3_def] using hb
  have hl : e.l = 0 := by simpa using hl
  have hF := fx_ZI hZ
  rw [hb] at hF
  exact ⟨hF, hl, ht.two hl, ht.three (by simp [hl])⟩

theorem major01_reads (hM : e.maj = BitVec.ofNat 6 0x01) : Reads e e.major01 := by
  unfold Enc.major01
  split
  case h_1 h | h_2 h | h_3 h | h_4 h | h_5 h | h_6 h | h_7 h | h_8 h => exact alu_reads hM (eq_ofNat h) ht fun _ _ => ⟨rfl, rfl, rfl, id⟩
  case h_9 h => exact un_reads hM (eq_ofNat h) ht fun _ _ => ⟨rfl, rfl, rfl, fun _ => rfl⟩
  case h_10 => exact reads_none e

theorem major02_reads (hM : e.maj = BitVec.ofNat 6 0x02) : Reads e e.major02 := by
  unfold Enc.major02
  split
  case h_1 h | h_2 h | h_3 h | h_4 h => exact alu_reads hM (eq_ofNat h) ht fun _ _ => ⟨rfl, rfl, rfl, id⟩
  case h_5 => exact reads_none e

theorem major03_reads (hM : e.maj = BitVec.ofNat 6 0x03) : Reads e e.major03 := by
  unfold Enc.major03
  split
  case h_1 h | h_2 h | h_3 h | h_4 h => exact alu_reads hM (eq_ofNat h) ht fun _ _ => ⟨rfl, rfl, rfl, id⟩
  case h_5 => exact reads_none e

theorem major04_reads (hM : e.maj = BitVec.ofNat 6 0x04) : Reads e e.major04 := by
  unfold Enc.major04
  split
  case h_1 h | h_2 h | h_3 h | h_4 h | h_5 h => exact un_reads hM (eq_ofNat h) ht fun _ _ => ⟨rfl, rfl, rfl, fun _ => rfl⟩
  case h_6 h | h_7 h => exact alu_reads hM (eq_ofNat h) ht fun _ _ => ⟨rfl, rfl, rfl, id⟩
  case h_8 => exact reads_none e

theorem major10_reads (hM : e.maj = BitVec.ofNat 6 0x10) : Reads e e.major10 := by
  unfold Enc.major10
  split
  case h_1 h | h_2 h | h_3 h | h_4 h | h_5 h | h_6 h | h_7 h => exact cmp_reads ht hM (eq_ofNat h) fun _ _ => ⟨rfl, rfl, rfl, id⟩
  case h_8 => exact reads_none e

theorem major11_reads (hM : e.maj = BitVec.ofNat 6 0x11) : Reads e e.major11 := by
  unfold Enc.major11
  split
  case h_1 h | h_2 h | h_3 h => exact pbin_reads hM (eq_ofNat h) ht rfl fun _ _ => ⟨rfl, rfl, rfl, fun _ => rfl⟩
  case h_4 h | h_5 h => exact pun_reads hM (eq_ofNat h) ht rfl fun _ _ => ⟨rfl, rfl, rfl, fun _ => rfl⟩
  case h_6 => exact reads_none e

theorem major05_reads (hM : e.maj = BitVec.ofNat 6 0x05) : Reads e e.major05 := by
  unfold Enc.major05
  split
  case h_1 h =>
    refine reads_some fun hr hn => ?_
    simp [-bit3_def, -rTI_def] at hr hn
    obtain ⟨hT, hp⟩ := hr
    obtain ⟨hb, hl⟩ := hn
    have hp := hp hl hb
    have hF := fx_TI hT
    rw [hb] at hF
    have hc : e.c.toNat = e.p2.toNat := by simp [Enc.c]; omega
    refine ⟨eq_of_fields hM (eq_ofNat h) hF ?_, rfl, rfl, rfl⟩
    simp [fieldsOf, Enc.bSrc, hb, -bit3_def, hl, ht.three, Enc.low, hc, Nat.mod_eq_of_lt hp]
  case h_2 h =>
    split
    next hb =>
      refine reads_some fun hr hn => ?_
      simp only [Bool.or_eq_false_iff] at hr
      obtain ⟨⟨hT, hA⟩, hI⟩ := hr
      have hF := fx_TI hT
      rw [hb] at hF
      refine ⟨eq_of_fields hM (eq_ofNat h) hF ((ofRel_imm ht hA hI _ _ _ _ _).trans ?_), rfl, rfl, rfl⟩
      simp
    next hb =>
      refine reads_some fun hr hn => ?_
      simp [-rTI_def] at hr hn
      obtain ⟨hT, hB⟩ := hr
      have hF := fx_TI hT
      rw [Bool.eq_false_iff.mpr hb] at hF
      refine ⟨eq_of_fields hM (eq_ofNat h) hF ?_, rfl, rfl, rfl⟩
      simp [fieldsOf, hB, hn, ht.two, ht.three]
  case h_3 h =>
    split
    next hb =>
      refine reads_some fun hr hn => ?_
      simp only [Bool.or_eq_false_iff] at hr
      obtain ⟨⟨hT, hA⟩, hI⟩ := hr
      have hF := fx_TI hT
      have hn : e.tyHi = .i64 := by simpa [-tyHi_def] using hn
      rw [hb, hn] at hF
      refine ⟨eq_of_fields hM (eq_ofNat h) hF ((ofRel_imm ht hA hI _ _ _ _ _).trans ?_), rfl, rfl, rfl⟩
      simp [Ty.code]
    next hb =>
      refine reads_some fun hr hn => ?_
      simp at hn
      have hF := fx_TI hr
      rw [Bool.eq_false_iff.mpr hb] at hF
      refine ⟨eq_of_fields hM (eq_ofNat h) hF ?_, rfl, rfl, rfl⟩
      simp [fieldsOf, hn, ht.two, ht.three]
  case h_4 => exact reads_none e

theorem nop_written (hM : e.maj = BitVec.ofNat 6 0x12) (hN : e.mn = BitVec.ofNat 8 5) (hF : e.fx = 0) (hg : e.g = 0) (hgn : e.gn = false)
    (hd : e.d = 0) (ha : e.a = 0) (hma : e.ma = false) (hb : e.b = 0) (hmb : e.mb = false) (h2 : e.p2 = 0) (h3 : e.p3 = 0) :
    Written e (.nop e.nopLen) := by
  refine ⟨eq_of_fields (F := 0) hM hN hF ?_, rfl, rfl, by simp [Instr.guardOk, Instr.guard?, Guard.ok, hgn]⟩
  rcases ht.lengths with ⟨hl, -⟩ | ⟨hl, -⟩ | hl
  · simp [Enc.nopLen, fieldsOf, hl, hg, hgn, hd, ha, hma, hb, hmb, h2, h3]
  · simp [Enc.nopLen, fieldsOf, hl, hg, hgn, hd, ha, hma, hb, hmb, h2, h3]
  · simp [Enc.nopLen, fieldsOf, hl, hg, hgn, hd, ha, hma, hb, hmb, h2, h3]

theorem major12_reads (hM : e.maj = BitVec.ofNat 6 0x12) : Reads e e.major12 := by
  unfold Enc.major12
  split
  case h_1 h =>
    refine reads_some fun hr hn => ?_
    have hb : e.bit3 = true := by simpa [-bit3_def] using hn
    simp only [Bool.or_eq_false_iff] at hr
    obtain ⟨⟨⟨hZ, hD⟩, hA⟩, hI⟩ := hr
    have hF := fx_ZI hZ
    rw [hb] at hF
    refine ⟨eq_of_fields hM (eq_ofNat h) hF ((ofRel_imm ht hA hI _ _ _ _ _).trans ?_), rfl, rfl, rfl⟩
    simp at hD
    simp [hD]
  case h_2 h => exact ziA_reads hM (eq_ofNat h) ht fun _ _ => ⟨rfl, rfl, rfl, fun _ => rfl⟩
  case h_3 h =>
    split
    next hb =>
      refine reads_some fun hr hn => ?_
      simp only [Bool.or_eq_false_iff] at hr
      obtain ⟨⟨hZ, hA⟩, hI⟩ := hr
      have hF := fx_ZI hZ
      rw [hb] at hF
      refine ⟨eq_of_fields hM (eq_ofNat h) hF ((ofRel_imm ht hA hI _ _ _ _ _).trans ?_), rfl, rfl, rfl⟩
      simp
    next hb =>
      refine reads_some fun hr hn => ?_
      simp [-rZI_def] at hr hn
      obtain ⟨hZ, hB⟩ := hr
      have hF := fx_ZI hZ
      rw [Bool.eq_false_iff.mpr hb] at hF
      refine ⟨eq_of_fields hM (eq_ofNat h) hF ?_, rfl, rfl, rfl⟩
      simp [fieldsOf, hB, hn, ht.two, ht.three]
  case h_4 h => exact ziA_reads hM (eq_ofNat h) ht fun _ _ => ⟨rfl, rfl, rfl, fun _ => rfl⟩
  case h_5 h =>
    refine reads_some fun hr hn => ?_
    have hb : e.bit3 = true := by simpa [-bit3_def] using hn
    simp only [Bool.or_eq_false_iff] at hr
    obtain ⟨⟨hZ, hA⟩, hI⟩ := hr
    have hF := fx_ZI hZ
    rw [hb] at hF
    refine ⟨eq_of_fields hM (eq_ofNat h) hF ((ofRel_imm ht hA hI _ _ _ _ _).trans ?_), rfl, rfl, rfl⟩
    simp
  case h_6 h =>
    refine reads_some fun hr _ => ?_
    simp at hr
    obtain ⟨⟨⟨⟨⟨⟨⟨hF, hg⟩, hgn⟩, hd⟩, ha, hma⟩, hb, hmb⟩, h2⟩, h3⟩ := hr
    exact nop_written ht hM (eq_ofNat h) hF hg hgn hd ha hma hb hmb h2 h3
  case h_7 h =>
    refine reads_some fun hr hn => ?_
    simp [-rZI_def] at hr
    obtain ⟨⟨hZ, hD⟩, hA⟩ := hr
    obtain ⟨hF, hl, h2, h3⟩ := fx_i13 ht hZ hn
    refine ⟨eq_of_fields hM (eq_ofNat h) hF ?_, rfl, rfl, rfl⟩
    simp [fieldsOf, hD, hA, hl, h2, h3, -i13_def, -put13_def, put13_i13]
  case h_8 => exact reads_none e

theorem major18_reads (hM : e.maj = BitVec.ofNat 6 0x18) : Reads e e.major18 := by
  unfold Enc.major18
  split
  case h_1 h | h_3 h | h_9 h => exact ziA_reads hM (eq_ofNat h) ht fun _ _ => ⟨rfl, rfl, rfl, fun _ => rfl⟩
  case h_2 h =>
    refine reads_some fun hr hn => ?_
    simp [-bit3_def, -rZI_def] at hr hn
    obtain ⟨⟨hZ, hA⟩, hB⟩ := hr
    have hF := fx_ZI hZ
    rw [hn.1] at hF
    refine ⟨eq_of_fields hM (eq_ofNat h) hF ?_, rfl, rfl, rfl⟩
    simp [fieldsOf, hA, hB hn.1, hn.2, ht.two, ht.three]
  case h_4 h | h_5 h =>
    refine reads_some fun hr hn => ?_
    obtain ⟨hF, hl, h2, h3⟩ := fx_i13 ht hr hn
    refine ⟨eq_of_fields hM (eq_ofNat h) hF ?_, rfl, rfl, rfl⟩
    simp [fieldsOf, hl, h2, h3, -i13_def, -put13_def, put13_i13]
  case h_6 h =>
    refine reads_some fun hr hn => ?_
    obtain ⟨hZ, hD⟩ := Bool.or_eq_false_iff.mp hr
    obtain ⟨hi, hk⟩ := Bool.or_eq_false_iff.mp hn
    obtain ⟨hF, hl, h2, h3⟩ := fx_i13 ht hZ hi
    have hk : e.i13.toNat % 4 = e.i13.toNat := Nat.mod_eq_of_lt (by simpa [-i13_def] using hk)
    refine ⟨eq_of_fields hM (eq_ofNat h) hF ?_, rfl, rfl, rfl⟩
    simp at hD
    simp only [fieldsOf, put13_ofNat hk.symm]
    simp [hD, hl, h2, h3]
  case h_7 h | h_8 h =>
    refine wrange_reads hM (eq_ofNat h) ht rfl fun g x => ⟨rfl, rfl, rfl, ?_⟩
    obtain ⟨a, c | v⟩ := x
    · exact fun _ => rfl
    · exact fun h => congrArg not (h v rfl)
  case h_10 h => exact ziZ_reads hM (eq_ofNat h) ht fun _ _ => ⟨rfl, rfl, rfl, fun _ => rfl⟩
  case h_11 => exact reads_none e

theorem mtsD_reads (hM : e.maj = BitVec.ofNat 6 0x3D) (hN : e.mn = BitVec.ofNat 8 3) (hF : e.fx = BitVec.ofNat 8 8) (hl : e.l = 0) (hD : e.rD = false) :
    Written e e.mtsD := by
  simp at hD
  have hw : Enc.ofMts e.gd e.i13 e.aN = e := by
    refine eq_of_fields hM hN hF ?_
    simp [Enc.ofMts, hD, hl, ht.two, ht.three, -i13_def, -put13_def, put13_i13]
  unfold Enc.mtsD
  split
  case h_1 h | h_2 h | h_3 h => exact ⟨(congrArg (Enc.ofMts e.gd · e.aN) (eq_ofNat h).symm).trans hw, rfl, rfl, rfl⟩
  case h_4 h1 h2 h3 =>
    refine ⟨hw, rfl, ?_, rfl⟩
    simp only [Instr.canon, Bool.and_eq_true, decide_eq_true_eq]
    exact ⟨⟨h1, h2⟩, h3⟩

theorem major3D_reads (hM : e.maj = BitVec.ofNat 6 0x3D) : Reads e e.major3D := by
  unfold Enc.major3D
  split
  case h_1 h =>
    refine reads_some fun hr hn => ?_
    simp [-rZI_def] at hr
    obtain ⟨⟨hZ, hD⟩, hA⟩ := hr
    obtain ⟨hF, hl, h2, h3⟩ := fx_i13 ht hZ hn
    refine ⟨eq_of_fields hM (eq_ofNat h) hF ?_, rfl, rfl, rfl⟩
    simp [fieldsOf, hD, hA, hl, h2, h3, -i13_def, -put13_def, put13_i13]
  case h_2 h | h_6 h | h_7 h => exact ziZ_reads hM (eq_ofNat h) ht fun _ _ => ⟨rfl, rfl, rfl, fun _ => rfl⟩
  case h_3 h =>
    refine reads_some fun hr hn => ?_
    simp [-rZI_def] at hr
    obtain ⟨hF, hl, h2, h3⟩ := fx_i13 ht hr.1 hn
    refine ⟨eq_of_fields hM (eq_ofNat h) hF ?_, rfl, rfl, rfl⟩
    simp [fieldsOf, hr.2, hl, h2, h3, -i13_def, -put13_def, put13_i13]
  case h_4 h =>
    refine reads_some fun hr hn => ?_
    obtain ⟨hZ, hD⟩ := Bool.or_eq_false_iff.mp hr
    obtain ⟨hF, hl, -, -⟩ := fx_i13 ht hZ hn
    exact mtsD_reads ht hM (eq_ofNat h) hF hl hD
  case h_5 h =>
    refine reads_some fun hr hn => ?_
    simp [-bit3_def, -rZI_def] at hr hn
    obtain ⟨hb, hl⟩ := hn
    have hF := fx_ZI hr.1
    rw [hb] at hF
    refine ⟨eq_of_fields hM (eq_ofNat h) hF ?_, rfl, rfl, rfl⟩
    simp [fieldsOf, hr.2, Enc.bSrc, hb, -bit3_def, hl, ht.two, ht.three]
  case h_8 h =>
    refine reads_some fun hr hn => ?_
    obtain ⟨hi, hk⟩ := Bool.or_eq_false_iff.mp hn
    have hk : e.i13.toNat ≤ 2 := by simpa [-i13_def] using hk
    obtain ⟨hF, hl, h2, h3⟩ := fx_i13 ht hr hi
    split
    case h_1 h' | h_2 h' =>
      refine ⟨eq_of_fields hM (eq_ofNat h) hF ?_, rfl, rfl, rfl⟩
      simp only [fieldsOf, Enc.ofCensus, put13_ofNat h']
      simp [hl, h2, h3]
    case h_3 h0 h1 =>
      have h0 : e.i13.toNat ≠ 0 := h0
      have h1 : e.i13.toNat ≠ 1 := h1
      have h' : e.i13.toNat = 2 := by omega
      refine ⟨eq_of_fields hM (eq_ofNat h) hF ?_, rfl, rfl, rfl⟩
      simp only [fieldsOf, Enc.ofCensus, put13_ofNat h']
      simp [hl, h2, h3]
  case h_9 => exact reads_none e

end
end Sys2Proof.Laws
end

section
/-! PROOF. The shapes of memory instructions, as they are read, are written back. -/
namespace Sys2Proof.Laws

/-! ### Memory instructions -/

theorem short_val {k : Nat} (h : k ≠ 0) (h5 : k ≤ 5) : (Enc.short k).val + 1 = k := by
  simp only [Enc.short]; omega

theorem i13_zero {e : Enc} (h : e.i13 = 0) : e.b = 0 ∧ e.ma = false ∧ e.mb = false := by
  have hp := put13_i13 {} e
  rw [h] at hp
  simp only [Enc.put13, Enc.mk.injEq] at hp
  exact ⟨hp.2.2.2.2.2.2.1.symm, hp.2.2.2.2.2.2.2.1.symm, hp.2.2.2.2.2.2.2.2.1.symm⟩

theorem same_tail {e e' : Enc} (hl : e.l = e'.l) (h2 : e.p2 = e'.p2) (h3 : e.p3 = e'.p3) :
    { e' with l := e.l, p2 := e.p2, p3 := e.p3 } = e' := by
  rw [hl, h2, h3]

section
variable {e : Enc} (ht : Tidy e)
include ht

/-- A scope written as it was read. -/
theorem scope_written {k : Nat} {sc : Scope} (hs : e.scope k = (sc, false)) (hr : e.rScope k = false) :
    sc.field = k ∧ ∀ e' : Enc, e'.l = 0 → e'.p2 = 0 → e'.p3 = 0 → sc.put e' = { e' with l := e.l, p2 := e.p2, p3 := e.p3 } := by
  rcases ht.lengths with ⟨hl, h2, h3⟩ | ⟨hl, h3⟩ | hl
  · simp [Enc.scope, hl] at hs
    obtain ⟨rfl, hk, h5⟩ := hs
    refine ⟨short_val hk (by omega), fun e' h0 h2' h3' => ?_⟩
    exact (same_tail (hl.trans h0.symm) (h2.trans h2'.symm) (h3.trans h3'.symm)).symm
  · by_cases hk : k = 0
    · simp [Enc.scope, hl, hk] at hs
      simp [Enc.rScope, hl, hk] at hr
      subst hs
      refine ⟨hk.symm, fun e' h0 h2' h3' => ?_⟩
      simp only [Scope.put, cS_p2 hr]
      simp [hl, h3, h3']
    · simp [Enc.scope, hl, hk] at hs
  · simp [Enc.scope, hl, -ext_def] at hs
    obtain ⟨rfl, hk⟩ := hs
    refine ⟨hk.symm, fun e' h0 h2' h3' => ?_⟩
    simp [Scope.put, hl, ext_low, ext_high, -ext_def]

/-- An offset written as it was read. -/
theorem offset_written {o : Off} (ho : e.offset = (o, false, false)) (e' : Enc) (h0 : e'.l = 0) (hb : e'.b = 0) (hma : e'.ma = false)
    (hmb : e'.mb = false) (h2' : e'.p2 = 0) (h3' : e'.p3 = 0) :
    e'.putOff o = { e' with l := e.l, b := e.b, ma := e.ma, mb := e.mb, p2 := e.p2, p3 := e.p3 } := by
  rcases ht.lengths with ⟨hl, h2, h3⟩ | ⟨hl, h3⟩ | hl
  · simp [Enc.offset, hl, -i13_def] at ho
    subst ho
    simp [Enc.putOff, -i13_def, -put13_def, put13_i13, hl, h2, h3, h0, h2', h3']
  · simp [Enc.offset, hl, -i13_def] at ho
    obtain ⟨rfl, hz⟩ := ho
    obtain ⟨hb', ha', hm'⟩ := i13_zero hz
    simp [Enc.putOff, hl, h3, hb, hma, hmb, hb', ha', hm', h3']
  · simp [Enc.offset, hl] at ho

/-- An offset and a scope written as they were read. -/
theorem offScope_written {o : Off} {sc : Scope} (ho : e.offScope = (o, sc, false, false)) :
    sc.field = e.msc ∧ sc.fits o = true ∧ ∀ e' : Enc, e'.l = 0 → e'.b = 0 → e'.ma = false → e'.mb = false → e'.p2 = 0 → e'.p3 = 0 →
      sc.put (e'.putOff o) = { e' with l := e.l, b := e.b, ma := e.ma, mb := e.mb, p2 := e.p2, p3 := e.p3 } := by
  rcases ht.lengths with ⟨hl, h2, h3⟩ | ⟨hl, h3⟩ | hl
  · simp [Enc.offScope, hl, -i13_def] at ho
    obtain ⟨rfl, rfl, hk, h5⟩ := ho
    refine ⟨short_val hk (by omega), rfl, fun e' h0 hb hma hmb h2' h3' => ?_⟩
    simp [Scope.put, Enc.putOff, -i13_def, -put13_def, put13_i13, hl, h2, h3, h0, h2', h3']
  · by_cases hk : e.msc = 0
    · simp [Enc.offScope, hl, hk, -i13_def] at ho
      obtain ⟨rfl, rfl, hr⟩ := ho
      refine ⟨hk.symm, rfl, fun e' h0 hb hma hmb h2' h3' => ?_⟩
      simp only [Scope.put, cS_p2 hr]
      simp [Enc.putOff, -i13_def, -put13_def, put13_i13, hl, h3, h3']
    · simp [Enc.offScope, hl, hk, -i13_def] at ho
      obtain ⟨rfl, rfl, hz, h5⟩ := ho
      obtain ⟨hb', ha', hm'⟩ := i13_zero hz
      refine ⟨short_val hk (by omega), rfl, fun e' h0 hb hma hmb h2' h3' => ?_⟩
      simp [Scope.put, Enc.putOff, hl, h3, hb, hma, hmb, hb', ha', hm', h3']
  · simp [Enc.offScope, hl, -i13_def, -ext_def] at ho
    obtain ⟨rfl, rfl, hk⟩ := ho
    refine ⟨hk.symm, rfl, fun e' h0 hb hma hmb h2' h3' => ?_⟩
    simp [Scope.put, Enc.putOff, -i13_def, -put13_def, put13_i13, hl, ext_low, ext_high, -ext_def]

/-- An optional word C written as it was read. -/
theorem optC_written (hC : (decide (e.l = 1) && e.rC) = false) (hl2 : ¬ e.l = 2) (e' : Enc) (h0 : e'.l = 0) (h2' : e'.p2 = 0) (h3' : e'.p3 = 0) :
    e'.putOptC e.optC = { e' with l := e.l, p2 := e.p2, p3 := e.p3 } := by
  rcases ht.lengths with ⟨hl, h2, h3⟩ | ⟨hl, h3⟩ | hl
  · rw [Enc.optC, if_pos hl]
    exact (same_tail (hl.trans h0.symm) (h2.trans h2'.symm) (h3.trans h3'.symm)).symm
  · have hr : e.rC = false := by simpa [hl] using hC
    rw [Enc.optC, if_neg (by simp [hl])]
    simp only [Enc.putOptC, Enc.putC, cS_p2 hr]
    simp [hl, h3, h3']
  · exact absurd hl hl2

end

/-- MIN of an instruction of a major with ORD and SCOPE. -/
theorem mn_ord {e : Enc} {o p : Nat} (hp : e.op = p) (ho : e.ord = o) : e.mn = BitVec.ofNat 8 (o * 64 + e.msc * 8 + p) := by
  subst hp ho
  exact mn_split e

section
variable {e : Enc} {M : Nat} (hM : e.maj = BitVec.ofNat 6 M) (ht : Tidy e)
include hM ht

theorem memPlain_reads {f : Guard → Mem → Instr} (hp : e.op = 0) (ho : e.ord = 0) (hf : Family f (Enc.ofMem · M ·)) : Reads e (e.memPlain f) := by
  unfold Enc.memPlain
  rcases hs : e.offset with ⟨o, rv, fm⟩
  refine reads_some fun hr hn => hf.written trivial ?_
  obtain ⟨hk, rfl⟩ := Bool.or_eq_false_iff.mp hr
  subst hn
  have hN := mn_ord hp ho
  rw [show e.msc = 0 by simpa using hk] at hN
  refine eq_of_fields hM hN (fx_mem e) ((offset_written ht hs _ rfl rfl rfl rfl rfl rfl).trans ?_)
  simp

theorem vmemPlain_reads {f : Guard → VMem → Instr} (hp : e.op = 0) (ho : e.ord = 0) (hf : Family f (Enc.ofVMem · M ·)) :
    Reads e (e.vmemPlain f) := by
  unfold Enc.vmemPlain
  rcases hs : e.offset with ⟨o, rv, fm⟩
  refine reads_some fun hr hn => hf.written trivial ?_
  simp only [Bool.or_eq_false_iff] at hr
  obtain ⟨⟨hk, rfl⟩, hD⟩ := hr
  subst hn
  have hN := mn_ord hp ho
  rw [show e.msc = 0 by simpa using hk] at hN
  refine eq_of_fields hM hN (fx_mem e) ((offset_written ht hs _ rfl rfl rfl rfl rfl rfl).trans ?_)
  simp [ofFin_low, hD, -over_def]

theorem memSync_reads {f : Guard → MemSync → Instr} {o : Nat} (hp : e.op = 0) (ho : e.ord = o)
    (hf : Family f (Enc.ofMemSync · M o ·) fun x => x.sc.fits x.off = true) : Reads e (e.memSync f) := by
  unfold Enc.memSync
  rcases hs : e.offScope with ⟨off, sc, rv, fm⟩
  refine reads_some fun hr hn => ?_
  obtain rfl := hr
  obtain rfl := hn
  obtain ⟨hk, hfit, hw⟩ := offScope_written ht hs
  refine hf.written hfit ?_
  have hN := mn_ord hp ho
  rw [← hk] at hN
  refine eq_of_fields hM hN (fx_mem e) ((hw _ rfl rfl rfl rfl rfl rfl).trans ?_)
  simp

theorem vmemSync_reads {f : Guard → VMemSync → Instr} {o : Nat} (hp : e.op = 0) (ho : e.ord = o)
    (hf : Family f (Enc.ofVMemSync · M o ·) fun x => x.sc.fits x.off = true) : Reads e (e.vmemSync f) := by
  unfold Enc.vmemSync
  rcases hs : e.offScope with ⟨off, sc, rv, fm⟩
  refine reads_some fun hr hn => ?_
  obtain ⟨rfl, hD⟩ := Bool.or_eq_false_iff.mp hr
  obtain rfl := hn
  obtain ⟨hk, hfit, hw⟩ := offScope_written ht hs
  refine hf.written hfit ?_
  have hN := mn_ord hp ho
  rw [← hk] at hN
  refine eq_of_fields hM hN (fx_mem e) ((hw _ rfl rfl rfl rfl rfl rfl).trans ?_)
  simp [ofFin_low, hD, -over_def]

theorem vstride_reads {f : Guard → VStride → Instr} (hf : Family f (Enc.ofStride · M ·)) : Reads e (e.vstride f) := by
  unfold Enc.vstride
  split
  case isFalse => exact reads_none e
  case isTrue h =>
    refine reads_some fun hr hn => hf.written trivial ?_
    simp only [Bool.or_eq_false_iff] at hr
    obtain ⟨⟨hk, hD⟩, hC⟩ := hr
    have hN := mn_ord h.1 h.2
    rw [show e.msc = 0 by simpa using hk] at hN
    refine eq_of_fields hM hN (fx_mem e) ((optC_written ht hC (by simpa using hn) _ rfl rfl rfl).trans ?_)
    simp [ofFin_low, hD, -over_def]

theorem vindex_reads {f : Guard → VIndex → Instr} (hf : Family f (Enc.ofIndex · M ·)) : Reads e (e.vindex f) := by
  unfold Enc.vindex
  split
  case isFalse => exact reads_none e
  case isTrue h =>
    refine reads_some fun hr hn => hf.written trivial ?_
    simp only [Bool.or_eq_false_iff] at hr
    obtain ⟨⟨⟨hk, hD⟩, hB⟩, hC⟩ := hr
    have hN := mn_ord h.1 h.2
    rw [show e.msc = 0 by simpa using hk] at hN
    refine eq_of_fields hM hN (fx_mem e) ((optC_written ht hC (by simpa using hn) _ rfl rfl rfl).trans ?_)
    have hB := ofFin_low (by decide) hB
    simp [ofFin_low, hD, -over_def]
    exact hB

end

end Sys2Proof.Laws
end

section
/-! PROOF. The opcodes of memory, atomics, barriers and engines, as they are read, are written back. -/
namespace Sys2Proof.Laws

theorem ofOrd_ord4 (e : Enc) : Enc.ofOrd e.ord4 = e.ord := by
  have hx := e.mn.isLt
  have hlt : e.ord < 4 := by simp only [Enc.ord]; omega
  unfold Enc.ord4
  split
  case h_1 h | h_2 h | h_3 h => exact h.symm
  case h_4 h0 h1 h2 =>
    have h0 : e.ord ≠ 0 := h0
    have h1 : e.ord ≠ 1 := h1
    have h2 : e.ord ≠ 2 := h2
    exact (by omega : 3 = e.ord)

/-- MIN of an instruction with SCOPE and no ORD. -/
theorem mn_scope {e : Enc} {p : Nat} {sc : Scope} (hp : e.op = p) (ho : e.ord = 0) (hk : sc.field = e.msc) : e.mn = BitVec.ofNat 8 (sc.field * 8 + p) := by
  have hN := mn_ord hp ho
  rwa [← hk, Nat.zero_mul, Nat.zero_add] at hN

section
variable {e : Enc} (ht : Tidy e)
include ht

theorem major1C_reads (hM : e.maj = BitVec.ofNat 6 0x1C) : Reads e e.major1C := by
  unfold Enc.major1C
  split
  case h_1 hp ho => exact memPlain_reads hM ht hp ho fun _ _ => ⟨rfl, rfl, rfl, fun _ => rfl⟩
  case h_2 hp ho => exact memSync_reads hM ht hp ho fun _ _ => ⟨rfl, rfl, rfl, id⟩
  case h_3 => exact reads_none e

theorem major1D_reads (hM : e.maj = BitVec.ofNat 6 0x1D) : Reads e e.major1D := by
  unfold Enc.major1D
  split
  case h_1 hp ho => exact memPlain_reads hM ht hp ho fun _ _ => ⟨rfl, rfl, rfl, fun _ => rfl⟩
  case h_2 hp ho => exact memSync_reads hM ht hp ho fun _ _ => ⟨rfl, rfl, rfl, id⟩
  case h_3 => exact reads_none e

theorem major1E_reads (hM : e.maj = BitVec.ofNat 6 0x1E) : Reads e e.major1E := by
  unfold Enc.major1E
  split
  case h_1 hp ho => exact vmemPlain_reads hM ht hp ho fun _ _ => ⟨rfl, rfl, rfl, fun _ => rfl⟩
  case h_2 hp ho => exact vmemSync_reads hM ht hp ho fun _ _ => ⟨rfl, rfl, rfl, id⟩
  case h_3 => exact reads_none e

theorem major1F_reads (hM : e.maj = BitVec.ofNat 6 0x1F) : Reads e e.major1F := by
  unfold Enc.major1F
  split
  case h_1 hp ho => exact vmemPlain_reads hM ht hp ho fun _ _ => ⟨rfl, rfl, rfl, fun _ => rfl⟩
  case h_2 hp ho => exact vmemSync_reads hM ht hp ho fun _ _ => ⟨rfl, rfl, rfl, id⟩
  case h_3 => exact reads_none e

theorem major24_reads (hM : e.maj = BitVec.ofNat 6 0x24) : Reads e e.major24 := by
  unfold Enc.major24
  split
  case h_1 hp ho =>
    refine reads_some fun hr hn => ?_
    simp only [Bool.or_eq_false_iff] at hr
    obtain ⟨⟨hk, hA⟩, hC⟩ := hr
    have hN := mn_ord hp ho
    rw [show e.msc = 0 by simpa using hk] at hN
    refine ⟨eq_of_fields hM hN (fx_mem e) ((optC_written ht hC (by simpa using hn) _ rfl rfl rfl).trans ?_), rfl, rfl, rfl⟩
    simp [ofFin_low, hA, -over_def, -i13_def, -put13_def, put13_i13]
  case h_2 => exact reads_none e

/-- The fields of PREF and FLUSH. -/
theorem pref_written {o : Off} (hM : e.maj = BitVec.ofNat 6 0x25) (hp : e.op = 0) (ho : e.ord = 0) (hk : e.msc = 0) (hD : e.d = 0)
    (hs : e.offset = (o, false, false)) : Enc.ofPref e.gd e.lo4.val ⟨e.hi4, e.aN, o⟩ = e := by
  have hN := mn_ord hp ho
  rw [hk] at hN
  refine eq_of_fields hM hN (fx_nibbles e) ((offset_written ht hs _ rfl rfl rfl rfl rfl rfl).trans ?_)
  simp [hD]

theorem flush_written {o : Off} (hM : e.maj = BitVec.ofNat 6 0x25) (hp : e.op = 1) (ho : e.ord = 0) (hk : e.msc = 0) (hD : e.d = 0) (hh : e.hi4 = 0)
    (hs : e.offset = (o, false, false)) : Enc.ofFlush e.gd e.lo4.val ⟨e.aN, o⟩ = e := by
  have hN := mn_ord hp ho
  have hF := fx_nibbles e
  rw [hk] at hN
  rw [hh] at hF
  refine eq_of_fields hM hN hF ((offset_written ht hs _ rfl rfl rfl rfl rfl rfl).trans ?_)
  simp [hD]

theorem major25_reads (hM : e.maj = BitVec.ofNat 6 0x25) : Reads e e.major25 := by
  unfold Enc.major25
  rcases hs : e.offset with ⟨o, rv, fm⟩
  dsimp only
  split
  case h_1 hp ho =>
    refine reads_some fun hr hn => ?_
    simp only [Bool.or_eq_false_iff] at hr hn
    obtain ⟨⟨hk, rfl⟩, hD⟩ := hr
    obtain ⟨rfl, hlv⟩ := hn
    have hlv : e.lo4.val ≤ 2 := by simpa using hlv
    have hw := pref_written ht hM hp ho (by simpa using hk) (by simpa using hD) hs
    split
    case h_1 h | h_2 h =>
      rw [h] at hw
      exact ⟨hw, rfl, rfl, rfl⟩
    case h_3 h0 h1 =>
      have h0 : e.lo4.val ≠ 0 := h0
      have h1 : e.lo4.val ≠ 1 := h1
      rw [show e.lo4.val = 2 by omega] at hw
      exact ⟨hw, rfl, rfl, rfl⟩
  case h_2 hp ho =>
    refine reads_some fun hr hn => ?_
    simp only [Bool.or_eq_false_iff] at hr hn
    obtain ⟨⟨⟨hk, rfl⟩, hD⟩, hh⟩ := hr
    obtain ⟨rfl, hlv⟩ := hn
    have hlv : e.lo4.val ≤ 1 := by simpa using hlv
    have hw := flush_written ht hM hp ho (by simpa using hk) (by simpa using hD) (by simpa using hh) hs
    split
    case h_1 h =>
      rw [h] at hw
      exact ⟨hw, rfl, rfl, rfl⟩
    case h_2 h0 =>
      have h0 : e.lo4.val ≠ 0 := h0
      rw [show e.lo4.val = 1 by omega] at hw
      exact ⟨hw, rfl, rfl, rfl⟩
  case h_3 => exact reads_none e

theorem amo_written {sc : Scope} (hM : e.maj = BitVec.ofNat 6 0x28) (hs : e.scope e.msc = (sc, false)) (hr : e.rScope e.msc = false) :
    Enc.ofAmo e.gd e.op ⟨e.tyLo, e.hi4, e.ord4, e.dN, e.aS, e.bS, sc⟩ = e := by
  obtain ⟨hk, hw⟩ := scope_written ht hs hr
  have hN := mn_split e
  rw [← ofOrd_ord4, ← hk] at hN
  refine eq_of_fields hM hN (fx_mem e) ((hw _ rfl rfl rfl).trans ?_)
  simp

theorem major28_reads (hM : e.maj = BitVec.ofNat 6 0x28) : Reads e e.major28 := by
  unfold Enc.major28
  rcases hs : e.scope e.msc with ⟨sc, fm⟩
  dsimp only
  refine reads_some fun hr hn => ?_
  obtain rfl := hn
  have hw := amo_written ht hM hs hr
  have hop : e.op < 8 := Nat.mod_lt _ (by decide)
  split
  case h_1 h | h_2 h | h_3 h | h_4 h | h_5 h | h_6 h | h_7 h =>
    rw [h] at hw
    exact ⟨hw, rfl, rfl, rfl⟩
  case h_8 h0 h1 h2 h3 h4 h5 h6 =>
    have h : e.op = 7 := by
      simp only [imp_false] at h0 h1 h2 h3 h4 h5 h6
      omega
    rw [h] at hw
    exact ⟨hw, rfl, rfl, rfl⟩

theorem fence_written {o : Nat} {sc : Scope} (hM : e.maj = BitVec.ofNat 6 0x29) (hp : e.op = 0) (ho : e.ord = o) (hs : e.scope e.msc = (sc, false))
    (hr : (decide (e.fx ≠ 0) || e.rD || e.rA || e.rB || e.rScope e.msc) = false) : Enc.ofFence e.gd o sc = e := by
  simp only [Bool.or_eq_false_iff] at hr
  obtain ⟨⟨⟨⟨hF, hD⟩, hA⟩, hB⟩, hS⟩ := hr
  simp at hF hD hA hB
  obtain ⟨hk, hw⟩ := scope_written ht hs hS
  have hN := mn_ord hp ho
  rw [← hk] at hN
  refine eq_of_fields (F := 0) hM hN hF ((hw _ rfl rfl rfl).trans ?_)
  simp [hD, hA, hB]

theorem major29_reads (hM : e.maj = BitVec.ofNat 6 0x29) : Reads e e.major29 := by
  unfold Enc.major29
  rcases hs : e.scope e.msc with ⟨sc, fm⟩
  dsimp only
  split
  case h_1 hp ho | h_2 hp ho | h_3 hp ho =>
    refine reads_some fun hr hn => ?_
    obtain rfl := hn
    exact ⟨fence_written ht hM hp ho hs hr, rfl, rfl, rfl⟩
  case h_4 => exact reads_none e

theorem major2A_reads (hM : e.maj = BitVec.ofNat 6 0x2A) : Reads e e.major2A := by
  unfold Enc.major2A
  rcases hs : e.scope e.msc with ⟨sc, fm⟩
  dsimp only
  split
  case h_1 hp ho =>
    refine reads_some fun hr hn => ?_
    obtain rfl := hn
    obtain ⟨hF, hS⟩ := Bool.or_eq_false_iff.mp hr
    obtain ⟨hk, hw⟩ := scope_written ht hs hS
    refine ⟨eq_of_fields (F := 0) hM (mn_scope hp ho hk) (by simpa using hF) ((hw _ rfl rfl rfl).trans ?_), rfl, rfl, rfl⟩
    simp
  case h_2 hp ho | h_3 hp ho =>
    refine reads_some fun hr hn => ?_
    obtain rfl := hn
    simp only [Bool.or_eq_false_iff] at hr
    obtain ⟨⟨hF, hS⟩, hB⟩ := hr
    obtain ⟨hk, hw⟩ := scope_written ht hs hS
    refine ⟨eq_of_fields (F := 0) hM (mn_scope hp ho hk) (by simpa using hF) ((hw _ rfl rfl rfl).trans ?_), rfl, rfl, rfl⟩
    simp at hB
    simp [hB]
  case h_4 hp ho =>
    refine reads_some fun hr hn => ?_
    obtain rfl := hn
    simp only [Bool.or_eq_false_iff] at hr
    obtain ⟨⟨hF, hS⟩, hD⟩ := hr
    obtain ⟨hk, hw⟩ := scope_written ht hs hS
    refine ⟨eq_of_fields (F := 0) hM (mn_scope hp ho hk) (by simpa using hF) ((hw _ rfl rfl rfl).trans ?_), rfl, rfl, rfl⟩
    simp at hD
    simp [hD]
  case h_5 => exact reads_none e

theorem major2C_reads (hM : e.maj = BitVec.ofNat 6 0x2C) : Reads e e.major2C := by
  unfold Enc.major2C
  rcases hs : e.scope e.msc with ⟨sc, fm⟩
  dsimp only
  split
  case h_1 hp ho =>
    refine reads_some fun hr hn => ?_
    obtain ⟨hB, hS⟩ := Bool.or_eq_false_iff.mp hr
    obtain ⟨rfl, h4⟩ := Bool.or_eq_false_iff.mp hn
    obtain ⟨hk, hw⟩ := scope_written ht hs hS
    have hF := fx_nibbles e
    rw [show e.lo4 = 0 by simpa using h4] at hF
    refine ⟨eq_of_fields hM (mn_scope hp ho hk) hF ((hw _ rfl rfl rfl).trans ?_), rfl, rfl, rfl⟩
    simp at hB
    simp [hB]
  case h_2 => exact reads_none e

/-- The fields of GATHER and SCATTER. -/
theorem gather_written {p : Nat} {sc : Scope} (hM : e.maj = BitVec.ofNat 6 0x2D) (hp : e.op = p) (ho : e.ord = 0) (hs : e.scope e.msc = (sc, false))
    (hB : Enc.above e.b 64 = false) (hr : e.rScope e.msc = false) (h4 : e.lo4 = 3 ∨ e.lo4 = 6) :
    Enc.ofGather e.gd p ⟨decide (e.lo4 = 3), e.hi4, e.dN, e.aR, e.bV, sc⟩ = e := by
  obtain ⟨hk, hw⟩ := scope_written ht hs hr
  have hF : e.fx = BitVec.ofNat 8 (e.hi4.val * 16 + if decide (e.lo4 = 3) then 3 else 6) := by
    have hF := fx_nibbles e
    rcases h4 with h | h
    · rwa [h] at hF ⊢
    · rwa [h] at hF ⊢
  refine eq_of_fields hM (mn_scope hp ho hk) hF ((hw _ rfl rfl rfl).trans ?_)
  have hB := ofFin_low (by decide) hB
  simp
  exact hB

theorem major2D_reads (hM : e.maj = BitVec.ofNat 6 0x2D) : Reads e e.major2D := by
  unfold Enc.major2D
  rcases hs : e.scope e.msc with ⟨sc, fm⟩
  dsimp only
  split
  case h_1 hp ho | h_2 hp ho =>
    refine reads_some fun hr hn => ?_
    obtain ⟨hB, hS⟩ := Bool.or_eq_false_iff.mp hr
    obtain ⟨rfl, h4⟩ := Bool.or_eq_false_iff.mp hn
    have h4 : e.lo4 = 3 ∨ e.lo4 = 6 := by
      simp at h4
      exact or_iff_not_imp_left.mpr h4
    exact ⟨gather_written ht hM hp ho hs hB hS h4, rfl, rfl, rfl⟩
  case h_3 => exact reads_none e

theorem major2E_reads (hM : e.maj = BitVec.ofNat 6 0x2E) : Reads e e.major2E := by
  unfold Enc.major2E
  split
  case h_1 hp ho =>
    rcases hs : e.offset with ⟨o, rv, fm⟩
    dsimp only
    refine reads_some fun hr hn => ?_
    simp only [Bool.or_eq_false_iff] at hr
    obtain ⟨⟨hk, rfl⟩, hh⟩ := hr
    obtain rfl := hn
    have hN := mn_ord hp ho
    rw [show e.msc = 0 by simpa using hk] at hN
    have hF := fx_mem e
    rw [show e.hi4 = 0 by simpa using hh] at hF
    refine ⟨eq_of_fields (F := e.tyLo.code) hM hN (by simpa [-tyLo_def] using hF) ((offset_written ht hs _ rfl rfl rfl rfl rfl rfl).trans ?_), rfl, rfl, rfl⟩
    simp
  case h_2 hp ho =>
    refine reads_some fun hr hn => ?_
    simp [-i13_def] at hr hn
    obtain ⟨⟨hk, hF⟩, hD⟩ := hr
    obtain ⟨hl, hi⟩ := hn
    have hN := mn_ord hp ho
    rw [hk] at hN
    split
    next h =>
      have hw : { (Enc.base e.gd 0x2E 1 0).put13 e.i13 with a := e.aN.bits } = e := by
        refine eq_of_fields hM hN hF ?_
        simp [hD, hl, ht.two, ht.three, -i13_def, -put13_def, put13_i13]
      rw [h] at hw
      exact ⟨hw, rfl, rfl, rfl⟩
    next h =>
      have h : e.i13.toNat ≠ 1 := fun h' => h (BitVec.eq_of_toNat_eq h')
      obtain ⟨hb, hma, hmb⟩ := i13_zero (eq_ofNat (show e.i13.toNat = 0 by omega))
      refine ⟨eq_of_fields hM hN hF ?_, rfl, rfl, rfl⟩
      simp [fieldsOf, hD, hl, hb, hma, hmb, ht.two, ht.three]
  case h_3 => exact reads_none e

end
end Sys2Proof.Laws
end

section
/-! PROOF. The vector instructions, as they are read, are written back. -/
namespace Sys2Proof.Laws

/-! ### Vector instructions -/

theorem fx_noRm {e : Enc} (h : e.noRm = false) : e.fx = BitVec.ofNat 8 (e.tyHi.code * 16 + 8 * e.bit3.toNat) := by
  have hF := fx_type e
  rwa [show e.lo3 = 0 by simpa using h] at hF

/-- FX of a vector instruction without a scalar form and without a rounding mode. -/
theorem fx_vOnly {e : Enc} (hn : e.vOnly = false) : e.fx = BitVec.ofNat 8 (e.tyHi.code * 16) := by
  obtain ⟨hR, hb⟩ := Bool.or_eq_false_iff.mp hn
  have hF := fx_noRm hR
  rwa [hb] at hF

theorem low_val {x : BitVec 11} {k : Nat} (hk : 0 < k) (h : Enc.above x k = false) : BitVec.ofNat 11 (Enc.low x k hk).val = x := ofFin_low hk h

/-- The scalar bit of format TR set above a rounding mode. -/
theorem fx_add8 (t r : Nat) : BitVec.ofNat 8 (t * 16 + r) + 8 = BitVec.ofNat 8 (t * 16 + 8 * true.toNat + r) := by
  rw [show t * 16 + 8 * true.toNat + r = t * 16 + r + 8 by simp; omega, BitVec.ofNat_add (t * 16 + r)]
  rfl

/-- The operands of one source, of two and of three, written as they were read. -/
theorem ofO1_o1 {e : Enc} (hV : e.rV2 = false) (g : Guard) (M N : Nat) :
    Enc.ofO1 (Enc.base g M N (e.tyHi.code * 16 + e.lo3.val)) e.o1 =
      { Enc.base g M N (e.tyHi.code * 16 + 8 * e.bit3.toNat + e.lo3.val) with d := e.d, a := e.a, ma := e.ma } := by
  cases hb : e.bit3 with
  | true =>
    rw [base_def, base_def, ← fx_add8]
    simp [Enc.o1, hb, -bit3_def, Enc.ofO1]
  | false =>
    simp [Enc.rV2, hb, -bit3_def, -over_def] at hV
    simp [Enc.o1, hb, -bit3_def, Enc.ofO1, ofFin_low, low_val, hV, -over_def]

theorem ofO2_o2 {e : Enc} (hV : e.rV3 = false) (g : Guard) (M N : Nat) :
    Enc.ofO2 (Enc.base g M N (e.tyHi.code * 16 + e.lo3.val)) e.o2 =
      { Enc.base g M N (e.tyHi.code * 16 + 8 * e.bit3.toNat + e.lo3.val) with d := e.d, a := e.a, b := e.b, ma := e.ma, mb := e.mb } := by
  cases hb : e.bit3 with
  | true =>
    rw [base_def, base_def, ← fx_add8]
    simp [Enc.o2, hb, -bit3_def, Enc.ofO2]
  | false =>
    simp [Enc.rV3, Enc.rV2, hb, -bit3_def, -over_def] at hV
    simp [Enc.o2, hb, -bit3_def, Enc.ofO2, ofFin_low, low_val, hV, -over_def]

theorem ofO3_o3 {e : Enc} (hV : e.rV3 = false) (hC : (e.rC || (!e.bit3 && Enc.above e.c 64)) = false) (g : Guard) (M N : Nat) :
    Enc.ofO3 (Enc.base g M N (e.tyHi.code * 16 + e.lo3.val)) e.o3 =
      { Enc.base g M N (e.tyHi.code * 16 + 8 * e.bit3.toNat + e.lo3.val) with
        l := 1, d := e.d, a := e.a, b := e.b, ma := e.ma, mb := e.mb, p2 := e.p2 } := by
  obtain ⟨hC, hc⟩ := Bool.or_eq_false_iff.mp hC
  cases hb : e.bit3 with
  | true =>
    rw [base_def, base_def, ← fx_add8]
    simp [Enc.o3, hb, -bit3_def, Enc.ofO3, cS_p2 hC]
  | false =>
    simp [Enc.rV3, Enc.rV2, hb, -bit3_def, -over_def] at hV hc
    simp [Enc.o3, hb, -bit3_def, Enc.ofO3, ofFin_low, low_val, hV, cV_p2 hC hc, -over_def]

section
variable {e : Enc} {M N : Nat} (hM : e.maj = BitVec.ofNat 6 M) (hN : e.mn = BitVec.ofNat 8 N) (ht : Tidy e)
include hM hN ht

theorem vec1_reads {f : Guard → Vec1 → Instr} (hf : Family f (Enc.ofVec1 · M N ·)) : Reads e (e.vec1 f) := by
  refine reads_some fun hr hn => hf.written trivial ?_
  obtain ⟨hV, hB⟩ := Bool.or_eq_false_iff.mp hr
  refine eq_of_fields hM hN (fx_type e) ((ofO1_o1 hV _ _ _).trans ?_)
  simp at hB hn
  simp [hB, hn, ht.two, ht.three]

theorem vec2_reads {f : Guard → Vec2 → Instr} (hf : Family f (Enc.ofVec2 · M N ·)) : Reads e (e.vec2 f) := by
  refine reads_some fun hr hn => hf.written trivial ?_
  refine eq_of_fields hM hN (fx_type e) ((ofO2_o2 hr _ _ _).trans ?_)
  simp at hn
  simp [hn, ht.two, ht.three]

theorem vec3_reads {f : Guard → Vec3 → Instr} (hf : Family f (Enc.ofVec3 · M N ·)) : Reads e (e.vec3 f) := by
  refine reads_some fun hr hn => hf.written trivial ?_
  obtain ⟨hV, hC⟩ := Bool.or_eq_false_iff.mp hr
  have hl : e.l = 1 := by simpa using hn
  rw [hl] at hC
  refine eq_of_fields hM hN (fx_type e) ((ofO3_o3 hV hC _ _ _).trans ?_)
  simp [hl, ht.three]

theorem vcmp_reads {f : Guard → VCmpArgs → Instr} (h32 : M = 0x32) (hf : Family f (Enc.ofVCmp · N ·)) : Reads e (e.vcmp f) := by
  subst h32
  refine reads_some fun hr hn => hf.written trivial ?_
  obtain ⟨hl, hR⟩ := Bool.or_eq_false_iff.mp hn
  have hF := fx_noRm hR
  simp at hl
  cases hb : e.bit3 with
  | true =>
    rw [hb] at hF
    refine eq_of_fields hM hN hF ?_
    simp [Enc.ofVCmp, -bit3_def, hl, ht.two, ht.three]
  | false =>
    rw [hb] at hF
    simp [hb, -bit3_def, -over_def] at hr
    refine eq_of_fields hM hN hF ?_
    simp [Enc.ofVCmp, -bit3_def, hl, ht.two, ht.three, low_val, hr, -over_def]

theorem vpackD_reads {f : Guard → VPackArgs → Instr} (h34 : M = 0x34) (hf : Family f (Enc.ofPackV · N ·)) : Reads e (e.vpackD f) := by
  subst h34
  refine reads_some fun hr hn => hf.written trivial ?_
  simp [-over_def, -bit3_def, -noRm_def] at hr hn
  obtain ⟨⟨⟨hD, hA⟩, hB⟩, hm⟩ := hr
  obtain ⟨hl, hR, hb⟩ := hn
  have hF := fx_noRm hR
  rw [hb] at hF
  refine eq_of_fields hM hN hF ?_
  simp [Enc.ofPackV, hl, hm, ht.two, ht.three, ofFin_low, low_val, hD, hA, hB, -over_def]

theorem vred_reads {f : Guard → VRedArgs → Instr} (h35 : M = 0x35) (hf : Family f (Enc.ofRed · N ·)) : Reads e (e.vred f) := by
  subst h35
  refine reads_some fun hr hn => hf.written trivial ?_
  simp [-over_def, -bit3_def] at hr hn
  obtain ⟨hA, hB⟩ := hr
  have hF := fx_type e
  rw [hn.2] at hF
  refine eq_of_fields hM hN hF ?_
  simp [Enc.ofRed, hn.1, hB, ht.two, ht.three, low_val, hA, -over_def]

end

section
variable {e : Enc} (ht : Tidy e)
include ht

theorem vcvtD_reads {k : Nat} (hM : e.maj = BitVec.ofNat 6 0x34) (hk : e.mn.toNat / 16 = k) {f : Guard → VCvtArgs → Instr}
    (hf : Family f (Enc.ofCvt · (k * 16) ·)) : Reads e (e.vcvtD f) := by
  refine reads_some fun hr hn => hf.written trivial ?_
  have hN : e.mn = BitVec.ofNat 8 (k * 16 + (Ty.ofCode e.mn.toNat).code) := by
    apply eq_ofNat
    rw [code_ofCode]; omega
  simp only [Bool.or_eq_false_iff] at hr hn
  obtain ⟨⟨hV, hB⟩, hm⟩ := hr
  obtain ⟨hl, hH⟩ := hn
  have hB : e.b.toNat < 2 := by simpa using hB
  have hl : e.l = 0 := by simpa using hl
  have hF := fx_type e
  cases hb : e.bit3 with
  | true =>
    rw [hb] at hF
    have hH : e.b.toNat % 2 ≠ 1 := by simpa [hb, -bit3_def] using hH
    refine eq_of_fields hM hN hF ?_
    simp [Enc.ofCvt, -bit3_def, hl, ht.two, ht.three, hm, ← BitVec.toNat_inj]
    omega
  | false =>
    rw [hb] at hF
    simp [Enc.rV2, hb, -bit3_def, -over_def] at hV
    have hbit : BitVec.ofNat 11 (decide (e.b.toNat % 2 = 1)).toNat = e.b := by
      refine (eq_ofNat ?_).symm
      rcases (by omega : e.b.toNat = 0 ∨ e.b.toNat = 1) with h | h <;> simp [h]
    refine eq_of_fields hM hN hF ?_
    simp [Enc.ofCvt, -bit3_def, hl, ht.two, ht.three, hm, low_val, ofFin_low, hV, hbit, -over_def]

theorem major30_reads (hM : e.maj = BitVec.ofNat 6 0x30) : Reads e e.major30 := by
  unfold Enc.major30
  split
  case h_1 h | h_2 h | h_3 h | h_6 h | h_7 h | h_8 h => exact vec2_reads hM (eq_ofNat h) ht fun _ _ => ⟨rfl, rfl, rfl, fun _ => rfl⟩
  case h_4 h | h_5 h => exact vec3_reads hM (eq_ofNat h) ht fun _ _ => ⟨rfl, rfl, rfl, fun _ => rfl⟩
  case h_9 h | h_10 h => exact vec1_reads hM (eq_ofNat h) ht fun _ _ => ⟨rfl, rfl, rfl, fun _ => rfl⟩
  case h_11 => exact reads_none e

theorem major31_reads (hM : e.maj = BitVec.ofNat 6 0x31) : Reads e e.major31 := by
  unfold Enc.major31
  split
  case h_1 h | h_2 h | h_3 h | h_4 h => exact vec1_reads hM (eq_ofNat h) ht fun _ _ => ⟨rfl, rfl, rfl, fun _ => rfl⟩
  case h_5 h => exact vec2_reads hM (eq_ofNat h) ht fun _ _ => ⟨rfl, rfl, rfl, fun _ => rfl⟩
  case h_6 => exact reads_none e

theorem vsel_reads (hM : e.maj = BitVec.ofNat 6 0x32) (hN : e.mn = BitVec.ofNat 8 0x10) :
    Reads e (some ⟨.vsel e.gd (if e.bit3 then .scl e.tyHi e.dN e.aS e.bS e.cS else .vec e.tyHi e.dV e.aV e.bV e.cS),
      e.rV3 || (decide (e.l = 1) && e.rC), decide (e.l ≠ 1) || e.noRm⟩) := by
  refine reads_some fun hr hn => ?_
  obtain ⟨hV, hC⟩ := Bool.or_eq_false_iff.mp hr
  obtain ⟨hl, hR⟩ := Bool.or_eq_false_iff.mp hn
  have hl : e.l = 1 := by simpa using hl
  have hC : e.rC = false := by simpa [hl] using hC
  have hF := fx_noRm hR
  cases hb : e.bit3 with
  | true =>
    rw [hb] at hF
    refine ⟨eq_of_fields hM hN hF ?_, rfl, rfl, rfl⟩
    simp [fieldsOf, Enc.ofVSel, hl, ht.three, cS_p2 hC]
  | false =>
    rw [hb] at hF
    simp [Enc.rV3, Enc.rV2, hb, -bit3_def, -over_def] at hV
    refine ⟨eq_of_fields hM hN hF ?_, rfl, rfl, rfl⟩
    simp [fieldsOf, Enc.ofVSel, hl, ht.three, cS_p2 hC, low_val, ofFin_low, hV, -over_def]

theorem vmask_reads (hM : e.maj = BitVec.ofNat 6 0x32) (hN : e.mn = BitVec.ofNat 8 0x11) :
    Reads e (some ⟨.vmask e.gd (if e.bit3 then .scl e.tyHi e.dN e.aS else .vec e.tyHi e.dN e.aV),
      (!e.bit3 && Enc.above e.a 64) || e.rB, decide (e.l ≠ 0) || e.noRm⟩) := by
  refine reads_some fun hr hn => ?_
  obtain ⟨hV, hB⟩ := Bool.or_eq_false_iff.mp hr
  obtain ⟨hl, hR⟩ := Bool.or_eq_false_iff.mp hn
  have hF := fx_noRm hR
  simp at hl hB
  cases hb : e.bit3 with
  | true =>
    rw [hb] at hF
    refine ⟨eq_of_fields hM hN hF ?_, rfl, rfl, rfl⟩
    simp [fieldsOf, Enc.ofVMask, hl, hB, ht.two, ht.three]
  | false =>
    rw [hb] at hF
    simp [hb, -bit3_def, -over_def] at hV
    refine ⟨eq_of_fields hM hN hF ?_, rfl, rfl, rfl⟩
    simp [fieldsOf, Enc.ofVMask, hl, hB, ht.two, ht.three, low_val, hV, -over_def]

theorem major32_reads (hM : e.maj = BitVec.ofNat 6 0x32) : Reads e e.major32 := by
  unfold Enc.major32
  split
  case h_1 h | h_2 h | h_3 h | h_4 h | h_5 h | h_6 h | h_7 h =>
    exact vcmp_reads hM (eq_ofNat h) ht rfl fun _ _ => ⟨rfl, rfl, rfl, fun _ => rfl⟩
  case h_8 h => exact vsel_reads ht hM (eq_ofNat h)
  case h_9 h => exact vmask_reads ht hM (eq_ofNat h)
  case h_10 h => exact vec1_reads hM (eq_ofNat h) ht fun _ _ => ⟨rfl, rfl, rfl, fun _ => rfl⟩
  case h_11 => exact reads_none e

theorem major33_reads (hM : e.maj = BitVec.ofNat 6 0x33) : Reads e e.major33 := by
  unfold Enc.major33
  split
  case h_1 h | h_2 h | h_3 h | h_4 h | h_5 h | h_6 h => exact vec2_reads hM (eq_ofNat h) ht fun _ _ => ⟨rfl, rfl, rfl, fun _ => rfl⟩
  case h_7 => exact reads_none e

theorem major34_reads (hM : e.maj = BitVec.ofNat 6 0x34) : Reads e e.major34 := by
  unfold Enc.major34
  split
  case h_1 h h' => exact vpackD_reads hM (eq_ofNat (show e.mn.toNat = 0 by omega)) ht rfl fun _ _ => ⟨rfl, rfl, rfl, fun _ => rfl⟩
  case h_2 h h' => exact vpackD_reads hM (eq_ofNat (show e.mn.toNat = 1 by omega)) ht rfl fun _ _ => ⟨rfl, rfl, rfl, fun _ => rfl⟩
  case h_3 h | h_4 h | h_5 h => exact vcvtD_reads ht hM h fun _ _ => ⟨rfl, rfl, rfl, fun _ => rfl⟩
  case h_6 => exact reads_none e

theorem major35_reads (hM : e.maj = BitVec.ofNat 6 0x35) : Reads e e.major35 := by
  unfold Enc.major35
  split
  case h_1 h | h_2 h | h_3 h => exact vred_reads hM (eq_ofNat h) ht rfl fun _ _ => ⟨rfl, rfl, rfl, fun _ => rfl⟩
  case h_4 h =>
    refine reads_some fun hr hn => ?_
    simp [-over_def, -bit3_def] at hr hn
    have hF := fx_type e
    rw [hn.2] at hF
    refine ⟨eq_of_fields hM (eq_ofNat h) hF ?_, rfl, rfl, rfl⟩
    simp [fieldsOf, hn.1, ht.two, ht.three, low_val, ofFin_low, hr, -over_def]
  case h_5 => exact reads_none e

theorem major36_reads (hM : e.maj = BitVec.ofNat 6 0x36) : Reads e e.major36 := by
  unfold Enc.major36
  split
  case h_1 h =>
    refine reads_some fun hr hn => ?_
    obtain ⟨hl, hv⟩ := Bool.or_eq_false_iff.mp hn
    simp [-over_def] at hr hl
    refine ⟨eq_of_fields hM (eq_ofNat h) (fx_vOnly hv) ?_, rfl, rfl, rfl⟩
    simp [fieldsOf, hl, ht.two, ht.three, low_val, ofFin_low, hr, -over_def]
  case h_2 h =>
    refine reads_some fun hr hn => ?_
    obtain ⟨hl, hv⟩ := Bool.or_eq_false_iff.mp hn
    simp [-over_def] at hr hl
    refine ⟨eq_of_fields hM (eq_ofNat h) (fx_vOnly hv) ?_, rfl, rfl, rfl⟩
    simp [fieldsOf, hl, ht.two, ht.three, ofFin_low, hr, -over_def]
  case h_3 h =>
    refine reads_some fun hr hn => ?_
    obtain ⟨hl, hv⟩ := Bool.or_eq_false_iff.mp hn
    have hl : e.l = 1 := by simpa using hl
    obtain ⟨hV, hC⟩ := Bool.or_eq_false_iff.mp hr
    have hC : e.rC = false := by simpa [hl] using hC
    simp [-over_def] at hV
    refine ⟨eq_of_fields hM (eq_ofNat h) (fx_vOnly hv) ?_, rfl, rfl, rfl⟩
    simp [fieldsOf, hl, ht.three, cS_p2 hC, low_val, ofFin_low, hV, -over_def]
  case h_4 h => exact vec1_reads hM (eq_ofNat h) ht fun _ _ => ⟨rfl, rfl, rfl, fun _ => rfl⟩
  case h_5 h =>
    refine reads_some fun hr hn => ?_
    obtain ⟨hl, hv⟩ := Bool.or_eq_false_iff.mp hn
    simp at hl
    refine ⟨eq_of_fields hM (eq_ofNat h) (fx_vOnly hv) ?_, rfl, rfl, rfl⟩
    simp [fieldsOf, hl, ht.two, ht.three, low_val, hr, -over_def]
  case h_6 h =>
    refine reads_some fun hr hn => ?_
    obtain ⟨hl, hv⟩ := Bool.or_eq_false_iff.mp hn
    simp at hl
    refine ⟨eq_of_fields hM (eq_ofNat h) (fx_vOnly hv) ?_, rfl, rfl, rfl⟩
    simp [fieldsOf, hl, ht.two, ht.three, ofFin_low, hr, -over_def]
  case h_7 => exact reads_none e

end
end Sys2Proof.Laws
end

section
/-! PROOF. The matrix unit's and the tasks' instructions, as they are read, are written back. -/
namespace Sys2Proof.Laws

/-! ### The matrix unit -/

/-- Format MU without a rounding mode; and with NUD 0 as well. -/
theorem fx_nud {e : Enc} (h7 : e.bit7 = false) (hR : e.noRm = false) : e.fx = BitVec.ofNat 8 (e.mid4.val * 8) := by
  have hF := fx_mid h7
  rwa [show e.lo3 = 0 by simpa using hR] at hF

theorem fx_low {e : Enc} (h7 : e.bit7 = false) (hU : e.rNud = false) : e.fx = BitVec.ofNat 8 e.lo3.val := by
  have hF := fx_mid h7
  rw [show e.mid4 = 0 by simpa using hU] at hF
  simpa using hF

theorem fx_none {e : Enc} (h7 : e.bit7 = false) (hU : e.rNud = false) (hR : e.noRm = false) : e.fx = BitVec.ofNat 8 0 := by
  have hF := fx_low h7 hU
  rwa [show e.lo3 = 0 by simpa using hR] at hF

/-- Format TK with NUD 0. -/
theorem fx_task {e : Enc} (h7 : e.bit7 = false) (hU : e.rNud = false) : e.fx = BitVec.ofNat 8 e.tsc := fx_low h7 hU

/-- The tile field written as it was read. -/
theorem ofFin_tile {e : Enc} (h : e.rTile = false) : Enc.ofFin (Enc.low e.b 4) = e.b ∧ e.mb = false := by
  obtain ⟨hB, hm⟩ := Bool.or_eq_false_iff.mp h
  exact ⟨ofFin_low _ hB, hm⟩

section
variable {e : Enc} (ht : Tidy e)
include ht

/-- The extension MATX written as it was read. -/
theorem putMatx_matx (hx : (decide (e.l = 2) && decide (1048576 ≤ e.p3.toNat)) = false) (hl1 : ¬ e.l = 1) (e' : Enc) (h0 : e'.l = 0) (h2' : e'.p2 = 0)
    (h3' : e'.p3 = 0) : e'.putMatx e.matx = { e' with l := e.l, p2 := e.p2, p3 := e.p3 } := by
  rcases ht.lengths with ⟨hl, h2, h3⟩ | ⟨hl, h3⟩ | hl
  · rw [Enc.matx, if_neg (by simp [hl])]
    exact (same_tail (hl.trans h0.symm) (h2.trans h2'.symm) (h3.trans h3'.symm)).symm
  · exact absurd hl hl1
  · have hx : e.p3.toNat < 1048576 := by simpa [hl] using hx
    have h3 : BitVec.ofNat 32 ((BitVec.ofNat 12 e.p3.toNat).toNat + 4096 * (BitVec.ofNat 8 (e.p3.toNat / 4096)).toNat) = e.p3 := by
      refine (eq_ofNat ?_).symm
      rw [BitVec.toNat_ofNat, BitVec.toNat_ofNat]; omega
    rw [Enc.matx, if_pos hl]
    simp only [Enc.putMatx, h3, hl]

section
variable {N : Nat} (hM : e.maj = BitVec.ofNat 6 0x38) (hN : e.mn = BitVec.ofNat 8 N)
include hM hN

theorem mma_reads {f : Guard → MmaArgs → Instr} (hf : Family f (Enc.ofMma · N ·)) : Reads e (e.mma f) := by
  refine reads_some fun hr hn => hf.written trivial ?_
  simp only [Bool.or_eq_false_iff] at hr
  obtain ⟨⟨h7, hT⟩, hx⟩ := hr
  obtain ⟨hB, hm⟩ := ofFin_tile hT
  refine eq_of_fields hM hN (fx_mid h7) ((putMatx_matx ht hx (by simpa using hn) _ rfl rfl rfl).trans ?_)
  simp [hB, hm]

theorem mrot_reads {f : Guard → MrotArgs → Instr} (hf : Family f (Enc.ofMrot · N ·)) : Reads e (e.mrot f) := by
  refine reads_some fun hr hn => hf.written trivial ?_
  simp only [Bool.or_eq_false_iff] at hr
  obtain ⟨⟨h7, hU⟩, hT⟩ := hr
  obtain ⟨hB, hm⟩ := ofFin_tile hT
  simp at hn
  refine eq_of_fields hM hN (fx_low h7 hU) ?_
  simp [Enc.ofMrot, hB, hm, hn, ht.two, ht.three]

end

theorem major38_reads (hM : e.maj = BitVec.ofNat 6 0x38) : Reads e e.major38 := by
  unfold Enc.major38
  split
  case h_1 h | h_2 h | h_3 h | h_5 h | h_6 h | h_7 h | h_8 h | h_9 h | h_10 h =>
    exact mma_reads ht hM (eq_ofNat h) fun _ _ => ⟨rfl, rfl, rfl, fun _ => rfl⟩
  case h_4 h =>
    refine reads_some fun hr hn => ?_
    obtain ⟨h7, hT⟩ := Bool.or_eq_false_iff.mp hr
    obtain ⟨hB, hm⟩ := ofFin_tile hT
    simp at hn
    refine ⟨eq_of_fields hM (eq_ofNat h) (fx_mid h7) ?_, rfl, rfl, rfl⟩
    simp [fieldsOf, hB, hm, hn, ht.two, ht.three]
  case h_11 h | h_12 h | h_13 h => exact mrot_reads ht hM (eq_ofNat h) fun _ _ => ⟨rfl, rfl, rfl, fun _ => rfl⟩
  case h_14 => exact reads_none e

theorem tokArgs_reads {M N : Nat} (hM : e.maj = BitVec.ofNat 6 M) (hN : e.mn = BitVec.ofNat 8 N) {f : Guard → TokArgs → Instr}
    (hf : Family f (Enc.ofTok · M N ·)) : Reads e (e.tokArgs f) := by
  refine reads_some fun hr hn => hf.written trivial ?_
  obtain ⟨h7, hB⟩ := Bool.or_eq_false_iff.mp hr
  obtain ⟨hl, hR⟩ := Bool.or_eq_false_iff.mp hn
  simp at hB hl
  refine eq_of_fields hM hN (fx_nud h7 hR) ?_
  simp [Enc.ofTok, hB, hl, ht.two, ht.three]

theorem mldD_reads {N : Nat} (hM : e.maj = BitVec.ofNat 6 0x39) (hN : e.mn = BitVec.ofNat 8 N) {f : Guard → MldArgs → Instr}
    (hf : Family f (Enc.ofMld · N ·)) : Reads e (e.mldD f) := by
  refine reads_some fun hr hn => hf.written trivial ?_
  obtain ⟨h7, hT⟩ := Bool.or_eq_false_iff.mp hr
  obtain ⟨hl, hR⟩ := Bool.or_eq_false_iff.mp hn
  obtain ⟨hB, hm⟩ := ofFin_tile hT
  simp at hl
  refine eq_of_fields hM hN (fx_nud h7 hR) ?_
  simp [Enc.ofMld, hB, hm, hl, ht.two, ht.three]

theorem mst_written (hM : e.maj = BitVec.ofNat 6 0x39) (h5 : e.mn.toNat / 16 = 5) (h7 : e.mn.toNat % 16 ≠ 7) (hb : e.bit7 = false)
    (hT : e.rTile = false) (hl : e.l = 0) : Written e (.mst e.gd ⟨.ofCode e.mn.toNat, e.lo3, e.mid4, e.tile, e.dN, e.aR⟩) := by
  have hN : e.mn = BitVec.ofNat 8 (0x50 + (Ty.ofCode e.mn.toNat).code) := by
    apply eq_ofNat
    rw [code_ofCode]; omega
  obtain ⟨hB, hm⟩ := ofFin_tile hT
  refine ⟨eq_of_fields hM hN (fx_mid hb) ?_, rfl, ?_, rfl⟩
  · simp [fieldsOf, hB, hm, hl, ht.two, ht.three]
  · have hne : Ty.ofCode e.mn.toNat ≠ .n64 := fun h => h7 ((code_ofCode _).symm.trans (congrArg Ty.code h))
    simpa [Instr.canon] using hne

theorem msave_reads (hM : e.maj = BitVec.ofNat 6 0x39) (hN : e.mn = BitVec.ofNat 8 8) :
    Reads e (some ⟨if e.b = 1 then .msaveRst e.gd ⟨e.dN, e.aR⟩ else .msave e.gd ⟨e.dN, e.aR⟩,
      e.bit7 || e.rNud || e.mb, decide (e.l ≠ 0) || e.noRm || decide (1 < e.b.toNat)⟩) := by
  refine reads_some fun hr hn => ?_
  simp only [Bool.or_eq_false_iff] at hr hn
  obtain ⟨⟨h7, hU⟩, hm⟩ := hr
  obtain ⟨⟨hl, hR⟩, hb⟩ := hn
  have hb : e.b.toNat ≤ 1 := by simpa using hb
  simp at hl
  split
  next h =>
    refine ⟨eq_of_fields hM hN (fx_none h7 hU hR) ?_, rfl, rfl, rfl⟩
    simp [fieldsOf, h, hm, hl, ht.two, ht.three]
  next h =>
    have h : e.b.toNat ≠ 1 := fun h' => h (BitVec.eq_of_toNat_eq h')
    have hb : e.b = 0 := BitVec.eq_of_toNat_eq (by simp; omega)
    refine ⟨eq_of_fields hM hN (fx_none h7 hU hR) ?_, rfl, rfl, rfl⟩
    simp [fieldsOf, hb, hm, hl, ht.two, ht.three]

theorem major39_reads (hM : e.maj = BitVec.ofNat 6 0x39) : Reads e e.major39 := by
  unfold Enc.major39
  split
  next h5 =>
    split
    next => exact reads_none e
    next h7 =>
      refine reads_some fun hr hn => ?_
      obtain ⟨hb, hT⟩ := Bool.or_eq_false_iff.mp hr
      exact mst_written ht hM h5 h7 hb hT (by simpa using hn)
  next =>
    split
    case h_1 h | h_2 h => exact tokArgs_reads ht hM (eq_ofNat h) fun _ _ => ⟨rfl, rfl, rfl, fun _ => rfl⟩
    case h_3 h =>
      refine reads_some fun hr hn => ?_
      simp only [Bool.or_eq_false_iff] at hr hn
      obtain ⟨⟨⟨⟨h7, hU⟩, hD⟩, hA⟩, hT⟩ := hr
      obtain ⟨hl, hR⟩ := hn
      obtain ⟨hB, hm⟩ := ofFin_tile hT
      simp at hl hD hA
      refine ⟨eq_of_fields hM (eq_ofNat h) (fx_none h7 hU hR) ?_, rfl, rfl, rfl⟩
      simp [fieldsOf, hB, hm, hl, hD, hA, ht.two, ht.three]
    case h_4 h | h_5 h => exact mldD_reads ht hM (eq_ofNat h) fun _ _ => ⟨rfl, rfl, rfl, fun _ => rfl⟩
    case h_6 h =>
      refine reads_some fun hr hn => ?_
      simp only [Bool.or_eq_false_iff] at hr hn
      obtain ⟨⟨⟨h7, hU⟩, hD⟩, hB⟩ := hr
      obtain ⟨hl, hR⟩ := hn
      simp at hl hD hB
      refine ⟨eq_of_fields hM (eq_ofNat h) (fx_none h7 hU hR) ?_, rfl, rfl, rfl⟩
      simp [fieldsOf, hB, hl, hD, ht.two, ht.three]
    case h_7 h =>
      refine reads_some fun hr hn => ?_
      simp only [Bool.or_eq_false_iff] at hr hn
      obtain ⟨⟨h7, hU⟩, hA⟩ := hr
      obtain ⟨hl, hR⟩ := hn
      simp at hl hA
      refine ⟨eq_of_fields hM (eq_ofNat h) (fx_none h7 hU hR) ?_, rfl, rfl, rfl⟩
      simp [fieldsOf, hA, hl, ht.two, ht.three, -i13_def, -put13_def, put13_i13]
    case h_8 h => exact msave_reads ht hM (eq_ofNat h)
    case h_9 => exact reads_none e

/-- The fields of DSSCUT's memory kinds. -/
theorem cut_written {k : Nat} (hM : e.maj = BitVec.ofNat 6 0x3A) (hN : e.mn = BitVec.ofNat 8 2) (hk : e.i13.toNat = k) (h7 : e.bit7 = false)
    (hR : e.noRm = false) (hl : e.l = 0) : Enc.ofCut e.gd k ⟨e.mid4, e.dN, e.aR0⟩ = e := by
  refine eq_of_fields hM hN (fx_nud h7 hR) ?_
  simp only [Enc.ofCut, put13_ofNat hk]
  simp [Enc.aR0, hl, ht.two, ht.three]

theorem dsscut_reads (hM : e.maj = BitVec.ofNat 6 0x3A) (hN : e.mn = BitVec.ofNat 8 2) : Reads e e.major3A := by
  have h2 : e.mn.toNat = 2 := congrArg BitVec.toNat hN
  simp only [Enc.major3A, h2]
  split
  case h_1 h =>
    refine reads_some fun hr hn => ?_
    obtain ⟨h7, hU⟩ := Bool.or_eq_false_iff.mp hr
    obtain ⟨hl, hR⟩ := Bool.or_eq_false_iff.mp hn
    obtain ⟨hb, hma, hmb⟩ := i13_zero (eq_ofNat h)
    simp at hl
    refine ⟨eq_of_fields hM hN (fx_none h7 hU hR) ?_, rfl, rfl, rfl⟩
    simp [fieldsOf, Enc.aR0, hb, hma, hmb, hl, ht.two, ht.three]
  case h_2 h | h_4 h | h_5 h =>
    refine reads_some fun hr hn => ?_
    obtain ⟨hl, hR⟩ := Bool.or_eq_false_iff.mp hn
    exact ⟨cut_written ht hM hN h hr hR (by simpa using hl), rfl, rfl, rfl⟩
  case h_3 h =>
    refine reads_some fun hr hn => ?_
    simp only [Bool.or_eq_false_iff] at hr hn
    obtain ⟨⟨h7, hU⟩, hD⟩ := hr
    obtain ⟨hl, hR⟩ := hn
    simp at hl hD
    have hw : { (Enc.base e.gd 0x3A 2 0).put13 e.i13 with a := e.aN.bits } = e := by
      refine eq_of_fields hM hN (fx_none h7 hU hR) ?_
      simp [hD, hl, ht.two, ht.three, -i13_def, -put13_def, put13_i13]
    rw [show e.i13 = 2 from eq_ofNat h] at hw
    exact ⟨hw, rfl, rfl, rfl⟩
  case h_6 => exact reads_some fun _ hn => nomatch hn

theorem major3A_reads (hM : e.maj = BitVec.ofNat 6 0x3A) : Reads e e.major3A := by
  by_cases h2 : e.mn.toNat = 2
  · exact dsscut_reads ht hM (eq_ofNat h2)
  unfold Enc.major3A
  split
  case h_1 h =>
    refine reads_some fun hr hn => ?_
    simp only [Bool.or_eq_false_iff] at hr hn
    obtain ⟨⟨h7, hU⟩, hB⟩ := hr
    obtain ⟨hl, hR⟩ := hn
    simp at hl hB
    refine ⟨eq_of_fields hM (eq_ofNat h) (fx_none h7 hU hR) ?_, rfl, rfl, rfl⟩
    simp [fieldsOf, hB, hl, ht.two, ht.three]
  case h_2 h => exact tokArgs_reads ht hM (eq_ofNat h) fun _ _ => ⟨rfl, rfl, rfl, fun _ => rfl⟩
  case h_3 h => exact absurd h h2
  case h_4 => exact reads_none e

/-! ### Tasks -/

section
variable {N : Nat} (hM : e.maj = BitVec.ofNat 6 0x3C) (hN : e.mn = BitVec.ofNat 8 N)
include hM hN

theorem sendD_reads {f : Guard → SendArgs → Instr} (hf : Family f (Enc.ofSend · N ·)) : Reads e (e.sendD f) := by
  unfold Enc.sendD
  rcases hs : e.scope e.tsc with ⟨sc, fm⟩
  refine reads_some fun hr hn => hf.written trivial ?_
  obtain rfl := hn
  simp only [Bool.or_eq_false_iff] at hr
  obtain ⟨⟨⟨h7, hU⟩, hD⟩, hS⟩ := hr
  obtain ⟨hk, hw⟩ := scope_written ht hs hS
  simp at hD
  have hF := fx_task h7 hU
  rw [← hk] at hF
  refine eq_of_fields hM hN hF ((hw _ rfl rfl rfl).trans ?_)
  simp [hD]

theorem evD_reads {f : Guard → EvArgs → Instr} (hf : Family f (Enc.ofEv · N ·)) : Reads e (e.evD f) := by
  unfold Enc.evD
  rcases hs : e.scope e.tsc with ⟨sc, fm⟩
  refine reads_some fun hr hn => hf.written trivial ?_
  obtain rfl := hn
  simp only [Bool.or_eq_false_iff] at hr
  obtain ⟨⟨h7, hU⟩, hS⟩ := hr
  obtain ⟨hk, hw⟩ := scope_written ht hs hS
  have hF := fx_task h7 hU
  rw [← hk] at hF
  refine eq_of_fields hM hN hF ((hw _ rfl rfl rfl).trans ?_)
  simp

theorem ioD_reads {f : Guard → IoArgs → Instr} (hf : Family f (Enc.ofIo · N ·)) : Reads e (e.ioD f) := by
  unfold Enc.ioD
  rcases hs : e.scope e.tsc with ⟨sc, fm⟩
  refine reads_some fun hr hn => hf.written trivial ?_
  obtain rfl := hn
  simp only [Bool.or_eq_false_iff] at hr
  obtain ⟨⟨h7, hB⟩, hS⟩ := hr
  obtain ⟨hk, hw⟩ := scope_written ht hs hS
  simp at hB
  have hF : e.fx = BitVec.ofNat 8 (e.mid4.val * 8 + e.tsc) := fx_mid h7
  rw [← hk] at hF
  refine eq_of_fields hM hN hF ((hw _ rfl rfl rfl).trans ?_)
  simp [hB]

end

/-- The fields of an instruction that names no scope. -/
theorem fx_noScope (h7 : e.bit7 = false) (hU : e.rNud = false) (hn : e.noScope = false) :
    e.fx = BitVec.ofNat 8 1 ∧ e.l = 0 ∧ e.p2 = 0 ∧ e.p3 = 0 := by
  obtain ⟨hl, hk⟩ := Bool.or_eq_false_iff.mp hn
  have hl : e.l = 0 := by simpa using hl
  have hF := fx_task h7 hU
  rw [show e.tsc = 1 by simpa using hk] at hF
  exact ⟨hF, hl, ht.two hl, ht.three (by simp [hl])⟩

omit ht in
theorem sendRect_reads (hM : e.maj = BitVec.ofNat 6 0x3C) (hN : e.mn = BitVec.ofNat 8 0) (hl : e.l = 2) (h1 : 1 ≤ e.tsc) (h5 : e.tsc ≤ 5) :
    Reads e e.sendRectD := by
  refine reads_some fun hr hn => ?_
  simp only [Bool.or_eq_false_iff] at hr
  obtain ⟨⟨⟨⟨⟨⟨h7, hU⟩, hD⟩, hA⟩, hlow⟩, hhigh⟩, h3⟩ := hr
  simp at hD hA hlow hhigh h3
  have hF := fx_task h7 hU
  rw [← short_val (by omega) h5] at hF
  have h2 : BitVec.ofNat 32 ((BitVec.ofNat 13 e.p2.toNat).toNat + 65536 * (BitVec.ofNat 13 (e.p2.toNat / 65536)).toNat) = e.p2 := by
    refine (eq_ofNat ?_).symm
    rw [BitVec.toNat_ofNat, BitVec.toNat_ofNat]; omega
  refine ⟨eq_of_fields hM hN hF ?_, rfl, rfl, rfl⟩
  simp only [fieldsOf, h2]
  simp [hD, hA, h3, hl]

theorem major3C_reads (hM : e.maj = BitVec.ofNat 6 0x3C) : Reads e e.major3C := by
  unfold Enc.major3C
  dsimp only
  split
  case h_1 h =>
    split
    next hk => exact sendRect_reads hM (eq_ofNat h) hk.1 hk.2.1 hk.2.2
    next => exact sendD_reads ht hM (eq_ofNat h) fun _ _ => ⟨rfl, rfl, rfl, fun _ => rfl⟩
  case h_2 h =>
    rcases hs : e.scope e.tsc with ⟨sc, fm⟩
    refine reads_some fun hr hn => ?_
    obtain rfl := hn
    simp only [Bool.or_eq_false_iff] at hr
    obtain ⟨⟨⟨⟨h7, hU⟩, hD⟩, hA⟩, hS⟩ := hr
    obtain ⟨hk, hw⟩ := scope_written ht hs hS
    simp at hD hA
    have hF := fx_task h7 hU
    rw [← hk] at hF
    refine ⟨eq_of_fields hM (eq_ofNat h) hF ((hw _ rfl rfl rfl).trans ?_), rfl, rfl, rfl⟩
    simp [hD, hA]
  case h_3 h | h_16 h | h_20 h => exact sendD_reads ht hM (eq_ofNat h) fun _ _ => ⟨rfl, rfl, rfl, fun _ => rfl⟩
  case h_4 h | h_5 h | h_8 h => exact evD_reads ht hM (eq_ofNat h) fun _ _ => ⟨rfl, rfl, rfl, fun _ => rfl⟩
  case h_6 h =>
    rcases hs : e.scope e.tsc with ⟨sc, fm⟩
    refine reads_some fun hr hn => ?_
    obtain rfl := hn
    simp only [Bool.or_eq_false_iff] at hr
    obtain ⟨⟨⟨h7, hU⟩, hD⟩, hS⟩ := hr
    obtain ⟨hk, hw⟩ := scope_written ht hs hS
    simp at hD
    have hF := fx_task h7 hU
    rw [← hk] at hF
    refine ⟨eq_of_fields hM (eq_ofNat h) hF ((hw _ rfl rfl rfl).trans ?_), rfl, rfl, rfl⟩
    simp [hD, -i13_def, -put13_def, put13_i13]
  case h_7 h | h_15 h | h_19 h =>
    refine reads_some fun hr hn => ?_
    simp only [Bool.or_eq_false_iff] at hr
    obtain ⟨⟨⟨⟨h7, hU⟩, hD⟩, hA⟩, hB⟩ := hr
    obtain ⟨hF, hl, h2, h3⟩ := fx_noScope ht h7 hU hn
    simp at hD hA hB
    refine ⟨eq_of_fields hM (eq_ofNat h) hF ?_, rfl, rfl, rfl⟩
    simp [fieldsOf, hD, hA, hB, hl, h2, h3]
  case h_9 h =>
    refine reads_some fun hr hn => ?_
    simp only [Bool.or_eq_false_iff] at hr
    obtain ⟨⟨⟨h7, hU⟩, hD⟩, hA⟩ := hr
    obtain ⟨hF, hl, h2, h3⟩ := fx_noScope ht h7 hU hn
    simp at hD hA
    refine ⟨eq_of_fields hM (eq_ofNat h) hF ?_, rfl, rfl, rfl⟩
    simp [fieldsOf, hD, hA, hl, h2, h3, -i13_def, -put13_def, put13_i13]
  case h_10 h | h_11 h | h_12 h | h_13 h => exact ioD_reads ht hM (eq_ofNat h) fun _ _ => ⟨rfl, rfl, rfl, fun _ => rfl⟩
  case h_14 h =>
    refine reads_some fun hr hn => ?_
    simp only [Bool.or_eq_false_iff] at hr
    obtain ⟨⟨h7, hU⟩, hD⟩ := hr
    obtain ⟨hF, hl, h2, h3⟩ := fx_noScope ht h7 hU hn
    simp at hD
    refine ⟨eq_of_fields hM (eq_ofNat h) hF ?_, rfl, rfl, rfl⟩
    simp [fieldsOf, hD, hl, h2, h3]
  case h_17 h | h_18 h =>
    refine reads_some fun hr hn => ?_
    simp only [Bool.or_eq_false_iff] at hr
    obtain ⟨⟨⟨h7, hU⟩, hA⟩, hB⟩ := hr
    obtain ⟨hF, hl, h2, h3⟩ := fx_noScope ht h7 hU hn
    simp at hA hB
    refine ⟨eq_of_fields hM (eq_ofNat h) hF ?_, rfl, rfl, rfl⟩
    simp [fieldsOf, hA, hB, hl, h2, h3]
  case h_21 => exact reads_none e

end
end Sys2Proof.Laws
end

section
/-! PROOF. Every word has one meaning: O44. -/
namespace Sys2Proof.Laws

/-! ### The opcode map -/

/-- Whatever major opcode the fields hold, what is read from them is written back to them. -/
theorem major_reads {e : Enc} (ht : Tidy e) : Reads e e.major := by
  unfold Enc.major
  split
  case h_1 h => exact major01_reads ht (eq_ofNat h)
  case h_2 h => exact major02_reads ht (eq_ofNat h)
  case h_3 h => exact major03_reads ht (eq_ofNat h)
  case h_4 h => exact major04_reads ht (eq_ofNat h)
  case h_5 h => exact major05_reads ht (eq_ofNat h)
  case h_6 h => exact major10_reads ht (eq_ofNat h)
  case h_7 h => exact major11_reads ht (eq_ofNat h)
  case h_8 h => exact major12_reads ht (eq_ofNat h)
  case h_9 h => exact major18_reads ht (eq_ofNat h)
  case h_10 h => exact major1C_reads ht (eq_ofNat h)
  case h_11 h => exact major1D_reads ht (eq_ofNat h)
  case h_12 h => exact major1E_reads ht (eq_ofNat h)
  case h_13 h => exact major1F_reads ht (eq_ofNat h)
  case h_14 h | h_15 h => exact vstride_reads (eq_ofNat h) ht fun _ _ => ⟨rfl, rfl, rfl, fun _ => rfl⟩
  case h_16 h | h_17 h => exact vindex_reads (eq_ofNat h) ht fun _ _ => ⟨rfl, rfl, rfl, fun _ => rfl⟩
  case h_18 h => exact major24_reads ht (eq_ofNat h)
  case h_19 h => exact major25_reads ht (eq_ofNat h)
  case h_20 h => exact major28_reads ht (eq_ofNat h)
  case h_21 h => exact major29_reads ht (eq_ofNat h)
  case h_22 h => exact major2A_reads ht (eq_ofNat h)
  case h_23 h => exact major2C_reads ht (eq_ofNat h)
  case h_24 h => exact major2D_reads ht (eq_ofNat h)
  case h_25 h => exact major2E_reads ht (eq_ofNat h)
  case h_26 h => exact major30_reads ht (eq_ofNat h)
  case h_27 h => exact major31_reads ht (eq_ofNat h)
  case h_28 h => exact major32_reads ht (eq_ofNat h)
  case h_29 h => exact major33_reads ht (eq_ofNat h)
  case h_30 h => exact major34_reads ht (eq_ofNat h)
  case h_31 h => exact major35_reads ht (eq_ofNat h)
  case h_32 h => exact major36_reads ht (eq_ofNat h)
  case h_33 h => exact major38_reads ht (eq_ofNat h)
  case h_34 h => exact major39_reads ht (eq_ofNat h)
  case h_35 h => exact major3A_reads ht (eq_ofNat h)
  case h_36 h => exact major3C_reads ht (eq_ofNat h)
  case h_37 h => exact major3D_reads ht (eq_ofNat h)
  case h_38 => exact reads_none e

/-! ### Steps 5 to 9 of R207 -/

/-- What passes the checks is the instruction of the fields, whose guard, names and form are right. -/
theorem check_ok {e : Enc} {d : Dec} {i : Instr} (h : d.check e = .ok i) :
    d.i = i ∧ d.resv = false ∧ d.form = false ∧ e.gd.ok = true ∧ i.nameProblem = none ∧ i.formOk = true := by
  unfold Dec.check at h
  split at h
  case isTrue => cases h
  case isFalse hg =>
    split at h
    case h_1 => cases h
    case h_2 hn =>
      split at h
      case isTrue => cases h
      case isFalse hf =>
        cases h
        simp [-gd_def] at hg hf
        exact ⟨rfl, hg.2, hf.1, hg.1, hn, hf.2⟩

/-- What the fields decode to is well formed, is named by an encoding, and is written as these fields. -/
theorem decodeFields_written {e : Enc} {i : Instr} (ht : Tidy e) (h : decodeFields e = .ok i) :
    fieldsOf i = e ∧ i.wf = true ∧ i.encodable = true := by
  unfold decodeFields at h
  split at h
  case isTrue => cases h
  case isFalse =>
    split at h
    case h_1 => cases h
    case h_2 d hd =>
      obtain ⟨rfl, hr, hf, hg, hn, hform⟩ := check_ok h
      obtain ⟨hw, henc, hc, hgd⟩ := major_reads ht d hd hr hf
      exact ⟨hw, by simp [Instr.wf, hgd, hg, hn, hform, hc, -gd_def], henc⟩

/-! ### Steps 3 and 4, and the bytes (R196) -/

theorem tidy_unpack {p0 p1 p2 p3 : Parcel} (h : p0.toNat % 4 ≠ 3) : Tidy (Enc.unpack p0 p1 p2 p3) := by
  have hl : (Enc.unpack p0 p1 p2 p3).l.toNat = p0.toNat % 4 := by simp [Enc.unpack]
  refine ⟨by omega, fun h0 => ?_, fun h2 => ?_⟩
  · rw [h0] at hl
    exact if_pos hl.symm
  · rw [hl] at h2
    exact if_pos h2

/-- The parcels of the fields that were read from parcels. -/
theorem parcel0_unpack (p0 p1 p2 p3 : Parcel) : (Enc.unpack p0 p1 p2 p3).parcel0 = p0 := by
  have h0 := p0.isLt
  have h1 := p1.isLt
  refine (eq_ofNat ?_).symm
  simp [Enc.unpack]
  rcases Nat.mod_two_eq_zero_or_one (p0.toNat / 4096) with h | h
  · simp [h]; omega
  · simp [h]; omega

theorem parcel1_unpack (p0 p1 p2 p3 : Parcel) : (Enc.unpack p0 p1 p2 p3).parcel1 = p1 := by
  have h0 := p0.isLt
  have h1 := p1.isLt
  refine (eq_ofNat ?_).symm
  simp [Enc.unpack]
  rcases Nat.mod_two_eq_zero_or_one (p1.toNat / 16384) with h | h
  · rcases Nat.mod_two_eq_zero_or_one (p1.toNat / 32768) with h' | h'
    · simp [h, h']; omega
    · simp [h, h']; omega
  · rcases Nat.mod_two_eq_zero_or_one (p1.toNat / 32768) with h' | h'
    · simp [h, h']; omega
    · simp [h, h']; omega

theorem parcelAt_drop (bs : List Byte) (k : Nat) : parcelAt bs k = parcelAt (bs.drop (4 * k)) 0 := by
  simp [parcelAt]

/-- The bytes of the parcel at the front. -/
theorem parcelBytes_front : ∀ {bs : List Byte}, 4 ≤ bs.length → parcelBytes (parcelAt bs 0) = bs.take 4
  | b0 :: b1 :: b2 :: b3 :: rest, _ => by
    have h0 := b0.isLt
    have h1 := b1.isLt
    have h2 := b2.isLt
    have h3 := b3.isLt
    simp [parcelAt, parcelBytes, ← BitVec.toNat_inj]
    omega

theorem parcelBytes_at {bs : List Byte} {k : Nat} (h : 4 * k + 4 ≤ bs.length) : parcelBytes (parcelAt bs k) = (bs.drop (4 * k)).take 4 := by
  rw [parcelAt_drop]
  exact parcelBytes_front (by rw [List.length_drop]; omega)

/-- The bytes of the fields that were read from bytes. -/
theorem pack_unpack {bs : List Byte} (hl : (parcelAt bs 0).toNat % 4 ≠ 3) (h : 8 + 4 * ((parcelAt bs 0).toNat % 4) ≤ bs.length) :
    (Enc.unpack (parcelAt bs 0) (parcelAt bs 1) (parcelAt bs 2) (parcelAt bs 3)).pack.flatMap parcelBytes
      = bs.take (8 + 4 * ((parcelAt bs 0).toNat % 4)) := by
  have hk : (Enc.unpack (parcelAt bs 0) (parcelAt bs 1) (parcelAt bs 2) (parcelAt bs 3)).l.toNat = (parcelAt bs 0).toNat % 4 := by simp [Enc.unpack]
  have h0 := parcelBytes_at (bs := bs) (k := 0) (by omega)
  have h1 := parcelBytes_at (bs := bs) (k := 1) (by omega)
  unfold Enc.pack
  rw [parcel0_unpack, parcel1_unpack]
  rcases (by omega : (parcelAt bs 0).toNat % 4 = 0 ∨ (parcelAt bs 0).toNat % 4 = 1 ∨ (parcelAt bs 0).toNat % 4 = 2) with hc | hc | hc
  · rw [hk, hc]
    simp only [List.flatMap_cons, List.flatMap_nil, List.append_nil, h0, h1]
    rw [show 8 + 4 * 0 = 4 + 4 from rfl, List.take_add]
    rfl
  · have h2 := parcelBytes_at (bs := bs) (k := 2) (by omega)
    have hp : (Enc.unpack (parcelAt bs 0) (parcelAt bs 1) (parcelAt bs 2) (parcelAt bs 3)).p2 = parcelAt bs 2 := by simp [Enc.unpack, hc]
    rw [hk, hc]
    simp only [hp, List.flatMap_cons, List.flatMap_nil, List.append_nil, h0, h1, h2]
    rw [show 8 + 4 * 1 = 4 + (4 + 4) from rfl, List.take_add, List.take_add, List.drop_drop]
    rfl
  · have h2 := parcelBytes_at (bs := bs) (k := 2) (by omega)
    have h3 := parcelBytes_at (bs := bs) (k := 3) (by omega)
    have hp : (Enc.unpack (parcelAt bs 0) (parcelAt bs 1) (parcelAt bs 2) (parcelAt bs 3)).p2 = parcelAt bs 2 := by simp [Enc.unpack, hc]
    have hq : (Enc.unpack (parcelAt bs 0) (parcelAt bs 1) (parcelAt bs 2) (parcelAt bs 3)).p3 = parcelAt bs 3 := by simp [Enc.unpack, hc]
    rw [hk, hc]
    simp only [hp, hq, List.flatMap_cons, List.flatMap_nil, List.append_nil, h0, h1, h2, h3]
    rw [show 8 + 4 * 2 = 4 + (4 + (4 + 4)) from rfl, List.take_add, List.take_add, List.take_add, List.drop_drop, List.drop_drop]
    rfl

/-- What the decoder accepts: its length, its place in the block, and its fields. -/
theorem decode_fields {off : Nat} {bs : List Byte} {i : Instr} (h : decode off bs = .ok i) :
    (parcelAt bs 0).toNat % 4 ≠ 3 ∧ off + 8 + 4 * ((parcelAt bs 0).toNat % 4) ≤ 32
      ∧ decodeFields (Enc.unpack (parcelAt bs 0) (parcelAt bs 1) (parcelAt bs 2) (parcelAt bs 3)) = .ok i := by
  unfold decode decodeParcels at h
  dsimp only at h
  split at h
  case isTrue => cases h
  case isFalse h3 =>
    split at h
    case isTrue => cases h
    case isFalse hb => exact ⟨h3, by omega, h⟩

end Sys2Proof.Laws

open Sys2Proof Sys2Proof.Laws

/-- Settles O44: each major opcode's reading is written back to the fields it was read from, and the fields to their bytes. -/
theorem everyWordHasOneMeaning : Obligations.EveryWordHasOneMeaning := by
  unfold Obligations.EveryWordHasOneMeaning
  intro off bs i hlen h
  obtain ⟨h3, hoff, hdec⟩ := decode_fields h
  obtain ⟨hw, hwf, henc⟩ := decodeFields_written (tidy_unpack h3) hdec
  have hsize : i.size = 8 + 4 * ((parcelAt bs 0).toNat % 4) := by
    unfold Instr.size
    rw [hw]
    simp [Enc.size, Enc.unpack]
  refine ⟨hwf, henc, by omega, hsize, ?_⟩
  unfold encodeBytes encode
  rw [hw, hsize]
  exact pack_unpack h3 (hsize ▸ hlen)
end

section
/-! PROOF. The round trip of R196 over the instructions one by one. -/
namespace Sys2Proof.Laws.RoundTrip

/-- Each instruction by the lemma of its name; no encoding names an event, TLBI_ASID or TLBI_PARTITION. -/
theorem statement_holds (i : Instr) : Statement i := by
  cases i with
  | add g x => exact add g x | sub g x => exact sub g x | mul g x => exact mul g x | mulh g x => exact mulh g x | div g x => exact div g x
  | rem g x => exact rem g x | min g x => exact min g x | max g x => exact max g x | abs g x => exact abs g x | and g x => exact and g x
  | or g x => exact or g x | xor g x => exact xor g x | andn g x => exact andn g x | shl g x => exact shl g x | shr g x => exact shr g x
  | sra g x => exact sra g x | rot g x => exact rot g x | clz g x => exact clz g x | ctz g x => exact ctz g x | popc g x => exact popc g x
  | brev g x => exact brev g x | bswap g x => exact bswap g x | ext g x => exact ext g x | ins g x => exact ins g x | sel g x => exact sel g x
  | mov g x => exact mov g x | lea g x => exact lea g x | cmpEq g x => exact cmpEq g x | cmpNe g x => exact cmpNe g x
  | cmpLt g x => exact cmpLt g x | cmpLe g x => exact cmpLe g x | cmpGt g x => exact cmpGt g x | cmpGe g x => exact cmpGe g x
  | cmpUn g x => exact cmpUn g x | pand g x => exact pand g x | por g x => exact por g x | pxor g x => exact pxor g x
  | pnot g x => exact pnot g x | pmov g x => exact pmov g x | br g off => exact br g off | jmp g a => exact jmp g a | call g x => exact call g x
  | ret g a => exact ret g a | loop g x => exact loop g x | nop l => exact nop l | brk g v => exact brk g v | setwin g a => exact setwin g a
  | rdwin g d => exact rdwin g d | swctx g a => exact swctx g a | wld g x => exact wld g x | wst g x => exact wst g x
  | wpush g x => exact wpush g x | wscrub g x => exact wscrub g x | wdrain g x => exact wdrain g x | setutw g a => exact setutw g a
  | wret g => exact wret g | ld g x => exact ld g x | ldAcq g x => exact ldAcq g x | st g x => exact st g x | stRel g x => exact stRel g x
  | ldv g x => exact ldv g x | ldvAcq g x => exact ldvAcq g x | stv g x => exact stv g x | stvRel g x => exact stvRel g x
  | ldvs g x => exact ldvs g x | stvs g x => exact stvs g x | ldvx g x => exact ldvx g x | stvx g x => exact stvx g x | ldp g x => exact ldp g x
  | pref g x => exact pref g x | prefL2 g x => exact prefL2 g x | prefMsc g x => exact prefMsc g x | flush g x => exact flush g x
  | flushMem g x => exact flushMem g x | amoAdd g x => exact amoAdd g x | amoAnd g x => exact amoAnd g x | amoOr g x => exact amoOr g x
  | amoXor g x => exact amoXor g x | amoMin g x => exact amoMin g x | amoMax g x => exact amoMax g x | amoSwap g x => exact amoSwap g x
  | amoCas g x => exact amoCas g x | fenceAcq g sc => exact fenceAcq g sc | fenceRel g sc => exact fenceRel g sc
  | fenceFull g sc => exact fenceFull g sc | barinit g x => exact barinit g x | bararr g x => exact bararr g x
  | barwait g x => exact barwait g x | barbytes g x => exact barbytes g x | waitln g x => exact waitln g x | sleep g a => exact sleep g a
  | sleepProm g a => exact sleepProm g a | acopy g x => exact acopy g x | gather g x => exact gather g x | scatter g x => exact scatter g x
  | vadd g x => exact vadd g x | vsub g x => exact vsub g x | vmul g x => exact vmul g x | vfma g x => exact vfma g x
  | vfms g x => exact vfms g x | vdiv g x => exact vdiv g x | vmin g x => exact vmin g x | vmax g x => exact vmax g x
  | vabs g x => exact vabs g x | vneg g x => exact vneg g x | vsqrt g x => exact vsqrt g x | vrsq g x => exact vrsq g x
  | vexp2 g x => exact vexp2 g x | vlog2 g x => exact vlog2 g x | vladd g x => exact vladd g x | vcmpEq g x => exact vcmpEq g x
  | vcmpNe g x => exact vcmpNe g x | vcmpLt g x => exact vcmpLt g x | vcmpLe g x => exact vcmpLe g x | vcmpGt g x => exact vcmpGt g x
  | vcmpGe g x => exact vcmpGe g x | vcmpUn g x => exact vcmpUn g x | vsel g x => exact vsel g x | vmask g x => exact vmask g x
  | vpopc g x => exact vpopc g x | vand g x => exact vand g x | vor g x => exact vor g x | vxor g x => exact vxor g x
  | vshl g x => exact vshl g x | vshr g x => exact vshr g x | vsra g x => exact vsra g x | vpack g x => exact vpack g x
  | vunpack g x => exact vunpack g x | vcvt g x => exact vcvt g x | vcvtSat g x => exact vcvtSat g x | vcvtOvf g x => exact vcvtOvf g x
  | vredadd g x => exact vredadd g x | vredmax g x => exact vredmax g x | vredmin g x => exact vredmin g x | vscan g x => exact vscan g x
  | vperm g x => exact vperm g x | vbcast g x => exact vbcast g x | vshuf g x => exact vshuf g x | vmov g x => exact vmov g x
  | vlds g x => exact vlds g x | vins g x => exact vins g x | mmaF g x => exact mmaF g x | mmaI g x => exact mmaI g x
  | mmaSat g x => exact mmaSat g x | mmaStep g x => exact mmaStep g x | mmas24F g x => exact mmas24F g x | mmas24I g x => exact mmas24I g x
  | mmas24Sat g x => exact mmas24Sat g x | mmas48F g x => exact mmas48F g x | mmas48I g x => exact mmas48I g x
  | mmas48Sat g x => exact mmas48Sat g x | mrotF g x => exact mrotF g x | mrotI g x => exact mrotI g x | mrotSat g x => exact mrotSat g x
  | mlda g x => exact mlda g x | mldb g x => exact mldb g x | mzero g tile => exact mzero g tile | mld g x => exact mld g x
  | mldt g x => exact mldt g x | mthr g a => exact mthr g a | mrd g x => exact mrd g x | msave g x => exact msave g x
  | msaveRst g x => exact msaveRst g x | mst g x => exact mst g x | dssbind g x => exact dssbind g x | dssstep g x => exact dssstep g x
  | dsscutRead g x => exact dsscutRead g x | dsscutImpose g x => exact dsscutImpose g x | dsscutUnimpose g a => exact dsscutUnimpose g a
  | dsscutStoreImage g x => exact dsscutStoreImage g x | dsscutLoadImage g x => exact dsscutLoadImage g x | send g x => exact send g x
  | sendRect g x => exact sendRect g x | spawn g x => exact spawn g x | spawnev g x => exact spawnev g x | evadd g x => exact evadd g x
  | evset g x => exact evset g x | park g x => exact park g x | tend g => exact tend g | launch g x => exact launch g x
  | yield g n => exact yield g n | sread g x => exact sread g x | swrite g x => exact swrite g x | nettx g x => exact nettx g x
  | netrx g x => exact netrx g x | domain g x => exact domain g x | domexit g => exact domexit g | vsend g x => exact vsend g x
  | vtnow g d => exact vtnow g d | gvtrd g d => exact gvtrd g d | safe g => exact safe g | defer g x => exact defer g x
  | trap g v => exact trap g v | rett g => exact rett g | mfs g x => exact mfs g x | mts g x => exact mts g x
  | tlbiPage g x => exact tlbiPage g x | idle g => exact idle g | halt g => exact halt g | censusStore g x => exact censusStore g x
  | censusCompare g x => exact censusCompare g x | censusClear g x => exact censusClear g x | suspend g a => exact suspend g a
  | plsync g a => exact plsync g a | lsfa g a => exact lsfa g a
  | _ => exact fun _ e => absurd e Bool.false_ne_true

end Sys2Proof.Laws.RoundTrip

/-- Settles O43: the decoder reads back each instruction's fields from the bytes that the encoder packed them into. -/
theorem encodingRoundTrip : Obligations.EncodingRoundTrip :=
  fun i off rest hwf henc hfit => Sys2Proof.Laws.RoundTrip.statement_holds i hwf henc off rest hfit

end

section
/-! PROOF. What the decoder refuses, and worked encodings: O45, O46. -/
namespace Sys2Proof.Laws

/-- The opcodes that no instruction has (R208), PERM's apart. -/
def unassignedMajors : List Nat :=
  [0x00, 0x06, 0x07, 0x08, 0x09, 0x0A, 0x0B, 0x0C, 0x0D, 0x0E, 0x0F, 0x13, 0x14, 0x15, 0x16, 0x17, 0x19, 0x1A,
    0x1B, 0x26, 0x27, 0x2B, 0x2F, 0x37, 0x3B, 0x3E]

theorem major_unassigned {e : Enc} (h : e.maj.toNat ∈ unassignedMajors) : e.major = none := by
  unfold Enc.major
  split
  case h_38 => rfl
  all_goals
    next hm =>
      rw [hm] at h
      exact absurd h (by decide)

theorem unpack_maj (p0 p1 p2 p3 : Parcel) : (Enc.unpack p0 p1 p2 p3).maj.toNat = p0.toNat / 4 % 64 := by simp [Enc.unpack]

theorem decodeFields_perm {e : Enc} (h : e.maj.toNat = 0x3F) : decodeFields e = .error .perm :=
  if_pos (BitVec.eq_of_toNat_eq h)

theorem decodeFields_unassigned {e : Enc} (h : e.maj.toNat ∈ unassignedMajors) : decodeFields e = .error .opcode := by
  have hp : e.maj ≠ 0x3F := by
    intro hp
    rw [hp] at h
    exact absurd h (by decide)
  unfold decodeFields
  rw [if_neg hp, major_unassigned h]

/-- An instruction of a length that is there, within the block, is decoded from its fields. -/
theorem decode_inBlock {off : Nat} {bs : List Byte} (h3 : (parcelAt bs 0).toNat % 4 ≠ 3) (hb : off + 8 + 4 * ((parcelAt bs 0).toNat % 4) ≤ 32) :
    decode off bs = decodeFields (Enc.unpack (parcelAt bs 0) (parcelAt bs 1) (parcelAt bs 2) (parcelAt bs 3)) := by
  unfold decode decodeParcels
  dsimp only
  rw [if_neg h3, if_neg (by omega)]

end Sys2Proof.Laws

open Sys2Proof Sys2Proof.Laws

/-- Settles O45: L, the block's end, opcode 0x3F and the opcode map are looked at in this order. -/
theorem decoderRefuses : Obligations.DecoderRefuses := by
  unfold Obligations.DecoderRefuses
  refine ⟨fun off bs h3 => if_pos h3, fun off bs h3 hb => ?_, fun off bs h3 hb hm => ?_, fun off bs h3 hb hm => ?_⟩
  · exact (if_neg h3).trans (if_pos hb)
  · rw [decode_inBlock h3 hb]
    exact decodeFields_perm ((unpack_maj _ _ _ _).trans hm)
  · rw [decode_inBlock h3 hb]
    exact decodeFields_unassigned (by rw [unpack_maj]; exact hm)

/-- Settles O46: each word read through the encoding tables. -/
theorem workedEncodings : Obligations.WorkedEncodings := by
  unfold Obligations.WorkedEncodings
  refine ⟨?_, ?_, ?_, ?_, ?_, ?_, ?_, ?_, ?_⟩ <;> rfl

end

section
/-! PROOF. What a step runs: O47. -/
namespace Sys2Proof.Machine

/-- Bytes that decode issue their instruction (R207). -/
theorem issue_decoded {s t : State} {bs : List Byte} {i : Instr} (hf : s.fetchBytes s.pc = .ok (bs, t))
    (hskip : isSkip (s.pc.toNat % 32) (parcelAt bs 0) = false) (hd : decode (t.pc.toNat % 32) bs = .ok i) : s.issue = .run (t.refine i) t := by
  unfold State.issue
  rw [hf]
  dsimp only
  rw [hskip]
  unfold State.issueBytes
  rw [hd]
  rfl

theorem step_issue {s t : State} {i : Instr} (ha : s.nextAct = .instr) (hi : s.issue = .run i t) : step s = exec i t := by
  unfold step
  rw [ha]
  dsimp only
  rw [hi]

theorem refine_other {s : State} {i : Instr} (h : ∀ g x, i ≠ .tlbiPage g x) : s.refine i = i := by
  unfold State.refine
  split
  case h_1 g x => exact absurd rfl (h g x)
  case h_2 => rfl

theorem refine_tlbi (s : State) (g : Guard) (x : TwoSrc) : s.refine (.tlbiPage g x) =
    if bits (s.take x.b.name).1 1 0 = 1 then .tlbiAsid g x else if bits (s.take x.b.name).1 1 0 = 2 then .tlbiPartition g x else .tlbiPage g x := by
  unfold State.refine
  dsimp only
  split
  case h_1 h => rw [if_pos h]
  case h_2 h => rw [if_neg (by rw [h]; decide), if_pos h]
  case h_3 h1 h2 => rw [if_neg h1, if_neg h2]

/-- Nothing goes before what the core's units offer. -/
theorem firstAct_none {s : State} (hre : s.sys.reissue = []) (hun : s.mem.unsent = []) (ht : s.core.tableHit = false)
    (hm : s.core.machine = [] ∨ s.sched.task = none) (hmiss : s.missed = none) : s.firstAct = none := by
  have hdue : s.machineDue = false := by
    unfold State.machineDue
    rcases hm with h | h
    · simp [h]
    · simp [h]
  unfold State.firstAct
  rw [hre, hun]
  simp [ht, hdue, hmiss]

theorem nextAct_instr {s : State} (hin : s.inputs = []) (hpe : s.peers = []) (hl : s.live = true) (hpol : s.policeInterval = s.mem.policeAt)
    (hf : s.firstAct = none) (hb : s.boundaryEvent = none) (ho : s.offers = []) (hi : s.issues = true) : s.nextAct = .instr := by
  unfold State.nextAct
  rw [if_neg (not_not.mpr hpol), hin, hpe, hf, hb, ho, hl, hi]
  simp [State.dueInput, State.duePeer, choose]

end Sys2Proof.Machine

open Sys2Proof Sys2Proof.Machine

/-- Settles O47: what the fetched bytes decode to issues, and a step without an event runs what issues. -/
theorem stepRunsDecodedInstruction : Obligations.StepRunsDecodedInstruction := by
  unfold Obligations.StepRunsDecodedInstruction
  refine ⟨fun s t bs i ha hf hskip hd => step_issue ha (issue_decoded hf hskip hd), fun s i => refine_other, refine_tlbi, ?_, fun s i ha => ?_⟩
  · intro s hin hpe hhalt hpow hboot hre hun hpol ht hm hmiss hb ho hi
    have hl : s.live = true := by simp [State.live, hhalt, hpow, hboot]
    exact nextAct_instr hin hpe hl hpol (firstAct_none hre hun ht hm hmiss) hb ho hi
  · unfold step
    rw [ha]

end

section
/-! PROOF. The placed instruction is the next to run (log entry 17): O48. -/
namespace Sys2Proof.Machine

/-- The machine that placeWord builds from reset, with any contents of memory. -/
def placed (m : SMap Byte) : State :=
  let s := State.reset.placeWord 0 0
  { s with mem := { s.mem with bytes := m } }

/-- Where the entry of the slot's page lies. -/
def slotEntry : Nat := slotTable + 8 * slotIndex

/-- What placeWord writes into memory. -/
def placedBytes (nbits w : Nat) : SMap Byte := mputs 0 (mputs 0 [] slotPa (wordBytes16 nbits w)) slotEntry (toBytes slotLeaf 8)

theorem placeWord_reset (nbits w : Nat) : State.reset.placeWord nbits w = placed (placedBytes nbits w) := rfl

/-! ### What memory holds -/

/-- Bytes written at consecutive keys are read back. -/
theorem range_mget_mputs {m : SMap Byte} (h : mwf 0 m = true) (i : Nat) (xs : List Byte) :
    ((List.range xs.length).map fun j => mget 0 (mputs 0 m i xs) (i + j)) = xs := by
  apply List.ext_getElem
  · simp
  · intro j _ hj
    rw [List.getElem_map, List.getElem_range, mget_mputs xs m i _ h, if_pos ⟨by omega, by omega⟩, Nat.add_sub_cancel_left, List.getD_eq_getElem _ _ hj]

theorem placedBytes_entry (nbits w : Nat) : ((List.range 8).map fun j => mget 0 (placedBytes nbits w) (slotEntry + j)) = toBytes slotLeaf 8 :=
  range_mget_mputs (mputs_wf _ _ _ rfl) slotEntry (toBytes slotLeaf 8)

theorem placedBytes_word (nbits w : Nat) : ((List.range 16).map fun j => mget 0 (placedBytes nbits w) (slotPa + j)) = wordBytes16 nbits w := by
  rw [← range_mget_mputs (m := []) rfl slotPa (wordBytes16 nbits w)]
  refine List.map_congr_left fun j hj => ?_
  have hj16 : j < 16 := List.mem_range.mp hj
  have hfar : slotPa + 16 ≤ slotEntry := by decide
  exact (mget_mputs _ _ _ _ (mputs_wf _ _ _ rfl)).trans (if_neg fun h => by omega)

/-! ### What the next step does -/

section
variable (m : SMap Byte)

theorem placed_queued (q : Nat) : (placed m).queued q = false := by
  unfold State.queued
  rw [show (placed m).lq q = {} from rfl]
  rfl

theorem placed_launchPull (q : Nat) : (placed m).launchPull q = none := by
  unfold State.launchPull State.launchPlaces
  simp [placed_queued]

theorem placed_startable (q : Nat) : (placed m).startable q = false := by
  unfold State.startable
  rw [placed_queued, Bool.false_and, Bool.false_and]

theorem placed_rootQueue : (placed m).rootQueue = none :=
  show (placed []).rootQueue = none by decide +kernel

theorem placed_launchEvents : (placed m).launchEvents = [] := by
  unfold State.launchEvents
  rw [placed_rootQueue]
  have hread (q : Nat) : (placed m).readingLaunch q = none := rfl
  have hend (q : Nat) : (placed m).endingLaunch q = none := rfl
  simp [placed_startable, placed_launchPull, hread, hend]

theorem placed_reportDue : (placed m).reportDue = false :=
  show (placed []).reportDue = false by decide +kernel

theorem placed_boundaryEvent : (placed m).boundaryEvent = none :=
  show (placed []).boundaryEvent = none by decide +kernel

theorem placed_footprintDue : (placed m).footprintDue = false :=
  show (placed []).footprintDue = false by decide +kernel

theorem placed_offers : (placed m).offers = [] := by
  have hchannel : (placed m).channelEvents = [] := rfl
  have hgrant : (placed m).grantDue = false := rfl
  have hmu : (placed m).muEvents = [] := rfl
  have hsleep : (placed m).sleepEvents = [] := rfl
  have hspun : (placed m).spun = none := rfl
  have hline : (placed m).lineEvents = [] := rfl
  have hring : (placed m).ringlock = none := rfl
  have hflying : (placed m).flyingEvent = [] := rfl
  have hlate : (placed m).lateEntry = none := rfl
  have hdispatch : (placed m).dispatches = false := rfl
  have hhold : (placed m).holdOver = false := rfl
  have hsteal : (placed m).stealReady = false := rfl
  have hinstall : (placed m).installEvent = [] := rfl
  have hpost : (placed m).postable = none := rfl
  have hpull : (placed m).postPull = none := rfl
  have hslice : (placed m).sliceDue = false := rfl
  have hdrain : (placed m).drainLate = false := rfl
  have hlanding : (placed m).landing = [] := rfl
  have hlines : (placed m).mem.lines = [] := rfl
  have hgather : (placed m).eng.gather = [] := rfl
  have hacopy : (placed m).eng.acopy = [] := rfl
  have hio : (placed m).eng.io = [] := rfl
  have hheld : (placed m).sched.held = [] := rfl
  have hpulls : (placed m).mem.pulls = [] := rfl
  unfold State.offers
  rw [placed_launchEvents, placed_reportDue, placed_footprintDue, hchannel, hgrant, hmu, hsleep, hspun, hline, hring, hflying, hlate, hdispatch, hhold,
    hsteal, hinstall, hpost, hpull, hslice, hdrain, hlanding, hlines, hgather, hacopy, hio, hheld, hpulls]
  simp only [onlyIf, positions, List.length_nil, List.range_zero, List.filter_nil, List.map_nil, List.any_nil, List.append_nil, Bool.false_and,
    Option.isSome_none, List.isEmpty_nil, Bool.not_true, Bool.or_false, Bool.false_eq_true, if_false]

theorem placed_nextAct : (placed m).nextAct = .instr :=
  nextAct_instr rfl rfl rfl rfl rfl (placed_boundaryEvent m) (placed_offers m) rfl

end

/-! ### What the fetch finds -/

/-- The leaf of the slot's page, as the fetch finds it. -/
def slotFound : LeafFound :=
  { leaf := { pte := wd slotLeaf, level := 0, va := slotVa.toNat / 2 ^ 42 * 2 ^ 42, size := 2 ^ 42, key := slotEntry }, walked := true }

/-- The state after the fetch: the page's entry, already accessed, has entered the TLBs. -/
def fetched (m : SMap Byte) : State := (placed m).noteLeaf (placed m).who .exec slotFound

/-- Where the slot lies. -/
def slotLoc : Loc := { what := .memory, key := slotPa, level := 0 }

/-- The slot begins a fetch block. -/
theorem slotVa_aligned : slotVa.toNat % 32 = 0 := by decide +kernel

section
variable (m : SMap Byte)

theorem placed_die : (placed m).die = 0 :=
  show (placed []).die = 0 by decide +kernel

theorem placed_memKey (pa : Nat) : (placed m).memKey pa = (placed []).memKey pa := rfl

theorem placed_memKey_entry : (placed m).memKey slotEntry = some slotEntry := (placed_memKey m slotEntry).trans (by decide +kernel)

theorem placed_memKey_word : (placed m).memKey slotPa = some slotPa := (placed_memKey m slotPa).trans (by decide +kernel)

theorem placed_pullCode (loc : Nat) : (placed m).pullCode loc = 0 := by
  unfold State.pullCode
  rw [show mget {} (placed m).sys.vds (placed m).sys.vd = {} from rfl]
  exact if_pos rfl

theorem placed_pageCode (pa : Nat) : (placed m).pageCode pa = 0 := by
  unfold State.pageCode
  rw [placed_pullCode]
  exact ite_self 0

theorem placed_readEntry : (placed m).readEntry 0 slotEntry 0 = .ok (wordOf ((List.range 8).map fun j => mget 0 m (slotEntry + j)), slotEntry) := by
  have hlost : (placed m).firstLost slotEntry 8 = none := rfl
  unfold State.readEntry
  rw [placed_memKey_entry, placed_pageCode, placed_die]
  dsimp only
  rw [if_pos rfl, hlost]
  rfl

theorem placed_topTable (w : Who) : (placed m).topTable w true = .ok (slotTable, []) := by
  have hroot : (placed m).regs.sroot = wd (slotTable + 1) := rfl
  have htable : bits (wd (slotTable + 1)) 55 17 * 2 ^ 17 = slotTable := by decide +kernel
  have hvalid : bit (wd (slotTable + 1)) 0 = true := by decide +kernel
  have hhigh : bits (wd (slotTable + 1)) 63 56 = 0 := by decide +kernel
  have hlow : bits (wd (slotTable + 1)) 16 1 = 0 := by decide +kernel
  have hown : (placed m).ownSlot slotTable = true := rfl
  unfold State.topTable
  rw [hroot]
  simp only [if_true, bind, Except.bind, hvalid, htable, hhigh, hlow, hown]
  rfl

theorem placed_place : (placed m).place slotPa slotFound.leaf = .ok slotLoc := by
  have hdev : slotPa / 2 ^ 48 % 256 = (placed m).regs.devnum := rfl
  have hunits : inUnits (slotPa % 2 ^ 48) = false := by decide +kernel
  have hhost : inHost (slotPa % 2 ^ 48) = false := by decide +kernel
  have hnear : (placed m).isRemote slotPa = false := show (placed []).isRemote slotPa = false by decide +kernel
  have hloc : slotLoc = ⟨.memory, slotPa, pteMt slotFound.leaf.pte, bits slotFound.leaf.pte 12 10, slotFound.leaf.level,
      bit slotFound.leaf.pte 13, false, 0, false⟩ := by
    decide +kernel
  unfold State.place
  dsimp only
  rw [hunits, hhost, placed_memKey_word, hdev, hloc]
  simp [hnear]

theorem fetched_holds : fetched m = ((placed m).holdPath (placed m).who []).holdLeaf (placed m).who true
    ⟨(placed m).regs.partid, (placed m).who.asid, slotFound.leaf.va, slotFound.leaf.size, wd slotLeaf, 0, false⟩ := by
  have hac : slotFound.leaf.pte ||| 0x40 ||| 0 = slotFound.leaf.pte := by decide +kernel
  unfold fetched State.noteLeaf
  change (State.holdLeaf (State.holdPath (if slotFound.leaf.pte ||| 0x40 ||| 0 = slotFound.leaf.pte then placed m else _) (placed m).who []) (placed m).who true
    ⟨(placed m).regs.partid, (placed m).who.asid, _, _, slotFound.leaf.pte ||| 0x40 ||| 0, _, bit (slotFound.leaf.pte ||| 0x40 ||| 0) 5⟩) = _
  rw [hac, if_pos rfl]
  rfl

theorem fetched_regs : (fetched m).regs = (placed m).regs := by rw [fetched_holds]; rfl

theorem fetched_pc : (fetched m).pc = slotVa := by rw [fetched_holds]; rfl

theorem fetched_store : (fetched m).core.store = [] := by rw [fetched_holds]; rfl

theorem fetched_sched : (fetched m).sched = (placed m).sched := by rw [fetched_holds]; rfl

theorem fetched_fetchByte (key : Nat) : (fetched m).fetchByte key = mget 0 m key := by rw [fetched_holds]; rfl

theorem fetched_firstLost : (fetched m).firstLost slotPa 16 = none := by rw [fetched_holds]; rfl

theorem fetched_linkClosed : (fetched m).linkClosed [⟨slotLoc, 0, 16, slotVa⟩] = false := by
  have hown : (decide (slotLoc.what = .memory) && decide (slotLoc.key / 2 ^ 48 ≠ (fetched m).regs.devnum)) = false := by
    rw [fetched_regs]
    rfl
  unfold State.linkClosed
  rw [List.any_cons, List.any_nil, Bool.or_false, hown, Bool.and_false]

theorem placed_walkCache (w : Who) : mget [] (placed m).mem.walkCache ((placed m).viaDie w.via) = [] := rfl
end

section
variable {m : SMap Byte} (h : wordOf ((List.range 8).map fun j => mget 0 m (slotEntry + j)) = wd slotLeaf)
include h

theorem placed_walkEntry : (placed m).walkEntry (placed m).who slotEntry 0 (slotVa.toNat / 2 ^ 42 * 2 ^ 42) (2 ^ 42) = .ok (wd slotLeaf, slotEntry) := by
  unfold State.walkEntry
  rw [placed_walkCache, List.filter_nil]
  change (placed m).readEntry (placed m).die slotEntry 0 = _
  rw [placed_die, placed_readEntry, h]

theorem placed_walkFrom : (placed m).walkFrom (placed m).who slotVa 3 0 slotTable = .ok (slotFound.leaf, []) := by
  unfold State.walkFrom
  change ((placed m).walkEntry (placed m).who slotEntry 0 (slotVa.toNat / 2 ^ 42 * 2 ^ 42) (2 ^ 42) >>= _) = _
  rw [placed_walkEntry h]
  rfl

theorem placed_leafOf : (placed m).leafOf (placed m).who .exec slotVa = .ok slotFound := by
  have hits : (placed m).tlbHits (placed m).who slotVa = [] := rfl
  unfold State.leafOf
  rw [hits, List.filter_nil]
  change ((placed m).topTable (placed m).who true >>= _) = _
  rw [placed_topTable]
  change ((placed m).walkFrom (placed m).who slotVa 3 0 slotTable >>= _) = _
  rw [placed_walkFrom h]
  rfl

theorem placed_translate : (placed m).translate (placed m).who .exec slotVa = .ok (slotLoc, fetched m) := by
  have htop : bits slotVa 63 55 = 0x1FF := by decide +kernel
  have hsup : (placed m).who.sup = true := show (placed []).who.sup = true by decide +kernel
  have haperture : inAperture slotVa = false := by decide +kernel
  have hpa : slotFound.leaf.pa slotVa = slotPa := by decide +kernel
  have hperm : permFault (placed m).who .exec slotFound.leaf.pte slotPa = none :=
    show permFault (placed []).who .exec slotFound.leaf.pte slotPa = none by decide +kernel
  unfold State.translate
  simp only [htop, hsup, haperture, placed_leafOf h, hpa, hperm, placed_place, placed_pageCode, bind, Except.bind]
  simp [slotLoc, fetched]

theorem placed_translateAll : (placed m).translateAll (placed m).who .exec slotVa 0 16 (pagesOf 16) =
    .ok ([⟨slotLoc, 0, 16, slotVa⟩], fetched m) := by
  have hva : slotVa + wd 0 = slotVa := by decide +kernel
  have hlen : min 16 (65536 - slotVa.toNat % 65536) = 16 := by decide +kernel
  change (placed m).translateAll (placed m).who .exec slotVa 0 16 2 = _
  unfold State.translateAll
  simp only [hva, hlen, placed_translate h]
  rfl

theorem placed_fetchBytes : (placed m).fetchBytes slotVa = .ok ((List.range 16).map fun j => mget 0 m (slotPa + j), fetched m) := by
  have hn : min 16 (32 - slotVa.toNat % 32) = 16 := by decide +kernel
  have hcached : (decide (slotLoc.what = .memory) && decide (slotLoc.mt = 1)) = false := by decide +kernel
  unfold State.fetchBytes
  rw [hn]
  simp only [placed_translateAll h, List.foldl_cons, List.foldl_nil, hcached, Bool.false_eq_true, if_false, fetched_linkClosed, List.findSome?_cons]
  simp [slotLoc, fetched_firstLost, fetched_fetchByte]

end
end Sys2Proof.Machine

open Sys2Proof Sys2Proof.Machine

/-- Settles O48: the fetch at the slot finds the page's entry and the bytes that were placed there. -/
theorem placedInstructionRuns : Obligations.PlacedInstructionRuns := by
  unfold Obligations.PlacedInstructionRuns
  intro nbits w i hdec
  have hd : decode 0 (wordBytes16 nbits w) = .ok i := by
    unfold decodeTableWord at hdec
    change (decode 0 (wordBytes16 nbits w)).toOption = some i at hdec
    cases hx : decode 0 (wordBytes16 nbits w) with
    | ok j => rw [hx] at hdec; exact congrArg _ (Option.some.inj hdec)
    | error e => rw [hx] at hdec; cases hdec
  rw [show State.reset.withFetchWord nbits w = placed (placedBytes nbits w) from placeWord_reset nbits w]
  have hfetch := placed_fetchBytes (m := placedBytes nbits w) (by rw [placedBytes_entry]; decide +kernel)
  rw [placedBytes_word] at hfetch
  have hskip : isSkip (slotVa.toNat % 32) (parcelAt (wordBytes16 nbits w) 0) = false := by rw [slotVa_aligned]; rfl
  have hdecode : decode ((fetched (placedBytes nbits w)).pc.toNat % 32) (wordBytes16 nbits w) = .ok i := by
    rw [fetched_pc, slotVa_aligned]
    exact hd
  exact ⟨fetched (placedBytes nbits w), step_issue (placed_nextAct _) (issue_decoded hfetch hskip hdecode), fetched_regs _, fetched_pc _,
    fetched_store _, fetched_sched _⟩

end

section
/-! PROOF. What comes before a guard (R199, R203, R207): O51. -/
namespace Sys2Proof.Machine

/-- MMA.F under p1, with a MATX whose KLIM is above 124. -/
def klimTooHigh : Instr := .mmaF { p := 1 } ⟨0, 15, 0, .w 40, ⟨.w 20, false⟩, some ⟨125, 0, 0⟩⟩

theorem klimTooHigh_wf : klimTooHigh.wf = true := by decide

/-- The form of MATX is checked before the guard: FORM, at a TWIN of LIMIT 0, halts the partition. -/
theorem klimTooHigh_halts : ∃ t, exec klimTooHigh State.reset = .next t ∧ t.sys.halted = true := ⟨_, rfl, rfl⟩

/-- At reset p1 is 0, so the guard is false. -/
theorem klimTooHigh_skips : Skips State.reset klimTooHigh { p := 1 } (State.reset.awake.past (State.reset.ctx klimTooHigh)) := ⟨_, rfl, rfl⟩

end Sys2Proof.Machine

open Sys2Proof Sys2Proof.Machine

/-- Refutes O51: a MATX whose KLIM is above 124 takes FORM before the guard is read (R203, R207 step 9), so MMA.F under a guard that is false at reset
does not complete. -/
theorem not_guardsDecideExecution : ¬ Obligations.GuardsDecideExecution := by
  unfold Obligations.GuardsDecideExecution
  intro h
  obtain ⟨-, -, -, hskip, -⟩ := h
  have hc : Completes State.reset klimTooHigh _ := hskip klimTooHigh { p := 1 } State.reset _ rfl trivial klimTooHigh_skips
  obtain ⟨t, ht, hhalt⟩ := klimTooHigh_halts
  have := Host.Outcome.next.inj (ht.symm.trans hc)
  rw [this] at hhalt
  exact absurd hhalt (by decide)

end

section
/-! PROOF. The mode an instruction needs before its guard is read (R213, R238, R310): O52. -/
namespace Sys2Proof.Machine

section
variable {i : Instr} {s : State} (h : s.mode = 1 ∨ s.mode = 2)
include h

theorem taskMode_err : taskMode (s.ctx i) s.awake = .error (.trap cILLEGAL (illInfo Ill.form.code i.parcel0)) :=
  if_pos ((Bool.or_eq_true_iff ..).trans (or_congr decide_eq_true_iff decide_eq_true_iff) |>.mpr h)

theorem taskForm_err (ok : Bool) : taskForm ok (s.ctx i) s.awake = .error (.trap cILLEGAL (illInfo Ill.form.code i.parcel0)) := by
  cases ok with
  | true => exact taskMode_err h
  | false => rfl

theorem raises_runTask {g : Guard} {body : Ctx → State → Res State} (he : exec i s = runTask i g body s) :
    Raises s i cILLEGAL (illInfo Ill.form.code i.parcel0) := raises_runEnd_priv he (taskMode_err h)

theorem raises_runForm {g : Guard} {ok : Bool} {body : Ctx → State → Res State} (he : exec i s = runForm i g ok body s) :
    Raises s i cILLEGAL (illInfo Ill.form.code i.parcel0) := raises_runEnd_priv he (taskForm_err h ok)

end

theorem tendMode_err {i : Instr} {s : State} (h : s.mode = 1) :
    tendMode (s.ctx i) s.awake = .error (.trap cILLEGAL (illInfo Ill.form.code i.parcel0)) :=
  if_pos h

/-- A supervisor's instruction outside MODE 2. -/
theorem raises_supOnly {i : Instr} {g : Guard} {body : Ctx → State → Res Ended} {s : State} (hm : s.mode ≠ 2)
    (he : exec i s = runEnd i g supOnly body s) : Raises s i cPRIV (privInfo 0 i.parcel0) := raises_runEnd_priv he (supOnly_err hm)

theorem raises_wret {g : Guard} {s : State} (hm : s.mode ≠ 1) : Raises s (.wret g) cPRIV (privInfo 0 (Instr.wret g).parcel0) :=
  raises_runEnd_priv (exec_wret g s) (need_trap (decide_eq_false hm))

/-- A task's instruction in MODE 1, or in MODE 2 where it is not TEND. -/
theorem raises_taskInstr {i : Instr} {s : State} (h : s.mode = 1 ∨ s.mode = 2) (hearly : ¬ earlyMode s.mode i) (hw : ∀ g, i ≠ .wret g)
    (hr : ∀ g, i ≠ .rett g) (hid : ∀ g, i ≠ .idle g) (hh : ∀ g, i ≠ .halt g) (h0 : ∀ g x, i ≠ .tlbiPage g x) (h1 : ∀ g x, i ≠ .tlbiAsid g x)
    (h2 : ∀ g x, i ≠ .tlbiPartition g x) : Raises s i cILLEGAL (illInfo Ill.form.code i.parcel0) := by
  cases i with
  | send => exact raises_runTask h (by unfold exec execSend; rfl)
  | spawn => exact raises_runTask h (by unfold exec execSpawn; rfl)
  | spawnev => exact raises_runTask h (by unfold exec execSpawnev; rfl)
  | launch => exact raises_runTask h (by unfold exec execLaunch; rfl)
  | domain => exact raises_runTask h (by unfold exec execDomain; rfl)
  | domexit => exact raises_runTask h (by unfold exec execDomexit; rfl)
  | vsend => exact raises_runTask h (by unfold exec execVsend; rfl)
  | defer => exact raises_runTask h (by unfold exec execDefer; rfl)
  | safe => exact raises_runTask h (by unfold exec execSafe; rfl)
  | evadd | evset | sread | swrite | nettx | netrx => exact raises_runTask h rfl
  | sendRect => exact raises_runForm h (by unfold exec execSendRect; rfl)
  | park => exact raises_runEnd_priv (by unfold exec execPark; rfl) (taskForm_err h _)
  | yield => exact raises_runEnd_priv (by unfold exec execYield; rfl) (taskForm_err h _)
  | tend => exact raises_runEnd_priv (by unfold exec execTend; rfl) (tendMode_err (not_not.mp hearly))
  | wret g => exact absurd rfl (hw g)
  | rett g => exact absurd rfl (hr g)
  | idle g => exact absurd rfl (hid g)
  | halt g => exact absurd rfl (hh g)
  | tlbiPage g x => exact absurd rfl (h0 g x)
  | tlbiAsid g x => exact absurd rfl (h1 g x)
  | tlbiPartition g x => exact absurd rfl (h2 g x)
  | _ => exact absurd trivial hearly

end Sys2Proof.Machine

open Sys2Proof Sys2Proof.Machine

/-- Settles O52: the check of the mode is the first thing each of these instructions does, before its guard is read. -/
theorem earlyModeTraps : Obligations.EarlyModeTraps := by
  unfold Obligations.EarlyModeTraps
  refine ⟨fun g s hm i hi => ?_, fun g x s hm i hi => ?_, fun g s hm => raises_wret hm, fun i s => raises_taskInstr⟩
  · simp only [List.mem_cons, List.not_mem_nil, or_false] at hi
    obtain rfl | rfl | rfl := hi
    · exact raises_supOnly hm (exec_rett g s)
    · exact raises_supOnly hm (by unfold exec execIdle; rfl)
    · exact raises_supOnly hm (by unfold exec execHalt; rfl)
  · simp only [List.mem_cons, List.not_mem_nil, or_false] at hi
    obtain rfl | rfl | rfl := hi
    · exact raises_supOnly hm rfl
    · exact raises_supOnly hm rfl
    · exact raises_supOnly hm rfl

end
